-- ==== Sys2Proof/Word.lean ====
section
/-! DEFINITION. Machine words and their plainest arithmetic: the byte, the 32-bit register word (R10), the 64-bit
register, and the extraction and replacement of a bit range (R6: "[31:16] high bit : low bit, inclusive"). -/

namespace Sys2Proof

/-- A byte of memory (R8: little-endian everywhere). -/
abbrev Byte := BitVec 8
/-- A register word (R10). -/
abbrev W32 := BitVec 32
/-- A 64-bit register, an s-register or an a-register (R10, R281). -/
abbrev W64 := BitVec 64

/-- The `w` bits of `x` from bit `lo` up, as a number. -/
def natBits (x lo w : Nat) : Nat := (x / 2 ^ lo) % 2 ^ w

/-- The `w` bits of `x` from bit `lo` up. -/
def bitsOf {n : Nat} (x : BitVec n) (lo w : Nat) : Nat := natBits x.toNat lo w

/-- Bit `i` of `x`. -/
def bitOf {n : Nat} (x : BitVec n) (i : Nat) : Bool := natBits x.toNat i 1 == 1

/-- `x` with the `w` bits from `lo` up replaced by the low `w` bits of `v`. -/
def putBits {n : Nat} (x : BitVec n) (lo w v : Nat) : BitVec n :=
  BitVec.ofNat n (x.toNat - natBits x.toNat lo w * 2 ^ lo + (v % 2 ^ w) * 2 ^ lo)

/-- 0 or 1. -/
def boolNat (b : Bool) : Nat := if b then 1 else 0

/-- The signed reading of the low `w` bits of `x` (two's complement). -/
def signedBits (x w : Nat) : Int :=
  let v := x % 2 ^ w
  if v < 2 ^ (w - 1) then (v : Int) else (v : Int) - (2 ^ w : Nat)

/-- The low `w` bits of the two's complement form of an integer. -/
def intBits (w : Nat) (i : Int) : Nat := (i % ((2 ^ w : Nat) : Int)).toNat

/-- The low word of a 64-bit register. -/
def loWord (x : W64) : W32 := BitVec.ofNat 32 x.toNat
/-- The high word of a 64-bit register. -/
def hiWord (x : W64) : W32 := BitVec.ofNat 32 (x.toNat / 2 ^ 32)
/-- A 64-bit register from its two words (R10: the low word at the lower offset). -/
def mkWord64 (hi lo : W32) : W64 := hi ++ lo

/-- The `n` bytes of `v`, least significant first (R8). -/
def leBytes : Nat → Nat → List Byte
  | 0, _ => []
  | n + 1, v => BitVec.ofNat 8 v :: leBytes n (v / 256)

/-- The number whose bytes, least significant first, are the list (R8). -/
def leNat : List Byte → Nat
  | [] => 0
  | b :: bs => b.toNat + 256 * leNat bs

/-- Serial comparison of 32-bit numbers (R27): `a` is later than `b`. -/
def serialLater (a b : W32) : Bool :=
  let d := (a - b).toNat
  decide (1 ≤ d) && decide (d < 2 ^ 31)

/-- Serial comparison: `a` is at or after `b`. -/
def serialGe (a b : W32) : Bool := decide ((a - b).toNat < 2 ^ 31)

end Sys2Proof
end

