-- ==== Sys2Proof/Syntax.lean ====
section
/-! DEFINITION. The commands and events of the module (spec/opcode_table.json), one constructor of `Instr` per row, with
what each carries from outside: an address, a value, a path, a physical measurement, an arrival. -/

namespace Sys2Proof

/-- The two mills (R30). -/
inductive MillId where
  | m0 | m1
deriving DecidableEq, Repr

/-- The four access paths of register space (R11). -/
inductive Path where
  | pcie | chain | sys0 | sys1
deriving DecidableEq, Repr

/-- The two contexts of a miller (R280). -/
inductive Ctx where
  | user | system
deriving DecidableEq, Repr

/-- The pages of register space (R588, R596). -/
inductive Page where
  | directory | host | supply | clock | trust | leat | history | pond
  | ikiug (m : MillId) | command (m : MillId) | power (m : MillId) | timer (m : MillId) (n : Fin 4)
  | race (m : MillId) | governor (m : MillId) | bolter (m : MillId) | ledger (m : MillId)
  | sluice (m : MillId) | granary (m : MillId) | toll (m : MillId) | log (m : MillId) | watch (m : MillId)
  | floor (m : MillId) (n : Fin 5) | stone (m : MillId) (n : Fin 24)
  | hbm (m : MillId) (n : Fin 10) | ddr (m : MillId) (n : Fin 8) | leatPort (m : MillId) (n : Fin 12)
deriving DecidableEq, Repr

/-- What the error code of a memory, bank or buffer says of a word read (R79, R270). A command that reads memory carries, in order, the
outcomes of the words that it reads; a word beyond the list is good. -/
inductive Ecc where
  | good | corrected | uncorrectable
deriving DecidableEq, Repr

/-- An operand of a command, with the outcomes of the words that the command reads. -/
structure Coded (α : Type) where
  of    : α
  codes : List Ecc
deriving DecidableEq, Repr

/-- The way a flit leaves a node of the floor: along x or y, up or down (R352), or over the shaft. -/
inductive LinkWay where
  | xUp | xDown | yUp | yDown | shaft
deriving DecidableEq, Repr

/-- A unit of the module, by the kinds of R423. -/
inductive UnitKind where
  | stone | stoneRow | vectorUnit | miller | hbm | ddr | leatPort | shaft | governorStage | bolter | module
deriving DecidableEq, Repr

/-- A unit: its kind and its index as R423 numbers it. -/
structure UnitRef where
  kind  : UnitKind
  index : Nat
deriving DecidableEq, Repr

/-- What a start-up stage found when it completed (R523 to R525): the measurements and the physical results. -/
structure StageReport where
  /-- edges per window, in 1/16 edge, as measured in stage 2 (R516) -/
  refCal      : BitVec 16
  /-- the core rails reached regulation (stage 5) -/
  railOk      : Bool
  /-- units that failed in training or self-test (stages 6 to 8) -/
  failed      : List UnitRef
  /-- the serial number of the DIMM in each of the 16 sockets; 0 = empty (R631, R632) -/
  dimmSerials : List Nat
  /-- the PCI Express link came up in stage 7 -/
  pcieUp      : Bool
  /-- its width, its speed code (R497) and whether it trained in FLIT mode -/
  pcieWidth   : Nat
  pcieSpeed   : Nat
  pcieFlit    : Bool
deriving DecidableEq, Repr

/-- Why the emergency brake trips (R509). -/
inductive TripCause where
  /-- the core current of a mill, in amperes, above its OC_LIMIT -/
  | current (m : MillId) (amps : BitVec 11)
  /-- the instantaneous input power, in watts, above 4,750 W -/
  | power (watts : BitVec 13)
deriving DecidableEq, Repr

/-- Where a bundle comes from: the user context's image, or a firmware bundle (the firmware's own code is no part of
the manual, so the bundle it presents is an operand). -/
inductive FetchSource where
  | image | firmware (bundle : BitVec 512)
deriving DecidableEq, Repr

/-- A memory port of the module (R39). -/
inductive PortRef where
  | hbm (m : MillId) (n : Fin 10) | ddr (m : MillId) (n : Fin 8)
deriving DecidableEq, Repr

/-- What a Leat receiver gets: a codeword that its code cannot correct, or a flit of 544 bytes (R357, R358). -/
inductive RxWord where
  | lost
  | flit (header : BitVec 256) (payload : List Byte) (corrected : Nat)
deriving DecidableEq, Repr

/-- The numbers that wrap (R394). -/
inductive WrapKind where
  | epoch | sequence | generation
deriving DecidableEq, Repr

/-- The commands and events of the module, one constructor per row of the table. -/
inductive Instr where
  -- supply, start-up and resets
  | inputReset (centivolts : BitVec 16)
  | startupStageDone (r : StageReport)
  | chainBypassOpen
  | inputRange (centivolts : BitVec 16)
  | inputOvervoltage (centivolts : BitVec 16)
  | inputUndervoltage (centivolts : BitVec 16)
  | islandPowerLoss (centivolts : BitVec 16)
  | junctionTrip (m : MillId) (sensor : Fin 32)
  | thermalRestart
  | moduleReset (p : Path)
  | millerReset (p : Path) (m : MillId)
  | systemContextEccReset (m : MillId)
  | powerOn (p : Path)
  | powerDown (p : Path)
  | releaseCap (p : Path)
  | perstAssert
  | linkDown
  | linkUp (width : BitVec 5) (speed : BitVec 3) (flit : Bool)
  | d3hotEnter
  | d3hotExit
  | inputSample (watts : BitVec 13)
  | brakeCapRaise
  | ebrakeTrip (c : TripCause)
  | ebrakeRelease (amps0 amps1 : BitVec 11)
  | canaryMeasure (m : MillId) (rates : List (BitVec 12))
  | voltageControlTick (m : MillId)
  | stoneGate (m : MillId) (n : Fin 24)
  | stoneUngateDone (m : MillId) (n : Fin 24)
  | timerExpired (m : MillId) (t : Fin 4)
  | refLost
  | refWindow (edges : BitVec 16)
  | pllStop
  | refRecovery
  | refWaitExpired
  -- the millers
  | bundleFetch (m : MillId) (c : Ctx) (src : FetchSource) (codes : List Ecc)
  | bundleIssue (m : MillId) (c : Ctx) (ecc : Ecc) (codes : List Ecc)
  | vectorOpDone (m : Coded MillId)
  | raceOpDone (m : MillId) (k : Nat)
  | waitTimeout (m : MillId)
  | remoteTpostArrive (m : MillId)
  | engineFault (m : MillId)
  -- commands
  | cmdWord (p : Path) (m : MillId) (offset : BitVec 12) (w : W32)
  | resetAsm (p : Path) (m : MillId)
  | run (m : MillId)
  | load (m : MillId) (codes : List Ecc)
  | mark (m : MillId)
  | commandComplete (m : MillId)
  | cmdAbort (p : Path) (m : MillId) (seq : W32)
  | flush (p : Path) (m : MillId)
  | replay (m : MillId)
  | replayRestart (m : MillId)
  | retirementApply
  -- stones
  | shadowBroadcast (m : MillId) (n : Coded (Fin 24))
  | swap (m : MillId) (n : Fin 24)
  | rowShift (m : MillId) (n : Fin 24)
  | stonePass (m : MillId) (n : Fin 24) (codes : List Ecc)
  | wavefrontDone (m : MillId) (n : Fin 24)
  | passAbort (m : MillId) (n : Fin 24)
  | abortDone (m : MillId) (n : Fin 24)
  | bankDrain (m : MillId) (n : Fin 24) (codes : List Ecc)
  | apply (p : Path) (m : MillId) (n : Fin 24)
  | selftest (p : Path) (m : MillId) (n : Fin 24)
  | repairRun (m : MillId) (n : Fin 24)
  | selftestDone (m : MillId) (n : Fin 24) (failing : List (Fin 261)) (pathFault : Bool)
  -- race
  | columnHop (m : MillId) (stream : Fin 4) (pos : Fin 24)
  | headraceEntry (m : MillId) (stream : Coded (Fin 4))
  | tailraceWrite (m : MillId) (stream : Fin 4)
  | spliceBegin
  | spliceEnd
  | compatChange (m : MillId)
  -- governor
  | lineWrite (m : MillId) (stage : Fin 14) (codes : List Ecc)
  -- bolter
  | updateStart (m : MillId) (codes : List Ecc)
  | updateComplete (m : MillId)
  | boltPark (m : MillId)
  | boltResume (p : Path) (m : Coded MillId)
  | writeback (p : Path) (m : MillId)
  -- sluices and memory
  | transferStart (m : MillId) (q : Coded (Fin 16))
  | chunkTranslate (m : MillId) (q : Fin 16) (codes : List Ecc)
  | granuleComplete (m : MillId) (q : Fin 16) (pick : BitVec 16) (codes : List Ecc)
  | chunkComplete (m : MillId) (q : Fin 16) (pick : Coded (BitVec 16))
  | weightCacheFill (m : MillId) (line : BitVec 44) (victim : Fin 16)
  | resume (p : Path) (m : MillId) (q : Fin 16)
  | fail (p : Path) (m : MillId) (q : Fin 16)
  | tlbInvalAll (p : Path) (m : MillId)
  | tlbInvalPage (p : Path) (m : MillId)
  | tlbInvalDone (m : MillId)
  | scrubRead (port : PortRef) (addr : BitVec 44) (ecc : Ecc)
  | granPinApply (m : MillId)
  -- floor
  | planApplied (m : MillId)
  | floorFlitHop (m : MillId) (x : Fin 8) (y : Fin 6) (way : LinkWay)
  | forkSend (m : MillId) (branches : BitVec 3) (waited : W32)
  | memoryRetrain (port : PortRef) (active : Bool)
  -- Leat
  | flitReceive (port : Fin 24) (rx : Coded RxWord)
  | ackTimeout (port : Fin 24)
  | epochResend (port : Fin 24)
  | clearSend (group : BitVec 12)
  | laneDrop (port : Fin 24) (lane : Fin 8)
  | portTrainDone (port : Fin 24) (lanes : BitVec 8) (partner : BitVec 16)
  | trainAttempt (port : Fin 24)
  | retrain (p : Path) (port : Fin 24)
  | memberSuspect (group : BitVec 12) (rank : BitVec 16)
  | timeSyncTick
  | timeLost
  | timeSet (p : Path) (value : W64)
  | groupLoad (p : Path) (group : Coded (BitVec 12))
  | drop (p : Path) (group : BitVec 12)
  | routeData (p : Path) (w : W32)
  | wrapNear (k : WrapKind)
  -- silent errors
  | tollPass (m : MillId) (stone : Fin 24)
  | tollPassDone (m : MillId)
  | tollDrain (m : MillId)
  | retire (p : Path) (kind : BitVec 4) (index : BitVec 16)
  | retireRestore (p : Path) (kind : BitVec 4) (index : BitVec 16)
  -- pond copies
  | take (p : Path)
  | pondCopyBegin
  | pondPageCopy (m : MillId) (codes : List Ecc)
  | pondTouchCopy (m : MillId) (codes : List Ecc)
  | pondAbort (p : Path)
  | exported (p : Path) (slot : Bool)
  | pondRestore (p : Path) (slot settings : Bool)
  | receive (p : Path) (slot : Bool)
  -- host port
  | chuteInWord (byteEnables : BitVec 4) (w : W32)
  | chuteInDestWrite (p : Path) (value : W64)
  | chuteInDoneRead
  | start (p : Path)
  | stop (p : Path)
  | chuteOutDone
  | evtFifoRead (p : Path)
  | evtEn (p : Path) (page : Page) (w : W32)
  | evtClr (p : Path) (page : Page) (w : W32)
  -- hoist chain: the 124 bits of a frame as they arrive (R489), and the level of ENUM_IN for an ENUMERATE
  | read (frame : BitVec 124)
  | write (frame : BitVec 124)
  | result (frame : BitVec 124)
  | enumerate (frame : BitVec 124) (enumIn : Bool)
  | forget (frame : BitVec 124)
  | poll (frame : BitVec 124)
  | chainReadDone (tag : Byte)
  | hoistDataWrite (p : Path) (w : W32)
  | hoistDataRead (p : Path)
  -- claims
  | acquire (p : Path) (page : Page) (code : BitVec 4)
  | release (p : Path) (page : Page) (code : BitVec 4)
  -- log and tensor watch
  | logHoldSample (m : MillId) (c : Ctx)
  | logTriggered (m : MillId)
  | arm (p : Path) (m : MillId)
  | trigNow (p : Path) (m : MillId)
  | logRun (p : Path) (m : MillId)
  | logRdDataRead (p : Path) (m : MillId)
  | watchClose (p : Path) (m : MillId) (mask : BitVec 16)
  -- injection
  | injArm (p : Path) (page : Page) (repeats : Byte) (param : BitVec 16)
  | disarm (p : Path) (page : Page)
  -- trust
  | verifyInactive (p : Path)
  | activate (p : Path)
  | commitSvn (p : Path)
  | quote (p : Path)
  | quoteDone
  | rotate (p : Path)
  | extend (p : Path) (index : BitVec 3)
  | digestRecompute
  | settingDigestRead (p : Path)
  -- register reads with an effect
  | reg64LowRead (p : Path) (offset : BitVec 28)
  | chkUnreadRead (p : Path) (m : MillId) (n : Fin 24)
  | abnUnreadRead (p : Path) (m : MillId)
  | dryUnreadRead (p : Path) (m : MillId)
  | govFltUnreadRead (p : Path) (m : MillId)
  | bfltUnreadRead (p : Path) (m : MillId)
  | sluFltUnreadRead (p : Path) (m : MillId)
  | errUnreadRead (p : Path) (port : PortRef)
  | frUnreadRead (p : Path) (m : MillId)
  | lrUnreadRead (p : Path)
  | trUnreadRead (p : Path) (m : MillId)
  | wrUnreadRead (p : Path)
  | prUnreadRead (p : Path)
  | rfUnreadRead (p : Path) (m : MillId)
  | raUnreadRead (p : Path)
  | cbUnreadRead (p : Path)
  -- register access in general, and the rest of the table
  | registerWrite (p : Path) (offset : BitVec 28) (width : Nat) (value : W64)
  | inputStableInRange
  | chuteInGranuleWritten (codes : List Ecc)
  | chuteOutSourceError
  | perstRelease
  | injectionTimeEnd (page : Page)
  | registerReadRejected (p : Path) (offset : BitVec 28) (width : Nat)
deriving DecidableEq, Repr

end Sys2Proof
end

