-- ==== Sys2Proof/Config.lean ====
section
/-! DEFINITION. What an implementation fixes and the free values: constants with no body, so that nothing can be
proved of the values they take. Each is named in the assumption log. -/

namespace Sys2Proof

/-- By how many units in the last place VEXP2's result stands above the largest value of the element type that is not above 2^x, for the
operand's bits (R294: "within 1 unit in the last place; the same bits on every unit and in every run"; the manual does not give the bits).
A result further than that unit from 2^x is brought to the nearest one that is not. -/
opaque Config.vexp2Step : (etype operand : Nat) → Int

/-- A value the manual leaves undefined, drawn by the draw number. -/
opaque Config.freeWord : Nat → W64

/-- SHA-256 of the boot ROM, measured into M0 (R569); the manual does not give the ROM's contents. -/
opaque Config.bootRomDigest : List Byte

/-- The identity-key signature (R570, R573): a function of the key generation, the leaf and the message. The key's
private values derive from a seed that no access path reads. -/
opaque Config.identitySignature : (keyGen leaf : Nat) → List Byte → List Byte

/-- The public key of a key generation (R572), from the same unreadable seed. -/
opaque Config.identityPublicKey : (keyGen : Nat) → List Byte

/-- The set of the weight cache that a line falls in, for a number of cache slices (R246: the hash of lines over slices and
sets is the device's own and is not specified). -/
opaque Config.cacheSet : (slices line : Nat) → Nat

end Sys2Proof
end

