-- ==== Sys2Proof/Machine/Operands.lean ====
section
/-! DEFINITION. Number formats and their arithmetic (chapter 04): what each code means, rounding, flushing, saturation,
the expansion of narrow weights, and the FP32, BF16, FP40 and FP24 operations that every engine uses. -/

namespace Sys2Proof.Machine

/-! ## Exact numbers -/

/-- A value as the arithmetic sees it: NaN (R153: one quiet NaN, no payload), an infinity, or `±man × 2^exp` exactly. A zero
keeps its sign. -/
inductive Num where
  | nan
  | inf (neg : Bool)
  | fin (neg : Bool) (man : Nat) (exp : Int)
deriving DecidableEq, Repr

/-- The zero of a sign. -/
def Num.zero (neg : Bool) : Num := .fin neg 0 0
/-- An integer. -/
def Num.ofInt (i : Int) : Num := .fin (decide (i < 0)) i.natAbs 0

/-- Number of bits of a natural number. -/
def bitLen (n : Nat) : Nat := if n = 0 then 0 else Nat.log2 n + 1

def Num.isNan : Num → Bool
  | .nan => true
  | _ => false
def Num.isInf : Num → Bool
  | .inf _ => true
  | _ => false
def Num.isZero : Num → Bool
  | .fin _ m _ => m == 0
  | _ => false
def Num.isFinite : Num → Bool
  | .fin _ _ _ => true
  | _ => false
def Num.neg? : Num → Bool
  | .nan => false
  | .inf n => n
  | .fin n _ _ => n
/-- The value with its sign cleared. -/
def Num.abs : Num → Num
  | .nan => .nan
  | .inf _ => .inf false
  | .fin _ m e => .fin false m e
/-- The value with its sign changed. -/
def Num.negate : Num → Num
  | .nan => .nan
  | .inf n => .inf (!n)
  | .fin n m e => .fin (!n) m e
/-- The value times `2^k`, exactly. -/
def Num.scale (k : Int) : Num → Num
  | .fin n m e => .fin n m (e + k)
  | x => x

/-- The signed significand of a finite value at a common exponent `e`, for `e` at most its own. -/
def alignMan (neg : Bool) (man : Nat) (exp e : Int) : Int :=
  let m : Int := ((man * 2 ^ (exp - e).toNat : Nat) : Int)
  if neg then -m else m

/-- Exact addition under IEEE 754 rules for NaN and infinities (R60); the sum of two zeros of opposite sign, and an exact
cancellation, are +0 (R153). -/
def Num.add : Num → Num → Num
  | .nan, _ => .nan
  | _, .nan => .nan
  | .inf a, .inf b => if a = b then .inf a else .nan
  | .inf a, .fin _ _ _ => .inf a
  | .fin _ _ _, .inf b => .inf b
  | .fin na ma ea, .fin nb mb eb =>
    if ma = 0 ∧ mb = 0 then .fin (na && nb) 0 0
    else
      let e := min ea eb
      let s := alignMan na ma ea e + alignMan nb mb eb e
      .fin (decide (s < 0)) s.natAbs e

def Num.sub (a b : Num) : Num := Num.add a b.negate

/-- Exact multiplication (R57, R60): an infinity times zero is NaN. -/
def Num.mul : Num → Num → Num
  | .nan, _ => .nan
  | _, .nan => .nan
  | .inf a, .inf b => .inf (a != b)
  | .inf a, .fin n m _ => if m = 0 then .nan else .inf (a != n)
  | .fin n m _, .inf b => if m = 0 then .nan else .inf (n != b)
  | .fin na ma ea, .fin nb mb eb => .fin (na != nb) (ma * mb) (ea + eb)

/-- Comparison of two values that are not NaN: is `a < b`? Zeros of either sign are equal. -/
def Num.lt : Num → Num → Bool
  | .nan, _ => false
  | _, .nan => false
  | .inf a, .inf b => a && !b
  | .inf a, .fin _ _ _ => a
  | .fin _ _ _, .inf b => !b
  | .fin na ma ea, .fin nb mb eb =>
    let e := min ea eb
    decide (alignMan na ma ea e < alignMan nb mb eb e)

def Num.eq (a b : Num) : Bool := !a.isNan && !b.isNan && !Num.lt a b && !Num.lt b a
def Num.le (a b : Num) : Bool := Num.lt a b || Num.eq a b

/-- The exponent of the leading bit of a nonzero finite value: `floor(log2 |v|)`. -/
def Num.log2 : Num → Int
  | .fin _ m e => e + (bitLen m : Int) - 1
  | _ => 0

/-! ## Rounding (R154), flushing (R156) and overflow (R157) -/

/-- A binary floating-point format: significand bits with the hidden one, the exponent of the smallest normal, the largest
finite value, and whether it has infinities. -/
structure FloatFmt where
  prec   : Nat
  emin   : Int
  maxMan : Nat
  maxExp : Int
  hasInf : Bool
deriving DecidableEq, Repr

/-- E4M3 (R142, R145): no infinity, largest 448 = 1.75 × 2^8. -/
def fmtE4M3 : FloatFmt := { prec := 4, emin := -6, maxMan := 7, maxExp := 6, hasInf := false }
/-- E5M2 (R143, R145): largest 57,344 = 1.75 × 2^15. -/
def fmtE5M2 : FloatFmt := { prec := 3, emin := -14, maxMan := 7, maxExp := 13, hasInf := true }
/-- BF16 (R146). -/
def fmtBF16 : FloatFmt := { prec := 8, emin := -126, maxMan := 255, maxExp := 120, hasInf := true }
/-- FP32 (R146): IEEE 754 binary32. -/
def fmtFP32 : FloatFmt := { prec := 24, emin := -126, maxMan := 2 ^ 24 - 1, maxExp := 104, hasInf := true }
/-- FP40 (R146): FP32 extended by 8 fraction bits. -/
def fmtFP40 : FloatFmt := { prec := 32, emin := -126, maxMan := 2 ^ 32 - 1, maxExp := 96, hasInf := true }
/-- FP24, the accumulator of the Baldun M24 (R193). -/
def fmtFP24 : FloatFmt := { prec := 16, emin := -126, maxMan := 2 ^ 16 - 1, maxExp := 112, hasInf := true }
/-- FP64, the sums of tensor watch (R551). -/
def fmtFP64 : FloatFmt := { prec := 53, emin := -1022, maxMan := 2 ^ 53 - 1, maxExp := 971, hasInf := true }

/-- A significand rounded to `prec` bits, to nearest, ties to even, with an unbounded exponent. -/
def roundMan (prec man : Nat) (exp : Int) : Nat × Int :=
  let l := bitLen man
  if l ≤ prec then (man, exp)
  else
    let sh := l - prec
    let q := man / 2 ^ sh
    let r := man % 2 ^ sh
    let half := 2 ^ (sh - 1)
    let up := decide (r > half) || (r == half && q % 2 == 1)
    (if up then q + 1 else q, exp + sh)

/-- A significand cut to `prec` bits (round toward zero, R193). -/
def truncMan (prec man : Nat) (exp : Int) : Nat × Int :=
  let l := bitLen man
  if l ≤ prec then (man, exp) else (man / 2 ^ (l - prec), exp + ((l - prec : Nat) : Int))

/-- A rounded result and what happened to it. -/
structure Rounded where
  val     : Num
  flushed : Bool
  sat     : Bool
deriving DecidableEq, Repr

/-- Is `man × 2^exp` above the format's largest finite value? -/
def FloatFmt.above (f : FloatFmt) (man : Nat) (exp : Int) : Bool :=
  Num.lt (.fin false f.maxMan f.maxExp) (.fin false man exp)

/-- Rounds a value into a format as a conversion or a result: nearest even; below the smallest normal it is flushed to the
zero of its sign (R156); beyond the largest finite value it becomes an infinity (R157, last column). -/
def roundTo (f : FloatFmt) : Num → Rounded
  | .nan => { val := .nan, flushed := false, sat := false }
  | .inf n => { val := .inf n, flushed := false, sat := false }
  | .fin n m e =>
    if m = 0 then { val := .zero n, flushed := false, sat := false }
    else
      let (m', e') := roundMan f.prec m e
      if e' + (bitLen m' : Int) - 1 < f.emin then { val := .zero n, flushed := true, sat := false }
      else if f.above m' e' then { val := .inf n, flushed := false, sat := false }
      else { val := .fin n m' e', flushed := false, sat := false }

/-- FP24 rounding (R193): toward zero; a finite result beyond the largest value becomes that value; below 2^−126 it is
flushed. -/
def roundFP24 : Num → Rounded
  | .nan => { val := .nan, flushed := false, sat := false }
  | .inf n => { val := .inf n, flushed := false, sat := false }
  | .fin n m e =>
    if m = 0 then { val := .zero n, flushed := false, sat := false }
    else
      let (m', e') := truncMan 16 m e
      if e' + (bitLen m' : Int) - 1 < -126 then { val := .zero n, flushed := true, sat := false }
      else if fmtFP24.above m' e' then { val := .fin n fmtFP24.maxMan fmtFP24.maxExp, flushed := false, sat := true }
      else { val := .fin n m' e', flushed := false, sat := false }

/-! ## Bit patterns of the wide formats (R145, R146) -/

/-- Decodes a pattern with `fb` fraction bits, 8 exponent bits and a sign; subnormal codes read as zero of their sign
(R155). -/
def decodeWide (fb bits : Nat) : Num :=
  let frac := natBits bits 0 fb
  let ex := natBits bits fb 8
  let neg := natBits bits (fb + 8) 1 == 1
  if ex = 255 then (if frac = 0 then .inf neg else .nan)
  else if ex = 0 then .zero neg
  else .fin neg (2 ^ fb + frac) ((ex : Int) - 127 - fb)

/-- The pattern of a value already rounded into the format; a NaN is the canonical NaN of R145. -/
def encodeWide (fb : Nat) : Num → Nat
  | .nan => 255 * 2 ^ fb + 2 ^ (fb - 1)
  | .inf n => boolNat n * 2 ^ (fb + 8) + 255 * 2 ^ fb
  | .fin n m e =>
    let s := boolNat n * 2 ^ (fb + 8)
    if m = 0 then s
    else
      let l := bitLen m
      let ex := (e + (l : Int) - 1 + 127).toNat
      let frac := if l ≤ fb + 1 then m * 2 ^ (fb + 1 - l) else m / 2 ^ (l - (fb + 1))
      s + ex * 2 ^ fb + frac % 2 ^ fb

/-- Is the pattern a subnormal code (exponent 0, fraction nonzero)? -/
def wideSubnormal (fb bits : Nat) : Bool := natBits bits fb 8 == 0 && natBits bits 0 fb != 0

/-- The value of an FP32 pattern. -/
def f32 (w : W32) : Num := decodeWide 23 w.toNat
/-- The FP32 pattern of a value, rounded and flushed. -/
def toF32 (x : Num) : W32 := BitVec.ofNat 32 (encodeWide 23 (roundTo fmtFP32 x).val)
/-- The FP32 pattern of a value, and whether it was flushed. -/
def toF32F (x : Num) : W32 × Bool :=
  let r := roundTo fmtFP32 x
  (BitVec.ofNat 32 (encodeWide 23 r.val), r.flushed)
/-- The value of an FP40 pattern. -/
def f40 (w : BitVec 40) : Num := decodeWide 31 w.toNat
/-- The FP40 pattern of a value, rounded and flushed. -/
def toF40 (x : Num) : BitVec 40 := BitVec.ofNat 40 (encodeWide 31 (roundTo fmtFP40 x).val)
/-- The value of a BF16 pattern. -/
def bf16 (w : BitVec 16) : Num := decodeWide 7 w.toNat
/-- The BF16 pattern of a value, rounded and flushed. -/
def toBF16 (x : Num) : BitVec 16 := BitVec.ofNat 16 (encodeWide 7 (roundTo fmtBF16 x).val)

/-- The FP64 pattern of a value (R551), nearest even. -/
def toF64 (x : Num) : W64 :=
  match (roundTo fmtFP64 x).val with
  | .nan => BitVec.ofNat 64 (2047 * 2 ^ 52 + 2 ^ 51)
  | .inf n => BitVec.ofNat 64 (2 ^ 63 * boolNat n + 2047 * 2 ^ 52)
  | .fin n m e =>
    if m = 0 then BitVec.ofNat 64 (2 ^ 63 * boolNat n)
    else
      let l := bitLen m
      BitVec.ofNat 64 (2 ^ 63 * boolNat n + 2 ^ 52 * (e + (l : Int) - 1 + 1023).toNat
        + (if l ≤ 53 then m * 2 ^ (53 - l) else m / 2 ^ (l - 53)) % 2 ^ 52)

/-- The value of an FP64 pattern. -/
def f64 (w : W64) : Num :=
  let frac := bitsOf w 0 52
  let ex := bitsOf w 52 11
  let neg := bitOf w 63
  if ex = 2047 then (if frac = 0 then .inf neg else .nan)
  else if ex = 0 then .fin neg frac (-1074)
  else .fin neg (2 ^ 52 + frac) ((ex : Int) - 1075)

/-! ## FP32 operations (R154 to R157, R291, R292) -/

def f32Add (a b : W32) : W32 := toF32 (Num.add (f32 a) (f32 b))
def f32Sub (a b : W32) : W32 := toF32 (Num.sub (f32 a) (f32 b))
def f32Mul (a b : W32) : W32 := toF32 (Num.mul (f32 a) (f32 b))
/-- `a × b + c` with one rounding (R294). -/
def f32Fma (a b c : W32) : W32 := toF32 (Num.add (Num.mul (f32 a) (f32 b)) (f32 c))

/-- A quotient to at least `bits` significant bits, with a last bit that is odd exactly when the quotient is inexact, so
that one rounding of it is the rounding of the exact quotient. -/
def Num.quot (bits : Nat) : Num → Num → Num
  | .nan, _ => .nan
  | _, .nan => .nan
  | .inf _, .inf _ => .nan
  | .inf a, .fin n _ _ => .inf (a != n)
  | .fin n _ _, .inf b => .zero (n != b)
  | .fin na ma ea, .fin nb mb eb =>
    if mb = 0 then (if ma = 0 then .nan else .inf (na != nb))
    else if ma = 0 then .zero (na != nb)
    else
      let k := bits + 2 + bitLen mb
      let q := ma * 2 ^ k / mb
      let r := ma * 2 ^ k % mb
      .fin (na != nb) (2 * q + (if r = 0 then 0 else 1)) (ea - eb - (k : Int) - 1)

def f32Div (a b : W32) : W32 := toF32 (Num.quot 24 (f32 a) (f32 b))

/-- The integer square root, one bit per step of `fuel`. -/
def isqrtGo : (fuel : Nat) → (n r : Nat) → Nat
  | 0, _, r => r
  | k + 1, n, r =>
    let c := r + 2 ^ k
    isqrtGo k n (if c * c ≤ n then c else r)

/-- The integer square root. -/
def isqrt (n : Nat) : Nat := isqrtGo (bitLen n / 2 + 1) n 0

/-- A square root to at least `bits` significant bits with a sticky last bit. The root of a negative number is NaN; the
root of a zero is that zero. -/
def Num.root (bits : Nat) : Num → Num
  | .nan => .nan
  | .inf n => if n then .nan else .inf false
  | .fin n m e =>
    if m = 0 then .zero n
    else if n then .nan
    else
      let k0 := 2 * (bits + 2)
      let k := if (e - (k0 : Int)) % 2 = 0 then k0 else k0 + 1
      let v := m * 2 ^ k
      let r := isqrt v
      .fin false (2 * r + (if r * r = v then 0 else 1)) ((e - (k : Int)) / 2 - 1)

def f32Sqrt (a : W32) : W32 := toF32 (Num.root 24 (f32 a))
/-- The correctly rounded reciprocal square root (R294): one rounding of `sqrt(1 / a)`, formed as the root of the quotient
kept to 120 bits with a sticky bit. -/
def f32Rsqrt (a : W32) : W32 :=
  match f32 a with
  | .nan => toF32 .nan
  | .inf n => if n then toF32 .nan else 0
  | .fin n m e =>
    if m = 0 then toF32 (.inf n)
    else if n then toF32 .nan
    else toF32 (Num.root 60 (Num.quot 120 (.fin false 1 0) (.fin false m e)))

/-- A value rounded to the nearest integer, ties to even. -/
def Num.toIntNearest : Num → Int
  | .fin n m e =>
    let i : Nat :=
      if e ≥ 0 then m * 2 ^ e.toNat
      else
        let sh := (-e).toNat
        let q := m / 2 ^ sh
        let r := m % 2 ^ sh
        let half := 2 ^ (sh - 1)
        if decide (r > half) || (r == half && q % 2 == 1) then q + 1 else q
    if n then -(i : Int) else i
  | _ => 0

/-- FCVTI (R291): FP32 to a signed integer of `w` bits, saturated; NaN gives 0. -/
def f32ToInt (w : Nat) (a : W32) : Int :=
  let hi : Int := (2 ^ (w - 1) : Nat) - 1
  let lo : Int := -((2 ^ (w - 1) : Nat) : Int)
  match f32 a with
  | .nan => 0
  | .inf n => if n then lo else hi
  | x => max lo (min hi x.toIntNearest)

/-- A signed integer rounded to FP32. -/
def intToF32 (i : Int) : W32 := toF32 (Num.ofInt i)

/-- The smaller and the larger of two FP32 values; a NaN operand gives the canonical NaN. -/
def f32Min (a b : W32) : W32 :=
  if (f32 a).isNan || (f32 b).isNan then toF32 .nan else if Num.lt (f32 b) (f32 a) then toF32 (f32 b) else toF32 (f32 a)
def f32Max (a b : W32) : W32 :=
  if (f32 a).isNan || (f32 b).isNan then toF32 .nan else if Num.lt (f32 a) (f32 b) then toF32 (f32 b) else toF32 (f32 a)

/-! ## Tensor formats (R140) -/

/-- The formats of R140. -/
inductive Fmt where
  | e4m3 | e5m2 | int8 | fp4 | int4 | trit | bf16 | fp32 | fp40
deriving DecidableEq, Repr

/-- The format of a 4-bit code; a reserved code has none. -/
def Fmt.ofCode : Nat → Option Fmt
  | 0 => some .e4m3 | 1 => some .e5m2 | 2 => some .int8 | 3 => some .fp4 | 4 => some .int4
  | 5 => some .trit | 6 => some .bf16 | 7 => some .fp32 | 8 => some .fp40 | _ => none

def Fmt.code : Fmt → Nat
  | .e4m3 => 0 | .e5m2 => 1 | .int8 => 2 | .fp4 => 3 | .int4 => 4 | .trit => 5 | .bf16 => 6 | .fp32 => 7 | .fp40 => 8

/-- Bits per element. -/
def Fmt.bits : Fmt → Nat
  | .e4m3 => 8 | .e5m2 => 8 | .int8 => 8 | .fp4 => 4 | .int4 => 4 | .trit => 2 | .bf16 => 16 | .fp32 => 32 | .fp40 => 40

/-- FP4, INT4 and TRIT: streamed weight formats only (R148). -/
def Fmt.narrow : Fmt → Bool
  | .fp4 => true | .int4 => true | .trit => true | _ => false

/-- FP32 and FP40 carry no base and no trim (R158). -/
def Fmt.scaled : Fmt → Bool
  | .fp32 => false | .fp40 => false | _ => true

/-- The value of an FP4 code (R149). -/
def fp4Value (c : Nat) : Num :=
  let neg := natBits c 3 1 == 1
  let ex := natBits c 1 2
  let fr := natBits c 0 1
  if ex = 0 then .fin neg fr (-1) else .fin neg (2 + fr) ((ex : Int) - 2)

/-- The value of a code of a format (R142 to R151). Subnormal codes of the floating-point formats read as zero (R155). -/
def Fmt.value : Fmt → Nat → Num
  | .e4m3, c =>
    let neg := natBits c 7 1 == 1
    let ex := natBits c 3 4
    let fr := natBits c 0 3
    if ex = 15 ∧ fr = 7 then .nan else if ex = 0 then .zero neg else .fin neg (8 + fr) ((ex : Int) - 10)
  | .e5m2, c =>
    let neg := natBits c 7 1 == 1
    let ex := natBits c 2 5
    let fr := natBits c 0 2
    if ex = 31 then (if fr = 0 then .inf neg else .nan) else if ex = 0 then .zero neg
    else .fin neg (4 + fr) ((ex : Int) - 17)
  | .int8, c => Num.ofInt (signedBits c 8)
  | .fp4, c => fp4Value c
  | .int4, c => Num.ofInt (signedBits c 4)
  | .trit, c => match natBits c 0 2 with
    | 1 => .fin false 1 0
    | 3 => .fin true 1 0
    | _ => .zero false
  | .bf16, c => decodeWide 7 c
  | .fp32, c => decodeWide 23 c
  | .fp40, c => decodeWide 31 c

/-- Is the code a subnormal of its format, so that reading it is an input flush (R155)? -/
def Fmt.subnormal : Fmt → Nat → Bool
  | .e4m3, c => natBits c 3 4 == 0 && natBits c 0 3 != 0
  | .e5m2, c => natBits c 2 5 == 0 && natBits c 0 2 != 0
  | .bf16, c => wideSubnormal 7 c
  | .fp32, c => wideSubnormal 23 c
  | .fp40, c => wideSubnormal 31 c
  | _, _ => false

/-- The largest finite magnitude `fmax` (R175, R145): 127 for INT8, 7 for INT4 and 1 for TRIT. -/
def Fmt.fmax : Fmt → Num
  | .e4m3 => .fin false 7 6
  | .e5m2 => .fin false 7 13
  | .int8 => .fin false 127 0
  | .fp4 => .fin false 6 0
  | .int4 => .fin false 7 0
  | .trit => .fin false 1 0
  | .bf16 => .fin false 255 120
  | .fp32 => .fin false (2 ^ 24 - 1) 104
  | .fp40 => .fin false (2 ^ 32 - 1) 96

/-- FP4 encoding of a magnitude, in quarters: the nearest of 0, 0.5, 1, 1.5, 2, 3, 4, 6; a midway value takes the code whose
bit 0 is clear (R149). `x` is compared exactly. -/
def fp4Mag (x : Num) : Nat :=
  let q (n : Nat) : Num := .fin false n (-2)
  if Num.le x (q 1) then 0
  else if Num.lt x (q 3) then 1
  else if Num.le x (q 5) then 2
  else if Num.lt x (q 7) then 3
  else if Num.le x (q 10) then 4
  else if Num.lt x (q 14) then 5
  else if Num.le x (q 20) then 6
  else 7

/-- What an encoding wrote: the code, and whether the element was flushed, saturated or a NaN. -/
structure Encoded where
  code    : Nat
  flushed : Bool
  sat     : Bool
  nan     : Bool
deriving DecidableEq, Repr

/-- The code of a value already rounded into an 8-bit floating-point format. -/
def encodeSmall (fb bias neg man : Nat) (exp : Int) : Nat :=
  let l := bitLen man
  let ex := (exp + (l : Int) - 1 + bias).toNat
  let frac := if l ≤ fb + 1 then man * 2 ^ (fb + 1 - l) else man / 2 ^ (l - (fb + 1))
  neg * 128 + ex * 2 ^ fb + frac % 2 ^ fb

/-- The governor's encoding of a scaled value (R167): rounds under R154, saturates under R157 and flushes under R156. -/
def Fmt.encode (f : Fmt) (x : Num) : Encoded :=
  let ok (c : Nat) : Encoded := { code := c, flushed := false, sat := false, nan := false }
  let flushTo (c : Nat) : Encoded := { code := c, flushed := true, sat := false, nan := false }
  let satTo (c : Nat) : Encoded := { code := c, flushed := false, sat := true, nan := false }
  let nanTo (c : Nat) : Encoded := { code := c, flushed := false, sat := false, nan := true }
  let small (ff : FloatFmt) (fb bias maxc nanc : Nat) (inf : Option Nat) : Encoded :=
    match x with
    | .nan => nanTo nanc
    | .inf n => match inf with
      | some c => ok (boolNat n * 128 + c)
      | none => satTo (boolNat n * 128 + maxc)
    | .fin n m e =>
      if m = 0 then ok (boolNat n * 128)
      else
        let (m', e') := roundMan ff.prec m e
        if e' + (bitLen m' : Int) - 1 < ff.emin then flushTo (boolNat n * 128)
        else if ff.above m' e' then satTo (boolNat n * 128 + maxc)
        else ok (encodeSmall fb bias (boolNat n) m' e')
  let integer (w : Nat) (lim : Int) : Encoded :=
    match x with
    | .nan => nanTo 0
    | .inf n => satTo (intBits w (if n then -lim else lim))
    | .fin n m e =>
      if m = 0 then ok 0
      else
        let i := (Num.fin n m e).toIntNearest
        if i = 0 then flushTo 0
        else if i > lim then satTo (intBits w lim)
        else if i < -lim then satTo (intBits w (-lim))
        else ok (intBits w i)
  match f with
  | .e4m3 => small fmtE4M3 3 7 0x7E 0x7F none
  | .e5m2 => small fmtE5M2 2 15 0x7B 0x7E (some 0x7C)
  | .int8 => integer 8 127
  | .int4 => integer 4 7
  | .trit =>
    let r := integer 8 1
    { r with code := r.code % 4 }
  | .fp4 =>
    match x with
    | .nan => nanTo 0
    | .inf n => satTo (boolNat n * 8 + 7)
    | .fin n m e =>
      if m = 0 then ok (boolNat n * 8)
      else
        let mag := fp4Mag (.fin false m e)
        if mag = 0 then flushTo (boolNat n * 8)
        else if Num.lt (.fin false 6 0) (.fin false m e) then satTo (boolNat n * 8 + 7)
        else ok (boolNat n * 8 + mag)
  | .bf16 =>
    match x with
    | .nan => nanTo 0x7FC0
    | .inf n => ok (2 ^ 15 * boolNat n + 0x7F80)
    | .fin n m e =>
      if m = 0 then ok (2 ^ 15 * boolNat n)
      else
        let r := roundTo fmtBF16 (.fin n m e)
        if r.flushed then flushTo (2 ^ 15 * boolNat n)
        else if r.val.isInf then satTo (2 ^ 15 * boolNat n + 0x7F7F)
        else ok (encodeWide 7 r.val)
  | .fp32 =>
    let r := roundTo fmtFP32 x
    { code := encodeWide 23 r.val, flushed := r.flushed, sat := false, nan := x.isNan }
  | .fp40 =>
    let r := roundTo fmtFP40 x
    { code := encodeWide 31 r.val, flushed := r.flushed, sat := false, nan := x.isNan }

/-! ## Expansion of narrow weights (R148 to R152) -/

/-- FP4 to E4M3 (R149). -/
def fp4ToE4M3 (c : Nat) : Nat :=
  boolNat (natBits c 3 1 == 1) * 128 + [0x00, 0x30, 0x38, 0x3C, 0x40, 0x44, 0x48, 0x4C].getD (c % 8) 0

/-- INT4 to E4M3 (R150). -/
def int4ToE4M3 (c : Nat) : Nat :=
  [0x00, 0x38, 0x40, 0x44, 0x48, 0x4A, 0x4C, 0x4E, 0xD0, 0xCE, 0xCC, 0xCA, 0xC8, 0xC4, 0xC0, 0xB8].getD (c % 16) 0

/-- INT4 to INT8 by sign extension (R150). -/
def int4ToInt8 (c : Nat) : Nat := intBits 8 (signedBits c 4)

/-- TRIT to E4M3 (R151). The skip code gives an exact +0 product, as code 0x00 does (R65). -/
def tritToE4M3 (c : Nat) : Nat := [0x00, 0x38, 0x00, 0xB8].getD (c % 4) 0
/-- TRIT to INT8 (R151). -/
def tritToInt8 (c : Nat) : Nat := [0x00, 0x01, 0x00, 0xFF].getD (c % 4) 0

/-- The operand kind of R100: 0 floating-point, 1 INT8, 2 BF16, 3 narrow weight. -/
def Fmt.kindCode : Fmt → Nat
  | .e4m3 => 0 | .e5m2 => 0 | .int8 => 1 | .bf16 => 2 | _ => 3

/-- A streamed narrow code expanded against a stationary format (R148): the format and code the cells see. -/
def expandNarrow (stationary streamed : Fmt) (c : Nat) : Fmt × Nat :=
  match streamed with
  | .fp4 => (.e4m3, fp4ToE4M3 c)
  | .int4 => if stationary = .int8 then (.int8, int4ToInt8 c) else (.e4m3, int4ToE4M3 c)
  | .trit => if stationary = .int8 then (.int8, tritToInt8 c) else (.e4m3, tritToE4M3 c)
  | f => (f, c)

/-- Do the operand kinds pair (R66)? Both floating-point, both INT8 or both BF16; a narrow weight pairs as its expansion
does, and FP4 against INT8 does not. -/
def kindsPair (stationary streamed : Fmt) : Bool :=
  match stationary, streamed with
  | .int8, .fp4 => false
  | .bf16, s => s == .bf16
  | .int8, s => s == .int8 || s == .int4 || s == .trit
  | .e4m3, s => s == .e4m3 || s == .e5m2 || s.narrow
  | .e5m2, s => s == .e4m3 || s == .e5m2 || s.narrow
  | _, _ => false

/-- An 8-bit operand widened to BF16 with its offset added into the exponent (R163); the second result says that it was
flushed. -/
def widenBF16 (f : Fmt) (c : Nat) (o : Int) : Nat × Bool :=
  let r := roundTo fmtBF16 ((f.value c).scale o)
  (encodeWide 7 r.val, r.flushed || f.subnormal c)

/-- The exponent of a line or block (R175): the smallest e with m ≤ 2^e × fmax, −128 for m = 0, clamped to −128 to 127; an
infinity gives 127. -/
def Fmt.lineExp (f : Fmt) (m : Num) (hasInf : Bool) : Int :=
  if hasInf then 127
  else match m with
    | .fin _ man _ =>
      if man = 0 then -128
      else
        let e0 := m.log2 - f.fmax.log2
        let e := if Num.le m (f.fmax.scale e0) then (if Num.le m (f.fmax.scale (e0 - 1)) then e0 - 1 else e0) else e0 + 1
        max (-128) (min 127 e)
    | _ => 127

end Sys2Proof.Machine
end

