-- ==== Sys2Proof/Machine/State.lean ====
section
/-! DEFINITION. The state of the module as plain data: the registers, tallies, memories and buffers, the engines with the
operations they hold, the millers, the ports, and the queue of commands that wait. -/

namespace Sys2Proof.Machine

/-- A sparse table keyed by a number, in one canonical form: keys strictly rising, no entry at the default value. -/
abbrev Cells (α : Type) := List (Nat × α)

/-! ## Register access -/

/-- What one access path of register space holds (R11, R13, R549, R578). -/
structure PathState where
  /-- captured high words, by register-space offset of their registers -/
  caps      : List (Nat × W32)
  /-- low words written, by register-space offset -/
  wrLow     : Cells W32
  /-- the 8 words of the sample of each mill's log that a read of word 0 of LOG_RD_DATA captured; empty before the first -/
  logCap0   : List W32
  logCap1   : List W32
  /-- the 8 words of the setting digest and the 2 of its generation that a read of word 0 captured; empty before the first -/
  digestCap : List W32
  /-- the model's own output: what the latest read through the path returned -/
  reply     : W64
deriving DecidableEq, Repr

/-- A path that has captured nothing. -/
def PathState.reset : PathState :=
  { caps := [], wrLow := [], logCap0 := [], logCap1 := [], digestCap := [], reply := 0 }

/-! ## The host port (chapter 13) -/

/-- An entry of the host event FIFO (R485). -/
structure EvEntry where
  pageId : W32
  bit    : Nat
  cls    : Nat
  route  : Nat
deriving DecidableEq, Repr

/-- What the device sends over PCI Express (R465): posted writes and MSI-X messages. -/
inductive PcieMsg where
  | write (addr : Nat) (bytes : List Byte)
  | msix (vector : Nat)
deriving DecidableEq, Repr

/-- The PCI Express port, the chutes and the event FIFO. -/
structure HostPort where
  /-- LINK: 0 down, 1 training, 2 up -/
  link       : Nat
  width      : Nat
  speed      : Nat
  flit       : Bool
  d3         : Bool
  perst      : Bool
  /-- Bus Master Enable and MSI-X Enable of the configuration space, and the maximum payload size the host configured -/
  busMaster  : Bool
  msixEnable : Bool
  payload    : Nat
  /-- the MSI-X table words at host page offset 0x800, by word index, and the pending bits -/
  msixTable  : Cells W32
  msixPend   : Cells Bool
  /-- chute words taken and not yet written to memory, oldest first: address and word -/
  chuteBuf   : List (Nat × W32)
  chuteDone  : W64
  /-- CHUTE_IN_OVERRUN has been raised since CHUTE_IN_DEST was last written -/
  overrun    : Bool
  /-- a read of CHUTE_IN_DONE waits for the chute words before it: how many of them are not yet written, and whether it reads 64 bits -/
  doneWait   : Option (Nat × Bool)
  fifo       : List EvEntry
  fifoLost   : Bool
  /-- what has been sent to the host, newest first, and what D3hot holds back, oldest first -/
  sent       : List PcieMsg
  held       : List PcieMsg
deriving DecidableEq, Repr

/-- A read that the hoist chain has started (R490). -/
structure ChainRead where
  tag    : Nat
  offset : Nat
  done   : Bool
  data   : W32
deriving DecidableEq, Repr

/-- The hoist chain interface of the always-on island (R488 to R492). -/
structure Chain where
  addr    : BitVec 12
  enumIn  : Bool
  enumOut : Bool
  /-- the bypass joins the upstream and downstream contacts -/
  bypass  : Bool
  reads   : List ChainRead
  /-- the frame as it left the module, the latest one -/
  out     : Option (BitVec 124)
deriving DecidableEq, Repr

/-! ## Commands (chapter 13) -/

/-- The assembly of one access path (R477). -/
structure Assembly where
  words   : List W32
  refused : Bool
deriving DecidableEq, Repr

/-- The kinds of command (R475). -/
inductive CmdKind where
  | run | load | mark
deriving DecidableEq, Repr

/-- A pending command. -/
structure Cmd where
  seq       : W32
  kind      : CmdKind
  spliced   : Bool
  pondPoint : Bool
  notify    : Bool
  /-- entry address of a RUN, image address of a LOAD -/
  addr      : W64
  /-- image length of a LOAD -/
  length    : W64
  args      : List W64
deriving DecidableEq, Repr

/-- The command register file of a mill. -/
structure CommandFile where
  asmPcie  : Assembly
  asmChain : Assembly
  asmSys0  : Assembly
  asmSys1  : Assembly
  /-- commands pending, oldest first; the head is the running one when `running` -/
  queue    : List Cmd
  running  : Bool
  /-- whole assemblies from PCI Express that wait for the chute words before them (R480), oldest first, and how many those are -/
  held     : List (List W32 × Nat)
  /-- commands flushed while another runs: their status entries are written after its own (R482) -/
  dropped  : List Cmd
deriving DecidableEq, Repr

/-! ## Faults of a command (chapter 08, chapter 11) -/

/-- What a fault does to the command (R314, R402). -/
inductive FaultKind where
  | contract
  | command
  /-- a replayable condition: its detector (R423) and the unit it blames -/
  | replayable (detector : Nat) (unit : UnitRef)
deriving DecidableEq, Repr

/-- A fault as its detector reports it to the miller (R314, R636). -/
structure FaultInfo where
  kind     : FaultKind
  /-- the operation that met it was issued by the system context -/
  system   : Bool
  page     : Page
  cause    : Nat
  res      : W64
  opnd     : W64
  pc       : W64
  slot     : Nat
  issue    : Bool
  injected : Bool
deriving DecidableEq, Repr

/-- How a command that is ending ends (R482). -/
inductive Ending where
  | done | commandFault (detail : Nat) | contractFault (detail : Nat) | dropped | loadFailed (detail : Nat) | aborted
deriving DecidableEq, Repr

/-! ## The millers (chapters 08 and 14) -/

/-- Where a context stands (IK_STATE, R318). -/
inductive CtxState where
  | idle | running | waiting
  /-- held at a full engine; and held by something else that a slot waits for: a stone that ungates, a vector register, a word of memory -/
  | held | paused
  | atEnd | spliceStart | stopped
deriving DecidableEq, Repr

/-- The registers of one context (R280, R281); an unlisted register holds 0. -/
structure Context where
  s       : Cells W64
  a       : Cells W64
  t       : Cells W32
  /-- its token counters as they stood at its last bundle boundary (R320) -/
  tSeen   : Cells W32
  pc      : W64
  /-- the bundle fetched and not yet issued -/
  fetched : Option (BitVec 512)
  /-- bundles issued in this run: the count that log intervals and toll bundles use -/
  bundles : Nat
  /-- the WAIT of the fetched bundle, once it has been checked: counter, target and TIMEOUT in nanoseconds (R305, R306) -/
  waitOn  : Option (Nat × W32 × Nat)
  /-- nanoseconds its timer has run, and those it had run when the count first satisfied it (R307) -/
  waitNs  : Nat
  waitMet : Option Nat
  /-- the hold of the fetched bundle at a full sluice queue has been counted (R254) -/
  holdSeen : Bool
  /-- nanoseconds held without issuing since the last sample or issue (R541) -/
  heldNs  : Nat
  /-- the stall code the context stands in, and for how many nanoseconds (R543) -/
  stallCode : Nat
  stallNs : Nat
deriving DecidableEq, Repr

/-- A vector operation issued and not complete (R293), with what it latched (R288). -/
structure VecOp where
  slot : W64
  imm  : W64
  /-- s[VB] and s[VC] as they stood, and a[AX] -/
  sb   : W64
  sc   : W64
  ax   : W64
  pc   : W64
deriving DecidableEq, Repr

/-- An event queued for the system context of a miller (R503). -/
structure SysEvent where
  pageId : W32
  bit    : Nat
  nmi    : Bool
deriving DecidableEq, Repr

/-- One miller with its two contexts and vector units. -/
structure Miller where
  user      : Context
  system    : Context
  st        : CtxState
  /-- vector registers by 64 × unit + register, and the segment carry of each unit: key and value (R296) -/
  vreg      : Cells (BitVec 2048)
  carry     : List (Nat × W32 × W32)
  vecQ      : List VecOp
  /-- faults that engines have detected and that the context has not yet taken (R314) -/
  faults    : List FaultInfo
  /-- the fault or end that the command is taking -/
  ending    : Option Ending
  /-- the fault of this command has been recorded (R316) -/
  faulted   : Bool
  /-- the run of the command, the runs it may repeat, and whether an ungated update has begun writing (R403 to R406) -/
  run       : Nat
  barred    : Bool
  /-- the replayable condition that the command waits to be replayed for -/
  replay    : Option FaultInfo
  /-- its operations are dropped and RETRACT is sent: it restarts when no dropped granule is in flight -/
  replaying : Bool
  /-- every condition of this run that asked for a replay was injected (R558) -/
  replayInj : Bool
  /-- the command in progress is spliced (R311) -/
  spliced   : Bool
  sysEvents : List SysEvent
deriving DecidableEq, Repr

/-- The four states of a governed rail and the stones of one mill (R505 to R513). -/
structure Power where
  /-- the controller's voltage and the brake's cap, in steps of 2.5 mV above 0.600 V -/
  vctl      : Nat
  vcap      : Nat
  canaryMin : Nat
  canaryIdx : Nat
  coreA     : Nat
  /-- core energy not yet counted in CORE_MJ, in units of 10^-10 mJ -/
  energy    : Nat
  unreached : Bool
  /-- gated stones, and gated stones that an operation is ungating -/
  gated     : List (Fin 24)
  ungating  : List (Fin 24)
deriving DecidableEq, Repr

/-- Supply, brake and start-up (R507 to R510, R523). -/
structure Supply where
  /-- start-up stage in progress, 1 to 9; 0 = the island is without power -/
  stage      : Nat
  /-- POWER_ON has been written in this start -/
  powerOn    : Bool
  inputCv    : Nat
  inputW     : Nat
  /-- the input power samples of the last 10 ms, newest first, at most 10,000 -/
  samples    : List Nat
  /-- consecutive 1 µs samples above INPUT_LIMIT -/
  excursion  : Nat
  /-- the brake is lowering the cap -/
  braking    : Bool
  ebrake     : Bool
  /-- times of the emergency brake's trips of the last second, newest first, and the trip in force -/
  trips      : List Nat
  storm      : Bool
  /-- the module stands in standby after an orderly power-down: AUTO_POWER does not start it -/
  standby    : Bool
  /-- microjoules of input energy not yet counted in INPUT_MJ -/
  energy     : Nat
  /-- core power was removed by a junction trip or an input fault: the start waits (R614, R628) -/
  holdOff    : Bool
  thermal    : Bool
deriving DecidableEq, Repr

/-- The reference monitor (R516 to R520). -/
structure RefClock where
  /-- REF_STATE: 0 present, 1 lost, 2 wild, 3 waiting stable, 4 recovering -/
  state    : Nat
  cal      : Nat
  count    : Nat
  /-- the PLLs have been stopped: TIME_NOW holds -/
  pllsOff  : Bool
  /-- REF_WAIT_LIMIT has expired in this loss -/
  expired  : Bool
deriving DecidableEq, Repr

/-- An interval timer (R504): nanoseconds to the next expiry, none when stopped. -/
abbrev Timer := Option Nat

/-! ## Log and tensor watch (chapter 15) -/

/-- The states of a log (R543). -/
inductive LogState where
  | off | running | armed | post | captured
deriving DecidableEq, Repr

/-- The log of one mill. Samples are 32 bytes, as R541 lays them out. -/
structure Log where
  st        : LogState
  /-- the ring of 8,192 samples, newest first -/
  ring      : List (BitVec 256)
  age       : Nat
  postLeft  : Nat
  /-- the condition of LOG_TRIG has occurred and its trigger sample is to be written -/
  trigNow   : Bool
  /-- spill ring: index of the next sample, of the trigger sample, samples held, samples staged; loss raised -/
  spillHead : Nat
  spillTrig : Nat
  lostSeen  : Bool
  /-- latch ring offset, records written to the ring, START and END latches counted (R538), sequence number of the latch -/
  latHead   : Nat
  latRecs   : Nat
  latCount  : W32
  curSeq    : W32
  /-- areas written by software, which take effect at the next command boundary (R562) -/
  latBase   : Nat
  latUnits  : Nat
  spillBase : Nat
  spillUnits : Nat
deriving DecidableEq, Repr

/-- A watch point's open window (R550, R551). Sums are FP64, by governor stage. -/
structure WatchPoint where
  /-- the window is open, with the configuration words latched at its opening -/
  openW  : Bool
  cfg    : W32
  trig   : W32
  absLim : W32
  satLim : W32
  elems  : Nat
  min    : W32
  max    : W32
  sums   : List (Nat × W64 × W64)
  zeros  : Nat
  sat    : Nat
  nans   : Nat
  digest : W64
  hit    : Bool
  step   : Nat
deriving DecidableEq, Repr

/-! ## Stones (chapter 02) -/

/-- An element as a loader or feeder sends it: the code and the signed exponent offset `o` (R161, R162, R165). -/
abbrev Elem := Nat × Int

/-- One logical row of a stationary set (R67), with the tensor handle and line that it was loaded by. -/
structure StatRow where
  fmt    : Fmt
  handle : W64
  line   : Nat
  /-- the base was folded into the offsets (R162), or the tensor is primed (R165) -/
  folded : Bool
  primed : Bool
  /-- the row's edge base (R161) -/
  edge   : Int
  elems  : List Elem
  /-- columns whose code an injection has inverted a bit of: a row shift carries them with the row (R76, R102, code 2) -/
  flips  : List Nat
  /-- an injection has replaced the row's h (R102, code 4) -/
  hHit   : Bool
deriving DecidableEq, Repr

/-- Where operands come from: bytes of a hopper by key, or of virtual memory; a toll pass reads them again (R409). -/
inductive Src where
  | hopper (key len : Nat)
  | virt (va len : Nat)
deriving DecidableEq, Repr

/-- A stationary set: its rows by logical number, in the order of their broadcasts, and the exact check-row values c and a by column
(R68). -/
structure StatSet where
  rows   : List (Nat × StatRow)
  c      : List Num
  a      : List Num
  /-- columns whose c an injection has replaced (R102, code 3) -/
  cHits  : List Nat
  /-- the row staged for a row shift (R76), and whether it was staged since the latest swap (R69) -/
  staged : Option StatRow
  fresh  : Bool
  /-- where its rows came from, and whether a row shift has changed the set since its swap (R407) -/
  srcs    : List Src
  shifted : Bool
  /-- an injection has touched the set (R102) -/
  taint   : Bool
  /-- its flushes in widening to BF16 have been counted (R59, R163) -/
  widened : Bool
  /-- the RLOAD that began the set -/
  begun   : Nat
deriving DecidableEq, Repr

/-- A streamed tile in a half of the feeder buffer, wavefront by wavefront (R111). -/
structure Tile where
  /-- the race operation it belongs to, by its number -/
  op      : Nat
  fmt     : Fmt
  /-- the tensor handle and first line of the tile -/
  handle  : W64
  line    : Nat
  /-- B_ref where the governor has latched it for a stone that folds (R162) -/
  bref    : Option Int
  primed  : Bool
  swap    : Bool
  shift   : Bool
  srcs    : List Src
  /-- edge base and elements of each wavefront received -/
  waves   : List (Int × List Elem)
deriving DecidableEq, Repr

/-- The states of an edge accumulator bank (R82). -/
inductive BankState where
  | free | accumulating | draining | invalid
deriving DecidableEq, Repr

/-- An edge accumulator bank (R79): words by 256 × logical row + wavefront, with the edge exponent of the latest pass. -/
structure Bank where
  st    : BankState
  words : List (Nat × W32 × Int)
  /-- held for a toll drain (R412) -/
  toll  : Bool
deriving DecidableEq, Repr

/-- The comparison of one wavefront, waiting to be decided (R83, R86). -/
structure WfCheck where
  wf    : Nat
  int8  : Bool
  compat : Bool
  /-- a ones wavefront: the lowest failing logical row, its y and its h as the check record shows them, none when every row agrees -/
  ones  : Bool
  onesBad : Option (Nat × W64 × W64)
  d     : Num
  c     : Num
  s     : Num
  opdig : W32
  /-- an injected corruption took part (R558) -/
  injected : Bool
deriving DecidableEq, Repr

/-- A pass that a stone has injected: its comparisons and, for a CARRY pass, the row-end results by column. -/
structure StonePass where
  op     : Nat
  bank   : Option Nat
  /-- the bank becomes free when the pass completes: a CARRY pass naming it (R82) -/
  frees  : Bool
  checks : List WfCheck
  /-- a pass of a dW tile: for each column still to leave, the loaded rows with their bank word, result and edge exponent (R118, R161) -/
  carry  : List (List (Nat × W32 × W32 × Int))
  /-- pass count in the run (R407) -/
  count  : Nat
deriving DecidableEq, Repr

/-- What a stone's repair logic has been asked for and is doing (R90, R91). -/
inductive RepairState where
  | none | testing | repairing
deriving DecidableEq, Repr

/-- One stone. -/
structure Stone where
  active    : StatSet
  shadow    : StatSet
  /-- a shadow load is being broadcast -/
  loading   : Bool
  swaps     : Nat
  onesDue   : Bool
  /-- the injection (operation and number) whose swap has been made, and the operation whose shift has been made -/
  swapped   : Option (Nat × Nat)
  shiftDone : Option Nat
  recv      : Option Tile
  feed      : Option Tile
  /-- injections of the tile in the feeder made so far (R112) -/
  injection : Nat
  bank0     : Bank
  bank1     : Bank
  /-- injection plan (RPLAN, R299) -/
  plan      : BitVec 24
  pass      : Option StonePass
  /-- a fault has stopped the feeder, with the ABN_CAUSE it stands for; its wavefronts drain -/
  failed    : Option Nat
  draining  : Bool
  /-- passes made in this run of the command, and bank drains: the count of the toll selection (R407) -/
  passes    : Nat
  drains    : Nat
  /-- disabled physical rows in force (R56), as the non-volatile store keeps them, and the requests of R96 -/
  disabled  : List Nat
  /-- the disabled rows that an accepted APPLY asks for -/
  applyReq  : Option (List Nat)
  testReq   : Bool
  repair    : RepairState
  outOfService : Bool
  /-- a path fault or a fifth failing row has been found: the stone stays out of service (R92) -/
  unrepairable : Bool
  /-- the latest two shadow loads: descriptor handle and first line (R116, R117) -/
  loads     : List (W64 × Nat)
deriving DecidableEq, Repr

/-! ## The race (chapter 03) -/

/-- The roles of a stone (R109). -/
inductive Role where
  | unbound | consumer | runner | scatter
deriving DecidableEq, Repr

/-- A stone's binding (RBIND). -/
structure Binding where
  role   : Role
  stream : Nat
  replay : Nat
  tfeed  : Bool
deriving DecidableEq, Repr

/-- A race operation issued and not complete (R298), with what it latched and how far it has come. -/
structure RaceOp where
  id    : Nat
  /-- issued by the system context -/
  system : Bool
  slot  : W64
  imm   : W64
  ax    : W64
  ay    : W64
  pc    : W64
  /-- rows loaded, lines fetched, columns entered, lines handed to the governor -/
  prog  : Nat
  /-- stones that have made their part: injections of the tile, half passes -/
  parts : List (Nat × Nat)
  /-- bytes fetched for an RTILE, line by line -/
  data  : List Byte
  /-- the B_ref latched for the pass, by tensor descriptor (R162) -/
  brefs : List (Nat × Int)
  done  : Bool
  /-- a fault has ended it -/
  failed : Bool
deriving DecidableEq, Repr

/-- A column in the race (R104). -/
structure Column where
  op     : Nat
  idx    : Nat
  /-- order of its arrival at the position where it stands (R107) -/
  stamp  : Nat
  fmt    : Fmt
  handle : W64
  line   : Nat
  bref   : Option Int
  primed : Bool
  swap   : Bool
  shift  : Bool
  edge   : Int
  elems  : List Elem
  srcs   : List Src
  /-- the words of a dW column, with their edge exponents; empty for a weight column -/
  words  : List (W32 × Int)
deriving DecidableEq, Repr

/-- The mask that the tailrace latched for a dW tile, and the columns taken (R129, R130). -/
structure TailTile where
  op    : Nat
  stream : Nat
  kmask : List W32
  nmask : List W32
  cols  : List (Nat × List (W32 × Int))
deriving DecidableEq, Repr

/-- The race of one mill. -/
structure Race where
  nextId  : Nat
  /-- arrivals of columns at positions so far (R107) -/
  clock   : Nat
  ops     : List RaceOp
  binds   : List (Nat × Binding)
  /-- columns at each position, by 4 × position + stream, oldest first, at most four (R107) -/
  cols    : Cells (List Column)
  /-- columns that have left the last position, by stream, not yet taken by the tailrace: at most four of each stream -/
  tail    : Cells (List Column)
  tiles   : List TailTile
  spliced : Bool
  /-- mill 1 is the head mill of the splice -/
  headOne : Bool
  /-- the pass is abandoned: columns in flight reach the tailrace and nothing is written until the command ends (R134) -/
  abandoned : Bool
deriving DecidableEq, Repr

/-! ## The governor (chapter 05) -/

/-- Elements handed to a governor stage for one line of a tensor (R169, R643). -/
structure LineJob where
  handle : W64
  line   : Nat
  elem0  : Nat
  vals   : List W32
  /-- which of the elements are written (R129) -/
  keep   : List Bool
  /-- which of the elements were flushed at the edge (R161) -/
  flushed : List Nat
  /-- the codes go to a hopper: key of the block and the line of it (R299, TOHOP) -/
  hopper : Option (Nat × Nat)
  /-- the operation, pc and slot that the job belongs to -/
  op     : Nat
  pc     : W64
  slot   : Nat
  system : Bool
  /-- first job of its operation: VERSION begins a new version here (R172) -/
  first  : Bool
deriving DecidableEq, Repr

/-- A line that a stage has taken and not completed (R176, R177): the element it has come to, its base, the policy latched
when it was started, and what the line's elements have shown so far. -/
structure OpenLine where
  stage  : Nat
  desc   : Nat
  line   : Nat
  /-- virtual address of its ledger entry -/
  entry  : Nat
  base   : Int
  primed : Bool
  maxAbs : Num
  hasInf : Bool
  ovf    : Bool
  any    : Bool
  steps  : Nat
  jump   : Bool
deriving DecidableEq, Repr

/-- The open line of a vector unit's stage (R297): handle, line and the elements so far. -/
structure VecLine where
  unit   : Nat
  handle : W64
  line   : Nat
  vals   : List W32
  /-- the operation that opened it -/
  op     : Nat
deriving DecidableEq, Repr

/-- A write operation that a stage has begun: the format of its step (R186), whether it writes primed (R187) and has flagged a block
(R178). -/
structure GovOp where
  stage   : Nat
  op      : Nat
  fmt     : Nat
  primed  : Bool
  flagged : Bool
deriving DecidableEq, Repr

/-- The governor of one mill. -/
structure Governor where
  /-- lines waiting at each stage, oldest first -/
  jobs     : Cells (List LineJob)
  opened   : List OpenLine
  vlines   : List VecLine
  /-- write operations begun and not finished -/
  begun    : List GovOp
  /-- compatibility mode in force -/
  compat   : Bool
  /-- a stage holds on this virtual page until the pond copier has copied it (R644) -/
  wpHold   : Option Nat
  /-- the widened gradient format of R182 by layer, in force while the layer's HOLD lasts -/
  widened  : Cells Nat
  /-- layers whose dry count has been reported and has not returned to 0 (R181) -/
  dryTold  : List Nat
deriving DecidableEq, Repr

/-! ## Sluices and memory (chapter 07) -/

/-- Where a run of bytes lies after translation (R242): memory by physical address, a hopper or the pinned granary by its
key in the state, the Leat end, or nowhere (a run with a skip index, R260). -/
inductive Loc where
  | mem (addr : Nat)
  | hopper (key : Nat)
  | granary (key : Nat)
  | leat
  | nowhere
deriving DecidableEq, Repr

/-- A run of bytes of a chunk, within one page of each end. -/
structure Seg where
  src : Loc
  dst : Loc
  len : Nat
deriving DecidableEq, Repr

/-- A granule request (R257): the physical address of the granule, the pieces of it that are read or written (first byte and length;
one write carries the merged byte enables of its chunk, R261), and whether it fetches a line that the weight cache missed (R246). -/
structure Request where
  granule : Nat
  spans   : List (Nat × Nat)
  write   : Bool
  fill    : Bool
deriving DecidableEq, Repr

/-- A chunk translated and issued: its number, its runs, the granule requests still to complete, and when it was issued. -/
structure Flight where
  chunk    : Nat
  segs     : List Seg
  /-- virtual pages it was translated through (R251), and its indexed runs moved and skipped -/
  vpages   : List Nat
  rows     : Nat
  skips    : Nat
  granules : List Request
  issued   : W64
  /-- every byte is written; its token waits for earlier chunks (R264) -/
  done     : Bool
deriving DecidableEq, Repr

/-- A transfer in a sluice queue. -/
structure Transfer where
  /-- number in order of issue in the mill -/
  id      : Nat
  system  : Bool
  descAddr : W64
  /-- the latched descriptor (R255), with the overrides of R302 applied -/
  desc    : List Byte
  pc      : W64
  /-- the race operation whose tile this transfer fetches (R299), with the runs of its trims and of its folded bases: virtual address and
  length -/
  rtile   : Option Nat
  trims   : List (Nat × Nat)
  bases   : List (Nat × Nat)
  started : Bool
  /-- a channel operation of a later step than the window has been counted as waiting (R385) -/
  ahead   : Bool
  /-- next chunk to translate, whether its wait for an entry has been counted (R257), and the chunks issued and not yet posted, in
  chunk order -/
  next    : Nat
  waited  : Bool
  flights : List Flight
  posted  : Nat
  /-- the transfer ends in a fault after the chunks before it (R268): cause, side, address, chunk, contract fault, injected -/
  failing : Option (Nat × Nat × Nat × Nat × Bool × Bool)
  /-- bytes fetched for an RTILE so far -/
  fetched : List Byte
  /-- of a transfer with a Leat end: the tokens that its results have earned, and whether it has finished (R381) -/
  earned  : Nat
  ended   : Bool
deriving DecidableEq, Repr

/-- A sluice queue; parked on its record, by the cause of R252 and the number of the transfer. -/
structure SluQueue where
  xfers  : List Transfer
  parked : Option (Nat × Nat)
  /-- the transfer has been resumed and its chunk not yet translated again (R267) -/
  resumed : Bool
  /-- granule requests of dropped chunks still in flight, with the time of issue (R403) -/
  dropped : List (Request × W64)
deriving DecidableEq, Repr

/-- A translation held in the cache (R251). -/
structure TlbEntry where
  vpage : Nat
  frame : Nat
  write : Bool
  wp    : Bool
  dirty : Bool
deriving DecidableEq, Repr

/-- The sluices, translation cache and weight cache of one mill. -/
structure Sluice where
  queues   : List SluQueue
  nextId   : Nat
  tlb      : List TlbEntry
  /-- an invalidation under way, and the chunks it waits for: transfer and chunk -/
  inval    : Option (List (Nat × Nat))
  /-- queues whose chunk waits for shared entries, in order of request (R257) -/
  waiters  : List Nat
  /-- lines in the weight cache: line number and way -/
  wcache   : List (Nat × Nat)
  /-- lines that a miss has fetched and that are not yet allocated (R246) -/
  fills    : List Nat
  /-- pinned slices in force, and whether slice 47 is in the weight cache (R244, R245) -/
  granPin  : Nat
  shared   : Bool
deriving DecidableEq, Repr

/-! ## The bolter and the ledger engine (chapter 06) -/

/-- Where an update operation stands. -/
inductive BoltPhase where
  | waiting | gate | stalled | parked | finished
deriving DecidableEq, Repr

/-- An update operation issued and not complete (R203), with what it latched at issue and at its start (R204). -/
structure UpdateOp where
  id      : Nat
  /-- issued by the system context -/
  system  : Bool
  bdesc  : Nat
  step   : Nat
  fg     : W32
  flr    : W32
  post   : Option Nat
  pc     : W64
  phase  : BoltPhase
  /-- the latched bolt descriptor, rule row words and mask words; empty before the start -/
  desc   : List Byte
  rule   : List W32
  kmask  : List W32
  nmask  : List W32
  /-- sweep of a factored operation, and the line (or index-list position) and element it has come to -/
  sweep2 : Bool
  line   : Nat
  elem   : Nat
  /-- statistics formed between the sweeps of a factored operation: r by line, column values, their mean -/
  rowStat : List W32
  colStat : List W32
  mean   : W32
  /-- rows named so far (R215), and those held with UPDATING set: row and physical address of the ledger entry (R226) -/
  rows    : List Nat
  held    : List (Nat × Nat)
  /-- an element was left non-finite, and a block fell back, in this operation -/
  nonfinite : Bool
  fellBack : Bool
  /-- the operation has handed its first line to governor stage 1 -/
  began   : Bool
  /-- the rows of its index list have been compared with the step (R213), and its gate has let it through -/
  checked : Bool
  /-- the page fault that has stopped it: cause of R252, virtual page, line and element, and whether the pond copier was to resolve it when
  it was met (R253) -/
  pageCause : Nat
  pageAt    : Nat
  stopLine  : Nat
  stopElem  : Nat
  quiet     : Bool
  /-- the fault that it ends in when the working-copy lines before it are written: cause, line, element, injected -/
  ending    : Option (Nat × Nat × Nat × Bool)
deriving DecidableEq, Repr

/-- The bolter of one mill: operations issued and not complete, the running one first. -/
structure Bolter where
  ops : List UpdateOp
deriving DecidableEq, Repr

/-- The ledger engine of one mill. -/
structure Ledger where
  /-- entries in the ledger cache by 16-byte slot of device physical memory, latest used first, and the dirty ones among
  them with their 16 bytes, which memory does not yet hold (R227) -/
  held   : List Nat
  dirty  : List (Nat × List Byte)
deriving DecidableEq, Repr

/-! ## The floor and the loader (chapter 09) -/

/-- A data flit on the floor (R328 to R332): the mill and source of the stream table that move it, the node it left and the mill and node it
goes to, where it stands and by which input it came (0 its source, 1 + d the neighbour in direction d of R352, 5 the shaft), and the
address and operation that a fault of it names. -/
structure FloorFlit where
  home   : MillId
  kind   : Nat
  index  : Nat
  src    : Nat × Nat
  mill   : MillId
  dst    : Nat × Nat
  node   : Nat × Nat
  input  : Nat
  addr   : W64
  pc     : W64
  slot   : Nat
  system : Bool
deriving DecidableEq, Repr

/-- What waits to cross the shaft to the other mill (R36): a remote post (R309), or a data flit at the facing shaft port. -/
inductive ShaftItem where
  | post (c : Ctx) (ctr n : Nat)
  | flit (f : FloorFlit)
deriving DecidableEq, Repr

/-- The floor of one mill: the plan in force, as words of the stream table and slot tables that are not zero. -/
structure Floor where
  plan    : Cells W32
  pending : Bool
  /-- memory ports holding their calibration slots (R334) -/
  cal     : List PortRef
  /-- flits that have passed each link direction, modulo 64 (R330) -/
  slotPos : Cells Nat
  /-- flits on the mill's floor, in the order in which they reached the nodes where they stand -/
  flits   : List FloorFlit
  /-- the input that each node served last, by 8 × y + x (R333) -/
  served  : Cells Nat
deriving DecidableEq, Repr

/-- The image loaded on a mill: its entry address, the virtual pages it maps, the virtual base and size of each section, a digest of its
section table, and the sections of its descriptor tables (R343 to R346, R438). -/
structure Image where
  entry  : Nat
  pages  : List Nat
  sects  : List (Nat × Nat)
  layout : W64
  gdesc  : Nat
  layer  : Nat
  bdesc  : Nat
deriving DecidableEq, Repr

/-! ## Leat (chapter 10) -/

/-- A Leat port (R360 to R368). -/
structure LeatPort where
  /-- PORT_STATE.STATE: 0 down, 1 training, 2 up, 3 retraining, 4 held on reference loss, 5 disabled -/
  st       : Nat
  /-- width code (0 eight lanes, 1 four, 2 two), the lanes in use and the partner's module ID -/
  width    : Nat
  lanes    : BitVec 8
  partner  : BitVec 16
  /-- lanes that have failed since the last training -/
  badLanes : BitVec 8
  /-- retrains that have failed in a row -/
  fails    : Nat
  /-- receiver: next sequence number expected, and a NACK sent for it -/
  rxNext   : BitVec 16
  nacked   : Bool
  /-- sender: next sequence number, and the flits sent and not yet acknowledged, oldest first (R361) -/
  txNext   : BitVec 16
  replay   : List (BitVec 256 × List Byte)
  /-- times the oldest unacknowledged flit has been replayed (R362) -/
  replays  : Nat
  /-- virtual channel served last, and the position of the next codeword in its frame of 64 (R363, R377) -/
  lastVc   : Nat
  frame    : Nat
  /-- credits held per virtual channel, and flit buffers freed and not yet returned (R363) -/
  credits  : Cells Nat
  freed    : Cells Nat
  /-- flits waiting for a credit, oldest first -/
  waiting  : List (BitVec 256 × List Byte)
  /-- what the port has put on the wire, newest first -/
  sent     : List (BitVec 256 × List Byte)
deriving DecidableEq, Repr

/-- A CLEAR received for a gate of a group (R387, R388): the rank it comes from, the step of the gate and the run, the STEP operand
it carries, and the digests. -/
structure ClearRec where
  rank   : Nat
  gate   : Nat
  run    : Nat
  step   : Nat
  digest : Option (List Byte)
  weigh  : Option (Nat × W64)
deriving DecidableEq, Repr

/-- A channel operation of a group on this member (R379 to R385). -/
structure ChannelOp where
  mill    : MillId
  /-- the sluice transfer that issued it: queue and number -/
  queue   : Nat
  xfer    : Nat
  system  : Bool
  channel : Nat
  step    : Nat
  pc      : W64
  seq     : W32
  descAddr : W64
  desc    : List Byte
  /-- units that begin on this member and have been sent, and all units sent, added or written so far, of those that the operation handles
  on this member -/
  own     : Nat
  handled : Nat
  /-- units of the result written in order, and those written out of order -/
  written : Nat
  units   : List Nat
  /-- the member that its units come from (0xFFFF none), units acknowledged to it, and units acknowledged by each branch below -/
  up      : Nat
  acked   : Nat
  acks    : List (Nat × Nat)
  /-- it has finished once: its transfer posts what it has earned and leaves its queue -/
  done    : Bool
deriving DecidableEq, Repr

/-- A loaded group (R374). -/
structure Group where
  idx     : Nat
  /-- the 512 bytes of the entry loaded, and the member IDs in rank order -/
  entry   : List Byte
  members : List Nat
  open_   : Nat
  /-- RETRACTs by step: the run of a step is their number, at most 3 (R389, R390) -/
  runs    : Cells Nat
  clears  : List ClearRec
  skew    : Bool
  /-- the gate is held shut: RETRACT_LIMIT, a weigh verdict -/
  shut    : Bool
  /-- the weigh digests of the open step's CLEARs have been compared -/
  weighed : Bool
  /-- this module has sent CLEAR in the present run, and the G it carried -/
  clearSent : Bool
  clearG   : Option (List Byte)
  /-- STEP operand of the first update operation that named the group and step -/
  updStep : Option Nat
  ops     : List ChannelOp
  /-- units already written: channel, step, run, offset (R385) -/
  seen    : List (Nat × Nat × Nat × Nat)
  /-- weigh digest of the last weighed step (R418) -/
  weighStep : Nat
  weigh    : W64
deriving DecidableEq, Repr

/-- A flit held by the module: with the port whose receive buffer it occupies, if any. -/
structure HeldFlit where
  port    : Option Nat
  header  : BitVec 256
  payload : List Byte
deriving DecidableEq, Repr

/-- The Leat engines and module-wide tables. -/
structure Leat where
  ports    : List LeatPort
  groups   : List Group
  /-- route table words that are not zero, by destination ID -/
  routes   : Cells W32
  held     : List HeldFlit
  /-- copies of the group flits that this module has sent for gates not yet open, and those refused with a later epoch, to be sent
  again 10 µs after the NACK (R378) -/
  copies   : List HeldFlit
  refused  : List HeldFlit
  /-- neighbours for which ROUTE_BLOCKED has been raised -/
  blocked  : List Nat
  timeValid : Bool
  /-- nanoseconds by which the count is still to be slewed, positive forward -/
  slew     : Int
  /-- nanoseconds since the count was last slewed by one -/
  slewNs   : Nat
deriving DecidableEq, Repr

/-! ## Tolls, fault history and retirement (chapter 11) -/

/-- A sampled pass or drain that waits for its toll (R408, R412). The toll stone reads the sources again: where they have
changed the toll is void; where they have not, its results differ from the recorded ones only if an injected corruption took
part in the pass. -/
structure TollRec where
  stone   : Nat
  count   : Nat
  drain   : Bool
  /-- opened for a verdict alone: it runs only where the failure recurs (R414) -/
  verdict : Bool
  /-- input digest of the streamed tile (TR_INDIG) -/
  tileDig : W64
  /-- the recorded results are not those of a fault-free pass -/
  differs : Bool
  srcs    : List Src
  srcDig  : W64
  /-- bytes captured (R408) -/
  bytes   : Nat
  /-- the toll stone running it, and the one that a fault made leave it: it is restarted once on another (R411) -/
  by_     : Option Nat
  retried : Option Nat
  bank    : Nat
deriving DecidableEq, Repr

/-- The toll machinery of one mill. -/
structure Toll where
  open_    : List TollRec
  /-- check-row failures of the preceding run: stone and pass index (R414) -/
  lastFails : List (Nat × Nat)
  fails     : List (Nat × Nat)
  captured  : Nat
  /-- the command was started with TOLL_AREA other than 0 -/
  on        : Bool
deriving DecidableEq, Repr

/-- A record of the fault history (R423). -/
structure HistRec where
  step  : Nat
  kind  : Nat
  det   : Nat
  cls   : Nat
  index : Nat
  seq   : W32
  opdig : W64
  time  : W64
deriving DecidableEq, Repr

/-! ## Pond copies (chapter 12) -/

/-- A page of a half still to be copied: virtual address, frame, and whether WP was set in its entry. -/
structure PondPage where
  va    : Nat
  frame : Nat
  wp    : Bool
  /-- its place among the manifest entries, and the offsets of its entry and of its contents in the slot -/
  index : Nat
  entryOff : Nat
  slotOff : Nat
deriving DecidableEq, Repr

/-- The copier (R440 to R448, R458). -/
structure Pond where
  /-- POND_STATE.STATE -/
  st        : Nat
  /-- the command just completed carried POND_POINT and was clean on both mills (R440) -/
  point     : Bool
  /-- STEP operand of the update operation completed last on either mill -/
  lastStep  : Nat
  /-- the copy goes to a peer (DEST latched at its begin) -/
  peer      : Bool
  slot      : Bool
  gen       : W32
  /-- pages of each half still to be copied, in manifest order -/
  pages0    : List PondPage
  pages1    : List PondPage
  /-- what lies before the page contents of each half of a copy that is sent -/
  head0     : List Byte
  head1     : List Byte
  parkNs0   : Nat
  parkNs1   : Nat
  beganAt   : W64
  /-- time of the last update of λ, and T as it was set when a generation was last held in this start (R448) -/
  lastUpd   : W64
  interval  : Option Nat
  /-- slot named by RECEIVE, latest unit received of each half, and halves complete -/
  recvSlot  : Bool
  recvAt0   : Nat
  recvAt1   : Nat
  recvDone0 : Bool
  recvDone1 : Bool
deriving DecidableEq, Repr

/-! ## Trust (chapter 16) -/

/-- The trust engine. -/
structure Trust where
  bootSlot   : Bool
  meas       : List (List Byte)
  inactiveOk : Bool
  /-- behavioural writes not yet reflected in D: pages -/
  dirty      : List Nat
  /-- the page digests P that D was formed from, the digest D and its generation -/
  digest     : List Byte
  digestGen  : W64
  quoteBusy  : Bool
  /-- a ROTATE waits for the quote that is being formed (R583) -/
  rotateDue  : Bool
  /-- KEY_LOW has been raised for this key (R572) -/
  keyLow     : Bool
  /-- NEXT_LEAF: the next leaf in signing order (R571) -/
  nextLeaf   : Nat
  /-- security version of the running image -/
  imageSvn   : Nat
deriving DecidableEq, Repr

/-! ## Fuses and the non-volatile store -/

/-- Values held in fuses (R16): written only by COMMIT_SVN and ROTATE. -/
structure Fuses where
  keyHash  : List Byte
  svn      : Nat
  keyGen   : Nat
  tollSeed0 : W32
  tollSeed1 : W32
  serial   : W64
deriving DecidableEq, Repr

/-- What the non-volatile store keeps as tables of its own (R89, R423, R425, R445, R456, R571, R572, R632); the rest of
the store is bytes. -/
structure NonVol where
  /-- disabled physical rows of each stone, by module index -/
  rowmaps   : List (Nat × List Nat)
  history   : List HistRec
  /-- retired units: kind and index -/
  retired   : List (Nat × Nat)
  badFrames : List Nat
  held0     : Bool
  held1     : Bool
  newest    : Bool
  exp0      : Bool
  exp1      : Bool
  writing   : Option Bool
  pondGen   : W32
  /-- generation numbers and steps of the slots -/
  gen0      : W32
  gen1      : W32
  step0     : Nat
  step1     : Nat
  pondCost  : W64
  /-- where the generation held in each slot lies: base and length of its halves -/
  places0   : List (Nat × Nat)
  places1   : List (Nat × Nat)
  lambda    : W32
  prefSlot  : Bool
  resEnd    : Nat
  dimms     : List Nat
  autoPower : Bool
  chainWait : Nat
  rotations : List (List Byte)
  /-- the last power-down was orderly (R529, R447) -/
  orderly   : Bool
  /-- failures counted for λ and not yet used -/
  failures  : Nat
deriving DecidableEq, Repr

/-! ## One mill, and the module -/

/-- One mill: its command file, miller, power, race, stones, governor, sluices, bolter, ledger, floor, image, toll house, log and watch points. -/
structure Mill where
  cmd      : CommandFile
  miller   : Miller
  power    : Power
  timers   : List Timer
  race     : Race
  stones   : List Stone
  governor : Governor
  sluice   : Sluice
  bolter   : Bolter
  ledger   : Ledger
  floor    : Floor
  /-- crossing traffic on its way to the other mill, in the order it arrived (R36) -/
  shaft    : List ShaftItem
  image    : Option Image
  toll     : Toll
  log      : Log
  watch    : List WatchPoint
deriving DecidableEq, Repr

/-- An armed injection (R557): its page by directory entry, the occurrences still to inject, and whether a chosen time
has begun. -/
structure InjArm where
  entry : Nat
  left  : Nat
  timed : Bool
deriving DecidableEq, Repr

/-- The state of the module. -/
structure State where
  /-- stored register words, by register-space offset; an unlisted word holds its reset value -/
  regs     : Cells W32
  /-- tallies, by 16 × directory entry + slot -/
  tallies  : Cells W64
  /-- TIME_NOW -/
  time     : W64
  pathPcie  : PathState
  pathChain : PathState
  pathSys0  : PathState
  pathSys1  : PathState
  host     : HostPort
  hoist    : Chain
  supply   : Supply
  refclk   : RefClock
  leat     : Leat
  pond     : Pond
  trust    : Trust
  fuses    : Fuses
  nv       : NonVol
  /-- HBM4 and DDR5 by device physical address; hoppers by 0x60_0000 × module stone + offset; granaries by
  0x600_0000 × mill + offset; the non-volatile store by offset. An unlisted byte reads 0. -/
  mem      : List Host.Cell
  hopper   : List Host.Cell
  granary  : List Host.Cell
  nvBytes  : List Host.Cell
  mill0    : Mill
  mill1    : Mill
  /-- units out of service for this start (R524), and retired units whose retirement is in force: kind and index. A unit
  of `nv.retired` that is not in force waits for its boundary (R425). -/
  outUnits : List (Nat × Nat)
  inForce  : List (Nat × Nat)
  /-- corrected errors since start-up, by 2 MiB frame number, and the frames that PAGE_WEAR has been raised for (R271) -/
  wear     : Cells Nat
  worn     : List Nat
  /-- memory ports in self-refresh (R517) or retraining (R334), by granted page entry -/
  portsOff : List PortRef
  /-- armed injections (R557) -/
  inj      : List InjArm
  /-- draw number of the next free value: the model's own field -/
  draw     : Nat
  /-- outcomes of the words that the command in progress is still to read under an error code; a word beyond the list is good: the
  model's own field, empty between commands -/
  codes    : List Ecc
  /-- commands waiting, first in first out -/
  pending  : List Instr
deriving DecidableEq, Repr

/-- Why the block would stop. No meaning answers a fault: every command of the table has an effect or is no happening. -/
inductive Fault where
  /-- Raised by no meaning (safe): the device rejects what it does not allow and goes on. -/
  | halted
deriving DecidableEq, Repr

/-- Why a command is refused. -/
inductive Refusal where
  /-- Raised by an arm of `exec` whose meaning is not written (safe: nothing is claimed of the command). -/
  | notModelled (mnemonic : String)
deriving DecidableEq, Repr

/-! ## Reset values -/

def Assembly.reset : Assembly := { words := [], refused := false }

def CommandFile.reset : CommandFile :=
  { asmPcie := .reset, asmChain := .reset, asmSys0 := .reset, asmSys1 := .reset, queue := [], running := false,
    held := [], dropped := [] }

def Context.reset : Context :=
  { s := [], a := [], t := [], tSeen := [], pc := 0, fetched := none, bundles := 0, waitOn := none,
    waitNs := 0, waitMet := none, holdSeen := false, heldNs := 0, stallCode := 0, stallNs := 0 }

def Miller.reset : Miller :=
  { user := .reset, system := .reset, st := .idle, vreg := [], carry := [], vecQ := [], faults := [], ending := none,
    faulted := false, run := 0, barred := false, replay := none, replaying := false, replayInj := false, spliced := false, sysEvents := [] }

/-- The core rail before core power: the controller at 0.750 V (nominal, R7), the brake lifted. -/
def Power.reset : Power :=
  { vctl := 60, vcap := 100, canaryMin := 0, canaryIdx := 0, coreA := 0, energy := 0, unreached := false, gated := [], ungating := [] }

def Supply.reset : Supply :=
  { stage := 1, powerOn := false, inputCv := 4400, inputW := 0, samples := [], excursion := 0, braking := false,
    ebrake := false, trips := [], storm := false, standby := false, energy := 0, holdOff := false, thermal := false }

def RefClock.reset : RefClock := { state := 0, cal := 0, count := 0, pllsOff := false, expired := false }

def Log.reset : Log :=
  { st := .running, ring := [], age := 0, postLeft := 0, trigNow := false, spillHead := 0, spillTrig := 0,
    lostSeen := false, latHead := 0, latRecs := 0, latCount := 0, curSeq := 0, latBase := 0, latUnits := 0, spillBase := 0,
    spillUnits := 0 }

def WatchPoint.reset : WatchPoint :=
  { openW := false, cfg := 0, trig := 0, absLim := 0, satLim := 0, elems := 0, min := 0x7F800000, max := 0xFF800000,
    sums := [], zeros := 0, sat := 0, nans := 0, digest := 0, hit := false, step := 0 }

def StatSet.reset : StatSet :=
  { rows := [], c := [], a := [], cHits := [], staged := none, fresh := false, srcs := [], shifted := false, taint := false, widened := false,
    begun := 0 }

def Bank.reset : Bank := { st := .free, words := [], toll := false }

def Stone.reset : Stone :=
  { active := .reset, shadow := .reset, loading := false, swaps := 0, onesDue := false, swapped := none,
    shiftDone := none, recv := none, feed := none, injection := 0, bank0 := .reset, bank1 := .reset, plan := 0,
    pass := none, failed := none, draining := false, passes := 0, drains := 0, disabled := [], applyReq := none,
    testReq := false, repair := .none, outOfService := false, unrepairable := false, loads := [] }

def Race.reset : Race :=
  { nextId := 0, clock := 0, ops := [], binds := [], cols := [], tail := [], tiles := [], spliced := false,
    headOne := false, abandoned := false }

def Governor.reset : Governor :=
  { jobs := [], opened := [], vlines := [], begun := [], compat := false, wpHold := none, widened := [], dryTold := [] }

def SluQueue.reset : SluQueue := { xfers := [], parked := none, resumed := false, dropped := [] }

def Sluice.reset : Sluice :=
  { queues := List.replicate 16 .reset, nextId := 0, tlb := [], inval := none, waiters := [], wcache := [], fills := [],
    granPin := 0, shared := false }

def Floor.reset : Floor := { plan := [], pending := false, cal := [], slotPos := [], flits := [], served := [] }

def Toll.reset : Toll := { open_ := [], lastFails := [], fails := [], captured := 0, on := false }

def Mill.reset : Mill :=
  { cmd := .reset, miller := .reset, power := .reset, timers := [none, none, none, none], race := .reset,
    stones := List.replicate 24 .reset, governor := .reset, sluice := .reset, bolter := { ops := [] },
    ledger := { held := [], dirty := [] }, floor := .reset, shaft := [], image := none, toll := .reset, log := .reset,
    watch := List.replicate 16 .reset }

def HostPort.reset : HostPort :=
  { link := 0, width := 0, speed := 0, flit := false, d3 := false, perst := false, busMaster := false,
    msixEnable := false, payload := 512, msixTable := [], msixPend := [], chuteBuf := [], chuteDone := 0,
    overrun := false, doneWait := none, fifo := [], fifoLost := false, sent := [], held := [] }

/-- A module without standby power has its bypass closed; it opens in CHAIN_BYPASS_OPEN (R492). -/
def Chain.reset : Chain :=
  { addr := 0xFFF, enumIn := false, enumOut := false, bypass := true, reads := [], out := none }

def LeatPort.reset : LeatPort :=
  { st := 0, width := 0, lanes := 0, partner := 0, badLanes := 0, fails := 0, rxNext := 0, nacked := false,
    txNext := 0, replay := [], replays := 0, lastVc := 0, frame := 0, credits := [], freed := [], waiting := [], sent := [] }

def Leat.reset : Leat :=
  { ports := List.replicate 24 .reset, groups := [], routes := [], held := [], copies := [], refused := [], blocked := [],
    timeValid := false, slew := 0, slewNs := 0 }

def Pond.reset : Pond :=
  { st := 0, point := false, lastStep := 0, peer := false, slot := false, gen := 0, pages0 := [], pages1 := [], head0 := [],
    head1 := [], parkNs0 := 0, parkNs1 := 0, beganAt := 0, lastUpd := 0, interval := none, recvSlot := false, recvAt0 := 0, recvAt1 := 0,
    recvDone0 := false, recvDone1 := false }

def Trust.reset : Trust :=
  { bootSlot := false, meas := List.replicate 8 (List.replicate 32 0), inactiveOk := false, dirty := [],
    digest := List.replicate 32 0, digestGen := 0, quoteBusy := false, rotateDue := false, keyLow := false, nextLeaf := 0, imageSvn := 0 }

def Fuses.reset : Fuses :=
  { keyHash := List.replicate 32 0, svn := 0, keyGen := 0, tollSeed0 := 0, tollSeed1 := 0, serial := 0 }

def NonVol.reset : NonVol :=
  { rowmaps := [], history := [], retired := [], badFrames := [], held0 := false, held1 := false,
    newest := false, exp0 := false, exp1 := false, writing := none, pondGen := 0, gen0 := 0, gen1 := 0, step0 := 0, step1 := 0, pondCost := 0, places0 := [], places1 := [],
    lambda := 0x37422E45, prefSlot := false, resEnd := 0, dimms := List.replicate 16 0, autoPower := false, chainWait := 0,
    rotations := [], orderly := false, failures := 0 }

/-- The module right after an input reset (R527): start-up stage 1 in progress, nothing read, written or queued. -/
def State.reset : State :=
  { regs := [], tallies := [], time := 0, pathPcie := .reset, pathChain := .reset, pathSys0 := .reset, pathSys1 := .reset,
    host := .reset, hoist := .reset, supply := .reset, refclk := .reset, leat := .reset, pond := .reset, trust := .reset,
    fuses := .reset, nv := .reset, mem := [], hopper := [], granary := [], nvBytes := [], mill0 := .reset,
    mill1 := .reset, outUnits := [], inForce := [], wear := [], worn := [], portsOff := [], inj := [], draw := 0,
    codes := [], pending := [] }

/-! ## The canonical form of a memory -/

/-- Addresses strictly rising and above `lo` where one is given, and no byte equal to 0. -/
def Memory.wfFrom : (lo : Option Nat) → List Host.Cell → Bool
  | _, [] => true
  | lo, c :: cs => (match lo with | none => true | some l => decide (l < c.1)) && (c.2 != 0) && Memory.wfFrom (some c.1) cs

/-- The canonical form: equal memories are equal lists. -/
def Memory.wf (m : List Host.Cell) : Bool := Memory.wfFrom none m

end Sys2Proof.Machine
end

