-- ==== Sys2Proof/Machine/RegMap.lean ====
section
/-! DEFINITION. Register space (chapters 00 and 17): where every page lies, what identifies it, the words each page holds
with the access code, reset value and allowed range of every field, and the classes of the events of each page. -/

namespace Sys2Proof

open Sys2Proof.Machine

def MillId.num : MillId → Nat
  | .m0 => 0
  | .m1 => 1
def MillId.other : MillId → MillId
  | .m0 => .m1
  | .m1 => .m0
/-- The mill of a number. -/
def millOf (n : Nat) : MillId := if n = 0 then .m0 else .m1

def Path.code : Path → Nat
  | .pcie => 0
  | .chain => 1
  | .sys0 => 2
  | .sys1 => 3
/-- The path of a mill's system context (R11). -/
def sysPath : MillId → Path
  | .m0 => .sys0
  | .m1 => .sys1

/-! ## Pages (R588, R596, R599) -/

/-- The mill of a mill page; module-common pages have none. -/
def Page.mill? : Page → Option MillId
  | .directory => none | .host => none | .supply => none | .clock => none | .trust => none | .leat => none
  | .history => none | .pond => none
  | .ikiug m => some m | .command m => some m | .power m => some m | .timer m _ => some m
  | .race m => some m | .governor m => some m | .bolter m => some m | .ledger m => some m
  | .sluice m => some m | .granary m => some m | .toll m => some m | .log m => some m | .watch m => some m
  | .floor m _ => some m | .stone m _ => some m | .hbm m _ => some m | .ddr m _ => some m | .leatPort m _ => some m

/-- Offset of a page within its window (R588). -/
def Page.inWindow : Page → Nat
  | .directory => 0x0000 | .host => 0x1000 | .supply => 0x2000 | .clock => 0x3000
  | .trust => 0x4000 | .leat => 0x5000 | .history => 0x6000 | .pond => 0x7000
  | .ikiug _ => 0x0000 | .command _ => 0x1000 | .power _ => 0x2000
  | .timer _ n => 0x3000 + 0x1000 * n.val
  | .race _ => 0x7000 | .governor _ => 0x8000 | .bolter _ => 0x9000 | .ledger _ => 0xA000 | .sluice _ => 0xB000
  | .granary _ => 0xC000 | .toll _ => 0xD000 | .log _ => 0xE000 | .watch _ => 0xF000
  | .floor _ n => 0x10000 + 0x1000 * n.val
  | .stone _ n => 0x20000 + 0x1000 * n.val
  | .hbm _ n => 0x40000 + 0x1000 * n.val
  | .ddr _ n => 0x50000 + 0x1000 * n.val
  | .leatPort _ n => 0x60000 + 0x1000 * n.val

/-- Register-space offset of a page (R588). -/
def Page.base (p : Page) : Nat :=
  match p.mill? with
  | none => p.inWindow
  | some m => 0x01000000 + 0x04000000 * m.num + p.inWindow

/-- The block type of a page (R599). -/
def Page.typeCode : Page → Nat
  | .directory => 0x0001 | .host => 0x0002 | .supply => 0x0003 | .clock => 0x0004
  | .trust => 0x0005 | .leat => 0x0006 | .history => 0x0007 | .pond => 0x0008
  | .stone _ _ => 0x0010 | .race _ => 0x0011 | .governor _ => 0x0012 | .bolter _ => 0x0013 | .ledger _ => 0x0014
  | .sluice _ => 0x0015 | .granary _ => 0x0016 | .hbm _ _ => 0x0017 | .ddr _ _ => 0x0018 | .ikiug _ => 0x0019
  | .floor _ _ => 0x001A | .leatPort _ _ => 0x001B | .toll _ => 0x001C | .command _ => 0x001D | .power _ => 0x001E
  | .timer _ _ => 0x001F | .log _ => 0x0020 | .watch _ => 0x0021

/-- The instance of a page within its type and location (R26). -/
def Page.instance? : Page → Nat
  | .timer _ n => n.val | .floor _ n => n.val | .stone _ n => n.val | .hbm _ n => n.val | .ddr _ n => n.val
  | .leatPort _ n => n.val | _ => 0

/-- LOC of a page (R590): 0 module-common, 1 mill 0, 2 mill 1. -/
def Page.loc (p : Page) : Nat :=
  match p.mill? with
  | none => 0
  | some m => 1 + m.num

/-- PAGE_ID (R590). -/
def Page.id (p : Page) : W32 := BitVec.ofNat 32 (2 ^ 16 * p.typeCode + 2 ^ 14 * p.loc + p.instance?)

/-- Pages of the always-on island (R589). -/
def Page.island : Page → Bool
  | .directory => true | .host => true | .supply => true | .clock => true | .trust => true | _ => false

/-- The pages of a mill's window, in ascending offset. -/
def millPages (m : MillId) : List Page :=
  [.ikiug m, .command m, .power m, .timer m 0, .timer m 1, .timer m 2, .timer m 3, .race m, .governor m, .bolter m,
   .ledger m, .sluice m, .granary m, .toll m, .log m, .watch m, .floor m 0, .floor m 1, .floor m 2, .floor m 3,
   .floor m 4] ++ (List.finRange 24).map (.stone m) ++ (List.finRange 10).map (.hbm m)
  ++ (List.finRange 8).map (.ddr m) ++ (List.finRange 12).map (.leatPort m)

/-- The module-common pages, in ascending offset. -/
def modulePages : List Page := [.directory, .host, .supply, .clock, .trust, .leat, .history, .pond]

/-- Every page in directory order (R596). -/
def allPages : List Page := modulePages ++ millPages .m0 ++ millPages .m1

/-- Position of a page in its mill's window (R596). -/
def Page.rank : Page → Nat
  | .directory => 0 | .host => 1 | .supply => 2 | .clock => 3 | .trust => 4 | .leat => 5 | .history => 6 | .pond => 7
  | .ikiug _ => 0 | .command _ => 1 | .power _ => 2 | .timer _ n => 3 + n.val
  | .race _ => 7 | .governor _ => 8 | .bolter _ => 9 | .ledger _ => 10 | .sluice _ => 11 | .granary _ => 12
  | .toll _ => 13 | .log _ => 14 | .watch _ => 15 | .floor _ n => 16 + n.val | .stone _ n => 21 + n.val
  | .hbm _ n => 45 + n.val | .ddr _ n => 55 + n.val | .leatPort _ n => 63 + n.val

/-- Directory entry of a page (R596). -/
def Page.entry (p : Page) : Nat :=
  match p.mill? with
  | none => p.rank
  | some m => 8 + 75 * m.num + p.rank

/-- The mill page at a page number of a mill's window (R588). -/
def millPageAt (m : MillId) (k : Nat) : Option Page :=
  match k with
  | 0 => some (.ikiug m) | 1 => some (.command m) | 2 => some (.power m)
  | 3 => some (.timer m 0) | 4 => some (.timer m 1) | 5 => some (.timer m 2) | 6 => some (.timer m 3)
  | 7 => some (.race m) | 8 => some (.governor m) | 9 => some (.bolter m) | 10 => some (.ledger m)
  | 11 => some (.sluice m) | 12 => some (.granary m) | 13 => some (.toll m) | 14 => some (.log m) | 15 => some (.watch m)
  | _ =>
    if h : 0x10 ≤ k ∧ k - 0x10 < 5 then some (.floor m ⟨k - 0x10, h.2⟩)
    else if h : 0x20 ≤ k ∧ k - 0x20 < 24 then some (.stone m ⟨k - 0x20, h.2⟩)
    else if h : 0x40 ≤ k ∧ k - 0x40 < 10 then some (.hbm m ⟨k - 0x40, h.2⟩)
    else if h : 0x50 ≤ k ∧ k - 0x50 < 8 then some (.ddr m ⟨k - 0x50, h.2⟩)
    else if h : 0x60 ≤ k ∧ k - 0x60 < 12 then some (.leatPort m ⟨k - 0x60, h.2⟩)
    else none

/-- The page at a register-space offset (R587). -/
def pageAt (off : Nat) : Option Page :=
  let n := off / 0x1000
  if n < 8 then modulePages[n]?
  else if 0x1000 ≤ n ∧ n < 0x5000 then millPageAt .m0 (n - 0x1000)
  else if 0x5000 ≤ n ∧ n < 0x9000 then millPageAt .m1 (n - 0x5000)
  else none

/-- A stone of the module by index 24m + n (R32). -/
def stoneIndex (m : MillId) (n : Fin 24) : Nat := 24 * m.num + n.val
/-- The page of a memory port. -/
def PortRef.page : PortRef → Page
  | .hbm m n => .hbm m n
  | .ddr m n => .ddr m n
def PortRef.mill : PortRef → MillId
  | .hbm m _ => m
  | .ddr m _ => m

/-! ## Fields -/

/-- Access codes (R17). -/
inductive Acc where
  | ro | rw | w1c | wo | rc
deriving DecidableEq, Repr

/-- A field of a register: its place, access code, reset value, whether it is a behavioural setting (R574, R604) and the
values a write may give it (R635). -/
structure Fld where
  lo  : Nat
  w   : Nat
  acc : Acc
  rst : Nat
  beh : Bool
  min : Nat
  max : Nat
deriving DecidableEq, Repr

/-- A register, or a row of like registers. A wide one is 64 bits (R10). No field: a reserved word (R15). -/
structure Reg where
  off    : Nat
  cnt    : Nat
  stride : Nat
  wide   : Bool
  flds   : List Fld
deriving DecidableEq, Repr

def ro (lo w : Nat) (rst : Nat := 0) : Fld := ⟨lo, w, .ro, rst, false, 0, 2 ^ w - 1⟩
def rw_ (lo w : Nat) (rst : Nat := 0) : Fld := ⟨lo, w, .rw, rst, true, 0, 2 ^ w - 1⟩
/-- A read-write field that is not behavioural (R604). -/
def rwn (lo w : Nat) (rst : Nat := 0) : Fld := ⟨lo, w, .rw, rst, false, 0, 2 ^ w - 1⟩
/-- A read-write field with a range. -/
def rwi (lo w rst min max : Nat) : Fld := ⟨lo, w, .rw, rst, true, min, max⟩
def wo (lo w : Nat) : Fld := ⟨lo, w, .wo, 0, false, 0, 2 ^ w - 1⟩
def rc (lo : Nat) : Fld := ⟨lo, 1, .rc, 0, false, 0, 1⟩

def reg (off : Nat) (flds : List Fld) : Reg := ⟨off, 1, 4, false, flds⟩
def regs (off cnt stride : Nat) (flds : List Fld) : Reg := ⟨off, cnt, stride, false, flds⟩
def reg64 (off : Nat) (flds : List Fld) : Reg := ⟨off, 1, 8, true, flds⟩
def regs64 (off cnt stride : Nat) (flds : List Fld) : Reg := ⟨off, cnt, stride, true, flds⟩
/-- A whole read-only word and a whole read-only 64-bit register. -/
def roW (off : Nat) (rst : Nat := 0) : Reg := reg off [ro 0 32 rst]
def roD (off : Nat) : Reg := reg64 off [ro 0 64]

/-! ## The common header (R590) -/

/-- Event classes (R20). -/
inductive Cls where
  | info | warning | fault | nmi
deriving DecidableEq, Repr

def Cls.code : Cls → Nat
  | .info => 0 | .warning => 1 | .fault => 2 | .nmi => 3

/-- The classes of a page's events, bit 0 first. -/
def Page.events : Page → List Cls
  | .directory => [.warning, .warning]
  | .host => [.warning, .info, .warning, .warning, .warning, .warning, .info, .info]
  | .supply => [.info, .warning, .fault, .warning, .fault, .info]
  | .clock => [.nmi, .nmi, .info, .fault]
  | .trust => [.warning, .info, .info, .warning, .info, .fault]
  | .leat => [.warning, .warning, .fault, .warning, .info, .warning, .fault, .warning, .warning]
  | .history => [.warning, .warning, .fault, .fault]
  | .pond => [.info, .warning, .info, .warning, .info, .fault]
  | .ikiug _ => [.fault, .fault, .info, .fault, .info]
  | .command _ => [.warning, .info, .info]
  | .power _ => [.info, .warning]
  | .timer _ _ => [.info]
  | .race _ => [.fault, .warning, .info, .info, .fault]
  | .governor _ => [.info, .warning, .fault, .fault, .fault, .info, .info, .info, .info]
  | .bolter _ => [.fault, .fault, .fault, .warning, .info, .info, .info]
  | .ledger _ => [.warning, .fault]
  | .sluice _ => [.info, .fault]
  | .granary _ => [.fault]
  | .toll _ => [.fault, .fault, .info, .fault, .fault, .info]
  | .log _ => [.info, .info, .warning]
  | .watch _ => [.info]
  | .floor _ n => if n = 0 then [.fault, .fault, .warning, .info] else []
  | .stone _ _ => [.fault, .fault, .fault, .fault, .warning, .fault, .info, .info, .info, .info]
  | .hbm _ _ => [.warning, .fault, .warning]
  | .ddr _ _ => [.warning, .fault, .warning]
  | .leatPort _ _ => [.warning, .warning, .info]

/-- How many tallies a page names, from slot 0 up. -/
def Page.tallies : Page → Nat
  | .directory => 4 | .host => 16 | .supply => 7 | .clock => 5 | .trust => 10 | .leat => 16 | .history => 4 | .pond => 16
  | .ikiug _ => 16 | .command _ => 8 | .power _ => 9 | .timer _ _ => 1 | .race _ => 16 | .governor _ => 16
  | .bolter _ => 16 | .ledger _ => 4 | .sluice _ => 16 | .granary _ => 4 | .toll _ => 16 | .log _ => 10 | .watch _ => 3
  | .floor _ n => if n = 0 then 16 else 0
  | .stone _ _ => 16 | .hbm _ _ => 6 | .ddr _ _ => 6 | .leatPort _ _ => 16

/-- The highest code of a page's injection table; the codes start at 1 (R556). -/
def Page.injections : Page → Nat
  | .directory => 2 | .host => 3 | .supply => 2 | .clock => 2 | .trust => 3 | .leat => 5 | .history => 2 | .pond => 3
  | .ikiug _ => 3 | .command _ => 1 | .power _ => 1 | .timer _ _ => 1 | .race _ => 3 | .governor _ => 4
  | .bolter _ => 4 | .ledger _ => 2 | .sluice _ => 3 | .granary _ => 2 | .toll _ => 4 | .log _ => 1 | .watch _ => 1
  | .floor _ n => if n = 0 then 3 else 0
  | .stone _ _ => 6 | .hbm _ _ => 3 | .ddr _ _ => 3 | .leatPort _ _ => 4

/-- How many bits of TARGET, from bit 0, the item of an injection code uses (R556); a code that names no item uses none. -/
def Page.targetWidth (p : Page) (code : Nat) : Nat :=
  match p, code with
  | .directory, 1 => 3 | .directory, 2 => 8
  | .leat, 1 => 24 | .leat, 2 => 24 | .leat, 3 => 16 | .leat, 4 => 24 | .leatPort _ _, 3 => 24
  | .ikiug _, 1 => 24 | .command _, 1 => 4
  | .race _, 1 => 24 | .race _, 2 => 14
  | .governor _, 2 => 24 | .bolter _, 1 => 24 | .bolter _, 2 => 24
  | .sluice _, 1 => 24 | .watch _, 1 => 4 | .floor _ _, 1 => 24 | .floor _ _, 2 => 24
  | .stone _ _, 1 => 17 | .stone _ _, 2 => 17 | .stone _ _, 3 => 24 | .stone _ _, 4 => 24 | .stone _ _, 5 => 17
  | .stone _ _, 6 => 24
  | _, _ => 0

/-- The mask of the event bits a page names. -/
def Page.eventMask (p : Page) : Nat := 2 ^ p.events.length - 1

/-- The bits of non-maskable events (R21). -/
def Page.nmiMask (p : Page) : Nat :=
  (List.range p.events.length).foldl (fun a k => if p.events.getD k .info = .nmi then a + 2 ^ k else a) 0

/-- EVT_EN at reset (R594; the governor's is stated in R200). -/
def Page.enReset : Page → Nat
  | .governor _ => 0x1E
  | p => p.eventMask

/-- The claimant codes of a page's shared resource, in order from 1; 0 for a page without one (R602). -/
def Page.claimCodes : Page → Nat
  | .clock => 2 | .granary _ => 2 | .timer _ _ => 4 | .host => 3 | _ => 0

def headerRegs (p : Page) : List Reg :=
  [reg 0x000 [ro 0 32 p.id.toNat], reg 0x004 [ro 0 8, ro 8 8 1], reg 0x008 [rw_ 0 1], reg 0x00C [ro 0 5],
   reg 0x010 [ro 0 32], reg 0x014 [⟨0, 32, .rw, p.enReset, true, 0, 2 ^ 32 - 1⟩], reg 0x018 [ro 0 32],
   reg 0x01C [⟨0, 32, .w1c, 0, false, 0, 2 ^ 32 - 1⟩],
   reg 0x020 [rw_ 0 8, rw_ 8 24], reg 0x024 [wo 0 1, wo 1 1, ro 2 1, rwi 4 8 1 1 255, rw_ 16 16], roW 0x028,
   reg 0x02C [wo 0 4, wo 4 1, wo 5 1, ro 8 4, ro 12 3, ro 16 4], roW 0x030,
   regs 0x034 3 4 [], regs64 0x040 16 8 [ro 0 64], regs 0x0C0 16 4 []]

/-! ## Block-specific registers, page by page -/

/-- The directory (R597). -/
def directoryRegs : List Reg :=
  [reg 0x100 [ro 0 16 158], reg 0x110 [ro 0 28], reg 0x114 [ro 0 4, ro 4 3, ro 7 1, rc 31], roW 0x118, roW 0x120,
   reg 0x124 [ro 0 4, ro 4 4, ro 8 3, rc 31], regs 0x200 158 8 [ro 0 32], regs 0x204 158 8 [ro 0 16, ro 16 1, ro 17 1, ro 18 1]]

/-- The host page (R497). -/
def hostRegs : List Reg :=
  [reg 0x100 [ro 0 2, ro 2 5, ro 7 3, ro 10 1, ro 11 1],
   reg64 0x108 [⟨0, 32, .rc, 0, false, 0, 2 ^ 32 - 1⟩, ro 32 5, ro 37 2, ro 39 4, ro 43 1], reg 0x110 [ro 0 9]]
  ++ (List.range 15).map (fun n => reg (0x140 + 4 * n)
      [rw_ 0 6, rw_ 6 1, rw_ 7 1 (if n ∈ [2, 3, 6, 7, 10, 11] then 1 else 0)])
  ++ [reg64 0x180 [rwn 0 44], reg64 0x188 [rwn 0 44], roD 0x190, reg64 0x1A0 [rwn 0 44], reg64 0x1A8 [rwn 0 64],
   reg64 0x1B0 [rwn 0 41], reg64 0x1B8 [rwn 0 64], reg 0x1C0 [wo 0 1, wo 1 1, ro 2 3], roD 0x1C8,
   reg64 0x1D0 [rwn 0 1, rwn 10 54], reg 0x200 [ro 0 12, ro 12 1, ro 13 1],
   reg64 0x208 [rwn 0 44, rwn 63 1], reg64 0x210 [rwn 0 44, rwn 63 1], reg 0x218 [rwn 0 32]]

/-- The command page (R497). -/
def commandRegs : List Reg :=
  [reg 0x100 [ro 0 5, ro 5 1, ro 6 8], reg 0x104 [rwn 0 32 1], roW 0x108, reg 0x10C [wo 0 32], reg 0x110 [wo 0 1, wo 1 1],
   roW 0x120, reg 0x124 [ro 0 4, ro 4 2, rc 31],
   regs 0x200 16 32 [ro 0 32], regs 0x204 16 32 [ro 0 4, ro 4 16], regs64 0x208 16 32 [ro 0 64], regs64 0x210 16 32 [ro 0 64],
   regs64 0x218 16 32 [], regs 0x800 512 4 [wo 0 32]]

/-- The supply page (R531). -/
def supplyRegs : List Reg :=
  [reg 0x100 [rwi 0 13 4000 1000 4000, rwi 13 4 10 1 10], reg 0x104 [ro 0 13, ro 13 13, ro 26 1, ro 27 1], reg 0x108 [ro 0 16],
   reg 0x10C [wo 0 1, wo 1 1, wo 2 1, wo 3 1], reg 0x110 [ro 0 4, ro 4 1, ro 5 4, ro 9 3], reg 0x114 [rw_ 0 1, rw_ 1 16]]

/-- The clock page (R531). -/
def clockRegs : List Reg :=
  [reg 0x100 [ro 0 3], reg 0x104 [ro 0 16, ro 16 16], reg 0x108 [rwi 0 16 1000 1 65535], reg 0x10C [rwn 0 4, rwn 4 6, rwn 10 5]]

/-- The power page (R531). -/
def powerRegs : List Reg :=
  [reg 0x100 [rwi 0 12 1600 900 2000], reg 0x104 [rwi 0 8 0 0 100, rwi 8 8 100 0 100, ro 16 8, ro 24 8], reg 0x108 [ro 0 12, ro 12 5],
   reg 0x10C [rwi 0 11 2000 1000 2000, ro 11 11], reg 0x110 [rwi 0 16 100 1 65535], reg 0x114 [ro 0 24], reg 0x118 [wo 0 1]]

/-- A timer page (R531). -/
def timerRegs : List Reg := [reg 0x100 [rwn 0 31, rwn 31 1], reg 0x104 [ro 0 31]]

/-- The log page (R561). -/
def logRegs : List Reg :=
  [reg 0x100 [rw_ 0 2 1, rwi 2 5 12 4 24, rw_ 7 1, rw_ 8 1, rw_ 16 16 10], reg 0x104 [rwi 0 3 0 0 5, rw_ 3 4, rw_ 7 4, rw_ 11 5, rw_ 16 16],
   reg64 0x108 [rw_ 0 48], reg 0x110 [rw_ 0 32], reg 0x114 [rw_ 0 24 4096], reg 0x118 [wo 0 1, wo 1 1, wo 2 1, ro 3 3],
   reg 0x11C [ro 0 24], reg64 0x120 [rwn 21 23], reg 0x128 [rw_ 0 8], roW 0x130, roW 0x134, reg 0x140 [rwn 0 13],
   regs 0x160 8 4 [ro 0 32], reg64 0x180 [rwn 21 23], reg 0x188 [rw_ 0 8], reg64 0x190 [ro 0 41], roW 0x198, roW 0x19C]

/-- The watch page (R561). -/
def watchRegs : List Reg :=
  [regs 0x100 16 0x80 [rw_ 0 12, rw_ 12 1, rwi 13 2 0 0 2, rw_ 16 14 0x3FFF], regs 0x104 16 0x80 [rw_ 0 1, rw_ 1 1, rw_ 2 1],
   regs 0x108 16 0x80 [rw_ 0 32 0x7F800000], regs 0x10C 16 0x80 [rw_ 0 32], regs 0x110 16 0x80 [ro 0 32], regs 0x114 16 0x80 [],
   regs64 0x118 16 0x80 [ro 0 64], regs 0x120 16 0x80 [ro 0 32], regs 0x124 16 0x80 [ro 0 32], regs64 0x128 16 0x80 [ro 0 64],
   regs64 0x130 16 0x80 [ro 0 64], regs64 0x138 16 0x80 [ro 0 64], regs64 0x140 16 0x80 [ro 0 64], regs64 0x148 16 0x80 [ro 0 64],
   regs64 0x150 16 0x80 [ro 0 64], regs64 0x158 16 0x80 [ro 0 48]]
  ++ (List.range 8).map (fun w => regs (0x160 + 4 * w) 16 0x80 []) ++ [reg 0x900 [wo 0 16]]

/-- The Ikiug page (R318). -/
def ikiugRegs : List Reg :=
  [reg 0x104 [ro 0 3, ro 3 1], roD 0x108, roW 0x140, reg 0x144 [ro 0 3, ro 3 2, ro 5 1, rc 31], roW 0x148, reg 0x14C [ro 0 16],
   roD 0x150, roD 0x158, roD 0x160, roD 0x168, regs64 0x400 32 8 [ro 0 64], regs64 0x500 16 8 [ro 0 64], regs 0x580 16 4 [ro 0 32]]

/-- A stone page (R95). -/
def stoneRegs : List Reg :=
  [reg 0x100 [rwi 0 5 18 8 24, rw_ 5 3], reg 0x104 [ro 0 10],
   regs 0x108 2 4 [⟨0, 9, .rw, 0, false, 0, 260⟩, rwn 9 1, ⟨16, 9, .rw, 0, false, 0, 260⟩, rwn 25 1],
   reg 0x110 [wo 0 1, wo 1 1, ro 8 2, ro 16 9], roW 0x120, reg 0x124 [ro 0 8, ro 8 1, ro 9 9, rc 31], roD 0x128, roD 0x130,
   roW 0x138, roW 0x13C, regs 0x200 257 4 [ro 0 9, ro 9 9]]

/-- The race page (R135). -/
def raceRegs : List Reg :=
  [reg 0x100 [rw_ 0 1, rw_ 1 1], reg 0x104 [ro 0 2, ro 2 1, ro 3 1, ro 4 4], regs 0x140 24 4 [ro 0 2, ro 2 2, ro 4 3, ro 7 1],
   roW 0x1A0, reg 0x1A4 [ro 0 6, ro 8 4, rc 31], regs 0x400 16 4 [ro 0 32 0xFFFFFFFF], regs 0x440 240 4 [rw_ 0 32 0xFFFFFFFF]]

/-- The governor page (R198). -/
def governorRegs : List Reg :=
  [reg 0x100 [rw_ 0 1], reg 0x104 [ro 0 16], reg64 0x108 [rw_ 12 52], reg64 0x110 [rw_ 12 52],
   reg 0x118 [rwi 0 4 8 1 15, rw_ 4 1, rw_ 5 1, rw_ 6 5 14, rw_ 11 5 14], reg 0x11C [rwi 0 16 64 1 65535, rwi 16 14 9990 0 10000],
   reg 0x120 [ro 0 10, rc 31], roW 0x140, reg 0x144 [ro 0 12, ro 12 4, ro 16 4, rc 31], roW 0x148, roW 0x14C]

/-- The bolter page (R211, R234). -/
def bolterRegs : List Reg :=
  [reg 0x104 [ro 0 2, ro 2 1, ro 3 1, ro 4 12], reg64 0x108 [rw_ 7 57], roW 0x140, reg 0x144 [ro 0 12, ro 12 4, rc 31],
   roW 0x148, roW 0x14C, reg 0x150 [wo 0 1]]
  ++ (List.range 16).map (fun c => regs (0x400 + 4 * c) 8 0x80 [rw_ 0 32])
  ++ [regs 0x440 8 0x80 ((List.range 10).map fun b => rw_ b 1), regs 0x444 8 0x80 [rwi 0 16 1 1 65535, rwi 16 4 15 1 15],
   regs64 0x448 8 0x80 [rw_ 0 48 1]]
  ++ (List.range 12).map (fun w => regs (0x450 + 4 * w) 8 0x80 [])

/-- The ledger page (R234). -/
def ledgerRegs : List Reg :=
  [regs64 0x100 8 0x10 [rw_ 12 52], regs 0x108 8 0x10 [rwi 0 26 0 0 0x2000000], reg 0x180 [wo 0 1, ro 1 1]]

/-- The words of a park record (R274); bit 31 of its second word is live there and RC in the command-fault record. -/
def parkWords (base cnt : Nat) (last : Fld) : List Reg :=
  [regs base cnt 0x40 [ro 0 32], regs (base + 4) cnt 0x40 [ro 0 4, ro 4 2, ro 8 4, last], regs64 (base + 8) cnt 0x40 [ro 0 64]]
  ++ (List.range 6).map (fun w => regs (base + 0x10 + 4 * w) cnt 0x40 [ro 0 32])
  ++ [regs64 (base + 0x28) cnt 0x40 [ro 0 64]]

/-- The sluice page (R274). -/
def sluiceRegs : List Reg :=
  [reg 0x104 [ro 0 32], reg64 0x108 [rwn 21 23], reg 0x110 [wo 0 4, wo 8 1, wo 9 1], reg 0x118 [wo 0 1, wo 1 1, ro 2 1],
   reg64 0x120 [rw_ 0 48]] ++ parkWords 0x180 1 (rc 31) ++ parkWords 0x200 16 (ro 31 1)
  ++ (List.range 4).map (fun w => regs (0x230 + 4 * w) 16 0x40 [])

/-- The granary page (R274). -/
def granaryRegs : List Reg := [reg 0x100 [rwi 0 6 0 0 46]]

/-- A memory port page (R274). -/
def portRegs : List Reg :=
  [reg 0x100 [rw_ 0 8 12, rwi 8 16 64 1 65535], reg64 0x110 [ro 0 44], reg 0x118 [ro 0 2, ro 2 6, rc 31], roW 0x11C]

/-- Floor page 0 (R349). -/
def floorRegs : List Reg :=
  [reg 0x104 [ro 0 2], reg 0x110 [ro 0 24], roW 0x114 0x600000, reg 0x118 [ro 0 4 2, ro 4 8 64, ro 12 6 63, ro 18 6 31],
   reg 0x11C [ro 0 5 16, ro 5 5 16, ro 10 7 64, ro 17 3 4, ro 20 7 64], reg 0x120 [ro 0 17 65536, ro 17 6 48, ro 23 6 46],
   reg 0x124 [ro 0 4 1, ro 4 4 4], reg 0x180 [], regs 0x184 31 4 [rwi 0 3 0 0 5, rw_ 4 4],
   regs 0x200 16 4 [ro 0 32], regs 0x400 384 4 [ro 0 32]]

/-- Coordinates of a link index: the node it leaves and its direction (R352). -/
def linkNode (l : Nat) : Nat × Nat × Nat := (l / 4 % 8, l / 32, l % 4)

/-- The index of the link that leaves a node in a direction (R352). -/
def linkIndex (node : Nat × Nat) (d : Nat) : Nat := 4 * (8 * node.2 + node.1) + d

/-- The direction of a link, as R352 numbers it; none for the shaft. -/
def LinkWay.direction : LinkWay → Option Nat
  | .xUp => some 0
  | .xDown => some 1
  | .yUp => some 2
  | .yDown => some 3
  | .shaft => none

/-- Does a link index name a link? -/
def linkExists (l : Nat) : Bool :=
  let (x, y, d) := linkNode l
  decide (l < 192) && (match d with
    | 0 => decide (x < 7)
    | 1 => decide (x > 0)
    | 2 => decide (y < 5)
    | _ => decide (y > 0))

/-- Floor pages 1 to 4: the slot tables (R351). Slot 63 is read-only (R334). -/
def slotRegs (page : Nat) : List Reg :=
  (List.range (if page = 4 then 12 else 60)).flatMap fun i =>
    if linkExists (60 * (page - 1) + i) then
      [regs (0x100 + 64 * i) 15 4 [rw_ 0 5, rw_ 8 5, rw_ 16 5, rw_ 24 5], reg (0x13C + 64 * i) [rw_ 0 5, rw_ 8 5, rw_ 16 5, ro 24 5]]
    else [regs (0x100 + 64 * i) 16 4 []]

/-- The trust page (R584). -/
def trustRegs : List Reg :=
  [reg 0x100 [ro 0 6, ro 6 4, ro 10 1, ro 11 1, ro 12 1, ro 13 1, ro 14 1], reg 0x104 [rw_ 0 1, rw_ 1 20 1024],
   reg 0x108 [wo 0 1, wo 1 1, wo 2 1, wo 3 1, wo 4 1], reg 0x10C [ro 0 3, ro 3 8], reg 0x110 [ro 0 30], reg 0x114 [ro 0 30],
   roD 0x118, regs 0x120 8 4 [ro 0 32], regs 0x140 8 4 [rwn 0 32], reg64 0x160 [rwn 6 38], reg 0x168 [ro 0 2],
   regs 0x200 64 4 [ro 0 32], regs 0x300 8 4 [rwn 0 32], reg 0x320 [wo 0 3, wo 3 1]]

/-- The Leat page (R396). -/
def leatRegs : List Reg :=
  [reg 0x100 [rwn 0 16 0xFFFF], reg 0x104 [rwi 0 5 1 1 16, rwi 5 5 1 1 16, rwi 10 5 1 1 16, rwi 15 5 1 1 16],
   reg64 0x108 [rwn 21 23], reg 0x110 [wo 0 12, wo 12 1, wo 13 1, ro 14 1, ro 15 2], reg 0x118 [rwn 0 16],
   reg 0x11C [rwn 0 16, rwn 16 1, rwn 17 1], reg 0x120 [rwi 0 24 500 1 16777215, rwi 24 8 16 1 255], roD 0x128,
   reg64 0x130 [wo 0 64], reg 0x138 [rw_ 0 16, ro 16 1], reg 0x140 [rwn 0 12], reg 0x144 [ro 0 16, ro 16 2, ro 18 1, ro 19 1],
   reg64 0x148 [ro 0 48], reg 0x150 [ro 0 12, ro 12 16, ro 28 3, rc 31], roW 0x154, reg64 0x158 [ro 0 48]]

/-- A Leat port page (R396). -/
def leatPortRegs : List Reg :=
  [reg 0x100 [rwn 0 1 1, rwi 1 2 2 0 2, wo 3 1, rwi 4 12 1024 1 4095], reg 0x104 [ro 0 3, ro 3 2, ro 5 8, ro 13 16]]

/-- The toll page (R430). The reset of TOLL_SEED is a fuse: see `Fuses`. -/
def tollRegs : List Reg :=
  [reg 0x100 [rwi 0 15 1024 0 16384, rw_ 15 1 1, rwi 16 15 1024 0 16384], reg 0x104 [rwn 0 32], reg64 0x108 [rwn 21 23],
   reg 0x110 [rw_ 0 8], reg 0x114 [rw_ 0 2 3], reg 0x118 [ro 0 2, ro 2 1, ro 3 1], roW 0x140,
   reg 0x144 [ro 0 5, ro 5 5, ro 10 3, rc 31], roW 0x148, reg 0x14C [], roD 0x150, roD 0x158]

/-- The history page (R430). -/
def historyRegs : List Reg :=
  [reg 0x100 [rwi 0 4 3 2 15, rw_ 4 1], reg 0x104 [rwi 0 32 1000000 1 0xFFFFFFFF], reg 0x108 [rw_ 0 16 50], reg 0x10C [ro 0 17, ro 17 1],
   reg 0x110 [rwn 0 16], regs 0x120 8 4 [ro 0 32], reg 0x140 [ro 0 12, ro 12 16, ro 28 3, rc 31], reg64 0x148 [ro 0 48],
   regs 0x200 128 4 [rw_ 0 32], regs 0x400 2 4 [ro 0 24], reg 0x408 [ro 0 20], reg 0x40C [ro 0 16], reg 0x410 [ro 0 24],
   reg 0x414 [ro 0 25], reg 0x420 [wo 0 4, wo 4 16, wo 20 1, wo 21 1]]

/-- The pond page (R458). -/
def pondRegs : List Reg :=
  [reg 0x100 [rw_ 0 1, rw_ 1 1 1, rw_ 2 4 4, rw_ 6 1], reg 0x104 [wo 0 1, wo 1 1, wo 2 1, wo 3 1, wo 4 1, wo 5 1, wo 6 1],
   reg 0x108 [ro 0 3, ro 3 1, ro 4 1, ro 5 1, ro 6 1, ro 7 1], roW 0x10C, reg64 0x110 [ro 0 48], reg64 0x118 [rwn 21 23],
   reg64 0x120 [rwn 21 23], reg 0x128 [rw_ 0 20], reg 0x12C [rwi 0 10 256 1 512], reg64 0x130 [rw_ 6 42], reg 0x138 [rw_ 0 12, rw_ 12 4],
   roD 0x140, reg 0x148 [rwn 0 32], reg 0x14C [ro 0 16], reg 0x150 [rwi 0 16 60 1 65535, rw_ 16 16 14400], reg 0x154 [wo 0 8],
   reg 0x158 [rw_ 0 32 1], roW 0x160, reg 0x164 [ro 0 4, rc 31], roD 0x168]

/-- The block-specific registers of a page. -/
def blockRegs : Page → List Reg
  | .directory => directoryRegs | .host => hostRegs | .supply => supplyRegs | .clock => clockRegs | .trust => trustRegs
  | .leat => leatRegs | .history => historyRegs | .pond => pondRegs
  | .ikiug _ => ikiugRegs | .command _ => commandRegs | .power _ => powerRegs | .timer _ _ => timerRegs
  | .race _ => raceRegs | .governor _ => governorRegs | .bolter _ => bolterRegs | .ledger _ => ledgerRegs
  | .sluice _ => sluiceRegs | .granary _ => granaryRegs | .toll _ => tollRegs | .log _ => logRegs | .watch _ => watchRegs
  | .floor _ n => if n = 0 then floorRegs else slotRegs n.val
  | .stone _ _ => stoneRegs | .hbm _ _ => portRegs | .ddr _ _ => portRegs | .leatPort _ _ => leatPortRegs

/-- A word of a register: which register, its index in the row, and whether it is the high word. -/
structure WordAt where
  reg : Reg
  idx : Nat
  hi  : Bool
deriving DecidableEq, Repr

/-- The word of a register row that an offset names, if any. -/
def Reg.wordAt (r : Reg) (off : Nat) : Option WordAt :=
  let d := off - r.off
  let k := if r.cnt ≤ 1 then 0 else d / r.stride
  let o := d - k * r.stride
  if off < r.off ∨ k ≥ r.cnt then none
  else if o = 0 then some ⟨r, k, false⟩
  else if o = 4 ∧ r.wide then some ⟨r, k, true⟩
  else none

/-- The word at an aligned offset of a page; none where no table lists it (R15). -/
def wordAt (p : Page) (off : Nat) : Option WordAt :=
  (if off < 0x100 then headerRegs p else blockRegs p).findSome? (·.wordAt off)

/-- The fields of one 32-bit word: those of a single register, or the parts of the fields of a wide one. -/
def WordAt.fields (w : WordAt) : List Fld :=
  if w.reg.wide then
    w.reg.flds.filterMap fun f =>
      let b := if w.hi then 32 else 0
      let lo := max f.lo b
      let hi := min (f.lo + f.w) (b + 32)
      if lo < hi then some { f with lo := lo - b, w := hi - lo, rst := natBits f.rst (lo - f.lo) (hi - lo) } else none
  else w.reg.flds

/-- The reset value of a word. -/
def fieldsReset (fs : List Fld) : Nat := fs.foldl (fun a f => a + f.rst * 2 ^ f.lo) 0

/-- The reset value of the word at an offset of a page (0 where there is none). -/
def wordReset (p : Page) (off : Nat) : W32 :=
  match wordAt p off with
  | none => 0
  | some w => BitVec.ofNat 32 (fieldsReset w.fields)

/-- The bits of a word that a set of access codes covers. -/
def fieldsMask (fs : List Fld) (p : Fld → Bool) : Nat :=
  (fs.filter p).foldl (fun a f => a + (2 ^ f.w - 1) * 2 ^ f.lo) 0

/-- The words of a page with a behavioural bit, in ascending offset, with the mask of those bits (R576). INJ_CTL enters as the
word last written. -/
def behWords (p : Page) : List (Nat × Nat) :=
  (List.range 1024).filterMap fun i =>
    match wordAt p (4 * i) with
    | none => none
    | some w =>
      let k := fieldsMask w.fields (·.beh)
      if 4 * i = 0x024 then some (0x024, 0xFFFF0FF3) else if k = 0 then none else some (4 * i, k)

end Sys2Proof
end

