-- ==== Sys2Proof/Machine/Ops.lean ====
section
/-! DEFINITION. The named operations over the state: sparse tables and memories, mills, stones, access paths, register
words and fields, tallies, free values, and which pages are out of reset. -/

namespace Sys2Proof.Machine

/-! ## Sparse tables -/

/-- The entry of a key; an unlisted key holds the default. -/
def cellGet {α : Type} (d : α) (k : Nat) : Cells α → α
  | [] => d
  | (k', v) :: r => if k = k' then v else cellGet d k r

/-- A new entry before the first key above it. -/
def cellInsert {α : Type} (k : Nat) (v : α) : Cells α → Cells α
  | [] => [(k, v)]
  | c :: r => if k < c.1 then (k, v) :: c :: r else c :: cellInsert k v r

/-- Writes the entry of a key and keeps the canonical form: keys rising, nothing listed at its default. A write of what the
key holds changes nothing. -/
def cellSet {α : Type} [DecidableEq α] (d : α) (k : Nat) (v : α) (l : Cells α) : Cells α :=
  if cellGet d k l = v then l
  else
    let r := l.filter fun c => c.1 != k
    if v = d then r else cellInsert k v r

/-- The `n` bytes of a memory from an address up. -/
def readBytes (mem : List Host.Cell) (a n : Nat) : List Byte := (List.range n).map fun i => cellGet 0 (a + i) mem

/-- Writes bytes to a memory from an address up. -/
def writeBytes (mem : List Host.Cell) (a : Nat) : List Byte → List Host.Cell
  | [] => mem
  | b :: bs => writeBytes (cellSet 0 a b mem) (a + 1) bs

/-- The little-endian number of `n` bytes of a memory. -/
def readNat (mem : List Host.Cell) (a n : Nat) : Nat := leNat (readBytes mem a n)

/-- A list with one member changed. -/
def listOn {α : Type} (l : List α) (i : Nat) (f : α → α) : List α := l.modify i f

/-- The positions of a list at which a test holds. -/
def positions {α : Type} (l : List α) (p : α → Bool) : List Nat :=
  (List.range l.length).filter fun i => match l[i]? with | some x => p x | none => false

/-! ## Mills, stones and paths -/

def State.mill (s : State) : MillId → Mill
  | .m0 => s.mill0
  | .m1 => s.mill1

def State.onMill (s : State) (m : MillId) (f : Mill → Mill) : State :=
  match m with
  | .m0 => { s with mill0 := f s.mill0 }
  | .m1 => { s with mill1 := f s.mill1 }

def State.stone (s : State) (m : MillId) (n : Nat) : Stone := (s.mill m).stones.getD n .reset

def State.onStone (s : State) (m : MillId) (n : Nat) (f : Stone → Stone) : State :=
  s.onMill m fun x => { x with stones := listOn x.stones n f }

def State.onMiller (s : State) (m : MillId) (f : Miller → Miller) : State :=
  s.onMill m fun x => { x with miller := f x.miller }

def State.onCmd (s : State) (m : MillId) (f : CommandFile → CommandFile) : State :=
  s.onMill m fun x => { x with cmd := f x.cmd }

def State.onRace (s : State) (m : MillId) (f : Race → Race) : State :=
  s.onMill m fun x => { x with race := f x.race }

def State.onGov (s : State) (m : MillId) (f : Governor → Governor) : State :=
  s.onMill m fun x => { x with governor := f x.governor }

def State.onSluice (s : State) (m : MillId) (f : Sluice → Sluice) : State :=
  s.onMill m fun x => { x with sluice := f x.sluice }

def State.onBolter (s : State) (m : MillId) (f : Bolter → Bolter) : State :=
  s.onMill m fun x => { x with bolter := f x.bolter }

def State.onLog (s : State) (m : MillId) (f : Log → Log) : State :=
  s.onMill m fun x => { x with log := f x.log }

def State.onToll (s : State) (m : MillId) (f : Toll → Toll) : State :=
  s.onMill m fun x => { x with toll := f x.toll }

def State.onPower (s : State) (m : MillId) (f : Power → Power) : State :=
  s.onMill m fun x => { x with power := f x.power }

def State.path (s : State) : Path → PathState
  | .pcie => s.pathPcie
  | .chain => s.pathChain
  | .sys0 => s.pathSys0
  | .sys1 => s.pathSys1

def State.onPath (s : State) (p : Path) (f : PathState → PathState) : State :=
  match p with
  | .pcie => { s with pathPcie := f s.pathPcie }
  | .chain => { s with pathChain := f s.pathChain }
  | .sys0 => { s with pathSys0 := f s.pathSys0 }
  | .sys1 => { s with pathSys1 := f s.pathSys1 }

def Miller.ctx (x : Miller) : Ctx → Context
  | .user => x.user
  | .system => x.system

def Miller.onCtx (x : Miller) (c : Ctx) (f : Context → Context) : Miller :=
  match c with
  | .user => { x with user := f x.user }
  | .system => { x with system := f x.system }

/-- The state after a list of changes, in order. -/
def State.forAll {α : Type} (s : State) (l : List α) (f : State → α → State) : State := l.foldl f s

/-! ## Register words -/

/-- The stored word at an offset of a page. -/
def State.word (s : State) (p : Page) (off : Nat) : W32 := cellGet (wordReset p off) (p.base + off) s.regs

def State.setWord (s : State) (p : Page) (off : Nat) (v : W32) : State :=
  { s with regs := cellSet (wordReset p off) (p.base + off) v s.regs }

/-- A field of a stored word. -/
def State.fld (s : State) (p : Page) (off lo w : Nat) : Nat := bitsOf (s.word p off) lo w

def State.bit (s : State) (p : Page) (off i : Nat) : Bool := bitOf (s.word p off) i

def State.putFld (s : State) (p : Page) (off lo w v : Nat) : State := s.setWord p off (putBits (s.word p off) lo w v)

/-- A stored 64-bit register (R10). -/
def State.word64 (s : State) (p : Page) (off : Nat) : W64 := mkWord64 (s.word p (off + 4)) (s.word p off)

def State.setWord64 (s : State) (p : Page) (off : Nat) (v : W64) : State :=
  (s.setWord p off (loWord v)).setWord p (off + 4) (hiWord v)

def State.fld64 (s : State) (p : Page) (off lo w : Nat) : Nat := bitsOf (s.word64 p off) lo w

/-! ## Tallies (R534) and free values -/

def State.tallyOf (s : State) (p : Page) (k : Nat) : W64 := cellGet 0 (16 * p.entry + k) s.tallies

/-- Adds to a tally. -/
def State.tally (s : State) (p : Page) (k n : Nat) : State :=
  { s with tallies := cellSet 0 (16 * p.entry + k) (s.tallyOf p k + BitVec.ofNat 64 n) s.tallies }

/-- Control messages are delivered over the floor of a mill (R333, R354): token posts of engines, command starts, event notices, invalidations
of translations and park notices. -/
def State.ctrlMsg (s : State) (m : MillId) (n : Nat) : State := s.tally (.floor m 0) 6 n

/-- A free value: what the manual leaves undefined. -/
def State.free (s : State) : W64 := Config.freeWord s.draw

/-- The state after a free value has been drawn. -/
def State.drawn (s : State) : State := { s with draw := s.draw + 1 }

/-! ## Outcomes of the error codes -/

/-- The outcome of the next word that the command in progress reads under an error code. -/
def State.takeCode (s : State) : Ecc × State :=
  match s.codes with
  | [] => (.good, s)
  | c :: r => (c, { s with codes := r })

/-- The worst outcome of the next `n` words. -/
def State.takeCodes (s : State) : Nat → Ecc × State
  | 0 => (.good, s)
  | n + 1 =>
    let (a, s) := s.takeCode
    let (b, s) := s.takeCodes n
    (if a = .uncorrectable then a else if b = .good then a else b, s)

/-- Runs the meaning of a command that carries the outcomes of the words it reads. -/
def State.coded (s : State) (codes : List Ecc) (f : State → State) : State :=
  { f { s with codes := codes } with codes := [] }

/-! ## Units and pages in service -/

/-- The unit kinds of R423. -/
def unitKindCode : UnitKind → Nat
  | .stone => 1 | .stoneRow => 2 | .vectorUnit => 3 | .miller => 4 | .hbm => 5 | .ddr => 6 | .leatPort => 7
  | .shaft => 8 | .governorStage => 9 | .bolter => 10 | .module => 11

/-- A unit as the tables of the store and of the retirement view name it. -/
def unitPair (u : UnitRef) : Nat × Nat := (unitKindCode u.kind, u.index)

/-- Does the retirement of this unit retire mill 1 (R426)? The index of a miller, bolter or ledger engine is its mill's,
and that of a governor stage is 14 × mill + stage. -/
def retiresMill1 (u : Nat × Nat) : Bool :=
  match u.1 with
  | 4 => u.2 != 0
  | 8 => true
  | 9 => decide (14 ≤ u.2)
  | 10 => u.2 != 0
  | _ => false

/-- Does the retirement of this unit retire the module (R426)? -/
def retiresModule (u : Nat × Nat) : Bool :=
  match u.1 with
  | 4 => u.2 == 0
  | 9 => decide (u.2 < 14)
  | 10 => u.2 == 0
  | 11 => true
  | _ => false

/-- Mill 1 is retired (R426, R427). -/
def State.mill1Out (s : State) : Bool := s.inForce.any retiresMill1

def State.millOut (s : State) (m : MillId) : Bool := m == .m1 && s.mill1Out

/-- Is a unit retired in force, or out of service for this start? -/
def State.unitOut (s : State) (u : Nat × Nat) : Bool := s.inForce.contains u || s.outUnits.contains u

/-- Core power is on: stage 5 has completed (R523). -/
def State.corePower (s : State) : Bool := decide (6 ≤ s.supply.stage)

/-- Is a page out of reset (R527, R589)? Island pages from the end of stage 2, the others from the end of stage 5. -/
def State.pageLive (s : State) (p : Page) : Bool :=
  if p.island then decide (3 ≤ s.supply.stage)
  else s.corePower && !(match p.mill? with | some m => s.millOut m | none => false)

/-- A memory port accepts no request: self-refresh (R517), or a retraining (R269, R334). -/
def State.portHeld (s : State) (p : PortRef) : Bool := s.portsOff.contains p || (s.mill p.mill).floor.cal.contains p

/-- TIME_NOW advances (R514, R517). -/
def State.timeRuns (s : State) : Bool := !s.refclk.pllsOff && decide (2 ≤ s.supply.stage)

/-- A reference loss holds sluices, WAIT timers and interval timers until recovery (R517, R518). -/
def State.refHeld (s : State) : Bool := s.refclk.state != 0

/-- Handshakes of the mills are halted by the emergency brake (R509), or no core power drives them. -/
def State.halted (s : State) : Bool := s.supply.ebrake || !s.corePower

end Sys2Proof.Machine
end

