-- ==== Sys2Proof/Machine/Flags.lean ====
section
/-! DEFINITION. Events and their delivery (R20 to R23, R485 to R487, R593), records with an unread flag (R595), the
register access error (R14, R598), refused claims (R601), injections (R555 to R558) and what the device sends to the
host (R465, R467). -/

namespace Sys2Proof.Machine

/-! ## Sending to the host -/

/-- A message sent over PCI Express: held in D3hot (R467), lost while the link is down or Bus Master Enable is 0 (R465). -/
def State.hostSend (s : State) (msg : PcieMsg) : State :=
  if s.host.link ≠ 2 ∨ s.host.busMaster = false then s
  else if s.host.d3 then { s with host := { s.host with held := s.host.held ++ [msg] } }
  else
    let s := { s with host := { s.host with sent := msg :: s.host.sent } }
    match msg with
    | .msix _ => s.tally .host 6 1
    | .write _ _ => s

/-- Is an MSI-X vector masked in its table entry? PRESUMED: the PCI Express reset value of the mask bit is 1. -/
def HostPort.masked (h : HostPort) (v : Nat) : Bool := bitOf (cellGet 1 (4 * v + 3) h.msixTable) 0

/-- Sends an MSI-X vector "subject to the masking of the MSI-X standard" (R486): a masked one becomes pending. -/
def State.sendMsix (s : State) (v : Nat) : State :=
  if s.host.link ≠ 2 ∨ s.host.msixEnable = false then s
  else if s.host.masked v then { s with host := { s.host with msixPend := cellSet false v true s.host.msixPend } }
  else s.hostSend (.msix v)

/-- The word of an event route (R486). -/
def State.route (s : State) (r : Nat) : W32 := s.word .host (0x140 + 4 * r)
def State.routeMsix (s : State) (r : Nat) : Bool := bitOf (s.route r) 6
def State.routeAlert (s : State) (r : Nat) : Bool := bitOf (s.route r) 7

/-- The MSI-X message of a route, when the route has MSIX = 1. -/
def State.sendRoute (s : State) (r : Nat) : State :=
  if s.routeMsix r then s.sendMsix (bitsOf (s.route r) 0 6) else s

/-- ALERT_N is asserted (R487). -/
def State.alert (s : State) : Bool := s.host.fifo.any fun e => s.routeAlert e.route

/-! ## The log's trigger -/

/-- The condition of a mill's log trigger occurs (R544): an armed log is to write its trigger sample; in the post or
captured state the trigger is counted only. -/
def State.logTrigger (s : State) (m : MillId) : State :=
  match (s.mill m).log.st with
  | .armed => s.onLog m fun l => { l with trigNow := true }
  | .post => s.tally (.log m) 5 1
  | .captured => s.tally (.log m) 5 1
  | .off => s
  | .running => s

/-- LOG_TRIG.KIND of a mill's log. -/
def State.trigKind (s : State) (m : MillId) : Nat := s.fld (.log m) 0x104 0 3

/-- KIND 2: an EVT_RAW bit of the page that LOG_TRIG_PAGE names becomes set (R543). -/
def State.trigOnEvent (s : State) (m : MillId) (p : Page) (bit : Nat) : State :=
  if s.trigKind m = 2 ∧ s.word (.log m) 0x110 = p.id ∧ s.fld (.log m) 0x104 11 5 = bit then s.logTrigger m else s

/-! ## Events -/

/-- The mills whose system context an event of a page goes to: its own mill's, mill 0's for a module-common page, both for
a reference loss (R517). -/
def eventMills (p : Page) (bit : Nat) : List MillId :=
  match p.mill? with
  | some m => [m]
  | none => if p = .clock ∧ bit < 2 then [.m0, .m1] else [.m0]

/-- An event queued for a miller's system context; a non-maskable one goes ahead of every queued event (R503). -/
def State.toSystem (s : State) (p : Page) (bit : Nat) (nmi : Bool) : State :=
  s.forAll (eventMills p bit) fun s m => (s.ctrlMsg m 1).onMiller m fun x =>
    let e : SysEvent := { pageId := p.id, bit := bit, nmi := nmi }
    { x with sysEvents := if nmi then x.sysEvents.filter (·.nmi) ++ e :: x.sysEvents.filter (!·.nmi) else x.sysEvents ++ [e] }

/-- The route index of an event (R486): entry 14 for CHUTE_OUT_DONE, none for COMMAND_DONE (R483). -/
def eventRoute (p : Page) (bit : Nat) : Option Nat :=
  match p, bit with
  | .host, 1 => some 14
  | .ikiug _, 4 => none
  | _, _ => some (4 * p.loc + (p.events.getD bit .info).code)

/-- EVT_FIFO_LOST, raised by an entry that finds the FIFO full, once until the FIFO is read empty (R485). Its own entry
finds the FIFO full as well. -/
def State.fifoFull (s : State) : State :=
  let s := s.tally .host 9 1
  if s.host.fifoLost then s
  else
    let s := { s with host := { s.host with fifoLost := true } }
    if s.bit .host 0x010 3 then s
    else
      let s := s.putFld .host 0x010 3 1 1
      let s := (s.trigOnEvent .m0 .host 3).trigOnEvent .m1 .host 3
      if s.bit .host 0x014 3 then
        let s := s.toSystem .host 3 false
        if s.routeMsix 1 || s.routeAlert 1 then (s.tally .host 9 1).sendRoute 1 else s
      else s

/-- An event routed to the host: an entry of the event FIFO and the vector of its route (R485, R486). -/
def State.toHost (s : State) (p : Page) (bit : Nat) : State :=
  match eventRoute p bit with
  | none => s
  | some r =>
    if s.routeMsix r || s.routeAlert r then
      let e : EvEntry := { pageId := p.id, bit := bit, cls := (p.events.getD bit .info).code, route := r }
      let s :=
        if s.host.fifo.length < 256 then { s with host := { s.host with fifo := s.host.fifo ++ [e] } }.tally .host 8 1
        else s.fifoFull
      s.sendRoute r
    else s

/-- An event becomes pending: delivered to every destination of R20 and of its route (R593). -/
def State.deliver (s : State) (p : Page) (bit : Nat) : State :=
  (s.toSystem p bit (p.events.getD bit .info == .nmi)).toHost p bit

/-- An occurrence of an event (R593): it sets EVT_RAW, and when the bit was clear it is delivered if enabled. A fault that
is not enabled is delivered to the system context all the same (R20, R22). A page in reset raises nothing. -/
def State.raise (s : State) (p : Page) (bit : Nat) : State :=
  if !s.pageLive p || s.bit p 0x010 bit then s
  else
    let s := s.putFld p 0x010 bit 1 1
    let s := (s.trigOnEvent .m0 p bit).trigOnEvent .m1 p bit
    if s.bit p 0x014 bit then s.deliver p bit
    else if p.events.getD bit .info = .fault then s.toSystem p bit false
    else s

/-! ## Records -/

/-- Fills a record whose unread flag is bit 31 of the word at `off`, unless it holds an entry not yet read. -/
def State.record (s : State) (p : Page) (off : Nat) (fill : State → State) : State :=
  if !s.pageLive p || s.bit p off 31 then s else (fill s).putFld p off 31 1 1

/-! ## Register access errors (R14, R598) -/

/-- The causes of R598. -/
inductive AccCause where
  | align | width | unimpl | pageOff | readOnly | reserved | value | path | claim
deriving DecidableEq, Repr

def AccCause.code : AccCause → Nat
  | .align => 1 | .width => 2 | .unimpl => 3 | .pageOff => 4 | .readOnly => 5 | .reserved => 6 | .value => 7 | .path => 8
  | .claim => 9

/-- REG_ACCESS_ERR: counted, recorded while the record is open, and raised. -/
def State.accessErr (s : State) (p : Path) (off : Nat) (write : Bool) (data : W32) (c : AccCause) : State :=
  if !s.pageLive .directory then s
  else
    let s := s.tally .directory 0 1
    let s := s.record .directory 0x114 fun s =>
      ((s.setWord .directory 0x110 (BitVec.ofNat 32 (off % 2 ^ 28))).setWord .directory 0x114
        (BitVec.ofNat 32 (c.code + 16 * p.code + 128 * boolNat write))).setWord .directory 0x118 data
    s.raise .directory 0

/-- CLAIM_BUSY: a claim refused, with the claim record of R597. Path 4 is a hardware feature. -/
def State.claimBusy (s : State) (page : Page) (code holder path : Nat) : State :=
  let s := s.tally .directory 1 1
  let s := s.record .directory 0x124 fun s =>
    (s.setWord .directory 0x120 page.id).setWord .directory 0x124 (BitVec.ofNat 32 (code + 16 * holder + 256 * path))
  s.raise .directory 1

/-- HOLDER of a page's claim (R600). -/
def State.holder (s : State) (p : Page) : Nat := s.fld p 0x02C 8 4

/-! ## Setting generations (R575) -/

/-- A behavioural field of a page has been stored: SET_GEN rises by one, and the setting digest is to be formed again. -/
def State.setGen (s : State) (p : Page) : State :=
  let s := (s.setWord p 0x030 (s.word p 0x030 + 1)).tally .trust 0 1
  { s with trust := { s.trust with dirty := if s.trust.dirty.contains p.entry then s.trust.dirty else p.entry :: s.trust.dirty } }

/-- Stores a word of a page by the hardware or the firmware: a behavioural one counts as a write. -/
def State.storeWord (s : State) (p : Page) (off : Nat) (w : W32) : State :=
  let beh := match wordAt p off with
    | some x => x.fields.any (·.beh)
    | none => false
  let s := s.setWord p off w
  if beh then s.setGen p else s

/-- Stores a 64-bit register as one write. -/
def State.storeWord64 (s : State) (p : Page) (off : Nat) (v : W64) : State :=
  let beh := match wordAt p off with
    | some x => x.reg.flds.any (·.beh)
    | none => false
  let s := s.setWord64 p off v
  if beh then s.setGen p else s

/-! ## Failures counted for λ (R447) -/

/-- Counts failures of the module, kept in the non-volatile store until the next update of λ. -/
def State.pondFailure (s : State) (n : Nat) : State :=
  ({ s with nv := { s.nv with failures := s.nv.failures + n } }).tally .pond 14 n

/-! ## Injection (R555 to R558) -/

/-- INJ_CTL.ARMED of a page. -/
def State.injArmed (s : State) (p : Page) : Bool := s.inj.any fun i => i.entry == p.entry

def State.injCode (s : State) (p : Page) : Nat := s.fld p 0x020 0 8
def State.injTarget (s : State) (p : Page) : Nat := s.fld p 0x020 8 24
def State.injParam (s : State) (p : Page) : Nat := s.fld p 0x024 16 16

/-- Is the next occurrence of the happening that `code` names to be replaced by the injected condition? -/
def State.injects (s : State) (p : Page) (code : Nat) : Bool := s.injArmed p && s.injCode p == code

/-- As `injects`, for the chosen item alone. -/
def State.injectsAt (s : State) (p : Page) (code target : Nat) : Bool := s.injects p code && s.injTarget p == target

/-- One occurrence has been injected: INJ_COUNT rises, and ARMED clears after the last. -/
def State.injected (s : State) (p : Page) : State :=
  let s := s.setWord p 0x028 (s.word p 0x028 + 1)
  { s with inj := s.inj.filterMap fun i =>
      if i.entry = p.entry then (if i.left ≤ 1 then none else some { i with left := i.left - 1 }) else some i }

/-- The first occurrence of an injection that lasts a chosen time: it counts once and stays in force until its time ends. -/
def State.injectedTimed (s : State) (p : Page) : State :=
  if s.inj.any fun i => i.entry == p.entry && i.timed then s
  else
    { s.setWord p 0x028 (s.word p 0x028 + 1) with
      inj := s.inj.map fun i => if i.entry = p.entry then { i with timed := true } else i }

/-- The memory ports' and other units' occurrences: whether an injection of `code` replaces this one, and the state after
it has been counted. -/
def State.takeInj (s : State) (p : Page) (code : Nat) : Bool × State :=
  if s.injects p code then (true, s.injected p) else (false, s)

/-- As `takeInj`, for the chosen item alone. -/
def State.takeInjAt (s : State) (p : Page) (code target : Nat) : Bool × State :=
  if s.injectsAt p code target then (true, s.injected p) else (false, s)

end Sys2Proof.Machine
end

