-- ==== Sys2Proof/Machine/History.lean ====
section
/-! DEFINITION. The fault history and retirement (R423 to R427): records, their classes, what a class retires, and the
faults that engines report to the miller (R314). -/

namespace Sys2Proof.Machine

/-! ## The command in progress -/

/-- The command that a mill is running. -/
def State.running (s : State) (m : MillId) : Option Cmd :=
  if (s.mill m).cmd.running then (s.mill m).cmd.queue.head? else none

/-- Its sequence number, 0 when the mill runs none. -/
def State.seq (s : State) (m : MillId) : W32 :=
  match s.running m with
  | some c => c.seq
  | none => 0

/-! ## The history -/

/-- The step a record carries: that of the update operation in progress that a gate governs, or else the latest step open
on the module (R423). -/
def State.histStep (s : State) (m : MillId) : Nat :=
  match (s.mill m).bolter.ops.head? with
  | some o => o.step
  | none => s.leat.groups.foldl (fun a g => Nat.max a g.open_) 0

/-- Is a record within RETIRE_WINDOW steps of another (R424)? -/
def State.inWindow (s : State) (a b : HistRec) : Bool := decide (b.step ≤ a.step + (s.word .history 0x104).toNat)

/-- The ring of 65,536 records, newest first, with room made for one more: the oldest record outside the window goes first,
and the oldest of all where every record lies within it. -/
def State.historyRoom (s : State) (step : Nat) : State :=
  if s.nv.history.length < 65536 then s
  else
    let h := s.nv.history
    let out := positions h fun r => decide (r.step + (s.word .history 0x104).toNat < step)
    let k := out.getLast?.getD (h.length - 1)
    ({ s with nv := { s.nv with history := h.eraseIdx k } }).tally .history 1 1

/-- Writes a record (R423); a condition that was injected writes none (R558). -/
def State.histWrite (s : State) (r : HistRec) (injected : Bool) : State :=
  if injected then s
  else
    let (fail, s) := s.takeInj .history 2
    if fail then s.tally .history 2 1
    else
      let s := s.historyRoom r.step
      ({ s with nv := { s.nv with history := r :: s.nv.history } }).tally .history 0 1

/-- A pending record of a mill's running command. -/
def State.histPending (s : State) (m : MillId) (u : Nat × Nat) (det : Nat) (opdig : W64) (injected : Bool) : State :=
  s.histWrite { step := s.histStep m, kind := u.1, det := det, cls := 0, index := u.2, seq := s.seq m, opdig := opdig,
                time := s.time } injected

/-! ## Faults reported by engines -/

/-- An engine reports a fault to its mill's miller (R314); the fault arbiter takes the first (R316). A replayable condition is
written to the history as it is detected (R423), with its operand digest. -/
def State.report (s : State) (m : MillId) (f : FaultInfo) : State :=
  let s := match f.kind with
    | .replayable det unit => s.histPending m (unitPair unit) det f.opnd f.injected
    | .contract => s
    | .command => s
  s.onMiller m fun x => { x with faults := x.faults ++ [f] }

/-! ## Retirement -/

/-- Writes a retirement to the non-volatile store; it takes effect, and raises UNIT_RETIRED, at the next boundary (R425). -/
def State.retireUnit (s : State) (u : Nat × Nat) : State :=
  if s.nv.retired.contains u then s else { s with nv := { s.nv with retired := s.nv.retired ++ [u] } }

/-- The disabled-row fields of ROWMAP_A and ROWMAP_B: word offset and lowest bit. -/
def rowmapSlots : List (Nat × Nat) := [(0x108, 0), (0x108, 16), (0x10C, 0), (0x10C, 16)]

/-- The valid disabled rows that ROWMAP_A and ROWMAP_B hold (R89). -/
def State.rowmapRows (s : State) (m : MillId) (n : Fin 24) : List Nat :=
  rowmapSlots.filterMap fun (off, lo) =>
    if s.bit (.stone m n) off (lo + 9) then some (s.fld (.stone m n) off lo 9) else none

/-- A failing physical row is repaired while a spare row remains (R425, R90); with none left the stone is retired
(R92). -/
def State.repairRow (s : State) (m : MillId) (n : Fin 24) (prow : Nat) : State :=
  if (s.rowmapRows m n).contains prow then s
  else
    match rowmapSlots.find? fun (off, lo) => !s.bit (.stone m n) off (lo + 9) with
    | some (off, lo) =>
      let s := (s.putFld (.stone m n) off lo 9 prow).putFld (.stone m n) off (lo + 9) 1 1
      s.onStone m n.val fun x => { x with applyReq := some (s.rowmapRows m n) }
    | none => (s.raise (.stone m n) 3).retireUnit (1, stoneIndex m n)

/-- A unit that its class retires: a stone row is repaired, every other unit retired (R425). -/
def State.retireByClass (s : State) (u : Nat × Nat) : State :=
  if u.1 = 2 then
    let g := u.2 / 512
    if h : g % 24 < 24 then s.repairRow (millOf (g / 24)) ⟨g % 24, h⟩ (u.2 % 512) else s
  else s.retireUnit u

/-! ## Classes -/

/-- The class of a pending record against the records before it (R424, rules 2 to 4). -/
def State.classOf (s : State) (r : HistRec) (before : List HistRec) : Nat :=
  let same := before.filter fun b => b.kind == r.kind && b.index == r.index && (b.cls == 1 || b.cls == 3) && s.inWindow b r
  if r.opdig ≠ 0 ∧ same.any (fun b => b.opdig == r.opdig) then 3
  else if s.fld .history 0x100 0 4 ≤ same.length + 1 then 2
  else 1

/-- Classes the pending records of a sequence number, oldest first (newest first in the list). -/
def State.classList (s : State) (seq : W32) : List HistRec → List HistRec
  | [] => []
  | r :: older =>
    let older := s.classList seq older
    (if r.cls = 0 ∧ r.seq = seq then { r with cls := s.classOf r older } else r) :: older

/-- PENDING_CLASSIFY (R424): the pending records of a command are classed, and the units of classes 2 and 3 are retired. -/
def State.classify (s : State) (seq : W32) : State :=
  let was := s.nv.history
  let now := s.classList seq was
  let bad := (was.zip now).filterMap fun (a, b) => if a.cls = 0 ∧ (b.cls = 2 ∨ b.cls = 3) then some (b.kind, b.index) else none
  ({ s with nv := { s.nv with history := now } }).forAll bad.reverse State.retireByClass

/-- The newest pending record of a stone and sequence number takes class 4 (R414). -/
def State.classFour (s : State) (seq : W32) (u : Nat × Nat) : State :=
  match positions s.nv.history (fun r => r.cls == 0 && r.seq == seq && (r.kind, r.index) == u) with
  | [] => s
  | k :: _ => { s with nv := { s.nv with history := listOn s.nv.history k fun r => { r with cls := 4 } } }

/-- Would the record of a unit retire it, were it classed now (the test of cause RETIRED, R426)? -/
def State.wouldRetire (s : State) (u : Nat × Nat) (opdig : W64) (m : MillId) : Bool :=
  let r : HistRec := { step := s.histStep m, kind := u.1, det := 0, cls := 0, index := u.2, seq := s.seq m, opdig := opdig,
                       time := s.time }
  s.classOf r s.nv.history != 1

end Sys2Proof.Machine
end

