-- ==== Sys2Proof/Machine/Nodes.lean ====
section
/-! DEFINITION. The nodes of the floor (chapter 09): where every attachment lies, hop counts, the route of a flit, and the flits that
data puts on the floor. -/

namespace Sys2Proof.Machine

/-! ## Nodes and hop counts (R34, R325, R326) -/

/-- The node of stone n: rows of six, alternately east and west, from y = 1. -/
def stoneNode (n : Nat) : Nat × Nat := (if n / 6 % 2 = 0 then n % 6 else 5 - n % 6, n / 6 + 1)

def hbmNodes : List (Nat × Nat) := [(0, 0), (1, 0), (3, 0), (5, 0), (6, 0), (0, 5), (1, 5), (3, 5), (5, 5), (6, 5)]
def ddrNodes : List (Nat × Nat) := [(1, 1), (3, 1), (2, 2), (4, 2), (1, 3), (3, 3), (2, 4), (4, 4)]
def leatNodes : List (Nat × Nat) :=
  [(2, 1), (4, 1), (5, 1), (6, 1), (1, 2), (3, 2), (5, 2), (2, 3), (4, 3), (5, 3), (1, 4), (3, 4)]
/-- PCI Express, shaft 0 and 1, headrace, tailrace, miller, bolter, ledger engine. -/
def otherNodes : List (Nat × Nat) := [(6, 2), (7, 2), (7, 3), (0, 0), (0, 5), (6, 3), (4, 0), (6, 4)]

/-- The node of attachment `a` of a mill (R326); PCI Express is on mill 0 alone. -/
def attachNode (m : MillId) (a : Nat) : Option (Nat × Nat) :=
  if a < 24 then some (stoneNode a)
  else if a < 34 then hbmNodes[a - 24]?
  else if a < 42 then ddrNodes[a - 34]?
  else if a < 54 then leatNodes[a - 42]?
  else if a = 54 ∧ m = .m1 then none
  else otherNodes[a - 54]?

/-- The node that carries granary slice i: 8y + x = i (R34, R325). -/
def sliceNode (i : Nat) : Nat × Nat := (i % 8, i / 8)

/-- The node of vector unit p: that of stone 2p (R325). -/
def unitNode (p : Nat) : Nat × Nat := stoneNode (2 * p)

/-- The node of a memory port on the floor of its mill. -/
def portNode : PortRef → Nat × Nat
  | .hbm _ n => hbmNodes.getD n.val (0, 0)
  | .ddr _ n => ddrNodes.getD n.val (0, 0)

def shaftNode (p : Nat) : Nat × Nat := (7, 2 + p)
def tailraceNode : Nat × Nat := (0, 5)
def bolterNode : Nat × Nat := (4, 0)
def ledgerNode : Nat × Nat := (6, 4)
def millerNode : Nat × Nat := (6, 3)

/-- Distance of two nodes in hops. -/
def nodeHops (p q : Nat × Nat) : Nat := ((p.1 : Int) - q.1).natAbs + ((p.2 : Int) - q.2).natAbs

/-- The hop count from stone n to attachment a (R326). -/
def hopCount (m : MillId) (n a : Nat) : Nat :=
  match attachNode m a with
  | some q => nodeHops (stoneNode n) q
  | none => 0xFF

/-- The byte of the node map for attachment a (R349). -/
def nodeByte (m : MillId) (a : Nat) : Nat :=
  match attachNode m a with
  | some (x, y) => x + 8 * y + 128
  | none => 0

/-- The shaft port by which traffic from a node reaches a node of the other mill (R327): the lower distance, ties to port
0. Shaft port p faces port 1 − p. -/
def shaftPort (src dst : Nat × Nat) : Nat :=
  let d (p : Nat) : Nat := nodeHops src (shaftNode p) + 4 + nodeHops (shaftNode (1 - p)) dst
  if d 1 < d 0 then 1 else 0

/-! ## Routes (R328) -/

/-- The direction of R352 in which a flit leaves a node: along x first, then along y; none at its goal. -/
def routeStep (node goal : Nat × Nat) : Option Nat :=
  if node.1 < goal.1 then some 0
  else if goal.1 < node.1 then some 1
  else if node.2 < goal.2 then some 2
  else if goal.2 < node.2 then some 3
  else none

/-- The neighbour of a node in a direction. -/
def neighbour (node : Nat × Nat) (d : Nat) : Nat × Nat :=
  match d with
  | 0 => (node.1 + 1, node.2)
  | 1 => (node.1 - 1, node.2)
  | 2 => (node.1, node.2 + 1)
  | _ => (node.1, node.2 - 1)

/-- The node that a flit makes for on the floor of mill `m`: its destination, or the shaft port of R327 toward it. -/
def FloorFlit.goal (f : FloorFlit) (m : MillId) : Nat × Nat :=
  if f.mill = m then f.dst else shaftNode (shaftPort f.src f.dst)

/-- The link that a flit crosses next on the floor of mill `m`, none where it has come to its goal. -/
def FloorFlit.next (f : FloorFlit) (m : MillId) : Option Nat := (routeStep f.node (f.goal m)).map (linkIndex f.node)

/-! ## Flits that data puts on the floor -/

/-- Who moves data over the floor: a source of the stream table (R331), its kind and index, and the operation that a fault names. -/
structure FloorSource where
  kind   : Nat
  index  : Nat
  pc     : W64
  slot   : Nat
  system : Bool
deriving DecidableEq, Repr

def State.onFloor (s : State) (m : MillId) (f : Floor → Floor) : State := s.onMill m fun x => { x with floor := f x.floor }

/-- A flit joins the floor of mill `m` at a node. One that has come to its goal is delivered; one for the other mill then waits for the
shaft. -/
def State.flitAt (s : State) (m : MillId) (f : FloorFlit) : State :=
  if (f.next m).isSome then s.onFloor m fun x => { x with flits := x.flits ++ [f] }
  else if f.mill = m then s
  else s.onMill m fun x => { x with shaft := x.shaft ++ [.flit f] }

/-- A source of mill `m` moves `n` flits of data between two ends, each on the floor of its mill. -/
def State.floorSend (s : State) (m : MillId) (x : FloorSource) (src dst : MillId × Nat × Nat) (addr : Nat) (n : Nat) : State :=
  s.forAll (List.range n) fun s i =>
    s.flitAt src.1 { home := m, kind := x.kind, index := x.index, src := src.2, mill := dst.1, dst := dst.2, node := src.2,
                     input := 0, addr := BitVec.ofNat 64 (addr + 512 * i), pc := x.pc, slot := x.slot, system := x.system }

end Sys2Proof.Machine
end

