-- ==== Sys2Proof/Machine/Memory.lean ====
section
/-! DEFINITION. Memory (chapter 07): the physical address map, the memory ports and their errors, writes and the weight
cache, hoppers and granary, the page tables and the translation cache, and token posts. -/

namespace Sys2Proof.Machine

/-! ## The physical map (R239, R240) -/

/-- The memory port of a physical address; none outside HBM4 and DDR5. -/
def physPort (a : Nat) : Option PortRef :=
  if a < 0x14000000000 then
    let k := a / 0x1000000000
    if h : k % 10 < 10 then some (.hbm (millOf (k / 10)) ⟨k % 10, h⟩) else none
  else if 0x20000000000 ≤ a ∧ a < 0x60000000000 then
    let j := (a - 0x20000000000) / 0x4000000000
    if h : j % 8 < 8 then some (.ddr (millOf (j / 8)) ⟨j % 8, h⟩) else none
  else none

/-- Does an address lie in HBM4 or DDR5? -/
def inMemory (a : Nat) : Bool := (physPort a).isSome

/-- Do `n` bytes from an address lie in memory, first and last? A stack or socket borders on unimplemented space only at the
ends of the two ranges, so the ends decide for runs shorter than the gap between them. -/
def rangeInMemory (a n : Nat) : Bool := inMemory a && (n == 0 || (inMemory (a + n - 1) && (decide (a < 0x14000000000) == decide (a + n - 1 < 0x14000000000))))

/-- Does an address lie in a stack or socket that the module offers: one of mill 1 where mill 1 is retired is not (R427)? -/
def State.millsOffer (s : State) (a : Nat) : Bool := !s.mill1Out || (match physPort a with | some p => p.mill == .m0 | none => true)

/-- Do `n` bytes from an address lie in implemented memory: the range of an empty or out-of-service socket counts as unimplemented
(R631)? -/
def State.inMem (s : State) (a n : Nat) : Bool :=
  rangeInMemory a n && s.millsOffer a && s.millsOffer (a + n - 1) &&
    (decide (a < 0x20000000000) ||
      let j := (a - 0x20000000000) / 0x4000000000
      let k := (a + n - 1 - 0x20000000000) / 0x4000000000
      (List.range 16).all fun i => decide (i < j) || decide (k < i) || (s.nv.dimms.getD i 0 != 0 && !s.unitOut (6, i)))

/-- The base address of a stack or socket, of a mill's own numbering. -/
def portBase : PortRef → Nat
  | .hbm m n => 0x1000000000 * (10 * m.num + n.val)
  | .ddr m n => 0x20000000000 + 0x4000000000 * (8 * m.num + n.val)

/-- Its size in bytes. -/
def portSize : PortRef → Nat
  | .hbm _ _ => 0x1000000000
  | .ddr _ _ => 0x4000000000

/-- The unit of R423 that a port serves. -/
def portUnit : PortRef → Nat × Nat
  | .hbm m n => (5, 10 * m.num + n.val)
  | .ddr m n => (6, 8 * m.num + n.val)

def pageSize : Nat := 0x200000

/-! ## Page-table entries (R249, R250) -/

/-- A translated address, the cause of R252, or a wait for a memory port that accepts nothing. -/
inductive Xlat where
  | ok (addr : Nat)
  | err (cause : Nat)
  | wait
deriving DecidableEq, Repr

/-- Is a translation fault resolvable (R252)? -/
def resolvable (cause : Nat) : Bool := cause == 1 || cause == 2 || cause == 3

/-- A level-1 entry: the level-2 table it names, or the cause. -/
def State.level1 (s : State) (e : Nat) : Xlat :=
  if natBits e 0 1 = 0 then .err 1
  else if natBits e 1 11 ≠ 0 ∨ natBits e 44 20 ≠ 0 then .err 6
  else
    let t := 4096 * natBits e 12 32
    if s.inMem t 4096 then .ok t else .err 5

/-- A level-2 entry: the translation it holds, or the cause. -/
def State.level2 (s : State) (vpage e : Nat) : Except Nat TlbEntry :=
  if natBits e 0 1 = 0 then .error 1
  else if natBits e 4 17 ≠ 0 ∨ natBits e 44 20 ≠ 0 then .error 6
  else
    let f := pageSize * natBits e 21 23
    if s.inMem f pageSize then
      .ok { vpage := vpage, frame := f, write := natBits e 1 1 == 1, wp := natBits e 2 1 == 1, dirty := natBits e 3 1 == 1 }
    else .error 5

/-- The address of the level-1 entry of a virtual address (R249). -/
def State.tableAddr (s : State) (m : MillId) (va : Nat) : Nat :=
  pageSize * s.fld64 (.sluice m) 0x108 21 23 + 8 * natBits va 30 18

/-- The address of the level-2 entry of a virtual address, or the cause. -/
def State.entryAddr (s : State) (m : MillId) (va : Nat) : Xlat :=
  let l1 := s.tableAddr m va
  if !s.inMem l1 8 then .err 5
  else match s.level1 (readNat s.mem l1 8) with
    | .ok t => .ok (t + natBits va 21 9 * 8)
    | r => r

/-! ## Errors at the ports (R270 to R273, R276) -/

/-- ERR_UNIT of an address: the pseudo-channel of a stack, or the subchannel and device of a socket (R240, R275). -/
def errUnit (port : PortRef) (a device : Nat) : Nat :=
  match port with
  | .hbm _ _ => a / 512 % 64
  | .ddr _ _ => a / 512 % 2 + 2 * device

/-- Fills a port's error record. -/
def State.errRecord (s : State) (port : PortRef) (a kind device : Nat) (seq : W32) : State :=
  let p := port.page
  ((s.setWord64 p 0x110 (BitVec.ofNat 64 (a / 64 * 64))).setWord p 0x118
    (BitVec.ofNat 32 (kind + 4 * errUnit port a device + 2 ^ 31))).setWord p 0x11C seq

/-- A corrected error (R271): counted, recorded and raised while the record is open, and counted toward the wear of its
frame. Which device of a socket it names is a free value. -/
def State.eccCorrected (s : State) (port : PortRef) (a : Nat) (seq : W32) : State :=
  let p := port.page
  let s := s.tally p 3 1
  let s := if s.bit p 0x118 31 then s else ((s.errRecord port a 1 (s.free.toNat % 10) seq).drawn).raise p 0
  let f := a / pageSize
  let n := cellGet 0 f s.wear + 1
  let s := { s with wear := cellSet 0 f n s.wear }
  if s.fld p 0x100 8 16 ≤ n ∧ ¬ s.worn.contains f then ({ s with worn := f :: s.worn }).raise p 2 else s

/-- The virtual address at which a mill's image maps a frame, if it does. -/
def State.mappedAt (s : State) (m : MillId) (frame : Nat) : Option Nat :=
  match (s.mill m).image with
  | none => none
  | some i => (i.pages.find? fun v =>
      match s.entryAddr m (pageSize * v) with
      | .err _ => false
      | .wait => false
      | .ok ea => match s.level2 v (readNat s.mem ea 8) with
        | .error _ => false
        | .ok e => e.frame == frame).map (pageSize * ·)

/-- A frame with an uncorrectable error (R456): it enters the bad-frame list of at most 4,096, unless the error was injected (R558),
and REBUILD_NEEDED is raised with its virtual address, or the frame where it is not mapped. -/
def State.badFrame (s : State) (a : Nat) (injected : Bool) : State :=
  let f := a / pageSize
  let s :=
    if injected || s.nv.badFrames.contains f || decide (4096 ≤ s.nv.badFrames.length) then s
    else ({ s with nv := { s.nv with badFrames := s.nv.badFrames ++ [f] } }).tally .pond 15 1
  let va := ((s.mappedAt .m0 (pageSize * f)).or (s.mappedAt .m1 (pageSize * f))).getD (pageSize * f)
  let s := s.record .pond 0x164 fun s =>
    ((s.setWord .pond 0x160 s.nv.pondGen).setWord .pond 0x164 2).setWord64 .pond 0x168 (BitVec.ofNat 64 va)
  s.raise .pond 3

/-- An uncorrectable error (R272, R273, R276): it overwrites an unread corrected entry and no other unread entry. -/
def State.eccUncorrectable (s : State) (port : PortRef) (a kind : Nat) (seq : W32) (injected : Bool) : State :=
  let p := port.page
  let s := s.tally p 4 1
  let s := if s.bit p 0x118 31 ∧ s.fld p 0x118 0 2 ≠ 1 then s else s.errRecord port a kind 15 seq
  (s.raise p 1).badFrame a injected

/-- The history record of an uncorrectable memory error (R272, R423): detector 7, the stack or socket, the address. -/
def State.memHistory (s : State) (m : MillId) (a : Nat) (injected : Bool) : State :=
  match physPort a with
  | none => s
  | some port => s.histPending m (portUnit port) 7 (BitVec.ofNat 64 a) injected

/-- What a request at a port comes to: it goes on, waits for a port that accepts nothing (R269), or has met an uncorrectable word
(R272): its address, and whether the error was injected. -/
inductive PortOut where
  | ok
  | wait
  | bad (word : Nat) (injected : Bool)
deriving DecidableEq, Repr

/-- One 64-byte word is read under its code (R270 to R272). The record carries the sequence number of the mill that reads. -/
def State.wordRead (s : State) (m : MillId) (port : PortRef) (w : Nat) : PortOut × State :=
  match s.takeCode with
  | (.good, s) => (.ok, s)
  | (.corrected, s) => (.ok, s.eccCorrected port w (s.seq m))
  | (.uncorrectable, s) => (.bad w false, (s.eccUncorrectable port w 2 (s.seq m) false).memHistory m w false)

/-- The words of a request, in order; the first uncorrectable one ends it. -/
def State.wordsRead (s : State) (m : MillId) (port : PortRef) : List Nat → PortOut × State
  | [] => (.ok, s)
  | w :: ws =>
    match s.wordRead m port w with
    | (.ok, s) => s.wordsRead m port ws
    | r => r

/-- The addresses of the 64-byte words that `n` bytes from an address touch. -/
def wordsOf (a n : Nat) : List Nat :=
  if n = 0 then [] else (List.range ((a + n - 1) / 64 - a / 64 + 1)).map fun k => 64 * (a / 64 + k)

/-- Words of memory are read at the port that holds them, an armed injection first (R279). -/
def State.codeRead (s : State) (m : MillId) (port : PortRef) (ws : List Nat) : PortOut × State :=
  let w := ws.headD 0
  let (bad, s) := s.takeInj port.page 2
  if bad then (.bad w true, (s.eccUncorrectable port w 2 (s.seq m) true).memHistory m w true)
  else
    let (corr, s) := s.takeInj port.page 1
    if corr then (.ok, s.eccCorrected port w (s.seq m)) else s.wordsRead m port ws

/-- A granule read: `n` bytes from an address, within one granule. -/
def State.portRead (s : State) (m : MillId) (a n : Nat) : PortOut × State :=
  match physPort a with
  | none => (.ok, s)
  | some port => if s.portHeld port then (.wait, s) else (s.tally port.page 0 1).codeRead m port (wordsOf a n)

/-- The granules of a run of memory: first byte and length of the part in each. -/
def granuleParts : (fuel a n : Nat) → List (Nat × Nat)
  | 0, _, _ => []
  | k + 1, a, n =>
    if n = 0 then []
    else
      let l := min n (512 - a % 512)
      (a, l) :: granuleParts k (a + l) (n - l)

def granules (a n : Nat) : List (Nat × Nat) := granuleParts (n / 512 + 2) a n

/-- Reads the granules of some runs, in order, up to the first that waits or is uncorrectable. -/
def State.readParts (s : State) (m : MillId) : List (Nat × Nat) → PortOut × State
  | [] => (.ok, s)
  | (a, n) :: rest =>
    match s.portRead m a n with
    | (.ok, s) => s.readParts m rest
    | r => r

/-- Reads a run of memory at its ports. -/
def State.readRun (s : State) (m : MillId) (a n : Nat) : PortOut × State := s.readParts m (granules a n)

/-- The 64-byte words that the pieces of a write touch and do not cover (R261, R646). -/
def partialWords (spans : List (Nat × Nat)) : List Nat :=
  ((spans.flatMap fun x => wordsOf x.1 x.2).eraseDups).filter fun w =>
    !((List.range 64).all fun i => spans.any fun x => decide (x.1 ≤ w + i) && decide (w + i < x.1 + x.2))

/-- A granule write begins: it is counted, and a word that it covers only in part is read first (R261, R646). -/
def State.portWrite (s : State) (m : MillId) (a : Nat) (spans : List (Nat × Nat)) : PortOut × State :=
  match physPort a with
  | none => (.ok, s)
  | some port =>
    if s.portHeld port then (.wait, s)
    else
      let ws := partialWords spans
      let s := (s.tally port.page 1 1).tally port.page 2 ws.length
      if ws.isEmpty then (.ok, s) else s.codeRead m port ws

/-! ## Writes and the weight cache (R246, R247) -/

/-- Does the weight cache of the mill that owns an address hold its line? -/
def State.cached (s : State) (a : Nat) : Bool :=
  match physPort a with
  | none => false
  | some port => (s.mill port.mill).sluice.wcache.any fun l => l.1 == a / 512

/-- A cached line goes, with what a miss has fetched of it. -/
def Sluice.discard (x : Sluice) (line : Nat) : Sluice :=
  { x with wcache := x.wcache.filter (fun l => l.1 != line), fills := x.fills.filter (· != line) }

/-- A write to a line invalidates any cached copy of it. -/
def State.dropLine (s : State) (line : Nat) : State :=
  match physPort (line * 512) with
  | none => s
  | some port =>
    let held := (s.mill port.mill).sluice.wcache.any fun l => l.1 == line
    (s.onSluice port.mill fun x => x.discard line).tally (.granary port.mill) 2 (boolNat held)

/-- Writes bytes to the cells of memory. -/
def State.rawWrite (s : State) (a : Nat) (bs : List Byte) : State :=
  if bs.isEmpty then s
  else
    let lines := (List.range ((a + bs.length - 1) / 512 - a / 512 + 1)).map (a / 512 + ·)
    ({ s with mem := writeBytes s.mem a bs }).forAll lines State.dropLine

/-- The bytes of a run with those of another run, from address `b`, laid over them. -/
def overlay (a : Nat) (bs : List Byte) (b : Nat) (new : List Byte) : List Byte :=
  ((List.range bs.length).zip bs).map fun (i, x) => if b ≤ a + i ∧ a + i < b + new.length then new.getD (a + i - b) x else x

/-- The mill whose ledger engine holds the entries of an address (R227). -/
def ledgerMill (a : Nat) : MillId := match physPort a with | some p => p.mill | none => .m0

/-- Reads bytes of physical memory as the units of the mills see them: an entry that the ledger cache holds dirty comes from there
(R227). -/
def State.physRead (s : State) (a n : Nat) : List Byte :=
  ((s.mill (ledgerMill a)).ledger.dirty.filter fun d => decide (16 * d.1 < a + n) && decide (a < 16 * d.1 + 16)).foldl
    (fun bs d => overlay a bs (16 * d.1) d.2) (readBytes s.mem a n)

/-- The little-endian number of `n` bytes of physical memory. -/
def State.physNat (s : State) (a n : Nat) : Nat := leNat (s.physRead a n)

/-- Writes bytes to physical memory, and over the entries that the ledger cache holds dirty. -/
def State.physWrite (s : State) (a : Nat) (bs : List Byte) : State :=
  (s.rawWrite a bs).onMill (ledgerMill a) fun x =>
    { x with ledger := { x.ledger with dirty := x.ledger.dirty.map fun d => (d.1, overlay (16 * d.1) d.2 a bs) } }

/-! ## Hoppers and granary (R242) -/

def hopperKey (m : MillId) (stone off : Nat) : Nat := 0x600000 * (24 * m.num + stone) + off
def granaryKey (m : MillId) (off : Nat) : Nat := 0x6000000 * m.num + off

def State.locRead (s : State) (l : Loc) (n : Nat) : List Byte :=
  match l with
  | .mem a => s.physRead a n
  | .hopper k => readBytes s.hopper k n
  | .granary k => readBytes s.granary k n
  | .leat => List.replicate n 0
  | .nowhere => List.replicate n 0

def State.locWrite (s : State) (l : Loc) (bs : List Byte) : State :=
  match l with
  | .mem a => s.physWrite a bs
  | .hopper k => { s with hopper := writeBytes s.hopper k bs }
  | .granary k => { s with granary := writeBytes s.granary k bs }
  | .leat => s
  | .nowhere => s

/-- A place `n` bytes further on. -/
def Loc.plus (l : Loc) (n : Nat) : Loc :=
  match l with
  | .mem a => .mem (a + n)
  | .hopper k => .hopper (k + n)
  | .granary k => .granary (k + n)
  | x => x

/-- GRAN_PIN in force, in bytes. -/
def State.pinBytes (s : State) (m : MillId) : Nat := pageSize * (s.mill m).sluice.granPin

/-! ## Translation (R249 to R253) -/

/-- The check of a write against an entry: WRITE or WRITE_PROTECT. -/
def TlbEntry.writeFault (e : TlbEntry) : Option Nat :=
  if !e.write then some 2 else if e.wp then some 3 else none

/-- Keeps a translation in the cache of 4,096 entries; the oldest is replaced (R251: the policy is the device's own). -/
def Sluice.hold (x : Sluice) (e : TlbEntry) : Sluice :=
  { x with tlb := (e :: x.tlb.filter fun t => t.vpage != e.vpage).take 4096 }

/-- A leaf entry serves an access: a write marks it dirty in the access that reads it, and it is held. -/
def State.leafUse (s : State) (m : MillId) (va ea : Nat) (write : Bool) (e : TlbEntry) : Xlat × State :=
  let s := if write ∧ e.dirty = false then s.physWrite ea (leBytes 8 (readNat s.mem ea 8 + 8)) else s
  (.ok (e.frame + va % pageSize), s.onSluice m fun x => x.hold { e with dirty := e.dirty || write })

/-- The leaf entry that a walk has read: whether it maps the page and allows the access. -/
def State.leafRead (s : State) (m : MillId) (va ea : Nat) (write : Bool) : Xlat × State :=
  match s.level2 (va / pageSize) (readNat s.mem ea 8) with
  | .error c => (.err c, s)
  | .ok e =>
    match (if write then e.writeFault else none) with
    | some c => (.err c, s)
    | none => s.leafUse m va ea write e

/-- Walks the page table for an address (R249, R250), setting DIRTY for a write in the access that reads the entry. A table entry that
is uncorrectable is TABLE_ECC; a port that accepts nothing holds the walk. -/
def State.walk (s : State) (m : MillId) (va : Nat) (write : Bool) : Xlat × State :=
  let s := s.tally (.sluice m) 8 1
  let l1 := s.tableAddr m va
  if !s.inMem l1 8 then (.err 5, s)
  else match s.portRead m l1 8 with
    | (.wait, s) => (.wait, s)
    | (.bad _ _, s) => (.err 7, s)
    | (.ok, s) => match s.entryAddr m va with
      | .ok ea => match s.portRead m ea 8 with
        | (.wait, s) => (.wait, s)
        | (.bad _ _, s) => (.err 7, s)
        | (.ok, s) => s.leafRead m va ea write
      | r => (r, s)

/-- Translates a virtual address of a mill. A held entry serves a read, and a write once it is dirty and writable; any other
access walks the table (R251 lets either entry serve until TLB_INVAL completes). -/
def State.translate (s : State) (m : MillId) (va : Nat) (write : Bool) : Xlat × State :=
  if 2 ^ 48 ≤ va then (.err 4, s)
  else
    match (s.mill m).sluice.tlb.find? fun t => t.vpage == va / pageSize with
    | some e =>
      if !write || (e.dirty && e.write && !e.wp) then (.ok (e.frame + va % pageSize), s.tally (.sluice m) 7 1)
      else s.walk m va write
    | none => s.walk m va write

/-- The parts of `n` bytes from an address, cut at 2 MiB pages: address and length of each. -/
def pageParts : (fuel : Nat) → (va n : Nat) → List (Nat × Nat)
  | 0, _, _ => []
  | k + 1, va, n =>
    if n = 0 then []
    else
      let l := min n (pageSize - va % pageSize)
      (va, l) :: pageParts k (va + l) (n - l)

/-- Why an access to memory stops: a translation fault (the cause of R252 and the address it was met at), an uncorrectable word, or a
wait for a port that accepts nothing. -/
inductive MemStop where
  | xlat (cause va : Nat)
  | bad (word : Nat) (injected : Bool)
  | wait
deriving DecidableEq, Repr

/-- The physical parts of a virtual range, translated page by page in order. -/
def State.translateParts (s : State) (m : MillId) (write : Bool) :
    List (Nat × Nat) → Except MemStop (List (Nat × Nat)) × State
  | [] => (.ok [], s)
  | (va, l) :: rest =>
    match s.translate m va write with
    | (.wait, s) => (.error .wait, s)
    | (.err c, s) => (.error (.xlat c va), s)
    | (.ok a, s) =>
      match s.translateParts m write rest with
      | (.error e, s) => (.error e, s)
      | (.ok ps, s) => (.ok ((a, l) :: ps), s)

/-- Translates a virtual range. -/
def State.translateRange (s : State) (m : MillId) (va n : Nat) (write : Bool) : Except MemStop (List (Nat × Nat)) × State :=
  s.translateParts m write (pageParts (n / pageSize + 2) va n)

/-- Where a unit of a mill that moves data stands on the floor: the source of the stream table it is, and its node. -/
structure Mover where
  source : FloorSource
  node   : Nat × Nat
deriving DecidableEq, Repr

/-- Data that crosses between a mover and a run of memory goes over the floor in the mover's slots (R332), whichever way it moves. -/
def State.moverSend (s : State) (m : MillId) (v : Option Mover) (a n : Nat) (write : Bool) : State :=
  match v, physPort a with
  | some v, some port =>
    let mem := (port.mill, portNode port)
    let k := (granules a n).length
    if write then s.floorSend m v.source (m, v.node) mem a k else s.floorSend m v.source mem (m, v.node) a k
  | _, _ => s

/-- Reads the granules of translated parts at their ports. -/
def State.partsRead (s : State) (m : MillId) (v : Option Mover) : List (Nat × Nat) → Except MemStop (List Byte) × State
  | [] => (.ok [], s)
  | (a, n) :: rest =>
    match s.readRun m a n with
    | (.wait, s) => (.error .wait, s)
    | (.bad w i, s) => (.error (.bad w i), s)
    | (.ok, s) =>
      let bs := s.physRead a n
      match (s.moverSend m v a n false).partsRead m v rest with
      | (.error e, s) => (.error e, s)
      | (.ok cs, s) => (.ok (bs ++ cs), s)

/-- Writes the granules of a run, in order: one whose partly covered word is uncorrectable is not written (R646). -/
def State.granulesWrite (s : State) (m : MillId) : List (Nat × Nat) → List Byte → Except MemStop Unit × State
  | [], _ => (.ok (), s)
  | (a, n) :: rest, bs =>
    match s.portWrite m a [(a, n)] with
    | (.wait, s) => (.error .wait, s)
    | (.bad w i, s) => (.error (.bad w i), s)
    | (.ok, s) => (s.physWrite a (bs.take n)).granulesWrite m rest (bs.drop n)

/-- Writes translated parts, in order. -/
def State.partsWrite (s : State) (m : MillId) (v : Option Mover) : List (Nat × Nat) → List Byte → Except MemStop Unit × State
  | [], _ => (.ok (), s)
  | (a, n) :: rest, bs =>
    match s.granulesWrite m (granules a n) (bs.take n) with
    | (.error e, s) => (.error e, s)
    | (.ok (), s) => (s.moverSend m v a n true).partsWrite m v rest (bs.drop n)

/-- Reads a virtual range. -/
def State.vread (s : State) (m : MillId) (v : Option Mover) (va n : Nat) : Except MemStop (List Byte) × State :=
  match s.translateRange m va n false with
  | (.error e, s) => (.error e, s)
  | (.ok ps, s) => s.partsRead m v ps

/-- Writes a virtual range: every page of it is translated before a byte is written. -/
def State.vwrite (s : State) (m : MillId) (v : Option Mover) (va : Nat) (bs : List Byte) : Except MemStop Unit × State :=
  match s.translateRange m va bs.length true with
  | (.error e, s) => (.error e, s)
  | (.ok ps, s) => s.partsWrite m v ps bs

/-- A virtual range as it stands, read without a translation being held or counted: what a later reader would see of bytes
already translated by their owner. Unmapped bytes read 0. -/
def State.vpeek (s : State) (m : MillId) (va n : Nat) : List Byte :=
  (pageParts (n / pageSize + 2) va n).flatMap fun (v, l) =>
    match s.entryAddr m v with
    | .err _ => List.replicate l 0
    | .wait => List.replicate l 0
    | .ok ea => match s.level2 (v / pageSize) (readNat s.mem ea 8) with
      | .error _ => List.replicate l 0
      | .ok e => s.physRead (e.frame + v % pageSize) l

/-- The level-2 entry of a virtual address, read without a walk being counted: its physical address and what it holds. -/
def State.pageEntry (s : State) (m : MillId) (va : Nat) : Option (Nat × TlbEntry) :=
  match s.entryAddr m va with
  | .err _ => none
  | .wait => none
  | .ok ea => match s.level2 (va / pageSize) (readNat s.mem ea 8) with
    | .error _ => none
    | .ok e => some (ea, e)

/-- Writes a piece of a virtual range by the mapping alone; nothing where it is not mapped. -/
def State.pokePart (s : State) (m : MillId) (va : Nat) (bs : List Byte) : State :=
  match s.pageEntry m va with
  | none => s
  | some e => s.physWrite (e.2.frame + va % pageSize) bs

/-- Writes the pieces of a virtual range. -/
def State.pokeParts (m : MillId) : List (Nat × Nat) → List Byte → State → State
  | [], _, s => s
  | x :: rest, bs, s => State.pokeParts m rest (bs.drop x.2) (s.pokePart m x.1 (bs.take x.2))

/-- Writes a virtual range by the mapping alone, as the hardware's own writes do. -/
def State.vpoke (s : State) (m : MillId) (va : Nat) (bs : List Byte) : State :=
  State.pokeParts m (pageParts (bs.length / pageSize + 2) va bs.length) bs s

/-- The pond copier resolves WRITE_PROTECT parks while a copy holds, copies or sends (R253). -/
def State.copierParks (s : State) : Bool := s.pond.st == 2 || s.pond.st == 3 || s.pond.st == 4

/-! ## Token posts (R264, R306, R307, R309) -/

/-- Is a WAIT satisfied (R305)? -/
def waitHolds (t k : W32) : Bool := serialGe t k

/-- Adds to a token counter of a context. A WAIT whose bundle has been checked notes how long its timer had run when the
count first satisfies it. -/
def State.post (s : State) (m : MillId) (c : Ctx) (ctr n : Nat) : State :=
  s.onMiller m fun x => x.onCtx c fun k =>
    let v := cellGet 0 ctr k.t + BitVec.ofNat 32 n
    let k := { k with t := cellSet 0 ctr v k.t }
    match k.waitOn with
    | some (w, target, _) =>
      if w = ctr ∧ k.waitMet = none ∧ waitHolds v target then { k with waitMet := some k.waitNs } else k
    | none => k

/-- An engine posts tokens: a message over the floor for each post (R333). -/
def State.enginePost (s : State) (m : MillId) (c : Ctx) (ctr n : Nat) : State := (s.ctrlMsg m n).post m c ctr n

def ctxOf (system : Bool) : Ctx := if system then .system else .user

end Sys2Proof.Machine
end

