-- ==== Sys2Proof/Machine/Floor.lean ====
section
/-! DEFINITION. The floor (chapter 09): streams and slots, multicast, the plan and its staging, calibration of the memory ports, and
the regions of R341. -/

namespace Sys2Proof.Machine

/-! ## Links, streams and slots (R330 to R336, R351, R352) -/

/-- The key of a word of floor page `n` in a plan. -/
def planKey (page off : Nat) : Nat := 0x1000 * page + off

/-- The stream-table word of stream s in the plan in force. -/
def Floor.stream (f : Floor) (i : Nat) : W32 := cellGet 0 (planKey 0 (0x180 + 4 * i)) f.plan

/-- The stream that a slot of a link direction is assigned to; slot 63 is never assigned. -/
def Floor.slot (f : Floor) (link slot : Nat) : Nat :=
  bitsOf (cellGet 0 (planKey (1 + link / 60) (0x100 + 64 * (link % 60) + 4 * (slot / 4))) f.plan) (8 * (slot % 4)) 5

/-- Does a stream hold a slot on a link direction? -/
def Floor.holdsSlot (f : Floor) (stream link : Nat) : Bool := (List.range 63).any fun k => f.slot link k == stream

/-- The stream that binds a source (R331): the lowest whose entry names it. -/
def Floor.boundStream (f : Floor) (kind index : Nat) : Option Nat :=
  (List.range 32).find? fun i => i != 0 && bitsOf (f.stream i) 0 3 == kind && bitsOf (f.stream i) 4 4 == index

/-- Do two entries of the plan name one source (R331)? -/
def Floor.conflict (f : Floor) : Bool :=
  (List.range 32).any fun i => i != 0 && bitsOf (f.stream i) 0 3 != 0 &&
    (f.boundStream (bitsOf (f.stream i) 0 3) (bitsOf (f.stream i) 4 4) != some i)

/-- A contract fault that the floor raises (R342), with the floor page's event and the operation that met it. -/
def State.floorFault (s : State) (m : MillId) (code : Nat) (res opnd pc : W64) (slot : Nat) (system injected : Bool) : State :=
  let s := s.raise (.floor m 0) (code - 1)
  let s := if code = 2 then s.tally (.floor m 0) 12 1 else s
  s.report m { kind := .contract, system := system, page := .floor m 0, cause := code, res := res, opnd := opnd, pc := pc,
               slot := slot, issue := false, injected := injected }

/-- A multicast flit leaves a node on all its branches in one handshake, after the stages it waited for buffers (R338). An
injection holds one branch for PARAM stages more (R355). -/
def forkSend (m : MillId) (branches : BitVec 3) (waited : W32) (s : State) : State :=
  if s.halted || !s.pageLive (.floor m 0) then s
  else
    let (inj, s) := s.takeInj (.floor m 0) 3
    let s := s.tally (.floor m 0) 8 1
    let s := s.tally (.floor m 0) 9 (waited.toNat + if inj then s.injParam (.floor m 0) else 0)
    let s := s.tally (.floor m 0) 0 branches.toNat
    s.tally (.floor m 0) 2 branches.toNat

/-- FORK_SEND. -/
def execForkSend (m : MillId) (branches : BitVec 3) (waited : W32) (s : State) : Host.Outcome State Fault Refusal :=
  .next (forkSend m branches waited s)

/-! ## The plan (R337) -/

/-- The staged plan: the stream and slot tables as they read. -/
def State.stagedPlan (s : State) (m : MillId) : Cells W32 :=
  let word (page : Fin 5) (off : Nat) : Option (Nat × W32) :=
    let w := s.word (.floor m page) off
    if w = 0 then none else some (planKey page.val off, w)
  let streams := (List.range 31).filterMap fun i => word 0 (0x184 + 4 * i)
  let slots (page : Fin 5) := (List.range 960).filterMap fun i => word page (0x100 + 4 * i)
  streams ++ slots 1 ++ slots 2 ++ slots 3 ++ slots 4

/-- A word of the stream or slot tables has been written: the plan applies at once between commands, and is staged while a
command runs (R337). -/
def State.planWritten (s : State) (m : MillId) : State :=
  if (s.mill m).cmd.running then s.onMill m fun x => { x with floor := { x.floor with pending := true } }
  else
    let p := s.stagedPlan m
    let s := s.onMill m fun x => { x with floor := { x.floor with plan := p } }
    if (s.mill m).floor.conflict then s.raise (.floor m 0) 2 else s

/-- At a command boundary the staged plan applies. -/
def planApplied (m : MillId) (s : State) : State :=
  if !(s.mill m).floor.pending || (s.mill m).cmd.running then s
  else
    let p := s.stagedPlan m
    let s := s.onMill m fun x => { x with floor := { x.floor with plan := p, pending := false } }
    let s := (s.tally (.floor m 0) 13 1).raise (.floor m 0) 3
    if (s.mill m).floor.conflict then s.raise (.floor m 0) 2 else s

/-- PLAN_APPLIED. -/
def execPlanApplied (m : MillId) (s : State) : Host.Outcome State Fault Refusal := .next (planApplied m s)

/-! ## Calibration (R334) -/

/-- A memory port begins or ends a retraining, which holds slot 63 of its node's links. -/
def memoryRetrain (port : PortRef) (active : Bool) (s : State) : State :=
  if !s.pageLive port.page then s
  else
    let m := port.mill
    let held := (s.mill m).floor.cal.contains port
    if active && !held then
      s.onMill m fun x => { x with floor := { x.floor with cal := x.floor.cal ++ [port] } }
    else if !active && held then s.onMill m fun x => { x with floor := { x.floor with cal := x.floor.cal.filter (· != port) } }
    else s

/-- MEMORY_RETRAIN. -/
def execMemoryRetrain (port : PortRef) (active : Bool) (s : State) : Host.Outcome State Fault Refusal :=
  .next (memoryRetrain port active s)

/-! ## Regions (R341) -/

/-- Do two ranges of bytes share a 4 KiB region? -/
def regionsMeet (a n b k : Nat) : Bool :=
  n != 0 && k != 0 && decide (a / 4096 ≤ (b + k - 1) / 4096) && decide (b / 4096 ≤ (a + n - 1) / 4096)

/-- Does a run of an issued chunk write into, or read from, regions of a hopper or granary range? -/
def Loc.inRange (l : Loc) (len : Nat) (granary : Bool) (a n : Nat) : Bool :=
  match l with
  | .hopper k => !granary && regionsMeet k len a n
  | .granary k => granary && regionsMeet k len a n
  | _ => false

/-- Is a region of the range write-busy (`write = true`) or read-busy: touched by a chunk that has been issued and has not
posted its token? -/
def State.regionBusy (s : State) (m : MillId) (write granary : Bool) (a n : Nat) : Bool :=
  (s.mill m).sluice.queues.any fun q => q.xfers.any fun t => t.flights.any fun f => f.segs.any fun g =>
    if write then g.dst.inRange g.len granary a n else g.src.inRange g.len granary a n

/-- FR_RES of a REGION_RACE (R342). -/
def raceRes (granary : Bool) (stone : Nat) (write : Bool) (off : Nat) : W64 :=
  BitVec.ofNat 64 ((if granary then 32 else stone) + 64 * boolNat write + 2 ^ 16 * (off / 4096))

/-- Does a local access of a hopper meet a busy region? A read meets a write-busy one, a write either (R341). An injection
makes the next read of a chosen stone's hopper do so (R355). -/
def State.hopperRace (s : State) (m : MillId) (stone off n : Nat) (write : Bool) : Bool × Bool × State :=
  let key := hopperKey m stone off
  let (inj, s) := if write then (false, s) else s.takeInjAt (.floor m 0) 2 stone
  (inj || s.regionBusy m true false key n || (write && s.regionBusy m false false key n), inj, s)

/-- As `hopperRace`, for the pinned granary. -/
def State.granaryRace (s : State) (m : MillId) (off n : Nat) (write : Bool) : Bool :=
  s.regionBusy m true true (granaryKey m off) n || (write && s.regionBusy m false true (granaryKey m off) n)

end Sys2Proof.Machine
end

