-- ==== Sys2Proof/Machine/Ledger.lean ====
section
/-! DEFINITION. The ledger engine (R225 to R228): its cache of entries, entry reads and writes, errors, and write-back. -/

namespace Sys2Proof.Machine

def State.onLedger (s : State) (m : MillId) (f : Ledger → Ledger) : State := s.onMill m fun x => { x with ledger := f x.ledger }

/-- Entries the cache holds: 8 MiB of 16 bytes. -/
def ledgerEntries : Nat := 524288

/-- A dirty entry goes to memory (R227). One whose ECC word cannot be read is not written (R646); no operation is left to fault for it. -/
def State.entryBack (s : State) (m : MillId) (d : Nat × List Byte) : State :=
  let s := s.tally (.ledger m) 2 1
  match s.portWrite m (16 * d.1) [(16 * d.1, 16)] with
  | (.bad _ _, s) => s
  | (_, s) => s.rawWrite (16 * d.1) d.2

/-- The entries of some slots leave the cache; the dirty ones among them are written back. -/
def State.entriesOut (s : State) (m : MillId) (out : List Nat) : State :=
  let gone := (s.mill m).ledger.dirty.filter fun d => out.contains d.1
  (s.forAll gone fun s d => s.entryBack m d).onLedger m fun x =>
    { x with held := x.held.filter (fun k => !out.contains k), dirty := x.dirty.filter fun d => !out.contains d.1 }

/-- An entry takes its place in the cache of the engine of mill `m`, the least recently used one leaving when it is full (the manual
names no policy). -/
def State.ledgerTouch (s : State) (m : MillId) (slot : Nat) : State :=
  let x := (s.mill m).ledger
  let s := s.tally (.ledger m) (if x.held.contains slot then 0 else 1) 1
  let s := s.onLedger m fun x => { x with held := slot :: x.held.filter (· != slot) }
  s.entriesOut m ((s.mill m).ledger.held.drop ledgerEntries)

/-- Has a port corrected a word between two states? -/
def State.correctedSince (old new : State) (a : Nat) : Bool :=
  match physPort a with
  | some port => new.tallyOf port.page 3 != old.tallyOf port.page 3
  | none => false

/-- An entry that the cache lacks is fetched from memory over the floor, by the ledger engine (R228, R331). -/
def State.ledgerFetch (s : State) (e : MillId) (v : Mover) (a n : Nat) : PortOut × State :=
  match s.portRead e a n with
  | (.ok, s') =>
    let s' := if s.correctedSince s' a then (s'.tally (.ledger e) 3 1).raise (.ledger e) 0 else s'
    (.ok, s'.moverSend e (some { source := { v.source with kind := 5, index := 0 }, node := ledgerNode }) a n false)
  | (.bad w i, s) => (.bad w i, (s.tally (.ledger e) 3 1).raise (.ledger e) 1)
  | r => r

/-- The injections of the ledger page, and a fetch where the entry comes from memory (R238). -/
def State.ledgerAccess (s : State) (e : MillId) (v : Mover) (a n : Nat) : PortOut × State :=
  let (bad, s) := s.takeInj (.ledger e) 1
  if bad then (.bad a true, (s.tally (.ledger e) 3 1).raise (.ledger e) 1)
  else
    let (corr, s) := s.takeInj (.ledger e) 2
    let s := if corr then (s.tally (.ledger e) 3 1).raise (.ledger e) 0 else s
    if (s.mill e).ledger.held.contains (a / 16) then (.ok, s) else s.ledgerFetch e v a n

/-- Reads `n` bytes of a ledger entry at a physical address, through the cache of the engine that holds it (R227, R228). -/
def State.ledgerRead (s : State) (v : Mover) (a n : Nat) : Except MemStop (List Byte) × State :=
  match s.ledgerAccess (ledgerMill a) v a n with
  | (.wait, s) => (.error .wait, s)
  | (.bad w i, s) => (.error (.bad w i), s)
  | (.ok, s) => let s := s.ledgerTouch (ledgerMill a) (a / 16)
                (.ok (s.physRead a n), s)

/-- Writes bytes of a ledger entry into the cache of the engine that holds it; memory has them when the entry is written back (R227).
The entry has been read before, so it is held unless as many others as the cache holds came between. -/
def State.ledgerWrite (s : State) (a : Nat) (bs : List Byte) : State :=
  let e := ledgerMill a
  let slot := a / 16
  let s := s.ledgerTouch e slot
  let now := overlay (16 * slot) (s.physRead (16 * slot) 16) a bs
  s.onLedger e fun x => { x with dirty := x.dirty.filter (fun d => d.1 != slot) ++ [(slot, now)] }

/-- Every dirty entry is written to memory. -/
def State.ledgerFlush (s : State) (m : MillId) : State :=
  (s.forAll (s.mill m).ledger.dirty fun s d => s.entryBack m d).onLedger m fun x => { x with dirty := [] }

end Sys2Proof.Machine
end

