-- ==== Sys2Proof/Machine/Hash.lean ====
section
/-! DEFINITION. Digests and codes: SHA-256 and the check of an HSS signature of RFC 8554 (R565), the position digest (R639),
the weigh fold (R418), mix32 (R407, R430), and the CRCs of flits (R358), chain frames (R489) and pond pages (R439). -/

namespace Sys2Proof.Machine

/-! ## Bytes in big-endian order -/

/-- Big-endian bytes of a number. -/
def beBytes (n v : Nat) : List Byte := (leBytes n v).reverse
/-- The number of big-endian bytes. -/
def beNat (bs : List Byte) : Nat := leNat bs.reverse

/-! ## SHA-256. PRESUMED: its steps and constants are those of the hash of that name. -/

/-- Adds to `r` each power of two below 2^n that keeps the k-th power at or below `x`, the greatest first. -/
def rootFrom (k x : Nat) : (n r : Nat) → Nat
  | 0, r => r
  | n + 1, r => rootFrom k x n (if (r + 2 ^ n) ^ k ≤ x then r + 2 ^ n else r)

/-- The first 32 bits of the fraction of the k-th root of a number below 2^12. -/
def rootBits (k p : Nat) : W32 := BitVec.ofNat 32 (rootFrom k (p * 2 ^ (32 * k)) 40 0)

/-- The first 64 primes. -/
def shaPrimes : List Nat := (List.range 312).filter fun n => 1 < n && (List.range 18).all fun d => d < 2 || d == n || n % d != 0

/-- The constants of the rounds: cube roots of the primes. -/
def shaK : List W32 := shaPrimes.map (rootBits 3)
/-- The initial value: square roots of the first eight. -/
def shaInit : List W32 := (shaPrimes.take 8).map (rootBits 2)

/-- Rotations of a word by two counts, and a third word, added bit by bit. -/
def shaMix (x : W32) (i j : Nat) (y : W32) : W32 := x.rotateRight i ^^^ (x.rotateRight j ^^^ y)

/-- The word that enters a window of sixteen words of the schedule. -/
def shaEnter (w : List W32) : W32 :=
  let at_ (i : Nat) : W32 := w.getD i 0
  shaMix (at_ 1) 7 18 (at_ 1 >>> 3) + shaMix (at_ 14) 17 19 (at_ 14 >>> 10) + at_ 0 + at_ 9

/-- One round on the working variables and the window of the schedule, whose oldest word it takes. -/
def shaStep (x : List W32 × List W32) (k : W32) : List W32 × List W32 :=
  match x with
  | ([a, b, c, d, e, f, g, h], w) =>
    let pick := g ^^^ (e &&& (f ^^^ g))
    let most := (a &&& b) ||| (c &&& (a ||| b))
    let t := w.headD 0 + k + h + pick + shaMix e 6 11 (e.rotateRight 25)
    ([t + most + shaMix a 2 13 (a.rotateRight 22), a, b, c, d + t, e, f, g], w.drop 1 ++ [shaEnter w])
  | x => x

/-- The value after a block of 64 bytes. -/
def shaBlock (v : List W32) (block : List Byte) : List W32 :=
  let w := (List.range 16).map fun i => BitVec.ofNat 32 (beNat ((block.drop (4 * i)).take 4))
  List.zipWith (· + ·) v (shaK.foldl shaStep (v, w)).1

/-- What fills a message of `n` bytes up to whole blocks: a one bit, zeros, and its length in bits. -/
def shaFill (n : Nat) : List Byte := 0x80 :: List.replicate ((119 - n % 64) % 64) 0 ++ beBytes 8 (8 * n)

def shaBlocks : (n : Nat) → List W32 → List Byte → List W32
  | 0, v, _ => v
  | n + 1, v, bs => shaBlocks n (shaBlock v (bs.take 64)) (bs.drop 64)

/-- SHA-256 of a byte string. -/
def sha256 (msg : List Byte) : List Byte :=
  (shaBlocks (msg.length / 64 + (if msg.length % 64 < 56 then 1 else 2)) shaInit (msg ++ shaFill msg.length)).flatMap fun w =>
    beBytes 4 w.toNat

/-! ## HSS verification (R565: HSS of RFC 8554 over SHA-256). PRESUMED: the steps are those of the RFC the manual names. -/

/-- Height of an LMS type (R565: LMS_SHA256_M32_H5 to H25 only). -/
def lmsHeight : Nat → Option Nat
  | 5 => some 5 | 6 => some 10 | 7 => some 15 | 8 => some 20 | 9 => some 25 | _ => none

/-- Parameters w, p and ls of an LM-OTS type (R565: LMOTS_SHA256_N32_W1 to W8 only). -/
def otsParams : Nat → Option (Nat × Nat × Nat)
  | 1 => some (1, 265, 7) | 2 => some (2, 133, 6) | 3 => some (4, 67, 4) | 4 => some (8, 34, 0) | _ => none

/-- The i-th w-bit digit of a byte string, most significant first. -/
def otsCoef (s : List Byte) (i w : Nat) : Nat :=
  natBits (s.getD (i * w / 8) 0).toNat (8 - w - (i * w) % 8) w

def otsChecksum (q : List Byte) (w ls : Nat) : Nat :=
  let sum := ((List.range (256 / w)).map fun i => 2 ^ w - 1 - otsCoef q i w).sum
  sum * 2 ^ ls

/-- Iterates the chain of digit `i` from step `a`, `k` times. -/
def otsChain (ident : List Byte) (q i : Nat) : (k a : Nat) → List Byte → List Byte
  | 0, _, x => x
  | k + 1, a, x => otsChain ident q i k (a + 1) (sha256 (ident ++ beBytes 4 q ++ beBytes 2 i ++ beBytes 1 a ++ x))

/-- The candidate LM-OTS public key that a signature gives for a message. -/
def otsCandidate (otype : Nat) (ident : List Byte) (q : Nat) (sig msg : List Byte) : Option (List Byte) :=
  match otsParams otype with
  | none => none
  | some (w, p, ls) =>
    if beNat (sig.take 4) ≠ otype then none
    else
      let c := (sig.drop 4).take 32
      let y := sig.drop 36
      let h := sha256 (ident ++ beBytes 4 q ++ beBytes 2 0x8181 ++ c ++ msg)
      let hc := h ++ beBytes 2 (otsChecksum h w ls)
      let zs := (List.range p).flatMap fun i =>
        let a := otsCoef hc i w
        otsChain ident q i (2 ^ w - 1 - a) a ((y.drop (32 * i)).take 32)
      some (sha256 (ident ++ beBytes 4 q ++ beBytes 2 0x8080 ++ zs))

/-- Climbs the authentication path from a node to the root. -/
def lmsClimb (ident : List Byte) : (fuel node : Nat) → List Byte → List Byte → List Byte
  | 0, _, tmp, _ => tmp
  | k + 1, node, tmp, path =>
    let sib := path.take 32
    let both := if node % 2 = 1 then sib ++ tmp else tmp ++ sib
    lmsClimb ident k (node / 2) (sha256 (ident ++ beBytes 4 (node / 2) ++ beBytes 2 0x8383 ++ both)) (path.drop 32)

/-- The length of an LMS signature of these types. -/
def lmsSigLen (otype ltype : Nat) : Option Nat :=
  match otsParams otype, lmsHeight ltype with
  | some (_, p, _), some h => some (4 + 4 + 32 * (p + 1) + 4 + 32 * h)
  | _, _ => none

/-- Checks an LMS signature against an LMS public key of 56 bytes. -/
def lmsVerify (pub sig msg : List Byte) : Bool :=
  let ltype := beNat (pub.take 4)
  let otype := beNat ((pub.drop 4).take 4)
  let ident := (pub.drop 8).take 16
  let root := (pub.drop 24).take 32
  match otsParams otype, lmsHeight ltype, lmsSigLen otype ltype with
  | some (_, p, _), some h, some len =>
    if sig.length ≠ len ∨ pub.length ≠ 56 then false
    else
      let q := beNat (sig.take 4)
      let otsLen := 4 + 32 * (p + 1)
      let ots := (sig.drop 4).take otsLen
      let rest := sig.drop (4 + otsLen)
      if beNat (rest.take 4) ≠ ltype ∨ q ≥ 2 ^ h then false
      else match otsCandidate otype ident q ots msg with
        | none => false
        | some kc =>
          let leaf := sha256 (ident ++ beBytes 4 (2 ^ h + q) ++ beBytes 2 0x8282 ++ kc)
          lmsClimb ident h (2 ^ h + q) leaf (rest.drop 4) == root
  | _, _, _ => false

/-- Checks the chain of signed public keys of an HSS signature, then the message. -/
def hssChain : (levels : Nat) → (pub sig msg : List Byte) → Bool
  | 0, pub, sig, msg => lmsVerify pub sig msg
  | k + 1, pub, sig, msg =>
    let otype := beNat ((pub.drop 4).take 4)
    let ltype := beNat (pub.take 4)
    match lmsSigLen otype ltype with
    | none => false
    | some len =>
      let s := sig.take len
      let next := (sig.drop len).take 56
      lmsVerify pub s next && hssChain k next (sig.drop (len + 56)) msg

/-- HSS verification with 1 to 3 levels (R565). -/
def hssVerify (key sig msg : List Byte) : Bool :=
  let l := beNat (key.take 4)
  key.length == 60 && decide (1 ≤ l) && decide (l ≤ 3) && beNat (sig.take 4) + 1 == l
    && hssChain (l - 1) (key.drop 4) (sig.drop 4) msg

/-! ## Position digests, the weigh fold and mix32 -/

/-- The multiply-shift finish shared by R639 and R418. -/
def fmix64 (z : W64) : W64 :=
  let z := (z ^^^ (z >>> 33)) * 0xff51afd7ed558ccd
  let z := (z ^^^ (z >>> 33)) * 0xc4ceb9fe1a85ec53
  z ^^^ (z >>> 33)

/-- One term of a position digest (R639): item `x` at position `i`. -/
def posTerm (i : Nat) (x : W64) : W64 := fmix64 (x ^^^ (BitVec.ofNat 64 i * 0x9e3779b97f4a7c15))

/-- A position digest over items with their positions (R639). -/
def posDigest (items : List (Nat × W64)) : W64 := items.foldl (fun d ix => d + posTerm ix.1 ix.2) 0

/-- A position digest over items at positions 0, 1, 2 and so on. -/
def posDigestSeq (items : List W64) : W64 := posDigest ((List.range items.length).zip items)

/-- One term of the weigh digest (R418), also used by tensor watch (R551). -/
def weighTerm (value desc line element : Nat) : W64 :=
  fmix64 (BitVec.ofNat 64 (value + 2 ^ 40 * desc) ^^^ (BitVec.ofNat 64 line * 0x9e3779b97f4a7c15)
    ^^^ (BitVec.ofNat 64 element * 0xc2b2ae3d27d4eb4f))

/-- mix32 (R430): the selection hash of R407. -/
def mix32 (seed seq stone pass : W32) : W32 :=
  let step (x k : W32) : W32 := let y := (x ^^^ k) * 0x9E3779B1; y ^^^ (y >>> 16)
  step (step (seed ^^^ seq) stone) pass

/-! ## Cyclic redundancy codes -/

/-- The parameters of a CRC that a rule names only by its polynomial are PRESUMED to be those of the code of that name. -/
def crcStep (width poly : Nat) (crc : Nat) (bit : Bool) : Nat :=
  let top := natBits crc (width - 1) 1 == 1
  let sh := (crc * 2) % 2 ^ width
  if top != bit then sh ^^^ poly else sh

/-- Bits of a byte, most significant first. -/
def msbBits (b : Byte) : List Bool := (List.range 8).map fun i => bitOf b (7 - i)
/-- Bits of a byte, least significant first. -/
def lsbBits (b : Byte) : List Bool := (List.range 8).map fun i => bitOf b i

/-- The bits of a number reversed within a width. -/
def reverseBits (w x : Nat) : Nat := (List.range w).foldl (fun r i => 2 * r + natBits x i 1) 0

/-- CRC-32C (R358, polynomial 0x1EDC_6F41): reflected, initial and final value all ones. -/
def crc32c (bs : List Byte) : W32 :=
  let c := (bs.flatMap lsbBits).foldl (crcStep 32 0x1EDC6F41) 0xFFFFFFFF
  BitVec.ofNat 32 (reverseBits 32 (c ^^^ 0xFFFFFFFF))

/-- CRC-16 of a chain frame (R489): polynomial 0x1021, initial 0xFFFF, over bits [107:0] in the order sent, least
significant first. -/
def crc16 (bits : List Bool) : Nat := bits.foldl (crcStep 16 0x1021) 0xFFFF

/-- CRC-64 of ECMA-182 (R439): polynomial 0x42F0_E1EB_A9EA_3693, initial value 0, most significant bit first. -/
def crc64 (bs : List Byte) : W64 :=
  BitVec.ofNat 64 ((bs.flatMap msbBits).foldl (crcStep 64 0x42F0E1EBA9EA3693) 0)

end Sys2Proof.Machine
end

