-- ==== Sys2Proof/Machine/Watch.lean ====
section
/-! DEFINITION. Tensor watch (R550 to R554): windows, the statistics of the elements that the governor writes, and their
close. -/

namespace Sys2Proof.Machine

def State.watchPoint (s : State) (m : MillId) (n : Nat) : WatchPoint := (s.mill m).watch.getD n .reset

def State.onWatch (s : State) (m : MillId) (n : Nat) (f : WatchPoint → WatchPoint) : State :=
  s.onMill m fun x => { x with watch := listOn x.watch n f }

/-- The offset of watch point n in the watch page. -/
def watchOff (n : Nat) : Nat := 0x100 + 0x80 * n

/-- Opens a window, with the configuration latched (R550). -/
def State.watchOpen (s : State) (m : MillId) (n : Nat) : State :=
  let o := watchOff n
  let p : Page := .watch m
  s.onWatch m n fun _ => { WatchPoint.reset with openW := true, cfg := s.word p o, trig := s.word p (o + 4),
                                                 absLim := s.word p (o + 8), satLim := s.word p (o + 0xC) }

/-- FP64 addition, rounded to nearest even. -/
def f64Add (a b : W64) : W64 := toF64 (Num.add (f64 a) (f64 b))

/-- The sums of the stages combined in ascending stage order (R551). -/
def WatchPoint.combine (w : WatchPoint) : W64 × W64 :=
  (List.range 14).foldl (fun (a : W64 × W64) k =>
    match w.sums.find? fun x => x.1 == k with
    | some (_, x, y) => (f64Add a.1 x, f64Add a.2 y)
    | none => a) (0, 0)

/-- Closes a window: its statistics are copied into the result registers, and another window opens while EN = 1 (R550,
R552). -/
def State.watchClose (s : State) (m : MillId) (n : Nat) : State :=
  let w := s.watchPoint m n
  if !w.openW then s
  else
    let o := watchOff n
    let p : Page := .watch m
    let (sum, sq) := w.combine
    let s := s.setWord p (o + 0x10) (s.mill m).log.curSeq
    let s := s.setWord64 p (o + 0x18) (BitVec.ofNat 64 w.elems)
    let s := (s.setWord p (o + 0x20) w.min).setWord p (o + 0x24) w.max
    let s := (s.setWord64 p (o + 0x28) sum).setWord64 p (o + 0x30) sq
    let s := (s.setWord64 p (o + 0x38) (BitVec.ofNat 64 w.zeros)).setWord64 p (o + 0x40) (BitVec.ofNat 64 w.sat)
    let s := (s.setWord64 p (o + 0x48) (BitVec.ofNat 64 w.nans)).setWord64 p (o + 0x50) w.digest
    let s := s.setWord64 p (o + 0x58) (BitVec.ofNat 64 w.step)
    let s := s.tally p 1 1
    if s.bit p o 12 then s.watchOpen m n else s.onWatch m n fun _ => .reset

/-- The window of a watch point closes under CLOSE = c. -/
def WatchPoint.closesOn (w : WatchPoint) (c : Nat) : Bool := w.openW && bitsOf w.cfg 13 2 == c

/-- Every window with CLOSE = 0 closes at a command's END latch (R552). -/
def State.watchEndLatch (s : State) (m : MillId) : State :=
  s.forAll (List.range 16) fun s n => if (s.watchPoint m n).closesOn 0 then s.watchClose m n else s

/-- Windows with CLOSE = 1 on a descriptor close when a write naming VERSION begins on it (R552). -/
def State.watchVersion (s : State) (m : MillId) (desc : Nat) : State :=
  s.forAll (List.range 16) fun s n =>
    let w := s.watchPoint m n
    if w.closesOn 1 && bitsOf w.cfg 0 12 == desc then s.watchClose m n else s

/-- Is |a| above the limit, for an FP32 limit? -/
def aboveLimit (a lim : W32) : Bool := Num.lt (f32 lim) (f32 a).abs

/-- A trigger condition of R553 holds. -/
def WatchPoint.triggers (w : WatchPoint) : Bool :=
  (bitOf w.trig 0 && decide (0 < w.nans)) || (bitOf w.trig 1 && decide (w.satLim.toNat < w.sat))
    || (bitOf w.trig 2 && decide (w.nans < w.elems) && (aboveLimit w.min w.absLim || aboveLimit w.max w.absLim))

/-- An element counted (R551): its source value, its code, and whether it was saturated. `step` is the step that a gradient write names. -/
def WatchPoint.count (w : WatchPoint) (stage desc line elem : Nat) (step : Option Nat) (v : W32) (code : Nat) (sat : Bool) : WatchPoint :=
  let x := f32 v
  let add (l : List (Nat × W64 × W64)) : List (Nat × W64 × W64) :=
    let sq := toF64 (Num.mul x x)
    if l.any (fun e => e.1 == stage) then
      l.map fun e => if e.1 = stage then (stage, f64Add e.2.1 (toF64 x), f64Add e.2.2 sq) else e
    else l ++ [(stage, toF64 x, sq)]
  { w with
    elems := w.elems + 1
    min := if !x.isNan && Num.lt x (f32 w.min) then toF32 x else w.min
    max := if !x.isNan && Num.lt (f32 w.max) x then toF32 x else w.max
    sums := if x.isFinite then add w.sums else w.sums
    zeros := w.zeros + boolNat x.isZero
    sat := w.sat + boolNat sat
    nans := w.nans + boolNat x.isNan
    digest := w.digest + weighTerm code desc line elem
    step := step.getD w.step }

/-- Watches one element that a governor stage writes; WATCH_HIT is raised once per window, and triggers a log whose KIND is
4 (R543, R553). -/
def State.watchElem (s : State) (m : MillId) (n stage desc line elem : Nat) (step : Option Nat) (v : W32) (code : Nat) (sat : Bool) : State :=
  let w := s.watchPoint m n
  if !w.openW || bitsOf w.cfg 0 12 != desc || !bitOf w.cfg (16 + stage) then s
  else
    let (inj, s) := s.takeInjAt (.watch m) 1 n
    let w := w.count stage desc line elem step (if inj then 0x7FC00000 else v) code sat
    let s := s.tally (.watch m) 0 1
    if w.triggers && !w.hit then
      let s := (s.onWatch m n fun _ => { w with hit := true }).tally (.watch m) 2 1
      let s := if s.trigKind m = 4 ∧ s.fld (.log m) 0x104 7 4 = n then s.logTrigger m else s
      s.raise (.watch m) 0
    else s.onWatch m n fun _ => w

/-- Watches the elements of a piece of a line: element index, source value, code and saturation of each. -/
def State.watchPiece (s : State) (m : MillId) (stage desc line : Nat) (step : Option Nat) (els : List (Nat × W32 × Nat × Bool)) : State :=
  s.forAll (List.range 16) fun s n =>
    let w := s.watchPoint m n
    if !w.openW || bitsOf w.cfg 0 12 != desc || !bitOf w.cfg (16 + stage) then s
    else s.forAll els fun s (e, v, code, sat) => s.watchElem m n stage desc line e step v code sat

end Sys2Proof.Machine
end

