-- ==== Sys2Proof/Machine/Governor.lean ====
section
/-! DEFINITION. The governor (chapter 05): tensor descriptors, what a loader or feeder reads of a scaled tensor, the write of
a line (R177, R187), gradient formats by layer, and the faults of R198. -/

namespace Sys2Proof.Machine

/-! ## Accesses of the governor (R644) -/

/-- Why an access of the governor does not go on: the stage holds, until a page is copied or a port or a row is free; a fault with its
cause and line; a race on a hopper region, with the access's byte offset; or a drain past the end of a hopper, with its offset. -/
inductive GovStop where
  | hold (vpage : Option Nat)
  | fault (cause line : Nat) (injected : Bool)
  | race (res : W64) (off : Nat) (injected : Bool)
  | range (off : Nat)
deriving DecidableEq, Repr

/-- A computation of the governor over the state, which may stop. -/
abbrev Gov (α : Type) := ExceptT GovStop (StateM State) α

/-- Who makes an access of the governor of a mill: where it stands on the floor, and the line that a fault names. -/
structure GovAt where
  mill  : MillId
  mover : Mover
  line  : Nat
deriving DecidableEq, Repr

/-- A governor stage: 0 at the tailrace, 1 at the bolter, 2 + p at vector unit p (R169), as a source of the floor (R331). -/
def stageAt (m : MillId) (stage line : Nat) (pc : W64) (slot : Nat) (system : Bool) : GovAt :=
  { mill := m, line := line,
    mover :=
      { source := { kind := min 4 (2 + stage), index := stage - 2, pc := pc, slot := slot, system := system },
        node := if stage = 0 then tailraceNode else if stage = 1 then bolterNode else unitNode (stage - 2) } }

/-- A loader or feeder of a stone: its reads of a tensor are in no stream. -/
def loaderAt (m : MillId) (n : Nat) (pc : W64) (system : Bool) : GovAt :=
  { mill := m, line := 0, mover := { source := { kind := 0, index := 0, pc := pc, slot := 3, system := system }, node := stoneNode n } }

/-- The stop of the governor that a stopped access is: it never parks, so a translation fault is PAGE, but for a page that the pond copier
is about to copy. -/
def State.govStop (s : State) (line : Nat) : MemStop → GovStop
  | .wait => .hold none
  | .bad _ i => .fault 11 line i
  | .xlat c v => if c = 3 ∧ s.copierParks then .hold (some (v / pageSize)) else .fault 10 line false

/-- An access of the governor. -/
def govTry {α : Type} (line : Nat) (f : State → Except MemStop α × State) : Gov α := do
  let (r, s) := f (← get)
  set s
  match r with
  | .ok x => pure x
  | .error e => throw (s.govStop line e)

/-- Reads a virtual range. -/
def govRead (q : GovAt) (va n : Nat) : Gov (List Byte) := govTry q.line fun s => s.vread q.mill (some q.mover) va n

/-- Writes bytes to a virtual range. -/
def govWrite (q : GovAt) (va : Nat) (bs : List Byte) : Gov Unit := govTry q.line fun s => s.vwrite q.mill (some q.mover) va bs

/-- Puts items of `bits` bits each at bit position `pos` of a number; an item that is not written keeps its bits. -/
def putItems (bits : Nat) : (pos acc : Nat) → List (Option Nat) → Nat
  | _, acc, [] => acc
  | pos, acc, x :: xs =>
    match x with
    | none => putItems bits (pos + bits) acc xs
    | some v => putItems bits (pos + bits) (acc - natBits acc pos bits * 2 ^ pos + v % 2 ^ bits * 2 ^ pos) xs

/-- Bytes from the first byte of item `first` to the last byte of item `first + n - 1`: offset and length (R141). -/
def itemSpan (bits first n : Nat) : Nat × Nat := (first * bits / 8, ((first + n) * bits + 7) / 8 - first * bits / 8)

/-- Writes packed items of a virtual array from item `first` on; neighbours in the same bytes stay, and are read first. -/
def govPut (q : GovAt) (base bits first : Nat) (items : List (Option Nat)) : Gov Unit := do
  let (off, n) := itemSpan bits first items.length
  let whole := items.all (·.isSome) && first * bits % 8 == 0 && (first + items.length) * bits % 8 == 0
  let old ← if whole then pure [] else govRead q (base + off) n
  govWrite q (base + off) (leBytes n (putItems bits (first * bits - 8 * off) (leNat old) items))

/-- Items unpacked from bytes, from a bit position on. -/
def unpack (bits pos n : Nat) (bs : List Byte) : List Nat :=
  let v := leNat bs
  (List.range n).map fun i => natBits v (pos + bits * i) bits

/-- Reads packed items of a virtual array. -/
def govGet (q : GovAt) (base bits first n : Nat) : Gov (List Nat) := do
  let (off, len) := itemSpan bits first n
  let bs ← govRead q (base + off) len
  pure (unpack bits (first * bits - 8 * off) n bs)

/-- The physical address of a word of the scale ledger. -/
def entryAt (q : GovAt) (va : Nat) (write : Bool) : Gov Nat := do
  let ps ← govTry q.line fun s => s.translateRange q.mill va 4 write
  pure (ps.headD (0, 0)).1

/-- Reads and writes a word of the scale ledger through the ledger cache (R175). -/
def entryRead (q : GovAt) (va : Nat) : Gov Nat := do
  let a ← entryAt q va false
  let bs ← govTry q.line fun s => s.ledgerRead q.mover a 4
  pure (leNat bs)

def entryWrite (q : GovAt) (va w : Nat) : Gov Unit := do
  let a ← entryAt q va true
  modify fun s => s.ledgerWrite a (leBytes 4 w)

/-! ## Tensor descriptors (R170 to R173) -/

/-- A tensor descriptor. -/
structure GDesc where
  idx    : Nat
  va     : Nat
  fmt    : Nat
  policy : Bool
  block  : Nat
  cls    : Nat
  sparse : Bool
  layer  : Nat
  wfmt   : Nat
  primed : Bool
  lines  : Nat
  length : Nat
  data   : Nat
  trim   : Nat
  ledger : Nat
  ovf    : Nat
  done   : Nat
  bmax   : Int
deriving DecidableEq, Repr

/-- The `n`-byte number at an offset of a byte string. -/
def byteField (bs : List Byte) (off n : Nat) : Nat := leNat ((bs.drop off).take n)

def parseGDesc (idx va : Nat) (bs : List Byte) : GDesc :=
  let w0 := byteField bs 0 4
  let w4 := byteField bs 4 4
  { idx := idx, va := va, fmt := natBits w0 0 4, policy := natBits w0 4 1 == 1, block := 16 * 2 ^ natBits w0 5 2,
    cls := natBits w0 8 2, sparse := natBits w0 10 1 == 1, layer := natBits w0 11 10, wfmt := natBits w4 0 4,
    primed := natBits w4 4 1 == 1, lines := byteField bs 8 4, length := byteField bs 0xC 4, data := byteField bs 0x10 8,
    trim := byteField bs 0x18 8, ledger := byteField bs 0x20 8, ovf := byteField bs 0x28 8, done := byteField bs 0x30 4,
    bmax := signedBits (byteField bs 0x34 1) 8 }

/-- Blocks of a line (R159). -/
def GDesc.blocks (d : GDesc) : Nat := (d.length + d.block - 1) / d.block
/-- Virtual address of the scale ledger entry of a line (R175, R225). -/
def GDesc.entry (d : GDesc) (line : Nat) : Nat := d.ledger + if d.sparse then 16 * line + 8 else 4 * line

/-- Virtual address of a descriptor. -/
def State.gdescAddr (s : State) (m : MillId) (idx : Nat) : Nat := 4096 * s.fld64 (.governor m) 0x108 12 52 + 64 * idx

/-- Reads a descriptor; one with LINES = 0 is empty (R170). -/
def gdesc (q : GovAt) (idx : Nat) : Gov GDesc := do
  let va := (← get).gdescAddr q.mill idx
  let bs ← govRead q va 64
  let d := parseGDesc idx va bs
  if d.lines = 0 then throw (.fault 6 q.line false) else pure d

/-- Writes WFMT and PRIMED of a descriptor. -/
def storeFmt (q : GovAt) (d : GDesc) : Gov Unit := govWrite q (d.va + 4) (leBytes 4 (d.wfmt + 16 * boolNat d.primed))

/-- Writes LINES_DONE and BMAX of a descriptor. -/
def storeDone (q : GovAt) (d : GDesc) : Gov Unit := govWrite q (d.va + 0x30) (leBytes 8 (d.done + 2 ^ 32 * intBits 8 d.bmax))

/-- The descriptor index, VERSION flag and STEP of a tensor handle (R282). -/
def handleDesc (h : W64) : Nat := bitsOf h 0 12
def handleVersion (h : W64) : Bool := bitOf h 12
def handleStep (h : W64) : Nat := bitsOf h 16 48

/-! ## Faults (R198, R636) -/

def govContract (cause : Nat) : Bool := !(cause == 3 || cause == 4 || cause == 10 || cause == 11)

/-- Records, raises and reports a fault of the governor. -/
def State.govFault (s : State) (m : MillId) (cause idx stage line step : Nat) (pc : W64) (slot : Nat) (system injected : Bool) :
    State :=
  let p : Page := .governor m
  let s := s.record p 0x144 fun s =>
    (((s.setWord p 0x140 (s.seq m)).setWord p 0x144 (BitVec.ofNat 32 (idx + 2 ^ 12 * cause + 2 ^ 16 * stage))).setWord p 0x148
      (BitVec.ofNat 32 line)).setWord p 0x14C (BitVec.ofNat 32 step)
  let s := match cause with
    | 1 => s.raise p 3
    | 3 => s.raise p 2
    | 4 => s.raise p 4
    | _ => s
  s.report m { kind := if govContract cause then .contract else .command, system := system, page := p, cause := cause,
               res := BitVec.ofNat 64 (idx + 2 ^ 16 * stage), opnd := BitVec.ofNat 64 line, pc := pc, slot := slot,
               issue := false, injected := injected }

/-- LOCAL_RANGE met by an engine after issue (R317): an access past the end of a hopper, with its offset. -/
def State.localRange (s : State) (m : MillId) (pc : W64) (slot off : Nat) (system : Bool) : State :=
  s.report m { kind := .contract, system := system, page := .ikiug m, cause := 5, res := 0, opnd := BitVec.ofNat 64 off, pc := pc,
               slot := slot, issue := false, injected := false }

/-- The fault in which a computation of the governor ends: `stage` is 14 for a loader or feeder (R642). -/
def State.govEnd (s : State) (m : MillId) (stop : GovStop) (idx stage step : Nat) (x : FloorSource) : State :=
  match stop with
  | .hold _ => s
  | .fault cause line inj => s.govFault m cause idx stage line step x.pc x.slot x.system inj
  | .race res off inj => s.floorFault m 2 res (BitVec.ofNat 64 off) x.pc x.slot x.system inj
  | .range off => s.localRange m x.pc x.slot off x.system

/-! ## Operands read by loaders and feeders (R158 to R166, R173, R189, R642) -/

/-- What a pass latches of a tensor it reads: its descriptor, its format, and B_ref where its base is folded (R162). -/
structure OpndTensor where
  desc   : GDesc
  fmt    : Fmt
  fold   : Bool
  bref   : Int
deriving DecidableEq, Repr

/-- A write of the tensor is under way (R197): a stage has a line of it open, or lines of it to write. -/
def State.writing (s : State) (m : MillId) (idx : Nat) : Bool :=
  let g := (s.mill m).governor
  g.opened.any (fun o => o.desc == idx) || g.vlines.any (fun l => handleDesc l.handle == idx)
    || g.jobs.any fun c => c.2.any fun j => handleDesc j.handle == idx

/-- Latches a tensor as an operand (R171, R173, R642): narrow formats only as streamed weights. The B_ref that a pass has latched of
the tensor serves the whole pass. -/
def latchOperand (q : GovAt) (idx : Nat) (streamed fold : Bool) (bref : Option Int) : Gov OpndTensor := do
  let d ← gdesc q idx
  match Fmt.ofCode d.wfmt with
  | none => throw (.fault 8 q.line false)
  | some f =>
    if !f.scaled || (f.narrow && !streamed) then throw (.fault 8 q.line false)
    else if fold && !d.primed && bref.isNone && (decide (d.done < d.lines) || (← get).writing q.mill idx) then
      throw (.fault 2 d.done false)
    else pure { desc := d, fmt := f, fold := fold, bref := bref.getD d.bmax }

/-- The word of a line in the scale ledger, once the bolter has released a sparse row that it holds (R226). -/
def lineEntry (q : GovAt) (d : GDesc) : Gov Nat := do
  let va := d.entry q.line
  if d.sparse ∧ q.mover.source.kind ≠ 3 then
    let head ← entryRead q (va - 4)
    if natBits head 18 1 = 1 then throw (.hold none)
  entryRead q va

/-- The base of a line as a reader finds it in its entry: SCALE_UNSEEDED where the entry is unseeded and the tensor not primed. -/
def seededBase (q : GovAt) (t : OpndTensor) (e : Nat) : Gov Int := do
  let (inj, s) := (← get).takeInj (.governor q.mill) 4
  set s
  if (inj || natBits e 21 1 == 0) && !t.desc.primed then throw (.fault 3 q.line inj) else pure (signedBits e 8)

/-- The exponent offsets that trims stand for: nibbles, or the signed exponents of a primed tensor (R159, R165). -/
def trimOffsets (q : GovAt) (t : OpndTensor) (ts : List Nat) : Gov (List Int) :=
  if t.desc.primed then pure (ts.map fun x => signedBits x 8)
  else if ts.any (fun x => 8 ≤ x) then throw (.fault 9 q.line false)
  else pure (ts.map fun x : Nat => -(x : Int))

/-- Bits of a trim of the tensor's present contents. -/
def GDesc.trimBits (d : GDesc) : Nat := if d.primed then 8 else 4

/-- First block and number of blocks that `n` elements from `elem0` on touch. -/
def GDesc.blockSpan (d : GDesc) (elem0 n : Nat) : Nat × Nat := (elem0 / d.block, (elem0 + n - 1) / d.block - elem0 / d.block + 1)

/-- What scales a piece of a line: the word of its entry, and the trims of its blocks. -/
structure LineScale where
  entry : Nat
  trims : List Nat
deriving DecidableEq, Repr

/-- Reads what scales `n` elements of a line from `elem0` on. -/
def lineScale (q : GovAt) (t : OpndTensor) (elem0 n : Nat) : Gov LineScale := do
  let e ← lineEntry q t.desc
  let (j, k) := t.desc.blockSpan elem0 n
  let ts ← govGet q t.desc.trim t.desc.trimBits (q.line * t.desc.blocks + j) k
  pure { entry := e, trims := ts }

/-- The elements of a line from `elem0` on, given their codes and what scales them: the edge base and each element with its offset
(R161, R162, R165). A line or element outside the tensor is code 0 with no offset (R299). -/
def scaleLine (q : GovAt) (t : OpndTensor) (elem0 : Nat) (codes : List Nat) (x : LineScale) : Gov (Int × List Elem) := do
  let d := t.desc
  let base ← seededBase q t x.entry
  let trims ← trimOffsets q t x.trims
  let j := elem0 / d.block
  let fold : Int := if t.fold && !d.primed then t.bref - base else 0
  let off (e : Nat) : Int := max (-256) (trims.getD ((elem0 + e) / d.block - j) 0 - fold)
  let edge : Int := if d.primed then 0 else if t.fold then t.bref else base
  pure (edge, (List.range codes.length).zip codes |>.map fun (e, c) => if elem0 + e < d.length then (c, off e) else (0, 0))

/-- A line of an operand, read with what scales it. -/
def operandLine (q : GovAt) (t : OpndTensor) (elem0 : Nat) (codes : List Nat) : Gov (Int × List Elem) := do
  let n := min codes.length (t.desc.length - elem0)
  if t.desc.lines ≤ q.line ∨ n = 0 then pure (0, codes.map fun _ => (0, 0))
  else
    let x ← lineScale q t elem0 n
    scaleLine q t elem0 codes x

/-! ## Gradient formats by layer (R180 to R186) -/

/-- A layer record, without its histogram. -/
structure LayerRec where
  va      : Nat
  step    : Nat
  cur     : Nat
  prev    : Nat
  force   : Nat
  hist    : Nat
  hold    : Nat
  dry     : Nat
  head    : Nat
  elems   : Nat
  flushed : Nat
  ovf     : Nat
deriving DecidableEq, Repr

def readLayer (q : GovAt) (layer : Nat) : Gov LayerRec := do
  let va := 4096 * (← get).fld64 (.governor q.mill) 0x110 12 52 + 4096 * layer
  let bs ← govRead q va 0x24
  let w := byteField bs 8 4
  pure { va := va, step := byteField bs 0 6, cur := natBits w 0 2, prev := natBits w 2 2, force := natBits w 4 2,
         hist := natBits w 6 5, hold := natBits w 11 5, dry := natBits w 16 16, head := natBits (byteField bs 0xC 4) 0 5,
         elems := byteField bs 0x10 8, flushed := byteField bs 0x18 8, ovf := byteField bs 0x20 4 }

def storeLayer (q : GovAt) (r : LayerRec) : Gov Unit :=
  govWrite q r.va
    (leBytes 8 r.step ++ leBytes 4 (r.cur + 4 * r.prev + 16 * r.force + 64 * r.hist + 2 ^ 11 * r.hold + 2 ^ 16 * r.dry)
      ++ leBytes 4 r.head ++ leBytes 8 r.elems ++ leBytes 8 r.flushed ++ leBytes 4 r.ovf)

/-- The format of a layer's format code. -/
def layerFmt (c : Nat) : Option Fmt :=
  match c with
  | 0 => some .e4m3 | 1 => some .e5m2 | 2 => some .bf16 | _ => none

/-- The dry count of a layer has been reported, or has returned to 0 (R181). -/
def State.dryMark (s : State) (m : MillId) (layer : Nat) (told : Bool) : State :=
  s.onGov m fun g => { g with dryTold := (if told then [layer] else []) ++ g.dryTold.filter (· != layer) }

/-- A layer's dry count has reached DRY_LIMIT (R181). -/
def State.dryReached (s : State) (m : MillId) (layer : Nat) : State :=
  let p : Page := .governor m
  let s := ((s.dryMark m layer true).raise p 1).tally p 14 1
  s.record p 0x120 fun s => s.setWord p 0x120 (BitVec.ofNat 32 layer)

/-- Closes the dry watch of a step (R180 to R182): the record after it. The layer is reported again only after its count has returned
to 0. -/
def dryUpdate (m : MillId) (layer : Nat) (r : LayerRec) : Gov LayerRec := do
  let p : Page := .governor m
  modify fun s => if r.dry = 0 then s.dryMark m layer false else s
  let (inj, s) := (← get).takeInjAt p 2 layer
  set s
  if r.elems = 0 ∧ !inj then pure r
  else if inj || decide (r.elems * s.fld p 0x11C 16 14 ≤ 10000 * r.flushed) then
    let dry := min 65535 (r.dry + 1)
    if dry < s.fld p 0x11C 0 16 ∨ (s.mill m).governor.dryTold.contains layer then pure { r with dry := dry }
    else
      modify fun s => s.dryReached m layer
      if s.bit p 0x118 5 ∧ r.force = 0 ∧ r.cur < 2 then
        modify fun s => (s.tally p 15 1).onGov m fun g => { g with widened := cellSet 0 layer (r.cur + 1) g.widened }
        pure { r with dry := 0, hold := 16 }
      else pure { r with dry := dry }
  else pure { r with dry := 0 }

/-- The bins of the closed rows, by bin: their sums over every row but HEAD (R185). -/
def closedBins (q : GovAt) (r : LayerRec) : Gov (List Nat) := do
  let ws ← govGet q (r.va + 0x40) 32 0 (17 * 32)
  pure ((List.range 32).map fun b =>
    ((List.range 17).filter (· != r.head)).foldl (fun a row => a + ws.getD (32 * row + b) 0) 0)

/-- The format of a new step (R185), before HOLD. -/
def chooseFmt (force hist loss4 loss5 : Nat) (bins : List Nat) : Nat :=
  let n := bins.foldl (· + ·) 0
  let lost4 := (bins.drop 22).foldl (· + ·) 0
  let lost5 := bins.getD 31 0
  if force ≠ 0 then force - 1
  else if hist < 16 then 2
  else if n = 0 then 0
  else if lost4 * 2 ^ loss4 ≤ n then 0
  else if lost5 * 2 ^ loss5 ≤ n then 1
  else 2

/-- The address of a histogram row. -/
def LayerRec.row (r : LayerRec) (k : Nat) : Nat := r.va + 0x40 + 128 * k

/-- Clears one histogram row. -/
def clearRow (q : GovAt) (r : LayerRec) (k : Nat) : Gov Unit := govWrite q (r.row k) (List.replicate 128 0)

/-- The histogram rows move on to a new step (R184, 2 and 3). -/
def turnRows (q : GovAt) (step : Nat) (r : LayerRec) : Gov LayerRec :=
  if 16 < step - r.step then do
    (List.range 17).forM (clearRow q r)
    pure { r with hist := 0, head := 0 }
  else if r.elems ≠ 0 then do
    clearRow q r ((r.head + 1) % 17)
    pure { r with hist := min 16 (r.hist + 1), head := (r.head + 1) % 17 }
  else pure r

/-- The widened format of a layer whose HOLD lasts. A governor that has lost it (a restore) takes FMT_CUR, which is never narrower. -/
def State.widenedFmt (s : State) (m : MillId) (layer : Nat) (r : LayerRec) : Nat :=
  match cellGet 0 layer (s.mill m).governor.widened with
  | 0 => r.cur
  | w => w

/-- The first gradient write that names a later step closes the layer's step and opens the new one (R184). -/
def openStep (q : GovAt) (layer step : Nat) (r : LayerRec) : Gov LayerRec := do
  let r ← dryUpdate q.mill layer r
  let r ← turnRows q step r
  let bins ← closedBins q r
  let s ← get
  let g : Page := .governor q.mill
  let f := chooseFmt r.force r.hist (s.fld g 0x118 6 5) (s.fld g 0x118 11 5) bins
  let fmt := if 0 < r.hold then max f (s.widenedFmt q.mill layer r) else f
  modify fun s =>
    let s := s.tally g (11 + fmt) 1
    if fmt ≠ r.cur then s.raise g 5 else s
  let r := { r with prev := r.cur, cur := fmt, hold := r.hold - 1, step := step, elems := 0, flushed := 0, ovf := 0 }
  storeLayer q r
  pure r

/-- The format code of the layer that a write of a step takes (R186), the step opened where the write is the first of it. -/
def gradientFmt (q : GovAt) (d : GDesc) (step : Nat) : Gov Nat := do
  let r ← readLayer q d.layer
  let r ← if r.step < step then openStep q d.layer step r else pure r
  if step = r.step then pure r.cur
  else if step + 1 = r.step then pure r.prev
  else throw (.fault 4 q.line false)

/-- The format of a write to a tensor: the descriptor's, or the layer's under POLICY (R174, R184). A gradient tensor's step is
opened whatever its POLICY. FP40 and reserved codes, and a narrow format of any tensor but a weight, are refused (R642). -/
def writeFmt (q : GovAt) (d : GDesc) (step : Nat) : Gov Fmt := do
  let layer ←
    if d.cls = 2 then (gradientFmt q d step).map some
    else if d.policy then do
      let r ← readLayer q d.layer
      pure (some (if step + 1 = r.step then r.prev else r.cur))
    else pure none
  let f := if d.policy then layer.bind layerFmt else Fmt.ofCode d.fmt
  match f with
  | none => throw (.fault 8 q.line false)
  | some f => if f = .fp40 ∨ (f.narrow ∧ d.cls ≠ 0) then throw (.fault 8 q.line false) else pure f

/-! ## Blocks (R167, R177, R187) -/

/-- What the write of one block gives: its trim (a nibble, or the exponent of a primed block), its overflow bit, the code of
every element written, its largest finite magnitude and whether it holds an infinity. -/
structure BlockOut where
  trim  : Int
  ovf   : Bool
  codes : List (Option (W32 × Encoded))
  max   : Num
  inf   : Bool
deriving DecidableEq, Repr

/-- The larger of two magnitudes. -/
def maxAbs (a b : Num) : Num := if Num.lt a b then b else a

/-- The largest finite magnitude of a block, NaNs left out (R176). -/
def blockMax (vals : List (Option W32)) : Num :=
  vals.foldl (fun a v => match v with
    | some w => if (f32 w).isFinite then maxAbs a (f32 w).abs else a
    | none => a) (.zero false)

/-- The largest trim from 0 to 7 whose scale still holds `m`, 0 where none does. -/
def trimOf (f : Fmt) (b : Int) (m : Num) : Nat :=
  ((List.range 8).reverse.find? fun t : Nat => Num.le m (f.fmax.scale (b - (t : Int)))).getD 0

/-- Writes one block (R177; R187 when primed; R196 in compatibility mode). -/
def blockWrite (f : Fmt) (primed compat flag : Bool) (b : Int) (vals : List (Option W32)) : BlockOut :=
  let m := blockMax vals
  let inf := vals.any fun v => match v with | some w => (f32 w).isInf | none => false
  let t : Int := if primed then f.lineExp m inf else if compat then 0 else trimOf f b m
  let scale : Int := if primed then t else b - t
  { trim := t, ovf := !primed && (inf || Num.lt (f.fmax.scale b) m || flag),
    codes := vals.map fun v => v.map fun w => (w, f.encode ((f32 w).scale (-scale))), max := m, inf := inf }

/-- `floor(log2 fmax)` of a format. -/
def Fmt.topBinade (f : Fmt) : Int := f.fmax.log2

/-- The histogram bin of a nonzero finite value (R183). -/
def gradBin (f : Fmt) (b : Int) (v : Num) : Nat := (max 0 (min 31 (b + f.topBinade - v.log2))).toNat

/-- Cuts elements into blocks: elements before position `elem0 + k` of one block go together. -/
def cutBlocks (size : Nat) : (fuel pos : Nat) → List (Option W32) → List (Nat × List (Option W32))
  | 0, _, _ => []
  | k + 1, pos, vs =>
    if vs.isEmpty then []
    else
      let n := size - pos % size
      (pos, vs.take n) :: cutBlocks size k (pos + n) (vs.drop n)

/-! ## The write of a line (R172, R176, R177, R643) -/

/-- The line entry after a normal write (R177): NEXT, DOWN, and whether NEXT was held at the end of its range. -/
def nextBase (b e : Int) (down steps : Nat) (ovf jump : Bool) : Int × Nat × Bool :=
  let clamp (x : Int) (d : Nat) : Int × Nat × Bool := (max (-128) (min 127 x), d, decide (x < -128 ∨ 127 < x))
  if ovf then clamp (if jump ∧ b + 1 < e then e else b + 1) 0
  else if e < b then
    if down + 1 = steps then clamp (b - 1) 0 else (b, down + 1, false)
  else (b, 0, false)

/-- A scale ledger entry (R175), BUSY clear and SEEDED set. -/
def entryWord (written next : Int) (down : Nat) (ovf : Bool) : Nat :=
  intBits 8 written + 2 ^ 8 * intBits 8 next + 2 ^ 16 * (down % 16) + 2 ^ 20 * boolNat ovf + 2 ^ 21

def State.openLine (s : State) (m : MillId) (stage desc line : Nat) : Option OpenLine :=
  (s.mill m).governor.opened.find? fun o => o.stage == stage && o.desc == desc && o.line == line

def State.setOpenLine (s : State) (m : MillId) (o : OpenLine) : State :=
  s.onGov m fun g => { g with opened := o :: g.opened.filter fun x => !(x.stage == o.stage && x.desc == o.desc && x.line == o.line) }

def State.dropOpenLine (s : State) (m : MillId) (o : OpenLine) : State :=
  s.onGov m fun g => { g with opened := g.opened.filter fun x => !(x.stage == o.stage && x.desc == o.desc && x.line == o.line) }

/-- The step of a gradient write that is under way keeps its format (R186): the operation as a stage holds it. -/
def State.govOp (s : State) (m : MillId) (stage op : Nat) : Option GovOp :=
  (s.mill m).governor.begun.find? fun o => o.stage == stage && o.op == op

/-- Does a stage still hold lines of an operation? -/
def Governor.holdsOp (g : Governor) (stage op : Nat) : Bool :=
  (cellGet [] stage g.jobs).any (fun j => j.op == op) || g.vlines.any fun l => 2 + l.unit == stage && l.op == op

/-- A stage begins a write operation; what it kept of operations of which it holds no line goes. -/
def State.setGovOp (s : State) (m : MillId) (x : GovOp) : State :=
  s.onGov m fun g =>
    { g with begun := x :: g.begun.filter fun o => !(o.stage == x.stage && o.op == x.op) && (o.stage != x.stage || g.holdsOp o.stage o.op) }

/-- A tensor is primed while any of its lines is unseeded (R187): reads the entries of all its lines. -/
def writesPrimed (q : GovAt) (d : GDesc) : Gov Bool := do
  let entries ← (List.range d.lines).mapM fun c => lineEntry { q with line := c } d
  pure (entries.any fun e => natBits e 21 1 == 0)

/-- PRIME_START and PRIME_END are judged per tensor (R187, R188). -/
def State.primeEvents (s : State) (m : MillId) (was now : Bool) : State :=
  if now && !was then s.raise (.governor m) 6 else if was && !now then s.raise (.governor m) 7 else s

/-- The beginning of a write operation: the version, the step and format, and whether it is primed (R172, R184, R187, R188). -/
def beginWrite (q : GovAt) (stage : Nat) (j : LineJob) (d : GDesc) : Gov GovOp := do
  let f ← writeFmt q d (handleStep j.handle)
  if handleVersion j.handle then
    modify fun s => s.watchVersion q.mill d.idx
    storeDone q { d with done := 0, bmax := -128 }
  let primed ← if f.scaled then writesPrimed q d else pure false
  if f.scaled then modify fun s => s.primeEvents q.mill d.primed primed
  storeFmt q { d with wfmt := f.code, primed := if f.scaled then primed else d.primed }
  let x : GovOp := { stage := stage, op := j.op, fmt := f.code, primed := primed, flagged := false }
  modify fun s => s.setGovOp q.mill x
  pure x

/-- Takes a line (R176): sets BUSY in one access, or ends in LINE_CLASH. -/
def takeLine (q : GovAt) (stage : Nat) (d : GDesc) (primed : Bool) : Gov OpenLine := do
  let e ← lineEntry q d
  let (inj, s) := (← get).takeInj (.governor q.mill) 3
  set s
  if inj || natBits e 22 1 == 1 then throw (.fault 1 q.line inj)
  else
    entryWrite q (d.entry q.line) (e + 2 ^ 22)
    let pol := s.word (.governor q.mill) 0x118
    let o : OpenLine :=
      { stage := stage, desc := d.idx, line := q.line, entry := d.entry q.line, base := signedBits (e / 2 ^ 8) 8, primed := primed,
        maxAbs := .zero false, hasInf := false, ovf := false, any := false, steps := bitsOf pol 0 4, jump := bitOf pol 4 }
    modify fun s => s.setOpenLine q.mill o
    pure o

/-- The line that a stage writes: one it has open, or one it takes now. -/
def stageLine (q : GovAt) (stage : Nat) (d : GDesc) (primed : Bool) : Gov OpenLine := do
  match (← get).openLine q.mill stage d.idx q.line with
  | some o => pure o
  | none => takeLine q stage d primed

/-- What the blocks that one access writes show (R178, R179, R183): the nonzero finite values with the base their bin counts from, the
blocks, flags, saturations, flushes, source subnormals and NaNs. -/
structure WriteCounts where
  live : List (W32 × Int)
  blocks : Nat
  flags : Nat
  sat : Nat
  flushed : Nat
  subs : Nat
  nans : Nat
deriving DecidableEq, Repr

def writeCounts (primed : Bool) (b : Int) (outs : List BlockOut) : WriteCounts :=
  let ws := outs.flatMap fun o => (o.codes.filterMap id).map fun c => (c.1, c.2, if primed then o.trim else b)
  { live := (ws.filter fun x => (f32 x.1).isFinite && !(f32 x.1).isZero).map fun x => (x.1, x.2.2),
    blocks := outs.length, flags := (outs.filter (·.ovf)).length, sat := (ws.filter fun x => x.2.1.sat).length,
    flushed := (ws.filter fun x => x.2.1.flushed).length, subs := (ws.filter fun x => wideSubnormal 23 x.1.toNat).length,
    nans := (ws.filter fun x => (f32 x.1).isNan).length }

/-- The tallies of R201, NAN_WRITE, and GOV_OVERFLOW for the first flagged block of an operation. -/
def State.tallyWrite (s : State) (m : MillId) (x : GovOp) (c : WriteCounts) : State :=
  let g : Page := .governor m
  let s := ((s.tally g 0 c.live.length).tally g 1 c.blocks).tally g 2 c.flags
  let s := (((s.tally g 3 c.sat).tally g 4 c.flushed).tally g 5 c.subs).tally g 6 c.nans
  let s := if 0 < c.nans then s.raise g 8 else s
  if 0 < c.flags ∧ !x.flagged then (s.raise g 0).setGovOp m { x with flagged := true } else s

/-- A histogram row with values counted into it; a bin holds at its largest (R183). -/
def binRow (f : Fmt) (row : List Nat) (live : List (W32 × Int)) : List Nat :=
  live.foldl (fun r x => listOn r (gradBin f x.2 (f32 x.1)) fun n => min (2 ^ 32 - 1) (n + 1)) row

/-- The layer record of the tensor: flagged blocks of any tensor, and elements, flushes and histogram of a gradient (R178, R179, R183). -/
def countLayer (q : GovAt) (d : GDesc) (f : Fmt) (c : WriteCounts) : Gov Unit := do
  if d.cls = 2 ∨ 0 < c.flags then
    let r ← readLayer q d.layer
    let r := { r with ovf := (r.ovf + c.flags) % 2 ^ 32 }
    if d.cls = 2 then
      let row ← govGet q (r.row r.head) 32 0 32
      govWrite q (r.row r.head) ((binRow f row c.live).flatMap (leBytes 4))
      storeLayer q { r with elems := r.elems + c.live.length, flushed := r.flushed + c.flushed }
    else storeLayer q r

/-- Writes codes: to the tensor, or for TOHOP to the stone's hopper (R299). -/
def writeCodes (q : GovAt) (j : LineJob) (d : GDesc) (bits : Nat) (codes : List (Option Nat)) : Gov Unit := do
  match j.hopper with
  | none => govPut q d.data bits (j.line * d.length + j.elem0) codes
  | some (block, row) =>
    let key := block + row * 32 * bits
    let n := (codes.length * bits + 7) / 8
    if block / 0x600000 ≠ (key + n - 1) / 0x600000 then throw (.range (block % 0x600000 + row * 32 * bits))
    let stone := key / 0x600000 % 24
    let (bad, inj, s) := (← get).hopperRace q.mill stone (key % 0x600000) n true
    set s
    if bad then throw (.race (raceRes false stone true (key % 0x600000)) (key % 0x600000) inj)
    else modify fun s =>
      { s with hopper := writeBytes s.hopper key (leBytes n (putItems bits 0 (leNat (readBytes s.hopper key n)) codes)) }

/-- A line of which a mask left no word keeps its entry (R643), BUSY cleared. -/
def finishMasked (q : GovAt) (d : GDesc) (o : OpenLine) (old : Nat) : Gov Unit := do
  entryWrite q o.entry (old - 2 ^ 22 * natBits old 22 1)
  storeDone q { d with done := d.done + 1, bmax := max d.bmax (signedBits old 8) }

/-- The entry of a line written primed (R187). -/
def finishPrimed (q : GovAt) (d : GDesc) (o : OpenLine) (e : Int) : Gov Unit := do
  entryWrite q o.entry (entryWord (-128) e 0 false)
  modify fun s => s.tally (.governor q.mill) 10 1
  storeDone q { d with done := d.done + 1 }

/-- The entry of a line after a normal write (R177), with LINES_DONE and BMAX (R172). -/
def finishNormal (q : GovAt) (d : GDesc) (o : OpenLine) (e : Int) (old : Nat) : Gov Unit := do
  let (next, down, clamped) := nextBase o.base e (natBits old 16 4) o.steps o.ovf o.jump
  let g : Page := .governor q.mill
  entryWrite q o.entry (entryWord o.base next down o.ovf)
  modify fun s =>
    ((s.tally g 9 (boolNat clamped)).tally g 7 (boolNat (decide (o.base < next)))).tally g 8 (boolNat (decide (next < o.base)))
  storeDone q { d with done := d.done + 1, bmax := max d.bmax o.base }

/-- A line written whole (R172, R177, R187): its entry, LINES_DONE and BMAX. -/
def finishLine (q : GovAt) (d : GDesc) (f : Fmt) (o : OpenLine) : Gov Unit := do
  let e := f.lineExp o.maxAbs o.hasInf
  let old ← entryRead q o.entry
  if !o.any then finishMasked q d o old
  else if o.primed then finishPrimed q d o e
  else finishNormal q d o e old
  modify fun s => s.dropOpenLine q.mill o

/-- The elements of a job that exist in the tensor and are written (R643). -/
def LineJob.elements (j : LineJob) (d : GDesc) : List (Option W32) :=
  ((j.vals.zip j.keep).take (d.length - j.elem0)).map fun (v, k) => if k then some v else none

/-- The elements written that were flushed at the edge (R156, R161): they count at the stage that writes them. -/
def LineJob.edgeFlushes (j : LineJob) (els : List (Option W32)) : Nat :=
  (j.flushed.filter fun i => (els.getD i none).isSome).length

/-- Tensor watch sees the elements that an access writes: source value, code and saturation (R551), and the step that a gradient write
names (R552). -/
def State.watchJob (s : State) (m : MillId) (stage : Nat) (j : LineJob) (d : GDesc) (codes : List (Option (W32 × Nat × Bool))) : State :=
  s.watchPiece m stage d.idx j.line (if d.cls = 2 then some (handleStep j.handle) else none)
    (((List.range codes.length).zip codes).filterMap fun (i, c) => c.map fun (w, x, sat) => (j.elem0 + i, w, x, sat))

/-- A write of FP32 passes unchanged, but for flushes (R169): subnormals are taken as zero, and elements flushed at the edge count. -/
def writeFP32 (q : GovAt) (stage : Nat) (j : LineJob) (d : GDesc) (els : List (Option W32)) : Gov Unit := do
  let sub (w : W32) : Bool := wideSubnormal 23 w.toNat
  let codes := els.map fun v => v.map fun w => if sub w then 2 ^ 31 * (w.toNat / 2 ^ 31) else w.toNat
  writeCodes q j d 32 codes
  modify fun s => (s.tally (.governor q.mill) 4 (j.edgeFlushes els)).tally (.governor q.mill) 5 ((els.filterMap id).filter sub).length
  modify fun s => s.watchJob q.mill stage j d (els.map fun v => v.map fun w => (w, w.toNat, false))
  if d.length ≤ j.elem0 + els.length then storeDone q { d with done := d.done + 1 }

/-- A line with what one access has shown of it. -/
def OpenLine.after (o : OpenLine) (outs : List BlockOut) : OpenLine :=
  outs.foldl (fun (o : OpenLine) b =>
    { o with maxAbs := Sys2Proof.Machine.maxAbs o.maxAbs b.max, hasInf := o.hasInf || b.inf, ovf := o.ovf || b.ovf, any := true }) o

/-- A write of a scaled format (R177): takes the line, writes its blocks with their trims and overflow bits, and finishes the
line when its last element is reached. -/
def writeScaled (q : GovAt) (stage : Nat) (j : LineJob) (d : GDesc) (x : GovOp) (f : Fmt) (els : List (Option W32)) : Gov Unit := do
  let o ← stageLine q stage d x.primed
  let s ← get
  let compat := (s.mill q.mill).governor.compat
  let (inj, s) := if o.primed then (false, s) else s.takeInj (.governor q.mill) 1
  set s
  let cut := cutBlocks d.block (els.length + 1) j.elem0 els
  let outs := ((List.range cut.length).zip cut).map fun (k, _, vs) => blockWrite f o.primed compat (inj && k == 0) o.base vs
  let codes := outs.flatMap (·.codes)
  writeCodes q j d f.bits (codes.map fun c => c.map fun x => x.2.code)
  let item (v : BlockOut → Nat) : List (Option Nat) := outs.map fun b => if b.codes.any (·.isSome) then some (v b) else none
  let bits := if o.primed then 8 else 4
  let k0 := j.line * d.blocks + j.elem0 / d.block
  govPut q d.trim bits k0 (item fun b => intBits bits b.trim)
  govPut q d.ovf 1 k0 (item fun b => boolNat b.ovf)
  let written := outs.filter fun b => b.codes.any (·.isSome)
  let c := writeCounts o.primed o.base written
  modify fun s => (s.tallyWrite q.mill x c).tally (.governor q.mill) 4 (j.edgeFlushes els)
  countLayer q d f c
  modify fun s => s.watchJob q.mill stage j d (codes.map fun c => c.map fun (w, x) => (w, x.code, x.sat))
  let o := o.after written
  if d.length ≤ j.elem0 + els.length then finishLine q d f o else modify fun s => s.setOpenLine q.mill o

/-- The operation of a job as its stage holds it, begun by its first access. -/
def jobOp (q : GovAt) (stage : Nat) (j : LineJob) (d : GDesc) : Gov GovOp := do
  match (← get).govOp q.mill stage j.op with
  | some x => if j.first then beginWrite q stage j d else pure x
  | none => beginWrite q stage j d

/-- What a stage does with one job. -/
def writeJob (q : GovAt) (stage : Nat) (j : LineJob) : Gov Unit := do
  let d ← gdesc q (handleDesc j.handle)
  let x ← jobOp q stage j d
  let d ← gdesc q (handleDesc j.handle)
  match Fmt.ofCode x.fmt with
  | none => throw (.fault 8 q.line false)
  | some f =>
    let els := j.elements d
    if d.lines ≤ q.line ∨ els.isEmpty then pure ()
    else if f.scaled then writeScaled q stage j d x f els
    else writeFP32 q stage j d els

/-! ## The jobs of a stage -/

/-- The jobs waiting at a stage. -/
def State.stageJobs (s : State) (m : MillId) (stage : Nat) : List LineJob := cellGet [] stage (s.mill m).governor.jobs

def State.setStageJobs (s : State) (m : MillId) (stage : Nat) (js : List LineJob) : State :=
  s.onGov m fun g => { g with jobs := cellSet [] stage js g.jobs }

/-- Hands a job to a stage. -/
def State.addJob (s : State) (m : MillId) (stage : Nat) (j : LineJob) : State :=
  s.setStageJobs m stage (s.stageJobs m stage ++ [j])

/-- A stage loses the lines of an operation that it has not written. -/
def State.dropJobs (s : State) (m : MillId) (stage op : Nat) : State :=
  s.setStageJobs m stage ((s.stageJobs m stage).filter fun j => j.op != op)

/-- Lines being written are abandoned (R197): BUSY clears, and the entry keeps WRITTEN, NEXT and DOWN. -/
def State.abandonLines (s : State) (m : MillId) (p : OpenLine → Bool) : State :=
  let gone := (s.mill m).governor.opened.filter p
  let s := s.forAll gone fun s o =>
    let e := leNat (s.vpeek m o.entry 4)
    s.vpoke m o.entry (leBytes 4 (e - 2 ^ 22 * natBits e 22 1))
  s.onGov m fun g => { g with opened := g.opened.filter fun o => !p o }

/-! ## Rows that the bolter holds (R226) -/

/-- A row that the bolter holds is released once its line of the working copy is written: VALID, LAST_STEP and COUNT are written with
the clearing of UPDATING (R213). -/
def State.rowWritten (s : State) (m : MillId) (op row : Nat) : State :=
  match (s.mill m).bolter.ops.find? fun o => o.id == op with
  | none => s
  | some o => match o.held.find? fun h => h.1 == row with
    | none => s
    | some (row, a) =>
      let e := leNat (s.physRead a 16)
      let count := if natBits e 48 1 = 1 then min (2 ^ 32 - 1) (natBits e 96 32 + 1) else 1
      let s := s.ledgerWrite a (leBytes 8 (o.step + 2 ^ 48 + 2 ^ 49 * natBits e 49 1))
      (s.ledgerWrite (a + 12) (leBytes 4 count)).onBolter m fun b =>
        { b with ops := b.ops.map fun x => if x.id = o.id then { x with held := x.held.filter fun h => h.1 != row } else x }

/-- UPDATING of the rows an operation holds is cleared, their other fields as they stood. -/
def State.freeRows (s : State) (o : UpdateOp) : State :=
  s.forAll o.held fun s h =>
    let e := leNat (s.physRead h.2 8)
    s.ledgerWrite h.2 (leBytes 8 (e - 2 ^ 50 * natBits e 50 1))

/-- An update operation leaves the bolter without completing. -/
def State.dropUpdate (s : State) (m : MillId) (o : UpdateOp) : State :=
  let s := (s.freeRows o).dropJobs m 1 o.id
  s.onBolter m fun b => { b with ops := b.ops.filter fun x => x.id != o.id }

/-! ## LINE_WRITE -/

/-- The operation that a stage writes for ends in a fault (R176, R644): the lines it has not written go, the one it has begun is left as an
abandoned pass leaves it (R197), and a race operation or update ends without completing. -/
def State.endWrite (s : State) (m : MillId) (stage op : Nat) : State :=
  let s := (s.dropJobs m stage op).abandonLines m fun o => o.stage == stage
  match stage with
  | 0 => s.onRace m fun r => { r with ops := r.ops.map fun o => if o.id = op then { o with failed := true } else o }
  | 1 => match (s.mill m).bolter.ops.find? fun o => o.id == op with
    | some o => s.dropUpdate m o
    | none => s
  | _ => s

/-- A job's access made by its stage: one that holds changes nothing but what it waits for. -/
def State.runJob (s : State) (m : MillId) (stage : Nat) (j : LineJob) (rest : List LineJob) : State :=
  let q := stageAt m stage j.line j.pc j.slot j.system
  match (writeJob q stage j).run.run s with
  | (.ok (), s) =>
    let s := (s.setStageJobs m stage rest).onGov m fun g => { g with wpHold := none }
    if stage = 1 then s.rowWritten m j.op j.line else s
  | (.error (.hold page), _) => s.onGov m fun g => { g with wpHold := page }
  | (.error stop, s) =>
    (s.endWrite m stage j.op).govEnd m stop (handleDesc j.handle) stage (handleStep j.handle) q.mover.source

/-- A governor stage writes its next job (R177): a line, or the part of a line that a tile holds. It holds where a page waits
for the pond copier or a port accepts nothing; a fault ends the operation (R644, R197). -/
def lineWrite (m : MillId) (stage : Fin 14) (codes : List Ecc) (s : State) : State :=
  match s.stageJobs m stage.val with
  | [] => s
  | j :: rest => if s.halted then s else s.coded codes fun s => s.runJob m stage.val j rest

/-- LINE_WRITE. -/
def execLineWrite (m : MillId) (stage : Fin 14) (codes : List Ecc) (s : State) : Host.Outcome State Fault Refusal :=
  .next (lineWrite m stage codes s)

end Sys2Proof.Machine
end

