-- ==== Sys2Proof/Machine/Bolter.lean ====
section
/-! DEFINITION. The bolter (chapter 06): bolt descriptors and rule rows, the recurrence of an element, factored statistics and
block preconditioning, sparse rows and their ledger entries, the working copy, gates, faults, parks and completion. -/

namespace Sys2Proof.Machine

/-! ## Descriptors and rules (R204, R211) -/

/-- A bolt descriptor (R204). -/
structure BDesc where
  rule    : Nat
  sparse  : Bool
  ledger  : Nat
  mask    : Nat
  gradBF  : Bool
  wcopy   : Bool
  emit    : Bool
  wdesc   : Nat
  group   : Nat
  groupV  : Bool
  lines   : Nat
  length  : Nat
  master  : Nat
  grad    : Nat
  s1      : Nat
  s2      : Nat
  s3      : Nat
  index   : Nat
  count   : Nat
deriving DecidableEq, Repr

def parseBDesc (bs : List Byte) : BDesc :=
  let w0 := byteField bs 0 4
  let w4 := byteField bs 4 4
  { rule := natBits w0 0 3, sparse := natBits w0 3 1 == 1, ledger := natBits w0 4 3, mask := natBits w0 7 4,
    gradBF := natBits w0 11 1 == 1, wcopy := natBits w0 12 1 == 1, emit := natBits w0 13 1 == 1, wdesc := natBits w4 0 12,
    group := natBits w4 12 12, groupV := natBits w4 24 1 == 1, lines := byteField bs 8 4, length := byteField bs 0xC 4,
    master := byteField bs 0x10 8, grad := byteField bs 0x18 8, s1 := byteField bs 0x20 8, s2 := byteField bs 0x28 8,
    s3 := byteField bs 0x30 8, index := byteField bs 0x38 8, count := byteField bs 0x40 4 }

/-- A reserved field of a bolt descriptor is nonzero. -/
def bdescReserved (bs : List Byte) : Bool :=
  natBits (byteField bs 0 4) 14 18 != 0 || natBits (byteField bs 4 4) 25 7 != 0 || (bs.drop 0x44).any (· != 0)

/-- A rule row (R211): its coefficients, a subnormal taken as zero, and its flags. -/
structure Rule where
  c       : List Num
  m1      : Bool
  m2      : Bool
  fact    : Bool
  bc1     : Bool
  bc2     : Bool
  coupled : Bool
  sign    : Bool
  pre     : Bool
  lazyWd  : Bool
  clip    : Bool
  preN    : Nat
  preB    : Nat
  t0      : Nat
deriving DecidableEq, Repr

/-- The words of rule row `r` as the bolter page holds them. -/
def State.ruleWords (s : State) (m : MillId) (r : Nat) : List W32 :=
  (List.range 32).map fun i => s.word (.bolter m) (0x400 + 0x80 * r + 4 * i)

def parseRule (ws : List W32) : Rule :=
  let w (i : Nat) : W32 := ws.getD i 0
  let f := w 16
  { c := (List.range 16).map fun i => f32 (w i), m1 := bitOf f 0, m2 := bitOf f 1, fact := bitOf f 2, bc1 := bitOf f 3,
    bc2 := bitOf f 4, coupled := bitOf f 5, sign := bitOf f 6, pre := bitOf f 7, lazyWd := bitOf f 8, clip := bitOf f 9,
    preN := bitsOf (w 17) 0 16, preB := bitsOf (w 17) 16 4 + 1, t0 := (w 18).toNat + 2 ^ 32 * bitsOf (w 19) 0 16 }

def Rule.co (r : Rule) (i : Nat) : Num := r.c.getD i (.zero false)

/-- Is a coefficient read under the row's flags (R211)? -/
def Rule.uses (r : Rule) (i : Nat) : Bool :=
  match i with
  | 1 => r.coupled
  | 2 | 3 => r.m1
  | 4 | 5 => r.m2 || r.fact
  | 6 => r.m2
  | 11 | 12 => r.fact
  | 13 => r.clip
  | 14 | 15 => r.pre
  | _ => true

/-- The subnormal ones among the coefficients that an operation reads and its two factors: inputs taken as zero. -/
def ruleSubs (ws : List W32) (fg flr : W32) : Nat :=
  let r := parseRule ws
  (((List.range 16).filter r.uses).map (fun i => ws.getD i 0) ++ [fg, flr]).countP fun w => wideSubnormal 23 w.toNat

/-! ## Arithmetic with its flushes counted (R207, R208) -/

/-- A computation that counts the results it flushes (FLUSH_OUT). -/
abbrev Fl (α : Type) := StateM Nat α

def flRound (f : FloatFmt) (x : Num) : Fl Num := do
  let r := roundTo f x
  if r.flushed then modify (· + 1)
  pure r.val

def flAdd (a b : Num) : Fl Num := flRound fmtFP32 (Num.add a b)
def flSub (a b : Num) : Fl Num := flRound fmtFP32 (Num.sub a b)
def flMul (a b : Num) : Fl Num := flRound fmtFP32 (Num.mul a b)
def flDiv (a b : Num) : Fl Num := flRound fmtFP32 (Num.quot 24 a b)
def flSqrt (a : Num) : Fl Num := flRound fmtFP32 (Num.root 24 a)

def num1 : Num := .fin false 1 0

/-- Square and multiply over the bits of n, ascending, to the last set bit; each power and each product rounded once (R208). -/
def powGo : (fuel : Nat) → (acc p : Num) → (n : Nat) → Fl Num
  | 0, acc, _, _ => pure acc
  | k + 1, acc, p, n => do
    let acc ← if n % 2 = 1 then flMul acc p else pure acc
    if n / 2 = 0 then pure acc else powGo k acc (← flMul p p) (n / 2)

/-- pow(β, n) (R208), for n below 2^64. -/
def powFP (b : Num) (n : Nat) : Fl Num := powGo 64 num1 b n

/-- The larger and the lesser of two values; a NaN takes precedence. -/
def numMax (a b : Num) : Num := if a.isNan then a else if b.isNan then b else if Num.lt a b then b else a
def numMin (a b : Num) : Num := if a.isNan then a else if b.isNan then b else if Num.lt b a then b else a

/-- Step 1 of R207: the gradient, with the coupled decay. -/
def stepGrad (r : Rule) (fg g w : Num) : Fl Num := do
  let x ← flMul (← flMul (r.co 0) fg) g
  if r.coupled then flAdd x (← flMul (r.co 1) (← flRound fmtFP32 w)) else pure x

/-- What steps 1 to 5 of R207 give for an element. -/
structure Front where
  g  : Num
  m  : Num
  v  : Num
  vh : Num
  n  : Num
deriving DecidableEq, Repr

/-- Steps 1 to 5 of R207, up to the sign. `est` is the factored estimate, before its bias correction. -/
def stepFront (r : Rule) (fg : Num) (delta t : Nat) (g w m v : Num) (est : Option Num) : Fl Front := do
  let g ← stepGrad r fg g w
  let m ← if r.m1 then do flAdd (← flMul (← powFP (r.co 2) delta) m) (← flMul (r.co 3) g) else pure m
  let v ← if r.m2 && !r.fact then do flAdd (← flMul (← powFP (r.co 4) delta) v) (← flMul (r.co 5) (← flMul g g)) else pure v
  let mh ← if !r.m1 then pure (.zero false)
    else if r.bc1 then do flDiv m (← flSub num1 (← powFP (r.co 2) t)) else pure m
  let vh := est.getD v
  let vh ← if r.bc2 then do flDiv vh (← flSub num1 (← powFP (r.co 4) t)) else pure vh
  let n ← flAdd (← flMul (r.co 9) mh) (← flMul (r.co 10) g)
  let n := if r.sign then (if n.isNan then n else if n.isZero then .zero false else if n.neg? then num1.negate else num1) else n
  pure { g := g, m := m, v := v, vh := vh, n := n }

/-- What an element ends with: its master, first and second moments, and whether it was clipped; none where the step or the
new master is not finite (R209). -/
structure ElemOut where
  w : Num
  m : Num
  v : Num
  clipped : Bool
deriving DecidableEq, Repr

/-- Steps 6 and 7 of R207. -/
def stepBack (r : Rule) (flr : Num) (delta : Nat) (w : Num) (x : Front) (n : Num) : Fl (Option ElemOut) := do
  let u ← if r.m2 then do flDiv n (← flAdd (← flSqrt x.vh) (r.co 6)) else pure n
  let u' := if r.clip then numMax (r.co 13).negate (numMin (r.co 13) u) else u
  let a ← flMul flr (r.co 7)
  let k ← flSub num1 (← flMul a (r.co 8))
  let k ← if r.lazyWd then powFP k delta else pure k
  let d ← flMul a u'
  let w ← flRound fmtFP40 (Num.sub (← flRound fmtFP40 (Num.mul w k)) d)
  pure (if d.isFinite && w.isFinite then some { w := w, m := x.m, v := x.v, clipped := Num.lt u' u || Num.lt u u' } else none)

/-! ## Block preconditioning (R218 to R220) -/

/-- Index of element (a, b) of a lower triangle kept row by row. -/
def tri (a b : Nat) : Nat := a * (a + 1) / 2 + b

/-- The products of two lists subtracted from a value in order, each product and each difference rounded. -/
def subDots (x : Num) : List (Num × Num) → Fl Num
  | [] => pure x
  | (a, b) :: rest => do subDots (← flSub x (← flMul a b)) rest

/-- One Cholesky attempt in ascending column order: the factor, or none where a pivot is not finite and positive. -/
def cholesky (b : Nat) (g : Nat → Num) (shift : Num) : Fl (Option (List Num)) := do
  let zero : List Num := List.replicate (b * (b + 1) / 2) (.zero false)
  let (l, ok) ← (List.range b).foldlM (fun ((l, ok) : List Num × Bool) j => do
    if !ok then pure (l, false)
    else
      let at_ (i k : Nat) : Num := l.getD (tri i k) (.zero false)
      let pivot ← subDots (← flAdd (g (tri j j)) shift) ((List.range j).map fun k => (at_ j k, at_ j k))
      if !pivot.isFinite || pivot.isZero || pivot.neg? then pure (l, false)
      else
        let d ← flSqrt pivot
        let l := l.set (tri j j) d
        let l ← ((List.range b).filter (j < ·)).foldlM (fun (l : List Num) i => do
          let x ← subDots (g (tri i j)) ((List.range j).map fun k => (at_ i k, at_ j k))
          pure (l.set (tri i j) (← flDiv x d))) l
        pure (l, true)) (zero, true)
  pure (if ok then some l else none)

/-- The attempts of R219, each with ten times the damping of the one before: the factor, the damping raises, and how many
attempts failed. -/
def factorise (b : Nat) (g : Nat → Num) (fails : Bool) : (tries : Nat) → (left : Nat) → Num → Fl (Option (List Num) × Nat × Nat)
  | tries, 0, _ => pure (none, tries - 1, tries)
  | tries, k + 1, shift => do
    let r ← if fails then pure none else cholesky b g shift
    match r with
    | some l => pure (some l, tries, tries)
    | none => factorise b g fails (tries + 1) k (← flMul shift (.ofInt 10))

/-- n := L⁻ᵀ (L⁻¹ n), forward in ascending order and back in descending order (R220). -/
def solve (b : Nat) (l : Nat → Num) (n : List Num) : Fl (List Num) := do
  let y ← (List.range b).foldlM (fun (y : List Num) i => do
    let x ← subDots (n.getD i (.zero false)) ((List.range i).map fun k => (l (tri i k), y.getD k (.zero false)))
    pure (y ++ [← flDiv x (l (tri i i))])) ([] : List Num)
  (List.range b).reverse.foldlM (fun (z : List Num) i => do
    let x ← subDots (y.getD i (.zero false))
      (((List.range b).filter (i < ·)).reverse.map fun k => (l (tri k i), z.getD k (.zero false)))
    pure (z.set i (← flDiv x (l (tri i i))))) (List.replicate b (.zero false))

/-! ## Stops -/

/-- Why an operation stops within an event. A page fault carries its cause and virtual page; it and a fault name a line (or index-list
position) and an element. -/
inductive BltStop where
  | page (cause vpage line elem : Nat)
  | fault (cause line elem : Nat) (injected : Bool)
  /-- the step gate is shut -/
  | gate
  /-- the step has been retracted four times: its gate stays shut (R390) -/
  | retracted (group : Nat)
  /-- another unit holds a ledger entry, or a memory port accepts nothing -/
  | wait
deriving DecidableEq, Repr

abbrev Blt (α : Type) := ExceptT BltStop (StateM State) α

/-- The update operation that the bolter of a mill works on. -/
def State.bolt (s : State) (m : MillId) : Option UpdateOp := (s.mill m).bolter.ops.head?

def State.onBolt (s : State) (m : MillId) (f : UpdateOp → UpdateOp) : State :=
  s.onBolter m fun b => { b with ops := match b.ops with | o :: os => f o :: os | [] => [] }

/-- The bolter as it moves data over the floor (R331), for the operation it works on. -/
def State.boltMover (s : State) (m : MillId) : Mover :=
  { source := { kind := 3, index := 0, pc := ((s.bolt m).map (·.pc)).getD 0, slot := 5, system := ((s.bolt m).map (·.system)).getD false },
    node := bolterNode }

/-- What a stopped access is to the bolter (R232): a page fault that firmware or the copier can resolve parks the operation, any other ends
it with cause PAGE, and an uncorrectable word ends it with BOLT_ECC. -/
def bltStop (line elem : Nat) : MemStop → BltStop
  | .wait => .wait
  | .bad _ i => .fault 3 line elem i
  | .xlat c va => if resolvable c then .page c (va / pageSize) line elem else .fault 2 line elem false

/-- An access of the bolter. -/
def bltTry {α : Type} (line elem : Nat) (f : State → Except MemStop α × State) : Blt α := do
  let (r, s) := f (← get)
  set s
  match r with
  | .ok x => pure x
  | .error e => throw (bltStop line elem e)

/-- The injected page fault of R238, on a read. -/
def bltInjected (m : MillId) (line elem va : Nat) : Blt Unit := do
  let (inj, s) := (← get).takeInj (.bolter m) 4
  set s
  if inj then throw (.page 1 (va / pageSize) line elem)

/-- Reads a virtual range. -/
def bltRead (m : MillId) (line elem va n : Nat) : Blt (List Byte) := do
  bltInjected m line elem va
  bltTry line elem fun s => s.vread m (some (s.boltMover m)) va n

/-- A virtual range that the bolter has read or written before: translated, and seen as it stands. -/
def bltSeen (m : MillId) (line elem va n : Nat) : Blt (List Byte) := do
  let ps ← bltTry line elem fun s => s.translateRange m va n false
  let s ← get
  pure (ps.flatMap fun (a, l) => s.physRead a l)

/-- Writes several translated ranges in order. -/
def State.rangesWrite (s : State) (m : MillId) (v : Mover) : List (List (Nat × Nat) × List Byte) → Except MemStop Unit × State
  | [] => (.ok (), s)
  | (ps, bs) :: rest =>
    match s.partsWrite m (some v) ps bs with
    | (.error e, s) => (.error e, s)
    | (.ok (), s) => s.rangesWrite m v rest

/-- Writes several ranges whole or not at all: all are translated before any is written, a write that a port does not accept is made
again whole, and one that meets an uncorrectable word (R646) leaves memory as it stood. -/
def bltWrite (m : MillId) (line elem : Nat) (ws : List (Nat × List Byte)) : Blt Unit := do
  let ps ← ws.mapM fun (va, bs) => do pure (← bltTry line elem fun s => s.translateRange m va bs.length true, bs)
  let s0 ← get
  match s0.rangesWrite m (s0.boltMover m) ps with
  | (.ok (), s) => set s
  | (.error .wait, _) => throw .wait
  | (.error e, s) => do
    set { s with mem := s0.mem }
    throw (bltStop line elem e)

/-! ## What an operation has latched -/

/-- An operation with its descriptor, rule and masks read. -/
structure BoltCtx where
  op   : UpdateOp
  d    : BDesc
  r    : Rule
  fg   : Num
  flr  : Num
deriving DecidableEq, Repr

def boltCtx (o : UpdateOp) : BoltCtx :=
  { op := o, d := parseBDesc o.desc, r := parseRule o.rule, fg := f32 o.fg, flr := f32 o.flr }

/-- Is the element frozen by the mask (R210)? -/
def BoltCtx.frozen (c : BoltCtx) (line elem : Nat) : Bool :=
  c.d.mask != 0 && !(bitOf (c.op.kmask.getD (line % 256 / 32) 0) (line % 32) && bitOf (c.op.nmask.getD (elem % 256 / 32) 0) (elem % 32))

/-- Is a group weighed (WEIGH_MASK, R418)? -/
def State.weighs (s : State) (group : Nat) : Bool := s.bit .history (0x200 + 4 * (group / 32)) (group % 32)

def State.onGroup (s : State) (idx : Nat) (f : Group → Group) : State :=
  { s with leat := { s.leat with groups := s.leat.groups.map fun g => if g.idx = idx then f g else g } }

def State.group (s : State) (idx : Nat) : Option Group := s.leat.groups.find? fun g => g.idx == idx

/-- An update operation of a weighed group folds each master it writes into the group's digest (R418). -/
def State.weighFold (s : State) (c : BoltCtx) (line elem master : Nat) : State :=
  if c.d.groupV && s.weighs c.d.group then
    s.onGroup c.d.group fun g =>
      let old := if g.weighStep = c.op.step then g.weigh else 0
      { g with weighStep := c.op.step, weigh := old + weighTerm master c.op.bdesc line elem }
  else s

/-- An operation that waits at no gate bars the replay of its command when it begins to write (R405). -/
def State.barReplay (s : State) (m : MillId) (c : BoltCtx) : State :=
  if c.d.groupV then s else s.onMiller m fun x => { x with barred := true }

/-- What follows a master's write: the replay is barred where no gate holds the operation, and the master is weighed. -/
def State.wroteMaster (s : State) (m : MillId) (c : BoltCtx) (line elem master : Nat) : State :=
  (s.barReplay m c).weighFold c line elem master

/-! ## Elements -/

/-- The place of an element: its line (or row), its position in the index list where the tensor is sparse, and its number. -/
structure Spot where
  line : Nat
  pos  : Nat
  elem : Nat
deriving DecidableEq, Repr

/-- Bytes of a gradient element. -/
def BDesc.gradBytes (d : BDesc) : Nat := if d.gradBF then 2 else 4

/-- A number read, and whether its pattern was subnormal and so taken as zero (R155): `fb` fraction bits, 8 exponent bits. -/
def wordIn (m : MillId) (x : Spot) (va fb : Nat) : Blt (Num × Bool) := do
  let w := leNat (← bltRead m x.line x.elem va ((fb + 9) / 8))
  pure (decodeWide fb w, wideSubnormal fb w)

/-- Reads the gradient of an element (R205, R238 code 2). -/
def gradIn (m : MillId) (c : BoltCtx) (x : Spot) : Blt (Num × Bool) := do
  let i := c.d.length * (if c.d.sparse then x.pos else x.line) + x.elem
  let g ← wordIn m x (c.d.grad + c.d.gradBytes * i) (if c.d.gradBF then 7 else 23)
  let (inj, s) := (← get).takeInjAt (.bolter m) 2 i
  set s
  pure (if inj then (.nan, false) else g)

/-- The address of an element's master. -/
def BDesc.masterAt (d : BDesc) (line elem : Nat) : Nat := d.master + 5 * (d.length * line + elem)

/-- Reads the master of an element. -/
def masterIn (m : MillId) (c : BoltCtx) (x : Spot) : Blt (Num × Bool) := wordIn m x (c.d.masterAt x.line x.elem) 31

/-- What is read of an element: gradient, master and the state its rule keeps, and how many were taken as zero. -/
structure ElemIn where
  g : Num
  w : Num
  m : Num
  v : Num
  subs : Nat
deriving DecidableEq, Repr

/-- Reads an element. The state of a row never updated is read as 0 (R213). -/
def elemIn (m : MillId) (c : BoltCtx) (x : Spot) (fresh : Bool) : Blt ElemIn := do
  let i := c.d.length * x.line + x.elem
  let (g, sg) ← gradIn m c x
  let (w, sw) ← masterIn m c x
  let (mm, sm) ← if c.r.m1 && !fresh then wordIn m x (c.d.s1 + 4 * i) 23 else pure (.zero false, false)
  let (v, sv) ← if c.r.m2 && !c.r.fact && !fresh then wordIn m x (c.d.s2 + 4 * i) 23 else pure (.zero false, false)
  pure { g := g, w := w, m := mm, v := v, subs := boolNat sg + boolNat sw + boolNat sm + boolNat sv }

def ElemIn.finite (e : ElemIn) : Bool := e.g.isFinite && e.w.isFinite && e.m.isFinite && e.v.isFinite

/-- An element left under R209. -/
def State.nonfinite (s : State) (m : MillId) : State :=
  let first := match s.bolt m with | some o => !o.nonfinite | none => false
  let s := s.tally (.bolter m) 5 1
  if first then (s.raise (.bolter m) 3).onBolt m fun o => { o with nonfinite := true } else s

/-- Inputs taken as zero and results flushed (R237). -/
def State.boltFlushes (s : State) (m : MillId) (ins outs : Nat) : State := (s.tally (.bolter m) 6 ins).tally (.bolter m) 7 outs

/-- The bytes that an element's result writes. -/
def BoltCtx.outBytes (c : BoltCtx) (x : Spot) (o : ElemOut) : List (Nat × List Byte) :=
  let i := c.d.length * x.line + x.elem
  (c.d.masterAt x.line x.elem, leBytes 5 (toF40 o.w).toNat) ::
    ((if c.r.m1 then [(c.d.s1 + 4 * i, leBytes 4 (toF32 o.m).toNat)] else [])
      ++ if c.r.m2 && !c.r.fact then [(c.d.s2 + 4 * i, leBytes 4 (toF32 o.v).toNat)] else [])

/-- What an element comes to: it is written, or left under R209. -/
def State.elemDone (s : State) (m : MillId) (c : BoltCtx) (x : Spot) (o : Option ElemOut) : State :=
  match o with
  | none => s.nonfinite m
  | some o => ((s.tally (.bolter m) 0 1).tally (.bolter m) 15 (boolNat o.clipped)).wroteMaster m c x.line x.elem (toF40 o.w).toNat

/-- The factored estimate of an element (R217): (r_i × col_j) / max(R, c12). -/
def factEstimate (c : BoltCtx) (x : Spot) : Fl Num := do
  let r := f32 (c.op.rowStat.getD x.line 0)
  let col := f32 (c.op.colStat.getD x.elem 0)
  flDiv (← flMul r col) (numMax (f32 c.op.mean) (c.r.co 12))

/-- The estimate that an element's denominator takes under FACT; none under a rule that keeps the second moment itself. -/
def estimate (c : BoltCtx) (x : Spot) : Fl (Option Num) := do
  if c.r.fact then pure (some (← factEstimate c x)) else pure none

/-- The recurrence of one element (R207, R209). -/
def recur (c : BoltCtx) (x : Spot) (delta t : Nat) (e : ElemIn) : Fl (Option ElemOut) := do
  if e.finite then
    let f ← stepFront c.r c.fg delta t e.g e.w e.m e.v (← estimate c x)
    stepBack c.r c.flr delta e.w f f.n
  else pure none

/-- Updates one element. -/
def boltElem (m : MillId) (c : BoltCtx) (x : Spot) (delta t : Nat) (fresh : Bool) : Blt Unit := do
  let e ← elemIn m c x fresh
  let (o, fl) := (recur c x delta t e).run 0
  bltWrite m x.line x.elem (o.elim [] (c.outBytes x))
  modify fun s => (s.boltFlushes m e.subs fl).elemDone m c x o

/-! ## Blocks (R218 to R220) -/

/-- The words of a stored lower triangle. -/
def triWords (bs : List Byte) : List Num × Nat :=
  let ws := (List.range (bs.length / 4)).map fun i => byteField bs (4 * i) 4
  (ws.map (decodeWide 23), ws.countP (wideSubnormal 23))

/-- A block's Gram matrix after a step (R218): `g` the gradients of its elements. -/
def gramStep (r : Rule) (b : Nat) (old g : List Num) : Fl (List Num) :=
  (List.range b).foldlM (fun (acc : List Num) i => do
    let row ← (List.range (i + 1)).mapM fun j => do
      flAdd (← flMul (r.co 15) (old.getD (tri i j) (.zero false))) (← flMul (g.getD i (.zero false)) (g.getD j (.zero false)))
    pure (acc ++ row)) []

/-- The factorisation of a block (R219): the factor, the damping raises, and the attempts that failed. -/
def factorBlock (r : Rule) (b : Nat) (gram : List Num) (fails : Bool) : Fl (Option (List Num) × Nat × Nat) := do
  let gAt (i : Nat) : Num := gram.getD i (.zero false)
  let trace ← (List.range b).foldlM (fun (a : Num) i => flAdd a (gAt (tri i i))) (.zero false)
  let shift ← flMul (r.co 14) (numMax (← flDiv trace (.ofInt b)) (.fin false 1 (-126)))
  factorise b gAt fails 0 4 shift

/-- What a step does to a block: its Gram matrix, its factorisation where one is due, and the preconditioned numerators. -/
structure BlockStep where
  fronts : List Front
  gram   : List Num
  fact   : Option (Option (List Num) × Nat × Nat)
  ns     : List Num
deriving DecidableEq, Repr

/-- A step of a block (R218 to R220). `l` is the factor it holds. -/
def blockStep (c : BoltCtx) (xs : List (Spot × ElemIn)) (t : Nat) (due fails : Bool) (gram l : List Num) : Fl BlockStep := do
  let b := c.r.preB
  let fronts ← xs.mapM fun (y, e) => do stepFront c.r c.fg 1 t e.g e.w e.m e.v (← estimate c y)
  let gram ← gramStep c.r b gram (fronts.map (·.g))
  let fact ← if due then (do pure (some (← factorBlock c.r b gram fails))) else pure none
  let n := fronts.map (·.n)
  let ns ← match fact with
    | some (some l, _, _) => solve b (fun i => l.getD i (.zero false)) n
    | some (none, _, _) => pure n
    | none => solve b (fun i => l.getD i (.zero false)) n
  pure { fronts := fronts, gram := gram, fact := fact, ns := ns }

/-- The bytes that a block's step writes to its slot: its Gram matrix, and after a factorisation its header and factor. -/
def BlockStep.slotBytes (x : BlockStep) (slot t : Nat) : List (Nat × List Byte) :=
  let nums (ns : List Num) : List Byte := ns.flatMap fun x => leBytes 4 (toF32 x).toNat
  (slot + 0x40, nums x.gram) ::
    match x.fact with
    | none => []
    | some (some l, tries, _) => [(slot, leBytes 8 (1 + 4 * tries) ++ leBytes 6 t), (slot + 0x260, nums l)]
    | some (none, tries, _) => [(slot, leBytes 8 (2 + 4 * tries) ++ leBytes 6 t)]

/-- A factorisation is counted; the first fallback of an operation raises PRECOND_FALLBACK (R219, R220). -/
def State.countFact (s : State) (m : MillId) : Option (Option (List Num) × Nat × Nat) → State
  | none => s
  | some (some _, _, failed) => (s.tally (.bolter m) 9 1).tally (.bolter m) 10 failed
  | some (none, _, failed) =>
    let s := ((s.tally (.bolter m) 9 1).tally (.bolter m) 10 failed).tally (.bolter m) 11 1
    match s.bolt m with
    | some o => if o.fellBack then s else (s.raise (.bolter m) 4).onBolt m fun o => { o with fellBack := true }
    | none => s

/-- What the elements of a block come to. -/
def blockElems (c : BoltCtx) (ins : List (Spot × ElemIn)) (st : BlockStep) : Fl (List (Spot × Option ElemOut)) :=
  (ins.zip (st.fronts.zip st.ns)).mapM fun ((y, e), f, n) => do
    if e.finite then pure (y, ← stepBack c.r c.flr 1 e.w f n) else pure (y, none)

/-- Updates a block of B elements under PRE (R218 to R220). -/
def boltBlock (m : MillId) (c : BoltCtx) (x : Spot) (t : Nat) : Blt Unit := do
  let b := c.r.preB
  let k := x.line * (c.d.length / b) + x.elem / b
  let slot := c.d.s3 + 1152 * k
  let ins ← (List.range b).mapM fun i => do
    let y := { x with elem := x.elem + i }
    pure (y, ← elemIn m c y false)
  let state := natBits (leNat (← bltRead m x.line x.elem slot 4)) 0 2
  let (gram, subG) := triWords (← bltRead m x.line x.elem (slot + 0x40) (2 * b * (b + 1)))
  let due := t % c.r.preN == 0 || state == 0 || state == 2
  let (l, subL) := triWords (← if due then pure [] else bltRead m x.line x.elem (slot + 0x260) (2 * b * (b + 1)))
  let fails := due && (← get).injectsAt (.bolter m) 1 k
  let (st, fl) := (blockStep c ins t due fails gram l).run 0
  let (outs, fl) := (blockElems c ins st).run fl
  bltWrite m x.line x.elem (st.slotBytes slot t ++ outs.flatMap fun (y, o) => o.elim [] (c.outBytes y))
  modify fun s =>
    let s := s.boltFlushes m ((ins.map (·.2.subs)).sum + subG + subL) fl
    let s := (if fails then s.injected (.bolter m) else s).countFact m st.fact
    s.forAll outs fun s (y, o) => s.elemDone m c y o

/-! ## Lines -/

/-- Notes how far the operation has come. -/
def boltAt (m : MillId) (line elem : Nat) : Blt Unit := modify fun s => s.onBolt m fun o => { o with line := line, elem := elem }

/-- The master of an element as the working copy takes it, and whether it was read and taken as zero: one that the operation has not read is
read (R210, R222). -/
def copyIn (m : MillId) (c : BoltCtx) (x : Spot) : Blt (Num × Bool) := do
  if c.d.emit || c.frozen x.line x.elem then masterIn m c x
  else pure (decodeWide 31 (leNat (← bltSeen m x.line x.elem (c.d.masterAt x.line x.elem) 5)), false)

/-- A line of FP32 values passes whole to governor stage 1 (R221, R224). A dense operation names VERSION at its start. -/
def State.handLine (s : State) (m : MillId) (c : BoltCtx) (line : Nat) (vals : List W32) : State :=
  let first := match s.bolt m with | some o => !o.began | none => true
  let h := c.d.wdesc + (if c.d.sparse then 0 else 2 ^ 12) + 2 ^ 16 * c.op.step
  (s.addJob m 1 { handle := BitVec.ofNat 64 h, line := line, elem0 := 0, vals := vals, keep := vals.map fun _ => true, flushed := [],
                  hopper := none, op := c.op.id, pc := c.op.pc, slot := 5, system := c.op.system, first := first }).onBolt m fun o =>
    { o with began := true }

/-- The working copy of a line that the operation has come through: its masters rounded to FP32 (R221). -/
def copyLine (m : MillId) (c : BoltCtx) (line pos : Nat) : Blt Unit := do
  let ws ← (List.range c.d.length).mapM fun j => copyIn m c { line := line, pos := pos, elem := j }
  let vals := ws.map fun w => toF32F w.1
  modify fun s => (s.boltFlushes m (ws.countP (·.2)) (vals.countP (·.2))).handLine m c line (vals.map (·.1))

/-- The elements of a line from `first` on, one by one or block by block. -/
def boltLine (m : MillId) (c : BoltCtx) (line pos first delta t : Nat) (fresh : Bool) : Blt Unit := do
  let size := if c.r.pre then c.r.preB else 1
  (((List.range (c.d.length / size)).map (· * size)).filter (first ≤ ·)).forM fun j => do
    boltAt m pos j
    let x : Spot := { line := line, pos := pos, elem := j }
    if c.r.pre then boltBlock m c x t
    else if c.frozen line j then modify fun s => s.tally (.bolter m) 4 1
    else boltElem m c x delta t fresh
  boltAt m pos c.d.length

/-- A dense update of the lines from the one reached (R212). -/
def boltDense (m : MillId) (c : BoltCtx) : Blt Unit :=
  ((List.range c.d.lines).filter (c.op.line ≤ ·)).forM fun line => do
    boltLine m c line line (if line = c.op.line then c.op.elem else 0) 1 (c.op.step - c.r.t0 + 1) false
    if c.d.wcopy then copyLine m c line line
    boltAt m (line + 1) 0

/-! ## Factored statistics (R217) -/

/-- What the first sweep forms of an element: q := g × g + c11. -/
def sweepTerm (c : BoltCtx) (g w : Num) : Fl Num := do
  let g ← stepGrad c.r c.fg g w
  flAdd (← flMul g g) (c.r.co 11)

/-- An element of the first sweep: its line's sum and its column's sum take it in, unless it is not finite. -/
def sweepElem (m : MillId) (c : BoltCtx) (x : Spot) : Blt Unit := do
  boltAt m x.line x.elem
  let (g, sg) ← gradIn m c x
  let (w, sw) ← masterIn m c x
  match (← get).bolt m with
  | none => pure ()
  | some o =>
    let sum := f32 (o.rowStat.getD x.line 0)
    let col := f32 (o.colStat.getD x.elem 0)
    let run : Fl (Num × Num) := do
      if g.isFinite && w.isFinite then
        let q ← sweepTerm c g w
        pure (← flAdd sum q, ← flAdd col q)
      else pure (sum, col)
    let ((a, b), fl) := run.run 0
    modify fun s => (s.boltFlushes m (boolNat sg + boolNat sw) fl).onBolt m fun o =>
      { o with line := x.line, elem := x.elem + 1, rowStat := o.rowStat.set x.line (toF32 a), colStat := o.colStat.set x.elem (toF32 b) }

/-- The statistics between the sweeps: row statistics, column statistics and their mean. -/
def sweepStats (c : BoltCtx) (rOld cOld rows cols : List Num) : Fl (List Num × List Num × Num) := do
  let stat (o sum : Num) (n : Nat) : Fl Num := do
    flAdd (← flMul (← powFP (c.r.co 4) 1) o) (← flMul (c.r.co 5) (← flDiv sum (.ofInt n)))
  let r ← (rOld.zip rows).mapM fun (o, x) => stat o x c.d.length
  let col ← (cOld.zip cols).mapM fun (o, x) => stat o x c.d.lines
  let total ← r.foldlM flAdd (.zero false)
  pure (r, col, ← flDiv total (.ofInt c.d.lines))

/-- The first sweep of a factored operation from where it has come to: the sums, the statistics, their mean, and their writes. -/
def boltSweep (m : MillId) (c : BoltCtx) : Blt Unit := do
  let fit (l : List W32) (n : Nat) : List W32 := (List.range n).map fun i => l.getD i 0
  modify fun s => s.onBolt m fun o => { o with rowStat := fit o.rowStat c.d.lines, colStat := fit o.colStat c.d.length }
  ((List.range c.d.lines).filter (c.op.line ≤ ·)).forM fun i =>
    ((List.range c.d.length).filter fun j => decide (i ≠ c.op.line) || decide (c.op.elem ≤ j)).forM fun j =>
      sweepElem m c { line := i, pos := i, elem := j }
  boltAt m c.d.lines 0
  let rOld ← (List.range c.d.lines).mapM fun i => wordIn m { line := i, pos := i, elem := 0 } (c.d.s2 + 4 * i) 23
  let cOld ← (List.range c.d.length).mapM fun j => wordIn m { line := 0, pos := 0, elem := j } (c.d.s3 + 4 * j) 23
  match (← get).bolt m with
  | none => pure ()
  | some o =>
    let ((r, col, mean), fl) := (sweepStats c (rOld.map (·.1)) (cOld.map (·.1)) (o.rowStat.map f32) (o.colStat.map f32)).run 0
    let bytes (ns : List Num) : List Byte := ns.flatMap fun x => leBytes 4 (toF32 x).toNat
    bltWrite m 0 0 [(c.d.s2, bytes r), (c.d.s3, bytes col)]
    modify fun s =>
      ((s.barReplay m c).boltFlushes m ((rOld ++ cOld).countP (·.2)) fl).onBolt m fun o =>
        { o with sweep2 := true, line := 0, elem := 0, rowStat := r.map toF32, colStat := col.map toF32, mean := toF32 mean }

/-! ## Sparse rows (R213, R215, R216, R226) -/

/-- Virtual address of a row's ledger entry. -/
def State.rowEntry (s : State) (m : MillId) (c : BoltCtx) (row : Nat) : Nat :=
  4096 * s.fld64 (.ledger m) (0x100 + 0x10 * c.d.ledger) 12 52 + 16 * row

/-- A ledger entry (R225): the bits of its first eight bytes and COUNT. -/
def entryLast (e : Nat) : Nat := natBits e 0 48
def entryValid (e : Nat) : Bool := natBits e 48 1 == 1
def entryFrozen (e : Nat) : Bool := natBits e 49 1 == 1
def entryUpdating (e : Nat) : Bool := natBits e 50 1 == 1
def entryCount (e : Nat) : Nat := natBits e 96 32

/-- The index-list entry of a skip (R215). -/
def skipRow : Nat := 2 ^ 32 - 1

/-- The index-list entry at a position. -/
def indexIn (m : MillId) (c : BoltCtx) (pos : Nat) : Blt Nat := do
  pure (leNat (← bltRead m pos 0 (c.d.index + 4 * pos) 4))

/-- Does the operation hold the row? -/
def State.holdsRow (s : State) (m : MillId) (row : Nat) : Bool :=
  match s.bolt m with | some o => o.held.any (fun h => h.1 == row) | none => false

/-- What the entry of a row that the operation takes comes to (R213, R226): a wait for another unit that holds the row, or a fault. -/
def takeStop (step row pos e : Nat) : Option BltStop :=
  if entryUpdating e then some .wait
  else if entryValid e && entryLast e == step then some (.fault 4 pos 0 false)
  else if entryValid e && decide (step < entryLast e) then some (.fault 5 row 0 false)
  else none

/-- Takes a row: its entry is read and UPDATING set in one access. Answers the entry. -/
def takeRow (m : MillId) (c : BoltCtx) (row pos : Nat) : Blt Nat := do
  let va := (← get).rowEntry m c row
  let ps ← bltTry row 0 fun s => s.translateRange m va 16 true
  let a := (ps.headD (0, 0)).1
  let e := leNat (← bltTry row 0 fun s => s.ledgerRead (s.boltMover m) a 16)
  if entryFrozen e || (← get).holdsRow m row then pure e
  else match takeStop c.op.step row pos e with
    | some stop => throw stop
    | none =>
      modify fun s => (s.ledgerWrite a (leBytes 8 (e % 2 ^ 64 + 2 ^ 50))).onBolt m fun o => { o with held := o.held ++ [(row, a)] }
      pure e

/-- The row at a position of the index list has been updated: it is counted, and released unless its working copy is still to be
written. -/
def State.rowDone (s : State) (m : MillId) (c : BoltCtx) (row e : Nat) : State :=
  let s := s.tally (.bolter m) 1 1
  let s := s.tally (.bolter m) 2 (boolNat !(entryValid e))
  let s := s.tally (.bolter m) 3 (boolNat (entryValid e && decide (1 < c.op.step - entryLast e)))
  if c.d.wcopy then s else s.rowWritten m c.op.id row

/-- Updates the row at a position of the index list. -/
def boltRow (m : MillId) (c : BoltCtx) (row pos elem : Nat) : Blt Unit := do
  let e ← takeRow m c row pos
  if entryFrozen e then modify fun s => s.tally (.bolter m) 4 1
  else
    let fresh := !entryValid e
    boltLine m c row pos elem (if fresh then 0 else c.op.step - entryLast e) (if fresh then 1 else entryCount e + 1) fresh
    if c.d.wcopy then copyLine m c row pos
    modify fun s => s.rowDone m c row e

/-- A sparse update of the index list from the position reached (R215). -/
def boltSparse (m : MillId) (c : BoltCtx) : Blt Unit :=
  ((List.range c.d.count).filter (c.op.line ≤ ·)).forM fun pos => do
    let elem := if pos = c.op.line then c.op.elem else 0
    boltAt m pos elem
    let row ← indexIn m c pos
    if row ≠ skipRow then
      if c.d.lines ≤ row then throw (.fault 8 pos 0 false)
      if (match (← get).bolt m with | some o => o.rows.contains row | none => false) then throw (.fault 4 pos 0 false)
      boltRow m c row pos elem
      modify fun s => s.onBolt m fun o => { o with rows := o.rows ++ [row] }
    boltAt m (pos + 1) 0

/-- Bytes that the operation looks at before its first write: none where they cannot be read, which the operation then meets in its order. -/
def bltLook (m : MillId) (line va n : Nat) : Blt (Option (List Byte)) := do
  let (r, s) := (← get).translateRange m va n false
  set s
  match r with
  | .ok ps => pure (some (ps.flatMap fun (a, l) => s.physRead a l))
  | .error (.xlat c v) => if resolvable c then throw (.page c (v / pageSize) line 0) else pure none
  | .error (.bad _ _) => pure none
  | .error .wait => throw .wait

/-- The row at a position of the index list is compared with the step (R213, R231). -/
def lookRow (m : MillId) (c : BoltCtx) (pos : Nat) : Blt Unit := do
  match ← bltLook m pos (c.d.index + 4 * pos) 4 with
  | none => pure ()
  | some bs =>
    let row := leNat bs
    if row < c.d.lines then
      match ← bltLook m row ((← get).rowEntry m c row) 16 with
      | none => pure ()
      | some bs =>
        let e := leNat bs
        if !entryFrozen e then
          if entryUpdating e then throw .wait
          if entryValid e && decide (c.op.step < entryLast e) then throw (.fault 5 row 0 false)

/-- No row of a sparse update is ahead of the step (R231), and its gate is open: both before its first write. -/
def rowsBehind (m : MillId) (c : BoltCtx) : Blt Unit := do
  if c.d.sparse && !c.d.emit then (List.range c.d.count).forM (lookRow m c)

/-! ## Emit operations (R222) -/

/-- An emit writes the working copy from the masters. -/
def boltEmit (m : MillId) (c : BoltCtx) : Blt Unit :=
  ((List.range (if c.d.sparse then c.d.count else c.d.lines)).filter (c.op.line ≤ ·)).forM fun pos => do
    boltAt m pos 0
    let row ← if c.d.sparse then indexIn m c pos else pure pos
    if !c.d.sparse || row ≠ skipRow then
      if c.d.lines ≤ row then throw (.fault 8 pos 0 false)
      copyLine m c row pos
    boltAt m (pos + 1) 0

/-! ## The start (R204, R206, R212, R223) -/

/-- The contract faults of R206 and R223. `w` is the governor descriptor of the working copy. -/
def ruleConflict (s : State) (m : MillId) (bs : List Byte) (c : BoltCtx) (w : GDesc) : Bool :=
  let d := c.d
  let size := s.fld (.ledger m) (0x100 + 0x10 * d.ledger + 8) 0 26
  let base := 4096 * s.fld64 (.ledger m) (0x100 + 0x10 * d.ledger) 12 52
  bdescReserved bs || (d.emit && !d.wcopy)
    || (!d.emit && ((c.r.fact || c.r.pre) && (d.sparse || d.mask != 0)))
    || (!d.emit && c.r.pre && d.length % c.r.preB != 0)
    || (d.sparse && decide (size < d.lines))
    || (d.wcopy && (w.lines != d.lines || w.length != d.length || w.sparse != d.sparse || (d.sparse && w.ledger != base)))

/-- The operation as it stands once it has latched its descriptor, rule row and mask. -/
def State.latched (s : State) (m : MillId) (o : UpdateOp) (bs : List Byte) : UpdateOp :=
  let d := parseBDesc bs
  let words (off : Nat) : List W32 := (List.range 8).map fun i => s.word (.race m) (0x400 + 0x40 * d.mask + off + 4 * i)
  { o with desc := bs, rule := s.ruleWords m d.rule, kmask := words 0, nmask := words 0x20 }

/-- Latches what the operation needs. -/
def boltLatch (m : MillId) (o : UpdateOp) : Blt Unit := do
  let va := (← get).fld64 (.bolter m) 0x108 7 57 * 128 + 128 * o.bdesc
  let bs ← bltRead m 0 0 va 128
  let o' := (← get).latched m o bs
  let c := boltCtx o'
  let w ← if c.d.wcopy then do
      let va := (← get).gdescAddr m c.d.wdesc
      pure (parseGDesc c.d.wdesc va (← bltRead m 0 0 va 64))
    else pure (parseGDesc 0 0 [])
  if ruleConflict (← get) m bs c w then throw (.fault 7 0 0 false)
  if !c.d.emit && !c.d.sparse && decide (o.step < c.r.t0) then throw (.fault 6 0 0 false)
  if !c.d.emit then
    modify fun s =>
      let s := s.boltFlushes m (ruleSubs o'.rule o.fg o.flr) 0
      if c.d.groupV then s.onGroup c.d.group fun g => if g.updStep.isNone then { g with updStep := some o.step } else g else s
  modify fun s => s.onBolt m fun _ => o'

/-- The step gate (R229, R230): open for the steps below the group's open step. An operation of another step than the gate's, or
at a gate that STEP_SKEW holds shut, ends in STEP_SKEW, one of a step retracted four times in RETRACT_LIMIT; any other waits. -/
def boltGate (m : MillId) (c : BoltCtx) : Blt Unit := do
  if c.d.groupV && !c.d.emit then
    let (inj, s) := (← get).takeInj (.bolter m) 3
    set s
    if inj then throw (.fault 5 0 0 true)
    match s.group c.d.group with
    | none => throw .gate
    | some g =>
      if c.op.step < g.open_ then pure ()
      else if 4 ≤ cellGet 0 c.op.step g.runs then throw (.retracted g.idx)
      else if g.open_ < c.op.step || g.skew then throw (.fault 5 0 0 false)
      else throw .gate

/-- What must hold before the operation's first write (R229 to R231); it is asked until it holds. -/
def boltCheck (m : MillId) (c : BoltCtx) : Blt Unit := do
  if !c.op.checked then
    rowsBehind m c
    boltGate m c
    modify fun s => s.onBolt m fun o => { o with checked := true }

/-- The update of a dense tensor: under FACT the first sweep comes before it. -/
def boltPlain (m : MillId) (c : BoltCtx) : Blt Unit := do
  if c.r.fact && !c.op.sweep2 then boltSweep m c
  match (← get).bolt m with
  | some o => boltDense m (boltCtx o)
  | none => pure ()

/-- The body of an operation, from where it has come to. -/
def boltBody (m : MillId) : Blt Unit := do
  match (← get).bolt m with
  | none => pure ()
  | some o =>
    let c := boltCtx o
    boltCheck m c
    if c.d.emit then boltEmit m c else if c.d.sparse then boltSparse m c else boltPlain m c

/-- What an operation does from where it has come to: it latches what it needs first. -/
def boltWork (m : MillId) (o : UpdateOp) : Blt Unit := do
  if o.desc.isEmpty then boltLatch m o
  boltBody m

/-! ## Faults, parks and completion (R232, R234, R235) -/

def bltContract (cause : Nat) : Bool := cause == 4 || cause == 7

/-- Fills the bolter's fault record. -/
def State.bltRecord (s : State) (m : MillId) (o : UpdateOp) (cause line elem : Nat) : State :=
  let p : Page := .bolter m
  s.record p 0x144 fun s =>
    let s := (s.setWord p 0x140 (s.seq m)).setWord p 0x144 (BitVec.ofNat 32 (o.bdesc + 2 ^ 12 * cause))
    (s.setWord p 0x148 (BitVec.ofNat 32 line)).setWord p 0x14C (BitVec.ofNat 32 elem)

/-- The events of a fault of the bolter (R236). -/
def State.bltRaise (s : State) (m : MillId) (cause : Nat) : State :=
  let p : Page := .bolter m
  if cause = 5 then (s.tally p 13 1).raise p 1 else if cause = 4 then s.raise p 2 else s.raise p 0

/-- An operation ends in a fault: its event, record and the report to the miller (R232, R636). -/
def State.bltFault (s : State) (m : MillId) (o : UpdateOp) (cause line elem : Nat) (injected : Bool) : State :=
  (((s.bltRaise m cause).bltRecord m o cause line elem).dropUpdate m o).report m
    { kind := if bltContract cause then .contract else .command, system := o.system, page := .bolter m, cause := cause,
      res := BitVec.ofNat 64 o.bdesc, opnd := BitVec.ofNat 64 (elem + 2 ^ 32 * line), pc := o.pc, slot := 5, issue := false,
      injected := injected }

/-- Fills the Leat record (R396). -/
def State.leatRecord (s : State) (group rank cause step : Nat) (seq : W32) : State :=
  s.record .leat 0x150 fun s =>
    ((s.setWord .leat 0x150 (BitVec.ofNat 32 (group + 2 ^ 12 * rank + 2 ^ 28 * cause))).setWord .leat 0x154 seq).setWord64 .leat 0x158
      (BitVec.ofNat 64 (step % 2 ^ 48))

/-- A fault of the Leat page that ends an operation (R397, R636): the event, the record and the report. -/
def State.leatFault (s : State) (m : MillId) (system : Bool) (group rank cause step : Nat) (pc : W64) (slot : Nat) : State :=
  let s := if cause = 3 then s else s.raise .leat 6
  let s := s.leatRecord group rank cause step (if system then 0 else s.seq m)
  s.report m { kind := if cause = 1 then .contract else .command, system := system, page := .leat, cause := cause,
               res := BitVec.ofNat 64 (group + 2 ^ 12 * rank), opnd := BitVec.ofNat 64 step, pc := pc, slot := slot, issue := false,
               injected := false }

/-- A stage writes the jobs it holds, up to one that holds. -/
def State.runJobs (s : State) (m : MillId) (stage : Nat) : List LineJob → State
  | [] => s
  | j :: rest =>
    let t := s.runJob m stage j rest
    if t.stageJobs m stage = rest then t.runJobs m stage rest else t

/-- An operation that has met a fault ends in it once the lines of the working copy before the fault are written (R215, R232). -/
def State.bltEnd (s : State) (m : MillId) (o : UpdateOp) (cause line elem : Nat) (injected : Bool) : State :=
  let s := s.runJobs m 1 (s.stageJobs m 1)
  if (s.stageJobs m 1).isEmpty then s.bltFault m o cause line elem injected
  else s.onBolt m fun o => { o with phase := .waiting, ending := some (cause, line, elem, injected) }

/-- An operation is stopped by a page fault (R232): where it is, it goes on when the fault is resolved. -/
def State.bltStall (s : State) (m : MillId) (cause vpage line elem : Nat) : State :=
  s.onBolt m fun o =>
    { o with phase := .stalled, pageCause := cause, pageAt := vpage, stopLine := line, stopElem := elem,
             quiet := cause == 3 && s.copierParks }

/-- Where a run of the operation has come to. -/
def State.bltSettle (s : State) (m : MillId) : Except BltStop Unit → State
  | .ok () => s.onBolt m fun o => { o with phase := .finished }
  | .error .gate => s.onBolt m fun o => { o with phase := .gate }
  | .error .wait => s.onBolt m fun o => { o with phase := .waiting }
  | .error (.retracted group) =>
    match s.bolt m with
    | some o => (s.dropUpdate m o).leatFault m o.system group 0 3 o.step o.pc 5
    | none => s
  | .error (.page cause v line elem) => s.bltStall m cause v line elem
  | .error (.fault cause line elem inj) =>
    match s.bolt m with
    | some o => s.bltEnd m o cause line elem inj
    | none => s

/-- Runs the head operation from where it has come to, up to its end, its gate, a hold, a page fault or its fault. -/
def State.boltRun (s : State) (m : MillId) (o : UpdateOp) : State :=
  match o.ending with
  | some (cause, line, elem, inj) => s.bltEnd m o cause line elem inj
  | none =>
    let (r, s) := (boltWork m o).run.run s
    s.bltSettle m r

/-- UPDATE_START: the bolter begins the next operation, or goes on with one that has waited. -/
def updateStart (m : MillId) (codes : List Ecc) (s : State) : State :=
  if s.halted || !s.pageLive (.bolter m) then s
  else match s.bolt m with
    | none => s
    | some o => if o.phase = .waiting ∨ o.phase = .gate then s.coded codes fun s => s.boltRun m o else s

/-- UPDATE_START. -/
def execUpdateStart (m : MillId) (codes : List Ecc) (s : State) : Host.Outcome State Fault Refusal := .next (updateStart m codes s)

/-- BOLT_PARK: an operation stopped by a page fault parks with its line and element (R232). The park that the copier resolves
alone raises no event, and counts in WP_PARKS too (R253). -/
def boltPark (m : MillId) (s : State) : State :=
  match s.bolt m with
  | none => s
  | some o =>
    if s.halted || o.phase != .stalled then s
    else
      let s := ((s.bltRecord m o 1 o.stopLine o.stopElem).tally (.bolter m) 12 1).ctrlMsg m 1
      let s := s.onBolt m fun o => { o with phase := .parked }
      if o.quiet then s.tally (.sluice m) 10 1 else s.raise (.bolter m) 5

/-- BOLT_PARK. -/
def execBoltPark (m : MillId) (s : State) : Host.Outcome State Fault Refusal := .next (boltPark m s)

/-- A parked operation resumes where it stopped; under the brake it waits for its release. -/
def State.boltContinue (s : State) (m : MillId) : State :=
  match s.bolt m with
  | none => s
  | some o =>
    if o.phase != .parked then s
    else
      let s := s.onBolt m fun o => { o with phase := .waiting, quiet := false }
      if s.halted then s else s.boltRun m o

/-- The copier alone resolves the page fault of an operation: one on WRITE_PROTECT while a copy holds, copies or sends (R253, R235). -/
def State.copierKeeps (s : State) (o : UpdateOp) : Bool := o.pageCause == 3 && s.copierParks

/-- BOLT_RESUME (R235): whether the write is accepted, and the state after it. -/
def State.boltResumeWrite (s : State) (m : MillId) : Bool × State :=
  match s.bolt m with
  | some o => if o.phase = .parked ∧ !s.copierKeeps o then (true, s.boltContinue m) else (false, s)
  | none => (false, s)

/-- UPDATE_COMPLETE: every master, state word and working-copy line is written. -/
def updateComplete (m : MillId) (s : State) : State :=
  match s.bolt m with
  | none => s
  | some o =>
    if s.halted || o.phase != .finished || !o.held.isEmpty || (s.stageJobs m 1).any (fun j => j.op == o.id) then s
    else
      let s := s.onBolter m fun b => { b with ops := b.ops.drop 1 }
      let s := { s with pond := { s.pond with lastStep := o.step } }
      let s := (s.tally (.bolter m) 14 1).raise (.bolter m) 6
      match o.post with
      | some ctr => s.enginePost m (ctxOf o.system) ctr 1
      | none => s

/-- UPDATE_COMPLETE. -/
def execUpdateComplete (m : MillId) (s : State) : Host.Outcome State Fault Refusal := .next (updateComplete m s)

end Sys2Proof.Machine
end

