-- ==== Sys2Proof/Machine/Log.lean ====
section
/-! DEFINITION. The log of a mill and the latches at command boundaries (R535 to R549, R562): samples, triggers, the spill ring,
latch records. -/

namespace Sys2Proof.Machine

/-! ## Samples (R541, R542) -/

/-- A stall code with the resource, detail, count and target that a sample gives with it (R542). -/
structure Stall where
  code   : Nat
  res    : Nat
  detail : Nat
  count  : W32
  target : W32
deriving DecidableEq, Repr

/-- The next bundle is not held, or the context is at END (R310). -/
def Stall.none_ : Stall := { code := 0, res := 0, detail := 0, count := 0, target := 0 }
def Stall.end_ : Stall := { Stall.none_ with code := 10 }

/-- The state of a log (R543): off while it samples no context. -/
def State.logState (s : State) (m : MillId) : LogState := if s.fld (.log m) 0x100 0 2 = 0 then .off else (s.mill m).log.st

/-- Is a context sampled (LOG_CFG.CTX)? -/
def State.logsCtx (s : State) (m : MillId) (c : Ctx) : Bool :=
  s.pageLive (.log m) && s.bit (.log m) 0x100 (match c with | .user => 0 | .system => 1)

/-- The 32 bytes of a sample (R541). -/
def sampleBits (time : W64) (pc : Nat) (sys post trig hold : Bool) (run : Nat) (seq : W32) (x : Stall) : BitVec 256 :=
  BitVec.ofNat 256
    (time.toNat + 2 ^ 64 * (pc % 2 ^ 48 + 2 ^ 48 * boolNat sys + 2 ^ 49 * boolNat post + 2 ^ 50 * boolNat trig + 2 ^ 51 * boolNat hold
        + 2 ^ 52 * (run % 4))
      + 2 ^ 128 * (seq.toNat + 2 ^ 32 * (x.code % 16 + 16 * (x.res % 16) + 256 * (x.detail % 32)))
      + 2 ^ 192 * (x.count.toNat + 2 ^ 32 * x.target.toNat))

/-- Samples that the spill ring holds. -/
def Log.spillCap (l : Log) : Nat := 65536 * l.spillUnits

/-- Appends a sample to the spill ring, or loses it where the staging slice is full (R547, R548). -/
def State.spill (s : State) (m : MillId) (x : BitVec 256) : State :=
  if !s.bit (.log m) 0x100 7 then s
  else
    let l := (s.mill m).log
    let (full, s) := s.takeInj (.log m) 1
    if full ∨ l.spillCap = 0 then
      let s := s.tally (.log m) 2 1
      if l.lostSeen then s else (s.onLog m fun l => { l with lostSeen := true }).raise (.log m) 2
    else
      let s := s.physWrite (l.spillBase + 32 * l.spillHead) (leBytes 32 x.toNat)
      (s.onLog m fun l => { l with spillHead := (l.spillHead + 1) % l.spillCap }).tally (.log m) 3 1

/-- Is it a trigger sample (TRIG of R541)? -/
def sampleTrig (x : BitVec 256) : Bool := x.getLsbD 114

/-- Writes a sample of a context's next bundle (R541, R544). A trigger sample begins the post state. -/
def State.logSample (s : State) (m : MillId) (c : Ctx) (x : Stall) (hold trig : Bool) : State :=
  let st := s.logState m
  if !s.pageLive (.log m) || st == .off || st == .captured then s
  else
    let p : Page := .log m
    let post := st == .post
    let k := (s.mill m).miller.ctx c
    let sys := c == .system
    let bits := sampleBits s.time k.pc.toNat sys post trig hold (if sys then 0 else (s.mill m).miller.run) (if sys then 0 else s.seq m) x
    let s := if trig then s.onLog m fun l => { l with spillTrig := l.spillHead } else s
    let s := s.onLog m fun l => if post ∧ 8191 ≤ l.age then l else { l with ring := (bits :: l.ring).take 8192 }
    let s := (s.tally p 0 1).tally p 1 (boolNat hold)
    let s := s.spill m bits
    if trig then
      let n := s.fld p 0x114 0 24
      let s := (s.onLog m fun l => { l with st := if n = 0 then .captured else .post, age := 0, postLeft := n, trigNow := false }).tally p 4 1
      let s := s.raise p 0
      if n = 0 then s.raise p 1 else s
    else if post then
      let last := decide ((s.mill m).log.postLeft ≤ 1)
      let s := s.onLog m fun l => { l with age := l.age + 1, postLeft := l.postLeft - 1, st := if last then .captured else .post }
      if last then s.raise p 1 else s
    else s.onLog m fun l => if 0 < l.age ∨ (l.ring.drop 1).any sampleTrig then { l with age := l.age + 1 } else l

/-- The sample due when a context has issued a bundle at `pc` (R541, R543): at each 2^INTERVAL-th bundle, unless the trigger sample is
to be written for the same bundle (R560). `next` is the stall of the context's next bundle. -/
def State.logIssue (s : State) (m : MillId) (c : Ctx) (pc : W64) (count : Nat) (next : Stall) : State :=
  if !s.logsCtx m c then s
  else
    let s := if s.trigKind m = 1 ∧ s.fld64 (.log m) 0x108 0 48 = pc.toNat then s.logTrigger m else s
    if (s.mill m).log.trigNow || count % 2 ^ s.fld (.log m) 0x100 2 5 != 0 then s
    else s.logSample m c next false false

/-- LOG_TRIGGERED: an armed log whose condition has occurred writes its trigger sample. -/
def logTriggered (m : MillId) (s : State) : State :=
  let l := (s.mill m).log
  if s.logState m != .armed || !l.trigNow then s
  else s.logSample m (if s.bit (.log m) 0x100 0 then .user else .system) Stall.none_ false true

/-- LOG_TRIGGERED. -/
def execLogTriggered (m : MillId) (s : State) : Host.Outcome State Fault Refusal := .next (logTriggered m s)

/-! ## LOG_CTL (R543 to R545) -/

/-- ARM: whether it is accepted, and the state after it. -/
def State.logArm (s : State) (m : MillId) : Bool × State :=
  let l := (s.mill m).log
  let limit := if s.bit (.log m) 0x100 7 then l.spillCap - 1 else 8191
  if limit < s.fld (.log m) 0x114 0 24 ∨ l.st = .post then (false, s)
  else (true, s.onLog m fun l => { l with st := .armed, trigNow := false, lostSeen := false })

/-- RUN: leaves the captured or armed state for running. -/
def State.logRun (s : State) (m : MillId) : Bool × State :=
  if (s.mill m).log.st = .post then (false, s) else (true, s.onLog m fun l => { l with st := .running, trigNow := false })

/-- TRIG_NOW: the trigger of KIND 5. -/
def State.logTrigNow (s : State) (m : MillId) : State := if s.trigKind m = 5 then s.logTrigger m else s

/-- The words of the sample at LOG_RD_IDX, newest first (R549); a slot never written reads 0. -/
def State.logWords (s : State) (m : MillId) : List W32 :=
  let x := ((s.mill m).log.ring[s.fld (.log m) 0x140 0 13]?).getD 0
  (List.range 8).map fun i => BitVec.ofNat 32 (x.toNat / 2 ^ (32 * i))

/-! ## Latches (R535 to R540) -/

/-- The pages of a latch: those of the mill and the module-common ones that have tallies, in directory order. -/
def latchPages (m : MillId) : List Page := (modulePages ++ millPages m).filter fun p => decide (0 < p.tallies)

/-- The bytes of a latch record's page entry. -/
def State.latchEntry (s : State) (p : Page) : List Byte :=
  leBytes 4 p.id.toNat ++ leBytes 4 (s.word p 0x030).toNat ++ (List.range 16).flatMap fun k => leBytes 8 (s.tallyOf p k).toNat

/-- The areas of the log take effect at a command boundary (R562). A ring that changes begins at its start. -/
def State.logAreas (s : State) (m : MillId) : State :=
  let p : Page := .log m
  let base := pageSize * s.fld64 p 0x180 21 23
  let units := s.fld p 0x188 0 8
  let sbase := pageSize * s.fld64 p 0x120 21 23
  let sunits := s.fld p 0x128 0 8
  s.onLog m fun l =>
    let l := if l.latBase = base ∧ l.latUnits = units then l else { l with latBase := base, latUnits := units, latHead := 0, latRecs := 0 }
    if l.spillBase = sbase ∧ l.spillUnits = sunits then l
    else { l with spillBase := sbase, spillUnits := sunits, spillHead := 0, spillTrig := 0 }

/-- Takes a latch: KIND 1 START or 2 END, with the status of an END. LAT_COUNT and CUR_SEQ follow R538, and with a ring the record is
written (R539, R540). -/
def State.latch (s : State) (m : MillId) (seq : W32) (kind run : Nat) (spliced : Bool) (status : Nat) : State :=
  let p : Page := .log m
  let s := s.onLog m fun l => if kind = 1 ∧ 0 < run then l else { l with latCount := l.latCount + 1, curSeq := seq }
  let s := s.tally p 6 1
  let l := (s.mill m).log
  let pages := latchPages m
  let len := (64 + 136 * pages.length + 511) / 512 * 512
  let ring := pageSize * l.latUnits
  if ring < len then s
  else
    let at_ := if ring < l.latHead + len then 0 else l.latHead
    let head := leBytes 4 seq.toNat
      ++ leBytes 4 (kind + 4 * (run % 4) + 16 * m.num + 32 * boolNat spliced + 64 * status)
      ++ leBytes 4 (s.tallyOf .supply 5).toNat ++ leBytes 4 pages.length ++ leBytes 8 s.time.toNat ++ leBytes 8 len
      ++ List.replicate 32 0
    let s := s.physWrite (l.latBase + at_) (head ++ pages.flatMap s.latchEntry)
    let s := s.tally p 7 (boolNat (decide (ring / len ≤ l.latRecs)))
    let s := s.tally p 9 len
    s.onLog m fun l => { l with latHead := at_ + len, latRecs := l.latRecs + 1 }

end Sys2Proof.Machine
end

