-- ==== Sys2Proof/Machine/Sluice.lean ====
section
/-! DEFINITION. The sluices (chapter 07): descriptors, chunks, granules and tokens, parks and faults in mid-transfer,
invalidation of translations, the weight cache, the scrub, and the granary's boundary change. -/

namespace Sys2Proof.Machine

/-! ## Descriptors (R242, R243, R258, R261) -/

/-- A sluice descriptor (R258), with the counts of unused dimensions read as 1. -/
structure SDesc where
  tctr    : Nat
  queue   : Nat
  dims    : Nat
  gather  : Bool
  scatter : Bool
  chunk   : Nat
  gran    : Bool
  limit   : Nat
  src     : Nat
  dst     : Nat
  counts  : List Nat
  sstr    : List Int
  dstr    : List Int
  index   : Nat
deriving DecidableEq, Repr

/-- The `n`-byte number at an offset of a byte string. -/
def fieldAt (bs : List Byte) (off n : Nat) : Nat := leNat ((bs.drop off).take n)

/-- Replaces the bytes at an offset. -/
def putBytes (bs : List Byte) (off : Nat) (new : List Byte) : List Byte := bs.take off ++ new ++ bs.drop (off + new.length)

def parseDesc (bs : List Byte) : SDesc :=
  let w0 := fieldAt bs 0 4
  let dims := natBits w0 8 3
  { tctr := natBits w0 0 4, queue := natBits w0 4 4, dims := dims, gather := natBits w0 11 1 == 1,
    scatter := natBits w0 12 1 == 1, chunk := 512 * 2 ^ natBits w0 13 2, gran := natBits w0 15 1 == 1,
    limit := fieldAt bs 4 4, src := fieldAt bs 8 8, dst := fieldAt bs 16 8,
    counts := (List.range 5).map fun k => if k < dims then fieldAt bs (0x18 + 4 * k) 4 else 1,
    sstr := (List.range 4).map fun k => signedBits (fieldAt bs (0x30 + 8 * k) 8) 64,
    dstr := (List.range 4).map fun k => signedBits (fieldAt bs (0x50 + 8 * k) 8) 64,
    index := fieldAt bs 0x70 8 }

/-- A 64-bit two's complement number. -/
def word64Of (x : Int) : Nat := intBits 64 x

/-- Bytes of the whole transfer. -/
def SDesc.total (d : SDesc) : Nat := d.counts.foldl (· * ·) 1
/-- Chunks of the transfer (R262). -/
def SDesc.chunks (d : SDesc) : Nat := (d.total + d.chunk - 1) / d.chunk

def spaceOf (a : Nat) : Nat := natBits a 60 4

/-- The faults of R261, cause DESC. -/
def descMalformed (bs : List Byte) : Bool :=
  let d := parseDesc bs
  let indexed := d.gather || d.scatter
  natBits (fieldAt bs 0 4) 16 16 != 0 || fieldAt bs 0x2C 4 != 0 || fieldAt bs 0x78 8 != 0 || d.dims == 0 || decide (5 < d.dims)
    || d.counts.contains 0 || decide (2 ^ 40 < d.total) || (indexed && (decide (d.dims < 2) || d.limit == 0))

/-- The address faults of R243 that an end shows by itself, cause ADDR, where `pin` bytes of the granary are pinned. -/
def endMalformed (system : Bool) (pin a : Nat) : Bool :=
  match spaceOf a with
  | 0 => false
  | 1 => decide (23 < natBits a 24 5) || natBits a 23 1 != 0 || natBits a 29 31 != 0 || decide (0x600000 ≤ natBits a 0 23)
  | 2 => natBits a 27 33 != 0 || decide (pin ≤ natBits a 0 27)
  | 3 => natBits a 4 12 != 0
  | 8 => !system
  | _ => true

def descBadAddr (system : Bool) (pin : Nat) (bs : List Byte) : Bool :=
  let d := parseDesc bs
  let local_ (a : Nat) : Bool := spaceOf a == 1 || spaceOf a == 2
  (local_ d.src && local_ d.dst) || spaceOf d.src == 3 || endMalformed system pin d.src || endMalformed system pin d.dst
    || ((d.gather || d.scatter) && spaceOf d.index != 0 && (spaceOf d.index != 8 || !system))

/-! ## Iteration (R259, R260) -/

/-- The coordinates of the byte at a position of the iteration order. -/
def SDesc.coords (d : SDesc) (pos : Nat) : List Nat :=
  ((List.range 5).foldl (fun (acc : List Nat × Nat) k =>
    let c := d.counts.getD k 1
    (acc.1 ++ [if c = 0 then 0 else acc.2 % c], if c = 0 then 0 else acc.2 / c)) ([], pos)).1

/-- The address field of an end plus its offset at some coordinates, with the dimension-1 index `x`. -/
def endAddr (base : Nat) (strides : List Int) (i : List Nat) (x : Nat) : Int :=
  (base : Int) + i.getD 0 0 + (x : Int) * strides.getD 0 0 + (i.getD 2 0 : Int) * strides.getD 1 0
    + (i.getD 3 0 : Int) * strides.getD 2 0 + (i.getD 4 0 : Int) * strides.getD 3 0

/-- The address field of an end (R242). -/
def endBase (a : Nat) : Nat :=
  match spaceOf a with
  | 0 => natBits a 0 60
  | 1 => natBits a 0 23
  | 2 => natBits a 0 27
  | 8 => natBits a 0 60
  | _ => 0

/-- The runs of a chunk: position of the first byte and length, cut where dimension 0 begins again. -/
def runsOf (d : SDesc) : (fuel pos stop : Nat) → List (Nat × Nat)
  | 0, _, _ => []
  | k + 1, pos, stop =>
    if stop ≤ pos then []
    else
      let c := max 1 (d.counts.getD 0 1)
      let l := min (c - pos % c) (stop - pos)
      (pos, l) :: runsOf d k (pos + l) stop

/-- A fault met while a chunk is translated: its code in PK_CAUSE, its side and its address. -/
structure ChunkFault where
  cause : Nat
  side  : Nat
  addr  : Nat
  contract : Bool
  injected : Bool
deriving DecidableEq, Repr

/-- Why a chunk is not issued: it waits for a memory port that accepts nothing (R269), or it has met a fault. -/
inductive PlanStop where
  | wait
  | fault (f : ChunkFault)
deriving DecidableEq, Repr

/-- One translation of a queue, with the injections of R279: an injected cause, or what the translation gives. -/
def State.queueTranslate (s : State) (m : MillId) (q : Nat) (va : Nat) (write : Bool) : Xlat × Bool × State :=
  let (i1, s) := s.takeInjAt (.sluice m) 1 q
  if i1 then (.err 1, true, s)
  else
    let (i2, s) := if write then s.takeInj (.sluice m) 2 else (false, s)
    if i2 then (.err 3, true, s)
    else
      let (r, s) := s.translate m va write
      (r, false, s)

/-- Translates the pages of a run of a virtual end: its pieces in memory, and the pages. -/
def State.placePages (s : State) (m : MillId) (q side : Nat) : List (Nat × Nat) → Except PlanStop (List (Loc × Nat) × List Nat) × State
  | [] => (.ok ([], []), s)
  | (va, n) :: rest =>
    match s.queueTranslate m q va (side == 1) with
    | (.wait, _, s) => (.error .wait, s)
    | (.err c, inj, s) => (.error (.fault { cause := c, side := side, addr := va, contract := false, injected := inj }), s)
    | (.ok a, _, s) =>
      match s.placePages m q side rest with
      | (.error e, s) => (.error e, s)
      | (.ok (ls, vs), s) => (.ok ((.mem a, n) :: ls, va / pageSize :: vs), s)

/-- Where one end of a run lies: in a hopper, the granary or memory, with the virtual pages of it, or the fault it meets. A negative
address is recorded in two's complement. -/
def State.placeRun (s : State) (m : MillId) (q : Nat) (end_ : Nat) (addr : Int) (len : Nat) (side : Nat) :
    Except PlanStop (List (Loc × Nat) × List Nat) × State :=
  let fault (c : Nat) (contract : Bool) : PlanStop :=
    .fault { cause := c, side := side, addr := word64Of addr, contract := contract, injected := false }
  match spaceOf end_ with
  | 1 =>
    if addr < 0 ∨ 0x600000 < addr + len then (.error (fault 11 true), s)
    else (.ok ([(.hopper (hopperKey m (natBits end_ 24 5) addr.toNat), len)], []), s)
  | 2 =>
    if addr < 0 ∨ (s.pinBytes m : Int) < addr + len then (.error (fault 11 true), s)
    else (.ok ([(.granary (granaryKey m addr.toNat), len)], []), s)
  | 3 => (.ok ([(.leat, len)], []), s)
  | 8 =>
    if addr < 0 ∨ s.inMem addr.toNat len = false then (.error (fault 5 false), s)
    else (.ok ([(.mem addr.toNat, len)], []), s)
  | _ =>
    if natBits end_ 48 12 ≠ 0 ∨ addr < 0 ∨ (2 ^ 48 : Int) < addr + len then (.error (fault 4 false), s)
    else s.placePages m q side (pageParts (len / pageSize + 2) addr.toNat len)

/-- Reads words of a list of pieces at their ports. -/
def State.piecesRead (s : State) (m : MillId) : List (Loc × Nat) → PortOut × State
  | [] => (.ok, s)
  | (.mem a, n) :: rest =>
    match s.portRead m a n with
    | (.ok, s) => s.piecesRead m rest
    | r => r
  | _ :: rest => s.piecesRead m rest

/-- The index of position `i1` of the list (R259), or the fault its read meets. -/
def State.readIndex (s : State) (m : MillId) (q : Nat) (d : SDesc) (i1 : Nat) : Except PlanStop (Nat × List Nat) × State :=
  let addr : Int := (endBase d.index : Int) + 4 * i1
  let fault (c a : Nat) (inj : Bool) : PlanStop := .fault { cause := c, side := 2, addr := a, contract := false, injected := inj }
  match s.placeRun m q d.index addr 4 2 with
  | (.error e, s) => (.error e, s)
  | (.ok (ls, vs), s) =>
    match s.piecesRead m ls with
    | (.wait, s) => (.error .wait, s)
    | (.bad w inj, s) => (.error (fault 10 w inj), s)
    | (.ok, s) =>
      let (inj, s) := s.takeInj (.sluice m) 3
      let x := if inj then d.limit else leNat (ls.flatMap fun (l, n) => s.locRead l n)
      if x ≠ 2 ^ 32 - 1 ∧ d.limit ≤ x then (.error (fault 9 (word64Of addr) inj), s) else (.ok (x, vs), s)

/-- Two lists of pieces of one run, cut to common lengths. -/
def zipPieces : (fuel : Nat) → List (Loc × Nat) → List (Loc × Nat) → List Seg
  | 0, _, _ => []
  | _ + 1, [], _ => []
  | _ + 1, _, [] => []
  | k + 1, (a, n) :: xs, (b, l) :: ys =>
    let c := min n l
    { src := a, dst := b, len := c } ::
      zipPieces k (if c < n then (a.plus c, n - c) :: xs else xs) (if c < l then (b.plus c, l - c) :: ys else ys)

/-- What the translation of a chunk has found so far. -/
structure ChunkPlan where
  segs   : List Seg
  vpages : List Nat
  rows   : Nat
  skips  : Nat
deriving DecidableEq, Repr

/-- The index of a run of a transfer with GATHER or SCATTER, and the run's own coordinate else. -/
def State.runIndex (s : State) (m : MillId) (q : Nat) (d : SDesc) (i1 : Nat) : Except PlanStop (Nat × List Nat) × State :=
  if d.gather || d.scatter then s.readIndex m q d i1 else (.ok (i1, []), s)

/-- One end of a run, `nowhere` where it moves nothing (R260). -/
def State.placeEnd (s : State) (m : MillId) (q end_ : Nat) (addr : Int) (len side : Nat) (skip : Bool) :
    Except PlanStop (List (Loc × Nat) × List Nat) × State :=
  if skip then (.ok ([(.nowhere, len)], []), s) else s.placeRun m q end_ addr len side

/-- Translates one run of a chunk: its index where dimension 1 is indexed, then its source and its destination. A fetch for the race has
no destination here. -/
def State.planRun (s : State) (m : MillId) (q : Nat) (d : SDesc) (fetch : Bool) (p : ChunkPlan) (run : Nat × Nat) :
    Except PlanStop ChunkPlan × State :=
  let i := d.coords run.1
  let i1 := i.getD 1 0
  match s.runIndex m q d i1 with
  | (.error e, s) => (.error e, s)
  | (.ok (x, vs0), s) =>
    let indexed := d.gather || d.scatter
    let skip := indexed && x == 2 ^ 32 - 1
    let starts := indexed && i.getD 0 0 == 0
    let from_ := endAddr (endBase d.src) d.sstr i (if d.gather then x else i1)
    let dest_ := endAddr (endBase d.dst) d.dstr i (if d.scatter then x else i1)
    match s.placeEnd m q d.src from_ run.2 0 (skip && d.gather) with
    | (.error e, s) => (.error e, s)
    | (.ok (src, vs1), s) =>
      match s.placeEnd m q d.dst dest_ run.2 1 (fetch || (skip && d.scatter)) with
      | (.error e, s) => (.error e, s)
      | (.ok (dst, vs2), s) =>
        (.ok { segs := p.segs ++ zipPieces (src.length + dst.length + 1) src dst, vpages := p.vpages ++ vs0 ++ vs1 ++ vs2,
               rows := p.rows + boolNat (starts && !skip), skips := p.skips + boolNat (starts && skip) }, s)

/-- Translates some runs of a chunk, up to the first fault (R263). -/
def State.planRuns (s : State) (m : MillId) (q : Nat) (d : SDesc) (fetch : Bool) :
    ChunkPlan → List (Nat × Nat) → Except PlanStop ChunkPlan × State
  | p, [] => (.ok p, s)
  | p, run :: rest =>
    match s.planRun m q d fetch p run with
    | (.error e, s) => (.error e, s)
    | (.ok p, s) => s.planRuns m q d fetch p rest

/-- A plan with nothing in it. -/
def ChunkPlan.empty : ChunkPlan := { segs := [], vpages := [], rows := 0, skips := 0 }

/-- Translates a chunk of a descriptor's bytes. -/
def State.planChunk (s : State) (m : MillId) (q : Nat) (d : SDesc) (fetch : Bool) (c : Nat) : Except PlanStop ChunkPlan × State :=
  s.planRuns m q d fetch .empty (runsOf d (d.chunk + 1) (c * d.chunk) (min d.total ((c + 1) * d.chunk)))

/-- The runs of bytes `pos` to `pos + n - 1` of a list of runs. -/
def cutRuns : (pos n : Nat) → List (Nat × Nat) → List (Nat × Nat)
  | _, _, [] => []
  | pos, n, (a, l) :: rest =>
    let k := min n (l - pos)
    (if k = 0 then [] else [(a + pos, k)]) ++ cutRuns (pos - l) (n - k) rest

/-- Translates virtual runs that a fetch for the race reads. -/
def State.planReads (s : State) (m : MillId) (q : Nat) : ChunkPlan → List (Nat × Nat) → Except PlanStop ChunkPlan × State
  | p, [] => (.ok p, s)
  | p, (va, n) :: rest =>
    match s.placeRun m q 0 va n 0 with
    | (.error e, s) => (.error e, s)
    | (.ok (src, vs), s) =>
      s.planReads m q { p with segs := p.segs ++ src.map fun x => { src := x.1, dst := .nowhere, len := x.2 }, vpages := p.vpages ++ vs } rest

/-- Slices that the weight cache holds: those neither pinned nor the shared partition, and slice 47 under claim code 1. -/
def Sluice.cacheSlices (x : Sluice) : Nat := 47 - x.granPin + boolNat x.shared

/-- The set that a line falls in: each slice of 2 MiB has 256 sets of 16 lines of 512 bytes (R246). Which one is the device's own. -/
def Sluice.setOf (x : Sluice) (line : Nat) : Nat := Config.cacheSet x.cacheSlices line % max 1 (256 * x.cacheSlices)

/-! ## Granules (R257, R261) -/

/-- The pieces of the memory runs of one end of a chunk, granule by granule: first byte and length. -/
def sidePieces (ls : List (Loc × Nat)) : List (Nat × Nat) :=
  ls.flatMap fun x => match x.1 with | .mem a => granules a x.2 | _ => []

def Seg.source (g : Seg) : Loc × Nat := (g.src, g.len)
def Seg.target (g : Seg) : Loc × Nat := (g.dst, g.len)

/-- A read of one piece of a granule. -/
def readRequest (x : Nat × Nat) : Request := { granule := x.1 / 512 * 512, spans := [x], write := false, fill := false }

/-- The writes of a chunk: one for each granule, with the merged byte enables of its pieces (R261). -/
def writeRequests (ps : List (Nat × Nat)) : List Request :=
  ((ps.map fun x => x.1 / 512 * 512).eraseDups).map fun g =>
    { granule := g, spans := ps.filter fun x => x.1 / 512 * 512 == g, write := true, fill := false }

/-- A miss of the weight cache fetches the whole line (R246). -/
def fillRequest (line : Nat) : Request := { granule := line * 512, spans := [(line * 512, 512)], write := false, fill := true }

/-- A line that the weight cache of a mill serves: held, or fetched and not yet allocated. -/
def State.lineHeld (s : State) (m : MillId) (line : Nat) : Bool :=
  let x := (s.mill m).sluice
  x.wcache.any (fun l => l.1 == line) || x.fills.contains line

/-- Reads a cached line under its code (R248): an uncorrectable error discards the line, so that it is fetched again. -/
def State.lineRead (s : State) (m : MillId) (line : Nat) : Bool × State :=
  let (inj, s) := s.takeInj (.granary m) 1
  let (code, s) := if inj then (Ecc.uncorrectable, s) else s.takeCode
  if code = .uncorrectable then (false, (s.onSluice m fun x => x.discard line).tally (.granary m) 3 1) else (true, s)

/-- What the weight cache makes of the reads of a chunk with GRAN = 1: the requests that are left, the lines served and the lines fetched.
A line that the chunk fetches once serves every piece of the chunk in it. -/
structure CachePlan where
  reqs   : List Request
  hits   : Nat
  misses : Nat
deriving DecidableEq, Repr

/-- One piece of a read through the weight cache (R246). -/
def State.cachePiece (s : State) (m : MillId) (p : CachePlan) (x : Nat × Nat) : CachePlan × State :=
  let line := x.1 / 512
  if !(physPort x.1).any (fun r => r.mill == m) then ({ p with reqs := p.reqs ++ [readRequest x] }, s)
  else if p.reqs.any (fun r => r.fill && r.granule == line * 512) then (p, s)
  else if s.lineHeld m line then
    let (good, s) := s.lineRead m line
    (if good then { p with hits := p.hits + 1 } else { p with reqs := p.reqs ++ [fillRequest line] }, s)
  else ({ p with reqs := p.reqs ++ [fillRequest line], misses := p.misses + 1 }, s)

def State.cachePieces (s : State) (m : MillId) : CachePlan → List (Nat × Nat) → CachePlan × State
  | p, [] => (p, s)
  | p, x :: rest =>
    let (p, s) := s.cachePiece m p x
    s.cachePieces m p rest

/-- The requests of a chunk: reads of its sources, then writes of its destinations. -/
def State.chunkRequests (s : State) (m : MillId) (gran : Bool) (segs : List Seg) : CachePlan × State :=
  let reads := sidePieces (segs.map Seg.source)
  let writes := writeRequests (sidePieces (segs.map Seg.target))
  let (p, s) :=
    if gran then s.cachePieces m { reqs := [], hits := 0, misses := 0 } reads
    else ({ reqs := reads.map readRequest, hits := 0, misses := 0 }, s)
  ({ p with reqs := p.reqs ++ writes }, s)

/-! ## Queues -/

def State.queue (s : State) (m : MillId) (q : Nat) : SluQueue := (s.mill m).sluice.queues.getD q .reset

def State.onQueue (s : State) (m : MillId) (q : Nat) (f : SluQueue → SluQueue) : State :=
  s.onSluice m fun x => { x with queues := listOn x.queues q f }

/-- Changes the transfer of a number in a queue. -/
def SluQueue.onXfer (q : SluQueue) (id : Nat) (f : Transfer → Transfer) : SluQueue :=
  { q with xfers := q.xfers.map fun t => if t.id = id then f t else t }

def SluQueue.dropXfer (q : SluQueue) (id : Nat) : SluQueue := { q with xfers := q.xfers.filter fun t => t.id != id }

def Transfer.parsed (t : Transfer) : SDesc := parseDesc t.desc

/-- Bytes of a list of runs, and the 4,096-byte chunks that they take. -/
def runBytes (rs : List (Nat × Nat)) : Nat := (rs.map (·.2)).sum
def runChunks (rs : List (Nat × Nat)) : Nat := (runBytes rs + 4095) / 4096

/-- Chunks of a transfer: those of its descriptor, and for an RTILE those of its trims and of its folded bases after them (R299). -/
def Transfer.chunks (t : Transfer) : Nat := t.parsed.chunks + runChunks t.trims + runChunks t.bases

/-- Translates chunk `c` of a transfer. -/
def State.planXfer (s : State) (m : MillId) (q : Nat) (t : Transfer) (c : Nat) : Except PlanStop ChunkPlan × State :=
  let n := t.parsed.chunks
  let k := n + runChunks t.trims
  if c < n then s.planChunk m q t.parsed t.rtile.isSome c
  else if c < k then s.planReads m q .empty (cutRuns (4096 * (c - n)) 4096 t.trims)
  else s.planReads m q .empty (cutRuns (4096 * (c - k)) 4096 t.bases)
/-- Every chunk has been translated. -/
def Transfer.translated (t : Transfer) : Bool := decide (t.chunks ≤ t.next)
/-- One end is the Leat end (SPACE 0x3). -/
def Transfer.leatEnd (t : Transfer) : Bool := t.rtile.isNone && (spaceOf t.parsed.src == 3 || spaceOf t.parsed.dst == 3)

/-- Requests in flight of the chunks of a list. -/
def flightRequests (fs : List Flight) : List (Request × W64) := fs.flatMap fun f => f.granules.map fun g => (g, f.issued)

/-- Entries that a queue holds (R257). -/
def SluQueue.entries (q : SluQueue) : Nat := q.dropped.length + (q.xfers.map fun t => (flightRequests t.flights).length).sum

/-- The queues whose next chunk waits for shared entries, in order of request. -/
def State.entryWaiters (s : State) (m : MillId) : List Nat :=
  (s.mill m).sluice.waiters.filter fun k => ((s.queue m k).xfers.any fun t => t.waited)

/-- Can a chunk of `n` requests obtain its entries: from the queue's 1,024, then from the 49,152 shared, in order of request? -/
def State.entriesFree (s : State) (m : MillId) (q n : Nat) : Bool :=
  let used := ((s.mill m).sluice.queues.map fun x => x.entries - 1024).sum
  let mine := (s.queue m q).entries
  let more := (mine + n - 1024) - (mine - 1024)
  more == 0 || (decide (used + more ≤ 49152) && (s.entryWaiters m).headD q == q)

/-- A chunk waits for an entry: it takes its place in the order of request, and counts once. -/
def State.entryWait (s : State) (m : MillId) (q : Nat) (t : Transfer) : State :=
  if t.waited then s
  else
    ((s.onQueue m q fun x => x.onXfer t.id fun t => { t with waited := true }).onSluice m fun x =>
      { x with waiters := x.waiters.filter (· != q) ++ [q] }).tally (.sluice m) 12 1

/-! ## Faults and parks (R266 to R268, R274) -/

/-- Fills the words of a park record or of the command-fault record at `off`. -/
def State.parkRecord (s : State) (m : MillId) (off : Nat) (t : Transfer) (cause side addr c : Nat) : State :=
  let d := t.parsed
  let p : Page := .sluice m
  let s := s.setWord p off (s.seq m)
  let s := s.setWord p (off + 4) (BitVec.ofNat 32 (cause + 16 * side + 256 * d.tctr))
  let s := s.setWord64 p (off + 8) (BitVec.ofNat 64 addr)
  let s := s.setWord p (off + 0x10) (BitVec.ofNat 32 c)
  let s := s.forAll (List.range 5) fun s k =>
    s.setWord p (off + 0x14 + 4 * k) (BitVec.ofNat 32 ((d.coords (c * d.chunk)).getD k 0))
  s.setWord64 p (off + 0x28) t.descAddr

/-- A transfer ends in a fault: the command-fault record, SLU_FAULT and the report to the miller (R268, R636). -/
def State.sluFault (s : State) (m : MillId) (q : Nat) (t : Transfer) (cause side addr c : Nat) (contract injected : Bool) :
    State :=
  let s := s.record (.sluice m) 0x184 fun s => s.parkRecord m 0x180 t cause side addr c
  let s := s.raise (.sluice m) 1
  s.report m { kind := if contract then .contract else .command, system := t.system, page := .sluice m, cause := cause,
               res := BitVec.ofNat 64 (q + 16 * side + 256 * t.parsed.tctr), opnd := BitVec.ofNat 64 addr, pc := t.pc,
               slot := if t.rtile.isSome then 3 else 4, issue := false, injected := injected }

/-- The copier alone resolves the park of a queue (R253). -/
def State.copierHolds (s : State) (m : MillId) (q : Nat) : Bool :=
  match (s.queue m q).parked with
  | some (cause, _) => cause == 3 && s.copierParks
  | none => false

/-- Parks a queue on chunk `c` (R266, R253). -/
def State.park (s : State) (m : MillId) (q : Nat) (t : Transfer) (cause side addr c : Nat) : State :=
  let s := s.parkRecord m (0x200 + 0x40 * q) t cause side addr c
  let s := (s.tally (.sluice m) 9 1).ctrlMsg m 1
  let s := if cause = 3 then s.tally (.sluice m) 10 1 else s
  let s := if (s.queue m q).resumed then s.tally (.sluice m) 11 1 else s
  let s := s.onQueue m q fun x => { x with parked := some (cause, t.id), resumed := false }
  if s.copierHolds m q then s else s.raise (.sluice m) 0

/-! ## Posting tokens (R264) -/

/-- A transfer of which nothing is left leaves its queue: it ends in its fault, or it counts as complete, and a tile's bytes go to their
race operation. -/
def State.leaveQueue (s : State) (m : MillId) (q : Nat) (t : Transfer) : State :=
  let s := s.onQueue m q fun x => x.dropXfer t.id
  match t.failing with
  | some (cause, side, addr, c, contract, inj) => s.sluFault m q t cause side addr c contract inj
  | none =>
    let s := s.tally (.sluice m) 0 1
    match t.rtile with
    | some op => s.onRace m fun r => { r with ops := r.ops.map fun o => if o.id = op then { o with data := t.fetched } else o }
    | none => s

/-- Tokens that a transfer may post now, and whether nothing is left of it after them: one for each chunk that is complete with every
chunk before it; of a Leat end, what its results have earned (R264, R381). -/
def Transfer.due (t : Transfer) : Nat × Bool :=
  if t.leatEnd then (t.earned - t.posted, t.ended || t.failing.isSome)
  else
    let lead := (t.flights.takeWhile fun f => f.done).length
    (lead, (t.flights.drop lead).isEmpty && (t.translated || t.failing.isSome))

/-- A transfer posts what it can and leaves its queue when nothing of it is left. -/
def State.postXfer (s : State) (m : MillId) (q : Nat) (t : Transfer) : State :=
  let (k, ends) := t.due
  let s := s.onQueue m q fun x => x.onXfer t.id fun t =>
    { t with flights := if t.leatEnd then t.flights else t.flights.drop k, posted := t.posted + k }
  let s := if k = 0 ∨ t.rtile.isSome then s else s.enginePost m (ctxOf t.system) t.parsed.tctr k
  if ends then s.leaveQueue m q t else s

/-- Posts what a queue's transfers can post, in issue order: a transfer to a counter posts only when no earlier transfer of
the queue to that counter is left. -/
def State.postQueue (s : State) (m : MillId) (q : Nat) : State :=
  let ids := (s.queue m q).xfers.map (·.id)
  s.forAll ids fun s id =>
    match (s.queue m q).xfers.find? fun t => t.id == id with
    | none => s
    | some t =>
      if t.started = false ∧ t.failing = none then s
      else
        let ahead := (s.queue m q).xfers.takeWhile fun u => u.id != id
        if t.rtile.isNone ∧ ahead.any (fun u => u.rtile.isNone && u.parsed.tctr == t.parsed.tctr && u.system == t.system) then s
        else s.postXfer m q t

/-! ## Issue (R255, R302) -/

/-- What the read of a descriptor meets: a fault with its cause, contract or command, or a port that accepts nothing. -/
inductive DescStop where
  | wait
  | fault (cause : Nat) (contract injected : Bool)
deriving DecidableEq, Repr

/-- Reads words of the pinned granary under their code (R248), up to the first that is uncorrectable: its address. -/
def State.pinWords (s : State) (m : MillId) : List Nat → Option Nat × State
  | [] => (none, s)
  | w :: ws =>
    match s.takeCode with
    | (.uncorrectable, s) => (some w, s)
    | (_, s) => s.pinWords m ws

/-- Reads bytes of the pinned granary: the offset of an uncorrectable word, and whether it was injected. -/
def State.pinRead (s : State) (m : MillId) (off n : Nat) : Option (Nat × Bool) × State :=
  let (inj, s) := s.takeInj (.granary m) 2
  if inj then (some (off, true), s.raise (.granary m) 0)
  else
    match s.pinWords m (wordsOf off n) with
    | (some w, s) => (some (w, false), s.raise (.granary m) 0)
    | (none, s) => (none, s)

/-- Reads a descriptor from memory: any error is a command fault with cause DESC (R255). -/
def State.descParts (s : State) (m : MillId) (ps : List (Nat × Nat)) : Except DescStop (List Byte) × State :=
  match s.partsRead m none ps with
  | (.error .wait, s) => (.error .wait, s)
  | (.error (.bad _ i), s) => (.error (.fault 12 false i), s)
  | (.error (.xlat _ _), s) => (.error (.fault 12 false false), s)
  | (.ok bs, s) => (.ok bs, s)

/-- Reads a sluice descriptor of 128 bytes (R255). -/
def State.readDesc (s : State) (m : MillId) (system : Bool) (addr : Nat) : Except DescStop (List Byte) × State :=
  let pin := s.pinBytes m
  if addr % 8 ≠ 0 then (.error (.fault 12 true false), s)
  else match spaceOf addr with
    | 0 =>
      if natBits addr 48 12 ≠ 0 then (.error (.fault 12 false false), s)
      else match s.translateRange m (natBits addr 0 48) 128 false with
        | (.error .wait, s) => (.error .wait, s)
        | (.error _, s) => (.error (.fault 12 false false), s)
        | (.ok ps, s) => s.descParts m ps
    | 1 =>
      if endMalformed system pin addr || decide (0x600000 < natBits addr 0 23 + 128) then (.error (.fault 11 true false), s)
      else (.ok (readBytes s.hopper (hopperKey m (natBits addr 24 5) (natBits addr 0 23)) 128), s)
    | 2 =>
      if endMalformed system pin addr || decide (pin < natBits addr 0 27 + 128) then (.error (.fault 11 true false), s)
      else match s.pinRead m (natBits addr 0 27) 128 with
        | (some (_, i), s) => (.error (.fault 13 false i), s)
        | (none, s) => (.ok (readBytes s.granary (granaryKey m (natBits addr 0 27)) 128), s)
    | 8 =>
      if !system then (.error (.fault 11 true false), s)
      else if natBits addr 44 16 != 0 || !s.inMem (natBits addr 0 44) 128 then (.error (.fault 12 false false), s)
      else s.descParts m [(natBits addr 0 44, 128)]
    | _ => (.error (.fault 11 true false), s)

/-- The overrides of R302 applied to a latched copy. -/
def overrideDesc (bs : List Byte) (src dst : Option W64) (queue tctr : Option Nat) : List Byte :=
  let bs := match src with | some a => putBytes bs 0x08 (leBytes 8 a.toNat) | none => bs
  let bs := match dst with | some a => putBytes bs 0x10 (leBytes 8 a.toNat) | none => bs
  let w0 := BitVec.ofNat 32 (fieldAt bs 0 4)
  let w0 := match tctr with | some t => putBits w0 0 4 t | none => w0
  let w0 := match queue with | some q => putBits w0 4 4 q | none => w0
  putBytes bs 0 (leBytes 4 w0.toNat)

/-- A transfer as it enters a queue. -/
def newTransfer (id : Nat) (system : Bool) (descAddr : W64) (desc : List Byte) (pc : W64) : Transfer :=
  { id := id, system := system, descAddr := descAddr, desc := desc, pc := pc, rtile := none, trims := [], bases := [], started := false,
    ahead := false, next := 0, waited := false, flights := [], posted := 0, failing := none, fetched := [], earned := 0, ended := false }

/-- Puts a transfer at the end of its queue. -/
def State.enqueue (s : State) (m : MillId) (q : Nat) (t : Transfer) : State :=
  let id := (s.mill m).sluice.nextId
  (s.onSluice m fun x => { x with nextId := id + 1 }).onQueue m q fun x => { x with xfers := x.xfers ++ [{ t with id := id }] }

/-- The queue and the counter that a refused descriptor stands for in the records of its fault. -/
def refusedDesc (queue tctr : Nat) : List Byte := overrideDesc (List.replicate 128 0) none none (some queue) (some tctr)

/-- A sluice operation issued with its descriptor latched: it is checked (R243, R255, R261) and enters its queue, or ends in
the fault it meets. A bundle whose descriptor cannot be read yet is held before it issues. -/
def State.issueXfer (s : State) (m : MillId) (system : Bool) (addr : W64) (src dst : Option W64) (queue tctr : Option Nat)
    (pc : W64) : State :=
  let refuse (s : State) (q t c : Nat) (contract inj : Bool) : State :=
    s.sluFault m q (newTransfer 0 system addr (refusedDesc q t) pc) c 0 addr.toNat 0 contract inj
  match s.readDesc m system addr.toNat with
  | (.error .wait, s) => s
  | (.error (.fault c contract inj), s) => refuse s (queue.getD 0) (tctr.getD 0) c contract inj
  | (.ok bs, s) =>
    let bs := overrideDesc bs src dst queue tctr
    let d := parseDesc bs
    if descMalformed bs then refuse s d.queue d.tctr 12 true false
    else if descBadAddr system (s.pinBytes m) bs then refuse s d.queue d.tctr 11 true false
    else s.enqueue m d.queue (newTransfer 0 system addr bs pc)

/-! ## Chunks -/

/-- The sluices of a mill stand still: no core power, the emergency brake, or a reference loss (R269, R517). -/
def State.sluiceHeld (s : State) : Bool := s.halted || s.refHeld

/-- The transfer whose chunk is to be translated next in a queue: started, not failing, with every transfer ahead translated
(R256). -/
def SluQueue.translating (q : SluQueue) : Option Transfer :=
  match q.xfers.dropWhile fun t => t.leatEnd || (t.started && t.translated && t.failing.isNone) with
  | t :: _ => if t.started && t.failing.isNone then some t else none
  | [] => none

/-- A fault met by chunk `c` of a transfer: the queue parks, or the transfer ends once the chunks before it are complete (R266, R268). -/
def State.chunkFault (s : State) (m : MillId) (q : Nat) (t : Transfer) (c : Nat) (e : ChunkFault) : State :=
  if resolvable e.cause then s.park m q t e.cause e.side e.addr c
  else
    (s.onQueue m q fun x =>
      { x.onXfer t.id (fun t => { t with failing := some (e.cause, e.side, e.addr, c, e.contract, e.injected) }) with
        resumed := false }).postQueue m q

/-- A chunk translated obtains its entries and is issued (R257). -/
def State.issueChunk (s : State) (m : MillId) (q : Nat) (t : Transfer) (p : ChunkPlan) (r : CachePlan) : State :=
  let s := (s.tally (.granary m) 0 r.hits).tally (.granary m) 1 r.misses
  let f : Flight := { chunk := t.next, segs := p.segs, vpages := p.vpages, rows := p.rows, skips := p.skips, granules := r.reqs,
                      issued := s.time, done := false }
  (s.onQueue m q fun x =>
    { x.onXfer t.id (fun t => { t with next := t.next + 1, waited := false, flights := t.flights ++ [f] }) with resumed := false }).onSluice
      m fun x => { x with waiters := x.waiters.filter (· != q) }

/-- The pages and indices of a queue's next chunk are translated and its granules issued, or the queue parks, or the transfer
begins to end in its fault (R263, R266, R268). A chunk that waits for a port or for an entry is translated when it no longer waits. -/
def State.translateChunk (s : State) (m : MillId) (q : Nat) (t : Transfer) : State :=
  match s.planXfer m q t t.next with
  | (.error .wait, _) => s
  | (.error (.fault e), s') => s'.chunkFault m q t t.next e
  | (.ok p, s') =>
    let (r, s') := s'.chunkRequests m t.parsed.gran p.segs
    if s.entriesFree m q r.reqs.length then s'.issueChunk m q t p r else s.entryWait m q t

/-- CHUNK_TRANSLATE's meaning. -/
def chunkTranslate (m : MillId) (q : Fin 16) (codes : List Ecc) (s : State) : State :=
  let qu := s.queue m q.val
  if s.sluiceHeld || qu.parked.isSome then s
  else match qu.translating with
    | none => s
    | some t => s.coded codes fun s => s.translateChunk m q.val t

/-- CHUNK_TRANSLATE. -/
def execChunkTranslate (m : MillId) (q : Fin 16) (codes : List Ecc) (s : State) : Host.Outcome State Fault Refusal :=
  .next (chunkTranslate m q codes s)

/-- One member of a list, by a number taken modulo its length: which of several things in flight comes first is not fixed
(R264, R647), and the command says which. -/
def pickOf {α : Type} (l : List α) (n : Nat) : Option α := l[n % max 1 l.length]?

/-- The granule requests in flight of a queue, oldest first: transfer, chunk and request. -/
def SluQueue.inFlight (q : SluQueue) : List (Transfer × Flight × Request) :=
  q.xfers.flatMap fun t => t.flights.flatMap fun f => f.granules.map fun g => (t, f, g)

/-- Does a run of a chunk touch a granule with its destination? -/
def Seg.writesGranule (g : Seg) (line : Nat) : Bool :=
  match g.dst with
  | .mem a => decide (a / 512 ≤ line) && decide (line ≤ (a + g.len - 1) / 512) && g.len != 0
  | _ => false

/-- A write to a line is in flight: a chunk that has read its source and not yet written its destination (R247). -/
def State.writeInFlight (s : State) (line : Nat) : Bool :=
  [MillId.m0, .m1].any fun m => (s.mill m).sluice.queues.any fun q => q.xfers.any fun t => t.flights.any fun f =>
    !f.done && f.granules.all (·.write) && f.segs.any fun g => g.writesGranule line

/-- Bytes of a request. -/
def Request.bytes (r : Request) : Nat := runBytes r.spans

/-- A request is carried out at its port: a write with its merged byte enables, a read of its pieces. -/
def State.requestPort (s : State) (m : MillId) (r : Request) : PortOut × State :=
  if r.write then s.portWrite m r.granule r.spans
  else match r.spans with
    | (a, n) :: _ => s.portRead m a n
    | [] => (.ok, s)

/-- What a completed request counts (R278). -/
def State.requestCounts (s : State) (m : MillId) (r : Request) (issued : W64) : State :=
  let remote := (physPort r.granule).any fun p => p.mill != m
  let s := (s.tally (.sluice m) 14 1).tally (.sluice m) 15 (s.time - issued).toNat
  let s := if remote then s.tally (.sluice m) 4 r.bytes else s
  s.tally (.sluice m) (if r.write then 3 else 2) r.bytes

/-- The chunks of a transfer from chunk `c` on are given up after an uncorrectable error in chunk `c`: the requests in flight of them are
still to complete, and the transfer ends once the chunks before it are complete (R268, R272). -/
def State.failChunk (s : State) (m : MillId) (q : Nat) (t : Transfer) (c : Nat) (left : List (Request × W64))
    (failing : Nat × Nat × Nat × Nat × Bool × Bool) : State :=
  (s.onQueue m q fun x =>
    { x.onXfer t.id (fun t => { t with flights := t.flights.filter fun y => y.chunk < c, failing := some failing }) with
      dropped := x.dropped ++ left }).postQueue m q

/-- A request of a chunk has completed: it gives its entry back, and a line fetched for the weight cache waits to be allocated. -/
def State.requestDone (s : State) (m : MillId) (q : Nat) (t : Transfer) (f : Flight) (r : Request) : State :=
  let s := s.onQueue m q fun x => x.onXfer t.id fun t =>
    { t with flights := t.flights.map fun y => if y.chunk = f.chunk then { y with granules := y.granules.erase r } else y }
  if r.fill then s.onSluice m fun x => { x with fills := x.fills.filter (· != r.granule / 512) ++ [r.granule / 512] } else s

/-- A request of a chunk completes, or fails its chunk with MEM_UNCORR (R272, R646). A miss is served after a write to its line that was in
flight (R247). -/
def State.completeRequest (s : State) (m : MillId) (q : Nat) (t : Transfer) (f : Flight) (r : Request) : State :=
  if r.fill && s.writeInFlight (r.granule / 512) then s
  else match s.requestPort m r with
    | (.wait, _) => s
    | (.bad w inj, s) =>
      let left := (flightRequests (t.flights.filter fun x => f.chunk ≤ x.chunk)).erase (r, f.issued)
      (s.requestCounts m r f.issued).failChunk m q t f.chunk left (10, boolNat r.write, w, f.chunk, false, inj)
    | (.ok, s) => (s.requestCounts m r f.issued).requestDone m q t f r

/-- A request of a dropped chunk completes: its port counts and reports as for any other, and nothing is delivered (R269, R403). -/
def State.completeDropped (s : State) (m : MillId) (q : Nat) (d : Request × W64) : State :=
  match s.requestPort m d.1 with
  | (.wait, _) => s
  | (_, s) => (s.requestCounts m d.1 d.2).onQueue m q fun x => { x with dropped := x.dropped.erase d }

/-- A granule request completes at its port (R647); which of those in flight of a queue, the command says. -/
def granuleComplete (m : MillId) (q : Fin 16) (pick : BitVec 16) (codes : List Ecc) (s : State) : State :=
  let qu := s.queue m q.val
  let n := qu.inFlight.length
  let k := pick.toNat % max 1 (n + qu.dropped.length)
  if s.halted then s
  else match qu.inFlight[k]?, qu.dropped[k - n]? with
    | some (t, f, r), _ => s.coded codes fun s => s.completeRequest m q.val t f r
    | none, some d => s.coded codes fun s => s.completeDropped m q.val d
    | none, none => s

/-- GRANULE_COMPLETE. -/
def execGranuleComplete (m : MillId) (q : Fin 16) (pick : BitVec 16) (codes : List Ecc) (s : State) :
    Host.Outcome State Fault Refusal := .next (granuleComplete m q pick codes s)

/-- Do two places overlap in the same memory? -/
def Loc.meets (a : Loc) (n : Nat) (b : Loc) (k : Nat) : Bool :=
  let laps (x y : Nat) : Bool := decide (x < y + k) && decide (y < x + n)
  match a, b with
  | .mem x, .mem y => laps x y
  | .hopper x, .hopper y => laps x y
  | .granary x, .granary y => laps x y
  | _, _ => false

/-- Must a chunk wait for an earlier one of its transfer (R265): it reads what that one writes, or writes what that one reads or writes? -/
def Flight.follows (f e : Flight) : Bool :=
  f.segs.any fun x => e.segs.any fun y =>
    y.dst.meets y.len x.src x.len || y.dst.meets y.len x.dst x.len || y.src.meets y.len x.dst x.len

/-- Chunks of a transfer whose requests have all completed, whose bytes are not yet written, and which follow no chunk not yet written. -/
def Transfer.landing (t : Transfer) : List Flight :=
  t.flights.filter fun f => f.granules.isEmpty && !f.done && !t.flights.any fun e => decide (e.chunk < f.chunk) && !e.done && f.follows e

/-- The chunks of a queue that can be written. -/
def SluQueue.landing (q : SluQueue) : List (Transfer × Flight) :=
  q.xfers.flatMap fun t => if t.leatEnd then [] else t.landing.map fun f => (t, f)

/-- Moves the bytes of a chunk: the source is read wholly before the destination is written (R265). -/
def State.moveChunk (s : State) (segs : List Seg) : State :=
  (segs.map fun g => (g.dst, s.locRead g.src g.len)).foldl (fun s (d, bs) => s.locWrite d bs) s

/-- Does a run touch a ledger entry that the bolter of a mill holds with UPDATING set (R226)? -/
def State.rowHeld (s : State) (segs : List Seg) : Bool :=
  [MillId.m0, .m1].any fun m => (s.mill m).bolter.ops.any fun o => o.held.any fun h => segs.any fun g =>
    g.src.meets g.len (.mem h.2) 16 || g.dst.meets g.len (.mem h.2) 16

/-- The pinned words that a chunk reads, under their code (R248). -/
def State.pinSegs (s : State) (m : MillId) : List Seg → Option (Nat × Bool) × State
  | [] => (none, s)
  | g :: rest => match g.src with
    | .granary k => match s.pinRead m (k % 0x6000000) g.len with
      | (some x, s) => (some x, s)
      | (none, s) => s.pinSegs m rest
    | _ => s.pinSegs m rest

/-- The node of the floor at which a place lies; a line that the weight cache serves leaves its slice. -/
def State.locNode (s : State) (m : MillId) (l : Loc) : Option (MillId × Nat × Nat) :=
  match l with
  | .mem a =>
    let x := (s.mill m).sluice
    match x.wcache.any (fun e => e.1 == a / 512), physPort a with
    | true, _ => some (m, sliceNode (min 47 (x.granPin + x.setOf (a / 512) / 256)))
    | false, some p => some (p.mill, portNode p)
    | false, none => none
  | .hopper k => some (m, stoneNode (k / 0x600000 % 24))
  | .granary k => some (m, sliceNode (k % 0x6000000 / pageSize))
  | .leat => none
  | .nowhere => none

/-- The data of a chunk goes over the floor in the slots of its queue's stream (R332); a tile's goes to the headrace. -/
def State.chunkFlits (s : State) (m : MillId) (q : Nat) (t : Transfer) (segs : List Seg) : State :=
  let x : FloorSource := { kind := 1, index := q, pc := t.pc, slot := if t.rtile.isSome then 3 else 4, system := t.system }
  s.forAll segs fun s g =>
    let goal := if t.rtile.isSome then some (m, 0, 0) else s.locNode m g.dst
    match s.locNode m g.src, goal with
    | some a, some b => s.floorSend m x a b (match g.dst with | .mem d => d | .hopper k => k | .granary k => k | _ => 0) ((g.len + 511) / 512)
    | _, _ => s

/-- The bytes of a tile's chunk take their place after those of the chunks before it. -/
def placeFetched (old : List Byte) (chunk : Nat) (new : List Byte) : List Byte :=
  putBytes (old ++ List.replicate (4096 * chunk - old.length) 0) (4096 * chunk) new

/-- A chunk is written and seen (R264). -/
def State.landChunk (s : State) (m : MillId) (q : Nat) (t : Transfer) (f : Flight) : State :=
  let data := f.segs.flatMap fun g => s.locRead g.src g.len
  let s := s.chunkFlits m q t f.segs
  let s := if t.rtile.isSome then s else s.moveChunk f.segs
  let s := ((s.tally (.sluice m) 1 1).tally (.sluice m) 5 f.rows).tally (.sluice m) 6 f.skips
  (s.onQueue m q fun x => x.onXfer t.id fun t =>
    { t with flights := t.flights.map fun y => if y.chunk = f.chunk then { y with done := true } else y,
             fetched := if t.rtile.isSome then placeFetched t.fetched f.chunk data else t.fetched }).postQueue m q

/-- A chunk is written, or ends the transfer with GRAN_ECC where a pinned word that it reads is uncorrectable (R248). -/
def State.completeChunk (s : State) (m : MillId) (q : Nat) (t : Transfer) (f : Flight) : State :=
  match s.pinSegs m f.segs with
  | (some (off, inj), s) =>
    s.failChunk m q t f.chunk (flightRequests (t.flights.filter fun x => f.chunk < x.chunk)) (13, 0, off, f.chunk, false, inj)
  | (none, s) => s.landChunk m q t f

/-- A chunk is written and seen; its token is posted once those of the chunks before it are (R264). -/
def chunkComplete (m : MillId) (q : Fin 16) (pick : BitVec 16) (codes : List Ecc) (s : State) : State :=
  if s.halted then s
  else match pickOf (s.queue m q.val).landing pick.toNat with
    | none => s
    | some (t, f) => if s.rowHeld f.segs then s else s.coded codes fun s => s.completeChunk m q.val t f

/-- CHUNK_COMPLETE. -/
def execChunkComplete (m : MillId) (q : Fin 16) (pick : Coded (BitVec 16)) (s : State) : Host.Outcome State Fault Refusal :=
  .next (chunkComplete m q pick.of pick.codes s)

/-! ## The weight cache (R244 to R248) -/

/-- A line that a miss has fetched is allocated: it replaces the one held in the chosen way of its set. -/
def weightCacheFill (m : MillId) (line : BitVec 44) (victim : Fin 16) (s : State) : State :=
  let l := line.toNat / 512
  let x := (s.mill m).sluice
  if s.sluiceHeld || !x.fills.contains l || x.cacheSlices == 0 then s
  else
    s.onSluice m fun x =>
      { x with wcache := (l, victim.val) :: x.wcache.filter (fun e => !(x.setOf e.1 == x.setOf l && e.2 == victim.val) && e.1 != l),
               fills := x.fills.filter (· != l) }

/-- WEIGHT_CACHE_FILL. -/
def execWeightCacheFill (m : MillId) (line : BitVec 44) (victim : Fin 16) (s : State) : Host.Outcome State Fault Refusal :=
  .next (weightCacheFill m line victim s)

/-- The pinned slices and the shared partition take the values of GRAN_PIN and of the claim at a command boundary (R244,
R245, R603): slices that change role lose their contents and the weight cache loses its lines. -/
def granPinApply (m : MillId) (s : State) : State :=
  let pin := s.fld (.granary m) 0x100 0 6
  let sh := s.holder (.granary m) == 1
  let x := (s.mill m).sluice
  if (s.mill m).cmd.running || !s.pageLive (.granary m) || (pin == x.granPin && sh == x.shared) then s
  else
    let lo := granaryKey m (pageSize * min pin x.granPin)
    let hi := granaryKey m (pageSize * max pin x.granPin)
    { s.onSluice m fun x => { x with granPin := pin, shared := sh, wcache := [], fills := [] } with
      granary := s.granary.filter fun c => !(decide (lo ≤ c.1) && decide (c.1 < hi)) }

/-- GRAN_PIN_APPLY. -/
def execGranPinApply (m : MillId) (s : State) : Host.Outcome State Fault Refusal := .next (granPinApply m s)

/-! ## Resume, fail and invalidation (R251, R253, R267): the actions of SLU_RESUME and TLB_INVAL -/

/-- The channel operation of a transfer with a Leat end leaves its group. -/
def State.dropChannelOp (s : State) (m : MillId) (q : Nat) (t : Transfer) : State :=
  let keep (o : ChannelOp) : Bool := !(t.leatEnd && o.mill == m && o.queue == q && o.xfer == t.id)
  let groups := s.leat.groups.map fun g => { g with ops := g.ops.filter keep }
  { s with leat := { s.leat with groups := groups } }

/-- FAIL turns the park of a transfer into a command fault with cause PAGE, carrying the record; the operation of a Leat end leaves its
group. -/
def State.failPark (s : State) (m : MillId) (q : Nat) (t : Transfer) : State :=
  let off := 0x200 + 0x40 * q
  let side := s.fld (.sluice m) (off + 4) 4 2
  let va := (s.word64 (.sluice m) (off + 8)).toNat
  let c := (s.word (.sluice m) (off + 0x10)).toNat
  (s.dropChannelOp m q t).chunkFault m q t c { cause := 8, side := side, addr := va, contract := false, injected := false }

/-- SLU_RESUME (R267, R274): the action and whether it is accepted. Naming a queue that is not parked, one that the copier
resolves, both actions, is refused with cause VALUE. -/
def State.sluResume (s : State) (m : MillId) (q : Nat) (resume fail : Bool) : Bool × State :=
  match (s.queue m q).parked with
  | none => (!resume && !fail, s)
  | some (_, id) =>
    if !resume && !fail then (true, s)
    else if s.copierHolds m q || (resume && fail) then (false, s)
    else
      let s := s.onQueue m q fun x => { x with parked := none, resumed := resume }
      match fail, (s.queue m q).xfers.find? fun t => t.id == id with
      | true, some t => (true, s.failPark m q t)
      | _, _ => (true, s)

/-- Chunks of a mill that were translated through a page, or through any. -/
def State.chunksThrough (s : State) (m : MillId) (page : Option Nat) : List (Nat × Nat) :=
  (s.mill m).sluice.queues.flatMap fun q => q.xfers.flatMap fun t => t.flights.filterMap fun f =>
    if !f.done && (match page with | none => true | some v => f.vpages.contains v) then some (t.id, f.chunk) else none

/-- TLB_INVAL (R251): the translations go, and BUSY stays until the chunks translated with them have completed. -/
def State.tlbInval (s : State) (m : MillId) (page : Option Nat) : State :=
  let wait := s.chunksThrough m page
  (s.ctrlMsg m 1).onSluice m fun x =>
    { x with tlb := match page with | none => [] | some v => x.tlb.filter fun t => t.vpage != v,
             inval := some (x.inval.getD [] ++ wait) }

/-- The boundary hold of a pond copy ends when the invalidations of both mills have completed (R441): the copier copies, or sends. -/
def State.holdEnds (s : State) : State :=
  if s.pond.st = 2 ∧ s.mill0.sluice.inval = none ∧ s.mill1.sluice.inval = none then
    { s with pond := { s.pond with st := if s.pond.peer then 4 else 3 } }
  else s

/-- Every chunk translated with the old entry has completed: BUSY clears. -/
def tlbInvalDone (m : MillId) (s : State) : State :=
  match (s.mill m).sluice.inval with
  | none => s
  | some wait =>
    let open_ := s.chunksThrough m none
    if wait.any fun w => open_.contains w then s else (s.onSluice m fun x => { x with inval := none }).holdEnds

/-- TLB_INVAL_DONE. -/
def execTlbInvalDone (m : MillId) (s : State) : Host.Outcome State Fault Refusal := .next (tlbInvalDone m s)

/-! ## Dropping transfers (R269, R403) -/

/-- The transfers of a context are dropped, their missing tokens never posted; granules in flight are still to complete. -/
def SluQueue.dropOf (q : SluQueue) (system : Bool) : SluQueue :=
  let gone := q.xfers.filter fun t => t.system == system
  let parkedGone := match q.parked with | some (_, id) => gone.any fun t => t.id == id | none => true
  { q with xfers := q.xfers.filter (fun t => t.system != system), dropped := q.dropped ++ gone.flatMap (fun t => flightRequests t.flights),
           parked := if parkedGone then none else q.parked, resumed := !parkedGone && q.resumed }

def State.dropXfers (s : State) (m : MillId) (system : Bool) : State :=
  s.onSluice m fun x => { x with queues := x.queues.map fun q => q.dropOf system }

/-! ## The scrub (R273) -/

/-- The scrub reads an ECC word: a corrected one is written back, which invalidates a cached copy of its line (R247), an uncorrectable one
reported and left. -/
def scrubRead (port : PortRef) (addr : BitVec 44) (ecc : Ecc) (s : State) : State :=
  let a := addr.toNat / 64 * 64
  if s.sluiceHeld || !s.pageLive port.page || physPort a != some port || s.fld port.page 0x100 0 8 == 0 || s.portHeld port then s
  else
    let s := s.tally port.page 5 1
    let (inj, s) := s.takeInj port.page 3
    if inj then s.eccUncorrectable port a 3 0 true
    else match ecc with
      | .good => s
      | .corrected => (s.eccCorrected port a 0).rawWrite a (readBytes s.mem a 64)
      | .uncorrectable => s.eccUncorrectable port a 3 0 false

/-- SCRUB_READ. -/
def execScrubRead (port : PortRef) (addr : BitVec 44) (ecc : Ecc) (s : State) : Host.Outcome State Fault Refusal :=
  .next (scrubRead port addr ecc s)

end Sys2Proof.Machine
end

