-- ==== Sys2Proof/Machine/LeatLink.lean ====
section
/-! DEFINITION. Leat ports (chapter 10): the flit header, retry and credits, width and training, and routing from module to module. -/

namespace Sys2Proof.Machine

/-! ## The flit header (R358) -/

/-- The fields of a flit header. -/
structure FlitHdr where
  type_    : BitVec 4
  vc       : BitVec 3
  seq      : BitVec 16
  ack      : BitVec 16
  credits  : BitVec 8
  creditVc : BitVec 3
  len      : BitVec 10
  run      : BitVec 2
  dest     : BitVec 16
  src      : BitVec 16
  waypoint : BitVec 16
  group    : BitVec 12
  channel  : BitVec 4
  epoch    : BitVec 32
  step     : BitVec 32
  offset   : BitVec 24
  crc      : BitVec 32
deriving DecidableEq, Repr

/-- The header of an idle flit of nobody. -/
def FlitHdr.blank : FlitHdr :=
  { type_ := 0, vc := 0, seq := 0, ack := 0, credits := 0, creditVc := 0, len := 0, run := 0, dest := 0, src := 0,
    waypoint := 0xFFFF, group := 0, channel := 0, epoch := 0, step := 0, offset := 0, crc := 0 }

/-- The 256 bits of a header, reserved bits zero. -/
def FlitHdr.bits (h : FlitHdr) : BitVec 256 :=
  h.crc ++ (0#8 ++ (h.offset ++ (h.step ++ (h.epoch ++ (h.channel ++ (h.group ++ (h.waypoint ++ (h.src ++ (h.dest ++ (0#1 ++
    (h.run ++ (h.len ++ (h.creditVc ++ (h.credits ++ (h.ack ++ (h.seq ++ (0#1 ++ (h.vc ++ h.type_))))))))))))))))))

/-- The fields of 256 bits. -/
def parseFlit (b : BitVec 256) : FlitHdr :=
  { type_ := b.extractLsb' 0 4, vc := b.extractLsb' 4 3, seq := b.extractLsb' 8 16, ack := b.extractLsb' 24 16,
    credits := b.extractLsb' 40 8, creditVc := b.extractLsb' 48 3, len := b.extractLsb' 51 10, run := b.extractLsb' 61 2,
    dest := b.extractLsb' 64 16, src := b.extractLsb' 80 16, waypoint := b.extractLsb' 96 16, group := b.extractLsb' 112 12,
    channel := b.extractLsb' 124 4, epoch := b.extractLsb' 128 32, step := b.extractLsb' 160 32, offset := b.extractLsb' 192 24,
    crc := b.extractLsb' 224 32 }

/-- The CRC-32C over header bytes 0 to 27 and the 512 payload bytes. -/
def flitCrc (b : BitVec 256) (payload : List Byte) : W32 := crc32c ((leBytes 32 b.toNat).take 28 ++ payload)

/-- A header with its CRC. -/
def FlitHdr.seal (h : FlitHdr) (payload : List Byte) : FlitHdr := { h with crc := flitCrc h.bits payload }

/-- A payload of 512 bytes. -/
def pad512 (bs : List Byte) : List Byte := (bs ++ List.replicate (512 - bs.length) 0).take 512

/-- Types that travel over one link only, outside the sequence, the replay store and the credits: idle, link acknowledgement, link
NACK, time exchange and equalisation. -/
def linkOnly (t : BitVec 4) : Bool := t == 0 || t == 2 || t == 3 || t == 6 || t == 7

/-! ## Ports -/

/-- The page of a module port (R396). -/
def portPage (p : Nat) : Page := .leatPort (millOf (p / 12)) (Fin.ofNat 12 (p % 12))

def State.port (s : State) (p : Nat) : LeatPort := s.leat.ports.getD p .reset

def State.onPort (s : State) (p : Nat) (f : LeatPort → LeatPort) : State :=
  { s with leat := { s.leat with ports := listOn s.leat.ports p f } }

/-- MODULE_ID; 0xFFFF routes no traffic. -/
def State.moduleId (s : State) : Nat := s.fld .leat 0x100 0 16

/-- Credits of a virtual channel that a sender starts with (R363). -/
def fullCredits (vc : Nat) : Nat := if vc < 4 then 128 else 32

def LeatPort.credit (x : LeatPort) (vc : Nat) : Nat := cellGet (fullCredits vc) vc x.credits

/-- The fields that every flit of a port carries for its partner: what is expected next, and the buffers freed on one channel. -/
def LeatPort.stamp (x : LeatPort) (h : FlitHdr) : FlitHdr × LeatPort :=
  match x.freed with
  | [] => ({ h with seq := x.txNext, ack := x.rxNext, credits := 0, creditVc := 0 }, x)
  | (vc, n) :: _ =>
    let k := min n 255
    ({ h with seq := x.txNext, ack := x.rxNext, credits := BitVec.ofNat 8 k, creditVc := BitVec.ofNat 3 vc },
     { x with freed := cellSet 0 vc (n - k) x.freed })

/-- A link-only flit, with a payload. -/
def State.sendLink (s : State) (p : Nat) (t : BitVec 4) (payload : List Byte) : State :=
  let (h, x) := (s.port p).stamp { FlitHdr.blank with type_ := t, len := BitVec.ofNat 10 payload.length }
  let pl := pad512 payload
  (s.onPort p fun _ => { x with sent := ((h.seal pl).bits, pl) :: x.sent, frame := (x.frame + 1) % 64 }).tally (portPage p) 0 1

/-- A receive buffer of a port becomes free. -/
def State.freeBuffer (s : State) (p : Option Nat) (h : FlitHdr) : State :=
  match p with
  | none => s
  | some p => s.onPort p fun x =>
      { x with freed := cellSet 0 h.vc.toNat (cellGet 0 h.vc.toNat x.freed + 1) x.freed }

/-! ## Routing (R369 to R372) -/

/-- L0 to L3. -/
def State.dims (s : State) : List Nat := (List.range 4).map fun d => s.fld .leat 0x104 (5 * d) 5

/-- Is an ID routed? -/
def State.routed (s : State) (id : Nat) : Bool := decide (id < s.dims.foldl (· * ·) 1)

/-- The coordinates of an ID in a domain. -/
def coordsOf (l : List Nat) (id : Nat) : List Nat :=
  let l1 := l.getD 1 1
  let l2 := l.getD 2 1
  let l3 := l.getD 3 1
  [id / (l3 * l2 * l1), id / (l3 * l2) % l1, id / l3 % l2, id % l3]

/-- The next hop toward a target: dimension, direction (true for +) and whether it crosses the wrap link; none at the target. -/
def State.hopTo (s : State) (target : Nat) : Option (Nat × Bool × Bool) :=
  let l := s.dims
  let a := coordsOf l s.moduleId
  let b := coordsOf l target
  (List.range 4).findSome? fun d =>
    let x := a.getD d 0
    let y := b.getD d 0
    let n := l.getD d 1
    if x = y then none
    else
      let plus := decide ((y + n - x) % n ≤ (x + n - y) % n)
      some (d, plus, if plus then x + 1 == n else x == 0)

/-- The number of a neighbour: 2 × dimension, plus 1 toward −. Its ports are 3 × number and the two after it (R41). -/
def linkNeighbour (d : Nat) (plus : Bool) : Nat := 2 * d + boolNat (!plus)

/-- The live ports toward a neighbour, ascending. -/
def State.livePorts (s : State) (nb : Nat) : List Nat := (List.range 3).filterMap fun k => if (s.port (3 * nb + k)).st = 2 then some (3 * nb + k) else none

/-- The route table entry of a destination (R371): waypoint, DETOUR and UNREACHABLE. -/
def State.routeOf (s : State) (dest : Nat) : W32 := cellGet 0 dest s.leat.routes

/-- The neighbour to which a flit for a destination leaves this module, by its waypoint where the route table gives one. -/
def State.firstHop (s : State) (dest : Nat) : Option Nat :=
  let r := s.routeOf dest
  (s.hopTo (if bitOf r 16 then r.toNat % 2 ^ 16 else dest)).map fun h => linkNeighbour h.1 h.2.1

/-! ## The frames of a port (R374, R377) -/

def Group.field (g : Group) (off n : Nat) : Nat := fieldAt g.entry off n
def Group.resSlots (g : Group) : Nat := natBits (g.field 0 4) 8 6
def Group.ringNext (g : Group) : Nat := g.field 0xC 2
def Group.ringPrev (g : Group) : Nat := g.field 0xE 2
def Group.parent (g : Group) : Nat := g.field 0x10 2
def Group.children (g : Group) : List Nat := ((List.range 8).map fun k => g.field (0x14 + 2 * k) 2).filter (· != 0xFFFF)
/-- The neighbours of this member in the tree. -/
def Group.tree (g : Group) : List Nat := (if g.parent = 0xFFFF then [] else [g.parent]) ++ g.children

/-- The neighbours of this module that a group's ring or tree uses. -/
def State.groupHops (s : State) (g : Group) : List Nat :=
  ((g.ringNext :: g.ringPrev :: g.tree).filterMap s.firstHop).eraseDups

/-- The groups that reserve positions of a port's frame, one entry for each position, in order of loading. -/
def State.reservations (s : State) (p : Nat) : List Nat :=
  s.leat.groups.flatMap fun g => if (s.groupHops g).contains (p / 3) then List.replicate g.resSlots g.idx else []

/-! ## Sending (R361, R363) -/

/-- The waiting flits of a port that a credit admits, the oldest of each channel. -/
def LeatPort.ready (x : LeatPort) : List (BitVec 256 × List Byte) :=
  let vc (f : BitVec 256 × List Byte) : Nat := (parseFlit f.1).vc.toNat
  (List.range 8).filterMap fun v => if 0 < x.credit v then x.waiting.find? fun f => vc f == v else none

/-- The flit that takes the next codeword of a port: one of the group that the position is reserved to, and whether it is; else that of the
next channel in rotation. -/
def LeatPort.serve (x : LeatPort) (owners : List Nat) : Option ((BitVec 256 × List Byte) × Bool) :=
  let ofGroup (f : BitVec 256 × List Byte) : Bool := owners[x.frame]? == some (parseFlit f.1).group.toNat
  match x.ready.find? ofGroup with
  | some f => some (f, true)
  | none =>
    let turn (f : BitVec 256 × List Byte) : Nat := ((parseFlit f.1).vc.toNat + 7 - x.lastVc) % 8
    ((List.range 8).findSome? fun k => x.ready.find? fun f => turn f == k).map fun f => (f, false)

/-- A waiting flit leaves by its port: it takes a credit and a place in the replay store of 1,024. -/
def State.sendFlit (s : State) (p : Nat) (f : BitVec 256 × List Byte) (reserved : Bool) : State :=
  let x := s.port p
  let vc := (parseFlit f.1).vc.toNat
  let (h, y) := x.stamp (parseFlit f.1)
  let out := ((h.seal f.2).bits, f.2)
  let y := { y with txNext := y.txNext + 1, replay := y.replay ++ [out], sent := out :: y.sent, frame := (y.frame + 1) % 64,
                    lastVc := if reserved then y.lastVc else vc, credits := cellSet (fullCredits vc) vc (x.credit vc - 1) y.credits,
                    waiting := y.waiting.erase f }
  ((s.onPort p fun _ => y).tally (portPage p) 0 1).tally (portPage p) 15 (boolNat reserved)

/-- Sends the waiting flits of a port that a credit and the replay store admit. -/
def State.pumpPort (s : State) (p : Nat) : (fuel : Nat) → State
  | 0 => s
  | k + 1 =>
    let x := s.port p
    if x.st ≠ 2 ∨ 1024 ≤ x.replay.length then s
    else match x.serve (s.reservations p) with
      | none => s.tally (portPage p) 9 (boolNat !x.waiting.isEmpty)
      | some (f, reserved) => (s.sendFlit p f reserved).pumpPort p k

/-- Sends what a port can send. -/
def State.pump (s : State) (p : Nat) : State := s.pumpPort p ((s.port p).waiting.length + 1)

/-- A flit is to leave by a port. -/
def State.portSend (s : State) (p : Nat) (h : FlitHdr) (payload : List Byte) : State :=
  (s.onPort p fun x => { x with waiting := x.waiting ++ [(h.bits, payload)] }).pump p

/-! ## Routing of flits (R364, R370 to R372) -/

/-- Data flits and control flits by type. -/
def FlitHdr.data (h : FlitHdr) : Bool := h.type_ == 1

/-- The header as it leaves this module: phase 1 from the waypoint on, the dateline bit set on a wrap link and cleared on entering
a dimension (R364, R371). A control flit, whose channel shows no phase, leaves its waypoint without naming it. `came` is the dimension it
arrived in. -/
def FlitHdr.leave (h : FlitHdr) (self : Nat) (came : Option Nat) (d : Nat) (wrap : Bool) : FlitHdr :=
  let line := if wrap then true else if came == some d then bitOf h.vc 0 else false
  if h.data then
    let phase := bitOf h.vc 1 || h.waypoint.toNat == self
    { h with vc := BitVec.ofNat 3 (boolNat line + 2 * boolNat phase) }
  else { h with vc := BitVec.ofNat 3 (4 + boolNat line), waypoint := if h.waypoint.toNat = self then 0xFFFF else h.waypoint }

/-- Where a flit is going from here: its waypoint in phase 0, else its destination. -/
def FlitHdr.target (h : FlitHdr) (self : Nat) : Nat :=
  let w := h.waypoint.toNat
  if w = 0xFFFF ∨ w = self ∨ (h.data = true ∧ bitOf h.vc 1 = true) then h.dest.toNat else w

/-- A flit moves on toward its target, or waits where no port toward its next hop is live: ROUTE_BLOCKED, once per neighbour. -/
def State.moveOn (s : State) (from_ : Option Nat) (h : FlitHdr) (payload : List Byte) : State :=
  let self := s.moduleId
  match s.hopTo (h.target self) with
  | none => s.freeBuffer from_ h
  | some (d, plus, wrap) =>
    let nb := linkNeighbour d plus
    let live := s.livePorts nb
    match live[if h.data then h.offset.toNat % max 1 live.length else 0]? with
    | none =>
      let s := { s with leat := { s.leat with held := s.leat.held ++ [{ port := from_, header := h.bits, payload := payload }] } }
      if s.leat.blocked.contains nb then s
      else { s with leat := { s.leat with blocked := s.leat.blocked ++ [nb] } }.raise .leat 5
    | some p =>
      let out := h.leave self (from_.map fun q => q / 6) d wrap
      let s := s.freeBuffer from_ h
      let s := if from_.isSome then s.tally (portPage p) 14 1 else s
      s.portSend p out payload

/-- Is a destination refused at the source? -/
def State.unreachable (s : State) (dest : Nat) : Bool := bitOf (s.routeOf dest) 17 || !s.routed dest || s.moduleId == 0xFFFF

/-- A flit of this module takes its route from the route table. -/
def State.takeRoute (s : State) (h : FlitHdr) : FlitHdr :=
  let r := s.routeOf h.dest.toNat
  { h with src := BitVec.ofNat 16 s.moduleId, waypoint := if bitOf r 16 then BitVec.ofNat 16 r.toNat else 0xFFFF }

/-- Sends a flit of this module; a destination that is refused gets none. -/
def State.launch (s : State) (h : FlitHdr) (payload : List Byte) : State :=
  if s.unreachable h.dest.toNat then s
  else
    let h := s.takeRoute h
    let s := if h.waypoint = 0xFFFF then s else s.tally .leat 9 1
    s.moveOn none h (pad512 payload)

/-- Flits that wait for a live port try again; those of this module take the route table's present route. A neighbour with a live port again
is blocked no longer. -/
def State.retryBlocked (s : State) : State :=
  let self := s.moduleId
  let (mine, rest) := s.leat.held.partition fun f => (parseFlit f.header).dest.toNat != self
  ({ s with leat := { s.leat with held := rest, blocked := s.leat.blocked.filter fun nb => (s.livePorts nb).isEmpty } }).forAll mine fun s f =>
    let h := parseFlit f.header
    if f.port.isNone then s.launch h f.payload else s.moveOn f.port h f.payload

/-! ## Width and training (R365, R366, R368) -/

/-- Lanes of a width code. -/
def widthLanes (w : Nat) : Nat := 8 / 2 ^ w

/-- A port goes down: PORT_DOWN. -/
def State.portDown (s : State) (p : Nat) : State := (s.onPort p fun x => { x with st := 0, lanes := 0, fails := 0 }).raise (portPage p) 1

/-- A port begins to retrain at a width code, or goes down where the code lies below MIN_WIDTH (R365). -/
def State.portRetrain (s : State) (p w : Nat) : State :=
  if 2 < w ∨ s.fld (portPage p) 0x100 1 2 < w then s.portDown p
  else (s.onPort p fun x => { x with st := 3, width := w }).tally (portPage p) 11 1

/-- LANE_DROP: a lane in use loses lock or passes LANE_ERR_LIMIT, and the port retrains at the next width. -/
def laneDrop (port : Fin 24) (lane : Fin 8) (s : State) : State :=
  let p := port.val
  let x := s.port p
  if !s.pageLive (portPage p) || x.st != 2 || !bitOf x.lanes lane.val then s
  else
    let (_, s) := s.takeInjAt (portPage p) 3 lane.val
    let s := (s.tally (portPage p) 12 1).raise (portPage p) 0
    let s := s.onPort p fun x => { x with badLanes := x.badLanes ||| BitVec.ofNat 8 (2 ^ lane.val) }
    s.portRetrain p (x.width + 1)

/-- LANE_DROP. -/
def execLaneDrop (port : Fin 24) (lane : Fin 8) (s : State) : Host.Outcome State Fault Refusal := .next (laneDrop port lane s)

/-- TRAIN_ATTEMPT: a down, enabled port attempts to train. -/
def trainAttempt (port : Fin 24) (s : State) : State :=
  let p := portPage port.val
  if !s.pageLive p || s.refHeld || (s.port port.val).st != 0 || !s.bit p 0x100 0 || s.unitOut (7, port.val) then s
  else s.onPort port.val fun x => { x with st := 1, width := 0, badLanes := 0 }

/-- TRAIN_ATTEMPT. -/
def execTrainAttempt (port : Fin 24) (s : State) : Host.Outcome State Fault Refusal := .next (trainAttempt port s)

/-- PORT_CTL.RETRAIN: an up port retrains at the widest width. -/
def State.retrainPort (s : State) (p : Nat) : State :=
  if (s.port p).st = 2 then (s.onPort p fun x => { x with badLanes := 0 }).portRetrain p 0 else s

/-- A write of PORT_CTL.ENABLE: 0 holds the transmitter idle, 1 lets the port train again. -/
def State.portEnable (s : State) (p : Nat) : State :=
  let x := s.port p
  if s.bit (portPage p) 0x100 0 then (if x.st = 5 then s.onPort p fun x => { x with st := 0 } else s)
  else if x.st = 5 then s
  else
    let s := s.onPort p fun x => { x with st := 5, lanes := 0 }
    if x.st = 2 ∨ x.st = 3 then s.raise (portPage p) 1 else s

/-- A reference loss: every port not disabled holds (R368). -/
def State.portsHold (s : State) : State :=
  s.forAll (List.range 24) fun s p => if (s.port p).st = 5 then s else s.onPort p fun x => { x with st := 4 }

/-- The reference has returned: held ports train again. -/
def State.portsRelease (s : State) : State :=
  s.forAll (List.range 24) fun s p => if (s.port p).st = 4 then s.onPort p fun x => { x with st := 1, width := 0, badLanes := 0 } else s

/-- PORT_TRAIN_DONE: training ends with the lanes that lock. Two, four or eight within MIN_WIDTH bring the port up; three retrains in
a row that fail, or a failed training, leave it down. -/
def portTrainDone (port : Fin 24) (lanes : BitVec 8) (partner : BitVec 16) (s : State) : State :=
  let p := port.val
  let x := s.port p
  if !s.pageLive (portPage p) || s.refHeld || !(x.st == 1 || x.st == 3) then s
  else
    let n := ((List.range 8).filter fun k => bitOf lanes k).length
    match [0, 1, 2].find? fun w => widthLanes w == n && (x.st == 1 || decide (x.width ≤ w)) with
    | some w =>
      if s.fld (portPage p) 0x100 1 2 < w then (if x.st = 1 then s.onPort p fun x => { x with st := 0, lanes := 0 } else s.portDown p)
      else
        let s := s.onPort p fun x => { x with st := 2, width := w, lanes := lanes, partner := partner, fails := 0 }
        ((s.raise (portPage p) 2).pump p).retryBlocked
    | none =>
      if x.st = 1 then s.onPort p fun x => { x with st := 0, lanes := 0 }
      else if 2 ≤ x.fails then s.portDown p
      else s.onPort p fun x => { x with fails := x.fails + 1 }

/-- PORT_TRAIN_DONE. -/
def execPortTrainDone (port : Fin 24) (lanes : BitVec 8) (partner : BitVec 16) (s : State) : Host.Outcome State Fault Refusal :=
  .next (portTrainDone port lanes partner s)

/-- The write of ROUTE_DATA (R396): the entry at ROUTE_IDX, which rises by one. -/
def State.routeWrite (s : State) (w : W32) : State :=
  let i := s.fld .leat 0x118 0 16
  let s := { s with leat := { s.leat with routes := cellSet 0 i w s.leat.routes } }
  (s.putFld .leat 0x118 0 16 (i + 1)).retryBlocked

/-! ## Retry (R360 to R362) -/

/-- Sends every unacknowledged flit again from a number on; sixteen replays of one flit retrain the port. -/
def State.replayFrom (s : State) (p : Nat) (seq : BitVec 16) : State :=
  let x := s.port p
  let again := x.replay.dropWhile fun f => (parseFlit f.1).seq != seq
  if again.isEmpty then s
  else
    let out := again.map fun f => ((((parseFlit f.1)).seal f.2).bits, f.2)
    let s := s.onPort p fun x =>
      { x with sent := out.reverse ++ x.sent, replays := x.replays + 1, frame := (x.frame + again.length) % 64 }
    let s := s.tally (portPage p) 7 again.length
    let s := s.tally (portPage p) 0 again.length
    if 16 ≤ x.replays + 1 then (s.onPort p fun x => { x with replays := 0 }).portRetrain p x.width else s

/-- An acknowledgement frees the flits before the number it names. -/
def State.ackTo (s : State) (p : Nat) (ack : BitVec 16) : State :=
  let x := s.port p
  if x.replay.any (fun f => (parseFlit f.1).seq == ack) || ack == x.txNext then
    let left := x.replay.dropWhile fun f => (parseFlit f.1).seq != ack
    (s.onPort p fun x => { x with replay := left, replays := if left.length < x.replay.length then 0 else x.replays }).pump p
  else s

/-- One link NACK names the number expected, until its flit arrives. -/
def State.nack (s : State) (p : Nat) : State :=
  if (s.port p).nacked then s
  else ((s.onPort p fun x => { x with nacked := true }).tally (portPage p) 6 1).sendLink p 3 []

/-- ACK_TIMEOUT: the oldest unacknowledged flit is 20 µs old. -/
def ackTimeout (port : Fin 24) (s : State) : State :=
  let p := port.val
  let x := s.port p
  if s.halted || x.st != 2 then s
  else match x.replay with
    | [] => s
    | f :: _ => (s.tally (portPage p) 8 1).replayFrom p (parseFlit f.1).seq

/-- ACK_TIMEOUT. -/
def execAckTimeout (port : Fin 24) (s : State) : Host.Outcome State Fault Refusal := .next (ackTimeout port s)

/-- What every flit brings for its link: the acknowledgement, unless an injection withholds it, and the credits. -/
def State.linkFields (s : State) (p : Nat) (h : FlitHdr) : State :=
  let (held, s) := if s.injects (portPage p) 4 then (true, s.injectedTimed (portPage p)) else (false, s)
  let s := s.onPort p fun x =>
    let vc := h.creditVc.toNat
    { x with credits := cellSet (fullCredits vc) vc (min (fullCredits vc) (x.credit vc + h.credits.toNat)) x.credits }
  if held then s.pump p else (s.ackTo p h.ack).pump p

end Sys2Proof.Machine
end

