-- ==== Sys2Proof/Machine/Leat.lean ====
section
/-! DEFINITION. Leat groups (chapter 10): group entries, channel operations, CLEAR, RETRACT and the step gate, weigh and setting
digests in CLEARs (chapters 11 and 16), epochs, arriving flits, time. -/

namespace Sys2Proof.Machine

/-! ## Group entries (R374 to R377) -/

def Group.valid (g : Group) : Bool := natBits (g.field 0 4) 0 1 == 1
def Group.epoch (g : Group) : W32 := BitVec.ofNat 32 (g.field 4 4)
def Group.nmemb (g : Group) : Nat := g.field 8 2
def Group.rank (g : Group) : Nat := g.field 0xA 2
def Group.runOf (g : Group) (step : Nat) : Nat := min 3 (cellGet 0 step g.runs)
/-- The rank of a member. -/
def Group.rankOf (g : Group) (id : Nat) : Nat := g.members.findIdx (· == id)

/-- A channel entry (R375). -/
structure Channel where
  kind   : Nat
  bf16   : Bool
  recv   : Bool
  root   : Nat
  shard  : Nat
  result : Nat
deriving DecidableEq, Repr

def Group.channel (g : Group) (c : Nat) : Channel :=
  let o := 0x40 + 16 * c
  let w := g.field o 4
  { kind := natBits w 0 3, bf16 := natBits w 3 1 == 1, recv := natBits w 4 1 == 1, root := natBits w 16 16, shard := g.field (o + 4) 4,
    result := g.field (o + 8) 8 }

/-- The reserved fields of a group entry, and the other conditions of R376. -/
def Group.bad (g : Group) (self : Nat) : Bool :=
  let w0 := g.field 0 4
  natBits w0 1 7 != 0 || natBits w0 14 18 != 0 || g.field 0x12 2 != 0 || g.field 0x24 4 != 0 || g.field 0x36 2 != 0
    || g.field 0x38 8 != 0 || ((g.entry.drop 0x140).any (· != 0))
    || decide (g.nmemb ≤ g.rank) || g.members.getD g.rank 0xFFFF != self
    || (g.ringNext :: g.ringPrev :: g.children).any (fun id => !g.members.contains id)
    || (List.range 16).any fun c =>
        let w := g.field (0x40 + 16 * c) 4
        let e := g.channel c
        natBits w 5 11 != 0 || e.shard % 512 != 0 || e.result % 512 != 0

/-- Would a group bring the reservations of a port above 56 positions (R377)? -/
def State.reserveFull (s : State) (g : Group) : Bool :=
  (s.groupHops g).any fun nb =>
    decide (56 < g.resSlots + ((s.leat.groups.filter fun o => o.idx != g.idx && (s.groupHops o).contains nb).map (·.resSlots)).sum)

/-! ## Sending for a group -/

/-- Sends a flit of a group, with a copy kept for a refusal (R378). -/
def State.groupSend (s : State) (g : Group) (h : FlitHdr) (payload : List Byte) : State :=
  let h := { h with group := BitVec.ofNat 12 g.idx, epoch := g.epoch }
  let pl := pad512 payload
  let s : State := { s with leat := { s.leat with copies := s.leat.copies ++ [{ port := none, header := h.bits, payload := pl }] } }
  s.launch h pl

/-- The step that low 32 bits name: the nearest to the group's open step (R379, R395). -/
def Group.stepOf (g : Group) (low : W32) : Nat :=
  let d := (low - BitVec.ofNat 32 g.open_).toNat
  if d < 2 ^ 31 then g.open_ + d else g.open_ + d - 2 ^ 32

/-! ## Channel operations: what each kind handles (R380 to R383) -/

def ChannelOp.d (o : ChannelOp) : SDesc := parseDesc o.desc
/-- Bytes of FP32 source or result in one unit of a shard. -/
def Channel.unitBytes (c : Channel) : Nat := if c.bf16 ∧ (c.kind = 1 ∨ c.kind = 2) then 1024 else 512
/-- Units of one shard. -/
def Channel.shardUnits (c : Channel) : Nat := (c.shard + c.unitBytes - 1) / c.unitBytes

/-- This member's part in an operation: it reads its source, and how many branches lie below it. -/
structure Part where
  /-- units handled on this member, units and bytes of its result -/
  total   : Nat
  units   : Nat
  bytes   : Nat
  /-- its source is read -/
  reads   : Bool
deriving DecidableEq, Repr

def Group.part (g : Group) (c : Channel) (o : ChannelOp) : Part :=
  let n := o.d.total
  let nu := (n + 511) / 512
  let at_ := g.rank == c.root
  match c.kind with
  | 1 => { total := g.nmemb * c.shardUnits, units := c.shardUnits, bytes := c.shard, reads := true }
  | 2 => { total := g.nmemb * c.shardUnits, units := g.nmemb * c.shardUnits, bytes := g.nmemb * c.shard, reads := true }
  | 3 => { total := nu, units := nu, bytes := n, reads := at_ }
  | 4 => { total := nu, units := if at_ then 0 else nu, bytes := if at_ then 0 else n, reads := at_ }
  | _ => { total := nu, units := if at_ then nu else 0, bytes := if at_ then n else 0, reads := !at_ }

/-- The members to which this one sends its units on. -/
def Group.below (g : Group) (c : Channel) (o : ChannelOp) : List Nat :=
  match c.kind with
  | 3 => g.tree.filter (· != o.up)
  | 4 => g.tree.filter (· != o.up)
  | 5 => if g.rank = c.root then [] else [g.members.getD c.root 0xFFFF]
  | _ => []

/-- Every branch below has acknowledged a number of units. -/
def Group.acked (g : Group) (c : Channel) (o : ChannelOp) : Nat :=
  (g.below c o).foldl (fun a id => min a (((o.acks.find? fun x => x.1 == id).map (·.2)).getD 0)) ((o.d.total + 511) / 512)

/-- Where unit k of the result lies, and its bytes. -/
def Channel.place (c : Channel) (o : ChannelOp) (k : Nat) : Nat × Nat :=
  match c.kind with
  | 1 => (k * c.unitBytes, min c.unitBytes (c.shard - k * c.unitBytes))
  | 2 =>
    let u := k % c.shardUnits
    (k / c.shardUnits * c.shard + u * c.unitBytes, min c.unitBytes (c.shard - u * c.unitBytes))
  | _ => (512 * k, min 512 (o.d.total - 512 * k))

/-- Bytes of the result written in order. -/
def Channel.inOrder (c : Channel) (o : ChannelOp) (p : Part) : Nat :=
  if p.units ≤ o.written then p.bytes else (c.place o o.written).1

/-- The transfer of an operation, as the records of the sluices show it. -/
def ChannelOp.transfer (o : ChannelOp) : Transfer := newTransfer o.xfer o.system o.descAddr o.desc o.pc

/-- Is `y` the operation `o`? -/
def ChannelOp.same (o y : ChannelOp) : Bool := y.mill == o.mill && y.queue == o.queue && y.xfer == o.xfer

def State.onOp (s : State) (g : Nat) (o : ChannelOp) (f : ChannelOp → ChannelOp) : State :=
  s.onGroup g fun x => { x with ops := x.ops.map fun y => if o.same y then f y else y }

/-- An operation as its group holds it now. -/
def State.opNow (s : State) (gi : Nat) (o : ChannelOp) : Option ChannelOp := (s.group gi).bind fun g => g.ops.find? o.same

/-- The transfer of an operation, while it is in its queue. -/
def State.opXfer (s : State) (o : ChannelOp) : Option Transfer := (s.queue o.mill o.queue).xfers.find? fun t => t.id == o.xfer

/-- An operation leaves its group and its queue; what other transfers of the queue held for it they may post (R264). -/
def State.endOp (s : State) (g : Nat) (o : ChannelOp) : State :=
  let s := s.onGroup g fun x => { x with ops := x.ops.filter fun y => !o.same y }
  (s.onQueue o.mill o.queue fun q => q.dropXfer o.xfer).postQueue o.mill o.queue

/-! ## Reading the source and writing the result (R263, R266, R268) -/

/-- A stop of an operation, with the chunk of its transfer that meets it. -/
abbrev LeatStop := PlanStop × Nat

/-- What the bytes of a collective count at the sluices (R278): granules, whose round trip ends within the command, and bytes. -/
def State.leatCount (s : State) (o : ChannelOp) (write : Bool) (a n : Nat) : State :=
  let p : Page := .sluice o.mill
  let s := (s.tally p 14 (granules a n).length).tally p (if write then 3 else 2) n
  if (physPort a).any (fun r => r.mill != o.mill) then s.tally p 4 n else s

/-- Reads the pieces of a unit at their ports. -/
def State.leatSegs (s : State) (o : ChannelOp) : List Seg → Except PlanStop (List Byte) × State
  | [] => (.ok [], s)
  | g :: rest =>
    let go (bs : List Byte) (s : State) : Except PlanStop (List Byte) × State :=
      match s.leatSegs o rest with
      | (.ok cs, s) => (.ok (bs ++ cs), s)
      | r => r
    let fault (c a : Nat) (inj : Bool) : PlanStop := .fault { cause := c, side := 0, addr := a, contract := false, injected := inj }
    match g.src with
    | .mem a =>
      match s.partsRead o.mill none [(a, g.len)] with
      | (.ok bs, s) => go bs (s.leatCount o false a g.len)
      | (.error (.bad w i), s) => (.error (fault 10 w i), s.memHistory o.mill w i)
      | (.error _, s) => (.error .wait, s)
    | .granary k =>
      match s.pinRead o.mill (k % 0x6000000) g.len with
      | (some (off, i), s) => (.error (fault 13 off i), s)
      | (none, s) => go (readBytes s.granary k g.len) s
    | l => go (s.locRead l g.len) s

/-- Reads bytes of an operation's source in iteration order (R259, R379). Their chunks have been translated. -/
def State.leatRead (s : State) (o : ChannelOp) (pos len : Nat) : Except LeatStop (List Byte) × State :=
  let d := o.d
  let c := pos / d.chunk
  match (s.planRuns o.mill o.queue d true .empty (runsOf d (len + 1) pos (pos + len))).1 with
  | .error e => (.error (e, c), s)
  | .ok p =>
    if s.rowHeld p.segs then (.error (.wait, c), s)
    else match s.leatSegs o p.segs with
      | (.error .wait, _) => (.error (.wait, c), s)
      | (.error e, s) => (.error (e, c), s)
      | (.ok bs, s) => (.ok bs, s)

/-- Writes the translated pieces of a unit of the result. -/
def State.leatPut (s : State) (o : ChannelOp) (ps : List (Nat × Nat)) (bs : List Byte) (c : Nat) : Except LeatStop Unit × State :=
  match s.partsWrite o.mill none ps bs with
  | (.ok (), t) => (.ok (), (t.forAll ps fun t p => t.leatCount o true p.1 p.2).tally .leat 12 bs.length)
  | (.error (.bad w i), t) =>
    (.error (.fault { cause := 10, side := 1, addr := w, contract := false, injected := i }, c), t.memHistory o.mill w i)
  | (.error _, _) => (.error (.wait, c), s)

/-- Writes bytes of an operation's result at byte `at_` of it. -/
def State.leatWrite (s : State) (o : ChannelOp) (base at_ : Nat) (bs : List Byte) : Except LeatStop Unit × State :=
  let c := at_ / o.d.chunk
  match s.placeRun o.mill o.queue 0 ((base + at_ : Nat) : Int) bs.length 1 with
  | (.error e, s) => (.error (e, c), s)
  | (.ok (ls, _), s) =>
    if s.rowHeld (ls.map fun l => { src := .nowhere, dst := l.1, len := l.2 }) then (.error (.wait, c), s)
    else s.leatPut o (ls.filterMap fun l => match l.1 with | .mem a => some (a, l.2) | _ => none) bs c

/-- A stop met in reading or writing (R266, R268): a page fault that can be resolved parks the queue, and what met it is done again after the
resume; any other fault ends the operation. Nothing else is done for a queue that is parked. -/
def State.leatStop (s : State) (o : ChannelOp) (e : LeatStop) : State :=
  match e with
  | (.wait, _) => s
  | (.fault f, c) =>
    let t := (s.opXfer o).getD o.transfer
    if resolvable f.cause then (if (s.queue o.mill o.queue).parked.isSome then s else s.park o.mill o.queue t f.cause f.side f.addr c)
    else
      let s := s.dropChannelOp o.mill o.queue { t with desc := o.desc }
      if (s.opXfer o).isSome then s.chunkFault o.mill o.queue t c f
      else s.sluFault o.mill o.queue t f.cause f.side f.addr c f.contract f.injected

/-- A queue whose operation has gone on after a resume is no longer marked (R267). -/
def State.leatResumed (s : State) (o : ChannelOp) : State := s.onQueue o.mill o.queue fun q => { q with resumed := false }

/-- FP32 words of a unit as they travel, and back (R382: WIRE_BF16 rounds before sending and widens exactly on arrival). -/
def toWire (bf : Bool) (ws : List W32) : List Byte :=
  if bf then ws.flatMap fun w => leBytes 2 (toBF16 (f32 w)).toNat else ws.flatMap fun w => leBytes 4 w.toNat

def words4 (bs : List Byte) : List W32 := (List.range (bs.length / 4)).map fun i => BitVec.ofNat 32 (fieldAt bs (4 * i) 4)

def fromWire (bf : Bool) (bs : List Byte) : List W32 :=
  if bf then (List.range (bs.length / 2)).map fun i => BitVec.ofNat 32 (2 ^ 16 * fieldAt bs (2 * i) 2) else words4 bs

/-! ## Progress: tokens and tree acknowledgements (R381, R383) -/

/-- A Leat port as an end of traffic on the floor, and the one by which a unit leaves for a member. -/
def portEnd (p : Nat) : MillId × Nat × Nat := (millOf (p / 12), leatNodes.getD (p % 12) (0, 0))
def State.exitEnd (s : State) (m : MillId) (dest unit : Nat) : MillId × Nat × Nat :=
  match (s.firstHop dest).map s.livePorts with
  | some ps => portEnd (ps.getD (unit % max 1 ps.length) (12 * m.num))
  | none => portEnd (12 * m.num)

/-- A data flit of a unit of an operation. -/
def State.sendUnit (s : State) (g : Group) (o : ChannelOp) (dest unit : Nat) (payload : List Byte) : State :=
  s.groupSend g { FlitHdr.blank with type_ := 1, dest := BitVec.ofNat 16 dest, channel := BitVec.ofNat 4 o.channel,
                                     len := BitVec.ofNat 10 payload.length, run := BitVec.ofNat 2 (g.runOf o.step),
                                     step := BitVec.ofNat 32 o.step, offset := BitVec.ofNat 24 unit } payload

/-- Sends a unit to some members; where one is refused by the route table the operation ends with UNROUTABLE (R371). -/
def State.sendUnits (s : State) (g : Group) (o : ChannelOp) (dests : List Nat) (unit : Nat) (payload : List Byte) : State :=
  if dests.any s.unreachable then (s.endOp g.idx o).leatFault o.mill o.system g.idx 0 4 o.step o.pc 4
  else s.forAll dests fun s id => s.sendUnit g o id unit payload

/-- An operation has handled every unit, written its whole result, and every branch below has acknowledged. -/
def Group.finished (g : Group) (c : Channel) (o : ChannelOp) : Bool :=
  let p := g.part c o
  decide (p.total ≤ o.handled) && decide (p.units ≤ o.written)
    && (c.kind == 1 || c.kind == 2 || decide ((o.d.total + 511) / 512 ≤ g.acked c o))

/-- Tokens that an operation may have posted by now: one for each chunk of result written in order, the last only when it has finished;
one in all where it has no result here. -/
def Group.tokens (g : Group) (c : Channel) (o : ChannelOp) : Nat :=
  let p := g.part c o
  if p.units = 0 then boolNat (g.finished c o)
  else
    let last := (p.bytes + o.d.chunk - 1) / o.d.chunk
    if g.finished c o then last else min (last - 1) (c.inOrder o p / o.d.chunk)

/-- What an operation owes the member above it: an acknowledgement of the units that it and every member below it have written (R383). -/
def State.ackUp (s : State) (g : Group) (c : Channel) (o : ChannelOp) : State :=
  let up := min o.written (g.acked c o)
  if (c.kind = 3 ∨ c.kind = 4 ∨ c.kind = 5) ∧ o.up ≠ 0xFFFF ∧ o.acked < up then
    (s.onOp g.idx o fun o => { o with acked := up }).groupSend g
      { FlitHdr.blank with type_ := 9, vc := 4, dest := BitVec.ofNat 16 o.up, channel := BitVec.ofNat 4 o.channel,
                           run := BitVec.ofNat 2 (g.runOf o.step), step := BitVec.ofNat 32 o.step, offset := BitVec.ofNat 24 up }
      [(9 : Byte)]
  else s

/-- The tokens that an operation has earned go to its transfer, which posts them in its queue's order and leaves when the operation has
finished (R264, R381). A run after a RETRACT earns none again (R389). -/
def State.earn (s : State) (g : Group) (c : Channel) (o : ChannelOp) : State :=
  let k := g.tokens c o
  let fin := g.finished c o
  let s := s.onQueue o.mill o.queue fun q => q.onXfer o.xfer fun t => { t with earned := max t.earned k, ended := t.ended || fin }
  let s := if fin then (s.onOp g.idx o fun o => { o with done := true }).tally (.sluice o.mill) 1 o.d.chunks else s
  s.postQueue o.mill o.queue

/-- What follows the progress of an operation. -/
def State.settleOp (s : State) (gi : Nat) (o : ChannelOp) : State :=
  match s.group gi with
  | none => s
  | some g => match g.ops.find? o.same with
    | none => s
    | some o =>
      let s := s.ackUp g (g.channel o.channel) o
      if o.done then s else s.earn g (g.channel o.channel) o

/-- Unit k of the result has been written. -/
def ChannelOp.wrote (o : ChannelOp) (k : Nat) : ChannelOp :=
  let us := k :: o.units
  let n := ((List.range us.length).takeWhile fun i => us.contains (o.written + i)).length
  { o with written := o.written + n, units := us.filter fun u => o.written + n ≤ u }

/-! ## The units of an operation that begin on this member -/

/-- Writes unit k of the result, which comes over the floor from a port (R373) or from the operation's own source; or meets a stop. -/
def State.putUnit (s : State) (gi : Nat) (o : ChannelOp) (c : Channel) (k : Nat) (bs : List Byte) (port : Option Nat) : Bool × State :=
  match s.leatWrite o c.result (c.place o k).1 bs with
  | (.error e, s) => (false, s.leatStop o e)
  | (.ok (), s) =>
    let s := (s.leatResumed o).onOp gi o (·.wrote k)
    match port, (s.pageEntry o.mill (c.result + (c.place o k).1)) with
    | some p, some e =>
      let a := e.2.frame + (c.result + (c.place o k).1) % pageSize
      (true, match s.locNode o.mill (.mem a) with
        | some goal => s.floorSend o.mill { kind := 0, index := 0, pc := o.pc, slot := 4, system := o.system } (portEnd p) goal a 1
        | none => s)
    | _, _ => (true, s)

/-- The units that begin on this member. -/
def Group.ownUnits (g : Group) (c : Channel) (o : ChannelOp) : Nat :=
  match c.kind with
  | 1 => c.shardUnits
  | 2 => c.shardUnits
  | _ => if (g.part c o).reads then (o.d.total + 511) / 512 else 0

/-- Where own unit u lies: its number in the result, the number it is sent under, and the position and length of its bytes in the source
(R382, R383). -/
structure OwnUnit where
  result : Nat
  sent   : Nat
  pos    : Nat
  len    : Nat
deriving DecidableEq, Repr

def Group.ownUnit (g : Group) (c : Channel) (o : ChannelOp) (u : Nat) : OwnUnit :=
  match c.kind with
  | 1 =>
    let shard := (g.rank + g.nmemb - 1) % max 1 g.nmemb
    let place := c.place o u
    { result := u, sent := shard * c.shardUnits + u, pos := shard * c.shard + place.1, len := place.2 }
  | 2 =>
    let k := g.rank * c.shardUnits + u
    { result := k, sent := k, pos := u * c.unitBytes, len := (c.place o k).2 }
  | _ =>
    let place := c.place o u
    { result := u, sent := u, pos := place.1, len := place.2 }

/-- The members to which the units that begin here go first; a ring of one member sends none. -/
def Group.ownDests (g : Group) (c : Channel) (o : ChannelOp) : List Nat :=
  if c.kind = 1 ∨ c.kind = 2 then (if g.nmemb ≤ 1 then [] else [g.ringNext]) else g.below c o

/-- Does this member write the units that begin on it to its own result? -/
def Group.ownWrites (g : Group) (c : Channel) : Bool :=
  match c.kind with
  | 1 => decide (g.nmemb ≤ 1)
  | 2 => true
  | 3 => true
  | _ => false

/-- The data of a unit goes over the floor from where it lies to the port by which it leaves, in the slots of its queue's stream (R332). -/
def State.unitFlits (s : State) (g : Group) (o : ChannelOp) (c : Channel) (x : OwnUnit) : State :=
  let src : FloorSource := { kind := 1, index := o.queue, pc := o.pc, slot := 4, system := o.system }
  match (s.planRuns o.mill o.queue o.d true .empty (runsOf o.d (x.len + 1) x.pos (x.pos + x.len))).1 with
  | .error _ => s
  | .ok p => s.forAll (g.ownDests c o) fun s id => s.forAll p.segs fun s seg =>
      match s.locNode o.mill seg.src with
      | some a => s.floorSend o.mill src a (s.exitEnd o.mill id x.sent) x.pos ((seg.len + 511) / 512)
      | none => s

/-- A unit that begins here has been read and written: it is sent on. -/
def State.ownSent (s : State) (gi : Nat) (g : Group) (o : ChannelOp) (c : Channel) (x : OwnUnit) (bs : List Byte) : State :=
  let s := s.onOp gi o fun o => { o with own := o.own + 1, handled := o.handled + 1 }
  let dests := g.ownDests c o
  s.sendUnits g o dests x.sent (if c.kind = 1 ∨ c.kind = 2 then toWire c.bf16 (words4 bs) else bs)

/-- Handles one unit that begins on this member: its source bytes are read, written to its own result where it has one, and sent on. -/
def State.ownUnit (s : State) (gi : Nat) (g : Group) (o : ChannelOp) (c : Channel) (u : Nat) : Bool × State :=
  let x := g.ownUnit c o u
  match s.leatRead o x.pos x.len with
  | (.error e, s) => (false, s.leatStop o e)
  | (.ok bs, s) =>
    match (if g.ownWrites c then s.putUnit gi o c x.result bs none else (true, s)) with
    | (false, s) => (false, s)
    | (true, s) => (true, ((s.leatResumed o).unitFlits g o c x).ownSent gi g o c x bs)

/-- The chunks of an operation's source that have been translated; a run after its transfer has left its queue finds them all. -/
def State.chunksPlanned (s : State) (o : ChannelOp) : Nat := match s.opXfer o with | some t => t.next | none => o.d.chunks

/-- Handles the units that begin on this member from the one reached on, up to a stop, or to a chunk not yet translated. -/
def State.ownRun (s : State) (gi : Nat) (o : ChannelOp) : (fuel : Nat) → State
  | 0 => s
  | k + 1 =>
    match s.group gi, s.opNow gi o with
    | some g, some o =>
      let c := g.channel o.channel
      let x := g.ownUnit c o o.own
      if g.ownUnits c o ≤ o.own ∨ s.chunksPlanned o * o.d.chunk < x.pos + x.len ∧ s.chunksPlanned o < o.d.chunks then s
      else match s.ownUnit gi g o c o.own with
        | (false, s) => s
        | (true, s) => s.ownRun gi o k
    | _, _ => s

/-- Translates the source of an operation chunk by chunk (R263), from the one reached on, up to a stop; one that reads no source has
nothing to translate. -/
def State.leatPlan (s : State) (o : ChannelOp) (reads : Bool) : (fuel : Nat) → Option LeatStop × State
  | 0 => (none, s)
  | k + 1 =>
    let c := s.chunksPlanned o
    if o.d.chunks ≤ c then (none, s)
    else
      let next (s : State) (p : ChunkPlan) : State :=
        let s := (s.tally (.sluice o.mill) 5 p.rows).tally (.sluice o.mill) 6 p.skips
        s.onQueue o.mill o.queue fun q => { q.onXfer o.xfer (fun t => { t with next := c + 1 }) with resumed := false }
      if !reads then (next s .empty).leatPlan o reads k
      else match s.planChunk o.mill o.queue o.d true c with
        | (.error .wait, _) => (some (.wait, c), s)
        | (.error e, s) => (some (e, c), s)
        | (.ok p, s) => (next s p).leatPlan o reads k

/-- An operation goes on from where it has come to (R263, R266): its chunks are translated, the units that begin here are handled as far as
their chunks are, and then the stop that the translation met takes effect. -/
def State.opGoOn (s : State) (gi : Nat) (o : ChannelOp) : State :=
  if (s.queue o.mill o.queue).parked.isSome then s
  else match s.group gi, s.opNow gi o with
    | some g, some o =>
      let c := g.channel o.channel
      let (stop, s) := s.leatPlan o (g.part c o).reads (o.d.chunks + 1)
      let s := (s.ownRun gi o (g.ownUnits c o + 1)).settleOp gi o
      match stop, s.opNow gi o with
      | some e, some o => s.leatStop o e
      | _, _ => s
    | _, _ => s

/-- The operations of a queue that have units of their own still to handle or chunks to translate go on. -/
def State.queueGoOn (s : State) (m : MillId) (q : Nat) : State :=
  s.forAll s.leat.groups fun s g => s.forAll (g.ops.filter fun o => o.mill == m && o.queue == q) fun s o =>
    if s.chunksPlanned o < o.d.chunks ∨ o.own < g.ownUnits (g.channel o.channel) o then s.opGoOn g.idx o else s

/-! ## RETRACT (R389, R390) -/

/-- The update operation of a mill that names a group, when it waits at its gate. -/
def State.gateWaiter (s : State) (m : MillId) (gi : Nat) : Option UpdateOp :=
  match s.bolt m with
  | some o => if o.phase = .gate ∧ (parseBDesc o.desc).groupV = true ∧ (parseBDesc o.desc).group = gi then some o else none
  | none => none

/-- The fourth RETRACT of a step shuts its gate for good, and the update operations that wait at it end (R390). -/
def State.retractLimit (s : State) (gi step rank : Nat) : State :=
  let s := (s.onGroup gi fun g => { g with shut := g.shut || step == g.open_ }).raise .leat 2
  let s := s.leatRecord gi rank 3 step 0
  s.forAll [.m0, .m1] fun s m =>
    match s.gateWaiter m gi with
    | some o => if o.step = step then (s.dropUpdate m o).leatFault m o.system gi rank 3 step o.pc 5 else s
    | none => s

/-- The channel operations of a step are run again from their latched descriptors. -/
def State.rerun (s : State) (gi step : Nat) : State :=
  match s.group gi with
  | none => s
  | some g =>
    let again := g.ops.filter fun o => o.step == step
    (s.tally .leat 13 again.length).forAll again fun s o =>
      (s.onOp gi o fun o => { o with own := 0, handled := 0, written := 0, units := [], acks := [], acked := 0 }).opGoOn gi o

/-- The effects of a RETRACT at a member (R389): a new run, the CLEARs of the step discarded, its channel operations run again. -/
def State.retractHere (s : State) (gi step rank : Nat) : State :=
  match s.group gi with
  | none => s
  | some g =>
    let n := cellGet 0 step g.runs + 1
    let now := step == g.open_
    let s := s.onGroup gi fun g =>
      { g with runs := cellSet 0 step n g.runs, clears := g.clears.filter fun r => r.gate != step,
               clearSent := g.clearSent && !now, clearG := if now then none else g.clearG, weighed := g.weighed && !now }
    if 4 ≤ n then s.retractLimit gi step rank else (s.raise .leat 1).rerun gi step

/-- Payload of a CLEAR or RETRACT: the step it carries, the epoch, the run and the rank it comes from, the type of the flit, and for
a CLEAR the digests (R387, R419, R579). -/
def controlPayload (type_ step rank run : Nat) (epoch : W32) (digest : Option (List Byte)) (weigh : Option (Nat × W64)) : List Byte :=
  leBytes 1 type_ ++ leBytes 1 run ++ leBytes 2 rank ++ leBytes 4 epoch.toNat ++ leBytes 6 step ++ List.replicate 18 0
    ++ digest.getD (List.replicate 32 0)
    ++ (match weigh with
        | some (s, d) => leBytes 6 s ++ leBytes 2 0 ++ leBytes 8 d.toNat
        | none => List.replicate 16 0)

/-- Sends a control flit of a gate to the members of the tree, but not back where it came from. -/
def State.treeSend (s : State) (g : Group) (type_ : BitVec 4) (gate run except_ : Nat) (payload : List Byte) : State :=
  s.forAll (g.tree.filter (· != except_)) fun s id =>
    s.groupSend g { FlitHdr.blank with type_ := type_, vc := 4, dest := BitVec.ofNat 16 id, len := BitVec.ofNat 10 payload.length,
                                       run := BitVec.ofNat 2 run, step := BitVec.ofNat 32 gate } payload

/-- This module retracts a step: RETRACT to every member, itself included. -/
def State.retract (s : State) (gi step : Nat) : State :=
  match s.group gi with
  | none => s
  | some g =>
    let s := s.tally .leat 2 1
    let s := s.treeSend g 5 step (g.runOf step) 0xFFFF (controlPayload 5 step g.rank (g.runOf step) g.epoch none none)
    s.retractHere gi step g.rank

/-! ## The step gate (R387, R388, R418 to R421, R579 to R581) -/

/-- A CLEAR for this gate carries the setting digest. -/
def State.digestStep (s : State) (gate : Nat) : Bool := gate % max 1 (s.fld .leat 0x120 24 8) == 0

/-- A CLEAR for this gate carries the weigh digest of the step before it. -/
def State.weighGate (s : State) (gi gate : Nat) : Bool :=
  let every := s.fld .history 0x108 0 16
  every != 0 && s.weighs gi && decide (0 < gate) && (gate - 1) % every == 0

/-- G (R579). -/
def State.settingG (s : State) (g : Group) (step : Nat) : List Byte :=
  sha256 (s.trust.digest ++ leBytes 2 g.idx ++ leBytes 4 g.epoch.toNat ++ leBytes 6 step)

/-- STEP_SKEW at a gate: it stays shut, and the operations that wait at it end with that fault (R230). -/
def State.gateSkew (s : State) (gi : Nat) : State :=
  let s := s.onGroup gi fun g => { g with skew := true }
  s.forAll [.m0, .m1] fun s m =>
    match s.gateWaiter m gi with
    | some o => s.bltFault m o 5 0 0 false
    | none => (s.tally (.bolter m) 13 1).raise (.bolter m) 1

/-- The CLEARs of the present run of the open step. -/
def Group.present (g : Group) : List ClearRec := g.clears.filter fun r => r.gate == g.open_ && r.run == g.runOf g.open_

/-- The value that more than half of the members hold. -/
def majority (vs : List W64) : Option W64 := vs.find? fun v => decide (vs.length < 2 * (vs.filter (· == v)).length)

/-- Fills the weigh record. -/
def State.weighRecord (s : State) (gi rank cause step : Nat) : State :=
  s.record .history 0x140 fun s =>
    (s.setWord .history 0x140 (BitVec.ofNat 32 (gi + 2 ^ 12 * rank + 2 ^ 28 * cause))).setWord64 .history 0x148 (BitVec.ofNat 64 step)

/-- Ends every operation of a group with EPOCH_CHANGED (R384). -/
def State.endGroupOps (s : State) (g : Group) : State :=
  s.forAll g.ops fun s o =>
    let s := s.endOp g.idx o
    if o.done then s else s.leatFault o.mill o.system g.idx 0 2 o.step o.pc 4

/-- GROUP_LOAD.DROP: the loaded copy is removed. -/
def State.groupDrop (s : State) (gi : Nat) : State :=
  match s.group gi with
  | none => s
  | some g =>
    let s := s.endGroupOps g
    { s with leat := { s.leat with groups := s.leat.groups.filter fun x => x.idx != gi,
                                   copies := s.leat.copies.filter fun f => (parseFlit f.header).group.toNat != gi,
                                   refused := s.leat.refused.filter fun f => (parseFlit f.header).group.toNat != gi } }

/-- Compares the weigh digests of a gate whose CLEARs have all arrived (R420, R421). -/
def State.weighCompare (s : State) (g : Group) (recs : List ClearRec) : State :=
  let step := g.open_ - 1
  let of_ (k : Nat) : W64 := (((recs.find? fun r => r.rank == k).bind (·.weigh)).map (·.2)).getD 0
  let vs := (List.range g.nmemb).map of_
  let s := (s.onGroup g.idx fun g => { g with weighed := true }).tally .history 3 1
  match majority vs with
  | none => ((s.onGroup g.idx fun g => { g with shut := true }).raise .history 3).weighRecord g.idx 0 3 step
  | some v =>
    match (List.range g.nmemb).find? fun k => of_ k != v with
    | none => s
    | some odd =>
      let me := of_ g.rank != v
      let s := (s.onGroup g.idx fun g => { g with shut := true }).raise .history 1
      let s := s.weighRecord g.idx odd (if me then 2 else 1) step
      if me then ((s.raise .history 2).groupDrop g.idx).histPending .m0 (11, 0) 9 (of_ g.rank) false else s

/-- Opens the gate of the open step. -/
def State.gateOpen (s : State) (g : Group) : State :=
  let s := s.tally .leat 4 1
  let s := s.onGroup g.idx fun g =>
    { g with open_ := g.open_ + 1, clears := g.clears.filter fun r => g.open_ < r.gate, runs := cellSet 0 g.open_ 0 g.runs, weighed := false,
             clearSent := false, clearG := none, updStep := none, ops := g.ops.filter fun o => g.open_ < o.step || !o.done,
             seen := g.seen.filter fun x => g.open_ < x.2.1 }
  { s with leat := { s.leat with copies := s.leat.copies.filter fun f =>
      let h := parseFlit f.header
      !(h.group.toNat == g.idx && decide (g.stepOf h.step ≤ g.open_)) } }

/-- A gate whose CLEARs have all arrived is shut under DIGEST_HOLD: a carried G differs from the member's own (R580). -/
def State.digestHeld (s : State) (g : Group) : Bool :=
  s.bit .trust 0x104 0 && s.digestStep g.open_ && g.present.any fun r => r.digest != some (s.settingG g r.step)

/-- A CLEAR of the present run that carries another step than the gate's is STEP_SKEW (R388). -/
def State.gateJudge (s : State) (gi : Nat) : State :=
  match s.group gi with
  | none => s
  | some g => if !g.skew && g.present.any (fun r => r.step != g.open_) then s.gateSkew gi else s

/-- Every local channel operation of the open step has written its whole result. -/
def Group.resultsWritten (g : Group) : Bool :=
  g.ops.all fun o => o.step != g.open_ || decide ((g.part (g.channel o.channel) o).units ≤ o.written)

/-- A CLEAR of the present run has arrived from every member. -/
def Group.allClear (g : Group) : Bool := (List.range g.nmemb).all fun k => g.present.any fun r => r.rank == k

/-- The gate of a group's open step opens when a CLEAR of the present run has arrived from every member, and every local channel
operation of the step has written its whole result (R388), unless a skew, a verdict or DIGEST_HOLD keeps it shut. -/
def State.tryGate (s : State) (gi : Nat) : State :=
  let s := s.gateJudge gi
  match s.group gi with
  | none => s
  | some g =>
    if !g.allClear then s
    else
      let s := if s.weighGate gi g.open_ && !g.weighed then s.weighCompare g g.present else s
      match s.group gi with
      | none => s
      | some g => if g.skew || g.shut || s.digestHeld g || !g.resultsWritten then s else (s.gateOpen g).gateJudge gi

/-- A CLEAR for a gate of a group arrives, or this module's own is counted. A later one of the same member replaces it. A digest that
differs is reported, unless the CLEAR skews the step (R580). -/
def State.clearIn (s : State) (gi : Nat) (r : ClearRec) (own : Bool) : State :=
  match s.group gi with
  | none => s
  | some g =>
    if r.gate < g.open_ then s
    else
      let s := s.onGroup gi fun g => { g with clears := r :: g.clears.filter fun x => !(x.rank == r.rank && x.gate == r.gate && x.run == r.run) }
      let differs := !own && r.step == r.gate && s.digestStep r.gate && r.digest != some (s.settingG g r.step)
      let s := if differs && r.run == g.runOf r.gate then (s.leatRecord gi r.rank 6 r.gate 0).raise .leat 3 else s
      s.tryGate gi

/-- Clean so far (R387, R401): no replayable condition found, no toll open, and nothing ending. -/
def State.cleanSoFar (s : State) (m : MillId) : Bool :=
  let x := (s.mill m).miller
  x.faults.isEmpty && x.replay.isNone && x.ending.isNone && !(s.mill m).toll.open_.any fun t => !t.verdict

/-- Every update operation of the weighed step that names the group has completed on both mills (R419). -/
def State.weighReady (s : State) (gi gate : Nat) : Bool :=
  !s.weighGate gi gate || [MillId.m0, .m1].all fun m => (s.mill m).bolter.ops.all fun o =>
    !(o.step + 1 == gate && ((parseBDesc o.desc).groupV && (parseBDesc o.desc).group == gi))

/-- Every channel operation of the open step has sent all its flits: none of them still waits for a port or a credit (R387). -/
def State.allSent (s : State) (g : Group) : Bool :=
  let mine (b : BitVec 256) : Bool :=
    let h := parseFlit b
    h.data && h.group.toNat == g.idx && h.src.toNat == s.moduleId && g.stepOf h.step == g.open_
  (g.ops.all fun o => o.step != g.open_ || decide ((g.part (g.channel o.channel) o).total ≤ o.handled))
    && !s.leat.held.any (fun f => mine f.header) && !s.leat.ports.any fun x => x.waiting.any fun f => mine f.1

/-- A digest with a bit inverted. -/
def flipBytes : List Byte → List Byte
  | [] => []
  | b :: r => (b ^^^ 1) :: r

/-- The CLEAR of a gate as this module forms it (R387, R419, R579): the digest and the weigh digest that its flits carry, and the record of
it, whose digest no injection touches. -/
def State.formClear (s : State) (g : Group) (c : Nat) : Option (List Byte) × ClearRec × State :=
  let dig := s.digestStep g.open_
  let own := s.settingG g c
  let (i3, s) := if dig then s.takeInj .trust 3 else (false, s)
  let (iw, s) := if s.weighGate g.idx g.open_ then s.takeInj .history 1 else (false, s)
  let w := if g.weighStep + 1 = g.open_ then g.weigh else 0
  let weigh := if s.weighGate g.idx g.open_ then some (g.open_ - 1, if iw then w ^^^ 1 else w) else none
  (if dig then some (if i3 then flipBytes own else own) else none,
   { rank := g.rank, gate := g.open_, run := g.runOf g.open_, step := c, digest := if dig then some own else none, weigh := weigh }, s)

/-- May CLEAR be sent for a group's open step (R387, R419, R579), again or for the first time (R581)? -/
def State.clearDue (s : State) (g : Group) (c : Nat) (again : Bool) : Bool :=
  !s.halted && s.pageLive .leat && g.valid && s.allSent g && s.cleanSoFar .m0 && s.cleanSoFar .m1 && s.weighReady g.idx g.open_
    && !(s.digestStep g.open_ && !s.trust.dirty.isEmpty) && (!g.clearSent || again && g.clearG != some (s.settingG g c)) && !g.shut

/-- CLEAR for a gate goes to every member by the tree, and counts here. -/
def State.sendClear (s : State) (g : Group) (c : Nat) (again : Bool) : State :=
  let (G, r, s) := s.formClear g c
  let s := (s.tally .leat 0 1).tally .trust 2 (boolNat again)
  let s := s.onGroup g.idx fun g => { g with clearSent := true, clearG := r.digest }
  let s := s.treeSend g 4 g.open_ r.run 0xFFFF (controlPayload 4 c g.rank r.run g.epoch G r.weigh)
  s.clearIn g.idx r true

/-- CLEAR_SEND: once its conditions hold, CLEAR for the open step goes to every member; again where the setting digest has changed
under DIGEST_HOLD (R581). -/
def clearSend (group : BitVec 12) (s : State) : State :=
  match s.group group.toNat with
  | none => s
  | some g => match g.updStep with
    | none => s
    | some c =>
      let again := g.clearSent && s.digestStep g.open_ && s.bit .trust 0x104 0
      if s.clearDue g c again then s.sendClear g c again else s

/-- CLEAR_SEND. -/
def execClearSend (group : BitVec 12) (s : State) : Host.Outcome State Fault Refusal := .next (clearSend group s)

/-! ## Arriving flits (R372, R378, R385) -/

/-- A unit of a shard that goes round the ring to be summed (R382). -/
def State.sumIn (s : State) (gi : Nat) (g : Group) (o : ChannelOp) (c : Channel) (k : Nat) (data : List Byte) (port : Option Nat) :
    Bool × State :=
  let shard := k / max 1 c.shardUnits
  let u := k % max 1 c.shardUnits
  let place := c.place o u
  let pos := shard * c.shard + place.1
  if s.chunksPlanned o < o.d.chunks ∧ s.chunksPlanned o * o.d.chunk < pos + place.2 then (false, s)
  else match s.leatRead o pos place.2 with
    | (.error e, s) => (false, s.leatStop o e)
    | (.ok bs, s) =>
      let sum := ((fromWire c.bf16 data).zip (words4 bs)).map fun (a, b) => f32Add a b
      let count (s : State) : State := ((s.tally .leat 11 place.2).leatResumed o).onOp gi o fun o => { o with handled := o.handled + 1 }
      if shard ≠ g.rank then (true, (count s).sendUnits g o [g.ringNext] k (toWire c.bf16 sum))
      else match s.putUnit gi o c u (sum.flatMap fun w => leBytes 4 w.toNat) port with
        | (false, s) => (false, s)
        | (true, s) => (true, count s)

/-- A unit of a shard that goes round the ring to be gathered (R383). -/
def State.gatherIn (s : State) (gi : Nat) (g : Group) (o : ChannelOp) (c : Channel) (k : Nat) (data : List Byte) (port : Option Nat) :
    Bool × State :=
  match s.putUnit gi o c k ((fromWire c.bf16 data).flatMap fun w => leBytes 4 w.toNat) port with
  | (false, s) => (false, s)
  | (true, s) =>
    let s := s.onOp gi o fun o => { o with handled := o.handled + 1 }
    (true, if (g.rank + 1) % g.nmemb = k / max 1 c.shardUnits then s else s.sendUnits g o [g.ringNext] k data)

/-- A unit that goes down the tree or to a peer (R383). -/
def State.treeIn (s : State) (gi : Nat) (g : Group) (o : ChannelOp) (c : Channel) (k up : Nat) (data : List Byte) (port : Option Nat) :
    Bool × State :=
  match s.putUnit gi o c k data port with
  | (false, s) => (false, s)
  | (true, s) =>
    let s := s.onOp gi o fun o => { o with handled := o.handled + 1, up := up }
    (true, s.sendUnits g o (g.below c { o with up := up }) k data)

/-- A data unit that another member has sent reaches its operation by a port; the first result says that it is dealt with. A unit that is
no part of the operation is dropped. -/
def State.unitIn (s : State) (gi : Nat) (g : Group) (o : ChannelOp) (h : FlitHdr) (payload : List Byte) (port : Option Nat) : Bool × State :=
  let c := g.channel o.channel
  let k := h.offset.toNat
  let data := payload.take (min 512 h.len.toNat)
  if (s.queue o.mill o.queue).parked.isSome then (false, s)
  else if c.kind = 1 ∨ c.kind = 2 then
    if g.nmemb * c.shardUnits ≤ k then (true, s)
    else if c.kind = 1 then s.sumIn gi g o c k data port else s.gatherIn gi g o c k data port
  else if (g.part c o).units ≤ k then (true, s)
  else s.treeIn gi g o c k h.src.toNat data port

/-- Slot base of a mill's pond area (R435). -/
def State.pondSlot (s : State) (m : MillId) (slot : Bool) : Nat :=
  pageSize * (s.fld64 .pond (0x118 + 8 * m.num) 21 23 + boolNat slot * s.fld .pond 0x128 0 20)

/-- The unit of a half that 24 bits of OFFSET name: the nearest to the latest one received. -/
def nearUnit (last off : Nat) : Nat :=
  let x := 2 ^ 24 * (last / 2 ^ 24) + off
  if 2 ^ 23 + x < last then 2 ^ 24 + x else if 2 ^ 23 + last ≤ x then x - 2 ^ 24 else x

/-- The mills whose halves a copy writes: a retired mill 1 has none. -/
def State.pondMills (s : State) : List MillId := if s.mill1Out then [.m0] else [.m0, .m1]

/-- Where the halves of a slot lie: base and length. -/
def State.slotPlaces (s : State) (slot : Bool) : List (Nat × Nat) :=
  s.pondMills.map fun m => (s.pondSlot m slot, pageSize * s.fld .pond 0x128 0 20)

/-- What a slot held is overwritten: it holds no generation. -/
def NonVol.slotGone (v : NonVol) (slot : Bool) : NonVol :=
  let v := if slot then { v with held1 := false, exp1 := false } else { v with held0 := false, exp0 := false }
  { v with newest := if v.held0 = v.held1 then v.newest else v.held1 }

/-- A slot holds a generation, with its number, its step and where its halves lie; the newest held one is the later under R27. -/
def NonVol.slotHolds (v : NonVol) (slot : Bool) (gen : W32) (step : Nat) (places : List (Nat × Nat)) : NonVol :=
  if slot then
    { v with held1 := true, exp1 := false, gen1 := gen, step1 := step, places1 := places, newest := !v.held0 || serialLater gen v.gen0 }
  else
    { v with held0 := true, exp0 := false, gen0 := gen, step0 := step, places0 := places, newest := v.held1 && !serialLater gen v.gen1 }

/-- STEP of the newest held generation. -/
def NonVol.heldStep (v : NonVol) : Nat := if v.newest then v.step1 else v.step0

/-- Both halves that a peer sent have come: the slot holds the generation of their headers. -/
def State.receptionHeld (s : State) : State :=
  let slot := s.pond.recvSlot
  let at_ := s.pondSlot .m0 slot
  let gen := BitVec.ofNat 32 (s.physNat (at_ + 4) 4)
  let step := s.physNat (at_ + 0x10) 8 % 2 ^ 48
  { s with pond := { s.pond with st := 0 }, nv := s.nv.slotHolds slot gen step (s.slotPlaces slot) }

/-- A unit of a half lands in the slot named by RECEIVE; one that does not fit is dropped, and a port that accepts nothing holds it. -/
def State.pondLand (s : State) (m : MillId) (u : Nat) (data : List Byte) : Bool × State :=
  let at_ := s.pondSlot m s.pond.recvSlot + 512 * u
  if !(decide (512 * u + data.length ≤ pageSize * s.fld .pond 0x128 0 20) && s.inMem at_ 512) then (true, s)
  else match s.portWrite m at_ [(at_, data.length)] with
    | (.wait, _) => (false, s)
    | (_, s) => (true, (({ s with nv := s.nv.slotGone s.pond.recvSlot }).physWrite at_ data).tally .pond 10 data.length)

/-- Unit u of a half from a peer: one of its pages, or one of what lies before them, of which unit 0 is the last. -/
def State.pondUnit (s : State) (m : MillId) (one page : Bool) (u : Nat) (data : List Byte) : Bool × State :=
  match s.pondLand m u data with
  | (false, s) => (false, s)
  | (true, s) =>
    let p := s.pond
    if page then (true, { s with pond := if one then { p with recvAt1 := u } else { p with recvAt0 := u } })
    else if u ≠ 0 then (true, s)
    else
      let s := { s with pond := if one then { p with recvDone1 := true } else { p with recvDone0 := true } }
      (true, if s.pond.recvDone0 && s.pond.recvDone1 then s.receptionHeld else s)

/-- A unit of a half that a peer sends (R450): mill m's half travels in the group's open step + m, its pages in run 0 and what lies
before them in run 1, unit 0 last. -/
def State.pondIn (s : State) (g : Group) (h : FlitHdr) (payload : List Byte) : Bool × State :=
  let one := g.stepOf h.step != g.open_
  let last := if one then s.pond.recvAt1 else s.pond.recvAt0
  let u := if h.run = 0 then nearUnit last h.offset.toNat else h.offset.toNat
  s.pondUnit (if one then .m1 else .m0) one (h.run == 0) u (payload.take (min 512 h.len.toNat))

/-- Does a data flit belong to a half being received? -/
def State.pondTakes (s : State) (g : Group) (h : FlitHdr) : Bool :=
  s.pond.st == 5 && s.fld .pond 0x138 0 12 == g.idx && s.fld .pond 0x138 12 4 == h.channel.toNat
    && (g.channel h.channel.toNat).kind == 5 && g.rank == (g.channel h.channel.toNat).root

/-- The run of a step is brought to that of a data flit of a later run (R389). -/
def State.runUp (s : State) (gi step run rank : Nat) : State :=
  match s.group gi with
  | none => s
  | some g => s.forAll (List.range (run - g.runOf step)) fun s _ => s.retractHere gi step rank

/-- A data flit of the present run reaches its operation; one for an operation not yet issued here waits in its buffer. -/
def State.dataRun (s : State) (gi step : Nat) (h : FlitHdr) (payload : List Byte) (port : Option Nat) : Bool × State :=
  match s.group gi with
  | none => (true, s)
  | some g =>
    if h.run.toNat ≠ g.runOf step then (true, s)
    else match g.ops.find? fun o => o.channel == h.channel.toNat && o.step == step with
      | none => (false, s)
      | some o => match s.unitIn gi g o h payload port with
        | (false, s) => (false, s)
        | (true, s) =>
          let s := s.onGroup gi fun g => { g with seen := (h.channel.toNat, step, h.run.toNat, h.offset.toNat) :: g.seen }
          (true, (s.settleOp gi o).tryGate gi)

/-- A data flit for a step of the window (R385, R389): the first of a later run is a RETRACT as well; one of a later step waits in its
buffer, and so at its sender once the buffers are full. -/
def State.dataIn (s : State) (gi : Nat) (h : FlitHdr) (payload : List Byte) (port : Option Nat) : Bool × State :=
  match s.group gi with
  | none => (true, s)
  | some g =>
    let step := g.stepOf h.step
    if s.pondTakes g h then s.pondIn g h payload
    else if step < g.open_ ∨ g.seen.contains (h.channel.toNat, step, h.run.toNat, h.offset.toNat) then (true, s.tally .leat 7 1)
    else if g.open_ + 1 < step then (false, s)
    else (s.runUp gi step h.run.toNat (g.rankOf h.src.toNat)).dataRun gi step h payload port

/-- A tree acknowledgement (R383). -/
def State.treeAckIn (s : State) (gi : Nat) (h : FlitHdr) : State :=
  match s.group gi with
  | none => s
  | some g =>
    match g.ops.find? fun o => o.channel == h.channel.toNat && o.step == g.stepOf h.step with
    | none => s
    | some o =>
      if h.run.toNat ≠ g.runOf o.step then s
      else
        let id := h.src.toNat
        let s := s.onOp gi o fun o => { o with acks := (id, h.offset.toNat) :: o.acks.filter fun x => x.1 != id }
        s.settleOp gi o

/-- A CLEAR or RETRACT as its payload says, passed on along the tree. -/
def State.controlIn (s : State) (gi : Nat) (h : FlitHdr) (payload : List Byte) : State :=
  match s.group gi with
  | none => s
  | some g =>
    let gate := g.stepOf h.step
    let rank := fieldAt payload 2 2
    let run := h.run.toNat
    let s := s.treeSend g h.type_ gate run h.src.toNat (payload.take (min 512 h.len.toNat))
    if h.type_ = 4 then
      let (i1, s) := s.takeInjAt .leat 1 gi
      let (i5, s) := if s.digestStep gate then s.takeInj .leat 5 else (false, s)
      let dig := (payload.drop 32).take 32
      s.tally .leat 1 1 |>.clearIn gi
        { rank := rank, gate := gate, run := run, step := fieldAt payload 8 6 + boolNat i1,
          digest := if s.digestStep gate then some (if i5 then flipBytes dig else dig) else none,
          weigh := if s.weighGate gi gate then some (fieldAt payload 0x40 6, BitVec.ofNat 64 (fieldAt payload 0x48 8)) else none } false
    else
      let s := s.tally .leat 3 1
      if run = g.runOf gate ∧ g.open_ ≤ gate ∧ cellGet 0 gate g.runs < 4 then s.retractHere gi gate rank else s

/-- An epoch NACK to the sender of a refused flit (R378). -/
def State.epochNack (s : State) (h : FlitHdr) (epoch : W32) : State :=
  s.launch { FlitHdr.blank with type_ := 8, vc := 4, dest := h.src, group := h.group, channel := h.channel, epoch := epoch, step := h.step,
                                run := h.run, offset := h.offset, len := 1 } (leBytes 1 h.type_.toNat)

/-- An epoch NACK arrives: the flit it names was stale, or is to be sent again. -/
def State.epochNackIn (s : State) (p : Option Nat) (h : FlitHdr) (payload : List Byte) : State :=
  let hit (f : HeldFlit) : Bool :=
    let x := parseFlit f.header
    x.dest == h.src && x.group == h.group && x.channel == h.channel && x.step == h.step && x.run == h.run && x.offset == h.offset
      && x.type_.toNat == fieldAt payload 0 1
  match s.leat.copies.find? hit with
  | none => s.raise .leat 4
  | some f =>
    if serialLater h.epoch (parseFlit f.header).epoch then
      ({ s with leat := { s.leat with copies := s.leat.copies.erase f } }).raise .leat 4
    else { s with leat := { s.leat with refused := s.leat.refused ++ [{ f with port := p }] } }

/-- A flit for this module: the first result says that it is dealt with, the second that its buffer is free. -/
def State.arrive (s : State) (p : Option Nat) (h : FlitHdr) (payload : List Byte) : Bool × State :=
  let gi := h.group.toNat
  if h.type_ = 8 then (true, s.epochNackIn p h payload)
  else if h.type_ ≠ 1 ∧ h.type_ ≠ 4 ∧ h.type_ ≠ 5 ∧ h.type_ ≠ 9 then (true, s)
  else
    let (old, s) := s.takeInjAt .leat 4 gi
    match s.group gi with
    | none => (true, (s.tally .leat 6 1).epochNack h (h.epoch - 1))
    | some g =>
      if old || serialLater g.epoch h.epoch then (true, (s.tally .leat 5 1).epochNack h g.epoch)
      else if g.epoch ≠ h.epoch then (true, (s.tally .leat 6 1).epochNack h g.epoch)
      else if h.type_ = 1 then s.dataIn gi h payload p
      else if h.type_ = 9 then (true, s.treeAckIn gi h)
      else (true, s.controlIn gi h payload)

/-- A flit for this module is dealt with, or waits. -/
def State.accept (s : State) (p : Option Nat) (h : FlitHdr) (payload : List Byte) : State :=
  match s.arrive p h payload with
  | (true, s) => s.freeBuffer p h
  | (false, s) => { s with leat := { s.leat with held := s.leat.held ++ [{ port := p, header := h.bits, payload := payload }] } }

/-- Flits that have waited for an operation, an open step or a page try again. -/
def State.retryHeld (s : State) : State :=
  let self := s.moduleId
  let (mine, rest) := s.leat.held.partition fun f => (parseFlit f.header).dest.toNat == self
  ({ s with leat := { s.leat with held := rest } }).forAll mine fun s f => s.accept f.port (parseFlit f.header) f.payload

/-! ## Time (R391 to R393) -/

/-- The port toward the time parent: the lowest live one of the first hop toward TIME_ROOT. -/
def State.parentPort (s : State) : Option Nat :=
  match s.hopTo (s.fld .leat 0x138 0 16) with
  | some (d, plus, _) => (s.livePorts (linkNeighbour d plus)).head?
  | none => none

/-- TIME_SYNC_TICK: a time exchange with the parent begins. -/
def timeSyncTick (s : State) : State :=
  if s.halted || !s.timeRuns || s.moduleId == 0xFFFF then s
  else match s.parentPort with
    | none => s
    | some p => s.sendLink p 6 (leBytes 8 0 ++ leBytes 8 s.time.toNat)

/-- TIME_SYNC_TICK. -/
def execTimeSyncTick (s : State) : Host.Outcome State Fault Refusal := .next (timeSyncTick s)

/-- A time flit: a request is answered with the times of its arrival and of the answer; an answer from the parent ends the exchange.
The first exchange while TIME_VALID = 0 sets the count forward by a step. -/
def State.timeFlit (s : State) (p : Nat) (payload : List Byte) : State :=
  if fieldAt payload 0 1 = 0 then
    if s.leat.timeValid then
      s.sendLink p 6 (leBytes 8 1 ++ (payload.drop 8).take 8 ++ leBytes 8 s.time.toNat ++ leBytes 8 s.time.toNat)
    else s
  else if s.parentPort ≠ some p then s
  else
    let t0 := fieldAt payload 8 8
    let t1 := fieldAt payload 16 8
    let t2 := fieldAt payload 24 8
    let delay := (s.time.toNat - t0 - (t2 - t1)) / 2
    let diff : Int := (t2 + delay : Int) - s.time.toNat
    let s := s.tally .leat 15 1
    if s.leat.timeValid then { s with leat := { s.leat with slew := diff } }
    else if 0 < diff then { s with time := BitVec.ofNat 64 (t2 + delay), leat := { s.leat with timeValid := true, slew := 0 } }
    else { s with leat := { s.leat with timeValid := true, slew := diff } }

/-- TIME_VALID clears: TIME_LOST. -/
def State.loseTime (s : State) : State :=
  if s.leat.timeValid then ({ s with leat := { s.leat with timeValid := false, slew := 0 } }).raise .leat 7 else s

/-- TIME_LOST: no exchange has succeeded for 10 ms. The root exchanges with nobody. -/
def timeLost (s : State) : State := if s.moduleId = s.fld .leat 0x138 0 16 then s else s.loseTime

/-- TIME_LOST. -/
def execTimeLost (s : State) : Host.Outcome State Fault Refusal := .next (timeLost s)

/-- A write of TIME_SET: the root's count, only while TIME_VALID = 0; whether it is accepted. -/
def State.timeSetWrite (s : State) (v : W64) : Bool × State :=
  if s.leat.timeValid || s.moduleId != s.fld .leat 0x138 0 16 then (false, s)
  else (true, { s with time := v, leat := { s.leat with timeValid := true, slew := 0 } })

/-! ## Reception (R357, R358, R360) -/

/-- A flit that only the link uses: a NACK, a time exchange, an idle flit. -/
def State.flitLink (s : State) (p : Nat) (h : FlitHdr) (pl : List Byte) : State :=
  let s := s.tally (portPage p) 1 1
  let s := match h.type_.toNat with
    | 3 => s.replayFrom p h.ack
    | 6 => s.timeFlit p pl
    | 7 => s.tally (portPage p) 10 1
    | _ => s
  if h.seq = (s.port p).rxNext then s else s.nack p

/-- A flit in sequence: taken in by its destination, or sent on, or dropped where no route leads on. -/
def State.flitTake (s : State) (p : Nat) (h : FlitHdr) (pl : List Byte) : State :=
  let s := (s.onPort p fun x => { x with rxNext := x.rxNext + 1, nacked := false }).tally (portPage p) 1 1
  let gi := s.injTarget .leat
  let s := match s.group gi with
    | some g => if s.injects .leat 2 then (s.injected .leat).retractHere gi g.open_ 0 else s
    | none => s
  let dest := h.dest.toNat
  let self := s.moduleId
  let s :=
    if self = 0xFFFF ∨ !s.routed dest then (s.tally .leat 10 1).freeBuffer (some p) h
    else if dest = self then s.accept (some p) h pl
    else s.moveOn (some p) h pl
  let s := s.retryHeld
  if (s.port p).st = 2 then s.sendLink p 2 [] else s

/-- FLIT_RECEIVE: a codeword arrives at a port. A lost flit or one out of sequence is answered with one link NACK; a flit in sequence is
accepted, and passed on, taken in, or kept waiting. -/
def flitReceive (port : Fin 24) (rx : RxWord) (codes : List Ecc) (s : State) : State :=
  let p := port.val
  let page := portPage p
  if s.halted || (s.port p).st != 2 then s
  else
    let (lost, s) := s.takeInj page 2
    match rx with
    | .lost => (s.tally page 4 1).nack p
    | .flit header payload corrected =>
      if lost then (s.tally page 4 1).nack p
      else
        let s := s.tally page 3 corrected
        let h := parseFlit header
        let pl := pad512 payload
        let (crcBad, s) := s.takeInj page 1
        if crcBad || h.crc != flitCrc header pl then (s.tally page 5 1).nack p
        else
          let s := s.linkFields p h
          if linkOnly h.type_ then s.flitLink p h pl
          else if h.seq ≠ (s.port p).rxNext then s.nack p
          else s.coded codes fun s => s.flitTake p h pl

/-- FLIT_RECEIVE. -/
def execFlitReceive (port : Fin 24) (rx : Coded RxWord) (s : State) : Host.Outcome State Fault Refusal :=
  .next (flitReceive port rx.of rx.codes s)

/-- EPOCH_RESEND: a flit refused with a later epoch, whose NACK came by the port, is sent again. -/
def epochResend (port : Fin 24) (s : State) : State :=
  match s.leat.refused.find? fun f => f.port == some port.val with
  | none => s
  | some f =>
    if s.halted then s
    else ({ s with leat := { s.leat with refused := s.leat.refused.erase f } }).launch (parseFlit f.header) f.payload

/-- EPOCH_RESEND. -/
def execEpochResend (port : Fin 24) (s : State) : Host.Outcome State Fault Refusal := .next (epochResend port s)

/-! ## Starting a transfer (R256, R379 to R381, R385) -/

/-- Is a transfer's operation wrong for its channel: CHANNEL (R380)? -/
def channelBad (g : Group) (c : Channel) (total : Nat) : Bool :=
  !g.valid || c.kind == 0 || decide (5 < c.kind) || (c.kind == 4 && g.rank != c.root && !c.recv)
    || (c.kind == 1 && total != g.nmemb * c.shard) || (c.kind == 2 && total != c.shard)

/-- An operation of a transfer as it joins its group. -/
def State.newOp (s : State) (m : MillId) (q : Nat) (t : Transfer) (channel step : Nat) : ChannelOp :=
  { mill := m, queue := q, xfer := t.id, system := t.system, channel := channel, step := step, pc := t.pc, seq := s.seq m,
    descAddr := t.descAddr, desc := t.desc, own := 0, handled := 0, written := 0, units := [], up := 0xFFFF, acked := 0, acks := [],
    done := false }

/-- A transfer with a Leat end leaves its queue with a fault of the Leat page before it has started. -/
def State.leatRefuse (s : State) (m : MillId) (q : Nat) (t : Transfer) (gi cause step : Nat) : State :=
  ((s.onQueue m q fun x => x.dropXfer t.id).postQueue m q).leatFault m t.system gi 0 cause step t.pc 4

/-- A transfer with a Leat end starts: its operation joins the group and does what begins here (R379, R380); one of a later step than the
window waits, and counts once (R385). -/
def State.startLeat (s : State) (m : MillId) (q : Nat) (t : Transfer) : State :=
  let dst := t.parsed.dst
  let gi := natBits dst 16 12
  let low := natBits dst 28 32
  match s.group gi with
  | none => s.leatRefuse m q t gi 1 low
  | some g =>
    let step := g.stepOf (BitVec.ofNat 32 low)
    let c := g.channel (natBits dst 0 4)
    let o := s.newOp m q t (natBits dst 0 4) step
    if channelBad g c t.parsed.total then s.leatRefuse m q t gi 1 step
    else if g.open_ + 1 < step then
      if t.ahead then s else (s.onQueue m q fun x => x.onXfer t.id fun t => { t with ahead := true }).tally .leat 8 1
    else if 0 < g.ownUnits c o ∧ (g.ownDests c o).any s.unreachable then s.leatRefuse m q t gi 4 step
    else
      let s := s.onQueue m q fun x => x.onXfer t.id fun t => { t with started := true, ahead := false }
      let s := s.onGroup gi fun g => { g with ops := g.ops ++ [o] }
      ((s.opGoOn gi o).retryHeld).tryGate gi

/-- The next transfer of a queue starts when at most three others run and each transfer ahead of it is translated (R256). -/
def State.startNext (s : State) (m : MillId) (q : Nat) : State :=
  let qu := s.queue m q
  match qu.xfers.find? fun t => !t.started with
  | none => s
  | some t =>
    let ahead := qu.xfers.takeWhile fun u => u.id != t.id
    if qu.parked.isSome || decide (4 ≤ ahead.length) || ahead.any (fun u => !(u.translated && u.failing.isNone)) then s
    else if t.leatEnd then s.startLeat m q t
    else s.onQueue m q fun x => x.onXfer t.id fun t => { t with started := true }

/-- TRANSFER_START: the queue's Leat operations that have stopped on a page or a port go on, and what waits for an operation of this member is
tried again; then the next transfer starts. -/
def transferStart (m : MillId) (q : Fin 16) (codes : List Ecc) (s : State) : State :=
  if s.sluiceHeld || (s.queue m q.val).parked.isSome then s
  else s.coded codes fun s => ((s.queueGoOn m q.val).retryHeld).startNext m q.val

/-- TRANSFER_START. -/
def execTransferStart (m : MillId) (q : Coded (Fin 16)) (s : State) : Host.Outcome State Fault Refusal :=
  .next (transferStart m q.of q.codes s)

/-! ## Group loads, suspects and wraps (R374, R384, R394) -/

/-- Bytes of the group table or a member list, read at their ports; none where they are not in memory or cannot be read. -/
def State.tableRead (s : State) (a n : Nat) : Option (List Byte) × State :=
  if !s.inMem a n then (none, s)
  else match s.partsRead .m0 none [(a, n)] with
    | (.ok bs, s) => (some bs, s)
    | (.error .wait, s) => (some (s.physRead a n), s)
    | (.error _, s) => (none, s)

/-- A group of an entry and its member list, as it is loaded (R374). -/
def newGroup (gi : Nat) (entry ids : List Byte) : Group :=
  { idx := gi, entry := entry, members := (List.range (ids.length / 2)).map fun k => fieldAt ids (2 * k) 2, open_ := fieldAt entry 0x30 6,
    runs := [], clears := [], skew := false, shut := false, weighed := false, clearSent := false, clearG := none, updStep := none, ops := [],
    seen := [], weighStep := 0, weigh := 0 }

/-- A later epoch with fewer members counts as a failure of the pond policy (R448). -/
def State.memberLoss (s : State) (g : Group) : Bool :=
  match s.group g.idx with
  | some o => serialLater g.epoch o.epoch && decide (g.nmemb < o.nmemb)
  | none => false

/-- A loaded group takes its place; operations running on the one before it end with EPOCH_CHANGED. -/
def State.putGroup (s : State) (g : Group) : State :=
  let s := if s.memberLoss g then (s.groupDrop g.idx).pondFailure 1 else s.groupDrop g.idx
  ({ s with leat := { s.leat with groups := s.leat.groups ++ [g] } }).retryHeld

/-- GROUP_LOAD.RESULT. -/
def State.loadResult (s : State) (r : Nat) : State := s.putFld .leat 0x110 15 2 r

/-- GROUP_LOAD.LOAD: the entry and its member list are read, checked and put in place. -/
def State.groupLoad (s : State) (gi : Nat) : State :=
  match s.tableRead (pageSize * s.fld64 .leat 0x108 21 23 + 512 * gi) 512 with
  | (none, s) => s.loadResult 2
  | (some bs, s) => match s.tableRead (fieldAt bs 0x28 8) (2 * fieldAt bs 8 2) with
    | (none, s) => s.loadResult 2
    | (some ids, s) =>
      let g := newGroup gi bs ids
      if g.bad s.moduleId then s.loadResult 2
      else if s.reserveFull g then s.loadResult 1
      else (s.putGroup g).loadResult 0

/-- The ranks on whose traffic an operation waits (R384): the ring successor, the children, or the peer. -/
def Group.waitsOn (g : Group) (o : ChannelOp) : List Nat :=
  let c := g.channel o.channel
  if g.finished c o then []
  else if c.kind = 1 ∨ c.kind = 2 then [(g.rank + 1) % max 1 g.nmemb]
  else if c.kind = 5 ∧ g.rank ≠ c.root then [c.root]
  else (g.below c o).map g.rankOf

/-- MEMBER_SUSPECT: a member on whose traffic an operation of the group waits has made no progress for GROUP_STALL_LIMIT. -/
def memberSuspect (group : BitVec 12) (rank : BitVec 16) (s : State) : State :=
  match s.group group.toNat with
  | none => s
  | some g =>
    let (inj, s) := if s.injects .leat 3 then (true, s.injectedTimed .leat) else (false, s)
    if decide (rank.toNat < g.nmemb) && (inj || g.ops.any fun o => (g.waitsOn o).contains rank.toNat) then
      ((s.tally .leat 14 1).leatRecord g.idx rank.toNat 5 g.open_ 0).raise .leat 0
    else s

/-- MEMBER_SUSPECT. -/
def execMemberSuspect (group : BitVec 12) (rank : BitVec 16) (s : State) : Host.Outcome State Fault Refusal :=
  .next (memberSuspect group rank s)

/-- The numbers of a kind in use (R394): the epochs of the loaded groups, the sequence numbers of the pending commands, or the generations
of the pond slots that are held. -/
def State.wrapNumbers (s : State) : WrapKind → List W32
  | .epoch => (s.leat.groups.filter (·.valid)).map (·.epoch)
  | .sequence => (s.mill0.cmd.queue ++ s.mill1.cmd.queue).map (·.seq)
  | .generation => (if s.nv.held0 then [s.nv.gen0] else []) ++ (if s.nv.held1 then [s.nv.gen1] else []) ++ [s.nv.pondGen]

/-- Two numbers in use lie 2^30 or more apart under R27. -/
def wrapSpread (ns : List W32) : Bool := ns.any fun old => ns.any fun new => serialLater new old && decide (2 ^ 30 ≤ (new - old).toNat)

/-- WRAP_NEAR: the newest value of a kind is 2^30 or more after the oldest in use. -/
def wrapNear (k : WrapKind) (s : State) : State := if wrapSpread (s.wrapNumbers k) then s.raise .leat 8 else s

/-- WRAP_NEAR. -/
def execWrapNear (k : WrapKind) (s : State) : Host.Outcome State Fault Refusal := .next (wrapNear k s)

/-- The operations of a mill's context are dropped with its transfers (R403). -/
def State.dropLeatOps (s : State) (m : MillId) (system : Bool) : State :=
  { s with leat := { s.leat with groups := s.leat.groups.map fun g =>
      { g with ops := g.ops.filter fun o => !(o.mill == m && o.system == system) } } }

/-- The (group, step) pairs for which a mill's user context has issued a channel operation and this module has not sent CLEAR. -/
def State.retractable (s : State) (m : MillId) : List (Nat × Nat) :=
  s.leat.groups.flatMap fun g =>
    ((g.ops.filter fun o => o.mill == m && !o.system && o.seq == s.seq m && g.open_ ≤ o.step && !(o.step == g.open_ && g.clearSent)).map
      fun o => (g.idx, o.step)).eraseDups

end Sys2Proof.Machine
end

