-- ==== Sys2Proof/Machine/Loader.lean ====
section
/-! DEFINITION. The loader (R343 to R348): checks of an image, free frames, mapping, copying, relocation and the registers it
writes. -/

namespace Sys2Proof.Machine

/-! ## Ranges of memory -/

/-- Drops the cached lines of a range. -/
def State.dropLines (s : State) (a n : Nat) : State :=
  s.forAll [MillId.m0, .m1] fun s m =>
    let gone := (s.mill m).sluice.wcache.filter fun l => decide (a / 512 ≤ l.1) && decide (l.1 * 512 < a + n)
    (s.onSluice m fun x => { x with wcache := x.wcache.filter fun l => !gone.contains l }).tally (.granary m) 2 gone.length

/-- A dirty ledger entry after a range of memory has taken new contents: its bytes in the range are those of the memory. -/
def entryFrom (mem : List Host.Cell) (a n : Nat) (d : Nat × List Byte) : Nat × List Byte :=
  (d.1, (List.range 16).map fun i =>
    let x := 16 * d.1 + i
    if a ≤ x ∧ x < a + n then cellGet 0 x mem else d.2.getD i 0)

/-- A range of memory takes the contents that `mem` gives it, over the entries that the ledger caches hold dirty (R227). -/
def State.rangeTakes (s : State) (a n : Nat) (mem : List Host.Cell) : State :=
  let s := ({ s with mem := mem }).dropLines a n
  s.forAll [MillId.m0, .m1] fun s m => s.onMill m fun x => { x with ledger := { x.ledger with dirty := x.ledger.dirty.map (entryFrom mem a n) } }

/-- The cells of memory outside a range. -/
def cellsOutside (mem : List Host.Cell) (a n : Nat) : List Host.Cell := mem.filter fun c => decide (c.1 < a) || decide (a + n ≤ c.1)

/-- Writes zeros over a range of memory. -/
def State.physZero (s : State) (a n : Nat) : State := s.rangeTakes a n (cellsOutside s.mem a n)

/-- Memory with the entries that a mill's ledger cache holds dirty laid over it (R227). -/
def State.memView (s : State) (m : MillId) : List Host.Cell :=
  (s.mill m).ledger.dirty.foldl (fun mem d => writeBytes mem (16 * d.1) d.2) s.mem

/-- Copies a range of memory to another. -/
def State.physCopy (s : State) (src dst n : Nat) : State :=
  let cells := (s.memView (ledgerMill src)).filterMap fun c => if src ≤ c.1 ∧ c.1 < src + n then some (c.1 - src + dst, c.2) else none
  s.rangeTakes dst n (cells.foldl (fun m c => cellSet 0 c.1 c.2 m) (cellsOutside s.mem dst n))

/-! ## Measurements (R569) -/

def zeros32 : List Byte := List.replicate 32 0

/-- Measurement register i set to zero. -/
def State.clearMeas (s : State) (i : Nat) : State :=
  { s with trust := { s.trust with meas := listOn s.trust.meas i fun _ => zeros32 } }

/-- Measurement register i extended by x: Mi := SHA-256(Mi ‖ x). -/
def State.extendMeas (s : State) (i : Nat) (x : List Byte) : State :=
  { s with trust := { s.trust with meas := listOn s.trust.meas i fun y => sha256 (y ++ x) } }

/-! ## The image (R343 to R345) -/

/-- A section of an image. -/
structure Section where
  size  : Nat
  off   : Nat
  ddr   : Bool
  write : Bool
  units : Nat
deriving DecidableEq, Repr

/-- The reader of an image: `n` bytes at an offset, little-endian. -/
def State.img (s : State) (a off n : Nat) : Nat := s.physNat (a + off) n

def State.imgSection (s : State) (a i : Nat) : Section :=
  let o := 0x80 + 32 * i
  let w := s.img a (o + 0x10) 4
  { size := s.img a o 8, off := s.img a (o + 8) 8, ddr := natBits w 0 1 == 1, write := natBits w 1 1 == 1,
    units := natBits (s.img a (o + 0x14) 4) 0 10 }

def State.imgSections (s : State) (a : Nat) : List Section := (List.range (s.img a 8 4)).map (s.imgSection a)

/-- The units that a section names, ascending. -/
def Section.ports (x : Section) (m : MillId) : List PortRef :=
  if x.ddr then (List.finRange 8).filterMap fun n => if natBits x.units n.val 1 = 1 then some (PortRef.ddr m n) else none
  else (List.finRange 10).filterMap fun n => if natBits x.units n.val 1 = 1 then some (PortRef.hbm m n) else none

/-- Reserved bits of a section entry. -/
def State.sectReserved (s : State) (a i : Nat) : Bool :=
  let o := 0x80 + 32 * i
  natBits (s.img a (o + 0x10) 4) 2 30 != 0 || natBits (s.img a (o + 0x14) 4) 10 22 != 0 || s.img a (o + 0x18) 8 != 0
    || (natBits (s.img a (o + 0x10) 4) 0 1 == 1 && natBits (s.img a (o + 0x14) 4) 8 2 != 0)

/-- A stream word that a register write would store whole (R349). -/
def streamWordOk (w : Nat) : Bool :=
  let kind := natBits w 0 3
  let idx := natBits w 4 4
  natBits w 3 1 == 0 && natBits w 8 24 == 0 && decide (kind ≤ 5) && (kind == 1 || (kind == 4 && decide (idx < 12)) || idx == 0)

/-- A slot-table word that register writes would store whole (R351, R352): word j of link index l. -/
def slotWordOk (l j w : Nat) : Bool :=
  if linkExists l then
    (List.range 4).all fun k => natBits w (8 * k + 5) 3 == 0 && (!(j == 15 && k == 3) || natBits w 24 5 == 0)
  else w == 0

/-- The whole-image checks of step 1: BAD_IMAGE. -/
def State.imageBad (s : State) (a len : Nat) : Bool :=
  let n := s.img a 8 4
  let nr := s.img a 0xC 4
  let ro := s.img a 0x10 8
  let plan := s.img a 0x28 8
  let w18 := s.img a 0x18 4
  let w34 := s.img a 0x34 4
  let entry := natBits w18 0 16
  let secs := s.imgSections a
  !s.inMem a len || decide (len < 128) || s.img a 0 4 != 0x314D4B49 || s.img a 4 4 != 1 || decide (n < 1) || decide (4096 < n)
    || natBits w18 16 16 != 0 || s.img a 0x1C 4 != 0 || natBits w34 22 10 != 0 || s.img a 0x38 8 != 0
    || natBits (s.img a 0x40 4) 24 8 != 0 || natBits (s.img a 0x48 4) 24 8 != 0 || natBits (s.img a 0x4C 4) 27 5 != 0
    || natBits (s.img a 0x50 4) 29 3 != 0 || natBits (s.img a 0x54 4) 8 24 != 0
    || (s.physRead (a + 0x58) 0x28).any (· != 0)
    || decide (len < 0x80 + 32 * n) || decide (len < ro + 24 * nr) || decide (len < plan + 12412)
    || decide (n ≤ entry) || decide (n ≤ natBits (s.img a 0x30 4) 0 16) || decide (n ≤ natBits (s.img a 0x30 4) 16 16)
    || decide (n ≤ natBits w34 0 16) || s.img a 0x20 8 % 64 != 0
    || decide ((secs.getD entry ⟨0, 0, false, false, 0⟩).size ≤ s.img a 0x20 8)
    || (List.range n).any (s.sectReserved a)
    || secs.any (fun x => x.size == 0 || decide (2 ^ 40 < x.size) || x.units == 0 || (x.off != 0 && decide (len < x.off + x.size)))
    || (List.range nr).any (fun k => natBits (s.img a (ro + 24 * k + 4) 4) 1 31 != 0)
    || (List.range 31).any (fun k => !streamWordOk (s.img a (plan + 4 * k) 4))
    || (List.range 192).any fun l => (List.range 16).any fun j => !slotWordOk l j (s.img a (plan + 124 + 64 * l + 4 * j) 4)

/-! ## The resource record (R346, R349) -/

/-- Stones of a mill in service. -/
def State.stonesIn (s : State) (m : MillId) : Nat :=
  (List.finRange 24).foldl (fun a n => if s.unitOut (1, stoneIndex m n) || (s.stone m n.val).outOfService then a else a + 2 ^ n.val) 0

/-- A required size above the device's, or a figure that must be equal and is not: RESOURCE. -/
def State.resourceBad (s : State) (a : Nat) : Bool :=
  let w (k : Nat) : Nat := s.img a (0x40 + 4 * k) 4
  let le (x lo n max : Nat) : Bool := decide (natBits x lo n ≤ max)
  !(decide (w 1 ≤ 0x600000) && le (w 2) 0 4 2 && natBits (w 2) 4 8 == 64 && natBits (w 2) 12 6 == 63 && le (w 2) 18 6 31
    && le (w 3) 0 5 16 && le (w 3) 5 5 16 && le (w 3) 10 7 64 && le (w 3) 17 3 4 && le (w 3) 20 7 64
    && le (w 4) 0 17 65536 && le (w 4) 17 6 48 && le (w 4) 23 6 46 && natBits (w 5) 0 4 == 1 && natBits (w 5) 4 4 == 4
    && le (s.img a 0x34 4) 16 6 46)

/-- A required stone is out of service: STONE. -/
def State.stonesBad (s : State) (m : MillId) (a : Nat) : Bool :=
  let have_ := s.stonesIn m
  (List.range 24).any fun n => natBits (s.img a 0x40 4) n 1 == 1 && natBits have_ n 1 == 0

/-! ## Free frames (R346, step 3) -/

/-- The region of a mill's page tables that PT_BASE names: the level-1 table and a frame of level-2 tables after it. -/
def State.ptBase (s : State) (m : MillId) : Nat := pageSize * s.fld64 (.sluice m) 0x108 21 23

/-- Ranges that hold no free frame: start and length. -/
def State.heldRanges (s : State) (m : MillId) (a len : Nat) : List (Nat × Nat) :=
  let per (k : MillId) : List (Nat × Nat) :=
    [(pageSize * s.fld64 (.toll k) 0x108 21 23, pageSize * s.fld (.toll k) 0x110 0 8),
     (pageSize * s.fld64 (.log k) 0x180 21 23, pageSize * s.fld (.log k) 0x188 0 8),
     (pageSize * s.fld64 (.log k) 0x120 21 23, pageSize * s.fld (.log k) 0x128 0 8),
     (pageSize * s.fld64 .pond (0x118 + 8 * k.num) 21 23, pageSize * (2 * s.fld .pond 0x128 0 20))]
  (s.ptBase m, 2 * pageSize) :: (a, len) :: (pageSize * s.fld64 .leat 0x108 21 23, pageSize) :: (per .m0 ++ per .m1)

/-- The first free frame of a unit at or above an address: the frames in use are passed over one range at a time. -/
def nextFree (held : List (Nat × Nat)) (bad : List Nat) (top : Nat) : (fuel : Nat) → (f : Nat) → Option Nat
  | 0, _ => none
  | k + 1, f =>
    if top < pageSize + f then none
    else
      match held.find? fun r => decide (r.1 < pageSize + f) && decide (f < r.1 + r.2) with
      | some r => nextFree held bad top k (pageSize * ((r.1 + r.2 + pageSize - 1) / pageSize))
      | none => if bad.contains (f / pageSize) then nextFree held bad top k (f + pageSize) else some f

/-- Where the search for free frames of each unit has come to. -/
abbrev FreeAt := List (PortRef × Nat)

def FreeAt.pos (l : FreeAt) (p : PortRef) : Nat := ((l.find? fun x => x.1 == p).map (·.2)).getD (portBase p)

/-- Is a unit populated and in service? -/
def State.portIn (s : State) (p : PortRef) : Bool :=
  !s.unitOut (portUnit p) && (match p with
    | .hbm _ _ => true
    | .ddr m n => s.nv.dimms.getD (8 * m.num + n.val) 0 != 0)

/-- The frames of the pages of a section, its units in rotation; none where one has too few. -/
def State.takeFrames (s : State) (held : List (Nat × Nat)) (ports : List PortRef) : (n : Nat) → (i : Nat) → FreeAt → Option (List Nat × FreeAt)
  | 0, _, l => some ([], l)
  | n + 1, i, l =>
    match ports[i % max 1 ports.length]? with
    | none => none
    | some p =>
      if !s.portIn p then none
      else match nextFree held s.nv.badFrames (portBase p + portSize p) (held.length + s.nv.badFrames.length + 1) (l.pos p) with
        | none => none
        | some f =>
          match s.takeFrames held ports n (i + 1) ((p, f + pageSize) :: l.filter fun x => x.1 != p) with
          | none => none
          | some (fs, l) => some (f :: fs, l)

/-- A section in its place: virtual base, frames and what it is. -/
structure Placed where
  base   : Nat
  frames : List Nat
  sect   : Section
deriving DecidableEq, Repr

/-- Places the sections in ascending order from a virtual base; none where frames or addresses run out. -/
def State.placeAll (s : State) (m : MillId) (held : List (Nat × Nat)) : List Section → (base : Nat) → FreeAt → Option (List Placed)
  | [], _, _ => some []
  | x :: rest, base, l =>
    let n := (x.size + pageSize - 1) / pageSize
    if 2 ^ 48 < base + pageSize * n then none
    else match s.takeFrames held (x.ports m) n 0 l with
      | none => none
      | some (fs, l) =>
        match s.placeAll m held rest (base + pageSize * n) l with
        | none => none
        | some ps => some ({ base := base, frames := fs, sect := x } :: ps)

/-! ## Mapping -/

/-- The level-1 indices that a list of pages needs, each once, in order. -/
def level1Of (pages : List Nat) : List Nat := (pages.map (· / 512)).eraseDups

/-- Maps pages to frames in the page tables of the mill: level-2 tables one after another in their region. -/
def State.mapPages (s : State) (m : MillId) (l1 : List Nat) (pages : List (Nat × Nat × Bool)) : State :=
  let pt := s.ptBase m
  let table (v : Nat) : Nat := pt + pageSize + 4096 * l1.findIdx (· == v / 512)
  let s := s.forAll l1 fun s i => s.physWrite (pt + 8 * i) (leBytes 8 (pt + pageSize + 4096 * l1.findIdx (· == i) + 1))
  s.forAll pages fun s (v, f, w) => s.physWrite (table v + 8 * (v % 512)) (leBytes 8 (f + 1 + 2 * boolNat w))

/-- Unmaps the pages of the mill's image (R347, R481). -/
def State.unmapImage (s : State) (m : MillId) (pages : List Nat) : State :=
  let pt := s.ptBase m
  let s := s.physZero (pt + pageSize) pageSize
  let s := s.forAll (level1Of pages) fun s i => s.physWrite (pt + 8 * i) (leBytes 8 0)
  (s.onSluice m fun x => { x with tlb := [] }).onMill m fun x => { x with image := none }

/-! ## Copying and relocation (steps 4 and 5) -/

/-- The pages of a section with their numbers. -/
def Placed.pages (p : Placed) : List (Nat × Nat) := (List.range p.frames.length).map fun k => (k, p.frames.getD k 0)

/-- Copies a section's bytes into its frames and zero-fills the rest. -/
def State.fillSection (s : State) (a : Nat) (p : Placed) : State :=
  s.forAll p.pages fun s (k, f) =>
    let n := min pageSize (p.sect.size - pageSize * k)
    if p.sect.off = 0 then s.physZero f pageSize
    else (s.physZero f pageSize).physCopy (a + p.sect.off + pageSize * k) f n

/-- Applies one relocation entry; none where it is out of range. -/
def State.relocate (s : State) (a : Nat) (ps : List Placed) (k : Nat) : Option State :=
  let o := s.img a 0x10 8 + 24 * k
  let w := s.img a o 4
  let off := s.img a (o + 8) 8
  let add := s.img a (o + 16) 8
  match ps[natBits w 0 16]?, ps[natBits w 16 16]? with
  | some x, some t =>
    if off % 8 ≠ 0 ∨ x.sect.size < off + 8 ∨ t.sect.size < add then none
    else
      let at_ := x.frames.getD (off / pageSize) 0 + off % pageSize
      let v := t.base + add
      let new := if natBits (s.img a (o + 4) 4) 0 1 = 0 then v % 2 ^ 64
        else v % 2 ^ 48 + 2 ^ 48 * natBits (s.physNat at_ 8) 48 16
      some (s.physWrite at_ (leBytes 8 new))
  | _, _ => none

/-- Applies the relocations in table order, up to one that is out of range: whether all were applied, and the state. -/
def State.relocateAll (s : State) (m : MillId) (a : Nat) (ps : List Placed) : List Nat → Bool × State
  | [] => (true, s)
  | k :: rest =>
    match s.relocate a ps k with
    | none => (false, s)
    | some s => (s.tally (.floor m 0) 15 1).relocateAll m a ps rest

/-! ## The load -/

/-- The registers of step 6: each stored word that holds a behavioural field counts as a write. -/
def State.loadRegisters (s : State) (m : MillId) (a : Nat) (ps : List Placed) : State :=
  let base (i : Nat) : Nat := ((ps[i]?).map (·.base)).getD 0
  let w30 := s.img a 0x30 4
  let w34 := s.img a 0x34 4
  let plan := s.img a 0x28 8
  let s := s.storeWord64 (.governor m) 0x108 (BitVec.ofNat 64 (base (natBits w30 0 16)))
  let s := s.storeWord64 (.governor m) 0x110 (BitVec.ofNat 64 (base (natBits w30 16 16)))
  let s := s.storeWord64 (.bolter m) 0x108 (BitVec.ofNat 64 (base (natBits w34 0 16)))
  let s := s.storeWord (.granary m) 0x100 (BitVec.ofNat 32 (natBits w34 16 6))
  let s := s.forAll (List.range 31) fun s k => s.storeWord (.floor m 0) (0x184 + 4 * k) (BitVec.ofNat 32 (s.img a (plan + 4 * k) 4))
  let s := s.forAll ((List.range 192).filter linkExists) fun s l => s.forAll (List.range 16) fun s j =>
    s.storeWord (.floor m (Fin.ofNat 5 (1 + l / 60))) (0x100 + 64 * (l % 60) + 4 * j)
      (BitVec.ofNat 32 (s.img a (plan + 124 + 64 * l + 4 * j) 4))
  s.onMill m fun x => { x with floor := { x.floor with pending := true } }

/-- The steps of the loader on an image that has been read. -/
def State.loadRead (s : State) (m : MillId) (a len : Nat) : Nat × State :=
  if s.imageBad a len then (1, s)
  else if s.resourceBad a then (2, s)
  else if s.stonesBad m a then (3, s)
  else
    let secs := s.imgSections a
    match s.placeAll m (s.heldRanges m a len) secs 0x200000 [] with
    | none => (4, s)
    | some ps =>
      let pages := ps.flatMap fun p => p.pages.map fun (k, f) => (p.base / pageSize + k, f, p.sect.write)
      let l1 := level1Of (pages.map (·.1))
      if 512 < l1.length then (4, s)
      else
        let names := pages.map (·.1)
        let s := s.mapPages m l1 pages
        let s := s.forAll ps fun s p => s.fillSection a p
        match s.relocateAll m a ps (List.range (s.img a 0xC 4)) with
        | (false, s) => (5, s.unmapImage m names)
        | (true, s) =>
          let s := (s.loadRegisters m a ps).tally (.floor m 0) 14 1
          let e := natBits (s.img a 0x18 4) 0 16
          let entry := (((ps[e]?).map (·.base)).getD 0) + s.img a 0x20 8
          let img : Image :=
            { entry := entry, pages := names, sects := ps.map fun p => (p.base, p.sect.size),
              layout := crc64 (s.physRead (a + 0x80) (32 * secs.length)), gdesc := natBits (s.img a 0x30 4) 0 16,
              layer := natBits (s.img a 0x30 4) 16 16, bdesc := natBits (s.img a 0x34 4) 0 16 }
          (0, s.onMill m fun x => { x with image := some img })

/-- Runs the loader on an image: the status of R347 (0 loaded) and the state after it; nothing where a port that holds the image accepts no
request yet (R269). -/
def State.loadImage (s : State) (m : MillId) (a len : Nat) : Option (Nat × State) :=
  let s := s.unmapImage m (((s.mill m).image.map (·.pages)).getD [])
  if !s.inMem a len then some (1, s)
  else match s.readRun m a len with
    | (.wait, _) => none
    | (.bad _ _, s) => some (6, s)
    | (.ok, s) => some (s.loadRead m a len)

end Sys2Proof.Machine
end

