-- ==== Sys2Proof/Machine/Settings.lean ====
section
/-! DEFINITION. What the storing of a setting brings about, whichever way it is written: claims that a feature bit needs (R24, R448,
R546, R547), the delivery that EVT_EN brings (R593), the interval of pond copies (R448). -/

namespace Sys2Proof.Machine

/-! ## The interval of pond copies (R447, R448) -/

/-- √(2C/λ) in whole seconds, between TMIN and TMAX. -/
def State.pondInterval (s : State) : Nat :=
  let c := s.nv.pondCost.toNat
  let t := match f32 s.nv.lambda with
    | .fin _ man e => if e < 0 then isqrt (2 * c * 2 ^ e.natAbs / (10 ^ 9 * man)) else isqrt (2 * c / (10 ^ 9 * man * 2 ^ e.natAbs))
    | _ => 0
  min (s.fld .pond 0x150 16 16) (max (s.fld .pond 0x150 0 16) t)

/-- T: as it was set when a generation was last held; before the first of this start, by the cost and λ that the store keeps. -/
def State.pondT (s : State) : Nat := s.pond.interval.getD s.pondInterval

/-- Timer n of a mill: nanoseconds to its next expiry. -/
def State.timerOf (s : State) (m : MillId) (n : Nat) : Timer := (s.mill m).timers.getD n none

def State.setTimer (s : State) (m : MillId) (n : Nat) (t : Timer) : State :=
  s.onMill m fun x => { x with timers := listOn x.timers n fun _ => t }

/-- The pond copy's timer runs: timer 1 of mill 0, claimed by code 1, with AUTO = 1. -/
def State.pondTimed (s : State) : Bool := s.bit .pond 0x100 0 && s.holder (.timer .m0 1) == 1

/-- Sets the next request T after a copy began. -/
def State.pondTimer (s : State) (began : W64) : State :=
  if s.pondTimed then s.setTimer .m0 1 (some (max 1 (s.pondT * 10 ^ 9 - (s.time - began).toNat))) else s

/-! ## Claims (R24, R601) -/

/-- A request refused: LAST_REFUSED and CLAIM_BUSY. -/
def State.claimRefused (s : State) (p : Page) (code path : Nat) : State :=
  (s.putFld p 0x02C 16 4 code).claimBusy p code (s.holder p) path

/-- Takes a page's claim for a code, through a path (4 = a hardware feature), or refuses it. -/
def State.claim (s : State) (p : Page) (code path : Nat) : Bool × State :=
  let (inj, s) := if s.injects .directory 2 && s.injTarget .directory % 256 == p.entry then (true, s.injected .directory) else (false, s)
  let h := s.holder p
  if inj then (false, s.claimRefused p code path)
  else if h = code then (true, s)
  else if h = 0 then (true, ((s.putFld p 0x02C 8 4 code).putFld p 0x02C 12 3 path).tally .directory 2 1)
  else (false, s.claimRefused p code path)

/-- A word to be stored, with the feature bits cleared whose claim is not held. -/
def State.gated (s : State) (path : Nat) (p : Page) (off : Nat) (w : W32) : W32 × State :=
  let need (s : State) (w : W32) (bit : Nat) (res : Page) (code : Nat) : W32 × State :=
    if !bitOf w bit || s.holder res == code then (w, s)
    else (putBits w bit 1 0, s.claimRefused res code path)
  match p, off with
  | .log m, 0x100 =>
    let (w, s) := need s w 7 (.granary m) 2
    need s w 8 .clock 2
  | .pond, 0x100 =>
    if !bitOf w 0 then (w, s)
    else match s.claim (.timer .m0 1) 1 4 with
      | (true, s) => (w, s)
      | (false, s) => (putBits w 0 1 0, s)
  | _, _ => (w, s)

/-! ## Effects -/

/-- Bits that a write of EVT_EN makes pending are delivered (R593). -/
def State.enabled (s : State) (p : Page) (old : W32) : State :=
  s.forAll (List.range p.events.length) fun s k =>
    if s.bit p 0x014 k && !bitOf old k && s.bit p 0x010 k then s.deliver p k else s

/-- What follows the storing of a word: `old` is what it held. -/
def State.stored (s : State) (p : Page) (off : Nat) (old : W32) : State :=
  if off = 0x014 then s.enabled p old
  else match p with
    | .pond => if off = 0x100 ∧ s.bit .pond 0x100 0 ∧ !bitOf old 0 then s.pondTimer s.time else s
    | .floor m _ => if 0x100 ≤ off then s.planWritten m else s
    | _ => s

end Sys2Proof.Machine
end

