-- ==== Sys2Proof/Machine/Pond.lean ====
section
/-! DEFINITION. Pond copies (chapter 12): what is captured, the boundary hold, copying page by page, failures, the interval, sending
to and receiving from a peer, restoring. -/

namespace Sys2Proof.Machine

def State.onPond (s : State) (f : Pond → Pond) : State := { s with pond := f s.pond }

/-! ## Pages of a mill -/

/-- Sets or clears WP in a level-2 entry. -/
def State.setWp (s : State) (m : MillId) (va : Nat) (wp : Bool) : State :=
  match s.pageEntry m va with
  | none => s
  | some (ea, _) =>
    let e := readNat s.mem ea 8
    s.physWrite ea (leBytes 8 (e - 4 * natBits e 2 1 + 4 * boolNat wp))

/-! ## What is captured (R438) -/

/-- The sections whose bit is set in the capture mask. -/
def State.pondMask (s : State) (m : MillId) : List Nat :=
  let bs := s.vpeek m (s.fld64 .pond 0x130 6 42 * 64) 512
  (List.range 4096).filter fun i => bitOf (bs.getD (i / 8) 0) (i % 8)

/-- The governor descriptors of a mill that are not empty (LINES ≠ 0). -/
def State.gdescs (s : State) (m : MillId) : List GDesc :=
  let n := match (s.mill m).image with
    | some i => min 4096 ((i.sects.getD i.gdesc (0, 0)).2 / 64)
    | none => 0
  ((List.range n).map fun k => let va := s.gdescAddr m k; parseGDesc k va (s.vpeek m va 64)).filter fun d => d.lines != 0

/-- First and last byte of a descriptor's scale ledger. -/
def GDesc.ledgerEnds (d : GDesc) : Nat × Nat := (d.ledger, d.entry (d.lines - 1) + 3)

/-- The sections of the scale state. -/
def State.scaleSects (s : State) (m : MillId) : List Nat :=
  match (s.mill m).image with
  | none => []
  | some i =>
    let ends := (s.gdescs m).map (·.ledgerEnds)
    (List.range i.sects.length).filter fun k =>
      let (base, size) := i.sects.getD k (0, 0)
      k == i.gdesc || k == i.layer || k == i.bdesc || ends.any fun r => decide (r.1 < base + size) && decide (base ≤ r.2)

/-- The virtual pages that the ledgers of a mill cover. -/
def State.ledgerPages (s : State) (m : MillId) : List Nat :=
  ((List.range 8).flatMap fun k =>
    let base := 4096 * s.fld64 (.ledger m) (0x100 + 0x10 * k) 12 52
    let n := s.fld (.ledger m) (0x108 + 0x10 * k) 0 26
    if n = 0 then [] else (List.range ((base + 16 * n - 1) / pageSize - base / pageSize + 1)).map (base / pageSize + ·)).eraseDups

/-- The section of a virtual page; 2^32 − 1 for a page of no section. -/
def Image.sectOf (i : Image) (v : Nat) : Nat :=
  ((List.range i.sects.length).find? fun k =>
    let (base, size) := i.sects.getD k (0, 0)
    decide (base / pageSize ≤ v) && decide (pageSize * v < base + size)).getD (2 ^ 32 - 1)

/-- A captured page: virtual page, section, SCALE_STATE flag, frame and WRITE of its entry. -/
structure Captured where
  vpage : Nat
  sect  : Nat
  scale : Bool
  frame : Nat
  write : Bool
deriving DecidableEq, Repr

/-- The pages that a copy of a mill captures, in ascending virtual address. -/
def State.captured (s : State) (m : MillId) : List Captured :=
  match (s.mill m).image with
  | none => []
  | some i =>
    let withScale := s.bit .pond 0x100 1
    let mask := s.pondMask m
    let ssects := if withScale then s.scaleSects m else []
    let lpages := if withScale then s.ledgerPages m else []
    let image := i.pages.filterMap fun v =>
      let k := i.sectOf v
      let scale := ssects.contains k || lpages.contains v
      if mask.contains k || scale then some (v, k, scale) else none
    let extra := (lpages.filter fun v => !i.pages.contains v).map fun v => (v, i.sectOf v, true)
    (image ++ extra).filterMap fun (v, k, scale) =>
      (s.pageEntry m (pageSize * v)).map fun (_, e) => { vpage := v, sect := k, scale := scale, frame := e.frame, write := e.write }

/-! ## The layout of a half (R438) -/

/-- The slot offsets of the parts of a half, with their counts. -/
structure HalfLayout where
  settings : Nat
  groups   : Nat
  nGroups  : Nat
  routes   : Nat
  manifest : Nat
  nPages   : Nat
  contents : Nat
deriving DecidableEq, Repr

/-- A size rounded up to a multiple. -/
def roundUp (n k : Nat) : Nat := (n + k - 1) / k * k

/-- The pages whose settings a half holds, in directory order. -/
def halfPages (m : MillId) : List Page := (if m = .m0 then modulePages else []) ++ millPages m

/-- The setting image: register offset and value of every behavioural word. -/
def State.settingImage (s : State) (m : MillId) : List (Nat × Nat) :=
  (halfPages m).flatMap fun p => (behWords p).map fun (off, k) => (p.base + off, (s.word p off).toNat &&& k)

/-- One group's part of the group area: its entry, then its member list padded to 512 bytes. -/
def Group.saved (g : Group) : List Byte :=
  let ids := g.members.flatMap fun id => leBytes 2 id
  g.entry ++ ids ++ List.replicate (roundUp ids.length 512 - ids.length) 0

/-- The group area: the indices of the groups, padded to 512 bytes, and each group. -/
def State.groupArea (s : State) : List Byte :=
  let ix := s.leat.groups.flatMap fun g => leBytes 2 g.idx
  ix ++ List.replicate (roundUp ix.length 512 - ix.length) 0 ++ s.leat.groups.flatMap (·.saved)

def routeArea (s : State) : List Byte := (List.range 49152).flatMap fun i => leBytes 4 (s.routeOf i).toNat

/-- The layout of a mill's half. -/
def State.halfLayout (s : State) (m : MillId) (pages : Nat) : HalfLayout :=
  let sEnd := roundUp (0x1000 + 8 * (s.settingImage m).length) 512
  let gEnd := if m = .m0 then sEnd + s.groupArea.length else sEnd
  let rEnd := if m = .m0 then gEnd + 4 * 49152 else gEnd
  { settings := 0x1000, groups := sEnd, nGroups := if m = .m0 then s.leat.groups.length else 0, routes := gEnd, manifest := rEnd,
    nPages := pages, contents := roundUp (rEnd + 32 * pages) pageSize }

/-- The header (R438). STATE: 1 WRITING, 2 HELD, 3 FAILED. -/
def State.halfHeader (s : State) (m : MillId) (l : HalfLayout) (state : Nat) : List Byte :=
  leBytes 4 0x444E4F50 ++ leBytes 4 s.pond.gen.toNat ++ leBytes 4 state
    ++ leBytes 4 (boolNat s.pond.peer + 2 * boolNat (s.bit .pond 0x100 1)) ++ leBytes 8 s.pond.lastStep ++ leBytes 8 s.time.toNat
    ++ leBytes 4 (s.fld .leat 0x100 0 16) ++ leBytes 4 (s.word .leat 0x104).toNat ++ leBytes 8 l.nPages
    ++ leBytes 8 l.settings ++ leBytes 8 ((l.groups - l.settings) / 8) ++ s.trust.digest
    ++ leBytes 8 ((s.mill m).image.elim 0 fun i => i.layout.toNat) ++ leBytes 8 l.groups ++ leBytes 8 l.nGroups ++ leBytes 8 l.routes
    ++ leBytes 8 l.manifest ++ leBytes 8 l.contents

/-- One manifest entry. -/
def manifestEntry (c : Captured) (crc : W64) : List Byte :=
  leBytes 8 (pageSize * c.vpage) ++ leBytes 4 c.sect ++ leBytes 4 (boolNat c.scale) ++ leBytes 8 crc.toNat ++ leBytes 8 0

/-- What lies before the page contents of a half, as the hold writes it. -/
def State.halfHead (s : State) (m : MillId) (l : HalfLayout) (cs : List Captured) : List Byte :=
  let hd := s.halfHeader m l 1
  let set_ := (s.settingImage m).flatMap fun (o, v) => leBytes 4 o ++ leBytes 4 v
  let pad (bs : List Byte) (n : Nat) : List Byte := bs ++ List.replicate (n - bs.length) 0
  pad hd 0x1000 ++ pad set_ (l.groups - 0x1000) ++ (if m = .m0 then s.groupArea ++ routeArea s else [])
    ++ cs.flatMap fun c => manifestEntry c 0

/-! ## Events -/

/-- The pond record (R458, R459). -/
def State.pondRecord (s : State) (gen : W32) (cause va : Nat) : State :=
  s.record .pond 0x164 fun s =>
    ((s.setWord .pond 0x160 gen).setWord .pond 0x164 (BitVec.ofNat 32 cause)).setWord64 .pond 0x168 (BitVec.ofNat 64 va)

/-- The virtual page that a queue parked on WRITE_PROTECT waits for. -/
def State.queueWaits (s : State) (m : MillId) (q : Nat) : Option Nat :=
  match (s.queue m q).parked with
  | some (3, _) => some ((s.word64 (.sluice m) (0x200 + 0x40 * q + 8)).toNat / pageSize)
  | _ => none

/-- The virtual page that the bolter's operation, parked or about to park on WRITE_PROTECT, waits for. -/
def State.boltWaits (s : State) (m : MillId) : Option Nat :=
  match s.bolt m with
  | some o => if (o.phase = .parked ∨ o.phase = .stalled) ∧ o.pageCause = 3 then some o.pageAt else none
  | none => none

/-- A wait is for a page; every wait is for "any page". -/
def waitsFor (vpage : Option Nat) (wait : Option Nat) : Bool := wait.isSome && (vpage.isNone || wait == vpage)

/-- What waits for the copier on a page, or on any page, goes on: queues, the governor's hold, and the bolter, which may not have parked yet
(R443). -/
def State.pondResume (s : State) (m : MillId) (vpage : Option Nat) : State :=
  let s := s.forAll (List.range 16) fun s q =>
    if waitsFor vpage (s.queueWaits m q) then s.onQueue m q fun x => { x with parked := none, resumed := true } else s
  let s := if waitsFor vpage (s.mill m).governor.wpHold then s.onGov m fun g => { g with wpHold := none } else s
  if waitsFor vpage (s.boltWaits m) then
    (s.onBolt m fun o => if o.phase = .stalled then { o with phase := .waiting, quiet := false } else o).boltContinue m
  else s

def State.pondPages (s : State) (m : MillId) : List PondPage := match m with | .m0 => s.pond.pages0 | .m1 => s.pond.pages1

def State.setPondPages (s : State) (m : MillId) (l : List PondPage) : State :=
  s.onPond fun p => match m with | .m0 => { p with pages0 := l } | .m1 => { p with pages1 := l }

/-- Writes STATE into the headers of a local copy. -/
def State.pondMark (s : State) (state : Nat) : State :=
  if s.pond.peer then s else s.forAll s.pondMills fun s m => s.physWrite (s.pondSlot m s.pond.slot + 8) (leBytes 4 state)

/-- A request that ended without a copy held: the pond copy's timer runs again from here where it has expired (R448). -/
def State.pondRearm (s : State) : State := if (s.timerOf .m0 1).isNone then s.pondTimer s.time else s

/-- A copy under way fails (R457): WP is cleared on every page not yet copied, what waits resumes, the slot becomes FAILED. -/
def State.pondFail (s : State) (cause va : Nat) : State :=
  let s := s.forAll s.pondMills fun s m =>
    s.forAll (s.pondPages m) fun s p => if p.wp then (s.setWp m p.va false).tlbInval m (some (p.va / pageSize)) else s
  let s := s.pondMark 3
  let gen := s.pond.gen
  let s := { s.onPond fun p => { p with st := 0, pages0 := [], pages1 := [], head0 := [], head1 := [] } with
             nv := { s.nv with writing := none } }
  let s := s.forAll s.pondMills fun s m => s.pondResume m none
  (((s.pondRecord gen cause va).tally .pond 2 1).raise .pond 1).pondRearm

/-! ## λ and the completion of a copy (R445 to R448) -/

/-- 1.0e−9 as FP32. -/
def lambdaMin : W32 := 0x3089705F

/-- λ after an update at a held generation. -/
def State.lambdaNext (s : State) : W32 :=
  let dt := max 1 (s.time - s.pond.lastUpd).toNat
  let x := f32 (toF32 (Num.quot 24 (.ofInt (s.nv.failures * 10 ^ 9)) (.ofInt dt)))
  let lam := f32 s.nv.lambda
  let next := toF32 (Num.add lam ((Num.sub x lam).scale (-(s.fld .pond 0x100 2 4 : Int))))
  if Num.lt (f32 next) (f32 lambdaMin) then lambdaMin else next

/-- Sends what lies before the page contents of a half, unit 0 last (R450). -/
def State.pondUnits (s : State) (m : MillId) (g : Group) (run unit0 : Nat) (bs : List Byte) (units : List Nat) : State :=
  let c := s.fld .pond 0x138 12 4
  let dest := g.members.getD (g.channel c).root 0xFFFF
  (s.forAll units fun s k =>
    let pl := (bs.drop (512 * k)).take 512
    s.groupSend g { FlitHdr.blank with type_ := 1, dest := BitVec.ofNat 16 dest, channel := BitVec.ofNat 4 c,
                                       len := BitVec.ofNat 10 pl.length, run := BitVec.ofNat 2 run,
                                       step := BitVec.ofNat 32 (g.open_ + m.num), offset := BitVec.ofNat 24 (unit0 + k) } pl).tally
    .pond 9 bs.length

/-- The group through which a copy is sent, when its channel is a send channel whose peer can be reached. -/
def State.pondPeer (s : State) : Option Group :=
  match s.group (s.fld .pond 0x138 0 12) with
  | none => none
  | some g =>
    let c := g.channel (s.fld .pond 0x138 12 4)
    if g.valid && c.kind == 5 && g.rank != c.root && !s.unreachable (g.members.getD c.root 0xFFFF) then some g else none

/-- The parts of a copy that a peer takes before its pages, each half's header last and with STATE HELD. -/
def State.sendHeads (s : State) (g : Group) : State :=
  let p := s.pond
  s.forAll s.pondMills fun s m =>
    let bs := match m with | .m0 => p.head0 | .m1 => p.head1
    let bs := bs.take 8 ++ leBytes 4 2 ++ bs.drop 12
    s.pondUnits m g 1 0 bs (((List.range ((bs.length + 511) / 512)).drop 1) ++ [0])

/-- The generation is held (R445): λ and T are updated, the event is raised, and the next request falls T after the copy began. -/
def State.pondHeld (s : State) : State :=
  let p := s.pond
  let cost := max p.parkNs0 p.parkNs1
  let nv := { s.nv with lambda := s.lambdaNext, failures := 0, pondCost := BitVec.ofNat 64 cost, writing := none }
  let nv := if p.peer then nv else nv.slotHolds p.slot p.gen p.lastStep (s.slotPlaces p.slot)
  let s := { s.onPond fun p => { p with st := 0, head0 := [], head1 := [], lastUpd := s.time } with nv := nv }
  let s := s.onPond fun p => { p with interval := some s.pondInterval }
  let s := ((s.tally .pond 1 1).tally .pond 6 cost).raise .pond 0
  (s.forAll s.pondMills fun s m => s.pondResume m none).pondTimer p.beganAt

/-- The last page of both halves is copied: the headers become HELD, in the slot or at the peer. -/
def State.pondDone (s : State) : State :=
  if s.pond.peer then
    match s.pondPeer with
    | none => s.pondFail 7 0
    | some g => (s.sendHeads g).pondHeld
  else (s.pondMark 2).pondHeld

/-- Completes a copy with no page left. -/
def State.pondSettle (s : State) : State :=
  if (s.pond.st == 3 || s.pond.st == 4) && s.pond.pages0.isEmpty && s.pond.pages1.isEmpty then s.pondDone else s

/-! ## The hold (R435, R440, R441) -/

/-- A copy is due: requested, at a pond point, with no command running and no update operation running or at a gate. -/
def State.pondDue (s : State) : Bool :=
  s.pond.st == 1 && s.pond.point && !s.mill0.cmd.running && !s.mill1.cmd.running && s.mill0.bolter.ops.isEmpty
    && s.mill1.bolter.ops.isEmpty

/-- Does a mill's pond area lie in its own DDR5 range, in memory, with room for the half in a slot (R435)? -/
def State.areaOk (s : State) (m : MillId) (l : HalfLayout) : Bool :=
  let base := s.pondSlot m false
  let slot := pageSize * s.fld .pond 0x128 0 20
  let lo := 0x20000000000 + 0x20000000000 * m.num
  decide (lo ≤ base) && decide (base + 2 * slot ≤ 0x20000000000 + lo) && slot != 0 && s.inMem base (2 * slot)
    && decide (l.contents + pageSize * l.nPages ≤ slot)

/-- The hold of one mill: its half's head is written, WP set on its pages, its translations invalidated. -/
def State.pondHold (s : State) (m : MillId) (cs : List Captured) : State :=
  let l := s.halfLayout m cs.length
  let head := s.halfHead m l cs
  let s := if s.pond.peer then s.onPond fun p => match m with | .m0 => { p with head0 := head } | .m1 => { p with head1 := head }
    else s.physWrite (s.pondSlot m s.pond.slot) head
  let pages := ((List.range cs.length).zip cs).map fun (i, c) =>
    ({ va := pageSize * c.vpage, frame := c.frame, wp := c.write, index := i, entryOff := l.manifest + 32 * i,
        slotOff := l.contents + pageSize * i } : PondPage)
  let s := s.forAll cs fun s c => if c.write then s.setWp m (pageSize * c.vpage) true else s
  (s.setPondPages m pages).tlbInval m none

/-- The slot that a copy writes into: the one that does not hold the newest held generation (R436). -/
def NonVol.copySlot (v : NonVol) : Bool := if v.newest then !v.held1 else v.held0

/-- POND_COPY_BEGIN: the boundary hold. It lasts until the invalidations of both mills have completed (R441). -/
def pondCopyBegin (s : State) : State :=
  if s.halted || s.refHeld || !s.pondDue then s
  else
    let peer := s.bit .pond 0x100 6
    let caps := s.pondMills.map fun m => (m, s.captured m)
    if !peer && caps.any (fun (m, cs) => !s.areaOk m (s.halfLayout m cs.length)) then
      ((((s.onPond fun p => { p with st := 0 }).pondRecord s.nv.pondGen 1 0).tally .pond 2 1).raise .pond 1).pondRearm
    else
      let slot := s.nv.copySlot
      let gen := s.nv.pondGen + 1
      let nv := { s.nv with pondGen := gen }
      let nv := if peer then nv else { nv.slotGone slot with writing := some slot }
      let s := { s.onPond fun p => { p with st := 2, peer := peer, slot := slot, gen := gen, parkNs0 := 0, parkNs1 := 0,
                                            beganAt := s.time } with nv := nv }
      let s := (s.tally .pond 0 1).pondTimer s.time
      let s := (s.ledgerFlush .m0).ledgerFlush .m1
      s.forAll caps fun s (m, cs) => s.pondHold m cs

/-- POND_COPY_BEGIN. -/
def execPondCopyBegin (s : State) : Host.Outcome State Fault Refusal := .next (pondCopyBegin s)

/-! ## Copying (R439, R442, R443) -/

/-- A write of whole granules by the copier is counted at the port (R278). -/
def State.copyCounted (s : State) (a n : Nat) : State :=
  match physPort a with
  | none => s
  | some port => s.tally port.page 1 (granules a n).length

/-- A page of a local copy is written into its slot, with its digest in the manifest. -/
def State.pageKept (s : State) (m : MillId) (p : PondPage) (crc : W64) : State :=
  let base := s.pondSlot m s.pond.slot
  ((s.physCopy p.frame (base + p.slotOff) pageSize).copyCounted (base + p.slotOff) pageSize).physWrite (base + p.entryOff + 16) (leBytes 8 crc.toNat)

/-- A page of a copy is sent to the peer, its digest going with what lies before the pages. -/
def State.pageSent (s : State) (m : MillId) (p : PondPage) (crc : W64) (g : Group) : State :=
  let put (bs : List Byte) : List Byte := bs.take (p.entryOff + 16) ++ leBytes 8 crc.toNat ++ bs.drop (p.entryOff + 24)
  let s := s.onPond fun x => match m with | .m0 => { x with head0 := put x.head0 } | .m1 => { x with head1 := put x.head1 }
  s.pondUnits m g 0 (p.slotOff / 512) (s.physRead p.frame pageSize) (List.range 4096)

/-- A page is copied: WP is cleared, then the translation invalidated and what waits for the page goes on. -/
def State.pageDone (s : State) (m : MillId) (p : PondPage) (touch : Bool) : State :=
  let s := (s.tally .pond (if touch then 5 else 4) 1).tally .pond 8 pageSize
  let s := if p.wp then s.setWp m p.va false else s
  let s := s.setPondPages m ((s.pondPages m).filter fun x => x.index != p.index)
  ((s.tlbInval m (some (p.va / pageSize))).pondResume m (some (p.va / pageSize))).pondSettle

/-- A page that has been read is kept or sent, with its digest (R439). -/
def State.pageRead (s : State) (m : MillId) (p : PondPage) (touch : Bool) : State :=
  let crc := crc64 (s.physRead p.frame pageSize)
  if !s.pond.peer then (s.pageKept m p crc).pageDone m p touch
  else
    let (lost, s) := s.takeInj .pond 3
    match lost, s.pondPeer with
    | false, some g => (s.pageSent m p crc g).pageDone m p touch
    | _, _ => s.pondFail 7 p.va

/-- The copier takes one page of a mill. An uncorrectable error fails the copy; a port that accepts nothing holds the copier. -/
def State.copyPage (s : State) (m : MillId) (p : PondPage) (touch : Bool) : State :=
  let (bad, s) := s.takeInj .pond 1
  if bad then (s.badFrame p.frame true).pondFail 2 p.va
  else match s.readRun m p.frame pageSize with
    | (.wait, _) => s
    | (.bad _ _, s) => s.pondFail 2 p.va
    | (.ok, s) => s.pageRead m p touch

/-- The copier runs: pages are being copied or sent, and nothing holds the memory's interfaces or the handshakes. -/
def State.copierRuns (s : State) : Bool := (s.pond.st == 3 || s.pond.st == 4) && !s.halted && !s.refHeld

/-- The virtual pages that something of a mill waits on for the copier, the queues' first. -/
def State.pondTouched (s : State) (m : MillId) : List Nat :=
  (List.range 16).filterMap (s.queueWaits m) ++ (s.mill m).governor.wpHold.toList ++ (s.boltWaits m).toList

/-- The first page not yet copied that something of a mill waits on. -/
def State.pondTouchedPage (s : State) (m : MillId) : Option PondPage :=
  (s.pondTouched m).findSome? fun v => (s.pondPages m).find? fun p => p.va / pageSize == v

/-- POND_PAGE_COPY: the next page of a mill's half in manifest order; while a write waits on a page, that page is next (R443). -/
def pondPageCopy (m : MillId) (codes : List Ecc) (s : State) : State :=
  if !s.copierRuns || (s.pondTouchedPage m).isSome then s
  else match s.pondPages m with
    | [] => s.pondSettle
    | p :: _ => s.coded codes fun s => s.copyPage m p false

/-- POND_PAGE_COPY. -/
def execPondPageCopy (m : MillId) (codes : List Ecc) (s : State) : Host.Outcome State Fault Refusal := .next (pondPageCopy m codes s)

/-- POND_TOUCH_COPY: a page that a write waits on is copied next. A wait on a page already copied only resumes. -/
def pondTouchCopy (m : MillId) (codes : List Ecc) (s : State) : State :=
  if !s.copierRuns then s
  else match s.pondTouchedPage m, s.pondTouched m with
    | some p, _ => s.coded codes fun s => s.copyPage m p true
    | none, v :: _ => s.pondResume m (some v)
    | none, [] => s

/-- POND_TOUCH_COPY. -/
def execPondTouchCopy (m : MillId) (codes : List Ecc) (s : State) : Host.Outcome State Fault Refusal := .next (pondTouchCopy m codes s)

/-! ## Requests (R440, R457) -/

/-- A request for a copy: while a copy runs, no second one. -/
def State.pondRequest (s : State) : State :=
  if s.pond.st = 0 ∨ s.pond.st = 1 then s.onPond fun p => { p with st := 1 }
  else (s.tally .pond 3 1).raise .pond 2

/-- POND_CTL.TAKE: as a request, and refused with cause BUSY while a copy or restore runs. -/
def State.pondTake (s : State) : State :=
  if s.pond.st = 0 ∨ s.pond.st = 1 then s.pondRequest else s.pondRequest.pondRecord s.pond.gen 8 0

/-- POND_CTL.ABORT: the running copy fails; a request not yet begun, or a reception, ends. -/
def State.pondAbort (s : State) : State :=
  match s.pond.st with
  | 0 => s
  | 1 => (s.onPond fun p => { p with st := 0 }).pondRearm
  | 5 => (((s.onPond fun p => { p with st := 0 }).pondRecord s.nv.pondGen 3 0).tally .pond 2 1).raise .pond 1
  | _ => s.pondFail 3 0

/-- POND_CTL.EXPORTED: the generation of a slot is marked exported. -/
def State.pondExported (s : State) (slot : Bool) : State :=
  { s with nv := if slot then { s.nv with exp1 := s.nv.exp1 || s.nv.held1 } else { s.nv with exp0 := s.nv.exp0 || s.nv.held0 } }

/-- POND_CTL.RECEIVE: the peer side of the send is posted (R450). -/
def State.pondReceive (s : State) (slot : Bool) : State :=
  if s.pond.st ≠ 0 then s.pondRecord s.nv.pondGen 8 0
  else
    (s.onPond fun p => { p with st := 5, recvSlot := slot, recvAt0 := 0, recvAt1 := 0, recvDone0 := false,
                                recvDone1 := s.mill1Out }).retryHeld

/-- POND_FAIL_ADD. -/
def State.pondFailAdd (s : State) (n : Nat) : State := s.pondFailure n

/-! ## Restoring (R452, R453) -/

/-- A field of a half's header. -/
def State.halfField (s : State) (m : MillId) (slot : Bool) (off n : Nat) : Nat := s.physNat (s.pondSlot m slot + off) n

/-- A restore fails: the event and the record. -/
def State.restoreFailed (s : State) (cause va : Nat) (gen : W32) : State := (s.pondRecord gen cause va).raise .pond 5

/-- Writes and checks the pages of a half; the cause and page where one fails. -/
def State.restorePages (s : State) (m : MillId) (slot : Bool) (mask : List Nat) : List Nat → Option (Nat × Nat) × State
  | [] => (none, s)
  | i :: rest =>
    let at_ := s.pondSlot m slot + s.halfField m slot 0x80 8 + 32 * i
    let va := s.physNat at_ 8
    let wanted := mask.contains (s.physNat (at_ + 8) 4) || natBits (s.physNat (at_ + 12) 4) 0 1 == 1
    if !wanted then s.restorePages m slot mask rest
    else match s.pageEntry m va with
      | none => (some (5, va), s)
      | some (_, e) =>
        let src := s.pondSlot m slot + s.halfField m slot 0x88 8 + pageSize * i
        match s.readRun m src pageSize with
        | (.bad _ _, s) => (some (2, va), s)
        | (_, s) =>
          let (bad, s) := s.takeInj .pond 2
          let s := ((s.physCopy src e.frame pageSize).copyCounted e.frame pageSize).tally .pond 12 1
          if bad || crc64 (s.physRead e.frame pageSize) != BitVec.ofNat 64 (s.physNat (at_ + 16) 8) then
            (some (4, va), s.tally .pond 13 1)
          else s.restorePages m slot mask rest

/-- Applies one pair of the setting image: each write counts under R575. -/
def State.restoreSetting (s : State) (off v : Nat) : State :=
  match pageAt off with
  | none => s
  | some p =>
    let o := off % 0x1000
    match (behWords p).find? fun x => x.1 == o with
    | none => s
    | some (_, k) =>
      if !s.pageLive p then s
      else
        let old := s.word p o
        let w := BitVec.ofNat 32 ((old.toNat - (old.toNat &&& k)) + (v &&& k))
        let (w, s) := s.gated 3 p o w
        let s := s.storeWord p o w
        match p with
        | .floor _ _ => s
        | _ => s.stored p o old

/-- Applies the setting image of a half. -/
def State.restoreSettings (s : State) (m : MillId) (slot : Bool) : State :=
  let n := s.halfField m slot 0x38 8
  let base := s.pondSlot m slot + s.halfField m slot 0x30 8
  let pairs := (List.range n).map fun i => (s.physNat (base + 8 * i) 4, s.physNat (base + 8 * i + 4) 4)
  let s := s.forAll pairs fun s (o, v) => if o = 0 ∧ v = 0 then s else s.restoreSetting o v
  s.planWritten m

/-- Restores one group of a slot: its entry, member list and state, at the next place in the slot (R427). -/
def restoreGroup (ix step : Nat) (acc : State × Nat) (i : Nat) : State × Nat :=
  let s := acc.1
  let gi := s.physNat (ix + 2 * i) 2
  let bs := s.physRead acc.2 512
  let k := fieldAt bs 8 2
  let epoch := BitVec.ofNat 32 (fieldAt bs 4 4) + s.word .pond 0x158
  let entry := bs.take 4 ++ leBytes 4 epoch.toNat ++ (bs.drop 8).take 0x28 ++ leBytes 6 (step + 1) ++ bs.drop 0x36
  let s := s.physWrite (pageSize * s.fld64 .leat 0x108 21 23 + 512 * gi) entry
  let s := if s.inMem (fieldAt bs 0x28 8) (2 * k) then s.physWrite (fieldAt bs 0x28 8) (s.physRead (acc.2 + 512) (2 * k)) else s
  (s.groupLoad gi, acc.2 + 512 + roundUp (2 * k) 512)

/-- Writes the group area back and loads each group, then the route table (R452, step 4). -/
def State.restoreGroups (s : State) (slot : Bool) : State :=
  let base := s.pondSlot .m0 slot
  let n := s.halfField .m0 slot 0x70 8
  let ix := base + s.halfField .m0 slot 0x68 8
  let step := s.halfField .m0 slot 0x10 8
  let (s, _) := (List.range n).foldl (restoreGroup ix step) (s, ix + roundUp (2 * n) 512)
  let rt := base + s.halfField .m0 slot 0x78 8
  let routes := (List.range 49152).foldl (fun (c : Cells W32) i => cellSet 0 i (BitVec.ofNat 32 (s.physNat (rt + 4 * i) 4)) c) []
  ({ s with leat := { s.leat with routes := routes } }).retryBlocked

/-- Clears the scale state of a mill (R190): SEEDED of every scale ledger entry, every layer record but FORCE. -/
def State.clearScale (s : State) (m : MillId) : State :=
  let s := s.forAll (s.gdescs m) fun s d => s.forAll (List.range d.lines) fun s line =>
    let va := d.entry line
    let e := leNat (s.vpeek m va 4)
    if natBits e 21 1 = 1 then s.vpoke m va (leBytes 4 (e - 2 ^ 21)) else s
  match (s.mill m).image with
  | none => s
  | some i =>
    let (base, size) := i.sects.getD i.layer (0, 0)
    s.forAll (List.range (size / 4096)) fun s k =>
      let va := base + 4096 * k
      let force := natBits (leNat (s.vpeek m (va + 8) 4)) 4 2
      s.vpoke m va (leBytes 8 0 ++ leBytes 4 (16 * force) ++ List.replicate 4084 0)

/-- POND_CTL.RESTORE: restores from a slot of both mills after an image has been loaded (R452). -/
def State.pondRestore (s : State) (slot settings : Bool) : State :=
  let f (m : MillId) (off n : Nat) : Nat := s.halfField m slot off n
  let gen := BitVec.ofNat 32 (f .m0 4 4)
  if s.pond.st ≠ 0 ∧ s.pond.st ≠ 1 then s.pondRecord gen 8 0
  else
    let s := s.tally .pond 11 1
    let ms := s.pondMills
    if ms.any fun m => !s.inMem (s.pondSlot m slot) pageSize || f m 0 4 != 0x444E4F50 || f m 8 4 != 2 || f m 4 4 != f .m0 4 4 then
      s.restoreFailed 6 0 gen
    else if ms.any fun m => (s.mill m).image.elim true fun i => i.layout != BitVec.ofNat 64 (f m 0x60 8) then s.restoreFailed 5 0 gen
    else
      let masks := ms.map fun m => (m, s.pondMask m)
      let r := masks.foldl
        (fun (acc : Option (Nat × Nat) × State) (m, mask) =>
          match acc with
          | (some e, s) => (some e, s)
          | (none, s) => s.restorePages m slot mask (List.range (s.halfField m slot 0x28 8))) (none, s)
      match r with
      | (some (cause, va), s) => s.restoreFailed cause va gen
      | (none, s) =>
        let s := if settings then s.forAll ms fun s m => s.restoreSettings m slot else s
        let s := if natBits (f .m0 0xC 4) 0 1 = 0 then s.restoreGroups slot else s
        let s := s.forAll ms fun s m => if natBits (f m 0xC 4) 1 1 = 0 then s.clearScale m else s
        s.raise .pond 4

end Sys2Proof.Machine
end

