-- ==== Sys2Proof/Machine/RaceOps.lean ====
section
/-! DEFINITION. Race operations (R298 to R301): the fields of the race slot, which stones an operation names, bindings,
positions in a spliced or unspliced race, and abandonment (R134). -/

namespace Sys2Proof.Machine

/-! ## Fields of the race slot (R298, R299) -/

def RaceOp.code (o : RaceOp) : Nat := bitsOf o.slot 0 8
def RaceOp.stone (o : RaceOp) : Nat := bitsOf o.slot 8 5
def RaceOp.stream (o : RaceOp) : Nat := bitsOf o.slot 13 2
def RaceOp.tctr (o : RaceOp) : Nat := bitsOf o.slot 23 4
def RaceOp.post (o : RaceOp) : Bool := bitOf o.slot 27
/-- RBIND: role, REPLAY, TFEED and the stone mask. -/
def RaceOp.role (o : RaceOp) : Role := match bitsOf o.slot 28 2 with
  | 0 => .unbound | 1 => .consumer | 2 => .runner | _ => .scatter
def RaceOp.replay (o : RaceOp) : Nat := bitsOf o.slot 30 3 + 1
def RaceOp.tfeed (o : RaceOp) : Bool := bitOf o.slot 33
def RaceOp.inMask (o : RaceOp) (n : Nat) : Bool := bitOf o.imm n && decide (n < 24)
/-- RLOAD. -/
def RaceOp.row0 (o : RaceOp) : Nat := bitsOf o.slot 28 8
def RaceOp.nrows (o : RaceOp) : Nat := bitsOf o.slot 36 9
def RaceOp.transpose (o : RaceOp) : Bool := bitOf o.slot 45
def RaceOp.shiftRow (o : RaceOp) : Bool := bitOf o.slot 46
/-- RPLAN. -/
def RaceOp.plan (o : RaceOp) : BitVec 24 := BitVec.ofNat 24 (bitsOf o.slot 28 24)
/-- RTILE. -/
def RaceOp.queue (o : RaceOp) : Nat := bitsOf o.slot 28 4
def RaceOp.swap (o : RaceOp) : Bool := bitOf o.slot 32
def RaceOp.shift (o : RaceOp) : Bool := bitOf o.slot 33
/-- RDW. -/
def RaceOp.mask (o : RaceOp) : Nat := bitsOf o.slot 28 4
def RaceOp.bf16 (o : RaceOp) : Bool := bitOf o.slot 32
/-- RDRAIN. -/
def RaceOp.bank (o : RaceOp) : Nat := bitsOf o.slot 28 1
def RaceOp.toHop (o : RaceOp) : Bool := bitOf o.slot 29
/-- Tile coordinates in IMM: first line and first element. -/
def RaceOp.line0 (o : RaceOp) : Nat := bitsOf o.imm 0 32
def RaceOp.elem0 (o : RaceOp) : Nat := bitsOf o.imm 32 32

/-! ## The race that a stone belongs to (R122, R123) -/

/-- The mill whose headrace and tailrace serve a mill's race. -/
def State.raceOwner (s : State) (m : MillId) : MillId :=
  let r := (s.mill m).race
  if r.spliced then (if r.headOne then .m1 else .m0) else m

/-- The race position of stone n of mill m. -/
def State.racePos (s : State) (m : MillId) (n : Nat) : Nat :=
  if (s.mill m).race.spliced ∧ s.raceOwner m ≠ m then 24 + n else n

/-- Positions of a mill's race. -/
def State.raceLength (s : State) (m : MillId) : Nat := if (s.mill m).race.spliced then 48 else 24

/-- The stone at a position of the race whose owner is `own`. -/
def State.posStone (own : MillId) (q : Nat) : MillId × Nat := if q < 24 then (own, q) else (own.other, q - 24)

/-- Module index of a stone. -/
def gidx (m : MillId) (n : Nat) : Nat := 24 * m.num + n

def Race.binding (r : Race) (n : Nat) : Binding :=
  match r.binds.find? fun b => b.1 == n with
  | some b => b.2
  | none => { role := .unbound, stream := 0, replay := 1, tfeed := false }

def State.binding (s : State) (m : MillId) (n : Nat) : Binding := (s.mill m).race.binding n

/-- Does a stone take part in the race? A gated, retired, unrepairable or failing stone, and one in repair, only forwards (R110). -/
def State.takesPart (s : State) (m : MillId) (n : Nat) : Bool :=
  let x := s.stone m n
  !x.outOfService && x.repair == .none && !s.unitOut (1, gidx m n) && !(s.mill m).power.gated.any fun g => g.val == n

/-- The role in which a stone stands in the race. -/
def State.roleOf (s : State) (m : MillId) (n : Nat) : Role := if s.takesPart m n then (s.binding m n).role else .unbound

/-- The stones of a race bound in a role to a stream, in ring order. -/
def State.boundTo (s : State) (own : MillId) (role : Role) (stream : Nat) : List (MillId × Nat) :=
  ((List.range (s.raceLength own)).map (State.posStone own)).filter fun (m, n) =>
    s.roleOf m n == role && (s.binding m n).stream == stream

/-- Injections or half passes that a stone has made of an operation. -/
def RaceOp.part (o : RaceOp) (m : MillId) (n : Nat) : Nat := ((o.parts.find? fun p => p.1 == gidx m n).map (·.2)).getD 0

def RaceOp.setPart (o : RaceOp) (m : MillId) (n k : Nat) : RaceOp :=
  { o with parts := (gidx m n, k) :: o.parts.filter fun p => p.1 != gidx m n }

def State.onRaceOp (s : State) (m : MillId) (id : Nat) (f : RaceOp → RaceOp) : State :=
  s.onRace m fun r => { r with ops := r.ops.map fun o => if o.id = id then f o else o }

def State.raceOp (s : State) (m : MillId) (id : Nat) : Option RaceOp := (s.mill m).race.ops.find? fun o => o.id == id

/-- Does an operation in the list of mill `own` name stone n of mill m? -/
def State.opNames (s : State) (own : MillId) (o : RaceOp) (m : MillId) (n : Nat) : Bool :=
  match o.code with
  | 0x80 => own == m && o.inMask n
  | 0x83 => s.roleOf m n == .consumer && (s.binding m n).stream == o.stream
  | 0x84 => s.roleOf m n == .runner && (s.binding m n).stream == o.stream
  | _ => own == m && o.stone == n

/-- Has a stone made its part of an operation? -/
def State.opMade (s : State) (o : RaceOp) (m : MillId) (n : Nat) : Bool :=
  match o.code with
  | 0x83 => decide ((s.binding m n).replay ≤ o.part m n)
  | 0x84 => decide (2 ≤ o.part m n)
  | _ => o.done

/-- An earlier operation of the same mill, not yet made by the stone, for which a test holds: operations handed to the race
engine are performed in issue order (R289). -/
def State.earlierOp (s : State) (own : MillId) (o : RaceOp) (m : MillId) (n : Nat) (p : RaceOp → Bool) : Bool :=
  ((s.mill own).race.ops.takeWhile fun x => x.id != o.id).any fun x => s.opNames own x m n && !s.opMade x m n && p x

/-! ## Stones in service -/

/-- A toll pass holds the stone (R411, R413). -/
def State.tollHeld (s : State) (m : MillId) (n : Nat) : Bool := (s.mill m).toll.open_.any fun r => r.by_ == some n

/-- A stone that can take part in a pass: powered, in service, not in repair, and free of toll passes. -/
def State.stoneReady (s : State) (m : MillId) (n : Fin 24) : Bool :=
  let x := s.stone m n.val
  !s.halted && s.pageLive (.stone m n) && !x.outOfService && x.repair == .none && !s.unitOut (1, stoneIndex m n)
    && !(s.mill m).power.gated.contains n && !s.tollHeld m n.val

/-! ## Abandonment (R93, R134) -/

/-- The pass of a race is abandoned: the event and the record of the first fault with its position and cause. Columns in flight go on to
the tailrace and are not written, and no tile that the tailrace holds is. -/
def State.raceAbandon (s : State) (own : MillId) (pos cause : Nat) : State :=
  let p : Page := .race own
  let s := s.tally p 12 1
  if (s.mill own).race.abandoned then s
  else
    let s := s.record p 0x1A4 fun s =>
      (s.setWord p 0x1A0 (s.seq own)).setWord p 0x1A4 (BitVec.ofNat 32 (pos + 256 * cause))
    let s := s.raise p 0
    s.onRace own fun r => { r with abandoned := true, tiles := [] }

/-- Is a column dead: its pass is abandoned, or its operation has been dropped? It is forwarded and nothing more. -/
def Race.dead (r : Race) (c : Column) : Bool := r.abandoned || !r.ops.any fun o => o.id == c.op

/-- ABN_CAUSE of a stone's own fault: 3 a contract fault, 5 another. -/
def abnCause (command : Bool) : Nat := if command then 5 else 3

/-- A contract or command fault that a stone detects (R100): reported, and the stone's feeder stops. -/
def State.stoneFault (s : State) (m : MillId) (n : Fin 24) (cause : Nat) (command : Bool) (res opnd : Nat) (o : RaceOp) : State :=
  (s.report m { kind := if command then .command else .contract, system := o.system, page := .stone m n, cause := cause,
                res := BitVec.ofNat 64 (stoneIndex m n + res), opnd := BitVec.ofNat 64 opnd, pc := o.pc, slot := 3, issue := false,
                injected := false }).onStone m n.val fun x => { x with failed := some (abnCause command) }

/-- What a computation of the governor for a loader or feeder comes to: its result, a fault that has been recorded with FLT_STAGE 14 and
the ABN_CAUSE it stands for, or a wait. -/
inductive GovRes (α : Type) where
  | ok (x : α) (s : State)
  | stop (abn : Nat) (s : State)
  | hold

/-- ABN_CAUSE of a stop of the governor. -/
def GovStop.abn : GovStop → Nat
  | .fault cause _ _ => abnCause (!govContract cause)
  | _ => 3

/-- A governor computation run for a loader or feeder that reads the tensor of a handle. -/
def State.govRun {α : Type} (s : State) (q : GovAt) (h : W64) (g : Gov α) : GovRes α :=
  match g.run.run s with
  | (.ok x, s) => .ok x s
  | (.error (.hold _), _) => .hold
  | (.error e, s) => .stop e.abn (s.govEnd q.mill e (handleDesc h) 14 (handleStep h) q.mover.source)

/-- The B_ref that an operation has latched of a mill's tensor for its pass (R162). -/
def RaceOp.bref (o : RaceOp) (m : MillId) (idx : Nat) : Option Int := (o.brefs.find? fun b => b.1 == 4096 * m.num + idx).map (·.2)

/-- An operation keeps the B_ref of a tensor that it folds for the rest of its pass. -/
def State.keepBref (s : State) (own : MillId) (op : Nat) (m : MillId) (t : OpndTensor) : State :=
  let k := 4096 * m.num + t.desc.idx
  if t.fold then s.onRaceOp own op fun o => { o with brefs := if o.brefs.any (fun b => b.1 == k) then o.brefs else (k, t.bref) :: o.brefs }
  else s

/-! ## Sources of operands -/

/-- The bytes at a source as they stand. -/
def State.srcBytes (s : State) (m : MillId) (x : Src) : List Byte :=
  match x with
  | .hopper k n => readBytes s.hopper k n
  | .virt va n => s.vpeek m va n

/-- A digest of the bytes at a list of sources: a change of any byte changes what a toll pass reads. -/
def State.srcDigest (s : State) (m : MillId) (xs : List Src) : W64 :=
  posDigestSeq ((xs.flatMap (s.srcBytes m)).map fun b => BitVec.ofNat 64 b.toNat)

/-- The trims, and where a base is folded the WRITTEN bytes, of some lines of a tensor. -/
def OpndTensor.srcs (t : OpndTensor) (line n elem0 len : Nat) : List Src :=
  let d := t.desc
  (List.range (min n (d.lines - line))).flatMap fun i =>
    let bits := if d.primed then 8 else 4
    let (off, bytes) := itemSpan bits ((line + i) * d.blocks + elem0 / d.block) (len / d.block + 1)
    Src.virt (d.trim + off) bytes :: (if t.fold then [Src.virt (d.entry (line + i)) 1] else [])

/-- The codes of line `i` of a block of lines of 256 elements in a hopper (R299). -/
def State.hopperLine (s : State) (key bits i : Nat) : List Nat := unpack bits 0 256 (readBytes s.hopper (key + i * 32 * bits) (32 * bits))

/-- A block of 256 lines at a hopper offset lies within the hopper. -/
def blockFits (off bits : Nat) : Bool := decide (off + 256 * 32 * bits ≤ 0x600000)

end Sys2Proof.Machine
end

