-- ==== Sys2Proof/Machine/Stone.lean ====
section
/-! DEFINITION. A stone (chapter 02): loading the shadow set, swap and row shift, a pass with its arithmetic, its checks and
their decision, banks and drains, abandonment, and row repair with the self-test. -/

namespace Sys2Proof.Machine

/-! ## Rows (R56, R72) -/

/-- The physical rows in service, in order: logical row L is the L-th (R56). -/
def rowMap (disabled : List Nat) : List Nat := ((List.range 261).filter fun p => !disabled.contains p).take 257

/-- The logical row on a physical row, if any. -/
def logicalRow (disabled : List Nat) (prow : Nat) : Option Nat := (rowMap disabled).findIdx? (· == prow)

/-! ## Sums of a row (R58, R61, R68, R194) -/

/-- One addition of a chain: the rounded sum and whether it was flushed. -/
def addFP (r : Num → Rounded) (acc : Num × Nat) (p : Num) : Num × Nat :=
  let x := r (Num.add acc.1 p)
  (x.val, acc.2 + boolNat x.flushed)

/-- The row chain in FP32 (R58): from +0, in ascending column order; the sum and the flushes. -/
def chainFP32 (ps : List Num) : Num × Nat := ps.foldl (addFP (roundTo fmtFP32)) (.zero false, 0)

/-- Sums of neighbouring pairs. -/
def pairSums : List Num → List Num
  | a :: b :: r => Num.add a b :: pairSums r
  | [a] => [a]
  | [] => []

/-- The row chain of compatibility mode (R194): pair sums rounded to FP24, then the FP24 chain. -/
def chainFP24 (ps : List Num) : Num × Nat :=
  let pairs := (pairSums ps).map roundFP24
  let fl := (pairs.map fun r => boolNat r.flushed).sum
  (pairs.map (·.val)).foldl (addFP roundFP24) (.zero false, fl)

/-- The exact sum of INT8 mode (R61). The offsets of a primed operand (R165) lie outside −7 to 0, where 48 bits do not hold every sum:
the manual states no width for them, and the sum stays exact (DESIGN CHOICE, log entry 35). -/
def chainExact (ps : List Num) : Num := ps.foldl Num.add (.zero false)

/-- The arithmetic of a pass. -/
inductive PassKind where
  | fp | int8 | bf16 | compat
deriving DecidableEq, Repr

/-- A row's sum in a kind of pass: its value (in INT8 mode before the conversion of R61) and the flushes on the way. -/
def rowSum (k : PassKind) (ps : List Num) : Num × Nat :=
  match k with
  | .int8 => (chainExact ps, 0)
  | .compat => chainFP24 ps
  | _ => chainFP32 ps

/-- The value of an element as the cells see it, and whether widening flushed it (R57, R163). -/
def cellValue (k : PassKind) (f : Fmt) (e : Elem) : Num × Bool :=
  match k with
  | .bf16 =>
    let (w, fl) := widenBF16 f e.1 e.2
    (decodeWide 7 w, fl && !f.subnormal e.1)
  | _ => ((f.value e.1).scale e.2, false)

/-! ## The shadow load (R67 to R70) -/

/-- The first load of a stone not yet complete. -/
def State.loadOp (s : State) (m : MillId) (n : Nat) : Option RaceOp :=
  (s.mill m).race.ops.find? fun o => o.code == 0x81 && o.stone == n && !o.done

/-- Has an operation a swap of the stone still to make? -/
def State.swapAhead (s : State) (o : RaceOp) (m : MillId) (n : Nat) : Bool :=
  let last := if o.code = 0x84 then 1 else (s.binding m n).replay - 1
  let swaps := o.code == 0x84 || (o.code == 0x83 && (o.swap || decide (0 < last)))
  swaps && !s.opMade o m n && (s.stone m n).swapped != some (o.id, last)

/-- May the load go on (R75, R289)? Not before a binding issued earlier, and not while the shadow set waits for the swap of an
operation issued between that set's load and this one. -/
def State.loadable (s : State) (m : MillId) (n : Nat) (o : RaceOp) : Bool :=
  let x := s.stone m n
  let before := (s.mill m).race.ops.takeWhile fun y => y.id != o.id
  !(before.any fun y => y.code == 0x80 && y.inMask n)
    && !(decide (0 < x.shadow.rows.length) && decide (o.prog = 0)
          && before.any fun y => decide (x.shadow.begun < y.id) && s.opNames m y m n && s.swapAhead y m n)

/-- A loader or feeder reads bytes of a hopper: none of a region that a transfer writes (R341). -/
def readHopper (m : MillId) (key n : Nat) : Gov Unit := do
  let stone := key / 0x600000 % 24
  let off := key % 0x600000
  let (bad, inj, s) := (← get).hopperRace m stone off n false
  set s
  if bad then throw (.race (raceRes false stone false off) off inj) else pure ()

/-- The row that the loader broadcasts: its edge base and elements, read from the block in the hopper, by row or, transposed,
by column (R70). -/
def loadRow (q : GovAt) (o : RaceOp) (key : Nat) (l : Nat) : Gov (OpndTensor × Int × List Elem) := do
  let q := { q with line := if o.transpose then o.line0 else o.line0 + l }
  let t ← latchOperand q (handleDesc o.ay) false o.transpose (o.bref q.mill (handleDesc o.ay))
  let bits := t.fmt.bits
  if !blockFits (key % 0x600000) bits then throw (.range (key % 0x600000))
  if o.transpose then readHopper q.mill key (256 * 32 * bits) else readHopper q.mill (key + l * 32 * bits) (32 * bits)
  let s ← get
  if o.transpose then
    let es ← (List.range 256).mapM fun j => do
      let r ← operandLine { q with line := o.line0 + j } t (o.elem0 + l) [(s.hopperLine key bits j).getD l 0]
      pure (r.2.headD (0, 0))
    pure (t, if t.desc.primed then 0 else t.bref, es)
  else
    let (edge, es) ← operandLine q t o.elem0 (s.hopperLine key bits l)
    pure (t, edge, es)

/-- Adds a row to the check values of a set (R68): exactly, or rounded in BF16 mode. Offsets of folded and primed operands lie outside
what 64 bits hold: the manual states no width for them, and the sums stay exact (DESIGN CHOICE, log entry 35). -/
def addCheck (bf16 : Bool) (old : List Num) (vals : List Num) : List Num :=
  let r (x : Num) : Num := if bf16 then (roundTo fmtFP32 x).val else x
  (List.range vals.length).map fun j => r (Num.add (old.getD j (.zero false)) (vals.getD j (.zero false)))

/-- Has a logical row of the shadow set been broadcast since the latest swap (R69)? A row staged for a shift is shadow row 255 (R76). -/
def StatSet.written (sh : StatSet) (l : Nat) : Bool := sh.rows.any (fun r => r.1 == l) || (l == 255 && sh.staged.isSome && sh.fresh)

/-- The values of a row as the 8-bit modes see them. -/
def StatRow.vals (r : StatRow) : List Num := r.elems.map fun e => (r.fmt.value e.1).scale e.2

/-- The shadow set with a row broadcast into it (R67, R68): its check values, and where it came from. -/
def StatSet.broadcast (sh : StatSet) (o : RaceOp) (l : Nat) (row : StatRow) (srcs : List Src) : StatSet :=
  let sh := { sh with begun := if sh.rows.isEmpty then o.id else sh.begun }
  if o.shiftRow then { sh with staged := some row, fresh := true }
  else
    { sh with rows := sh.rows ++ [(l, row)], c := addCheck false sh.c row.vals, a := addCheck false sh.a (row.vals.map Num.abs),
              srcs := if o.transpose ∧ sh.srcs ≠ [] then sh.srcs else sh.srcs ++ srcs }

/-- Where the row of a load is read from. -/
def loadSrcs (t : OpndTensor) (o : RaceOp) (key l : Nat) : List Src :=
  let bits := t.fmt.bits
  if o.transpose then Src.hopper key (256 * 32 * bits) :: t.srcs o.line0 256 (o.elem0 + l) 1
  else Src.hopper (key + l * 32 * bits) (32 * bits) :: t.srcs (o.line0 + l) 1 o.elem0 256

/-- The key of the hopper block that an operation's AX names. -/
def RaceOp.block (o : RaceOp) (m : MillId) : Nat := hopperKey m (bitsOf o.ax 24 5) (bitsOf o.ax 0 23)

/-- The loader's row goes into the shadow set; the load is complete with its last row. Input subnormals are flushed (R59). -/
def State.broadcastRow (s : State) (m : MillId) (n : Fin 24) (o : RaceOp) (t : OpndTensor) (edge : Int) (es : List Elem) : State :=
  let l := o.row0 + o.prog
  let last := decide (o.nrows ≤ o.prog + 1)
  let row : StatRow := { fmt := t.fmt, handle := o.ay, line := if o.transpose then o.line0 else o.line0 + l, folded := t.fold && !t.desc.primed,
                         primed := t.desc.primed, edge := edge, elems := es, flips := [], hHit := false }
  let s := s.keepBref m o.id m t
  let s := s.onStone m n.val fun x =>
    { x with shadow := x.shadow.broadcast o l row (loadSrcs t o (o.block m) l), loading := !last,
             loads := if o.prog = 0 then (o.ay, o.line0) :: x.loads.take 1 else x.loads }
  let s := s.tally (.stone m n) 8 (es.filter fun e => t.fmt.subnormal e.1).length
  s.onRaceOp m o.id fun o => { o with prog := o.prog + 1, done := last }

/-- The loader broadcasts the next row of a stone's shadow load. -/
def shadowBroadcast (m : MillId) (n : Fin 24) (codes : List Ecc) (s : State) : State :=
  if !s.stoneReady m n then s
  else match s.loadOp m n.val with
    | none => s
    | some o =>
      let l := o.row0 + o.prog
      if !s.loadable m n.val o then s
      else if (s.stone m n.val).shadow.written l then s.stoneFault m n 2 false (2 ^ 16 * l) 0 o
      else s.coded codes fun s =>
        match s.govRun (loaderAt m n.val o.pc o.system) o.ay (loadRow (loaderAt m n.val o.pc o.system) o (o.block m) l) with
        | .hold => s
        | .stop abn s => s.onStone m n.val fun x => { x with failed := some abn }
        | .ok (t, edge, es) s => s.broadcastRow m n o t edge es

/-- SHADOW_BROADCAST. -/
def execShadowBroadcast (m : MillId) (n : Coded (Fin 24)) (s : State) : Host.Outcome State Fault Refusal :=
  .next (shadowBroadcast m n.of n.codes s)

/-! ## The stone's next work (R112, R117, R132) -/

/-- What a stone's feeder injects next: a tile of the race, a half of a dW tile, or a scatter tile. -/
inductive Work where
  | tile (t : Tile) (injection : Nat)
  | half (o : RaceOp) (h : Nat)
  | scatter (o : RaceOp)
deriving DecidableEq, Repr

/-- The number of the operation that a piece of work belongs to, and the injection. -/
def Work.key : Work → Nat × Nat
  | .tile t i => (t.op, i)
  | .half o h => (o.id, h)
  | .scatter o => (o.id, 0)

def State.stoneWork (s : State) (m : MillId) (n : Nat) : Option Work :=
  let b := s.binding m n
  let own := s.raceOwner m
  match s.roleOf m n with
  | .unbound => none
  | .consumer => match (s.stone m n).feed with
    | some t =>
      -- a plan issued before the tile is to be in force first (R299)
      let planAhead := own == m && (s.mill m).race.ops.any fun o => o.code == 0x82 && o.stone == n && decide (o.id < t.op)
      if planAhead then none else some (.tile t (s.stone m n).injection)
    | none => none
  | .runner => ((s.mill own).race.ops.find? fun o => o.code == 0x84 && o.stream == b.stream && decide (o.part m n < 2)).bind fun o =>
      if s.earlierOp own o m n fun y => y.code == 0x80 || y.code == 0x82 then none else some (.half o (o.part m n))
  | .scatter => ((s.mill m).race.ops.find? fun o => o.code == 0x86 && o.stone == n && decide (o.part m n = 0)).bind fun o =>
      if s.earlierOp m o m n fun y => y.code == 0x80 || y.code == 0x82 then none else some (.scatter o)

/-- Is a swap to be made before the work (R74, R112, R117)? RSCAT has no field that asks for one and the manual gives a scatter stone
no other mark: a scatter stone makes no swap (DESIGN CHOICE, log entry 34). -/
def Work.swaps : Work → Bool
  | .tile t i => t.swap || decide (0 < i)
  | .half _ _ => true
  | .scatter _ => false

def Work.shifts : Work → Bool
  | .tile t i => t.shift && decide (i = 0)
  | _ => false

/-- The work whose swap mark waits in the feeder, if any. -/
def State.swapPending (s : State) (m : MillId) (n : Nat) : Option Work :=
  (s.stoneWork m n).filter fun w => w.swaps && (s.stone m n).swapped != some w.key

def State.shiftPending (s : State) (m : MillId) (n : Nat) : Option Work :=
  (s.stoneWork m n).filter fun w => w.shifts && (s.stone m n).shiftDone != some w.key.1

/-- The mill whose race is abandoned holds its stones' feeders. -/
def State.feederHeld (s : State) (m : MillId) (n : Nat) : Bool :=
  (s.binding m n).role != .scatter && (s.mill (s.raceOwner m)).race.abandoned

/-- Is the stone in a state to begin new work: no pass in the array, no fault? -/
def Stone.clear (x : Stone) : Bool := x.pass.isNone && x.failed.isNone && !x.draining

/-! ## Swap and row shift (R73 to R78) -/

/-- A value as a corruption of R102 replaces it: 2^16 times itself, or 2^16 for zero. -/
def Num.corrupted (x : Num) : Num := if x.isZero then .fin false 1 16 else x.scale 16

/-- A set with one logical row changed. -/
def StatSet.onRow (set : StatSet) (l : Nat) (f : StatRow → StatRow) : StatSet :=
  { set with rows := set.rows.map fun r => if r.1 = l then (r.1, f r.2) else r }

/-- A set whose c of column j has been corrupted (R102, code 3). -/
def StatSet.hitC (set : StatSet) (j : Nat) : StatSet :=
  { set with c := (List.range 256).map (fun i => let x := set.c.getD i (.zero false); if i = j then x.corrupted else x),
             cHits := j :: set.cHits, taint := true }

/-- The injections of R102 that a swap meets: a bit of a cell's code, c_j, and h of a row. -/
def State.swapInjections (s : State) (m : MillId) (n : Fin 24) (set : StatSet) : StatSet × State :=
  let p : Page := .stone m n
  let t := s.injTarget p
  let (i2, s) :=
    match logicalRow (s.stone m n.val).disabled (natBits t 8 9) with
    | some l => if set.rows.any (fun r => r.1 == l) then (let (i, s) := s.takeInj p 2; (if i then some l else none, s)) else (none, s)
    | none => (none, s)
  let set := match i2 with
    | some l => { set.onRow l fun r => { r with flips := [natBits t 0 8] } with taint := true }
    | none => set
  let (i3, s) := s.takeInj p 3
  let set := if i3 then set.hitC t else set
  let (i4, s) := if set.rows.any (fun r => r.1 == t) then s.takeInj p 4 else (false, s)
  let set := if i4 then { set.onRow t fun r => { r with hHit := true } with taint := true } else set
  (set, s)

/-- With a swap mark present and the shadow load complete, the feeder toggles the set-select bit. -/
def swap (m : MillId) (n : Fin 24) (s : State) : State :=
  let x := s.stone m n.val
  if !s.stoneReady m n || !x.clear || s.feederHeld m n.val then s
  else match s.swapPending m n.val with
    | none => s
    | some w =>
      let waits := match s.loadOp m n.val with
        | some o => s.loadable m n.val o
        | none => false
      if x.loading || waits then s
      else
        let (set, s) := s.swapInjections m n { x.shadow with staged := none, fresh := false }
        let every := s.fld (.stone m n) 0x100 5 3
        (s.onStone m n.val fun x =>
          { x with active := set, shadow := { StatSet.reset with staged := x.shadow.staged }, swaps := x.swaps + 1,
                   onesDue := x.onesDue || (x.swaps + 1) % 2 ^ every == 0, swapped := some w.key }).tally (.stone m n) 2 1

/-- SWAP. -/
def execSwap (m : MillId) (n : Fin 24) (s : State) : Host.Outcome State Fault Refusal := .next (swap m n s)

/-- The operation that a piece of work belongs to. -/
def State.workOp (s : State) (m : MillId) (w : Work) : Option RaceOp :=
  match w with
  | .tile t _ => s.raceOp (s.raceOwner m) t.op
  | .half o _ => some o
  | .scatter o => some o

/-- A shift mark moves every row up by one, and the staged row becomes row 255 (R76). -/
def StatSet.shiftUp (set : StatSet) (staged : Option StatRow) : StatSet :=
  let gone := (set.rows.find? fun r => r.1 == 0).map (·.2)
  let rows := set.rows.filterMap fun r => if r.1 = 0 then none else some (r.1 - 1, r.2)
  let sub (f : Num → Num) (old : List Num) : List Num :=
    let old := match gone with
      | some r => addCheck false old (r.vals.map fun v => (f v).negate)
      | none => old
    match staged with
    | some r => addCheck false old (r.vals.map f)
    | none => old
  { set with rows := rows ++ (match staged with | some r => [(255, r)] | none => []), c := sub id set.c, a := sub Num.abs set.a,
             shifted := true }

/-- The shift mark of the tile at the feeder is taken; in BF16 mode and in compatibility mode it is a contract fault (R77,
R192). A swap mark at the same boundary comes first (R78). A mark with no row staged and no SHIFTROW load waiting shifts, and leaves row 255
not loaded: the manual does not say what it does then (DESIGN CHOICE, log entry 34). -/
def rowShift (m : MillId) (n : Fin 24) (s : State) : State :=
  let x := s.stone m n.val
  if !s.stoneReady m n || !x.clear || (s.swapPending m n.val).isSome || s.feederHeld m n.val then s
  else match s.shiftPending m n.val with
    | none => s
    | some w =>
      let bf16 := (match w with | .tile t _ => t.fmt == .bf16 | _ => false) || x.active.rows.any fun r => r.2.fmt == .bf16
      let compat := (s.mill m).governor.compat
      match s.workOp m w with
      | none => s
      | some o =>
        if compat || bf16 then s.stoneFault m n 3 false 0 (if compat then 1 else 0) o
        else
          let waits := match s.loadOp m n.val with
            | some o => o.shiftRow && s.loadable m n.val o
            | none => false
          if x.shadow.staged.isNone && waits then s
          else
            let set := x.active.shiftUp x.shadow.staged
            let (i3, s) := s.takeInj (.stone m n) 3
            let set := if i3 then set.hitC (s.injTarget (.stone m n)) else set
            (s.onStone m n.val fun x =>
              { x with active := set, shadow := { x.shadow with staged := none, fresh := false }, shiftDone := some w.key.1 }).tally (.stone m n) 3 1

/-- ROW_SHIFT. -/
def execRowShift (m : MillId) (n : Fin 24) (s : State) : Host.Outcome State Fault Refusal := .next (rowShift m n s)

/-! ## The streamed operand of a pass -/

/-- A streamed tile as the feeder injects it: its tensor's handle and first line, its format, whether it is primed and folded, the edge
base and elements of each wavefront, and where it came from. -/
structure Streamed where
  handle : W64
  line   : Nat
  fmt    : Fmt
  primed : Bool
  folded : Bool
  waves  : List (Int × List Elem)
  srcs   : List Src
deriving DecidableEq, Repr

/-- The tile transposed in the feeder (R70): wavefront k holds element k of every column, with the columns' bases folded into
the offsets (R162). -/
def transposeWaves (primed : Bool) (bref : Int) (waves : List (Int × List Elem)) : List (Int × List Elem) :=
  let folded := waves.map fun (edge, es) => es.map fun e => if primed then e else (e.1, max (-256) (e.2 - (bref - edge)))
  (List.range 256).map fun k => (if primed then 0 else bref, folded.map fun es => es.getD k (0, 0))

/-- A block of 256 lines in a hopper as a streamed tile: wavefront n is line n, or column n where the feeder transposes or the
operand is dY. -/
def hopperTile (q : GovAt) (handle : W64) (key line0 elem0 : Nat) (columns : Bool) (bref : Option Int) : Gov (OpndTensor × Streamed) := do
  let q := { q with line := line0 }
  let t ← latchOperand q (handleDesc handle) true columns bref
  let bits := t.fmt.bits
  if !blockFits (key % 0x600000) bits then throw (.range (key % 0x600000))
  readHopper q.mill key (256 * 32 * bits)
  let s ← get
  let lines ← (List.range 256).mapM fun i => operandLine { q with line := line0 + i } t elem0 (s.hopperLine key bits i)
  let waves := if columns then
      (List.range 256).map fun k => ((if t.desc.primed then 0 else t.bref), lines.map fun l => l.2.getD k (0, 0))
    else lines
  pure (t, { handle := handle, line := line0, fmt := t.fmt, primed := t.desc.primed, folded := columns && !t.desc.primed, waves := waves,
             srcs := Src.hopper key (256 * 32 * bits) :: t.srcs line0 256 elem0 256 })

/-- The tile at a stone's feeder, transposed where its binding says so. -/
def Tile.streamed (t : Tile) (tfeed : Bool) : Streamed :=
  { handle := t.handle, line := t.line, fmt := t.fmt, primed := t.primed, folded := tfeed && !t.primed, srcs := t.srcs,
    waves := if tfeed then transposeWaves t.primed (t.bref.getD 0) t.waves else t.waves }

/-- A tile read from a hopper for a piece of work of operation `o`, which keeps its B_ref. -/
def State.streamHopper (s : State) (m : MillId) (n : Nat) (own : MillId) (o : RaceOp) (handle : W64) (key line0 : Nat) (columns : Bool) :
    GovRes Streamed :=
  let q := loaderAt m n o.pc o.system
  match s.govRun q handle (hopperTile q handle key line0 o.elem0 columns (o.bref m (handleDesc handle))) with
  | .ok (t, x) s => .ok x (s.keepBref own o.id m t)
  | .stop abn s => .stop abn s
  | .hold => .hold

/-- The streamed operand of a piece of work, read where it comes from a hopper. A runner streams the columns of dY for the half
it makes: the tensor and rows of the bed's two latest loads, at the hopper offset of AX of the runner's and then the bed's
hopper (R117). The tile coordinates of an RSCAT are those of its IMM, as for every operation with AY (DESIGN CHOICE, log entry 34). -/
def State.streamed (s : State) (m : MillId) (n : Nat) (w : Work) : GovRes Streamed :=
  match w with
  | .tile t _ => .ok (t.streamed (s.binding m n).tfeed) s
  | .half o h =>
    let runner := n / 2 * 2
    let (handle, line0) := ((s.stone m (runner + 1)).loads.reverse.drop h).headD (0, 0)
    s.streamHopper m n (s.raceOwner m) o handle (hopperKey m (runner + h) (bitsOf o.ax 0 23)) line0 true
  | .scatter o => s.streamHopper m n m o o.ay (hopperKey m n (bitsOf o.ax 0 23)) o.line0 (s.binding m n).tfeed

/-! ## Operand kinds (R66, R163, R164, R192) -/

/-- The kind of a pass, or the fault it meets: a stone fault (cause and operand) or a governor fault (cause, handle and line of the
operand that meets it). -/
inductive KindCheck where
  | ok (k : PassKind)
  | stone (cause opnd : Nat)
  | gov (cause : Nat) (handle : W64) (line : Nat)
deriving DecidableEq, Repr

/-- Does the operation name a BF16 pass (R163)? It does where it names an operand stored in BF16, and where it is an RDW with BF16 = 1
(DEDUCED, log entry 35). -/
def Work.namesBF16 (w : Work) (rows : List StatRow) (t : Streamed) : Bool :=
  t.fmt == .bf16 || rows.any (fun r => r.fmt == .bf16) || (match w with | .half o _ => o.bf16 | _ => false)

/-- The operands of compatibility mode (R192). -/
def compatKind (rows : List StatRow) (t : Streamed) (bf16 : Bool) : KindCheck :=
  if t.fmt == .int8 || rows.any (fun r => r.fmt == .int8) then .stone 7 0
  else if bf16 then .stone 7 1
  else if t.primed || rows.any (·.primed) then .stone 7 2
  else .ok .compat

/-- An INT8 pass folds no operand (R164): the first that would be. -/
def int8Kind (rows : List StatRow) (t : Streamed) : KindCheck :=
  if t.folded then .gov 7 t.handle t.line
  else match rows.find? (·.folded) with
    | some r => .gov 7 r.handle r.line
    | none => .ok .int8

def passKind (rows : List StatRow) (t : Streamed) (compat bf16 : Bool) : KindCheck :=
  if compat then compatKind rows t bf16
  else if bf16 then (if t.fmt.narrow then .gov 8 t.handle t.line else .ok .bf16)
  else match rows.find? fun r => !kindsPair r.fmt t.fmt with
    | some r => .stone 1 (r.fmt.kindCode + 16 * t.fmt.kindCode)
    | none => if rows.any fun r => r.fmt == .int8 then int8Kind rows t else .ok .fp

/-! ## Cell products (R57, R60, R61, R62, R65, R165) -/

/-- The product of two cell values; outside the FP32 range it is an infinity or a flush where a base or block exponent is in
the offset (R165, R168). -/
def cellProduct (wide : Bool) (x w : Num) : Num × Bool :=
  match Num.mul x w with
  | .fin n man e =>
    if !wide || man == 0 then (.fin n man e, false)
    else
      let top := e + (bitLen man : Int) - 1
      if 128 ≤ top then (.inf n, false) else if top < -126 then (.zero n, true) else (.fin n man e, false)
  | p => (p, false)

/-- The code, expanded where narrow, of a streamed element as the cells see it; a TRIT skip gives none (R65, R148). -/
def feedElem (k : PassKind) (stat : Fmt) (f : Fmt) (e : Elem) : Option (Num × Bool) :=
  if f = .trit ∧ e.1 % 4 = 0 then none
  else
    let (f', c) := expandNarrow stat f e.1
    some (cellValue k f' (c, e.2))

/-- The products of a row with a wavefront, in column order, and how many were flushed. -/
def rowProducts (wide : Bool) (row : List Num) (wave : List (Option Num)) : List Num × Nat :=
  let ps := (row.zip wave).map fun (x, w) => match w with
    | some w => cellProduct wide x w
    | none => (.zero false, false)
  (ps.map (·.1), (ps.filter (·.2)).length)

/-- A code with a bit inverted. -/
def flipBit (b c : Nat) : Nat := if c / 2 ^ b % 2 = 1 then c - 2 ^ b else c + 2 ^ b

/-- The value of an element whose stationary code an injection has inverted a bit of (R102, code 2): bit 6 of an 8-bit code, bit 14 of a
BF16 code. -/
def flippedValue (k : PassKind) (f : Fmt) (e : Elem) : Num :=
  match k with
  | .bf16 => decodeWide 7 (flipBit 14 (widenBF16 f e.1 e.2).1)
  | _ => (f.value (flipBit 6 e.1)).scale e.2

/-- The values of a row as the cells see them, with or without the flips of an injection. -/
def StatRow.cells (k : PassKind) (clean : Bool) (r : StatRow) : List Num :=
  (List.range r.elems.length).zip r.elems |>.map fun (j, e) =>
    if !clean && r.flips.contains j then flippedValue k r.fmt e else (cellValue k r.fmt e).1

/-- A row put in its place among rows in ascending order. -/
def rowInto (r : Nat × StatRow) : List (Nat × StatRow) → List (Nat × StatRow)
  | [] => [r]
  | x :: xs => if r.1 ≤ x.1 then r :: x :: xs else x :: rowInto r xs

/-- The rows of a set in ascending logical order. -/
def StatSet.sorted (set : StatSet) : List (Nat × StatRow) := set.rows.foldr rowInto []

/-- What one wavefront gives: the result of each loaded row (in INT8 mode before its conversion), in ascending order, and the flushes. -/
structure WaveOut where
  ys      : List (Nat × Num)
  flushes : Nat
deriving DecidableEq, Repr

/-- One wavefront on a stationary set. `hit` is the cell (logical row, column) whose product an injection corrupts. -/
def waveOut (k : PassKind) (wide : Bool) (rows : List (Nat × Fmt × List Num)) (f : Fmt) (wave : List Elem) (hit : Option (Nat × Nat)) :
    WaveOut :=
  let outs : List (Nat × Num × Nat) := rows.map fun (l, fm, xs) =>
    let ws := wave.map fun e => (feedElem k fm f e).map fun z => z.1
    let (ps, fl) := rowProducts wide xs ws
    let ps := match hit with
      | some (hl, hj) => if hl = l then
          (List.range ps.length).zip ps |>.map fun ((j, p) : Nat × Num) => if j = hj then p.corrupted else p
        else ps
      | none => ps
    let (y, fl2) := rowSum k ps
    (l, y, fl + fl2)
  { ys := outs.map fun (l, y, _) => (l, y), flushes := (outs.map fun (_, _, fl) => fl).sum }

/-- FP32 sum of exact products, in ascending order (R83). -/
def checkSum (k : PassKind) (ps : List Num) : Num := if k = .int8 then chainExact ps else (chainFP32 ps).1

/-- The check values of a wavefront (R83): D over the row results, C and S over the check row. -/
def checkValues (k : PassKind) (c a : List Num) (f : Fmt) (wave : List Elem) (ys : List (Nat × Num)) (hit : Option Nat) : Num × Num × Num :=
  let stat := if k = .int8 then Fmt.int8 else .e4m3
  let ws := wave.map fun e => ((feedElem k stat f e).map (·.1)).getD (.zero false)
  let act (x : Num) : Num := if k = .int8 then x else (roundTo fmtFP32 x).val
  let cs := (List.range ws.length).map fun j =>
    let p := Num.mul (act (c.getD j (.zero false))) (ws.getD j (.zero false))
    if hit = some j then p.corrupted else p
  let ss := (List.range ws.length).map fun j => Num.mul (act (a.getD j (.zero false))) (ws.getD j (.zero false)).abs
  (checkSum k (ys.map (·.2)), checkSum k cs, checkSum k ss)

/-! ## A pass -/

/-- The mode of an injection's results (R80, R299). -/
inductive Mode where
  | first | add | carry | carryBank
deriving DecidableEq, Repr

/-- Bank and mode of injection r of a stone's plan (R299); a dW tile writes its first half with FIRST and carries the second
naming the same bank (R117). -/
def State.planOf (s : State) (m : MillId) (n : Nat) (w : Work) : Nat × Mode :=
  let p := (s.stone m n).plan
  let r := match w with | .tile _ i => i | _ => 0
  let bank := bitsOf p (3 * r) 1
  match w with
  | .half _ h => (bank, if h = 0 then .first else .carryBank)
  | _ => (bank, match bitsOf p (3 * r + 1) 2 with | 0 => .first | 1 => .add | 2 => .carry | _ => .carryBank)

def Stone.bank (x : Stone) (b : Nat) : Bank := if b = 0 then x.bank0 else x.bank1
def Stone.setBank (x : Stone) (b : Nat) (k : Bank) : Stone := if b = 0 then { x with bank0 := k } else { x with bank1 := k }

/-- Drains that the stone has still to make, before which the stone makes its earlier operations. -/
def State.drainOp (s : State) (m : MillId) (n : Nat) : Option RaceOp :=
  ((s.mill m).race.ops.find? fun o => o.code == 0x85 && o.stone == n && !o.done).filter fun o =>
    !(s.earlierOp m o m n fun y => y.code != 0x81)

/-- The state of a bank (R82): one whose drain has begun is draining until BANK_DRAIN completes it. -/
def State.bankState (s : State) (m : MillId) (n b : Nat) : BankState :=
  let x := s.stone m n
  let k := x.bank b
  if k.st = .accumulating ∧ x.failed.isNone ∧ !x.draining ∧ (s.drainOp m n).any (fun o => o.bank == b) then .draining else k.st

def BankState.code : BankState → Nat
  | .free => 0 | .accumulating => 1 | .draining => 2 | .invalid => 3

/-- What R82 says of a use of a bank: it goes on, it waits for a toll drain, or the cause of its fault. -/
inductive BankUse where
  | use | wait | fault (cause : Nat)
deriving DecidableEq, Repr

/-- A use (0 FIRST, 1 ADD, 2 CARRY naming the bank, 3 drain) of a bank in a state, held for a toll drain or not. -/
def bankUse (st : BankState) (toll : Bool) (use : Nat) : BankUse :=
  match use, st with
  | 0, .free => .use
  | 0, .invalid => .use
  | 0, .draining => if toll then .wait else .fault 4
  | 0, .accumulating => .fault 4
  | _, .accumulating => .use
  | _, .invalid => .fault 5
  | _, .free => .fault 4
  | _, .draining => .fault 4

/-- The word of a bank. -/
def Bank.word? (b : Bank) (row wf : Nat) : Option (W32 × Int) := (b.words.find? fun w => w.1 == 256 * row + wf).map (·.2)

/-- Is the injected uncorrectable word of R102 (code 5) in a bank, among the words read? -/
def State.takeBankInj (s : State) (m : MillId) (n : Fin 24) (bank : Nat) : Bool × State :=
  let t := s.injTarget (.stone m n)
  let hit := natBits t 16 1 == bank && ((s.stone m n.val).bank bank).words.any fun w => w.1 == 256 * natBits t 8 8 + natBits t 0 8
  if hit then s.takeInj (.stone m n) 5 else (false, s)

/-- An uncorrectable word of a bank (R79): the bank is invalid, the event, and a replayable condition. -/
def State.bankBad (s : State) (m : MillId) (n : Fin 24) (bank : Nat) (o : RaceOp) (injected : Bool) : State :=
  let s := (s.raise (.stone m n) 5).onStone m n.val fun x =>
    { x.setBank bank { x.bank bank with st := .invalid, toll := false } with failed := some 2 }
  s.report m { kind := .replayable 6 { kind := .stone, index := stoneIndex m n }, system := o.system, page := .stone m n, cause := 0,
               res := 0, opnd := 0, pc := o.pc, slot := 3, issue := false, injected := injected }

/-- The words of a bank are read under their error codes (R79, R101): is one uncorrectable? -/
def State.bankRead (s : State) (m : MillId) (n : Fin 24) (bank : Nat) (o : RaceOp) : Bool × State :=
  let p : Page := .stone m n
  let (inj, s) := s.takeBankInj m n bank
  let k := ((s.stone m n.val).bank bank).words.length
  let cs := s.codes.take k
  let s := { s with codes := s.codes.drop k }
  let corrected := (cs.filter (· == .corrected)).length
  let bad := (cs.filter (· == .uncorrectable)).length + boolNat inj
  let s := s.tally p 15 (corrected + bad)
  let s := if 0 < corrected then s.raise p 4 else s
  if 0 < bad then (true, s.bankBad m n bank o inj) else (false, s)

/-- The pattern of a row result as it leaves the row end, and whether its conversion flushed it (R61). -/
def yWord (y : Num) : W32 × Bool := toF32F y

/-- The accumulator's result for a word (R80), FP24 in compatibility mode (R194), and whether it was flushed. -/
def accumulate (compat : Bool) (a b : W32) : W32 × Bool :=
  let x := Num.add (f32 a) (f32 b)
  if compat then
    let r := roundFP24 x
    (BitVec.ofNat 32 (encodeWide 23 r.val), r.flushed)
  else toF32F x

/-- A word of a pass with its key and edge exponent. -/
abbrev BankWord := Nat × W32 × Int

/-- The words of a bank after a pass, and the flushes of their additions: FIRST replaces them, ADD adds to each, the bank word first. The
bank that a CARRY pass names stays as it is until the pass completes (R82). -/
def Bank.write (b : Bank) (mode : Mode) (compat : Bool) (new : List BankWord) : Bank × Nat :=
  match mode with
  | .first => ({ st := .accumulating, words := new, toll := false }, 0)
  | .add =>
    let sums : List (BankWord × Bool) := new.map fun (k, y, e) =>
      match b.words.find? fun w => w.1 == k with
      | some (_, w, _) => let r := accumulate compat w y; ((k, r.1, e), r.2)
      | none => ((k, y, e), false)
    ({ b with words := sums.map (·.1) ++ b.words.filter fun w => !new.any fun x => x.1 == w.1 }, (sums.filter (·.2)).length)
  | _ => (b, 0)

/-- Low 32 bits of the position digest of a wavefront's streamed column (CHK_OPDIG, R639). -/
def elemItem (e : Elem) : W64 := BitVec.ofNat 64 (e.1 + 2 ^ 16 * intBits 9 e.2)
def waveDigest (wave : List Elem) : W64 := posDigestSeq (wave.map elemItem)
def tileDigest (waves : List (Int × List Elem)) : W64 :=
  posDigest ((List.range waves.length).zip waves |>.flatMap fun (i, w) => (List.range w.2.length).zip w.2 |>.map fun (j, e) => (256 * i + j, elemItem e))

/-- The ones wavefront of R86: every element 1 with offset 0, in the kind of the pass. -/
def onesCode (k : PassKind) : Fmt × Nat :=
  match k with
  | .int8 => (.int8, 1)
  | .bf16 => (.bf16, 0x3F80)
  | _ => (.e4m3, 0x38)

/-- The h that the loader has formed for a row, by the chain of the pass's kind over the values it broadcast (R68, R195). A product outside
the FP32 range is taken as the cells take it, so that the comparison is exact (DEDUCED, log entry 35). -/
def StatRow.sum (k : PassKind) (wide : Bool) (r : StatRow) : Num :=
  let h := (rowSum k (rowProducts wide (r.cells k true) (r.elems.map fun _ => some (Num.ofInt 1))).1).1
  if r.hHit then h.corrupted else h

/-- The check-row values c and a of a set in a kind of pass (R68): exact, or in BF16 mode sums rounded to FP32 in the order of the
broadcasts. -/
def StatSet.checkSums (k : PassKind) (set : StatSet) : List Num × List Num :=
  match k with
  | .bf16 =>
    let vals := set.rows.map fun r => r.2.cells .bf16 true
    let c := vals.foldl (addCheck true) []
    ((List.range c.length).map fun j => set.cHits.foldl (fun x h => if h = j then x.corrupted else x) (c.getD j (.zero false)),
     vals.foldl (fun a v => addCheck true a (v.map Num.abs)) [])
  | _ => (set.c, set.a)

/-- A value as the check record shows it: FP32 in the low word, or 64-bit fixed point with 14 fraction bits (R95). -/
def checkWord (int8 : Bool) (x : Num) : W64 :=
  if int8 then BitVec.ofNat 64 (intBits 64 ((x.scale 14).toIntNearest)) else BitVec.ofNat 64 (toF32 x).toNat

/-- What a set looks like to a pass: its rows in ascending order with the values of their cells, and c and a. -/
structure PassSet where
  rows : List (Nat × Fmt × List Num)
  c    : List Num
  a    : List Num
deriving DecidableEq, Repr

def StatSet.forPass (set : StatSet) (k : PassKind) (clean : Bool) : PassSet :=
  let cs := set.checkSums k
  { rows := set.sorted.map fun (l, r) => (l, r.fmt, r.cells k clean), c := cs.1, a := cs.2 }

/-- A wavefront on a set with its comparison; `hit` is the cell whose product an injection corrupts, logical row 256 the check row's. -/
def waveCheck (k : PassKind) (wide : Bool) (set : PassSet) (f : Fmt) (i : Nat) (wave : List Elem) (hit : Option (Nat × Nat)) (taint : Bool) :
    WaveOut × WfCheck :=
  let out := waveOut k wide set.rows f wave hit
  let (d, c, ss) := checkValues k set.c set.a f wave out.ys (hit.bind fun h => if h.1 = 256 then some h.2 else none)
  (out, { wf := i, int8 := k == .int8, compat := k == .compat, ones := false, onesBad := none, d := d, c := c, s := ss,
          opdig := loWord (waveDigest wave), injected := taint || hit.isSome })

/-- The ones wavefront and its comparison (R86): each row against its h bit for bit, and logical row 256 under R84. -/
def onesCheck (k : PassKind) (wide : Bool) (set : StatSet) (view : PassSet) (hit : Option (Nat × Nat)) : WaveOut × WfCheck :=
  let (f, c) := onesCode k
  let (out, chk) := waveCheck k wide view f 0 (List.replicate 256 (c, 0)) hit set.taint
  let h (l : Nat) : Num := ((set.rows.find? fun r => r.1 == l).map fun r => r.2.sum k wide).getD .nan
  let bad := out.ys.find? fun (l, y) => if k = .int8 then !(Num.eq y (h l)) else (yWord y).1 != (yWord (h l)).1
  (out, { chk with ones := true, onesBad := bad.map fun (l, y) => (l, checkWord (k == .int8) y, checkWord (k == .int8) (h l)) })

/-- What a pass on a set gives: the results by wavefront, its comparisons, its flushes, and the NaN results of its ones wavefront. -/
structure PassOut where
  outs    : List (Int × List (Nat × Num))
  checks  : List WfCheck
  flushes : Nat
  nans    : Nat
deriving DecidableEq, Repr

/-- Computes a pass: every wavefront of the tile on the set, after a ones wavefront where one is due. -/
def passOut (k : PassKind) (wide : Bool) (set : StatSet) (clean ones : Bool) (t : Streamed) (hit : Option (Nat × Nat)) : PassOut :=
  let view := set.forPass k clean
  let first := if ones then [onesCheck k wide set view hit] else []
  let ws : List (Int × WaveOut × WfCheck) := (List.range t.waves.length).zip t.waves |>.map fun (i, edge, es) =>
    (edge, waveCheck k wide view t.fmt i es (if ones ∨ i ≠ 0 then none else hit) set.taint)
  { outs := ws.map fun (e, o, _) => (e, o.ys), checks := first.map (·.2) ++ ws.map fun (_, _, c) => c,
    flushes := (first.map fun o => o.1.flushes).sum + (ws.map fun (_, o, _) => o.flushes).sum,
    nans := (first.map fun o => (o.1.ys.filter fun y => y.2.isNan).length).sum }

/-- The words of a pass with their keys and edge exponents (R161), and the flushes of their conversion. -/
def passWords (set : StatSet) (outs : List (Int × List (Nat × Num))) : List BankWord × Nat :=
  let ws : List (BankWord × Bool) := (List.range outs.length).zip outs |>.flatMap fun (i, edge, ys) => ys.map fun (l, y) =>
    let w := yWord y
    ((256 * l + i, w.1, edge + ((set.rows.find? fun r => r.1 == l).map fun r => r.2.edge).getD 0), w.2)
  (ws.map (·.1), (ws.filter (·.2)).length)

/-- The share of a runner in the columns of a dW tile (R118): for each column its rows with the bank's word, the result and the edge
exponent. A row not loaded for half 1 gives nothing, its bank word neither (DESIGN CHOICE, log entry 34). -/
def carryShare (old : Bank) (columns : Nat) (words : List BankWord) : List (List (Nat × W32 × W32 × Int)) :=
  (List.range columns).map fun i => (words.filter fun w => w.1 % 256 == i).map fun (k, y, e) =>
    (k / 256, ((old.word? (k / 256) i).map (·.1)).getD 0, y, e)

/-- The selection of R407. -/
def State.tollSampled (s : State) (m : MillId) (stone pass : Nat) (rate : Nat) : Bool :=
  decide ((mix32 (s.word (.toll m) 0x104) (s.seq m) (BitVec.ofNat 32 stone) (BitVec.ofNat 32 pass)).toNat % 65536 < rate)

/-- Bytes captured for a mode (R408): one word per result for ADD and CARRY, two for CARRY naming a bank. -/
def captureBytes (mode : Mode) : Nat :=
  match mode with
  | .first => 0 | .add => 262144 | .carry => 262144 | .carryBank => 524288

/-- Opens a toll of a pass, or counts it skipped where the capture area is full. -/
def State.openToll (s : State) (m : MillId) (r : TollRec) : State :=
  let t := (s.mill m).toll
  if pageSize * s.fld (.toll m) 0x110 0 8 < t.captured + r.bytes then s.tally (.toll m) 3 1
  else
    let s := (s.tally (.toll m) 0 (boolNat !r.verdict)).tally (.toll m) 14 r.bytes
    s.onToll m fun t => { t with open_ := t.open_ ++ [r], captured := t.captured + r.bytes }

/-- Samples a pass (R407, R408). -/
def State.samplePass (s : State) (m : MillId) (n : Fin 24) (count : Nat) (mode : Mode) (set : StatSet) (t : Streamed)
    (k : PassKind) (wide ones : Bool) (hit : Option (Nat × Nat)) (out : PassOut) (verdict : Bool) : State :=
  let sampled := (s.mill m).toll.on && !set.shifted && s.tollSampled m n.val count (s.fld (.toll m) 0x100 0 15)
  if !(verdict || sampled) then s
  else
    let (inj, s) := s.takeInj (.toll m) 1
    let corrupted := hit.isSome || set.rows.any fun r => !r.2.flips.isEmpty
    let differs := inj || (corrupted && (passOut k wide set true ones t none).outs != out.outs)
    let srcs := set.srcs ++ t.srcs
    s.openToll m { stone := n.val, count := count, drain := false, verdict := !sampled, tileDig := tileDigest t.waves,
                   differs := differs, srcs := srcs, srcDig := s.srcDigest m srcs, bytes := captureBytes mode, by_ := none,
                   retried := none, bank := 0 }

/-- Was a check-row failure of this stone and pass recorded in the preceding run (R414)? -/
def State.verdictDue (s : State) (m : MillId) (n count : Nat) : Bool :=
  decide (0 < (s.mill m).miller.run) && (s.mill m).toll.lastFails.contains (n, count)

/-- The injected corruption of a product (R102, code 1), where the cell's row is loaded. -/
def State.takeCellInj (s : State) (m : MillId) (n : Fin 24) (set : StatSet) : Option (Nat × Nat) × State :=
  let t := s.injTarget (.stone m n)
  match logicalRow (s.stone m n.val).disabled (natBits t 8 9) with
  | none => (none, s)
  | some l =>
    if l = 256 ∨ set.rows.any (fun r => r.1 == l) then
      let (i, s) := s.takeInj (.stone m n) 1
      (if i then some (l, natBits t 0 8) else none, s)
    else (none, s)

/-- Is an operand primed or folded, so that a cell product can lie outside the FP32 range (R165, R168)? -/
def passWide (rows : List StatRow) (t : Streamed) : Bool := t.primed || t.folded || rows.any fun r => r.primed || r.folded

/-- Elements flushed in widening to BF16, subnormals left out (R59, R163). -/
def widenFlushes (f : Fmt) (es : List Elem) : Nat := if f = .bf16 then 0 else (es.filter fun e => (cellValue .bf16 f e).2).length

/-- The flushes of input operands that a pass counts (R59): those of the streamed tile at its first injection (DESIGN CHOICE, log entry
34: the manual does not say whether a replayed tile counts again), and the widening of the stationary set in its first BF16 pass. -/
def inFlushes (k : PassKind) (first : Bool) (set : StatSet) (t : Streamed) : Nat :=
  let wave (es : List Elem) : Nat := (es.filter fun e => t.fmt.subnormal e.1).length + (if k = .bf16 then widenFlushes t.fmt es else 0)
  let tile := if first then (t.waves.map fun w => wave w.2).sum else 0
  tile + (if k = .bf16 ∧ !set.widened then (set.rows.map fun r => widenFlushes r.2.fmt r.2.elems).sum else 0)

/-- Is the work the second half of a dW tile? -/
def Work.carries : Work → Bool
  | .half _ h => h == 1
  | _ => false

/-- Replays and scatter tiles, as the race page counts them. -/
def State.countWork (s : State) (m : MillId) (w : Work) : State :=
  match w with
  | .tile _ i => if 0 < i then s.tally (.race (s.raceOwner m)) 9 1 else s
  | .scatter _ => s.tally (.race m) 11 1
  | .half _ _ => s

/-- The tallies of a pass (R59, R60): row results that leave as NaN, those of the ones wavefront among them, and flushes. -/
def State.countPass (s : State) (m : MillId) (n : Fin 24) (flIn flOut nans : Nat) : State :=
  let p : Page := .stone m n
  let s := ((s.tally p 8 flIn).tally p 9 flOut).tally p 10 nans
  if 0 < nans then s.raise p 6 else s

/-- The pass itself, its kind and bank settled. A CARRY pass of a consumer or scatter stone has no carry_in and no column to leave by: its
row results are dropped (DESIGN CHOICE, log entry 34). -/
def State.runPass (s : State) (m : MillId) (n : Fin 24) (w : Work) (t : Streamed) (k : PassKind) (bank : Nat) (mode : Mode) : State :=
  let x := s.stone m n.val
  let set := x.active
  let wide := passWide (set.rows.map (·.2)) t
  let (hit, s) := s.takeCellInj m n set
  let out := passOut k wide set false x.onesDue t hit
  let (words, flConv) := passWords set out.outs
  let old := x.bank bank
  let (new, flAdd) := old.write mode (k == .compat) words
  let s := s.countPass m n (inFlushes k (w.key.2 == 0 || w.carries) set t) (out.flushes + flConv + flAdd)
    (out.nans + (words.filter fun e => (f32 e.2.1).isNan).length)
  let pass : StonePass :=
    { op := w.key.1, bank := if mode = .carry then none else some bank, frees := mode == .carryBank, checks := out.checks,
      carry := if w.carries then carryShare old out.outs.length words else [], count := x.passes }
  let s := s.onStone m n.val fun x =>
    { x.setBank bank new with pass := some pass, onesDue := false, passes := x.passes + 1,
                              active := { set with widened := set.widened || k == .bf16 } }
  (s.countWork m w).samplePass m n x.passes mode set t k wide x.onesDue hit out (s.verdictDue m n.val x.passes)

/-- The use of a bank that a mode makes (R100). -/
def Mode.use : Mode → Nat
  | .first => 0 | .add => 1 | .carry => 2 | .carryBank => 2

/-- What a mode's use of a bank comes to. -/
def State.modeUse (s : State) (m : MillId) (n bank : Nat) (mode : Mode) : BankUse :=
  if mode = .carry then .use else bankUse (s.bankState m n bank) ((s.stone m n).bank bank).toll mode.use

/-- A use of a bank that R82 refuses. -/
def State.bankFault (s : State) (m : MillId) (n : Fin 24) (bank use cause : Nat) (o : RaceOp) : State :=
  s.stoneFault m n cause (cause == 5) (2 ^ 16 * bank) ((s.bankState m n.val bank).code + 4 * use) o

/-- A pass whose operands have been read: their kinds and the bank's use are decided, and the bank's words are read where the mode reads
them. -/
def State.beginPass (s : State) (m : MillId) (n : Fin 24) (w : Work) (o : RaceOp) (t : Streamed) (bank : Nat) (mode : Mode) : State :=
  let rows := (s.stone m n.val).active.rows.map (·.2)
  match passKind rows t (s.mill m).governor.compat (w.namesBF16 rows t) with
  | .stone cause opnd => s.stoneFault m n cause false 0 opnd o
  | .gov cause handle line =>
    (s.govFault m cause (handleDesc handle) 14 line (handleStep handle) o.pc 3 o.system false).onStone m n.val fun x =>
      { x with failed := some (abnCause false) }
  | .ok k => match s.modeUse m n.val bank mode with
    | .wait => s
    | .fault cause => s.bankFault m n bank mode.use cause o
    | .use =>
      if mode = .add ∨ mode = .carryBank then
        let (bad, s) := s.bankRead m n bank o
        if bad then s else s.runPass m n w t k bank mode
      else s.runPass m n w t k bank mode

/-- A stone injects a tile on its active set (R112, R117, R132): the operands are latched and checked, the bank's use is
decided (R82), and every row-end result goes to its bank by the plan's mode. -/
def stonePass (m : MillId) (n : Fin 24) (codes : List Ecc) (s : State) : State :=
  if !s.stoneReady m n || !(s.stone m n.val).clear || s.feederHeld m n.val || (s.swapPending m n.val).isSome
     || (s.shiftPending m n.val).isSome then s
  else match s.stoneWork m n.val with
    | none => s
    | some w =>
      match s.workOp m w with
      | none => s
      | some o =>
        let (bank, mode) := s.planOf m n.val w
        if s.modeUse m n.val bank mode = .wait then s
        else s.coded codes fun s => match s.streamed m n.val w with
          | .hold => s
          | .stop abn s => s.onStone m n.val fun x => { x with failed := some abn }
          | .ok t s => s.beginPass m n w o t bank mode

/-- STONE_PASS. -/
def execStonePass (m : MillId) (n : Fin 24) (codes : List Ecc) (s : State) : Host.Outcome State Fault Refusal :=
  .next (stonePass m n codes s)

/-! ## The checks (R83 to R87) -/

/-- τ of a stone, with the factor 2^12 of compatibility mode (R84, R195). -/
def State.tolExp (s : State) (m : MillId) (n : Fin 24) (compat : Bool) : Int :=
  -(s.fld (.stone m n) 0x100 0 5 : Int) + (if compat then 12 else 0)

/-- Does a comparison fail (R84)? One with a NaN or an infinity is not made (R85). -/
def checkFails (c : WfCheck) (tol : Int) : Bool :=
  if c.int8 then !(Num.eq c.d c.c) else Num.lt (c.s.scale tol) (Num.sub c.d c.c).abs

def checkSkipped (c : WfCheck) : Bool := !c.d.isFinite || !c.c.isFinite || !c.s.isFinite

/-- Fills the check record (R95, R97). -/
def State.checkRecord (s : State) (m : MillId) (n : Fin 24) (c : WfCheck) (ones : Bool) : State :=
  let p : Page := .stone m n
  let (lrow, d, h) := match c.onesBad with
    | some b => b
    | none => (256, checkWord c.int8 c.d, checkWord c.int8 c.c)
  s.record p 0x124 fun s =>
    let s := s.setWord p 0x120 (s.seq m)
    let s := s.setWord p 0x124 (BitVec.ofNat 32 ((if ones then 0 else c.wf) + 256 * boolNat ones + 512 * lrow))
    let s := (s.setWord64 p 0x128 d).setWord64 p 0x130 h
    (s.setWord p 0x138 (if c.int8 then 0 else toF32 c.s)).setWord p 0x13C c.opdig

/-- A stone's part of its operation is made: the injection or half pass counts, and the feeder takes the next tile. -/
def State.partMade (s : State) (m : MillId) (n : Fin 24) (op : Nat) : State :=
  let own := s.raceOwner m
  let b := s.binding m n.val
  let mill := if b.role = .scatter then m else own
  let s := s.onRaceOp mill op fun o => { o.setPart m n.val (o.part m n.val + 1) with done := o.done || b.role == .scatter }
  if b.role != .consumer then s
  else s.onStone m n.val fun x =>
    if x.injection + 1 < b.replay then { x with injection := x.injection + 1 }
    else
      let next := x.recv.filter fun t => t.waves.length == 256
      { x with injection := 0, feed := next, recv := if next.isSome then none else x.recv }

/-- A pass completes: the bank that a CARRY pass names becomes free (R82). -/
def Stone.passOver (x : Stone) (p : StonePass) : Stone :=
  match p.frees, p.bank with
  | true, some b => { x.setBank b Bank.reset with pass := none }
  | _, _ => { x with pass := none }

/-- Ends a pass whose comparisons are all decided: a dW half keeps its columns until they have left. -/
def State.passEnded (s : State) (m : MillId) (n : Fin 24) (p : StonePass) : State :=
  let s := s.partMade m n p.op
  if p.carry.isEmpty then s.onStone m n.val fun x => x.passOver p
  else s.onStone m n.val fun x => { x with pass := some { p with checks := [] } }

/-- A check failure (R84, R86): the event, the record and the tally; it aborts the pass, unless the verdict of R414 awaits a
toll. One of a pass that is aborted already is counted and raised, and overwrites no record (R94). -/
def State.checkFailure (s : State) (m : MillId) (n : Fin 24) (p : StonePass) (c : WfCheck) : State :=
  let pg : Page := .stone m n
  let s := (s.tally pg 11 1).raise pg (if c.ones then 1 else 0)
  if (s.stone m n.val).failed.isSome ∨ (s.stone m n.val).draining then s
  else
    let s := s.checkRecord m n c c.ones
    let s := if c.ones then s else s.onToll m fun t => { t with fails := (n.val, p.count) :: t.fails.filter (· != (n.val, p.count)) }
    let unit : UnitRef := match c.ones, c.onesBad with
      | true, some (l, _, _) => { kind := .stoneRow, index := 512 * stoneIndex m n + (rowMap (s.stone m n.val).disabled).getD l 0 }
      | true, none => { kind := .stoneRow, index := 512 * stoneIndex m n + (rowMap (s.stone m n.val).disabled).getD 256 0 }
      | _, _ => { kind := .stone, index := stoneIndex m n }
    if !c.ones && s.verdictDue m n.val p.count then
      s.histPending m (unitPair unit) 1 (BitVec.ofNat 64 c.opdig.toNat) c.injected
    else
      let o := (s.raceOp (s.raceOwner m) p.op)
      let s := s.report m { kind := .replayable (if c.ones then 2 else 1) unit, system := (o.map (·.system)).getD false, page := pg, cause := 0,
                            res := 0, opnd := BitVec.ofNat 64 c.opdig.toNat, pc := (o.map (·.pc)).getD 0, slot := 3, issue := false,
                            injected := c.injected }
      s.onStone m n.val fun x => { x with failed := some 1 }

/-- A wavefront's last row-end result has arrived: the check row comparison, or that of a ones wavefront, is decided. A ones wavefront with
a NaN or infinite D, C or S still has its rows compared with their h: R85 is taken to leave out the comparison of row 256 alone
(DESIGN CHOICE, log entry 34). -/
def wavefrontDone (m : MillId) (n : Fin 24) (s : State) : State :=
  let x := s.stone m n.val
  if s.halted then s
  else match x.pass with
    | none => s
    | some p =>
      match p.checks with
      | [] => s
      | c :: rest =>
        let pg : Page := .stone m n
        let s := if c.ones then s.tally pg 1 1 else (s.tally pg 0 1).tally pg 7 (256 - x.active.rows.length)
        let p := { p with checks := rest }
        let s := s.onStone m n.val fun x => { x with pass := some p }
        let skipped := checkSkipped c
        let s := if skipped then s.tally pg 12 1 else s
        let fails := c.onesBad.isSome || (!skipped && checkFails c (s.tolExp m n c.compat))
        let s := if fails then s.checkFailure m n p c else s
        if rest.isEmpty ∧ (s.stone m n.val).failed.isNone ∧ !x.draining then s.passEnded m n p else s

/-- WAVEFRONT_DONE. -/
def execWavefrontDone (m : MillId) (n : Fin 24) (s : State) : Host.Outcome State Fault Refusal := .next (wavefrontDone m n s)

/-! ## Abandonment of a pass (R93, R94, R134) -/

/-- Is there a pass to abandon: one in the stone, or one that a fault of the stone stopped as it began? -/
def Stone.abandons (x : Stone) : Bool := x.pass.isSome || x.failed.any (· != 0)

/-- A fault stops the feeder: the bank being written becomes invalid, the stone drains, and the race of a stone bound to a
stream is abandoned. A stone whose race has been abandoned by another drains in the same way. -/
def passAbort (m : MillId) (n : Fin 24) (s : State) : State :=
  let x := s.stone m n.val
  let own := s.raceOwner m
  let pulled := x.failed.isNone && x.pass.isSome && s.feederHeld m n.val
  if s.halted || x.draining || !(x.failed.isSome || pulled) then s
  else
    let s := s.tally (.stone m n) 14 (boolNat x.abandons)
    let s := s.onStone m n.val fun x =>
      let x := match x.pass.bind (·.bank) with
        | some b => x.setBank b { x.bank b with st := .invalid, toll := false }
        | none => x
      { x with draining := true, failed := some (x.failed.getD 5), recv := none, feed := none, injection := 0 }
    if pulled || x.failed == some 0 || s.roleOf m n.val == .scatter then s
    else s.raceAbandon own (s.racePos m n.val) (x.failed.getD 5)

/-- PASS_ABORT. -/
def execPassAbort (m : MillId) (n : Fin 24) (s : State) : Host.Outcome State Fault Refusal := .next (passAbort m n s)

/-- The aborted pass has drained. -/
def abortDone (m : MillId) (n : Fin 24) (s : State) : State :=
  let x := s.stone m n.val
  if s.halted || !x.draining then s
  else (s.onStone m n.val fun x => { x with draining := false, failed := none, pass := none }).raise (.stone m n) 8

/-- ABORT_DONE. -/
def execAbortDone (m : MillId) (n : Fin 24) (s : State) : Host.Outcome State Fault Refusal := .next (abortDone m n s)

/-! ## Drains (R81, R161) -/

/-- A word multiplied by its edge scale, and whether it was flushed (R161). -/
def edgeWord (w : W32) (e : Int) : W32 × Bool := toF32F ((f32 w).scale e)

/-- The positions of a list at which a word was flushed. -/
def flushedAt (vals : List (Option (W32 × Bool))) : List Nat := positions vals fun v => match v with | some (_, f) => f | none => false

/-- A line of elements with its edge scale applied, as a stage takes it from an operation: an element with no value is not written. -/
def edgeJob (o : RaceOp) (line : Nat) (vals : List (Option (W32 × Bool))) (hopper : Option (Nat × Nat)) (first : Bool) : LineJob :=
  { handle := o.ay, line := line, elem0 := o.elem0, vals := vals.map fun v => (v.map (·.1)).getD 0, keep := vals.map (·.isSome),
    flushed := flushedAt vals, hopper := hopper, op := o.id, pc := o.pc, slot := 3, system := o.system, first := first }

/-- The jobs of a drain: for each row of the bank, its words with the base applied, the line and element of the tile named
(R161, R299). -/
def drainJobs (o : RaceOp) (key : Nat) (words : List BankWord) : List LineJob :=
  let rows := (List.range 256).filter fun l => words.any fun w => w.1 / 256 == l
  (List.range rows.length).zip rows |>.map fun (i, l) =>
    let row := words.filter fun w => w.1 / 256 == l
    edgeJob o (o.line0 + l) ((List.range 256).map fun k => (row.find? fun w => w.1 % 256 == k).map fun w => edgeWord w.2.1 w.2.2)
      (if o.toHop then some (key, l) else none) (i == 0)

/-- The bank after a drain is free, or stays draining for a toll drain where the drain is sampled (R412). -/
def State.sampleDrain (s : State) (m : MillId) (n : Fin 24) (bank : Nat) : State :=
  let x := s.stone m n.val
  let sampled := s.bit (.toll m) 0x100 15 && (s.mill m).toll.on && s.tollSampled m n.val x.drains (s.fld (.toll m) 0x100 0 15)
  let s := if sampled then s.openToll m
      { stone := n.val, count := x.drains, drain := true, verdict := false, tileDig := 0, differs := false, srcs := [],
        srcDig := 0, bytes := 0, by_ := none, retried := none, bank := bank } else s
  s.onStone m n.val fun x =>
    { x.setBank bank (if sampled then { x.bank bank with st := .draining, toll := true } else Bank.reset) with drains := x.drains + 1 }

/-- A bank drain finishes its 256 columns through the governor: the words, multiplied by their edge scale, are handed to stage 0 of the
stone's own mill once it has written what it had (in splice too: the manual gives no rule for the mill that is not the head; DESIGN
CHOICE, log entry 34). -/
def bankDrain (m : MillId) (n : Fin 24) (codes : List Ecc) (s : State) : State :=
  let x := s.stone m n.val
  if !s.stoneReady m n || x.failed.isSome || x.draining then s
  else match s.drainOp m n.val with
    | none => s
    | some o =>
      let b := x.bank o.bank
      match bankUse b.st b.toll 3 with
      | .fault c => s.stoneFault m n c (c == 5) (2 ^ 16 * o.bank) (b.st.code + 4 * 3) o
      | _ =>
        if !(s.stageJobs m 0).isEmpty then s
        else s.coded codes fun s =>
          let (bad, s) := s.bankRead m n o.bank o
          if bad then s
          else
            let s := s.forAll (drainJobs o (o.block m) b.words) fun s j => s.addJob m 0 j
            (s.sampleDrain m n o.bank).onRaceOp m o.id fun o => { o with done := true }

/-- BANK_DRAIN. -/
def execBankDrain (m : MillId) (n : Fin 24) (codes : List Ecc) (s : State) : Host.Outcome State Fault Refusal :=
  .next (bankDrain m n codes s)

/-! ## Repair and self-test (R89 to R92, R96) -/

/-- REPAIR_CTL (R96): APPLY takes the rows as they are written now, and fails with RESULT 3 where two valid fields name one row; SELFTEST
requests the test alone. -/
def State.repairCtl (s : State) (m : MillId) (n : Fin 24) (apply test : Bool) : State :=
  let rows := s.rowmapRows m n
  let s := if apply then
      if rows.Nodup then s.onStone m n.val fun x => { x with applyReq := some rows } else s.putFld (.stone m n) 0x110 8 2 3
    else s
  if test then s.onStone m n.val fun x => { x with testReq := true } else s

/-- Writes the feeder skew table from a row map (R72, R98). -/
def State.writeSkew (s : State) (m : MillId) (n : Fin 24) (disabled : List Nat) : State :=
  let map := rowMap disabled
  s.forAll ((List.range map.length).zip map) fun s (l, p) => s.setWord (.stone m n) (0x200 + 4 * l) (BitVec.ofNat 32 (p + 512 * p))

/-- Is the stone idle between commands, with both banks free and no swap pending (R90)? -/
def State.stoneIdle (s : State) (m : MillId) (n : Fin 24) : Bool :=
  let x := s.stone m n.val
  !(s.mill m).cmd.running && x.clear && !x.loading && x.bank0.st == .free && x.bank1.st == .free && (s.swapPending m n.val).isNone

/-- At an idle boundary the miller applies a repair and starts the self-test. The skew table is written when the repair is done: a read
before that returns the old one (R98). -/
def repairRun (m : MillId) (n : Fin 24) (s : State) : State :=
  let x := s.stone m n.val
  if s.halted || !s.pageLive (.stone m n) || x.repair != .none || !s.stoneIdle m n then s
  else match x.applyReq with
    | some rows =>
      let g := stoneIndex m n
      let s := { s with nv := { s.nv with rowmaps := (g, rows) :: s.nv.rowmaps.filter fun r => r.1 != g } }
      s.onStone m n.val fun x => { x with disabled := rows, applyReq := none, testReq := false, repair := .repairing }
    | none => if x.testReq then s.onStone m n.val fun x => { x with testReq := false, repair := .testing } else s

/-- REPAIR_RUN. -/
def execRepairRun (m : MillId) (n : Fin 24) (s : State) : Host.Outcome State Fault Refusal := .next (repairRun m n s)

/-- A self-test fault in the history (R423): detector 10, a row or the stone, sequence number 0. -/
def State.selftestHistory (s : State) (m : MillId) (n : Fin 24) (row : Option Nat) : State :=
  let g := stoneIndex m n
  let (kind, index) := match row with | some p => (2, 512 * g + p) | none => (1, g)
  s.histWrite { step := s.histStep m, kind := kind, det := 10, cls := 0, index := index, seq := 0, opdig := 0, time := s.time } false

/-- The rows that a self-test reports as failing: those found, and one that an injection makes differ (R102, code 6). -/
def State.testRows (s : State) (m : MillId) (n : Fin 24) (found : List Nat) : List Nat × State :=
  let p : Page := .stone m n
  let (inj, s) := s.takeInj p 6
  (if inj then (s.injTarget p :: found).eraseDups else found, s)

/-- The self-test ends: the stone is in service only if every row of the row map passes and no path fault was found. A stone with a path
fault or a fifth failing row stays out of service whatever a later test finds (R92). -/
def selftestDone (m : MillId) (n : Fin 24) (failing : List (Fin 261)) (pathFault : Bool) (s : State) : State :=
  let x := s.stone m n.val
  if s.halted || x.repair == .none then s
  else
    let p : Page := .stone m n
    let real := (failing.map (·.val)).eraseDups
    let (rows, s) := s.testRows m n real
    let mapped := rows.filter fun r => (rowMap x.disabled).contains r
    let unrep := pathFault || decide (4 < (x.disabled ++ rows).eraseDups.length)
    let ok := mapped.isEmpty && !pathFault
    let s := if x.repair = .repairing then (s.writeSkew m n x.disabled).raise p 9 else s
    let s := s.putFld p 0x110 8 2 (if unrep || x.unrepairable then 3 else if ok then 1 else 2)
    let s := s.putFld p 0x110 16 9 (((List.range 261).find? fun r => rows.contains r).getD 0)
    let s := if ok then s else s.raise p 2
    let s := if unrep then s.raise p 3 else s
    let s := s.forAll (mapped.filter real.contains) fun s r => s.selftestHistory m n (some r)
    let s := if pathFault then s.selftestHistory m n none else s
    s.onStone m n.val fun x =>
      { x with repair := .none, unrepairable := x.unrepairable || unrep, outOfService := !ok || x.unrepairable || unrep }

/-- SELFTEST_DONE. -/
def execSelftestDone (m : MillId) (n : Fin 24) (failing : List (Fin 261)) (pathFault : Bool) (s : State) :
    Host.Outcome State Fault Refusal := .next (selftestDone m n failing pathFault s)

end Sys2Proof.Machine
end

