-- ==== Sys2Proof/Machine/Race.lean ====
section
/-! DEFINITION. The race (chapter 03): the fetch and entry of weight tiles, columns from hop to hop, the runners' additions, the
tailrace with its masks, the completion of race operations (R300), the splice of the two races and compatibility mode. -/

namespace Sys2Proof.Machine

/-! ## The fetch of a tile (R299) -/

/-- The sluice descriptor that an RTILE stands for: its lines of `n0` bytes, `n1` of them, at the pitch of the tensor. -/
def tileDesc (queue src n0 n1 pitch : Nat) : List Byte :=
  let w0 := queue * 2 ^ 4 + 2 * 2 ^ 8 + 3 * 2 ^ 13 + 2 ^ 15
  let bs := putBytes (List.replicate 128 0) 0 (leBytes 4 w0)
  let bs := putBytes bs 0x08 (leBytes 8 src)
  let bs := putBytes bs 0x18 (leBytes 4 n0)
  let bs := putBytes bs 0x1C (leBytes 4 n1)
  putBytes bs 0x30 (leBytes 8 pitch)

/-- Bytes of a line of a tile, and lines, that lie within the tensor and are read (R299). -/
def tileShape (t : OpndTensor) (o : RaceOp) : Nat × Nat :=
  (min 256 (t.desc.length - o.elem0) * t.fmt.bits / 8, min 256 (t.desc.lines - o.line0))

/-- A consumer of a stream transposes its tiles, or an RBIND that waits makes one (R162, R299): the bases of their lines are folded. -/
def State.tileFolds (s : State) (own : MillId) (stream : Nat) : Bool :=
  let binds (m : MillId) : Bool := (s.mill m).race.ops.any fun o => o.code == 0x80 && o.role == .consumer && o.tfeed && o.stream == stream
  ((s.boundTo own .consumer stream).any fun (k, n) => (s.binding k n).tfeed) || binds .m0 || binds .m1

/-- The headrace of a mill, as it reads what scales a tile. -/
def headraceAt (m : MillId) (pc : W64) (system : Bool) : GovAt :=
  { mill := m, line := 0, mover := { source := { kind := 0, index := 0, pc := pc, slot := 3, system := system }, node := (0, 0) } }

/-- The tensor of a tile, as the RTILE latches it. -/
def tileTensor (q : GovAt) (o : RaceOp) : Gov OpndTensor := latchOperand { q with line := o.line0 } (handleDesc o.ay) true false none

/-- The bytes of the trims of a line's part in a tile: address and length. -/
def tileTrims (t : OpndTensor) (o : RaceOp) (n0 i : Nat) : Nat × Nat :=
  let d := t.desc
  let (j, k) := d.blockSpan o.elem0 (n0 * 8 / t.fmt.bits)
  let (off, n) := itemSpan d.trimBits ((o.line0 + i) * d.blocks + j) k
  (d.trim + off, n)

/-- The transfer that an RTILE is (R299). -/
def tileXfer (t : OpndTensor) (o : RaceOp) (folds : Bool) : Transfer :=
  let (n0, n1) := tileShape t o
  let lines := List.range n1
  { newTransfer 0 o.system 0 (tileDesc o.queue o.ax.toNat n0 n1 (t.desc.length * t.fmt.bits / 8)) o.pc with
    rtile := some o.id, trims := lines.map (tileTrims t o n0),
    bases := if folds ∧ !t.desc.primed then lines.map fun i => (t.desc.entry (o.line0 + i), 4) else [] }

/-- RTILE cannot be issued while the read of its descriptor waits for a port. -/
def State.tileWaits (s : State) (m : MillId) (o : RaceOp) : Bool :=
  match s.govRun (headraceAt m o.pc o.system) o.ay (tileTensor (headraceAt m o.pc o.system) o) with
  | .hold => true
  | _ => false

/-- RTILE's fetch enters its queue when the operation issues. -/
def State.issueTile (s : State) (m : MillId) (o : RaceOp) : State :=
  match s.govRun (headraceAt m o.pc o.system) o.ay (tileTensor (headraceAt m o.pc o.system) o) with
  | .hold => s
  | .stop _ s => s
  | .ok t s =>
    let (n0, n1) := tileShape t o
    let x := tileXfer t o (s.tileFolds m o.stream)
    if n0 = 0 ∨ n1 = 0 then s
    else if descBadAddr false (s.pinBytes m) x.desc then s.sluFault m o.queue x 11 0 o.ax.toNat 0 true false
    else s.enqueue m o.queue x

/-- A tile's fetch is complete: nothing of it is left in its queue. -/
def State.tileFetched (s : State) (m : MillId) (o : RaceOp) : Bool :=
  !(s.queue m o.queue).xfers.any fun t => t.rtile == some o.id

/-! ## Entry at the headrace (R106, R113) -/

/-- The tile whose columns a stream enters next. -/
def State.entryOp (s : State) (m : MillId) (stream : Nat) : Option RaceOp :=
  ((s.mill m).race.ops.find? fun o => o.code == 0x83 && o.stream == stream && decide (o.prog < 256)).filter fun o =>
    !o.done && !o.failed && !((s.mill m).race.ops.takeWhile fun x => x.id != o.id).any fun x => x.code == 0x80

/-- The columns of a stream at a position. -/
def State.colsAt (s : State) (own : MillId) (pos stream : Nat) : List Column := cellGet [] (4 * pos + stream) (s.mill own).race.cols

def State.setCols (s : State) (own : MillId) (pos stream : Nat) (cs : List Column) : State :=
  s.onRace own fun r => { r with cols := cellSet [] (4 * pos + stream) cs r.cols }

/-- The columns of a stream that wait for the tailrace. -/
def State.tailOf (s : State) (own : MillId) (stream : Nat) : List Column := cellGet [] stream (s.mill own).race.tail

def State.setTail (s : State) (own : MillId) (stream : Nat) (cs : List Column) : State :=
  s.onRace own fun r => { r with tail := cellSet [] stream cs r.tail }

/-- Quarters of a hop that a column occupies (R104). -/
def Column.quarters (c : Column) : Nat := if c.fmt = .bf16 then 2 else if c.words.isEmpty then 1 else 4

/-- What scales line `i` of a tile, from the bytes fetched for it: the trims follow the chunks of the codes, and the bases those of the
trims. The base of an operand that is not folded is read when its column enters. -/
def tileScale (q : GovAt) (t : OpndTensor) (o : RaceOp) (i : Nat) : Gov LineScale := do
  let d := t.desc
  let (n0, n1) := tileShape t o
  let runs := (List.range n1).map (tileTrims t o n0)
  let at0 := 4096 * ((n0 * n1 + 4095) / 4096)
  let at1 := at0 + 4096 * runChunks runs
  let (j, k) := d.blockSpan o.elem0 (n0 * 8 / t.fmt.bits)
  let first := ((o.line0 + i) * d.blocks + j) * d.trimBits
  let ts := unpack d.trimBits (first % 8) k ((o.data.drop (at0 + runBytes (runs.take i))).take (runs.getD i (0, 0)).2)
  let e ← if o.data.length ≤ at1 then lineEntry q d else pure (byteField o.data (at1 + 4 * i) 4)
  pure { entry := e, trims := ts }

/-- The next column of a tile: line LINE0 + n, from its codes as fetched (R111, R299). A stone that folds latches B_ref when the
tile's first column enters. -/
def tileColumn (q : GovAt) (o : RaceOp) (folds : Bool) : Gov (OpndTensor × Column) := do
  let q := { q with line := o.line0 + o.prog }
  let t ← latchOperand q (handleDesc o.ay) true folds (o.bref q.mill (handleDesc o.ay))
  let (n0, n1) := tileShape t o
  let n := n0 * 8 / t.fmt.bits
  let codes := if o.prog < n1 then unpack t.fmt.bits 0 n ((o.data.drop (o.prog * n0)).take n0) else []
  let codes := codes ++ List.replicate (256 - codes.length) 0
  let (edge, es) ← if n1 ≤ o.prog ∨ n = 0 then pure (0, codes.map fun _ => (0, 0))
    else do
      let x ← tileScale q t o o.prog
      scaleLine q { t with fold := false } o.elem0 codes x
  pure (t, { op := o.id, idx := o.prog, stamp := 0, fmt := t.fmt, handle := o.ay, line := o.line0 + o.prog,
             bref := if folds then some t.bref else none, primed := t.desc.primed, swap := o.swap && o.prog == 0,
             shift := o.shift && o.prog == 0, edge := edge, elems := es,
             srcs := Src.virt (o.ax.toNat + o.prog * (t.desc.length * t.fmt.bits / 8)) n0 :: t.srcs (o.line0 + o.prog) 1 o.elem0 256,
             words := [] })

/-- A column arrives at a position, or at the tailrace behind the last (R107): it takes its place in the order of arrival. -/
def State.arriveCol (s : State) (own : MillId) (q stream : Nat) (c : Column) : State :=
  let c := { c with stamp := (s.mill own).race.clock }
  let s := s.onRace own fun r => { r with clock := r.clock + 1 }
  if q < s.raceLength own then s.setCols own q stream (s.colsAt own q stream ++ [c])
  else s.setTail own stream (s.tailOf own stream ++ [c])

/-- HEADRACE_ENTRY: the headrace enters the next column of a stream at position 0. -/
def headraceEntry (m : MillId) (stream : Fin 4) (codes : List Ecc) (s : State) : State :=
  if s.halted || s.raceOwner m != m || (s.mill m).race.abandoned || decide (4 ≤ (s.colsAt m 0 stream.val).length) then s
  else match s.entryOp m stream.val with
    | none => s
    | some o =>
      if !s.tileFetched m o then s
      else s.coded codes fun s =>
        match s.govRun (headraceAt m o.pc o.system) o.ay (tileColumn (headraceAt m o.pc o.system) o (s.tileFolds m o.stream)) with
        | .hold => s
        | .stop _ s => s.onRaceOp m o.id fun o => { o with failed := true }
        | .ok (t, c) s =>
          let s := s.keepBref m o.id m t
          let s := (s.tally (.race m) 0 1).tally (.race m) 3 c.quarters
          let s := if o.prog = 255 then s.tally (.race m) 7 1 else s
          (s.arriveCol m 0 stream.val c).onRaceOp m o.id fun o => { o with prog := o.prog + 1 }

/-- HEADRACE_ENTRY. -/
def execHeadraceEntry (m : MillId) (stream : Coded (Fin 4)) (s : State) : Host.Outcome State Fault Refusal :=
  .next (headraceEntry m stream.of stream.codes s)

/-! ## Hops (R103 to R111, R118 to R121) -/

/-- A consumer writes an arriving column into the receiving half of its feeder; a whole tile moves on when the injecting half is
empty. -/
def Stone.receive (x : Stone) (c : Column) : Stone :=
  let t : Tile := x.recv.getD { op := c.op, fmt := c.fmt, handle := c.handle, line := c.line, bref := c.bref, primed := c.primed,
                                swap := c.swap, shift := c.shift, srcs := [], waves := [] }
  let t := { t with waves := t.waves ++ [(c.edge, c.elems)], srcs := t.srcs ++ c.srcs }
  if decide (256 ≤ t.waves.length) && x.feed.isNone then { x with recv := none, feed := some t, injection := 0 }
  else { x with recv := some t }

/-- Are both halves of the feeder full (R111)? -/
def Stone.feederFull (x : Stone) : Bool := match x.recv with | some t => decide (256 ≤ t.waves.length) | none => false

/-- Is a column the next one of the tile that the receiving half takes? A stone bound in the middle of a tile lets the rest of it pass. -/
def Stone.takes (x : Stone) (c : Column) : Bool :=
  match x.recv with
  | some t => t.op == c.op && t.waves.length == c.idx
  | none => c.idx == 0

/-- The out value of a word at a runner and its flushes (R118, R121): the arriving word plus the bank word, rounded, plus the result, FP24
in compatibility mode (R194). -/
def carryWord (compat bf16Stream : Bool) (arriving bank y : W32) : W32 × Nat :=
  let a := accumulate compat arriving bank
  let b := accumulate compat a.1 y
  let flushes := boolNat a.2 + boolNat b.2
  if bf16Stream then
    let r := roundTo fmtBF16 (f32 b.1)
    (BitVec.ofNat 32 (2 ^ 16 * encodeWide 7 r.val), flushes + boolNat r.flushed)
  else (b.1, flushes)

/-- The share of a runner in one column: for each row its bank word, its result and the edge exponent. -/
abbrev CarryShare := List (Nat × W32 × W32 × Int)

/-- A runner adds its share to a dW column; rows not loaded add nothing. The words, and the flushes. -/
def runnerWords (compat bf16Stream : Bool) (words : List (W32 × Int)) (share : CarryShare) : List (W32 × Int) × Nat :=
  let out : List ((W32 × Int) × Nat) := (List.range 256).map fun k =>
    let w := words.getD k (0, 0)
    match share.find? fun e => e.1 == k with
    | some (_, b, y, e) => let r := carryWord compat bf16Stream w.1 b y; ((r.1, e), r.2)
    | none => (w, 0)
  (out.map (·.1), (out.map (·.2)).sum)

/-- The share of a stone in the dW column it is to let go next: the operation, the column's number and the words. -/
def Stone.share (x : Stone) : Option (Nat × Nat × CarryShare) :=
  x.pass.bind fun p => match p.carry with
    | c :: _ => some (p.op, 256 - p.carry.length, c)
    | [] => none

/-- The stone has let a dW column go: a pass whose comparisons are decided and whose columns have left is over. -/
def Stone.letGo (x : Stone) : Stone :=
  match x.pass with
  | none => x
  | some p => if p.carry.length ≤ 1 ∧ p.checks.isEmpty then x.passOver p else { x with pass := some { p with carry := p.carry.drop 1 } }

/-- What a position does with the column that leaves it next. -/
inductive HopKind where
  | pass | receive | add (share : CarryShare) | begin_ (share : CarryShare)
deriving DecidableEq, Repr

/-- A dW column as it begins at the runner of the lowest position, from +0 (R118). -/
def State.newborn (s : State) (own : MillId) (op idx : Nat) : Column :=
  let o := s.raceOp own op
  { op := op, idx := idx, stamp := (s.mill own).race.clock, fmt := if o.any (·.bf16) then .bf16 else .fp32, handle := (o.map (·.ay)).getD 0,
    line := 0, bref := none, primed := false, swap := false, shift := false, edge := 0, elems := [], srcs := [],
    words := List.replicate 256 (0, 0) }

/-- Is the next position of a stream, or the tailrace, full (R107)? -/
def State.hopFull (s : State) (own : MillId) (q stream : Nat) : Bool :=
  if q + 1 < s.raceLength own then decide (4 ≤ (s.colsAt own (q + 1) stream).length) else decide (4 ≤ (s.tailOf own stream).length)

/-- The role of the stone at a position for a stream. -/
def State.roleAt (s : State) (own : MillId) (q stream : Nat) : Role :=
  let (m, n) := State.posStone own q
  if (s.binding m n).stream = stream then s.roleOf m n else .unbound

/-- What the stone at a position does with the column of a stream that has come to it, if it is ready to leave (R109 to R111, R118). -/
def State.columnReady (s : State) (own : MillId) (q stream : Nat) (c : Column) : Option HopKind :=
  let (m, n) := State.posStone own q
  let x := s.stone m n
  if (s.mill own).race.dead c then some .pass
  else match s.roleAt own q stream, c.words.isEmpty with
    | .consumer, true => if x.feederFull then none else if x.takes c then some .receive else some .pass
    | .runner, false => x.share.bind fun (op, i, sh) => if op = c.op ∧ i = c.idx then some (.add sh) else none
    | _, _ => some .pass

/-- The column that a stream can send on from a position now, and what the stone there does with it. -/
def State.hopReady (s : State) (own : MillId) (q stream : Nat) : Option (Column × HopKind) :=
  if s.hopFull own q stream then none
  else match (s.colsAt own q stream).head? with
    | some c => (s.columnReady own q stream c).map fun k => (c, k)
    | none =>
      let (m, n) := State.posStone own q
      if (s.mill own).race.abandoned || s.roleAt own q stream != .runner || (s.boundTo own .runner stream).head? != some (m, n) then none
      else (s.stone m n).share.map fun (op, i, sh) => (s.newborn own op i, .begin_ sh)

/-- A column of another stream that is ready at the position has arrived before it (R107). Arrivals are taken one by one, so that no two
tie. -/
def State.hopLater (s : State) (own : MillId) (q stream : Nat) (c : Column) : Bool :=
  (List.range 4).any fun t => t != stream && (s.hopReady own q t).any fun r => r.1.stamp < c.stamp

/-- The column ready to cross the shaft from a mill in a spliced race, which has precedence over all other crossing traffic (R36): from
position 23 to 24, or from 47 back to the head mill. -/
def State.raceCrossing (s : State) (m : MillId) : Bool :=
  let own := s.raceOwner m
  (s.mill m).race.spliced && !s.halted && (List.range 4).any fun t => (s.hopReady own (if own = m then 23 else 47) t).isSome

/-- An injected fault of the race at a hop (R139, codes 1 and 3): the abandonment and the replayable condition. -/
def State.raceInjected (s : State) (own : MillId) (q : Nat) (shaft : Bool) : State :=
  let s := if shaft then s.raise (.race own) 4 else s
  let (k, n) := State.posStone own q
  let u : UnitRef := if shaft then { kind := .shaft, index := 0 } else { kind := .stone, index := gidx k n }
  (s.raceAbandon own q (if shaft then 4 else 5)).report own
    { kind := .replayable (if shaft then 8 else 1) u, system := false, page := .race own, cause := 0, res := 0, opnd := 0, pc := 0,
      slot := 3, issue := false, injected := true }

/-- The injected corruption of a word of a chosen dW column at a chosen position (R139, code 2): which word and what value the
manual does not say. -/
def State.corruptWord (s : State) (own : MillId) (q : Nat) (c : Column) : Column × State :=
  let (inj, s) := if c.words.isEmpty then (false, s) else s.takeInjAt (.race own) 2 (q + 64 * c.idx)
  if inj then
    let v := s.free
    let k := v.toNat / 2 ^ 32 % 256
    ({ c with words := c.words.set k (BitVec.ofNat 32 v.toNat, (c.words.getD k (0, 0)).2) }, s.drawn)
  else (c, s)

/-- A column crosses to the next position with what the stone at its position does to it. -/
def State.hopCol (s : State) (own : MillId) (q stream : Nat) (c : Column) (k : HopKind) : State :=
  let (m, n) := State.posStone own q
  let take (s : State) : State := s.setCols own q stream ((s.colsAt own q stream).drop 1)
  let add (s : State) (share : CarryShare) : State :=
    let (ws, fl) := runnerWords (s.mill m).governor.compat (c.fmt == .bf16) c.words share
    let s := s.tally (.stone m (Fin.ofNat 24 n)) 9 fl
    let (c, s) := s.corruptWord own q { c with words := ws }
    (s.onStone m n Stone.letGo).arriveCol own (q + 1) stream c
  match k with
  | .pass => let (c, s) := if (s.mill own).race.dead c then (c, s) else s.corruptWord own q c
             (take s).arriveCol own (q + 1) stream c
  | .receive => ((take s).onStone m n fun x => x.receive c).arriveCol own (q + 1) stream c
  | .add share => add (take s) share
  | .begin_ share => add s share

/-- Does an injection take the hop of a live column (R139, codes 1 and 3)? A chosen position, or either hop that crosses the shaft. -/
def State.hopInjected (s : State) (own : MillId) (q : Nat) : Option State :=
  let (i1, s1) := s.takeInjAt (.race own) 1 q
  let (i3, s3) := if (q = 23 ∨ q = 47) ∧ (s.mill own).race.spliced then s.takeInj (.race own) 3 else (false, s)
  if i1 then some (s1.raceInjected own q false) else if i3 then some (s3.raceInjected own q true) else none

/-- COLUMN_HOP: the column that waits at a position is received by its stone, or has the runner's share added, and crosses to
the next position. At the runner of the lowest position a dW column begins. -/
def columnHop (m : MillId) (stream : Fin 4) (pos : Fin 24) (s : State) : State :=
  let own := s.raceOwner m
  let q := s.racePos m pos.val
  if s.halted then s
  else match s.hopReady own q stream.val with
    | none => s
    | some (c, k) =>
      if s.hopLater own q stream.val c then s
      else if (s.mill own).race.dead c then s.hopCol own q stream.val c k
      else (s.hopInjected own q).getD (s.hopCol own q stream.val c k)

/-- COLUMN_HOP. -/
def execColumnHop (m : MillId) (stream : Fin 4) (pos : Fin 24) (s : State) : Host.Outcome State Fault Refusal :=
  .next (columnHop m stream pos s)

/-! ## The tailrace (R119, R129, R130, R134) -/

/-- The mask words in force (R135): KMASK and NMASK of mask k. -/
def State.maskWords (s : State) (own : MillId) (k : Nat) : List W32 × List W32 :=
  ((List.range 8).map (fun i => s.word (.race own) (0x400 + 0x40 * k + 4 * i)),
   (List.range 8).map fun i => s.word (.race own) (0x420 + 0x40 * k + 4 * i))

/-- Bit b of eight mask words. -/
def maskBit (ws : List W32) (b : Nat) : Bool := bitOf (ws.getD (b / 32) 0) (b % 32)

/-- The lines of a whole dW tile, with the words that its mask keeps and the edge scale applied (R129, R161). -/
def tileJobs (o : RaceOp) (t : TailTile) : List LineJob :=
  (List.range 256).map fun k =>
    edgeJob o (o.line0 + k) ((List.range 256).map fun n =>
      let w := (((t.cols.find? fun c => c.1 == n).map (·.2)).getD []).getD k (0, 0)
      if maskBit t.kmask k && maskBit t.nmask n then some (edgeWord w.1 w.2) else none) none (k == 0)

/-- Words of a tile that a mask does not keep. -/
def maskedWords (t : TailTile) : Nat :=
  65536 - ((List.range 256).filter (maskBit t.kmask)).length * ((List.range 256).filter (maskBit t.nmask)).length

/-- Every runner of a dW tile has decided its comparisons. -/
def State.runnersMade (s : State) (own : MillId) (o : RaceOp) : Bool :=
  (s.boundTo own .runner o.stream).all fun (k, n) => s.opMade o k n

/-- A whole tile of a stream that the tailrace holds. -/
def State.wholeTile (s : State) (own : MillId) (stream : Nat) : Option TailTile :=
  (s.mill own).race.tiles.find? fun t => t.stream == stream && decide (256 ≤ t.cols.length)

/-- A tile whose 256 columns are in and whose runners are done is handed to the governor's write port, once it accepts one: whole or
not at all. -/
def State.writeTile (s : State) (own : MillId) (stream : Nat) : State :=
  match s.wholeTile own stream with
  | none => s
  | some t => match s.raceOp own t.op with
    | none => s
    | some o =>
      if !s.runnersMade own o || !(s.stageJobs own 0).isEmpty then s
      else
        let s := s.forAll (tileJobs o t) fun s j => s.addJob own 0 j
        let s := (s.tally (.race own) 1 256).tally (.race own) 10 (maskedWords t)
        let s := s.onRace own fun r => { r with tiles := r.tiles.filter fun x => x.op != t.op }
        s.onRaceOp own o.id fun o => { o with done := true }

/-- The tailrace takes a column of a dW tile, whose mask is latched at the first (R130). -/
def State.takeDW (s : State) (m : MillId) (stream : Nat) (c : Column) : State :=
  let masks := s.maskWords m (((s.raceOp m c.op).map (·.mask)).getD 0)
  s.onRace m fun r =>
    let tiles := if r.tiles.any fun t => t.op == c.op then r.tiles
      else r.tiles ++ [{ op := c.op, stream := stream, kmask := masks.1, nmask := masks.2, cols := [] }]
    { r with tiles := tiles.map fun t => if t.op = c.op then { t with cols := t.cols ++ [(c.idx, c.words)] } else t }

/-- TAILRACE_WRITE: the tailrace takes the next column of a stream. A weight column is discarded, and so is a dW column of a pass that
is abandoned or dropped; another goes into its tile, and the tile is written when it is whole. A whole tile that the governor does not
accept keeps the dW columns behind it waiting (R134). -/
def tailraceWrite (m : MillId) (stream : Fin 4) (s : State) : State :=
  if s.halted || s.raceOwner m != m then s
  else
    match s.tailOf m stream.val with
    | [] => s.writeTile m stream.val
    | c :: rest =>
      if c.words.isEmpty then (s.setTail m stream.val rest).tally (.race m) 2 1
      else if (s.mill m).race.dead c then s.setTail m stream.val rest
      else if (s.wholeTile m stream.val).isSome then s.writeTile m stream.val
      else ((s.setTail m stream.val rest).takeDW m stream.val c).writeTile m stream.val

/-- TAILRACE_WRITE. -/
def execTailraceWrite (m : MillId) (stream : Fin 4) (s : State) : Host.Outcome State Fault Refusal :=
  .next (tailraceWrite m stream s)

/-! ## Completion of race operations (R300) -/

/-- A race operation leaves the race engine and posts its token. -/
def State.finishRaceOp (s : State) (m : MillId) (o : RaceOp) : State :=
  let s := s.onRace m fun r => { r with ops := r.ops.filter fun x => x.id != o.id }
  if o.post then s.enginePost m (ctxOf o.system) o.tctr 1 else s

/-- The stones of a mill that an operation's mask names. -/
def RaceOp.maskStones (o : RaceOp) : List Nat := (List.range 24).filter o.inMask

/-- The binding of stone `n` that RBIND asks for: the fault it meets (R100, BIND). -/
def State.bindFault (s : State) (m : MillId) (o : RaceOp) (n : Nat) : Option Nat :=
  let x := s.stone m n
  let b := s.binding m n
  let streams (r : Role) : Bool := r == .consumer || r == .runner
  if o.role != .unbound && (x.outOfService || x.repair != .none || s.unitOut (1, gidx m n)) then some 0
  else if streams o.role && streams b.role && b.stream != o.stream then some 1
  else none

/-- An RBIND waits for the tiles of its stream that were issued before it: a stone is bound before a pass, never within one (R109). -/
def State.streamBusy (s : State) (m : MillId) (o : RaceOp) : Bool :=
  (o.role == .consumer || o.role == .runner)
    && ((s.mill m).race.ops.takeWhile fun x => x.id != o.id).any fun x => (x.code == 0x83 || x.code == 0x84) && x.stream == o.stream

/-- RBIND takes effect on every stone of its mask, after the earlier operations that name it (R109, R300). The manual does not say how
long a binding lasts: it stays in force until another RBIND or a reset (DESIGN CHOICE, log entry 34). -/
def State.bindDone (s : State) (m : MillId) (o : RaceOp) : State :=
  let ns := o.maskStones
  if o.done || ns.any (fun n => s.earlierOp m o m n fun _ => true) || s.streamBusy m o
     || (o.role != .unbound && ns.any fun n => (s.mill m).power.gated.any fun g => g.val == n && !(s.stone m n).outOfService) then s
  else match ns.findSome? fun n => (s.bindFault m o n).map fun c => (n, c) with
    | some (n, c) =>
      (s.onRaceOp m o.id fun o => { o with done := true }).report m
        { kind := .contract, system := o.system, page := .stone m (Fin.ofNat 24 n), cause := 6, res := BitVec.ofNat 64 (gidx m n),
          opnd := BitVec.ofNat 64 c, pc := o.pc, slot := 3, issue := false, injected := false }
    | none =>
      let b : Binding := { role := o.role, stream := o.stream, replay := o.replay, tfeed := o.tfeed }
      (s.onRace m fun r =>
        { r with binds := (if o.role = .unbound then [] else ns.map fun n => (n, b)) ++ r.binds.filter fun e => !ns.contains e.1 }).finishRaceOp
        m o

/-- Lines of an operation that a governor stage has still to write. -/
def State.jobsLeft (s : State) (m : MillId) (stage : Nat) (o : RaceOp) : Bool := (s.stageJobs m stage).any fun j => j.op == o.id

/-- RACE_OP_DONE: the k-th operation of the race engine reaches the point of R300. -/
def raceOpDone (m : MillId) (k : Nat) (s : State) : State :=
  if s.halted then s
  else match ((s.mill m).race.ops[k]?).filter fun o => !o.failed with
    | none => s
    | some o =>
      match o.code with
      | 0x80 => s.bindDone m o
      | 0x81 => if o.done then s.finishRaceOp m o else s
      | 0x82 =>
        if s.earlierOp m o m o.stone fun _ => true then s
        else (s.onStone m o.stone fun x => { x with plan := o.plan }).finishRaceOp m o
      | 0x83 =>
        let made := decide (256 ≤ o.prog) && (s.boundTo m .consumer o.stream).all fun (k, n) => s.opMade o k n
        if made then s.finishRaceOp m o else s
      | 0x84 =>
        if (s.mill m).race.abandoned then s.finishRaceOp m o
        else if o.done && !s.jobsLeft m 0 o then (s.tally (.race m) 8 1).finishRaceOp m o
        else s
      | 0x85 => if o.done && !s.jobsLeft m 0 o then s.finishRaceOp m o else s
      | _ => if o.done then s.finishRaceOp m o else s

/-- RACE_OP_DONE. -/
def execRaceOpDone (m : MillId) (k : Nat) (s : State) : Host.Outcome State Fault Refusal := .next (raceOpDone m k s)

/-! ## Splice (R122 to R125) and compatibility mode (R191) -/

/-- Nothing is in a race. -/
def Race.idle (r : Race) : Bool := r.ops.isEmpty && r.cols.isEmpty && r.tail.isEmpty && r.tiles.isEmpty

/-- A command boundary of a mill at which its race is idle. -/
def State.idleBoundary (s : State) (m : MillId) : Bool := !(s.mill m).cmd.running && (s.mill m).race.idle && s.pageLive (.race m)

/-- The splice request, head mill and compatibility request of a mill. -/
def State.wants (s : State) (m : MillId) : Bool × Bool × Bool :=
  (s.bit (.race m) 0x100 0, s.bit (.race m) 0x100 1, s.bit (.governor m) 0x100 0)

/-- Raises an event of both race pages. -/
def State.raiseRaces (s : State) (bit : Nat) : State := (s.raise (.race .m0) bit).raise (.race .m1) bit

/-- Puts both races in or out of splice. -/
def State.setSplice (s : State) (on one : Bool) : State :=
  (s.onRace .m0 fun r => { r with spliced := on, headOne := one }).onRace .m1 fun r => { r with spliced := on, headOne := one }

/-- Each mill takes its own COMPAT. -/
def State.takeCompat (s : State) (m : MillId) : State := s.onGov m fun g => { g with compat := s.bit (.governor m) 0x100 0 }

/-- SPLICE_BEGIN: at a boundary with both races idle, splice begins where both mills ask for it with equal HEAD and COMPAT, the change of
COMPAT due at the boundary made (R191); unequal values raise SPLICE_MISMATCH and the mills run unspliced. -/
def spliceBegin (s : State) : State :=
  let (p0, h0, c0) := s.wants .m0
  let (p1, h1, c1) := s.wants .m1
  if !s.idleBoundary .m0 || !s.idleBoundary .m1 || s.mill0.race.spliced || !(p0 || p1) then s
  else
    let s := (s.takeCompat .m0).takeCompat .m1
    if p0 && p1 && h0 == h1 && c0 == c1 then (s.setSplice true h0).raiseRaces 2 else s.raiseRaces 1

/-- SPLICE_BEGIN. -/
def execSpliceBegin (s : State) : Host.Outcome State Fault Refusal := .next (spliceBegin s)

/-- Splice ends; where the values are unequal SPLICE_MISMATCH is raised. -/
def State.unsplice (s : State) (mismatch : Bool) : State :=
  let s := (s.setSplice false false).raiseRaces 3
  if mismatch then s.raiseRaces 1 else s

/-- SPLICE_END: at a boundary with the race idle, splice ends where a mill holds SPLICE = 0 or the values differ. -/
def spliceEnd (s : State) : State :=
  let w0 := s.wants .m0
  let w1 := s.wants .m1
  if !s.idleBoundary .m0 || !s.idleBoundary .m1 || !s.mill0.race.spliced then s
  else if w0.1 && w1.1 && w0 == w1 then s
  else
    let s := (s.takeCompat .m0).takeCompat .m1
    s.unsplice (w0 != w1)

/-- SPLICE_END. -/
def execSpliceEnd (s : State) : Host.Outcome State Fault Refusal := .next (spliceEnd s)

/-- COMPAT_CHANGE: the mill's stones and governor stages take GOV_CTL.COMPAT at a boundary at which the race is idle. In splice
both change together, or splice ends (R191). -/
def compatChange (m : MillId) (s : State) : State :=
  let want := s.bit (.governor m) 0x100 0
  let other := s.bit (.governor m.other) 0x100 0
  if !s.idleBoundary m then s
  else if !(s.mill m).race.spliced then s.takeCompat m
  else if !s.idleBoundary m.other then s
  else
    let s := (s.takeCompat .m0).takeCompat .m1
    if want == other then s else s.unsplice true

/-- COMPAT_CHANGE. -/
def execCompatChange (m : MillId) (s : State) : Host.Outcome State Fault Refusal := .next (compatChange m s)

end Sys2Proof.Machine
end

