-- ==== Sys2Proof/Machine/Toll.lean ====
section
/-! DEFINITION. Toll passes and toll drains (R407 to R414, R639): a sampled pass runs again on another stone, a sampled drain
runs again through another governor stage, and their digests are compared. -/

namespace Sys2Proof.Machine

/-- A toll whose pass failed the check row again in this run, as it did in the run before: a verdict (R414). -/
def State.tollVerdict (s : State) (m : MillId) (r : TollRec) : Bool :=
  !r.drain && s.verdictDue m r.stone r.count && (s.mill m).toll.fails.contains (r.stone, r.count)

/-- A toll that is to run. -/
def State.tollLive (s : State) (m : MillId) (r : TollRec) : Bool := !r.verdict || s.tollVerdict m r

/-- The command waits for tolls (R401). -/
def State.tollsOpen (s : State) (m : MillId) : Bool := (s.mill m).toll.open_.any (s.tollLive m)

/-- Replaces the k-th open toll, or removes it. -/
def State.setToll (s : State) (m : MillId) (k : Nat) (r : Option TollRec) : State :=
  s.onToll m fun t => match r with
    | some r => { t with open_ := t.open_.set k r }
    | none => { t with open_ := t.open_.eraseIdx k, captured := t.captured - ((t.open_[k]?.map (·.bytes)).getD 0) }

/-- A stone in service that a toll pass could use. -/
def State.tollStone (s : State) (m : MillId) (n : Nat) : Bool :=
  let x := s.stone m n
  !x.outOfService && x.repair == .none && !s.unitOut (1, gidx m n)

/-- The command has reached END and every pass has drained (R409). -/
def State.tollsOnly (s : State) (m : MillId) : Bool :=
  (s.mill m).miller.st == .atEnd && (s.mill m).stones.all fun x => x.pass.isNone

/-- Is a stone eligible for the toll of another (R409)? A gated one is not (R511), but after END, when every stone is. -/
def State.tollEligible (s : State) (m : MillId) (n : Nat) : Bool :=
  let x := s.stone m n
  let free := x.recv.isNone && x.feed.isNone && x.shadow.rows.isEmpty && (s.loadOp m n).isNone && (s.swapPending m n).isNone
  s.tollStone m n && !s.tollHeld m n && x.clear && (free && !(s.mill m).power.gated.any (fun g => g.val == n) || s.tollsOnly m)

/-- A gated stone that takes a toll after END is powered again (log entry 46). -/
def State.tollWakes (s : State) (m : MillId) (n : Fin 24) : State :=
  if (s.mill m).power.gated.contains n then
    (s.onPower m fun p => { p with gated := p.gated.filter (· != n), ungating := p.ungating.filter (· != n) }).tally (.power m) 4 1
  else s

/-- TOLL_PASS: the toll of the first sampled pass not yet running starts on a stone. Where no other stone is in service it is
void. -/
def tollPass (m : MillId) (stone : Fin 24) (s : State) : State :=
  if s.halted then s
  else
    match positions (s.mill m).toll.open_ (fun r => !r.drain && r.by_.isNone && s.tollLive m r) with
    | [] => s
    | k :: _ =>
      match (s.mill m).toll.open_[k]? with
      | none => s
      | some r =>
        if !(List.range 24).any (fun n => n != r.stone && some n != r.retried && s.tollStone m n) then
          (s.setToll m k none).tally (.toll m) 2 1
        else if stone.val = r.stone ∨ some stone.val = r.retried ∨ !s.tollEligible m stone.val then s
        else (s.tollWakes m stone).setToll m k (some { r with by_ := some stone.val })

/-- TOLL_PASS. -/
def execTollPass (m : MillId) (stone : Fin 24) (s : State) : Host.Outcome State Fault Refusal := .next (tollPass m stone s)

/-- Fills the toll record (R430). -/
def State.tollRecord (s : State) (m : MillId) (stone by_ kind count : Nat) (indig pc : W64) : State :=
  let p : Page := .toll m
  s.record p 0x144 fun s =>
    let s := (s.setWord p 0x140 (s.seq m)).setWord p 0x144 (BitVec.ofNat 32 (stone + 32 * by_ + 1024 * kind))
    ((s.setWord p 0x148 (BitVec.ofNat 32 count)).setWord64 p 0x150 indig).setWord64 p 0x158 pc

/-- A toll or verdict that does not compare equal: TOLL_MISMATCH, the record and the replayable condition (R410, R414). -/
def State.tollMismatch (s : State) (m : MillId) (r : TollRec) (by_ kind det : Nat) (unit : UnitRef) (injected : Bool) : State :=
  let s := (s.tally (.toll m) 4 1).raise (.toll m) 0
  let s := s.tollRecord m r.stone by_ kind r.count r.tileDig 0
  s.report m { kind := .replayable det unit, system := false, page := .toll m, cause := 0, res := 0, opnd := r.tileDig, pc := 0,
               slot := 3, issue := false, injected := injected }

/-- The stone a toll ran on: its shadow set reads as unwritten again (R411). -/
def State.tollLeaves (s : State) (m : MillId) (n : Nat) : State :=
  s.onStone m n fun x => { x with shadow := { StatSet.reset with staged := x.shadow.staged } }

/-- TOLL_PASS_DONE: the oldest running toll pass ends. One abandoned by a fault of its stone is restarted once on another. The
toll is void where its inputs differ; otherwise its results are compared. -/
def tollPassDone (m : MillId) (s : State) : State :=
  if s.halted then s
  else
    match positions (s.mill m).toll.open_ (fun r => r.by_.isSome) with
    | [] => s
    | k :: _ =>
      match (s.mill m).toll.open_[k]? with
      | none => s
      | some r =>
        let b := r.by_.getD 0
        let s := s.tollLeaves m b
        if (s.stone m b).failed.isSome ∧ r.retried.isNone then s.setToll m k (some { r with by_ := none, retried := some b })
        else
          let lost := (s.stone m b).failed.isSome
          let verdict := s.tollVerdict m r
          let s := s.tally (.toll m) 12 (boolNat verdict)
          let (inj, s) := s.takeInj (.toll m) 2
          let void := inj || lost || s.srcDigest m r.srcs != r.srcDig
          let s := s.setToll m k none
          let stone : UnitRef := { kind := .stone, index := gidx m r.stone }
          if void then
            let s := s.tally (.toll m) 2 1
            if verdict then
              s.report m { kind := .replayable 1 stone, system := false, page := .stone m (Fin.ofNat 24 r.stone), cause := 0, res := 0,
                           opnd := r.tileDig, pc := 0, slot := 3, issue := false, injected := false }
            else s
          else if r.differs then s.tollMismatch m r b (if verdict then 5 else 1) 3 stone true
          else
            let s := s.tally (.toll m) 1 1
            if verdict then
              ((s.tally (.toll m) 13 1).classFour (s.seq m) (1, gidx m r.stone)).raise (.toll m) 5
            else s

/-- TOLL_PASS_DONE. -/
def execTollPassDone (m : MillId) (s : State) : Host.Outcome State Fault Refusal := .next (tollPassDone m s)

/-- TOLL_DRAIN: a sampled drain is drained a second time in digest-only mode and compared; its bank becomes free (R412). -/
def tollDrain (m : MillId) (s : State) : State :=
  if s.halted || !(s.stageJobs m 0).isEmpty then s
  else
    match positions (s.mill m).toll.open_ (fun r => r.drain) with
    | [] => s
    | k :: _ =>
      match (s.mill m).toll.open_[k]? with
      | none => s
      | some r =>
        let s := s.setToll m k none
        let s := s.onStone m r.stone fun x => if (x.bank r.bank).toll then x.setBank r.bank Bank.reset else x
        let s := s.tally (.toll m) 7 1
        let (inj, s) := s.takeInj (.toll m) 4
        if inj then
          s.tollMismatch m r (2 + (r.stone / 2 + 1) % 12) 3 4 { kind := .governorStage, index := 14 * m.num } true
        else s.tally (.toll m) 1 1

/-- TOLL_DRAIN. -/
def execTollDrain (m : MillId) (s : State) : Host.Outcome State Fault Refusal := .next (tollDrain m s)

end Sys2Proof.Machine
end

