-- ==== Sys2Proof/Machine/Command.lean ====
section
/-! DEFINITION. Commands (chapters 08, 11 and 13): assembly, start, faults, replay, completion, abort and flush. -/

namespace Sys2Proof.Machine

/-! ## Fields of the command register file -/

def CommandFile.asm (x : CommandFile) : Path → Assembly
  | .pcie => x.asmPcie
  | .chain => x.asmChain
  | .sys0 => x.asmSys0
  | .sys1 => x.asmSys1

def CommandFile.setAsm (x : CommandFile) (p : Path) (a : Assembly) : CommandFile :=
  match p with
  | .pcie => { x with asmPcie := a }
  | .chain => { x with asmChain := a }
  | .sys0 => { x with asmSys0 := a }
  | .sys1 => { x with asmSys1 := a }

/-! ## Headers and assemblies (R475 to R480) -/

/-- The kind of a command header. -/
def headerKind (h : W32) : Option CmdKind :=
  match bitsOf h 8 4 with
  | 1 => some .run
  | 2 => some .load
  | 3 => some .mark
  | _ => none

/-- Is a header well formed (R475, R476, R478)? -/
def headerOk (h : W32) : Bool :=
  let len := bitsOf h 0 8
  bitsOf h 15 17 == 0 &&
    match headerKind h with
    | some .run => decide (4 ≤ len) && decide (len ≤ 20) && len % 2 == 0
    | some .load => len == 6 && bitsOf h 12 2 == 0
    | some .mark => len == 2 && bitsOf h 12 2 == 0
    | none => false

/-- The command that the words of a whole assembly spell. -/
def parseCmd (ws : List W32) : Cmd :=
  let h := ws.getD 0 0
  let d (i : Nat) : W64 := mkWord64 (ws.getD (i + 1) 0) (ws.getD i 0)
  let kind := (headerKind h).getD .mark
  { seq := ws.getD 1 0, kind := kind, spliced := bitOf h 12, pondPoint := bitOf h 13, notify := bitOf h 14,
    addr := if kind = .mark then 0 else d 2, length := if kind = .load then d 4 else 0,
    args := if kind = .run then (List.range ((bitsOf h 0 8 - 4) / 2)).map fun i => d (4 + 2 * i) else [] }

/-- A refusal (R479): the record, the event; NEXT_SEQ stays. -/
def State.cmdRefuse (s : State) (m : MillId) (path : Nat) (seq : W32) (cause : Nat) : State :=
  let p : Page := .command m
  let s := s.tally p 2 1
  let s := s.record p 0x124 fun s => (s.setWord p 0x120 seq).setWord p 0x124 (BitVec.ofNat 32 (cause + 16 * path))
  s.raise p 0

/-- The last word of an assembly has arrived: the command becomes pending, or is refused (R479). -/
def State.cmdSubmit (s : State) (m : MillId) (path : Nat) (ws : List W32) : State :=
  let p : Page := .command m
  let c := parseCmd ws
  let (inj, s) := s.takeInj p 1
  let cause :=
    if inj then s.injTarget p % 16
    else if c.seq ≠ s.word p 0x104 then 2
    else if 16 ≤ (s.mill m).cmd.queue.length then 3
    else if s.millOut m then 4
    else 0
  if inj ∨ cause ≠ 0 then s.cmdRefuse m path c.seq cause
  else ((s.setWord p 0x104 (s.word p 0x104 + 1)).onCmd m fun x => { x with queue := x.queue ++ [c] }).tally p 1 1

/-- A word written to CMD_WORD through a path (R477 to R480). -/
def State.cmdWordWrite (s : State) (p : Path) (m : MillId) (w : W32) : State :=
  let s := s.tally (.command m) 0 1
  let a := (s.mill m).cmd.asm p
  if a.refused then s
  else
    let ws := a.words ++ [w]
    if a.words.isEmpty ∧ headerOk w = false then
      (s.onCmd m fun x => x.setAsm p { words := [], refused := true }).cmdRefuse m p.code 0 1
    else if ws.length < bitsOf (ws.getD 0 0) 0 8 then s.onCmd m fun x => x.setAsm p { words := ws, refused := false }
    else
      let s := s.onCmd m fun x => x.setAsm p .reset
      if p = .pcie ∧ (!s.host.chuteBuf.isEmpty ∨ !(s.mill m).cmd.held.isEmpty) then
        s.onCmd m fun x => { x with held := x.held ++ [(ws, s.host.chuteBuf.length)] }
      else s.cmdSubmit m p.code ws

/-- CMD_CTL.RESET_ASM. -/
def State.resetAsm (s : State) (p : Path) (m : MillId) : State := s.onCmd m fun x => x.setAsm p .reset

/-- Inbound chute words have been written: `n` fewer are in front of the held commands, and those with none left become pending. -/
def State.cmdRelease (s : State) (n : Nat) : State :=
  s.forAll [MillId.m0, .m1] fun s m =>
    let held := (s.mill m).cmd.held.map fun x => (x.1, x.2 - n)
    let ready := held.takeWhile fun x => x.2 == 0
    (s.onCmd m fun x => { x with held := held.drop ready.length }).forAll ready fun s x => s.cmdSubmit m 0 x.1

/-! ## Faults that are counted (R316, R322) -/

/-- A contract or command fault is counted and raised; a replayable condition has counted where it was found. -/
def State.countFault (s : State) (m : MillId) (f : FaultInfo) : State :=
  match f.kind with
  | .contract => (s.tally (.ikiug m) 12 1).raise (.ikiug m) 0
  | .command => (s.tally (.ikiug m) 13 1).raise (.ikiug m) 1
  | .replayable _ _ => s

/-- A later fault of a command is counted and not recorded. -/
def State.loseFault (s : State) (m : MillId) (f : FaultInfo) : State := (s.countFault m f).tally (.ikiug m) 14 1

/-! ## Dropping the operations of a command (R269, R314, R403) -/

/-- A remote post of a context on its way across the shaft. -/
def ShaftItem.isPost (i : ShaftItem) (c : Ctx) : Bool :=
  match i with
  | .post d _ _ => d == c
  | .flit _ => false

/-- A stone whose pass is dropped: the bank that the pass was writing becomes invalid, and the pass drains (R93). Under the emergency brake
the drain begins only after release (R94): the stone waits for it as one that has failed for no cause of its own. -/
def Stone.endPass (x : Stone) (halted : Bool) : Stone :=
  let x := match x.pass.bind (·.bank) with
    | some b => x.setBank b { x.bank b with st := .invalid, toll := false }
    | none => x
  if x.pass.isNone && x.failed.isNone || x.draining then x
  else if halted then { x with failed := some (x.failed.getD 0) }
  else { x with draining := true }

/-- A stone loses what it held for operations that are dropped: `keep` says which operations stay. -/
def Stone.dropWork (x : Stone) (keep : Nat → Bool) (loads halted : Bool) : Stone :=
  let free (b : Bank) : Bank := if b.toll then .reset else b
  let feed := x.feed.filter fun t => keep t.op
  let x := { x with recv := x.recv.filter fun t => keep t.op, feed := feed, injection := if feed.isSome then x.injection else 0,
                    loading := x.loading && loads, swapped := x.swapped.filter fun k => keep k.1, shiftDone := x.shiftDone.filter keep,
                    bank0 := free x.bank0, bank1 := free x.bank1 }
  match x.pass with
  | some p => if keep p.op then x else x.endPass halted
  | none => x.endPass halted

/-- What a stone of a mill does as the operations of a command are dropped. A fault that has not abandoned its race yet does so (R134), and
a pass that is abandoned counts (R101). -/
def State.stoneDrops (s : State) (m : MillId) (keep : Nat → Bool) (n : Nat) : State :=
  let x := s.stone m n
  let halted := s.halted
  let s := match x.failed with
    | some c => if c = 0 ∨ x.draining ∨ halted ∨ s.roleOf m n == Role.scatter then s else s.raceAbandon (s.raceOwner m) (s.racePos m n) c
    | none => s
  let loads := match s.loadOp m n with | some o => keep o.id | none => false
  let y := x.dropWork keep loads halted
  let aborts := y.draining && !x.draining && x.abandons
  (s.onStone m n fun _ => y).tally (.stone m (Fin.ofNat 24 n)) 14 (boolNat aborts)

/-- The race of a mill loses the operations of the user context: the columns in flight of an operation that is gone reach the tailrace and
are not written (R134). -/
def State.raceDrop (s : State) (m : MillId) : State :=
  let stay := (s.mill m).race.ops.filter (·.system)
  let keep (id : Nat) : Bool := stay.any fun o => o.id == id
  let s := s.forAll (List.range 24) fun s n => s.stoneDrops m keep n
  s.onRace m fun r => { r with ops := r.ops.filter (·.system), tiles := r.tiles.filter fun t => keep t.op, abandoned := false }

/-- A governor stage loses the lines of the user context that it has not written; a line that it was writing is left as an abandoned pass
leaves one (R197). -/
def State.stageDrops (s : State) (m : MillId) (stage : Nat) : State :=
  let js := s.stageJobs m stage
  let s := s.setStageJobs m stage (js.filter (·.system))
  match js with
  | j :: _ => if j.system then s else s.abandonLines m fun o => o.stage == stage
  | [] => s

/-- The governor of a mill loses the lines of the user context. -/
def State.govDrop (s : State) (m : MillId) : State :=
  let s := s.forAll (List.range 14) fun s k => s.stageDrops m k
  s.onGov m fun g => { g with vlines := [], begun := g.begun.filter fun o => g.holdsOp o.stage o.op, wpHold := none }

/-- Every operation that the user context has issued is dropped; its tolls are discarded, and the faults that it has reported and that have
not been taken are lost (R316). -/
def State.dropOps (s : State) (m : MillId) : State :=
  let s := (s.dropXfers m false).dropLeatOps m false
  let s := s.forAll ((s.mill m).bolter.ops.filter (!·.system)) fun s o => s.dropUpdate m o
  let s := (s.raceDrop m).govDrop m
  let s := s.onToll m fun t => { t with open_ := [], captured := 0 }
  let s := s.forAll ((s.mill m).miller.faults.filter (!·.system)) fun s f => s.loseFault m f
  let s := s.onMiller m fun x => { x with vecQ := [], faults := x.faults.filter (·.system) }
  s.onMill m fun x => { x with shaft := x.shaft.filter fun i => !i.isPost .user }

/-! ## Faults (R313, R314, R316, R319) -/

/-- The fault of a command: its event and tally, and the record where this is the command's first fault and the record is open. -/
def State.recordFault (s : State) (m : MillId) (f : FaultInfo) : State :=
  let p : Page := .ikiug m
  let contract := f.kind == .contract
  let s := s.countFault m f
  if (s.mill m).miller.faulted || s.bit p 0x144 31 then (s.tally p 14 1).onMiller m fun x => { x with faulted := true }
  else
    let s := s.record p 0x144 fun s =>
      let s := s.setWord p 0x140 (s.seq m)
      let s := s.setWord p 0x144 (BitVec.ofNat 32 (f.slot + 8 * (if contract then 1 else 2) + 32 * boolNat f.issue))
      let s := (s.setWord p 0x148 f.page.id).setWord p 0x14C (BitVec.ofNat 32 (f.cause % 65536))
      let s := (s.setWord64 p 0x150 f.pc).setWord64 p 0x158 (s.mill m).miller.user.pc
      (s.setWord64 p 0x160 f.res).setWord64 p 0x168 f.opnd
    s.onMiller m fun x => { x with faulted := true }

/-- The mills on which the running command of a mill ends with it: both for a spliced one (R312). -/
def State.commandMills (s : State) (m : MillId) : List MillId := if (s.mill m).miller.spliced then [m, m.other] else [m]

/-- A fault ends the running command of a mill, and a spliced one on both. -/
def State.endCommand (s : State) (m : MillId) (f : FaultInfo) : State :=
  let e : Ending := if f.kind = .contract then .contractFault f.cause else .commandFault f.cause
  s.forAll (s.commandMills m) fun s k =>
    if (s.running k).isNone then s
    else if (s.mill k).miller.ending.isSome then s.loseFault k f
    else ((s.recordFault k f).dropOps k).onMiller k fun x =>
      { x with ending := some e, replay := none, replaying := false, st := .stopped }

/-- A command fault of the Ikiug page's own causes, found outside any bundle. -/
def millerFault (s : State) (m : MillId) (cause : Nat) : FaultInfo :=
  { kind := .command, system := false, page := .ikiug m, cause := cause, res := 0, opnd := 0, pc := (s.mill m).miller.user.pc, slot := 7,
    issue := false, injected := false }

/-- ENGINE_FAULT: the first fault that an engine has found stops the context. A contract or command fault ends the command; a replayable
condition is left to REPLAY. One of the system context drops that context's transfers. -/
def engineFault (m : MillId) (s : State) : State :=
  if s.halted then s
  else
    match (s.mill m).miller.faults with
    | [] => s
    | f :: rest =>
      let s := s.onMiller m fun x => { x with faults := rest }
      if f.system then (s.dropXfers m true).dropLeatOps m true
      else if (s.running m).isNone then s
      else
        let x := (s.mill m).miller
        if x.ending.isSome || x.replay.isSome then s.loseFault m f
        else match f.kind with
          | .replayable _ _ => s.onMiller m fun x => { x with replay := some f, st := .stopped }
          | .contract => s.endCommand m f
          | .command => s.endCommand m f

/-- ENGINE_FAULT. -/
def execEngineFault (m : MillId) (s : State) : Host.Outcome State Fault Refusal := .next (engineFault m s)

/-! ## Starting (R281, R311, R481) -/

/-- The user context at a command's start. -/
def startContext (pc : W64) (args : List W64) : Context :=
  { Context.reset with
    pc := pc
    s := (List.range 8).foldl (fun (c : Cells W64) i => cellSet 0 (i + 1) (args.getD i 0) c) [] }

/-- A change of COMPAT, or of splice, waits for a boundary at which the race, or both races, are idle (R124, R191). -/
def State.raceDue (s : State) (m : MillId) : Bool :=
  let spliced := (s.mill m).race.spliced
  let both := s.idleBoundary .m0 && s.idleBoundary .m1
  let w0 := s.wants .m0
  let w1 := s.wants .m1
  let compat (k : MillId) : Bool := s.bit (.governor k) 0x100 0 != (s.mill k).governor.compat
  if spliced then both && (!(w0.1 && w1.1 && w0 == w1) || compat .m0)
  else s.idleBoundary m && compat m || both && w0.1 && w0 == w1

/-- A stone of a mill has a repair or a self-test to begin at the boundary (R90, R96). -/
def State.repairDue (s : State) (m : MillId) : Bool :=
  (List.finRange 24).any fun n =>
    let x := s.stone m n.val
    (x.applyReq.isSome || x.testReq) && x.repair == .none && s.stoneIdle m n

/-- What awaits the boundary between commands on a mill: the staged plan, the pinned slices, a retirement, a pond copy or its hold, a change
of the races, a repair. -/
def State.boundaryDue (s : State) (m : MillId) : Bool :=
  (s.mill m).floor.pending || s.pondDue || s.pond.st == 2 || s.nv.retired.any (fun u => !s.inForce.contains u) || s.raceDue m || s.repairDue m
    || (s.pageLive (.granary m)
        && !(s.fld (.granary m) 0x100 0 6 == (s.mill m).sluice.granPin && (s.holder (.granary m) == 1) == (s.mill m).sluice.shared))

/-- May a mill start its next command? A module whose mill 1 is retired runs only with ALLOW_HALF = 1 (R427). -/
def State.canStart (s : State) (m : MillId) : Bool :=
  !s.halted && s.pageLive (.command m) && !(s.mill m).cmd.running && (s.mill m).miller.ending.isNone && !s.boundaryDue m
    && (!s.mill1Out || s.bit .history 0x100 4)

/-- The command at the head of a mill's pending commands. -/
def State.headCmd (s : State) (m : MillId) : Option Cmd := (s.mill m).cmd.queue.head?

/-- A command begins: it is the running one, every register of a run starts anew, and the START latch is taken (R535). -/
def State.beginCmd (s : State) (m : MillId) (c : Cmd) : State :=
  let s := s.onCmd m fun x => { x with running := true }
  let s := s.onMiller m fun x =>
    { x with ending := none, faulted := false, run := 0, barred := false, replay := none, replaying := false, replayInj := false,
             spliced := c.spliced, faults := x.faults.filter (·.system) }
  let s := s.onToll m fun _ => { Toll.reset with on := s.fld (.toll m) 0x110 0 8 != 0 }
  let s := (s.ctrlMsg m 1).onPond fun p => { p with point := false }
  s.latch m c.seq 1 0 c.spliced 0

/-- The user context is set for a run of the command, and the stones count its passes anew. -/
def State.beginRun (s : State) (m : MillId) (c : Cmd) : State :=
  let s := s.onMill m fun x => { x with stones := x.stones.map fun y => { y with passes := 0, drains := 0 } }
  s.onMiller m fun x => { x with user := startContext c.addr c.args, vreg := [], carry := [], vecQ := [], st := .running }

/-- A RUN has begun on a mill. -/
def State.begins (s : State) (m : MillId) (c : Cmd) : State := (s.beginCmd m c).beginRun m c

/-- A RUN without an image, or with an entry that no bundle can have, ends in FETCH. -/
def State.entryCheck (s : State) (m : MillId) (c : Cmd) : State :=
  if (s.mill m).image.isNone || bitsOf c.addr 0 6 != 0 then
    s.endCommand m { (millerFault s m 16) with opnd := c.addr }
  else s

/-- Starts a RUN on a mill. -/
def State.startRun (s : State) (m : MillId) (c : Cmd) : State := (s.begins m c).entryCheck m c

/-- Starts a spliced RUN on both mills in one handshake (R311): a fault of either ends it on both (R312). -/
def State.startBoth (s : State) (m : MillId) (c d : Cmd) : State :=
  (((s.begins m c).begins m.other d).entryCheck m c).entryCheck m.other d

/-- Both heads of unequal spliced commands are refused as command faults with cause SPLICE_SEQ (R311). -/
def State.spliceRefuse (s : State) (m : MillId) : State :=
  let s := s.onCmd m fun x => { x with running := true }
  let s := s.onMiller m fun x => { x with spliced := false, faulted := false, run := 0 }
  (s.raise (.ikiug m) 3).endCommand m (millerFault s m 18)

/-- RUN: the RUN at the head of a mill starts. A spliced one starts with its partner, waits for it, or both are refused. -/
def run (m : MillId) (s : State) : State :=
  match s.headCmd m with
  | none => s
  | some c =>
    if c.kind != .run || !s.canStart m then s
    else if !c.spliced then s.startRun m c
    else
      let wait (s : State) : State := s.onMiller m fun x => { x with st := .spliceStart }
      match s.headCmd m.other with
      | none => wait s
      | some d =>
        if (s.mill m.other).cmd.running || d.kind != .run || !d.spliced then wait s
        else if d.seq ≠ c.seq then (s.spliceRefuse m).spliceRefuse m.other
        else if s.canStart m.other then s.startBoth m c d
        else wait s

/-- RUN. -/
def execRun (m : MillId) (s : State) : Host.Outcome State Fault Refusal := .next (run m s)

/-- MARK: a MARK at the head has its turn. -/
def mark (m : MillId) (s : State) : State :=
  match s.headCmd m with
  | none => s
  | some c =>
    if c.kind != .mark || !s.canStart m then s
    else (s.beginCmd m c).onMiller m fun x => { x with ending := some .done }

/-- MARK. -/
def execMark (m : MillId) (s : State) : Host.Outcome State Fault Refusal := .next (mark m s)

/-- LOAD runs the loader. -/
def State.runLoad (s : State) (m : MillId) (c : Cmd) : State :=
  let t := (s.beginCmd m c).clearMeas (3 + m.num)
  let digest := sha256 (t.physRead c.addr.toNat c.length.toNat)
  match t.loadImage m c.addr.toNat c.length.toNat with
  | none => s
  | some (st, t) =>
    let t := if st = 0 then t.extendMeas (3 + m.num) digest else t
    t.onMiller m fun x => { x with ending := some (if st = 0 then .done else .loadFailed st) }

/-- LOAD: a LOAD at the head runs the loader; it waits where a port that holds the image accepts nothing (R269). -/
def load (m : MillId) (codes : List Ecc) (s : State) : State :=
  match s.headCmd m with
  | none => s
  | some c =>
    if c.kind != .load || !s.canStart m then s else s.coded codes fun s => s.runLoad m c

/-- LOAD. -/
def execLoad (m : MillId) (codes : List Ecc) (s : State) : Host.Outcome State Fault Refusal := .next (load m codes s)

/-! ## Replay (R403 to R406, R426) -/

/-- Does the retirement of the unit that a condition blames take a stone that the command has bound? -/
def State.bindsRetired (s : State) (m : MillId) (f : FaultInfo) : Bool :=
  match f.kind with
  | .replayable _ u =>
    u.kind == .stone && !f.injected && s.wouldRetire (unitPair u) f.opnd m
      && (s.binding (millOf (u.index / 24)) (u.index % 24)).role != .unbound
  | .contract => false
  | .command => false

/-- The operations of a command are dropped, and RETRACT is sent for every step that it has touched and not cleared. -/
def State.retractAll (s : State) (ms : List MillId) : State :=
  let pairs := (ms.flatMap s.retractable).eraseDups
  let s := s.forAll ms fun s k => s.dropOps k
  s.forAll pairs fun s x => s.retract x.1 x.2

/-- REPLAY: the answer to a replayable condition. -/
def replay (m : MillId) (s : State) : State :=
  match (s.mill m).miller.replay with
  | none => s
  | some f =>
    let x := (s.mill m).miller
    if s.halted || x.replaying then s
    else
      let ms := s.commandMills m
      let stop (s : State) (cause : Nat) : State := s.endCommand m { (millerFault s m cause) with pc := f.pc, slot := f.slot }
      if ms.any fun k => (s.mill k).miller.barred then stop (s.raise (.toll m) 3) 19
      else if s.bindsRetired m f then stop s 21
      else if s.fld (.toll m) 0x114 0 2 ≤ x.run then stop ((s.retractAll ms).raise (.toll m) 4) 20
      else
        (s.retractAll ms).forAll ms fun s k => s.onMiller k fun y =>
          { y with replay := some (y.replay.getD f), replaying := true, st := .stopped, replayInj := f.injected }

/-- REPLAY. -/
def execReplay (m : MillId) (s : State) : Host.Outcome State Fault Refusal := .next (replay m s)

/-- Granules of dropped transfers still in flight. -/
def State.droppedInFlight (s : State) (m : MillId) : Bool := (s.mill m).sluice.queues.any fun q => !q.dropped.isEmpty

/-- REPLAY_RESTART: with no dropped granule in flight, the command starts again. -/
def replayRestart (m : MillId) (s : State) : State :=
  let ms := s.commandMills m
  if s.halted || !(s.mill m).miller.replaying || ms.any s.droppedInFlight then s
  else
    s.forAll ms fun s k =>
      match s.running k with
      | none => s
      | some c =>
        let run := (s.mill k).miller.run + 1
        let s := (s.tally (.toll k) 10 1).onToll k fun t => { t with lastFails := t.fails, fails := [] }
        let s := s.onMiller k fun x => { x with run := run, replay := none, replaying := false, barred := false }
        let s := (s.beginRun k c).raise (.toll k) 2
        s.latch k c.seq 1 run c.spliced 0

/-- REPLAY_RESTART. -/
def execReplayRestart (m : MillId) (s : State) : Host.Outcome State Fault Refusal := .next (replayRestart m s)

/-! ## Completion (R310, R401, R424, R482, R483, R535) -/

/-- STATUS and DETAIL of an ending. -/
def Ending.status : Ending → Nat × Nat
  | .done => (0, 0)
  | .commandFault d => (1, d)
  | .contractFault d => (2, d)
  | .dropped => (3, 0)
  | .loadFailed d => (4, d)
  | .aborted => (5, 22)

/-- Every operation of the user context of a mill has completed, and its tolls. -/
def State.opsDone (s : State) (m : MillId) : Bool :=
  let x := s.mill m
  x.race.ops.all (·.system) && x.bolter.ops.all (·.system) && x.miller.vecQ.isEmpty && x.governor.jobs.all (fun q => q.2.all (·.system)) && !s.tollsOpen m
    && x.shaft.all (fun i => !i.isPost .user) && x.miller.faults.all (·.system)
    && x.sluice.queues.all (fun q => q.xfers.all (·.system)) && x.stones.all (fun y => y.pass.isNone)
    && s.leat.groups.all fun g => g.ops.all fun o => o.mill != m || o.system || o.done

/-- Writes a status entry, the done number, the completion record and vector, and COMMAND_DONE. -/
def State.statusEntry (s : State) (m : MillId) (c : Cmd) (e : Ending) : State :=
  let p : Page := .command m
  let n := c.seq.toNat % 16
  let o := 0x200 + 32 * n
  let (st, det) := e.status
  let result : W64 := match e, c.kind with
    | .done, .load => BitVec.ofNat 64 ((s.mill m).image.elim 0 (·.entry))
    | _, _ => 0
  let s := (s.setWord p o c.seq).setWord p (o + 4) (BitVec.ofNat 32 (st + 16 * (det % 65536)))
  let s := (s.setWord64 p (o + 8) result).setWord64 p (o + 0x10) s.time
  let s := (s.setWord p 0x108 c.seq).tally p 3 1
  let s := (s.tally (.ikiug m) 15 1).raise (.ikiug m) 4
  if c.notify ∧ s.bit .host 0x1D0 0 then
    let base := 1024 * s.fld64 .host 0x1D0 10 54 + 32 * (16 * m.num + n)
    let bs := leBytes 4 c.seq.toNat ++ leBytes 4 (st + 16 * (det % 65536)) ++ leBytes 8 result.toNat ++ leBytes 8 s.time.toNat
      ++ leBytes 8 0
    ((s.hostSend (.write base bs)).tally .host 15 (boolNat (s.host.link == 2 && s.host.busMaster))).sendRoute (12 + m.num)
  else s

/-- The running command of a mill completes. -/
def State.finish (s : State) (m : MillId) : State :=
  match s.running m with
  | none => s
  | some c =>
    let e := (s.mill m).miller.ending.getD .done
    let run := (s.mill m).miller.run
    let s := s.forAll ((s.mill m).miller.faults.filter (!·.system)) fun s f => s.loseFault m f
    let s := (s.classify c.seq).classify 0
    let s := s.statusEntry m c e
    let s := (s.latch m c.seq 2 run c.spliced e.status.1).watchEndLatch m
    let s := s.logAreas m
    let s := s.onToll m fun _ => Toll.reset
    let s := s.onMiller m fun x =>
      { x with st := .idle, ending := none, replay := none, replaying := false, spliced := false, faults := x.faults.filter (·.system) }
    let gone := (s.mill m).cmd.dropped
    let s := s.onCmd m fun x => { x with running := false, queue := x.queue.drop 1, dropped := [] }
    let s := s.forAll gone fun s c => s.statusEntry m c .dropped
    s.onPond fun p => { p with point := c.pondPoint && e == .done }

/-- A mill's part of its command is over: it has an ending, or it stands at END with every operation complete. -/
def State.partOver (s : State) (m : MillId) : Bool :=
  let x := (s.mill m).miller
  x.ending.isSome || (x.st == .atEnd && x.replay.isNone && s.opsDone m)

/-- COMMAND_COMPLETE: the running command of a mill completes, a spliced one on both mills. -/
def commandComplete (m : MillId) (s : State) : State :=
  let ms := (s.commandMills m).filter fun k => (s.running k).isSome
  if s.halted || (s.running m).isNone || !ms.all s.partOver then s
  else
    let clean := ms.all fun k => (s.mill k).miller.ending.getD .done == .done
    let s := s.forAll ms fun s k => s.finish k
    s.onPond fun p => { p with point := p.point && clean }

/-- COMMAND_COMPLETE. -/
def execCommandComplete (m : MillId) (s : State) : Host.Outcome State Fault Refusal := .next (commandComplete m s)

/-! ## Abort and flush (R484, R498) -/

/-- Ends the running command of a mill without replay: a host abort, an expired reference wait, a miller reset. -/
def State.abortCommand (s : State) (m : MillId) (e : Ending) (cause : Nat) (fault : Bool) : State :=
  s.forAll (s.commandMills m) fun s k =>
    if (s.running k).isNone || (s.mill k).miller.ending.isSome then s
    else
      let f := { (millerFault s k cause) with slot := 0 }
      let s := if fault then s.recordFault k f
        else if (s.mill k).miller.faulted || s.bit (.ikiug k) 0x144 31 then s
        else s.record (.ikiug k) 0x144 fun s =>
          let p : Page := .ikiug k
          let s := (s.setWord p 0x140 (s.seq k)).setWord p 0x144 16
          let s := (s.setWord p 0x148 p.id).setWord p 0x14C (BitVec.ofNat 32 cause)
          let s := (s.setWord64 p 0x150 f.pc).setWord64 p 0x158 f.pc
          (s.setWord64 p 0x160 0).setWord64 p 0x168 0
      (s.dropOps k).onMiller k fun x => { x with ending := some e, replay := none, replaying := false, st := .stopped }

/-- A write of CMD_ABORT. -/
def State.cmdAbort (s : State) (m : MillId) (seq : W32) : State :=
  match s.running m with
  | some c =>
    if c.seq = seq ∧ (s.mill m).miller.ending.isNone then
      ((s.abortCommand m .aborted 22 false).tally (.command m) 5 1).raise (.command m) 1
    else s.tally (.command m) 6 1
  | none => s.tally (.command m) 6 1

/-- CMD_CTL.FLUSH: the commands not started leave the pending set with STATUS 3; their entries follow that of the running one. -/
def State.cmdFlush (s : State) (m : MillId) : State :=
  let x := (s.mill m).cmd
  let gone := if x.running then x.queue.drop 1 else x.queue
  if gone.isEmpty then s
  else
    let s := (s.tally (.command m) 4 gone.length).raise (.command m) 2
    if x.running then s.onCmd m fun x => { x with queue := x.queue.take 1, dropped := x.dropped ++ gone }
    else
      let s := s.onCmd m fun x => { x with queue := [] }
      let s := s.onMiller m fun x => { x with st := .idle }
      s.forAll gone fun s c => s.statusEntry m c .dropped

end Sys2Proof.Machine
end

