-- ==== Sys2Proof/Machine/Port.lean ====
section
/-! DEFINITION. The PCI Express port, the chutes and the event FIFO (R462 to R473, R485, R496). -/

namespace Sys2Proof.Machine

def State.onHost (s : State) (f : HostPort → HostPort) : State := { s with host := f s.host }

/-- The BARs are open (R464, R467). -/
def State.barOpen (s : State) : Bool := s.host.link == 2 && !s.host.d3

/-! ## The outbound chute (R471 to R473) -/

/-- STATE of CHUTE_OUT_CTL. -/
def State.outState (s : State) : Nat := s.fld .host 0x1C0 2 3

/-- Granule reads of a run of memory are counted at their port (R278). -/
def State.readsCounted (s : State) (a n : Nat) : State :=
  match physPort a with
  | none => s
  | some port => s.tally port.page 0 (granules a n).length

/-- Sends bytes of a copy as posted writes of the payload size, in ascending address order. `fuel` bounds the writes. -/
def State.sendCopy (payload : Nat) : (fuel src dst n : Nat) → State → State
  | 0, _, _, _, s => s
  | fuel + 1, src, dst, n, s =>
    if n = 0 then s
    else
      let k := min n (max 4 payload)
      let s := (s.readsCounted src k).hostSend (.write dst (s.physRead src k))
      State.sendCopy payload fuel (src + k) (dst + k) (n - k) s

/-- The bytes of a copy from the first one are sent, and counted. -/
def State.sentBytes (s : State) (n : Nat) : State :=
  let src := s.fld64 .host 0x1A0 0 44
  let dst := s.fld64 .host 0x1A8 0 64
  ((State.sendCopy s.host.payload (n / max 4 s.host.payload + 1) src dst n s).tally .host 2 n).setWord64 .host 0x1C8 (BitVec.ofNat 64 n)

/-- How much of a copy had been sent when something else ended it: whole payloads, of a number that the manual does not fix. -/
def State.partSent (s : State) : Nat × State :=
  let len := s.fld64 .host 0x1B0 0 41
  let p := max 4 s.host.payload
  (min len (s.free.toNat % (len / p + 1) * p), s.drawn)

/-- A running copy ends after `n` bytes: STATE shows why, no flag is written, CHUTE_OUT_FAIL is raised. -/
def State.endCopyAt (s : State) (n why : Nat) : State := ((s.sentBytes n).putFld .host 0x1C0 2 3 why).raise .host 2

/-- A running copy ends before its last write. -/
def State.endCopy (s : State) (why : Nat) : State :=
  if s.outState ≠ 1 then s
  else
    let (n, s) := s.partSent
    s.endCopyAt n why

/-- The link is lost (R496): the function, its BARs and the MSI-X table are reset. A link that was up raises LINK_DOWN. -/
def State.linkLoss (s : State) : State :=
  let was := s.host.link
  let s := s.endCopy 4
  let s := s.onHost fun h =>
    { h with link := 0, width := 0, speed := 0, flit := false, d3 := false, busMaster := false, msixEnable := false,
             msixTable := [], msixPend := [], held := [], doneWait := none }
  let s := s.forAll [MillId.m0, .m1] fun s m => s.onCmd m fun x => x.setAsm .pcie .reset
  if was = 2 then (s.tally .host 14 1).raise .host 5 else s

/-- The controller trains: it has core power, PERST_N is released and the reference is present. -/
def State.linkTrain (s : State) : State :=
  if s.corePower && !s.host.perst && !s.refHeld && s.host.link == 0 then s.onHost fun h => { h with link := 1 } else s

/-- PERST_ASSERT. -/
def perstAssert (s : State) : State :=
  if s.host.perst || s.supply.stage == 0 then s
  else (s.linkLoss).onHost fun h => { h with perst := true }

/-- PERST_ASSERT. -/
def execPerstAssert (s : State) : Host.Outcome State Fault Refusal := .next (perstAssert s)

/-- PERST_RELEASE. -/
def perstRelease (s : State) : State :=
  if !s.host.perst then s else (s.onHost fun h => { h with perst := false }).linkTrain

/-- PERST_RELEASE. -/
def execPerstRelease (s : State) : Host.Outcome State Fault Refusal := .next (perstRelease s)

/-- LINK_DOWN: the link goes down and trains again. -/
def linkDown (s : State) : State :=
  if s.host.link ≠ 2 then s else s.linkLoss.linkTrain

/-- LINK_DOWN. -/
def execLinkDown (s : State) : Host.Outcome State Fault Refusal := .next (linkDown s)

/-- The link is up, and the host has configured the function. -/
def State.linkSet (s : State) (width speed : Nat) (flit : Bool) : State :=
  s.onHost fun h =>
    { h with link := 2, width := width, speed := speed, flit := flit, d3 := false, busMaster := true, msixEnable := true }

/-- LINK_UP: the link trains after stage 7. -/
def linkUp (width : BitVec 5) (speed : BitVec 3) (flit : Bool) (s : State) : State :=
  if s.host.link = 2 ∨ s.host.perst = true ∨ s.refHeld = true ∨ s.supply.stage < 8 then s
  else (s.linkSet width.toNat speed.toNat flit).raise .host 6

/-- LINK_UP. -/
def execLinkUp (width : BitVec 5) (speed : BitVec 3) (flit : Bool) (s : State) : Host.Outcome State Fault Refusal :=
  .next (linkUp width speed flit s)

/-- D3HOT_ENTER. -/
def d3hotEnter (s : State) : State := if s.host.link ≠ 2 then s else s.onHost fun h => { h with d3 := true }

/-- D3HOT_ENTER. -/
def execD3hotEnter (s : State) : Host.Outcome State Fault Refusal := .next (d3hotEnter s)

/-- D3HOT_EXIT: what was held is sent in the order in which it arose. -/
def d3hotExit (s : State) : State :=
  if !s.host.d3 then s
  else
    let out := s.host.held
    (s.onHost fun h => { h with d3 := false, held := [] }).forAll out State.hostSend

/-- D3HOT_EXIT. -/
def execD3hotExit (s : State) : Host.Outcome State Fault Refusal := .next (d3hotExit s)

/-- A write of CHUTE_OUT_CTL (R471, R473): whether a START in it is refused, and the state after it. -/
def State.chuteOutCtl (s : State) (w : W32) : Bool × State :=
  let s := if bitOf w 1 then s.endCopy 3 else s
  if !bitOf w 0 then (false, s)
  else
    let len := s.fld64 .host 0x1B0 0 41
    if s.outState = 1 ∨ len = 0 ∨ len % 4 ≠ 0 ∨ 2 ^ 40 < len then (true, s)
    else
      let s := (s.putFld .host 0x1C0 2 3 1).setWord64 .host 0x1C8 0
      let (inj, s) := s.takeInj .host 3
      (false, if inj then s.linkLoss.linkTrain else s)

/-- CHUTE_OUT_DONE: the last data write has been sent. A source outside memory ends the copy as a memory error does. -/
def chuteOutDone (s : State) : State :=
  if s.outState ≠ 1 ∨ s.host.link ≠ 2 ∨ s.host.busMaster = false then s
  else
    let len := s.fld64 .host 0x1B0 0 41
    if !s.inMem (s.fld64 .host 0x1A0 0 44) len then s.endCopy 5
    else
      let s := s.sentBytes len
      let flag := s.fld64 .host 0x1B8 0 64
      let s := if flag = 0 then s else s.hostSend (.write flag (leBytes 8 len))
      (s.putFld .host 0x1C0 2 3 2).raise .host 1

/-- CHUTE_OUT_DONE. -/
def execChuteOutDone (s : State) : Host.Outcome State Fault Refusal := .next (chuteOutDone s)

/-- CHUTE_OUT_SOURCE_ERROR: an uncorrectable memory error in the source of a running copy, at the word that the copy has come to: the port
records and raises it, its frame is bad (R272, R456), and the copy ends. -/
def chuteOutSourceError (s : State) : State :=
  if s.outState ≠ 1 then s
  else
    let (n, s) := s.partSent
    let w := (s.fld64 .host 0x1A0 0 44 + n) / 64 * 64
    let s := match physPort w with
      | none => s
      | some port => (s.eccUncorrectable port w 2 (s.seq port.mill) false).memHistory port.mill w false
    s.endCopyAt n 5

/-- CHUTE_OUT_SOURCE_ERROR. -/
def execChuteOutSourceError (s : State) : Host.Outcome State Fault Refusal := .next (chuteOutSourceError s)

/-! ## The inbound chute (R468 to R470) -/

/-- Words that the chute's buffer of 1 MiB holds. -/
def chuteRoom : Nat := 262144

/-- CHUTE_IN_WORD: a word of a write to the BAR2 window. -/
def chuteInWord (byteEnables : BitVec 4) (w : W32) (s : State) : State :=
  if !s.barOpen || decide (chuteRoom ≤ s.host.chuteBuf.length) then s
  else if byteEnables ≠ 15 then s.tally .host 1 1
  else
    let dest := s.fld64 .host 0x180 0 44
    let (inj, s) := s.takeInj .host 2
    if inj ∨ s.fld64 .host 0x188 0 44 ≤ dest then
      let s := s.tally .host 1 1
      if s.host.overrun then s else (s.onHost fun h => { h with overrun := true }).raise .host 0
    else if !s.inMem dest 4 then s.tally .host 1 1
    else (s.setWord64 .host 0x180 (BitVec.ofNat 64 (dest + 4))).onHost fun h => { h with chuteBuf := h.chuteBuf ++ [(dest, w)] }

/-- CHUTE_IN_WORD. -/
def execChuteInWord (byteEnables : BitVec 4) (w : W32) (s : State) : Host.Outcome State Fault Refusal :=
  .next (chuteInWord byteEnables w s)

/-- The words at the front of the buffer that one granule write takes: ascending and within one 512-byte granule. -/
def chuteGranule : List (Nat × W32) → List (Nat × W32)
  | [] => []
  | x :: rest =>
    x :: ((rest.zip (List.range rest.length)).takeWhile fun y =>
      y.1.1 == x.1 + 4 * (y.2 + 1) && y.1.1 / 512 == x.1 / 512).map (·.1)

/-- A path keeps the high word of a register for its next read (R11). -/
def PathState.capture (x : PathState) (off : Nat) (w : W32) : PathState :=
  { x with caps := (off, w) :: x.caps.filter fun c => c.1 != off }

/-- A read of CHUTE_IN_DONE by a path: its low word, or all of it. -/
def State.doneRead (s : State) (path : Path) (wide : Bool) : State :=
  let v := s.host.chuteDone
  s.onPath path fun p =>
    if wide then { p with reply := v }
    else { p.capture 0x1190 (hiWord v) with reply := (loWord v).zeroExtend 64 }

/-- A read of CHUTE_IN_DONE that waits completes once no word before it is unwritten: the reply of the PCI Express path. -/
def State.doneReply (s : State) (n : Nat) : State :=
  match s.host.doneWait with
  | none => s
  | some (k, wide) =>
    if n < k then s.onHost fun h => { h with doneWait := some (k - n, wide) }
    else (s.onHost fun h => { h with doneWait := none }).doneRead .pcie wide

/-- A granule of chute words has been dealt with: it was written, or it met an uncorrectable word and is lost (R646). -/
def State.chuteWrite (s : State) (a : Nat) (ws : List (Nat × W32)) (good : Bool) : State :=
  let n := ws.length
  let s := s.onHost fun h => { h with chuteBuf := h.chuteBuf.drop n }
  let s := if good then
      ((s.physWrite a (ws.flatMap fun y => leBytes 4 y.2.toNat)).tally .host 0 (4 * n)).onHost fun h =>
        { h with chuteDone := h.chuteDone + BitVec.ofNat 64 (4 * n) }
    else s.tally .host 1 n
  (s.doneReply n).cmdRelease n

/-- CHUTE_IN_GRANULE_WRITTEN: a granule of buffered words is written; an ECC word that it covers only in part is read first. -/
def chuteInGranuleWritten (codes : List Ecc) (s : State) : State :=
  match chuteGranule s.host.chuteBuf with
  | [] => s
  | x :: rest =>
    if s.halted || s.refHeld then s
    else
      let ws := x :: rest
      let m := ((physPort x.1).map (·.mill)).getD .m0
      s.coded codes fun s => match s.portWrite m x.1 [(x.1, 4 * ws.length)] with
        | (.wait, _) => s
        | (.bad _ _, s) => s.chuteWrite x.1 ws false
        | (.ok, s) => s.chuteWrite x.1 ws true

/-- CHUTE_IN_GRANULE_WRITTEN. -/
def execChuteInGranuleWritten (codes : List Ecc) (s : State) : Host.Outcome State Fault Refusal := .next (chuteInGranuleWritten codes s)

/-! ## The event FIFO (R485) -/

/-- The high word of EVT_FIFO for an entry. -/
def EvEntry.high (e : EvEntry) : W32 := BitVec.ofNat 32 (e.bit + 32 * e.cls + 128 * e.route + 2048)

/-- The low word that a read of EVT_FIFO returns, the high word that it captures, and the state without the oldest entry. -/
def State.fifoRead (s : State) : W32 × W32 × State :=
  match s.host.fifo with
  | [] => (0, 0, s.onHost fun h => { h with fifoLost := false })
  | e :: rest => (e.pageId, e.high, s.onHost fun h => { h with fifo := rest, fifoLost := h.fifoLost && !rest.isEmpty })

end Sys2Proof.Machine
end

