-- ==== Sys2Proof/Machine/Trust.lean ====
section
/-! DEFINITION. The trust engine (chapter 16): verification of firmware images, measurements, the identity key, quotes, and the
setting digest. -/

namespace Sys2Proof.Machine

/-! ## Verification of a slot (R565 to R567) -/

/-- The base of a firmware slot in the non-volatile store. -/
def slotBase (b : Bool) : Nat := if b then 0x2000000 else 0

/-- The length of an HSS signature of some levels, by the types that the key and the signed keys name. -/
def hssSigLen : (levels : Nat) → (pub sig : List Byte) → Nat
  | 0, pub, _ => (lmsSigLen (beNat ((pub.drop 4).take 4)) (beNat (pub.take 4))).getD 0
  | k + 1, pub, sig =>
    match lmsSigLen (beNat ((pub.drop 4).take 4)) (beNat (pub.take 4)) with
    | none => 0
    | some len => len + 56 + hssSigLen k ((sig.drop len).take 56) (sig.drop (len + 56))

/-- A byte range of the non-volatile store. -/
def State.nvRead (s : State) (a n : Nat) : List Byte := readBytes s.nvBytes a n

/-- LENGTH of the image in a slot. -/
def State.slotLength (s : State) (b : Bool) : Nat := leNat (s.nvRead (slotBase b + 0xC) 4)
/-- SVN of the image in a slot. -/
def State.slotSvn (s : State) (b : Bool) : Nat := leNat (s.nvRead (slotBase b + 4) 1)
/-- The signed bytes of the image in a slot. -/
def State.slotSigned (s : State) (b : Bool) : List Byte := s.nvRead (slotBase b) (0x80 + s.slotLength b)

/-- Is the header of a slot as the layout has it? -/
def State.slotHeaderOk (s : State) (b : Bool) : Bool :=
  let a := slotBase b
  leNat (s.nvRead a 4) == 0x57465843 && decide (s.slotSvn b ≤ 63) && leNat (s.nvRead (a + 5) 3) == 0
    && decide (1 ≤ s.slotLength b) && decide (s.slotLength b ≤ 0x1F00000) && (s.nvRead (a + 0x4C) 0x34).all (· == 0)

/-- The signature of the image in a slot is its vendor key's over the signed bytes. -/
def State.slotSignatureOk (s : State) (b : Bool) : Bool :=
  let a := slotBase b
  let key := s.nvRead (a + 0x10) 60
  let at_ := a + 0x80 + s.slotLength b
  let levels := beNat (key.take 4) - 1
  let room := s.nvRead at_ (min (slotBase b + 0x2000000 - at_) 0x40000)
  hssVerify key (room.take (4 + hssSigLen levels (key.drop 4) (room.drop 4))) (s.slotSigned b)

/-- FW_RESULT of the checks of R566 on a slot. -/
def State.slotResult (s : State) (b : Bool) : Nat :=
  if !s.slotHeaderOk b then 2
  else if sha256 (s.nvRead (slotBase b + 0x10) 60) ≠ s.fuses.keyHash then 4
  else if s.slotSvn b < s.fuses.svn then 5
  else if !s.slotSignatureOk b then 3
  else 1

/-- One verification: its result, and the state after it is counted. -/
def State.verifySlot (s : State) (b : Bool) : Nat × State :=
  let (inj, s) := s.takeInj .trust 1
  let r := if inj then 3 else s.slotResult b
  let s := s.tally .trust 8 1
  (r, if r = 1 then s else s.tally .trust 9 1)

/-- The measurements that the boot ROM takes of a booted slot. -/
def State.bootMeasure (s : State) (b : Bool) : State :=
  let s := s.extendMeas 0 Config.bootRomDigest
  let s := s.extendMeas 1 (sha256 (s.slotSigned b))
  s.extendMeas 2 (s.fuses.keyHash ++ leBytes 4 s.fuses.svn ++ leBytes 1 s.fuses.keyGen)

/-- Boot verification: whether a slot was booted. -/
def State.bootVerify (s : State) : Bool × State :=
  let boot (s : State) (b : Bool) : State :=
    ({ s with trust := { s.trust with bootSlot := b, imageSvn := s.slotSvn b, inactiveOk := false } }).bootMeasure b
  let first := s.nv.prefSlot
  match s.verifySlot first with
  | (1, s) => (true, boot s first)
  | (_, s) =>
    let s := s.raise .trust 0
    match s.verifySlot (!first) with
    | (1, s) => (true, boot s (!first))
    | (_, s) => (false, s)

/-- TRUST_CTL.VERIFY_INACTIVE. -/
def State.verifyInactive (s : State) : State :=
  if s.holder .host ≠ 0 then s.putFld .trust 0x10C 0 3 6
  else
    let b := !s.trust.bootSlot
    let (r, s) := s.verifySlot b
    let s := (s.putFld .trust 0x10C 0 3 r).putFld .trust 0x10C 3 8 (s.slotSvn b)
    { s with trust := { s.trust with inactiveOk := r == 1 } }

/-- TRUST_CTL.COMMIT_SVN (R568). -/
def State.commitSvn (s : State) : State :=
  if s.trust.imageSvn ≤ s.fuses.svn then s
  else ({ s with fuses := { s.fuses with svn := s.trust.imageSvn } }).raise .trust 1

/-! ## The identity key (R570 to R572) -/

/-- Leaves of one key. -/
def keyLeaves : Nat := 2 ^ 30

/-- Reserves leaves where the next one needs it: whether the leaf may be used. -/
def State.reserveLeaf (s : State) : Bool × State :=
  if s.trust.nextLeaf < s.nv.resEnd then (true, s)
  else
    match s.takeInj .trust 2 with
    | (true, s) => (false, s)
    | (false, s) => (true, ({ s with nv := { s.nv with resEnd := s.trust.nextLeaf + 1024 } }).tally .trust 7 1)

/-- KEY_LOW, once for a key, and KEY_EXHAUSTED at its last leaf. -/
def State.keyLeft (s : State) : State :=
  let left := keyLeaves - s.trust.nextLeaf
  let s :=
    if left < 1024 * s.fld .trust 0x104 1 20 ∧ s.trust.keyLow = false then
      ({ s with trust := { s.trust with keyLow := true } }).raise .trust 3
    else s
  if left = 0 then s.raise .trust 5 else s

/-- Signs a message with the next leaf, which has been reserved. An exhausted key has no leaf left to count. -/
def State.sign (s : State) (msg : List Byte) : List Byte × State :=
  let sig := Config.identitySignature s.fuses.keyGen s.trust.nextLeaf msg
  if s.trust.nextLeaf < keyLeaves then
    (sig, (({ s with trust := { s.trust with nextLeaf := s.trust.nextLeaf + 1 } }).tally .trust 5 1).keyLeft)
  else (sig, s)

/-- TRUST_CTL.ROTATE, once no quote is being formed. -/
def State.rotateNow (s : State) : State :=
  let (ok, s) := if s.trust.nextLeaf < keyLeaves then s.reserveLeaf else (true, s)
  if !ok then s
  else
    let gen := s.fuses.keyGen + 1
    let rec_ := Config.identityPublicKey gen ++ leBytes 4 gen ++ leBytes 8 s.time.toNat
    let (sig, s) := s.sign rec_
    let s := { s with
      nv := { s.nv with rotations := s.nv.rotations ++ [rec_ ++ sig], resEnd := 0 }
      fuses := { s.fuses with keyGen := s.fuses.keyGen + 1 }
      trust := { s.trust with nextLeaf := 0, keyLow := false, rotateDue := false } }
    s.raise .trust 4

/-! ## Quotes (R573) -/

/-- The bytes of a quote that the signature covers. -/
def State.quoteBody (s : State) : List Byte :=
  leBytes 4 0x51545843 ++ leBytes 4 1 ++ (List.range 8).flatMap (fun i => leBytes 4 (s.word .trust (0x140 + 4 * i)).toNat)
    ++ leBytes 8 s.time.toNat ++ leBytes 8 s.trust.digestGen.toNat
    ++ leBytes 4 (s.fld .leat 0x100 0 16 + 65536 * s.hoist.addr.toNat)
    ++ leBytes 4 (s.fuses.svn + 64 * s.fuses.keyGen) ++ s.trust.digest ++ s.trust.meas.flatten
    ++ leBytes 8 s.fuses.serial.toNat ++ List.replicate 24 0

/-- TRUST_CTL.QUOTE with QUOTE_BUSY = 0: the leaf is reserved, and the quote is refused where none is left or the store fails. -/
def State.quoteBegin (s : State) : State :=
  if keyLeaves ≤ s.trust.nextLeaf then (s.putFld .trust 0x168 0 2 2).raise .trust 5
  else match s.reserveLeaf with
    | (false, s) => s.putFld .trust 0x168 0 2 3
    | (true, s) => { s with trust := { s.trust with quoteBusy := true } }

/-- QUOTE_DONE: the quote is signed and written at QUOTE_ADDR. -/
def quoteDone (s : State) : State :=
  if !s.trust.quoteBusy || !s.pageLive .trust then s
  else
    let body := s.quoteBody
    let (sig, s) := s.sign body
    let a := s.fld64 .trust 0x160 0 44
    let s := if s.inMem a 8024 then s.physWrite a (body ++ sig) else s
    let s := (({ s with trust := { s.trust with quoteBusy := false } }).putFld .trust 0x168 0 2 1).tally .trust 4 1
    let s := s.raise .trust 2
    if s.trust.rotateDue then s.rotateNow else s

/-- QUOTE_DONE. -/
def execQuoteDone (s : State) : Host.Outcome State Fault Refusal := .next (quoteDone s)

/-! ## Register writes of the trust page -/

/-- A write of TRUST_CTL: its actions in ascending order of bit. -/
def State.trustCtl (s : State) (p : Path) (w : W32) : State :=
  let err (s : State) : State := s.accessErr p (Page.base .trust + 0x108) true w .value
  let s := if bitOf w 0 then s.verifyInactive else s
  let s :=
    if !bitOf w 1 then s
    else if s.trust.inactiveOk then { s with nv := { s.nv with prefSlot := !s.trust.bootSlot } }
    else err s
  let s := if bitOf w 2 then s.commitSvn else s
  let s := if !bitOf w 3 then s else if s.trust.quoteBusy then err s else s.quoteBegin
  if !bitOf w 4 then s
  else if 15 ≤ s.fuses.keyGen then err s
  else if s.trust.quoteBusy then { s with trust := { s.trust with rotateDue := true } }
  else s.rotateNow

/-- A write of MEAS_CTL. -/
def State.measCtl (s : State) (p : Path) (w : W32) : State :=
  let i := bitsOf w 0 3
  if i < 5 then s.accessErr p (Page.base .trust + 0x320) true w .value
  else if bitOf w 3 then s.extendMeas i ((List.range 8).flatMap fun k => leBytes 4 (s.word .trust (0x300 + 4 * k)).toNat)
  else s

/-! ## The setting digest (R576 to R578) -/

/-- P of a page. -/
def State.pageDigest (s : State) (p : Page) : List Byte :=
  sha256 (leBytes 4 p.id.toNat ++ (behWords p).flatMap fun x =>
    leBytes 4 x.1 ++ leBytes 4 ((s.word p x.1).toNat &&& x.2))

/-- The pages that D covers: without those of a retired mill 1. -/
def State.digestPages (s : State) : List Page :=
  allPages.filter fun p => match p.mill? with
    | some m => !s.millOut m
    | none => true

/-- D of the settings as they stand. -/
def State.settingDigest (s : State) : List Byte := sha256 (s.digestPages.flatMap s.pageDigest)

/-- DIGEST_RECOMPUTE: D is written again, with every behavioural write so far. -/
def digestRecompute (s : State) : State :=
  if s.trust.dirty.isEmpty || !s.pageLive .trust then s
  else
    let d := s.settingDigest
    ({ s with trust := { s.trust with digest := d, digestGen := s.trust.digestGen + 1, dirty := [] } }).tally .trust 1 1

/-- DIGEST_RECOMPUTE. -/
def execDigestRecompute (s : State) : Host.Outcome State Fault Refusal := .next (digestRecompute s)

/-- The eight words of D, and the two of DIGEST_GEN. -/
def State.digestWords (s : State) : List W32 :=
  ((List.range 8).map fun i => BitVec.ofNat 32 (leNat ((s.trust.digest.drop (4 * i)).take 4)))
    ++ [loWord s.trust.digestGen, hiWord s.trust.digestGen]

end Sys2Proof.Machine
end

