-- ==== Sys2Proof/Machine/Power.lean ====
section
/-! DEFINITION. Supply, resets and start-up, the brake, core voltage, power gating, timers, the reference monitor (chapter 14), the
44 V input and the junction trip (chapter 18), and retirements at their boundary (R425, R426). -/

namespace Sys2Proof.Machine

def State.onSupply (s : State) (f : Supply → Supply) : State := { s with supply := f s.supply }
def State.onRef (s : State) (f : RefClock → RefClock) : State := { s with refclk := f s.refclk }

/-! ## Resets (R527, R528, R614) -/

/-- Register-space offsets, tally keys and directory entries of the always-on island lie below these. -/
def islandEnd : Nat := 0x5000
def islandEntries : Nat := 5

/-- The pages of a mill with a shared resource. -/
def claimPages (m : MillId) : List Page := [.granary m, .timer m 0, .timer m 1, .timer m 2, .timer m 3]

/-- Claims on pages that go into reset are freed, and counted (R601, R605). -/
def State.claimsFreed (s : State) (ps : List Page) : State :=
  s.tally .directory 3 (ps.filter fun p => s.pageLive p && s.holder p != 0).length

/-- The offset at which mill 1's window begins. -/
def mill1Base : Nat := 0x05000000

/-- What a path has captured of pages that go into reset, those from an offset up, is cleared (R606). -/
def PathState.keepBelow (x : PathState) (off : Nat) : PathState :=
  { x with caps := x.caps.filter (fun c => decide (c.1 < off)), wrLow := x.wrLow.filter (fun c => decide (c.1 < off)),
           logCap0 := if off = mill1Base then x.logCap0 else [], logCap1 := [] }

/-- Core power is removed: every page outside the island is in reset, commands end without a status entry, the PCI Express link is
lost, a pond copy fails. What HBM4 and DDR5 hold is kept. -/
def State.coreOff (s : State) (stage : Nat) : State :=
  let s := if s.corePower then s.linkLoss.claimsFreed (claimPages .m0 ++ claimPages .m1) else s
  { s with
    pathPcie := s.pathPcie.keepBelow islandEnd, pathChain := s.pathChain.keepBelow islandEnd, pathSys0 := s.pathSys0.keepBelow islandEnd,
    pathSys1 := s.pathSys1.keepBelow islandEnd
    regs := s.regs.filter fun x => decide (x.1 < islandEnd)
    tallies := s.tallies.filter fun x => decide (x.1 < 16 * islandEntries)
    inj := s.inj.filter fun i => decide (i.entry < islandEntries)
    mill0 := .reset, mill1 := .reset, leat := .reset, pond := .reset, outUnits := [], wear := [], worn := [], portsOff := [],
    hopper := [], granary := []
    nv := { s.nv with writing := none }
    host := { s.host with chuteBuf := [], link := 0 }
    trust := { s.trust with quoteBusy := false, rotateDue := false }
    supply := { s.supply with
      stage := stage, powerOn := false, braking := false, ebrake := false, trips := [], storm := false, excursion := 0 } }

/-- A start begins at stage 3: every measurement register is zero, and STARTUP shows no failure. -/
def State.restart (s : State) : State :=
  ({ s.coreOff 3 with trust := { s.trust with meas := Trust.reset.meas, quoteBusy := false, rotateDue := false } }).putFld
    .supply 0x110 5 7 0

/-- The module without its island: what fuses, the non-volatile store and the queue hold is kept, and the next leaf. -/
def State.islandOff (s : State) (stage centivolts : Nat) : State :=
  { State.reset with
    fuses := s.fuses, nv := { s.nv with writing := none }, nvBytes := s.nvBytes, pending := s.pending, draw := s.draw
    trust := { Trust.reset with nextLeaf := s.trust.nextLeaf }
    host := { HostPort.reset with perst := s.host.perst }
    supply := { Supply.reset with stage := stage, inputCv := centivolts } }

/-- Is a voltage, in units of 10 mV, within 40 to 54 V? -/
def inRange (centivolts : Nat) : Bool := decide (4000 ≤ centivolts) && decide (centivolts ≤ 5400)

/-- The input has a new voltage; INPUT_RANGE is raised when it leaves the range. -/
def State.inputAt (s : State) (centivolts : Nat) : State :=
  let left := inRange s.supply.inputCv && !inRange centivolts
  let s := s.onSupply fun x => { x with inputCv := centivolts }
  if left then s.raise .supply 3 else s

/-- INPUT_RESET: the input of a module without island power rises into range. -/
def inputReset (centivolts : BitVec 16) (s : State) : State :=
  if s.supply.stage ≠ 0 ∨ inRange centivolts.toNat = false then s else s.islandOff 1 centivolts.toNat

/-- INPUT_RESET. -/
def execInputReset (centivolts : BitVec 16) (s : State) : Host.Outcome State Fault Refusal := .next (inputReset centivolts s)

/-- INPUT_RANGE: the input leaves 40 to 54 V; during the core ramp of stage 5 core power is removed (R633). -/
def inputRange (centivolts : BitVec 16) (s : State) : State :=
  let v := centivolts.toNat
  if s.supply.stage = 0 ∨ inRange v = true ∨ v < 3000 then s
  else
    let s := (s.onSupply fun x => { x with inputCv := v }).raise .supply 3
    if s.supply.stage = 5 then s.restart.onSupply fun x => { x with holdOff := true } else s

/-- INPUT_RANGE. -/
def execInputRange (centivolts : BitVec 16) (s : State) : Host.Outcome State Fault Refusal := .next (inputRange centivolts s)

/-- Core power is removed where there is any, and the start waits. -/
def State.removePower (s : State) (thermal : Bool) : State :=
  if s.supply.stage < 5 then s
  else s.restart.onSupply fun x => { x with holdOff := true, thermal := x.thermal || thermal }

/-- INPUT_OVERVOLTAGE. -/
def inputOvervoltage (centivolts : BitVec 16) (s : State) : State :=
  if s.supply.stage = 0 ∨ centivolts.toNat ≤ 5600 then s else (s.inputAt centivolts.toNat).removePower false

/-- INPUT_OVERVOLTAGE. -/
def execInputOvervoltage (centivolts : BitVec 16) (s : State) : Host.Outcome State Fault Refusal :=
  .next (inputOvervoltage centivolts s)

/-- INPUT_UNDERVOLTAGE. -/
def inputUndervoltage (centivolts : BitVec 16) (s : State) : State :=
  if s.supply.stage = 0 ∨ 3800 ≤ centivolts.toNat ∨ centivolts.toNat < 3000 then s
  else (s.inputAt centivolts.toNat).removePower false

/-- INPUT_UNDERVOLTAGE. -/
def execInputUndervoltage (centivolts : BitVec 16) (s : State) : Host.Outcome State Fault Refusal :=
  .next (inputUndervoltage centivolts s)

/-- ISLAND_POWER_LOSS: below 30 V the island stops; the bypass closes and the hoist address is lost. -/
def islandPowerLoss (centivolts : BitVec 16) (s : State) : State :=
  if 3000 ≤ centivolts.toNat then s else s.islandOff 0 centivolts.toNat

/-- ISLAND_POWER_LOSS. -/
def execIslandPowerLoss (centivolts : BitVec 16) (s : State) : Host.Outcome State Fault Refusal :=
  .next (islandPowerLoss centivolts s)

/-- INPUT_STABLE_IN_RANGE: the input has been within its range for 10 ms; a start that a removal of core power holds resumes. The voltage
is one within the range. -/
def inputStableInRange (s : State) : State :=
  if s.supply.stage = 0 ∨ (s.supply.holdOff = false ∧ inRange s.supply.inputCv = true) then s
  else (s.drawn).onSupply fun x =>
    { x with holdOff := false, inputCv := if inRange x.inputCv then x.inputCv else 4000 + s.free.toNat % 1401 }

/-- INPUT_STABLE_IN_RANGE. -/
def execInputStableInRange (s : State) : Host.Outcome State Fault Refusal := .next (inputStableInRange s)

/-- JUNCTION_TRIP. -/
def junctionTrip (_m : MillId) (_sensor : Fin 32) (s : State) : State := s.removePower true

/-- JUNCTION_TRIP. -/
def execJunctionTrip (m : MillId) (sensor : Fin 32) (s : State) : Host.Outcome State Fault Refusal := .next (junctionTrip m sensor s)

/-- THERMAL_RESTART: 60 s after a junction trip, with the input in range. -/
def thermalRestart (s : State) : State :=
  if !s.supply.thermal || !inRange s.supply.inputCv then s
  else s.onSupply fun x => { x with thermal := false, holdOff := false }

/-- THERMAL_RESTART. -/
def execThermalRestart (s : State) : Host.Outcome State Fault Refusal := .next (thermalRestart s)

/-- No command runs on either mill. -/
def State.noCommand (s : State) : Bool := !s.mill0.cmd.running && !s.mill1.cmd.running

/-- SUPPLY_CTL.POWER_DOWN (R529): whether it is accepted. -/
def State.powerDown (s : State) : Bool × State :=
  if !s.corePower || !s.noCommand then (false, s)
  else
    let s := s.tally .supply 6 1
    (true, ({ s with nv := { s.nv with orderly := true } }).coreOff 4 |>.onSupply fun x => { x with standby := true })

/-- SUPPLY_CTL.RELEASE_CAP (R510): the cap of a storm is lifted by the raises that follow. -/
def State.releaseCap (s : State) : State := s.onSupply fun x => { x with storm := false, trips := [] }

/-- A write of SUPPLY_CTL: its actions in ascending order of bit. -/
def State.supplyCtl (s : State) (p : Path) (w : W32) : State :=
  let s := if bitOf w 0 then s.releaseCap else s
  let s := if bitOf w 1 then s.onSupply fun x => { x with powerOn := true } else s
  let s :=
    if !bitOf w 2 then s
    else match s.powerDown with
      | (true, s) => s
      | (false, s) => s.accessErr p (Page.base .supply + 0x10C) true w .value
  if bitOf w 3 then s.restart else s

/-! ## Miller resets (R417, R527, R528) -/

/-- The Ikiug page and the contexts of a miller are reset, and its running command ends with cause MILLER_RESET. -/
def State.millerReset (s : State) (m : MillId) : State :=
  let p : Page := .ikiug m
  let s := { s with
    regs := s.regs.filter fun x => decide (x.1 < p.base) || decide (p.base + 0x1000 ≤ x.1)
    inj := s.inj.filter fun i => i.entry != p.entry }
  let s := (s.dropXfers m true).dropLeatOps m true
  let s := s.abortCommand m (.commandFault 24) 24 true
  s.onMiller m fun x =>
    { x with user := .reset, system := .reset, vreg := [], carry := [], vecQ := [], faults := [], sysEvents := [],
             st := if x.ending.isSome then .stopped else .idle }

/-- A write of MILLER_RESET: from the other mill's system context or the hoist chain only. -/
def State.millerResetWrite (s : State) (p : Path) (m : MillId) (w : W32) : State :=
  if !bitOf w 0 then s
  else if p = .chain ∨ p = sysPath m.other then s.millerReset m
  else s.accessErr p (Page.base (.power m) + 0x118) true w .path

/-- SYSTEM_CONTEXT_ECC_RESET: an uncorrectable error in the system context is recorded against the miller. -/
def systemContextEccReset (m : MillId) (s : State) : State :=
  if !s.pageLive (.ikiug m) then s else (s.histPending m (4, m.num) 5 0 false).millerReset m

/-- SYSTEM_CONTEXT_ECC_RESET. -/
def execSystemContextEccReset (m : MillId) (s : State) : Host.Outcome State Fault Refusal := .next (systemContextEccReset m s)

/-! ## Start-up (R523 to R526) -/

/-- A start ends at a stage. -/
def State.startFail (s : State) (stage cause : Nat) : State :=
  ((s.putFld .supply 0x110 5 4 stage).putFld .supply 0x110 9 3 cause).raise .supply 4

/-- Pages that leave reset enter the setting digest anew. -/
def State.pagesDirty (s : State) (ps : List Page) : State :=
  { s with trust := { s.trust with
      dirty := s.trust.dirty ++ (ps.map (·.entry)).filter fun e => !s.trust.dirty.contains e } }

/-- Stage 2: the island's pages leave reset, with the non-volatile values of the supply page. -/
def State.islandUp (s : State) (refCal : Nat) : State :=
  let s := s.onRef fun x => { x with cal := refCal }
  let w := putBits (putBits (0 : W32) 0 1 (boolNat s.nv.autoPower)) 1 16 s.nv.chainWait
  (s.setWord .supply 0x114 w).pagesDirty [.directory, .host, .supply, .clock, .trust]

/-- Stage 3: leaves reserved and not used are lost (R571), and the boot ROM verifies a slot. -/
def State.bootStage (s : State) : State :=
  let lost := s.nv.resEnd - s.trust.nextLeaf
  let s := ({ s with trust := { s.trust with nextLeaf := s.nv.resEnd } }).tally .trust 6 lost
  match s.bootVerify with
  | (true, s) => s.onSupply fun x => { x with stage := 4 }
  | (false, s) => s.startFail 3 1

/-- The register words of disabled rows. -/
def rowmapWords (rows : List Nat) : W32 × W32 :=
  let f (i : Nat) : Nat := match rows[i]? with | some r => r % 512 + 512 | none => 0
  (BitVec.ofNat 32 (f 0 + 65536 * f 1), BitVec.ofNat 32 (f 2 + 65536 * f 3))

/-- A stone as its page leaves reset: its disabled rows, out of service where it is retired. -/
def State.stoneUp (s : State) (m : MillId) (n : Fin 24) : State :=
  let rows := ((s.nv.rowmaps.find? fun r => r.1 == stoneIndex m n).map (·.2)).getD []
  let (a, b) := rowmapWords rows
  let out := s.inForce.contains (1, stoneIndex m n)
  let s := (((s.setWord (.stone m n) 0x108 a).setWord (.stone m n) 0x10C b).writeSkew m n rows).onStone m n.val fun x =>
    { x with disabled := rows, outOfService := out }
  if out then s.onPower m fun p => { p with gated := p.gated ++ [n] } else s

/-- A mill's pages leave reset: fuse values, the page-table region that firmware reserves, the area of tolls. -/
def State.millUp (s : State) (m : MillId) : State :=
  let s := s.forAll (List.finRange 24) fun s n => s.stoneUp m n
  let s := s.setWord (.toll m) 0x104 (match m with | .m0 => s.fuses.tollSeed0 | .m1 => s.fuses.tollSeed1)
  let top := portBase (.hbm m 9) + portSize (.hbm m 9) - 2 * pageSize
  (s.setWord64 (.sluice m) 0x108 (BitVec.ofNat 64 top)).storeWord (.toll m) 0x110 32

/-- A retired Leat port is held with ENABLE = 0 (R426). -/
def State.portRetired (s : State) (p : Nat) : State := (s.putFld (portPage p) 0x100 0 1 0).portEnable p

/-- The Leat ports that are retired. -/
def State.portsRetired (s : State) : List Nat := s.inForce.filterMap fun u => if u.1 = 7 ∧ u.2 < 24 then some u.2 else none

/-- Stage 5: mill 0 and then mill 1 pages leave reset. A start without an orderly power-down before it counts as a failure (R447). -/
def State.coreUp (s : State) : State :=
  let orderly := s.nv.orderly
  let s := { s with inForce := s.nv.retired, nv := { s.nv with orderly := false } }
  let s := s.onSupply fun x => { x with stage := 6, standby := false }
  let s := s.millUp .m0
  let s := if s.mill1Out then s else s.millUp .m1
  let s := (s.pagesDirty allPages).tally .supply 5 1
  let s := s.forAll s.portsRetired State.portRetired
  if orderly then s else s.pondFailure 1

/-- A pond generation with a half in a range of memory is dropped (R632). -/
def State.dropPondIn (s : State) (lo hi : Nat) : State :=
  let hit (l : List (Nat × Nat)) : Bool := l.any fun r => decide (r.1 < hi) && decide (lo < r.1 + r.2)
  let v := if s.nv.held0 && hit s.nv.places0 then s.nv.slotGone false else s.nv
  { s with nv := if v.held1 && hit v.places1 then v.slotGone true else v }

/-- The DIMM of a socket is another one than before (R632). -/
def State.dimmChanged (s : State) (j serial : Nat) : State :=
  let lo := 0x20000000000 + 0x4000000000 * j
  let hi := 0x4000000000 + lo
  let s := { s with nv := { s.nv with
    badFrames := s.nv.badFrames.filter fun f => decide (pageSize * f < lo) || decide (hi ≤ pageSize * f)
    dimms := listOn s.nv.dimms j fun _ => serial } }
  s.dropPondIn lo hi

/-- The DIMM serial numbers, compared with those of the last start. -/
def State.dimmCheck (s : State) (serials : List Nat) : State :=
  s.forAll (List.range 16) fun s j =>
    let n := serials.getD j 0
    if n = s.nv.dimms.getD j 0 then s else s.dimmChanged j n

/-- A unit that failed at stages 6 to 8 (R524): written to the history, classed, and out of service for this start. A failing row is
repaired (R90). -/
def State.unitFailed (s : State) (u : Nat × Nat) : State :=
  let r : HistRec := { step := s.histStep .m0, kind := u.1, det := 10, cls := 0, index := u.2, seq := 0, opdig := 0, time := s.time }
  let c := s.classOf r s.nv.history
  let s := s.histWrite { r with cls := c } false
  if u.1 = 2 then
    let g := u.2 / 512
    if h : g % 24 < 24 then s.repairRow (millOf (g / 24)) ⟨g % 24, h⟩ (u.2 % 512) else s
  else
    let s := if c = 2 ∨ c = 3 then s.retireUnit u else s
    let s := { s with outUnits := s.outUnits ++ [u] }
    if h : u.1 = 1 ∧ u.2 < 48 then
      let n : Fin 24 := ⟨u.2 % 24, Nat.mod_lt _ (by decide)⟩
      let s := s.onStone (millOf (u.2 / 24)) n.val fun x => { x with outOfService := true }
      s.onPower (millOf (u.2 / 24)) fun p => { p with gated := if p.gated.contains n then p.gated else p.gated ++ [n] }
    else s

/-- The kinds of unit that a stage trains or tests; an empty socket is no failure (R631). -/
def State.stageUnits (s : State) (stage : Nat) (us : List UnitRef) : List (Nat × Nat) :=
  ((us.map unitPair).eraseDups).filter fun u =>
    !s.inForce.contains u &&
    match stage with
    | 6 => u.1 == 5 || (u.1 == 6 && s.nv.dimms.getD u.2 0 != 0)
    | 7 => u.1 == 7
    | _ => u.1 == 1 || u.1 == 2 || u.1 == 3 || u.1 == 10

/-- Every enabled Leat port begins to train. -/
def State.portsTrain (s : State) : State :=
  s.forAll (List.range 24) fun s p =>
    if s.pageLive (portPage p) && s.bit (portPage p) 0x100 0 && (s.port p).st == 0 then
      s.onPort p fun x => { x with st := 1, width := 0, badLanes := 0 }
    else s

/-- Ports that have not trained have gone down. -/
def State.portsSettle (s : State) : State :=
  s.forAll (List.range 24) fun s p => if (s.port p).st = 1 then s.onPort p fun x => { x with st := 0, lanes := 0 } else s

/-- The start is held: it has ended, or waits for its input, its temperature or the reference. -/
def State.startHeld (s : State) : Bool :=
  s.fld .supply 0x110 5 4 != 0 || s.supply.holdOff || s.supply.thermal || (decide (2 ≤ s.supply.stage) && s.refHeld)

/-- STARTUP_STAGE_DONE: the stage in progress completes, and the next begins. -/
def startupStageDone (r : StageReport) (s : State) : State :=
  if s.startHeld then s
  else
    let next (s : State) (k : Nat) : State := s.onSupply fun x => { x with stage := k }
    match s.supply.stage with
    | 1 => if inRange s.supply.inputCv then next s 2 else s
    | 2 => next (s.islandUp r.refCal.toNat) 3
    | 3 => s.bootStage
    | 4 =>
      if s.hoist.addr = 0xFFF ∧ s.fld .supply 0x114 1 16 = 0 then s
      else if s.nv.retired.any retiresModule then s.startFail 4 2
      else next s 5
    | 5 =>
      if !(s.supply.powerOn || (s.bit .supply 0x114 0 && !s.supply.standby)) then s
      else if !r.railOk then s.startFail 5 3
      else s.coreUp
    | 6 =>
      let s := s.dimmCheck r.dimmSerials
      (next (s.forAll (s.stageUnits 6 r.failed) State.unitFailed) 7).portsTrain.linkTrain
    | 7 =>
      if !(r.pcieUp || s.host.perst) then s
      else
        let s := (s.forAll (s.stageUnits 7 r.failed) State.unitFailed).portsSettle
        let s := if s.host.perst then s else s.linkSet r.pcieWidth r.pcieSpeed r.pcieFlit
        next s 8
    | 8 => (next (s.forAll (s.stageUnits 8 r.failed) State.unitFailed) 9).raise .supply 5
    | _ => s

/-- STARTUP_STAGE_DONE. -/
def execStartupStageDone (r : StageReport) (s : State) : Host.Outcome State Fault Refusal := .next (startupStageDone r s)

/-! ## Retirement at the boundary (R425, R426) -/

/-- Mill 1 is retired: its pages are in reset, splice has ended, and its ports and what was to cross the shaft are gone (R31, R427). -/
def State.mill1Gone (s : State) : State :=
  let s := s.forAll ((List.range 24).drop 12) fun s p => s.onPort p fun _ => .reset
  { s with
    mill0 := { s.mill0 with shaft := [] }
    mill1 := .reset
    pathPcie := s.pathPcie.keepBelow mill1Base, pathChain := s.pathChain.keepBelow mill1Base
    pathSys0 := s.pathSys0.keepBelow mill1Base, pathSys1 := s.pathSys1.keepBelow mill1Base
    regs := s.regs.filter fun x => decide (x.1 < mill1Base)
    tallies := s.tallies.filter fun x => decide (x.1 < 16 * Page.entry (.ikiug .m1))
    inj := s.inj.filter fun i => decide (i.entry < Page.entry (.ikiug .m1))
    trust := { s.trust with dirty := if s.trust.dirty.contains 0 then s.trust.dirty else 0 :: s.trust.dirty } }

/-- A retirement takes effect. -/
def State.applyRetirement (s : State) (u : Nat × Nat) : State :=
  let s := if retiresMill1 u && !retiresModule u then s.claimsFreed (claimPages .m1) else s
  let s := if retiresMill1 u && s.mill0.race.spliced then s.unsplice false else s
  let s := ({ s with inForce := s.inForce ++ [u] }).raise .history 0
  let s := s.pondFailure 1
  let s :=
    if u.1 = 1 ∧ u.2 < 48 then
      let m := millOf (u.2 / 24)
      let n : Fin 24 := ⟨u.2 % 24, Nat.mod_lt _ (by decide)⟩
      let s := s.onStone m n.val fun x => { x with outOfService := true, active := .reset, shadow := .reset }
      s.onPower m fun p => { p with gated := if p.gated.contains n then p.gated else p.gated ++ [n] }
    else if u.1 = 6 then s.dropPondIn (0x20000000000 + 0x4000000000 * u.2) (0x20000000000 + 0x4000000000 * (u.2 + 1))
    else if u.1 = 7 ∧ u.2 < 24 then s.portRetired u.2
    else s
  if retiresModule u then s.coreOff 4
  else if retiresMill1 u then s.mill1Gone
  else s

/-- RETIREMENT_APPLY: at a boundary, every retirement that waits takes effect. -/
def retirementApply (s : State) : State :=
  if s.halted || !s.noCommand || !s.pageLive .history then s
  else (s.nv.retired.filter fun u => !s.inForce.contains u).foldl
    (fun s u => if s.inForce.contains u || !s.corePower then s else s.applyRetirement u) s

/-- RETIREMENT_APPLY. -/
def execRetirementApply (s : State) : Host.Outcome State Fault Refusal := .next (retirementApply s)

/-! ## The brake (R507 to R510) -/

def State.vmin (s : State) (m : MillId) : Nat := s.fld (.power m) 0x104 0 8
def State.vmax (s : State) (m : MillId) : Nat := s.fld (.power m) 0x104 8 8
def State.inputLimit (s : State) : Nat := s.fld .supply 0x100 0 13

/-- The mean input power over the samples of the last 10 ms. -/
def State.meanW (s : State) : Nat := s.supply.samples.sum / max 1 s.supply.samples.length

/-- The cap of both mills is lowered by as many steps, from the controller's voltage where it was lifted. -/
def State.lowerCap (s : State) (steps : Nat) : State :=
  s.forAll [MillId.m0, .m1] fun s m =>
    let lo := s.vmin m
    s.onPower m fun p => { p with vcap := max lo (min p.vcap p.vctl - steps) }

/-- INPUT_SAMPLE: the 1 µs sample of input power. -/
def inputSample (watts : BitVec 13) (s : State) : State :=
  if s.supply.stage < 2 then s
  else
    let limit := s.inputLimit
    let inj := s.injects .supply 1
    let s := if inj then s.injectedTimed .supply else s
    let w := if inj then limit + 100 else watts.toNat
    let begins := decide (limit < w) && s.supply.excursion == 0
    let e := s.supply.energy + w
    let s := s.onSupply fun x =>
      { x with inputW := w, samples := (w :: x.samples).take 10000, excursion := if limit < w then x.excursion + 1 else 0,
               energy := e % 1000 }
    let s := (s.tally .supply 4 (e / 1000)).tally .supply 1 (boolNat begins)
    let hit := decide (4700 < w) || decide (s.fld .supply 0x100 13 4 * 1000 ≤ s.supply.excursion) || decide (limit < s.meanW)
    let was := s.supply.braking
    let s := s.onSupply fun x => { x with braking := hit }
    if !hit || !s.corePower then s
    else
      let s := s.lowerCap 4
      if was then s else s.raise .supply 0

/-- INPUT_SAMPLE. -/
def execInputSample (watts : BitVec 13) (s : State) : Host.Outcome State Fault Refusal := .next (inputSample watts s)

/-- BRAKE_CAP_RAISE: the mean lies at least 2 % below INPUT_LIMIT. -/
def brakeCapRaise (s : State) : State :=
  if !s.corePower || s.supply.storm || decide (s.inputLimit * 98 < s.meanW * 100) then s
  else s.forAll [MillId.m0, .m1] fun s m => s.onPower m fun p => { p with vcap := min 100 (p.vcap + 1) }

/-- BRAKE_CAP_RAISE. -/
def execBrakeCapRaise (s : State) : Host.Outcome State Fault Refusal := .next (brakeCapRaise s)

/-- Does a cause trip the emergency brake? -/
def State.trips (s : State) : TripCause → Bool
  | .current m amps => decide (s.fld (.power m) 0x10C 0 11 < amps.toNat)
  | .power w => decide (4750 < w.toNat)

/-- The handshakes of the stones of both mills are held (R93). -/
def State.holdStones (s : State) : State :=
  s.forAll [MillId.m0, .m1] fun s m => s.forAll (List.finRange 24) fun s n =>
    if s.pageLive (.stone m n) && !(s.stone m n.val).outOfService && !(s.mill m).power.gated.contains n then
      (s.tally (.stone m n) 13 1).raise (.stone m n) 7
    else s

/-- EBRAKE_TRIP: every handshake halts and the cap falls by 50 mV; the sixteenth trip within 1 s is a storm. -/
def ebrakeTrip (c : TripCause) (s : State) : State :=
  let (inj, s') := s.takeInj .supply 2
  if !s.corePower || !(inj || s.trips c) then s
  else
    let s := s'
    let s := if s.supply.ebrake then s else s.holdStones
    let s := match c with
      | .current m a =>
        let trip := s.trips c
        let s := s.onPower m fun p => { p with coreA := a.toNat }
        if trip then (s.tally (.power m) 8 1).raise (.power m) 1 else s
      | .power _ => s
    let now := s.time.toNat
    let s := s.onSupply fun x =>
      { x with ebrake := true, trips := (now :: x.trips).filter fun t => decide (now < t + 1000000000) }
    let s := ((s.tally .supply 2 1).raise .supply 1).lowerCap 20
    if s.supply.trips.length < 16 ∨ s.supply.storm = true then s
    else
      let s := (s.onSupply fun x => { x with storm := true }).raise .supply 2
      s.forAll [MillId.m0, .m1] fun s m => let lo := s.vmin m; s.onPower m fun p => { p with vcap := lo }

/-- EBRAKE_TRIP. -/
def execEbrakeTrip (c : TripCause) (s : State) : Host.Outcome State Fault Refusal := .next (ebrakeTrip c s)

/-- EBRAKE_RELEASE: both core currents lie below 90 % of OC_LIMIT. -/
def ebrakeRelease (amps0 amps1 : BitVec 11) (s : State) : State :=
  let below (m : MillId) (a : BitVec 11) : Bool := decide (a.toNat * 10 < s.fld (.power m) 0x10C 0 11 * 9)
  if !s.supply.ebrake || !(below .m0 amps0 && below .m1 amps1) then s
  else
    let s := s.onSupply fun x => { x with ebrake := false }
    (s.onPower .m0 fun p => { p with coreA := amps0.toNat }).onPower .m1 fun p => { p with coreA := amps1.toNat }

/-- EBRAKE_RELEASE. -/
def execEbrakeRelease (amps0 amps1 : BitVec 11) (s : State) : Host.Outcome State Fault Refusal := .next (ebrakeRelease amps0 amps1 s)

/-! ## Core voltage (R505, R506) -/

/-- The least of a list, and its place. -/
def slowest : List (BitVec 12) → Option (Nat × Nat)
  | [] => none
  | x :: r => match slowest r with
    | none => some (x.toNat, 0)
    | some (v, i) => if x.toNat ≤ v then some (x.toNat, 0) else some (v, i + 1)

/-- CANARY_MEASURE: the rates of the 32 canaries of a mill. -/
def canaryMeasure (m : MillId) (rates : List (BitVec 12)) (s : State) : State :=
  match slowest (rates.take 32) with
  | none => s
  | some (v, i) =>
    if !s.pageLive (.power m) then s
    else
      let inj := s.injects (.power m) 1
      let s := if inj then s.injectedTimed (.power m) else s
      s.onPower m fun p => { p with canaryMin := if inj then v * 9 / 10 else v, canaryIdx := i }

/-- CANARY_MEASURE. -/
def execCanaryMeasure (m : MillId) (rates : List (BitVec 12)) (s : State) : Host.Outcome State Fault Refusal :=
  .next (canaryMeasure m rates s)

/-- VOLTAGE_CONTROL_TICK: one step toward the lowest voltage at which CANARY_MIN reaches RATE_TARGET. -/
def voltageControlTick (m : MillId) (s : State) : State :=
  let p := (s.mill m).power
  let lo := s.vmin m
  let hi := min (s.vmax m) p.vcap
  let up (s : State) : State := (s.onPower m fun p => { p with vctl := p.vctl + 1 }).tally (.power m) 0 1
  let down (s : State) : State := (s.onPower m fun p => { p with vctl := p.vctl - 1 }).tally (.power m) 1 1
  let target := s.fld (.power m) 0x100 0 12
  if !s.pageLive (.power m) then s
  else if p.canaryMin < target then
    if p.vctl < hi then up s
    else
      let s := if hi < p.vctl ∧ lo < p.vctl then down s else s
      if p.unreached then s else (s.onPower m fun p => { p with unreached := true }).raise (.power m) 0
  else
    let s := s.onPower m fun p => { p with unreached := false }
    if p.vctl < lo then up s
    else if lo < p.vctl ∧ (hi < p.vctl ∨ target < p.canaryMin) then down s
    else s

/-- VOLTAGE_CONTROL_TICK. -/
def execVoltageControlTick (m : MillId) (s : State) : Host.Outcome State Fault Refusal := .next (voltageControlTick m s)

/-! ## Gating (R511 to R513) -/

/-- A stone is idle: unbound, with both banks free, no load pending, no pass and no toll pass. -/
def State.gateIdle (s : State) (m : MillId) (n : Fin 24) : Bool :=
  let x := s.stone m n.val
  (s.binding m n.val).role == .unbound && x.bank0.st == .free && x.bank1.st == .free && !x.loading && x.pass.isNone
    && x.feed.isNone && x.recv.isNone && x.repair == .none && !x.draining && !s.tollHeld m n.val
    && !([m, m.other].any fun own => (s.mill own).race.ops.any fun o => s.opNames own o m n.val && !s.opMade o m n.val)

/-- STONE_GATE. -/
def stoneGate (m : MillId) (n : Fin 24) (s : State) : State :=
  if s.halted || !s.pageLive (.stone m n) || (s.mill m).power.gated.contains n || !s.gateIdle m n then s
  else
    let s := s.onStone m n.val fun x => { x with active := .reset, shadow := .reset }
    (s.onPower m fun p => { p with gated := p.gated ++ [n] }).tally (.power m) 3 1

/-- STONE_GATE. -/
def execStoneGate (m : MillId) (n : Fin 24) (s : State) : Host.Outcome State Fault Refusal := .next (stoneGate m n s)

/-- STONE_UNGATE_DONE: a gated stone that a bundle has named is powered; both stationary sets are unwritten. -/
def stoneUngateDone (m : MillId) (n : Fin 24) (s : State) : State :=
  let p := (s.mill m).power
  if s.halted || !p.gated.contains n || !p.ungating.contains n || (s.stone m n.val).outOfService then s
  else
    let s := s.onStone m n.val fun x => { x with active := .reset, shadow := .reset }
    (s.onPower m fun p => { p with gated := p.gated.filter (· != n), ungating := p.ungating.filter (· != n) }).tally (.power m) 4 1

/-- STONE_UNGATE_DONE. -/
def execStoneUngateDone (m : MillId) (n : Fin 24) (s : State) : Host.Outcome State Fault Refusal := .next (stoneUngateDone m n s)

/-! ## Timers (R504) -/

/-- PERIOD of a timer, in nanoseconds; none where it is stopped. -/
def State.period (s : State) (m : MillId) (t : Fin 4) : Timer :=
  match s.fld (.timer m t) 0x100 0 31 with
  | 0 => none
  | n => some (n * 1000)

/-- TIMER_EXPIRED: the end of a period. The pond copy's timer requests a copy (R448). -/
def timerExpired (m : MillId) (t : Fin 4) (s : State) : State :=
  let p : Page := .timer m t
  if (s.timerOf m t.val).isNone || !s.timeRuns || s.refHeld || !s.pageLive p then s
  else
    let (_, s) := s.takeInj p 1
    let s := (s.tally p 0 1).raise p 0
    if m == .m0 && t == 1 && s.pondTimed then (s.setTimer m t.val none).pondRequest
    else s.setTimer m t.val (if s.bit p 0x100 31 then s.period m t else none)

/-- TIMER_EXPIRED. -/
def execTimerExpired (m : MillId) (t : Fin 4) (s : State) : Host.Outcome State Fault Refusal := .next (timerExpired m t s)

/-! ## The reference monitor (R516 to R520) -/

/-- Every memory port. -/
def allPorts : List PortRef :=
  [MillId.m0, .m1].flatMap fun m => (List.finRange 10).map (PortRef.hbm m) ++ (List.finRange 8).map (PortRef.ddr m)

/-- The reference is declared lost or wild: what asynchronous logic does without waiting for the miller. -/
def State.declareRef (s : State) (wild : Bool) : State :=
  let k := boolNat wild
  let s := (s.onRef fun x => { x with state := 1 + k, expired := false }).tally .clock k 1
  let s := s.portsHold
  let s := { s with portsOff := allPorts }
  let s := s.linkLoss
  (s.raise .clock k).loseTime

/-- The monitor runs from stage 2 on. -/
def State.monitorOn (s : State) : Bool := decide (2 ≤ s.supply.stage)

/-- REF_LOST: no edge within 32 fantail periods. A new loss during the wait for stability declares nothing again. -/
def refLost (s : State) : State :=
  if !s.monitorOn then s
  else
    let s := if s.injects .clock 1 then s.injectedTimed .clock else s
    if s.refclk.state = 0 then s.declareRef false else s.onRef fun x => { x with state := 1 }

/-- REF_LOST. -/
def execRefLost (s : State) : Host.Outcome State Fault Refusal := .next (refLost s)

/-- REF_WINDOW: a window of 4,096 fantail periods closes with a count of edges. -/
def refWindow (edges : BitVec 16) (s : State) : State :=
  if s.supply.stage < 3 then s
  else
    let (inj, s) := s.takeInj .clock 2
    let cal := s.refclk.cal
    let e := if inj then cal * 13 / 160 else edges.toNat
    let diff : Int := 16 * (e : Int) - (cal : Int)
    let wild := decide ((cal : Int) < 4 * diff) || decide ((cal : Int) < -(4 * diff))
    let s := s.onRef fun x => { x with count := e }
    if wild then if s.refclk.state = 0 then s.declareRef true else s.onRef fun x => { x with state := if x.state = 3 then 2 else x.state }
    else
      s.onRef fun x => { x with cal := ((cal : Int) + diff.tdiv 256).toNat, state := if x.state = 0 then 0 else 3 }

/-- REF_WINDOW. -/
def execRefWindow (edges : BitVec 16) (s : State) : Host.Outcome State Fault Refusal := .next (refWindow edges s)

/-- PLL_STOP: 200 µs after the declaration TIME_NOW holds. -/
def pllStop (s : State) : State := if !s.refHeld then s else s.onRef fun x => { x with pllsOff := true }

/-- PLL_STOP. -/
def execPllStop (s : State) : Host.Outcome State Fault Refusal := .next (pllStop s)

/-- REF_RECOVERY: 10 ms of a stable reference. -/
def refRecovery (s : State) : State :=
  if !s.refHeld || (s.injects .clock 1 && s.inj.any fun i => i.entry == Page.entry .clock && i.timed) then s
  else
    let s := s.onRef fun x => { x with state := 0, pllsOff := false, expired := false }
    let s := ({ s with portsOff := [] }).portsRelease
    ((s.tally .clock 3 1).raise .clock 2).linkTrain

/-- REF_RECOVERY. -/
def execRefRecovery (s : State) : Host.Outcome State Fault Refusal := .next (refRecovery s)

/-- REF_WAIT_EXPIRED: the running command of each mill is aborted with cause REF_LOST. -/
def refWaitExpired (s : State) : State :=
  if !s.refHeld || s.refclk.expired then s
  else
    let s := ((s.onRef fun x => { x with expired := true }).tally .clock 4 1).raise .clock 3
    (s.abortCommand .m0 (.commandFault 23) 23 true).abortCommand .m1 (.commandFault 23) 23 true

/-- REF_WAIT_EXPIRED. -/
def execRefWaitExpired (s : State) : Host.Outcome State Fault Refusal := .next (refWaitExpired s)

/-! ## CLKOUT (R521, R522, R546, R620) -/

/-- What the CLKOUT pin gives: a level, or a square wave whose period is 2^n periods or events of a source; a source that does not run gives
no edges. -/
inductive ClkOut where
  | low | high | noEdges
  | square (src index n : Nat)
deriving DecidableEq, Repr

/-- Does a source of R522 run? In standby only REFCLK and the fantail do (R620). -/
def State.clkSource (s : State) (src index : Nat) : Bool :=
  let mill (m : MillId) : Bool := s.corePower && !s.millOut m
  match src with
  | 1 => s.refclk.state != 1
  | 2 => s.corePower && !s.refclk.pllsOff
  | 3 => mill (millOf index) && !s.refclk.pllsOff
  | 4 => mill (millOf (index / 10)) && !s.refclk.pllsOff
  | 5 => mill (millOf (index / 8)) && !s.refclk.pllsOff
  | 6 => !s.supply.ebrake && mill (millOf (index / 24)) && !(s.mill (millOf (index / 24))).power.gated.any fun g => g.val == index % 24
  | 7 => !s.supply.ebrake && mill (millOf index)
  | 8 => true
  | _ => false

/-- A mill's log is in the post or captured state. -/
def Mill.triggered (x : Mill) : Bool := x.log.st == .post || x.log.st == .captured

/-- The CLKOUT pin: the clock output under claimant 1, the log trigger output under claimant 2, low wherever neither drives it. -/
def State.clkout (s : State) : ClkOut :=
  let src := s.fld .clock 0x10C 0 4
  let index := s.fld .clock 0x10C 4 6
  if !s.pageLive .clock then .low
  else match s.holder .clock with
    | 1 => if src = 0 then .low else if s.clkSource src index then .square src index (s.fld .clock 0x10C 10 5) else .noEdges
    | 2 => if [MillId.m0, .m1].any (fun m => s.bit (.log m) 0x100 8) && (s.mill0.triggered || s.mill1.triggered) then .high else .low
    | _ => .low

end Sys2Proof.Machine
end

