-- ==== Sys2Proof/Machine/RegRead.lean ====
section
/-! DEFINITION. Reading a register (chapters 00 and 17): the words that follow the state as it stands, the captures of each access
path, and what a read does beside returning a value. -/

namespace Sys2Proof.Machine

/-! ## Live words -/

/-- The words of a page whose bit 31 is an unread flag. -/
def unreadWords (p : Page) : List Nat :=
  (blockRegs p).filterMap fun r => if r.flds.any (fun f => f.acc = .rc ∧ f.lo = 31) then some r.off else none

/-- A number with the bit of each listed position set. -/
def bitMask (l : List Nat) : Nat := l.eraseDups.foldl (fun a k => a + 2 ^ k) 0

/-- EVT_PEND. -/
def State.evtPend (s : State) (p : Page) : W32 := s.word p 0x010 &&& s.word p 0x014

/-- STATUS of the common header (R590). -/
def State.headStatus (s : State) (p : Page) : Nat :=
  boolNat (s.evtPend p != 0) + 2 * boolNat ((unreadWords p).any fun o => s.bit p o 31) + 4 * boolNat (s.holder p != 0)
    + 8 * boolNat (s.injArmed p) + 16 * boolNat (s.bit p 0x008 0)

/-- A word of the common header as it reads (R590, R591, R555). -/
def State.headWord (s : State) (p : Page) (off : Nat) : W32 :=
  if 0x40 ≤ off ∧ off < 0xC0 then
    let k := (off - 0x40) / 8
    if p.tallies ≤ k then 0 else if off % 8 = 0 then loWord (s.tallyOf p k) else hiWord (s.tallyOf p k)
  else match off with
    | 0x00C => BitVec.ofNat 32 (s.headStatus p)
    | 0x018 => s.evtPend p
    | 0x01C => s.word p 0x010
    | 0x024 => putBits (s.word p 0x024) 0 3 (4 * boolNat (s.injArmed p))
    | _ => s.word p off

/-- Live words of the directory (R597). -/
def State.liveDirectory (s : State) (off : Nat) : Nat :=
  if off < 0x200 then 0
  else match allPages[(off - 0x200) / 8]? with
    | none => 0
    | some p =>
      if off % 8 = 0 then p.id.toNat
      else p.base / 0x1000 + 65536 * boolNat p.island + 131072 * boolNat (s.pageLive p) + 262144 * boolNat (decide (0 < p.tallies))

/-- Live words of the host page (R497); before stage 7 the link reads as down (R589). -/
def State.liveHost (s : State) (off : Nat) : Nat :=
  let h := s.host
  match off with
  | 0x100 => if s.supply.stage < 7 then 0
      else h.link + 4 * (h.width % 32) + 128 * (h.speed % 8) + 1024 * boolNat h.flit + 2048 * boolNat h.d3
  | 0x108 => match h.fifo with | [] => 0 | e :: _ => e.pageId.toNat
  | 0x10C => match h.fifo with | [] => 0 | e :: _ => e.high.toNat
  | 0x110 => h.fifo.length
  | 0x190 => (loWord h.chuteDone).toNat
  | 0x194 => (hiWord h.chuteDone).toNat
  | 0x200 => s.hoist.addr.toNat + 4096 * boolNat s.hoist.enumIn + 8192 * boolNat s.hoist.enumOut
  | _ => 0

/-- The state of an assembly as ASM shows it. -/
def Assembly.code (a : Assembly) : Nat := if a.refused then 2 else if a.words.isEmpty then 0 else 1

/-- Live words of a command page (R497). -/
def State.liveCommand (s : State) (m : MillId) (off : Nat) : Nat :=
  let c := (s.mill m).cmd
  match off with
  | 0x100 => c.queue.length % 32 + 32 * boolNat c.running + 64 * c.asmPcie.code + 256 * c.asmChain.code + 1024 * c.asmSys0.code
      + 4096 * c.asmSys1.code
  | _ => 0

/-- BRAKE_ACTIVE: the cap of a mill lies below its controller's voltage (R508). -/
def State.brakeActive (s : State) : Bool := [MillId.m0, .m1].any fun m => decide ((s.mill m).power.vcap < (s.mill m).power.vctl)

/-- Live words of the supply page (R531). -/
def State.liveSupply (s : State) (off : Nat) : Nat :=
  match off with
  | 0x104 => s.supply.inputW % 8192 + 8192 * (s.meanW % 8192) + 2 ^ 26 * boolNat s.brakeActive + 2 ^ 27 * boolNat s.supply.ebrake
  | 0x108 => s.supply.inputCv % 65536
  | 0x110 => s.supply.stage % 16 + 16 * boolNat (s.supply.stage == 9)
  | _ => 0

/-- Live words of the clock page (R531). -/
def State.liveClock (s : State) (off : Nat) : Nat :=
  match off with
  | 0x100 => s.refclk.state % 8
  | 0x104 => s.refclk.cal % 65536 + 65536 * (s.refclk.count % 65536)
  | _ => 0

/-- Live words of a power page (R531). VCORE is the controller's voltage or the brake's cap, the lower. -/
def State.livePower (s : State) (m : MillId) (off : Nat) : Nat :=
  let p := (s.mill m).power
  match off with
  | 0x104 => 2 ^ 16 * (min p.vctl p.vcap % 256) + 2 ^ 24 * (p.vcap % 256)
  | 0x108 => p.canaryMin % 4096 + 4096 * (p.canaryIdx % 32)
  | 0x10C => 2048 * (p.coreA % 2048)
  | 0x114 => bitMask (p.gated.map (·.val))
  | _ => 0

/-- LEFT of a timer page, in microseconds begun. -/
def State.liveTimer (s : State) (m : MillId) (n : Fin 4) (off : Nat) : Nat :=
  match off, s.timerOf m n.val with
  | 0x104, some ns => (ns + 999) / 1000 % 2 ^ 31
  | _, _ => 0

def LogState.code : LogState → Nat
  | .off => 0 | .running => 1 | .armed => 2 | .post => 3 | .captured => 4

/-- Live words of a log page (R561). -/
def State.liveLog (s : State) (m : MillId) (off : Nat) : Nat :=
  let l := (s.mill m).log
  match off with
  | 0x118 => 8 * (s.logState m).code
  | 0x11C => l.age % 2 ^ 24
  | 0x130 => l.spillHead % 2 ^ 32
  | 0x134 => l.spillTrig % 2 ^ 32
  | 0x190 => l.latHead % 2 ^ 32
  | 0x194 => l.latHead / 2 ^ 32 % 512
  | 0x198 => l.latCount.toNat
  | 0x19C => l.curSeq.toNat
  | _ => if 0x160 ≤ off ∧ off < 0x180 then ((s.logWords m).getD ((off - 0x160) / 4) 0).toNat else 0

/-- STATE of IK_STATE. A context held by something else than a full engine reads as held too (log entry 31). -/
def CtxState.code : CtxState → Nat
  | .idle => 0 | .running => 1 | .waiting => 2 | .held => 3 | .paused => 3 | .atEnd => 4 | .spliceStart => 5 | .stopped => 6

/-- One word of a table of 64-bit values. -/
def wordOf (v : W64) (off : Nat) : Nat := if off % 8 = 0 then (loWord v).toNat else (hiWord v).toNat

/-- Live words of an Ikiug page (R318). -/
def State.liveIkiug (s : State) (m : MillId) (off : Nat) : Nat :=
  let x := (s.mill m).miller
  let c := x.user
  if 0x400 ≤ off ∧ off < 0x500 then wordOf (cellGet 0 ((off - 0x400) / 8) c.s) off
  else if 0x500 ≤ off ∧ off < 0x580 then wordOf (cellGet 0 ((off - 0x500) / 8) c.a) off
  else if 0x580 ≤ off ∧ off < 0x5C0 then (cellGet (0 : W32) ((off - 0x580) / 4) c.tSeen).toNat
  else match off with
    | 0x104 => x.st.code + 8 * boolNat s.supply.ebrake
    | 0x108 => wordOf c.pc off
    | 0x10C => wordOf c.pc off
    | _ => 0

/-- STATE of STONE_STATE (R95). Where several hold at once the first of this order shows: 6 out of service, 0 gated, 5 self-test,
4 draining, 3 held by the brake, 2 running, 1 idle (log entry 34). A fault under the brake has not begun its drain (R94). -/
def State.stoneState (s : State) (m : MillId) (n : Fin 24) : Nat :=
  let x := s.stone m n.val
  if x.outOfService then 6
  else if (s.mill m).power.gated.contains n then 0
  else if x.repair != .none then 5
  else if x.draining || (x.failed.isSome && !s.supply.ebrake) then 4
  else if s.supply.ebrake then 3
  else if x.pass.isSome || x.feed.isSome then 2
  else 1

/-- A swap mark waits for a load: the swap is pending and the load before it has not ended. -/
def State.swapWaits (s : State) (m : MillId) (n : Fin 24) : Bool :=
  (s.swapPending m n.val).isSome && ((s.stone m n.val).loading || (s.loadOp m n.val).isSome)

/-- Live words of a stone page (R95). -/
def State.liveStone (s : State) (m : MillId) (n : Fin 24) (off : Nat) : Nat :=
  let x := s.stone m n.val
  match off with
  | 0x104 => s.stoneState m n + 8 * boolNat x.loading + 16 * boolNat (s.swapWaits m n) + 32 * (s.bankState m n.val 0).code
      + 128 * (s.bankState m n.val 1).code + 512 * boolNat x.applyReq.isSome
  | _ => 0

/-- The word of the binding view of a stone (R135). -/
def State.bindWord (s : State) (m : MillId) (n : Nat) : Nat :=
  let b := s.binding m n
  let role := if (s.stone m n).outOfService then 3
    else match s.roleOf m n with | .unbound => 0 | .consumer => 1 | .runner => 1 | .scatter => 2
  role + 4 * b.stream + 16 * (b.replay - 1) + 128 * boolNat (s.roleOf m n == .runner)

/-- Live words of a race page (R135). -/
def State.liveRace (s : State) (m : MillId) (off : Nat) : Nat :=
  let own := s.raceOwner m
  let r := (s.mill own).race
  if 0x140 ≤ off ∧ off < 0x1A0 then s.bindWord m ((off - 0x140) / 4)
  else match off with
    | 0x104 =>
      (if r.abandoned then 2 else if r.idle then 0 else if s.supply.ebrake then 3 else 1)
        + 4 * boolNat (s.mill m).race.spliced + 8 * boolNat (own == m)
        + 16 * bitMask ((r.cols ++ r.tail).map fun c => c.1 % 4)
    | _ => 0

/-- Live words of a governor page (R198). -/
def State.liveGovernor (s : State) (m : MillId) (off : Nat) : Nat :=
  let g := (s.mill m).governor
  match off with
  | 0x104 => boolNat g.compat + 2 * boolNat (g.compat != s.bit (.governor m) 0x100 0) + 4 * bitMask (g.jobs.map (·.1) ++ g.opened.map (·.stage))
  | _ => 0

/-- Live words of a bolter page (R234). -/
def State.liveBolter (s : State) (m : MillId) (off : Nat) : Nat :=
  match off, (s.mill m).bolter.ops.head? with
  | 0x104, some o =>
    (match o.phase with | .gate => 2 | .parked => 3 | .waiting => 1 | .stalled => 1 | .finished => 1)
      + 4 * boolNat s.supply.ebrake + 8 * boolNat o.sweep2 + 16 * (o.bdesc % 4096)
  | _, _ => 0

/-- Live words of a sluice page (R274). -/
def State.liveSluice (s : State) (m : MillId) (off : Nat) : Nat :=
  let x := (s.mill m).sluice
  match off with
  | 0x104 => bitMask (positions x.queues fun q => !q.xfers.isEmpty) + 65536 * bitMask (positions x.queues fun q => q.parked.isSome)
  | 0x118 => 4 * boolNat x.inval.isSome
  | _ => if 0x200 ≤ off ∧ off % 0x40 = 4 then 2 ^ 31 * boolNat (s.queue m ((off - 0x200) / 0x40)).parked.isSome else 0

/-- Live words of floor page 0 (R349). -/
def State.liveFloor (s : State) (m : MillId) (off : Nat) : Nat :=
  let four (f : Nat → Nat) : Nat := (List.range 4).foldl (fun a k => a + f k % 256 * 2 ^ (8 * k)) 0
  if 0x400 ≤ off then four fun k => hopCount m ((off - 0x400) / 64) ((off - 0x400) % 64 + k)
  else if 0x200 ≤ off then four fun k => nodeByte m (off - 0x200 + k)
  else match off with
    | 0x104 => boolNat (s.mill m).floor.pending + 2 * boolNat (!(s.mill m).floor.cal.isEmpty)
    | 0x110 => s.stonesIn m
    | _ => 0

/-- Live words of the trust page (R584). -/
def State.liveTrust (s : State) (off : Nat) : Nat :=
  let t := s.trust
  if 0x200 ≤ off ∧ off < 0x300 then
    leNat (((t.meas.getD ((off - 0x200) / 32) []).drop ((off - 0x200) % 32)).take 4)
  else if 0x120 ≤ off ∧ off < 0x140 then (s.digestWords.getD ((off - 0x120) / 4) 0).toNat
  else match off with
    | 0x100 => s.fuses.svn % 64 + 64 * (s.fuses.keyGen % 16) + 1024 * boolNat t.bootSlot + 2048 * boolNat s.nv.prefSlot
        + 4096 * boolNat t.inactiveOk + 8192 * boolNat (!t.dirty.isEmpty) + 16384 * boolNat t.quoteBusy
    | 0x110 => t.nextLeaf % 2 ^ 30
    | 0x114 => s.nv.resEnd % 2 ^ 30
    | 0x118 => wordOf t.digestGen off
    | 0x11C => wordOf t.digestGen off
    | _ => 0

/-- A transfer of the module waits for a step later than a group's window (R385). -/
def State.groupAhead (s : State) (gi : Nat) : Bool :=
  [MillId.m0, .m1].any fun m => (s.mill m).sluice.queues.any fun q => q.xfers.any fun t =>
    t.ahead && natBits t.parsed.dst 16 12 == gi

/-- Live words of the Leat page (R396). -/
def State.liveLeat (s : State) (off : Nat) : Nat :=
  let gi := s.fld .leat 0x140 0 12
  match off with
  | 0x11C => (s.routeOf (s.fld .leat 0x118 0 16)).toNat
  | 0x128 => wordOf s.time off
  | 0x12C => wordOf s.time off
  | 0x138 => 65536 * boolNat s.leat.timeValid
  | 0x144 => match s.group gi with
    | none => 0
    | some g => g.present.length % 65536 + 65536 * g.runOf g.open_ + 2 ^ 18 * boolNat g.skew
        + 2 ^ 19 * boolNat (s.groupAhead gi || g.ops.any fun o => decide (g.open_ < o.step))
  | 0x148 => match s.group gi with | none => 0 | some g => g.open_ % 2 ^ 32
  | 0x14C => match s.group gi with | none => 0 | some g => g.open_ / 2 ^ 32 % 65536
  | _ => 0

/-- Live words of a Leat port page (R396). -/
def State.liveLeatPort (s : State) (m : MillId) (n : Fin 12) (off : Nat) : Nat :=
  let x := s.port (12 * m.num + n.val)
  match off with
  | 0x104 => x.st % 8 + 8 * (x.width % 4) + 32 * x.lanes.toNat + 8192 * x.partner.toNat
  | _ => 0

/-- Live words of a toll page (R430). -/
def State.liveToll (s : State) (m : MillId) (off : Nat) : Nat :=
  match off with
  | 0x118 => (s.mill m).miller.run % 4 + 4 * boolNat (s.mill m).miller.barred + 8 * boolNat (s.tollsOpen m)
  | _ => 0

/-- The 32 bytes of a history record as a number (R423). -/
def HistRec.bits (r : HistRec) : Nat :=
  r.step % 2 ^ 48 + 2 ^ 48 * (r.kind % 16) + 2 ^ 52 * (r.det % 16) + 2 ^ 56 * (r.cls % 8)
    + 2 ^ 64 * (r.index % 65536) + 2 ^ 96 * r.seq.toNat + 2 ^ 128 * r.opdig.toNat + 2 ^ 192 * r.time.toNat

/-- The retired units of a kind whose index lies in a range, as a mask counted from its start. -/
def State.outMask (s : State) (kind lo n : Nat) : Nat :=
  bitMask (s.nv.retired.filterMap fun u => if u.1 = kind ∧ lo ≤ u.2 ∧ u.2 < lo + n then some (u.2 - lo) else none)

/-- Live words of the history page (R430). -/
def State.liveHistory (s : State) (off : Nat) : Nat :=
  if 0x120 ≤ off ∧ off < 0x140 then
    match s.nv.history[s.fld .history 0x110 0 16]? with
    | none => 0
    | some r => natBits r.bits (8 * (off - 0x120)) 32
  else match off with
    | 0x10C => s.nv.history.length
    | 0x400 => s.outMask 1 0 24
    | 0x404 => s.outMask 1 24 24
    | 0x408 => s.outMask 5 0 20
    | 0x40C => s.outMask 6 0 16
    | 0x410 => s.outMask 7 0 24
    | 0x414 => s.outMask 3 0 24 + 2 ^ 24 * boolNat (s.nv.retired.any retiresMill1)
    | _ => 0

/-- Live words of the pond page (R458). -/
def State.livePond (s : State) (off : Nat) : Nat :=
  let v := s.nv
  match off with
  | 0x108 => s.pond.st % 8 + 8 * boolNat v.held0 + 16 * boolNat v.held1 + 32 * boolNat v.newest + 64 * boolNat v.exp0
      + 128 * boolNat v.exp1
  | 0x10C => v.pondGen.toNat
  | 0x110 => v.heldStep % 2 ^ 32
  | 0x114 => v.heldStep / 2 ^ 32 % 65536
  | 0x140 => wordOf v.pondCost off
  | 0x144 => wordOf v.pondCost off
  | 0x148 => v.lambda.toNat
  | 0x14C => s.pondT % 65536
  | _ => 0

/-- The bits of a block-specific word that follow the state. -/
def State.live (s : State) (p : Page) (off : Nat) : Nat :=
  match p with
  | .directory => s.liveDirectory off
  | .host => s.liveHost off
  | .supply => s.liveSupply off
  | .clock => s.liveClock off
  | .trust => s.liveTrust off
  | .leat => s.liveLeat off
  | .history => s.liveHistory off
  | .pond => s.livePond off
  | .ikiug m => s.liveIkiug m off
  | .command m => s.liveCommand m off
  | .power m => s.livePower m off
  | .timer m n => s.liveTimer m n off
  | .race m => s.liveRace m off
  | .governor m => s.liveGovernor m off
  | .bolter m => s.liveBolter m off
  | .sluice m => s.liveSluice m off
  | .toll m => s.liveToll m off
  | .log m => s.liveLog m off
  | .floor m n => if n = 0 then s.liveFloor m off else 0
  | .stone m n => s.liveStone m n off
  | .leatPort m n => s.liveLeatPort m n off
  | .ledger _ => 0
  | .granary _ => 0
  | .watch _ => 0
  | .hbm _ _ => 0
  | .ddr _ _ => 0

/-- A word as it stands, read without effect. -/
def State.peek (s : State) (p : Page) (off : Nat) : W32 :=
  if off < 0x100 then s.headWord p off else s.word p off ||| BitVec.ofNat 32 (s.live p off)

/-! ## The hoist stream (R494, R495) -/

/-- The claimant code of a path for the hoist stream. -/
def streamCode : Path → Nat
  | .chain => 1
  | .pcie => 2
  | .sys0 => 3
  | .sys1 => 3

/-- Does a path hold the hoist stream? -/
def State.holdsStream (s : State) (path : Path) : Bool := s.holder .host == streamCode path

/-- An access to the hoist stream by a path that does not hold it. -/
def State.hoistBusy (s : State) (path : Path) : State := s.claimBusy .host (streamCode path) (s.holder .host) path.code

/-- Bytes of the non-volatile store (R4). -/
def storeSize : Nat := 0x20000000

/-- A read of HOIST_DATA: the 4 bytes at HOIST_SRC, which rises by 4. -/
def State.hoistRead (s : State) : Option (W32 × State) :=
  let a := s.fld64 .host 0x210 0 44
  let nv := s.bit .host 0x214 31
  let ok := if nv then decide (a + 4 ≤ storeSize) else s.corePower && s.inMem a 4
  if !ok then none
  else
    let bs := if nv then s.nvRead a 4 else s.physRead a 4
    let s := (s.putFld .host 0x210 0 32 (natBits (a + 4) 0 32)).putFld .host 0x214 0 12 (natBits (a + 4) 32 12)
    some (BitVec.ofNat 32 (leNat bs), s.tally .host 13 4)

/-- A write of HOIST_DATA: the 4 bytes at HOIST_DEST, which rises by 4. The inactive firmware slot is no longer a verified one. -/
def State.hoistWrite (s : State) (w : W32) : Option State :=
  let a := s.fld64 .host 0x208 0 44
  let nv := s.bit .host 0x20C 31
  let ok := if nv then decide (a + 4 ≤ 0x2000000) else s.corePower && s.inMem a 4
  if !ok then none
  else
    let bs := leBytes 4 w.toNat
    let s := if nv then
        { s with nvBytes := writeBytes s.nvBytes (slotBase (!s.trust.bootSlot) + a) bs, trust := { s.trust with inactiveOk := false } }
      else s.physWrite a bs
    let s := (s.putFld .host 0x208 0 32 (natBits (a + 4) 0 32)).putFld .host 0x20C 0 12 (natBits (a + 4) 32 12)
    some (s.tally .host 13 4)

/-! ## Reading -/

/-- An injection of directory code 1 rejects the access (R605). -/
def State.accessInjected (s : State) (path : Path) : Bool × State :=
  if s.injects .directory 1 && s.injTarget .directory % 8 == path.code then (true, s.injected .directory) else (false, s)

/-- A word of the MSI-X table, or of the pending bits, at an offset of the host page (R464). -/
def State.msixRead (s : State) (off : Nat) : W32 :=
  if off < 0xC00 then cellGet (if off / 4 % 4 = 3 then 1 else 0) (off / 4 - 0x200) s.host.msixTable
  else BitVec.ofNat 32 (bitMask ((List.range 32).filter fun k => cellGet false (8 * (off - 0xC00) + k) s.host.msixPend))

/-- Does BAR0 hold the MSI-X structures at an offset of the host page? -/
def inMsix (path : Path) (p : Page) (off : Nat) : Bool :=
  path == .pcie && p == .host && decide (0x800 ≤ off) && decide (off < 0xC08)

/-- A read of a word of a log page's LOG_RD_DATA: word 0 captures a sample, and the others return it (R549). -/
def State.logRead (s : State) (path : Path) (m : MillId) (k : Nat) : W32 × State :=
  let x := s.path path
  let cap := match m with | .m0 => x.logCap0 | .m1 => x.logCap1
  if k = 0 then
    let ws := s.logWords m
    (ws.getD 0 0, s.onPath path fun x => match m with
      | .m0 => { x with logCap0 := ws }
      | .m1 => { x with logCap1 := ws })
  else ((if cap.isEmpty then s.logWords m else cap).getD k 0, s)

/-- A read of word k of the setting digest, or of a word of DIGEST_GEN (k = 8 and 9): word 0 captures all (R578). -/
def State.digestRead (s : State) (path : Path) (k : Nat) : W32 × State :=
  if k = 0 then (s.digestWords.getD 0 0, s.onPath path fun x => { x with digestCap := s.digestWords })
  else
    let cap := (s.path path).digestCap
    ((if cap.isEmpty then s.digestWords else cap).getD k 0, s)

/-- A read of a word of a live page by its table entry, with the effects of its access codes (R11, R17). -/
def State.readReg (s : State) (path : Path) (p : Page) (off : Nat) (x : WordAt) : W32 × State :=
  let v := s.peek p off
  let at_ := p.base + off
  if x.reg.wide ∧ x.hi = false then (v, s.onPath path fun y => y.capture at_ (s.peek p (off + 4)))
  else if x.reg.wide then
    match (s.path path).caps.find? fun c => c.1 == at_ - 4 with
    | some (_, w) => (w, s.onPath path fun y => { y with caps := y.caps.filter fun c => c.1 != at_ - 4 })
    | none => (v, s)
  else
    let rcs := x.fields.filter (·.acc = .rc)
    (v, s.forAll rcs fun s f => s.putFld p off f.lo f.w 0)

/-- A read of a word through a path: the value returned, and the state after it. -/
def State.readWord (s : State) (path : Path) (off : Nat) : W32 × State :=
  let reject (s : State) (c : AccCause) : W32 × State := (0, s.accessErr path off false 0 c)
  let (inj, s) := s.accessInjected path
  if inj then reject s .unimpl
  else match pageAt off with
    | none => reject s .unimpl
    | some p =>
      let o := off % 0x1000
      if !s.pageLive p then reject s .pageOff
      else if inMsix path p o then (s.msixRead o, s)
      else match wordAt p o with
        | none => reject s .unimpl
        | some x =>
          match p with
          | .host =>
            if o = 0x108 then
              let (lo, hi, s) := s.fifoRead
              (lo, s.onPath path fun y => y.capture off hi)
            else if 0x208 ≤ o ∧ o ≤ 0x218 ∧ !x.reg.flds.isEmpty then
              if !s.holdsStream path then (0, s.hoistBusy path)
              else if o = 0x218 then match s.hoistRead with
                | some r => r
                | none => reject s .value
              else s.readReg path p o x
            else s.readReg path p o x
          | .log m => if 0x160 ≤ o ∧ o < 0x180 then s.logRead path m ((o - 0x160) / 4) else s.readReg path p o x
          | .trust =>
            if 0x120 ≤ o ∧ o < 0x140 then s.digestRead path ((o - 0x120) / 4)
            else if (o = 0x118 ∨ o = 0x11C) ∧ !(s.path path).digestCap.isEmpty then s.digestRead path (8 + (o - 0x118) / 4)
            else s.readReg path p o x
          | _ => s.readReg path p o x

/-- A path returns a value. -/
def State.reply (s : State) (path : Path) (v : W64) : State := s.onPath path fun x => { x with reply := v }

/-- Can a path carry an access: an open BAR0, a chain out of reset, a miller's system context out of reset? -/
def State.pathOpen (s : State) : Path → Bool
  | .pcie => s.barOpen
  | .chain => decide (3 ≤ s.supply.stage)
  | .sys0 => s.pageLive (.ikiug .m0)
  | .sys1 => s.pageLive (.ikiug .m1)

/-- A read of register space through a path, `width` bits wide (R11, R12, R14): what it returns stands in the path's reply. A read of
CHUTE_IN_DONE over the link waits for the chute words before it (R469). -/
def State.regRead (s : State) (path : Path) (off width : Nat) : State :=
  if !s.pathOpen path then s
  else
    let s := if path = .pcie then s.tally .host 4 1 else s
    let reject (s : State) (c : AccCause) : State := (s.accessErr path off false 0 c).reply path 0
    if off % 4 ≠ 0 then reject s .align
    else if width ≠ 32 ∧ width ≠ 64 then reject s .width
    else if path = .pcie ∧ off = 0x1190 ∧ !s.host.chuteBuf.isEmpty then
      s.onHost fun h => { h with doneWait := some (h.chuteBuf.length, width == 64) }
    else
      let (lo, s) := s.readWord path off
      if width = 32 then s.reply path (lo.zeroExtend 64)
      else
        let (hi, s) := s.readWord path (off + 4)
        s.reply path (mkWord64 hi lo)

end Sys2Proof.Machine
end

