-- ==== Sys2Proof/Machine/RegWrite.lean ====
section
/-! DEFINITION. Writing a register (chapters 00 and 17): the checks of an access, fields and their ranges, the common header, claims
and injections, and what the write of each page's registers does. -/

namespace Sys2Proof.Machine

/-! ## Claims (R600 to R603) -/

/-- May a path acquire a code of a page's resource (R602)? -/
def mayAcquire (p : Page) (code : Nat) (path : Path) : Bool :=
  match p with
  | .timer _ _ =>
    match code with
    | 1 => false
    | 2 => path == .sys0 || path == .sys1
    | 4 => path == .pcie
    | _ => true
  | .host => streamCode path == code
  | _ => true

/-- The hardware clears a behavioural bit that is set (R603): it counts as a write. -/
def State.dropBit (s : State) (p : Page) (off i : Nat) : State :=
  if s.pageLive p && s.bit p off i then (s.putFld p off i 1 0).setGen p else s

/-- What a release does before HOLDER reads 0 (R603). -/
def State.releaseEffect (s : State) (p : Page) (code : Nat) : State :=
  match p with
  | .clock => if code = 1 then s.putFld .clock 0x10C 0 4 0 else (s.dropBit (.log .m0) 0x100 8).dropBit (.log .m1) 0x100 8
  | .granary m => if code = 2 then s.dropBit (.log m) 0x100 7 else s
  | .timer m n =>
    let s := (s.setTimer m n.val none).putFld p 0x100 0 31 0
    if code = 1 then s.dropBit .pond 0x100 0 else s
  | _ => s

/-- A release of a page's resource by the code that holds it. -/
def State.releaseClaim (s : State) (p : Page) (code : Nat) : State :=
  ((s.releaseEffect p code).putFld p 0x02C 8 4 0).tally .directory 3 1

/-- A write of CLAIM (R600, R601). -/
def State.writeClaim (s : State) (path : Path) (p : Page) (w : W32) : State :=
  let err (s : State) (c : AccCause) : State := s.accessErr path (p.base + 0x02C) true w c
  let code := bitsOf w 0 4
  let s := if p.claimCodes ≠ 0 ∧ (bitsOf w 6 2 ≠ 0 ∨ bitOf w 15 = true ∨ bitsOf w 20 12 ≠ 0) then err s .reserved else s
  if code = 0 ∨ p.claimCodes < code ∨ bitOf w 4 = bitOf w 5 then err s .claim
  else if bitOf w 5 then if s.holder p = code then s.releaseClaim p code else err s .claim
  else if !mayAcquire p code path then err s .path
  else (s.claim p code path.code).2

/-! ## Events and injections (R555, R557, R591, R593) -/

/-- A write of EVT_EN: non-maskable bits stay 1, bits that no event names are discarded (R21, R591). -/
def State.writeEvtEn (s : State) (path : Path) (p : Page) (w : W32) : State :=
  let named := p.eventMask
  let s := if named = 0 ∨ w.toNat &&& named ≠ w.toNat then s.accessErr path (p.base + 0x014) true w .unimpl else s
  if named = 0 then s
  else
    let old := s.word p 0x014
    ((s.setWord p 0x014 (BitVec.ofNat 32 ((w.toNat &&& named) ||| p.nmiMask))).setGen p).stored p 0x014 old

/-- A write of EVT_CLR. A bit that the same access sets stays set (R17, R18): the clear comes before the error it raises. -/
def State.writeEvtClr (s : State) (path : Path) (p : Page) (w : W32) : State :=
  let named := p.eventMask
  let s := s.setWord p 0x010 (s.word p 0x010 &&& ~~~w)
  if named = 0 ∨ w.toNat &&& named ≠ w.toNat then s.accessErr path (p.base + 0x01C) true w .unimpl else s

/-- A write of INJ_CTL (R557). The word kept is the one written (R576). -/
def State.writeInjCtl (s : State) (path : Path) (p : Page) (w : W32) : State :=
  let err (s : State) (c : AccCause) : State := s.accessErr path (p.base + 0x024) true w c
  let code := s.injCode p
  if bitOf w 0 ∧ (s.injArmed p ∨ code = 0 ∨ p.injections < code) then err s .value
  else
    let n := if bitsOf w 4 8 = 0 then s.fld p 0x024 4 8 else bitsOf w 4 8
    let s := if bitOf w 3 ∨ bitsOf w 12 4 ≠ 0 then err s .reserved else if bitsOf w 4 8 = 0 then err s .value else s
    let s := (s.setWord p 0x024 (BitVec.ofNat 32 (bitsOf w 0 2 + 16 * n + 65536 * bitsOf w 16 16))).setGen p
    let s := if bitOf w 0 then { s with inj := s.inj ++ [{ entry := p.entry, left := n, timed := false }] } else s
    if bitOf w 1 then { s with inj := s.inj.filter fun i => i.entry != p.entry } else s

/-! ## Fields (R15, R17, R635) -/

/-- What the fields of a word become: the word, whether a behavioural field was stored, whether a field was discarded. -/
structure FieldOut where
  word : Nat
  beh  : Bool
  bad  : Bool

/-- Stores the read-write fields of a word, but for those whose value is out of range or refused. -/
def storeFields (flds : List Fld) (refused : Fld → Bool) (old new : Nat) : FieldOut :=
  flds.foldl (fun a f =>
    if f.acc ≠ .rw then a
    else
      let x := natBits new f.lo f.w
      if x < f.min ∨ f.max < x ∨ refused f = true then { a with bad := true }
      else { a with word := a.word - natBits a.word f.lo f.w * 2 ^ f.lo + x * 2 ^ f.lo, beh := a.beh || f.beh })
    { word := old, beh := false, bad := false }

/-- Does a CLKOUT selection stand (R522)? -/
def clkSelOk (src index n : Nat) : Bool :=
  decide (n ≤ 20) &&
    match src with
    | 0 => true
    | 1 => true
    | 2 => decide (3 ≤ n)
    | 3 => decide (4 ≤ n) && decide (index < 2)
    | 4 => decide (3 ≤ n) && decide (index < 20)
    | 5 => decide (3 ≤ n) && decide (index < 16)
    | 6 => decide (4 ≤ n) && decide (index < 48)
    | 7 => decide (3 ≤ n) && decide (index < 2)
    | 8 => decide (1 ≤ n)
    | _ => false

/-- A field's value after a write, by its range alone. -/
def pick (x lo hi old : Nat) : Nat := if lo ≤ x ∧ x ≤ hi then x else old

/-- An assembly of a mill is open, or a command pending (R496). -/
def State.cmdBusy (s : State) (m : MillId) : Bool :=
  let c := (s.mill m).cmd
  !c.queue.isEmpty || !c.held.isEmpty || c.asmPcie.code == 1 || c.asmChain.code == 1 || c.asmSys0.code == 1 || c.asmSys1.code == 1

/-- The area of a log that a base and units, in 2 MiB, name lies in memory (R562). -/
def State.areaIn (s : State) (base units : Nat) : Bool := s.inMem (pageSize * base) (pageSize * units)

/-- The fields that a rule discards beyond their own range: for the register at `off`, holding `old`, of the value `new` (R635). -/
def State.refuses (s : State) (p : Page) (off old new : Nat) : Fld → Bool :=
  let all (b : Bool) : Fld → Bool := fun _ => b
  if off = 0x020 then fun f =>
    let code := natBits new 0 8
    f.lo == 8 && decide (0 < code) && decide (code ≤ p.injections) && decide (2 ^ p.targetWidth code ≤ natBits new 8 24)
  else match p with
  | .host => if off = 0x180 then all (new % 4 != 0 || !s.inMem (natBits new 0 44) 4) else all false
  | .clock => if off = 0x10C then all (!clkSelOk (natBits new 0 4) (natBits new 4 6) (natBits new 10 5)) else all false
  | .trust => if off = 0x160 then all (!s.inMem (natBits new 6 38 * 64) 8024) else all false
  | .leat =>
    if off = 0x104 then
      let ds := (List.range 4).map fun d => natBits new (5 * d) 5
      all (ds.any (fun d => d == 0 || decide (16 < d)) || decide (49152 < ds.foldl (· * ·) 1))
    else all false
  | .pond =>
    if off = 0x150 then
      let lo := pick (natBits new 0 16) 1 65535 (natBits old 0 16)
      all (decide (natBits new 16 16 < lo))
    else all false
  | .command m => if off = 0x104 then all (s.cmdBusy m) else all false
  | .power _ =>
    if off = 0x104 then
      let lo := pick (natBits new 0 8) 0 100 (natBits old 0 8)
      let hi := pick (natBits new 8 8) 0 100 (natBits old 8 8)
      all (decide (hi < lo))
    else all false
  | .sluice m => if off = 0x108 then all ((s.mill m).sluice.queues.any fun q => !q.xfers.isEmpty) else all false
  | .floor _ n => if n = 0 ∧ 0x184 ≤ off ∧ off < 0x200 then all (!streamWordOk (natBits new 0 3 + 16 * natBits new 4 4)) else all false
  | .log m =>
    match off with
    | 0x120 => all (!s.areaIn (natBits new 21 23) (s.fld (.log m) 0x128 0 8))
    | 0x128 => all (!s.areaIn (s.fld64 (.log m) 0x120 21 23) (natBits new 0 8))
    | 0x180 => all (!s.areaIn (natBits new 21 23) (s.fld (.log m) 0x188 0 8))
    | 0x188 => all (!s.areaIn (s.fld64 (.log m) 0x180 21 23) (natBits new 0 8))
    | _ => all false
  | .leatPort m n =>
    if off = 0x100 then fun f => f.lo == 0 && natBits new 0 1 == 1 && s.unitOut (7, 12 * m.num + n.val) else all false
  | _ => all false

/-! ## What a write does beside storing -/

/-- Does a unit of R423 exist? A stone row is 512 × stone + physical row. -/
def unitExists (kind index : Nat) : Bool :=
  match kind with
  | 1 => decide (index < 48)
  | 2 => decide (index / 512 < 48) && decide (index % 512 < 261)
  | 3 => decide (index < 24)
  | 4 => decide (index < 2)
  | 5 => decide (index < 20)
  | 6 => decide (index < 16)
  | 7 => decide (index < 24)
  | 8 => decide (index < 2)
  | 9 => decide (index < 28)
  | 10 => decide (index < 2)
  | 11 => index == 0
  | _ => false

/-- A write of RETIRE_CTL (R430): whether it is accepted. -/
def State.retireCtl (s : State) (w : W32) : Bool × State :=
  let kind := bitsOf w 0 4
  let index := bitsOf w 4 16
  match bitOf w 20, bitOf w 21 with
  | false, false => (true, s)
  | true, true => (false, s)
  | true, false => if unitExists kind index then (true, s.retireByClass (kind, index)) else (false, s)
  | false, true =>
    if unitExists kind index then (true, { s with nv := { s.nv with retired := s.nv.retired.filter (· != (kind, index)) } }) else (false, s)

/-- A write of LOG_CTL (R543 to R545): whether each of its actions was accepted. -/
def State.logCtl (s : State) (m : MillId) (w : W32) : Bool × State :=
  let (a, s) := if bitOf w 0 then s.logArm m else (true, s)
  let s := if bitOf w 1 then s.logTrigNow m else s
  let (b, s) := if bitOf w 2 then s.logRun m else (true, s)
  (a && b, s)

/-- A write of POND_CTL (R440, R449, R450, R452). -/
def State.pondCtl (s : State) (w : W32) : State :=
  let slot := bitOf w 5
  let s := if bitOf w 0 then s.pondTake else s
  let s := if bitOf w 1 then s.pondAbort else s
  let s := if bitOf w 2 then s.pondExported slot else s
  let s := if bitOf w 3 then s.pondRestore slot (bitOf w 6) else s
  if bitOf w 4 then s.pondReceive slot else s

/-- Is an FP32 value below 1.0e−9, the least λ (R458)? -/
def belowLambda (w : W32) : Bool := (f32 w).isNan || Num.lt (f32 w) (f32 lambdaMin)

/-- What follows a write of the block-specific register at `off` of a page: its actions, in ascending order of bit. `w` is the word
written last and `v` the register's value as written. -/
def State.act (s : State) (path : Path) (p : Page) (off : Nat) (w : W32) (v : W64) : State :=
  let err (s : State) (c : AccCause) : State := s.accessErr path (p.base + off) true w c
  let ok (r : Bool × State) : State := if r.1 then r.2 else err r.2 .value
  match p with
  | .host =>
    match off with
    | 0x180 =>
      if (s.word64 .host 0x180).toNat = natBits v.toNat 0 44 then s.onHost fun h => { h with chuteDone := 0, overrun := false } else s
    | 0x1C0 => let r := s.chuteOutCtl w; ok (!r.1, r.2)
    | _ => s
  | .supply =>
    match off with
    | 0x10C => s.supplyCtl path w
    | 0x114 => { s with nv := { s.nv with autoPower := s.bit .supply 0x114 0, chainWait := s.fld .supply 0x114 1 16 } }
    | _ => s
  | .command m =>
    match off with
    | 0x10C => s.cmdAbort m w
    | 0x110 =>
      let s := if bitOf w 0 then s.cmdFlush m else s
      if bitOf w 1 then s.resetAsm path m else s
    | _ => if 0x800 ≤ off then s.cmdWordWrite path m w else s
  | .power m => if off = 0x118 then s.millerResetWrite path m w else s
  | .timer m n => if off = 0x100 then s.setTimer m n.val (s.period m n) else s
  | .stone m n => if off = 0x110 then s.repairCtl m n (bitOf w 0) (bitOf w 1) else s
  | .bolter m => if off = 0x150 ∧ bitOf w 0 = true then ok (s.boltResumeWrite m) else s
  | .ledger m => if off = 0x180 ∧ bitOf w 0 = true then s.ledgerFlush m else s
  | .sluice m =>
    match off with
    | 0x110 => ok (s.sluResume m (bitsOf w 0 4) (bitOf w 8) (bitOf w 9))
    | 0x118 =>
      let s := if bitOf w 0 then s.tlbInval m none else s
      if bitOf w 1 then s.tlbInval m (some (s.fld64 (.sluice m) 0x120 0 48 / pageSize)) else s
    | _ => s
  | .leat =>
    match off with
    | 0x110 =>
      let s := if bitOf w 12 then s.groupLoad (bitsOf w 0 12) else s
      if bitOf w 13 then s.groupDrop (bitsOf w 0 12) else s
    | 0x130 => ok (s.timeSetWrite v)
    | _ => s
  | .leatPort m n =>
    if off = 0x100 then
      let i := 12 * m.num + n.val
      let s := s.portEnable i
      if bitOf w 3 then s.retrainPort i else s
    else s
  | .history => if off = 0x420 then ok (s.retireCtl w) else s
  | .pond =>
    match off with
    | 0x104 => s.pondCtl w
    | 0x154 => s.pondFailAdd (bitsOf w 0 8)
    | _ => s
  | .log m => if off = 0x118 then ok (s.logCtl m w) else s
  | .watch m =>
    if off = 0x900 then s.forAll (List.range 16) fun s n => if bitOf w n then s.watchClose m n else s
    else
      let n := (off - 0x100) / 0x80
      if off = watchOff n ∧ bitOf w 12 = true ∧ (s.watchPoint m n).openW = false then s.watchOpen m n else s
  | .trust =>
    match off with
    | 0x108 => s.trustCtl path w
    | 0x320 => s.measCtl path w
    | _ => s
  | _ => s

/-! ## Writing a register -/

/-- The claimant code that a path writes a timer with (R504, R602). -/
def timerCode : Path → Nat
  | .pcie => 4
  | .chain => 3
  | .sys0 => 2
  | .sys1 => 2

/-- Does a path's claimant hold a timer? -/
def State.holdsTimer (s : State) (p : Page) (path : Path) : Bool :=
  match s.holder p with
  | 2 => path == .sys0 || path == .sys1
  | 3 => s.fld p 0x02C 12 3 == path.code
  | 4 => path == .pcie
  | _ => false

/-- A write that needs a claim that the path does not hold is discarded and raises CLAIM_BUSY (R495, R504, R521): the code refused. -/
def State.needsClaim (s : State) (path : Path) (p : Page) (off : Nat) : Option Nat :=
  match p with
  | .host => if 0x208 ≤ off ∧ off ≤ 0x218 ∧ !s.holdsStream path then some (streamCode path) else none
  | .clock => if off = 0x10C ∧ !(s.holder .clock == 1 && s.fld .clock 0x02C 12 3 == path.code) then some 1 else none
  | .timer _ _ => if off = 0x100 ∧ !s.holdsTimer p path then some (timerCode path) else none
  | _ => none

/-- A word written to a register that no plain store holds: HOIST_DATA, ROUTE_DATA, POND_LAMBDA. -/
def State.writeCustom (s : State) (path : Path) (p : Page) (off : Nat) (w : W32) : Option State :=
  match p with
  | .host =>
    if off = 0x218 then some (match s.hoistWrite w with
      | some s => s
      | none => s.accessErr path (p.base + off) true w .value)
    else none
  | .leat =>
    if off = 0x11C then
      let s := if bitsOf w 18 14 = 0 then s else s.accessErr path (p.base + off) true w .reserved
      some (s.routeWrite (BitVec.ofNat 32 (bitsOf w 0 18)))
    else none
  | .pond =>
    if off = 0x148 then some { s with nv := { s.nv with lambda := if belowLambda w then lambdaMin else w } } else none
  | _ => none

/-- A write of a block-specific register: `w` is the word written and `v` the register's whole new value, which a 64-bit register takes
with its high word (R13). -/
def State.writeBlock (s : State) (path : Path) (p : Page) (off : Nat) (x : WordAt) (w : W32) (v : W64) : State :=
  match s.writeCustom path p off w with
  | some s => s
  | none =>
    let flds := x.reg.flds
    let old := if x.reg.wide then (s.word64 p off).toNat else (s.word p off).toNat
    let out := storeFields flds (s.refuses p off old v.toNat) old v.toNat
    let err (s : State) (c : AccCause) : State := s.accessErr path (p.base + off + 4 * boolNat x.reg.wide) true w c
    let spare := v.toNat &&& fieldsMask flds (fun _ => true) != v.toNat
    let s := if spare then err s .reserved else if out.bad then err s .value else s
    let was := s.word p off
    let s :=
      if x.reg.wide then s.setWord64 p off (BitVec.ofNat 64 out.word)
      else
        let (g, s) := s.gated path.code p off (BitVec.ofNat 32 out.word)
        s.setWord p off g
    let s := if out.beh then s.setGen p else s
    (s.stored p off was).act path p off w v

/-- A write of a word of a live page by its table entry (R15, R17, R592, R634). -/
def State.writeReg (s : State) (path : Path) (p : Page) (off : Nat) (x : WordAt) (w : W32) : State :=
  let at_ := p.base + off
  let err (c : AccCause) : State := s.accessErr path at_ true w c
  let fs := x.fields
  let sys := path == .sys0 || path == .sys1
  let base := if x.hi then off - 4 else off
  if 0x040 ≤ off ∧ off < 0x0C0 then err (if (off - 0x40) / 8 < p.tallies then .readOnly else .unimpl)
  else if off = 0x02C ∧ p.claimCodes = 0 then err .claim
  else if fs.isEmpty then (if w = 0 then s else err .reserved)
  else if fs.all (fun f => f.acc == .ro || f.acc == .rc) then err .readOnly
  else if off = 0x008 ∧ !sys then err .path
  else match s.needsClaim path p base with
    | some code => s.claimBusy p code (s.holder p) path.code
    | none =>
      if x.reg.wide ∧ x.hi = false then s.onPath path fun y => { y with wrLow := cellSet 0 at_ w y.wrLow }
      else if s.bit p 0x008 0 ∧ !sys ∧ x.reg.flds.any (fun f => f.acc == .rw && f.beh) = true then err .path
      else match off with
        | 0x014 => s.writeEvtEn path p w
        | 0x01C => s.writeEvtClr path p w
        | 0x020 => if s.injArmed p then err .value else s.writeBlock path p off x w (w.zeroExtend 64)
        | 0x024 => s.writeInjCtl path p w
        | 0x02C => s.writeClaim path p w
        | _ =>
          let v := if x.reg.wide then mkWord64 w (cellGet 0 (at_ - 4) (s.path path).wrLow) else w.zeroExtend 64
          s.writeBlock path p base x w v

/-- A write of an MSI-X table word, which may unmask a vector that is pending; the pending bits are read-only. -/
def State.msixWrite (s : State) (off : Nat) (w : W32) : State :=
  if 0xC00 ≤ off then s
  else
    let i := off / 4 - 0x200
    let s := s.onHost fun h => { h with msixTable := cellSet (if i % 4 = 3 then 1 else 0) i w h.msixTable }
    let v := i / 4
    if cellGet false v s.host.msixPend && !s.host.masked v then
      (s.onHost fun h => { h with msixPend := cellSet false v false h.msixPend }).sendMsix v
    else s

/-- A write of a word through a path. -/
def State.writeWord (s : State) (path : Path) (off : Nat) (w : W32) : State :=
  let (inj, s) := s.accessInjected path
  let err (c : AccCause) : State := s.accessErr path off true w c
  if inj then err .unimpl
  else match pageAt off with
    | none => err .unimpl
    | some p =>
      let o := off % 0x1000
      if !s.pageLive p then err .pageOff
      else if inMsix path p o then s.msixWrite o w
      else match wordAt p o with
        | none => err .unimpl
        | some x => s.writeReg path p o x w

/-- A write of register space through a path, `width` bits wide (R11, R14). -/
def State.regWrite (s : State) (path : Path) (off width : Nat) (v : W64) : State :=
  if !s.pathOpen path then s
  else
    let s := if path = .pcie then s.tally .host 5 1 else s
    if off % 4 ≠ 0 then s.accessErr path off true (loWord v) .align
    else if width = 64 then (s.writeWord path off (loWord v)).writeWord path (off + 4) (hiWord v)
    else if width = 32 then s.writeWord path off (loWord v)
    else s.accessErr path off true (loWord v) .width

end Sys2Proof.Machine
end

