-- ==== Sys2Proof/Machine/Chain.lean ====
section
/-! DEFINITION. The hoist chain (R488 to R493): frames, the bypass, and what a module does with each frame. -/

namespace Sys2Proof.Machine

/-! ## Frames (R489) -/

/-- The fields of a frame. -/
structure ChainFrame where
  op     : BitVec 4
  addr   : BitVec 12
  tag    : Byte
  offset : BitVec 28
  spare  : BitVec 4
  data   : W32
  status : Byte
  hops   : BitVec 12
  crc    : BitVec 16
deriving DecidableEq, Repr

/-- The 124 bits of a frame. -/
def ChainFrame.bits (f : ChainFrame) : BitVec 124 :=
  f.crc ++ (f.hops ++ (f.status ++ (f.data ++ (f.spare ++ (f.offset ++ (f.tag ++ (f.addr ++ f.op)))))))

/-- The fields of 124 bits. -/
def parseChain (b : BitVec 124) : ChainFrame :=
  { op := b.extractLsb' 0 4, addr := b.extractLsb' 4 12, tag := b.extractLsb' 16 8, offset := b.extractLsb' 24 28,
    spare := b.extractLsb' 52 4, data := b.extractLsb' 56 32, status := b.extractLsb' 88 8, hops := b.extractLsb' 96 12,
    crc := b.extractLsb' 108 16 }

/-- The CRC of a frame's bits [107:0], in the order sent. -/
def chainCrc (b : BitVec 124) : BitVec 16 := BitVec.ofNat 16 (crc16 ((List.range 108).map fun i => bitOf b i))

/-- A frame as a module sends it on: HOPS one higher, held at 4,095, and the CRC computed again. -/
def ChainFrame.onward (f : ChainFrame) : ChainFrame :=
  let f := { f with hops := if f.hops = 0xFFF then f.hops else f.hops + 1 }
  { f with crc := chainCrc f.bits }

/-! ## Frames at a module (R490, R491) -/

def State.onHoist (s : State) (f : Chain → Chain) : State := { s with hoist := f s.hoist }

/-- A frame leaves the module. -/
def State.forward (s : State) (f : ChainFrame) : State := s.onHoist fun h => { h with out := some f.onward.bits }

/-- A tally of the host page, once it has left reset. -/
def State.hostTally (s : State) (k : Nat) : State := if s.pageLive .host then s.tally .host k 1 else s

/-- A frame has been handled: it leaves with a STATUS. -/
def State.answer (s : State) (f : ChainFrame) (status : Byte) : State := (s.hostTally 10).forward { f with status := status }

/-- Is a frame addressed to this module, or to every module? -/
def State.addressed (s : State) (f : ChainFrame) : Bool := f.addr == 0 || f.addr == s.hoist.addr

/-- READ: a read starts and is held under its tag. -/
def State.chainRead (s : State) (f : ChainFrame) : State :=
  if !s.addressed f then s.forward f
  else if f.addr = 0 then s.answer f 0x05
  else if 16 ≤ s.hoist.reads.length ∨ s.hoist.reads.any (fun r => r.tag == f.tag.toNat) = true then s.answer f 0x04
  else
    (s.onHoist fun h => { h with reads := h.reads ++ [{ tag := f.tag.toNat, offset := f.offset.toNat, done := false, data := 0 }] }).answer
      f 0x01

/-- WRITE: a register write. -/
def State.chainWrite (s : State) (f : ChainFrame) : State :=
  if !s.addressed f then s.forward f
  else (s.regWrite .chain f.offset.toNat 32 (f.data.zeroExtend 64)).answer f 0x01

/-- RESULT: the read held under a tag is returned, and the tag freed. A tag that holds no read is taken by no module. -/
def State.chainResult (s : State) (f : ChainFrame) : State :=
  if !s.addressed f then s.forward f
  else match s.hoist.reads.find? fun r => r.tag == f.tag.toNat with
    | none => s.forward f
    | some r =>
      if r.done then
        (s.onHoist fun h => { h with reads := h.reads.filter fun r => r.tag != f.tag.toNat }).answer { f with data := r.data } 0x02
      else (s.hostTally 12).answer f 0x03

/-- ENUMERATE: the module without an address that has ENUM_IN asserted takes the address. -/
def State.chainEnumerate (s : State) (f : ChainFrame) : State :=
  if f.addr ≠ 0xFFF ∨ s.hoist.addr ≠ 0xFFF ∨ s.hoist.enumIn = false then s.forward f
  else if f.data = 0 ∨ 4094 < f.data.toNat then s.answer f 0x05
  else
    let s := (s.onHoist fun h => { h with addr := BitVec.ofNat 12 f.data.toNat, enumOut := true }).raise .host 7
    s.answer f 0x01

/-- FORGET: every module clears its address and releases ENUM_OUT. -/
def State.chainForget (s : State) (f : ChainFrame) : State :=
  if f.addr ≠ 0 then s.forward f
  else (s.onHoist fun h => { h with addr := 0xFFF, enumOut := false }).answer f 0x01

/-- POLL: a module with ALERT_N asserted leaves the lower of DATA and its address. -/
def State.chainPoll (s : State) (f : ChainFrame) : State :=
  if f.addr ≠ 0 then s.forward f
  else
    let d := if s.alert then BitVec.ofNat 32 (min f.data.toNat s.hoist.addr.toNat) else f.data
    s.answer { f with data := d } f.status

/-- A frame arrives: a module whose bypass is closed lets it pass; a CRC mismatch is marked and acted on by nothing; a frame that
arrives marked, one of another operation, or one to no module here, is sent on. -/
def State.chainFrame (s : State) (op : BitVec 4) (b : BitVec 124) (act : State → ChainFrame → State) : State :=
  if s.hoist.bypass then s.onHoist fun h => { h with out := some b }
  else
    let f := parseChain b
    let (inj, s) := s.takeInj .host 1
    if inj ∨ f.crc ≠ chainCrc b then
      ((s.hostTally 11).raise .host 4).forward { f with status := 0xFE }
    else if f.status = 0xFE ∨ f.op ≠ op then s.forward f
    else act s f

/-- READ. -/
def execRead (frame : BitVec 124) (s : State) : Host.Outcome State Fault Refusal := .next (s.chainFrame 1 frame State.chainRead)
/-- WRITE. -/
def execWrite (frame : BitVec 124) (s : State) : Host.Outcome State Fault Refusal := .next (s.chainFrame 2 frame State.chainWrite)
/-- RESULT. -/
def execResult (frame : BitVec 124) (s : State) : Host.Outcome State Fault Refusal := .next (s.chainFrame 3 frame State.chainResult)
/-- ENUMERATE, with the level of ENUM_IN. -/
def execEnumerate (frame : BitVec 124) (enumIn : Bool) (s : State) : Host.Outcome State Fault Refusal :=
  .next ((s.onHoist fun h => { h with enumIn := enumIn }).chainFrame 4 frame State.chainEnumerate)
/-- FORGET. -/
def execForget (frame : BitVec 124) (s : State) : Host.Outcome State Fault Refusal := .next (s.chainFrame 5 frame State.chainForget)
/-- POLL. -/
def execPoll (frame : BitVec 124) (s : State) : Host.Outcome State Fault Refusal := .next (s.chainFrame 6 frame State.chainPoll)

/-- CHAIN_READ_DONE: the read of a tag completes, with its effects. -/
def chainReadDone (tag : Byte) (s : State) : State :=
  match s.hoist.reads.find? fun r => r.tag == tag.toNat && !r.done with
  | none => s
  | some r =>
    let s := s.regRead .chain r.offset 32
    let w := if s.pathOpen .chain then loWord (s.path .chain).reply else 0
    s.onHoist fun h => { h with reads := h.reads.map fun x => if x.tag = r.tag then { x with done := true, data := w } else x }

/-- CHAIN_READ_DONE. -/
def execChainReadDone (tag : Byte) (s : State) : Host.Outcome State Fault Refusal := .next (chainReadDone tag s)

/-- CHAIN_BYPASS_OPEN: the always-on island starts (R492). -/
def chainBypassOpen (s : State) : State :=
  if s.supply.stage < 2 then s else s.onHoist fun h => { h with bypass := false }

/-- CHAIN_BYPASS_OPEN. -/
def execChainBypassOpen (s : State) : Host.Outcome State Fault Refusal := .next (chainBypassOpen s)

end Sys2Proof.Machine
end

