-- ==== Sys2Proof/Machine/Flits.lean ====
section
/-! DEFINITION. Flits from link to link of the floor (R328 to R336): the slots of a frame, streams and best-effort traffic, and the
crossing of the shaft (R36). -/

namespace Sys2Proof.Machine

/-! ## What waits for a link -/

/-- The stream whose slots carry a flit on the floor of mill `m` (R331, R336): that which binds its source, on the mill that moves it; 0 for
best-effort traffic. -/
def State.flitStream (s : State) (m : MillId) (f : FloorFlit) : Nat :=
  if f.home = m ∧ f.kind ≠ 0 then ((s.mill m).floor.boundStream f.kind f.index).getD 0 else 0

/-- The flits that a link of mill `m` carries next, in the order in which they reached its node. -/
def State.linkFlits (s : State) (m : MillId) (link : Nat) : List FloorFlit := (s.mill m).floor.flits.filter fun f => f.next m == some link

/-- The flit of a stream that a link carries next. -/
def State.streamFlit (s : State) (m : MillId) (link stream : Nat) : Option FloorFlit :=
  (s.linkFlits m link).find? fun f => s.flitStream m f == stream

/-- The best-effort flit that a link carries next (R333): each input of the node is first in, first out, and the inputs are served in
rotation after the one served last. -/
def State.bestEffort (s : State) (m : MillId) (link : Nat) : Option FloorFlit :=
  let node := (link / 4 % 8, link / 32)
  let head (i : Nat) : Option FloorFlit := (s.mill m).floor.flits.find? fun f => f.node == node && f.input == i && s.flitStream m f == 0
  let last := cellGet 0 (link / 4) (s.mill m).floor.served
  (List.range 6).findSome? fun k => (head ((last + 1 + k) % 6)).filter fun f => f.next m == some link

/-! ## The slots of a link (R330, R332, R334) -/

/-- The node that a link leaves and the one that it leads to. -/
def linkEnds (link : Nat) : List (Nat × Nat) :=
  let node := (link / 4 % 8, link / 32)
  [node, neighbour node (link % 4)]

/-- While a memory port of a node retrains, slot 63 of the node's links carries calibration traffic alone (R334). -/
def State.calibrates (s : State) (m : MillId) (link : Nat) : Bool :=
  (s.mill m).floor.cal.any fun p => p.mill == m && (linkEnds link).contains (portNode p)

/-- What a slot position carries. -/
inductive SlotUse where
  | empty | calibration
  | slotted (f : FloorFlit)
  | bestEffort (lent : Bool) (f : FloorFlit)
deriving DecidableEq, Repr

def State.slotUse (s : State) (m : MillId) (link k : Nat) : SlotUse :=
  let free (lent : Bool) : SlotUse := match s.bestEffort m link with
    | some f => .bestEffort lent f
    | none => .empty
  if k = 63 ∧ s.calibrates m link then .calibration
  else
    let st := (s.mill m).floor.slot link k
    if st = 0 ∨ k = 63 then free false
    else match s.streamFlit m link st with
      | some f => .slotted f
      | none => free true

/-- The positions that pass before the next flit of a link, from the one it stands at. -/
def State.passedSlots (s : State) (m : MillId) (link : Nat) : List Nat :=
  let at0 := cellGet 0 link (s.mill m).floor.slotPos
  ((List.range 64).map fun i => (at0 + i) % 64).takeWhile fun k => match s.slotUse m link k with
    | .empty => true
    | .calibration => true
    | _ => false

/-! ## A hop -/

/-- The first flit that must cross the link and whose stream holds no slot on it (R336), or that an injection makes so (R355, code 1). -/
def State.slotMissing (s : State) (m : MillId) (link : Nat) : Option (FloorFlit × Nat × Bool × State) :=
  let p : Page := .floor m 0
  (s.linkFlits m link).findSome? fun f =>
    let st := s.flitStream m f
    if st = 0 then none
    else
      let (inj, s') := s.takeInjAt p 1 st
      if inj then some (f, st, true, s') else if (s.mill m).floor.holdsSlot st link then none else some (f, st, false, s)

/-- A flit leaves the node where it stands. -/
def State.takeFlit (s : State) (m : MillId) (f : FloorFlit) : State := s.onFloor m fun x => { x with flits := x.flits.erase f }

/-- A flit crosses a link to the neighbouring node. -/
def State.crossLink (s : State) (m : MillId) (link : Nat) (f : FloorFlit) : State :=
  let d := link % 4
  let back := if d % 2 = 0 then d + 1 else d - 1
  (s.takeFlit m f).flitAt m { f with node := neighbour f.node d, input := 1 + back }

/-- The slot positions that pass with a flit at position `k` and none at those before it (R354). -/
def State.passSlots (s : State) (m : MillId) (link k : Nat) : State :=
  let p : Page := .floor m 0
  let gone := s.passedSlots m link
  let cal := (gone.filter fun i => s.slotUse m link i == .calibration).length
  let s := ((s.tally p 4 (gone.length - cal)).tally p 10 cal).tally p 0 1
  s.onFloor m fun x => { x with slotPos := cellSet 0 link ((k + 1) % 64) x.slotPos }

/-- The first position that a flit of the link may use carries it: a stream's flit in the stream's slot, best-effort traffic in a free or
lent one. Where none may, no position passes. -/
def State.linkHop (s : State) (m : MillId) (link : Nat) : State :=
  let p : Page := .floor m 0
  let at0 := cellGet 0 link (s.mill m).floor.slotPos
  let k := (at0 + (s.passedSlots m link).length) % 64
  match s.slotUse m link k with
  | .slotted f => ((s.passSlots m link k).tally p 1 1).crossLink m link f
  | .bestEffort lent f =>
    let s := ((s.passSlots m link k).tally p 2 1).tally p 3 (boolNat lent)
    (s.onFloor m fun x => { x with served := cellSet 0 (link / 4) f.input x.served }).crossLink m link f
  | _ => s

/-- What waits first for the shaft crosses it, from the shaft port of `node`: a data flit to the facing port of the other mill. A race column
that is ready to cross has precedence (R36). -/
def State.shaftHop (s : State) (m : MillId) (node : Nat × Nat) : State :=
  match (s.mill m).shaft with
  | .flit f :: rest =>
    if s.raceCrossing m || f.node != node then s
    else
      let port := f.node.2 - 2
      let s := (s.onMill m fun x => { x with shaft := rest }).tally (.floor m 0) 11 1
      s.flitAt m.other { f with node := shaftNode (1 - port), input := 5 }
  | _ => s

/-- The next flit of link `l` crosses it. A stream's flit that must cross a link on which its stream holds no slot is SLOT_MISSING, and goes
no further. -/
def State.flitHop (s : State) (m : MillId) (l : Nat) : State :=
  match s.slotMissing m l with
  | some (f, st, inj, s) =>
    (s.takeFlit m f).floorFault m 1 (BitVec.ofNat 64 (l + 2 ^ 16 * st)) f.addr f.pc f.slot f.system inj
  | none => s.linkHop m l

/-- FLOOR_FLIT_HOP: the next flit of a link of node (x, y) crosses it, or one that waits at the node's shaft port crosses the shaft. -/
def floorFlitHop (m : MillId) (x : Fin 8) (y : Fin 6) (way : LinkWay) (s : State) : State :=
  if s.halted || !s.pageLive (.floor m 0) then s
  else match way.direction with
    | some d => s.flitHop m (linkIndex (x.val, y.val) d)
    | none => s.shaftHop m (x.val, y.val)

/-- FLOOR_FLIT_HOP. -/
def execFloorFlitHop (m : MillId) (x : Fin 8) (y : Fin 6) (way : LinkWay) (s : State) : Host.Outcome State Fault Refusal :=
  .next (floorFlitHop m x y way s)

/-- REMOTE_TPOST_ARRIVE: a remote post that waits first for the shaft is delivered to the counter of the other mill (R36, R309). -/
def remoteTpostArrive (m : MillId) (s : State) : State :=
  match (s.mill m).shaft with
  | .post c ctr n :: rest =>
    if s.halted || s.raceCrossing m then s else (s.onMill m fun x => { x with shaft := rest }).enginePost m.other c ctr n
  | _ => s

/-- REMOTE_TPOST_ARRIVE. -/
def execRemoteTpostArrive (m : MillId) (s : State) : Host.Outcome State Fault Refusal := .next (remoteTpostArrive m s)

end Sys2Proof.Machine
end

