-- ==== Sys2Proof/Machine/Vector.lean ====
section
/-! DEFINITION. The vector units (R293 to R297): the fields of the vector slot, what an operation computes on the registers of
one unit, its accesses to the pair's hoppers, and the lines it writes through the unit's governor stage. -/

namespace Sys2Proof.Machine

/-! ## Fields of the vector slot (R293) -/

def vOp (w : W64) : Nat := bitsOf w 0 8
def vVD (w : W64) : Nat := bitsOf w 8 6
def vVA (w : W64) : Nat := bitsOf w 14 6
def vVB (w : W64) : Nat := bitsOf w 20 6
def vVC (w : W64) : Nat := bitsOf w 26 6
def vEtype (w : W64) : Nat := bitsOf w 32 2
def vBsel (w : W64) : Nat := bitsOf w 34 2
def vUnits (w : W64) : List Nat := (List.range 12).filter fun p => bitOf w (36 + p)
def vAX (w : W64) : Nat := bitsOf w 48 4
def vTctr (w : W64) : Nat := bitsOf w 52 4
def vPost (w : W64) : Bool := bitOf w 56
def vCarry (w : W64) : Bool := bitOf w 57

/-- The operations of R294. -/
def vectorOps : List Nat :=
  (List.range 15).map (0x40 + ·) ++ (List.range 7).map (0x50 + ·) ++ [0x58, 0x60, 0x61, 0x62]

/-- Those marked I: ETYPE INT32 is allowed. -/
def vectorInt (op : Nat) : Bool :=
  op != 0x43 && op != 0x4B && op != 0x4C && op != 0x4D && op != 0x58 && op != 0x62

/-- Does an operation read operand B? -/
def vReadsB (op : Nat) : Bool :=
  decide (0x40 ≤ op ∧ op ≤ 0x45) || op == 0x47 || op == 0x48 || op == 0x49 || op == 0x4E || op == 0x58

/-- Does it read v[VC]? -/
def vReadsC (op : Nat) : Bool := op == 0x43 || op == 0x49 || op == 0x52 || op == 0x53 || op == 0x55 || op == 0x56

/-- The vector registers an operation reads. -/
def vReads (w : W64) : List Nat :=
  let op := vOp w
  (if op = 0x60 ∨ op = 0x56 then [] else [vVA w]) ++ (if vReadsB op ∧ vBsel w = 0 then [vVB w] else [])
    ++ (if vReadsC op then [vVC w] else [])

/-- The vector registers it writes. -/
def vWrites (w : W64) : List Nat :=
  let op := vOp w
  if op = 0x61 ∨ op = 0x62 then [] else if op = 0x54 ∨ op = 0x55 then [vVD w, vVD w + 1] else [vVD w]

/-! ## Lanes -/

/-- The lanes of a register, `w` bits each. -/
def lanesOf (w : Nat) (v : BitVec 2048) : List Nat := (List.range (2048 / w)).map fun i => natBits v.toNat (w * i) w

/-- A register from its lanes; lanes not given are 0. -/
def ofLanes (w : Nat) (ls : List Nat) : BitVec 2048 := BitVec.ofNat 2048 (ls.foldr (fun x acc => x % 2 ^ w + 2 ^ w * acc) 0)

/-- Bits of a lane: BF16 has 128 lanes of 16 bits, FP32 and INT32 64 lanes of 32. -/
def laneBits (et : Nat) : Nat := if et = 1 then 16 else 32

/-- The value of a floating-point lane, and the lane of a value (R154 to R156). -/
def laneNum (et x : Nat) : Num := if et = 1 then decodeWide 7 x else decodeWide 23 x
def numLane (et : Nat) (x : Num) : Nat :=
  if et = 1 then encodeWide 7 (roundTo fmtBF16 x).val else encodeWide 23 (roundTo fmtFP32 x).val

/-- All ones: −1 in a lane. -/
def laneTrue (et : Nat) (b : Bool) : Nat := if b then 2 ^ laneBits et - 1 else 0

/-- An integer as an INT32 lane; outside the range the manual states no result and the lane is the free value `u`. -/
def intLane (u : W64) (i : Int) : Nat := if -(2 ^ 31 : Int) ≤ i ∧ i < 2 ^ 31 then intBits 32 i else u.toNat % 2 ^ 32

/-- Minimum or maximum of two floating-point lanes. The manual states no result for one NaN operand, nor which of two zeros is
less: there the lane is the free value `u`. -/
def fpMinMax (et : Nat) (min : Bool) (u : W64) (a b : Nat) : Nat :=
  let x := laneNum et a
  let y := laneNum et b
  if x.isNan && y.isNan then numLane et .nan
  else if x.isNan || y.isNan then u.toNat % 2 ^ laneBits et
  else if x.isZero && y.isZero && x.neg? != y.neg? then numLane et (.zero (bitOf u 0))
  else if Num.lt x y == min then numLane et x else numLane et y

/-- One over the square root of a value, kept to 120 bits with a sticky bit. -/
def rsqrtNum : Num → Num
  | .nan => .nan
  | .inf n => if n then .nan else .zero false
  | .fin n m e => if m = 0 then .inf n else if n then .nan else Num.root 60 (Num.quot 120 (.fin false 1 0) (.fin false m e))

/-- 2^f for the fraction f with the given bits, the last one first, in units of 2^-96 and not above it: 2^(0.b…) is the square root of
2^b × 2^(0.…). -/
def exp2Frac : List Bool → Nat → Nat
  | [], r => r
  | b :: bs, r => exp2Frac bs (isqrt (r * (if b then 2 else 1) * 2 ^ 96))

/-- The pattern of VEXP2's result for the exponent k and the fraction f in q bits: the value below 2^(k + f), with `step` units in the last
place added (R294); a result below 2^-126 is flushed (R156). -/
def exp2Pattern (fb : Nat) (k : Int) (q f : Nat) (step : Int) : Nat :=
  let n := exp2Frac ((List.range q).map fun i => natBits f i 1 == 1) (2 ^ 96) / 2 ^ (96 - fb) - 2 ^ fb
  let w := ((k + 127).toNat * 2 ^ fb + n : Int) + max (if f = 0 then -2 else 0) (min 1 step)
  if w < 2 ^ fb then 0 else w.toNat

/-- VEXP2 of a value, as a pattern with `fb` fraction bits (R294). -/
def exp2Lane (fb : Nat) (step : Int) : Num → Nat
  | .nan => encodeWide fb .nan
  | .inf neg => if neg then 0 else encodeWide fb (.inf false)
  | .fin neg m e =>
    let q := (-e).toNat
    let x : Int := (if neg then -1 else 1) * ((m * 2 ^ e.toNat : Nat) : Int)
    let k := x / (2 ^ q : Nat)
    if 128 ≤ k then encodeWide fb (.inf false)
    else if k < -126 then 0
    else exp2Pattern fb k q (x % (2 ^ q : Nat)).toNat step

/-- The per-lane operations of R294 on floating-point lanes. -/
def fpLane (et op : Nat) (u : W64) (a b c : Nat) : Nat :=
  let x := laneNum et a
  let y := laneNum et b
  match op with
  | 0x40 => numLane et (Num.add x y)
  | 0x41 => numLane et (Num.sub x y)
  | 0x42 => numLane et (Num.mul x y)
  | 0x43 => numLane et (Num.add (Num.mul x y) (laneNum et c))
  | 0x44 => fpMinMax et true u a b
  | 0x45 => fpMinMax et false u a b
  | 0x46 => numLane et x.abs
  | 0x47 => laneTrue et (Num.lt x y)
  | 0x48 => laneTrue et (Num.eq x y)
  | 0x49 => if c ≠ 0 then numLane et x else numLane et y
  | 0x4B => numLane et (Num.quot 24 (.fin false 1 0) x)
  | 0x4C => numLane et (rsqrtNum x)
  | _ => exp2Lane (if et = 1 then 7 else 23) (Config.vexp2Step et (numLane et x)) x

/-- The per-lane operations of R294 on INT32 lanes: sums and products wrap. -/
def intLaneOp (op : Nat) (u : W64) (a b c : Nat) : Nat :=
  let x := signedBits a 32
  let y := signedBits b 32
  match op with
  | 0x40 => (a + b) % 2 ^ 32
  | 0x41 => (a + 2 ^ 32 - b) % 2 ^ 32
  | 0x42 => (a * b) % 2 ^ 32
  | 0x44 => if x ≤ y then a else b
  | 0x45 => if y ≤ x then a else b
  | 0x46 => intLane u x.natAbs
  | 0x47 => laneTrue 2 (decide (x < y))
  | 0x48 => laneTrue 2 (a == b)
  | _ => if c ≠ 0 then a else b

/-- The value of lane i of a register read as the type `et`, for a conversion. -/
def cvtValue (et x : Nat) : Num := if et = 2 then Num.ofInt (signedBits x 32) else laneNum et x

/-- VCVT of one lane. A value that no INT32 holds has no stated result. -/
def cvtLane (src dst : Nat) (u : W64) (x : Nat) : Nat :=
  let v := cvtValue src x
  if dst = 2 then (if v.isFinite then intLane u v.toIntNearest else u.toNat % 2 ^ 32) else numLane dst v

/-- VCVT: lanes 0 to 63 are converted; further BF16 lanes become zero, except in a conversion from BF16 to BF16, which has them. -/
def vecConvert (src dst : Nat) (u : Nat → W64) (v : BitVec 2048) : BitVec 2048 :=
  let ls := lanesOf (laneBits src) v
  let ls := if src = dst then ls else ls.take 64
  ofLanes (laneBits dst) (((List.range ls.length).zip ls).map fun (i, x) => cvtLane src dst (u i) x)

/-- VSORT: lanes put in ascending order of their INT32 keys, equal keys in lane order. -/
def insertKey (k : Int × Nat) : List (Int × Nat) → List (Int × Nat)
  | [] => [k]
  | x :: xs => if x.1 ≤ k.1 then x :: insertKey k xs else k :: x :: xs

def sortKeys (l : List (Int × Nat)) : List (Int × Nat) := l.foldl (fun acc k => insertKey k acc) []

/-- A step of a floating-point reduction. -/
def reduceStep (et : Nat) (max : Bool) (u : W64) (acc x : Nat) : Nat :=
  if max then fpMinMax et false u acc x else numLane et (Num.add (laneNum et acc) (laneNum et x))

/-- VRSUM and VRMAX: the lanes combined in ascending order (R294). -/
def vecReduce (et : Nat) (max : Bool) (u : Nat → W64) (ls : List Nat) : Nat :=
  if et = 2 then
    let xs := ls.map fun x => signedBits x 32
    intLane (u 0) (if max then xs.foldl Max.max (xs.headD 0) else xs.sum)
  else
    let first := numLane et (laneNum et (ls.headD 0))
    ((List.range (ls.length - 1)).zip (ls.drop 1)).foldl (fun acc (i, x) => reduceStep et max (u (i + 1)) acc x) first

/-- VSEGSUM and VSEGMAX on floating-point lanes: the inclusive scan, lane by lane (R296). `prev` is the key and value that the next lane
continues. -/
def segScanF (et : Nat) (max : Bool) (u : Nat → W64) : (i : Nat) → (prev : Option (Int × Nat)) → List (Int × Nat) → List Nat
  | _, _, [] => []
  | i, prev, (k, x) :: rest =>
    let acc := match prev with
      | some (k', v) => if k' = k then reduceStep et max (u i) v x else numLane et (laneNum et x)
      | none => numLane et (laneNum et x)
    acc :: segScanF et max u (i + 1) (some (k, acc)) rest

/-- As `segScanF` on INT32 lanes, with exact sums. -/
def segScanI (max : Bool) : (prev : Option (Int × Int)) → List (Int × Int) → List Int
  | _, [] => []
  | prev, (k, x) :: rest =>
    let acc := match prev with
      | some (k', v) => if k' = k then (if max then Max.max v x else v + x) else x
      | none => x
    acc :: segScanI max (some (k, acc)) rest

/-- The first key that is below the one before it, the carry key first where one is continued. -/
def keyFalls (prev : Option Int) : List Int → Option Int
  | [] => none
  | k :: ks => if (match prev with | some p => decide (k < p) | none => false) then some k else keyFalls (some k) ks

/-- Why an operation gives no result: the cause and the offending operand of its contract fault (R317, R318). -/
abbrev VecErr := Nat × W64

/-- What an operation does to one unit: registers written, and the segment carry where it changes. -/
structure VecOut where
  writes : List (Nat × BitVec 2048)
  carry  : Option (W32 × W32)
deriving DecidableEq, Repr

/-- The scan of a segment operation, lane by lane. BF16 has INT32 keys for its lanes 0 to 63 alone: for the others the manual states no
result. -/
def segLanes (et : Nat) (max : Bool) (u : Nat → W64) (carry : Option (W32 × W32)) (keys : List Int) (va : BitVec 2048) : List Nat :=
  let ls := lanesOf (laneBits et) va
  if et = 2 then
    let is := segScanI max (carry.map fun x => (x.1.toInt, x.2.toInt)) (keys.zip (ls.map fun x => signedBits x 32))
    ((List.range 64).zip is).map fun (i, x) => intLane (u i) x
  else
    segScanF et max u 0 (carry.map fun x => (x.1.toInt, x.2.toNat)) (keys.zip ls)
      ++ (List.range (ls.length - 64)).map fun i => (u (64 + i)).toNat

/-- VSEGSUM and VSEGMAX (R296). A key that decreases is SEGMENT_ORDER. -/
def vecSegment (et vd : Nat) (max cont : Bool) (u : Nat → W64) (carry : Option (W32 × W32)) (va vc : BitVec 2048) : Except VecErr VecOut :=
  let keys := (lanesOf 32 vc).map fun k => signedBits k 32
  let carry := if cont then carry else none
  match keyFalls (carry.map fun x => x.1.toInt) keys with
  | some k => .error (7, BitVec.ofInt 64 k)
  | none =>
    let outs := segLanes et max u carry keys va
    .ok { writes := [(vd, ofLanes (laneBits et) outs)],
          carry := some (BitVec.ofInt 32 (keys.getD 63 0), BitVec.ofNat 32 (outs.getD 63 0)) }

/-- VQWIDEN: FP32 values of packed codes with an exponent for each lane. Exponents beyond ±1,000 give what ±1,000 gives. -/
def vecWiden (f : Fmt) (va b : BitVec 2048) : BitVec 2048 :=
  ofLanes 32 ((List.range 64).zip (lanesOf 32 b) |>.map fun (i, e) =>
    let k := signedBits e 32
    numLane 0 ((f.value (natBits va.toNat (f.bits * i) f.bits)).scale (max (-1000) (min 1000 k))))

/-- What a register operation gives on one unit, from its operands. -/
def vecAlu (w : W64) (u : Nat → W64) (carry : Option (W32 × W32)) (va b vc : BitVec 2048) : Except VecErr VecOut :=
  let et := vEtype w
  let op := vOp w
  let n := laneBits et
  let one (v : BitVec 2048) : Except VecErr VecOut := .ok { writes := [(vVD w, v)], carry := none }
  let la := lanesOf n va
  let lb := lanesOf n b
  let lc := lanesOf n vc
  match op with
  | 0x4A => one (vecConvert (vVC w % 4) et u va)
  | 0x4E => one (ofLanes n (lb.map fun k => let x := la.getD (k % la.length) 0; if et = 2 then x else numLane et (laneNum et x)))
  | 0x50 => one (ofLanes n [vecReduce et false u la])
  | 0x51 => one (ofLanes n [vecReduce et true u la])
  | 0x52 => vecSegment et (vVD w) false (vCarry w) u carry va vc
  | 0x53 => vecSegment et (vVD w) true (vCarry w) u carry va vc
  | 0x54 =>
    let r := sortKeys ((la.map fun k => signedBits k 32).zip (List.range 64))
    .ok { writes := [(vVD w, ofLanes 32 (r.map fun x => intBits 32 x.1)), (vVD w + 1, ofLanes 32 (r.map (·.2)))], carry := none }
  | 0x55 =>
    let kept := (la.zip lc).filterMap fun (x, c) => if c ≠ 0 then some x else none
    .ok { writes := [(vVD w, ofLanes 32 kept), (vVD w + 1, ofLanes 32 [kept.length])], carry := none }
  | 0x56 => one (ofLanes 32 ((lc.zip (lc.drop 1)).map (fun (x, y) => laneTrue 2 (x != y)) ++ [laneTrue 2 true]))
  | 0x58 => match Fmt.ofCode (vVC w % 16) with
    | some f => one (vecWiden f va b)
    | none => .error (1, BitVec.ofNat 64 (vVC w))
  | _ =>
    let f := if et = 2 then intLaneOp op else fpLane et op
    one (ofLanes n ((List.range la.length).map fun i => f (u i) (la.getD i 0) (lb.getD i 0) (lc.getD i 0)))

/-! ## The units' registers -/

def State.vreg (s : State) (m : MillId) (unit r : Nat) : BitVec 2048 := cellGet 0 (64 * unit + r) (s.mill m).miller.vreg

def State.setVreg (s : State) (m : MillId) (unit r : Nat) (v : BitVec 2048) : State :=
  s.onMiller m fun x => { x with vreg := cellSet 0 (64 * unit + r) v x.vreg }

def Miller.segCarry (x : Miller) (unit : Nat) : Option (W32 × W32) := (x.carry.find? fun c => c.1 == unit).map (·.2)

def State.setCarry (s : State) (m : MillId) (unit : Nat) (c : W32 × W32) : State :=
  s.onMiller m fun x => { x with carry := (unit, c) :: x.carry.filter fun e => e.1 != unit }

/-- Operand B (R293). -/
def State.vecB (s : State) (m : MillId) (unit : Nat) (o : VecOp) : BitVec 2048 :=
  match vBsel o.slot with
  | 0 => s.vreg m unit (vVB o.slot)
  | 1 => ofLanes 32 (List.replicate 64 (o.sb.toNat % 2 ^ 32))
  | _ => ofLanes 32 (List.replicate 64 (o.imm.toNat % 2 ^ 32))

/-- The free value of lane i of a unit in the operation about to complete. -/
def State.laneFree (s : State) (unit i : Nat) : W64 := Config.freeWord (s.draw + 128 * unit + i)

/-- The free values of an operation have been drawn: 128 for each of the 12 units. -/
def State.lanesDrawn (s : State) : State := { s with draw := s.draw + 1536 }

/-! ## Pair addresses (R295) -/

/-- Does a pair address fall outside the limits, and is it misaligned? -/
def pairOutside (a : W64) : Bool := bitsOf a 24 40 != 0 || decide (0x600000 ≤ bitsOf a 0 23)
def pairAddr (o : VecOp) : W64 := o.ax + o.sc
/-- The stone whose hopper a pair address selects for unit p, and the offset. -/
def pairStone (p : Nat) (a : W64) : Nat := 2 * p + bitsOf a 23 1
def pairOff (a : W64) : Nat := bitsOf a 0 23

/-! ## Completion (R293, R296, R297) -/

/-- A contract fault that a vector unit finds: of the Ikiug page's own causes, with the unit and the offending operand. -/
def State.vecFault (s : State) (m : MillId) (o : VecOp) (unit : Nat) (e : VecErr) : State :=
  s.report m { kind := .contract, system := false, page := .ikiug m, cause := e.1, res := BitVec.ofNat 64 unit, opnd := e.2, pc := o.pc,
               slot := 2, issue := false, injected := false }

/-- How far a unit has come with an operation: done, ended by a fault that has been reported, or waiting for
its stage, on a page that the pond copier is to copy where there is one (R644). -/
inductive VecDone where
  | ok (s : State)
  | fault (s : State)
  | wait (vpage : Option Nat)

/-- VLD and VST on one unit: 256 bytes of a hopper of its pair (R341 for what a sluice still moves). -/
def State.vecMem (s : State) (m : MillId) (o : VecOp) (p : Nat) (store : Bool) : VecDone :=
  let a := pairAddr o
  let stone := pairStone p a
  let off := pairOff a
  let (bad, inj, s) := s.hopperRace m stone off 256 store
  if bad then .fault (s.floorFault m 2 (raceRes false stone store off) (BitVec.ofNat 64 off) o.pc 2 false inj)
  else if store then
    .ok { s with hopper := writeBytes s.hopper (hopperKey m stone off) (leBytes 256 (s.vreg m p (vVA o.slot)).toNat) }
  else .ok (s.setVreg m p (vVD o.slot) (BitVec.ofNat 2048 (readNat s.hopper (hopperKey m stone off) 256)))

/-- The open line of a unit's stage. -/
def Governor.vline (g : Governor) (unit : Nat) : Option VecLine := g.vlines.find? fun l => l.unit == unit

/-- The line and first element that VSTG writes on unit p (R297). -/
def VecOp.line (o : VecOp) (p : Nat) : Nat := (o.sb + BitVec.ofNat 64 p).toNat
def VecOp.elem (o : VecOp) : Nat := o.sc.toNat

/-- Does VSTG go on with a unit's open line, or open one (R297)? -/
def VecOp.follows (o : VecOp) (p : Nat) : Option VecLine → Bool
  | none => o.elem == 0
  | some l => handleDesc l.handle == handleDesc o.ax && l.line == o.line p && l.vals.length == o.elem

/-- Elements of an open line as its stage takes them. -/
def VecOp.job (o : VecOp) (handle : W64) (line op : Nat) (vals : List W32) : LineJob :=
  { handle := handle, line := line, elem0 := 0, vals := vals, keep := vals.map fun _ => true, flushed := [], hopper := none, op := op,
    pc := o.pc, slot := 2, system := false, first := false }

/-- A line opens at a unit's stage: its write begins (R172), a new version where the handle names one and the unit is the operation's first,
and the stage takes the line (R176). A line that the tensor does not have is taken nowhere. -/
def vecOpen (q : GovAt) (o : VecOp) (p : Nat) (first : Bool) (id : Nat) (d : GDesc) : Gov VecLine := do
  let handle := if first then o.ax else o.ax &&& ~~~(BitVec.ofNat 64 4096)
  let x ← beginWrite q (2 + p) (o.job handle q.line id []) d
  if x.fmt != Fmt.fp32.code && decide (q.line < d.lines) then
    let _ ← takeLine q (2 + p) d x.primed
  pure { unit := p, handle := o.ax, line := q.line, vals := [], op := id }

/-- VSTG on one unit: the next 64 elements of the stage's open line; a line that reaches LENGTH is handed to the stage. Lanes that follow
neither the open line nor a line's start are refused. -/
def vecStage (q : GovAt) (o : VecOp) (p : Nat) (first : Bool) (id : Nat) : Gov Bool := do
  let s ← get
  let ls := (lanesOf 32 (s.vreg q.mill p (vVA o.slot))).map fun x => BitVec.ofNat 32 x
  let at_ := (s.mill q.mill).governor.vline p
  if !o.follows p at_ then pure false
  else
    let d ← gdesc q (handleDesc o.ax)
    let l ← match at_ with
      | some l => pure l
      | none => vecOpen q o p first id d
    let vals := l.vals ++ ls
    modify fun s => s.onGov q.mill fun g => { g with vlines := g.vlines.filter fun x => x.unit != p }
    if d.length ≤ vals.length then
      modify fun s => s.addJob q.mill (2 + p) (o.job o.ax q.line l.op (vals.take d.length))
    else modify fun s => s.onGov q.mill fun g => { g with vlines := g.vlines ++ [{ l with vals := vals }] }
    pure true

/-- The outcome of VSTG on one unit. A fault leaves the lines of the stage as an abandoned write does (R197). -/
def State.vecLine (s : State) (m : MillId) (o : VecOp) (p : Nat) (first : Bool) (id : Nat) : VecDone :=
  let q := stageAt m (2 + p) (o.line p) o.pc 2 false
  match (vecStage q o p first id).run.run s with
  | (.ok true, s) => .ok s
  | (.ok false, s) => .fault (s.vecFault m o p (8, o.sc))
  | (.error (.hold page), _) => .wait page
  | (.error stop, s) => .fault (s.govEnd m stop (handleDesc o.ax) (2 + p) (handleStep o.ax) q.mover.source)

/-- A register operation on one unit. -/
def State.vecReg (s : State) (m : MillId) (o : VecOp) (p : Nat) : VecDone :=
  let w := o.slot
  match vecAlu w (s.laneFree p) ((s.mill m).miller.segCarry p) (s.vreg m p (vVA w)) (s.vecB m p o) (s.vreg m p (vVC w)) with
  | .error e => .fault (s.vecFault m o p e)
  | .ok out =>
    let s := s.forAll out.writes fun s (r, v) => s.setVreg m p r v
    .ok (match out.carry with | some c => s.setCarry m p c | none => s)

/-- One unit performs an operation. -/
def State.vecUnit (s : State) (m : MillId) (o : VecOp) (p : Nat) (first : Bool) (id : Nat) : VecDone :=
  match vOp o.slot with
  | 0x60 => s.vecMem m o p false
  | 0x61 => s.vecMem m o p true
  | 0x62 => s.vecLine m o p first id
  | _ => s.vecReg m o p

/-- The units of an operation perform it in ascending order, up to the first that finds a fault. -/
def State.vecUnits (s : State) (m : MillId) (o : VecOp) (id : Nat) : (first : Bool) → List Nat → VecDone
  | _, [] => .ok s
  | first, p :: ps =>
    match s.vecUnit m o p first id with
    | .ok s => s.vecUnits m o id false ps
    | .fault s => .fault s
    | .wait page => .wait page

/-- An operation has completed on every unit it names: it leaves its queue, its free values are drawn, and it posts its token. -/
def State.vecPosted (s : State) (m : MillId) (o : VecOp) (rest : List VecOp) (id : Nat) : State :=
  let s := (s.lanesDrawn.onMiller m fun x => { x with vecQ := rest }).onRace m fun r => { r with nextId := id + 1 }
  let s := s.onGov m fun g => { g with wpHold := none }
  if vPost o.slot then s.enginePost m .user (vTctr o.slot) 1 else s

/-- What the oldest vector operation comes to; one that waits for its stage changes nothing but what it waits for. -/
def State.vecRun (s : State) (m : MillId) (o : VecOp) (rest : List VecOp) : State :=
  let id := (s.mill m).race.nextId
  match s.vecUnits m o id true (vUnits o.slot) with
  | .wait page => s.onGov m fun g => { g with wpHold := page }
  | .fault s => s.onMiller m fun x => { x with vecQ := rest }
  | .ok s => s.vecPosted m o rest id

/-- VECTOR_OP_DONE: the oldest vector operation completes on every unit it names. -/
def vectorOpDone (m : MillId) (codes : List Ecc) (s : State) : State :=
  match (s.mill m).miller.vecQ with
  | [] => s
  | o :: rest => if s.halted then s else s.coded codes fun s => s.vecRun m o rest

/-- VECTOR_OP_DONE. -/
def execVectorOpDone (m : Coded MillId) (s : State) : Host.Outcome State Fault Refusal := .next (vectorOpDone m.of m.codes s)

end Sys2Proof.Machine
end

