-- ==== Sys2Proof/Machine/Bundle.lean ====
section
/-! DEFINITION. The bundle (R284 to R304): its format, the fields of its slots, and the check that a bundle passes whole before it
waits or issues (R286, R288, R292, R313). -/

namespace Sys2Proof.Machine

/-! ## Format (R284, R285) -/

/-- The parts of a bundle. -/
structure Bundle where
  hdr : W32
  s0  : W64
  s1  : W64
  v   : W64
  rc  : W64
  sl  : W32
  gb  : W64
  wb  : W64
  imm : W64
deriving DecidableEq, Repr

/-- The parts of the 512 bits of a bundle. -/
def parseBundle (x : BitVec 512) : Bundle :=
  { hdr := x.extractLsb' 0 32, s0 := x.extractLsb' 32 64, s1 := x.extractLsb' 96 64, v := x.extractLsb' 160 64,
    rc := x.extractLsb' 224 64, sl := x.extractLsb' 288 32, gb := x.extractLsb' 320 64, wb := x.extractLsb' 384 64,
    imm := x.extractLsb' 448 64 }

/-- The 512 bits of a bundle. -/
def Bundle.bits (b : Bundle) : BitVec 512 :=
  b.imm ++ b.wb ++ b.gb ++ b.sl ++ b.rc ++ b.v ++ b.s1 ++ b.s0 ++ b.hdr

/-- Is slot k present? 0 S0, 1 S1, 2 V, 3 RC, 4 SL, 5 GB, 6 WB. -/
def Bundle.has (b : Bundle) (k : Nat) : Bool := bitOf b.hdr k

/-- Operations in the bundle. -/
def Bundle.ops (b : Bundle) : Nat := ((List.range 7).filter b.has).length

/-- The opcode of the WB slot, where it is present. -/
def Bundle.wbOp (b : Bundle) : Option Nat := if b.has 6 then some (bitsOf b.wb 0 8) else none
def Bundle.gbOp (b : Bundle) : Option Nat := if b.has 5 then some (bitsOf b.gb 0 8) else none

/-! ## Registers as a bundle reads them (R281, R288) -/

def Context.sr (k : Context) (n : Nat) : W64 := if n = 0 then 0 else cellGet 0 n k.s
def Context.ar (k : Context) (n : Nat) : W64 := cellGet 0 n k.a
def Context.tr (k : Context) (n : Nat) : W32 := cellGet 0 n k.t

/-- A write to s0 is discarded (R281). -/
def Context.setS (k : Context) (n : Nat) (v : W64) : Context := if n = 0 then k else { k with s := cellSet 0 n v k.s }
def Context.setA (k : Context) (n : Nat) (v : W64) : Context := { k with a := cellSet 0 n v k.a }

/-! ## Scalar slots (R290) -/

def cOp (w : W64) : Nat := bitsOf w 0 8
def cRD (w : W64) : Nat := bitsOf w 8 5
def cRA (w : W64) : Nat := bitsOf w 13 5
def cRB (w : W64) : Nat := bitsOf w 18 5
def cBsel (w : W64) : Nat := bitsOf w 23 2
def cAX (w : W64) : Nat := bitsOf w 25 4
def cSimm (w : W64) : W64 := (hiWord w).signExtend 64

/-- Operand B. -/
def scalarB (k : Context) (w imm : W64) : W64 :=
  match cBsel w with
  | 0 => k.sr (cRB w)
  | 1 => imm
  | _ => cSimm w

/-- The address a[AX] + B of LD, ST, RLD and RST. -/
def scalarAddr (k : Context) (w imm : W64) : W64 := k.ar (cAX w) + scalarB k w imm

/-- The operations of R291. -/
def scalarOps : List Nat := (List.range 22).map (1 + ·) ++ [0x20, 0x21, 0x22, 0x28, 0x29, 0x30, 0x31]

/-- Does an operation write s[RD]? -/
def writesS (op : Nat) : Bool := op != 0x20 && op != 0x29 && op != 0x31

/-! ## WB slot (R304) -/

def wTctr (w : W64) : Nat := bitsOf w 8 4
/-- The target of OFF bundles from a pc. -/
def wTarget (pc w : W64) : W64 := pc + BitVec.ofInt 64 (64 * signedBits (bitsOf w 48 16) 16)
/-- The awaited count k of a WAIT. -/
def waitTarget (k : Context) (w imm : W64) : W32 := if bitOf w 17 then loWord imm else loWord (k.sr (bitsOf w 12 5))
/-- TIMEOUT in nanoseconds; 0 = none. -/
def waitTimeoutNs (w : W64) : Nat := 1000 * bitsOf w 18 24

/-- BRC: is the branch taken? -/
def branchTaken (cond : Nat) (x y : W64) : Bool :=
  match cond with
  | 0 => x == y
  | 1 => x != y
  | 2 => x.slt y
  | 3 => !x.slt y
  | 4 => x.ult y
  | _ => !x.ult y

/-! ## The check (R286, R288, R292, R295, R309) -/

/-- The causes of R317 that a check finds. -/
inductive Cause where
  | encoding | regClash | priv | align | localRange | tpostRemote
deriving DecidableEq, Repr

def Cause.code : Cause → Nat
  | .encoding => 1 | .regClash => 2 | .priv => 3 | .align => 4 | .localRange => 5 | .tpostRemote => 6

/-- Does a word hold a one outside the bits of a mask? -/
def reserved (w : W64) (used : Nat) : Bool := w &&& ~~~(BitVec.ofNat 64 used) != 0

/-- The mask of bits `lo` to `hi`. -/
def bitRange (lo hi : Nat) : Nat := 2 ^ (hi + 1) - 2 ^ lo

/-- Is a tensor handle malformed (R282)? -/
def badHandle (h : W64) : Bool := bitsOf h 13 3 != 0

/-- The header's faults. FR_SLOT has no code for the header: it is reported with slot 0. -/
def headerChecks (b : Bundle) : List (Bool × Nat × Cause) :=
  [(bitsOf b.hdr 8 4 != 1 || bitsOf b.hdr 12 20 != 0 || bitOf b.hdr 7, 0, .encoding)]

/-- An address of LD and ST: the hopper or granary byte it names lies within its memory (R292). -/
def State.localBad (s : State) (m : MillId) (a : W64) : Bool :=
  match spaceOf a.toNat with
  | 1 => endMalformed false (s.pinBytes m) a.toNat
  | 2 => endMalformed false (s.pinBytes m) a.toNat || decide (s.pinBytes m < bitsOf a 0 27 + 8)
  | _ => true

/-- A scalar slot. -/
def State.scalarChecks (s : State) (m : MillId) (c : Ctx) (k : Context) (slot : Nat) (w imm : W64) : List (Bool × Nat × Cause) :=
  let op := cOp w
  let memory := op == 0x28 || op == 0x29
  let a := scalarAddr k w imm
  [(!scalarOps.contains op || cBsel w == 3 || bitsOf w 29 3 != 0, slot, .encoding),
   ((op == 0x30 || op == 0x31) && c == .user, slot, .priv),
   (memory && bitsOf a 0 3 != 0, slot, .align),
   (memory && s.localBad m a, slot, .localRange)]

/-- The vector slot. A bundle of the system context has none: the vector registers belong to the user context alone (R280). -/
def State.vectorChecks (s : State) (m : MillId) (c : Ctx) (k : Context) (w : W64) : List (Bool × Nat × Cause) :=
  let op := vOp w
  let et := vEtype w
  let keyed := op == 0x54 || op == 0x55 || op == 0x56
  let badCode := match Fmt.ofCode (vVC w % 16) with
    | some f => f.narrow || f == .fp40
    | none => true
  let pair := op == 0x60 || op == 0x61
  let a := k.ar (vAX w) + k.sr (vVC w % 32)
  [(!vectorOps.contains op || et == 3 || vBsel w == 3 || bitsOf w 58 6 != 0 || (vUnits w).isEmpty || c == .system, 2, .encoding),
   ((et == 2 && !vectorInt op) || (keyed && et != 2) || ((op == 0x54 || op == 0x55) && vVD w % 2 == 1), 2, .encoding),
   ((op == 0x62 && (et != 0 || badHandle (k.ar (vAX w)))) || (op == 0x4A && vVC w % 4 == 3) || (op == 0x58 && badCode), 2, .encoding),
   ((vUnits w).any fun p => s.unitOut (3, 12 * m.num + p), 2, .encoding),
   (pair && pairOutside a, 2, .localRange),
   (pair && bitsOf a 0 8 != 0, 2, .align)]

/-- Bits that a race operation names (R298, R299). -/
def raceMask (op : Nat) : Nat :=
  match op with
  | 0x80 => bitRange 0 33
  | 0x81 => bitRange 0 46
  | 0x82 => bitRange 0 51
  | 0x83 => bitRange 0 33
  | 0x84 => bitRange 0 32
  | 0x85 => bitRange 0 29
  | _ => bitRange 0 27

/-- A hopper address that names another stone than one of `stones`, or none. -/
def hopperBad (a : W64) (stones : List Nat) : Bool :=
  spaceOf a.toNat != 1 || endMalformed false 0 a.toNat || !stones.contains (bitsOf a 24 5)

/-- What an issued race operation does to a stream: the stones, by index in the module, that will consume it, and whether a weight tile is on
it. RBIND binds in issue order, and binding a runner comes after the stream's tiles (R109). -/
def RaceOp.feeds (stream : Nat) (m : MillId) (acc : List Nat × Bool) (o : RaceOp) : List Nat × Bool :=
  let named := ((List.range 24).filter o.inMask).map (gidx m)
  let rest := acc.1.filter fun g => !named.contains g
  match o.code with
  | 0x80 =>
    if o.stream ≠ stream then (rest, acc.2)
    else match o.role with
      | .consumer => (rest ++ named, acc.2)
      | .runner => (rest, false)
      | _ => (rest, acc.2)
  | 0x83 => (acc.1, acc.2 || o.stream == stream)
  | _ => acc

/-- Is a stream of the race a weight stream for an operation issued now: consumers are bound to it, by what is in force and by the operations
issued before, or weight columns are on it (R109, R130)? -/
def State.weightStream (s : State) (own : MillId) (stream : Nat) : Bool :=
  let r := (s.mill own).race
  let onIt := (r.cols ++ r.tail).any fun c => c.1 % 4 == stream && c.2.any fun x => x.words.isEmpty
  let now := ((s.boundTo own .consumer stream).map fun (m, n) => gidx m n, onIt)
  let after := ((s.mill own).race.ops.filter fun o => !o.done).foldl (RaceOp.feeds stream own) now
  let other := if (s.mill own).race.spliced then (s.mill own.other).race.ops.filter fun o => !o.done else []
  let last := other.foldl (RaceOp.feeds stream own.other) after
  !last.1.isEmpty || last.2

/-- The race slot. In splice RTILE and RDW belong to the head mill (R123), and a mask is not named on a weight stream (R130): the
manual names no cause for the two, and they take ENCODING. -/
def State.raceChecks (s : State) (m : MillId) (k : Context) (w : W64) : List (Bool × Nat × Cause) :=
  let op := bitsOf w 0 8
  let stone := bitsOf w 8 5
  let ax := k.ar (bitsOf w 15 4)
  let ay := k.ar (bitsOf w 19 4)
  let rows := bitsOf w 36 9
  let row0 := bitsOf w 28 8
  [(!(List.range 7).any (fun i => op == 0x80 + i) || reserved w (raceMask op), 3, .encoding),
   ((op == 0x81 || op == 0x82 || op == 0x85 || op == 0x86) && decide (24 ≤ stone), 3, .encoding),
   (op == 0x81 && (rows == 0 || decide (256 < row0 + rows) || (bitOf w 46 && (row0 != 255 || rows != 1))), 3, .encoding),
   (op == 0x82 && bitOf w 27, 3, .encoding),
   (op != 0x80 && op != 0x82 && badHandle ay, 3, .encoding),
   ((op == 0x83 || op == 0x84) && s.raceOwner m != m, 3, .encoding),
   (op == 0x84 && bitsOf w 28 4 != 0 && s.weightStream m (bitsOf w 13 2), 3, .encoding),
   (op == 0x81 && hopperBad ax [stone, if stone % 2 = 0 then stone + 1 else stone - 1], 3, .localRange),
   (op == 0x84 && (pairOutside ax || bitOf ax 23), 3, .localRange),
   (op == 0x84 && bitsOf ax 0 8 != 0, 3, .align),
   (((op == 0x85 && bitOf w 29) || op == 0x86) && hopperBad ax [stone], 3, .localRange)]

/-- The sluice slot (R302). -/
def sluiceChecks (w : W32) : List (Bool × Nat × Cause) :=
  let op := bitsOf w 0 8
  [((op != 0xA0 && op != 0xA1 && op != 0xA2) || bitsOf w 26 6 != 0, 4, .encoding)]

/-- The governor and bolter slot (R303). -/
def govChecks (k : Context) (w : W64) : List (Bool × Nat × Cause) :=
  let op := bitsOf w 0 8
  [((op != 0xB0 && op != 0xB4) || (op == 0xB0 && reserved w (bitRange 0 39)) || (op == 0xB4 && reserved w (bitRange 0 16)), 5, .encoding),
   (op == 0xB4 && badHandle (k.ar (bitsOf w 13 4)), 5, .encoding)]

/-- Bits that a wait or branch operation names (R304); none for an opcode that is not defined. -/
def waitMask (op : Nat) : Option Nat :=
  match op with
  | 0xC0 => some (bitRange 0 42 + bitRange 48 63)
  | 0xC4 => some (bitRange 0 11)
  | 0xC8 => some (bitRange 0 28)
  | 0xD0 => some (bitRange 0 7 + bitRange 48 63)
  | 0xD1 => some (bitRange 0 20 + bitRange 48 63)
  | 0xD2 => some (bitRange 0 12 + bitRange 48 63)
  | 0xD3 => some (bitRange 0 12)
  | 0xDF => some (bitRange 0 7)
  | _ => none

/-- The wait and branch slot (R304, R309). -/
def State.waitChecks (s : State) (m : MillId) (k : Context) (w : W64) : List (Bool × Nat × Cause) :=
  let op := bitsOf w 0 8
  [((match waitMask op with | some u => reserved w u | none => true), 6, .encoding),
   ((op == 0xC4 && bitsOf w 8 4 == 0) || (op == 0xC8 && bitsOf w 13 16 == 0) || (op == 0xD1 && decide (6 ≤ bitsOf w 18 3)), 6, .encoding),
   (op == 0xC8 && bitOf w 12 && !(s.mill m).miller.spliced, 6, .tpostRemote),
   (op == 0xD3 && bitsOf (k.sr (bitsOf w 8 5)) 0 6 != 0, 6, .align)]

/-- The registers that the slots write, with the slot: s-register n as n, a-register n as 32 + n. -/
def Bundle.targets (b : Bundle) : List (Nat × Nat) :=
  let scalar (slot : Nat) (w : W64) : List (Nat × Nat) :=
    if !b.has slot then [] else if cOp w = 0x20 then [(32 + cAX w, slot)] else if writesS (cOp w) then [(cRD w, slot)] else []
  let gb := if b.gbOp = some 0xB4 then [(bitsOf b.gb 8 5, 5)] else []
  let wb := if b.wbOp = some 0xD2 then [(bitsOf b.wb 8 5, 6)] else []
  scalar 0 b.s0 ++ scalar 1 b.s1 ++ gb ++ wb

/-- The register that two slots write, and the later of the slots (R288). -/
def clashAt : List (Nat × Nat) → Option (Nat × Nat)
  | [] => none
  | t :: rest => match rest.find? fun u => u.1 == t.1 with
    | some u => some u
    | none => clashAt rest

/-- Every check of a bundle, in order: the condition, the slot and the cause. -/
def State.checks (s : State) (m : MillId) (c : Ctx) (k : Context) (b : Bundle) : List (Bool × Nat × Cause) :=
  let slot (i : Nat) (w : W64) (l : List (Bool × Nat × Cause)) : List (Bool × Nat × Cause) :=
    if b.has i then l else [(w != 0, i, .encoding)]
  headerChecks b ++ slot 0 b.s0 (s.scalarChecks m c k 0 b.s0 b.imm) ++ slot 1 b.s1 (s.scalarChecks m c k 1 b.s1 b.imm)
    ++ slot 2 b.v (s.vectorChecks m c k b.v) ++ slot 3 b.rc (s.raceChecks m k b.rc)
    ++ slot 4 (b.sl.zeroExtend 64) (sluiceChecks b.sl) ++ slot 5 b.gb (govChecks k b.gb) ++ slot 6 b.wb (s.waitChecks m k b.wb)
    ++ (match clashAt b.targets with | some (_, i) => [(true, i, .regClash)] | none => [])

/-- The first fault of a bundle: its slot and cause. -/
def State.bundleFault (s : State) (m : MillId) (c : Ctx) (k : Context) (b : Bundle) : Option (Nat × Cause) :=
  ((s.checks m c k b).find? fun x => x.1).map (·.2)

/-- The resource and the operand that a fault found in a check names (R318): the register of a clash, the address or target of an access that
is misaligned or out of range, the counter and the count of a remote post; none otherwise. -/
def checkData (k : Context) (b : Bundle) (slot : Nat) (c : Cause) : W64 × W64 :=
  let addr : W64 :=
    match slot with
    | 0 => scalarAddr k b.s0 b.imm
    | 1 => scalarAddr k b.s1 b.imm
    | 2 => k.ar (vAX b.v) + k.sr (vVC b.v % 32)
    | 3 => k.ar (bitsOf b.rc 15 4)
    | _ => k.sr (bitsOf b.wb 8 5)
  match c with
  | .encoding => (0, 0)
  | .regClash => (BitVec.ofNat 64 ((clashAt b.targets).getD (0, 0)).1, 0)
  | .priv => (0, addr)
  | .align => (0, addr)
  | .localRange => (if slot = 3 then BitVec.ofNat 64 (bitsOf b.rc 8 5) else 0, addr)
  | .tpostRemote => (BitVec.ofNat 64 (wTctr b.wb), BitVec.ofNat 64 (bitsOf b.wb 13 16))

end Sys2Proof.Machine
end

