-- ==== Sys2Proof/Machine/Ikiug.lean ====
section
/-! DEFINITION. The two contexts of a miller at work (chapter 08): the fetch of a bundle, what holds it, its issue, WAIT and its
timeout, and hold samples of the log. -/

namespace Sys2Proof.Machine

/-! ## Contexts -/

def State.ctx (s : State) (m : MillId) (c : Ctx) : Context := (s.mill m).miller.ctx c

def State.onCtx (s : State) (m : MillId) (c : Ctx) (f : Context → Context) : State := s.onMiller m fun x => x.onCtx c f

/-- STATE of the Ikiug page is that of the user context. -/
def State.setSt (s : State) (m : MillId) (c : Ctx) (st : CtxState) : State :=
  match c with
  | .user => s.onMiller m fun x => { x with st := st }
  | .system => s

/-- A tally of the Ikiug page, which is the user context's (R318). -/
def State.ikTally (s : State) (m : MillId) (c : Ctx) (k n : Nat) : State :=
  match c with
  | .user => s.tally (.ikiug m) k n
  | .system => s

/-- May a context fetch and issue? The user context while its command runs and neither ends nor waits for a replay; the system
context while its page is out of reset. -/
def State.active (s : State) (m : MillId) : Ctx → Bool
  | .user =>
    let x := (s.mill m).miller
    (s.running m).isSome && x.ending.isNone && x.replay.isNone && (x.st == .running || x.st == .waiting || x.st == .held || x.st == .paused)
  | .system => s.pageLive (.ikiug m)

/-- The fetched bundle leaves the context, issued or not: a bundle boundary (R320). -/
def Context.clearFetch (k : Context) : Context :=
  { k with tSeen := k.t, fetched := none, waitOn := none, waitNs := 0, waitMet := none, holdSeen := false }

/-- An address that firmware alone knows: the entry of a routine of the system context. -/
def State.firmwareEntry (s : State) : W64 := s.free &&& ~~~(63 : W64)

/-- A fault of a context at the bundle it has fetched (R313): it ends the user context's command. In the system context the bundle
goes, with the transfers that the context has issued. -/
def State.precise (s : State) (m : MillId) (c : Ctx) (f : FaultInfo) : State :=
  match c with
  | .user => s.endCommand m f
  | .system => ((s.dropXfers m true).dropLeatOps m true).onCtx m .system Context.clearFetch

/-- A fault of the Ikiug page's own causes found when a bundle is checked. -/
def checkInfo (m : MillId) (c : Ctx) (pc : W64) (slot cause : Nat) (data : W64 × W64) (injected : Bool) : FaultInfo :=
  { kind := .contract, system := c == .system, page := .ikiug m, cause := cause, res := data.1, opnd := data.2, pc := pc, slot := slot,
    issue := true, injected := injected }

/-! ## Fetch (R283) -/

/-- BUNDLE_FETCH of the user context: the bundle at pc, through the mill's translation. A translation fault or an uncorrectable error
ends the command with cause FETCH. A port that accepts nothing leaves the fetch waiting. -/
def State.fetchImage (s : State) (m : MillId) : State :=
  let pc := (s.ctx m .user).pc
  let was := s
  let s := s.tally (.ikiug m) 9 1
  let miss (s : State) (inj : Bool) : State := s.endCommand m { (millerFault s m 16) with opnd := pc, injected := inj }
  let (inj, s) := s.takeInj (.ikiug m) 3
  if inj then miss s true
  else match s.translate m pc.toNat false with
    | (.wait, _) => was
    | (.err _, s) => miss s false
    | (.ok a, s) => match s.portRead m a 64 with
      | (.wait, _) => was
      | (.bad w i, s) => miss (s.memHistory m w i) i
      | (.ok, s) => s.onCtx m .user fun k => { k with fetched := some (BitVec.ofNat 512 (leNat (s.physRead a 64))) }

/-- The system context takes the first event queued for it: its handler starts at this bundle (R503). -/
def State.takeEvent (s : State) (m : MillId) : State :=
  match (s.mill m).miller.sysEvents with
  | [] => s
  | _ :: rest =>
    let pc := s.firmwareEntry
    (s.drawn.onMiller m fun x => { x with sysEvents := rest }).onCtx m .system fun k => { k with pc := pc }

/-- BUNDLE_FETCH. The user context fetches from the command's image, the system context from firmware. -/
def bundleFetch (m : MillId) (c : Ctx) (src : FetchSource) (codes : List Ecc) (s : State) : State :=
  if s.halted || !s.active m c || (s.ctx m c).fetched.isSome then s
  else match c, src with
    | .user, .image => if s.refHeld then s else s.coded codes fun s => s.fetchImage m
    | .system, .firmware b => (s.takeEvent m).onCtx m .system fun k => { k with fetched := some b }
    | .user, .firmware _ => s
    | .system, .image => s

/-- BUNDLE_FETCH. -/
def execBundleFetch (m : MillId) (c : Ctx) (src : FetchSource) (codes : List Ecc) (s : State) : Host.Outcome State Fault Refusal :=
  .next (bundleFetch m c src codes s)

/-! ## What holds a bundle (R287, R305, R308, R254, R512, R645) -/

/-- The first condition of R287 that a bundle does not meet, in the order of the stall codes of R542. -/
inductive Hold where
  | wait (ctr : Nat) (count target : W32)
  | barrier (engines : Nat)
  /-- the race engine is full; or a stone that the operation names is gated (R512) -/
  | race (stream : Nat)
  | ungate (stream : Nat)
  | queue (q : Nat)
  | vector (unit : Nat)
  | bolter
  /-- a word that a slot reads at issue waits for a port of memory (R269) -/
  | memory
deriving DecidableEq, Repr

/-- Has an engine of a BARRIER's mask an operation of the context that has not completed (R308)? -/
def State.engineBusy (s : State) (m : MillId) (c : Ctx) (engine : Nat) : Bool :=
  let x := s.mill m
  let sys := c == .system
  match engine with
  | 0 => x.race.ops.any fun o => o.system == sys
  | 1 => !sys && (!x.miller.vecQ.isEmpty || (List.range 12).any fun p => !(s.stageJobs m (2 + p)).isEmpty)
  | 2 => x.bolter.ops.any fun o => o.system == sys
  | _ => x.sluice.queues.any (fun q => q.xfers.any fun t => t.system == sys)
      || s.leat.groups.any fun g => g.ops.any fun o => o.mill == m && o.system == sys && !o.done

/-- The stones that a race operation names as R512 has it. -/
def raceNames (w imm : W64) : List Nat :=
  match bitsOf w 0 8 with
  | 0x80 => (List.range 24).filter fun n => bitOf imm n
  | 0x83 => []
  | 0x84 => []
  | _ => [bitsOf w 8 5]

/-- The gated stones in service that a bundle's race operation names. -/
def State.gatedNamed (s : State) (m : MillId) (b : Bundle) : List (Fin 24) :=
  if b.has 3 then (s.mill m).power.gated.filter fun g => (raceNames b.rc b.imm).contains g.val && !(s.stone m g.val).outOfService
  else []

/-- The sources and overrides of a sluice operation (R302): a[AD], SRC, DST, QUEUE and TCTR. -/
def sluiceArgs (k : Context) (w : W32) : W64 × Option W64 × Option W64 × Option Nat × Option Nat :=
  let ao := k.ar (bitsOf w 12 4)
  (k.ar (bitsOf w 8 4), if bitsOf w 0 8 = 0xA1 then some ao else none, if bitsOf w 0 8 = 0xA2 then some ao else none,
    if bitOf w 16 then some (bitsOf w 17 4) else none, if bitOf w 21 then some (bitsOf w 22 4) else none)

/-- The descriptor that a bundle's ISSUE would latch, as memory stands. -/
def State.descNamed (s : State) (m : MillId) (c : Ctx) (k : Context) (b : Bundle) : Except DescStop (List Byte) :=
  (({ s with codes := [] } : State).readDesc m (c == .system) (sluiceArgs k b.sl).1.toNat).1

/-- The sluice queues that a bundle's operations enter: that of an ISSUE, whose descriptor names it, and that of an RTILE. -/
def State.queuesNamed (s : State) (m : MillId) (c : Ctx) (k : Context) (b : Bundle) : List Nat :=
  let sl := if !b.has 4 then [] else
    let (_, src, dst, q, t) := sluiceArgs k b.sl
    match s.descNamed m c k b with
    | .error _ => []
    | .ok bs =>
      let bs := overrideDesc bs src dst q t
      if descMalformed bs || descBadAddr (c == .system) (s.pinBytes m) bs then [] else [(parseDesc bs).queue]
  let rc := if b.has 3 && bitsOf b.rc 0 8 == 0x83 then [bitsOf b.rc 28 4] else []
  sl ++ rc

/-- The vector unit that holds a bundle: one named by it with a pending write to a register that the operation reads. -/
def State.vectorPending (s : State) (m : MillId) (b : Bundle) : Option Nat :=
  if !b.has 2 then none
  else (vUnits b.v).find? fun p => (s.mill m).miller.vecQ.any fun o =>
    (vUnits o.slot).contains p && (vWrites o.slot).any fun r => (vReads b.v).contains r

/-- The race operation of a bundle, with what it latches (R288). -/
def State.bundleRaceOp (s : State) (m : MillId) (c : Ctx) (k : Context) (b : Bundle) : RaceOp :=
  { id := (s.mill m).race.nextId, system := c == .system, slot := b.rc, imm := b.imm, ax := k.ar (bitsOf b.rc 15 4),
    ay := k.ar (bitsOf b.rc 19 4), pc := k.pc, prog := 0, parts := [], data := [], brefs := [], done := false, failed := false }

/-- Where the miller stands as it reads what GFMT names: in no stream of the floor. -/
def gfmtAt (m : MillId) (c : Ctx) (pc : W64) : GovAt :=
  { mill := m, line := 0,
    mover := { source := { kind := 0, index := 0, pc := pc, slot := 5, system := c == .system }, node := millerNode } }

/-- The format code that a gradient write of a handle would use (R303); none where the manual states no result (a step before the last
two). -/
def gfmt (q : GovAt) (h : W64) : Gov (Option Nat) := do
  let d ← gdesc q (handleDesc h)
  if !d.policy then pure (some d.wfmt)
  else
    let r ← readLayer q d.layer
    let step := handleStep h
    pure (if r.step < step then some 0xF
      else if step = r.step then (layerFmt r.cur).map (·.code)
      else if step + 1 = r.step then (layerFmt r.prev).map (·.code)
      else none)

/-- A word that a slot of the bundle reads at issue waits for its port: the descriptor of an ISSUE, the tensor of an RTILE, the records of
GFMT. -/
def State.readsWait (s : State) (m : MillId) (c : Ctx) (k : Context) (b : Bundle) : Bool :=
  let s : State := { s with codes := [] }
  (b.has 4 && (match s.descNamed m c k b with | .error .wait => true | _ => false))
    || (b.has 3 && bitsOf b.rc 0 8 == 0x83 && s.tileWaits m (s.bundleRaceOp m c k b))
    || (b.gbOp == some 0xB4 && (match (gfmt (gfmtAt m c k.pc) (k.ar (bitsOf b.gb 13 4))).run.run s with
      | (.error (.hold _), _) => true
      | _ => false))

/-- The engines' part of R287. Two operations of a bundle may enter one queue. -/
def State.engineHold (s : State) (m : MillId) (c : Ctx) (k : Context) (b : Bundle) : Option Hold :=
  let queues := s.queuesNamed m c k b
  if b.has 3 && decide (64 ≤ (s.mill m).race.ops.length) then some (.race (bitsOf b.rc 13 2))
  else if !(s.gatedNamed m b).isEmpty then some (.ungate (bitsOf b.rc 13 2))
  else match queues.find? fun q => decide (64 < (s.queue m q).xfers.length + queues.count q) with
    | some q => some (.queue q)
    | none => match s.vectorPending m b with
      | some p => some (.vector p)
      | none =>
        if b.gbOp = some 0xB0 ∧ 16 ≤ (s.mill m).bolter.ops.length then some .bolter
        else if s.readsWait m c k b then some .memory
        else none

/-- What holds a bundle, if anything does. -/
def State.holdOf (s : State) (m : MillId) (c : Ctx) (b : Bundle) : Option Hold :=
  let k := s.ctx m c
  match b.wbOp with
  | some 0xC0 =>
    let t := k.tr (wTctr b.wb)
    let target := waitTarget k b.wb b.imm
    if waitHolds t target then s.engineHold m c k b else some (.wait (wTctr b.wb) t target)
  | some 0xC4 =>
    if (List.range 4).any fun e => bitOf b.wb (8 + e) && s.engineBusy m c e then some (.barrier (bitsOf b.wb 8 4))
    else s.engineHold m c k b
  | _ => s.engineHold m c k b

/-! ## Timeouts (R306) -/

/-- A timeout taken: with TFAULT = 1 the command ends in WAIT_TIMEOUT, with the counter and its count; otherwise the bundle is left and
the branch taken. -/
def State.takeTimeout (s : State) (m : MillId) (c : Ctx) (b : Bundle) : State :=
  let k := s.ctx m c
  let s := s.ikTally m c 4 1
  if bitOf b.wb 42 then
    s.precise m c { kind := .command, system := c == .system, page := .ikiug m, cause := 17, res := BitVec.ofNat 64 (wTctr b.wb),
                    opnd := (k.tr (wTctr b.wb)).zeroExtend 64, pc := k.pc, slot := 6, issue := false, injected := false }
  else
    let s := match c with | .user => s.raise (.ikiug m) 2 | .system => s
    (s.onCtx m c fun k => { k.clearFetch with pc := wTarget k.pc b.wb }).setSt m c .running

/-- The timed WAIT that a context is held at. -/
def Context.timedWait (k : Context) : Option (Bundle × Nat × W32) :=
  match k.waitOn, k.fetched with
  | some (ctr, target, ns), some x => if ns = 0 then none else some (parseBundle x, ctr, target)
  | _, _ => none

/-- The expiry of a context's WAIT timer: arrival wins where the count satisfies the WAIT. -/
def State.waitExpired (s : State) (m : MillId) (c : Ctx) : State :=
  match (s.ctx m c).timedWait with
  | none => s
  | some (b, ctr, target) => if waitHolds ((s.ctx m c).tr ctr) target then s else s.takeTimeout m c b

/-- WAIT_TIMEOUT: the timer of a held WAIT expires, the user context's first. It does not advance under the emergency brake or while the
reference is lost (R307). -/
def waitTimeout (m : MillId) (s : State) : State :=
  if s.halted || s.refHeld then s
  else if s.active m .user && (s.ctx m .user).timedWait.isSome then s.waitExpired m .user
  else if s.active m .system then s.waitExpired m .system
  else s

/-- WAIT_TIMEOUT. -/
def execWaitTimeout (m : MillId) (s : State) : Host.Outcome State Fault Refusal := .next (waitTimeout m s)

/-! ## Holding -/

/-- The bundle is held: the state of the context, and what counts once for a hold. -/
def State.holdAt (s : State) (m : MillId) (c : Ctx) (b : Bundle) (h : Hold) : State :=
  match h with
  | .wait ctr _ target =>
    if (s.ctx m c).waitOn.isSome then s
    else
      let timed := waitTimeoutNs b.wb ≠ 0
      let s := (s.ikTally m c 2 1).setSt m c .waiting
      let s := s.onCtx m c fun k => { k with waitOn := some (ctr, target, waitTimeoutNs b.wb), waitNs := 0, waitMet := none }
      let (inj, s) := if timed ∧ c = .user then s.takeInj (.ikiug m) 2 else (false, s)
      if inj then s.takeTimeout m c b else s
  | .barrier _ => if (s.mill m).miller.st == .waiting then s else (s.ikTally m c 6 1).setSt m c .waiting
  | .queue _ =>
    let s := s.setSt m c .held
    if (s.ctx m c).holdSeen then s else (s.tally (.sluice m) 13 1).onCtx m c fun k => { k with holdSeen := true }
  | .race _ => s.setSt m c .held
  | .ungate _ =>
    let g := s.gatedNamed m b
    (s.setSt m c .paused).onPower m fun p => { p with ungating := p.ungating ++ g.filter fun n => !p.ungating.contains n }
  | .vector _ => s.setSt m c .paused
  | .bolter => s.setSt m c .held
  | .memory => s.setSt m c .paused

/-! ## Scalar operations (R291, R292) -/

/-- The operations of R291 that work on two operands. -/
def scalarAlu (op : Nat) (x b : W64) : W64 :=
  match op with
  | 0x01 => x + b
  | 0x02 => x - b
  | 0x03 => x * b
  | 0x04 => BitVec.ofNat 64 (x.toNat * b.toNat / 2 ^ 64)
  | 0x05 => x &&& b
  | 0x06 => x ||| b
  | 0x07 => x ^^^ b
  | 0x08 => x <<< (b.toNat % 64)
  | 0x09 => x >>> (b.toNat % 64)
  | 0x0A => x.sshiftRight (b.toNat % 64)
  | 0x0B => if b.slt x then b else x
  | 0x0C => if x.slt b then b else x
  | 0x0D => if x.slt b then 1 else 0
  | 0x0E => if x.ult b then 1 else 0
  | 0x0F => if x == b then 1 else 0
  | 0x10 => (f32Add (loWord x) (loWord b)).zeroExtend 64
  | 0x11 => (f32Sub (loWord x) (loWord b)).zeroExtend 64
  | 0x12 => (f32Mul (loWord x) (loWord b)).zeroExtend 64
  | 0x13 => (f32Div (loWord x) (loWord b)).zeroExtend 64
  | 0x14 => (f32Sqrt (loWord x)).zeroExtend 64
  | 0x15 => BitVec.ofInt 64 (f32ToInt 64 (loWord x))
  | _ => (intToF32 x.toInt).zeroExtend 64

/-- A store of a scalar slot: bytes of a hopper or the granary, or a register word. -/
inductive Store where
  | bytes (l : Loc) (v : W64)
  | register (off : Nat) (w : W32)
deriving DecidableEq, Repr

/-- What a scalar slot gives: a register written (s-register n as n, a-register n as 32 + n) and a store. -/
structure SlotOut where
  reg   : Option (Nat × W64)
  store : Option Store
deriving DecidableEq, Repr

/-- The offset in register space of an RLD or RST (R239, R292). An address outside register space names no register. -/
def registerOffset (a : W64) : Nat :=
  if spaceOf a.toNat = 8 ∧ bitsOf a 28 32 = 0xF00 * 16 then bitsOf a 0 28 else 2 ^ 28

/-- The place that LD or ST reaches, or the fault it meets: a region race (R341), or an uncorrectable word of the pinned granary
(R248). -/
def State.localPlace (s : State) (m : MillId) (c : Ctx) (pc : W64) (slot : Nat) (a : W64) (write : Bool) :
    Except FaultInfo Loc × State :=
  let race (granary inj : Bool) (stone off : Nat) : FaultInfo :=
    { kind := .contract, system := c == .system, page := .floor m 0, cause := 2, res := raceRes granary stone write off,
      opnd := BitVec.ofNat 64 off, pc := pc, slot := slot, issue := true, injected := inj }
  if spaceOf a.toNat = 1 then
    let off := bitsOf a 0 23
    let stone := bitsOf a 24 5
    let (bad, inj, s) := s.hopperRace m stone off 8 write
    (if bad then .error (race false inj stone off) else .ok (.hopper (hopperKey m stone off)), s)
  else
    let off := bitsOf a 0 27
    if s.granaryRace m off 8 write then (.error (race true false 0 off), s)
    else if write then (.ok (.granary (granaryKey m off)), s)
    else match s.pinRead m off 8 with
      | (some (w, inj), s) =>
        (.error { kind := .command, system := c == .system, page := .granary m, cause := 13, res := 0, opnd := BitVec.ofNat 64 w,
                  pc := pc, slot := slot, issue := true, injected := inj }, s)
      | (none, s) => (.ok (.granary (granaryKey m off)), s)

/-- What a fault of LD or ST shows in its own block: the event, and an armed injection counted. -/
def State.localNote (s : State) (m : MillId) (f : FaultInfo) : State :=
  let s := if f.injected then s.injected f.page else s
  if f.page = .granary m then s.raise (.granary m) 0 else (s.raise (.floor m 0) 1).tally (.floor m 0) 12 1

/-- A scalar slot performs its operation on the registers as they stood; its store is left to the end of the bundle. -/
def State.scalarRun (s : State) (m : MillId) (c : Ctx) (k : Context) (slot : Nat) (w imm : W64) :
    Except FaultInfo SlotOut × State :=
  let x := k.sr (cRA w)
  let b := scalarB k w imm
  let a := scalarAddr k w imm
  let rd (v : W64) : Except FaultInfo SlotOut := .ok { reg := some (cRD w, v), store := none }
  match cOp w with
  | 0x20 => (.ok { reg := some (32 + cAX w, x + b), store := none }, s)
  | 0x21 => (rd (k.ar (cAX w) + b), s)
  | 0x22 => (rd ((k.tr (cAX w)).zeroExtend 64), s)
  | 0x28 =>
    match s.localPlace m c k.pc slot a false with
    | (.error f, s) => (.error f, s)
    | (.ok l, s) => (rd (BitVec.ofNat 64 (leNat (s.locRead l 8))), s)
  | 0x29 =>
    match s.localPlace m c k.pc slot a true with
    | (.error f, s) => (.error f, s)
    | (.ok l, s) => (.ok { reg := none, store := some (.bytes l (k.sr (cRD w))) }, s)
  | 0x30 =>
    let p := sysPath m
    let s := s.regRead p (registerOffset a) 32
    (rd (s.path p).reply, s)
  | 0x31 => (.ok { reg := none, store := some (.register (registerOffset a) (loWord (k.sr (cRD w)))) }, s)
  | op => (rd (scalarAlu op x b), s)

/-- A scalar slot of a bundle, where it is present. -/
def State.slotRun (s : State) (m : MillId) (c : Ctx) (k : Context) (b : Bundle) (slot : Nat) :
    Except FaultInfo SlotOut × State :=
  if b.has slot then s.scalarRun m c k slot (if slot = 0 then b.s0 else b.s1) b.imm else (.ok { reg := none, store := none }, s)

/-- A store takes effect. -/
def State.doStore (s : State) (m : MillId) (x : Store) : State :=
  match x with
  | .bytes l v => s.locWrite l (leBytes 8 v.toNat)
  | .register off w => s.regWrite (sysPath m) off 32 (w.zeroExtend 64)

/-! ## GFMT (R303) -/

/-- GFMT of a bundle: the value for s[RD], or the fault that the governor meets, which is the bundle's (R313). -/
def State.gfmtRun (s : State) (m : MillId) (c : Ctx) (k : Context) (b : Bundle) : Except FaultInfo (List (Nat × W64)) × State :=
  if b.gbOp ≠ some 0xB4 then (.ok [], s)
  else
    let h := k.ar (bitsOf b.gb 13 4)
    let rd := bitsOf b.gb 8 5
    let q := gfmtAt m c k.pc
    match (gfmt q h).run.run s with
    | (.ok (some v), s) => (.ok [(rd, BitVec.ofNat 64 v)], s)
    | (.ok none, s) => (.ok [(rd, s.free)], s.drawn)
    | (.error e, s') =>
      let f := s'.govEnd m e (handleDesc h) 14 (handleStep h) q.mover.source
      match (f.mill m).miller.faults.getLast? with
      | some x => (.error { x with issue := true }, f.onMiller m fun y => { y with faults := y.faults.dropLast })
      | none => (.ok [], s)

/-! ## Issue (R287, R288) -/

/-- The engines' operations of a bundle enter their engines, with what they latch (R288). -/
def State.toEngines (s : State) (m : MillId) (c : Ctx) (k : Context) (b : Bundle) : State :=
  let sys := c == .system
  let s := if !b.has 2 then s else
    let o : VecOp := { slot := b.v, imm := b.imm, sb := k.sr (vVB b.v % 32), sc := k.sr (vVC b.v % 32), ax := k.ar (vAX b.v), pc := k.pc }
    s.onMiller m fun x => { x with vecQ := x.vecQ ++ [o] }
  let s := if !b.has 3 then s else
    let o := s.bundleRaceOp m c k b
    let s := s.onRace m fun r => { r with nextId := r.nextId + 1, ops := r.ops ++ [o] }
    if o.code = 0x83 then s.issueTile m o else s
  let s := if !b.has 4 then s else
    let (ad, src, dst, q, t) := sluiceArgs k b.sl
    s.issueXfer m sys ad src dst q t k.pc
  if b.gbOp ≠ some 0xB0 then s else
    let o : UpdateOp :=
      { id := (s.mill m).race.nextId, system := sys, bdesc := bitsOf b.gb 8 12, step := bitsOf (k.sr (bitsOf b.gb 20 5)) 0 48,
        fg := loWord (k.sr (bitsOf b.gb 25 5)), flr := loWord (k.sr (bitsOf b.gb 30 5)),
        post := if bitOf b.gb 39 then some (bitsOf b.gb 35 4) else none, pc := k.pc, phase := .waiting, desc := [], rule := [],
        kmask := [], nmask := [], sweep2 := false, line := 0, elem := 0, rowStat := [], colStat := [], mean := 0, rows := [],
        held := [], nonfinite := false, fellBack := false, began := false, checked := false, pageCause := 0, pageAt := 0,
        stopLine := 0, stopElem := 0, quiet := false, ending := none }
    (s.onRace m fun r => { r with nextId := r.nextId + 1 }).onBolter m fun x => { x with ops := x.ops ++ [o] }

/-- TPOST (R309): to the own mill at once, to the other over the shaft. -/
def State.tpost (s : State) (m : MillId) (c : Ctx) (b : Bundle) : State :=
  if b.wbOp ≠ some 0xC8 then s
  else
    let s := s.ikTally m c 10 1
    let n := bitsOf b.wb 13 16
    if bitOf b.wb 12 then s.onMill m fun x => { x with shaft := x.shaft ++ [.post c (wTctr b.wb) n] } else s.post m c (wTctr b.wb) n

/-- The pc after a bundle (R304). -/
def nextPc (k : Context) (b : Bundle) : W64 :=
  match b.wbOp with
  | some 0xD0 => wTarget k.pc b.wb
  | some 0xD1 =>
    if branchTaken (bitsOf b.wb 18 3) (k.sr (bitsOf b.wb 8 5)) (k.sr (bitsOf b.wb 13 5)) then wTarget k.pc b.wb else k.pc + 64
  | some 0xD2 => wTarget k.pc b.wb
  | some 0xD3 => k.sr (bitsOf b.wb 8 5)
  | _ => k.pc + 64

/-- The register writes of a bundle take effect together. -/
def Context.write (k : Context) (ws : List (Nat × W64)) : Context :=
  ws.foldl (fun k w => if w.1 < 32 then k.setS w.1 w.2 else k.setA (w.1 - 32) w.2) k

/-- A satisfied timed WAIT whose satisfying token came after 90 % of TIMEOUT (R307). -/
def Context.late (k : Context) : Bool :=
  match k.waitOn, k.waitMet with
  | some (_, _, ns), some met => ns != 0 && decide (9 * ns < 10 * met)
  | _, _ => false

/-- The bundle issues: stores, registers, engines, posts, pc, tallies and the log's samples. -/
def State.commit (s : State) (m : MillId) (c : Ctx) (k : Context) (b : Bundle) (outs : List SlotOut) (gf : List (Nat × W64)) :
    State :=
  let s := s.forAll (outs.filterMap (·.store)) fun s x => s.doStore m x
  let link := if b.wbOp = some 0xD2 then [(bitsOf b.wb 8 5, k.pc + 64)] else []
  let s := s.onCtx m c fun k' => k'.write (outs.filterMap (·.reg) ++ gf ++ link)
  let s := (s.toEngines m c k b).tpost m c b
  let s := s.ikTally m c 5 (boolNat k.late)
  let s := (s.ikTally m c 0 1).ikTally m c 1 b.ops
  let s := s.tally (.power m) (match c with | .user => 6 | .system => 7) 1
  let s := s.onCtx m c fun k' =>
    { k'.clearFetch with pc := nextPc k b, bundles := k.bundles + 1, heldNs := 0, stallCode := 0, stallNs := 0 }
  let s := s.setSt m c (if b.wbOp = some 0xDF then .atEnd else .running)
  s.logIssue m c k.pc (k.bundles + 1) (if b.wbOp = some 0xDF then Stall.end_ else Stall.none_)

/-- The slots read and compute; a fault of LD, ST or GFMT leaves the bundle unissued, and otherwise it issues whole. -/
def State.issue (s : State) (m : MillId) (c : Ctx) (b : Bundle) : State :=
  let k := s.ctx m c
  match s.slotRun m c k b 0 with
  | (.error f, _) => (s.localNote m f).precise m c f
  | (.ok o0, s1) => match s1.slotRun m c k b 1 with
    | (.error f, _) => (s.localNote m f).precise m c f
    | (.ok o1, s2) => match s2.gfmtRun m c k b with
      | (.error f, s3) => s3.precise m c f
      | (.ok gf, s3) => s3.commit m c k b [o0, o1] gf

/-! ## Tolls of bundles and the miller's own errors (R416, R417) -/

/-- A replayable condition of the miller itself: written to the history, and the user context waits for its replay. In the system
context the firmware routine begins again from its entry. -/
def State.millerCondition (s : State) (m : MillId) (c : Ctx) (page : Page) (injected : Bool) : State :=
  let f : FaultInfo :=
    { kind := .replayable 5 { kind := .miller, index := m.num }, system := c == .system, page := page, cause := 0, res := 0, opnd := 0,
      pc := (s.ctx m c).pc, slot := 0, issue := true, injected := injected }
  let s := s.histPending m (4, m.num) 5 0 injected
  match c with
  | .user => s.onMiller m fun x => { x with replay := some f, st := .stopped }
  | .system =>
    let pc := s.firmwareEntry
    s.drawn.onCtx m .system fun k => { k.clearFetch with pc := pc }

/-- Is a context's next bundle sampled (R416)? The bundle count stands for the pass, and the stone term is 0. -/
def State.bundleSampled (s : State) (m : MillId) (c : Ctx) : Bool :=
  let rate := s.fld (.toll m) 0x100 16 15
  let n := BitVec.ofNat 32 (s.ctx m c).bundles
  let seed := s.word (.toll m) 0x104
  match c with
  | .user => (s.mill m).toll.on && decide ((mix32 seed (s.seq m) 0 n).toNat % 65536 < rate)
  | .system => s.fld (.toll m) 0x110 0 8 != 0 && decide ((mix32 seed 0 0 n).toNat % 65536 < rate)

/-- The toll of a bundle about to issue: whether it mismatches, and the state after it. The units of the model make no errors of their
own: a mismatch is an injected one. -/
def State.bundleToll (s : State) (m : MillId) (c : Ctx) : Bool × State :=
  if !s.bundleSampled m c then (false, s)
  else
    let s := s.tally (.toll m) 8 1
    let (inj, s) := s.takeInj (.toll m) 3
    if !inj then (false, s)
    else
      let s := (s.tally (.toll m) 9 1).raise (.toll m) 1
      let k := s.ctx m c
      (true, (s.tollRecord m 0 0 4 k.bundles 0 k.pc).millerCondition m c (.toll m) true)

/-- The miller's registers or fetch buffer hold an uncorrectable word (R417). -/
def State.registerEcc (s : State) (m : MillId) (c : Ctx) : State :=
  match c with
  | .user => s.millerCondition m .user (.ikiug m) false
  | .system => systemContextEccReset m s

/-! ## BUNDLE_ISSUE -/

/-- The fetched bundle against R287: held, or issued. -/
def State.tryIssue (s : State) (m : MillId) (c : Ctx) (b : Bundle) : State :=
  match s.holdOf m c b with
  | some h => s.holdAt m c b h
  | none =>
    let first := b.wbOp = some 0xC0 ∧ waitTimeoutNs b.wb ≠ 0 ∧ c = .user ∧ (s.ctx m c).waitOn.isNone
    let s := if first then (s.takeInj (.ikiug m) 2).2 else s
    match s.bundleToll m c with
    | (true, s) => s
    | (false, s) => s.issue m c b

/-- BUNDLE_ISSUE: the fetched bundle of a context is checked whole; it ends in a precise fault, is held, or issues. `ecc` is the outcome of
the code over the miller's registers and fetch buffer, `codes` those of the words that a slot reads (a descriptor, a pinned word). -/
def bundleIssue (m : MillId) (c : Ctx) (ecc : Ecc) (codes : List Ecc) (s : State) : State :=
  if s.halted || !s.active m c then s
  else match (s.ctx m c).fetched with
    | none => s
    | some x =>
      let k := s.ctx m c
      let b := parseBundle x
      if ecc = .uncorrectable then s.registerEcc m c
      else
        let (inj, s) := if c = .user ∧ (s.mill m).miller.st = .running then s.takeInj (.ikiug m) 1 else (false, s)
        if inj then s.precise m c (checkInfo m c k.pc (s.injTarget (.ikiug m) % 8) 1 (0, 0) true)
        else match s.bundleFault m c k b with
          | some (slot, cause) => s.precise m c (checkInfo m c k.pc slot cause.code (checkData k b slot cause) false)
          | none => s.coded codes fun s => s.tryIssue m c b

/-- BUNDLE_ISSUE. -/
def execBundleIssue (m : MillId) (c : Ctx) (ecc : Ecc) (codes : List Ecc) (s : State) : Host.Outcome State Fault Refusal :=
  .next (bundleIssue m c ecc codes s)

/-! ## Hold samples (R541, R542) -/

/-- Is a context held without issuing? -/
def State.isHeld (s : State) (m : MillId) : Ctx → Bool
  | .user =>
    let x := (s.mill m).miller
    x.st == .spliceStart || ((s.running m).isSome && x.st != .idle && x.st != .stopped)
  | .system => (s.ctx m .system).fetched.isSome

/-- The stall code of a context's next bundle, with what the sample names (R542): the lowest that holds. -/
def State.stall (s : State) (m : MillId) (c : Ctx) : Stall :=
  let code (n res detail : Nat) : Stall := { Stall.none_ with code := n, res := res, detail := detail }
  let rest : Stall :=
    if s.supply.ebrake then code 7 0 0
    else if s.refHeld && (s.ctx m c).fetched.isNone then code 8 0 0
    else if c = .user ∧ (s.mill m).miller.st = .spliceStart then code 9 0 0
    else if c = .user ∧ (s.mill m).miller.st = .atEnd then code 10 0 0
    else if (s.ctx m c).fetched.isNone then code 11 0 0
    else Stall.none_
  match (s.ctx m c).fetched with
  | none => rest
  | some x => match s.holdOf m c (parseBundle x) with
    | some (.wait ctr n k) => { code := 1, res := ctr, detail := 0, count := n, target := k }
    | some (.barrier e) => code 2 e 0
    | some (.race r) => code 3 r 0
    | some (.ungate r) => code 3 r 0
    | some (.queue q) => code 4 q 0
    | some (.vector p) => code 5 0 p
    | some .bolter => rest
    | some .memory => if !s.supply.ebrake && s.refHeld then code 8 0 0 else rest
    | none => rest

/-- A context's bundle holds while a stone that it names ungates (R512). -/
def State.ungateHolds (s : State) (m : MillId) (c : Ctx) : Bool :=
  s.active m c && (match (s.ctx m c).fetched with
    | some x => (s.gatedNamed m (parseBundle x)).any (s.mill m).power.ungating.contains
    | none => false)

/-- LOG_HOLD_SAMPLE: a sampled context held for HOLD_US µs is sampled. -/
def logHoldSample (m : MillId) (c : Ctx) (s : State) : State :=
  if !s.logsCtx m c || !s.isHeld m c || s.fld (.log m) 0x100 16 16 == 0 then s
  else (s.logSample m c (s.stall m c) true false).onCtx m c fun k => { k with heldNs := 0 }

/-- LOG_HOLD_SAMPLE. -/
def execLogHoldSample (m : MillId) (c : Ctx) (s : State) : Host.Outcome State Fault Refusal := .next (logHoldSample m c s)

end Sys2Proof.Machine
end

