-- ==== Sys2Proof/Machine/Rows.lean ====
section
/-! DEFINITION. The commands that are a write or a read of one register, each as the access it is. -/

namespace Sys2Proof.Machine

/-! ## Supply and resets (R510, R523, R527, R529) -/

/-- MODULE_RESET: SUPPLY_CTL.MODULE_RESET is written. -/
def moduleReset (p : Path) (s : State) : State := s.regWrite p (Page.base .supply + 0x10C) 32 8
def execModuleReset (p : Path) (s : State) : Host.Outcome State Fault Refusal := .next (moduleReset p s)

/-- MILLER_RESET: the bit of a mill's power page is written. -/
def millerReset (p : Path) (m : MillId) (s : State) : State := s.regWrite p ((Page.power m).base + 0x118) 32 1
def execMillerReset (p : Path) (m : MillId) (s : State) : Host.Outcome State Fault Refusal := .next (millerReset p m s)

/-- POWER_ON: SUPPLY_CTL.POWER_ON is written. -/
def powerOn (p : Path) (s : State) : State := s.regWrite p (Page.base .supply + 0x10C) 32 2
def execPowerOn (p : Path) (s : State) : Host.Outcome State Fault Refusal := .next (powerOn p s)

/-- POWER_DOWN: SUPPLY_CTL.POWER_DOWN is written. -/
def powerDown (p : Path) (s : State) : State := s.regWrite p (Page.base .supply + 0x10C) 32 4
def execPowerDown (p : Path) (s : State) : Host.Outcome State Fault Refusal := .next (powerDown p s)

/-- RELEASE_CAP: SUPPLY_CTL.RELEASE_CAP is written. -/
def releaseCap (p : Path) (s : State) : State := s.regWrite p (Page.base .supply + 0x10C) 32 1
def execReleaseCap (p : Path) (s : State) : Host.Outcome State Fault Refusal := .next (releaseCap p s)

/-! ## Commands (R477, R484) -/

/-- CMD_WORD: a word is written to command page offset 0x800 to 0xFFF. -/
def cmdWord (p : Path) (m : MillId) (offset : BitVec 12) (w : W32) (s : State) : State :=
  if offset.toNat < 0x800 then s else s.regWrite p ((Page.command m).base + offset.toNat) 32 (w.zeroExtend 64)
def execCmdWord (p : Path) (m : MillId) (offset : BitVec 12) (w : W32) (s : State) : Host.Outcome State Fault Refusal :=
  .next (cmdWord p m offset w s)

/-- RESET_ASM: the path's assembly is emptied. -/
def resetAsm (p : Path) (m : MillId) (s : State) : State := s.regWrite p ((Page.command m).base + 0x110) 32 2
def execResetAsm (p : Path) (m : MillId) (s : State) : Host.Outcome State Fault Refusal := .next (resetAsm p m s)

/-- CMD_ABORT: a sequence number is written. -/
def cmdAbort (p : Path) (m : MillId) (seq : W32) (s : State) : State :=
  s.regWrite p ((Page.command m).base + 0x10C) 32 (seq.zeroExtend 64)
def execCmdAbort (p : Path) (m : MillId) (seq : W32) (s : State) : Host.Outcome State Fault Refusal := .next (cmdAbort p m seq s)

/-- FLUSH: CMD_CTL.FLUSH is written. -/
def flush (p : Path) (m : MillId) (s : State) : State := s.regWrite p ((Page.command m).base + 0x110) 32 1
def execFlush (p : Path) (m : MillId) (s : State) : Host.Outcome State Fault Refusal := .next (flush p m s)

/-! ## Stones (R96) -/

/-- APPLY: REPAIR_CTL.APPLY is written. -/
def apply (p : Path) (m : MillId) (n : Fin 24) (s : State) : State := s.regWrite p ((Page.stone m n).base + 0x110) 32 1
def execApply (p : Path) (m : MillId) (n : Fin 24) (s : State) : Host.Outcome State Fault Refusal := .next (apply p m n s)

/-- SELFTEST: REPAIR_CTL.SELFTEST is written. -/
def selftest (p : Path) (m : MillId) (n : Fin 24) (s : State) : State := s.regWrite p ((Page.stone m n).base + 0x110) 32 2
def execSelftest (p : Path) (m : MillId) (n : Fin 24) (s : State) : Host.Outcome State Fault Refusal := .next (selftest p m n s)

/-! ## Bolter, ledger and sluices (R234, R235, R251, R267) -/

/-- BOLT_RESUME is written; `codes` are the outcomes of the words that the operation reads as it goes on. -/
def boltResume (p : Path) (m : MillId) (codes : List Ecc) (s : State) : State :=
  s.coded codes fun s => s.regWrite p ((Page.bolter m).base + 0x150) 32 1
def execBoltResume (p : Path) (m : Coded MillId) (s : State) : Host.Outcome State Fault Refusal :=
  .next (boltResume p m.of m.codes s)

/-- WRITEBACK: LCACHE_CTL.WRITEBACK is written. -/
def writeback (p : Path) (m : MillId) (s : State) : State := s.regWrite p ((Page.ledger m).base + 0x180) 32 1
def execWriteback (p : Path) (m : MillId) (s : State) : Host.Outcome State Fault Refusal := .next (writeback p m s)

/-- RESUME: SLU_RESUME names a queue with RESUME. -/
def resume (p : Path) (m : MillId) (q : Fin 16) (s : State) : State :=
  s.regWrite p ((Page.sluice m).base + 0x110) 32 (BitVec.ofNat 64 (q.val + 0x100))
def execResume (p : Path) (m : MillId) (q : Fin 16) (s : State) : Host.Outcome State Fault Refusal := .next (resume p m q s)

/-- FAIL: SLU_RESUME names a queue with FAIL. -/
def fail (p : Path) (m : MillId) (q : Fin 16) (s : State) : State :=
  s.regWrite p ((Page.sluice m).base + 0x110) 32 (BitVec.ofNat 64 (q.val + 0x200))
def execFail (p : Path) (m : MillId) (q : Fin 16) (s : State) : Host.Outcome State Fault Refusal := .next (fail p m q s)

/-- TLB_INVAL.ALL is written. -/
def tlbInvalAll (p : Path) (m : MillId) (s : State) : State := s.regWrite p ((Page.sluice m).base + 0x118) 32 1
def execTlbInvalAll (p : Path) (m : MillId) (s : State) : Host.Outcome State Fault Refusal := .next (tlbInvalAll p m s)

/-- TLB_INVAL.PAGE is written. -/
def tlbInvalPage (p : Path) (m : MillId) (s : State) : State := s.regWrite p ((Page.sluice m).base + 0x118) 32 2
def execTlbInvalPage (p : Path) (m : MillId) (s : State) : Host.Outcome State Fault Refusal := .next (tlbInvalPage p m s)

/-! ## Leat (R368, R374, R393, R396) -/

/-- RETRAIN: PORT_CTL is written with RETRAIN, its other fields as they stand. -/
def retrain (p : Path) (port : Fin 24) (s : State) : State :=
  s.regWrite p ((portPage port.val).base + 0x100) 32 (BitVec.ofNat 64 ((s.word (portPage port.val) 0x100).toNat ||| 8))
def execRetrain (p : Path) (port : Fin 24) (s : State) : Host.Outcome State Fault Refusal := .next (retrain p port s)

/-- TIME_SET is written. -/
def timeSet (p : Path) (value : W64) (s : State) : State := s.regWrite p (Page.base .leat + 0x130) 64 value
def execTimeSet (p : Path) (value : W64) (s : State) : Host.Outcome State Fault Refusal := .next (timeSet p value s)

/-- GROUP_LOAD.LOAD is written; `codes` are the outcomes of the record's words. -/
def groupLoad (p : Path) (group : BitVec 12) (codes : List Ecc) (s : State) : State :=
  s.coded codes fun s => s.regWrite p (Page.base .leat + 0x110) 32 (BitVec.ofNat 64 (group.toNat + 0x1000))
def execGroupLoad (p : Path) (group : Coded (BitVec 12)) (s : State) : Host.Outcome State Fault Refusal :=
  .next (groupLoad p group.of group.codes s)

/-- DROP: GROUP_LOAD.DROP is written. -/
def drop (p : Path) (group : BitVec 12) (s : State) : State :=
  s.regWrite p (Page.base .leat + 0x110) 32 (BitVec.ofNat 64 (group.toNat + 0x2000))
def execDrop (p : Path) (group : BitVec 12) (s : State) : Host.Outcome State Fault Refusal := .next (drop p group s)

/-- ROUTE_DATA is written. -/
def routeData (p : Path) (w : W32) (s : State) : State := s.regWrite p (Page.base .leat + 0x11C) 32 (w.zeroExtend 64)
def execRouteData (p : Path) (w : W32) (s : State) : Host.Outcome State Fault Refusal := .next (routeData p w s)

/-! ## Retirement and pond copies (R425, R430, R458) -/

/-- RETIRE: RETIRE_CTL.RETIRE is written for a unit. -/
def retire (p : Path) (kind : BitVec 4) (index : BitVec 16) (s : State) : State :=
  s.regWrite p (Page.base .history + 0x420) 32 (BitVec.ofNat 64 (kind.toNat + 16 * index.toNat + 0x100000))
def execRetire (p : Path) (kind : BitVec 4) (index : BitVec 16) (s : State) : Host.Outcome State Fault Refusal :=
  .next (retire p kind index s)

/-- RETIRE_RESTORE: RETIRE_CTL.RESTORE is written for a unit. -/
def retireRestore (p : Path) (kind : BitVec 4) (index : BitVec 16) (s : State) : State :=
  s.regWrite p (Page.base .history + 0x420) 32 (BitVec.ofNat 64 (kind.toNat + 16 * index.toNat + 0x200000))
def execRetireRestore (p : Path) (kind : BitVec 4) (index : BitVec 16) (s : State) : Host.Outcome State Fault Refusal :=
  .next (retireRestore p kind index s)

/-- TAKE: POND_CTL.TAKE is written. -/
def take (p : Path) (s : State) : State := s.regWrite p (Page.base .pond + 0x104) 32 1
def execTake (p : Path) (s : State) : Host.Outcome State Fault Refusal := .next (take p s)

/-- POND_ABORT: POND_CTL.ABORT is written. -/
def pondAbort (p : Path) (s : State) : State := s.regWrite p (Page.base .pond + 0x104) 32 2
def execPondAbort (p : Path) (s : State) : Host.Outcome State Fault Refusal := .next (pondAbort p s)

/-- EXPORTED: POND_CTL.EXPORTED is written for a slot. -/
def exported (p : Path) (slot : Bool) (s : State) : State :=
  s.regWrite p (Page.base .pond + 0x104) 32 (BitVec.ofNat 64 (4 + 32 * boolNat slot))
def execExported (p : Path) (slot : Bool) (s : State) : Host.Outcome State Fault Refusal := .next (exported p slot s)

/-- POND_RESTORE: POND_CTL.RESTORE is written for a slot. -/
def pondRestore (p : Path) (slot settings : Bool) (s : State) : State :=
  s.regWrite p (Page.base .pond + 0x104) 32 (BitVec.ofNat 64 (8 + 32 * boolNat slot + 64 * boolNat settings))
def execPondRestore (p : Path) (slot settings : Bool) (s : State) : Host.Outcome State Fault Refusal := .next (pondRestore p slot settings s)

/-- RECEIVE: POND_CTL.RECEIVE is written for a slot. -/
def receive (p : Path) (slot : Bool) (s : State) : State :=
  s.regWrite p (Page.base .pond + 0x104) 32 (BitVec.ofNat 64 (16 + 32 * boolNat slot))
def execReceive (p : Path) (slot : Bool) (s : State) : Host.Outcome State Fault Refusal := .next (receive p slot s)

/-! ## Chutes and the event FIFO (R469, R470, R471, R473, R485) -/

/-- CHUTE_IN_DEST is written. -/
def chuteInDestWrite (p : Path) (value : W64) (s : State) : State := s.regWrite p (Page.base .host + 0x180) 64 value
def execChuteInDestWrite (p : Path) (value : W64) (s : State) : Host.Outcome State Fault Refusal := .next (chuteInDestWrite p value s)

/-- CHUTE_IN_DONE is read over the link. -/
def chuteInDoneRead (s : State) : State := s.regRead .pcie (Page.base .host + 0x190) 32
def execChuteInDoneRead (s : State) : Host.Outcome State Fault Refusal := .next (chuteInDoneRead s)

/-- START: CHUTE_OUT_CTL.START is written. -/
def start (p : Path) (s : State) : State := s.regWrite p (Page.base .host + 0x1C0) 32 1
def execStart (p : Path) (s : State) : Host.Outcome State Fault Refusal := .next (start p s)

/-- STOP: CHUTE_OUT_CTL.STOP is written. -/
def stop (p : Path) (s : State) : State := s.regWrite p (Page.base .host + 0x1C0) 32 2
def execStop (p : Path) (s : State) : Host.Outcome State Fault Refusal := .next (stop p s)

/-- EVT_FIFO's low word is read. -/
def evtFifoRead (p : Path) (s : State) : State := s.regRead p (Page.base .host + 0x108) 32
def execEvtFifoRead (p : Path) (s : State) : Host.Outcome State Fault Refusal := .next (evtFifoRead p s)

/-- EVT_EN of a page is written. -/
def evtEn (p : Path) (page : Page) (w : W32) (s : State) : State := s.regWrite p (page.base + 0x014) 32 (w.zeroExtend 64)
def execEvtEn (p : Path) (page : Page) (w : W32) (s : State) : Host.Outcome State Fault Refusal := .next (evtEn p page w s)

/-- EVT_CLR of a page is written. -/
def evtClr (p : Path) (page : Page) (w : W32) (s : State) : State := s.regWrite p (page.base + 0x01C) 32 (w.zeroExtend 64)
def execEvtClr (p : Path) (page : Page) (w : W32) (s : State) : Host.Outcome State Fault Refusal := .next (evtClr p page w s)

/-- HOIST_DATA is written (R494). -/
def hoistDataWrite (p : Path) (w : W32) (s : State) : State := s.regWrite p (Page.base .host + 0x218) 32 (w.zeroExtend 64)
def execHoistDataWrite (p : Path) (w : W32) (s : State) : Host.Outcome State Fault Refusal := .next (hoistDataWrite p w s)

/-- HOIST_DATA is read (R494). -/
def hoistDataRead (p : Path) (s : State) : State := s.regRead p (Page.base .host + 0x218) 32
def execHoistDataRead (p : Path) (s : State) : Host.Outcome State Fault Refusal := .next (hoistDataRead p s)

/-! ## Claims (R600, R601) -/

/-- ACQUIRE: CLAIM of a page is written with a code and ACQUIRE. -/
def acquire (p : Path) (page : Page) (code : BitVec 4) (s : State) : State :=
  s.regWrite p (page.base + 0x02C) 32 (BitVec.ofNat 64 (code.toNat + 16))
def execAcquire (p : Path) (page : Page) (code : BitVec 4) (s : State) : Host.Outcome State Fault Refusal :=
  .next (acquire p page code s)

/-- RELEASE: CLAIM of a page is written with a code and RELEASE. -/
def release (p : Path) (page : Page) (code : BitVec 4) (s : State) : State :=
  s.regWrite p (page.base + 0x02C) 32 (BitVec.ofNat 64 (code.toNat + 32))
def execRelease (p : Path) (page : Page) (code : BitVec 4) (s : State) : Host.Outcome State Fault Refusal :=
  .next (release p page code s)

/-! ## Log and tensor watch (R543 to R545, R549, R552) -/

/-- ARM: LOG_CTL.ARM is written. -/
def arm (p : Path) (m : MillId) (s : State) : State := s.regWrite p ((Page.log m).base + 0x118) 32 1
def execArm (p : Path) (m : MillId) (s : State) : Host.Outcome State Fault Refusal := .next (arm p m s)

/-- TRIG_NOW: LOG_CTL.TRIG_NOW is written. -/
def trigNow (p : Path) (m : MillId) (s : State) : State := s.regWrite p ((Page.log m).base + 0x118) 32 2
def execTrigNow (p : Path) (m : MillId) (s : State) : Host.Outcome State Fault Refusal := .next (trigNow p m s)

/-- LOG_RUN: LOG_CTL.RUN is written. -/
def logRun (p : Path) (m : MillId) (s : State) : State := s.regWrite p ((Page.log m).base + 0x118) 32 4
def execLogRun (p : Path) (m : MillId) (s : State) : Host.Outcome State Fault Refusal := .next (logRun p m s)

/-- Word 0 of LOG_RD_DATA is read. -/
def logRdDataRead (p : Path) (m : MillId) (s : State) : State := s.regRead p ((Page.log m).base + 0x160) 32
def execLogRdDataRead (p : Path) (m : MillId) (s : State) : Host.Outcome State Fault Refusal := .next (logRdDataRead p m s)

/-- WATCH_CLOSE is written. -/
def watchClose (p : Path) (m : MillId) (mask : BitVec 16) (s : State) : State :=
  s.regWrite p ((Page.watch m).base + 0x900) 32 (mask.zeroExtend 64)
def execWatchClose (p : Path) (m : MillId) (mask : BitVec 16) (s : State) : Host.Outcome State Fault Refusal :=
  .next (watchClose p m mask s)

/-! ## Injection (R557) -/

/-- INJ_ARM: INJ_CTL of a page is written with ARM, REPEAT and PARAM. -/
def injArm (p : Path) (page : Page) (repeats : Byte) (param : BitVec 16) (s : State) : State :=
  s.regWrite p (page.base + 0x024) 32 (BitVec.ofNat 64 (1 + 16 * repeats.toNat + 65536 * param.toNat))
def execInjArm (p : Path) (page : Page) (repeats : Byte) (param : BitVec 16) (s : State) : Host.Outcome State Fault Refusal :=
  .next (injArm p page repeats param s)

/-- DISARM: INJ_CTL of a page is written with DISARM, REPEAT and PARAM as they stand. -/
def disarm (p : Path) (page : Page) (s : State) : State :=
  s.regWrite p (page.base + 0x024) 32 (BitVec.ofNat 64 (2 + 16 * s.fld page 0x024 4 8 + 65536 * s.fld page 0x024 16 16))
def execDisarm (p : Path) (page : Page) (s : State) : Host.Outcome State Fault Refusal := .next (disarm p page s)

/-- INJECTION_TIME_END: the chosen time of an injection ends; it has counted once. -/
def injectionTimeEnd (page : Page) (s : State) : State :=
  { s with inj := s.inj.filterMap fun i =>
      if i.entry = page.entry ∧ i.timed = true then (if i.left ≤ 1 then none else some { i with left := i.left - 1, timed := false })
      else some i }
def execInjectionTimeEnd (page : Page) (s : State) : Host.Outcome State Fault Refusal := .next (injectionTimeEnd page s)

/-! ## Trust (R567, R568, R572, R573, R578) -/

/-- VERIFY_INACTIVE: TRUST_CTL.VERIFY_INACTIVE is written. -/
def verifyInactive (p : Path) (s : State) : State := s.regWrite p (Page.base .trust + 0x108) 32 1
def execVerifyInactive (p : Path) (s : State) : Host.Outcome State Fault Refusal := .next (verifyInactive p s)

/-- ACTIVATE: TRUST_CTL.ACTIVATE is written. -/
def activate (p : Path) (s : State) : State := s.regWrite p (Page.base .trust + 0x108) 32 2
def execActivate (p : Path) (s : State) : Host.Outcome State Fault Refusal := .next (activate p s)

/-- COMMIT_SVN: TRUST_CTL.COMMIT_SVN is written. -/
def commitSvn (p : Path) (s : State) : State := s.regWrite p (Page.base .trust + 0x108) 32 4
def execCommitSvn (p : Path) (s : State) : Host.Outcome State Fault Refusal := .next (commitSvn p s)

/-- QUOTE: TRUST_CTL.QUOTE is written. -/
def quote (p : Path) (s : State) : State := s.regWrite p (Page.base .trust + 0x108) 32 8
def execQuote (p : Path) (s : State) : Host.Outcome State Fault Refusal := .next (quote p s)

/-- ROTATE: TRUST_CTL.ROTATE is written. -/
def rotate (p : Path) (s : State) : State := s.regWrite p (Page.base .trust + 0x108) 32 16
def execRotate (p : Path) (s : State) : Host.Outcome State Fault Refusal := .next (rotate p s)

/-- EXTEND: MEAS_CTL is written with an index and EXTEND. -/
def extend (p : Path) (index : BitVec 3) (s : State) : State :=
  s.regWrite p (Page.base .trust + 0x320) 32 (BitVec.ofNat 64 (index.toNat + 8))
def execExtend (p : Path) (index : BitVec 3) (s : State) : Host.Outcome State Fault Refusal := .next (extend p index s)

/-- Word 0 of SETTING_DIGEST is read. -/
def settingDigestRead (p : Path) (s : State) : State := s.regRead p (Page.base .trust + 0x120) 32
def execSettingDigestRead (p : Path) (s : State) : Host.Outcome State Fault Refusal := .next (settingDigestRead p s)

/-! ## Reads with an effect (R11, R17) -/

/-- REG64_LOW_READ: the low word of a 64-bit register is read. -/
def reg64LowRead (p : Path) (offset : BitVec 28) (s : State) : State :=
  let low : Bool := match pageAt offset.toNat with
    | some g => (wordAt g (offset.toNat % 0x1000)).any fun x => x.reg.wide && !x.hi
    | none => false
  if low then s.regRead p offset.toNat 32 else s
def execReg64LowRead (p : Path) (offset : BitVec 28) (s : State) : Host.Outcome State Fault Refusal := .next (reg64LowRead p offset s)

/-- The word of CHK_UNREAD is read. -/
def chkUnreadRead (p : Path) (m : MillId) (n : Fin 24) (s : State) : State := s.regRead p ((Page.stone m n).base + 0x124) 32
def execChkUnreadRead (p : Path) (m : MillId) (n : Fin 24) (s : State) : Host.Outcome State Fault Refusal :=
  .next (chkUnreadRead p m n s)

/-- The word of ABN_UNREAD is read. -/
def abnUnreadRead (p : Path) (m : MillId) (s : State) : State := s.regRead p ((Page.race m).base + 0x1A4) 32
def execAbnUnreadRead (p : Path) (m : MillId) (s : State) : Host.Outcome State Fault Refusal := .next (abnUnreadRead p m s)

/-- The word of DRY_UNREAD is read. -/
def dryUnreadRead (p : Path) (m : MillId) (s : State) : State := s.regRead p ((Page.governor m).base + 0x120) 32
def execDryUnreadRead (p : Path) (m : MillId) (s : State) : Host.Outcome State Fault Refusal := .next (dryUnreadRead p m s)

/-- The word of FLT_UNREAD of a governor page is read. -/
def govFltUnreadRead (p : Path) (m : MillId) (s : State) : State := s.regRead p ((Page.governor m).base + 0x144) 32
def execGovFltUnreadRead (p : Path) (m : MillId) (s : State) : Host.Outcome State Fault Refusal := .next (govFltUnreadRead p m s)

/-- The word of BFLT_UNREAD is read. -/
def bfltUnreadRead (p : Path) (m : MillId) (s : State) : State := s.regRead p ((Page.bolter m).base + 0x144) 32
def execBfltUnreadRead (p : Path) (m : MillId) (s : State) : Host.Outcome State Fault Refusal := .next (bfltUnreadRead p m s)

/-- The word of FLT_UNREAD of a sluice page is read. -/
def sluFltUnreadRead (p : Path) (m : MillId) (s : State) : State := s.regRead p ((Page.sluice m).base + 0x184) 32
def execSluFltUnreadRead (p : Path) (m : MillId) (s : State) : Host.Outcome State Fault Refusal := .next (sluFltUnreadRead p m s)

/-- The word of ERR_UNREAD is read. -/
def errUnreadRead (p : Path) (port : PortRef) (s : State) : State := s.regRead p (port.page.base + 0x118) 32
def execErrUnreadRead (p : Path) (port : PortRef) (s : State) : Host.Outcome State Fault Refusal := .next (errUnreadRead p port s)

/-- The word of FR_UNREAD is read. -/
def frUnreadRead (p : Path) (m : MillId) (s : State) : State := s.regRead p ((Page.ikiug m).base + 0x144) 32
def execFrUnreadRead (p : Path) (m : MillId) (s : State) : Host.Outcome State Fault Refusal := .next (frUnreadRead p m s)

/-- The word of LR_UNREAD is read. -/
def lrUnreadRead (p : Path) (s : State) : State := s.regRead p (Page.base .leat + 0x150) 32
def execLrUnreadRead (p : Path) (s : State) : Host.Outcome State Fault Refusal := .next (lrUnreadRead p s)

/-- The word of TR_UNREAD is read. -/
def trUnreadRead (p : Path) (m : MillId) (s : State) : State := s.regRead p ((Page.toll m).base + 0x144) 32
def execTrUnreadRead (p : Path) (m : MillId) (s : State) : Host.Outcome State Fault Refusal := .next (trUnreadRead p m s)

/-- The word of WR_UNREAD is read. -/
def wrUnreadRead (p : Path) (s : State) : State := s.regRead p (Page.base .history + 0x140) 32
def execWrUnreadRead (p : Path) (s : State) : Host.Outcome State Fault Refusal := .next (wrUnreadRead p s)

/-- The word of PR_UNREAD is read. -/
def prUnreadRead (p : Path) (s : State) : State := s.regRead p (Page.base .pond + 0x164) 32
def execPrUnreadRead (p : Path) (s : State) : Host.Outcome State Fault Refusal := .next (prUnreadRead p s)

/-- The word of RF_UNREAD is read. -/
def rfUnreadRead (p : Path) (m : MillId) (s : State) : State := s.regRead p ((Page.command m).base + 0x124) 32
def execRfUnreadRead (p : Path) (m : MillId) (s : State) : Host.Outcome State Fault Refusal := .next (rfUnreadRead p m s)

/-- The word of RA_UNREAD is read. -/
def raUnreadRead (p : Path) (s : State) : State := s.regRead p (Page.base .directory + 0x114) 32
def execRaUnreadRead (p : Path) (s : State) : Host.Outcome State Fault Refusal := .next (raUnreadRead p s)

/-- The word of CB_UNREAD is read. -/
def cbUnreadRead (p : Path) (s : State) : State := s.regRead p (Page.base .directory + 0x124) 32
def execCbUnreadRead (p : Path) (s : State) : Host.Outcome State Fault Refusal := .next (cbUnreadRead p s)

/-! ## Any register -/

/-- REGISTER_WRITE: a write of register space. -/
def registerWrite (p : Path) (offset : BitVec 28) (width : Nat) (value : W64) (s : State) : State := s.regWrite p offset.toNat width value
def execRegisterWrite (p : Path) (offset : BitVec 28) (width : Nat) (value : W64) (s : State) : Host.Outcome State Fault Refusal :=
  .next (registerWrite p offset width value s)

/-- REGISTER_READ_REJECTED: a read of register space; one that a rule rejects returns 0 (R14). -/
def registerReadRejected (p : Path) (offset : BitVec 28) (width : Nat) (s : State) : State := s.regRead p offset.toNat width
def execRegisterReadRejected (p : Path) (offset : BitVec 28) (width : Nat) (s : State) : Host.Outcome State Fault Refusal :=
  .next (registerReadRejected p offset width s)

end Sys2Proof.Machine
end

