-- ==== Sys2Proof/Machine/Dispatch.lean ====
section
/-! DEFINITION. One arm per command: each a direct call of its meaning. -/

namespace Sys2Proof.Machine

/-- What a command does to everything but the queue of waiting commands. -/
def exec (i : Instr) (s : State) : Host.Outcome State Fault Refusal :=
  match i with
  | .inputReset centivolts => Sys2Proof.Machine.execInputReset centivolts s
  | .startupStageDone r => Sys2Proof.Machine.execStartupStageDone r s
  | .chainBypassOpen => Sys2Proof.Machine.execChainBypassOpen s
  | .inputRange centivolts => Sys2Proof.Machine.execInputRange centivolts s
  | .inputOvervoltage centivolts => Sys2Proof.Machine.execInputOvervoltage centivolts s
  | .inputUndervoltage centivolts => Sys2Proof.Machine.execInputUndervoltage centivolts s
  | .islandPowerLoss centivolts => Sys2Proof.Machine.execIslandPowerLoss centivolts s
  | .junctionTrip m sensor => Sys2Proof.Machine.execJunctionTrip m sensor s
  | .thermalRestart => Sys2Proof.Machine.execThermalRestart s
  | .moduleReset p => Sys2Proof.Machine.execModuleReset p s
  | .millerReset p m => Sys2Proof.Machine.execMillerReset p m s
  | .systemContextEccReset m => Sys2Proof.Machine.execSystemContextEccReset m s
  | .powerOn p => Sys2Proof.Machine.execPowerOn p s
  | .powerDown p => Sys2Proof.Machine.execPowerDown p s
  | .releaseCap p => Sys2Proof.Machine.execReleaseCap p s
  | .perstAssert => Sys2Proof.Machine.execPerstAssert s
  | .linkDown => Sys2Proof.Machine.execLinkDown s
  | .linkUp width speed flit => Sys2Proof.Machine.execLinkUp width speed flit s
  | .d3hotEnter => Sys2Proof.Machine.execD3hotEnter s
  | .d3hotExit => Sys2Proof.Machine.execD3hotExit s
  | .inputSample watts => Sys2Proof.Machine.execInputSample watts s
  | .brakeCapRaise => Sys2Proof.Machine.execBrakeCapRaise s
  | .ebrakeTrip c => Sys2Proof.Machine.execEbrakeTrip c s
  | .ebrakeRelease amps0 amps1 => Sys2Proof.Machine.execEbrakeRelease amps0 amps1 s
  | .canaryMeasure m rates => Sys2Proof.Machine.execCanaryMeasure m rates s
  | .voltageControlTick m => Sys2Proof.Machine.execVoltageControlTick m s
  | .stoneGate m n => Sys2Proof.Machine.execStoneGate m n s
  | .stoneUngateDone m n => Sys2Proof.Machine.execStoneUngateDone m n s
  | .timerExpired m t => Sys2Proof.Machine.execTimerExpired m t s
  | .refLost => Sys2Proof.Machine.execRefLost s
  | .refWindow edges => Sys2Proof.Machine.execRefWindow edges s
  | .pllStop => Sys2Proof.Machine.execPllStop s
  | .refRecovery => Sys2Proof.Machine.execRefRecovery s
  | .refWaitExpired => Sys2Proof.Machine.execRefWaitExpired s
  | .bundleFetch m c src codes => Sys2Proof.Machine.execBundleFetch m c src codes s
  | .bundleIssue m c ecc codes => Sys2Proof.Machine.execBundleIssue m c ecc codes s
  | .vectorOpDone m => Sys2Proof.Machine.execVectorOpDone m s
  | .raceOpDone m k => Sys2Proof.Machine.execRaceOpDone m k s
  | .waitTimeout m => Sys2Proof.Machine.execWaitTimeout m s
  | .remoteTpostArrive m => Sys2Proof.Machine.execRemoteTpostArrive m s
  | .engineFault m => Sys2Proof.Machine.execEngineFault m s
  | .cmdWord p m offset w => Sys2Proof.Machine.execCmdWord p m offset w s
  | .resetAsm p m => Sys2Proof.Machine.execResetAsm p m s
  | .run m => Sys2Proof.Machine.execRun m s
  | .load m codes => Sys2Proof.Machine.execLoad m codes s
  | .mark m => Sys2Proof.Machine.execMark m s
  | .commandComplete m => Sys2Proof.Machine.execCommandComplete m s
  | .cmdAbort p m seq => Sys2Proof.Machine.execCmdAbort p m seq s
  | .flush p m => Sys2Proof.Machine.execFlush p m s
  | .replay m => Sys2Proof.Machine.execReplay m s
  | .replayRestart m => Sys2Proof.Machine.execReplayRestart m s
  | .retirementApply => Sys2Proof.Machine.execRetirementApply s
  | .shadowBroadcast m n => Sys2Proof.Machine.execShadowBroadcast m n s
  | .swap m n => Sys2Proof.Machine.execSwap m n s
  | .rowShift m n => Sys2Proof.Machine.execRowShift m n s
  | .stonePass m n codes => Sys2Proof.Machine.execStonePass m n codes s
  | .wavefrontDone m n => Sys2Proof.Machine.execWavefrontDone m n s
  | .passAbort m n => Sys2Proof.Machine.execPassAbort m n s
  | .abortDone m n => Sys2Proof.Machine.execAbortDone m n s
  | .bankDrain m n codes => Sys2Proof.Machine.execBankDrain m n codes s
  | .apply p m n => Sys2Proof.Machine.execApply p m n s
  | .selftest p m n => Sys2Proof.Machine.execSelftest p m n s
  | .repairRun m n => Sys2Proof.Machine.execRepairRun m n s
  | .selftestDone m n failing pathFault => Sys2Proof.Machine.execSelftestDone m n failing pathFault s
  | .columnHop m stream pos => Sys2Proof.Machine.execColumnHop m stream pos s
  | .headraceEntry m stream => Sys2Proof.Machine.execHeadraceEntry m stream s
  | .tailraceWrite m stream => Sys2Proof.Machine.execTailraceWrite m stream s
  | .spliceBegin => Sys2Proof.Machine.execSpliceBegin s
  | .spliceEnd => Sys2Proof.Machine.execSpliceEnd s
  | .compatChange m => Sys2Proof.Machine.execCompatChange m s
  | .lineWrite m stage codes => Sys2Proof.Machine.execLineWrite m stage codes s
  | .updateStart m codes => Sys2Proof.Machine.execUpdateStart m codes s
  | .updateComplete m => Sys2Proof.Machine.execUpdateComplete m s
  | .boltPark m => Sys2Proof.Machine.execBoltPark m s
  | .boltResume p m => Sys2Proof.Machine.execBoltResume p m s
  | .writeback p m => Sys2Proof.Machine.execWriteback p m s
  | .transferStart m q => Sys2Proof.Machine.execTransferStart m q s
  | .chunkTranslate m q codes => Sys2Proof.Machine.execChunkTranslate m q codes s
  | .granuleComplete m q pick codes => Sys2Proof.Machine.execGranuleComplete m q pick codes s
  | .chunkComplete m q pick => Sys2Proof.Machine.execChunkComplete m q pick s
  | .weightCacheFill m line victim => Sys2Proof.Machine.execWeightCacheFill m line victim s
  | .resume p m q => Sys2Proof.Machine.execResume p m q s
  | .fail p m q => Sys2Proof.Machine.execFail p m q s
  | .tlbInvalAll p m => Sys2Proof.Machine.execTlbInvalAll p m s
  | .tlbInvalPage p m => Sys2Proof.Machine.execTlbInvalPage p m s
  | .tlbInvalDone m => Sys2Proof.Machine.execTlbInvalDone m s
  | .scrubRead port addr ecc => Sys2Proof.Machine.execScrubRead port addr ecc s
  | .granPinApply m => Sys2Proof.Machine.execGranPinApply m s
  | .planApplied m => Sys2Proof.Machine.execPlanApplied m s
  | .floorFlitHop m x y way => Sys2Proof.Machine.execFloorFlitHop m x y way s
  | .forkSend m branches waited => Sys2Proof.Machine.execForkSend m branches waited s
  | .memoryRetrain port active => Sys2Proof.Machine.execMemoryRetrain port active s
  | .flitReceive port rx => Sys2Proof.Machine.execFlitReceive port rx s
  | .ackTimeout port => Sys2Proof.Machine.execAckTimeout port s
  | .epochResend port => Sys2Proof.Machine.execEpochResend port s
  | .clearSend group => Sys2Proof.Machine.execClearSend group s
  | .laneDrop port lane => Sys2Proof.Machine.execLaneDrop port lane s
  | .portTrainDone port lanes partner => Sys2Proof.Machine.execPortTrainDone port lanes partner s
  | .trainAttempt port => Sys2Proof.Machine.execTrainAttempt port s
  | .retrain p port => Sys2Proof.Machine.execRetrain p port s
  | .memberSuspect group rank => Sys2Proof.Machine.execMemberSuspect group rank s
  | .timeSyncTick => Sys2Proof.Machine.execTimeSyncTick s
  | .timeLost => Sys2Proof.Machine.execTimeLost s
  | .timeSet p value => Sys2Proof.Machine.execTimeSet p value s
  | .groupLoad p group => Sys2Proof.Machine.execGroupLoad p group s
  | .drop p group => Sys2Proof.Machine.execDrop p group s
  | .routeData p w => Sys2Proof.Machine.execRouteData p w s
  | .wrapNear k => Sys2Proof.Machine.execWrapNear k s
  | .tollPass m stone => Sys2Proof.Machine.execTollPass m stone s
  | .tollPassDone m => Sys2Proof.Machine.execTollPassDone m s
  | .tollDrain m => Sys2Proof.Machine.execTollDrain m s
  | .retire p kind index => Sys2Proof.Machine.execRetire p kind index s
  | .retireRestore p kind index => Sys2Proof.Machine.execRetireRestore p kind index s
  | .take p => Sys2Proof.Machine.execTake p s
  | .pondCopyBegin => Sys2Proof.Machine.execPondCopyBegin s
  | .pondPageCopy m codes => Sys2Proof.Machine.execPondPageCopy m codes s
  | .pondTouchCopy m codes => Sys2Proof.Machine.execPondTouchCopy m codes s
  | .pondAbort p => Sys2Proof.Machine.execPondAbort p s
  | .exported p slot => Sys2Proof.Machine.execExported p slot s
  | .pondRestore p slot settings => Sys2Proof.Machine.execPondRestore p slot settings s
  | .receive p slot => Sys2Proof.Machine.execReceive p slot s
  | .chuteInWord byteEnables w => Sys2Proof.Machine.execChuteInWord byteEnables w s
  | .chuteInDestWrite p value => Sys2Proof.Machine.execChuteInDestWrite p value s
  | .chuteInDoneRead => Sys2Proof.Machine.execChuteInDoneRead s
  | .start p => Sys2Proof.Machine.execStart p s
  | .stop p => Sys2Proof.Machine.execStop p s
  | .chuteOutDone => Sys2Proof.Machine.execChuteOutDone s
  | .evtFifoRead p => Sys2Proof.Machine.execEvtFifoRead p s
  | .evtEn p page w => Sys2Proof.Machine.execEvtEn p page w s
  | .evtClr p page w => Sys2Proof.Machine.execEvtClr p page w s
  | .read frame => Sys2Proof.Machine.execRead frame s
  | .write frame => Sys2Proof.Machine.execWrite frame s
  | .result frame => Sys2Proof.Machine.execResult frame s
  | .enumerate frame enumIn => Sys2Proof.Machine.execEnumerate frame enumIn s
  | .forget frame => Sys2Proof.Machine.execForget frame s
  | .poll frame => Sys2Proof.Machine.execPoll frame s
  | .chainReadDone tag => Sys2Proof.Machine.execChainReadDone tag s
  | .hoistDataWrite p w => Sys2Proof.Machine.execHoistDataWrite p w s
  | .hoistDataRead p => Sys2Proof.Machine.execHoistDataRead p s
  | .acquire p page code => Sys2Proof.Machine.execAcquire p page code s
  | .release p page code => Sys2Proof.Machine.execRelease p page code s
  | .logHoldSample m c => Sys2Proof.Machine.execLogHoldSample m c s
  | .logTriggered m => Sys2Proof.Machine.execLogTriggered m s
  | .arm p m => Sys2Proof.Machine.execArm p m s
  | .trigNow p m => Sys2Proof.Machine.execTrigNow p m s
  | .logRun p m => Sys2Proof.Machine.execLogRun p m s
  | .logRdDataRead p m => Sys2Proof.Machine.execLogRdDataRead p m s
  | .watchClose p m mask => Sys2Proof.Machine.execWatchClose p m mask s
  | .injArm p page repeats param => Sys2Proof.Machine.execInjArm p page repeats param s
  | .disarm p page => Sys2Proof.Machine.execDisarm p page s
  | .verifyInactive p => Sys2Proof.Machine.execVerifyInactive p s
  | .activate p => Sys2Proof.Machine.execActivate p s
  | .commitSvn p => Sys2Proof.Machine.execCommitSvn p s
  | .quote p => Sys2Proof.Machine.execQuote p s
  | .quoteDone => Sys2Proof.Machine.execQuoteDone s
  | .rotate p => Sys2Proof.Machine.execRotate p s
  | .extend p index => Sys2Proof.Machine.execExtend p index s
  | .digestRecompute => Sys2Proof.Machine.execDigestRecompute s
  | .settingDigestRead p => Sys2Proof.Machine.execSettingDigestRead p s
  | .reg64LowRead p offset => Sys2Proof.Machine.execReg64LowRead p offset s
  | .chkUnreadRead p m n => Sys2Proof.Machine.execChkUnreadRead p m n s
  | .abnUnreadRead p m => Sys2Proof.Machine.execAbnUnreadRead p m s
  | .dryUnreadRead p m => Sys2Proof.Machine.execDryUnreadRead p m s
  | .govFltUnreadRead p m => Sys2Proof.Machine.execGovFltUnreadRead p m s
  | .bfltUnreadRead p m => Sys2Proof.Machine.execBfltUnreadRead p m s
  | .sluFltUnreadRead p m => Sys2Proof.Machine.execSluFltUnreadRead p m s
  | .errUnreadRead p port => Sys2Proof.Machine.execErrUnreadRead p port s
  | .frUnreadRead p m => Sys2Proof.Machine.execFrUnreadRead p m s
  | .lrUnreadRead p => Sys2Proof.Machine.execLrUnreadRead p s
  | .trUnreadRead p m => Sys2Proof.Machine.execTrUnreadRead p m s
  | .wrUnreadRead p => Sys2Proof.Machine.execWrUnreadRead p s
  | .prUnreadRead p => Sys2Proof.Machine.execPrUnreadRead p s
  | .rfUnreadRead p m => Sys2Proof.Machine.execRfUnreadRead p m s
  | .raUnreadRead p => Sys2Proof.Machine.execRaUnreadRead p s
  | .cbUnreadRead p => Sys2Proof.Machine.execCbUnreadRead p s
  | .registerWrite p offset width value => Sys2Proof.Machine.execRegisterWrite p offset width value s
  | .inputStableInRange => Sys2Proof.Machine.execInputStableInRange s
  | .chuteInGranuleWritten codes => Sys2Proof.Machine.execChuteInGranuleWritten codes s
  | .chuteOutSourceError => Sys2Proof.Machine.execChuteOutSourceError s
  | .perstRelease => Sys2Proof.Machine.execPerstRelease s
  | .injectionTimeEnd page => Sys2Proof.Machine.execInjectionTimeEnd page s
  | .registerReadRejected p offset width => Sys2Proof.Machine.execRegisterReadRejected p offset width s

end Sys2Proof.Machine
end

