-- ==== Sys2Proof/Machine/Tick.lean ====
section
/-! DEFINITION. One nanosecond without a command: what the block does when no command waits. TIME_NOW, the tallies of time, the timers and
the times that contexts are held advance. -/

namespace Sys2Proof.Machine

/-- TIME_NOW counts, and a slew moves it by 1 ns in every 1,000. -/
def State.tickTime (s : State) : State :=
  let l := s.leat
  let due := l.slew != 0 && decide (999 ≤ l.slewNs)
  let back := due && decide (l.slew < 0)
  let step : Nat := if back then 0 else if due then 2 else 1
  { s with
    time := s.time + BitVec.ofNat 64 step
    leat := { l with slew := if due then (if back then l.slew + 1 else l.slew - 1) else l.slew,
                     slewNs := if l.slew = 0 ∨ due then 0 else l.slewNs + 1 } }

/-- A tally of time counts one nanosecond where its condition holds; a page in reset counts nothing. -/
def State.tickTally (s : State) (p : Page) (k : Nat) (on : Bool) : State := if on && s.pageLive p then s.tally p k 1 else s

/-- The user context is held at a WAIT, or at a BARRIER. -/
def Miller.atWait (x : Miller) : Bool := x.st == .waiting && x.user.waitOn.isSome
def Miller.atBarrier (x : Miller) : Bool := x.st == .waiting && x.user.waitOn.isNone

/-- END waits for tolls alone (R401). -/
def State.endForTolls (s : State) (m : MillId) : Bool :=
  s.tollsOnly m && s.tollsOpen m && (s.mill m).race.ops.all (·.system) && (s.mill m).bolter.ops.all (·.system)

/-- Core energy of one nanosecond, in units of 10^-10 mJ: the current in A times the rail's voltage in units of 0.1 mV (R506). -/
def Power.coreEnergy (p : Power) : Nat := p.coreA * (6000 + 25 * min p.vctl p.vcap)

/-- CORE_MJ counts the energy of the core rail (R532). -/
def State.tickEnergy (s : State) (m : MillId) : State :=
  if !s.pageLive (.power m) then s
  else
    let e := (s.mill m).power.energy + (s.mill m).power.coreEnergy
    (s.onPower m fun p => { p with energy := e % 10000000000 }).tally (.power m) 2 (e / 10000000000)

/-- The tallies of time of one mill (R201, R236, R322, R432, R521, R483). -/
def State.tickMill (s : State) (m : MillId) : State :=
  let x := s.mill m
  let ik : Page := .ikiug m
  let s := s.tickTally ik 3 x.miller.atWait
  let s := s.tickTally ik 7 x.miller.atBarrier
  let s := s.tickTally ik 8 (x.miller.st == .held)
  let s := s.tickTally ik 11 (x.miller.st == .spliceStart)
  let s := s.tickTally (.power m) 5 (s.ungateHolds m .user || s.ungateHolds m .system)
  let s := s.tickTally (.command m) 7 (x.cmd.queue.length == 16)
  let s := s.tickTally (.bolter m) 8 (match x.bolter.ops.head? with | some o => o.phase == .gate | none => false)
  let s := s.tickTally (.toll m) 11 ((s.running m).isSome && decide (0 < x.miller.run))
  (s.tickTally (.toll m) 15 (s.endForTolls m)).tickEnergy m

/-- The tallies of time of the module. -/
def State.tickModule (s : State) : State :=
  let s := s.tickTally .supply 0 s.brakeActive
  let s := s.tickTally .supply 3 s.supply.ebrake
  let s := s.tickTally .clock 2 s.refHeld
  let s := s.tickTally .host 3 (decide (262144 ≤ s.host.chuteBuf.length))
  let s := s.tickTally .host 7 s.alert
  let s := s.tickTally .trust 3 (s.leat.groups.any s.digestHeld)
  let s := s.tickTally .pond 7 (s.pond.st == 2)
  s.forAll (List.range 24) fun s p => s.tickTally (portPage p) 13 ((s.port p).st == 0)

/-- An instant that counts into the cost of a pond copy: a queue or the bolter of the mill is parked for the copier (R446). -/
def State.copierPark (s : State) (m : MillId) : Bool :=
  (List.range 16).any (fun q => (s.queueWaits m q).isSome) || (s.mill m).bolter.ops.any fun o => o.phase == .parked && o.pageCause == 3

/-- The cost of a pond copy under way. -/
def State.tickPond (s : State) : State :=
  if s.pond.st = 2 ∨ s.pond.st = 3 ∨ s.pond.st = 4 then
    let all := s.pond.st == 2
    let n0 := boolNat (all || s.copierPark .m0)
    let n1 := boolNat (all || s.copierPark .m1)
    s.onPond fun p => { p with parkNs0 := p.parkNs0 + n0, parkNs1 := p.parkNs1 + n1 }
  else s

/-- The interval timers count down to their expiry (R504). -/
def State.tickTimers (s : State) (m : MillId) : State :=
  if s.refHeld then s else s.onMill m fun x => { x with timers := x.timers.map fun t => t.map (· - 1) }

/-- A context held for a nanosecond more: its WAIT timer (R307), the time to its next hold sample, and its stall code, with the trigger of
KIND 3 once it has been held in that code for more than TRIG_US (R543). -/
def State.tickCtx (s : State) (m : MillId) (c : Ctx) : State :=
  if !s.isHeld m c then s
  else
    let code := (s.stall m c).code
    let timer := !s.supply.ebrake && !s.refHeld
    let s := s.onCtx m c fun k =>
      { k with waitNs := if k.waitOn.isSome ∧ timer then k.waitNs + 1 else k.waitNs
               heldNs := k.heldNs + 1
               stallNs := if k.stallCode = code then k.stallNs + 1 else 1
               stallCode := code }
    let limit := 1000 * s.fld (.log m) 0x104 16 16
    if code ≠ 0 ∧ s.trigKind m = 3 ∧ s.fld (.log m) 0x104 3 4 = code ∧ (s.ctx m c).stallNs = limit + 1 ∧ s.logsCtx m c then s.logTrigger m
    else s

/-- A nanosecond passes. Nothing of TIME_NOW, the tallies of time, the timers and the times that contexts are held moves while the PLLs
are stopped: every timing derives from REFCLK (R45, R517, R534). -/
def tick (s : State) : State :=
  if !s.timeRuns then s
  else
    let s := ((s.tickCtx .m0 .user).tickCtx .m1 .user).tickCtx .m0 .system |>.tickCtx .m1 .system
    let s := ((s.tickMill .m0).tickMill .m1).tickModule.tickPond
    ((s.tickTimers .m0).tickTimers .m1).tickTime

end Sys2Proof.Machine
end

