-- ==== Sys2Proof/Safety.lean ====
section
/-! DEFINITION. What counts as a safe run, in the terms the claims use: what a step may change, when an access reaches its
register, when a page can raise an event. -/

namespace Sys2Proof.Machine

/-- `t` differs from `s` in register words, tallies, the host port, the events queued for the system contexts and the trigger
of the logs alone: what raising events and recording them can change. -/
def OnlyEvents (s t : State) : Prop := t = { s with
  regs := t.regs, tallies := t.tallies, host := t.host
  mill0 := { s.mill0 with
    miller := { s.mill0.miller with sysEvents := t.mill0.miller.sysEvents }
    log := { s.mill0.log with trigNow := t.mill0.log.trigNow } }
  mill1 := { s.mill1 with
    miller := { s.mill1.miller with sysEvents := t.mill1.miller.sysEvents }
    log := { s.mill1.log with trigNow := t.mill1.log.trigNow } } }

/-- What holds of the module in every state that a run can reach: each memory in its canonical form, at most 256 entries in the
event FIFO (R485). -/
def State.Sound (s : State) : Prop :=
  Memory.wf s.mem = true ∧ Memory.wf s.hopper = true ∧ Memory.wf s.granary = true ∧ Memory.wf s.nvBytes = true ∧
    s.host.fifo.length ≤ 256

/-- No fuse is taken back (R16): the key digest, the seeds and the serial number stay, the security version and the key
generation do not fall. -/
def Fuses.Kept (a b : Fuses) : Prop :=
  b.keyHash = a.keyHash ∧ b.tollSeed0 = a.tollSeed0 ∧ b.tollSeed1 = a.tollSeed1 ∧ b.serial = a.serial ∧ a.svn ≤ b.svn ∧
    a.keyGen ≤ b.keyGen

/-- What every change of the state keeps: the queue of waiting commands, the fuses blown, and soundness. -/
def Keeps (s t : State) : Prop := t.pending = s.pending ∧ s.fuses.Kept t.fuses ∧ (s.Sound → t.Sound)

/-- An access through a path reaches the words of a page: the path is open, the page is out of reset, and no injection of a
register access error waits for the path (R11, R14, R605). -/
def Accepts (s : State) (path : Path) (p : Page) : Prop :=
  s.pathOpen path = true ∧ s.pageLive p = true ∧
    (s.injects .directory 1 && s.injTarget .directory % 8 == path.code) = false

/-- The state with an access over PCI Express counted: slot 5 of the host page for a write, slot 4 for a read. -/
def State.countAccess (s : State) (path : Path) (slot : Nat) : State := if path = .pcie then s.tally .host slot 1 else s

/-- A page's behavioural fields may be written through a path (R592). -/
def Unlocked (s : State) (path : Path) (p : Page) : Prop := s.bit p 0x008 0 = false ∨ path = .sys0 ∨ path = .sys1

/-- The state after commands that each answer a next state. -/
def execAll : List Instr → State → Option State
  | [], s => some s
  | c :: cs, s => match exec c s with
    | .next t => execAll cs t
    | .fault _ => none
    | .refused _ => none

/-- The two words of a 64-bit value in a command, low word first (R476). -/
def dwords (v : W64) : List W32 := [loWord v, hiWord v]

/-- The words of a command, header first (R475, R476). -/
def Cmd.words (c : Cmd) : List W32 :=
  let flags := 4096 * boolNat c.spliced + 8192 * boolNat c.pondPoint + 16384 * boolNat c.notify
  match c.kind with
  | .run => [BitVec.ofNat 32 (4 + 2 * c.args.length + 256 + flags), c.seq] ++ dwords c.addr ++ c.args.flatMap dwords
  | .load => [BitVec.ofNat 32 (6 + 512 + flags), c.seq] ++ dwords c.addr ++ dwords c.length
  | .mark => [BitVec.ofNat 32 (2 + 768 + flags), c.seq]

/-- A command that R475 and R476 allow: arguments of a RUN alone, at most 8; SPLICED and POND_POINT on a RUN alone. -/
def Cmd.fits (c : Cmd) : Prop :=
  c.args.length ≤ 8 ∧ (c.kind ≠ .run → c.spliced = false ∧ c.pondPoint = false ∧ c.args = []) ∧ (c.kind ≠ .load → c.length = 0) ∧
    (c.kind = .mark → c.addr = 0)

/-- A context's fetched bundle `b` passes its check, nothing holds it, and no injection and no toll waits for it: it issues (R287). -/
def State.Issues (s : State) (m : MillId) (c : Ctx) (b : Bundle) : Prop :=
  s.halted = false ∧ s.active m c = true ∧ (∃ x, (s.ctx m c).fetched = some x ∧ parseBundle x = b) ∧
    s.bundleFault m c (s.ctx m c) b = none ∧ s.holdOf m c b = none ∧ s.bundleSampled m c = false ∧
    s.injArmed (.ikiug m) = false

/-- Only slot k of a bundle is present. -/
def Bundle.only (b : Bundle) (k : Nat) : Prop := ∀ i, i < 7 → (b.has i = true ↔ i = k)

/-- A context differs in the bundle that it has just issued: pc, count, and what it kept of the fetch and of a hold. -/
def Context.issuedAt (k : Context) (pc : W64) : Context :=
  { k.clearFetch with pc := pc, bundles := k.bundles + 1, heldNs := 0, stallCode := 0, stallNs := 0 }

end Sys2Proof.Machine
end

