-- ==== Sys2Proof/WellFormed.lean ====
section
/-! DEFINITION. Well-formed commands: what their operands can be, where the types do not say it. -/

namespace Sys2Proof

/-- A unit that exists, as R423 numbers its kind. -/
def UnitRef.wf (u : UnitRef) : Bool :=
  match u.kind with
  | .stone => decide (u.index < 48)
  | .stoneRow => decide (u.index / 512 < 48) && decide (u.index % 512 < 261)
  | .vectorUnit => decide (u.index < 24)
  | .miller => decide (u.index < 2)
  | .hbm => decide (u.index < 20)
  | .ddr => decide (u.index < 16)
  | .leatPort => decide (u.index < 24)
  | .shaft => decide (u.index < 2)
  | .governorStage => decide (u.index < 28)
  | .bolter => decide (u.index < 2)
  | .module => u.index == 0

/-- A width of the PCI Express link (R462). -/
def hostWidth (n : Nat) : Bool := [1, 2, 4, 8, 16].contains n
/-- A speed code of the PCI Express link (R497). -/
def hostSpeed (n : Nat) : Bool := decide (1 ≤ n) && decide (n ≤ 6)

/-- A stage report: sixteen sockets (R39), units that exist, and a link that came up with a width and a speed it can have. -/
def StageReport.wf (r : StageReport) : Bool :=
  r.dimmSerials.length == 16 && r.failed.all UnitRef.wf && (!r.pcieUp || (hostWidth r.pcieWidth && hostSpeed r.pcieSpeed))

/-- A received codeword: a payload of 512 bytes, at most two symbols corrected in each of four interleaves (R357, R358). -/
def RxWord.wf : RxWord → Bool
  | .lost => true
  | .flit _ payload corrected => payload.length == 512 && decide (corrected ≤ 8)

/-- The OP field of a chain frame (R489). -/
def frameOp (frame : BitVec 124) : Nat := bitsOf frame 0 4

/-- A register access is of 32 or of 64 bits, at a 32-bit aligned offset (R10). -/
def accessWidth (width : Nat) : Bool := width == 32 || width == 64

/-- The operands of a command are such as the world outside can present. -/
def Instr.wf (i : Instr) : Bool :=
  match i with
  | .inputReset _ => true
  | .startupStageDone r => r.wf
  | .chainBypassOpen => true
  | .inputRange _ => true
  | .inputOvervoltage _ => true
  | .inputUndervoltage _ => true
  | .islandPowerLoss _ => true
  | .junctionTrip _ _ => true
  | .thermalRestart => true
  | .moduleReset _ => true
  | .millerReset _ _ => true
  | .systemContextEccReset _ => true
  | .powerOn _ => true
  | .powerDown _ => true
  | .releaseCap _ => true
  | .perstAssert => true
  | .linkDown => true
  | .linkUp width speed _ => hostWidth width.toNat && hostSpeed speed.toNat
  | .d3hotEnter => true
  | .d3hotExit => true
  | .inputSample _ => true
  | .brakeCapRaise => true
  | .ebrakeTrip _ => true
  | .ebrakeRelease _ _ => true
  | .canaryMeasure _ rates => rates.length == 32
  | .voltageControlTick _ => true
  | .stoneGate _ _ => true
  | .stoneUngateDone _ _ => true
  | .timerExpired _ _ => true
  | .refLost => true
  | .refWindow _ => true
  | .pllStop => true
  | .refRecovery => true
  | .refWaitExpired => true
  | .bundleFetch _ _ _ _ => true
  | .bundleIssue _ _ _ _ => true
  | .vectorOpDone _ => true
  | .raceOpDone _ _ => true
  | .waitTimeout _ => true
  | .remoteTpostArrive _ => true
  | .engineFault _ => true
  | .cmdWord _ _ offset _ => decide (0x800 ≤ offset.toNat) && offset.toNat % 4 == 0
  | .resetAsm _ _ => true
  | .run _ => true
  | .load _ _ => true
  | .mark _ => true
  | .commandComplete _ => true
  | .cmdAbort _ _ _ => true
  | .flush _ _ => true
  | .replay _ => true
  | .replayRestart _ => true
  | .retirementApply => true
  | .shadowBroadcast _ _ => true
  | .swap _ _ => true
  | .rowShift _ _ => true
  | .stonePass _ _ _ => true
  | .wavefrontDone _ _ => true
  | .passAbort _ _ => true
  | .abortDone _ _ => true
  | .bankDrain _ _ _ => true
  | .apply _ _ _ => true
  | .selftest _ _ _ => true
  | .repairRun _ _ => true
  | .selftestDone _ _ failing _ => decide failing.Nodup
  | .columnHop _ _ _ => true
  | .headraceEntry _ _ => true
  | .tailraceWrite _ _ => true
  | .spliceBegin => true
  | .spliceEnd => true
  | .compatChange _ => true
  | .lineWrite _ _ _ => true
  | .updateStart _ _ => true
  | .updateComplete _ => true
  | .boltPark _ => true
  | .boltResume _ _ => true
  | .writeback _ _ => true
  | .transferStart _ _ => true
  | .chunkTranslate _ _ _ => true
  | .granuleComplete _ _ _ _ => true
  | .chunkComplete _ _ _ => true
  | .weightCacheFill _ _ _ => true
  | .resume _ _ _ => true
  | .fail _ _ _ => true
  | .tlbInvalAll _ _ => true
  | .tlbInvalPage _ _ => true
  | .tlbInvalDone _ => true
  | .scrubRead _ _ _ => true
  | .granPinApply _ => true
  | .planApplied _ => true
  | .floorFlitHop _ x y way => match way.direction with
    | some d => linkExists (linkIndex (x.val, y.val) d)
    | none => x.val == 7 && (y.val == 2 || y.val == 3)
  | .forkSend _ _ _ => true
  | .memoryRetrain _ _ => true
  | .flitReceive _ rx => rx.of.wf
  | .ackTimeout _ => true
  | .epochResend _ => true
  | .clearSend _ => true
  | .laneDrop _ _ => true
  | .portTrainDone _ lanes _ => lanes != 0
  | .trainAttempt _ => true
  | .retrain _ _ => true
  | .memberSuspect _ _ => true
  | .timeSyncTick => true
  | .timeLost => true
  | .timeSet _ _ => true
  | .groupLoad _ _ => true
  | .drop _ _ => true
  | .routeData _ _ => true
  | .wrapNear _ => true
  | .tollPass _ _ => true
  | .tollPassDone _ => true
  | .tollDrain _ => true
  | .retire _ _ _ => true
  | .retireRestore _ _ _ => true
  | .take _ => true
  | .pondCopyBegin => true
  | .pondPageCopy _ _ => true
  | .pondTouchCopy _ _ => true
  | .pondAbort _ => true
  | .exported _ _ => true
  | .pondRestore _ _ _ => true
  | .receive _ _ => true
  | .chuteInWord _ _ => true
  | .chuteInDestWrite _ _ => true
  | .chuteInDoneRead => true
  | .start _ => true
  | .stop _ => true
  | .chuteOutDone => true
  | .evtFifoRead _ => true
  | .evtEn _ _ _ => true
  | .evtClr _ _ _ => true
  | .read frame => frameOp frame == 1
  | .write frame => frameOp frame == 2
  | .result frame => frameOp frame == 3
  | .enumerate frame _ => frameOp frame == 4
  | .forget frame => frameOp frame == 5
  | .poll frame => frameOp frame == 6
  | .chainReadDone _ => true
  | .hoistDataWrite _ _ => true
  | .hoistDataRead _ => true
  | .acquire _ _ _ => true
  | .release _ _ _ => true
  | .logHoldSample _ _ => true
  | .logTriggered _ => true
  | .arm _ _ => true
  | .trigNow _ _ => true
  | .logRun _ _ => true
  | .logRdDataRead _ _ => true
  | .watchClose _ _ _ => true
  | .injArm _ _ _ _ => true
  | .disarm _ _ => true
  | .verifyInactive _ => true
  | .activate _ => true
  | .commitSvn _ => true
  | .quote _ => true
  | .quoteDone => true
  | .rotate _ => true
  | .extend _ _ => true
  | .digestRecompute => true
  | .settingDigestRead _ => true
  | .reg64LowRead _ offset => offset.toNat % 8 == 0
  | .chkUnreadRead _ _ _ => true
  | .abnUnreadRead _ _ => true
  | .dryUnreadRead _ _ => true
  | .govFltUnreadRead _ _ => true
  | .bfltUnreadRead _ _ => true
  | .sluFltUnreadRead _ _ => true
  | .errUnreadRead _ _ => true
  | .frUnreadRead _ _ => true
  | .lrUnreadRead _ => true
  | .trUnreadRead _ _ => true
  | .wrUnreadRead _ => true
  | .prUnreadRead _ => true
  | .rfUnreadRead _ _ => true
  | .raUnreadRead _ => true
  | .cbUnreadRead _ => true
  | .registerWrite _ offset width _ => accessWidth width && offset.toNat % 4 == 0
  | .inputStableInRange => true
  | .chuteInGranuleWritten _ => true
  | .chuteOutSourceError => true
  | .perstRelease => true
  | .injectionTimeEnd _ => true
  | .registerReadRejected _ offset width => accessWidth width && offset.toNat % 4 == 0

end Sys2Proof
end

