-- ==== Sys2Proof/Certificates/Slice0/Obligations.lean ====
section
/-! DEFINITION. The statements about the module: what its commands and events do, rule by rule, and what every step keeps. -/

section

open Sys2Proof Sys2Proof.Machine

/-! ## Supply, start-up and resets -/

/-- R527, R613: the input rising into range resets every page, island pages included, clears the hoist address and begins at
stage 1; below 30 V the island stops, in the same state but for stage 0. What the fuses and the non-volatile store hold stays, a
pond half being written is abandoned; the next identity leaf, PERST_N and the commands waiting are no register of a page.
Readings of open points: log entries 2 and 5. -/
def Obligations.IslandPowerCyclesResetEveryPage : Prop :=
  let lost (s : State) (stage centivolts : Nat) : State :=
    { State.reset with
      fuses := s.fuses, nv := { s.nv with writing := none }, nvBytes := s.nvBytes, pending := s.pending, draw := s.draw
      trust := { State.reset.trust with nextLeaf := s.trust.nextLeaf }
      host := { State.reset.host with perst := s.host.perst }
      supply := { State.reset.supply with stage := stage, inputCv := centivolts } }
  (∀ (v : BitVec 16) (s : State), s.supply.stage = 0 → 4000 ≤ v.toNat → v.toNat ≤ 5400 →
    exec (.inputReset v) s = .next (lost s 1 v.toNat)) ∧
  (∀ (v : BitVec 16) (s : State), v.toNat < 3000 → exec (.islandPowerLoss v) s = .next (lost s 0 v.toNat))

/-- R613, R614, R633: the input leaving 40 to 54 V raises INPUT_RANGE, and stops a core ramp; above 56 V and below 38 V core
power is removed, at 30 V and more with the island running; a junction trip removes it whatever the input; the start then waits
for a stable input, or for the temperature too. Where the stable input is not one that has been reported, it is a free voltage
within the range (log entry 53). What HBM4, DDR5, the fuses and the store hold stays. Readings of open points: log entries 52
and 53. -/
def Obligations.InputAndJunctionLimitsRemoveCorePower : Prop :=
  let at_ (s : State) (v : Nat) : State :=
    let t : State := { s with supply := { s.supply with inputCv := v } }
    if inRange s.supply.inputCv = true ∧ inRange v = false then t.raise .supply 3 else t
  let held (s : State) (hot : Bool) : State :=
    let t := s.restart
    { t with supply := { t.supply with holdOff := true, thermal := t.supply.thermal || hot } }
  (∀ (s : State) (hot : Bool), (held s hot).supply.stage = 3 ∧ (held s hot).startHeld = true ∧ (held s hot).corePower = false ∧
    (held s hot).mem = s.mem ∧ (held s hot).nvBytes = s.nvBytes ∧ (held s hot).fuses = s.fuses ∧ (held s hot).pending = s.pending) ∧
  (∀ (v : BitVec 16) (s : State), s.supply.stage ≠ 0 → inRange v.toNat = false → 3000 ≤ v.toNat →
    let t := ({ s with supply := { s.supply with inputCv := v.toNat } } : State).raise .supply 3
    exec (.inputRange v) s = .next (if s.supply.stage = 5 then held t false else t)) ∧
  (∀ (v : BitVec 16) (s : State), s.supply.stage ≠ 0 → 5600 < v.toNat →
    exec (.inputOvervoltage v) s = .next (if s.supply.stage < 5 then at_ s v.toNat else held (at_ s v.toNat) false)) ∧
  (∀ (v : BitVec 16) (s : State), s.supply.stage ≠ 0 → v.toNat < 3800 → 3000 ≤ v.toNat →
    exec (.inputUndervoltage v) s = .next (if s.supply.stage < 5 then at_ s v.toNat else held (at_ s v.toNat) false)) ∧
  (∀ (m : MillId) (sensor : Fin 32) (s : State), 5 ≤ s.supply.stage → exec (.junctionTrip m sensor) s = .next (held s true)) ∧
  (∀ s : State, s.supply.thermal = true → inRange s.supply.inputCv = true →
    exec .thermalRestart s = .next { s with supply := { s.supply with thermal := false, holdOff := false } }) ∧
  (∀ s : State, s.supply.stage ≠ 0 → s.supply.holdOff = true ∨ inRange s.supply.inputCv = false → ∃ v, inRange v = true ∧ (inRange s.supply.inputCv = true → v = s.supply.inputCv) ∧
    exec .inputStableInRange s =
      .next { s with draw := s.draw + 1, supply := { s.supply with holdOff := false, inputCv := v } })

/-- R523 to R526: a start that nothing holds passes each of its stages, in order, when the stage completes; the module is ready
after stage 8. Readings of open points: log entries 53 and 54. -/
def Obligations.StartupPassesItsStages : Prop :=
  ∀ (r : StageReport) (s : State), s.startHeld = false →
    let stg (t : State) (k : Nat) : State := { t with supply := { t.supply with stage := k } }
    (s.supply.stage = 1 → inRange s.supply.inputCv = true → exec (.startupStageDone r) s = .next (stg s 2)) ∧
    (s.supply.stage = 2 → exec (.startupStageDone r) s = .next (stg (s.islandUp r.refCal.toNat) 3)) ∧
    (s.supply.stage = 3 → exec (.startupStageDone r) s = .next s.bootStage) ∧
    (s.supply.stage = 4 → s.hoist.addr ≠ 0xFFF ∨ s.fld .supply 0x114 1 16 ≠ 0 → exec (.startupStageDone r) s =
      .next (if s.nv.retired.any retiresModule = true then s.startFail 4 2 else stg s 5)) ∧
    (s.supply.stage = 5 → s.supply.powerOn = true ∨ (s.bit .supply 0x114 0 = true ∧ s.supply.standby = false) →
      exec (.startupStageDone r) s = .next (if r.railOk = true then s.coreUp else s.startFail 5 3)) ∧
    (s.supply.stage = 6 → exec (.startupStageDone r) s =
      .next (stg (((s.dimmCheck r.dimmSerials).stageUnits 6 r.failed).foldl State.unitFailed (s.dimmCheck r.dimmSerials)) 7
        ).portsTrain.linkTrain) ∧
    (s.supply.stage = 7 → s.host.perst = false → r.pcieUp = true →
      let t := ((s.stageUnits 7 r.failed).foldl State.unitFailed s).portsSettle
      exec (.startupStageDone r) s = .next { t with
        host := { t.host with link := 2, width := r.pcieWidth, speed := r.pcieSpeed, flit := r.pcieFlit, d3 := false,
                              busMaster := true, msixEnable := true }
        supply := { t.supply with stage := 8 } }) ∧
    (s.supply.stage = 7 → s.host.perst = true → exec (.startupStageDone r) s =
      .next (stg ((s.stageUnits 7 r.failed).foldl State.unitFailed s).portsSettle 8)) ∧
    (s.supply.stage = 8 → exec (.startupStageDone r) s =
      .next ((stg ((s.stageUnits 8 r.failed).foldl State.unitFailed s) 9).raise .supply 5))

/-- R510, R523, R527, R529: what each bit of SUPPLY_CTL does when its write reaches the supply page, and what MILLER_RESET does
through the other mill's system context or the hoist chain, the only paths that may write it. Readings of open points: log entry
53. -/
def Obligations.SupplyControlWritesDoTheirActions : Prop :=
  (∀ (p : Path) (s : State), Accepts s p .supply →
    let u := s.countAccess p 5
    exec (.powerOn p) s = .next { u with supply := { u.supply with powerOn := true } } ∧
    exec (.releaseCap p) s = .next { u with supply := { u.supply with storm := false, trips := [] } } ∧
    exec (.moduleReset p) s = .next u.restart ∧
    (s.corePower = true → s.noCommand = true → exec (.powerDown p) s =
      .next (let t := (({ u.tally .supply 6 1 with nv := { u.nv with orderly := true } } : State).coreOff 4)
        { t with supply := { t.supply with standby := true } })) ∧
    (s.corePower = false ∨ s.noCommand = false →
      exec (.powerDown p) s = .next (u.accessErr p (Page.base .supply + 0x10C) true 4 .value))) ∧
  (∀ (p : Path) (m : MillId) (s : State), Accepts s p (.power m) →
    let u := s.countAccess p 5
    (p = .chain ∨ p = sysPath m.other → exec (.millerReset p m) s = .next (u.millerReset m)) ∧
    (p ≠ .chain → p ≠ sysPath m.other →
      exec (.millerReset p m) s = .next (u.accessErr p (Page.base (.power m) + 0x118) true 1 .path)))

/-- R527, R614: without core power every register of a page outside the island holds its reset value and every tally of it is 0,
until the page leaves reset again; the memories on the die are lost, what HBM4, DDR5, the store and the fuses hold is not. R417,
R527, R528: a miller reset resets every register of the Ikiug page and both contexts of that miller, and leaves the other mill's
Ikiug page; an uncorrectable error of the system context makes one, recorded against the miller. Readings of open points: log
entries 2 and 54. -/
def Obligations.MillerAndCorePowerResetTheirPages : Prop :=
  (
  ∀ (s : State) (stage : Nat) (p : Page), p.island = false →
    (∀ off, (s.coreOff stage).word p off = wordReset p off) ∧ (∀ k, (s.coreOff stage).tallyOf p k = 0) ∧
    (stage < 6 → (s.coreOff stage).pageLive p = false) ∧
    (s.coreOff stage).mem = s.mem ∧ (s.coreOff stage).nvBytes = s.nvBytes ∧ (s.coreOff stage).fuses = s.fuses ∧
    (s.coreOff stage).hopper = [] ∧ (s.coreOff stage).granary = [] ∧
    (∀ m, ((s.coreOff stage).mill m).cmd.running = false ∧ ((s.coreOff stage).mill m).cmd.queue = [])) ∧ (
  (∀ (m : MillId) (s : State), s.pageLive (.ikiug m) = true →
    exec (.systemContextEccReset m) s = .next ((s.histPending m (4, m.num) 5 0 false).millerReset m)) ∧
  (∀ (m : MillId) (s : State), (s.millerReset m).pending = s.pending ∧
    ((s.millerReset m).mill m).miller.user = .reset ∧ ((s.millerReset m).mill m).miller.system = .reset ∧
    ((s.millerReset m).mill m).miller.vreg = [] ∧ ((s.millerReset m).mill m).miller.vecQ = [] ∧
    ((s.millerReset m).mill m).miller.faults = [] ∧ ((s.millerReset m).mill m).miller.sysEvents = []))

/-- R507, R508: a sample of input power enters the measured power, the mean and the energy; a power above 4,700 W, an excursion
that lasts EXC_US or a mean above INPUT_LIMIT brakes, lowering the caps of both mills by 10 mV, and raises BRAKE when it begins;
the caps rise by a step at a time while the mean is at least 2 % below the limit. Readings of open points: log entry 52. -/
def Obligations.PowerBrakeFollowsTheSamples : Prop :=
  (∀ (watts : BitVec 13) (s : State), 2 ≤ s.supply.stage → s.injects .supply 1 = false →
    let w := watts.toNat
    let above := s.inputLimit < w
    let e := s.supply.energy + w
    let samples := (w :: s.supply.samples).take 10000
    let excursion := if above then s.supply.excursion + 1 else 0
    let hit := 4700 < w ∨ s.fld .supply 0x100 13 4 * 1000 ≤ excursion ∨ s.inputLimit < samples.sum / max 1 samples.length
    let t : State := (({ s with supply := { s.supply with
        inputW := w, samples := samples, excursion := excursion, energy := e % 1000, braking := decide hit } }.tally .supply 4
          (e / 1000)).tally .supply 1 (if above ∧ s.supply.excursion = 0 then 1 else 0))
    exec (.inputSample watts) s = .next (
      if ¬hit ∨ s.corePower = false then t
      else if s.supply.braking = true then t.lowerCap 4 else (t.lowerCap 4).raise .supply 0)) ∧
  (∀ s : State, s.corePower = true → s.supply.storm = false →
    s.meanW * 100 ≤ s.inputLimit * 98 → exec .brakeCapRaise s = .next { s with
      mill0 := { s.mill0 with power := { s.mill0.power with vcap := min 100 (s.mill0.power.vcap + 1) } }
      mill1 := { s.mill1 with power := { s.mill1.power with vcap := min 100 (s.mill1.power.vcap + 1) } } })

/-- R509, R510: a core current above OC_LIMIT or an input power above 4,750 W trips the emergency brake: every handshake is
held, the caps fall by 50 mV, and the sixteenth trip within a second is a storm that puts the caps at VMIN; it is released below
90 % of OC_LIMIT on both mills. Readings of open points: log entry 52. -/
def Obligations.EmergencyBrakeTripsAndReleases : Prop :=
  (∀ (c : TripCause) (s : State), s.corePower = true → s.injects .supply 2 = false → s.trips c = true →
    ∃ t : State, exec (.ebrakeTrip c) s = .next t ∧ t.supply.ebrake = true ∧ t.halted = true ∧
      t.supply.trips = (s.time.toNat :: s.supply.trips).filter (fun x => decide (s.time.toNat < x + 1000000000)) ∧
      (t.supply.storm = true ↔ s.supply.storm = true ∨ 16 ≤ t.supply.trips.length) ∧
      (s.supply.storm = false → 16 ≤ t.supply.trips.length → ∀ m, (t.mill m).power.vcap = s.vmin m) ∧
      (t.supply.trips.length < 16 ∨ s.supply.storm = true →
        ∀ m, (t.mill m).power.vcap = max (s.vmin m) (min (s.mill m).power.vcap (s.mill m).power.vctl - 20)) ∧
      (∀ m, (t.mill m).power.vctl = (s.mill m).power.vctl)) ∧
  (∀ (a0 a1 : BitVec 11) (s : State), s.supply.ebrake = true → a0.toNat * 10 < s.fld (.power .m0) 0x10C 0 11 * 9 →
    a1.toNat * 10 < s.fld (.power .m1) 0x10C 0 11 * 9 → exec (.ebrakeRelease a0 a1) s = .next { s with
      supply := { s.supply with ebrake := false }
      mill0 := { s.mill0 with power := { s.mill0.power with coreA := a0.toNat } }
      mill1 := { s.mill1 with power := { s.mill1.power with coreA := a1.toNat } } })

/-- R505, R506: the slowest of the canaries is CANARY_MIN, and the controller moves the core voltage one step toward the lowest
at which it reaches RATE_TARGET, between VMIN and the lower of VMAX and the cap. Readings of open points: log entry 52. -/
def Obligations.CoreVoltageFollowsTheCanaries : Prop :=
  (∀ (m : MillId) (rates : List (BitVec 12)) (s : State), s.pageLive (.power m) = true → s.injects (.power m) 1 = false →
    rates.length = 32 → ∃ v i, exec (.canaryMeasure m rates) s =
      .next (s.onMill m fun x => { x with power := { x.power with canaryMin := v, canaryIdx := i } }) ∧
      (rates.map (·.toNat))[i]? = some v ∧ (∀ x ∈ rates, v ≤ x.toNat) ∧ (∀ j x, j < i → rates[j]? = some x → v < x.toNat)) ∧
  (∀ (m : MillId) (s : State), s.pageLive (.power m) = true →
    let x := (s.mill m).power
    let hi := min (s.vmax m) x.vcap
    let target := s.fld (.power m) 0x100 0 12
    let put (u : State) (v : Nat) (un : Bool) : State :=
      u.onMill m fun y => { y with power := { y.power with vctl := v, unreached := un } }
    (x.canaryMin < target → x.vctl < hi → exec (.voltageControlTick m) s =
      .next ((put s (x.vctl + 1) x.unreached).tally (.power m) 0 1)) ∧
    (x.canaryMin < target → hi = x.vctl → exec (.voltageControlTick m) s =
      .next (if x.unreached = true then s else (put s x.vctl true).raise (.power m) 0)) ∧
    (x.canaryMin < target → hi < x.vctl → s.vmin m < x.vctl → ∃ t, t = (put s (x.vctl - 1) x.unreached).tally (.power m) 1 1 ∧
      exec (.voltageControlTick m) s =
        .next (if x.unreached = true then t else (put t (x.vctl - 1) true).raise (.power m) 0)) ∧
    (target ≤ x.canaryMin → x.vctl < s.vmin m → exec (.voltageControlTick m) s =
      .next ((put s (x.vctl + 1) false).tally (.power m) 0 1)) ∧
    (target ≤ x.canaryMin → s.vmin m < x.vctl → hi < x.vctl ∨ target < x.canaryMin → exec (.voltageControlTick m) s =
      .next ((put s (x.vctl - 1) false).tally (.power m) 1 1)) ∧
    (target = x.canaryMin → s.vmin m ≤ x.vctl → x.vctl ≤ hi → exec (.voltageControlTick m) s = .next (put s x.vctl false)))

/-- R511 to R513: an idle stone loses power and what it held; a bundle that names it has it powered, with nothing written.
Readings of open points: log entry 35. -/
def Obligations.StonesAreGatedAndUngated : Prop :=
  let cleared (x : Mill) (n : Fin 24) (gated ungating : List (Fin 24)) : Mill :=
    { x with stones := x.stones.modify n.val fun y => { y with active := .reset, shadow := .reset }
             power := { x.power with gated := gated, ungating := ungating } }
  (∀ (m : MillId) (n : Fin 24) (s : State), s.halted = false → s.pageLive (.stone m n) = true → n ∉ (s.mill m).power.gated →
    s.gateIdle m n = true → exec (.stoneGate m n) s = .next ((s.onMill m fun x =>
      cleared x n (x.power.gated ++ [n]) x.power.ungating).tally (.power m) 3 1)) ∧
  (∀ (m : MillId) (n : Fin 24) (s : State), s.halted = false → n ∈ (s.mill m).power.gated → n ∈ (s.mill m).power.ungating →
    (s.stone m n.val).outOfService = false → exec (.stoneUngateDone m n) s = .next ((s.onMill m fun x =>
      cleared x n (x.power.gated.filter (· != n)) (x.power.ungating.filter (· != n))).tally (.power m) 4 1))

/-- R448, R504: a timer that expires counts and raises its event; it starts again when periodic, else stops. Timer 1 of mill 0,
where the pond copy holds it, stops and asks for a copy. R516 to R520: the loss of the reference, or a count of edges more than
a quarter of the calibrated count away, is declared once; the PLLs stop; recovery releases what was held; when the wait expires
the running commands are aborted with cause 23. Readings of open points: log entries 49 and 55. -/
def Obligations.TimersAndReferenceMonitor : Prop :=
  (
  ∀ (m : MillId) (t : Fin 4) (s : State), (s.timerOf m t.val).isSome = true → s.timeRuns = true → s.refHeld = false →
    s.pageLive (.timer m t) = true → s.injects (.timer m t) 1 = false →
    let u := (s.tally (.timer m t) 0 1).raise (.timer m t) 0
    exec (.timerExpired m t) s = .next (
      if m = .m0 ∧ t = 1 ∧ u.pondTimed = true then (u.setTimer m t.val none).pondRequest
      else u.setTimer m t.val (if u.bit (.timer m t) 0x100 31 = true then u.period m t else none))) ∧ (
  (∀ s : State, 2 ≤ s.supply.stage → s.injects .clock 1 = false →
    exec .refLost s = .next (if s.refclk.state = 0 then s.declareRef false else { s with refclk := { s.refclk with state := 1 } })) ∧
  (∀ (edges : BitVec 16) (s : State), 3 ≤ s.supply.stage → s.injects .clock 2 = false →
    let cal : Int := s.refclk.cal
    let diff : Int := 16 * edges.toNat - cal
    let u : State := { s with refclk := { s.refclk with count := edges.toNat } }
    (4 * diff ≤ cal → -cal ≤ 4 * diff → exec (.refWindow edges) s = .next { u with refclk := { u.refclk with
      cal := (cal + diff.tdiv 256).toNat, state := if s.refclk.state = 0 then 0 else 3 } }) ∧
    (cal < 4 * diff ∨ 4 * diff < -cal → exec (.refWindow edges) s =
      .next (if s.refclk.state = 0 then u.declareRef true
        else { u with refclk := { u.refclk with state := if s.refclk.state = 3 then 2 else s.refclk.state } }))) ∧
  (∀ s : State, s.refHeld = true → exec .pllStop s = .next { s with refclk := { s.refclk with pllsOff := true } }) ∧
  (∀ s : State, s.refHeld = true → s.injects .clock 1 = false → exec .refRecovery s =
    .next ((((({ s with refclk := { s.refclk with state := 0, pllsOff := false, expired := false }, portsOff := [] } :
      State).portsRelease).tally .clock 3 1).raise .clock 2).linkTrain)) ∧
  (∀ s : State, s.refHeld = true → s.refclk.expired = false → exec .refWaitExpired s =
    .next ((((({ s with refclk := { s.refclk with expired := true } } : State).tally .clock 4 1).raise .clock 3).abortCommand .m0
      (.commandFault 23) 23 true).abortCommand .m1 (.commandFault 23) 23 true)))

/-! ## The PCI Express link and the chutes -/

/-- R488, R490, R493: a module whose island is up opens its bypass when the chain master tells it to. R462, R463, R496: PERST_N,
the loss and the return of the link. Losing the link closes the BARs, resets the MSI-X structures and the PCI Express path's
assemblies on both mills, discards what D3hot held, raises LINK_DOWN where the link was up, and leaves the other paths'
assemblies and every command that is pending. Readings of open points: log entry 22. -/
def Obligations.LinkEventsTrainAndReset : Prop :=
  (
  ∀ s : State, 2 ≤ s.supply.stage → exec .chainBypassOpen s = .next { s with hoist := { s.hoist with bypass := false } }) ∧ (
  (∀ s : State, s.host.perst = false → s.supply.stage ≠ 0 → exec .perstAssert s =
    .next { s.linkLoss with host := { s.linkLoss.host with perst := true } }) ∧
  (∀ s : State, s.host.perst = true → exec .perstRelease s =
    .next (if s.corePower = true ∧ s.refHeld = false ∧ s.host.link = 0 then { s with host := { s.host with perst := false, link := 1 } }
      else { s with host := { s.host with perst := false } })) ∧
  (∀ s : State, s.host.link = 2 → exec .linkDown s = .next s.linkLoss.linkTrain) ∧
  (∀ (w : BitVec 5) (v : BitVec 3) (f : Bool) (s : State), s.host.link ≠ 2 → s.host.perst = false → s.refHeld = false →
    8 ≤ s.supply.stage → exec (.linkUp w v f) s = .next (({ s with host := { s.host with
      link := 2, width := w.toNat, speed := v.toNat, flit := f, d3 := false, busMaster := true, msixEnable := true } } :
        State).raise .host 6)) ∧
  (∀ s : State, s.linkLoss.barOpen = false ∧ s.linkLoss.host.link = 0 ∧ s.linkLoss.host.msixTable = [] ∧
    s.linkLoss.host.msixPend = [] ∧ s.linkLoss.host.held = [] ∧ s.linkLoss.host.busMaster = false ∧
    s.linkLoss.host.chuteBuf = s.host.chuteBuf ∧ s.linkLoss.mem = s.mem ∧
    (s.host.link = 2 → s.linkLoss.tallyOf .host 14 = s.tallyOf .host 14 + 1 ∧ s.linkLoss.bit .host 0x010 5 = true) ∧
    (∀ m, (s.linkLoss.mill m).cmd = { (s.mill m).cmd with asmPcie := .reset })))

/-- R467: in D3hot the BARs are closed and what the device would send is held; in D0 it is sent, in the order in which it arose.
-/
def Obligations.D3hotHoldsWhatTheDeviceSends : Prop :=
  (∀ s : State, s.host.link = 2 → exec .d3hotEnter s = .next { s with host := { s.host with d3 := true } }) ∧
  (∀ (s : State) (msg : PcieMsg), s.host.link = 2 → s.host.busMaster = true → s.host.d3 = true →
    s.barOpen = false ∧ s.hostSend msg = { s with host := { s.host with held := s.host.held ++ [msg] } }) ∧
  (∀ s : State, s.host.link = 2 → s.host.busMaster = true → s.host.d3 = true → ∃ t, exec .d3hotExit s = .next t ∧
    t = { s with tallies := t.tallies, host := { s.host with d3 := false, held := [], sent := s.host.held.reverse ++ s.host.sent } } ∧
    (∀ p k, k < 16 → (p, k) ≠ (Page.host, 6) → t.tallyOf p k = s.tallyOf p k) ∧
    t.tallyOf .host 6 = s.tallyOf .host 6 +
      BitVec.ofNat 64 (s.host.held.filter fun x => match x with | .msix _ => true | .write _ _ => false).length)

/-- R468 to R470: a word of the BAR2 window is buffered for CHUTE_IN_DEST, which rises by 4; one with a byte enable clear, or at
or beyond CHUTE_IN_LIMIT, or at an address that no memory has, is discarded and counted, and the first beyond the limit is an
overrun. R469: a read of CHUTE_IN_DONE returns once no word written before it is waiting; it captures the high word for the next
read. Readings of open points: log entries 16 and 23. -/
def Obligations.InboundChuteBuffersWords : Prop :=
  (
  ∀ (w : W32) (s : State), s.host.link = 2 → s.host.d3 = false → s.host.chuteBuf.length < 262144 →
    let dest := s.fld64 .host 0x180 0 44
    let limit := s.fld64 .host 0x188 0 44
    (∀ be : BitVec 4, be ≠ 15 → exec (.chuteInWord be w) s = .next (s.tally .host 1 1)) ∧
    (s.injects .host 2 = false →
      (limit ≤ dest → exec (.chuteInWord 15 w) s = .next (if s.host.overrun = true then s.tally .host 1 1 else
        ({ s.tally .host 1 1 with host := { s.host with overrun := true } } : State).raise .host 0)) ∧
      (dest < limit → s.inMem dest 4 = false → exec (.chuteInWord 15 w) s = .next (s.tally .host 1 1)) ∧
      (dest < limit → s.inMem dest 4 = true → exec (.chuteInWord 15 w) s =
        .next { s.setWord64 .host 0x180 (BitVec.ofNat 64 (dest + 4)) with
          host := { s.host with chuteBuf := s.host.chuteBuf ++ [(dest, w)] } }))) ∧ (
  ∀ s : State, Accepts s .pcie .host →
    let u := s.tally .host 4 1
    (s.host.chuteBuf ≠ [] → exec .chuteInDoneRead s =
      .next { u with host := { s.host with doneWait := some (s.host.chuteBuf.length, false) } }) ∧
    (s.host.chuteBuf = [] → ∃ t, exec .chuteInDoneRead s = .next t ∧ t = { u with pathPcie := t.pathPcie } ∧
      t.pathPcie.reply = ((loWord s.host.chuteDone ||| s.word .host 0x190).zeroExtend 64) ∧
      t.pathPcie.caps = (0x1190, hiWord s.host.chuteDone ||| s.word .host 0x194) :: s.pathPcie.caps.filter fun c => c.1 != 0x1190))

/-- R469, R646: the words written at once are the longest run of ascending words at the front of the buffer that lies in one
granule of 512 bytes. R469, R470, R646: a granule of buffered words whose bytes fill whole error-code words is written,
CHUTE_IN_DONE and the tally of bytes rise by its bytes, a waiting read of CHUTE_IN_DONE is that many words nearer to its reply,
and the commands held behind those words become pending. One that covers a word in part reads it first: the port may accept
nothing, and the granule waits (R269); a word that is uncorrectable has it discarded, its words counted. Readings of open
points: log entry 23. -/
def Obligations.InboundGranulesAreTakenAndWritten : Prop :=
  (
  ∀ (b : List (Nat × W32)), ∃ n, chuteGranule b = b.take n ∧ (b ≠ [] → 1 ≤ n) ∧ n ≤ b.length ∧
    (∀ i, i < n → ∃ x y, b[0]? = some x ∧ b[i]? = some y ∧ y.1 = x.1 + 4 * i ∧ y.1 / 512 = x.1 / 512) ∧
    (∀ x y, b[0]? = some x → b[n]? = some y → 1 ≤ n → y.1 ≠ x.1 + 4 * n ∨ y.1 / 512 ≠ x.1 / 512)) ∧ (
  ∀ (codes : List Ecc) (s : State) (x : Nat × W32) (rest : List (Nat × W32)), s.halted = false → s.refHeld = false →
    chuteGranule s.host.chuteBuf = x :: rest →
    let n := rest.length + 1
    let reader := ((physPort x.1).map (·.mill)).getD .m0
    let taken (t : State) : State := { t with host := { t.host with chuteBuf := t.host.chuteBuf.drop n } }
    let wrote (t : State) : State :=
      let t := ((taken t).physWrite x.1 ((x :: rest).flatMap fun y => leBytes 4 y.2.toNat)).tally .host 0 (4 * n)
      { t with host := { t.host with chuteDone := t.host.chuteDone + BitVec.ofNat 64 (4 * n) } }
    let settle (t : State) : State := { (t.doneReply n).cmdRelease n with codes := [] }
    (∀ port, physPort x.1 = some port → s.portHeld port = false → x.1 % 64 = 0 → 4 * n % 64 = 0 →
      exec (.chuteInGranuleWritten codes) s =
        .next (settle (wrote ((({ s with codes := codes } : State).tally port.page 1 1).tally port.page 2 0)))) ∧
    (∀ out t, ({ s with codes := codes } : State).portWrite reader x.1 [(x.1, 4 * n)] = (out, t) →
      (out = .ok → exec (.chuteInGranuleWritten codes) s = .next (settle (wrote t))) ∧
      (out = .wait → exec (.chuteInGranuleWritten codes) s = .next { s with codes := [] }) ∧
      (∀ w i, out = .bad w i → exec (.chuteInGranuleWritten codes) s = .next (settle ((taken t).tally .host 1 n)))))

/-- R470, R471, R473: a write of CHUTE_IN_DEST to a word of memory starts a copy anew; START begins an outbound copy and STOP
ends a running one; a copy in which the last write has been sent writes its flag and is done; one whose source holds an
uncorrectable word ends there, the word recorded and its frame bad. How far it had come is a free value (log entry 22). Readings
of open points: log entry 22. -/
def Obligations.ChuteControlsDoTheirActions : Prop :=
  (∀ (p : Path) (v : W64) (s : State), Accepts s p .host → v.toNat < 2 ^ 44 → v.toNat % 4 = 0 → s.inMem v.toNat 4 = true →
    ∃ t, exec (.chuteInDestWrite p v) s = .next t ∧ t.word64 .host 0x180 = v ∧ t.host.chuteDone = 0 ∧ t.host.overrun = false ∧
      t.mem = s.mem ∧ (∀ q o, q ≠ .host ∨ (o ≠ 0x180 ∧ o ≠ 0x184) → o < 0x1000 → t.word q o = s.word q o)) ∧
  (∀ (p : Path) (s : State), Accepts s p .host →
    let u := s.countAccess p 5
    let len := s.fld64 .host 0x1B0 0 41
    (s.outState ≠ 1 → len ≠ 0 → len % 4 = 0 → len ≤ 2 ^ 40 → s.injects .host 3 = false →
      exec (.start p) s = .next ((u.putFld .host 0x1C0 2 3 1).setWord64 .host 0x1C8 0)) ∧
    (s.outState = 1 ∨ len = 0 ∨ len % 4 ≠ 0 ∨ 2 ^ 40 < len →
      exec (.start p) s = .next (u.accessErr p (Page.base .host + 0x1C0) true 1 .value)) ∧
    exec (.stop p) s = .next (u.endCopy 3)) ∧
  (∀ s : State, s.outState = 1 → s.host.link = 2 → s.host.busMaster = true →
    let len := s.fld64 .host 0x1B0 0 41
    let flag := s.fld64 .host 0x1B8 0 64
    let t := s.sentBytes len
    (s.inMem (s.fld64 .host 0x1A0 0 44) len = true → exec .chuteOutDone s = .next
      (((if flag = 0 then t else t.hostSend (.write flag (leBytes 8 len))).putFld .host 0x1C0 2 3 2).raise .host 1)) ∧
    (s.inMem (s.fld64 .host 0x1A0 0 44) len = false → exec .chuteOutDone s = .next (s.endCopy 5))) ∧
  (∀ s : State, s.outState = 1 → ∃ n, n ≤ s.fld64 .host 0x1B0 0 41 ∧
    let w := (s.fld64 .host 0x1A0 0 44 + n) / 64 * 64
    let u : State := { s with draw := s.draw + 1 }
    let v := match physPort w with
      | none => u
      | some port => (u.eccUncorrectable port w 2 (s.seq port.mill) false).memHistory port.mill w false
    exec .chuteOutSourceError s = .next (((v.sentBytes n).putFld .host 0x1C0 2 3 5).raise .host 2))

/-! ## Commands -/

/-- R477 to R480: a word written to CMD_WORD joins the assembly of its own path. A malformed header puts the assembly into the
refused state, where every word is discarded until RESET_ASM; the last word makes a command pending, refuses it, or leaves it
held behind the chute words in front of it. Readings of open points: log entry 56. -/
def Obligations.CommandWordsBuildAnAssembly : Prop :=
  (∀ (p : Path) (m : MillId) (off : BitVec 12) (w : W32) (s : State), Accepts s p (.command m) → 0x800 ≤ off.toNat → off.toNat % 4 = 0 →
    let a := (s.mill m).cmd.asm p
    let u := (s.countAccess p 5).tally (.command m) 0 1
    let put (t : State) (a : Assembly) : State := t.onMill m fun x => { x with cmd := x.cmd.setAsm p a }
    let ws := a.words ++ [w]
    (a.refused = true → exec (.cmdWord p m off w) s = .next u) ∧
    (a.refused = false → a.words = [] → headerOk w = false → exec (.cmdWord p m off w) s =
      .next ((put u { words := [], refused := true }).cmdRefuse m p.code 0 1)) ∧
    (a.refused = false → (a.words ≠ [] ∨ headerOk w = true) → ws.length < bitsOf (ws.getD 0 0) 0 8 →
      exec (.cmdWord p m off w) s = .next (put u { words := ws, refused := false })) ∧
    (a.refused = false → (a.words ≠ [] ∨ headerOk w = true) → bitsOf (ws.getD 0 0) 0 8 ≤ ws.length →
      exec (.cmdWord p m off w) s = .next (
        if p = .pcie ∧ (s.host.chuteBuf ≠ [] ∨ (s.mill m).cmd.held ≠ []) then
          (put u .reset).onMill m fun x => { x with cmd := { x.cmd with held := x.cmd.held ++ [(ws, s.host.chuteBuf.length)] } }
        else (put u .reset).cmdSubmit m p.code ws))) ∧
  (∀ (p : Path) (m : MillId) (s : State), Accepts s p (.command m) → exec (.resetAsm p m) s =
    .next ((s.countAccess p 5).onMill m fun x => { x with cmd := x.cmd.setAsm p .reset }))

/-- R475 to R479: writing the words of a command that the layout allows, in order, at any offsets of CMD_WORD, makes exactly
that command pending when its sequence number is NEXT_SEQ and fewer than 16 are pending: NEXT_SEQ rises by one and the assembly
is empty. Readings of open points: log entry 56. -/
def Obligations.WordsOfACommandMakeItPending : Prop :=
  ∀ (p : Path) (m : MillId) (c : Cmd) (ws : List (BitVec 12 × W32)) (s : State), Accepts s p (.command m) → c.fits →
    ws.map (·.2) = c.words → (∀ x ∈ ws, 0x800 ≤ x.1.toNat ∧ x.1.toNat % 4 = 0) →
    (s.mill m).cmd.asm p = .reset → c.seq = s.word (.command m) 0x104 → (s.mill m).cmd.queue.length < 16 →
    s.injects (.command m) 1 = false → (p = .pcie → s.host.chuteBuf = [] ∧ (s.mill m).cmd.held = []) →
    ∃ t, execAll (ws.map fun x => .cmdWord p m x.1 x.2) s = some t ∧
      (t.mill m).cmd = { (s.mill m).cmd with queue := (s.mill m).cmd.queue ++ [c] } ∧ t.word (.command m) 0x104 = c.seq + 1 ∧
      t.tallyOf (.command m) 0 = s.tallyOf (.command m) 0 + BitVec.ofNat 64 ws.length ∧
      t.tallyOf (.command m) 1 = s.tallyOf (.command m) 1 + 1 ∧
      (∀ q o, q ≠ .command m ∨ o ≠ 0x104 → o < 0x1000 → t.word q o = s.word q o) ∧ t.mem = s.mem ∧ t.host = s.host

/-- R281, R311, R481: a RUN at the head of its mill, where nothing holds it, starts the user context at its entry with its
arguments in s1 to s8 and every other register zero; without an image, or with an entry that is no bundle's, it ends as a fault
with cause FETCH. R311, R312: a spliced RUN starts on both mills at once when both hold it at their heads, waits where one does
not, and is refused on both where the heads' sequence numbers differ; an entry that can't be fetched on one ends it on both.
R346, R481, R570: a LOAD at the head runs the loader, its measurement register being cleared before and extended with the digest
of the image after a success; it waits where a port that holds the image accepts nothing; a MARK completes at its turn and does
nothing. Readings of open points: log entries 41 and 56. -/
def Obligations.CommandsStart : Prop :=
  (
  (∀ (m : MillId) (c : Cmd) (s : State), s.headCmd m = some c → c.kind = .run → s.canStart m = true → c.spliced = false →
    let t := (s.beginCmd m c).beginRun m c
    (∀ im, (s.mill m).image = some im → bitsOf c.addr 0 6 = 0 → exec (.run m) s = .next t) ∧
    ((s.mill m).image = none ∨ bitsOf c.addr 0 6 ≠ 0 →
      exec (.run m) s = .next (t.endCommand m { millerFault t m 16 with opnd := c.addr })) ∧
    (t.mill m).cmd = { (s.mill m).cmd with running := true } ∧ (t.mill m).miller.user = startContext c.addr c.args ∧
    (t.mill m).miller.system = (s.mill m).miller.system ∧ (t.mill m).miller.st = .running ∧ (t.mill m).miller.ending = none ∧
    (t.mill m).miller.faulted = false ∧ (t.mill m.other).cmd = (s.mill m.other).cmd ∧ t.hopper = s.hopper ∧ t.granary = s.granary) ∧
  (∀ (pc : W64) (args : List W64), args.length ≤ 8 → (startContext pc args).pc = pc ∧
    (∀ k, k < 8 → cellGet 0 (k + 1) (startContext pc args).s = args.getD k 0) ∧
    (∀ k, k = 0 ∨ 8 < k → cellGet 0 k (startContext pc args).s = 0) ∧ (startContext pc args).a = [] ∧ (startContext pc args).t = [])) ∧ (
  ∀ (m : MillId) (c : Cmd) (s : State), s.headCmd m = some c → c.kind = .run → s.canStart m = true → c.spliced = true →
    let wait := s.onMill m fun x => { x with miller := { x.miller with st := .spliceStart } }
    (s.headCmd m.other = none → exec (.run m) s = .next wait) ∧
    (∀ d, s.headCmd m.other = some d → (s.mill m.other).cmd.running = true ∨ d.kind ≠ .run ∨ d.spliced = false →
      exec (.run m) s = .next wait) ∧
    (∀ d, s.headCmd m.other = some d → (s.mill m.other).cmd.running = false → d.kind = .run → d.spliced = true →
      (d.seq ≠ c.seq → exec (.run m) s = .next ((s.spliceRefuse m).spliceRefuse m.other)) ∧
      (d.seq = c.seq → s.canStart m.other = true →
        let both := ((s.beginCmd m c).beginRun m c).beginCmd m.other d |>.beginRun m.other d
        let fetch (t : State) (k : MillId) (e : Cmd) : State :=
          if (t.mill k).image = none ∨ bitsOf e.addr 0 6 ≠ 0 then t.endCommand k { millerFault t k 16 with opnd := e.addr } else t
        exec (.run m) s = .next (fetch (fetch both m c) m.other d)) ∧
      (d.seq = c.seq → s.canStart m.other = false → exec (.run m) s = .next wait))) ∧ (
  ∀ (m : MillId) (c : Cmd) (s : State), s.headCmd m = some c → s.canStart m = true →
    let ends (t : State) (e : Ending) : State := t.onMill m fun x => { x with miller := { x.miller with ending := some e } }
    (c.kind = .mark → exec (.mark m) s = .next (ends (s.beginCmd m c) .done)) ∧
    (c.kind = .load → ∀ codes : List Ecc,
      let u := (({ s with codes := codes } : State).beginCmd m c).clearMeas (3 + m.num)
      let read := u.loadImage m c.addr.toNat c.length.toNat
      (read = none → exec (.load m codes) s = .next { s with codes := [] }) ∧
      (∀ st t, read = some (st, t) →
        let v := if st = 0 then ends (t.extendMeas (3 + m.num) (sha256 (u.physRead c.addr.toNat c.length.toNat))) .done
          else ends t (.loadFailed st)
        exec (.load m codes) s = .next { v with codes := [] })))

/-- R310, R312, R482: a command completes when every mill it runs on has ended its part: the command leaves the pending set, the
status entry and DONE_SEQ tell of it, and what a FLUSH dropped behind it follows. R482: the status entry of a completion holds
the sequence number, the status and detail, the result and the time, DONE_SEQ the sequence number, and the entries of the other
fifteen residues stay. Readings of open points: log entries 56 and 57. -/
def Obligations.CommandsCompleteWithTheirStatus : Prop :=
  (
  ∀ (m : MillId) (c : Cmd) (s : State), s.halted = false → s.running m = some c →
    let ms := (s.commandMills m).filter fun k => (s.running k).isSome
    (∀ k ∈ ms, s.partOver k = true) → ∃ t, exec (.commandComplete m) s = .next t ∧
      (∀ k ∈ ms, (t.mill k).cmd = { (s.mill k).cmd with running := false, queue := (s.mill k).cmd.queue.drop 1, dropped := [] } ∧
        (t.mill k).miller.st = .idle ∧ (t.mill k).miller.ending = none) ∧
      ((s.mill m).miller.spliced = false →
        (t.pond.point = true ↔ c.pondPoint = true ∧ (s.mill m).miller.ending.getD .done = .done) ∧
        (t.mill m.other).cmd = (s.mill m.other).cmd) ∧
      t.hopper = s.hopper ∧ t.granary = s.granary ∧ t.nvBytes = s.nvBytes ∧ t.fuses = s.fuses) ∧ (
  ∀ (m : MillId) (c : Cmd) (e : Ending) (s : State),
    let t := s.statusEntry m c e
    let o := 0x200 + 32 * (c.seq.toNat % 16)
    t.word (.command m) o = c.seq ∧
    t.word (.command m) (o + 4) = BitVec.ofNat 32 (e.status.1 + 16 * (e.status.2 % 65536)) ∧
    t.word64 (.command m) (o + 8) = (if e = .done ∧ c.kind = .load then BitVec.ofNat 64 ((s.mill m).image.elim 0 (·.entry)) else 0) ∧
    t.word64 (.command m) (o + 16) = s.time ∧ t.word (.command m) 0x108 = c.seq ∧
    (∀ k i, k < 16 → k ≠ c.seq.toNat % 16 → i < 32 → t.word (.command m) (0x200 + 32 * k + i) = s.word (.command m) (0x200 + 32 * k + i)) ∧
    t.mem = s.mem)

/-- R269, R312, R484: CMD_ABORT ends the running command that it names with STATUS 5, on both mills where it is spliced, and is
counted where it names another; FLUSH drops every command that has not started. Readings of open points: log entry 56. -/
def Obligations.AbortAndFlushEndCommands : Prop :=
  (∀ (p : Path) (m : MillId) (seq : W32) (s : State), Accepts s p (.command m) →
    let u := s.countAccess p 5
    (∀ c, s.running m = some c → c.seq = seq → (s.mill m).miller.ending = none → exec (.cmdAbort p m seq) s =
      .next (((u.abortCommand m .aborted 22 false).tally (.command m) 5 1).raise (.command m) 1)) ∧
    ((∀ c, s.running m = some c → c.seq ≠ seq ∨ (s.mill m).miller.ending ≠ none) →
      exec (.cmdAbort p m seq) s = .next (u.tally (.command m) 6 1))) ∧
  (∀ (p : Path) (m : MillId) (s : State), Accepts s p (.command m) →
    let u := s.countAccess p 5
    let x := (s.mill m).cmd
    let gone := if x.running = true then x.queue.drop 1 else x.queue
    let v := (u.tally (.command m) 4 gone.length).raise (.command m) 2
    (gone = [] → exec (.flush p m) s = .next u) ∧
    (gone ≠ [] → x.running = true → exec (.flush p m) s =
      .next (v.onMill m fun y => { y with cmd := { y.cmd with queue := y.cmd.queue.take 1, dropped := y.cmd.dropped ++ gone } })) ∧
    (gone ≠ [] → x.running = false → exec (.flush p m) s = .next (gone.foldl (fun t c => t.statusEntry m c .dropped)
      (v.onMill m fun y => { y with cmd := { y.cmd with queue := [] }, miller := { y.miller with st := .idle } })))) ∧
  (∀ (m : MillId) (e : Ending) (cause : Nat) (fault : Bool) (s : State) (c : Cmd), s.running m = some c →
    (s.mill m).miller.ending = none →
    let t := s.abortCommand m e cause fault
    ∀ k ∈ s.commandMills m, (k = m ∨ ((s.running k).isSome = true ∧ (s.mill k).miller.ending = none)) →
      (t.mill k).miller.ending = some e ∧ (t.mill k).miller.replay = none ∧ (t.mill k).miller.st = .stopped ∧
      (∀ o ∈ (t.mill k).race.ops, o.system = true) ∧ (t.mill k).miller.vecQ = [] ∧ (t.mill k).toll.open_ = [] ∧
      (t.mill k).cmd.queue = (s.mill k).cmd.queue)

/-- R314, R403 to R406: a fault that an engine found stops the user context; a replayable one is left to replay, any other ends
the command. Replay drops the command's operations and retracts what it sent, unless it is barred, the runs are used up or a
bound stone is to be retired, which end the command; the restart gives the command a new run. Readings of open points: log
entries 24, 47 and 56. -/
def Obligations.FaultsStopAndReplayRestarts : Prop :=
  (∀ (m : MillId) (f : FaultInfo) (rest : List FaultInfo) (s : State), s.halted = false → (s.mill m).miller.faults = f :: rest →
    let u := s.onMill m fun x => { x with miller := { x.miller with faults := rest } }
    (f.system = true → exec (.engineFault m) s = .next ((u.dropXfers m true).dropLeatOps m true)) ∧
    (f.system = false → (s.running m).isSome = true → (s.mill m).miller.ending = none → (s.mill m).miller.replay = none →
      (∀ d v, f.kind = .replayable d v → exec (.engineFault m) s =
        .next (u.onMill m fun x => { x with miller := { x.miller with replay := some f, st := .stopped } })) ∧
      (f.kind = .contract ∨ f.kind = .command → exec (.engineFault m) s = .next (u.endCommand m f)))) ∧
  (∀ (m : MillId) (f : FaultInfo) (s : State), s.halted = false → (s.mill m).miller.replay = some f →
    (s.mill m).miller.replaying = false →
    let ms := s.commandMills m
    let barred := ms.any fun k => (s.mill k).miller.barred
    let stop (t : State) (cause : Nat) : State := t.endCommand m { millerFault t m cause with pc := f.pc, slot := f.slot }
    (barred = true → exec (.replay m) s = .next (stop (s.raise (.toll m) 3) 19)) ∧
    (barred = false → s.bindsRetired m f = true → exec (.replay m) s = .next (stop s 21)) ∧
    (barred = false → s.bindsRetired m f = false → s.fld (.toll m) 0x114 0 2 ≤ (s.mill m).miller.run →
      exec (.replay m) s = .next (stop ((s.retractAll ms).raise (.toll m) 4) 20)) ∧
    (barred = false → s.bindsRetired m f = false → (s.mill m).miller.run < s.fld (.toll m) 0x114 0 2 →
      exec (.replay m) s = .next (ms.foldl (fun t k => t.onMill k fun y => { y with miller := { y.miller with
        replay := some (y.miller.replay.getD f), replaying := true, st := .stopped, replayInj := f.injected } }) (s.retractAll ms)))) ∧
  (∀ (m : MillId) (s : State), s.halted = false → (s.mill m).miller.replaying = true →
    (∀ k ∈ s.commandMills m, s.droppedInFlight k = false) →
    ∃ t, exec (.replayRestart m) s = .next t ∧ t.hopper = s.hopper ∧ t.granary = s.granary ∧
      ∀ k ∈ s.commandMills m, ∀ c, s.running k = some c → (t.mill k).miller.run = (s.mill k).miller.run + 1 ∧
        (t.mill k).miller.user = startContext c.addr c.args ∧ (t.mill k).miller.replay = none ∧ (t.mill k).miller.replaying = false ∧
        (t.mill k).miller.st = .running ∧ (t.mill k).cmd = (s.mill k).cmd ∧ (t.mill k).toll.lastFails = (s.mill k).toll.fails ∧
        (t.mill k).toll.fails = [] ∧ t.tallyOf (.toll k) 10 = s.tallyOf (.toll k) 10 + 1)

/-! ## The millers -/

/-- R283, R503: a context without a bundle fetches one: the user context the 64 bytes at its pc through the mill's translation,
or its command ends with cause FETCH; where a port that holds them accepts nothing the fetch waits. The system context takes the
firmware's bundle, at a handler's entry where an event waits for it. The address of a handler is a free value (log entry 24).
Readings of open points: log entries 24 to 26. -/
def Obligations.BundlesAreFetched : Prop :=
  (∀ (m : MillId) (codes : List Ecc) (s : State), s.halted = false → s.refHeld = false → s.active m .user = true →
    (s.ctx m .user).fetched = none → s.injects (.ikiug m) 3 = false →
    let pc := (s.ctx m .user).pc
    let u := ({ s with codes := codes } : State).tally (.ikiug m) 9 1
    let out (t : State) : State := { t with codes := [] }
    let miss (t : State) (inj : Bool) : State := out (t.endCommand m { millerFault t m 16 with opnd := pc, injected := inj })
    (∀ t, u.translate m pc.toNat false = (.wait, t) → exec (.bundleFetch m .user .image codes) s = .next (out s)) ∧
    (∀ e t, u.translate m pc.toNat false = (.err e, t) → exec (.bundleFetch m .user .image codes) s = .next (miss t false)) ∧
    (∀ a t, u.translate m pc.toNat false = (.ok a, t) →
      (∀ v, t.portRead m a 64 = (.wait, v) → exec (.bundleFetch m .user .image codes) s = .next (out s)) ∧
      (∀ w inj v, t.portRead m a 64 = (.bad w inj, v) →
        exec (.bundleFetch m .user .image codes) s = .next (miss (v.memHistory m w inj) inj)) ∧
      (∀ v, t.portRead m a 64 = (.ok, v) → exec (.bundleFetch m .user .image codes) s = .next (out (v.onCtx m .user fun k =>
        { k with fetched := some (BitVec.ofNat 512 (leNat (v.physRead a 64))) }))))) ∧
  (∀ (m : MillId) (b : BitVec 512) (codes : List Ecc) (s : State), s.halted = false → s.pageLive (.ikiug m) = true →
    (s.ctx m .system).fetched = none →
    ((s.mill m).miller.sysEvents = [] → exec (.bundleFetch m .system (.firmware b) codes) s = .next (s.onMill m fun x =>
      { x with miller := { x.miller with system := { x.miller.system with fetched := some b } } })) ∧
    (∀ e rest, (s.mill m).miller.sysEvents = e :: rest → ∃ pc : W64, bitsOf pc 0 6 = 0 ∧
      exec (.bundleFetch m .system (.firmware b) codes) s = .next (({ s with draw := s.draw + 1 } : State).onMill m fun x =>
        { x with miller := { x.miller with sysEvents := rest, system := { x.miller.system with pc := pc, fetched := some b } } })))

/-- R286, R313, R318: a bundle that fails its check takes no effect in any slot: the user context's registers and pc stay, the
command ends in a contract fault with the slot and cause found first, and a record that is open tells the bundle's pc twice,
with FR_ISSUE 1 and in FR_RES and FR_OPND what the check of that cause names. Readings of open points: log entries 26 and 27. -/
def Obligations.FaultyBundlesTakeNoEffect : Prop :=
  ∀ (m : MillId) (x : BitVec 512) (slot : Nat) (cause : Cause) (codes : List Ecc) (s : State), s.halted = false →
    s.active m .user = true → (s.ctx m .user).fetched = some x → s.injArmed (.ikiug m) = false → s.pageLive (.ikiug m) = true →
    s.bundleFault m .user (s.ctx m .user) (parseBundle x) = some (slot, cause) →
    ∃ t, exec (.bundleIssue m .user .good codes) s = .next t ∧ (t.mill m).miller.user = (s.mill m).miller.user ∧
      (t.mill m).miller.ending = some (.contractFault cause.code) ∧ (t.mill m).miller.st = .stopped ∧
      t.hopper = s.hopper ∧ t.granary = s.granary ∧ t.tallyOf (.ikiug m) 0 = s.tallyOf (.ikiug m) 0 ∧
      ((∀ k, (s.mill k).bolter.ops = [] ∧ (s.mill k).governor.opened = []) → t.mem = s.mem) ∧
      ((s.mill m).miller.faulted = false → s.bit (.ikiug m) 0x144 31 = false → slot < 8 →
        t.word64 (.ikiug m) 0x150 = (s.ctx m .user).pc ∧ t.word64 (.ikiug m) 0x158 = (s.ctx m .user).pc ∧
        t.word (.ikiug m) 0x140 = s.seq m ∧ t.word (.ikiug m) 0x14C = BitVec.ofNat 32 cause.code ∧
        t.word64 (.ikiug m) 0x160 = (checkData (s.ctx m .user) (parseBundle x) slot cause).1 ∧
        t.word64 (.ikiug m) 0x168 = (checkData (s.ctx m .user) (parseBundle x) slot cause).2 ∧
        t.fld (.ikiug m) 0x144 0 3 = slot ∧ t.fld (.ikiug m) 0x144 3 2 = 1 ∧ t.bit (.ikiug m) 0x144 5 = true ∧
        t.bit (.ikiug m) 0x144 31 = true)

/-- R281, R288 to R291: a bundle of one scalar slot writes the register its operation names from the operands as they stood, s0
reads 0 and stays, the pc rises by 64, and no memory and no other register of either context changes. R292, R341: LD reads the 8
bytes at its hopper address, low byte first, and ST writes them, where no sluice still moves the region. Readings of open
points: log entry 30. -/
def Obligations.ScalarAndHopperOperations : Prop :=
  (
  ∀ (m : MillId) (c : Ctx) (b : Bundle) (codes : List Ecc) (s : State), s.Issues m c b → b.only 0 →
    let k := s.ctx m c
    let op := cOp b.s0
    let v := scalarB k b.s0 b.imm
    let put (k' : Context) : Prop := ∃ t, exec (.bundleIssue m c .good codes) s = .next t ∧ t.ctx m c = k'.issuedAt (k.pc + 64) ∧
      t.hopper = s.hopper ∧ t.granary = s.granary ∧ (s.logsCtx m c = false → t.mem = s.mem ∧ t.regs = s.regs) ∧
      (∀ d, d ≠ c → t.ctx m d = s.ctx m d) ∧ (t.mill m.other).miller = (s.mill m.other).miller
    (1 ≤ op → op ≤ 0x16 → put (k.setS (cRD b.s0) (scalarAlu op (k.sr (cRA b.s0)) v))) ∧
    (op = 0x20 → put (k.setA (cAX b.s0) (k.sr (cRA b.s0) + v))) ∧
    (op = 0x21 → put (k.setS (cRD b.s0) (k.ar (cAX b.s0) + v))) ∧
    (op = 0x22 → put (k.setS (cRD b.s0) ((k.tr (cAX b.s0)).zeroExtend 64)))) ∧ (
  ∀ (m : MillId) (c : Ctx) (b : Bundle) (codes : List Ecc) (s : State), s.Issues m c b → b.only 0 →
    let k := s.ctx m c
    let a := scalarAddr k b.s0 b.imm
    let key := hopperKey m (bitsOf a 24 5) (bitsOf a 0 23)
    spaceOf a.toNat = 1 → s.injects (.floor m 0) 2 = false → s.regionBusy m true false key 8 = false →
    (cOp b.s0 = 0x28 → ∃ t, exec (.bundleIssue m c .good codes) s = .next t ∧
      t.ctx m c = (k.setS (cRD b.s0) (BitVec.ofNat 64 (leNat (readBytes s.hopper key 8)))).issuedAt (k.pc + 64) ∧
      t.hopper = s.hopper ∧ t.granary = s.granary) ∧
    (cOp b.s0 = 0x29 → s.regionBusy m false false key 8 = false → ∃ t, exec (.bundleIssue m c .good codes) s = .next t ∧
      t.ctx m c = k.issuedAt (k.pc + 64) ∧ t.hopper = writeBytes s.hopper key (leBytes 8 (k.sr (cRD b.s0)).toNat) ∧
      (∀ x, x < key ∨ key + 8 ≤ x → readBytes t.hopper x 1 = readBytes s.hopper x 1) ∧
      (Memory.wf s.hopper = true → readBytes t.hopper key 8 = leBytes 8 (k.sr (cRD b.s0)).toNat) ∧ t.granary = s.granary))

/-- R304, R309, R310: where the pc goes after a bundle of one wait or branch slot; JAL links, END ends the user context's run of
bundles, and TPOST adds to a counter of the own mill at once, or leaves for the other. Readings of open points: log entry 31. -/
def Obligations.WaitAndBranchSlotsMoveThePc : Prop :=
  ∀ (m : MillId) (c : Ctx) (b : Bundle) (codes : List Ecc) (s : State), s.Issues m c b → b.only 6 →
    let k := s.ctx m c
    let op := bitsOf b.wb 0 8
    let target := k.pc + BitVec.ofInt 64 (64 * signedBits (bitsOf b.wb 48 16) 16)
    let go (k' : Context) (pc : W64) : Prop := ∃ t, exec (.bundleIssue m c .good codes) s = .next t ∧ t.ctx m c = k'.issuedAt pc ∧
      (c = .user → (t.mill m).miller.st = if op = 0xDF then .atEnd else .running)
    (op = 0xD0 → go k target) ∧
    (op = 0xD1 → go k (if branchTaken (bitsOf b.wb 18 3) (k.sr (bitsOf b.wb 8 5)) (k.sr (bitsOf b.wb 13 5)) = true
      then target else k.pc + 64)) ∧
    (op = 0xD2 → go (k.setS (bitsOf b.wb 8 5) (k.pc + 64)) target) ∧
    (op = 0xD3 → go k (k.sr (bitsOf b.wb 8 5))) ∧
    (op = 0xC0 ∨ op = 0xC4 ∨ op = 0xDF → go k (k.pc + 64)) ∧
    (op = 0xC8 → bitOf b.wb 12 = false → k.waitOn = none →
      go { k with t := cellSet 0 (wTctr b.wb) (k.tr (wTctr b.wb) + BitVec.ofNat 32 (bitsOf b.wb 13 16)) k.t } (k.pc + 64)) ∧
    (op = 0xC8 → bitOf b.wb 12 = true → ∃ t, exec (.bundleIssue m c .good codes) s = .next t ∧ t.ctx m c = k.issuedAt (k.pc + 64) ∧
      (t.mill m).shaft = (s.mill m).shaft ++ [.post c (wTctr b.wb) (bitsOf b.wb 13 16)])

/-- R36, R305 to R307, R309: a WAIT whose counter falls short holds its bundle; when its timer expires and the count still falls
short, TFAULT ends the command in WAIT_TIMEOUT and otherwise the branch is taken with nothing issued; a remote post that waits
first for the shaft is counted when it arrives, unless a column that is ready to cross goes before it. Readings of open points:
log entries 29, 31 and 40. -/
def Obligations.WaitsHoldUntilTokensOrTimeout : Prop :=
  (∀ (m : MillId) (x : BitVec 512) (codes : List Ecc) (s : State), s.halted = false → s.active m .user = true →
    s.injArmed (.ikiug m) = false → (s.ctx m .user).fetched = some x → (s.ctx m .user).waitOn = none →
    let b := parseBundle x
    let k := s.ctx m .user
    s.bundleFault m .user k b = none → b.wbOp = some 0xC0 → waitHolds (k.tr (wTctr b.wb)) (waitTarget k b.wb b.imm) = false →
    exec (.bundleIssue m .user .good codes) s =
      .next (({ s with codes := [] } : State).tally (.ikiug m) 2 1 |>.onMill m fun y => { y with miller := { y.miller with
        st := .waiting, user := { y.miller.user with
          waitOn := some (wTctr b.wb, waitTarget k b.wb b.imm, waitTimeoutNs b.wb), waitNs := 0, waitMet := none } } })) ∧
  (∀ (m : MillId) (b : Bundle) (ctr : Nat) (target : W32) (s : State), s.halted = false → s.refHeld = false →
    s.active m .user = true → (s.ctx m .user).timedWait = some (b, ctr, target) →
    let k := s.ctx m .user
    let u := s.tally (.ikiug m) 4 1
    waitHolds (k.tr ctr) target = false →
    (bitOf b.wb 42 = false → exec (.waitTimeout m) s = .next ((u.raise (.ikiug m) 2).onMill m fun y => { y with miller :=
      { y.miller with st := .running, user := { y.miller.user.clearFetch with pc := wTarget k.pc b.wb } } })) ∧
    (bitOf b.wb 42 = true → exec (.waitTimeout m) s = .next (u.endCommand m
      { kind := .command, system := false, page := .ikiug m, cause := 17, res := BitVec.ofNat 64 (wTctr b.wb),
        opnd := (k.tr (wTctr b.wb)).zeroExtend 64, pc := k.pc, slot := 6, issue := false, injected := false }))) ∧
  (∀ (m : MillId) (c : Ctx) (ctr n : Nat) (rest : List ShaftItem) (s : State), s.halted = false →
    (s.mill m).shaft = .post c ctr n :: rest →
    (s.raceCrossing m = true → exec (.remoteTpostArrive m) s = .next s) ∧
    (s.raceCrossing m = false → ∃ t, exec (.remoteTpostArrive m) s = .next t ∧
      (t.ctx m.other c).tr ctr = (s.ctx m.other c).tr ctr + BitVec.ofNat 32 n ∧ (t.mill m).shaft = rest ∧
      (∀ i, i ≠ ctr → (t.ctx m.other c).tr i = (s.ctx m.other c).tr i) ∧ (t.ctx m.other c).pc = (s.ctx m.other c).pc))

/-- R293 to R297: the oldest vector operation completes on the units it names, in order up to the first that finds a fault; it
posts its token once. One that its stage holds waits with nothing changed but the page it waits for. A lane operation writes
each lane of v[VD] of each unit from the same lanes of its operands. Readings of open points: log entries 10, 32 and 33. -/
def Obligations.VectorOperationsComplete : Prop :=
  (∀ (m : MillId) (o : VecOp) (rest : List VecOp) (codes : List Ecc) (s : State), s.halted = false →
    (s.mill m).miller.vecQ = o :: rest →
    let id := (s.mill m).race.nextId
    let u : State := { s with codes := codes }
    let out (t : State) : State := { t with codes := [] }
    let left (t : State) : State := t.onMill m fun x => { x with miller := { x.miller with vecQ := rest } }
    (∀ page, u.vecUnits m o id true (vUnits o.slot) = .wait page → exec (.vectorOpDone ⟨m, codes⟩) s =
      .next (out (u.onMill m fun x => { x with governor := { x.governor with wpHold := page } }))) ∧
    (∀ t, u.vecUnits m o id true (vUnits o.slot) = .fault t → exec (.vectorOpDone ⟨m, codes⟩) s = .next (out (left t))) ∧
    (∀ t, u.vecUnits m o id true (vUnits o.slot) = .ok t → exec (.vectorOpDone ⟨m, codes⟩) s = .next (out (
      let t := (left { t with draw := t.draw + 1536 }).onMill m fun x =>
        { x with race := { x.race with nextId := id + 1 }, governor := { x.governor with wpHold := none } }
      if vPost o.slot = true then (t.tally (.floor m 0) 6 1).post m .user (vTctr o.slot) 1 else t)))) ∧
  (∀ (m : MillId) (o : VecOp) (rest : List VecOp) (codes : List Ecc) (s : State), s.halted = false →
    (s.mill m).miller.vecQ = o :: rest →
    let op := vOp o.slot
    let et := vEtype o.slot
    let n := laneBits et
    let f := if et = 2 then intLaneOp op else fpLane et op
    (0x40 ≤ op ∧ op ≤ 0x49) ∨ (0x4B ≤ op ∧ op ≤ 0x4D) → et ≤ 2 →
    ∃ t, exec (.vectorOpDone ⟨m, codes⟩) s = .next t ∧ (t.mill m).miller.vecQ = rest ∧ t.hopper = s.hopper ∧
      (∀ p, p ∈ vUnits o.slot → ∀ i, i < 2048 / n → natBits (t.vreg m p (vVD o.slot)).toNat (n * i) n =
        f (s.laneFree p i) (natBits (s.vreg m p (vVA o.slot)).toNat (n * i) n) (natBits (s.vecB m p o).toNat (n * i) n)
          (natBits (s.vreg m p (vVC o.slot)).toNat (n * i) n) % 2 ^ n) ∧
      (∀ p r, p < 12 → r < 64 → p ∉ vUnits o.slot ∨ r ≠ vVD o.slot → t.vreg m p r = s.vreg m p r) ∧
      (vPost o.slot = true → (t.ctx m .user).tr (vTctr o.slot) = (s.ctx m .user).tr (vTctr o.slot) + 1) ∧
      (∀ r, vPost o.slot = false ∨ r ≠ vTctr o.slot → (t.ctx m .user).tr r = (s.ctx m .user).tr r))

/-! ## Log and tensor watch -/

/-- R541 to R545: a hold sample and a trigger sample enter the ring newest first; a trigger leaves an armed log in the post
state, captured where LOG_POST is 0, and raises its events; ARM, RUN and TRIG_NOW do what LOG_CTL says, refused in the post
state. R549: word 0 of LOG_RD_DATA captures, for the path that reads it, the whole sample at LOG_RD_IDX from the newest. R550 to
R552: WATCH_CLOSE closes the windows of the points it names; a window that closes copies its statistics whole into its result
registers, and another opens while EN is 1. Readings of open points: log entry 59. -/
def Obligations.LogsAndWatchesRecord : Prop :=
  (
  (∀ (m : MillId) (c : Ctx) (s : State), s.logsCtx m c = true → s.isHeld m c = true → s.fld (.log m) 0x100 16 16 ≠ 0 →
    exec (.logHoldSample m c) s = .next ((s.logSample m c (s.stall m c) true false).onMill m fun x => { x with miller := match c with
      | .user => { x.miller with user := { x.miller.user with heldNs := 0 } }
      | .system => { x.miller with system := { x.miller.system with heldNs := 0 } } })) ∧
  (∀ (m : MillId) (s : State), s.logState m = .armed → (s.mill m).log.trigNow = true → s.pageLive (.log m) = true →
    ∃ t, exec (.logTriggered m) s = .next t ∧ (t.mill m).log.trigNow = false ∧
      (t.mill m).log.st = (if s.fld (.log m) 0x114 0 24 = 0 then .captured else .post) ∧
      (t.mill m).log.postLeft = s.fld (.log m) 0x114 0 24 ∧ (t.mill m).log.age = 0 ∧
      ((t.mill m).log.ring.drop 1 = (s.mill m).log.ring.take 8191) ∧ t.tallyOf (.log m) 4 = s.tallyOf (.log m) 4 + 1) ∧
  (∀ (m : MillId) (c : Ctx) (x : Stall) (hold trig : Bool) (s : State), s.pageLive (.log m) = true →
    s.logState m = .running ∨ s.logState m = .armed →
    ((s.logSample m c x hold trig).mill m).log.ring = (sampleBits s.time (s.ctx m c).pc.toNat (c == .system) false trig hold
      (if c = .system then 0 else (s.mill m).miller.run) (if c = .system then 0 else s.seq m) x :: (s.mill m).log.ring).take 8192) ∧
  (∀ (p : Path) (m : MillId) (s : State), Accepts s p (.log m) →
    let u := s.countAccess p 5
    let l := (s.mill m).log
    let put (st : LogState) (lost : Bool) : State :=
      u.onMill m fun x => { x with log := { x.log with st := st, trigNow := false, lostSeen := lost } }
    let err (w : W32) : State := u.accessErr p ((Page.log m).base + 0x118) true w .value
    (l.st = .post ∨ (if s.bit (.log m) 0x100 7 = true then l.spillCap - 1 else 8191) < s.fld (.log m) 0x114 0 24 →
      exec (.arm p m) s = .next (err 1)) ∧
    (l.st ≠ .post → s.fld (.log m) 0x114 0 24 ≤ (if s.bit (.log m) 0x100 7 = true then l.spillCap - 1 else 8191) →
      exec (.arm p m) s = .next (put .armed false)) ∧
    (l.st = .post → exec (.logRun p m) s = .next (err 4)) ∧
    (l.st ≠ .post → exec (.logRun p m) s = .next (put .running l.lostSeen)) ∧
    (s.trigKind m = 5 → exec (.trigNow p m) s = .next (u.logTrigger m)) ∧
    (s.trigKind m ≠ 5 → exec (.trigNow p m) s = .next u))) ∧ (
  ∀ (p : Path) (m : MillId) (s : State), Accepts s p (.log m) → exec (.logRdDataRead p m) s =
    .next ((s.countAccess p 4).onPath p fun x =>
      { (match m with | .m0 => { x with logCap0 := s.logWords m } | .m1 => { x with logCap1 := s.logWords m } : PathState) with
        reply := ((s.logWords m).getD 0 0).zeroExtend 64 })) ∧ (
  (∀ (p : Path) (m : MillId) (mask : BitVec 16) (s : State), Accepts s p (.watch m) → exec (.watchClose p m mask) s =
    .next ((List.range 16).foldl (fun t n => if bitOf mask n = true then t.watchClose m n else t) (s.countAccess p 5))) ∧
  (∀ (m : MillId) (n : Nat) (s : State), n < 16 → (s.watchPoint m n).openW = true →
    let w := s.watchPoint m n
    let o := 0x100 + 0x80 * n
    let t := s.watchClose m n
    t.word (.watch m) (o + 0x10) = (s.mill m).log.curSeq ∧ t.word64 (.watch m) (o + 0x18) = BitVec.ofNat 64 w.elems ∧
    t.word (.watch m) (o + 0x20) = w.min ∧ t.word (.watch m) (o + 0x24) = w.max ∧ t.word64 (.watch m) (o + 0x28) = w.combine.1 ∧
    t.word64 (.watch m) (o + 0x30) = w.combine.2 ∧ t.word64 (.watch m) (o + 0x38) = BitVec.ofNat 64 w.zeros ∧
    t.word64 (.watch m) (o + 0x40) = BitVec.ofNat 64 w.sat ∧ t.word64 (.watch m) (o + 0x48) = BitVec.ofNat 64 w.nans ∧
    t.word64 (.watch m) (o + 0x50) = w.digest ∧ t.word64 (.watch m) (o + 0x58) = BitVec.ofNat 64 w.step ∧
    (t.watchPoint m n).openW = s.bit (.watch m) o 12 ∧ (t.watchPoint m n).elems = 0 ∧
    (∀ k, k < 16 → k ≠ n → t.watchPoint m k = s.watchPoint m k) ∧ t.mem = s.mem))

/-! ## Stones -/

/-- R67 to R70, R75, R76: the loader broadcasts the next row of a stone's oldest load that may go on into the shadow set, with
its elements and edge base, and adds it to the check values; a row loaded for a shift is staged. A row already written since the
last swap is a contract fault with cause 2; a row that the governor cannot read stops the stone, and one that waits for a port
changes nothing. R73 to R78: at a boundary with a swap mark and the load complete the shadow set becomes the active one and an
empty shadow set takes its place; a shift mark moves every row up by one and takes the staged row, and is a contract fault in
BF16 and compatibility mode. Readings of open points: log entries 34 (a shift with no row staged) and 35. -/
def Obligations.ShadowSetsLoadSwapAndShift : Prop :=
  (
  ∀ (m : MillId) (n : Fin 24) (codes : List Ecc) (o : RaceOp) (s : State), s.stoneReady m n = true → s.loadOp m n.val = some o →
    s.loadable m n.val o = true →
    let l := o.row0 + o.prog
    let q := loaderAt m n.val o.pc o.system
    let out (t : State) : State := { t with codes := [] }
    let read := ({ s with codes := codes } : State).govRun q o.ay (loadRow q o (o.block m) l)
    ((s.stone m n.val).shadow.written l = true →
      exec (.shadowBroadcast m ⟨n, codes⟩) s = .next (s.stoneFault m n 2 false (2 ^ 16 * l) 0 o)) ∧
    ((s.stone m n.val).shadow.written l = false →
      (read = .hold → exec (.shadowBroadcast m ⟨n, codes⟩) s = .next (out { s with codes := codes })) ∧
      (∀ abn t, read = .stop abn t →
        exec (.shadowBroadcast m ⟨n, codes⟩) s = .next (out (t.onStone m n.val fun x => { x with failed := some abn }))) ∧
      (∀ t edge es u, read = .ok (t, edge, es) u → ∃ v, exec (.shadowBroadcast m ⟨n, codes⟩) s = .next v ∧
        let sh := (u.stone m n.val).shadow
        let got := (v.stone m n.val).shadow
        let vals := es.map fun e => (t.fmt.value e.1).scale e.2
        v.mem = u.mem ∧ v.hopper = u.hopper ∧ (v.stone m n.val).active = (u.stone m n.val).active ∧
        (v.stone m n.val).loading = decide (o.prog + 1 < o.nrows) ∧
        (o.shiftRow = false → (∃ row : StatRow, row.fmt = t.fmt ∧ row.edge = edge ∧ row.elems = es ∧ row.handle = o.ay ∧
            got.rows = sh.rows ++ [(l, row)]) ∧
          got.c = addCheck false sh.c vals ∧ got.a = addCheck false sh.a (vals.map Num.abs) ∧ got.staged = sh.staged) ∧
        (o.shiftRow = true → (∃ row : StatRow, row.fmt = t.fmt ∧ row.edge = edge ∧ row.elems = es ∧ got.staged = some row) ∧
          got.rows = sh.rows ∧ got.c = sh.c ∧ got.a = sh.a)))) ∧ (
  (∀ (m : MillId) (n : Fin 24) (w : Work) (s : State), s.stoneReady m n = true → (s.stone m n.val).clear = true →
    s.feederHeld m n.val = false → s.swapPending m n.val = some w → (s.stone m n.val).loading = false →
    (∀ o, s.loadOp m n.val = some o → s.loadable m n.val o = false) → s.injArmed (.stone m n) = false →
    let x := s.stone m n.val
    exec (.swap m n) s = .next ((s.onStone m n.val fun y =>
      { y with active := { x.shadow with staged := none, fresh := false }, shadow := { StatSet.reset with staged := y.shadow.staged },
               swaps := y.swaps + 1, onesDue := y.onesDue || (y.swaps + 1) % 2 ^ s.fld (.stone m n) 0x100 5 3 == 0,
               swapped := some w.key }).tally (.stone m n) 2 1)) ∧
  (∀ (m : MillId) (n : Fin 24) (w : Work) (o : RaceOp) (s : State), s.stoneReady m n = true → (s.stone m n.val).clear = true →
    s.feederHeld m n.val = false → s.swapPending m n.val = none → s.shiftPending m n.val = some w → s.workOp m w = some o →
    let x := s.stone m n.val
    let bf16 : Bool := (match w with | .tile t _ => t.fmt == Fmt.bf16 | .half _ _ => false | .scatter _ => false)
      || x.active.rows.any fun r => r.2.fmt == Fmt.bf16
    ((s.mill m).governor.compat = true ∨ bf16 = true → exec (.rowShift m n) s =
      .next (s.stoneFault m n 3 false 0 (if (s.mill m).governor.compat = true then 1 else 0) o)) ∧
    ((s.mill m).governor.compat = false → bf16 = false → s.injArmed (.stone m n) = false →
      x.shadow.staged ≠ none ∨ (∀ y, s.loadOp m n.val = some y → y.shiftRow = false ∨ s.loadable m n.val y = false) →
      exec (.rowShift m n) s = .next ((s.onStone m n.val fun y =>
        { y with active := x.active.shiftUp x.shadow.staged, shadow := { y.shadow with staged := none, fresh := false },
                 shiftDone := some w.key.1 }).tally (.stone m n) 3 1))))

/-- R57, R58, R61, R65, R79 to R82, R163, R164: a pass on the active set. It waits for its operands and for a bank that a toll
drain holds; operands that do not pair, and a use of the bank that R82 refuses, are its faults; an uncorrectable word of a bank
that is read makes the bank invalid; a pass that goes on writes its row results to the bank by the plan's mode and keeps its
comparisons. R80, R82: FIRST replaces the words of a bank and makes it accumulating; ADD adds to each word, the bank word first,
and leaves the others; CARRY leaves the bank as it is, and frees the bank that it names when the pass completes. A free bank
takes FIRST alone, an accumulating one never FIRST, and an invalid one FIRST alone. Readings of open points: log entries 34 and
35. -/
def Obligations.PassesUseTheirBankByTheirMode : Prop :=
  (
  ∀ (m : MillId) (n : Fin 24) (codes : List Ecc) (w : Work) (o : RaceOp) (bank : Nat) (mode : Mode) (s : State),
    s.stoneReady m n = true → (s.stone m n.val).clear = true → s.feederHeld m n.val = false →
    s.swapPending m n.val = none → s.shiftPending m n.val = none → s.stoneWork m n.val = some w → s.workOp m w = some o →
    s.planOf m n.val w = (bank, mode) →
    let out (t : State) : State := { t with codes := [] }
    let read := ({ s with codes := codes } : State).streamed m n.val w
    (s.modeUse m n.val bank mode = .wait → exec (.stonePass m n codes) s = .next s) ∧
    (s.modeUse m n.val bank mode ≠ .wait →
      (read = .hold → exec (.stonePass m n codes) s = .next (out { s with codes := codes })) ∧
      (∀ abn t, read = .stop abn t →
        exec (.stonePass m n codes) s = .next (out (t.onStone m n.val fun x => { x with failed := some abn }))) ∧
      (∀ t u, read = .ok t u →
        let rows := (u.stone m n.val).active.rows.map (·.2)
        let kind := passKind rows t (u.mill m).governor.compat (w.namesBF16 rows t)
        (∀ cause opnd, kind = .stone cause opnd → exec (.stonePass m n codes) s = .next (out (u.stoneFault m n cause false 0 opnd o))) ∧
        (∀ cause h line, kind = .gov cause h line → exec (.stonePass m n codes) s = .next (out (
          (u.govFault m cause (handleDesc h) 14 line (handleStep h) o.pc 3 o.system false).onStone m n.val fun x =>
            { x with failed := some 3 }))) ∧
        (∀ k, kind = .ok k →
          (∀ c, u.modeUse m n.val bank mode = .fault c → exec (.stonePass m n codes) s = .next (out (
            u.stoneFault m n c (c == 5) (2 ^ 16 * bank) ((u.bankState m n.val bank).code + 4 * mode.use) o))) ∧
          (u.modeUse m n.val bank mode = .use →
            (mode = .first ∨ mode = .carry → exec (.stonePass m n codes) s = .next (out (u.runPass m n w t k bank mode))) ∧
            (mode = .add ∨ mode = .carryBank → ∀ v,
              (u.bankRead m n bank o = (true, v) → exec (.stonePass m n codes) s = .next (out v)) ∧
              (u.bankRead m n bank o = (false, v) →
                exec (.stonePass m n codes) s = .next (out (v.runPass m n w t k bank mode))))))))) ∧ (
  (∀ (b : Bank) (compat : Bool) (new : List BankWord) (row wf : Nat) (y : W32) (e : Int),
    (new.map (·.1)).Nodup → (256 * row + wf, y, e) ∈ new →
    (b.write .first compat new).1.word? row wf = some (y, e) ∧ (b.write .first compat new).1.st = .accumulating ∧
    (∀ w e', b.word? row wf = some (w, e') → (b.write .add compat new).1.word? row wf = some ((accumulate compat w y).1, e)) ∧
    (b.word? row wf = none → (b.write .add compat new).1.word? row wf = some (y, e)) ∧ (b.write .add compat new).1.st = b.st) ∧
  (∀ (b : Bank) (compat : Bool) (new : List BankWord) (row wf : Nat), (∀ x ∈ new, x.1 ≠ 256 * row + wf) →
    (b.write .first compat new).1.word? row wf = none ∧ (b.write .add compat new).1.word? row wf = b.word? row wf) ∧
  (∀ (b : Bank) (compat : Bool) (new : List BankWord),
    (b.write .carryBank compat new).1 = b ∧ (b.write .carry compat new).1 = b) ∧
  (∀ (x : Stone) (p : StonePass) (b : Nat), b < 2 → p.frees = true → p.bank = some b →
    ((x.passOver p).bank b).st = .free ∧ (x.passOver p).bank (1 - b) = x.bank (1 - b) ∧ (x.passOver p).pass = none) ∧
  (∀ (toll : Bool) (k : Nat), 1 ≤ k → bankUse .free toll 0 = .use ∧ bankUse .free toll k = .fault 4 ∧
    bankUse .accumulating toll 0 = .fault 4 ∧ bankUse .accumulating toll k = .use ∧
    bankUse .draining toll 0 = (if toll = true then .wait else .fault 4) ∧ bankUse .draining toll k = .fault 4 ∧
    bankUse .invalid toll 0 = .use ∧ bankUse .invalid toll k = .fault 5))

/-- R83 to R87: the comparison of a wavefront is decided when its last result has arrived: it is counted, not made where a value
is not finite, and a failure is recorded; after the last comparison of a pass without a failure the stone's part is made.
Readings of open points: log entry 34 (a ones wavefront that R85 leaves out still has its rows compared with h). -/
def Obligations.WavefrontsAreCompared : Prop :=
  (∀ c : WfCheck, checkSkipped c = false ↔ c.d.isFinite = true ∧ c.c.isFinite = true ∧ c.s.isFinite = true) ∧
  ∀ (m : MillId) (n : Fin 24) (p : StonePass) (c : WfCheck) (rest : List WfCheck) (s : State), s.halted = false →
    (s.stone m n.val).pass = some p → p.checks = c :: rest →
    let x := s.stone m n.val
    let p' := { p with checks := rest }
    let u := (if c.ones = true then s.tally (.stone m n) 1 1
      else (s.tally (.stone m n) 0 1).tally (.stone m n) 7 (256 - x.active.rows.length)).onStone m n.val fun y => { y with pass := some p' }
    let u := if checkSkipped c = true then u.tally (.stone m n) 12 1 else u
    let v := if c.onesBad ≠ none ∨ (checkSkipped c = false ∧ checkFails c (s.tolExp m n c.compat) = true)
      then u.checkFailure m n p' c else u
    exec (.wavefrontDone m n) s = .next (if rest = [] ∧ (v.stone m n.val).failed = none ∧ x.draining = false
      then v.passEnded m n p' else v)

/-- R93, R94, R101, R134: a fault stops the feeder: a pass counts as aborted, the bank being written becomes invalid, and the
race of a stone that stands in it is abandoned unless that race has pulled the stone down; when the in-flight wavefronts have
drained ABORT_DONE is raised. R81, R82, R161, R412: the drain of an accumulating bank, once governor stage 0 has written what it
had, hands it a line for each row of the bank, the edge scale applied, and frees the bank, or keeps it draining for the toll
drain that samples it; any other bank is the drain's fault. Readings of open points: log entries 34 and 35. -/
def Obligations.FaultedPassesAndDrainsFreeTheirBank : Prop :=
  (
  (∀ (m : MillId) (n : Fin 24) (s : State), s.halted = false → (s.stone m n.val).draining = false →
    let x := s.stone m n.val
    let u := (s.tally (.stone m n) 14 (if x.pass.isSome = true ∨ x.failed.any (· != 0) = true then 1 else 0)).onStone m n.val fun y =>
      { (match y.pass.bind (·.bank) with
          | some b => y.setBank b { y.bank b with st := .invalid, toll := false }
          | none => y : Stone) with
        draining := true, failed := some (y.failed.getD 5), recv := none, feed := none, injection := 0 }
    (x.failed = none → x.pass ≠ none → s.feederHeld m n.val = true → exec (.passAbort m n) s = .next u) ∧
    (x.failed = some 0 → exec (.passAbort m n) s = .next u) ∧
    (∀ c, x.failed = some c → c ≠ 0 → exec (.passAbort m n) s = .next (if s.roleOf m n.val = .scatter then u
      else u.raceAbandon (s.raceOwner m) (s.racePos m n.val) c))) ∧
  (∀ (m : MillId) (n : Fin 24) (s : State), s.halted = false → (s.stone m n.val).draining = true → exec (.abortDone m n) s =
    .next ((s.onStone m n.val fun x => { x with draining := false, failed := none, pass := none }).raise (.stone m n) 8))) ∧ (
  ∀ (m : MillId) (n : Fin 24) (codes : List Ecc) (o : RaceOp) (s : State), s.stoneReady m n = true → (s.stone m n.val).failed = none →
    (s.stone m n.val).draining = false → s.drainOp m n.val = some o →
    let b := (s.stone m n.val).bank o.bank
    let out (t : State) : State := { t with codes := [] }
    (b.st ≠ .accumulating → exec (.bankDrain m n codes) s =
      .next (s.stoneFault m n (if b.st = .invalid then 5 else 4) (b.st == .invalid) (2 ^ 16 * o.bank) (b.st.code + 12) o)) ∧
    (b.st = .accumulating → s.stageJobs m 0 ≠ [] → exec (.bankDrain m n codes) s = .next s) ∧
    (b.st = .accumulating → s.stageJobs m 0 = [] → ∀ u,
      (({ s with codes := codes } : State).bankRead m n o.bank o = (true, u) → exec (.bankDrain m n codes) s = .next (out u)) ∧
      (({ s with codes := codes } : State).bankRead m n o.bank o = (false, u) →
        exec (.bankDrain m n codes) s = .next (out ((((drainJobs o (o.block m) b.words).foldl (fun t j => t.addJob m 0 j) u).sampleDrain m n
          o.bank).onRaceOp m o.id fun o => { o with done := true })) ∧
        ((s.mill m).toll.on = false ∨ s.bit (.toll m) 0x100 15 = false → ∃ t, exec (.bankDrain m n codes) s = .next t ∧
          ((t.stone m n.val).bank o.bank).st = .free ∧ (t.stone m n.val).drains = (u.stone m n.val).drains + 1))))

/-- R89 to R92, R96, R98: APPLY requests a repair of the rows as they stand unless two valid fields name one row, SELFTEST the
test alone; at a boundary with the stone idle, both banks free and no swap pending, the repair disables its rows and the test
runs; when it ends, a repair has written the skew table, and the stone is in service where every mapped row passes. Readings of
open points: log entry 35. -/
def Obligations.StonesAreRepairedAndTested : Prop :=
  (∀ (p : Path) (m : MillId) (n : Fin 24) (s : State), Accepts s p (.stone m n) →
    let u := s.countAccess p 5
    exec (.apply p m n) s = .next (if (s.rowmapRows m n).Nodup then u.onStone m n.val fun x => { x with applyReq := some (s.rowmapRows m n) }
      else u.putFld (.stone m n) 0x110 8 2 3) ∧
    exec (.selftest p m n) s = .next (u.onStone m n.val fun x => { x with testReq := true })) ∧
  (∀ (m : MillId) (n : Fin 24) (s : State), s.halted = false → s.pageLive (.stone m n) = true → (s.stone m n.val).repair = .none →
    (s.stoneIdle m n = false → exec (.repairRun m n) s = .next s) ∧
    (s.stoneIdle m n = true →
      (∀ rows, (s.stone m n.val).applyReq = some rows → exec (.repairRun m n) s = .next (({ s with nv := { s.nv with
        rowmaps := (stoneIndex m n, rows) :: s.nv.rowmaps.filter fun r => r.1 != stoneIndex m n } } : State).onStone
          m n.val fun x => { x with disabled := rows, applyReq := none, testReq := false, repair := .repairing })) ∧
      ((s.stone m n.val).applyReq = none → (s.stone m n.val).testReq = true →
        exec (.repairRun m n) s = .next (s.onStone m n.val fun x => { x with testReq := false, repair := .testing })))) ∧
  (∀ (m : MillId) (n : Fin 24) (s : State), s.halted = false → (s.stone m n.val).repair ≠ .none → s.injArmed (.stone m n) = false →
    (s.stone m n.val).disabled.eraseDups.length ≤ 4 → (s.stone m n.val).unrepairable = false →
    let u := if (s.stone m n.val).repair = .repairing then (s.writeSkew m n (s.stone m n.val).disabled).raise (.stone m n) 9 else s
    exec (.selftestDone m n [] false) s = .next (((u.putFld (.stone m n) 0x110 8 2 1).putFld (.stone m n) 0x110 16 9 0).onStone m n.val
      fun x => { x with repair := .none, unrepairable := false, outOfService := false })) ∧
  (∀ (m : MillId) (n : Fin 24) (failing : List (Fin 261)) (pathFault : Bool) (s : State), s.halted = false →
    (s.stone m n.val).repair ≠ .none → s.injArmed (.stone m n) = false →
    let x := s.stone m n.val
    let bad : Bool := pathFault || decide (4 < (x.disabled ++ (failing.map (·.val)).eraseDups).eraseDups.length)
    (pathFault = true ∨ ∃ r ∈ failing, r.val ∈ rowMap x.disabled) →
    ∃ t, exec (.selftestDone m n failing pathFault) s = .next t ∧ (t.stone m n.val).repair = .none ∧
      (t.stone m n.val).outOfService = true ∧ (t.stone m n.val).unrepairable = (x.unrepairable || bad) ∧
      (s.pageLive (.stone m n) = true → t.fld (.stone m n) 0x110 8 2 = if x.unrepairable || bad then 3 else 2) ∧ t.mem = s.mem)

/-! ## The race -/

/-- R103 to R111, R118, R121, R134: a column at a position is received by a consumer bound to its stream as it passes, has the
share of a runner added, or crosses unchanged; the runner of the lowest position begins a dW column. A full place ahead holds
it, and so does a column of another stream that arrived before it. A column of an abandoned pass is forwarded and nothing more.
Readings of open points: log entries 34 and 35. -/
def Obligations.ColumnsHopRoundTheRace : Prop :=
  ∀ (m : MillId) (stream : Fin 4) (pos : Fin 24) (s : State), s.halted = false →
    let own := s.raceOwner m
    let q := s.racePos m pos.val
    let role := s.roleAt own q stream.val
    let x := s.stone m pos.val
    (s.hopFull own q stream.val = true → exec (.columnHop m stream pos) s = .next s) ∧
    (s.hopFull own q stream.val = false → s.injArmed (.race own) = false →
      (∀ c rest, s.colsAt own q stream.val = c :: rest → s.hopLater own q stream.val c = false →
        let left := s.setCols own q stream.val rest
        let on (t : State) (c : Column) : State := t.arriveCol own (q + 1) stream.val c
        ((s.mill own).race.dead c = true → exec (.columnHop m stream pos) s = .next (on left c)) ∧
        ((s.mill own).race.dead c = false →
          (role = .consumer → c.words = [] → x.feederFull = true → exec (.columnHop m stream pos) s = .next s) ∧
          (role = .consumer → c.words = [] → x.feederFull = false → x.takes c = true →
            exec (.columnHop m stream pos) s = .next (on (left.onStone m pos.val fun y => y.receive c) c)) ∧
          ((role = .consumer ∧ (c.words ≠ [] ∨ (x.feederFull = false ∧ x.takes c = false))) ∨ role = .unbound ∨ role = .scatter ∨
              (role = .runner ∧ c.words = []) → exec (.columnHop m stream pos) s = .next (on left c)) ∧
          (∀ share, role = .runner → c.words ≠ [] → x.share = some (c.op, c.idx, share) →
            let r := runnerWords (s.mill m).governor.compat (c.fmt == .bf16) c.words share
            exec (.columnHop m stream pos) s =
              .next (on ((left.tally (.stone m pos) 9 r.2).onStone m pos.val Stone.letGo) { c with words := r.1 })) ∧
          (role = .runner → c.words ≠ [] → (∀ share, x.share ≠ some (c.op, c.idx, share)) →
            exec (.columnHop m stream pos) s = .next s))) ∧
      (∀ op i share, s.colsAt own q stream.val = [] → (s.mill own).race.abandoned = false → role = .runner →
        (s.boundTo own .runner stream.val).head? = some (m, pos.val) → x.share = some (op, i, share) →
        let c := s.newborn own op i
        s.hopLater own q stream.val c = false → (s.mill own).race.dead c = false →
        let r := runnerWords (s.mill m).governor.compat (c.fmt == .bf16) c.words share
        exec (.columnHop m stream pos) s = .next (((s.tally (.stone m pos) 9 r.2).onStone m pos.val Stone.letGo).arriveCol own (q + 1)
          stream.val { c with words := r.1 })))

/-- R106, R111, R113, R119, R129, R130, R134: the headrace enters the next column of a fetched tile, where what scales it can be
read; the tailrace discards a weight column and a column of an abandoned pass, takes a dW column into its tile with the mask
latched at the first, and hands a whole tile to the governor once it accepts one; until then the dW columns behind wait.
Readings of open points: log entries 27 and 34. -/
def Obligations.HeadraceEntersAndTailraceWrites : Prop :=
  (∀ (m : MillId) (stream : Fin 4) (codes : List Ecc) (o : RaceOp) (s : State), s.halted = false → s.raceOwner m = m →
    (s.mill m).race.abandoned = false → (s.colsAt m 0 stream.val).length < 4 → s.entryOp m stream.val = some o →
    s.tileFetched m o = true →
    let q := headraceAt m o.pc o.system
    let out (t : State) : State := { t with codes := [] }
    let read := ({ s with codes := codes } : State).govRun q o.ay (tileColumn q o (s.tileFolds m o.stream))
    (read = .hold → exec (.headraceEntry m ⟨stream, codes⟩) s = .next (out { s with codes := codes })) ∧
    (∀ abn u, read = .stop abn u →
      exec (.headraceEntry m ⟨stream, codes⟩) s = .next (out (u.onRaceOp m o.id fun o => { o with failed := true }))) ∧
    (∀ t c u, read = .ok (t, c) u →
      let v := ((u.keepBref m o.id m t).tally (.race m) 0 1).tally (.race m) 3 c.quarters
      let v := if o.prog = 255 then v.tally (.race m) 7 1 else v
      exec (.headraceEntry m ⟨stream, codes⟩) s = .next (out ((v.arriveCol m 0 stream.val c).onRaceOp m o.id
        fun o => { o with prog := o.prog + 1 })))) ∧
  (∀ (m : MillId) (stream : Fin 4) (s : State), s.halted = false → s.raceOwner m = m →
    let accepts (t : State) (x : TailTile) (o : RaceOp) : Prop :=
      t.wholeTile m stream.val = some x ∧ t.raceOp m x.op = some o ∧ t.runnersMade m o = true ∧ t.stageJobs m 0 = []
    let written (t : State) (x : TailTile) (o : RaceOp) : State :=
      ((((tileJobs o x).foldl (fun t j => t.addJob m 0 j) t).tally (.race m) 1 256).tally (.race m) 10 (maskedWords x)).onMill m
        (fun y => { y with race := { y.race with tiles := y.race.tiles.filter fun z => z.op != x.op } }) |>.onRaceOp m o.id
          fun o => { o with done := true }
    (s.tailOf m stream.val = [] → s.wholeTile m stream.val = none → exec (.tailraceWrite m stream) s = .next s) ∧
    (s.tailOf m stream.val = [] → ∀ x o, accepts s x o → exec (.tailraceWrite m stream) s = .next (written s x o)) ∧
    (∀ c rest, s.tailOf m stream.val = c :: rest →
      let u := s.setTail m stream.val rest
      (c.words = [] → exec (.tailraceWrite m stream) s = .next (u.tally (.race m) 2 1)) ∧
      (c.words ≠ [] → (s.mill m).race.dead c = true → exec (.tailraceWrite m stream) s = .next u) ∧
      (c.words ≠ [] → (s.mill m).race.dead c = false →
        (∀ x o, accepts s x o → exec (.tailraceWrite m stream) s = .next (written s x o)) ∧
        (∀ x, s.wholeTile m stream.val = some x → s.stageJobs m 0 ≠ [] → exec (.tailraceWrite m stream) s = .next s) ∧
        (s.wholeTile m stream.val = none →
          let v := u.takeDW m stream.val c
          (v.wholeTile m stream.val = none → exec (.tailraceWrite m stream) s = .next v) ∧
          (∀ x o, accepts v x o → exec (.tailraceWrite m stream) s = .next (written v x o)) ∧
          (∀ masks, masks = s.maskWords m (((s.raceOp m c.op).map (·.mask)).getD 0) →
            ((s.mill m).race.tiles.any (fun x => x.op == c.op) = false →
              (⟨c.op, stream.val, masks.1, masks.2, [(c.idx, c.words)]⟩ : TailTile) ∈ (v.mill m).race.tiles) ∧
            (∀ x ∈ (s.mill m).race.tiles, x.op = c.op →
              { x with cols := x.cols ++ [(c.idx, c.words)] } ∈ (v.mill m).race.tiles))))))

/-- R122 to R125, R191: splice begins at a boundary with both races idle where both mills ask for it alike, and ends where one
no longer does or their values differ; COMPAT is taken at a boundary, on both mills together in splice. Readings of open points:
log entry 56. -/
def Obligations.SpliceAndCompatChangeAtBoundaries : Prop :=
  let compat (s : State) : State := { s with
    mill0 := { s.mill0 with governor := { s.mill0.governor with compat := s.bit (.governor .m0) 0x100 0 } }
    mill1 := { s.mill1 with governor := { s.mill1.governor with compat := s.bit (.governor .m1) 0x100 0 } } }
  (∀ s : State, s.idleBoundary .m0 = true → s.idleBoundary .m1 = true → s.mill0.race.spliced = false →
    (∀ h c, s.wants .m0 = (true, h, c) → s.wants .m1 = (true, h, c) →
      exec .spliceBegin s = .next ((((compat s).setSplice true h).raise (.race .m0) 2).raise (.race .m1) 2)) ∧
    ((s.wants .m0).1 = true ∨ (s.wants .m1).1 = true → s.wants .m0 ≠ s.wants .m1 →
      exec .spliceBegin s = .next (((compat s).raise (.race .m0) 1).raise (.race .m1) 1))) ∧
  (∀ s : State, s.idleBoundary .m0 = true → s.idleBoundary .m1 = true → s.mill0.race.spliced = true →
    (s.wants .m0).1 = false ∨ s.wants .m0 ≠ s.wants .m1 → ∃ t, exec .spliceEnd s = .next t ∧
      t.mill0.race.spliced = false ∧ t.mill1.race.spliced = false ∧ t.mem = s.mem ∧ t.mill0.cmd = s.mill0.cmd ∧
      t.mill0.governor = (compat s).mill0.governor ∧ t.mill1.governor = (compat s).mill1.governor) ∧
  (∀ (m : MillId) (s : State), s.idleBoundary m = true → (s.mill m).race.spliced = false → exec (.compatChange m) s =
    .next (s.onMill m fun x => { x with governor := { x.governor with compat := s.bit (.governor m) 0x100 0 } })) ∧
  (∀ (m : MillId) (s : State), s.idleBoundary .m0 = true → s.idleBoundary .m1 = true → (s.mill m).race.spliced = true →
    (s.bit (.governor .m0) 0x100 0 = s.bit (.governor .m1) 0x100 0 → exec (.compatChange m) s = .next (compat s)) ∧
    (s.bit (.governor .m0) 0x100 0 ≠ s.bit (.governor .m1) 0x100 0 → ∃ t, exec (.compatChange m) s = .next t ∧
      t.mill0.race.spliced = false ∧ t.mill1.race.spliced = false ∧
      t.mill0.governor = (compat s).mill0.governor ∧ t.mill1.governor = (compat s).mill1.governor))

/-- R109, R289, R299, R300: a race operation that has reached its point leaves the race engine and posts its token: RBIND has
bound or freed its stones, RPLAN set its stone's plan; the others have been made whole. Readings of open points: log entry 34.
-/
def Obligations.RaceOperationsLeaveAtTheirPoint : Prop :=
  ∀ (m : MillId) (k : Nat) (o : RaceOp) (s : State), s.halted = false → (s.mill m).race.ops[k]? = some o → o.failed = false →
    let leave (t : State) : State :=
      let t := t.onMill m fun x => { x with race := { x.race with ops := x.race.ops.filter fun y => y.id != o.id } }
      if o.post = true then (t.tally (.floor m 0) 6 1).post m (ctxOf o.system) o.tctr 1 else t
    (o.code = 0x80 → o.done = false → s.streamBusy m o = false →
      (∀ n ∈ o.maskStones, s.earlierOp m o m n (fun _ => true) = false ∧ s.bindFault m o n = none ∧
        (o.role = .unbound ∨ ∀ g ∈ (s.mill m).power.gated, g.val ≠ n)) →
      exec (.raceOpDone m k) s = .next (leave (s.onMill m fun x => { x with race := { x.race with
        binds := (if o.role = .unbound then [] else o.maskStones.map fun n =>
          (n, { role := o.role, stream := o.stream, replay := o.replay, tfeed := o.tfeed })) ++
            x.race.binds.filter fun e => !o.maskStones.contains e.1 } }))) ∧
    (o.code = 0x82 → s.earlierOp m o m o.stone (fun _ => true) = false →
      exec (.raceOpDone m k) s = .next (leave (s.onStone m o.stone fun x => { x with plan := o.plan }))) ∧
    (o.code = 0x83 → 256 ≤ o.prog → (∀ x ∈ s.boundTo m .consumer o.stream, s.opMade o x.1 x.2 = true) →
      exec (.raceOpDone m k) s = .next (leave s)) ∧
    (o.code = 0x84 → (s.mill m).race.abandoned = true → exec (.raceOpDone m k) s = .next (leave s)) ∧
    (o.code = 0x84 → (s.mill m).race.abandoned = false → o.done = true → s.jobsLeft m 0 o = false →
      exec (.raceOpDone m k) s = .next (leave (s.tally (.race m) 8 1))) ∧
    (o.code = 0x81 ∨ o.code = 0x86 → o.done = true → exec (.raceOpDone m k) s = .next (leave s)) ∧
    (o.code = 0x85 → o.done = true → s.jobsLeft m 0 o = false → exec (.raceOpDone m k) s = .next (leave s))

/-! ## Governor and bolter -/

/-- R176, R177, R187, R197, R644: a governor stage writes its next line; one that must wait for a page or a port keeps it, and a
fault ends the operation, whose lines leave the stage, the one begun abandoned. Readings of open points: log entries 33 and 36.
-/
def Obligations.GovernorStagesWriteLines : Prop :=
  ∀ (m : MillId) (stage : Fin 14) (codes : List Ecc) (j : LineJob) (rest : List LineJob) (s : State), s.halted = false →
    s.stageJobs m stage.val = j :: rest →
    let u : State := { s with codes := codes }
    let out (t : State) : State := { t with codes := [] }
    let q := stageAt m stage.val j.line j.pc j.slot j.system
    (∀ t, (writeJob q stage.val j).run.run u = (.ok (), t) →
      let v := t.onMill m fun x => { x with governor := { x.governor with jobs := cellSet [] stage.val rest x.governor.jobs, wpHold := none } }
      exec (.lineWrite m stage codes) s = .next (out (if stage = 1 then v.rowWritten m j.op j.line else v))) ∧
    (∀ page t, (writeJob q stage.val j).run.run u = (.error (.hold page), t) → exec (.lineWrite m stage codes) s =
      .next (out (u.onMill m fun x => { x with governor := { x.governor with wpHold := page } }))) ∧
    (∀ cause line inj t, (writeJob q stage.val j).run.run u = (.error (.fault cause line inj), t) →
      exec (.lineWrite m stage codes) s = .next (out ((t.endWrite m stage.val j.op).govFault m cause (handleDesc j.handle) stage.val line
        (handleStep j.handle) j.pc j.slot j.system inj)))

/-- R229 to R235, R253: an update starts or goes on when its turn or its gate lets it, stops at a gate, parks where firmware or
the copier must resolve a page, goes on from there, and completes when all it writes is written: it leaves the bolter and posts
its token. One that ends in a fault does so once the lines of the working copy before it are written. R227, R228, R235:
WRITEBACK writes every dirty entry of the ledger cache to memory, counting each, and leaves the cache clean with what it holds.
Readings of open points: log entries 17 and 37. -/
def Obligations.UpdatesRunAndWriteBack : Prop :=
  (
  (∀ (m : MillId) (codes : List Ecc) (o : UpdateOp) (s : State), s.halted = false → s.pageLive (.bolter m) = true → s.bolt m = some o →
    o.phase = .waiting ∨ o.phase = .gate →
    let u : State := { s with codes := codes }
    let out (t : State) : State := { t with codes := [] }
    (∀ c l e i, o.ending = some (c, l, e, i) → exec (.updateStart m codes) s = .next (out (u.bltEnd m o c l e i))) ∧
    (o.ending = none →
      (∀ t, (boltWork m o).run.run u = (.ok (), t) →
        exec (.updateStart m codes) s = .next (out (t.onBolt m fun o => { o with phase := .finished }))) ∧
      (∀ t, (boltWork m o).run.run u = (.error .gate, t) →
        exec (.updateStart m codes) s = .next (out (t.onBolt m fun o => { o with phase := .gate }))) ∧
      (∀ t, (boltWork m o).run.run u = (.error .wait, t) →
        exec (.updateStart m codes) s = .next (out (t.onBolt m fun o => { o with phase := .waiting }))) ∧
      (∀ cause v line elem t, (boltWork m o).run.run u = (.error (.page cause v line elem), t) → exec (.updateStart m codes) s =
        .next (out (t.onBolt m fun o => { o with phase := .stalled, pageCause := cause, pageAt := v, stopLine := line, stopElem := elem,
                                                 quiet := cause == 3 && t.copierParks }))) ∧
      (∀ cause line elem inj t o', (boltWork m o).run.run u = (.error (.fault cause line elem inj), t) → t.bolt m = some o' →
        t.stageJobs m 1 = [] → exec (.updateStart m codes) s = .next (out (t.bltFault m o' cause line elem inj))))) ∧
  (∀ (m : MillId) (o : UpdateOp) (s : State), s.halted = false → s.bolt m = some o → o.phase = .stalled →
    let t := (((s.bltRecord m o 1 o.stopLine o.stopElem).tally (.bolter m) 12 1).tally (.floor m 0) 6 1).onBolt m fun o =>
      { o with phase := .parked }
    exec (.boltPark m) s = .next (if o.quiet = true then t.tally (.sluice m) 10 1 else t.raise (.bolter m) 5)) ∧
  (∀ (p : Path) (m : MillId) (codes : List Ecc) (s : State), Accepts s p (.bolter m) →
    let u := ({ s with codes := codes } : State).countAccess p 5
    let out (t : State) : State := { t with codes := [] }
    (∀ o, s.bolt m = some o → o.phase = .parked → s.copierKeeps o = false →
      exec (.boltResume p ⟨m, codes⟩) s = .next (out (u.boltContinue m))) ∧
    ((∀ o, s.bolt m = some o → o.phase ≠ .parked ∨ s.copierKeeps o = true) →
      exec (.boltResume p ⟨m, codes⟩) s = .next (out (u.accessErr p ((Page.bolter m).base + 0x150) true 1 .value)))) ∧
  (∀ (m : MillId) (o : UpdateOp) (s : State), s.halted = false → s.bolt m = some o → o.phase = .finished → o.held = [] →
    (∀ j ∈ s.stageJobs m 1, j.op ≠ o.id) →
    let t := (({ s.onMill m (fun x => { x with bolter := { x.bolter with ops := x.bolter.ops.drop 1 } }) with
      pond := { s.pond with lastStep := o.step } } : State).tally (.bolter m) 14 1).raise (.bolter m) 6
    exec (.updateComplete m) s = .next (match o.post with
      | some ctr => (t.tally (.floor m 0) 6 1).post m (ctxOf o.system) ctr 1
      | none => t))) ∧ (
  ∀ (p : Path) (m : MillId) (s : State), Accepts s p (.ledger m) → ∃ t, exec (.writeback p m) s = .next t ∧
    (t.mill m).ledger.dirty = [] ∧ (t.mill m).ledger.held = (s.mill m).ledger.held ∧
    t.tallyOf (.ledger m) 2 = s.tallyOf (.ledger m) 2 + BitVec.ofNat 64 (s.mill m).ledger.dirty.length ∧
    t.hopper = s.hopper ∧ t.granary = s.granary ∧ (t.mill m.other).ledger = (s.mill m.other).ledger ∧
    ((s.mill m).ledger.dirty = [] → t.mem = s.mem))

/-! ## Sluices, granary and memory ports -/

/-- R256, R257, R263, R266, R268, R269: the next transfer of a queue starts when at most three run ahead of it and each of them
is translated; the chunk to be translated next is issued with its granules, waits for a port or for entries, parks its queue on
a fault that can be resolved, or begins to end in one that cannot. Readings of open points: log entry 38. -/
def Obligations.TransfersStartAndTranslate : Prop :=
  (∀ (m : MillId) (q : Fin 16) (codes : List Ecc) (s : State), s.sluiceHeld = false → (s.queue m q.val).parked = none →
    let out (t : State) : State := { t with codes := [] }
    let u := (({ s with codes := codes } : State).queueGoOn m q.val).retryHeld
    ((u.queue m q.val).xfers.find? (fun x => !x.started) = none → exec (.transferStart m ⟨q, codes⟩) s = .next (out u)) ∧
    (∀ t, (u.queue m q.val).xfers.find? (fun x => !x.started) = some t →
      let ahead := (u.queue m q.val).xfers.takeWhile fun x => x.id != t.id
      ((u.queue m q.val).parked ≠ none ∨ 4 ≤ ahead.length ∨ (∃ x ∈ ahead, x.translated = false ∨ x.failing ≠ none) →
        exec (.transferStart m ⟨q, codes⟩) s = .next (out u)) ∧
      ((u.queue m q.val).parked = none → ahead.length < 4 → (∀ x ∈ ahead, x.translated = true ∧ x.failing = none) →
        exec (.transferStart m ⟨q, codes⟩) s = .next (out (if t.leatEnd = true then u.startLeat m q.val t
          else u.onQueue m q.val fun x => x.onXfer t.id fun t => { t with started := true }))))) ∧
  (∀ (m : MillId) (q : Fin 16) (codes : List Ecc) (t : Transfer) (s : State), s.sluiceHeld = false → (s.queue m q.val).parked = none →
    (s.queue m q.val).translating = some t →
    let u : State := { s with codes := codes }
    let out (t : State) : State := { t with codes := [] }
    (∀ v, u.planXfer m q.val t t.next = (.error .wait, v) → exec (.chunkTranslate m q codes) s = .next (out u)) ∧
    (∀ e v, u.planXfer m q.val t t.next = (.error (.fault e), v) →
      exec (.chunkTranslate m q codes) s = .next (out (if resolvable e.cause = true then v.park m q.val t e.cause e.side e.addr t.next
        else (v.onQueue m q.val fun x => { x.onXfer t.id (fun y =>
          { y with failing := some (e.cause, e.side, e.addr, t.next, e.contract, e.injected) }) with resumed := false }).postQueue m q.val))) ∧
    (∀ p v r w, u.planXfer m q.val t t.next = (.ok p, v) → v.chunkRequests m t.parsed.gran p.segs = (r, w) →
      (s.entriesFree m q.val r.reqs.length = false → exec (.chunkTranslate m q codes) s = .next (out (if t.waited = true then u
        else ((u.onQueue m q.val fun x => x.onXfer t.id fun t => { t with waited := true }).onMill m fun x => { x with sluice := { x.sluice with
          waiters := x.sluice.waiters.filter (· != q.val) ++ [q.val] } }).tally (.sluice m) 12 1))) ∧
      (s.entriesFree m q.val r.reqs.length = true → exec (.chunkTranslate m q codes) s = .next (out (
        ((((w.tally (.granary m) 0 r.hits).tally (.granary m) 1 r.misses).onQueue m q.val fun x => { x.onXfer t.id (fun y => { y with
          next := y.next + 1, waited := false
          flights := y.flights ++ [{ chunk := t.next, segs := p.segs, vpages := p.vpages, rows := p.rows, skips := p.skips,
                                     granules := r.reqs, issued := w.time, done := false }] }) with resumed := false }).onMill m fun x =>
          { x with sluice := { x.sluice with waiters := x.sluice.waiters.filter (· != q.val) } }))))))

/-- R247, R248, R257, R264, R265, R272, R646, R647: a granule request that completes leaves its chunk and counts, and an
uncorrectable word ends the transfer after the chunks before it; a chunk whose requests have all completed is written, its
source having been read whole before, and its token posted once those of the chunks before it are. Readings of open points: log
entries 38 and 39. -/
def Obligations.GranulesAndChunksComplete : Prop :=
  (∀ (m : MillId) (q : Fin 16) (pick : BitVec 16) (codes : List Ecc) (s : State), s.halted = false →
    let u : State := { s with codes := codes }
    let out (t : State) : State := { t with codes := [] }
    let fly := (s.queue m q.val).inFlight
    let late := (s.queue m q.val).dropped
    let k := pick.toNat % max 1 (fly.length + late.length)
    let counts (v : State) (r : Request) (issued : W64) : State :=
      let v := (v.tally (.sluice m) 14 1).tally (.sluice m) 15 (v.time - issued).toNat
      let v := if (physPort r.granule).any (fun p => p.mill != m) = true then v.tally (.sluice m) 4 r.bytes else v
      v.tally (.sluice m) (if r.write = true then 3 else 2) r.bytes
    (fly = [] → late = [] → exec (.granuleComplete m q pick codes) s = .next s) ∧
    (∀ t f r, fly[k]? = some (t, f, r) →
      (r.fill = true → s.writeInFlight (r.granule / 512) = true → exec (.granuleComplete m q pick codes) s = .next (out u)) ∧
      (r.fill = false ∨ s.writeInFlight (r.granule / 512) = false →
        (∀ v, u.requestPort m r = (.wait, v) → exec (.granuleComplete m q pick codes) s = .next (out u)) ∧
        (∀ w inj v, u.requestPort m r = (.bad w inj, v) → exec (.granuleComplete m q pick codes) s = .next (out (
          ((counts v r f.issued).onQueue m q.val fun x => { x.onXfer t.id (fun y => { y with
            flights := y.flights.filter fun z => z.chunk < f.chunk
            failing := some (10, if r.write = true then 1 else 0, w, f.chunk, false, inj) }) with
              dropped := x.dropped ++ (flightRequests (t.flights.filter fun z => f.chunk ≤ z.chunk)).erase (r, f.issued) }).postQueue
                m q.val))) ∧
        (∀ v, u.requestPort m r = (.ok, v) → exec (.granuleComplete m q pick codes) s = .next (out (
          let v := (counts v r f.issued).onQueue m q.val fun x => x.onXfer t.id fun y => { y with
            flights := y.flights.map fun z => if z.chunk = f.chunk then { z with granules := z.granules.erase r } else z }
          if r.fill = true then v.onMill m fun x => { x with sluice := { x.sluice with
            fills := x.sluice.fills.filter (· != r.granule / 512) ++ [r.granule / 512] } } else v))))) ∧
    (∀ d, fly[k]? = none → late[k - fly.length]? = some d →
      (∀ v, u.requestPort m d.1 = (.wait, v) → exec (.granuleComplete m q pick codes) s = .next (out u)) ∧
      (∀ o v, o ≠ .wait → u.requestPort m d.1 = (o, v) → exec (.granuleComplete m q pick codes) s = .next (out (
        (counts v d.1 d.2).onQueue m q.val fun x => { x with dropped := x.dropped.erase d }))))) ∧
  (∀ (m : MillId) (q : Fin 16) (pick : BitVec 16) (codes : List Ecc) (t : Transfer) (f : Flight) (s : State), s.halted = false →
    pickOf (s.queue m q.val).landing pick.toNat = some (t, f) →
    let u : State := { s with codes := codes }
    let out (t : State) : State := { t with codes := [] }
    (s.rowHeld f.segs = true → exec (.chunkComplete m q ⟨pick, codes⟩) s = .next s) ∧
    (s.rowHeld f.segs = false →
      (∀ off inj v, u.pinSegs m f.segs = (some (off, inj), v) → exec (.chunkComplete m q ⟨pick, codes⟩) s = .next (out (
        (v.onQueue m q.val fun x => { x.onXfer t.id (fun y => { y with
          flights := y.flights.filter fun z => z.chunk < f.chunk, failing := some (13, 0, off, f.chunk, false, inj) }) with
            dropped := x.dropped ++ flightRequests (t.flights.filter fun z => f.chunk < z.chunk) }).postQueue m q.val))) ∧
      (∀ v, u.pinSegs m f.segs = (none, v) → exec (.chunkComplete m q ⟨pick, codes⟩) s = .next (out (
        let data := f.segs.flatMap fun g => v.locRead g.src g.len
        let v := v.chunkFlits m q.val t f.segs
        let v := if t.rtile.isSome = true then v else v.moveChunk f.segs
        ((((v.tally (.sluice m) 1 1).tally (.sluice m) 5 f.rows).tally (.sluice m) 6 f.skips).onQueue m q.val fun x => x.onXfer t.id fun y =>
          { y with flights := y.flights.map fun z => if z.chunk = f.chunk then { z with done := true } else z
                   fetched := if y.rtile.isSome = true then placeFetched y.fetched f.chunk data else y.fetched }).postQueue m q.val))))) ∧
  (∀ (a b n : Nat) (s : State), (s.moveChunk [{ src := .mem a, dst := .mem b, len := n }]).physRead b n = s.physRead a n ∧
    ∀ c, c < b ∨ b + n ≤ c → (s.moveChunk [{ src := .mem a, dst := .mem b, len := n }]).physRead c 1 = s.physRead c 1)

/-- R251, R253, R267, R274, R441: SLU_RESUME lets a parked queue translate its chunk again, or ends its transfer with cause
PAGE; it is refused for a park that the copier resolves. TLB_INVAL drops translations, and is busy until the chunks translated
with them have completed; the boundary hold of a pond copy ends with the last. Readings of open points: log entries 38 and 48.
-/
def Obligations.QueuesResumeAndTranslationsGo : Prop :=
  (∀ (p : Path) (m : MillId) (q : Fin 16) (s : State), Accepts s p (.sluice m) →
    let u := s.countAccess p 5
    let bad : State := u.accessErr p ((Page.sluice m).base + 0x110) true (BitVec.ofNat 32 (q.val + 0x100)) .value
    let bad2 : State := u.accessErr p ((Page.sluice m).base + 0x110) true (BitVec.ofNat 32 (q.val + 0x200)) .value
    ((s.queue m q.val).parked = none ∨ s.copierHolds m q.val = true →
      exec (.resume p m q) s = .next bad ∧ exec (.fail p m q) s = .next bad2) ∧
    (∀ cause id, (s.queue m q.val).parked = some (cause, id) → s.copierHolds m q.val = false →
      exec (.resume p m q) s = .next (u.onQueue m q.val fun x => { x with parked := none, resumed := true }) ∧
      (∀ t, (s.queue m q.val).xfers.find? (fun t => t.id == id) = some t →
        let off := 0x200 + 0x40 * q.val
        let v := (u.onQueue m q.val fun x => { x with parked := none, resumed := false }).dropChannelOp m q.val t
        exec (.fail p m q) s = .next ((v.onQueue m q.val fun x => { x.onXfer t.id (fun y => { y with
          failing := some (8, s.fld (.sluice m) (off + 4) 4 2, (s.word64 (.sluice m) (off + 8)).toNat,
            (s.word (.sluice m) (off + 0x10)).toNat, false, false) }) with resumed := false }).postQueue m q.val)))) ∧
  (∀ (p : Path) (m : MillId) (s : State), Accepts s p (.sluice m) →
    let u := s.countAccess p 5
    exec (.tlbInvalAll p m) s = .next (u.tlbInval m none) ∧
    exec (.tlbInvalPage p m) s = .next (u.tlbInval m (some (s.fld64 (.sluice m) 0x120 0 48 / pageSize)))) ∧
  (∀ (m : MillId) (v : Nat) (s : State), ((s.tlbInval m none).mill m).sluice.tlb = [] ∧
    (∀ e ∈ ((s.tlbInval m (some v)).mill m).sluice.tlb, e ∈ (s.mill m).sluice.tlb ∧ e.vpage ≠ v) ∧
    (∀ e ∈ (s.mill m).sluice.tlb, e.vpage ≠ v → e ∈ ((s.tlbInval m (some v)).mill m).sluice.tlb) ∧
    ((s.tlbInval m none).mill m).sluice.inval.isSome = true) ∧
  (∀ (m : MillId) (wait : List (Nat × Nat)) (s : State), (s.mill m).sluice.inval = some wait →
    ((∃ w ∈ wait, w ∈ s.chunksThrough m none) → exec (.tlbInvalDone m) s = .next s) ∧
    ((∀ w ∈ wait, w ∉ s.chunksThrough m none) → exec (.tlbInvalDone m) s = .next (
      let t := s.onMill m fun x => { x with sluice := { x.sluice with inval := none } }
      if s.pond.st = 2 ∧ (s.mill m.other).sluice.inval = none
        then { t with pond := { s.pond with st := if s.pond.peer = true then 4 else 3 } } else t)))

/-- R244, R246, R247, R269, R273, R334, R603: the weight cache allocates a line that a miss has fetched, replacing the one in
the way chosen; the pinned slices change at a command boundary; the scrub writes a corrected word back and reports what it
cannot correct; a memory port retrains, and serves nothing until it has. Readings of open points: log entries 12 and 38. -/
def Obligations.GranaryScrubAndRetraining : Prop :=
  (∀ (m : MillId) (line : BitVec 44) (way : Fin 16) (s : State), s.sluiceHeld = false →
    let l := line.toNat / 512
    let x := (s.mill m).sluice
    (l ∉ x.fills → exec (.weightCacheFill m line way) s = .next s) ∧
    (l ∈ x.fills → x.cacheSlices ≠ 0 → exec (.weightCacheFill m line way) s = .next (s.onMill m fun y => { y with sluice := { y.sluice with
      wcache := (l, way.val) :: x.wcache.filter fun e => !(x.setOf e.1 == x.setOf l && e.2 == way.val) && e.1 != l
      fills := x.fills.filter (· != l) } }))) ∧
  (∀ (m : MillId) (s : State), (s.mill m).cmd.running = false → s.pageLive (.granary m) = true →
    let pin := s.fld (.granary m) 0x100 0 6
    let shared := s.holder (.granary m) == 1
    let x := (s.mill m).sluice
    (pin = x.granPin → shared = x.shared → exec (.granPinApply m) s = .next s) ∧
    (pin ≠ x.granPin ∨ shared ≠ x.shared → ∃ t, exec (.granPinApply m) s = .next t ∧
      (t.mill m).sluice = { x with granPin := pin, shared := shared, wcache := [], fills := [] } ∧ t.mem = s.mem ∧ t.hopper = s.hopper ∧
      (∀ off, off < pageSize * min pin x.granPin → cellGet 0 (granaryKey m off) t.granary = cellGet 0 (granaryKey m off) s.granary) ∧
      (∀ off, pageSize * min pin x.granPin ≤ off → off < pageSize * max pin x.granPin →
        cellGet 0 (granaryKey m off) t.granary = 0))) ∧
  (∀ (port : PortRef) (addr : BitVec 44) (ecc : Ecc) (s : State), s.sluiceHeld = false → s.pageLive port.page = true →
    let a := addr.toNat / 64 * 64
    physPort a = some port → s.fld port.page 0x100 0 8 ≠ 0 → s.portHeld port = false → s.injects port.page 3 = false →
    let u := s.tally port.page 5 1
    exec (.scrubRead port addr ecc) s = .next (match ecc with
      | .good => u
      | .corrected => (u.eccCorrected port a 0).rawWrite a (readBytes s.mem a 64)
      | .uncorrectable => u.eccUncorrectable port a 3 0 false)) ∧
  (∀ (port : PortRef) (s : State), s.pageLive port.page = true →
    let m := port.mill
    (port ∉ (s.mill m).floor.cal → ∃ t, exec (.memoryRetrain port true) s = .next t ∧ t = (s.onMill m fun x =>
      { x with floor := { x.floor with cal := x.floor.cal ++ [port] } }) ∧ t.portHeld port = true) ∧
    (port ∈ (s.mill m).floor.cal → ∃ t, exec (.memoryRetrain port false) s = .next t ∧ t = (s.onMill m fun x =>
      { x with floor := { x.floor with cal := x.floor.cal.filter (· != port) } }) ∧ t.portHeld port = s.portsOff.contains port))

/-! ## The floor -/

/-- R36, R328, R330 to R338: a flit goes along x and then along y, one hop nearer with each link. The next flit of a link
crosses it: a stream's flit in its own slot, one of none in a free or lent position; a stream that holds no slot there is a
contract fault with cause SLOT_MISSING. What waits first for the shaft crosses it after every column that is ready. A fork
leaves on all its branches at once; a staged plan applies at a boundary. Readings of open points: log entry 40. -/
def Obligations.FlitsCrossTheFloor : Prop :=
  (∀ (node goal : Nat × Nat), (routeStep node goal = none ↔ node = goal) ∧
    ∀ d, routeStep node goal = some d → nodeHops (neighbour node d) goal + 1 = nodeHops node goal ∧ (d < 2 ↔ node.1 ≠ goal.1)) ∧
  (∀ (m : MillId) (x : Fin 8) (y : Fin 6) (way : LinkWay) (d : Nat) (s : State), s.halted = false → s.pageLive (.floor m 0) = true →
    way.direction = some d →
    let l := 4 * (8 * y.val + x.val) + d
    (∀ f stream inj t, s.slotMissing m l = some (f, stream, inj, t) → exec (.floorFlitHop m x y way) s = .next ((t.takeFlit m f).floorFault m 1
      (BitVec.ofNat 64 (l + 2 ^ 16 * stream)) f.addr f.pc f.slot f.system inj)) ∧
    (s.slotMissing m l = none →
      let gone := s.passedSlots m l
      let k := (cellGet 0 l (s.mill m).floor.slotPos + gone.length) % 64
      let cal := (gone.filter fun i => s.slotUse m l i == .calibration).length
      let u := (((s.tally (.floor m 0) 4 (gone.length - cal)).tally (.floor m 0) 10 cal).tally (.floor m 0) 0 1).onMill m fun x =>
        { x with floor := { x.floor with slotPos := cellSet 0 l ((k + 1) % 64) x.floor.slotPos } }
      let cross (t : State) (f : FloorFlit) : State :=
        let d := l % 4
        (t.onMill m fun x => { x with floor := { x.floor with flits := x.floor.flits.erase f } }).flitAt m
          { f with node := neighbour f.node d, input := 1 + if d % 2 = 0 then d + 1 else d - 1 }
      (∀ f, s.slotUse m l k = .slotted f → exec (.floorFlitHop m x y way) s = .next (cross (u.tally (.floor m 0) 1 1) f)) ∧
      (∀ lent f, s.slotUse m l k = .bestEffort lent f → exec (.floorFlitHop m x y way) s = .next (cross
        ((((u.tally (.floor m 0) 2 1).tally (.floor m 0) 3 (if lent = true then 1 else 0)).onMill m fun x =>
          { x with floor := { x.floor with served := cellSet 0 (l / 4) f.input x.floor.served } })) f)) ∧
      (s.slotUse m l k = .empty ∨ s.slotUse m l k = .calibration → exec (.floorFlitHop m x y way) s = .next s))) ∧
  (∀ (m : MillId) (x : Fin 8) (y : Fin 6) (f : FloorFlit) (rest : List ShaftItem) (s : State), s.halted = false →
    s.pageLive (.floor m 0) = true → (s.mill m).shaft = .flit f :: rest →
    (s.raceCrossing m = true ∨ f.node ≠ (x.val, y.val) → exec (.floorFlitHop m x y .shaft) s = .next s) ∧
    (s.raceCrossing m = false → f.node = (x.val, y.val) → exec (.floorFlitHop m x y .shaft) s = .next (((s.onMill m fun x => { x with shaft := rest }).tally (.floor m 0) 11
      1).flitAt m.other { f with node := shaftNode (1 - (f.node.2 - 2)), input := 5 }))) ∧
  (∀ (m : MillId) (branches : BitVec 3) (waited : W32) (s : State), s.halted = false → s.pageLive (.floor m 0) = true →
    s.injects (.floor m 0) 3 = false → exec (.forkSend m branches waited) s = .next ((((s.tally (.floor m 0) 8 1).tally (.floor m 0) 9
      waited.toNat).tally (.floor m 0) 0 branches.toNat).tally (.floor m 0) 2 branches.toNat)) ∧
  (∀ (m : MillId) (s : State), (s.mill m).floor.pending = true → (s.mill m).cmd.running = false →
    let u := (s.onMill m fun x => { x with floor := { x.floor with plan := s.stagedPlan m, pending := false } })
    let v := (u.tally (.floor m 0) 13 1).raise (.floor m 0) 3
    exec (.planApplied m) s = .next (if (v.mill m).floor.conflict = true then v.raise (.floor m 0) 2 else v))

/-! ## Leat -/

/-- R357, R360, R361, R365 to R368: a flit in sequence is taken once, and every lost, corrupt or misnumbered one is answered
with one NACK; the replay store is sent again at a timeout; lanes drop to the next width, training ends at the width of the
lanes that lock, and a port below MIN_WIDTH goes down. Readings of open points: log entry 42. -/
def Obligations.LeatPortsRetryAndTrain : Prop :=
  (∀ (port : Fin 24) (s : State), s.halted = false → (s.port port.val).st = 2 → s.injArmed (portPage port.val) = false →
    let p := port.val
    (∀ codes, exec (.flitReceive port ⟨.lost, codes⟩) s = .next ((s.tally (portPage p) 4 1).nack p)) ∧
    (∀ (hdr : BitVec 256) (pl : List Byte) (corrected : Nat) (codes : List Ecc),
      let h := parseFlit hdr
      let u := s.tally (portPage p) 3 corrected
      (h.crc ≠ flitCrc hdr (pad512 pl) → exec (.flitReceive port ⟨.flit hdr pl corrected, codes⟩) s =
        .next ((u.tally (portPage p) 5 1).nack p)) ∧
      (h.crc = flitCrc hdr (pad512 pl) → linkOnly h.type_ = true → exec (.flitReceive port ⟨.flit hdr pl corrected, codes⟩) s =
        .next ((u.linkFields p h).flitLink p h (pad512 pl))) ∧
      (h.crc = flitCrc hdr (pad512 pl) → linkOnly h.type_ = false → h.seq ≠ (s.port p).rxNext →
        exec (.flitReceive port ⟨.flit hdr pl corrected, codes⟩) s = .next ((u.linkFields p h).nack p)) ∧
      (h.crc = flitCrc hdr (pad512 pl) → linkOnly h.type_ = false → h.seq = (s.port p).rxNext →
        exec (.flitReceive port ⟨.flit hdr pl corrected, codes⟩) s =
          .next { (({ (u.linkFields p h) with codes := codes } : State).flitTake p h (pad512 pl)) with codes := [] })) ∧
    ((s.port p).replay = [] → exec (.ackTimeout port) s = .next s) ∧
    (∀ f rest, (s.port p).replay = f :: rest → exec (.ackTimeout port) s =
      .next ((s.tally (portPage p) 8 1).replayFrom p (parseFlit f.1).seq)) ∧
    (s.pageLive (portPage p) = true → ∀ lane : Fin 8, bitOf (s.port p).lanes lane.val = true →
      exec (.laneDrop port lane) s = .next ((((s.tally (portPage p) 12 1).raise (portPage p) 0).onPort p fun x =>
        { x with badLanes := x.badLanes ||| BitVec.ofNat 8 (2 ^ lane.val) }).portRetrain p ((s.port p).width + 1)))) ∧
  (∀ (p w : Nat) (s : State), s.portRetrain p w = if 2 < w ∨ s.fld (portPage p) 0x100 1 2 < w then s.portDown p
    else (s.onPort p fun x => { x with st := 3, width := w }).tally (portPage p) 11 1) ∧
  (∀ (port : Fin 24) (s : State), s.pageLive (portPage port.val) = true → s.refHeld = false → (s.port port.val).st = 0 →
    s.bit (portPage port.val) 0x100 0 = true → s.unitOut (7, port.val) = false →
    exec (.trainAttempt port) s = .next (s.onPort port.val fun x => { x with st := 1, width := 0, badLanes := 0 })) ∧
  (∀ (port : Fin 24) (lanes : BitVec 8) (partner : BitVec 16) (w : Nat) (s : State), s.pageLive (portPage port.val) = true →
    s.refHeld = false → w ≤ 2 → ((List.range 8).filter fun k => bitOf lanes k).length = 8 / 2 ^ w →
    (s.port port.val).st = 1 ∨ ((s.port port.val).st = 3 ∧ (s.port port.val).width ≤ w) →
    exec (.portTrainDone port lanes partner) s = .next (if s.fld (portPage port.val) 0x100 1 2 < w then
      (if (s.port port.val).st = 1 then s.onPort port.val (fun x => { x with st := 0, lanes := 0 }) else s.portDown port.val)
      else (((s.onPort port.val fun x => { x with st := 2, width := w, lanes := lanes, partner := partner, fails := 0 }).raise
        (portPage port.val) 2).pump port.val).retryBlocked)) ∧
  (∀ (p : Path) (port : Fin 24) (s : State), Accepts s p (portPage port.val) → Unlocked s p (portPage port.val) →
    (s.word (portPage port.val) 0x100).toNat < 2 ^ 16 → s.bit (portPage port.val) 0x100 0 = true → s.fld (portPage port.val) 0x100 1 2 ≤ 2 →
    s.fld (portPage port.val) 0x100 4 12 ≠ 0 → s.unitOut (7, port.val) = false → (s.port port.val).st = 2 →
    ∃ t, exec (.retrain p port) s = .next t ∧ (t.port port.val).st = 3 ∧ (t.port port.val).width = 0 ∧
      (t.port port.val).badLanes = 0 ∧ t.word (portPage port.val) 0x100 = s.word (portPage port.val) 0x100 ∧
      t.tallyOf (portPage port.val) 11 = s.tallyOf (portPage port.val) 11 + 1 ∧ t.mem = s.mem ∧
      (∀ q, q ≠ port.val → t.port q = s.port q))

/-- R374, R384, R391 to R396: groups are loaded and dropped, the route table is written an entry at a time, the root's time set
while none is valid; the time is lost, and a stalled member, or a value about to wrap, is reported. Readings of open points: log
entries 43 and 45. -/
def Obligations.GroupsRoutesAndTime : Prop :=
  (∀ (p : Path) (g : BitVec 12) (codes : List Ecc) (s : State), Accepts s p .leat →
    exec (.groupLoad p ⟨g, codes⟩) s =
      .next { (({ (s.countAccess p 5) with codes := codes } : State).groupLoad g.toNat) with codes := [] } ∧
    exec (.drop p g) s = .next ((s.countAccess p 5).groupDrop g.toNat)) ∧
  (∀ (gi : Nat) (s : State), (s.groupDrop gi).group gi = none ∧ (s.groupDrop gi).mem = s.mem) ∧
  (∀ (p : Path) (w : W32) (s : State), Accepts s p .leat → w.toNat < 2 ^ 18 → s.leat.held = [] →
    let i := s.fld .leat 0x118 0 16
    ∃ t, exec (.routeData p w) s = .next t ∧ t.routeOf i = w ∧ (∀ d, d ≠ i → t.routeOf d = s.routeOf d) ∧
      t.fld .leat 0x118 0 16 = (i + 1) % 65536 ∧ t.mem = s.mem ∧ t.leat.groups = s.leat.groups ∧ t.leat.ports = s.leat.ports) ∧
  (∀ (p : Path) (v : W64) (s : State), Accepts s p .leat →
    (s.leat.timeValid = false → s.moduleId = s.fld .leat 0x138 0 16 → ∃ t, exec (.timeSet p v) s = .next t ∧
      t.time = v ∧ t.leat = { s.leat with timeValid := true, slew := 0 } ∧ t.mem = s.mem ∧ t.inj = s.inj) ∧
    (s.leat.timeValid = true ∨ s.moduleId ≠ s.fld .leat 0x138 0 16 → ∃ t, exec (.timeSet p v) s = .next t ∧
      t.time = s.time ∧ t.leat = s.leat ∧ t.mem = s.mem ∧ t.tallyOf .directory 0 = s.tallyOf .directory 0 + 1)) ∧
  (∀ s : State, (s.moduleId ≠ s.fld .leat 0x138 0 16 → s.leat.timeValid = true → exec .timeLost s =
      .next (({ s with leat := { s.leat with timeValid := false, slew := 0 } } : State).raise .leat 7)) ∧
    (s.moduleId = s.fld .leat 0x138 0 16 ∨ s.leat.timeValid = false → exec .timeLost s = .next s)) ∧
  (∀ (q : Nat) (s : State), s.halted = false → s.timeRuns = true → s.moduleId ≠ 0xFFFF → s.parentPort = some q →
    exec .timeSyncTick s = .next (s.sendLink q 6 (leBytes 8 0 ++ leBytes 8 s.time.toNat))) ∧
  (∀ (group : BitVec 12) (rank : BitVec 16) (g : Group) (s : State), s.group group.toNat = some g → s.injects .leat 3 = false →
    rank.toNat < g.nmemb → (∃ o ∈ g.ops, (g.waitsOn o).contains rank.toNat = true) →
    exec (.memberSuspect group rank) s = .next (((s.tally .leat 14 1).leatRecord g.idx rank.toNat 5 g.open_ 0).raise .leat 0)) ∧
  (∀ (k : WrapKind) (s : State),
    ((∃ old ∈ s.wrapNumbers k, ∃ new ∈ s.wrapNumbers k, serialLater new old = true ∧ 2 ^ 30 ≤ (new - old).toNat) →
      exec (.wrapNear k) s = .next (s.raise .leat 8)) ∧
    ((∀ old ∈ s.wrapNumbers k, ∀ new ∈ s.wrapNumbers k, serialLater new old = true → (new - old).toNat < 2 ^ 30) →
      exec (.wrapNear k) s = .next s))

/-- R378, R387, R388: once an update operation has latched, all is sent and both mills are clean, CLEAR for the open step goes
to every member with the digests that fall due; the gate opens when a CLEAR of the present run has arrived from every member and
the local operations have written; a flit refused with a later epoch is sent again. Readings of open points: log entry 44. -/
def Obligations.ClearsAreSentAndGatesOpen : Prop :=
  (∀ (group : BitVec 12) (g : Group) (c : Nat) (s : State), s.halted = false → s.pageLive .leat = true → s.group group.toNat = some g →
    g.updStep = some c → g.valid = true → g.shut = false →
    (g.clearSent = false ∨ s.digestStep g.open_ = true ∧ s.bit .trust 0x104 0 = true ∧ g.clearG ≠ some (s.settingG g c)) →
    s.allSent g = true → (∀ m, s.cleanSoFar m = true) →
    s.weighReady g.idx g.open_ = true → (s.digestStep g.open_ = true → s.trust.dirty = []) →
    s.injArmed .trust = false → s.injArmed .history = false →
    let gi := g.idx
    let again := if g.clearSent = true then 1 else 0
    let run := g.runOf g.open_
    let dig := if s.digestStep g.open_ = true then some (s.settingG g c) else none
    let weigh := if s.weighGate gi g.open_ = true then some (g.open_ - 1, if g.weighStep + 1 = g.open_ then g.weigh else 0) else none
    exec (.clearSend group) s = .next (((((s.tally .leat 0 1).tally .trust 2 again).onGroup gi fun g => { g with clearSent := true, clearG := dig }).treeSend g 4
      g.open_ run 0xFFFF (controlPayload 4 c g.rank run g.epoch dig weigh)).clearIn gi
        { rank := g.rank, gate := g.open_, run := run, step := c, digest := dig, weigh := weigh } true)) ∧
  (∀ (gi : Nat) (g : Group) (s : State), s.group gi = some g →
    ((∃ k, k < g.nmemb ∧ ∀ r ∈ g.present, r.rank ≠ k) → (∀ r ∈ g.present, r.step = g.open_) → s.tryGate gi = s) ∧
    ((∀ k, k < g.nmemb → ∃ r ∈ g.present, r.rank = k) → (∀ r ∈ g.present, r.step = g.open_) → s.weighGate gi g.open_ = false → g.skew = false → g.shut = false →
      s.digestHeld g = false →
      (∀ o ∈ g.ops, o.step = g.open_ → (g.part (g.channel o.channel) o).units ≤ o.written) →
        s.tryGate gi = (s.gateOpen g).gateJudge gi) ∧
    (∃ h, (s.gateOpen g).group gi = some h ∧ h.open_ = g.open_ + 1 ∧ h.entry = g.entry ∧ h.clearSent = false ∧
      (s.gateOpen g).mem = s.mem)) ∧
  (∀ (port : Fin 24) (s : State), s.halted = false →
    (s.leat.refused.find? (fun f => f.port == some port.val) = none → exec (.epochResend port) s = .next s) ∧
    (∀ f, s.leat.refused.find? (fun f => f.port == some port.val) = some f → exec (.epochResend port) s = .next
      (({ s with leat := { s.leat with refused := s.leat.refused.erase f } } : State).launch (parseFlit f.header) f.payload)))

/-! ## Tolls, the fault history and retirement -/

/-- R409, R410, R412: a sampled pass runs again on another stone, or is void where no other is in service; a toll that compares
equal is counted, and its bank or its stone's shadow set is free again. Readings of open points: log entry 46. -/
def Obligations.TollsRunAgainAndCompare : Prop :=
  (∀ (m : MillId) (stone : Fin 24) (k : Nat) (rest : List Nat) (r : TollRec) (s : State), s.halted = false →
    positions (s.mill m).toll.open_ (fun r => !r.drain && r.by_.isNone && s.tollLive m r) = k :: rest →
    (s.mill m).toll.open_[k]? = some r →
    ((∀ n, n < 24 → n = r.stone ∨ some n = r.retried ∨ s.tollStone m n = false) → exec (.tollPass m stone) s =
      .next ((s.setToll m k none).tally (.toll m) 2 1)) ∧
    (stone.val ≠ r.stone → some stone.val ≠ r.retried → s.tollEligible m stone.val = true → exec (.tollPass m stone) s =
      .next ((s.tollWakes m stone).setToll m k (some { r with by_ := some stone.val })))) ∧
  (∀ (m : MillId) (k b : Nat) (rest : List Nat) (r : TollRec) (s : State), s.halted = false → s.injArmed (.toll m) = false →
    positions (s.mill m).toll.open_ (fun r => r.by_.isSome) = k :: rest → (s.mill m).toll.open_[k]? = some r → r.by_ = some b →
    let u := s.tollLeaves m b
    ((u.stone m b).failed ≠ none → r.retried = none → exec (.tollPassDone m) s =
      .next (u.setToll m k (some { r with by_ := none, retried := some b }))) ∧
    ((u.stone m b).failed = none → r.differs = false → u.tollVerdict m r = false →
      let v := u.tally (.toll m) 12 0
      exec (.tollPassDone m) s =
        .next ((v.setToll m k none).tally (.toll m) (if v.srcDigest m r.srcs = r.srcDig then 1 else 2) 1)) ∧
    ((u.stone m b).failed = none → r.differs = true → u.tollVerdict m r = false →
      let v := u.tally (.toll m) 12 0
      v.srcDigest m r.srcs = r.srcDig → exec (.tollPassDone m) s =
        .next ((v.setToll m k none).tollMismatch m r b 1 3 { kind := .stone, index := gidx m r.stone } true))) ∧
  (∀ (m : MillId) (k : Nat) (rest : List Nat) (r : TollRec) (s : State), s.halted = false → s.injArmed (.toll m) = false →
    s.stageJobs m 0 = [] → positions (s.mill m).toll.open_ (fun r => r.drain) = k :: rest → (s.mill m).toll.open_[k]? = some r →
    let u := (s.setToll m k none).onStone m r.stone fun x => if (x.bank r.bank).toll = true then x.setBank r.bank Bank.reset else x
    exec (.tollDrain m) s = .next ((u.tally (.toll m) 7 1).tally (.toll m) 1 1))

/-- R425, R426: at a boundary where no command runs on either mill, every retirement recorded and not yet in force takes effect,
in the order recorded, as long as the core has power. R423 to R427, R430: RETIRE records a unit in the non-volatile store once,
a stone row being repaired instead, and RESTORE takes it back; a unit that the device does not have is refused. Readings of open
points: log entry 47. -/
def Obligations.UnitsRetireAtTheBoundaryAndReturn : Prop :=
  (
  ∀ s : State, s.halted = false → s.noCommand = true → s.pageLive .history = true → exec .retirementApply s =
    .next ((s.nv.retired.filter fun u => !s.inForce.contains u).foldl
      (fun t u => if u ∈ t.inForce ∨ t.corePower = false then t else t.applyRetirement u) s)) ∧ (
  (∀ (p : Path) (kind : BitVec 4) (index : BitVec 16) (s : State), Accepts s p .history →
    let u := s.countAccess p 5
    let unit := (kind.toNat, index.toNat)
    (unitExists kind.toNat index.toNat = true → kind.toNat ≠ 2 → exec (.retire p kind index) s = .next { u with
      nv := { s.nv with retired := if unit ∈ s.nv.retired then s.nv.retired else s.nv.retired ++ [unit] } }) ∧
    (unitExists kind.toNat index.toNat = true → kind.toNat = 2 → ∃ m n, stoneIndex m n = index.toNat / 512 ∧
      exec (.retire p kind index) s = .next (u.repairRow m n (index.toNat % 512))) ∧
    (unitExists kind.toNat index.toNat = true → exec (.retireRestore p kind index) s =
      .next { u with nv := { s.nv with retired := s.nv.retired.filter (· != unit) } }) ∧
    (unitExists kind.toNat index.toNat = false →
      exec (.retire p kind index) s = .next (u.accessErr p (Page.base .history + 0x420) true
        (BitVec.ofNat 32 (kind.toNat + 16 * index.toNat + 0x100000)) .value) ∧
      exec (.retireRestore p kind index) s = .next (u.accessErr p (Page.base .history + 0x420) true
        (BitVec.ofNat 32 (kind.toNat + 16 * index.toNat + 0x200000)) .value))) ∧
  (∀ (m : MillId) (n : Fin 24) (row : Nat) (s : State), row < 512 → row ∉ s.rowmapRows m n → (s.rowmapRows m n).length < 4 →
    (row ∈ (s.repairRow m n row).rowmapRows m n) ∧ (∀ r ∈ s.rowmapRows m n, r ∈ (s.repairRow m n row).rowmapRows m n) ∧
    ((s.repairRow m n row).rowmapRows m n).length = (s.rowmapRows m n).length + 1 ∧ (s.repairRow m n row).nv = s.nv))

/-! ## Pond copies -/

/-- R440, R449, R450, R452, R457: each action of POND_CTL: a request waits for its boundary, and while a copy runs it is refused
and counted; ABORT ends a request, a reception or the running copy; EXPORTED marks a held slot; RESTORE of a slot that holds no
copy fails with cause 6; RECEIVE is refused unless the engine is idle. R435, R440 to R445, R457: a requested copy begins at a
pond point with nothing running, into the slot that does not hold the newest generation, with the next generation; its pages are
copied in order, or first where a write waits on one, the contents and their digest before the page is released; an
uncorrectable page fails the copy. Readings of open points: log entries 48 and 49. -/
def Obligations.PondRequestsHoldsAndCopies : Prop :=
  (
  ∀ (p : Path) (s : State), Accepts s p .pond →
    let u := s.countAccess p 5
    (s.pond.st = 0 ∨ s.pond.st = 1 → exec (.take p) s = .next { u with pond := { s.pond with st := 1 } }) ∧
    (s.pond.st ≠ 0 → s.pond.st ≠ 1 → exec (.take p) s =
      .next (((u.tally .pond 3 1).raise .pond 2).pondRecord s.pond.gen 8 0)) ∧
    (s.pond.st = 0 → exec (.pondAbort p) s = .next u) ∧
    (s.pond.st = 1 → exec (.pondAbort p) s = .next ({ u with pond := { s.pond with st := 0 } } : State).pondRearm) ∧
    (s.pond.st = 5 → exec (.pondAbort p) s = .next
      (((({ u with pond := { s.pond with st := 0 } } : State).pondRecord s.nv.pondGen 3 0).tally .pond 2 1).raise .pond 1)) ∧
    (s.pond.st = 3 ∨ s.pond.st = 4 → exec (.pondAbort p) s = .next (u.pondFail 3 0)) ∧
    (∀ slot, exec (.exported p slot) s = .next { u with nv := if slot = true then { s.nv with exp1 := s.nv.exp1 || s.nv.held1 }
      else { s.nv with exp0 := s.nv.exp0 || s.nv.held0 } }) ∧
    (∀ slot, (s.pond.st ≠ 0 → exec (.receive p slot) s = .next (u.pondRecord s.nv.pondGen 8 0)) ∧
      (s.pond.st = 0 → exec (.receive p slot) s = .next ({ u with pond := { s.pond with
        st := 5, recvSlot := slot, recvAt0 := 0, recvAt1 := 0, recvDone0 := false, recvDone1 := s.mill1Out } } : State).retryHeld)) ∧
    (∀ slot settings, exec (.pondRestore p slot settings) s = .next (u.pondRestore slot settings) ∧
      (s.pond.st = 0 ∨ s.pond.st = 1 → (∃ m ∈ s.pondMills, s.halfField m slot 0 4 ≠ 0x444E4F50 ∨ s.halfField m slot 8 4 ≠ 2) →
        exec (.pondRestore p slot settings) s = .next (((u.tally .pond 11 1).pondRecord (BitVec.ofNat 32 (s.halfField .m0 slot 4 4)) 6
          0).raise .pond 5)))) ∧ (
  (∀ s : State, (s.halted = true ∨ s.refHeld = true ∨ s.pondDue = false → exec .pondCopyBegin s = .next s) ∧
    (s.halted = false → s.refHeld = false → s.pondDue = true → s.bit .pond 0x100 6 = false →
      ((∃ m ∈ s.pondMills, s.areaOk m (s.halfLayout m (s.captured m).length) = false) → exec .pondCopyBegin s = .next
        ((((({ s with pond := { s.pond with st := 0 } } : State).pondRecord s.nv.pondGen 1 0).tally .pond 2 1).raise .pond 1).pondRearm)) ∧
      ((∀ m ∈ s.pondMills, s.areaOk m (s.halfLayout m (s.captured m).length) = true) → ∃ t, exec .pondCopyBegin s = .next t ∧
        t.nv.pondGen = s.nv.pondGen + 1 ∧ t.pond.gen = s.nv.pondGen + 1 ∧
        t.pond.slot = ((if s.nv.newest = true then s.nv.held1 else s.nv.held0) && !s.nv.newest) ∧ t.pond.beganAt = s.time ∧
        t.tallyOf .pond 0 = s.tallyOf .pond 0 + 1 ∧ (∀ m, (t.mill m).cmd = (s.mill m).cmd) ∧ t.fuses = s.fuses ∧ t.hopper = s.hopper))) ∧
  (∀ (m : MillId) (codes : List Ecc) (q : PondPage) (rest : List PondPage) (s : State), s.copierRuns = true →
    s.pondTouchedPage m = none → s.pondPages m = q :: rest → s.injArmed .pond = false →
    let r := ({ s with codes := codes } : State).readRun m q.frame pageSize
    (r.1 = .ok → exec (.pondPageCopy m codes) s = .next { (r.2.pageRead m q false) with codes := [] }) ∧
    (r.1 = .wait → exec (.pondPageCopy m codes) s = .next { s with codes := [] }) ∧
    (∀ a b, r.1 = .bad a b → exec (.pondPageCopy m codes) s = .next { (r.2.pondFail 2 q.va) with codes := [] })) ∧
  (∀ (m : MillId) (q : PondPage) (touch : Bool) (v : State), v.pond.peer = false →
    let base := v.pondSlot m v.pond.slot
    let u := (v.physCopy q.frame (base + q.slotOff) pageSize).copyCounted (base + q.slotOff) pageSize
    let u := u.physWrite (base + q.entryOff + 16) (leBytes 8 (crc64 (v.physRead q.frame pageSize)).toNat)
    let u := (u.tally .pond (if touch = true then 5 else 4) 1).tally .pond 8 pageSize
    let u := if q.wp = true then u.setWp m q.va false else u
    let u := u.setPondPages m ((u.pondPages m).filter fun x => x.index != q.index)
    v.pageRead m q touch = ((u.tlbInval m (some (q.va / pageSize))).pondResume m (some (q.va / pageSize))).pondSettle) ∧
  (∀ (m : MillId) (codes : List Ecc) (s : State), s.copierRuns = true →
    (∀ va rest, s.pondTouchedPage m = none → s.pondTouched m = va :: rest →
      exec (.pondTouchCopy m codes) s = .next (s.pondResume m (some va))) ∧
    (∀ q, s.pondTouchedPage m = some q → exec (.pondTouchCopy m codes) s =
      .next { (({ s with codes := codes } : State).copyPage m q true) with codes := [] })))

/-! ## Events and the hoist stream -/

/-- R485, R591, R593: EVT_EN keeps the non-maskable bits set and delivers what becomes enabled, EVT_CLR clears what it names;
reading EVT_FIFO takes its oldest entry, and returns 0 where there is none. R494, R495: HOIST_DATA moves 4 bytes of memory for
the path that holds the hoist stream, and its address register rises by 4; another path is refused with CLAIM_BUSY, and reads 0.
Readings of open points: log entry 21. -/
def Obligations.EventsAndHoistDataMove : Prop :=
  (
  (∀ (p : Path) (page : Page) (w : W32) (s : State), Accepts s p page → page.eventMask ≠ 0 → w.toNat &&& page.eventMask = w.toNat →
    let u := s.countAccess p 5
    (Unlocked s p page → exec (.evtEn p page w) s = .next (((u.setWord page 0x014
      (BitVec.ofNat 32 (w.toNat ||| page.nmiMask))).setGen page).enabled page (s.word page 0x014))) ∧
    exec (.evtClr p page w) s = .next (u.setWord page 0x010 (s.word page 0x010 &&& ~~~w))) ∧
  (∀ (p : Path) (s : State), Accepts s p .host → ∃ t, exec (.evtFifoRead p) s = .next t ∧
    t.mem = s.mem ∧ (∀ q o, o < 0x1000 → t.word q o = s.word q o) ∧
    (s.host.fifo = [] → (t.path p).reply = 0 ∧ t.host = { s.host with fifoLost := false } ∧
      (t.path p).caps = (0x1108, 0) :: (s.path p).caps.filter fun c => c.1 != 0x1108) ∧
    (∀ e rest, s.host.fifo = e :: rest → (t.path p).reply = e.pageId.zeroExtend 64 ∧
      t.host = { s.host with fifo := rest, fifoLost := s.host.fifoLost && !rest.isEmpty } ∧
      (t.path p).caps = (0x1108, e.high) :: (s.path p).caps.filter fun c => c.1 != 0x1108))) ∧ (
  ∀ (p : Path) (s : State), Accepts s p .host →
    (s.holdsStream p = false → ∀ w, exec (.hoistDataWrite p w) s = .next ((s.countAccess p 5).hoistBusy p) ∧
      exec (.hoistDataRead p) s = .next (((s.countAccess p 4).hoistBusy p).reply p 0)) ∧
    (s.holdsStream p = true →
      (∀ w,
        let a := s.fld64 .host 0x208 0 44
        s.bit .host 0x20C 31 = false → s.corePower = true → s.inMem a 4 = true → ∃ t, exec (.hoistDataWrite p w) s = .next t ∧
          t.physRead a 4 = leBytes 4 w.toNat ∧ (∀ b, b < a ∨ a + 4 ≤ b → t.physRead b 1 = s.physRead b 1) ∧
          t.fld64 .host 0x208 0 44 = (a + 4) % 2 ^ 44 ∧ t.bit .host 0x20C 31 = false ∧ t.nvBytes = s.nvBytes ∧
          t.tallyOf .host 13 = s.tallyOf .host 13 + 4) ∧
      (
        let a := s.fld64 .host 0x210 0 44
        s.bit .host 0x214 31 = false → s.corePower = true → s.inMem a 4 = true → ∃ t, exec (.hoistDataRead p) s = .next t ∧
          (t.path p).reply = BitVec.ofNat 64 (leNat (s.physRead a 4)) ∧ t.fld64 .host 0x210 0 44 = (a + 4) % 2 ^ 44 ∧
          t.mem = s.mem ∧ t.nvBytes = s.nvBytes ∧ t.tallyOf .host 13 = s.tallyOf .host 13 + 4)))

/-! ## The hoist chain -/

/-- R358, R489: the fields of a chain frame and of a flit header lie where the layouts have them, each at every value; a flit's
CRC does not cover itself. -/
def Obligations.FramesAndFlitHeadersRoundTrip : Prop :=
  (∀ f : ChainFrame, parseChain f.bits = f) ∧ (∀ b : BitVec 124, (parseChain b).bits = b) ∧
  (∀ f : ChainFrame, f.onward.crc = chainCrc f.onward.bits ∧ f.onward.data = f.data ∧ f.onward.status = f.status) ∧
  (∀ h : FlitHdr, parseFlit h.bits = h) ∧
  (∀ b : BitVec 256, b.extractLsb' 7 1 = 0#1 → b.extractLsb' 63 1 = 0#1 → b.extractLsb' 216 8 = 0#8 → (parseFlit b).bits = b) ∧
  (∀ (h : FlitHdr) (pl : List Byte), (parseFlit (h.seal pl).bits).crc = flitCrc (h.seal pl).bits pl)

/-- R490 to R492: a module whose bypass is closed passes a frame as it came; one with a wrong CRC is marked 0xFE and acted on by
nothing; one marked, or to another module, goes on with HOPS and CRC renewed; every other does what its operation says and
leaves with its STATUS. Readings of open points: log entry 20. -/
def Obligations.ChainFramesDoTheirOperations : Prop :=
  (∀ (b : BitVec 124) (c : Instr) (s : State), c ∈ [Instr.read b, .write b, .result b, .enumerate b s.hoist.enumIn, .forget b, .poll b] →
    let f := parseChain b
    (s.hoist.bypass = true → exec c s = .next { s with hoist := { s.hoist with out := some b } }) ∧
    (s.hoist.bypass = false → s.injArmed .host = false →
      (f.crc ≠ chainCrc b → exec c s = .next (((s.hostTally 11).raise .host 4).forward { f with status := 0xFE })) ∧
      (f.crc = chainCrc b → f.status = 0xFE → exec c s = .next (s.forward f)))) ∧
  (∀ (b : BitVec 124) (s : State), s.hoist.bypass = false → s.injArmed .host = false → (parseChain b).crc = chainCrc b →
    (parseChain b).status ≠ 0xFE →
    let f := parseChain b
    let holds := s.hoist.reads.find? fun r => r.tag == f.tag.toNat
    (s.addressed f = false → (f.op = 1 → exec (.read b) s = .next (s.forward f)) ∧ (f.op = 2 → exec (.write b) s = .next (s.forward f)) ∧
      (f.op = 3 → exec (.result b) s = .next (s.forward f))) ∧
    (s.addressed f = true →
      (f.op = 1 → (f.addr = 0 → exec (.read b) s = .next (s.answer f 0x05)) ∧
        (f.addr ≠ 0 → 16 ≤ s.hoist.reads.length ∨ holds ≠ none → exec (.read b) s = .next (s.answer f 0x04)) ∧
        (f.addr ≠ 0 → s.hoist.reads.length < 16 → holds = none → exec (.read b) s = .next (({ s with hoist := { s.hoist with
          reads := s.hoist.reads ++ [{ tag := f.tag.toNat, offset := f.offset.toNat, done := false, data := 0 }] } } :
            State).answer f 0x01))) ∧
      (f.op = 2 → exec (.write b) s = .next ((s.regWrite .chain f.offset.toNat 32 (f.data.zeroExtend 64)).answer f 0x01)) ∧
      (f.op = 3 → (holds = none → exec (.result b) s = .next (s.forward f)) ∧
        (∀ r, holds = some r → r.done = false → exec (.result b) s = .next ((s.hostTally 12).answer f 0x03)) ∧
        (∀ r, holds = some r → r.done = true → exec (.result b) s = .next (({ s with hoist := { s.hoist with
          reads := s.hoist.reads.filter fun r => r.tag != f.tag.toNat } } : State).answer { f with data := r.data } 0x02)))) ∧
    (f.op = 4 → ∀ level,
      let u : State := { s with hoist := { s.hoist with enumIn := level } }
      (f.addr ≠ 0xFFF ∨ s.hoist.addr ≠ 0xFFF ∨ level = false → exec (.enumerate b level) s = .next (u.forward f)) ∧
      (f.addr = 0xFFF → s.hoist.addr = 0xFFF → level = true → 1 ≤ f.data.toNat → f.data.toNat ≤ 4094 → exec (.enumerate b level) s =
        .next ((({ u with hoist := { u.hoist with addr := BitVec.ofNat 12 f.data.toNat, enumOut := true } } : State).raise .host 7).answer
          f 0x01))) ∧
    (f.op = 5 → f.addr = 0 → exec (.forget b) s =
      .next (({ s with hoist := { s.hoist with addr := 0xFFF, enumOut := false } } : State).answer f 0x01)) ∧
    (f.op = 6 → f.addr = 0 → exec (.poll b) s = .next (s.answer { f with
      data := if s.alert = true then BitVec.ofNat 32 (min f.data.toNat s.hoist.addr.toNat) else f.data } f.status))) ∧
  (∀ (tag : Byte) (r : ChainRead) (s : State), s.hoist.reads.find? (fun r => r.tag == tag.toNat && !r.done) = some r →
    let t := s.regRead .chain r.offset 32
    t.pathOpen .chain = true → exec (.chainReadDone tag) s = .next { t with hoist := { t.hoist with reads := t.hoist.reads.map fun x =>
      if x.tag = r.tag then { x with done := true, data := loWord t.pathChain.reply } else x } })

/-! ## Claims, injection and trust -/

/-- R600 to R602: a page's resource is taken by a code that may take it and nobody holds, refused while another holds it, and
given up by its holder alone. R555 to R558: ARM arms a page's injection for REPEAT occurrences, unless one is armed or the code
names none; DISARM and the end of its time disarm it, of that page alone. Readings of open points: log entry 55. -/
def Obligations.ClaimsAndInjections : Prop :=
  (
  ∀ (p : Path) (page : Page) (code : BitVec 4) (s : State), Accepts s p page → s.injArmed .directory = false → 0 < code.toNat →
    code.toNat ≤ page.claimCodes →
    let u := s.countAccess p 5
    let bad (w : Nat) (c : AccCause) : State := u.accessErr p (page.base + 0x02C) true (BitVec.ofNat 32 w) c
    (mayAcquire page code.toNat p = false → exec (.acquire p page code) s = .next (bad (code.toNat + 16) .path)) ∧
    (mayAcquire page code.toNat p = true →
      (s.holder page = 0 → exec (.acquire p page code) s = .next (((u.putFld page 0x02C 8 4 code.toNat).putFld page 0x02C 12 3
        p.code).tally .directory 2 1)) ∧
      (s.holder page = code.toNat → exec (.acquire p page code) s = .next u) ∧
      (s.holder page ≠ 0 → s.holder page ≠ code.toNat → exec (.acquire p page code) s =
        .next ((u.putFld page 0x02C 16 4 code.toNat).claimBusy page code.toNat (s.holder page) p.code))) ∧
    (s.holder page ≠ code.toNat → exec (.release p page code) s = .next (bad (code.toNat + 32) .claim)) ∧
    (s.holder page = code.toNat → ∃ t : State, exec (.release p page code) s = .next t ∧ t.holder page = 0 ∧
      t.tallyOf .directory 3 = s.tallyOf .directory 3 + 1 ∧ t.mem = s.mem ∧ t.inj = s.inj)) ∧ (
  (∀ (p : Path) (page : Page) (repeats : Byte) (param : BitVec 16) (s : State), Accepts s p page → Unlocked s p page →
    let u := s.countAccess p 5
    let w : W32 := BitVec.ofNat 32 (1 + 16 * repeats.toNat + 65536 * param.toNat)
    (s.injArmed page = true ∨ s.injCode page = 0 ∨ page.injections < s.injCode page → exec (.injArm p page repeats param) s =
      .next (u.accessErr p (page.base + 0x024) true w .value)) ∧
    (s.injArmed page = false → s.injCode page ≠ 0 → s.injCode page ≤ page.injections → repeats ≠ 0 →
      exec (.injArm p page repeats param) s = .next { (u.setWord page 0x024 w).setGen page with
        inj := s.inj ++ [{ entry := page.entry, left := repeats.toNat, timed := false }] }) ∧
    (s.injArmed page = false → s.injCode page ≠ 0 → s.injCode page ≤ page.injections → repeats = 0 →
      let e := u.accessErr p (page.base + 0x024) true w .value
      let n := s.fld page 0x024 4 8
      exec (.injArm p page repeats param) s = .next { (e.setWord page 0x024
        (BitVec.ofNat 32 (1 + 16 * n + 65536 * param.toNat))).setGen page with
          inj := e.inj ++ [{ entry := page.entry, left := n, timed := false }] }) ∧
    (s.fld page 0x024 4 8 ≠ 0 → ∃ t : State, exec (.disarm p page) s = .next t ∧ t.injArmed page = false ∧
      (∀ i, i.entry ≠ page.entry → (i ∈ t.inj ↔ i ∈ s.inj)) ∧ t.fld page 0x024 4 8 = s.fld page 0x024 4 8 ∧
      t.injParam page = s.injParam page ∧ t.mem = s.mem)) ∧
  (∀ (page : Page) (s : State), ∃ t, exec (.injectionTimeEnd page) s = .next t ∧ t = { s with inj := t.inj } ∧
    (∀ i, i.entry ≠ page.entry → (i ∈ t.inj ↔ i ∈ s.inj)) ∧ (∀ i ∈ t.inj, i.entry = page.entry → i.timed = false)))

/-- R567, R568, R572, R573: what each action of TRUST_CTL does: verifying and preferring the inactive slot, raising the fused
security version, quoting, rotating the identity key; and what a quote that is done has written. R570, R572, R576 to R578:
EXTEND hashes MEAS_DATA into a measurement that software may extend; the setting digest is formed again, counted, while settings
have changed; reading its word 0 captures all of it. Readings of open points: log entries 50 and 51. -/
def Obligations.TrustControlsAndDigests : Prop :=
  (
  (∀ (p : Path) (s : State), Accepts s p .trust → s.injArmed .trust = false →
    let u := s.countAccess p 5
    let bad (w : W32) : State := u.accessErr p (Page.base .trust + 0x108) true w .value
    (s.holder .host ≠ 0 → exec (.verifyInactive p) s = .next (u.putFld .trust 0x10C 0 3 6)) ∧
    (s.holder .host = 0 →
      let r := s.slotResult (!s.trust.bootSlot)
      let v := if r = 1 then u.tally .trust 8 1 else (u.tally .trust 8 1).tally .trust 9 1
      exec (.verifyInactive p) s = .next { (v.putFld .trust 0x10C 0 3 r).putFld .trust 0x10C 3 8 (s.slotSvn (!s.trust.bootSlot)) with
        trust := { s.trust with inactiveOk := r == 1 } }) ∧
    (s.trust.inactiveOk = true → exec (.activate p) s = .next { u with nv := { s.nv with prefSlot := !s.trust.bootSlot } }) ∧
    (s.trust.inactiveOk = false → exec (.activate p) s = .next (bad 2)) ∧
    (s.trust.imageSvn ≤ s.fuses.svn → exec (.commitSvn p) s = .next u) ∧
    (s.fuses.svn < s.trust.imageSvn → exec (.commitSvn p) s =
      .next (({ u with fuses := { s.fuses with svn := s.trust.imageSvn } } : State).raise .trust 1)) ∧
    (s.trust.quoteBusy = true → exec (.quote p) s = .next (bad 8)) ∧
    (s.trust.quoteBusy = false → keyLeaves ≤ s.trust.nextLeaf → exec (.quote p) s =
      .next ((u.putFld .trust 0x168 0 2 2).raise .trust 5)) ∧
    (s.trust.quoteBusy = false → s.trust.nextLeaf < keyLeaves → s.trust.nextLeaf < s.nv.resEnd → exec (.quote p) s =
      .next { u with trust := { s.trust with quoteBusy := true } }) ∧
    (s.trust.quoteBusy = false → s.trust.nextLeaf < keyLeaves → s.nv.resEnd ≤ s.trust.nextLeaf → exec (.quote p) s =
      .next { u.tally .trust 7 1 with
        nv := { s.nv with resEnd := s.trust.nextLeaf + 1024 }, trust := { s.trust with quoteBusy := true } }) ∧
    (15 ≤ s.fuses.keyGen → exec (.rotate p) s = .next (bad 16)) ∧
    (s.fuses.keyGen < 15 → s.trust.quoteBusy = true → exec (.rotate p) s =
      .next { u with trust := { s.trust with rotateDue := true } }) ∧
    (s.fuses.keyGen < 15 → s.trust.quoteBusy = false → ∃ t r, exec (.rotate p) s = .next t ∧
      t.fuses = { s.fuses with keyGen := s.fuses.keyGen + 1 } ∧ t.nv.rotations = s.nv.rotations ++ [r] ∧ t.nv.resEnd = 0 ∧
      t.trust.nextLeaf = 0 ∧ t.trust.keyLow = false ∧ t.trust.meas = s.trust.meas ∧ t.mem = s.mem)) ∧
  (∀ s : State, s.trust.quoteBusy = true → s.pageLive .trust = true → s.trust.rotateDue = false →
    let sig := (s.sign s.quoteBody).1
    let u := (s.sign s.quoteBody).2
    let a := u.fld64 .trust 0x160 0 44
    let v := if u.inMem a 8024 = true then u.physWrite a (s.quoteBody ++ sig) else u
    exec .quoteDone s = .next (((({ v with trust := { v.trust with quoteBusy := false } } : State).putFld .trust 0x168 0 2 1).tally
      .trust 4 1).raise .trust 2))) ∧ (
  (∀ (p : Path) (i : BitVec 3) (s : State), Accepts s p .trust →
    let u := s.countAccess p 5
    let data := (List.range 8).flatMap fun k => leBytes 4 (s.word .trust (0x300 + 4 * k)).toNat
    (i.toNat < 5 → exec (.extend p i) s = .next (u.accessErr p (Page.base .trust + 0x320) true (BitVec.ofNat 32 (i.toNat + 8)) .value)) ∧
    (5 ≤ i.toNat → exec (.extend p i) s = .next { u with trust := { s.trust with
      meas := s.trust.meas.modify i.toNat fun y => sha256 (y ++ data) } })) ∧
  (∀ s : State, s.pageLive .trust = true → (s.trust.dirty = [] → exec .digestRecompute s = .next s) ∧
    (s.trust.dirty ≠ [] → exec .digestRecompute s = .next (({ s with trust := { s.trust with
      digest := s.settingDigest, digestGen := s.trust.digestGen + 1, dirty := [] } } : State).tally .trust 1 1))) ∧
  (∀ (p : Path) (s : State), Accepts s p .trust → ∃ t, exec (.settingDigestRead p) s = .next t ∧ (t.path p).digestCap = s.digestWords ∧
    (t.path p).reply = (s.digestWords.getD 0 0).zeroExtend 64 ∧ t.regs = s.regs ∧ t.trust = s.trust ∧ t.mem = s.mem))

/-! ## Registers -/

/-- R11, R17, R97, R459: a read of the word that holds an UNREAD bit returns the word and clears that bit alone, and while the
bit is set the record stays; a read of the low word of a 64-bit register captures its high word for the same path. Readings of
open points: log entry 16. -/
def Obligations.ReadsClearUnreadAndCaptureHighWords : Prop :=
  let clears (c : Instr) (p : Path) (page : Page) (off : Nat) : Prop := ∀ s : State, Accepts s p page →
    let u := s.countAccess p 4
    exec c s = .next ((u.putFld page off 31 1 0).reply p ((u.peek page off).zeroExtend 64))
  (∀ (p : Path) (m : MillId) (n : Fin 24), clears (.chkUnreadRead p m n) p (.stone m n) 0x124) ∧
  (∀ (p : Path) (m : MillId), clears (.abnUnreadRead p m) p (.race m) 0x1A4 ∧ clears (.dryUnreadRead p m) p (.governor m) 0x120 ∧
    clears (.govFltUnreadRead p m) p (.governor m) 0x144 ∧ clears (.bfltUnreadRead p m) p (.bolter m) 0x144 ∧
    clears (.sluFltUnreadRead p m) p (.sluice m) 0x184 ∧ clears (.frUnreadRead p m) p (.ikiug m) 0x144 ∧
    clears (.trUnreadRead p m) p (.toll m) 0x144 ∧ clears (.rfUnreadRead p m) p (.command m) 0x124) ∧
  (∀ (p : Path) (port : PortRef), clears (.errUnreadRead p port) p port.page 0x118) ∧
  (∀ p : Path, clears (.lrUnreadRead p) p .leat 0x150 ∧ clears (.wrUnreadRead p) p .history 0x140 ∧
    clears (.prUnreadRead p) p .pond 0x164 ∧ clears (.raUnreadRead p) p .directory 0x114 ∧ clears (.cbUnreadRead p) p .directory 0x124) ∧
  (∀ (p : Path) (page : Page) (off : Nat) (o : BitVec 28) (x : WordAt) (s : State), Accepts s p page → off < 0x1000 → off % 4 = 0 →
    o.toNat = page.base + off → wordAt page off = some x → x.reg.wide = true → x.hi = false →
    page ≠ .host → page ≠ .trust → (∀ m, page ≠ .log m) → ∃ t, exec (.reg64LowRead p o) s = .next t ∧
      (t.path p).reply = ((s.countAccess p 4).peek page off).zeroExtend 64 ∧
      (t.path p).caps = (o.toNat, (s.countAccess p 4).peek page (off + 4)) :: (s.path p).caps.filter (fun c => c.1 != o.toNat) ∧
      t.regs = s.regs ∧ t.mem = s.mem ∧ t.host = s.host) ∧
  (∀ (m : MillId) (n : Fin 24) (c : WfCheck) (ones : Bool) (s : State), s.bit (.stone m n) 0x124 31 = true →
    s.checkRecord m n c ones = s) ∧
  (∀ (gen : W32) (cause va : Nat) (s : State), s.bit .pond 0x164 31 = true → s.pondRecord gen cause va = s)

/-- R12, R14, R575, R592, R605: an access is rejected with its cause, a rejected read returning 0: for its alignment, its width,
an address that holds nothing, a page in reset; a write stores what its fields may hold, a behavioural one counting as a
setting, and not while the page is locked. Readings of open points: log entry 16. -/
def Obligations.RegisterAccessesAreCheckedAndStored : Prop :=
  (∀ (p : Path) (o : BitVec 28) (width : Nat) (v : W64) (s : State), s.pathOpen p = true → s.injArmed .directory = false →
    let u := s.countAccess p 5
    let r := s.countAccess p 4
    let rejected (c : AccCause) : Prop := exec (.registerWrite p o width v) s = .next (u.accessErr p o.toNat true (loWord v) c) ∧
      exec (.registerReadRejected p o width) s = .next ((r.accessErr p o.toNat false 0 c).reply p 0)
    (o.toNat % 4 ≠ 0 → rejected .align) ∧ (o.toNat % 4 = 0 → width ≠ 32 → width ≠ 64 → rejected .width) ∧
    (o.toNat % 4 = 0 → width = 32 → pageAt o.toNat = none → rejected .unimpl) ∧
    (∀ page, o.toNat % 4 = 0 → width = 32 → o.toNat ≠ 0x1190 → pageAt o.toNat = some page →
      (s.pageLive page = false → rejected .pageOff) ∧
      (s.pageLive page = true → inMsix p page (o.toNat % 0x1000) = false → wordAt page (o.toNat % 0x1000) = none →
        rejected .unimpl))) ∧
  (∀ (p : Path) (o : BitVec 28) (v : W64) (k : Nat) (s : State), Accepts s p .trust → k < 8 → o.toNat = 0x4300 + 4 * k →
    exec (.registerWrite p o 32 v) s = .next ((s.countAccess p 5).setWord .trust (0x300 + 4 * k) (loWord v))) ∧
  (∀ (p : Path) (m : MillId) (o : BitVec 28) (v : W64) (s : State), Accepts s p (.toll m) → o.toNat = (Page.toll m).base + 0x110 →
    v.toNat < 256 →
    (Unlocked s p (.toll m) → exec (.registerWrite p o 32 v) s =
      .next (((s.countAccess p 5).setWord (.toll m) 0x110 (loWord v)).setGen (.toll m))) ∧
    (¬ Unlocked s p (.toll m) → exec (.registerWrite p o 32 v) s =
      .next ((s.countAccess p 5).accessErr p o.toNat true (loWord v) .path))) ∧
  (∀ (p : Path) (o : BitVec 28) (width : Nat) (v : W64) (s : State), s.pathOpen p = false →
    exec (.registerWrite p o width v) s = .next s ∧ exec (.registerReadRejected p o width) s = .next s)

/-! ## The block -/

/-- A step does the command at the front of the queue with the queue's rest, or passes a nanosecond; every command answers a
next state; no row of the table has bits, so no word spells a command. The queue and the tick are the model's own (log entry 1).
-/
def Obligations.StepTakesTheFrontCommand : Prop :=
  (∀ (c : Instr) (rest : List Instr) (s : State), s.pending = c :: rest → step s = exec c { s with pending := rest }) ∧
  (∀ s : State, s.pending = [] → ∃ t, step s = .next t ∧ t.pending = [] ∧ t.mem = s.mem) ∧
  (∀ (c : Instr) (s : State), ∃ t, exec c s = .next t) ∧
  (∀ (nbits w : Nat) (s : State), decodeTableWord nbits w = none ∧ s.withFetchWord nbits w = s)

/-- R523, R527, R589, R613: at reset the first stage of the start is in progress: no page is out of reset and no path open, no
memory holds anything, nothing is pending, and every register word and tally reads its reset value. Readings of open points: log
entries 2 to 5. -/
def Obligations.ResetBeginsTheStart : Prop :=
  State.reset.Sound ∧ State.reset.pending = [] ∧ State.reset.supply.stage = 1 ∧ (∀ p, State.reset.pageLive p = false) ∧
  (∀ p, State.reset.pathOpen p = false) ∧ (∀ p off, State.reset.word p off = wordReset p off) ∧ (∀ p k, State.reset.tallyOf p k = 0) ∧
  State.reset.mem = [] ∧ State.reset.hopper = [] ∧ State.reset.granary = []

/-- R16, R485, R568: whatever the command, and from whatever state, a step takes at most the front of the queue, takes no fuse
back (the security version and the key generation never fall), keeps each memory in its canonical form and the event FIFO within
its 256 entries. -/
def Obligations.EveryStepKeepsTheModuleSound : Prop :=
  ∀ s t : State, step s = .next t → t.pending = s.pending.tail ∧ s.fuses.Kept t.fuses ∧ (s.Sound → t.Sound)

end
end

