-- ==== Sys2Proof/Laws/Cells.lean ====
section
/-! SUPPORT. The laws of sparse tables and memories: a read after a write, the canonical form. -/

namespace Sys2Proof.Machine

variable {α : Type} [DecidableEq α] (d : α) (k : Nat) (v : α) (l : Cells α)

/-! ## A read after a write -/

omit [DecidableEq α] in
theorem cellGet_cellInsert (k' : Nat) (h : ∀ c ∈ l, c.1 ≠ k) :
    cellGet d k' (cellInsert k v l) = if k' = k then v else cellGet d k' l := by
  induction l with
  | nil => simp [cellInsert, cellGet]
  | cons c r ih =>
    have hc : c.1 ≠ k := h c (by simp)
    have hr : ∀ x ∈ r, x.1 ≠ k := fun x hx => h x (by simp [hx])
    unfold cellInsert
    split
    · simp [cellGet]
    · simp only [cellGet]
      by_cases e : k' = c.1
      · have : k' ≠ k := fun q => hc (by rw [← e, q])
        simp [e, hc]
      · simp [e, ih hr]

omit [DecidableEq α] in
theorem cellGet_filter (k' : Nat) :
    cellGet d k' (l.filter fun c => c.1 != k) = if k' = k then d else cellGet d k' l := by
  induction l with
  | nil => simp [cellGet]
  | cons c r ih =>
    by_cases e : c.1 = k
    · rw [List.filter_cons_of_neg (by simp [e]), ih]
      by_cases q : k' = k
      · simp [q]
      · have : k' ≠ c.1 := fun w => q (w.trans e)
        simp [q, cellGet, this]
    · rw [List.filter_cons_of_pos (by simp [e])]
      simp only [cellGet, ih]
      by_cases q : k' = c.1
      · have : k' ≠ k := fun w => e (q.symm.trans w)
        simp [q, e]
      · simp [q]

/-- What a key holds after a write: the value written at its own key, what it held at every other. -/
theorem cellGet_cellSet (k' : Nat) : cellGet d k' (cellSet d k v l) = if k' = k then v else cellGet d k' l := by
  unfold cellSet
  split
  · rename_i h
    by_cases e : k' = k
    · subst e; simp [h]
    · simp [e]
  · simp only []
    split
    · rename_i hv
      rw [cellGet_filter]; subst hv; rfl
    · rw [cellGet_cellInsert, cellGet_filter]
      · by_cases e : k' = k <;> simp [e]
      · intro c hc; simpa using (List.mem_filter.1 hc).2

@[simp] theorem cellGet_cellSet_self : cellGet d k (cellSet d k v l) = v := by simp [cellGet_cellSet]

theorem cellGet_cellSet_of_ne (k' : Nat) (h : k' ≠ k) : cellGet d k' (cellSet d k v l) = cellGet d k' l := by
  simp [cellGet_cellSet, h]

/-- A key read with another default than the table's: a write of a key leaves every other as it was. -/
theorem cellGet_cellSet_other (d' : α) (k' : Nat) (h : k' ≠ k) : cellGet d' k' (cellSet d k v l) = cellGet d' k' l := by
  unfold cellSet
  split
  · rfl
  · simp only []
    split
    · rw [cellGet_filter]; simp [h]
    · rw [cellGet_cellInsert, cellGet_filter]
      · simp [h]
      · intro c hc; simpa using (List.mem_filter.1 hc).2

/-- A write of what a key holds changes nothing. -/
@[simp] theorem cellSet_cellGet : cellSet d k (cellGet d k l) l = l := by simp [cellSet]

theorem cellSet_of_eq (h : cellGet d k l = v) : cellSet d k v l = l := by simp [cellSet, h]

/-! ## The canonical form of a memory -/

theorem Memory.wfFrom_mono {m : List Host.Cell} {lo hi : Option Nat} (h : Memory.wfFrom hi m = true)
    (le : ∀ x, lo = some x → ∃ y, hi = some y ∧ x ≤ y) : Memory.wfFrom lo m = true := by
  cases m with
  | nil => cases lo <;> rfl
  | cons c r =>
    cases lo with
    | none => simp only [Memory.wfFrom, Bool.and_eq_true] at h ⊢; exact ⟨⟨trivial, h.1.2⟩, h.2⟩
    | some x =>
      obtain ⟨y, rfl, hxy⟩ := le x rfl
      simp only [Memory.wfFrom, Bool.and_eq_true, decide_eq_true_eq] at h ⊢
      exact ⟨⟨by omega, h.1.2⟩, h.2⟩

theorem Memory.wfFrom_filter {m : List Host.Cell} {lo : Option Nat} (a : Nat) (h : Memory.wfFrom lo m = true) :
    Memory.wfFrom lo (m.filter fun c => c.1 != a) = true := by
  induction m generalizing lo with
  | nil => exact h
  | cons c r ih =>
    simp only [Memory.wfFrom, Bool.and_eq_true] at h
    have hr := ih h.2
    by_cases e : c.1 = a
    · rw [List.filter_cons_of_neg (by simp [e])]
      refine Memory.wfFrom_mono hr ?_
      intro x hx; subst hx
      simp only [decide_eq_true_eq] at h
      exact ⟨c.1, rfl, by omega⟩
    · rw [List.filter_cons_of_pos (by simp [e])]
      simp only [Memory.wfFrom, Bool.and_eq_true]
      exact ⟨h.1, hr⟩

theorem Memory.wfFrom_insert {m : List Host.Cell} {lo : Option Nat} (a : Nat) (b : Byte) (hb : b ≠ 0)
    (hlo : ∀ x, lo = some x → x < a) (hm : ∀ c ∈ m, c.1 ≠ a) (h : Memory.wfFrom lo m = true) :
    Memory.wfFrom lo (cellInsert a b m) = true := by
  induction m generalizing lo with
  | nil =>
    cases lo with
    | none => simpa [cellInsert, Memory.wfFrom] using hb
    | some x => simpa [cellInsert, Memory.wfFrom, hlo x rfl] using hb
  | cons c r ih =>
    simp only [Memory.wfFrom, Bool.and_eq_true] at h
    unfold cellInsert
    split
    · rename_i hlt
      simp only [Memory.wfFrom, Bool.and_eq_true, decide_eq_true_eq]
      refine ⟨⟨?_, by simpa using hb⟩, ⟨hlt, h.1.2⟩, h.2⟩
      cases lo with
      | none => rfl
      | some x => simpa using hlo x rfl
    · rename_i hge
      have hne := hm c (by simp)
      simp only [Memory.wfFrom, Bool.and_eq_true]
      refine ⟨h.1, ih ?_ (fun x hx => hm x (by simp [hx])) h.2⟩
      rintro x ⟨⟩; omega

/-- Bytes taken out keep the canonical form. -/
theorem Memory.wfFrom_sublist {m : List Host.Cell} {lo : Option Nat} (p : Host.Cell → Bool) (h : Memory.wfFrom lo m = true) :
    Memory.wfFrom lo (m.filter p) = true := by
  induction m generalizing lo with
  | nil => exact h
  | cons c r ih =>
    simp only [Memory.wfFrom, Bool.and_eq_true] at h
    have hr := ih h.2
    by_cases e : p c = true
    · rw [List.filter_cons_of_pos e]
      simp only [Memory.wfFrom, Bool.and_eq_true]
      exact ⟨h.1, hr⟩
    · rw [List.filter_cons_of_neg e]
      refine Memory.wfFrom_mono hr ?_
      intro x hx; subst hx
      simp only [decide_eq_true_eq] at h
      exact ⟨c.1, rfl, by omega⟩

theorem Memory.wf_filter {m : List Host.Cell} (p : Host.Cell → Bool) (h : Memory.wf m = true) : Memory.wf (m.filter p) = true :=
  Memory.wfFrom_sublist p h

/-- A write of a byte keeps the canonical form. -/
theorem Memory.wf_cellSet {m : List Host.Cell} (a : Nat) (b : Byte) (h : Memory.wf m = true) :
    Memory.wf (cellSet 0 a b m) = true := by
  unfold cellSet Memory.wf at *
  split
  · exact h
  · simp only []
    split
    · exact Memory.wfFrom_filter a h
    · rename_i hb
      refine Memory.wfFrom_insert a b hb (by simp) ?_ (Memory.wfFrom_filter a h)
      intro c hc; simpa using (List.mem_filter.1 hc).2

/-- A write of bytes keeps the canonical form. -/
theorem Memory.wf_writeBytes {m : List Host.Cell} (a : Nat) (bs : List Byte) (h : Memory.wf m = true) :
    Memory.wf (writeBytes m a bs) = true := by
  induction bs generalizing m a with
  | nil => exact h
  | cons b bs ih => exact ih _ (Memory.wf_cellSet a b h)

/-- A byte after a write of bytes: the one written at its address, what it was outside them. -/
theorem cellGet_writeBytes (m : List Host.Cell) (a x : Nat) (bs : List Byte) :
    cellGet 0 x (writeBytes m a bs) = if a ≤ x ∧ x < a + bs.length then bs.getD (x - a) 0 else cellGet 0 x m := by
  induction bs generalizing m a with
  | nil => simp [writeBytes]
  | cons b bs ih =>
    rw [writeBytes, ih, List.length_cons]
    by_cases e : x = a
    · subst e
      rw [if_neg (by omega), if_pos (by omega)]; simp
    · by_cases q : a + 1 ≤ x ∧ x < a + 1 + bs.length
      · rw [if_pos q, if_pos (by omega)]
        obtain ⟨n, hn⟩ : ∃ n, x - a = n + 1 := ⟨x - a - 1, by omega⟩
        have : x - (a + 1) = n := by omega
        simp [hn, this]
      · rw [if_neg q, if_neg (by omega), cellGet_cellSet_of_ne _ _ _ _ _ e]

theorem cellGet_writeBytes_outside (m : List Host.Cell) (a x : Nat) (bs : List Byte) (h : x < a ∨ a + bs.length ≤ x) :
    cellGet 0 x (writeBytes m a bs) = cellGet 0 x m := by
  rw [cellGet_writeBytes, if_neg (by omega)]

@[simp] theorem readBytes_length (m : List Host.Cell) (a n : Nat) : (readBytes m a n).length = n := by simp [readBytes]

/-- Bytes read where they were written are the bytes written. -/
theorem readBytes_writeBytes (m : List Host.Cell) (a : Nat) (bs : List Byte) :
    readBytes (writeBytes m a bs) a bs.length = bs := by
  apply List.ext_getElem (by simp)
  intro i h1 h2
  simp only [readBytes, List.getElem_map, List.getElem_range]
  rw [cellGet_writeBytes, if_pos (by omega)]
  simp [List.getD_eq_getElem?_getD, h2]

/-- The little-endian bytes of a number spell it. -/
theorem leNat_leBytes (n v : Nat) : leNat (leBytes n v) = v % 256 ^ n := by
  induction n generalizing v with
  | zero => simp [leBytes, leNat, Nat.mod_one]
  | succ n ih =>
    have h8 : (BitVec.ofNat 8 v).toNat = v % 256 := by simp [BitVec.toNat_ofNat]
    simp only [leBytes, leNat, ih, h8]
    rw [Nat.pow_succ, Nat.mul_comm (256 ^ n) 256, Nat.mod_mul]

@[simp] theorem leBytes_length (n v : Nat) : (leBytes n v).length = n := by
  induction n generalizing v with
  | zero => rfl
  | succ n ih => simp [leBytes, ih]

end Sys2Proof.Machine
end

