-- ==== Sys2Proof/Laws/State.lean ====
section
/-! SUPPORT. The small lemmas of the state's updates: one per field per update, so that no proof unfolds a record update. -/

namespace Sys2Proof.Machine

variable (s : State)


/-! ## A change of one mill -/

@[simp] theorem State.onMill_regs (m : MillId) (f : Mill → Mill) : (s.onMill m f).regs = s.regs := by cases m <;> rfl
@[simp] theorem State.onMill_tallies (m : MillId) (f : Mill → Mill) : (s.onMill m f).tallies = s.tallies := by cases m <;> rfl
@[simp] theorem State.onMill_time (m : MillId) (f : Mill → Mill) : (s.onMill m f).time = s.time := by cases m <;> rfl
@[simp] theorem State.onMill_pathPcie (m : MillId) (f : Mill → Mill) : (s.onMill m f).pathPcie = s.pathPcie := by cases m <;> rfl
@[simp] theorem State.onMill_pathChain (m : MillId) (f : Mill → Mill) : (s.onMill m f).pathChain = s.pathChain := by cases m <;> rfl
@[simp] theorem State.onMill_pathSys0 (m : MillId) (f : Mill → Mill) : (s.onMill m f).pathSys0 = s.pathSys0 := by cases m <;> rfl
@[simp] theorem State.onMill_pathSys1 (m : MillId) (f : Mill → Mill) : (s.onMill m f).pathSys1 = s.pathSys1 := by cases m <;> rfl
@[simp] theorem State.onMill_host (m : MillId) (f : Mill → Mill) : (s.onMill m f).host = s.host := by cases m <;> rfl
@[simp] theorem State.onMill_hoist (m : MillId) (f : Mill → Mill) : (s.onMill m f).hoist = s.hoist := by cases m <;> rfl
@[simp] theorem State.onMill_supply (m : MillId) (f : Mill → Mill) : (s.onMill m f).supply = s.supply := by cases m <;> rfl
@[simp] theorem State.onMill_refclk (m : MillId) (f : Mill → Mill) : (s.onMill m f).refclk = s.refclk := by cases m <;> rfl
@[simp] theorem State.onMill_leat (m : MillId) (f : Mill → Mill) : (s.onMill m f).leat = s.leat := by cases m <;> rfl
@[simp] theorem State.onMill_pond (m : MillId) (f : Mill → Mill) : (s.onMill m f).pond = s.pond := by cases m <;> rfl
@[simp] theorem State.onMill_trust (m : MillId) (f : Mill → Mill) : (s.onMill m f).trust = s.trust := by cases m <;> rfl
@[simp] theorem State.onMill_fuses (m : MillId) (f : Mill → Mill) : (s.onMill m f).fuses = s.fuses := by cases m <;> rfl
@[simp] theorem State.onMill_nv (m : MillId) (f : Mill → Mill) : (s.onMill m f).nv = s.nv := by cases m <;> rfl
@[simp] theorem State.onMill_mem (m : MillId) (f : Mill → Mill) : (s.onMill m f).mem = s.mem := by cases m <;> rfl
@[simp] theorem State.onMill_hopper (m : MillId) (f : Mill → Mill) : (s.onMill m f).hopper = s.hopper := by cases m <;> rfl
@[simp] theorem State.onMill_granary (m : MillId) (f : Mill → Mill) : (s.onMill m f).granary = s.granary := by cases m <;> rfl
@[simp] theorem State.onMill_nvBytes (m : MillId) (f : Mill → Mill) : (s.onMill m f).nvBytes = s.nvBytes := by cases m <;> rfl
@[simp] theorem State.onMill_outUnits (m : MillId) (f : Mill → Mill) : (s.onMill m f).outUnits = s.outUnits := by cases m <;> rfl
@[simp] theorem State.onMill_inForce (m : MillId) (f : Mill → Mill) : (s.onMill m f).inForce = s.inForce := by cases m <;> rfl
@[simp] theorem State.onMill_wear (m : MillId) (f : Mill → Mill) : (s.onMill m f).wear = s.wear := by cases m <;> rfl
@[simp] theorem State.onMill_worn (m : MillId) (f : Mill → Mill) : (s.onMill m f).worn = s.worn := by cases m <;> rfl
@[simp] theorem State.onMill_portsOff (m : MillId) (f : Mill → Mill) : (s.onMill m f).portsOff = s.portsOff := by cases m <;> rfl
@[simp] theorem State.onMill_inj (m : MillId) (f : Mill → Mill) : (s.onMill m f).inj = s.inj := by cases m <;> rfl
@[simp] theorem State.onMill_codes (m : MillId) (f : Mill → Mill) : (s.onMill m f).codes = s.codes := by cases m <;> rfl
@[simp] theorem State.onMill_draw (m : MillId) (f : Mill → Mill) : (s.onMill m f).draw = s.draw := by cases m <;> rfl
@[simp] theorem State.onMill_pending (m : MillId) (f : Mill → Mill) : (s.onMill m f).pending = s.pending := by cases m <;> rfl
@[simp] theorem State.onMill_mill (m : MillId) (f : Mill → Mill) : (s.onMill m f).mill m = f (s.mill m) := by cases m <;> rfl
theorem State.onMill_mill_of_ne (m k : MillId) (f : Mill → Mill) (h : k ≠ m) : (s.onMill m f).mill k = s.mill k := by
  cases m <;> cases k <;> first | rfl | exact absurd rfl h
@[simp] theorem State.onMill_mill_other (m : MillId) (f : Mill → Mill) : (s.onMill m f).mill m.other = s.mill m.other := by cases m <;> rfl
@[simp] theorem State.onMill_m0_mill1 (f : Mill → Mill) : (s.onMill .m0 f).mill1 = s.mill1 := rfl
@[simp] theorem State.onMill_m1_mill0 (f : Mill → Mill) : (s.onMill .m1 f).mill0 = s.mill0 := rfl
@[simp] theorem State.onMill_m0_mill0 (f : Mill → Mill) : (s.onMill .m0 f).mill0 = f s.mill0 := rfl
@[simp] theorem State.onMill_m1_mill1 (f : Mill → Mill) : (s.onMill .m1 f).mill1 = f s.mill1 := rfl
@[simp] theorem State.onMill_onMill (m : MillId) (f g : Mill → Mill) : (s.onMill m f).onMill m g = s.onMill m (fun x => g (f x)) := by
  cases m <;> rfl
theorem State.onMill_id (m : MillId) : s.onMill m (fun x => x) = s := by cases m <;> rfl
@[simp] theorem State.mill_m0 : s.mill .m0 = s.mill0 := rfl
@[simp] theorem State.mill_m1 : s.mill .m1 = s.mill1 := rfl


/-! ## A change of one part of a mill is a change of the mill -/

@[simp] theorem State.onMiller_eq (m : MillId) (f : Miller → Miller) :
    s.onMiller m f = s.onMill m fun x => { x with miller := f x.miller } := rfl
@[simp] theorem State.onCmd_eq (m : MillId) (f : CommandFile → CommandFile) :
    s.onCmd m f = s.onMill m fun x => { x with cmd := f x.cmd } := rfl
@[simp] theorem State.onRace_eq (m : MillId) (f : Race → Race) :
    s.onRace m f = s.onMill m fun x => { x with race := f x.race } := rfl
@[simp] theorem State.onGov_eq (m : MillId) (f : Governor → Governor) :
    s.onGov m f = s.onMill m fun x => { x with governor := f x.governor } := rfl
@[simp] theorem State.onSluice_eq (m : MillId) (f : Sluice → Sluice) :
    s.onSluice m f = s.onMill m fun x => { x with sluice := f x.sluice } := rfl
@[simp] theorem State.onBolter_eq (m : MillId) (f : Bolter → Bolter) :
    s.onBolter m f = s.onMill m fun x => { x with bolter := f x.bolter } := rfl
@[simp] theorem State.onLog_eq (m : MillId) (f : Log → Log) :
    s.onLog m f = s.onMill m fun x => { x with log := f x.log } := rfl
@[simp] theorem State.onToll_eq (m : MillId) (f : Toll → Toll) :
    s.onToll m f = s.onMill m fun x => { x with toll := f x.toll } := rfl
@[simp] theorem State.onPower_eq (m : MillId) (f : Power → Power) :
    s.onPower m f = s.onMill m fun x => { x with power := f x.power } := rfl
@[simp] theorem State.onStone_eq (m : MillId) (n : Nat) (f : Stone → Stone) :
    s.onStone m n f = s.onMill m fun x => { x with stones := listOn x.stones n f } := rfl


/-! ## A change of one access path -/

@[simp] theorem State.onPath_regs (p : Path) (f : PathState → PathState) : (s.onPath p f).regs = s.regs := by cases p <;> rfl
@[simp] theorem State.onPath_tallies (p : Path) (f : PathState → PathState) : (s.onPath p f).tallies = s.tallies := by cases p <;> rfl
@[simp] theorem State.onPath_time (p : Path) (f : PathState → PathState) : (s.onPath p f).time = s.time := by cases p <;> rfl
@[simp] theorem State.onPath_host (p : Path) (f : PathState → PathState) : (s.onPath p f).host = s.host := by cases p <;> rfl
@[simp] theorem State.onPath_hoist (p : Path) (f : PathState → PathState) : (s.onPath p f).hoist = s.hoist := by cases p <;> rfl
@[simp] theorem State.onPath_supply (p : Path) (f : PathState → PathState) : (s.onPath p f).supply = s.supply := by cases p <;> rfl
@[simp] theorem State.onPath_refclk (p : Path) (f : PathState → PathState) : (s.onPath p f).refclk = s.refclk := by cases p <;> rfl
@[simp] theorem State.onPath_leat (p : Path) (f : PathState → PathState) : (s.onPath p f).leat = s.leat := by cases p <;> rfl
@[simp] theorem State.onPath_pond (p : Path) (f : PathState → PathState) : (s.onPath p f).pond = s.pond := by cases p <;> rfl
@[simp] theorem State.onPath_trust (p : Path) (f : PathState → PathState) : (s.onPath p f).trust = s.trust := by cases p <;> rfl
@[simp] theorem State.onPath_fuses (p : Path) (f : PathState → PathState) : (s.onPath p f).fuses = s.fuses := by cases p <;> rfl
@[simp] theorem State.onPath_nv (p : Path) (f : PathState → PathState) : (s.onPath p f).nv = s.nv := by cases p <;> rfl
@[simp] theorem State.onPath_mem (p : Path) (f : PathState → PathState) : (s.onPath p f).mem = s.mem := by cases p <;> rfl
@[simp] theorem State.onPath_hopper (p : Path) (f : PathState → PathState) : (s.onPath p f).hopper = s.hopper := by cases p <;> rfl
@[simp] theorem State.onPath_granary (p : Path) (f : PathState → PathState) : (s.onPath p f).granary = s.granary := by cases p <;> rfl
@[simp] theorem State.onPath_nvBytes (p : Path) (f : PathState → PathState) : (s.onPath p f).nvBytes = s.nvBytes := by cases p <;> rfl
@[simp] theorem State.onPath_mill0 (p : Path) (f : PathState → PathState) : (s.onPath p f).mill0 = s.mill0 := by cases p <;> rfl
@[simp] theorem State.onPath_mill1 (p : Path) (f : PathState → PathState) : (s.onPath p f).mill1 = s.mill1 := by cases p <;> rfl
@[simp] theorem State.onPath_outUnits (p : Path) (f : PathState → PathState) : (s.onPath p f).outUnits = s.outUnits := by cases p <;> rfl
@[simp] theorem State.onPath_inForce (p : Path) (f : PathState → PathState) : (s.onPath p f).inForce = s.inForce := by cases p <;> rfl
@[simp] theorem State.onPath_wear (p : Path) (f : PathState → PathState) : (s.onPath p f).wear = s.wear := by cases p <;> rfl
@[simp] theorem State.onPath_worn (p : Path) (f : PathState → PathState) : (s.onPath p f).worn = s.worn := by cases p <;> rfl
@[simp] theorem State.onPath_portsOff (p : Path) (f : PathState → PathState) : (s.onPath p f).portsOff = s.portsOff := by cases p <;> rfl
@[simp] theorem State.onPath_inj (p : Path) (f : PathState → PathState) : (s.onPath p f).inj = s.inj := by cases p <;> rfl
@[simp] theorem State.onPath_codes (p : Path) (f : PathState → PathState) : (s.onPath p f).codes = s.codes := by cases p <;> rfl
@[simp] theorem State.onPath_draw (p : Path) (f : PathState → PathState) : (s.onPath p f).draw = s.draw := by cases p <;> rfl
@[simp] theorem State.onPath_pending (p : Path) (f : PathState → PathState) : (s.onPath p f).pending = s.pending := by cases p <;> rfl
@[simp] theorem State.onPath_mill (p : Path) (f : PathState → PathState) (m : MillId) : (s.onPath p f).mill m = s.mill m := by
  cases p <;> rfl
@[simp] theorem State.onPath_path (p : Path) (f : PathState → PathState) : (s.onPath p f).path p = f (s.path p) := by cases p <;> rfl
theorem State.onPath_path_of_ne (p q : Path) (f : PathState → PathState) (h : q ≠ p) : (s.onPath p f).path q = s.path q := by
  cases p <;> cases q <;> first | rfl | exact absurd rfl h
@[simp] theorem State.onMill_path (m : MillId) (f : Mill → Mill) (p : Path) : (s.onMill m f).path p = s.path p := by
  cases m <;> cases p <;> rfl


/-! ## A register word -/

@[simp] theorem State.setWord_tallies (p : Page) (off : Nat) (v : W32) : (s.setWord p off v).tallies = s.tallies := rfl
@[simp] theorem State.setWord_time (p : Page) (off : Nat) (v : W32) : (s.setWord p off v).time = s.time := rfl
@[simp] theorem State.setWord_pathPcie (p : Page) (off : Nat) (v : W32) : (s.setWord p off v).pathPcie = s.pathPcie := rfl
@[simp] theorem State.setWord_pathChain (p : Page) (off : Nat) (v : W32) : (s.setWord p off v).pathChain = s.pathChain := rfl
@[simp] theorem State.setWord_pathSys0 (p : Page) (off : Nat) (v : W32) : (s.setWord p off v).pathSys0 = s.pathSys0 := rfl
@[simp] theorem State.setWord_pathSys1 (p : Page) (off : Nat) (v : W32) : (s.setWord p off v).pathSys1 = s.pathSys1 := rfl
@[simp] theorem State.setWord_host (p : Page) (off : Nat) (v : W32) : (s.setWord p off v).host = s.host := rfl
@[simp] theorem State.setWord_hoist (p : Page) (off : Nat) (v : W32) : (s.setWord p off v).hoist = s.hoist := rfl
@[simp] theorem State.setWord_supply (p : Page) (off : Nat) (v : W32) : (s.setWord p off v).supply = s.supply := rfl
@[simp] theorem State.setWord_refclk (p : Page) (off : Nat) (v : W32) : (s.setWord p off v).refclk = s.refclk := rfl
@[simp] theorem State.setWord_leat (p : Page) (off : Nat) (v : W32) : (s.setWord p off v).leat = s.leat := rfl
@[simp] theorem State.setWord_pond (p : Page) (off : Nat) (v : W32) : (s.setWord p off v).pond = s.pond := rfl
@[simp] theorem State.setWord_trust (p : Page) (off : Nat) (v : W32) : (s.setWord p off v).trust = s.trust := rfl
@[simp] theorem State.setWord_fuses (p : Page) (off : Nat) (v : W32) : (s.setWord p off v).fuses = s.fuses := rfl
@[simp] theorem State.setWord_nv (p : Page) (off : Nat) (v : W32) : (s.setWord p off v).nv = s.nv := rfl
@[simp] theorem State.setWord_mem (p : Page) (off : Nat) (v : W32) : (s.setWord p off v).mem = s.mem := rfl
@[simp] theorem State.setWord_hopper (p : Page) (off : Nat) (v : W32) : (s.setWord p off v).hopper = s.hopper := rfl
@[simp] theorem State.setWord_granary (p : Page) (off : Nat) (v : W32) : (s.setWord p off v).granary = s.granary := rfl
@[simp] theorem State.setWord_nvBytes (p : Page) (off : Nat) (v : W32) : (s.setWord p off v).nvBytes = s.nvBytes := rfl
@[simp] theorem State.setWord_mill0 (p : Page) (off : Nat) (v : W32) : (s.setWord p off v).mill0 = s.mill0 := rfl
@[simp] theorem State.setWord_mill1 (p : Page) (off : Nat) (v : W32) : (s.setWord p off v).mill1 = s.mill1 := rfl
@[simp] theorem State.setWord_outUnits (p : Page) (off : Nat) (v : W32) : (s.setWord p off v).outUnits = s.outUnits := rfl
@[simp] theorem State.setWord_inForce (p : Page) (off : Nat) (v : W32) : (s.setWord p off v).inForce = s.inForce := rfl
@[simp] theorem State.setWord_wear (p : Page) (off : Nat) (v : W32) : (s.setWord p off v).wear = s.wear := rfl
@[simp] theorem State.setWord_worn (p : Page) (off : Nat) (v : W32) : (s.setWord p off v).worn = s.worn := rfl
@[simp] theorem State.setWord_portsOff (p : Page) (off : Nat) (v : W32) : (s.setWord p off v).portsOff = s.portsOff := rfl
@[simp] theorem State.setWord_inj (p : Page) (off : Nat) (v : W32) : (s.setWord p off v).inj = s.inj := rfl
@[simp] theorem State.setWord_codes (p : Page) (off : Nat) (v : W32) : (s.setWord p off v).codes = s.codes := rfl
@[simp] theorem State.setWord_draw (p : Page) (off : Nat) (v : W32) : (s.setWord p off v).draw = s.draw := rfl
@[simp] theorem State.setWord_pending (p : Page) (off : Nat) (v : W32) : (s.setWord p off v).pending = s.pending := rfl
@[simp] theorem State.setWord_mill (p : Page) (off : Nat) (v : W32) (m : MillId) : (s.setWord p off v).mill m = s.mill m := by cases m <;> rfl
@[simp] theorem State.setWord_path (p : Page) (off : Nat) (v : W32) (q : Path) : (s.setWord p off v).path q = s.path q := by cases q <;> rfl

/-! ## A tally -/

@[simp] theorem State.tally_regs (p : Page) (k n : Nat) : (s.tally p k n).regs = s.regs := rfl
@[simp] theorem State.tally_time (p : Page) (k n : Nat) : (s.tally p k n).time = s.time := rfl
@[simp] theorem State.tally_pathPcie (p : Page) (k n : Nat) : (s.tally p k n).pathPcie = s.pathPcie := rfl
@[simp] theorem State.tally_pathChain (p : Page) (k n : Nat) : (s.tally p k n).pathChain = s.pathChain := rfl
@[simp] theorem State.tally_pathSys0 (p : Page) (k n : Nat) : (s.tally p k n).pathSys0 = s.pathSys0 := rfl
@[simp] theorem State.tally_pathSys1 (p : Page) (k n : Nat) : (s.tally p k n).pathSys1 = s.pathSys1 := rfl
@[simp] theorem State.tally_host (p : Page) (k n : Nat) : (s.tally p k n).host = s.host := rfl
@[simp] theorem State.tally_hoist (p : Page) (k n : Nat) : (s.tally p k n).hoist = s.hoist := rfl
@[simp] theorem State.tally_supply (p : Page) (k n : Nat) : (s.tally p k n).supply = s.supply := rfl
@[simp] theorem State.tally_refclk (p : Page) (k n : Nat) : (s.tally p k n).refclk = s.refclk := rfl
@[simp] theorem State.tally_leat (p : Page) (k n : Nat) : (s.tally p k n).leat = s.leat := rfl
@[simp] theorem State.tally_pond (p : Page) (k n : Nat) : (s.tally p k n).pond = s.pond := rfl
@[simp] theorem State.tally_trust (p : Page) (k n : Nat) : (s.tally p k n).trust = s.trust := rfl
@[simp] theorem State.tally_fuses (p : Page) (k n : Nat) : (s.tally p k n).fuses = s.fuses := rfl
@[simp] theorem State.tally_nv (p : Page) (k n : Nat) : (s.tally p k n).nv = s.nv := rfl
@[simp] theorem State.tally_mem (p : Page) (k n : Nat) : (s.tally p k n).mem = s.mem := rfl
@[simp] theorem State.tally_hopper (p : Page) (k n : Nat) : (s.tally p k n).hopper = s.hopper := rfl
@[simp] theorem State.tally_granary (p : Page) (k n : Nat) : (s.tally p k n).granary = s.granary := rfl
@[simp] theorem State.tally_nvBytes (p : Page) (k n : Nat) : (s.tally p k n).nvBytes = s.nvBytes := rfl
@[simp] theorem State.tally_mill0 (p : Page) (k n : Nat) : (s.tally p k n).mill0 = s.mill0 := rfl
@[simp] theorem State.tally_mill1 (p : Page) (k n : Nat) : (s.tally p k n).mill1 = s.mill1 := rfl
@[simp] theorem State.tally_outUnits (p : Page) (k n : Nat) : (s.tally p k n).outUnits = s.outUnits := rfl
@[simp] theorem State.tally_inForce (p : Page) (k n : Nat) : (s.tally p k n).inForce = s.inForce := rfl
@[simp] theorem State.tally_wear (p : Page) (k n : Nat) : (s.tally p k n).wear = s.wear := rfl
@[simp] theorem State.tally_worn (p : Page) (k n : Nat) : (s.tally p k n).worn = s.worn := rfl
@[simp] theorem State.tally_portsOff (p : Page) (k n : Nat) : (s.tally p k n).portsOff = s.portsOff := rfl
@[simp] theorem State.tally_inj (p : Page) (k n : Nat) : (s.tally p k n).inj = s.inj := rfl
@[simp] theorem State.tally_codes (p : Page) (k n : Nat) : (s.tally p k n).codes = s.codes := rfl
@[simp] theorem State.tally_draw (p : Page) (k n : Nat) : (s.tally p k n).draw = s.draw := rfl
@[simp] theorem State.tally_pending (p : Page) (k n : Nat) : (s.tally p k n).pending = s.pending := rfl
@[simp] theorem State.tally_mill (p : Page) (k n : Nat) (m : MillId) : (s.tally p k n).mill m = s.mill m := by cases m <;> rfl
@[simp] theorem State.tally_path (p : Page) (k n : Nat) (q : Path) : (s.tally p k n).path q = s.path q := by cases q <;> rfl

/-! ## A free value -/

@[simp] theorem State.drawn_regs : s.drawn.regs = s.regs := rfl
@[simp] theorem State.drawn_tallies : s.drawn.tallies = s.tallies := rfl
@[simp] theorem State.drawn_time : s.drawn.time = s.time := rfl
@[simp] theorem State.drawn_pathPcie : s.drawn.pathPcie = s.pathPcie := rfl
@[simp] theorem State.drawn_pathChain : s.drawn.pathChain = s.pathChain := rfl
@[simp] theorem State.drawn_pathSys0 : s.drawn.pathSys0 = s.pathSys0 := rfl
@[simp] theorem State.drawn_pathSys1 : s.drawn.pathSys1 = s.pathSys1 := rfl
@[simp] theorem State.drawn_host : s.drawn.host = s.host := rfl
@[simp] theorem State.drawn_hoist : s.drawn.hoist = s.hoist := rfl
@[simp] theorem State.drawn_supply : s.drawn.supply = s.supply := rfl
@[simp] theorem State.drawn_refclk : s.drawn.refclk = s.refclk := rfl
@[simp] theorem State.drawn_leat : s.drawn.leat = s.leat := rfl
@[simp] theorem State.drawn_pond : s.drawn.pond = s.pond := rfl
@[simp] theorem State.drawn_trust : s.drawn.trust = s.trust := rfl
@[simp] theorem State.drawn_fuses : s.drawn.fuses = s.fuses := rfl
@[simp] theorem State.drawn_nv : s.drawn.nv = s.nv := rfl
@[simp] theorem State.drawn_mem : s.drawn.mem = s.mem := rfl
@[simp] theorem State.drawn_hopper : s.drawn.hopper = s.hopper := rfl
@[simp] theorem State.drawn_granary : s.drawn.granary = s.granary := rfl
@[simp] theorem State.drawn_nvBytes : s.drawn.nvBytes = s.nvBytes := rfl
@[simp] theorem State.drawn_mill0 : s.drawn.mill0 = s.mill0 := rfl
@[simp] theorem State.drawn_mill1 : s.drawn.mill1 = s.mill1 := rfl
@[simp] theorem State.drawn_outUnits : s.drawn.outUnits = s.outUnits := rfl
@[simp] theorem State.drawn_inForce : s.drawn.inForce = s.inForce := rfl
@[simp] theorem State.drawn_wear : s.drawn.wear = s.wear := rfl
@[simp] theorem State.drawn_worn : s.drawn.worn = s.worn := rfl
@[simp] theorem State.drawn_portsOff : s.drawn.portsOff = s.portsOff := rfl
@[simp] theorem State.drawn_inj : s.drawn.inj = s.inj := rfl
@[simp] theorem State.drawn_codes : s.drawn.codes = s.codes := rfl
@[simp] theorem State.drawn_pending : s.drawn.pending = s.pending := rfl
@[simp] theorem State.drawn_mill (m : MillId) : s.drawn.mill m = s.mill m := by cases m <;> rfl
@[simp] theorem State.drawn_path (q : Path) : s.drawn.path q = s.path q := by cases q <;> rfl
@[simp] theorem State.drawn_draw : s.drawn.draw = s.draw + 1 := rfl

end Sys2Proof.Machine
end

