-- ==== Sys2Proof/Laws/Flags.lean ====
section
/-! SUPPORT. What raising an event, keeping a record and sending to the host can change: event words and tallies, the host port,
the events queued for system contexts and the trigger of a log, and nothing else. -/

namespace Sys2Proof.Machine

variable {s t u : State}

/-! ## The relation -/

theorem onlyEvents_iff : OnlyEvents s t ↔ ∃ r l h a b c d, t = { s with
    regs := r, tallies := l, host := h
    mill0 := { s.mill0 with miller := { s.mill0.miller with sysEvents := a }, log := { s.mill0.log with trigNow := b } }
    mill1 := { s.mill1 with miller := { s.mill1.miller with sysEvents := c }, log := { s.mill1.log with trigNow := d } } } := by
  constructor
  · intro h; exact ⟨_, _, _, _, _, _, _, h⟩
  · rintro ⟨_, _, _, _, _, _, _, rfl⟩; rfl

theorem OnlyEvents.refl (s : State) : OnlyEvents s s := rfl

theorem OnlyEvents.trans (h : OnlyEvents s t) (g : OnlyEvents t u) : OnlyEvents s u := by
  obtain ⟨_, _, _, _, _, _, _, rfl⟩ := onlyEvents_iff.1 h
  obtain ⟨_, _, _, _, _, _, _, rfl⟩ := onlyEvents_iff.1 g
  rfl

/-- What an event leaves unchanged, field by field. -/
theorem OnlyEvents.frame (h : OnlyEvents s t) :
    t.time = s.time ∧ t.pathPcie = s.pathPcie ∧ t.pathChain = s.pathChain ∧ t.pathSys0 = s.pathSys0 ∧
    t.pathSys1 = s.pathSys1 ∧ t.hoist = s.hoist ∧ t.supply = s.supply ∧ t.refclk = s.refclk ∧ t.leat = s.leat ∧
    t.pond = s.pond ∧ t.trust = s.trust ∧ t.fuses = s.fuses ∧ t.nv = s.nv ∧ t.mem = s.mem ∧ t.hopper = s.hopper ∧
    t.granary = s.granary ∧ t.nvBytes = s.nvBytes ∧ t.outUnits = s.outUnits ∧ t.inForce = s.inForce ∧ t.wear = s.wear ∧
    t.worn = s.worn ∧ t.portsOff = s.portsOff ∧ t.inj = s.inj ∧ t.draw = s.draw ∧ t.codes = s.codes ∧ t.pending = s.pending ∧
    ∀ k : MillId,
      (t.mill k).cmd = (s.mill k).cmd ∧ (t.mill k).miller.user = (s.mill k).miller.user ∧
      (t.mill k).miller.system = (s.mill k).miller.system ∧ (t.mill k).miller.st = (s.mill k).miller.st ∧
      (t.mill k).miller.vreg = (s.mill k).miller.vreg ∧ (t.mill k).miller.carry = (s.mill k).miller.carry ∧
      (t.mill k).miller.vecQ = (s.mill k).miller.vecQ ∧ (t.mill k).miller.faults = (s.mill k).miller.faults ∧
      (t.mill k).miller.ending = (s.mill k).miller.ending ∧ (t.mill k).miller.faulted = (s.mill k).miller.faulted ∧
      (t.mill k).miller.run = (s.mill k).miller.run ∧ (t.mill k).miller.barred = (s.mill k).miller.barred ∧
      (t.mill k).miller.replay = (s.mill k).miller.replay ∧ (t.mill k).miller.replaying = (s.mill k).miller.replaying ∧
      (t.mill k).miller.replayInj = (s.mill k).miller.replayInj ∧ (t.mill k).miller.spliced = (s.mill k).miller.spliced ∧
      (t.mill k).power = (s.mill k).power ∧ (t.mill k).timers = (s.mill k).timers ∧ (t.mill k).race = (s.mill k).race ∧
      (t.mill k).stones = (s.mill k).stones ∧ (t.mill k).governor = (s.mill k).governor ∧
      (t.mill k).sluice = (s.mill k).sluice ∧ (t.mill k).bolter = (s.mill k).bolter ∧ (t.mill k).ledger = (s.mill k).ledger ∧
      (t.mill k).floor = (s.mill k).floor ∧ (t.mill k).shaft = (s.mill k).shaft ∧ (t.mill k).image = (s.mill k).image ∧
      (t.mill k).toll = (s.mill k).toll ∧ (t.mill k).log.st = (s.mill k).log.st ∧ (t.mill k).log.ring = (s.mill k).log.ring ∧
      (t.mill k).log.age = (s.mill k).log.age ∧ (t.mill k).log.postLeft = (s.mill k).log.postLeft ∧
      (t.mill k).log.spillHead = (s.mill k).log.spillHead ∧ (t.mill k).log.spillTrig = (s.mill k).log.spillTrig ∧
      (t.mill k).log.lostSeen = (s.mill k).log.lostSeen ∧ (t.mill k).log.latHead = (s.mill k).log.latHead ∧
      (t.mill k).log.latRecs = (s.mill k).log.latRecs ∧ (t.mill k).log.latCount = (s.mill k).log.latCount ∧
      (t.mill k).log.curSeq = (s.mill k).log.curSeq ∧ (t.mill k).log.latBase = (s.mill k).log.latBase ∧
      (t.mill k).log.latUnits = (s.mill k).log.latUnits ∧ (t.mill k).log.spillBase = (s.mill k).log.spillBase ∧
      (t.mill k).log.spillUnits = (s.mill k).log.spillUnits ∧ (t.mill k).watch = (s.mill k).watch := by
  obtain ⟨_, _, _, _, _, _, _, rfl⟩ := onlyEvents_iff.1 h
  refine ⟨rfl, rfl, rfl, rfl, rfl, rfl, rfl, rfl, rfl, rfl, rfl, rfl, rfl, rfl, rfl, rfl, rfl, rfl, rfl, rfl, rfl, rfl, rfl, rfl, rfl, rfl, ?_⟩
  intro k
  cases k <;> exact ⟨rfl, rfl, rfl, rfl, rfl, rfl, rfl, rfl, rfl, rfl, rfl, rfl, rfl, rfl, rfl, rfl, rfl, rfl, rfl, rfl, rfl, rfl, rfl, rfl, rfl, rfl, rfl, rfl, rfl, rfl, rfl, rfl, rfl, rfl, rfl, rfl, rfl, rfl, rfl, rfl, rfl, rfl, rfl, rfl⟩

theorem OnlyEvents.forAll {α : Type} (l : List α) (f : State → α → State) (h : ∀ s a, OnlyEvents s (f s a)) :
    OnlyEvents s (s.forAll l f) := by
  unfold State.forAll
  induction l generalizing s with
  | nil => exact OnlyEvents.refl s
  | cons a l ih => exact (h s a).trans ih

/-! ## The operations -/

variable (s)

theorem OnlyEvents.regs (r : Cells W32) : OnlyEvents s { s with regs := r } := rfl
theorem OnlyEvents.host (h : HostPort) : OnlyEvents s { s with host := h } := rfl
theorem OnlyEvents.setWord (p : Page) (off : Nat) (v : W32) : OnlyEvents s (s.setWord p off v) := rfl
theorem OnlyEvents.putFld (p : Page) (off lo w v : Nat) : OnlyEvents s (s.putFld p off lo w v) := rfl
theorem OnlyEvents.tally (p : Page) (k n : Nat) : OnlyEvents s (s.tally p k n) := rfl

theorem OnlyEvents.hostSend (msg : PcieMsg) : OnlyEvents s (s.hostSend msg) := by
  unfold State.hostSend
  cases msg <;> (repeat' split) <;> rfl

theorem OnlyEvents.sendMsix (v : Nat) : OnlyEvents s (s.sendMsix v) := by
  unfold State.sendMsix
  split
  · rfl
  · split
    · rfl
    · exact OnlyEvents.hostSend s _

theorem OnlyEvents.sendRoute (r : Nat) : OnlyEvents s (s.sendRoute r) := by
  unfold State.sendRoute
  split
  · exact OnlyEvents.sendMsix s _
  · rfl

theorem OnlyEvents.logTrigger (m : MillId) : OnlyEvents s (s.logTrigger m) := by
  unfold State.logTrigger
  cases m <;> split <;> rfl

theorem OnlyEvents.trigOnEvent (m : MillId) (p : Page) (bit : Nat) : OnlyEvents s (s.trigOnEvent m p bit) := by
  unfold State.trigOnEvent
  split
  · exact OnlyEvents.logTrigger s m
  · rfl

theorem OnlyEvents.toSystem (p : Page) (bit : Nat) (nmi : Bool) : OnlyEvents s (s.toSystem p bit nmi) :=
  OnlyEvents.forAll _ _ fun _ m => by cases m <;> rfl

theorem OnlyEvents.fifoFull : OnlyEvents s s.fifoFull := by
  unfold State.fifoFull
  simp only []
  refine (OnlyEvents.tally s .host 9 1).trans ?_
  generalize s.tally .host 9 1 = s
  split
  · rfl
  · split
    · rfl
    · have h1 : OnlyEvents s (({ s with host := { s.host with fifoLost := true } } : State).putFld .host 0x010 3 1 1) := rfl
      refine h1.trans ?_
      generalize ({ s with host := { s.host with fifoLost := true } } : State).putFld .host 0x010 3 1 1 = s
      refine (OnlyEvents.trigOnEvent s .m0 .host 3).trans ?_
      generalize s.trigOnEvent .m0 .host 3 = s
      refine (OnlyEvents.trigOnEvent s .m1 .host 3).trans ?_
      generalize s.trigOnEvent .m1 .host 3 = s
      split
      · refine (OnlyEvents.toSystem s .host 3 false).trans ?_
        generalize s.toSystem .host 3 false = s
        split
        · exact (OnlyEvents.tally s .host 9 1).trans (OnlyEvents.sendRoute _ _)
        · rfl
      · rfl

theorem OnlyEvents.toHost (p : Page) (bit : Nat) : OnlyEvents s (s.toHost p bit) := by
  unfold State.toHost
  split
  · rfl
  · split
    · refine OnlyEvents.trans ?_ (OnlyEvents.sendRoute _ _)
      split
      · rfl
      · exact OnlyEvents.fifoFull s
    · rfl

theorem OnlyEvents.deliver (p : Page) (bit : Nat) : OnlyEvents s (s.deliver p bit) :=
  (OnlyEvents.toSystem _ _ _ _).trans (OnlyEvents.toHost _ _ _)

theorem OnlyEvents.raise (p : Page) (bit : Nat) : OnlyEvents s (s.raise p bit) := by
  unfold State.raise
  split
  · rfl
  · simp only []
    refine (OnlyEvents.putFld s p 0x010 bit 1 1).trans ?_
    generalize s.putFld p 0x010 bit 1 1 = s
    refine (OnlyEvents.trigOnEvent s .m0 p bit).trans ?_
    generalize s.trigOnEvent .m0 p bit = s
    refine (OnlyEvents.trigOnEvent s .m1 p bit).trans ?_
    generalize s.trigOnEvent .m1 p bit = s
    split
    · exact OnlyEvents.deliver _ _ _
    · split
      · exact OnlyEvents.toSystem _ _ _ _
      · rfl

theorem OnlyEvents.record (p : Page) (off : Nat) (fill : State → State) (h : OnlyEvents s (fill s)) :
    OnlyEvents s (s.record p off fill) := by
  unfold State.record
  split
  · rfl
  · exact h.trans (OnlyEvents.putFld _ _ _ _ _ _)

theorem OnlyEvents.accessErr (p : Path) (off : Nat) (write : Bool) (data : W32) (c : AccCause) :
    OnlyEvents s (s.accessErr p off write data c) := by
  unfold State.accessErr
  simp only []
  split
  · rfl
  · exact (OnlyEvents.tally _ _ _ _).trans ((OnlyEvents.record _ _ _ _ (by exact rfl)).trans (OnlyEvents.raise _ _ _))

theorem OnlyEvents.claimBusy (page : Page) (code holder path : Nat) : OnlyEvents s (s.claimBusy page code holder path) :=
  (OnlyEvents.tally _ _ _ _).trans ((OnlyEvents.record _ _ _ _ (by exact rfl)).trans (OnlyEvents.raise _ _ _))

/-! ## Field by field, for the operations that meanings call -/

@[simp] theorem State.raise_frame (p : Page) (bit : Nat) :
    (s.raise p bit).time = s.time ∧ (s.raise p bit).pathPcie = s.pathPcie ∧ (s.raise p bit).pathChain = s.pathChain ∧
    (s.raise p bit).pathSys0 = s.pathSys0 ∧ (s.raise p bit).pathSys1 = s.pathSys1 ∧ (s.raise p bit).hoist = s.hoist ∧
    (s.raise p bit).supply = s.supply ∧ (s.raise p bit).refclk = s.refclk ∧ (s.raise p bit).leat = s.leat ∧
    (s.raise p bit).pond = s.pond ∧ (s.raise p bit).trust = s.trust ∧ (s.raise p bit).fuses = s.fuses ∧
    (s.raise p bit).nv = s.nv ∧ (s.raise p bit).mem = s.mem ∧ (s.raise p bit).hopper = s.hopper ∧
    (s.raise p bit).granary = s.granary ∧ (s.raise p bit).nvBytes = s.nvBytes ∧ (s.raise p bit).outUnits = s.outUnits ∧
    (s.raise p bit).inForce = s.inForce ∧ (s.raise p bit).wear = s.wear ∧ (s.raise p bit).worn = s.worn ∧
    (s.raise p bit).portsOff = s.portsOff ∧ (s.raise p bit).inj = s.inj ∧ (s.raise p bit).draw = s.draw ∧
    (s.raise p bit).codes = s.codes ∧ (s.raise p bit).pending = s.pending ∧
    ∀ k : MillId,
      ((s.raise p bit).mill k).cmd = (s.mill k).cmd ∧ ((s.raise p bit).mill k).miller.user = (s.mill k).miller.user ∧
      ((s.raise p bit).mill k).miller.system = (s.mill k).miller.system ∧
      ((s.raise p bit).mill k).miller.st = (s.mill k).miller.st ∧
      ((s.raise p bit).mill k).miller.vreg = (s.mill k).miller.vreg ∧
      ((s.raise p bit).mill k).miller.carry = (s.mill k).miller.carry ∧
      ((s.raise p bit).mill k).miller.vecQ = (s.mill k).miller.vecQ ∧
      ((s.raise p bit).mill k).miller.faults = (s.mill k).miller.faults ∧
      ((s.raise p bit).mill k).miller.ending = (s.mill k).miller.ending ∧
      ((s.raise p bit).mill k).miller.faulted = (s.mill k).miller.faulted ∧
      ((s.raise p bit).mill k).miller.run = (s.mill k).miller.run ∧
      ((s.raise p bit).mill k).miller.barred = (s.mill k).miller.barred ∧
      ((s.raise p bit).mill k).miller.replay = (s.mill k).miller.replay ∧
      ((s.raise p bit).mill k).miller.replaying = (s.mill k).miller.replaying ∧
      ((s.raise p bit).mill k).miller.replayInj = (s.mill k).miller.replayInj ∧
      ((s.raise p bit).mill k).miller.spliced = (s.mill k).miller.spliced ∧
      ((s.raise p bit).mill k).power = (s.mill k).power ∧ ((s.raise p bit).mill k).timers = (s.mill k).timers ∧
      ((s.raise p bit).mill k).race = (s.mill k).race ∧ ((s.raise p bit).mill k).stones = (s.mill k).stones ∧
      ((s.raise p bit).mill k).governor = (s.mill k).governor ∧ ((s.raise p bit).mill k).sluice = (s.mill k).sluice ∧
      ((s.raise p bit).mill k).bolter = (s.mill k).bolter ∧ ((s.raise p bit).mill k).ledger = (s.mill k).ledger ∧
      ((s.raise p bit).mill k).floor = (s.mill k).floor ∧ ((s.raise p bit).mill k).shaft = (s.mill k).shaft ∧
      ((s.raise p bit).mill k).image = (s.mill k).image ∧ ((s.raise p bit).mill k).toll = (s.mill k).toll ∧
      ((s.raise p bit).mill k).log.st = (s.mill k).log.st ∧ ((s.raise p bit).mill k).log.ring = (s.mill k).log.ring ∧
      ((s.raise p bit).mill k).log.age = (s.mill k).log.age ∧
      ((s.raise p bit).mill k).log.postLeft = (s.mill k).log.postLeft ∧
      ((s.raise p bit).mill k).log.spillHead = (s.mill k).log.spillHead ∧
      ((s.raise p bit).mill k).log.spillTrig = (s.mill k).log.spillTrig ∧
      ((s.raise p bit).mill k).log.lostSeen = (s.mill k).log.lostSeen ∧
      ((s.raise p bit).mill k).log.latHead = (s.mill k).log.latHead ∧
      ((s.raise p bit).mill k).log.latRecs = (s.mill k).log.latRecs ∧
      ((s.raise p bit).mill k).log.latCount = (s.mill k).log.latCount ∧
      ((s.raise p bit).mill k).log.curSeq = (s.mill k).log.curSeq ∧
      ((s.raise p bit).mill k).log.latBase = (s.mill k).log.latBase ∧
      ((s.raise p bit).mill k).log.latUnits = (s.mill k).log.latUnits ∧
      ((s.raise p bit).mill k).log.spillBase = (s.mill k).log.spillBase ∧
      ((s.raise p bit).mill k).log.spillUnits = (s.mill k).log.spillUnits ∧ ((s.raise p bit).mill k).watch = (s.mill k).watch :=
  (OnlyEvents.raise s p bit).frame

@[simp] theorem State.accessErr_frame (p : Path) (off : Nat) (write : Bool) (data : W32) (c : AccCause) :
    (s.accessErr p off write data c).time = s.time ∧ (s.accessErr p off write data c).pathPcie = s.pathPcie ∧
    (s.accessErr p off write data c).pathChain = s.pathChain ∧ (s.accessErr p off write data c).pathSys0 = s.pathSys0 ∧
    (s.accessErr p off write data c).pathSys1 = s.pathSys1 ∧ (s.accessErr p off write data c).hoist = s.hoist ∧
    (s.accessErr p off write data c).supply = s.supply ∧ (s.accessErr p off write data c).refclk = s.refclk ∧
    (s.accessErr p off write data c).leat = s.leat ∧ (s.accessErr p off write data c).pond = s.pond ∧
    (s.accessErr p off write data c).trust = s.trust ∧ (s.accessErr p off write data c).fuses = s.fuses ∧
    (s.accessErr p off write data c).nv = s.nv ∧ (s.accessErr p off write data c).mem = s.mem ∧
    (s.accessErr p off write data c).hopper = s.hopper ∧ (s.accessErr p off write data c).granary = s.granary ∧
    (s.accessErr p off write data c).nvBytes = s.nvBytes ∧ (s.accessErr p off write data c).outUnits = s.outUnits ∧
    (s.accessErr p off write data c).inForce = s.inForce ∧ (s.accessErr p off write data c).wear = s.wear ∧
    (s.accessErr p off write data c).worn = s.worn ∧ (s.accessErr p off write data c).portsOff = s.portsOff ∧
    (s.accessErr p off write data c).inj = s.inj ∧ (s.accessErr p off write data c).draw = s.draw ∧
    (s.accessErr p off write data c).codes = s.codes ∧ (s.accessErr p off write data c).pending = s.pending ∧
    ∀ k : MillId,
      ((s.accessErr p off write data c).mill k).cmd = (s.mill k).cmd ∧
      ((s.accessErr p off write data c).mill k).miller.user = (s.mill k).miller.user ∧
      ((s.accessErr p off write data c).mill k).miller.system = (s.mill k).miller.system ∧
      ((s.accessErr p off write data c).mill k).miller.st = (s.mill k).miller.st ∧
      ((s.accessErr p off write data c).mill k).miller.vreg = (s.mill k).miller.vreg ∧
      ((s.accessErr p off write data c).mill k).miller.carry = (s.mill k).miller.carry ∧
      ((s.accessErr p off write data c).mill k).miller.vecQ = (s.mill k).miller.vecQ ∧
      ((s.accessErr p off write data c).mill k).miller.faults = (s.mill k).miller.faults ∧
      ((s.accessErr p off write data c).mill k).miller.ending = (s.mill k).miller.ending ∧
      ((s.accessErr p off write data c).mill k).miller.faulted = (s.mill k).miller.faulted ∧
      ((s.accessErr p off write data c).mill k).miller.run = (s.mill k).miller.run ∧
      ((s.accessErr p off write data c).mill k).miller.barred = (s.mill k).miller.barred ∧
      ((s.accessErr p off write data c).mill k).miller.replay = (s.mill k).miller.replay ∧
      ((s.accessErr p off write data c).mill k).miller.replaying = (s.mill k).miller.replaying ∧
      ((s.accessErr p off write data c).mill k).miller.replayInj = (s.mill k).miller.replayInj ∧
      ((s.accessErr p off write data c).mill k).miller.spliced = (s.mill k).miller.spliced ∧
      ((s.accessErr p off write data c).mill k).power = (s.mill k).power ∧
      ((s.accessErr p off write data c).mill k).timers = (s.mill k).timers ∧
      ((s.accessErr p off write data c).mill k).race = (s.mill k).race ∧
      ((s.accessErr p off write data c).mill k).stones = (s.mill k).stones ∧
      ((s.accessErr p off write data c).mill k).governor = (s.mill k).governor ∧
      ((s.accessErr p off write data c).mill k).sluice = (s.mill k).sluice ∧
      ((s.accessErr p off write data c).mill k).bolter = (s.mill k).bolter ∧
      ((s.accessErr p off write data c).mill k).ledger = (s.mill k).ledger ∧
      ((s.accessErr p off write data c).mill k).floor = (s.mill k).floor ∧
      ((s.accessErr p off write data c).mill k).shaft = (s.mill k).shaft ∧
      ((s.accessErr p off write data c).mill k).image = (s.mill k).image ∧
      ((s.accessErr p off write data c).mill k).toll = (s.mill k).toll ∧
      ((s.accessErr p off write data c).mill k).log.st = (s.mill k).log.st ∧
      ((s.accessErr p off write data c).mill k).log.ring = (s.mill k).log.ring ∧
      ((s.accessErr p off write data c).mill k).log.age = (s.mill k).log.age ∧
      ((s.accessErr p off write data c).mill k).log.postLeft = (s.mill k).log.postLeft ∧
      ((s.accessErr p off write data c).mill k).log.spillHead = (s.mill k).log.spillHead ∧
      ((s.accessErr p off write data c).mill k).log.spillTrig = (s.mill k).log.spillTrig ∧
      ((s.accessErr p off write data c).mill k).log.lostSeen = (s.mill k).log.lostSeen ∧
      ((s.accessErr p off write data c).mill k).log.latHead = (s.mill k).log.latHead ∧
      ((s.accessErr p off write data c).mill k).log.latRecs = (s.mill k).log.latRecs ∧
      ((s.accessErr p off write data c).mill k).log.latCount = (s.mill k).log.latCount ∧
      ((s.accessErr p off write data c).mill k).log.curSeq = (s.mill k).log.curSeq ∧
      ((s.accessErr p off write data c).mill k).log.latBase = (s.mill k).log.latBase ∧
      ((s.accessErr p off write data c).mill k).log.latUnits = (s.mill k).log.latUnits ∧
      ((s.accessErr p off write data c).mill k).log.spillBase = (s.mill k).log.spillBase ∧
      ((s.accessErr p off write data c).mill k).log.spillUnits = (s.mill k).log.spillUnits ∧
      ((s.accessErr p off write data c).mill k).watch = (s.mill k).watch :=
  (OnlyEvents.accessErr s p off write data c).frame

@[simp] theorem State.claimBusy_frame (page : Page) (code holder path : Nat) :
    (s.claimBusy page code holder path).time = s.time ∧ (s.claimBusy page code holder path).pathPcie = s.pathPcie ∧
    (s.claimBusy page code holder path).pathChain = s.pathChain ∧ (s.claimBusy page code holder path).pathSys0 = s.pathSys0 ∧
    (s.claimBusy page code holder path).pathSys1 = s.pathSys1 ∧ (s.claimBusy page code holder path).hoist = s.hoist ∧
    (s.claimBusy page code holder path).supply = s.supply ∧ (s.claimBusy page code holder path).refclk = s.refclk ∧
    (s.claimBusy page code holder path).leat = s.leat ∧ (s.claimBusy page code holder path).pond = s.pond ∧
    (s.claimBusy page code holder path).trust = s.trust ∧ (s.claimBusy page code holder path).fuses = s.fuses ∧
    (s.claimBusy page code holder path).nv = s.nv ∧ (s.claimBusy page code holder path).mem = s.mem ∧
    (s.claimBusy page code holder path).hopper = s.hopper ∧ (s.claimBusy page code holder path).granary = s.granary ∧
    (s.claimBusy page code holder path).nvBytes = s.nvBytes ∧ (s.claimBusy page code holder path).outUnits = s.outUnits ∧
    (s.claimBusy page code holder path).inForce = s.inForce ∧ (s.claimBusy page code holder path).wear = s.wear ∧
    (s.claimBusy page code holder path).worn = s.worn ∧ (s.claimBusy page code holder path).portsOff = s.portsOff ∧
    (s.claimBusy page code holder path).inj = s.inj ∧ (s.claimBusy page code holder path).draw = s.draw ∧
    (s.claimBusy page code holder path).codes = s.codes ∧ (s.claimBusy page code holder path).pending = s.pending ∧
    ∀ k : MillId,
      ((s.claimBusy page code holder path).mill k).cmd = (s.mill k).cmd ∧
      ((s.claimBusy page code holder path).mill k).miller.user = (s.mill k).miller.user ∧
      ((s.claimBusy page code holder path).mill k).miller.system = (s.mill k).miller.system ∧
      ((s.claimBusy page code holder path).mill k).miller.st = (s.mill k).miller.st ∧
      ((s.claimBusy page code holder path).mill k).miller.vreg = (s.mill k).miller.vreg ∧
      ((s.claimBusy page code holder path).mill k).miller.carry = (s.mill k).miller.carry ∧
      ((s.claimBusy page code holder path).mill k).miller.vecQ = (s.mill k).miller.vecQ ∧
      ((s.claimBusy page code holder path).mill k).miller.faults = (s.mill k).miller.faults ∧
      ((s.claimBusy page code holder path).mill k).miller.ending = (s.mill k).miller.ending ∧
      ((s.claimBusy page code holder path).mill k).miller.faulted = (s.mill k).miller.faulted ∧
      ((s.claimBusy page code holder path).mill k).miller.run = (s.mill k).miller.run ∧
      ((s.claimBusy page code holder path).mill k).miller.barred = (s.mill k).miller.barred ∧
      ((s.claimBusy page code holder path).mill k).miller.replay = (s.mill k).miller.replay ∧
      ((s.claimBusy page code holder path).mill k).miller.replaying = (s.mill k).miller.replaying ∧
      ((s.claimBusy page code holder path).mill k).miller.replayInj = (s.mill k).miller.replayInj ∧
      ((s.claimBusy page code holder path).mill k).miller.spliced = (s.mill k).miller.spliced ∧
      ((s.claimBusy page code holder path).mill k).power = (s.mill k).power ∧
      ((s.claimBusy page code holder path).mill k).timers = (s.mill k).timers ∧
      ((s.claimBusy page code holder path).mill k).race = (s.mill k).race ∧
      ((s.claimBusy page code holder path).mill k).stones = (s.mill k).stones ∧
      ((s.claimBusy page code holder path).mill k).governor = (s.mill k).governor ∧
      ((s.claimBusy page code holder path).mill k).sluice = (s.mill k).sluice ∧
      ((s.claimBusy page code holder path).mill k).bolter = (s.mill k).bolter ∧
      ((s.claimBusy page code holder path).mill k).ledger = (s.mill k).ledger ∧
      ((s.claimBusy page code holder path).mill k).floor = (s.mill k).floor ∧
      ((s.claimBusy page code holder path).mill k).shaft = (s.mill k).shaft ∧
      ((s.claimBusy page code holder path).mill k).image = (s.mill k).image ∧
      ((s.claimBusy page code holder path).mill k).toll = (s.mill k).toll ∧
      ((s.claimBusy page code holder path).mill k).log.st = (s.mill k).log.st ∧
      ((s.claimBusy page code holder path).mill k).log.ring = (s.mill k).log.ring ∧
      ((s.claimBusy page code holder path).mill k).log.age = (s.mill k).log.age ∧
      ((s.claimBusy page code holder path).mill k).log.postLeft = (s.mill k).log.postLeft ∧
      ((s.claimBusy page code holder path).mill k).log.spillHead = (s.mill k).log.spillHead ∧
      ((s.claimBusy page code holder path).mill k).log.spillTrig = (s.mill k).log.spillTrig ∧
      ((s.claimBusy page code holder path).mill k).log.lostSeen = (s.mill k).log.lostSeen ∧
      ((s.claimBusy page code holder path).mill k).log.latHead = (s.mill k).log.latHead ∧
      ((s.claimBusy page code holder path).mill k).log.latRecs = (s.mill k).log.latRecs ∧
      ((s.claimBusy page code holder path).mill k).log.latCount = (s.mill k).log.latCount ∧
      ((s.claimBusy page code holder path).mill k).log.curSeq = (s.mill k).log.curSeq ∧
      ((s.claimBusy page code holder path).mill k).log.latBase = (s.mill k).log.latBase ∧
      ((s.claimBusy page code holder path).mill k).log.latUnits = (s.mill k).log.latUnits ∧
      ((s.claimBusy page code holder path).mill k).log.spillBase = (s.mill k).log.spillBase ∧
      ((s.claimBusy page code holder path).mill k).log.spillUnits = (s.mill k).log.spillUnits ∧
      ((s.claimBusy page code holder path).mill k).watch = (s.mill k).watch :=
  (OnlyEvents.claimBusy s page code holder path).frame

end Sys2Proof.Machine
end

