-- ==== Sys2Proof/Laws/Access.lean ====
section
/-! SUPPORT. What a register access that reaches its word does: the page and the word that an offset names, the checks passed. -/

namespace Sys2Proof.Machine

variable (s : State)

/-! ## Words after a write -/

@[simp] theorem State.setWord_word_self (p : Page) (off : Nat) (v : W32) : (s.setWord p off v).word p off = v := by
  simp [State.word, State.setWord]

theorem State.setWord_word_of_ne (p q : Page) (off o : Nat) (v : W32) (h : q.base + o ≠ p.base + off) :
    (s.setWord p off v).word q o = s.word q o := by
  simp only [State.word, State.setWord]
  exact cellGet_cellSet_other _ _ _ _ _ _ h

@[simp] theorem State.tally_word (p q : Page) (k n o : Nat) : (s.tally p k n).word q o = s.word q o := rfl
@[simp] theorem State.onMill_word (m : MillId) (f : Mill → Mill) (q : Page) (o : Nat) : (s.onMill m f).word q o = s.word q o := by
  simp [State.word]
@[simp] theorem State.onPath_word (p : Path) (f : PathState → PathState) (q : Page) (o : Nat) :
    (s.onPath p f).word q o = s.word q o := by simp [State.word]

/-- A word stored again as it stands changes nothing. -/
@[simp] theorem State.setWord_same (p : Page) (off : Nat) : s.setWord p off (s.word p off) = s := by
  simp [State.setWord, State.word]

/-! ## Pages and offsets -/

theorem Page.base_mod (p : Page) : p.base % 0x1000 = 0 := by
  cases p <;> simp only [Page.base, Page.mill?, Page.inWindow] <;> omega

theorem pageAt_of_base (p : Page) : pageAt p.base = some p := by
  cases p with
  | timer m n => cases m <;> revert n <;> decide
  | floor m n => cases m <;> revert n <;> decide
  | stone m n => cases m <;> revert n <;> decide
  | hbm m n => cases m <;> revert n <;> decide
  | ddr m n => cases m <;> revert n <;> decide
  | leatPort m n => cases m <;> revert n <;> decide
  | directory => decide
  | host => decide
  | supply => decide
  | clock => decide
  | trust => decide
  | leat => decide
  | history => decide
  | pond => decide
  | ikiug m => cases m <;> decide
  | command m => cases m <;> decide
  | power m => cases m <;> decide
  | race m => cases m <;> decide
  | governor m => cases m <;> decide
  | bolter m => cases m <;> decide
  | ledger m => cases m <;> decide
  | sluice m => cases m <;> decide
  | granary m => cases m <;> decide
  | toll m => cases m <;> decide
  | log m => cases m <;> decide
  | watch m => cases m <;> decide

/-- The offset of a word names its page. -/
theorem pageAt_base (p : Page) (off : Nat) (h : off < 0x1000) : pageAt (p.base + off) = some p := by
  have hb := Page.base_mod p
  have hd : (p.base + off) / 0x1000 = p.base / 0x1000 := by omega
  rw [← pageAt_of_base p]
  unfold pageAt
  rw [hd]

theorem Page.base_add_mod (p : Page) (off : Nat) (h : off < 0x1000) : (p.base + off) % 0x1000 = off := by
  have hb := Page.base_mod p
  omega

/-- Two words of register space are the same only where page and offset agree. -/
theorem Page.base_add_inj (p q : Page) (a b : Nat) (ha : a < 0x1000) (hb : b < 0x1000) (h : p.base + a = q.base + b) :
    p = q ∧ a = b := by
  have e := pageAt_base p a ha
  rw [h, pageAt_base q b hb] at e
  have e' : q = p := Option.some.inj e
  subst e'
  exact ⟨rfl, by omega⟩

theorem State.setWord_word_page (p q : Page) (off o : Nat) (v : W32) (ha : off < 0x1000) (hb : o < 0x1000) (h : q ≠ p ∨ o ≠ off) :
    (s.setWord p off v).word q o = s.word q o := by
  apply State.setWord_word_of_ne
  intro e
  obtain ⟨rfl, rfl⟩ := Page.base_add_inj _ _ _ _ hb ha e
  simp at h

/-! ## A write that reaches its word -/

@[simp] theorem State.accessInjected_of (path : Path)
    (h : (s.injects .directory 1 && s.injTarget .directory % 8 == path.code) = false) : s.accessInjected path = (false, s) := by
  simp [State.accessInjected, h]

@[simp] theorem State.countAccess_word (path : Path) (k : Nat) (q : Page) (o : Nat) : (s.countAccess path k).word q o = s.word q o := by
  unfold State.countAccess; split <;> rfl

@[simp] theorem State.countAccess_pageLive (path : Path) (k : Nat) (q : Page) : (s.countAccess path k).pageLive q = s.pageLive q := by
  unfold State.countAccess; split <;> rfl

theorem State.countAccess_eq (path : Path) (k : Nat) :
    s.countAccess path k = { s with tallies := (s.countAccess path k).tallies } := by
  unfold State.countAccess; split <;> rfl

/-- A 32-bit write at an aligned offset of a page that accepts it is the write of that word by its table entry. -/
theorem State.regWrite_word (path : Path) (p : Page) (off : Nat) (x : WordAt) (v : W64) (ho : off < 0x1000) (h4 : off % 4 = 0)
    (ha : Accepts s path p) (hm : inMsix path p off = false) (hx : wordAt p off = some x) :
    s.regWrite path (p.base + off) 32 v = (s.countAccess path 5).writeReg path p off x (loWord v) := by
  obtain ⟨hopen, hlive, hinj⟩ := ha
  have hb := Page.base_mod p
  have hi : ((s.countAccess path 5).injects .directory 1 && (s.countAccess path 5).injTarget .directory % 8 == path.code) = false := by
    rw [State.countAccess_eq]; exact hinj
  have e : (if path = .pcie then s.tally .host 5 1 else s) = s.countAccess path 5 := rfl
  unfold State.regWrite
  simp only [hopen, Bool.not_true, Bool.false_eq_true, if_false, e]
  rw [if_neg (by omega), if_neg (by decide), if_pos trivial]
  unfold State.writeWord
  simp only [State.accessInjected_of _ _ hi, pageAt_base p off ho, Page.base_add_mod p off ho, State.countAccess_pageLive, hlive,
    hm, hx, Bool.not_true, Bool.false_eq_true, if_false]

/-- A 32-bit read at an aligned offset of a page that accepts it, where neither CHUTE_IN_DONE over the link nor a word with a
reader of its own is named, is the read of that word by its table entry. -/
theorem State.regRead_word (path : Path) (p : Page) (off : Nat) (x : WordAt) (ho : off < 0x1000) (h4 : off % 4 = 0)
    (ha : Accepts s path p) (hm : inMsix path p off = false) (hx : wordAt p off = some x)
    (hp : p ≠ .host ∧ (∀ m, p ≠ .log m) ∧ p ≠ .trust) :
    s.regRead path (p.base + off) 32 =
      ((s.countAccess path 4).readReg path p off x).2.reply path (((s.countAccess path 4).readReg path p off x).1.zeroExtend 64) := by
  obtain ⟨hopen, hlive, hinj⟩ := ha
  have hb := Page.base_mod p
  have hi : ((s.countAccess path 4).injects .directory 1 && (s.countAccess path 4).injTarget .directory % 8 == path.code) = false := by
    rw [State.countAccess_eq]; exact hinj
  have e : (if path = .pcie then s.tally .host 4 1 else s) = s.countAccess path 4 := rfl
  have hd : ¬ (path = .pcie ∧ p.base + off = 0x1190 ∧ (!(s.countAccess path 4).host.chuteBuf.isEmpty) = true) := by
    rintro ⟨-, h, -⟩
    exact hp.1 (Page.base_add_inj p .host off 0x190 ho (by decide) h).1
  unfold State.regRead
  simp only [hopen, Bool.not_true, Bool.false_eq_true, if_false, e]
  rw [if_neg (by omega), if_neg (by decide), if_neg hd, if_pos trivial]
  unfold State.readWord
  simp only [State.accessInjected_of _ _ hi, pageAt_base p off ho, Page.base_add_mod p off ho, State.countAccess_pageLive, hlive,
    hm, hx, Bool.not_true, Bool.false_eq_true, if_false]
  cases p <;> first | rfl | exact absurd rfl hp.1 | exact absurd rfl hp.2.2 | exact absurd rfl (hp.2.1 _)

/-- Fields that are not read-write store nothing. -/
theorem storeFields_none (fs : List Fld) (r : Fld → Bool) (old new : Nat) (h : ∀ f ∈ fs, f.acc ≠ .rw) :
    storeFields fs r old new = { word := old, beh := false, bad := false } := by
  unfold storeFields
  generalize ({ word := old, beh := false, bad := false } : FieldOut) = a
  induction fs generalizing a with
  | nil => rfl
  | cons f fs ih =>
    rw [List.foldl_cons, if_pos (h f (by simp))]
    exact ih (fun g hg => h g (by simp [hg])) a

/-- A write of a 32-bit register that has actions and no read-write field stores nothing: it is its actions. -/
theorem State.writeReg_action (path : Path) (p : Page) (off : Nat) (x : WordAt) (w : W32) (ho : 0x100 ≤ off)
    (hw : x.reg.wide = false) (h1 : (x.reg.flds.all fun f => f.acc == .ro || f.acc == .rc) = false)
    (hwo : ∀ f ∈ x.reg.flds, f.acc ≠ .rw)
    (hmask : (w.zeroExtend 64).toNat &&& fieldsMask x.reg.flds (fun _ => true) = (w.zeroExtend 64).toNat)
    (hclaim : s.needsClaim path p off = none) (hcustom : s.writeCustom path p off w = none)
    (hgate : s.gated path.code p off (s.word p off) = (s.word p off, s))
    (hhi : x.hi = false) (hstored : s.stored p off (s.word p off) = s) :
    s.writeReg path p off x w = s.act path p off w (w.zeroExtend 64) := by
  have hfs : x.fields = x.reg.flds := by simp [WordAt.fields, hw]
  have h2 : (x.reg.flds.any fun f => f.acc == .rw && f.beh) = false := by
    rw [List.any_eq_false]; intro f hm; simp [hwo f hm]
  have h3 : x.reg.flds.isEmpty = false := by
    cases h : x.reg.flds with
    | nil => simp [h] at h1
    | cons => rfl
  unfold State.writeReg
  simp only [hfs, hhi, Bool.false_eq_true, if_false, and_false, false_and, hw, h1, h2, h3, hclaim]
  rw [if_neg (by omega), if_neg (by omega), if_neg (by omega)]
  have hb : s.writeBlock path p off x w (w.zeroExtend 64) = s.act path p off w (w.zeroExtend 64) := by
    unfold State.writeBlock
    simp only [hcustom, hw, Bool.false_eq_true, if_false, storeFields_none _ _ _ _ hwo, hmask, bne_self_eq_false,
      BitVec.ofNat_toNat, BitVec.setWidth_eq, hgate, State.setWord_same, hstored]
  split <;> omega

end Sys2Proof.Machine
end

