-- ==== Sys2Proof/Laws/Keeps.lean ====
section
/-! SUPPORT. The relation that every change of the state keeps, and how it is put together: the queue is not touched, no fuse is
taken back, and the memories stay in their canonical form. -/

namespace Sys2Proof.Machine

variable {s t u : State}

theorem Keeps.refl (s : State) : Keeps s s := ⟨rfl, ⟨rfl, rfl, rfl, rfl, Nat.le_refl _, Nat.le_refl _⟩, id⟩

theorem Keeps.trans (h : Keeps s t) (g : Keeps t u) : Keeps s u :=
  ⟨g.1.trans h.1,
    ⟨g.2.1.1.trans h.2.1.1, g.2.1.2.1.trans h.2.1.2.1, g.2.1.2.2.1.trans h.2.1.2.2.1, g.2.1.2.2.2.1.trans h.2.1.2.2.2.1,
      Nat.le_trans h.2.1.2.2.2.2.1 g.2.1.2.2.2.2.1, Nat.le_trans h.2.1.2.2.2.2.2 g.2.1.2.2.2.2.2⟩,
    fun w => g.2.2 (h.2.2 w)⟩

/-- A change of anything else. -/
theorem Keeps.of_eq (hp : t.pending = s.pending) (hf : t.fuses = s.fuses) (hm : t.mem = s.mem) (hh : t.hopper = s.hopper)
    (hg : t.granary = s.granary) (hn : t.nvBytes = s.nvBytes) (hq : t.host.fifo = s.host.fifo) : Keeps s t :=
  ⟨hp, by rw [hf]; exact ⟨rfl, rfl, rfl, rfl, Nat.le_refl _, Nat.le_refl _⟩, fun w => by
    unfold State.Sound at *; rw [hm, hh, hg, hn, hq]; exact w⟩

/-- A record whose queue, fuses, memories and event FIFO are another state's. -/
theorem Keeps.record {m : State} {regs tallies time pathPcie pathChain pathSys0 pathSys1 host hoist supply refclk leat pond trust fuses nv mem hopper granary nvBytes mill0 mill1 outUnits inForce wear worn portsOff inj draw codes pending} (k : Keeps s m) (hp : m.pending = pending) (hf : m.fuses = fuses)
    (hm : m.mem = mem) (hh : m.hopper = hopper) (hg : m.granary = granary) (hn : m.nvBytes = nvBytes)
    (hq : m.host.fifo = HostPort.fifo host) :
    Keeps s (State.mk regs tallies time pathPcie pathChain pathSys0 pathSys1 host hoist supply refclk leat pond trust fuses nv mem hopper granary nvBytes mill0 mill1 outUnits inForce wear worn portsOff inj draw codes pending) :=
  k.trans (Keeps.of_eq hp.symm hf.symm hm.symm hh.symm hg.symm hn.symm hq.symm)

theorem Keeps.of_ite {c : Prop} [Decidable c] {a b : State} (ha : c → Keeps s a) (hb : ¬c → Keeps s b) :
    Keeps s (if c then a else b) := by
  split
  · rename_i h; exact ha h
  · rename_i h; exact hb h

theorem Keeps.physical (m : List Host.Cell) (h : Memory.wf s.mem = true → Memory.wf m = true) : Keeps s { s with mem := m } :=
  ⟨rfl, ⟨rfl, rfl, rfl, rfl, Nat.le_refl _, Nat.le_refl _⟩, fun w => ⟨h w.1, w.2⟩⟩
/-- Cells written one after another. -/
theorem Memory.wf_cells (l : List Host.Cell) {m : List Host.Cell} (h : Memory.wf m = true) :
    Memory.wf (l.foldl (fun m c => cellSet 0 c.1 c.2 m) m) = true := by
  induction l generalizing m with
  | nil => exact h
  | cons c l ih => exact ih (Memory.wf_cellSet _ _ h)

theorem Keeps.hoppers (m : List Host.Cell) (h : Memory.wf s.hopper = true → Memory.wf m = true) : Keeps s { s with hopper := m } :=
  ⟨rfl, ⟨rfl, rfl, rfl, rfl, Nat.le_refl _, Nat.le_refl _⟩, fun w => ⟨w.1, h w.2.1, w.2.2⟩⟩
theorem Keeps.granaries (m : List Host.Cell) (h : Memory.wf s.granary = true → Memory.wf m = true) :
    Keeps s { s with granary := m } :=
  ⟨rfl, ⟨rfl, rfl, rfl, rfl, Nat.le_refl _, Nat.le_refl _⟩, fun w => ⟨w.1, w.2.1, h w.2.2.1, w.2.2.2⟩⟩
theorem Keeps.store (m : List Host.Cell) (h : Memory.wf s.nvBytes = true → Memory.wf m = true) : Keeps s { s with nvBytes := m } :=
  ⟨rfl, ⟨rfl, rfl, rfl, rfl, Nat.le_refl _, Nat.le_refl _⟩, fun w => ⟨w.1, w.2.1, w.2.2.1, h w.2.2.2.1, w.2.2.2.2⟩⟩

/-- A result that is one of a pair. -/
theorem Keeps.of_pair {α : Type} {e : α × State} {a : α} (h : e = (a, t)) (k : Keeps s e.2) : Keeps s t := by subst h; exact k
theorem Keeps.of_triple {α β : Type} {e : α × β × State} {a : α} {b : β} (h : e = (a, b, t)) (k : Keeps s e.2.2) : Keeps s t := by
  subst h; exact k
theorem Keeps.of_some {e : Option State} (h : e = some t) (k : ∀ t, e = some t → Keeps s t) : Keeps s t := k t h

theorem Keeps.foldl {α : Type} (l : List α) (f : State → α → State) (h : ∀ s a, Keeps s (f s a)) : Keeps s (l.foldl f s) := by
  induction l generalizing s with
  | nil => exact Keeps.refl s
  | cons a l ih => exact (h s a).trans ih

/-- A fold whose accumulator holds the state. -/
theorem Keeps.fold_acc {α β : Type} (st : β → State) (f : β → α → β) (h : ∀ b a, Keeps (st b) (st (f b a))) (l : List α) (b : β)
    (k : Keeps s (st b)) : Keeps s (st (l.foldl f b)) := by
  induction l generalizing b with
  | nil => exact k
  | cons a l ih => exact ih _ (k.trans (h b a))

theorem Keeps.forAll {α : Type} (l : List α) (f : State → α → State) (h : ∀ s a, Keeps s (f s a)) : Keeps s (s.forAll l f) :=
  Keeps.foldl l f h

/-- The last change of a chain is taken off. -/
theorem Keeps.via (h : Keeps t u) (k : Keeps s t) : Keeps s u := k.trans h
theorem Keeps.foldl_via {α : Type} (l : List α) (f : State → α → State) (h : ∀ s a, Keeps s (f s a)) (k : Keeps s t) :
    Keeps s (l.foldl f t) := k.trans (Keeps.foldl l f h)
theorem Keeps.forAll_via {α : Type} (l : List α) (f : State → α → State) (h : ∀ s a, Keeps s (f s a)) (k : Keeps s t) :
    Keeps s (t.forAll l f) := k.trans (Keeps.forAll l f h)

theorem Keeps.onMill (s : State) (m : MillId) (f : Mill → Mill) : Keeps s (s.onMill m f) := by
  cases m <;> exact Keeps.of_eq rfl rfl rfl rfl rfl rfl rfl
theorem Keeps.onPath (s : State) (p : Path) (f : PathState → PathState) : Keeps s (s.onPath p f) := by
  cases p <;> exact Keeps.of_eq rfl rfl rfl rfl rfl rfl rfl
theorem Keeps.onStone (s : State) (m : MillId) (n : Nat) (f : Stone → Stone) : Keeps s (s.onStone m n f) := Keeps.onMill s m _
theorem Keeps.onMiller (s : State) (m : MillId) (f : Miller → Miller) : Keeps s (s.onMiller m f) := Keeps.onMill s m _
theorem Keeps.onCmd (s : State) (m : MillId) (f : CommandFile → CommandFile) : Keeps s (s.onCmd m f) := Keeps.onMill s m _
theorem Keeps.onRace (s : State) (m : MillId) (f : Race → Race) : Keeps s (s.onRace m f) := Keeps.onMill s m _
theorem Keeps.onGov (s : State) (m : MillId) (f : Governor → Governor) : Keeps s (s.onGov m f) := Keeps.onMill s m _
theorem Keeps.onSluice (s : State) (m : MillId) (f : Sluice → Sluice) : Keeps s (s.onSluice m f) := Keeps.onMill s m _
theorem Keeps.onBolter (s : State) (m : MillId) (f : Bolter → Bolter) : Keeps s (s.onBolter m f) := Keeps.onMill s m _
theorem Keeps.onLog (s : State) (m : MillId) (f : Log → Log) : Keeps s (s.onLog m f) := Keeps.onMill s m _
theorem Keeps.onToll (s : State) (m : MillId) (f : Toll → Toll) : Keeps s (s.onToll m f) := Keeps.onMill s m _
theorem Keeps.onPower (s : State) (m : MillId) (f : Power → Power) : Keeps s (s.onPower m f) := Keeps.onMill s m _

end Sys2Proof.Machine
end

