-- ==== Sys2Proof/Laws/KeepsOps.lean ====
section
/-! SUPPORT. What each change of the state made in Machine/Ops, Flags keeps: the queue, the fuses blown, soundness. -/

namespace Sys2Proof.Machine

set_option Elab.async false

set_option linter.unusedTactic false
set_option linter.unreachableTactic false
set_option linter.unusedVariables false

theorem State.setWord_keeps (s : State) (p : Page) (off : ℕ) (v : W32) :
    Keeps s (State.setWord s p off v) := by
  unfold State.setWord
  repeat' first
    | split
    | extract_lets
    | (with_reducible apply Keeps.of_ite <;> intro _)
    | with_reducible exact Keeps.refl _
    | (with_reducible apply Keeps.of_pair (by assumption))
    | (with_reducible apply Keeps.of_triple (by assumption))
    | (fail_if_no_progress with_reducible refine Keeps.record ?_ rfl rfl rfl rfl rfl rfl rfl)
    | (with_reducible apply Keeps.foldl_via; intro _ _)
    | (fail_if_no_progress dsimp -zeta +zetaDelta only)

theorem State.setWord64_keeps (s : State) (p : Page) (off : ℕ) (v : W64) :
    Keeps s (State.setWord64 s p off v) := by
  unfold State.setWord64
  repeat' first
    | split
    | extract_lets
    | with_reducible apply Keeps.via (State.setWord_keeps ..)
    | (with_reducible apply Keeps.of_ite <;> intro _)
    | with_reducible exact Keeps.refl _
    | (with_reducible apply Keeps.of_pair (by assumption))
    | (with_reducible apply Keeps.of_triple (by assumption))
    | (fail_if_no_progress with_reducible refine Keeps.record ?_ rfl rfl rfl rfl rfl rfl rfl)
    | (with_reducible apply Keeps.foldl_via; intro _ _)
    | (fail_if_no_progress dsimp -zeta +zetaDelta only)

theorem State.takeCode_keeps (s : State) :
    Keeps s (State.takeCode s).2 := by
  unfold State.takeCode
  repeat' first
    | split
    | extract_lets
    | (with_reducible apply Keeps.of_ite <;> intro _)
    | with_reducible exact Keeps.refl _
    | (with_reducible apply Keeps.of_pair (by assumption))
    | (with_reducible apply Keeps.of_triple (by assumption))
    | (fail_if_no_progress with_reducible refine Keeps.record ?_ rfl rfl rfl rfl rfl rfl rfl)
    | (with_reducible apply Keeps.foldl_via; intro _ _)
    | (fail_if_no_progress dsimp -zeta +zetaDelta only)

theorem State.takeCodes_keeps (s : State) (n : Nat) : Keeps s (s.takeCodes n).2 := by
  induction n generalizing s with
  | zero => exact Keeps.refl s
  | succ n ih => exact (State.takeCode_keeps s).trans (ih _)


theorem State.putFld_keeps (s : State) (p : Page) (off : ℕ) (lo : ℕ) (w : ℕ) (v : ℕ) :
    Keeps s (State.putFld s p off lo w v) := by
  unfold State.putFld
  repeat' first
    | split
    | extract_lets
    | with_reducible apply Keeps.via (State.setWord_keeps ..)
    | (with_reducible apply Keeps.of_ite <;> intro _)
    | with_reducible exact Keeps.refl _
    | (with_reducible apply Keeps.of_pair (by assumption))
    | (with_reducible apply Keeps.of_triple (by assumption))
    | (fail_if_no_progress with_reducible refine Keeps.record ?_ rfl rfl rfl rfl rfl rfl rfl)
    | (with_reducible apply Keeps.foldl_via; intro _ _)
    | (fail_if_no_progress dsimp -zeta +zetaDelta only)

theorem State.coded_keeps (s : State) (codes : List Ecc) (f : State → State) (h : ∀ s, Keeps s (f s)) :
    Keeps s (s.coded codes f) :=
  Keeps.record ((Keeps.of_eq rfl rfl rfl rfl rfl rfl rfl : Keeps s { s with codes := codes }).trans (h _)) rfl rfl rfl rfl rfl rfl rfl

theorem State.coded_via {s t : State} {codes : List Ecc} {f : State → State} (h : ∀ s, Keeps s (f s)) (k : Keeps s t) :
    Keeps s (t.coded codes f) := k.trans (State.coded_keeps t codes f h)


theorem State.tally_keeps (s : State) (p : Page) (k : ℕ) (n : ℕ) :
    Keeps s (State.tally s p k n) := by
  unfold State.tally
  repeat' first
    | split
    | extract_lets
    | (with_reducible apply Keeps.of_ite <;> intro _)
    | with_reducible exact Keeps.refl _
    | (with_reducible apply Keeps.of_pair (by assumption))
    | (with_reducible apply Keeps.of_triple (by assumption))
    | (fail_if_no_progress with_reducible refine Keeps.record ?_ rfl rfl rfl rfl rfl rfl rfl)
    | (with_reducible apply Keeps.foldl_via; intro _ _)
    | (fail_if_no_progress dsimp -zeta +zetaDelta only)

theorem State.drawn_keeps (s : State) :
    Keeps s (State.drawn s) := by
  unfold State.drawn
  repeat' first
    | split
    | extract_lets
    | (with_reducible apply Keeps.of_ite <;> intro _)
    | with_reducible exact Keeps.refl _
    | (with_reducible apply Keeps.of_pair (by assumption))
    | (with_reducible apply Keeps.of_triple (by assumption))
    | (fail_if_no_progress with_reducible refine Keeps.record ?_ rfl rfl rfl rfl rfl rfl rfl)
    | (with_reducible apply Keeps.foldl_via; intro _ _)
    | (fail_if_no_progress dsimp -zeta +zetaDelta only)

theorem State.ctrlMsg_keeps (s : State) (m : MillId) (n : ℕ) :
    Keeps s (State.ctrlMsg s m n) := by
  unfold State.ctrlMsg
  repeat' first
    | split
    | extract_lets
    | with_reducible apply Keeps.via (State.tally_keeps ..)
    | (with_reducible apply Keeps.of_ite <;> intro _)
    | with_reducible exact Keeps.refl _
    | (with_reducible apply Keeps.of_pair (by assumption))
    | (with_reducible apply Keeps.of_triple (by assumption))
    | (fail_if_no_progress with_reducible refine Keeps.record ?_ rfl rfl rfl rfl rfl rfl rfl)
    | (with_reducible apply Keeps.foldl_via; intro _ _)
    | (fail_if_no_progress dsimp -zeta +zetaDelta only)

theorem State.toSystem_keeps (s : State) (p : Page) (bit : ℕ) (nmi : Bool) :
    Keeps s (State.toSystem s p bit nmi) := by
  unfold State.toSystem
  repeat' first
    | split
    | extract_lets
    | with_reducible apply Keeps.via (Keeps.onMiller ..)
    | with_reducible apply Keeps.via (State.ctrlMsg_keeps ..)
    | (with_reducible apply Keeps.forAll_via; intro _ _)
    | (with_reducible apply Keeps.of_ite <;> intro _)
    | with_reducible exact Keeps.refl _
    | (with_reducible apply Keeps.of_pair (by assumption))
    | (with_reducible apply Keeps.of_triple (by assumption))
    | (fail_if_no_progress with_reducible refine Keeps.record ?_ rfl rfl rfl rfl rfl rfl rfl)
    | (with_reducible apply Keeps.foldl_via; intro _ _)
    | (fail_if_no_progress dsimp -zeta +zetaDelta only)

theorem State.injected_keeps (s : State) (p : Page) :
    Keeps s (State.injected s p) := by
  unfold State.injected
  repeat' first
    | split
    | extract_lets
    | with_reducible apply Keeps.via (State.setWord_keeps ..)
    | (with_reducible apply Keeps.of_ite <;> intro _)
    | with_reducible exact Keeps.refl _
    | (with_reducible apply Keeps.of_pair (by assumption))
    | (with_reducible apply Keeps.of_triple (by assumption))
    | (fail_if_no_progress with_reducible refine Keeps.record ?_ rfl rfl rfl rfl rfl rfl rfl)
    | (with_reducible apply Keeps.foldl_via; intro _ _)
    | (fail_if_no_progress dsimp -zeta +zetaDelta only)

theorem State.pondFailure_keeps (s : State) (n : ℕ) :
    Keeps s (State.pondFailure s n) := by
  unfold State.pondFailure
  repeat' first
    | split
    | extract_lets
    | with_reducible apply Keeps.via (State.tally_keeps ..)
    | (with_reducible apply Keeps.of_ite <;> intro _)
    | with_reducible exact Keeps.refl _
    | (with_reducible apply Keeps.of_pair (by assumption))
    | (with_reducible apply Keeps.of_triple (by assumption))
    | (fail_if_no_progress with_reducible refine Keeps.record ?_ rfl rfl rfl rfl rfl rfl rfl)
    | (with_reducible apply Keeps.foldl_via; intro _ _)
    | (fail_if_no_progress dsimp -zeta +zetaDelta only)

theorem State.logTrigger_keeps (s : State) (m : MillId) :
    Keeps s (State.logTrigger s m) := by
  unfold State.logTrigger
  repeat' first
    | split
    | extract_lets
    | with_reducible apply Keeps.via (Keeps.onLog ..)
    | with_reducible apply Keeps.via (State.tally_keeps ..)
    | (with_reducible apply Keeps.of_ite <;> intro _)
    | with_reducible exact Keeps.refl _
    | (with_reducible apply Keeps.of_pair (by assumption))
    | (with_reducible apply Keeps.of_triple (by assumption))
    | (fail_if_no_progress with_reducible refine Keeps.record ?_ rfl rfl rfl rfl rfl rfl rfl)
    | (with_reducible apply Keeps.foldl_via; intro _ _)
    | (fail_if_no_progress dsimp -zeta +zetaDelta only)

theorem State.trigOnEvent_keeps (s : State) (m : MillId) (p : Page) (bit : ℕ) :
    Keeps s (State.trigOnEvent s m p bit) := by
  unfold State.trigOnEvent
  repeat' first
    | split
    | extract_lets
    | with_reducible apply Keeps.via (State.logTrigger_keeps ..)
    | (with_reducible apply Keeps.of_ite <;> intro _)
    | with_reducible exact Keeps.refl _
    | (with_reducible apply Keeps.of_pair (by assumption))
    | (with_reducible apply Keeps.of_triple (by assumption))
    | (fail_if_no_progress with_reducible refine Keeps.record ?_ rfl rfl rfl rfl rfl rfl rfl)
    | (with_reducible apply Keeps.foldl_via; intro _ _)
    | (fail_if_no_progress dsimp -zeta +zetaDelta only)

theorem State.hostSend_keeps (s : State) (msg : PcieMsg) :
    Keeps s (State.hostSend s msg) := by
  unfold State.hostSend
  repeat' first
    | split
    | extract_lets
    | with_reducible apply Keeps.via (State.tally_keeps ..)
    | (with_reducible apply Keeps.of_ite <;> intro _)
    | with_reducible exact Keeps.refl _
    | (with_reducible apply Keeps.of_pair (by assumption))
    | (with_reducible apply Keeps.of_triple (by assumption))
    | (fail_if_no_progress with_reducible refine Keeps.record ?_ rfl rfl rfl rfl rfl rfl rfl)
    | (with_reducible apply Keeps.foldl_via; intro _ _)
    | (fail_if_no_progress dsimp -zeta +zetaDelta only)

theorem State.sendMsix_keeps (s : State) (v : ℕ) :
    Keeps s (State.sendMsix s v) := by
  unfold State.sendMsix
  repeat' first
    | split
    | extract_lets
    | with_reducible apply Keeps.via (State.hostSend_keeps ..)
    | (with_reducible apply Keeps.of_ite <;> intro _)
    | with_reducible exact Keeps.refl _
    | (with_reducible apply Keeps.of_pair (by assumption))
    | (with_reducible apply Keeps.of_triple (by assumption))
    | (fail_if_no_progress with_reducible refine Keeps.record ?_ rfl rfl rfl rfl rfl rfl rfl)
    | (with_reducible apply Keeps.foldl_via; intro _ _)
    | (fail_if_no_progress dsimp -zeta +zetaDelta only)

theorem State.sendRoute_keeps (s : State) (r : ℕ) :
    Keeps s (State.sendRoute s r) := by
  unfold State.sendRoute
  repeat' first
    | split
    | extract_lets
    | with_reducible apply Keeps.via (State.sendMsix_keeps ..)
    | (with_reducible apply Keeps.of_ite <;> intro _)
    | with_reducible exact Keeps.refl _
    | (with_reducible apply Keeps.of_pair (by assumption))
    | (with_reducible apply Keeps.of_triple (by assumption))
    | (fail_if_no_progress with_reducible refine Keeps.record ?_ rfl rfl rfl rfl rfl rfl rfl)
    | (with_reducible apply Keeps.foldl_via; intro _ _)
    | (fail_if_no_progress dsimp -zeta +zetaDelta only)

theorem State.fifoFull_keeps (s : State) :
    Keeps s (State.fifoFull s) := by
  unfold State.fifoFull
  repeat' first
    | split
    | extract_lets
    | with_reducible apply Keeps.via (State.putFld_keeps ..)
    | with_reducible apply Keeps.via (State.sendRoute_keeps ..)
    | with_reducible apply Keeps.via (State.tally_keeps ..)
    | with_reducible apply Keeps.via (State.toSystem_keeps ..)
    | with_reducible apply Keeps.via (State.trigOnEvent_keeps ..)
    | (with_reducible apply Keeps.of_ite <;> intro _)
    | with_reducible exact Keeps.refl _
    | (with_reducible apply Keeps.of_pair (by assumption))
    | (with_reducible apply Keeps.of_triple (by assumption))
    | (fail_if_no_progress with_reducible refine Keeps.record ?_ rfl rfl rfl rfl rfl rfl rfl)
    | (with_reducible apply Keeps.foldl_via; intro _ _)
    | (fail_if_no_progress dsimp -zeta +zetaDelta only)

theorem State.toHost_keeps (s : State) (p : Page) (bit : ℕ) :
    Keeps s (State.toHost s p bit) := by
  unfold State.toHost
  split
  · exact Keeps.refl s
  · split
    · extract_lets e s1
      refine Keeps.trans ?_ (State.sendRoute_keeps _ _)
      clear_value e
      change Keeps s (ite _ _ _)
      split
      · rename_i h
        refine Keeps.trans (t := { s with host := { s.host with fifo := s.host.fifo ++ [e] } }) ?_ (State.tally_keeps _ _ _ _)
        refine ⟨rfl, ⟨rfl, rfl, rfl, rfl, Nat.le_refl _, Nat.le_refl _⟩, fun w => ⟨w.1, w.2.1, w.2.2.1, w.2.2.2.1, ?_⟩⟩
        simp only [List.length_append, List.length_singleton]
        omega
      · exact State.fifoFull_keeps s
    · exact Keeps.refl s

theorem State.deliver_keeps (s : State) (p : Page) (bit : ℕ) :
    Keeps s (State.deliver s p bit) := by
  unfold State.deliver
  repeat' first
    | split
    | extract_lets
    | with_reducible apply Keeps.via (State.toHost_keeps ..)
    | with_reducible apply Keeps.via (State.toSystem_keeps ..)
    | (with_reducible apply Keeps.of_ite <;> intro _)
    | with_reducible exact Keeps.refl _
    | (with_reducible apply Keeps.of_pair (by assumption))
    | (with_reducible apply Keeps.of_triple (by assumption))
    | (fail_if_no_progress with_reducible refine Keeps.record ?_ rfl rfl rfl rfl rfl rfl rfl)
    | (with_reducible apply Keeps.foldl_via; intro _ _)
    | (fail_if_no_progress dsimp -zeta +zetaDelta only)

theorem State.setGen_keeps (s : State) (p : Page) :
    Keeps s (State.setGen s p) := by
  unfold State.setGen
  repeat' first
    | split
    | extract_lets
    | with_reducible apply Keeps.via (State.setWord_keeps ..)
    | with_reducible apply Keeps.via (State.tally_keeps ..)
    | (with_reducible apply Keeps.of_ite <;> intro _)
    | with_reducible exact Keeps.refl _
    | (with_reducible apply Keeps.of_pair (by assumption))
    | (with_reducible apply Keeps.of_triple (by assumption))
    | (fail_if_no_progress with_reducible refine Keeps.record ?_ rfl rfl rfl rfl rfl rfl rfl)
    | (with_reducible apply Keeps.foldl_via; intro _ _)
    | (fail_if_no_progress dsimp -zeta +zetaDelta only)

theorem State.storeWord64_keeps (s : State) (p : Page) (off : ℕ) (v : W64) :
    Keeps s (State.storeWord64 s p off v) := by
  unfold State.storeWord64
  extract_lets b t
  have h : Keeps s t := State.setWord64_keeps s p off v
  split
  · exact h.trans (State.setGen_keeps _ _)
  · exact h

theorem State.record_keeps (s : State) (p : Page) (off : Nat) (fill : State → State) (h : ∀ s, Keeps s (fill s)) :
    Keeps s (s.record p off fill) := by
  unfold State.record
  split
  · exact Keeps.refl s
  · exact (h s).trans (State.putFld_keeps _ _ _ _ _ _)

theorem State.record_via {s t : State} {p : Page} {off : Nat} {fill : State → State} (h : ∀ s, Keeps s (fill s)) (k : Keeps s t) :
    Keeps s (t.record p off fill) := k.trans (State.record_keeps t p off fill h)


theorem State.raise_keeps (s : State) (p : Page) (bit : ℕ) :
    Keeps s (State.raise s p bit) := by
  unfold State.raise
  repeat' first
    | split
    | extract_lets
    | with_reducible apply Keeps.via (State.deliver_keeps ..)
    | with_reducible apply Keeps.via (State.putFld_keeps ..)
    | with_reducible apply Keeps.via (State.toSystem_keeps ..)
    | with_reducible apply Keeps.via (State.trigOnEvent_keeps ..)
    | (with_reducible apply Keeps.of_ite <;> intro _)
    | with_reducible exact Keeps.refl _
    | (with_reducible apply Keeps.of_pair (by assumption))
    | (with_reducible apply Keeps.of_triple (by assumption))
    | (fail_if_no_progress with_reducible refine Keeps.record ?_ rfl rfl rfl rfl rfl rfl rfl)
    | (with_reducible apply Keeps.foldl_via; intro _ _)
    | (fail_if_no_progress dsimp -zeta +zetaDelta only)

theorem State.accessErr_keeps (s : State) (p : Path) (off : ℕ) (write : Bool) (data : W32) (c : AccCause) :
    Keeps s (State.accessErr s p off write data c) := by
  unfold State.accessErr
  extract_lets t u
  split
  · exact Keeps.refl s
  · refine ((State.tally_keeps s .directory 0 1).trans (State.record_keeps t _ _ _ fun x => ?_)).trans (State.raise_keeps u _ _)
    exact Keeps.of_eq rfl rfl rfl rfl rfl rfl rfl

theorem State.injectedTimed_keeps (s : State) (p : Page) :
    Keeps s (State.injectedTimed s p) := by
  unfold State.injectedTimed
  repeat' first
    | split
    | extract_lets
    | with_reducible apply Keeps.via (State.setWord_keeps ..)
    | (with_reducible apply Keeps.of_ite <;> intro _)
    | with_reducible exact Keeps.refl _
    | (with_reducible apply Keeps.of_pair (by assumption))
    | (with_reducible apply Keeps.of_triple (by assumption))
    | (fail_if_no_progress with_reducible refine Keeps.record ?_ rfl rfl rfl rfl rfl rfl rfl)
    | (with_reducible apply Keeps.foldl_via; intro _ _)
    | (fail_if_no_progress dsimp -zeta +zetaDelta only)

theorem State.claimBusy_keeps (s : State) (page : Page) (code : ℕ) (holder : ℕ) (path : ℕ) :
    Keeps s (State.claimBusy s page code holder path) := by
  unfold State.claimBusy
  extract_lets t u
  refine ((State.tally_keeps s .directory 1 1).trans (State.record_keeps t _ _ _ fun x => ?_)).trans (State.raise_keeps u _ _)
  exact Keeps.of_eq rfl rfl rfl rfl rfl rfl rfl

theorem State.takeInj_keeps (s : State) (p : Page) (code : ℕ) :
    Keeps s (State.takeInj s p code).2 := by
  unfold State.takeInj
  repeat' first
    | split
    | extract_lets
    | with_reducible apply Keeps.via (State.injected_keeps ..)
    | (with_reducible apply Keeps.of_ite <;> intro _)
    | with_reducible exact Keeps.refl _
    | (with_reducible apply Keeps.of_pair (by assumption))
    | (with_reducible apply Keeps.of_triple (by assumption))
    | (fail_if_no_progress with_reducible refine Keeps.record ?_ rfl rfl rfl rfl rfl rfl rfl)
    | (with_reducible apply Keeps.foldl_via; intro _ _)
    | (fail_if_no_progress dsimp -zeta +zetaDelta only)

theorem State.storeWord_keeps (s : State) (p : Page) (off : ℕ) (w : W32) :
    Keeps s (State.storeWord s p off w) := by
  unfold State.storeWord
  repeat' first
    | split
    | extract_lets
    | with_reducible apply Keeps.via (State.setGen_keeps ..)
    | with_reducible apply Keeps.via (State.setWord_keeps ..)
    | (with_reducible apply Keeps.of_ite <;> intro _)
    | with_reducible exact Keeps.refl _
    | (with_reducible apply Keeps.of_pair (by assumption))
    | (with_reducible apply Keeps.of_triple (by assumption))
    | (fail_if_no_progress with_reducible refine Keeps.record ?_ rfl rfl rfl rfl rfl rfl rfl)
    | (with_reducible apply Keeps.foldl_via; intro _ _)
    | (fail_if_no_progress dsimp -zeta +zetaDelta only)

theorem State.takeInjAt_keeps (s : State) (p : Page) (code : ℕ) (target : ℕ) :
    Keeps s (State.takeInjAt s p code target).2 := by
  unfold State.takeInjAt
  repeat' first
    | split
    | extract_lets
    | with_reducible apply Keeps.via (State.injected_keeps ..)
    | (with_reducible apply Keeps.of_ite <;> intro _)
    | with_reducible exact Keeps.refl _
    | (with_reducible apply Keeps.of_pair (by assumption))
    | (with_reducible apply Keeps.of_triple (by assumption))
    | (fail_if_no_progress with_reducible refine Keeps.record ?_ rfl rfl rfl rfl rfl rfl rfl)
    | (with_reducible apply Keeps.foldl_via; intro _ _)
    | (fail_if_no_progress dsimp -zeta +zetaDelta only)

end Sys2Proof.Machine
end

