-- ==== Sys2Proof/Laws/KeepsHistory.lean ====
section
/-! SUPPORT. What each change of the state made in Machine/History, Nodes, Memory, Ledger, Floor, Watch keeps: the
queue, the fuses blown, soundness. -/

namespace Sys2Proof.Machine

set_option Elab.async false

set_option linter.unusedTactic false
set_option linter.unreachableTactic false
set_option linter.unusedVariables false

theorem State.retireUnit_keeps (s : State) (u : ℕ × ℕ) :
    Keeps s (State.retireUnit s u) := by
  unfold State.retireUnit
  repeat' first
    | split
    | extract_lets
    | (with_reducible apply Keeps.of_ite <;> intro _)
    | with_reducible exact Keeps.refl _
    | (with_reducible apply Keeps.of_pair (by assumption))
    | (with_reducible apply Keeps.of_triple (by assumption))
    | (fail_if_no_progress with_reducible refine Keeps.record ?_ rfl rfl rfl rfl rfl rfl rfl)
    | (with_reducible apply Keeps.foldl_via; intro _ _)
    | (fail_if_no_progress dsimp -zeta +zetaDelta only)

theorem State.repairRow_keeps (s : State) (m : MillId) (n : Fin 24) (prow : ℕ) :
    Keeps s (State.repairRow s m n prow) := by
  unfold State.repairRow
  repeat' first
    | split
    | extract_lets
    | with_reducible apply Keeps.via (Keeps.onStone ..)
    | with_reducible apply Keeps.via (State.putFld_keeps ..)
    | with_reducible apply Keeps.via (State.raise_keeps ..)
    | with_reducible apply Keeps.via (State.retireUnit_keeps ..)
    | (with_reducible apply Keeps.of_ite <;> intro _)
    | with_reducible exact Keeps.refl _
    | (with_reducible apply Keeps.of_pair (by assumption))
    | (with_reducible apply Keeps.of_triple (by assumption))
    | (fail_if_no_progress with_reducible refine Keeps.record ?_ rfl rfl rfl rfl rfl rfl rfl)
    | (with_reducible apply Keeps.foldl_via; intro _ _)
    | (fail_if_no_progress dsimp -zeta +zetaDelta only)

theorem State.historyRoom_keeps (s : State) (step : ℕ) :
    Keeps s (State.historyRoom s step) := by
  unfold State.historyRoom
  repeat' first
    | split
    | extract_lets
    | with_reducible apply Keeps.via (State.tally_keeps ..)
    | (with_reducible apply Keeps.of_ite <;> intro _)
    | with_reducible exact Keeps.refl _
    | (with_reducible apply Keeps.of_pair (by assumption))
    | (with_reducible apply Keeps.of_triple (by assumption))
    | (fail_if_no_progress with_reducible refine Keeps.record ?_ rfl rfl rfl rfl rfl rfl rfl)
    | (with_reducible apply Keeps.foldl_via; intro _ _)
    | (fail_if_no_progress dsimp -zeta +zetaDelta only)

theorem State.retireByClass_keeps (s : State) (u : ℕ × ℕ) :
    Keeps s (State.retireByClass s u) := by
  unfold State.retireByClass
  repeat' first
    | split
    | extract_lets
    | with_reducible apply Keeps.via (State.repairRow_keeps ..)
    | with_reducible apply Keeps.via (State.retireUnit_keeps ..)
    | (with_reducible apply Keeps.of_ite <;> intro _)
    | with_reducible exact Keeps.refl _
    | (with_reducible apply Keeps.of_pair (by assumption))
    | (with_reducible apply Keeps.of_triple (by assumption))
    | (fail_if_no_progress with_reducible refine Keeps.record ?_ rfl rfl rfl rfl rfl rfl rfl)
    | (with_reducible apply Keeps.foldl_via; intro _ _)
    | (fail_if_no_progress dsimp -zeta +zetaDelta only)

theorem State.histWrite_keeps (s : State) (r : HistRec) (injected : Bool) :
    Keeps s (State.histWrite s r injected) := by
  unfold State.histWrite
  repeat' first
    | split
    | extract_lets
    | with_reducible apply Keeps.via (State.historyRoom_keeps ..)
    | with_reducible apply Keeps.via (State.takeInj_keeps ..)
    | with_reducible apply Keeps.via (State.tally_keeps ..)
    | (with_reducible apply Keeps.of_ite <;> intro _)
    | with_reducible exact Keeps.refl _
    | (with_reducible apply Keeps.of_pair (by assumption))
    | (with_reducible apply Keeps.of_triple (by assumption))
    | (fail_if_no_progress with_reducible refine Keeps.record ?_ rfl rfl rfl rfl rfl rfl rfl)
    | (with_reducible apply Keeps.foldl_via; intro _ _)
    | (fail_if_no_progress dsimp -zeta +zetaDelta only)

theorem State.classify_keeps (s : State) (seq : W32) :
    Keeps s (State.classify s seq) := by
  unfold State.classify
  repeat' first
    | split
    | extract_lets
    | with_reducible apply Keeps.via (State.retireByClass_keeps ..)
    | (with_reducible apply Keeps.forAll_via; intro _ _)
    | (with_reducible apply Keeps.of_ite <;> intro _)
    | with_reducible exact Keeps.refl _
    | (with_reducible apply Keeps.of_pair (by assumption))
    | (with_reducible apply Keeps.of_triple (by assumption))
    | (fail_if_no_progress with_reducible refine Keeps.record ?_ rfl rfl rfl rfl rfl rfl rfl)
    | (with_reducible apply Keeps.foldl_via; intro _ _)
    | (fail_if_no_progress dsimp -zeta +zetaDelta only)

theorem State.histPending_keeps (s : State) (m : MillId) (u : ℕ × ℕ) (det : ℕ) (opdig : W64) (injected : Bool) :
    Keeps s (State.histPending s m u det opdig injected) := by
  unfold State.histPending
  repeat' first
    | split
    | extract_lets
    | with_reducible apply Keeps.via (State.histWrite_keeps ..)
    | (with_reducible apply Keeps.of_ite <;> intro _)
    | with_reducible exact Keeps.refl _
    | (with_reducible apply Keeps.of_pair (by assumption))
    | (with_reducible apply Keeps.of_triple (by assumption))
    | (fail_if_no_progress with_reducible refine Keeps.record ?_ rfl rfl rfl rfl rfl rfl rfl)
    | (with_reducible apply Keeps.foldl_via; intro _ _)
    | (fail_if_no_progress dsimp -zeta +zetaDelta only)

theorem State.report_keeps (s : State) (m : MillId) (f : FaultInfo) :
    Keeps s (State.report s m f) := by
  unfold State.report
  repeat' first
    | split
    | extract_lets
    | with_reducible apply Keeps.via (Keeps.onMiller ..)
    | with_reducible apply Keeps.via (State.histPending_keeps ..)
    | (with_reducible apply Keeps.of_ite <;> intro _)
    | with_reducible exact Keeps.refl _
    | (with_reducible apply Keeps.of_pair (by assumption))
    | (with_reducible apply Keeps.of_triple (by assumption))
    | (fail_if_no_progress with_reducible refine Keeps.record ?_ rfl rfl rfl rfl rfl rfl rfl)
    | (with_reducible apply Keeps.foldl_via; intro _ _)
    | (fail_if_no_progress dsimp -zeta +zetaDelta only)

theorem State.classFour_keeps (s : State) (seq : W32) (u : ℕ × ℕ) :
    Keeps s (State.classFour s seq u) := by
  unfold State.classFour
  repeat' first
    | split
    | extract_lets
    | (with_reducible apply Keeps.of_ite <;> intro _)
    | with_reducible exact Keeps.refl _
    | (with_reducible apply Keeps.of_pair (by assumption))
    | (with_reducible apply Keeps.of_triple (by assumption))
    | (fail_if_no_progress with_reducible refine Keeps.record ?_ rfl rfl rfl rfl rfl rfl rfl)
    | (with_reducible apply Keeps.foldl_via; intro _ _)
    | (fail_if_no_progress dsimp -zeta +zetaDelta only)

theorem State.onFloor_keeps (s : State) (m : MillId) (f : Floor → Floor) :
    Keeps s (State.onFloor s m f) := by
  unfold State.onFloor
  repeat' first
    | split
    | extract_lets
    | with_reducible apply Keeps.via (Keeps.onMill ..)
    | (with_reducible apply Keeps.of_ite <;> intro _)
    | with_reducible exact Keeps.refl _
    | (with_reducible apply Keeps.of_pair (by assumption))
    | (with_reducible apply Keeps.of_triple (by assumption))
    | (fail_if_no_progress with_reducible refine Keeps.record ?_ rfl rfl rfl rfl rfl rfl rfl)
    | (with_reducible apply Keeps.foldl_via; intro _ _)
    | (fail_if_no_progress dsimp -zeta +zetaDelta only)

theorem State.flitAt_keeps (s : State) (m : MillId) (f : FloorFlit) :
    Keeps s (State.flitAt s m f) := by
  unfold State.flitAt
  repeat' first
    | split
    | extract_lets
    | with_reducible apply Keeps.via (Keeps.onMill ..)
    | with_reducible apply Keeps.via (State.onFloor_keeps ..)
    | (with_reducible apply Keeps.of_ite <;> intro _)
    | with_reducible exact Keeps.refl _
    | (with_reducible apply Keeps.of_pair (by assumption))
    | (with_reducible apply Keeps.of_triple (by assumption))
    | (fail_if_no_progress with_reducible refine Keeps.record ?_ rfl rfl rfl rfl rfl rfl rfl)
    | (with_reducible apply Keeps.foldl_via; intro _ _)
    | (fail_if_no_progress dsimp -zeta +zetaDelta only)

theorem State.floorSend_keeps (s : State) (m : MillId) (x : FloorSource) (src : MillId × ℕ × ℕ) (dst : MillId × ℕ × ℕ) (addr : ℕ) (n : ℕ) :
    Keeps s (State.floorSend s m x src dst addr n) := by
  unfold State.floorSend
  repeat' first
    | split
    | extract_lets
    | with_reducible apply Keeps.via (State.flitAt_keeps ..)
    | (with_reducible apply Keeps.forAll_via; intro _ _)
    | (with_reducible apply Keeps.of_ite <;> intro _)
    | with_reducible exact Keeps.refl _
    | (with_reducible apply Keeps.of_pair (by assumption))
    | (with_reducible apply Keeps.of_triple (by assumption))
    | (fail_if_no_progress with_reducible refine Keeps.record ?_ rfl rfl rfl rfl rfl rfl rfl)
    | (with_reducible apply Keeps.foldl_via; intro _ _)
    | (fail_if_no_progress dsimp -zeta +zetaDelta only)

theorem State.dropLine_keeps (s : State) (line : ℕ) :
    Keeps s (State.dropLine s line) := by
  unfold State.dropLine
  repeat' first
    | split
    | extract_lets
    | with_reducible apply Keeps.via (Keeps.onSluice ..)
    | with_reducible apply Keeps.via (State.tally_keeps ..)
    | (with_reducible apply Keeps.of_ite <;> intro _)
    | with_reducible exact Keeps.refl _
    | (with_reducible apply Keeps.of_pair (by assumption))
    | (with_reducible apply Keeps.of_triple (by assumption))
    | (fail_if_no_progress with_reducible refine Keeps.record ?_ rfl rfl rfl rfl rfl rfl rfl)
    | (with_reducible apply Keeps.foldl_via; intro _ _)
    | (fail_if_no_progress dsimp -zeta +zetaDelta only)

theorem State.rawWrite_keeps (s : State) (a : ℕ) (bs : List Byte) :
    Keeps s (State.rawWrite s a bs) := by
  unfold State.rawWrite
  split
  · exact Keeps.refl s
  · exact (Keeps.physical _ fun h => Memory.wf_writeBytes _ _ h).trans (Keeps.forAll _ _ fun _ _ => State.dropLine_keeps _ _)

theorem State.physWrite_keeps (s : State) (a : ℕ) (bs : List Byte) :
    Keeps s (State.physWrite s a bs) := by
  unfold State.physWrite
  repeat' first
    | split
    | extract_lets
    | with_reducible apply Keeps.via (Keeps.onMill ..)
    | with_reducible apply Keeps.via (State.rawWrite_keeps ..)
    | (with_reducible apply Keeps.of_ite <;> intro _)
    | with_reducible exact Keeps.refl _
    | (with_reducible apply Keeps.of_pair (by assumption))
    | (with_reducible apply Keeps.of_triple (by assumption))
    | (fail_if_no_progress with_reducible refine Keeps.record ?_ rfl rfl rfl rfl rfl rfl rfl)
    | (with_reducible apply Keeps.foldl_via; intro _ _)
    | (fail_if_no_progress dsimp -zeta +zetaDelta only)

theorem State.pokePart_keeps (s : State) (m : MillId) (va : ℕ) (bs : List Byte) :
    Keeps s (State.pokePart s m va bs) := by
  unfold State.pokePart
  repeat' first
    | split
    | extract_lets
    | with_reducible apply Keeps.via (State.physWrite_keeps ..)
    | (with_reducible apply Keeps.of_ite <;> intro _)
    | with_reducible exact Keeps.refl _
    | (with_reducible apply Keeps.of_pair (by assumption))
    | (with_reducible apply Keeps.of_triple (by assumption))
    | (fail_if_no_progress with_reducible refine Keeps.record ?_ rfl rfl rfl rfl rfl rfl rfl)
    | (with_reducible apply Keeps.foldl_via; intro _ _)
    | (fail_if_no_progress dsimp -zeta +zetaDelta only)

theorem State.post_keeps (s : State) (m : MillId) (c : Ctx) (ctr : ℕ) (n : ℕ) :
    Keeps s (State.post s m c ctr n) := by
  unfold State.post
  repeat' first
    | split
    | extract_lets
    | with_reducible apply Keeps.via (Keeps.onMiller ..)
    | (with_reducible apply Keeps.of_ite <;> intro _)
    | with_reducible exact Keeps.refl _
    | (with_reducible apply Keeps.of_pair (by assumption))
    | (with_reducible apply Keeps.of_triple (by assumption))
    | (fail_if_no_progress with_reducible refine Keeps.record ?_ rfl rfl rfl rfl rfl rfl rfl)
    | (with_reducible apply Keeps.foldl_via; intro _ _)
    | (fail_if_no_progress dsimp -zeta +zetaDelta only)

theorem State.memHistory_keeps (s : State) (m : MillId) (a : ℕ) (injected : Bool) :
    Keeps s (State.memHistory s m a injected) := by
  unfold State.memHistory
  repeat' first
    | split
    | extract_lets
    | with_reducible apply Keeps.via (State.histPending_keeps ..)
    | (with_reducible apply Keeps.of_ite <;> intro _)
    | with_reducible exact Keeps.refl _
    | (with_reducible apply Keeps.of_pair (by assumption))
    | (with_reducible apply Keeps.of_triple (by assumption))
    | (fail_if_no_progress with_reducible refine Keeps.record ?_ rfl rfl rfl rfl rfl rfl rfl)
    | (with_reducible apply Keeps.foldl_via; intro _ _)
    | (fail_if_no_progress dsimp -zeta +zetaDelta only)

theorem State.errRecord_keeps (s : State) (port : PortRef) (a : ℕ) (kind : ℕ) (device : ℕ) (seq : W32) :
    Keeps s (State.errRecord s port a kind device seq) := by
  unfold State.errRecord
  repeat' first
    | split
    | extract_lets
    | with_reducible apply Keeps.via (State.setWord64_keeps ..)
    | with_reducible apply Keeps.via (State.setWord_keeps ..)
    | (with_reducible apply Keeps.of_ite <;> intro _)
    | with_reducible exact Keeps.refl _
    | (with_reducible apply Keeps.of_pair (by assumption))
    | (with_reducible apply Keeps.of_triple (by assumption))
    | (fail_if_no_progress with_reducible refine Keeps.record ?_ rfl rfl rfl rfl rfl rfl rfl)
    | (with_reducible apply Keeps.foldl_via; intro _ _)
    | (fail_if_no_progress dsimp -zeta +zetaDelta only)

theorem State.badFrame_keeps (s : State) (a : ℕ) (injected : Bool) :
    Keeps s (State.badFrame s a injected) := by
  unfold State.badFrame
  repeat' first
    | split
    | extract_lets
    | with_reducible apply Keeps.via (State.raise_keeps ..)
    | (with_reducible apply State.record_via; intro _)
    | with_reducible apply Keeps.via (State.setWord64_keeps ..)
    | with_reducible apply Keeps.via (State.setWord_keeps ..)
    | with_reducible apply Keeps.via (State.tally_keeps ..)
    | (with_reducible apply Keeps.of_ite <;> intro _)
    | with_reducible exact Keeps.refl _
    | (with_reducible apply Keeps.of_pair (by assumption))
    | (with_reducible apply Keeps.of_triple (by assumption))
    | (fail_if_no_progress with_reducible refine Keeps.record ?_ rfl rfl rfl rfl rfl rfl rfl)
    | (with_reducible apply Keeps.foldl_via; intro _ _)
    | (fail_if_no_progress dsimp -zeta +zetaDelta only)

theorem State.eccUncorrectable_keeps (s : State) (port : PortRef) (a : ℕ) (kind : ℕ) (seq : W32) (injected : Bool) :
    Keeps s (State.eccUncorrectable s port a kind seq injected) := by
  unfold State.eccUncorrectable
  repeat' first
    | split
    | extract_lets
    | with_reducible apply Keeps.via (State.badFrame_keeps ..)
    | with_reducible apply Keeps.via (State.errRecord_keeps ..)
    | with_reducible apply Keeps.via (State.raise_keeps ..)
    | with_reducible apply Keeps.via (State.tally_keeps ..)
    | (with_reducible apply Keeps.of_ite <;> intro _)
    | with_reducible exact Keeps.refl _
    | (with_reducible apply Keeps.of_pair (by assumption))
    | (with_reducible apply Keeps.of_triple (by assumption))
    | (fail_if_no_progress with_reducible refine Keeps.record ?_ rfl rfl rfl rfl rfl rfl rfl)
    | (with_reducible apply Keeps.foldl_via; intro _ _)
    | (fail_if_no_progress dsimp -zeta +zetaDelta only)

theorem State.eccCorrected_keeps (s : State) (port : PortRef) (a : ℕ) (seq : W32) :
    Keeps s (State.eccCorrected s port a seq) := by
  unfold State.eccCorrected
  repeat' first
    | split
    | extract_lets
    | with_reducible apply Keeps.via (State.drawn_keeps ..)
    | with_reducible apply Keeps.via (State.errRecord_keeps ..)
    | with_reducible apply Keeps.via (State.raise_keeps ..)
    | with_reducible apply Keeps.via (State.tally_keeps ..)
    | (with_reducible apply Keeps.of_ite <;> intro _)
    | with_reducible exact Keeps.refl _
    | (with_reducible apply Keeps.of_pair (by assumption))
    | (with_reducible apply Keeps.of_triple (by assumption))
    | (fail_if_no_progress with_reducible refine Keeps.record ?_ rfl rfl rfl rfl rfl rfl rfl)
    | (with_reducible apply Keeps.foldl_via; intro _ _)
    | (fail_if_no_progress dsimp -zeta +zetaDelta only)

theorem State.wordRead_keeps (s : State) (m : MillId) (port : PortRef) (w : ℕ) :
    Keeps s (State.wordRead s m port w).2 := by
  unfold State.wordRead
  repeat' first
    | split
    | extract_lets
    | with_reducible apply Keeps.via (State.eccCorrected_keeps ..)
    | with_reducible apply Keeps.via (State.eccUncorrectable_keeps ..)
    | with_reducible apply Keeps.via (State.memHistory_keeps ..)
    | with_reducible apply Keeps.via (State.takeCode_keeps ..)
    | (with_reducible apply Keeps.of_ite <;> intro _)
    | with_reducible exact Keeps.refl _
    | (with_reducible apply Keeps.of_pair (by assumption))
    | (with_reducible apply Keeps.of_triple (by assumption))
    | (fail_if_no_progress with_reducible refine Keeps.record ?_ rfl rfl rfl rfl rfl rfl rfl)
    | (with_reducible apply Keeps.foldl_via; intro _ _)
    | (fail_if_no_progress dsimp -zeta +zetaDelta only)

theorem State.wordsRead_keeps (s : State) (m : MillId) (port : PortRef) (a3 : List ℕ) :
    Keeps s (State.wordsRead s m port a3).2 := by
  induction a3 generalizing s m port with
  | nil =>
    unfold State.wordsRead
    repeat' first
      | split
      | extract_lets
      | with_reducible apply Keeps.via (State.wordRead_keeps ..)
      | (with_reducible apply Keeps.of_ite <;> intro _)
      | with_reducible exact Keeps.refl _
      | (with_reducible apply Keeps.of_pair (by assumption))
      | (with_reducible apply Keeps.of_triple (by assumption))
      | (fail_if_no_progress with_reducible refine Keeps.record ?_ rfl rfl rfl rfl rfl rfl rfl)
      | (with_reducible apply Keeps.foldl_via; intro _ _)
      | (fail_if_no_progress dsimp -zeta +zetaDelta only)
  | cons x rest ih =>
    unfold State.wordsRead
    repeat' first
      | split
      | extract_lets
      | with_reducible apply Keeps.via (ih ..)
      | with_reducible apply Keeps.via (State.wordRead_keeps ..)
      | (with_reducible apply Keeps.of_ite <;> intro _)
      | with_reducible exact Keeps.refl _
      | (with_reducible apply Keeps.of_pair (by assumption))
      | (with_reducible apply Keeps.of_triple (by assumption))
      | (fail_if_no_progress with_reducible refine Keeps.record ?_ rfl rfl rfl rfl rfl rfl rfl)
      | (with_reducible apply Keeps.foldl_via; intro _ _)
      | (fail_if_no_progress dsimp -zeta +zetaDelta only)

theorem State.codeRead_keeps (s : State) (m : MillId) (port : PortRef) (ws : List ℕ) :
    Keeps s (State.codeRead s m port ws).2 := by
  unfold State.codeRead
  repeat' first
    | split
    | extract_lets
    | with_reducible apply Keeps.via (State.eccCorrected_keeps ..)
    | with_reducible apply Keeps.via (State.eccUncorrectable_keeps ..)
    | with_reducible apply Keeps.via (State.memHistory_keeps ..)
    | with_reducible apply Keeps.via (State.takeInj_keeps ..)
    | with_reducible apply Keeps.via (State.wordsRead_keeps ..)
    | (with_reducible apply Keeps.of_ite <;> intro _)
    | with_reducible exact Keeps.refl _
    | (with_reducible apply Keeps.of_pair (by assumption))
    | (with_reducible apply Keeps.of_triple (by assumption))
    | (fail_if_no_progress with_reducible refine Keeps.record ?_ rfl rfl rfl rfl rfl rfl rfl)
    | (with_reducible apply Keeps.foldl_via; intro _ _)
    | (fail_if_no_progress dsimp -zeta +zetaDelta only)

theorem State.portRead_keeps (s : State) (m : MillId) (a : ℕ) (n : ℕ) :
    Keeps s (State.portRead s m a n).2 := by
  unfold State.portRead
  repeat' first
    | split
    | extract_lets
    | with_reducible apply Keeps.via (State.codeRead_keeps ..)
    | with_reducible apply Keeps.via (State.tally_keeps ..)
    | (with_reducible apply Keeps.of_ite <;> intro _)
    | with_reducible exact Keeps.refl _
    | (with_reducible apply Keeps.of_pair (by assumption))
    | (with_reducible apply Keeps.of_triple (by assumption))
    | (fail_if_no_progress with_reducible refine Keeps.record ?_ rfl rfl rfl rfl rfl rfl rfl)
    | (with_reducible apply Keeps.foldl_via; intro _ _)
    | (fail_if_no_progress dsimp -zeta +zetaDelta only)

theorem State.readParts_keeps (s : State) (m : MillId) (a2 : List (ℕ × ℕ)) :
    Keeps s (State.readParts s m a2).2 := by
  induction a2 generalizing s m with
  | nil =>
    unfold State.readParts
    repeat' first
      | split
      | extract_lets
      | with_reducible apply Keeps.via (State.portRead_keeps ..)
      | (with_reducible apply Keeps.of_ite <;> intro _)
      | with_reducible exact Keeps.refl _
      | (with_reducible apply Keeps.of_pair (by assumption))
      | (with_reducible apply Keeps.of_triple (by assumption))
      | (fail_if_no_progress with_reducible refine Keeps.record ?_ rfl rfl rfl rfl rfl rfl rfl)
      | (with_reducible apply Keeps.foldl_via; intro _ _)
      | (fail_if_no_progress dsimp -zeta +zetaDelta only)
  | cons x rest ih =>
    obtain ⟨x, y⟩ := x
    unfold State.readParts
    repeat' first
      | split
      | extract_lets
      | with_reducible apply Keeps.via (ih ..)
      | with_reducible apply Keeps.via (State.portRead_keeps ..)
      | (with_reducible apply Keeps.of_ite <;> intro _)
      | with_reducible exact Keeps.refl _
      | (with_reducible apply Keeps.of_pair (by assumption))
      | (with_reducible apply Keeps.of_triple (by assumption))
      | (fail_if_no_progress with_reducible refine Keeps.record ?_ rfl rfl rfl rfl rfl rfl rfl)
      | (with_reducible apply Keeps.foldl_via; intro _ _)
      | (fail_if_no_progress dsimp -zeta +zetaDelta only)

theorem State.readRun_keeps (s : State) (m : MillId) (a : ℕ) (n : ℕ) :
    Keeps s (State.readRun s m a n).2 := by
  unfold State.readRun
  repeat' first
    | split
    | extract_lets
    | with_reducible apply Keeps.via (State.readParts_keeps ..)
    | (with_reducible apply Keeps.of_ite <;> intro _)
    | with_reducible exact Keeps.refl _
    | (with_reducible apply Keeps.of_pair (by assumption))
    | (with_reducible apply Keeps.of_triple (by assumption))
    | (fail_if_no_progress with_reducible refine Keeps.record ?_ rfl rfl rfl rfl rfl rfl rfl)
    | (with_reducible apply Keeps.foldl_via; intro _ _)
    | (fail_if_no_progress dsimp -zeta +zetaDelta only)

theorem State.leafUse_keeps (s : State) (m : MillId) (va : ℕ) (ea : ℕ) (write : Bool) (e : TlbEntry) :
    Keeps s (State.leafUse s m va ea write e).2 := by
  unfold State.leafUse
  repeat' first
    | split
    | extract_lets
    | with_reducible apply Keeps.via (Keeps.onSluice ..)
    | with_reducible apply Keeps.via (State.physWrite_keeps ..)
    | (with_reducible apply Keeps.of_ite <;> intro _)
    | with_reducible exact Keeps.refl _
    | (with_reducible apply Keeps.of_pair (by assumption))
    | (with_reducible apply Keeps.of_triple (by assumption))
    | (fail_if_no_progress with_reducible refine Keeps.record ?_ rfl rfl rfl rfl rfl rfl rfl)
    | (with_reducible apply Keeps.foldl_via; intro _ _)
    | (fail_if_no_progress dsimp -zeta +zetaDelta only)

theorem State.leafRead_keeps (s : State) (m : MillId) (va : ℕ) (ea : ℕ) (write : Bool) :
    Keeps s (State.leafRead s m va ea write).2 := by
  unfold State.leafRead
  repeat' first
    | split
    | extract_lets
    | with_reducible apply Keeps.via (State.leafUse_keeps ..)
    | (with_reducible apply Keeps.of_ite <;> intro _)
    | with_reducible exact Keeps.refl _
    | (with_reducible apply Keeps.of_pair (by assumption))
    | (with_reducible apply Keeps.of_triple (by assumption))
    | (fail_if_no_progress with_reducible refine Keeps.record ?_ rfl rfl rfl rfl rfl rfl rfl)
    | (with_reducible apply Keeps.foldl_via; intro _ _)
    | (fail_if_no_progress dsimp -zeta +zetaDelta only)

theorem State.walk_keeps (s : State) (m : MillId) (va : ℕ) (write : Bool) :
    Keeps s (State.walk s m va write).2 := by
  unfold State.walk
  repeat' first
    | split
    | extract_lets
    | with_reducible apply Keeps.via (State.leafRead_keeps ..)
    | with_reducible apply Keeps.via (State.portRead_keeps ..)
    | with_reducible apply Keeps.via (State.tally_keeps ..)
    | (with_reducible apply Keeps.of_ite <;> intro _)
    | with_reducible exact Keeps.refl _
    | (with_reducible apply Keeps.of_pair (by assumption))
    | (with_reducible apply Keeps.of_triple (by assumption))
    | (fail_if_no_progress with_reducible refine Keeps.record ?_ rfl rfl rfl rfl rfl rfl rfl)
    | (with_reducible apply Keeps.foldl_via; intro _ _)
    | (fail_if_no_progress dsimp -zeta +zetaDelta only)

theorem State.translate_keeps (s : State) (m : MillId) (va : ℕ) (write : Bool) :
    Keeps s (State.translate s m va write).2 := by
  unfold State.translate
  repeat' first
    | split
    | extract_lets
    | with_reducible apply Keeps.via (State.tally_keeps ..)
    | with_reducible apply Keeps.via (State.walk_keeps ..)
    | (with_reducible apply Keeps.of_ite <;> intro _)
    | with_reducible exact Keeps.refl _
    | (with_reducible apply Keeps.of_pair (by assumption))
    | (with_reducible apply Keeps.of_triple (by assumption))
    | (fail_if_no_progress with_reducible refine Keeps.record ?_ rfl rfl rfl rfl rfl rfl rfl)
    | (with_reducible apply Keeps.foldl_via; intro _ _)
    | (fail_if_no_progress dsimp -zeta +zetaDelta only)

theorem State.translateParts_keeps (s : State) (m : MillId) (write : Bool) (a3 : List (ℕ × ℕ)) :
    Keeps s (State.translateParts s m write a3).2 := by
  induction a3 generalizing s m write with
  | nil =>
    unfold State.translateParts
    repeat' first
      | split
      | extract_lets
      | with_reducible apply Keeps.via (State.translate_keeps ..)
      | (with_reducible apply Keeps.of_ite <;> intro _)
      | with_reducible exact Keeps.refl _
      | (with_reducible apply Keeps.of_pair (by assumption))
      | (with_reducible apply Keeps.of_triple (by assumption))
      | (fail_if_no_progress with_reducible refine Keeps.record ?_ rfl rfl rfl rfl rfl rfl rfl)
      | (with_reducible apply Keeps.foldl_via; intro _ _)
      | (fail_if_no_progress dsimp -zeta +zetaDelta only)
  | cons x rest ih =>
    obtain ⟨x, y⟩ := x
    unfold State.translateParts
    repeat' first
      | split
      | extract_lets
      | with_reducible apply Keeps.via (ih ..)
      | with_reducible apply Keeps.via (State.translate_keeps ..)
      | (with_reducible apply Keeps.of_ite <;> intro _)
      | with_reducible exact Keeps.refl _
      | (with_reducible apply Keeps.of_pair (by assumption))
      | (with_reducible apply Keeps.of_triple (by assumption))
      | (fail_if_no_progress with_reducible refine Keeps.record ?_ rfl rfl rfl rfl rfl rfl rfl)
      | (with_reducible apply Keeps.foldl_via; intro _ _)
      | (fail_if_no_progress dsimp -zeta +zetaDelta only)

theorem State.translateRange_keeps (s : State) (m : MillId) (va : ℕ) (n : ℕ) (write : Bool) :
    Keeps s (State.translateRange s m va n write).2 := by
  unfold State.translateRange
  repeat' first
    | split
    | extract_lets
    | with_reducible apply Keeps.via (State.translateParts_keeps ..)
    | (with_reducible apply Keeps.of_ite <;> intro _)
    | with_reducible exact Keeps.refl _
    | (with_reducible apply Keeps.of_pair (by assumption))
    | (with_reducible apply Keeps.of_triple (by assumption))
    | (fail_if_no_progress with_reducible refine Keeps.record ?_ rfl rfl rfl rfl rfl rfl rfl)
    | (with_reducible apply Keeps.foldl_via; intro _ _)
    | (fail_if_no_progress dsimp -zeta +zetaDelta only)

theorem State.moverSend_keeps (s : State) (m : MillId) (v : Option Mover) (a : ℕ) (n : ℕ) (write : Bool) :
    Keeps s (State.moverSend s m v a n write) := by
  unfold State.moverSend
  repeat' first
    | split
    | extract_lets
    | with_reducible apply Keeps.via (State.floorSend_keeps ..)
    | (with_reducible apply Keeps.of_ite <;> intro _)
    | with_reducible exact Keeps.refl _
    | (with_reducible apply Keeps.of_pair (by assumption))
    | (with_reducible apply Keeps.of_triple (by assumption))
    | (fail_if_no_progress with_reducible refine Keeps.record ?_ rfl rfl rfl rfl rfl rfl rfl)
    | (with_reducible apply Keeps.foldl_via; intro _ _)
    | (fail_if_no_progress dsimp -zeta +zetaDelta only)

theorem State.partsRead_keeps (s : State) (m : MillId) (v : Option Mover) (a3 : List (ℕ × ℕ)) :
    Keeps s (State.partsRead s m v a3).2 := by
  induction a3 generalizing s m v with
  | nil =>
    unfold State.partsRead
    repeat' first
      | split
      | extract_lets
      | with_reducible apply Keeps.via (State.moverSend_keeps ..)
      | with_reducible apply Keeps.via (State.readRun_keeps ..)
      | (with_reducible apply Keeps.of_ite <;> intro _)
      | with_reducible exact Keeps.refl _
      | (with_reducible apply Keeps.of_pair (by assumption))
      | (with_reducible apply Keeps.of_triple (by assumption))
      | (fail_if_no_progress with_reducible refine Keeps.record ?_ rfl rfl rfl rfl rfl rfl rfl)
      | (with_reducible apply Keeps.foldl_via; intro _ _)
      | (fail_if_no_progress dsimp -zeta +zetaDelta only)
  | cons x rest ih =>
    obtain ⟨x, y⟩ := x
    unfold State.partsRead
    repeat' first
      | split
      | extract_lets
      | with_reducible apply Keeps.via (ih ..)
      | with_reducible apply Keeps.via (State.moverSend_keeps ..)
      | with_reducible apply Keeps.via (State.readRun_keeps ..)
      | (with_reducible apply Keeps.of_ite <;> intro _)
      | with_reducible exact Keeps.refl _
      | (with_reducible apply Keeps.of_pair (by assumption))
      | (with_reducible apply Keeps.of_triple (by assumption))
      | (fail_if_no_progress with_reducible refine Keeps.record ?_ rfl rfl rfl rfl rfl rfl rfl)
      | (with_reducible apply Keeps.foldl_via; intro _ _)
      | (fail_if_no_progress dsimp -zeta +zetaDelta only)

theorem State.vread_keeps (s : State) (m : MillId) (v : Option Mover) (va : ℕ) (n : ℕ) :
    Keeps s (State.vread s m v va n).2 := by
  unfold State.vread
  repeat' first
    | split
    | extract_lets
    | with_reducible apply Keeps.via (State.partsRead_keeps ..)
    | with_reducible apply Keeps.via (State.translateRange_keeps ..)
    | (with_reducible apply Keeps.of_ite <;> intro _)
    | with_reducible exact Keeps.refl _
    | (with_reducible apply Keeps.of_pair (by assumption))
    | (with_reducible apply Keeps.of_triple (by assumption))
    | (fail_if_no_progress with_reducible refine Keeps.record ?_ rfl rfl rfl rfl rfl rfl rfl)
    | (with_reducible apply Keeps.foldl_via; intro _ _)
    | (fail_if_no_progress dsimp -zeta +zetaDelta only)

theorem State.pokeParts_keeps (m : MillId) (l : List (Nat × Nat)) (bs : List Byte) (s : State) :
    Keeps s (State.pokeParts m l bs s) := by
  induction l generalizing s bs with
  | nil => exact Keeps.refl s
  | cons x rest ih => exact (State.pokePart_keeps _ _ _ _).trans (ih _ _)


theorem State.vpoke_keeps (s : State) (m : MillId) (va : ℕ) (bs : List Byte) :
    Keeps s (State.vpoke s m va bs) := by
  unfold State.vpoke
  repeat' first
    | split
    | extract_lets
    | with_reducible apply Keeps.via (State.pokeParts_keeps ..)
    | (with_reducible apply Keeps.of_ite <;> intro _)
    | with_reducible exact Keeps.refl _
    | (with_reducible apply Keeps.of_pair (by assumption))
    | (with_reducible apply Keeps.of_triple (by assumption))
    | (fail_if_no_progress with_reducible refine Keeps.record ?_ rfl rfl rfl rfl rfl rfl rfl)
    | (with_reducible apply Keeps.foldl_via; intro _ _)
    | (fail_if_no_progress dsimp -zeta +zetaDelta only)

theorem State.portWrite_keeps (s : State) (m : MillId) (a : ℕ) (spans : List (ℕ × ℕ)) :
    Keeps s (State.portWrite s m a spans).2 := by
  unfold State.portWrite
  repeat' first
    | split
    | extract_lets
    | with_reducible apply Keeps.via (State.codeRead_keeps ..)
    | with_reducible apply Keeps.via (State.tally_keeps ..)
    | (with_reducible apply Keeps.of_ite <;> intro _)
    | with_reducible exact Keeps.refl _
    | (with_reducible apply Keeps.of_pair (by assumption))
    | (with_reducible apply Keeps.of_triple (by assumption))
    | (fail_if_no_progress with_reducible refine Keeps.record ?_ rfl rfl rfl rfl rfl rfl rfl)
    | (with_reducible apply Keeps.foldl_via; intro _ _)
    | (fail_if_no_progress dsimp -zeta +zetaDelta only)

theorem State.granulesWrite_keeps (s : State) (m : MillId) (a2 : List (ℕ × ℕ)) (a3 : List Byte) :
    Keeps s (State.granulesWrite s m a2 a3).2 := by
  induction a2 generalizing s m a3 with
  | nil =>
    unfold State.granulesWrite
    repeat' first
      | split
      | extract_lets
      | with_reducible apply Keeps.via (State.physWrite_keeps ..)
      | with_reducible apply Keeps.via (State.portWrite_keeps ..)
      | (with_reducible apply Keeps.of_ite <;> intro _)
      | with_reducible exact Keeps.refl _
      | (with_reducible apply Keeps.of_pair (by assumption))
      | (with_reducible apply Keeps.of_triple (by assumption))
      | (fail_if_no_progress with_reducible refine Keeps.record ?_ rfl rfl rfl rfl rfl rfl rfl)
      | (with_reducible apply Keeps.foldl_via; intro _ _)
      | (fail_if_no_progress dsimp -zeta +zetaDelta only)
  | cons x rest ih =>
    obtain ⟨x, y⟩ := x
    unfold State.granulesWrite
    repeat' first
      | split
      | extract_lets
      | with_reducible apply Keeps.via (ih ..)
      | with_reducible apply Keeps.via (State.physWrite_keeps ..)
      | with_reducible apply Keeps.via (State.portWrite_keeps ..)
      | (with_reducible apply Keeps.of_ite <;> intro _)
      | with_reducible exact Keeps.refl _
      | (with_reducible apply Keeps.of_pair (by assumption))
      | (with_reducible apply Keeps.of_triple (by assumption))
      | (fail_if_no_progress with_reducible refine Keeps.record ?_ rfl rfl rfl rfl rfl rfl rfl)
      | (with_reducible apply Keeps.foldl_via; intro _ _)
      | (fail_if_no_progress dsimp -zeta +zetaDelta only)

theorem State.partsWrite_keeps (s : State) (m : MillId) (v : Option Mover) (a3 : List (ℕ × ℕ)) (a4 : List Byte) :
    Keeps s (State.partsWrite s m v a3 a4).2 := by
  induction a3 generalizing s m v a4 with
  | nil =>
    unfold State.partsWrite
    repeat' first
      | split
      | extract_lets
      | with_reducible apply Keeps.via (State.granulesWrite_keeps ..)
      | with_reducible apply Keeps.via (State.moverSend_keeps ..)
      | (with_reducible apply Keeps.of_ite <;> intro _)
      | with_reducible exact Keeps.refl _
      | (with_reducible apply Keeps.of_pair (by assumption))
      | (with_reducible apply Keeps.of_triple (by assumption))
      | (fail_if_no_progress with_reducible refine Keeps.record ?_ rfl rfl rfl rfl rfl rfl rfl)
      | (with_reducible apply Keeps.foldl_via; intro _ _)
      | (fail_if_no_progress dsimp -zeta +zetaDelta only)
  | cons x rest ih =>
    obtain ⟨x, y⟩ := x
    unfold State.partsWrite
    repeat' first
      | split
      | extract_lets
      | with_reducible apply Keeps.via (ih ..)
      | with_reducible apply Keeps.via (State.granulesWrite_keeps ..)
      | with_reducible apply Keeps.via (State.moverSend_keeps ..)
      | (with_reducible apply Keeps.of_ite <;> intro _)
      | with_reducible exact Keeps.refl _
      | (with_reducible apply Keeps.of_pair (by assumption))
      | (with_reducible apply Keeps.of_triple (by assumption))
      | (fail_if_no_progress with_reducible refine Keeps.record ?_ rfl rfl rfl rfl rfl rfl rfl)
      | (with_reducible apply Keeps.foldl_via; intro _ _)
      | (fail_if_no_progress dsimp -zeta +zetaDelta only)

theorem State.vwrite_keeps (s : State) (m : MillId) (v : Option Mover) (va : ℕ) (bs : List Byte) :
    Keeps s (State.vwrite s m v va bs).2 := by
  unfold State.vwrite
  repeat' first
    | split
    | extract_lets
    | with_reducible apply Keeps.via (State.partsWrite_keeps ..)
    | with_reducible apply Keeps.via (State.translateRange_keeps ..)
    | (with_reducible apply Keeps.of_ite <;> intro _)
    | with_reducible exact Keeps.refl _
    | (with_reducible apply Keeps.of_pair (by assumption))
    | (with_reducible apply Keeps.of_triple (by assumption))
    | (fail_if_no_progress with_reducible refine Keeps.record ?_ rfl rfl rfl rfl rfl rfl rfl)
    | (with_reducible apply Keeps.foldl_via; intro _ _)
    | (fail_if_no_progress dsimp -zeta +zetaDelta only)

theorem State.locWrite_keeps (s : State) (l : Loc) (bs : List Byte) :
    Keeps s (State.locWrite s l bs) := by
  unfold State.locWrite
  split
  · exact State.physWrite_keeps _ _ _
  · exact Keeps.hoppers _ fun h => Memory.wf_writeBytes _ _ h
  · exact Keeps.granaries _ fun h => Memory.wf_writeBytes _ _ h
  · exact Keeps.refl s
  · exact Keeps.refl s

theorem State.enginePost_keeps (s : State) (m : MillId) (c : Ctx) (ctr : ℕ) (n : ℕ) :
    Keeps s (State.enginePost s m c ctr n) := by
  unfold State.enginePost
  repeat' first
    | split
    | extract_lets
    | with_reducible apply Keeps.via (State.ctrlMsg_keeps ..)
    | with_reducible apply Keeps.via (State.post_keeps ..)
    | (with_reducible apply Keeps.of_ite <;> intro _)
    | with_reducible exact Keeps.refl _
    | (with_reducible apply Keeps.of_pair (by assumption))
    | (with_reducible apply Keeps.of_triple (by assumption))
    | (fail_if_no_progress with_reducible refine Keeps.record ?_ rfl rfl rfl rfl rfl rfl rfl)
    | (with_reducible apply Keeps.foldl_via; intro _ _)
    | (fail_if_no_progress dsimp -zeta +zetaDelta only)

theorem State.onLedger_keeps (s : State) (m : MillId) (f : Ledger → Ledger) :
    Keeps s (State.onLedger s m f) := by
  unfold State.onLedger
  repeat' first
    | split
    | extract_lets
    | with_reducible apply Keeps.via (Keeps.onMill ..)
    | (with_reducible apply Keeps.of_ite <;> intro _)
    | with_reducible exact Keeps.refl _
    | (with_reducible apply Keeps.of_pair (by assumption))
    | (with_reducible apply Keeps.of_triple (by assumption))
    | (fail_if_no_progress with_reducible refine Keeps.record ?_ rfl rfl rfl rfl rfl rfl rfl)
    | (with_reducible apply Keeps.foldl_via; intro _ _)
    | (fail_if_no_progress dsimp -zeta +zetaDelta only)

theorem State.entryBack_keeps (s : State) (m : MillId) (d : ℕ × List Byte) :
    Keeps s (State.entryBack s m d) := by
  unfold State.entryBack
  repeat' first
    | split
    | extract_lets
    | with_reducible apply Keeps.via (State.portWrite_keeps ..)
    | with_reducible apply Keeps.via (State.rawWrite_keeps ..)
    | with_reducible apply Keeps.via (State.tally_keeps ..)
    | (with_reducible apply Keeps.of_ite <;> intro _)
    | with_reducible exact Keeps.refl _
    | (with_reducible apply Keeps.of_pair (by assumption))
    | (with_reducible apply Keeps.of_triple (by assumption))
    | (fail_if_no_progress with_reducible refine Keeps.record ?_ rfl rfl rfl rfl rfl rfl rfl)
    | (with_reducible apply Keeps.foldl_via; intro _ _)
    | (fail_if_no_progress dsimp -zeta +zetaDelta only)

theorem State.entriesOut_keeps (s : State) (m : MillId) (out : List ℕ) :
    Keeps s (State.entriesOut s m out) := by
  unfold State.entriesOut
  repeat' first
    | split
    | extract_lets
    | with_reducible apply Keeps.via (State.entryBack_keeps ..)
    | with_reducible apply Keeps.via (State.onLedger_keeps ..)
    | (with_reducible apply Keeps.forAll_via; intro _ _)
    | (with_reducible apply Keeps.of_ite <;> intro _)
    | with_reducible exact Keeps.refl _
    | (with_reducible apply Keeps.of_pair (by assumption))
    | (with_reducible apply Keeps.of_triple (by assumption))
    | (fail_if_no_progress with_reducible refine Keeps.record ?_ rfl rfl rfl rfl rfl rfl rfl)
    | (with_reducible apply Keeps.foldl_via; intro _ _)
    | (fail_if_no_progress dsimp -zeta +zetaDelta only)

theorem State.ledgerTouch_keeps (s : State) (m : MillId) (slot : ℕ) :
    Keeps s (State.ledgerTouch s m slot) := by
  unfold State.ledgerTouch
  repeat' first
    | split
    | extract_lets
    | with_reducible apply Keeps.via (State.entriesOut_keeps ..)
    | with_reducible apply Keeps.via (State.onLedger_keeps ..)
    | with_reducible apply Keeps.via (State.tally_keeps ..)
    | (with_reducible apply Keeps.of_ite <;> intro _)
    | with_reducible exact Keeps.refl _
    | (with_reducible apply Keeps.of_pair (by assumption))
    | (with_reducible apply Keeps.of_triple (by assumption))
    | (fail_if_no_progress with_reducible refine Keeps.record ?_ rfl rfl rfl rfl rfl rfl rfl)
    | (with_reducible apply Keeps.foldl_via; intro _ _)
    | (fail_if_no_progress dsimp -zeta +zetaDelta only)

theorem State.ledgerFetch_keeps (s : State) (e : MillId) (v : Mover) (a : ℕ) (n : ℕ) :
    Keeps s (State.ledgerFetch s e v a n).2 := by
  unfold State.ledgerFetch
  repeat' first
    | split
    | extract_lets
    | with_reducible apply Keeps.via (State.moverSend_keeps ..)
    | with_reducible apply Keeps.via (State.portRead_keeps ..)
    | with_reducible apply Keeps.via (State.raise_keeps ..)
    | with_reducible apply Keeps.via (State.tally_keeps ..)
    | (with_reducible apply Keeps.of_ite <;> intro _)
    | with_reducible exact Keeps.refl _
    | (with_reducible apply Keeps.of_pair (by assumption))
    | (with_reducible apply Keeps.of_triple (by assumption))
    | (fail_if_no_progress with_reducible refine Keeps.record ?_ rfl rfl rfl rfl rfl rfl rfl)
    | (with_reducible apply Keeps.foldl_via; intro _ _)
    | (fail_if_no_progress dsimp -zeta +zetaDelta only)

theorem State.ledgerAccess_keeps (s : State) (e : MillId) (v : Mover) (a : ℕ) (n : ℕ) :
    Keeps s (State.ledgerAccess s e v a n).2 := by
  unfold State.ledgerAccess
  repeat' first
    | split
    | extract_lets
    | with_reducible apply Keeps.via (State.ledgerFetch_keeps ..)
    | with_reducible apply Keeps.via (State.raise_keeps ..)
    | with_reducible apply Keeps.via (State.takeInj_keeps ..)
    | with_reducible apply Keeps.via (State.tally_keeps ..)
    | (with_reducible apply Keeps.of_ite <;> intro _)
    | with_reducible exact Keeps.refl _
    | (with_reducible apply Keeps.of_pair (by assumption))
    | (with_reducible apply Keeps.of_triple (by assumption))
    | (fail_if_no_progress with_reducible refine Keeps.record ?_ rfl rfl rfl rfl rfl rfl rfl)
    | (with_reducible apply Keeps.foldl_via; intro _ _)
    | (fail_if_no_progress dsimp -zeta +zetaDelta only)

theorem State.ledgerRead_keeps (s : State) (v : Mover) (a : ℕ) (n : ℕ) :
    Keeps s (State.ledgerRead s v a n).2 := by
  unfold State.ledgerRead
  repeat' first
    | split
    | extract_lets
    | with_reducible apply Keeps.via (State.ledgerAccess_keeps ..)
    | with_reducible apply Keeps.via (State.ledgerTouch_keeps ..)
    | (with_reducible apply Keeps.of_ite <;> intro _)
    | with_reducible exact Keeps.refl _
    | (with_reducible apply Keeps.of_pair (by assumption))
    | (with_reducible apply Keeps.of_triple (by assumption))
    | (fail_if_no_progress with_reducible refine Keeps.record ?_ rfl rfl rfl rfl rfl rfl rfl)
    | (with_reducible apply Keeps.foldl_via; intro _ _)
    | (fail_if_no_progress dsimp -zeta +zetaDelta only)

theorem State.ledgerFlush_keeps (s : State) (m : MillId) :
    Keeps s (State.ledgerFlush s m) := by
  unfold State.ledgerFlush
  repeat' first
    | split
    | extract_lets
    | with_reducible apply Keeps.via (State.entryBack_keeps ..)
    | with_reducible apply Keeps.via (State.onLedger_keeps ..)
    | (with_reducible apply Keeps.forAll_via; intro _ _)
    | (with_reducible apply Keeps.of_ite <;> intro _)
    | with_reducible exact Keeps.refl _
    | (with_reducible apply Keeps.of_pair (by assumption))
    | (with_reducible apply Keeps.of_triple (by assumption))
    | (fail_if_no_progress with_reducible refine Keeps.record ?_ rfl rfl rfl rfl rfl rfl rfl)
    | (with_reducible apply Keeps.foldl_via; intro _ _)
    | (fail_if_no_progress dsimp -zeta +zetaDelta only)

theorem State.ledgerWrite_keeps (s : State) (a : ℕ) (bs : List Byte) :
    Keeps s (State.ledgerWrite s a bs) := by
  unfold State.ledgerWrite
  repeat' first
    | split
    | extract_lets
    | with_reducible apply Keeps.via (State.ledgerTouch_keeps ..)
    | with_reducible apply Keeps.via (State.onLedger_keeps ..)
    | (with_reducible apply Keeps.of_ite <;> intro _)
    | with_reducible exact Keeps.refl _
    | (with_reducible apply Keeps.of_pair (by assumption))
    | (with_reducible apply Keeps.of_triple (by assumption))
    | (fail_if_no_progress with_reducible refine Keeps.record ?_ rfl rfl rfl rfl rfl rfl rfl)
    | (with_reducible apply Keeps.foldl_via; intro _ _)
    | (fail_if_no_progress dsimp -zeta +zetaDelta only)

theorem State.hopperRace_keeps (s : State) (m : MillId) (stone : ℕ) (off : ℕ) (n : ℕ) (write : Bool) :
    Keeps s (State.hopperRace s m stone off n write).2.2 := by
  unfold State.hopperRace
  repeat' first
    | split
    | extract_lets
    | with_reducible apply Keeps.via (State.takeInjAt_keeps ..)
    | (with_reducible apply Keeps.of_ite <;> intro _)
    | with_reducible exact Keeps.refl _
    | (with_reducible apply Keeps.of_pair (by assumption))
    | (with_reducible apply Keeps.of_triple (by assumption))
    | (fail_if_no_progress with_reducible refine Keeps.record ?_ rfl rfl rfl rfl rfl rfl rfl)
    | (with_reducible apply Keeps.foldl_via; intro _ _)
    | (fail_if_no_progress dsimp -zeta +zetaDelta only)

theorem forkSend_keeps (m : MillId) (branches : BitVec 3) (waited : W32) (s : State) :
    Keeps s (forkSend m branches waited s) := by
  unfold forkSend
  repeat' first
    | split
    | extract_lets
    | with_reducible apply Keeps.via (State.takeInj_keeps ..)
    | with_reducible apply Keeps.via (State.tally_keeps ..)
    | (with_reducible apply Keeps.of_ite <;> intro _)
    | with_reducible exact Keeps.refl _
    | (with_reducible apply Keeps.of_pair (by assumption))
    | (with_reducible apply Keeps.of_triple (by assumption))
    | (fail_if_no_progress with_reducible refine Keeps.record ?_ rfl rfl rfl rfl rfl rfl rfl)
    | (with_reducible apply Keeps.foldl_via; intro _ _)
    | (fail_if_no_progress dsimp -zeta +zetaDelta only)

theorem State.floorFault_keeps (s : State) (m : MillId) (code : ℕ) (res : W64) (opnd : W64) (pc : W64) (slot : ℕ) (system : Bool) (injected : Bool) :
    Keeps s (State.floorFault s m code res opnd pc slot system injected) := by
  unfold State.floorFault
  repeat' first
    | split
    | extract_lets
    | with_reducible apply Keeps.via (State.raise_keeps ..)
    | with_reducible apply Keeps.via (State.report_keeps ..)
    | with_reducible apply Keeps.via (State.tally_keeps ..)
    | (with_reducible apply Keeps.of_ite <;> intro _)
    | with_reducible exact Keeps.refl _
    | (with_reducible apply Keeps.of_pair (by assumption))
    | (with_reducible apply Keeps.of_triple (by assumption))
    | (fail_if_no_progress with_reducible refine Keeps.record ?_ rfl rfl rfl rfl rfl rfl rfl)
    | (with_reducible apply Keeps.foldl_via; intro _ _)
    | (fail_if_no_progress dsimp -zeta +zetaDelta only)

theorem State.planWritten_keeps (s : State) (m : MillId) :
    Keeps s (State.planWritten s m) := by
  unfold State.planWritten
  repeat' first
    | split
    | extract_lets
    | with_reducible apply Keeps.via (Keeps.onMill ..)
    | with_reducible apply Keeps.via (State.raise_keeps ..)
    | (with_reducible apply Keeps.of_ite <;> intro _)
    | with_reducible exact Keeps.refl _
    | (with_reducible apply Keeps.of_pair (by assumption))
    | (with_reducible apply Keeps.of_triple (by assumption))
    | (fail_if_no_progress with_reducible refine Keeps.record ?_ rfl rfl rfl rfl rfl rfl rfl)
    | (with_reducible apply Keeps.foldl_via; intro _ _)
    | (fail_if_no_progress dsimp -zeta +zetaDelta only)

theorem memoryRetrain_keeps (port : PortRef) (active : Bool) (s : State) :
    Keeps s (memoryRetrain port active s) := by
  unfold memoryRetrain
  repeat' first
    | split
    | extract_lets
    | with_reducible apply Keeps.via (Keeps.onMill ..)
    | (with_reducible apply Keeps.of_ite <;> intro _)
    | with_reducible exact Keeps.refl _
    | (with_reducible apply Keeps.of_pair (by assumption))
    | (with_reducible apply Keeps.of_triple (by assumption))
    | (fail_if_no_progress with_reducible refine Keeps.record ?_ rfl rfl rfl rfl rfl rfl rfl)
    | (with_reducible apply Keeps.foldl_via; intro _ _)
    | (fail_if_no_progress dsimp -zeta +zetaDelta only)

theorem planApplied_keeps (m : MillId) (s : State) :
    Keeps s (planApplied m s) := by
  unfold planApplied
  repeat' first
    | split
    | extract_lets
    | with_reducible apply Keeps.via (Keeps.onMill ..)
    | with_reducible apply Keeps.via (State.raise_keeps ..)
    | with_reducible apply Keeps.via (State.tally_keeps ..)
    | (with_reducible apply Keeps.of_ite <;> intro _)
    | with_reducible exact Keeps.refl _
    | (with_reducible apply Keeps.of_pair (by assumption))
    | (with_reducible apply Keeps.of_triple (by assumption))
    | (fail_if_no_progress with_reducible refine Keeps.record ?_ rfl rfl rfl rfl rfl rfl rfl)
    | (with_reducible apply Keeps.foldl_via; intro _ _)
    | (fail_if_no_progress dsimp -zeta +zetaDelta only)

theorem State.onWatch_keeps (s : State) (m : MillId) (n : ℕ) (f : WatchPoint → WatchPoint) :
    Keeps s (State.onWatch s m n f) := by
  unfold State.onWatch
  repeat' first
    | split
    | extract_lets
    | with_reducible apply Keeps.via (Keeps.onMill ..)
    | (with_reducible apply Keeps.of_ite <;> intro _)
    | with_reducible exact Keeps.refl _
    | (with_reducible apply Keeps.of_pair (by assumption))
    | (with_reducible apply Keeps.of_triple (by assumption))
    | (fail_if_no_progress with_reducible refine Keeps.record ?_ rfl rfl rfl rfl rfl rfl rfl)
    | (with_reducible apply Keeps.foldl_via; intro _ _)
    | (fail_if_no_progress dsimp -zeta +zetaDelta only)

theorem State.watchElem_keeps (s : State) (m : MillId) (n : ℕ) (stage : ℕ) (desc : ℕ) (line : ℕ) (elem : ℕ) (step : Option ℕ) (v : W32) (code : ℕ) (sat : Bool) :
    Keeps s (State.watchElem s m n stage desc line elem step v code sat) := by
  unfold State.watchElem
  repeat' first
    | split
    | extract_lets
    | with_reducible apply Keeps.via (State.logTrigger_keeps ..)
    | with_reducible apply Keeps.via (State.onWatch_keeps ..)
    | with_reducible apply Keeps.via (State.raise_keeps ..)
    | with_reducible apply Keeps.via (State.takeInjAt_keeps ..)
    | with_reducible apply Keeps.via (State.tally_keeps ..)
    | (with_reducible apply Keeps.of_ite <;> intro _)
    | with_reducible exact Keeps.refl _
    | (with_reducible apply Keeps.of_pair (by assumption))
    | (with_reducible apply Keeps.of_triple (by assumption))
    | (fail_if_no_progress with_reducible refine Keeps.record ?_ rfl rfl rfl rfl rfl rfl rfl)
    | (with_reducible apply Keeps.foldl_via; intro _ _)
    | (fail_if_no_progress dsimp -zeta +zetaDelta only)

theorem State.watchPiece_keeps (s : State) (m : MillId) (stage : ℕ) (desc : ℕ) (line : ℕ) (step : Option ℕ) (els : List (ℕ × W32 × ℕ × Bool)) :
    Keeps s (State.watchPiece s m stage desc line step els) := by
  unfold State.watchPiece
  repeat' first
    | split
    | extract_lets
    | with_reducible apply Keeps.via (State.watchElem_keeps ..)
    | (with_reducible apply Keeps.forAll_via; intro _ _)
    | (with_reducible apply Keeps.of_ite <;> intro _)
    | with_reducible exact Keeps.refl _
    | (with_reducible apply Keeps.of_pair (by assumption))
    | (with_reducible apply Keeps.of_triple (by assumption))
    | (fail_if_no_progress with_reducible refine Keeps.record ?_ rfl rfl rfl rfl rfl rfl rfl)
    | (with_reducible apply Keeps.foldl_via; intro _ _)
    | (fail_if_no_progress dsimp -zeta +zetaDelta only)

theorem State.watchOpen_keeps (s : State) (m : MillId) (n : ℕ) :
    Keeps s (State.watchOpen s m n) := by
  unfold State.watchOpen
  repeat' first
    | split
    | extract_lets
    | with_reducible apply Keeps.via (State.onWatch_keeps ..)
    | (with_reducible apply Keeps.of_ite <;> intro _)
    | with_reducible exact Keeps.refl _
    | (with_reducible apply Keeps.of_pair (by assumption))
    | (with_reducible apply Keeps.of_triple (by assumption))
    | (fail_if_no_progress with_reducible refine Keeps.record ?_ rfl rfl rfl rfl rfl rfl rfl)
    | (with_reducible apply Keeps.foldl_via; intro _ _)
    | (fail_if_no_progress dsimp -zeta +zetaDelta only)

theorem State.watchClose_keeps (s : State) (m : MillId) (n : ℕ) :
    Keeps s (State.watchClose s m n) := by
  unfold State.watchClose
  repeat' first
    | split
    | extract_lets
    | with_reducible apply Keeps.via (State.onWatch_keeps ..)
    | with_reducible apply Keeps.via (State.setWord64_keeps ..)
    | with_reducible apply Keeps.via (State.setWord_keeps ..)
    | with_reducible apply Keeps.via (State.tally_keeps ..)
    | with_reducible apply Keeps.via (State.watchOpen_keeps ..)
    | (with_reducible apply Keeps.of_ite <;> intro _)
    | with_reducible exact Keeps.refl _
    | (with_reducible apply Keeps.of_pair (by assumption))
    | (with_reducible apply Keeps.of_triple (by assumption))
    | (fail_if_no_progress with_reducible refine Keeps.record ?_ rfl rfl rfl rfl rfl rfl rfl)
    | (with_reducible apply Keeps.foldl_via; intro _ _)
    | (fail_if_no_progress dsimp -zeta +zetaDelta only)

theorem State.watchEndLatch_keeps (s : State) (m : MillId) :
    Keeps s (State.watchEndLatch s m) := by
  unfold State.watchEndLatch
  repeat' first
    | split
    | extract_lets
    | with_reducible apply Keeps.via (State.watchClose_keeps ..)
    | (with_reducible apply Keeps.forAll_via; intro _ _)
    | (with_reducible apply Keeps.of_ite <;> intro _)
    | with_reducible exact Keeps.refl _
    | (with_reducible apply Keeps.of_pair (by assumption))
    | (with_reducible apply Keeps.of_triple (by assumption))
    | (fail_if_no_progress with_reducible refine Keeps.record ?_ rfl rfl rfl rfl rfl rfl rfl)
    | (with_reducible apply Keeps.foldl_via; intro _ _)
    | (fail_if_no_progress dsimp -zeta +zetaDelta only)

theorem State.watchVersion_keeps (s : State) (m : MillId) (desc : ℕ) :
    Keeps s (State.watchVersion s m desc) := by
  unfold State.watchVersion
  repeat' first
    | split
    | extract_lets
    | with_reducible apply Keeps.via (State.watchClose_keeps ..)
    | (with_reducible apply Keeps.forAll_via; intro _ _)
    | (with_reducible apply Keeps.of_ite <;> intro _)
    | with_reducible exact Keeps.refl _
    | (with_reducible apply Keeps.of_pair (by assumption))
    | (with_reducible apply Keeps.of_triple (by assumption))
    | (fail_if_no_progress with_reducible refine Keeps.record ?_ rfl rfl rfl rfl rfl rfl rfl)
    | (with_reducible apply Keeps.foldl_via; intro _ _)
    | (fail_if_no_progress dsimp -zeta +zetaDelta only)

end Sys2Proof.Machine
end

