-- ==== Sys2Proof/Laws/Runs.lean ====
section
/-! SUPPORT. Computations over the state that may stop: what each of their steps keeps, from the state a computation began in. -/

namespace Sys2Proof.Machine

variable {E α β : Type} {o s t : State}

/-- A computation started in `s` ends in a state that keeps what the state `o` had. -/
def Runs (o s : State) (g : ExceptT E (StateM State) α) : Prop := Keeps o (g.run.run s).2

theorem Runs.of_pure (a : α) (k : Keeps o s) : Runs (E := E) o s (pure a) := k
theorem Runs.of_throw (e : E) (k : Keeps o s) : Runs o s (throw e : ExceptT E (StateM State) α) := k
theorem Runs.of_modify (f : State → State) (k : Keeps o (f s)) : Runs (E := E) o s (modify f) := k
theorem Runs.of_set (k : Keeps o t) : Runs (E := E) o s (set t) := k

theorem Runs.bind {x : ExceptT E (StateM State) α} {f : α → ExceptT E (StateM State) β} (h : Runs o s x)
    (g : ∀ a t, Keeps o t → Runs o t (f a)) : Runs o s (x >>= f) := by
  unfold Runs at *
  simp only [ExceptT.run_bind, StateT.run_bind]
  rcases hx : x.run.run s with ⟨r, t⟩
  rw [hx] at h
  simp only [Bind.bind]
  cases r with
  | error e => exact h
  | ok a => exact g a t h

theorem Runs.start {x : ExceptT E (StateM State) α} (h : ∀ o, Keeps o s → Runs o s x) : Runs s s x := h s (Keeps.refl s)

/-- A computation whose lemma says what it keeps from its own start. -/
theorem Runs.step {x : ExceptT E (StateM State) α} {f : α → ExceptT E (StateM State) β} (h : ∀ s, Runs s s x) (k : Keeps o s)
    (g : ∀ a t, Keeps o t → Runs o t (f a)) : Runs o s (x >>= f) := Runs.bind (k.trans (h s)) g
theorem Runs.last {x : ExceptT E (StateM State) α} (h : ∀ s, Runs s s x) (k : Keeps o s) : Runs o s x := k.trans (h s)

theorem Runs.get_bind {f : State → ExceptT E (StateM State) β} (h : Runs o s (f s)) :
    Runs o s ((get : ExceptT E (StateM State) State) >>= f) := h
theorem Runs.set_bind {f : PUnit → ExceptT E (StateM State) β} (k : Keeps o t)
    (h : Keeps o t → Runs o t (f ⟨⟩)) :
    Runs o s ((set t : ExceptT E (StateM State) PUnit) >>= f) := h k
theorem Runs.modify_bind {m : State → State} {f : PUnit → ExceptT E (StateM State) β} (k : Keeps o (m s))
    (h : ∀ t, Keeps o t → Runs o t (f ⟨⟩)) : Runs o s ((modify m : ExceptT E (StateM State) PUnit) >>= f) := h _ k
theorem Runs.pure_bind (a : α) {f : α → ExceptT E (StateM State) β} (h : Runs o s (f a)) :
    Runs o s ((pure a : ExceptT E (StateM State) α) >>= f) := h
theorem Runs.throw_bind (e : E) {f : α → ExceptT E (StateM State) β} (k : Keeps o s) :
    Runs o s ((throw e : ExceptT E (StateM State) α) >>= f) := k
theorem Runs.map {x : ExceptT E (StateM State) α} (f : α → β) (h : Runs o s x) : Runs o s (f <$> x) := by
  rw [map_eq_pure_bind]
  exact Runs.bind h fun a t k => Runs.of_pure _ k

theorem Runs.exceptMap {x : ExceptT E (StateM State) α} (f : α → β) (h : Runs o s x) : Runs o s (ExceptT.map f x) := Runs.map f h

theorem Runs.forM (l : List α) (f : α → ExceptT E (StateM State) PUnit) (h : ∀ a s, Runs s s (f a)) (s : State) :
    Runs s s (l.forM f) := by
  induction l generalizing s with
  | nil => exact Keeps.refl s
  | cons a l ih => exact Runs.bind (h a s) fun _ t k => Runs.last ih k

theorem Runs.foldlM (l : List α) (f : β → α → ExceptT E (StateM State) β) (h : ∀ b a s, Runs s s (f b a)) (b : β) (s : State) :
    Runs s s (l.foldlM f b) := by
  induction l generalizing s b with
  | nil => exact Keeps.refl s
  | cons a l ih =>
    rw [List.foldlM_cons]
    exact Runs.bind (h b a s) fun c t k => Runs.last (ih c) k

theorem Runs.mapM (l : List α) (f : α → ExceptT E (StateM State) β) (h : ∀ a s, Runs s s (f a)) (s : State) :
    Runs s s (l.mapM f) := by
  induction l generalizing s with
  | nil => exact Keeps.refl s
  | cons a l ih =>
    rw [List.mapM_cons]
    exact Runs.bind (h a s) fun b t k => Runs.bind (Runs.last ih k) fun c u k => Runs.of_pure _ k

/-- What a loader's or feeder's computation of the governor comes to keeps what the state before it had. -/
def GovRes.All (s : State) : GovRes α → Prop
  | .ok _ t => Keeps s t
  | .stop _ t => Keeps s t
  | .hold => True

theorem GovRes.of_ok {r : GovRes α} {a : α} {u : State} (h : r = .ok a u) (k : GovRes.All t r) (g : Keeps s t) : Keeps s u := by
  subst h; exact g.trans k
theorem GovRes.of_stop {r : GovRes α} {abn : Nat} {u : State} (h : r = .stop abn u) (k : GovRes.All t r) (g : Keeps s t) : Keeps s u := by
  subst h; exact g.trans k

end Sys2Proof.Machine
end

