-- ==== Sys2Proof/Laws/KeepsGovernor.lean ====
section
/-! SUPPORT. What each change of the state made in Machine/Governor, Bolter, Sluice, LeatLink, Leat keeps: the queue,
the fuses blown, soundness. -/

namespace Sys2Proof.Machine

set_option Elab.async false

set_option linter.unusedTactic false
set_option linter.unreachableTactic false
set_option linter.unusedVariables false

theorem State.setGovOp_keeps (s : State) (m : MillId) (x : GovOp) :
    Keeps s (State.setGovOp s m x) := by
  unfold State.setGovOp
  repeat' first
    | split
    | extract_lets
    | with_reducible apply Keeps.via (Keeps.onGov ..)
    | (with_reducible apply Keeps.of_ite <;> intro _)
    | with_reducible exact Keeps.refl _
    | (with_reducible apply Keeps.of_pair (by assumption))
    | (with_reducible apply Keeps.of_triple (by assumption))
    | (fail_if_no_progress with_reducible refine Keeps.record ?_ rfl rfl rfl rfl rfl rfl rfl)
    | (with_reducible apply Keeps.foldl_via; intro _ _)
    | (fail_if_no_progress dsimp -zeta +zetaDelta only)

theorem State.tallyWrite_keeps (s : State) (m : MillId) (x : GovOp) (c : WriteCounts) :
    Keeps s (State.tallyWrite s m x c) := by
  unfold State.tallyWrite
  repeat' first
    | split
    | extract_lets
    | with_reducible apply Keeps.via (State.raise_keeps ..)
    | with_reducible apply Keeps.via (State.setGovOp_keeps ..)
    | with_reducible apply Keeps.via (State.tally_keeps ..)
    | (with_reducible apply Keeps.of_ite <;> intro _)
    | with_reducible exact Keeps.refl _
    | (with_reducible apply Keeps.of_pair (by assumption))
    | (with_reducible apply Keeps.of_triple (by assumption))
    | (fail_if_no_progress with_reducible refine Keeps.record ?_ rfl rfl rfl rfl rfl rfl rfl)
    | (with_reducible apply Keeps.foldl_via; intro _ _)
    | (fail_if_no_progress dsimp -zeta +zetaDelta only)

theorem State.setStageJobs_keeps (s : State) (m : MillId) (stage : ℕ) (js : List LineJob) :
    Keeps s (State.setStageJobs s m stage js) := by
  unfold State.setStageJobs
  repeat' first
    | split
    | extract_lets
    | with_reducible apply Keeps.via (Keeps.onGov ..)
    | (with_reducible apply Keeps.of_ite <;> intro _)
    | with_reducible exact Keeps.refl _
    | (with_reducible apply Keeps.of_pair (by assumption))
    | (with_reducible apply Keeps.of_triple (by assumption))
    | (fail_if_no_progress with_reducible refine Keeps.record ?_ rfl rfl rfl rfl rfl rfl rfl)
    | (with_reducible apply Keeps.foldl_via; intro _ _)
    | (fail_if_no_progress dsimp -zeta +zetaDelta only)

theorem State.dropJobs_keeps (s : State) (m : MillId) (stage : ℕ) (op : ℕ) :
    Keeps s (State.dropJobs s m stage op) := by
  unfold State.dropJobs
  repeat' first
    | split
    | extract_lets
    | with_reducible apply Keeps.via (State.setStageJobs_keeps ..)
    | (with_reducible apply Keeps.of_ite <;> intro _)
    | with_reducible exact Keeps.refl _
    | (with_reducible apply Keeps.of_pair (by assumption))
    | (with_reducible apply Keeps.of_triple (by assumption))
    | (fail_if_no_progress with_reducible refine Keeps.record ?_ rfl rfl rfl rfl rfl rfl rfl)
    | (with_reducible apply Keeps.foldl_via; intro _ _)
    | (fail_if_no_progress dsimp -zeta +zetaDelta only)

theorem State.freeRows_keeps (s : State) (o : UpdateOp) :
    Keeps s (State.freeRows s o) := by
  unfold State.freeRows
  repeat' first
    | split
    | extract_lets
    | with_reducible apply Keeps.via (State.ledgerWrite_keeps ..)
    | (with_reducible apply Keeps.forAll_via; intro _ _)
    | (with_reducible apply Keeps.of_ite <;> intro _)
    | with_reducible exact Keeps.refl _
    | (with_reducible apply Keeps.of_pair (by assumption))
    | (with_reducible apply Keeps.of_triple (by assumption))
    | (fail_if_no_progress with_reducible refine Keeps.record ?_ rfl rfl rfl rfl rfl rfl rfl)
    | (with_reducible apply Keeps.foldl_via; intro _ _)
    | (fail_if_no_progress dsimp -zeta +zetaDelta only)

theorem State.dropUpdate_keeps (s : State) (m : MillId) (o : UpdateOp) :
    Keeps s (State.dropUpdate s m o) := by
  unfold State.dropUpdate
  repeat' first
    | split
    | extract_lets
    | with_reducible apply Keeps.via (Keeps.onBolter ..)
    | with_reducible apply Keeps.via (State.dropJobs_keeps ..)
    | with_reducible apply Keeps.via (State.freeRows_keeps ..)
    | (with_reducible apply Keeps.of_ite <;> intro _)
    | with_reducible exact Keeps.refl _
    | (with_reducible apply Keeps.of_pair (by assumption))
    | (with_reducible apply Keeps.of_triple (by assumption))
    | (fail_if_no_progress with_reducible refine Keeps.record ?_ rfl rfl rfl rfl rfl rfl rfl)
    | (with_reducible apply Keeps.foldl_via; intro _ _)
    | (fail_if_no_progress dsimp -zeta +zetaDelta only)

theorem State.primeEvents_keeps (s : State) (m : MillId) (was : Bool) (now : Bool) :
    Keeps s (State.primeEvents s m was now) := by
  unfold State.primeEvents
  repeat' first
    | split
    | extract_lets
    | with_reducible apply Keeps.via (State.raise_keeps ..)
    | (with_reducible apply Keeps.of_ite <;> intro _)
    | with_reducible exact Keeps.refl _
    | (with_reducible apply Keeps.of_pair (by assumption))
    | (with_reducible apply Keeps.of_triple (by assumption))
    | (fail_if_no_progress with_reducible refine Keeps.record ?_ rfl rfl rfl rfl rfl rfl rfl)
    | (with_reducible apply Keeps.foldl_via; intro _ _)
    | (fail_if_no_progress dsimp -zeta +zetaDelta only)

theorem govTry_runs {α : Type} (line : Nat) (f : State → Except MemStop α × State) (h : ∀ s, Keeps s (f s).2) (s : State) :
    Runs s s (govTry line f) := by
  unfold govTry
  apply Runs.start; intro o k
  apply Runs.get_bind
  have hf := h s
  split
  rename_i e
  rw [e] at hf
  refine Runs.set_bind (k.trans hf) fun k => ?_
  split
  · exact Runs.of_pure _ k
  · exact Runs.of_throw _ k


theorem govRead_runs (q : GovAt) (va : ℕ) (n : ℕ) (s : State) :
    Runs s s (govRead q va n) := by
  unfold govRead
  apply Runs.start; intro o k
  repeat' first
    | split
    | (intro _)
    | extract_lets
    | with_reducible apply Runs.get_bind
    | with_reducible apply Runs.set_bind
    | with_reducible apply Runs.modify_bind
    | with_reducible apply Runs.pure_bind
    | with_reducible apply Runs.throw_bind
    | with_reducible apply Runs.of_pure
    | with_reducible apply Runs.of_throw
    | with_reducible apply Runs.of_modify
    | with_reducible apply Runs.of_set
    | with_reducible apply Runs.step (govTry_runs _ _ ?_)
    | with_reducible apply Runs.last (govTry_runs _ _ ?_)
    | with_reducible apply Runs.step (Runs.forM _ _ fun _ _ => Runs.start ?_)
    | with_reducible apply Runs.last (Runs.forM _ _ fun _ _ => Runs.start ?_)
    | with_reducible apply Runs.step (Runs.mapM _ _ fun _ _ => Runs.start ?_)
    | with_reducible apply Runs.last (Runs.mapM _ _ fun _ _ => Runs.start ?_)
    | with_reducible apply Runs.map
    | with_reducible apply Runs.exceptMap
    | with_reducible refine Runs.bind ?_ ?_
    | (with_reducible assumption)
    | with_reducible apply Keeps.via (State.vread_keeps ..)
    | (with_reducible apply State.record_via; intro _)
    | (with_reducible apply Keeps.of_ite <;> intro _)
    | with_reducible exact Keeps.refl _
    | (with_reducible apply Keeps.of_pair (by assumption))
    | (with_reducible apply Keeps.of_triple (by assumption))
    | (fail_if_no_progress with_reducible refine Keeps.record ?_ rfl rfl rfl rfl rfl rfl rfl)
    | (with_reducible apply Keeps.foldl_via; intro _ _)
    | dsimp -zeta +zetaDelta only

theorem gdesc_runs (q : GovAt) (idx : ℕ) (s : State) :
    Runs s s (gdesc q idx) := by
  unfold gdesc
  apply Runs.start; intro o k
  repeat' first
    | split
    | (intro _)
    | extract_lets
    | with_reducible apply Runs.get_bind
    | with_reducible apply Runs.set_bind
    | with_reducible apply Runs.modify_bind
    | with_reducible apply Runs.pure_bind
    | with_reducible apply Runs.throw_bind
    | with_reducible apply Runs.of_pure
    | with_reducible apply Runs.of_throw
    | with_reducible apply Runs.of_modify
    | with_reducible apply Runs.of_set
    | with_reducible apply Runs.step (govRead_runs _ _ _)
    | with_reducible apply Runs.last (govRead_runs _ _ _)
    | with_reducible apply Runs.step (Runs.forM _ _ fun _ _ => Runs.start ?_)
    | with_reducible apply Runs.last (Runs.forM _ _ fun _ _ => Runs.start ?_)
    | with_reducible apply Runs.step (Runs.mapM _ _ fun _ _ => Runs.start ?_)
    | with_reducible apply Runs.last (Runs.mapM _ _ fun _ _ => Runs.start ?_)
    | with_reducible apply Runs.map
    | with_reducible apply Runs.exceptMap
    | with_reducible refine Runs.bind ?_ ?_
    | (with_reducible assumption)
    | (with_reducible apply State.record_via; intro _)
    | (with_reducible apply Keeps.of_ite <;> intro _)
    | with_reducible exact Keeps.refl _
    | (with_reducible apply Keeps.of_pair (by assumption))
    | (with_reducible apply Keeps.of_triple (by assumption))
    | (fail_if_no_progress with_reducible refine Keeps.record ?_ rfl rfl rfl rfl rfl rfl rfl)
    | (with_reducible apply Keeps.foldl_via; intro _ _)
    | dsimp -zeta +zetaDelta only

theorem readLayer_runs (q : GovAt) (layer : ℕ) (s : State) :
    Runs s s (readLayer q layer) := by
  unfold readLayer
  apply Runs.start; intro o k
  repeat' first
    | split
    | (intro _)
    | extract_lets
    | with_reducible apply Runs.get_bind
    | with_reducible apply Runs.set_bind
    | with_reducible apply Runs.modify_bind
    | with_reducible apply Runs.pure_bind
    | with_reducible apply Runs.throw_bind
    | with_reducible apply Runs.of_pure
    | with_reducible apply Runs.of_throw
    | with_reducible apply Runs.of_modify
    | with_reducible apply Runs.of_set
    | with_reducible apply Runs.step (govRead_runs _ _ _)
    | with_reducible apply Runs.last (govRead_runs _ _ _)
    | with_reducible apply Runs.step (Runs.forM _ _ fun _ _ => Runs.start ?_)
    | with_reducible apply Runs.last (Runs.forM _ _ fun _ _ => Runs.start ?_)
    | with_reducible apply Runs.step (Runs.mapM _ _ fun _ _ => Runs.start ?_)
    | with_reducible apply Runs.last (Runs.mapM _ _ fun _ _ => Runs.start ?_)
    | with_reducible apply Runs.map
    | with_reducible apply Runs.exceptMap
    | with_reducible refine Runs.bind ?_ ?_
    | (with_reducible assumption)
    | (with_reducible apply State.record_via; intro _)
    | (with_reducible apply Keeps.of_ite <;> intro _)
    | with_reducible exact Keeps.refl _
    | (with_reducible apply Keeps.of_pair (by assumption))
    | (with_reducible apply Keeps.of_triple (by assumption))
    | (fail_if_no_progress with_reducible refine Keeps.record ?_ rfl rfl rfl rfl rfl rfl rfl)
    | (with_reducible apply Keeps.foldl_via; intro _ _)
    | dsimp -zeta +zetaDelta only

theorem State.dryMark_keeps (s : State) (m : MillId) (layer : ℕ) (told : Bool) :
    Keeps s (State.dryMark s m layer told) := by
  unfold State.dryMark
  repeat' first
    | split
    | extract_lets
    | with_reducible apply Keeps.via (Keeps.onGov ..)
    | (with_reducible apply Keeps.of_ite <;> intro _)
    | with_reducible exact Keeps.refl _
    | (with_reducible apply Keeps.of_pair (by assumption))
    | (with_reducible apply Keeps.of_triple (by assumption))
    | (fail_if_no_progress with_reducible refine Keeps.record ?_ rfl rfl rfl rfl rfl rfl rfl)
    | (with_reducible apply Keeps.foldl_via; intro _ _)
    | (fail_if_no_progress dsimp -zeta +zetaDelta only)

theorem State.dryReached_keeps (s : State) (m : MillId) (layer : ℕ) :
    Keeps s (State.dryReached s m layer) := by
  unfold State.dryReached
  repeat' first
    | split
    | extract_lets
    | with_reducible apply Keeps.via (State.dryMark_keeps ..)
    | with_reducible apply Keeps.via (State.raise_keeps ..)
    | (with_reducible apply State.record_via; intro _)
    | with_reducible apply Keeps.via (State.setWord_keeps ..)
    | with_reducible apply Keeps.via (State.tally_keeps ..)
    | (with_reducible apply Keeps.of_ite <;> intro _)
    | with_reducible exact Keeps.refl _
    | (with_reducible apply Keeps.of_pair (by assumption))
    | (with_reducible apply Keeps.of_triple (by assumption))
    | (fail_if_no_progress with_reducible refine Keeps.record ?_ rfl rfl rfl rfl rfl rfl rfl)
    | (with_reducible apply Keeps.foldl_via; intro _ _)
    | (fail_if_no_progress dsimp -zeta +zetaDelta only)

theorem dryUpdate_runs (m : MillId) (layer : ℕ) (r : LayerRec) (s : State) :
    Runs s s (dryUpdate m layer r) := by
  unfold dryUpdate
  apply Runs.start; intro o k
  repeat' first
    | split
    | (intro _)
    | extract_lets
    | with_reducible apply Runs.get_bind
    | with_reducible apply Runs.set_bind
    | with_reducible apply Runs.modify_bind
    | with_reducible apply Runs.pure_bind
    | with_reducible apply Runs.throw_bind
    | with_reducible apply Runs.of_pure
    | with_reducible apply Runs.of_throw
    | with_reducible apply Runs.of_modify
    | with_reducible apply Runs.of_set
    | with_reducible apply Runs.step (Runs.forM _ _ fun _ _ => Runs.start ?_)
    | with_reducible apply Runs.last (Runs.forM _ _ fun _ _ => Runs.start ?_)
    | with_reducible apply Runs.step (Runs.mapM _ _ fun _ _ => Runs.start ?_)
    | with_reducible apply Runs.last (Runs.mapM _ _ fun _ _ => Runs.start ?_)
    | with_reducible apply Runs.map
    | with_reducible apply Runs.exceptMap
    | with_reducible refine Runs.bind ?_ ?_
    | (with_reducible assumption)
    | with_reducible apply Keeps.via (State.dryMark_keeps ..)
    | with_reducible apply Keeps.via (State.dryReached_keeps ..)
    | with_reducible apply Keeps.via (Keeps.onGov ..)
    | with_reducible apply Keeps.via (State.takeInjAt_keeps ..)
    | with_reducible apply Keeps.via (State.tally_keeps ..)
    | (with_reducible apply State.record_via; intro _)
    | (with_reducible apply Keeps.of_ite <;> intro _)
    | with_reducible exact Keeps.refl _
    | (with_reducible apply Keeps.of_pair (by assumption))
    | (with_reducible apply Keeps.of_triple (by assumption))
    | (fail_if_no_progress with_reducible refine Keeps.record ?_ rfl rfl rfl rfl rfl rfl rfl)
    | (with_reducible apply Keeps.foldl_via; intro _ _)
    | dsimp -zeta +zetaDelta only

theorem govWrite_runs (q : GovAt) (va : ℕ) (bs : List Byte) (s : State) :
    Runs s s (govWrite q va bs) := by
  unfold govWrite
  apply Runs.start; intro o k
  repeat' first
    | split
    | (intro _)
    | extract_lets
    | with_reducible apply Runs.get_bind
    | with_reducible apply Runs.set_bind
    | with_reducible apply Runs.modify_bind
    | with_reducible apply Runs.pure_bind
    | with_reducible apply Runs.throw_bind
    | with_reducible apply Runs.of_pure
    | with_reducible apply Runs.of_throw
    | with_reducible apply Runs.of_modify
    | with_reducible apply Runs.of_set
    | with_reducible apply Runs.step (govTry_runs _ _ ?_)
    | with_reducible apply Runs.last (govTry_runs _ _ ?_)
    | with_reducible apply Runs.step (Runs.forM _ _ fun _ _ => Runs.start ?_)
    | with_reducible apply Runs.last (Runs.forM _ _ fun _ _ => Runs.start ?_)
    | with_reducible apply Runs.step (Runs.mapM _ _ fun _ _ => Runs.start ?_)
    | with_reducible apply Runs.last (Runs.mapM _ _ fun _ _ => Runs.start ?_)
    | with_reducible apply Runs.map
    | with_reducible apply Runs.exceptMap
    | with_reducible refine Runs.bind ?_ ?_
    | (with_reducible assumption)
    | with_reducible apply Keeps.via (State.vwrite_keeps ..)
    | (with_reducible apply State.record_via; intro _)
    | (with_reducible apply Keeps.of_ite <;> intro _)
    | with_reducible exact Keeps.refl _
    | (with_reducible apply Keeps.of_pair (by assumption))
    | (with_reducible apply Keeps.of_triple (by assumption))
    | (fail_if_no_progress with_reducible refine Keeps.record ?_ rfl rfl rfl rfl rfl rfl rfl)
    | (with_reducible apply Keeps.foldl_via; intro _ _)
    | dsimp -zeta +zetaDelta only

theorem clearRow_runs (q : GovAt) (r : LayerRec) (k : ℕ) (s : State) :
    Runs s s (clearRow q r k) := by
  unfold clearRow
  apply Runs.start; intro o k
  repeat' first
    | split
    | (intro _)
    | extract_lets
    | with_reducible apply Runs.get_bind
    | with_reducible apply Runs.set_bind
    | with_reducible apply Runs.modify_bind
    | with_reducible apply Runs.pure_bind
    | with_reducible apply Runs.throw_bind
    | with_reducible apply Runs.of_pure
    | with_reducible apply Runs.of_throw
    | with_reducible apply Runs.of_modify
    | with_reducible apply Runs.of_set
    | with_reducible apply Runs.step (govWrite_runs _ _ _)
    | with_reducible apply Runs.last (govWrite_runs _ _ _)
    | with_reducible apply Runs.step (Runs.forM _ _ fun _ _ => Runs.start ?_)
    | with_reducible apply Runs.last (Runs.forM _ _ fun _ _ => Runs.start ?_)
    | with_reducible apply Runs.step (Runs.mapM _ _ fun _ _ => Runs.start ?_)
    | with_reducible apply Runs.last (Runs.mapM _ _ fun _ _ => Runs.start ?_)
    | with_reducible apply Runs.map
    | with_reducible apply Runs.exceptMap
    | with_reducible refine Runs.bind ?_ ?_
    | (with_reducible assumption)
    | (with_reducible apply State.record_via; intro _)
    | (with_reducible apply Keeps.of_ite <;> intro _)
    | with_reducible exact Keeps.refl _
    | (with_reducible apply Keeps.of_pair (by assumption))
    | (with_reducible apply Keeps.of_triple (by assumption))
    | (fail_if_no_progress with_reducible refine Keeps.record ?_ rfl rfl rfl rfl rfl rfl rfl)
    | (with_reducible apply Keeps.foldl_via; intro _ _)
    | dsimp -zeta +zetaDelta only

theorem turnRows_runs (q : GovAt) (step : ℕ) (r : LayerRec) (s : State) :
    Runs s s (turnRows q step r) := by
  unfold turnRows
  apply Runs.start; intro o k
  repeat' first
    | split
    | (intro _)
    | extract_lets
    | with_reducible apply Runs.get_bind
    | with_reducible apply Runs.set_bind
    | with_reducible apply Runs.modify_bind
    | with_reducible apply Runs.pure_bind
    | with_reducible apply Runs.throw_bind
    | with_reducible apply Runs.of_pure
    | with_reducible apply Runs.of_throw
    | with_reducible apply Runs.of_modify
    | with_reducible apply Runs.of_set
    | with_reducible apply Runs.step (clearRow_runs _ _ _)
    | with_reducible apply Runs.last (clearRow_runs _ _ _)
    | with_reducible apply Runs.step (Runs.forM _ _ fun _ _ => Runs.start ?_)
    | with_reducible apply Runs.last (Runs.forM _ _ fun _ _ => Runs.start ?_)
    | with_reducible apply Runs.step (Runs.mapM _ _ fun _ _ => Runs.start ?_)
    | with_reducible apply Runs.last (Runs.mapM _ _ fun _ _ => Runs.start ?_)
    | with_reducible apply Runs.map
    | with_reducible apply Runs.exceptMap
    | with_reducible refine Runs.bind ?_ ?_
    | (with_reducible assumption)
    | (with_reducible apply State.record_via; intro _)
    | (with_reducible apply Keeps.of_ite <;> intro _)
    | with_reducible exact Keeps.refl _
    | (with_reducible apply Keeps.of_pair (by assumption))
    | (with_reducible apply Keeps.of_triple (by assumption))
    | (fail_if_no_progress with_reducible refine Keeps.record ?_ rfl rfl rfl rfl rfl rfl rfl)
    | (with_reducible apply Keeps.foldl_via; intro _ _)
    | dsimp -zeta +zetaDelta only

theorem govGet_runs (q : GovAt) (base : ℕ) (bits : ℕ) (first : ℕ) (n : ℕ) (s : State) :
    Runs s s (govGet q base bits first n) := by
  unfold govGet
  apply Runs.start; intro o k
  repeat' first
    | split
    | (intro _)
    | extract_lets
    | with_reducible apply Runs.get_bind
    | with_reducible apply Runs.set_bind
    | with_reducible apply Runs.modify_bind
    | with_reducible apply Runs.pure_bind
    | with_reducible apply Runs.throw_bind
    | with_reducible apply Runs.of_pure
    | with_reducible apply Runs.of_throw
    | with_reducible apply Runs.of_modify
    | with_reducible apply Runs.of_set
    | with_reducible apply Runs.step (govRead_runs _ _ _)
    | with_reducible apply Runs.last (govRead_runs _ _ _)
    | with_reducible apply Runs.step (Runs.forM _ _ fun _ _ => Runs.start ?_)
    | with_reducible apply Runs.last (Runs.forM _ _ fun _ _ => Runs.start ?_)
    | with_reducible apply Runs.step (Runs.mapM _ _ fun _ _ => Runs.start ?_)
    | with_reducible apply Runs.last (Runs.mapM _ _ fun _ _ => Runs.start ?_)
    | with_reducible apply Runs.map
    | with_reducible apply Runs.exceptMap
    | with_reducible refine Runs.bind ?_ ?_
    | (with_reducible assumption)
    | (with_reducible apply State.record_via; intro _)
    | (with_reducible apply Keeps.of_ite <;> intro _)
    | with_reducible exact Keeps.refl _
    | (with_reducible apply Keeps.of_pair (by assumption))
    | (with_reducible apply Keeps.of_triple (by assumption))
    | (fail_if_no_progress with_reducible refine Keeps.record ?_ rfl rfl rfl rfl rfl rfl rfl)
    | (with_reducible apply Keeps.foldl_via; intro _ _)
    | dsimp -zeta +zetaDelta only

theorem closedBins_runs (q : GovAt) (r : LayerRec) (s : State) :
    Runs s s (closedBins q r) := by
  unfold closedBins
  apply Runs.start; intro o k
  repeat' first
    | split
    | (intro _)
    | extract_lets
    | with_reducible apply Runs.get_bind
    | with_reducible apply Runs.set_bind
    | with_reducible apply Runs.modify_bind
    | with_reducible apply Runs.pure_bind
    | with_reducible apply Runs.throw_bind
    | with_reducible apply Runs.of_pure
    | with_reducible apply Runs.of_throw
    | with_reducible apply Runs.of_modify
    | with_reducible apply Runs.of_set
    | with_reducible apply Runs.step (govGet_runs _ _ _ _ _)
    | with_reducible apply Runs.last (govGet_runs _ _ _ _ _)
    | with_reducible apply Runs.step (Runs.forM _ _ fun _ _ => Runs.start ?_)
    | with_reducible apply Runs.last (Runs.forM _ _ fun _ _ => Runs.start ?_)
    | with_reducible apply Runs.step (Runs.mapM _ _ fun _ _ => Runs.start ?_)
    | with_reducible apply Runs.last (Runs.mapM _ _ fun _ _ => Runs.start ?_)
    | with_reducible apply Runs.map
    | with_reducible apply Runs.exceptMap
    | with_reducible refine Runs.bind ?_ ?_
    | (with_reducible assumption)
    | (with_reducible apply State.record_via; intro _)
    | (with_reducible apply Keeps.of_ite <;> intro _)
    | with_reducible exact Keeps.refl _
    | (with_reducible apply Keeps.of_pair (by assumption))
    | (with_reducible apply Keeps.of_triple (by assumption))
    | (fail_if_no_progress with_reducible refine Keeps.record ?_ rfl rfl rfl rfl rfl rfl rfl)
    | (with_reducible apply Keeps.foldl_via; intro _ _)
    | dsimp -zeta +zetaDelta only

theorem storeLayer_runs (q : GovAt) (r : LayerRec) (s : State) :
    Runs s s (storeLayer q r) := by
  unfold storeLayer
  apply Runs.start; intro o k
  repeat' first
    | split
    | (intro _)
    | extract_lets
    | with_reducible apply Runs.get_bind
    | with_reducible apply Runs.set_bind
    | with_reducible apply Runs.modify_bind
    | with_reducible apply Runs.pure_bind
    | with_reducible apply Runs.throw_bind
    | with_reducible apply Runs.of_pure
    | with_reducible apply Runs.of_throw
    | with_reducible apply Runs.of_modify
    | with_reducible apply Runs.of_set
    | with_reducible apply Runs.step (govWrite_runs _ _ _)
    | with_reducible apply Runs.last (govWrite_runs _ _ _)
    | with_reducible apply Runs.step (Runs.forM _ _ fun _ _ => Runs.start ?_)
    | with_reducible apply Runs.last (Runs.forM _ _ fun _ _ => Runs.start ?_)
    | with_reducible apply Runs.step (Runs.mapM _ _ fun _ _ => Runs.start ?_)
    | with_reducible apply Runs.last (Runs.mapM _ _ fun _ _ => Runs.start ?_)
    | with_reducible apply Runs.map
    | with_reducible apply Runs.exceptMap
    | with_reducible refine Runs.bind ?_ ?_
    | (with_reducible assumption)
    | (with_reducible apply State.record_via; intro _)
    | (with_reducible apply Keeps.of_ite <;> intro _)
    | with_reducible exact Keeps.refl _
    | (with_reducible apply Keeps.of_pair (by assumption))
    | (with_reducible apply Keeps.of_triple (by assumption))
    | (fail_if_no_progress with_reducible refine Keeps.record ?_ rfl rfl rfl rfl rfl rfl rfl)
    | (with_reducible apply Keeps.foldl_via; intro _ _)
    | dsimp -zeta +zetaDelta only

theorem openStep_runs (q : GovAt) (layer : ℕ) (step : ℕ) (r : LayerRec) (s : State) :
    Runs s s (openStep q layer step r) := by
  unfold openStep
  apply Runs.start; intro o k
  repeat' first
    | split
    | (intro _)
    | extract_lets
    | with_reducible apply Runs.get_bind
    | with_reducible apply Runs.set_bind
    | with_reducible apply Runs.modify_bind
    | with_reducible apply Runs.pure_bind
    | with_reducible apply Runs.throw_bind
    | with_reducible apply Runs.of_pure
    | with_reducible apply Runs.of_throw
    | with_reducible apply Runs.of_modify
    | with_reducible apply Runs.of_set
    | with_reducible apply Runs.step (closedBins_runs _ _)
    | with_reducible apply Runs.last (closedBins_runs _ _)
    | with_reducible apply Runs.step (dryUpdate_runs _ _ _)
    | with_reducible apply Runs.last (dryUpdate_runs _ _ _)
    | with_reducible apply Runs.step (storeLayer_runs _ _)
    | with_reducible apply Runs.last (storeLayer_runs _ _)
    | with_reducible apply Runs.step (turnRows_runs _ _ _)
    | with_reducible apply Runs.last (turnRows_runs _ _ _)
    | with_reducible apply Runs.step (Runs.forM _ _ fun _ _ => Runs.start ?_)
    | with_reducible apply Runs.last (Runs.forM _ _ fun _ _ => Runs.start ?_)
    | with_reducible apply Runs.step (Runs.mapM _ _ fun _ _ => Runs.start ?_)
    | with_reducible apply Runs.last (Runs.mapM _ _ fun _ _ => Runs.start ?_)
    | with_reducible apply Runs.map
    | with_reducible apply Runs.exceptMap
    | with_reducible refine Runs.bind ?_ ?_
    | (with_reducible assumption)
    | with_reducible apply Keeps.via (State.raise_keeps ..)
    | with_reducible apply Keeps.via (State.tally_keeps ..)
    | (with_reducible apply State.record_via; intro _)
    | (with_reducible apply Keeps.of_ite <;> intro _)
    | with_reducible exact Keeps.refl _
    | (with_reducible apply Keeps.of_pair (by assumption))
    | (with_reducible apply Keeps.of_triple (by assumption))
    | (fail_if_no_progress with_reducible refine Keeps.record ?_ rfl rfl rfl rfl rfl rfl rfl)
    | (with_reducible apply Keeps.foldl_via; intro _ _)
    | dsimp -zeta +zetaDelta only

theorem gradientFmt_runs (q : GovAt) (d : GDesc) (step : ℕ) (s : State) :
    Runs s s (gradientFmt q d step) := by
  unfold gradientFmt
  apply Runs.start; intro o k
  repeat' first
    | split
    | (intro _)
    | extract_lets
    | with_reducible apply Runs.get_bind
    | with_reducible apply Runs.set_bind
    | with_reducible apply Runs.modify_bind
    | with_reducible apply Runs.pure_bind
    | with_reducible apply Runs.throw_bind
    | with_reducible apply Runs.of_pure
    | with_reducible apply Runs.of_throw
    | with_reducible apply Runs.of_modify
    | with_reducible apply Runs.of_set
    | with_reducible apply Runs.step (openStep_runs _ _ _ _)
    | with_reducible apply Runs.last (openStep_runs _ _ _ _)
    | with_reducible apply Runs.step (readLayer_runs _ _)
    | with_reducible apply Runs.last (readLayer_runs _ _)
    | with_reducible apply Runs.step (Runs.forM _ _ fun _ _ => Runs.start ?_)
    | with_reducible apply Runs.last (Runs.forM _ _ fun _ _ => Runs.start ?_)
    | with_reducible apply Runs.step (Runs.mapM _ _ fun _ _ => Runs.start ?_)
    | with_reducible apply Runs.last (Runs.mapM _ _ fun _ _ => Runs.start ?_)
    | with_reducible apply Runs.map
    | with_reducible apply Runs.exceptMap
    | with_reducible refine Runs.bind ?_ ?_
    | (with_reducible assumption)
    | (with_reducible apply State.record_via; intro _)
    | (with_reducible apply Keeps.of_ite <;> intro _)
    | with_reducible exact Keeps.refl _
    | (with_reducible apply Keeps.of_pair (by assumption))
    | (with_reducible apply Keeps.of_triple (by assumption))
    | (fail_if_no_progress with_reducible refine Keeps.record ?_ rfl rfl rfl rfl rfl rfl rfl)
    | (with_reducible apply Keeps.foldl_via; intro _ _)
    | dsimp -zeta +zetaDelta only

theorem writeFmt_runs (q : GovAt) (d : GDesc) (step : ℕ) (s : State) :
    Runs s s (writeFmt q d step) := by
  unfold writeFmt
  apply Runs.start; intro o k
  repeat' first
    | split
    | (intro _)
    | extract_lets
    | with_reducible apply Runs.get_bind
    | with_reducible apply Runs.set_bind
    | with_reducible apply Runs.modify_bind
    | with_reducible apply Runs.pure_bind
    | with_reducible apply Runs.throw_bind
    | with_reducible apply Runs.of_pure
    | with_reducible apply Runs.of_throw
    | with_reducible apply Runs.of_modify
    | with_reducible apply Runs.of_set
    | with_reducible apply Runs.step (gradientFmt_runs _ _ _)
    | with_reducible apply Runs.last (gradientFmt_runs _ _ _)
    | with_reducible apply Runs.step (readLayer_runs _ _)
    | with_reducible apply Runs.last (readLayer_runs _ _)
    | with_reducible apply Runs.step (Runs.forM _ _ fun _ _ => Runs.start ?_)
    | with_reducible apply Runs.last (Runs.forM _ _ fun _ _ => Runs.start ?_)
    | with_reducible apply Runs.step (Runs.mapM _ _ fun _ _ => Runs.start ?_)
    | with_reducible apply Runs.last (Runs.mapM _ _ fun _ _ => Runs.start ?_)
    | with_reducible apply Runs.map
    | with_reducible apply Runs.exceptMap
    | with_reducible refine Runs.bind ?_ ?_
    | (with_reducible assumption)
    | (with_reducible apply State.record_via; intro _)
    | (with_reducible apply Keeps.of_ite <;> intro _)
    | with_reducible exact Keeps.refl _
    | (with_reducible apply Keeps.of_pair (by assumption))
    | (with_reducible apply Keeps.of_triple (by assumption))
    | (fail_if_no_progress with_reducible refine Keeps.record ?_ rfl rfl rfl rfl rfl rfl rfl)
    | (with_reducible apply Keeps.foldl_via; intro _ _)
    | dsimp -zeta +zetaDelta only

theorem storeFmt_runs (q : GovAt) (d : GDesc) (s : State) :
    Runs s s (storeFmt q d) := by
  unfold storeFmt
  apply Runs.start; intro o k
  repeat' first
    | split
    | (intro _)
    | extract_lets
    | with_reducible apply Runs.get_bind
    | with_reducible apply Runs.set_bind
    | with_reducible apply Runs.modify_bind
    | with_reducible apply Runs.pure_bind
    | with_reducible apply Runs.throw_bind
    | with_reducible apply Runs.of_pure
    | with_reducible apply Runs.of_throw
    | with_reducible apply Runs.of_modify
    | with_reducible apply Runs.of_set
    | with_reducible apply Runs.step (govWrite_runs _ _ _)
    | with_reducible apply Runs.last (govWrite_runs _ _ _)
    | with_reducible apply Runs.step (Runs.forM _ _ fun _ _ => Runs.start ?_)
    | with_reducible apply Runs.last (Runs.forM _ _ fun _ _ => Runs.start ?_)
    | with_reducible apply Runs.step (Runs.mapM _ _ fun _ _ => Runs.start ?_)
    | with_reducible apply Runs.last (Runs.mapM _ _ fun _ _ => Runs.start ?_)
    | with_reducible apply Runs.map
    | with_reducible apply Runs.exceptMap
    | with_reducible refine Runs.bind ?_ ?_
    | (with_reducible assumption)
    | (with_reducible apply State.record_via; intro _)
    | (with_reducible apply Keeps.of_ite <;> intro _)
    | with_reducible exact Keeps.refl _
    | (with_reducible apply Keeps.of_pair (by assumption))
    | (with_reducible apply Keeps.of_triple (by assumption))
    | (fail_if_no_progress with_reducible refine Keeps.record ?_ rfl rfl rfl rfl rfl rfl rfl)
    | (with_reducible apply Keeps.foldl_via; intro _ _)
    | dsimp -zeta +zetaDelta only

theorem entryAt_runs (q : GovAt) (va : ℕ) (write : Bool) (s : State) :
    Runs s s (entryAt q va write) := by
  unfold entryAt
  apply Runs.start; intro o k
  repeat' first
    | split
    | (intro _)
    | extract_lets
    | with_reducible apply Runs.get_bind
    | with_reducible apply Runs.set_bind
    | with_reducible apply Runs.modify_bind
    | with_reducible apply Runs.pure_bind
    | with_reducible apply Runs.throw_bind
    | with_reducible apply Runs.of_pure
    | with_reducible apply Runs.of_throw
    | with_reducible apply Runs.of_modify
    | with_reducible apply Runs.of_set
    | with_reducible apply Runs.step (govTry_runs _ _ ?_)
    | with_reducible apply Runs.last (govTry_runs _ _ ?_)
    | with_reducible apply Runs.step (Runs.forM _ _ fun _ _ => Runs.start ?_)
    | with_reducible apply Runs.last (Runs.forM _ _ fun _ _ => Runs.start ?_)
    | with_reducible apply Runs.step (Runs.mapM _ _ fun _ _ => Runs.start ?_)
    | with_reducible apply Runs.last (Runs.mapM _ _ fun _ _ => Runs.start ?_)
    | with_reducible apply Runs.map
    | with_reducible apply Runs.exceptMap
    | with_reducible refine Runs.bind ?_ ?_
    | (with_reducible assumption)
    | with_reducible apply Keeps.via (State.translateRange_keeps ..)
    | (with_reducible apply State.record_via; intro _)
    | (with_reducible apply Keeps.of_ite <;> intro _)
    | with_reducible exact Keeps.refl _
    | (with_reducible apply Keeps.of_pair (by assumption))
    | (with_reducible apply Keeps.of_triple (by assumption))
    | (fail_if_no_progress with_reducible refine Keeps.record ?_ rfl rfl rfl rfl rfl rfl rfl)
    | (with_reducible apply Keeps.foldl_via; intro _ _)
    | dsimp -zeta +zetaDelta only

theorem entryRead_runs (q : GovAt) (va : ℕ) (s : State) :
    Runs s s (entryRead q va) := by
  unfold entryRead
  apply Runs.start; intro o k
  repeat' first
    | split
    | (intro _)
    | extract_lets
    | with_reducible apply Runs.get_bind
    | with_reducible apply Runs.set_bind
    | with_reducible apply Runs.modify_bind
    | with_reducible apply Runs.pure_bind
    | with_reducible apply Runs.throw_bind
    | with_reducible apply Runs.of_pure
    | with_reducible apply Runs.of_throw
    | with_reducible apply Runs.of_modify
    | with_reducible apply Runs.of_set
    | with_reducible apply Runs.step (entryAt_runs _ _ _)
    | with_reducible apply Runs.last (entryAt_runs _ _ _)
    | with_reducible apply Runs.step (govTry_runs _ _ ?_)
    | with_reducible apply Runs.last (govTry_runs _ _ ?_)
    | with_reducible apply Runs.step (Runs.forM _ _ fun _ _ => Runs.start ?_)
    | with_reducible apply Runs.last (Runs.forM _ _ fun _ _ => Runs.start ?_)
    | with_reducible apply Runs.step (Runs.mapM _ _ fun _ _ => Runs.start ?_)
    | with_reducible apply Runs.last (Runs.mapM _ _ fun _ _ => Runs.start ?_)
    | with_reducible apply Runs.map
    | with_reducible apply Runs.exceptMap
    | with_reducible refine Runs.bind ?_ ?_
    | (with_reducible assumption)
    | with_reducible apply Keeps.via (State.ledgerRead_keeps ..)
    | (with_reducible apply State.record_via; intro _)
    | (with_reducible apply Keeps.of_ite <;> intro _)
    | with_reducible exact Keeps.refl _
    | (with_reducible apply Keeps.of_pair (by assumption))
    | (with_reducible apply Keeps.of_triple (by assumption))
    | (fail_if_no_progress with_reducible refine Keeps.record ?_ rfl rfl rfl rfl rfl rfl rfl)
    | (with_reducible apply Keeps.foldl_via; intro _ _)
    | dsimp -zeta +zetaDelta only

theorem lineEntry_runs (q : GovAt) (d : GDesc) (s : State) :
    Runs s s (lineEntry q d) := by
  unfold lineEntry
  apply Runs.start; intro o k
  repeat' first
    | split
    | (intro _)
    | extract_lets
    | with_reducible apply Runs.get_bind
    | with_reducible apply Runs.set_bind
    | with_reducible apply Runs.modify_bind
    | with_reducible apply Runs.pure_bind
    | with_reducible apply Runs.throw_bind
    | with_reducible apply Runs.of_pure
    | with_reducible apply Runs.of_throw
    | with_reducible apply Runs.of_modify
    | with_reducible apply Runs.of_set
    | with_reducible apply Runs.step (entryRead_runs _ _)
    | with_reducible apply Runs.last (entryRead_runs _ _)
    | with_reducible apply Runs.step (Runs.forM _ _ fun _ _ => Runs.start ?_)
    | with_reducible apply Runs.last (Runs.forM _ _ fun _ _ => Runs.start ?_)
    | with_reducible apply Runs.step (Runs.mapM _ _ fun _ _ => Runs.start ?_)
    | with_reducible apply Runs.last (Runs.mapM _ _ fun _ _ => Runs.start ?_)
    | with_reducible apply Runs.map
    | with_reducible apply Runs.exceptMap
    | with_reducible refine Runs.bind ?_ ?_
    | (with_reducible assumption)
    | (with_reducible apply State.record_via; intro _)
    | (with_reducible apply Keeps.of_ite <;> intro _)
    | with_reducible exact Keeps.refl _
    | (with_reducible apply Keeps.of_pair (by assumption))
    | (with_reducible apply Keeps.of_triple (by assumption))
    | (fail_if_no_progress with_reducible refine Keeps.record ?_ rfl rfl rfl rfl rfl rfl rfl)
    | (with_reducible apply Keeps.foldl_via; intro _ _)
    | dsimp -zeta +zetaDelta only

theorem writesPrimed_runs (q : GovAt) (d : GDesc) (s : State) :
    Runs s s (writesPrimed q d) := by
  unfold writesPrimed
  apply Runs.start; intro o k
  repeat' first
    | split
    | (intro _)
    | extract_lets
    | with_reducible apply Runs.get_bind
    | with_reducible apply Runs.set_bind
    | with_reducible apply Runs.modify_bind
    | with_reducible apply Runs.pure_bind
    | with_reducible apply Runs.throw_bind
    | with_reducible apply Runs.of_pure
    | with_reducible apply Runs.of_throw
    | with_reducible apply Runs.of_modify
    | with_reducible apply Runs.of_set
    | with_reducible apply Runs.step (lineEntry_runs _ _)
    | with_reducible apply Runs.last (lineEntry_runs _ _)
    | with_reducible apply Runs.step (Runs.forM _ _ fun _ _ => Runs.start ?_)
    | with_reducible apply Runs.last (Runs.forM _ _ fun _ _ => Runs.start ?_)
    | with_reducible apply Runs.step (Runs.mapM _ _ fun _ _ => Runs.start ?_)
    | with_reducible apply Runs.last (Runs.mapM _ _ fun _ _ => Runs.start ?_)
    | with_reducible apply Runs.map
    | with_reducible apply Runs.exceptMap
    | with_reducible refine Runs.bind ?_ ?_
    | (with_reducible assumption)
    | (with_reducible apply State.record_via; intro _)
    | (with_reducible apply Keeps.of_ite <;> intro _)
    | with_reducible exact Keeps.refl _
    | (with_reducible apply Keeps.of_pair (by assumption))
    | (with_reducible apply Keeps.of_triple (by assumption))
    | (fail_if_no_progress with_reducible refine Keeps.record ?_ rfl rfl rfl rfl rfl rfl rfl)
    | (with_reducible apply Keeps.foldl_via; intro _ _)
    | dsimp -zeta +zetaDelta only

theorem storeDone_runs (q : GovAt) (d : GDesc) (s : State) :
    Runs s s (storeDone q d) := by
  unfold storeDone
  apply Runs.start; intro o k
  repeat' first
    | split
    | (intro _)
    | extract_lets
    | with_reducible apply Runs.get_bind
    | with_reducible apply Runs.set_bind
    | with_reducible apply Runs.modify_bind
    | with_reducible apply Runs.pure_bind
    | with_reducible apply Runs.throw_bind
    | with_reducible apply Runs.of_pure
    | with_reducible apply Runs.of_throw
    | with_reducible apply Runs.of_modify
    | with_reducible apply Runs.of_set
    | with_reducible apply Runs.step (govWrite_runs _ _ _)
    | with_reducible apply Runs.last (govWrite_runs _ _ _)
    | with_reducible apply Runs.step (Runs.forM _ _ fun _ _ => Runs.start ?_)
    | with_reducible apply Runs.last (Runs.forM _ _ fun _ _ => Runs.start ?_)
    | with_reducible apply Runs.step (Runs.mapM _ _ fun _ _ => Runs.start ?_)
    | with_reducible apply Runs.last (Runs.mapM _ _ fun _ _ => Runs.start ?_)
    | with_reducible apply Runs.map
    | with_reducible apply Runs.exceptMap
    | with_reducible refine Runs.bind ?_ ?_
    | (with_reducible assumption)
    | (with_reducible apply State.record_via; intro _)
    | (with_reducible apply Keeps.of_ite <;> intro _)
    | with_reducible exact Keeps.refl _
    | (with_reducible apply Keeps.of_pair (by assumption))
    | (with_reducible apply Keeps.of_triple (by assumption))
    | (fail_if_no_progress with_reducible refine Keeps.record ?_ rfl rfl rfl rfl rfl rfl rfl)
    | (with_reducible apply Keeps.foldl_via; intro _ _)
    | dsimp -zeta +zetaDelta only

theorem beginWrite_runs (q : GovAt) (stage : ℕ) (j : LineJob) (d : GDesc) (s : State) :
    Runs s s (beginWrite q stage j d) := by
  unfold beginWrite
  apply Runs.start; intro o k
  repeat' first
    | split
    | (intro _)
    | extract_lets
    | with_reducible apply Runs.get_bind
    | with_reducible apply Runs.set_bind
    | with_reducible apply Runs.modify_bind
    | with_reducible apply Runs.pure_bind
    | with_reducible apply Runs.throw_bind
    | with_reducible apply Runs.of_pure
    | with_reducible apply Runs.of_throw
    | with_reducible apply Runs.of_modify
    | with_reducible apply Runs.of_set
    | with_reducible apply Runs.step (storeDone_runs _ _)
    | with_reducible apply Runs.last (storeDone_runs _ _)
    | with_reducible apply Runs.step (storeFmt_runs _ _)
    | with_reducible apply Runs.last (storeFmt_runs _ _)
    | with_reducible apply Runs.step (writeFmt_runs _ _ _)
    | with_reducible apply Runs.last (writeFmt_runs _ _ _)
    | with_reducible apply Runs.step (writesPrimed_runs _ _)
    | with_reducible apply Runs.last (writesPrimed_runs _ _)
    | with_reducible apply Runs.step (Runs.forM _ _ fun _ _ => Runs.start ?_)
    | with_reducible apply Runs.last (Runs.forM _ _ fun _ _ => Runs.start ?_)
    | with_reducible apply Runs.step (Runs.mapM _ _ fun _ _ => Runs.start ?_)
    | with_reducible apply Runs.last (Runs.mapM _ _ fun _ _ => Runs.start ?_)
    | with_reducible apply Runs.map
    | with_reducible apply Runs.exceptMap
    | with_reducible refine Runs.bind ?_ ?_
    | (with_reducible assumption)
    | with_reducible apply Keeps.via (State.primeEvents_keeps ..)
    | with_reducible apply Keeps.via (State.setGovOp_keeps ..)
    | with_reducible apply Keeps.via (State.watchVersion_keeps ..)
    | (with_reducible apply State.record_via; intro _)
    | (with_reducible apply Keeps.of_ite <;> intro _)
    | with_reducible exact Keeps.refl _
    | (with_reducible apply Keeps.of_pair (by assumption))
    | (with_reducible apply Keeps.of_triple (by assumption))
    | (fail_if_no_progress with_reducible refine Keeps.record ?_ rfl rfl rfl rfl rfl rfl rfl)
    | (with_reducible apply Keeps.foldl_via; intro _ _)
    | dsimp -zeta +zetaDelta only

theorem jobOp_runs (q : GovAt) (stage : ℕ) (j : LineJob) (d : GDesc) (s : State) :
    Runs s s (jobOp q stage j d) := by
  unfold jobOp
  apply Runs.start; intro o k
  repeat' first
    | split
    | (intro _)
    | extract_lets
    | with_reducible apply Runs.get_bind
    | with_reducible apply Runs.set_bind
    | with_reducible apply Runs.modify_bind
    | with_reducible apply Runs.pure_bind
    | with_reducible apply Runs.throw_bind
    | with_reducible apply Runs.of_pure
    | with_reducible apply Runs.of_throw
    | with_reducible apply Runs.of_modify
    | with_reducible apply Runs.of_set
    | with_reducible apply Runs.step (beginWrite_runs _ _ _ _)
    | with_reducible apply Runs.last (beginWrite_runs _ _ _ _)
    | with_reducible apply Runs.step (Runs.forM _ _ fun _ _ => Runs.start ?_)
    | with_reducible apply Runs.last (Runs.forM _ _ fun _ _ => Runs.start ?_)
    | with_reducible apply Runs.step (Runs.mapM _ _ fun _ _ => Runs.start ?_)
    | with_reducible apply Runs.last (Runs.mapM _ _ fun _ _ => Runs.start ?_)
    | with_reducible apply Runs.map
    | with_reducible apply Runs.exceptMap
    | with_reducible refine Runs.bind ?_ ?_
    | (with_reducible assumption)
    | (with_reducible apply State.record_via; intro _)
    | (with_reducible apply Keeps.of_ite <;> intro _)
    | with_reducible exact Keeps.refl _
    | (with_reducible apply Keeps.of_pair (by assumption))
    | (with_reducible apply Keeps.of_triple (by assumption))
    | (fail_if_no_progress with_reducible refine Keeps.record ?_ rfl rfl rfl rfl rfl rfl rfl)
    | (with_reducible apply Keeps.foldl_via; intro _ _)
    | dsimp -zeta +zetaDelta only

theorem entryWrite_runs (q : GovAt) (va : ℕ) (w : ℕ) (s : State) :
    Runs s s (entryWrite q va w) := by
  unfold entryWrite
  apply Runs.start; intro o k
  repeat' first
    | split
    | (intro _)
    | extract_lets
    | with_reducible apply Runs.get_bind
    | with_reducible apply Runs.set_bind
    | with_reducible apply Runs.modify_bind
    | with_reducible apply Runs.pure_bind
    | with_reducible apply Runs.throw_bind
    | with_reducible apply Runs.of_pure
    | with_reducible apply Runs.of_throw
    | with_reducible apply Runs.of_modify
    | with_reducible apply Runs.of_set
    | with_reducible apply Runs.step (entryAt_runs _ _ _)
    | with_reducible apply Runs.last (entryAt_runs _ _ _)
    | with_reducible apply Runs.step (Runs.forM _ _ fun _ _ => Runs.start ?_)
    | with_reducible apply Runs.last (Runs.forM _ _ fun _ _ => Runs.start ?_)
    | with_reducible apply Runs.step (Runs.mapM _ _ fun _ _ => Runs.start ?_)
    | with_reducible apply Runs.last (Runs.mapM _ _ fun _ _ => Runs.start ?_)
    | with_reducible apply Runs.map
    | with_reducible apply Runs.exceptMap
    | with_reducible refine Runs.bind ?_ ?_
    | (with_reducible assumption)
    | with_reducible apply Keeps.via (State.ledgerWrite_keeps ..)
    | (with_reducible apply State.record_via; intro _)
    | (with_reducible apply Keeps.of_ite <;> intro _)
    | with_reducible exact Keeps.refl _
    | (with_reducible apply Keeps.of_pair (by assumption))
    | (with_reducible apply Keeps.of_triple (by assumption))
    | (fail_if_no_progress with_reducible refine Keeps.record ?_ rfl rfl rfl rfl rfl rfl rfl)
    | (with_reducible apply Keeps.foldl_via; intro _ _)
    | dsimp -zeta +zetaDelta only

theorem State.setOpenLine_keeps (s : State) (m : MillId) (o : OpenLine) :
    Keeps s (State.setOpenLine s m o) := by
  unfold State.setOpenLine
  repeat' first
    | split
    | extract_lets
    | with_reducible apply Keeps.via (Keeps.onGov ..)
    | (with_reducible apply Keeps.of_ite <;> intro _)
    | with_reducible exact Keeps.refl _
    | (with_reducible apply Keeps.of_pair (by assumption))
    | (with_reducible apply Keeps.of_triple (by assumption))
    | (fail_if_no_progress with_reducible refine Keeps.record ?_ rfl rfl rfl rfl rfl rfl rfl)
    | (with_reducible apply Keeps.foldl_via; intro _ _)
    | (fail_if_no_progress dsimp -zeta +zetaDelta only)

theorem takeLine_runs (q : GovAt) (stage : ℕ) (d : GDesc) (primed : Bool) (s : State) :
    Runs s s (takeLine q stage d primed) := by
  unfold takeLine
  apply Runs.start; intro o k
  repeat' first
    | split
    | (intro _)
    | extract_lets
    | with_reducible apply Runs.get_bind
    | with_reducible apply Runs.set_bind
    | with_reducible apply Runs.modify_bind
    | with_reducible apply Runs.pure_bind
    | with_reducible apply Runs.throw_bind
    | with_reducible apply Runs.of_pure
    | with_reducible apply Runs.of_throw
    | with_reducible apply Runs.of_modify
    | with_reducible apply Runs.of_set
    | with_reducible apply Runs.step (entryWrite_runs _ _ _)
    | with_reducible apply Runs.last (entryWrite_runs _ _ _)
    | with_reducible apply Runs.step (lineEntry_runs _ _)
    | with_reducible apply Runs.last (lineEntry_runs _ _)
    | with_reducible apply Runs.step (Runs.forM _ _ fun _ _ => Runs.start ?_)
    | with_reducible apply Runs.last (Runs.forM _ _ fun _ _ => Runs.start ?_)
    | with_reducible apply Runs.step (Runs.mapM _ _ fun _ _ => Runs.start ?_)
    | with_reducible apply Runs.last (Runs.mapM _ _ fun _ _ => Runs.start ?_)
    | with_reducible apply Runs.map
    | with_reducible apply Runs.exceptMap
    | with_reducible refine Runs.bind ?_ ?_
    | (with_reducible assumption)
    | with_reducible apply Keeps.via (State.setOpenLine_keeps ..)
    | with_reducible apply Keeps.via (State.takeInj_keeps ..)
    | (with_reducible apply State.record_via; intro _)
    | (with_reducible apply Keeps.of_ite <;> intro _)
    | with_reducible exact Keeps.refl _
    | (with_reducible apply Keeps.of_pair (by assumption))
    | (with_reducible apply Keeps.of_triple (by assumption))
    | (fail_if_no_progress with_reducible refine Keeps.record ?_ rfl rfl rfl rfl rfl rfl rfl)
    | (with_reducible apply Keeps.foldl_via; intro _ _)
    | dsimp -zeta +zetaDelta only

theorem stageLine_runs (q : GovAt) (stage : ℕ) (d : GDesc) (primed : Bool) (s : State) :
    Runs s s (stageLine q stage d primed) := by
  unfold stageLine
  apply Runs.start; intro o k
  repeat' first
    | split
    | (intro _)
    | extract_lets
    | with_reducible apply Runs.get_bind
    | with_reducible apply Runs.set_bind
    | with_reducible apply Runs.modify_bind
    | with_reducible apply Runs.pure_bind
    | with_reducible apply Runs.throw_bind
    | with_reducible apply Runs.of_pure
    | with_reducible apply Runs.of_throw
    | with_reducible apply Runs.of_modify
    | with_reducible apply Runs.of_set
    | with_reducible apply Runs.step (takeLine_runs _ _ _ _)
    | with_reducible apply Runs.last (takeLine_runs _ _ _ _)
    | with_reducible apply Runs.step (Runs.forM _ _ fun _ _ => Runs.start ?_)
    | with_reducible apply Runs.last (Runs.forM _ _ fun _ _ => Runs.start ?_)
    | with_reducible apply Runs.step (Runs.mapM _ _ fun _ _ => Runs.start ?_)
    | with_reducible apply Runs.last (Runs.mapM _ _ fun _ _ => Runs.start ?_)
    | with_reducible apply Runs.map
    | with_reducible apply Runs.exceptMap
    | with_reducible refine Runs.bind ?_ ?_
    | (with_reducible assumption)
    | (with_reducible apply State.record_via; intro _)
    | (with_reducible apply Keeps.of_ite <;> intro _)
    | with_reducible exact Keeps.refl _
    | (with_reducible apply Keeps.of_pair (by assumption))
    | (with_reducible apply Keeps.of_triple (by assumption))
    | (fail_if_no_progress with_reducible refine Keeps.record ?_ rfl rfl rfl rfl rfl rfl rfl)
    | (with_reducible apply Keeps.foldl_via; intro _ _)
    | dsimp -zeta +zetaDelta only

theorem govPut_runs (q : GovAt) (base : ℕ) (bits : ℕ) (first : ℕ) (items : List (Option ℕ)) (s : State) :
    Runs s s (govPut q base bits first items) := by
  unfold govPut
  apply Runs.start; intro o k
  repeat' first
    | split
    | (intro _)
    | extract_lets
    | with_reducible apply Runs.get_bind
    | with_reducible apply Runs.set_bind
    | with_reducible apply Runs.modify_bind
    | with_reducible apply Runs.pure_bind
    | with_reducible apply Runs.throw_bind
    | with_reducible apply Runs.of_pure
    | with_reducible apply Runs.of_throw
    | with_reducible apply Runs.of_modify
    | with_reducible apply Runs.of_set
    | with_reducible apply Runs.step (govRead_runs _ _ _)
    | with_reducible apply Runs.last (govRead_runs _ _ _)
    | with_reducible apply Runs.step (govWrite_runs _ _ _)
    | with_reducible apply Runs.last (govWrite_runs _ _ _)
    | with_reducible apply Runs.step (Runs.forM _ _ fun _ _ => Runs.start ?_)
    | with_reducible apply Runs.last (Runs.forM _ _ fun _ _ => Runs.start ?_)
    | with_reducible apply Runs.step (Runs.mapM _ _ fun _ _ => Runs.start ?_)
    | with_reducible apply Runs.last (Runs.mapM _ _ fun _ _ => Runs.start ?_)
    | with_reducible apply Runs.map
    | with_reducible apply Runs.exceptMap
    | with_reducible refine Runs.bind ?_ ?_
    | (with_reducible assumption)
    | (with_reducible apply State.record_via; intro _)
    | (with_reducible apply Keeps.of_ite <;> intro _)
    | with_reducible exact Keeps.refl _
    | (with_reducible apply Keeps.of_pair (by assumption))
    | (with_reducible apply Keeps.of_triple (by assumption))
    | (fail_if_no_progress with_reducible refine Keeps.record ?_ rfl rfl rfl rfl rfl rfl rfl)
    | (with_reducible apply Keeps.foldl_via; intro _ _)
    | dsimp -zeta +zetaDelta only

theorem writeCodes_runs (q : GovAt) (j : LineJob) (d : GDesc) (bits : ℕ) (codes : List (Option ℕ)) (s : State) :
    Runs s s (writeCodes q j d bits codes) := by
  unfold writeCodes
  apply Runs.start; intro o k
  repeat' first
    | split
    | (intro _)
    | extract_lets
    | with_reducible apply Runs.get_bind
    | with_reducible apply Runs.set_bind
    | with_reducible apply Runs.modify_bind
    | with_reducible apply Runs.pure_bind
    | with_reducible apply Runs.throw_bind
    | with_reducible apply Runs.of_pure
    | with_reducible apply Runs.of_throw
    | with_reducible apply Runs.of_modify
    | with_reducible apply Runs.of_set
    | with_reducible apply Runs.step (govPut_runs _ _ _ _ _)
    | with_reducible apply Runs.last (govPut_runs _ _ _ _ _)
    | with_reducible apply Runs.step (Runs.forM _ _ fun _ _ => Runs.start ?_)
    | with_reducible apply Runs.last (Runs.forM _ _ fun _ _ => Runs.start ?_)
    | with_reducible apply Runs.step (Runs.mapM _ _ fun _ _ => Runs.start ?_)
    | with_reducible apply Runs.last (Runs.mapM _ _ fun _ _ => Runs.start ?_)
    | with_reducible apply Runs.map
    | with_reducible apply Runs.exceptMap
    | with_reducible refine Runs.bind ?_ ?_
    | (with_reducible assumption)
    | with_reducible apply Keeps.via (State.hopperRace_keeps ..)
    | (with_reducible apply State.record_via; intro _)
    | (with_reducible apply Keeps.of_ite <;> intro _)
    | with_reducible exact Keeps.refl _
    | (with_reducible apply Keeps.of_pair (by assumption))
    | (with_reducible apply Keeps.of_triple (by assumption))
    | exact Keeps.trans (by assumption) (Keeps.hoppers _ fun h => Memory.wf_writeBytes _ _ h)
    | (fail_if_no_progress with_reducible refine Keeps.record ?_ rfl rfl rfl rfl rfl rfl rfl)
    | (with_reducible apply Keeps.foldl_via; intro _ _)
    | dsimp -zeta +zetaDelta only

theorem countLayer_runs (q : GovAt) (d : GDesc) (f : Fmt) (c : WriteCounts) (s : State) :
    Runs s s (countLayer q d f c) := by
  unfold countLayer
  apply Runs.start; intro o k
  repeat' first
    | split
    | (intro _)
    | extract_lets
    | with_reducible apply Runs.get_bind
    | with_reducible apply Runs.set_bind
    | with_reducible apply Runs.modify_bind
    | with_reducible apply Runs.pure_bind
    | with_reducible apply Runs.throw_bind
    | with_reducible apply Runs.of_pure
    | with_reducible apply Runs.of_throw
    | with_reducible apply Runs.of_modify
    | with_reducible apply Runs.of_set
    | with_reducible apply Runs.step (govGet_runs _ _ _ _ _)
    | with_reducible apply Runs.last (govGet_runs _ _ _ _ _)
    | with_reducible apply Runs.step (govWrite_runs _ _ _)
    | with_reducible apply Runs.last (govWrite_runs _ _ _)
    | with_reducible apply Runs.step (readLayer_runs _ _)
    | with_reducible apply Runs.last (readLayer_runs _ _)
    | with_reducible apply Runs.step (storeLayer_runs _ _)
    | with_reducible apply Runs.last (storeLayer_runs _ _)
    | with_reducible apply Runs.step (Runs.forM _ _ fun _ _ => Runs.start ?_)
    | with_reducible apply Runs.last (Runs.forM _ _ fun _ _ => Runs.start ?_)
    | with_reducible apply Runs.step (Runs.mapM _ _ fun _ _ => Runs.start ?_)
    | with_reducible apply Runs.last (Runs.mapM _ _ fun _ _ => Runs.start ?_)
    | with_reducible apply Runs.map
    | with_reducible apply Runs.exceptMap
    | with_reducible refine Runs.bind ?_ ?_
    | (with_reducible assumption)
    | (with_reducible apply State.record_via; intro _)
    | (with_reducible apply Keeps.of_ite <;> intro _)
    | with_reducible exact Keeps.refl _
    | (with_reducible apply Keeps.of_pair (by assumption))
    | (with_reducible apply Keeps.of_triple (by assumption))
    | (fail_if_no_progress with_reducible refine Keeps.record ?_ rfl rfl rfl rfl rfl rfl rfl)
    | (with_reducible apply Keeps.foldl_via; intro _ _)
    | dsimp -zeta +zetaDelta only

theorem State.watchJob_keeps (s : State) (m : MillId) (stage : ℕ) (j : LineJob) (d : GDesc) (codes : List (Option (W32 × ℕ × Bool))) :
    Keeps s (State.watchJob s m stage j d codes) := by
  unfold State.watchJob
  repeat' first
    | split
    | extract_lets
    | with_reducible apply Keeps.via (State.watchPiece_keeps ..)
    | (with_reducible apply Keeps.of_ite <;> intro _)
    | with_reducible exact Keeps.refl _
    | (with_reducible apply Keeps.of_pair (by assumption))
    | (with_reducible apply Keeps.of_triple (by assumption))
    | (fail_if_no_progress with_reducible refine Keeps.record ?_ rfl rfl rfl rfl rfl rfl rfl)
    | (with_reducible apply Keeps.foldl_via; intro _ _)
    | (fail_if_no_progress dsimp -zeta +zetaDelta only)

theorem State.dropOpenLine_keeps (s : State) (m : MillId) (o : OpenLine) :
    Keeps s (State.dropOpenLine s m o) := by
  unfold State.dropOpenLine
  repeat' first
    | split
    | extract_lets
    | with_reducible apply Keeps.via (Keeps.onGov ..)
    | (with_reducible apply Keeps.of_ite <;> intro _)
    | with_reducible exact Keeps.refl _
    | (with_reducible apply Keeps.of_pair (by assumption))
    | (with_reducible apply Keeps.of_triple (by assumption))
    | (fail_if_no_progress with_reducible refine Keeps.record ?_ rfl rfl rfl rfl rfl rfl rfl)
    | (with_reducible apply Keeps.foldl_via; intro _ _)
    | (fail_if_no_progress dsimp -zeta +zetaDelta only)

theorem finishMasked_runs (q : GovAt) (d : GDesc) (o : OpenLine) (old : ℕ) (s : State) :
    Runs s s (finishMasked q d o old) := by
  unfold finishMasked
  apply Runs.start; intro o k
  repeat' first
    | split
    | (intro _)
    | extract_lets
    | with_reducible apply Runs.get_bind
    | with_reducible apply Runs.set_bind
    | with_reducible apply Runs.modify_bind
    | with_reducible apply Runs.pure_bind
    | with_reducible apply Runs.throw_bind
    | with_reducible apply Runs.of_pure
    | with_reducible apply Runs.of_throw
    | with_reducible apply Runs.of_modify
    | with_reducible apply Runs.of_set
    | with_reducible apply Runs.step (entryWrite_runs _ _ _)
    | with_reducible apply Runs.last (entryWrite_runs _ _ _)
    | with_reducible apply Runs.step (storeDone_runs _ _)
    | with_reducible apply Runs.last (storeDone_runs _ _)
    | with_reducible apply Runs.step (Runs.forM _ _ fun _ _ => Runs.start ?_)
    | with_reducible apply Runs.last (Runs.forM _ _ fun _ _ => Runs.start ?_)
    | with_reducible apply Runs.step (Runs.mapM _ _ fun _ _ => Runs.start ?_)
    | with_reducible apply Runs.last (Runs.mapM _ _ fun _ _ => Runs.start ?_)
    | with_reducible apply Runs.map
    | with_reducible apply Runs.exceptMap
    | with_reducible refine Runs.bind ?_ ?_
    | (with_reducible assumption)
    | (with_reducible apply State.record_via; intro _)
    | (with_reducible apply Keeps.of_ite <;> intro _)
    | with_reducible exact Keeps.refl _
    | (with_reducible apply Keeps.of_pair (by assumption))
    | (with_reducible apply Keeps.of_triple (by assumption))
    | (fail_if_no_progress with_reducible refine Keeps.record ?_ rfl rfl rfl rfl rfl rfl rfl)
    | (with_reducible apply Keeps.foldl_via; intro _ _)
    | dsimp -zeta +zetaDelta only

theorem finishPrimed_runs (q : GovAt) (d : GDesc) (o : OpenLine) (e : ℤ) (s : State) :
    Runs s s (finishPrimed q d o e) := by
  unfold finishPrimed
  apply Runs.start; intro o k
  repeat' first
    | split
    | (intro _)
    | extract_lets
    | with_reducible apply Runs.get_bind
    | with_reducible apply Runs.set_bind
    | with_reducible apply Runs.modify_bind
    | with_reducible apply Runs.pure_bind
    | with_reducible apply Runs.throw_bind
    | with_reducible apply Runs.of_pure
    | with_reducible apply Runs.of_throw
    | with_reducible apply Runs.of_modify
    | with_reducible apply Runs.of_set
    | with_reducible apply Runs.step (entryWrite_runs _ _ _)
    | with_reducible apply Runs.last (entryWrite_runs _ _ _)
    | with_reducible apply Runs.step (storeDone_runs _ _)
    | with_reducible apply Runs.last (storeDone_runs _ _)
    | with_reducible apply Runs.step (Runs.forM _ _ fun _ _ => Runs.start ?_)
    | with_reducible apply Runs.last (Runs.forM _ _ fun _ _ => Runs.start ?_)
    | with_reducible apply Runs.step (Runs.mapM _ _ fun _ _ => Runs.start ?_)
    | with_reducible apply Runs.last (Runs.mapM _ _ fun _ _ => Runs.start ?_)
    | with_reducible apply Runs.map
    | with_reducible apply Runs.exceptMap
    | with_reducible refine Runs.bind ?_ ?_
    | (with_reducible assumption)
    | with_reducible apply Keeps.via (State.tally_keeps ..)
    | (with_reducible apply State.record_via; intro _)
    | (with_reducible apply Keeps.of_ite <;> intro _)
    | with_reducible exact Keeps.refl _
    | (with_reducible apply Keeps.of_pair (by assumption))
    | (with_reducible apply Keeps.of_triple (by assumption))
    | (fail_if_no_progress with_reducible refine Keeps.record ?_ rfl rfl rfl rfl rfl rfl rfl)
    | (with_reducible apply Keeps.foldl_via; intro _ _)
    | dsimp -zeta +zetaDelta only

theorem finishNormal_runs (q : GovAt) (d : GDesc) (o : OpenLine) (e : ℤ) (old : ℕ) (s : State) :
    Runs s s (finishNormal q d o e old) := by
  unfold finishNormal
  apply Runs.start; intro o k
  repeat' first
    | split
    | (intro _)
    | extract_lets
    | with_reducible apply Runs.get_bind
    | with_reducible apply Runs.set_bind
    | with_reducible apply Runs.modify_bind
    | with_reducible apply Runs.pure_bind
    | with_reducible apply Runs.throw_bind
    | with_reducible apply Runs.of_pure
    | with_reducible apply Runs.of_throw
    | with_reducible apply Runs.of_modify
    | with_reducible apply Runs.of_set
    | with_reducible apply Runs.step (entryWrite_runs _ _ _)
    | with_reducible apply Runs.last (entryWrite_runs _ _ _)
    | with_reducible apply Runs.step (storeDone_runs _ _)
    | with_reducible apply Runs.last (storeDone_runs _ _)
    | with_reducible apply Runs.step (Runs.forM _ _ fun _ _ => Runs.start ?_)
    | with_reducible apply Runs.last (Runs.forM _ _ fun _ _ => Runs.start ?_)
    | with_reducible apply Runs.step (Runs.mapM _ _ fun _ _ => Runs.start ?_)
    | with_reducible apply Runs.last (Runs.mapM _ _ fun _ _ => Runs.start ?_)
    | with_reducible apply Runs.map
    | with_reducible apply Runs.exceptMap
    | with_reducible refine Runs.bind ?_ ?_
    | (with_reducible assumption)
    | with_reducible apply Keeps.via (State.tally_keeps ..)
    | (with_reducible apply State.record_via; intro _)
    | (with_reducible apply Keeps.of_ite <;> intro _)
    | with_reducible exact Keeps.refl _
    | (with_reducible apply Keeps.of_pair (by assumption))
    | (with_reducible apply Keeps.of_triple (by assumption))
    | (fail_if_no_progress with_reducible refine Keeps.record ?_ rfl rfl rfl rfl rfl rfl rfl)
    | (with_reducible apply Keeps.foldl_via; intro _ _)
    | dsimp -zeta +zetaDelta only

theorem finishLine_runs (q : GovAt) (d : GDesc) (f : Fmt) (o : OpenLine) (s : State) :
    Runs s s (finishLine q d f o) := by
  unfold finishLine
  apply Runs.start; intro o k
  repeat' first
    | split
    | (intro _)
    | extract_lets
    | with_reducible apply Runs.get_bind
    | with_reducible apply Runs.set_bind
    | with_reducible apply Runs.modify_bind
    | with_reducible apply Runs.pure_bind
    | with_reducible apply Runs.throw_bind
    | with_reducible apply Runs.of_pure
    | with_reducible apply Runs.of_throw
    | with_reducible apply Runs.of_modify
    | with_reducible apply Runs.of_set
    | with_reducible apply Runs.step (entryRead_runs _ _)
    | with_reducible apply Runs.last (entryRead_runs _ _)
    | with_reducible apply Runs.step (finishMasked_runs _ _ _ _)
    | with_reducible apply Runs.last (finishMasked_runs _ _ _ _)
    | with_reducible apply Runs.step (finishNormal_runs _ _ _ _ _)
    | with_reducible apply Runs.last (finishNormal_runs _ _ _ _ _)
    | with_reducible apply Runs.step (finishPrimed_runs _ _ _ _)
    | with_reducible apply Runs.last (finishPrimed_runs _ _ _ _)
    | with_reducible apply Runs.step (Runs.forM _ _ fun _ _ => Runs.start ?_)
    | with_reducible apply Runs.last (Runs.forM _ _ fun _ _ => Runs.start ?_)
    | with_reducible apply Runs.step (Runs.mapM _ _ fun _ _ => Runs.start ?_)
    | with_reducible apply Runs.last (Runs.mapM _ _ fun _ _ => Runs.start ?_)
    | with_reducible apply Runs.map
    | with_reducible apply Runs.exceptMap
    | with_reducible refine Runs.bind ?_ ?_
    | (with_reducible assumption)
    | with_reducible apply Keeps.via (State.dropOpenLine_keeps ..)
    | (with_reducible apply State.record_via; intro _)
    | (with_reducible apply Keeps.of_ite <;> intro _)
    | with_reducible exact Keeps.refl _
    | (with_reducible apply Keeps.of_pair (by assumption))
    | (with_reducible apply Keeps.of_triple (by assumption))
    | (fail_if_no_progress with_reducible refine Keeps.record ?_ rfl rfl rfl rfl rfl rfl rfl)
    | (with_reducible apply Keeps.foldl_via; intro _ _)
    | dsimp -zeta +zetaDelta only

theorem writeScaled_runs (q : GovAt) (stage : ℕ) (j : LineJob) (d : GDesc) (x : GovOp) (f : Fmt) (els : List (Option W32)) (s : State) :
    Runs s s (writeScaled q stage j d x f els) := by
  unfold writeScaled
  apply Runs.start; intro o k
  repeat' first
    | split
    | (intro _)
    | extract_lets
    | with_reducible apply Runs.get_bind
    | with_reducible apply Runs.set_bind
    | with_reducible apply Runs.modify_bind
    | with_reducible apply Runs.pure_bind
    | with_reducible apply Runs.throw_bind
    | with_reducible apply Runs.of_pure
    | with_reducible apply Runs.of_throw
    | with_reducible apply Runs.of_modify
    | with_reducible apply Runs.of_set
    | with_reducible apply Runs.step (countLayer_runs _ _ _ _)
    | with_reducible apply Runs.last (countLayer_runs _ _ _ _)
    | with_reducible apply Runs.step (finishLine_runs _ _ _ _)
    | with_reducible apply Runs.last (finishLine_runs _ _ _ _)
    | with_reducible apply Runs.step (govPut_runs _ _ _ _ _)
    | with_reducible apply Runs.last (govPut_runs _ _ _ _ _)
    | with_reducible apply Runs.step (stageLine_runs _ _ _ _)
    | with_reducible apply Runs.last (stageLine_runs _ _ _ _)
    | with_reducible apply Runs.step (writeCodes_runs _ _ _ _ _)
    | with_reducible apply Runs.last (writeCodes_runs _ _ _ _ _)
    | with_reducible apply Runs.step (Runs.forM _ _ fun _ _ => Runs.start ?_)
    | with_reducible apply Runs.last (Runs.forM _ _ fun _ _ => Runs.start ?_)
    | with_reducible apply Runs.step (Runs.mapM _ _ fun _ _ => Runs.start ?_)
    | with_reducible apply Runs.last (Runs.mapM _ _ fun _ _ => Runs.start ?_)
    | with_reducible apply Runs.map
    | with_reducible apply Runs.exceptMap
    | with_reducible refine Runs.bind ?_ ?_
    | (with_reducible assumption)
    | with_reducible apply Keeps.via (State.setOpenLine_keeps ..)
    | with_reducible apply Keeps.via (State.takeInj_keeps ..)
    | with_reducible apply Keeps.via (State.tally_keeps ..)
    | with_reducible apply Keeps.via (State.tallyWrite_keeps ..)
    | with_reducible apply Keeps.via (State.watchJob_keeps ..)
    | (with_reducible apply State.record_via; intro _)
    | (with_reducible apply Keeps.of_ite <;> intro _)
    | with_reducible exact Keeps.refl _
    | (with_reducible apply Keeps.of_pair (by assumption))
    | (with_reducible apply Keeps.of_triple (by assumption))
    | (fail_if_no_progress with_reducible refine Keeps.record ?_ rfl rfl rfl rfl rfl rfl rfl)
    | (with_reducible apply Keeps.foldl_via; intro _ _)
    | dsimp -zeta +zetaDelta only

theorem writeFP32_runs (q : GovAt) (stage : ℕ) (j : LineJob) (d : GDesc) (els : List (Option W32)) (s : State) :
    Runs s s (writeFP32 q stage j d els) := by
  unfold writeFP32
  apply Runs.start; intro o k
  repeat' first
    | split
    | (intro _)
    | extract_lets
    | with_reducible apply Runs.get_bind
    | with_reducible apply Runs.set_bind
    | with_reducible apply Runs.modify_bind
    | with_reducible apply Runs.pure_bind
    | with_reducible apply Runs.throw_bind
    | with_reducible apply Runs.of_pure
    | with_reducible apply Runs.of_throw
    | with_reducible apply Runs.of_modify
    | with_reducible apply Runs.of_set
    | with_reducible apply Runs.step (storeDone_runs _ _)
    | with_reducible apply Runs.last (storeDone_runs _ _)
    | with_reducible apply Runs.step (writeCodes_runs _ _ _ _ _)
    | with_reducible apply Runs.last (writeCodes_runs _ _ _ _ _)
    | with_reducible apply Runs.step (Runs.forM _ _ fun _ _ => Runs.start ?_)
    | with_reducible apply Runs.last (Runs.forM _ _ fun _ _ => Runs.start ?_)
    | with_reducible apply Runs.step (Runs.mapM _ _ fun _ _ => Runs.start ?_)
    | with_reducible apply Runs.last (Runs.mapM _ _ fun _ _ => Runs.start ?_)
    | with_reducible apply Runs.map
    | with_reducible apply Runs.exceptMap
    | with_reducible refine Runs.bind ?_ ?_
    | (with_reducible assumption)
    | with_reducible apply Keeps.via (State.tally_keeps ..)
    | with_reducible apply Keeps.via (State.watchJob_keeps ..)
    | (with_reducible apply State.record_via; intro _)
    | (with_reducible apply Keeps.of_ite <;> intro _)
    | with_reducible exact Keeps.refl _
    | (with_reducible apply Keeps.of_pair (by assumption))
    | (with_reducible apply Keeps.of_triple (by assumption))
    | (fail_if_no_progress with_reducible refine Keeps.record ?_ rfl rfl rfl rfl rfl rfl rfl)
    | (with_reducible apply Keeps.foldl_via; intro _ _)
    | dsimp -zeta +zetaDelta only

theorem writeJob_runs (q : GovAt) (stage : ℕ) (j : LineJob) (s : State) :
    Runs s s (writeJob q stage j) := by
  unfold writeJob
  apply Runs.start; intro o k
  repeat' first
    | split
    | (intro _)
    | extract_lets
    | with_reducible apply Runs.get_bind
    | with_reducible apply Runs.set_bind
    | with_reducible apply Runs.modify_bind
    | with_reducible apply Runs.pure_bind
    | with_reducible apply Runs.throw_bind
    | with_reducible apply Runs.of_pure
    | with_reducible apply Runs.of_throw
    | with_reducible apply Runs.of_modify
    | with_reducible apply Runs.of_set
    | with_reducible apply Runs.step (gdesc_runs _ _)
    | with_reducible apply Runs.last (gdesc_runs _ _)
    | with_reducible apply Runs.step (jobOp_runs _ _ _ _)
    | with_reducible apply Runs.last (jobOp_runs _ _ _ _)
    | with_reducible apply Runs.step (writeFP32_runs _ _ _ _ _)
    | with_reducible apply Runs.last (writeFP32_runs _ _ _ _ _)
    | with_reducible apply Runs.step (writeScaled_runs _ _ _ _ _ _ _)
    | with_reducible apply Runs.last (writeScaled_runs _ _ _ _ _ _ _)
    | with_reducible apply Runs.step (Runs.forM _ _ fun _ _ => Runs.start ?_)
    | with_reducible apply Runs.last (Runs.forM _ _ fun _ _ => Runs.start ?_)
    | with_reducible apply Runs.step (Runs.mapM _ _ fun _ _ => Runs.start ?_)
    | with_reducible apply Runs.last (Runs.mapM _ _ fun _ _ => Runs.start ?_)
    | with_reducible apply Runs.map
    | with_reducible apply Runs.exceptMap
    | with_reducible refine Runs.bind ?_ ?_
    | (with_reducible assumption)
    | (with_reducible apply State.record_via; intro _)
    | (with_reducible apply Keeps.of_ite <;> intro _)
    | with_reducible exact Keeps.refl _
    | (with_reducible apply Keeps.of_pair (by assumption))
    | (with_reducible apply Keeps.of_triple (by assumption))
    | (fail_if_no_progress with_reducible refine Keeps.record ?_ rfl rfl rfl rfl rfl rfl rfl)
    | (with_reducible apply Keeps.foldl_via; intro _ _)
    | dsimp -zeta +zetaDelta only

theorem State.rowWritten_keeps (s : State) (m : MillId) (op : ℕ) (row : ℕ) :
    Keeps s (State.rowWritten s m op row) := by
  unfold State.rowWritten
  repeat' first
    | split
    | extract_lets
    | with_reducible apply Keeps.via (Keeps.onBolter ..)
    | with_reducible apply Keeps.via (State.ledgerWrite_keeps ..)
    | (with_reducible apply Keeps.of_ite <;> intro _)
    | with_reducible exact Keeps.refl _
    | (with_reducible apply Keeps.of_pair (by assumption))
    | (with_reducible apply Keeps.of_triple (by assumption))
    | (fail_if_no_progress with_reducible refine Keeps.record ?_ rfl rfl rfl rfl rfl rfl rfl)
    | (with_reducible apply Keeps.foldl_via; intro _ _)
    | (fail_if_no_progress dsimp -zeta +zetaDelta only)

theorem State.govFault_keeps (s : State) (m : MillId) (cause : ℕ) (idx : ℕ) (stage : ℕ) (line : ℕ) (step : ℕ) (pc : W64) (slot : ℕ) (system : Bool) (injected : Bool) :
    Keeps s (State.govFault s m cause idx stage line step pc slot system injected) := by
  unfold State.govFault
  repeat' first
    | split
    | extract_lets
    | with_reducible apply Keeps.via (State.raise_keeps ..)
    | (with_reducible apply State.record_via; intro _)
    | with_reducible apply Keeps.via (State.report_keeps ..)
    | with_reducible apply Keeps.via (State.setWord_keeps ..)
    | (with_reducible apply Keeps.of_ite <;> intro _)
    | with_reducible exact Keeps.refl _
    | (with_reducible apply Keeps.of_pair (by assumption))
    | (with_reducible apply Keeps.of_triple (by assumption))
    | (fail_if_no_progress with_reducible refine Keeps.record ?_ rfl rfl rfl rfl rfl rfl rfl)
    | (with_reducible apply Keeps.foldl_via; intro _ _)
    | (fail_if_no_progress dsimp -zeta +zetaDelta only)

theorem State.localRange_keeps (s : State) (m : MillId) (pc : W64) (slot : ℕ) (off : ℕ) (system : Bool) :
    Keeps s (State.localRange s m pc slot off system) := by
  unfold State.localRange
  repeat' first
    | split
    | extract_lets
    | with_reducible apply Keeps.via (State.report_keeps ..)
    | (with_reducible apply Keeps.of_ite <;> intro _)
    | with_reducible exact Keeps.refl _
    | (with_reducible apply Keeps.of_pair (by assumption))
    | (with_reducible apply Keeps.of_triple (by assumption))
    | (fail_if_no_progress with_reducible refine Keeps.record ?_ rfl rfl rfl rfl rfl rfl rfl)
    | (with_reducible apply Keeps.foldl_via; intro _ _)
    | (fail_if_no_progress dsimp -zeta +zetaDelta only)

theorem State.govEnd_keeps (s : State) (m : MillId) (stop : GovStop) (idx : ℕ) (stage : ℕ) (step : ℕ) (x : FloorSource) :
    Keeps s (State.govEnd s m stop idx stage step x) := by
  unfold State.govEnd
  repeat' first
    | split
    | extract_lets
    | with_reducible apply Keeps.via (State.floorFault_keeps ..)
    | with_reducible apply Keeps.via (State.govFault_keeps ..)
    | with_reducible apply Keeps.via (State.localRange_keeps ..)
    | (with_reducible apply Keeps.of_ite <;> intro _)
    | with_reducible exact Keeps.refl _
    | (with_reducible apply Keeps.of_pair (by assumption))
    | (with_reducible apply Keeps.of_triple (by assumption))
    | (fail_if_no_progress with_reducible refine Keeps.record ?_ rfl rfl rfl rfl rfl rfl rfl)
    | (with_reducible apply Keeps.foldl_via; intro _ _)
    | (fail_if_no_progress dsimp -zeta +zetaDelta only)

theorem State.abandonLines_keeps (s : State) (m : MillId) (p : OpenLine → Bool) :
    Keeps s (State.abandonLines s m p) := by
  unfold State.abandonLines
  repeat' first
    | split
    | extract_lets
    | with_reducible apply Keeps.via (Keeps.onGov ..)
    | with_reducible apply Keeps.via (State.vpoke_keeps ..)
    | (with_reducible apply Keeps.forAll_via; intro _ _)
    | (with_reducible apply Keeps.of_ite <;> intro _)
    | with_reducible exact Keeps.refl _
    | (with_reducible apply Keeps.of_pair (by assumption))
    | (with_reducible apply Keeps.of_triple (by assumption))
    | (fail_if_no_progress with_reducible refine Keeps.record ?_ rfl rfl rfl rfl rfl rfl rfl)
    | (with_reducible apply Keeps.foldl_via; intro _ _)
    | (fail_if_no_progress dsimp -zeta +zetaDelta only)

theorem State.endWrite_keeps (s : State) (m : MillId) (stage : ℕ) (op : ℕ) :
    Keeps s (State.endWrite s m stage op) := by
  unfold State.endWrite
  repeat' first
    | split
    | extract_lets
    | with_reducible apply Keeps.via (Keeps.onRace ..)
    | with_reducible apply Keeps.via (State.abandonLines_keeps ..)
    | with_reducible apply Keeps.via (State.dropJobs_keeps ..)
    | with_reducible apply Keeps.via (State.dropUpdate_keeps ..)
    | (with_reducible apply Keeps.of_ite <;> intro _)
    | with_reducible exact Keeps.refl _
    | (with_reducible apply Keeps.of_pair (by assumption))
    | (with_reducible apply Keeps.of_triple (by assumption))
    | (fail_if_no_progress with_reducible refine Keeps.record ?_ rfl rfl rfl rfl rfl rfl rfl)
    | (with_reducible apply Keeps.foldl_via; intro _ _)
    | (fail_if_no_progress dsimp -zeta +zetaDelta only)

theorem State.runJob_keeps (s : State) (m : MillId) (stage : ℕ) (j : LineJob) (rest : List LineJob) :
    Keeps s (State.runJob s m stage j rest) := by
  unfold State.runJob
  repeat' first
    | split
    | extract_lets
    | with_reducible apply Keeps.via (Keeps.onGov ..)
    | with_reducible apply Keeps.via (State.endWrite_keeps ..)
    | with_reducible apply Keeps.via (State.govEnd_keeps ..)
    | with_reducible apply Keeps.via (State.rowWritten_keeps ..)
    | with_reducible apply Keeps.via (State.setStageJobs_keeps ..)
    | with_reducible apply Keeps.via (writeJob_runs ..)
    | exact writeJob_runs ..
    | with_reducible apply Keeps.via (State.boltRun_keeps _ _ _ (writeJob_runs ..))
    | (with_reducible apply Keeps.of_ite <;> intro _)
    | with_reducible exact Keeps.refl _
    | (with_reducible apply Keeps.of_pair (by assumption))
    | (with_reducible apply Keeps.of_triple (by assumption))
    | (fail_if_no_progress with_reducible refine Keeps.record ?_ rfl rfl rfl rfl rfl rfl rfl)
    | (with_reducible apply Keeps.foldl_via; intro _ _)
    | (fail_if_no_progress dsimp -zeta +zetaDelta only)

theorem lineWrite_keeps (m : MillId) (stage : Fin 14) (codes : List Ecc) (s : State) :
    Keeps s (lineWrite m stage codes s) := by
  unfold lineWrite
  repeat' first
    | split
    | extract_lets
    | (with_reducible apply State.coded_via; intro _)
    | with_reducible apply Keeps.via (State.runJob_keeps ..)
    | (with_reducible apply Keeps.of_ite <;> intro _)
    | with_reducible exact Keeps.refl _
    | (with_reducible apply Keeps.of_pair (by assumption))
    | (with_reducible apply Keeps.of_triple (by assumption))
    | (fail_if_no_progress with_reducible refine Keeps.record ?_ rfl rfl rfl rfl rfl rfl rfl)
    | (with_reducible apply Keeps.foldl_via; intro _ _)
    | (fail_if_no_progress dsimp -zeta +zetaDelta only)

theorem State.addJob_keeps (s : State) (m : MillId) (stage : ℕ) (j : LineJob) :
    Keeps s (State.addJob s m stage j) := by
  unfold State.addJob
  repeat' first
    | split
    | extract_lets
    | with_reducible apply Keeps.via (State.setStageJobs_keeps ..)
    | (with_reducible apply Keeps.of_ite <;> intro _)
    | with_reducible exact Keeps.refl _
    | (with_reducible apply Keeps.of_pair (by assumption))
    | (with_reducible apply Keeps.of_triple (by assumption))
    | (fail_if_no_progress with_reducible refine Keeps.record ?_ rfl rfl rfl rfl rfl rfl rfl)
    | (with_reducible apply Keeps.foldl_via; intro _ _)
    | (fail_if_no_progress dsimp -zeta +zetaDelta only)

theorem latchOperand_runs (q : GovAt) (idx : ℕ) (streamed : Bool) (fold : Bool) (bref : Option ℤ) (s : State) :
    Runs s s (latchOperand q idx streamed fold bref) := by
  unfold latchOperand
  apply Runs.start; intro o k
  repeat' first
    | split
    | (intro _)
    | extract_lets
    | with_reducible apply Runs.get_bind
    | with_reducible apply Runs.set_bind
    | with_reducible apply Runs.modify_bind
    | with_reducible apply Runs.pure_bind
    | with_reducible apply Runs.throw_bind
    | with_reducible apply Runs.of_pure
    | with_reducible apply Runs.of_throw
    | with_reducible apply Runs.of_modify
    | with_reducible apply Runs.of_set
    | with_reducible apply Runs.step (gdesc_runs _ _)
    | with_reducible apply Runs.last (gdesc_runs _ _)
    | with_reducible apply Runs.step (Runs.forM _ _ fun _ _ => Runs.start ?_)
    | with_reducible apply Runs.last (Runs.forM _ _ fun _ _ => Runs.start ?_)
    | with_reducible apply Runs.step (Runs.mapM _ _ fun _ _ => Runs.start ?_)
    | with_reducible apply Runs.last (Runs.mapM _ _ fun _ _ => Runs.start ?_)
    | with_reducible apply Runs.map
    | with_reducible apply Runs.exceptMap
    | with_reducible refine Runs.bind ?_ ?_
    | (with_reducible assumption)
    | (with_reducible apply State.record_via; intro _)
    | (with_reducible apply Keeps.of_ite <;> intro _)
    | with_reducible exact Keeps.refl _
    | (with_reducible apply Keeps.of_pair (by assumption))
    | (with_reducible apply Keeps.of_triple (by assumption))
    | (fail_if_no_progress with_reducible refine Keeps.record ?_ rfl rfl rfl rfl rfl rfl rfl)
    | (with_reducible apply Keeps.foldl_via; intro _ _)
    | dsimp -zeta +zetaDelta only

theorem lineScale_runs (q : GovAt) (t : OpndTensor) (elem0 : ℕ) (n : ℕ) (s : State) :
    Runs s s (lineScale q t elem0 n) := by
  unfold lineScale
  apply Runs.start; intro o k
  repeat' first
    | split
    | (intro _)
    | extract_lets
    | with_reducible apply Runs.get_bind
    | with_reducible apply Runs.set_bind
    | with_reducible apply Runs.modify_bind
    | with_reducible apply Runs.pure_bind
    | with_reducible apply Runs.throw_bind
    | with_reducible apply Runs.of_pure
    | with_reducible apply Runs.of_throw
    | with_reducible apply Runs.of_modify
    | with_reducible apply Runs.of_set
    | with_reducible apply Runs.step (govGet_runs _ _ _ _ _)
    | with_reducible apply Runs.last (govGet_runs _ _ _ _ _)
    | with_reducible apply Runs.step (lineEntry_runs _ _)
    | with_reducible apply Runs.last (lineEntry_runs _ _)
    | with_reducible apply Runs.step (Runs.forM _ _ fun _ _ => Runs.start ?_)
    | with_reducible apply Runs.last (Runs.forM _ _ fun _ _ => Runs.start ?_)
    | with_reducible apply Runs.step (Runs.mapM _ _ fun _ _ => Runs.start ?_)
    | with_reducible apply Runs.last (Runs.mapM _ _ fun _ _ => Runs.start ?_)
    | with_reducible apply Runs.map
    | with_reducible apply Runs.exceptMap
    | with_reducible refine Runs.bind ?_ ?_
    | (with_reducible assumption)
    | (with_reducible apply State.record_via; intro _)
    | (with_reducible apply Keeps.of_ite <;> intro _)
    | with_reducible exact Keeps.refl _
    | (with_reducible apply Keeps.of_pair (by assumption))
    | (with_reducible apply Keeps.of_triple (by assumption))
    | (fail_if_no_progress with_reducible refine Keeps.record ?_ rfl rfl rfl rfl rfl rfl rfl)
    | (with_reducible apply Keeps.foldl_via; intro _ _)
    | dsimp -zeta +zetaDelta only

theorem seededBase_runs (q : GovAt) (t : OpndTensor) (e : ℕ) (s : State) :
    Runs s s (seededBase q t e) := by
  unfold seededBase
  apply Runs.start; intro o k
  repeat' first
    | split
    | (intro _)
    | extract_lets
    | with_reducible apply Runs.get_bind
    | with_reducible apply Runs.set_bind
    | with_reducible apply Runs.modify_bind
    | with_reducible apply Runs.pure_bind
    | with_reducible apply Runs.throw_bind
    | with_reducible apply Runs.of_pure
    | with_reducible apply Runs.of_throw
    | with_reducible apply Runs.of_modify
    | with_reducible apply Runs.of_set
    | with_reducible apply Runs.step (Runs.forM _ _ fun _ _ => Runs.start ?_)
    | with_reducible apply Runs.last (Runs.forM _ _ fun _ _ => Runs.start ?_)
    | with_reducible apply Runs.step (Runs.mapM _ _ fun _ _ => Runs.start ?_)
    | with_reducible apply Runs.last (Runs.mapM _ _ fun _ _ => Runs.start ?_)
    | with_reducible apply Runs.map
    | with_reducible apply Runs.exceptMap
    | with_reducible refine Runs.bind ?_ ?_
    | (with_reducible assumption)
    | with_reducible apply Keeps.via (State.takeInj_keeps ..)
    | (with_reducible apply State.record_via; intro _)
    | (with_reducible apply Keeps.of_ite <;> intro _)
    | with_reducible exact Keeps.refl _
    | (with_reducible apply Keeps.of_pair (by assumption))
    | (with_reducible apply Keeps.of_triple (by assumption))
    | (fail_if_no_progress with_reducible refine Keeps.record ?_ rfl rfl rfl rfl rfl rfl rfl)
    | (with_reducible apply Keeps.foldl_via; intro _ _)
    | dsimp -zeta +zetaDelta only

theorem trimOffsets_runs (q : GovAt) (t : OpndTensor) (ts : List ℕ) (s : State) :
    Runs s s (trimOffsets q t ts) := by
  unfold trimOffsets
  apply Runs.start; intro o k
  repeat' first
    | split
    | (intro _)
    | extract_lets
    | with_reducible apply Runs.get_bind
    | with_reducible apply Runs.set_bind
    | with_reducible apply Runs.modify_bind
    | with_reducible apply Runs.pure_bind
    | with_reducible apply Runs.throw_bind
    | with_reducible apply Runs.of_pure
    | with_reducible apply Runs.of_throw
    | with_reducible apply Runs.of_modify
    | with_reducible apply Runs.of_set
    | with_reducible apply Runs.step (Runs.forM _ _ fun _ _ => Runs.start ?_)
    | with_reducible apply Runs.last (Runs.forM _ _ fun _ _ => Runs.start ?_)
    | with_reducible apply Runs.step (Runs.mapM _ _ fun _ _ => Runs.start ?_)
    | with_reducible apply Runs.last (Runs.mapM _ _ fun _ _ => Runs.start ?_)
    | with_reducible apply Runs.map
    | with_reducible apply Runs.exceptMap
    | with_reducible refine Runs.bind ?_ ?_
    | (with_reducible assumption)
    | (with_reducible apply State.record_via; intro _)
    | (with_reducible apply Keeps.of_ite <;> intro _)
    | with_reducible exact Keeps.refl _
    | (with_reducible apply Keeps.of_pair (by assumption))
    | (with_reducible apply Keeps.of_triple (by assumption))
    | (fail_if_no_progress with_reducible refine Keeps.record ?_ rfl rfl rfl rfl rfl rfl rfl)
    | (with_reducible apply Keeps.foldl_via; intro _ _)
    | dsimp -zeta +zetaDelta only

theorem scaleLine_runs (q : GovAt) (t : OpndTensor) (elem0 : ℕ) (codes : List ℕ) (x : LineScale) (s : State) :
    Runs s s (scaleLine q t elem0 codes x) := by
  unfold scaleLine
  apply Runs.start; intro o k
  repeat' first
    | split
    | (intro _)
    | extract_lets
    | with_reducible apply Runs.get_bind
    | with_reducible apply Runs.set_bind
    | with_reducible apply Runs.modify_bind
    | with_reducible apply Runs.pure_bind
    | with_reducible apply Runs.throw_bind
    | with_reducible apply Runs.of_pure
    | with_reducible apply Runs.of_throw
    | with_reducible apply Runs.of_modify
    | with_reducible apply Runs.of_set
    | with_reducible apply Runs.step (seededBase_runs _ _ _)
    | with_reducible apply Runs.last (seededBase_runs _ _ _)
    | with_reducible apply Runs.step (trimOffsets_runs _ _ _)
    | with_reducible apply Runs.last (trimOffsets_runs _ _ _)
    | with_reducible apply Runs.step (Runs.forM _ _ fun _ _ => Runs.start ?_)
    | with_reducible apply Runs.last (Runs.forM _ _ fun _ _ => Runs.start ?_)
    | with_reducible apply Runs.step (Runs.mapM _ _ fun _ _ => Runs.start ?_)
    | with_reducible apply Runs.last (Runs.mapM _ _ fun _ _ => Runs.start ?_)
    | with_reducible apply Runs.map
    | with_reducible apply Runs.exceptMap
    | with_reducible refine Runs.bind ?_ ?_
    | (with_reducible assumption)
    | (with_reducible apply State.record_via; intro _)
    | (with_reducible apply Keeps.of_ite <;> intro _)
    | with_reducible exact Keeps.refl _
    | (with_reducible apply Keeps.of_pair (by assumption))
    | (with_reducible apply Keeps.of_triple (by assumption))
    | (fail_if_no_progress with_reducible refine Keeps.record ?_ rfl rfl rfl rfl rfl rfl rfl)
    | (with_reducible apply Keeps.foldl_via; intro _ _)
    | dsimp -zeta +zetaDelta only

theorem operandLine_runs (q : GovAt) (t : OpndTensor) (elem0 : ℕ) (codes : List ℕ) (s : State) :
    Runs s s (operandLine q t elem0 codes) := by
  unfold operandLine
  apply Runs.start; intro o k
  repeat' first
    | split
    | (intro _)
    | extract_lets
    | with_reducible apply Runs.get_bind
    | with_reducible apply Runs.set_bind
    | with_reducible apply Runs.modify_bind
    | with_reducible apply Runs.pure_bind
    | with_reducible apply Runs.throw_bind
    | with_reducible apply Runs.of_pure
    | with_reducible apply Runs.of_throw
    | with_reducible apply Runs.of_modify
    | with_reducible apply Runs.of_set
    | with_reducible apply Runs.step (lineScale_runs _ _ _ _)
    | with_reducible apply Runs.last (lineScale_runs _ _ _ _)
    | with_reducible apply Runs.step (scaleLine_runs _ _ _ _ _)
    | with_reducible apply Runs.last (scaleLine_runs _ _ _ _ _)
    | with_reducible apply Runs.step (Runs.forM _ _ fun _ _ => Runs.start ?_)
    | with_reducible apply Runs.last (Runs.forM _ _ fun _ _ => Runs.start ?_)
    | with_reducible apply Runs.step (Runs.mapM _ _ fun _ _ => Runs.start ?_)
    | with_reducible apply Runs.last (Runs.mapM _ _ fun _ _ => Runs.start ?_)
    | with_reducible apply Runs.map
    | with_reducible apply Runs.exceptMap
    | with_reducible refine Runs.bind ?_ ?_
    | (with_reducible assumption)
    | (with_reducible apply State.record_via; intro _)
    | (with_reducible apply Keeps.of_ite <;> intro _)
    | with_reducible exact Keeps.refl _
    | (with_reducible apply Keeps.of_pair (by assumption))
    | (with_reducible apply Keeps.of_triple (by assumption))
    | (fail_if_no_progress with_reducible refine Keeps.record ?_ rfl rfl rfl rfl rfl rfl rfl)
    | (with_reducible apply Keeps.foldl_via; intro _ _)
    | dsimp -zeta +zetaDelta only

theorem State.runJobs_keeps (s : State) (m : MillId) (stage : ℕ) (a3 : List LineJob) :
    Keeps s (State.runJobs s m stage a3) := by
  induction a3 generalizing s m stage with
  | nil =>
    unfold State.runJobs
    repeat' first
      | split
      | extract_lets
      | with_reducible apply Keeps.via (State.runJob_keeps ..)
      | (with_reducible apply Keeps.of_ite <;> intro _)
      | with_reducible exact Keeps.refl _
      | (with_reducible apply Keeps.of_pair (by assumption))
      | (with_reducible apply Keeps.of_triple (by assumption))
      | (fail_if_no_progress with_reducible refine Keeps.record ?_ rfl rfl rfl rfl rfl rfl rfl)
      | (with_reducible apply Keeps.foldl_via; intro _ _)
      | (fail_if_no_progress dsimp -zeta +zetaDelta only)
  | cons x rest ih =>
    unfold State.runJobs
    repeat' first
      | split
      | extract_lets
      | with_reducible apply Keeps.via (ih ..)
      | with_reducible apply Keeps.via (State.runJob_keeps ..)
      | (with_reducible apply Keeps.of_ite <;> intro _)
      | with_reducible exact Keeps.refl _
      | (with_reducible apply Keeps.of_pair (by assumption))
      | (with_reducible apply Keeps.of_triple (by assumption))
      | (fail_if_no_progress with_reducible refine Keeps.record ?_ rfl rfl rfl rfl rfl rfl rfl)
      | (with_reducible apply Keeps.foldl_via; intro _ _)
      | (fail_if_no_progress dsimp -zeta +zetaDelta only)

theorem State.bltRecord_keeps (s : State) (m : MillId) (o : UpdateOp) (cause : ℕ) (line : ℕ) (elem : ℕ) :
    Keeps s (State.bltRecord s m o cause line elem) := by
  unfold State.bltRecord
  repeat' first
    | split
    | extract_lets
    | (with_reducible apply State.record_via; intro _)
    | with_reducible apply Keeps.via (State.setWord_keeps ..)
    | (with_reducible apply Keeps.of_ite <;> intro _)
    | with_reducible exact Keeps.refl _
    | (with_reducible apply Keeps.of_pair (by assumption))
    | (with_reducible apply Keeps.of_triple (by assumption))
    | (fail_if_no_progress with_reducible refine Keeps.record ?_ rfl rfl rfl rfl rfl rfl rfl)
    | (with_reducible apply Keeps.foldl_via; intro _ _)
    | (fail_if_no_progress dsimp -zeta +zetaDelta only)

theorem State.bltRaise_keeps (s : State) (m : MillId) (cause : ℕ) :
    Keeps s (State.bltRaise s m cause) := by
  unfold State.bltRaise
  repeat' first
    | split
    | extract_lets
    | with_reducible apply Keeps.via (State.raise_keeps ..)
    | with_reducible apply Keeps.via (State.tally_keeps ..)
    | (with_reducible apply Keeps.of_ite <;> intro _)
    | with_reducible exact Keeps.refl _
    | (with_reducible apply Keeps.of_pair (by assumption))
    | (with_reducible apply Keeps.of_triple (by assumption))
    | (fail_if_no_progress with_reducible refine Keeps.record ?_ rfl rfl rfl rfl rfl rfl rfl)
    | (with_reducible apply Keeps.foldl_via; intro _ _)
    | (fail_if_no_progress dsimp -zeta +zetaDelta only)

theorem State.bltFault_keeps (s : State) (m : MillId) (o : UpdateOp) (cause : ℕ) (line : ℕ) (elem : ℕ) (injected : Bool) :
    Keeps s (State.bltFault s m o cause line elem injected) := by
  unfold State.bltFault
  repeat' first
    | split
    | extract_lets
    | with_reducible apply Keeps.via (State.bltRaise_keeps ..)
    | with_reducible apply Keeps.via (State.bltRecord_keeps ..)
    | with_reducible apply Keeps.via (State.dropUpdate_keeps ..)
    | with_reducible apply Keeps.via (State.report_keeps ..)
    | (with_reducible apply Keeps.of_ite <;> intro _)
    | with_reducible exact Keeps.refl _
    | (with_reducible apply Keeps.of_pair (by assumption))
    | (with_reducible apply Keeps.of_triple (by assumption))
    | (fail_if_no_progress with_reducible refine Keeps.record ?_ rfl rfl rfl rfl rfl rfl rfl)
    | (with_reducible apply Keeps.foldl_via; intro _ _)
    | (fail_if_no_progress dsimp -zeta +zetaDelta only)

theorem State.onBolt_keeps (s : State) (m : MillId) (f : UpdateOp → UpdateOp) :
    Keeps s (State.onBolt s m f) := by
  unfold State.onBolt
  repeat' first
    | split
    | extract_lets
    | with_reducible apply Keeps.via (Keeps.onBolter ..)
    | (with_reducible apply Keeps.of_ite <;> intro _)
    | with_reducible exact Keeps.refl _
    | (with_reducible apply Keeps.of_pair (by assumption))
    | (with_reducible apply Keeps.of_triple (by assumption))
    | (fail_if_no_progress with_reducible refine Keeps.record ?_ rfl rfl rfl rfl rfl rfl rfl)
    | (with_reducible apply Keeps.foldl_via; intro _ _)
    | (fail_if_no_progress dsimp -zeta +zetaDelta only)

theorem State.bltEnd_keeps (s : State) (m : MillId) (o : UpdateOp) (cause : ℕ) (line : ℕ) (elem : ℕ) (injected : Bool) :
    Keeps s (State.bltEnd s m o cause line elem injected) := by
  unfold State.bltEnd
  repeat' first
    | split
    | extract_lets
    | with_reducible apply Keeps.via (State.bltFault_keeps ..)
    | with_reducible apply Keeps.via (State.onBolt_keeps ..)
    | with_reducible apply Keeps.via (State.runJobs_keeps ..)
    | (with_reducible apply Keeps.of_ite <;> intro _)
    | with_reducible exact Keeps.refl _
    | (with_reducible apply Keeps.of_pair (by assumption))
    | (with_reducible apply Keeps.of_triple (by assumption))
    | (fail_if_no_progress with_reducible refine Keeps.record ?_ rfl rfl rfl rfl rfl rfl rfl)
    | (with_reducible apply Keeps.foldl_via; intro _ _)
    | (fail_if_no_progress dsimp -zeta +zetaDelta only)

theorem bltLook_runs (m : MillId) (line : ℕ) (va : ℕ) (n : ℕ) (s : State) :
    Runs s s (bltLook m line va n) := by
  unfold bltLook
  apply Runs.start; intro o k
  repeat' first
    | split
    | (intro _)
    | extract_lets
    | with_reducible apply Runs.get_bind
    | with_reducible apply Runs.set_bind
    | with_reducible apply Runs.modify_bind
    | with_reducible apply Runs.pure_bind
    | with_reducible apply Runs.throw_bind
    | with_reducible apply Runs.of_pure
    | with_reducible apply Runs.of_throw
    | with_reducible apply Runs.of_modify
    | with_reducible apply Runs.of_set
    | with_reducible apply Runs.step (Runs.forM _ _ fun _ _ => Runs.start ?_)
    | with_reducible apply Runs.last (Runs.forM _ _ fun _ _ => Runs.start ?_)
    | with_reducible apply Runs.step (Runs.mapM _ _ fun _ _ => Runs.start ?_)
    | with_reducible apply Runs.last (Runs.mapM _ _ fun _ _ => Runs.start ?_)
    | with_reducible apply Runs.map
    | with_reducible apply Runs.exceptMap
    | with_reducible refine Runs.bind ?_ ?_
    | (with_reducible assumption)
    | with_reducible apply Keeps.via (State.translateRange_keeps ..)
    | (with_reducible apply State.record_via; intro _)
    | (with_reducible apply Keeps.of_ite <;> intro _)
    | with_reducible exact Keeps.refl _
    | (with_reducible apply Keeps.of_pair (by assumption))
    | (with_reducible apply Keeps.of_triple (by assumption))
    | (fail_if_no_progress with_reducible refine Keeps.record ?_ rfl rfl rfl rfl rfl rfl rfl)
    | (with_reducible apply Keeps.foldl_via; intro _ _)
    | dsimp -zeta +zetaDelta only

theorem lookRow_runs (m : MillId) (c : BoltCtx) (pos : ℕ) (s : State) :
    Runs s s (lookRow m c pos) := by
  unfold lookRow
  apply Runs.start; intro o k
  repeat' first
    | split
    | (intro _)
    | extract_lets
    | with_reducible apply Runs.get_bind
    | with_reducible apply Runs.set_bind
    | with_reducible apply Runs.modify_bind
    | with_reducible apply Runs.pure_bind
    | with_reducible apply Runs.throw_bind
    | with_reducible apply Runs.of_pure
    | with_reducible apply Runs.of_throw
    | with_reducible apply Runs.of_modify
    | with_reducible apply Runs.of_set
    | with_reducible apply Runs.step (bltLook_runs _ _ _ _)
    | with_reducible apply Runs.last (bltLook_runs _ _ _ _)
    | with_reducible apply Runs.step (Runs.forM _ _ fun _ _ => Runs.start ?_)
    | with_reducible apply Runs.last (Runs.forM _ _ fun _ _ => Runs.start ?_)
    | with_reducible apply Runs.step (Runs.mapM _ _ fun _ _ => Runs.start ?_)
    | with_reducible apply Runs.last (Runs.mapM _ _ fun _ _ => Runs.start ?_)
    | with_reducible apply Runs.map
    | with_reducible apply Runs.exceptMap
    | with_reducible refine Runs.bind ?_ ?_
    | (with_reducible assumption)
    | (with_reducible apply State.record_via; intro _)
    | (with_reducible apply Keeps.of_ite <;> intro _)
    | with_reducible exact Keeps.refl _
    | (with_reducible apply Keeps.of_pair (by assumption))
    | (with_reducible apply Keeps.of_triple (by assumption))
    | (fail_if_no_progress with_reducible refine Keeps.record ?_ rfl rfl rfl rfl rfl rfl rfl)
    | (with_reducible apply Keeps.foldl_via; intro _ _)
    | dsimp -zeta +zetaDelta only

theorem rowsBehind_runs (m : MillId) (c : BoltCtx) (s : State) :
    Runs s s (rowsBehind m c) := by
  unfold rowsBehind
  apply Runs.start; intro o k
  repeat' first
    | split
    | (intro _)
    | extract_lets
    | with_reducible apply Runs.get_bind
    | with_reducible apply Runs.set_bind
    | with_reducible apply Runs.modify_bind
    | with_reducible apply Runs.pure_bind
    | with_reducible apply Runs.throw_bind
    | with_reducible apply Runs.of_pure
    | with_reducible apply Runs.of_throw
    | with_reducible apply Runs.of_modify
    | with_reducible apply Runs.of_set
    | with_reducible apply Runs.step (lookRow_runs _ _ _)
    | with_reducible apply Runs.last (lookRow_runs _ _ _)
    | with_reducible apply Runs.step (Runs.forM _ _ fun _ _ => Runs.start ?_)
    | with_reducible apply Runs.last (Runs.forM _ _ fun _ _ => Runs.start ?_)
    | with_reducible apply Runs.step (Runs.mapM _ _ fun _ _ => Runs.start ?_)
    | with_reducible apply Runs.last (Runs.mapM _ _ fun _ _ => Runs.start ?_)
    | with_reducible apply Runs.map
    | with_reducible apply Runs.exceptMap
    | with_reducible refine Runs.bind ?_ ?_
    | (with_reducible assumption)
    | (with_reducible apply State.record_via; intro _)
    | (with_reducible apply Keeps.of_ite <;> intro _)
    | with_reducible exact Keeps.refl _
    | (with_reducible apply Keeps.of_pair (by assumption))
    | (with_reducible apply Keeps.of_triple (by assumption))
    | (fail_if_no_progress with_reducible refine Keeps.record ?_ rfl rfl rfl rfl rfl rfl rfl)
    | (with_reducible apply Keeps.foldl_via; intro _ _)
    | dsimp -zeta +zetaDelta only

theorem boltGate_runs (m : MillId) (c : BoltCtx) (s : State) :
    Runs s s (boltGate m c) := by
  unfold boltGate
  apply Runs.start; intro o k
  repeat' first
    | split
    | (intro _)
    | extract_lets
    | with_reducible apply Runs.get_bind
    | with_reducible apply Runs.set_bind
    | with_reducible apply Runs.modify_bind
    | with_reducible apply Runs.pure_bind
    | with_reducible apply Runs.throw_bind
    | with_reducible apply Runs.of_pure
    | with_reducible apply Runs.of_throw
    | with_reducible apply Runs.of_modify
    | with_reducible apply Runs.of_set
    | with_reducible apply Runs.step (Runs.forM _ _ fun _ _ => Runs.start ?_)
    | with_reducible apply Runs.last (Runs.forM _ _ fun _ _ => Runs.start ?_)
    | with_reducible apply Runs.step (Runs.mapM _ _ fun _ _ => Runs.start ?_)
    | with_reducible apply Runs.last (Runs.mapM _ _ fun _ _ => Runs.start ?_)
    | with_reducible apply Runs.map
    | with_reducible apply Runs.exceptMap
    | with_reducible refine Runs.bind ?_ ?_
    | (with_reducible assumption)
    | with_reducible apply Keeps.via (State.takeInj_keeps ..)
    | (with_reducible apply State.record_via; intro _)
    | (with_reducible apply Keeps.of_ite <;> intro _)
    | with_reducible exact Keeps.refl _
    | (with_reducible apply Keeps.of_pair (by assumption))
    | (with_reducible apply Keeps.of_triple (by assumption))
    | (fail_if_no_progress with_reducible refine Keeps.record ?_ rfl rfl rfl rfl rfl rfl rfl)
    | (with_reducible apply Keeps.foldl_via; intro _ _)
    | dsimp -zeta +zetaDelta only

theorem boltCheck_runs (m : MillId) (c : BoltCtx) (s : State) :
    Runs s s (boltCheck m c) := by
  unfold boltCheck
  apply Runs.start; intro o k
  repeat' first
    | split
    | (intro _)
    | extract_lets
    | with_reducible apply Runs.get_bind
    | with_reducible apply Runs.set_bind
    | with_reducible apply Runs.modify_bind
    | with_reducible apply Runs.pure_bind
    | with_reducible apply Runs.throw_bind
    | with_reducible apply Runs.of_pure
    | with_reducible apply Runs.of_throw
    | with_reducible apply Runs.of_modify
    | with_reducible apply Runs.of_set
    | with_reducible apply Runs.step (boltGate_runs _ _)
    | with_reducible apply Runs.last (boltGate_runs _ _)
    | with_reducible apply Runs.step (rowsBehind_runs _ _)
    | with_reducible apply Runs.last (rowsBehind_runs _ _)
    | with_reducible apply Runs.step (Runs.forM _ _ fun _ _ => Runs.start ?_)
    | with_reducible apply Runs.last (Runs.forM _ _ fun _ _ => Runs.start ?_)
    | with_reducible apply Runs.step (Runs.mapM _ _ fun _ _ => Runs.start ?_)
    | with_reducible apply Runs.last (Runs.mapM _ _ fun _ _ => Runs.start ?_)
    | with_reducible apply Runs.map
    | with_reducible apply Runs.exceptMap
    | with_reducible refine Runs.bind ?_ ?_
    | (with_reducible assumption)
    | with_reducible apply Keeps.via (State.onBolt_keeps ..)
    | (with_reducible apply State.record_via; intro _)
    | (with_reducible apply Keeps.of_ite <;> intro _)
    | with_reducible exact Keeps.refl _
    | (with_reducible apply Keeps.of_pair (by assumption))
    | (with_reducible apply Keeps.of_triple (by assumption))
    | (fail_if_no_progress with_reducible refine Keeps.record ?_ rfl rfl rfl rfl rfl rfl rfl)
    | (with_reducible apply Keeps.foldl_via; intro _ _)
    | dsimp -zeta +zetaDelta only

theorem boltAt_runs (m : MillId) (line : ℕ) (elem : ℕ) (s : State) :
    Runs s s (boltAt m line elem) := by
  unfold boltAt
  apply Runs.start; intro o k
  repeat' first
    | split
    | (intro _)
    | extract_lets
    | with_reducible apply Runs.get_bind
    | with_reducible apply Runs.set_bind
    | with_reducible apply Runs.modify_bind
    | with_reducible apply Runs.pure_bind
    | with_reducible apply Runs.throw_bind
    | with_reducible apply Runs.of_pure
    | with_reducible apply Runs.of_throw
    | with_reducible apply Runs.of_modify
    | with_reducible apply Runs.of_set
    | with_reducible apply Runs.step (Runs.forM _ _ fun _ _ => Runs.start ?_)
    | with_reducible apply Runs.last (Runs.forM _ _ fun _ _ => Runs.start ?_)
    | with_reducible apply Runs.step (Runs.mapM _ _ fun _ _ => Runs.start ?_)
    | with_reducible apply Runs.last (Runs.mapM _ _ fun _ _ => Runs.start ?_)
    | with_reducible apply Runs.map
    | with_reducible apply Runs.exceptMap
    | with_reducible refine Runs.bind ?_ ?_
    | (with_reducible assumption)
    | with_reducible apply Keeps.via (State.onBolt_keeps ..)
    | (with_reducible apply State.record_via; intro _)
    | (with_reducible apply Keeps.of_ite <;> intro _)
    | with_reducible exact Keeps.refl _
    | (with_reducible apply Keeps.of_pair (by assumption))
    | (with_reducible apply Keeps.of_triple (by assumption))
    | (fail_if_no_progress with_reducible refine Keeps.record ?_ rfl rfl rfl rfl rfl rfl rfl)
    | (with_reducible apply Keeps.foldl_via; intro _ _)
    | dsimp -zeta +zetaDelta only

theorem bltInjected_runs (m : MillId) (line : ℕ) (elem : ℕ) (va : ℕ) (s : State) :
    Runs s s (bltInjected m line elem va) := by
  unfold bltInjected
  apply Runs.start; intro o k
  repeat' first
    | split
    | (intro _)
    | extract_lets
    | with_reducible apply Runs.get_bind
    | with_reducible apply Runs.set_bind
    | with_reducible apply Runs.modify_bind
    | with_reducible apply Runs.pure_bind
    | with_reducible apply Runs.throw_bind
    | with_reducible apply Runs.of_pure
    | with_reducible apply Runs.of_throw
    | with_reducible apply Runs.of_modify
    | with_reducible apply Runs.of_set
    | with_reducible apply Runs.step (Runs.forM _ _ fun _ _ => Runs.start ?_)
    | with_reducible apply Runs.last (Runs.forM _ _ fun _ _ => Runs.start ?_)
    | with_reducible apply Runs.step (Runs.mapM _ _ fun _ _ => Runs.start ?_)
    | with_reducible apply Runs.last (Runs.mapM _ _ fun _ _ => Runs.start ?_)
    | with_reducible apply Runs.map
    | with_reducible apply Runs.exceptMap
    | with_reducible refine Runs.bind ?_ ?_
    | (with_reducible assumption)
    | with_reducible apply Keeps.via (State.takeInj_keeps ..)
    | (with_reducible apply State.record_via; intro _)
    | (with_reducible apply Keeps.of_ite <;> intro _)
    | with_reducible exact Keeps.refl _
    | (with_reducible apply Keeps.of_pair (by assumption))
    | (with_reducible apply Keeps.of_triple (by assumption))
    | (fail_if_no_progress with_reducible refine Keeps.record ?_ rfl rfl rfl rfl rfl rfl rfl)
    | (with_reducible apply Keeps.foldl_via; intro _ _)
    | dsimp -zeta +zetaDelta only

theorem bltTry_runs {α : Type} (line elem : Nat) (f : State → Except MemStop α × State) (h : ∀ s, Keeps s (f s).2) (s : State) :
    Runs s s (bltTry line elem f) := by
  unfold bltTry
  apply Runs.start; intro o k
  apply Runs.get_bind
  have hf := h s
  split
  rename_i e
  rw [e] at hf
  refine Runs.set_bind (k.trans hf) fun k => ?_
  split
  · exact Runs.of_pure _ k
  · exact Runs.of_throw _ k


theorem bltRead_runs (m : MillId) (line : ℕ) (elem : ℕ) (va : ℕ) (n : ℕ) (s : State) :
    Runs s s (bltRead m line elem va n) := by
  unfold bltRead
  apply Runs.start; intro o k
  repeat' first
    | split
    | (intro _)
    | extract_lets
    | with_reducible apply Runs.get_bind
    | with_reducible apply Runs.set_bind
    | with_reducible apply Runs.modify_bind
    | with_reducible apply Runs.pure_bind
    | with_reducible apply Runs.throw_bind
    | with_reducible apply Runs.of_pure
    | with_reducible apply Runs.of_throw
    | with_reducible apply Runs.of_modify
    | with_reducible apply Runs.of_set
    | with_reducible apply Runs.step (bltInjected_runs _ _ _ _)
    | with_reducible apply Runs.last (bltInjected_runs _ _ _ _)
    | with_reducible apply Runs.step (bltTry_runs _ _ _ ?_)
    | with_reducible apply Runs.last (bltTry_runs _ _ _ ?_)
    | with_reducible apply Runs.step (Runs.forM _ _ fun _ _ => Runs.start ?_)
    | with_reducible apply Runs.last (Runs.forM _ _ fun _ _ => Runs.start ?_)
    | with_reducible apply Runs.step (Runs.mapM _ _ fun _ _ => Runs.start ?_)
    | with_reducible apply Runs.last (Runs.mapM _ _ fun _ _ => Runs.start ?_)
    | with_reducible apply Runs.map
    | with_reducible apply Runs.exceptMap
    | with_reducible refine Runs.bind ?_ ?_
    | (with_reducible assumption)
    | with_reducible apply Keeps.via (State.vread_keeps ..)
    | (with_reducible apply State.record_via; intro _)
    | (with_reducible apply Keeps.of_ite <;> intro _)
    | with_reducible exact Keeps.refl _
    | (with_reducible apply Keeps.of_pair (by assumption))
    | (with_reducible apply Keeps.of_triple (by assumption))
    | (fail_if_no_progress with_reducible refine Keeps.record ?_ rfl rfl rfl rfl rfl rfl rfl)
    | (with_reducible apply Keeps.foldl_via; intro _ _)
    | dsimp -zeta +zetaDelta only

theorem wordIn_runs (m : MillId) (x : Spot) (va : ℕ) (fb : ℕ) (s : State) :
    Runs s s (wordIn m x va fb) := by
  unfold wordIn
  apply Runs.start; intro o k
  repeat' first
    | split
    | (intro _)
    | extract_lets
    | with_reducible apply Runs.get_bind
    | with_reducible apply Runs.set_bind
    | with_reducible apply Runs.modify_bind
    | with_reducible apply Runs.pure_bind
    | with_reducible apply Runs.throw_bind
    | with_reducible apply Runs.of_pure
    | with_reducible apply Runs.of_throw
    | with_reducible apply Runs.of_modify
    | with_reducible apply Runs.of_set
    | with_reducible apply Runs.step (bltRead_runs _ _ _ _ _)
    | with_reducible apply Runs.last (bltRead_runs _ _ _ _ _)
    | with_reducible apply Runs.step (Runs.forM _ _ fun _ _ => Runs.start ?_)
    | with_reducible apply Runs.last (Runs.forM _ _ fun _ _ => Runs.start ?_)
    | with_reducible apply Runs.step (Runs.mapM _ _ fun _ _ => Runs.start ?_)
    | with_reducible apply Runs.last (Runs.mapM _ _ fun _ _ => Runs.start ?_)
    | with_reducible apply Runs.map
    | with_reducible apply Runs.exceptMap
    | with_reducible refine Runs.bind ?_ ?_
    | (with_reducible assumption)
    | (with_reducible apply State.record_via; intro _)
    | (with_reducible apply Keeps.of_ite <;> intro _)
    | with_reducible exact Keeps.refl _
    | (with_reducible apply Keeps.of_pair (by assumption))
    | (with_reducible apply Keeps.of_triple (by assumption))
    | (fail_if_no_progress with_reducible refine Keeps.record ?_ rfl rfl rfl rfl rfl rfl rfl)
    | (with_reducible apply Keeps.foldl_via; intro _ _)
    | dsimp -zeta +zetaDelta only

theorem masterIn_runs (m : MillId) (c : BoltCtx) (x : Spot) (s : State) :
    Runs s s (masterIn m c x) := by
  unfold masterIn
  apply Runs.start; intro o k
  repeat' first
    | split
    | (intro _)
    | extract_lets
    | with_reducible apply Runs.get_bind
    | with_reducible apply Runs.set_bind
    | with_reducible apply Runs.modify_bind
    | with_reducible apply Runs.pure_bind
    | with_reducible apply Runs.throw_bind
    | with_reducible apply Runs.of_pure
    | with_reducible apply Runs.of_throw
    | with_reducible apply Runs.of_modify
    | with_reducible apply Runs.of_set
    | with_reducible apply Runs.step (wordIn_runs _ _ _ _)
    | with_reducible apply Runs.last (wordIn_runs _ _ _ _)
    | with_reducible apply Runs.step (Runs.forM _ _ fun _ _ => Runs.start ?_)
    | with_reducible apply Runs.last (Runs.forM _ _ fun _ _ => Runs.start ?_)
    | with_reducible apply Runs.step (Runs.mapM _ _ fun _ _ => Runs.start ?_)
    | with_reducible apply Runs.last (Runs.mapM _ _ fun _ _ => Runs.start ?_)
    | with_reducible apply Runs.map
    | with_reducible apply Runs.exceptMap
    | with_reducible refine Runs.bind ?_ ?_
    | (with_reducible assumption)
    | (with_reducible apply State.record_via; intro _)
    | (with_reducible apply Keeps.of_ite <;> intro _)
    | with_reducible exact Keeps.refl _
    | (with_reducible apply Keeps.of_pair (by assumption))
    | (with_reducible apply Keeps.of_triple (by assumption))
    | (fail_if_no_progress with_reducible refine Keeps.record ?_ rfl rfl rfl rfl rfl rfl rfl)
    | (with_reducible apply Keeps.foldl_via; intro _ _)
    | dsimp -zeta +zetaDelta only

theorem bltSeen_runs (m : MillId) (line : ℕ) (elem : ℕ) (va : ℕ) (n : ℕ) (s : State) :
    Runs s s (bltSeen m line elem va n) := by
  unfold bltSeen
  apply Runs.start; intro o k
  repeat' first
    | split
    | (intro _)
    | extract_lets
    | with_reducible apply Runs.get_bind
    | with_reducible apply Runs.set_bind
    | with_reducible apply Runs.modify_bind
    | with_reducible apply Runs.pure_bind
    | with_reducible apply Runs.throw_bind
    | with_reducible apply Runs.of_pure
    | with_reducible apply Runs.of_throw
    | with_reducible apply Runs.of_modify
    | with_reducible apply Runs.of_set
    | with_reducible apply Runs.step (bltTry_runs _ _ _ ?_)
    | with_reducible apply Runs.last (bltTry_runs _ _ _ ?_)
    | with_reducible apply Runs.step (Runs.forM _ _ fun _ _ => Runs.start ?_)
    | with_reducible apply Runs.last (Runs.forM _ _ fun _ _ => Runs.start ?_)
    | with_reducible apply Runs.step (Runs.mapM _ _ fun _ _ => Runs.start ?_)
    | with_reducible apply Runs.last (Runs.mapM _ _ fun _ _ => Runs.start ?_)
    | with_reducible apply Runs.map
    | with_reducible apply Runs.exceptMap
    | with_reducible refine Runs.bind ?_ ?_
    | (with_reducible assumption)
    | with_reducible apply Keeps.via (State.translateRange_keeps ..)
    | (with_reducible apply State.record_via; intro _)
    | (with_reducible apply Keeps.of_ite <;> intro _)
    | with_reducible exact Keeps.refl _
    | (with_reducible apply Keeps.of_pair (by assumption))
    | (with_reducible apply Keeps.of_triple (by assumption))
    | (fail_if_no_progress with_reducible refine Keeps.record ?_ rfl rfl rfl rfl rfl rfl rfl)
    | (with_reducible apply Keeps.foldl_via; intro _ _)
    | dsimp -zeta +zetaDelta only

theorem copyIn_runs (m : MillId) (c : BoltCtx) (x : Spot) (s : State) :
    Runs s s (copyIn m c x) := by
  unfold copyIn
  apply Runs.start; intro o k
  repeat' first
    | split
    | (intro _)
    | extract_lets
    | with_reducible apply Runs.get_bind
    | with_reducible apply Runs.set_bind
    | with_reducible apply Runs.modify_bind
    | with_reducible apply Runs.pure_bind
    | with_reducible apply Runs.throw_bind
    | with_reducible apply Runs.of_pure
    | with_reducible apply Runs.of_throw
    | with_reducible apply Runs.of_modify
    | with_reducible apply Runs.of_set
    | with_reducible apply Runs.step (bltSeen_runs _ _ _ _ _)
    | with_reducible apply Runs.last (bltSeen_runs _ _ _ _ _)
    | with_reducible apply Runs.step (masterIn_runs _ _ _)
    | with_reducible apply Runs.last (masterIn_runs _ _ _)
    | with_reducible apply Runs.step (Runs.forM _ _ fun _ _ => Runs.start ?_)
    | with_reducible apply Runs.last (Runs.forM _ _ fun _ _ => Runs.start ?_)
    | with_reducible apply Runs.step (Runs.mapM _ _ fun _ _ => Runs.start ?_)
    | with_reducible apply Runs.last (Runs.mapM _ _ fun _ _ => Runs.start ?_)
    | with_reducible apply Runs.map
    | with_reducible apply Runs.exceptMap
    | with_reducible refine Runs.bind ?_ ?_
    | (with_reducible assumption)
    | (with_reducible apply State.record_via; intro _)
    | (with_reducible apply Keeps.of_ite <;> intro _)
    | with_reducible exact Keeps.refl _
    | (with_reducible apply Keeps.of_pair (by assumption))
    | (with_reducible apply Keeps.of_triple (by assumption))
    | (fail_if_no_progress with_reducible refine Keeps.record ?_ rfl rfl rfl rfl rfl rfl rfl)
    | (with_reducible apply Keeps.foldl_via; intro _ _)
    | dsimp -zeta +zetaDelta only

theorem State.handLine_keeps (s : State) (m : MillId) (c : BoltCtx) (line : ℕ) (vals : List W32) :
    Keeps s (State.handLine s m c line vals) := by
  unfold State.handLine
  repeat' first
    | split
    | extract_lets
    | with_reducible apply Keeps.via (State.addJob_keeps ..)
    | with_reducible apply Keeps.via (State.onBolt_keeps ..)
    | (with_reducible apply Keeps.of_ite <;> intro _)
    | with_reducible exact Keeps.refl _
    | (with_reducible apply Keeps.of_pair (by assumption))
    | (with_reducible apply Keeps.of_triple (by assumption))
    | (fail_if_no_progress with_reducible refine Keeps.record ?_ rfl rfl rfl rfl rfl rfl rfl)
    | (with_reducible apply Keeps.foldl_via; intro _ _)
    | (fail_if_no_progress dsimp -zeta +zetaDelta only)

theorem State.boltFlushes_keeps (s : State) (m : MillId) (ins : ℕ) (outs : ℕ) :
    Keeps s (State.boltFlushes s m ins outs) := by
  unfold State.boltFlushes
  repeat' first
    | split
    | extract_lets
    | with_reducible apply Keeps.via (State.tally_keeps ..)
    | (with_reducible apply Keeps.of_ite <;> intro _)
    | with_reducible exact Keeps.refl _
    | (with_reducible apply Keeps.of_pair (by assumption))
    | (with_reducible apply Keeps.of_triple (by assumption))
    | (fail_if_no_progress with_reducible refine Keeps.record ?_ rfl rfl rfl rfl rfl rfl rfl)
    | (with_reducible apply Keeps.foldl_via; intro _ _)
    | (fail_if_no_progress dsimp -zeta +zetaDelta only)

theorem copyLine_runs (m : MillId) (c : BoltCtx) (line : ℕ) (pos : ℕ) (s : State) :
    Runs s s (copyLine m c line pos) := by
  unfold copyLine
  apply Runs.start; intro o k
  repeat' first
    | split
    | (intro _)
    | extract_lets
    | with_reducible apply Runs.get_bind
    | with_reducible apply Runs.set_bind
    | with_reducible apply Runs.modify_bind
    | with_reducible apply Runs.pure_bind
    | with_reducible apply Runs.throw_bind
    | with_reducible apply Runs.of_pure
    | with_reducible apply Runs.of_throw
    | with_reducible apply Runs.of_modify
    | with_reducible apply Runs.of_set
    | with_reducible apply Runs.step (copyIn_runs _ _ _)
    | with_reducible apply Runs.last (copyIn_runs _ _ _)
    | with_reducible apply Runs.step (Runs.forM _ _ fun _ _ => Runs.start ?_)
    | with_reducible apply Runs.last (Runs.forM _ _ fun _ _ => Runs.start ?_)
    | with_reducible apply Runs.step (Runs.mapM _ _ fun _ _ => Runs.start ?_)
    | with_reducible apply Runs.last (Runs.mapM _ _ fun _ _ => Runs.start ?_)
    | with_reducible apply Runs.map
    | with_reducible apply Runs.exceptMap
    | with_reducible refine Runs.bind ?_ ?_
    | (with_reducible assumption)
    | with_reducible apply Keeps.via (State.boltFlushes_keeps ..)
    | with_reducible apply Keeps.via (State.handLine_keeps ..)
    | (with_reducible apply State.record_via; intro _)
    | (with_reducible apply Keeps.of_ite <;> intro _)
    | with_reducible exact Keeps.refl _
    | (with_reducible apply Keeps.of_pair (by assumption))
    | (with_reducible apply Keeps.of_triple (by assumption))
    | (fail_if_no_progress with_reducible refine Keeps.record ?_ rfl rfl rfl rfl rfl rfl rfl)
    | (with_reducible apply Keeps.foldl_via; intro _ _)
    | dsimp -zeta +zetaDelta only

theorem indexIn_runs (m : MillId) (c : BoltCtx) (pos : ℕ) (s : State) :
    Runs s s (indexIn m c pos) := by
  unfold indexIn
  apply Runs.start; intro o k
  repeat' first
    | split
    | (intro _)
    | extract_lets
    | with_reducible apply Runs.get_bind
    | with_reducible apply Runs.set_bind
    | with_reducible apply Runs.modify_bind
    | with_reducible apply Runs.pure_bind
    | with_reducible apply Runs.throw_bind
    | with_reducible apply Runs.of_pure
    | with_reducible apply Runs.of_throw
    | with_reducible apply Runs.of_modify
    | with_reducible apply Runs.of_set
    | with_reducible apply Runs.step (bltRead_runs _ _ _ _ _)
    | with_reducible apply Runs.last (bltRead_runs _ _ _ _ _)
    | with_reducible apply Runs.step (Runs.forM _ _ fun _ _ => Runs.start ?_)
    | with_reducible apply Runs.last (Runs.forM _ _ fun _ _ => Runs.start ?_)
    | with_reducible apply Runs.step (Runs.mapM _ _ fun _ _ => Runs.start ?_)
    | with_reducible apply Runs.last (Runs.mapM _ _ fun _ _ => Runs.start ?_)
    | with_reducible apply Runs.map
    | with_reducible apply Runs.exceptMap
    | with_reducible refine Runs.bind ?_ ?_
    | (with_reducible assumption)
    | (with_reducible apply State.record_via; intro _)
    | (with_reducible apply Keeps.of_ite <;> intro _)
    | with_reducible exact Keeps.refl _
    | (with_reducible apply Keeps.of_pair (by assumption))
    | (with_reducible apply Keeps.of_triple (by assumption))
    | (fail_if_no_progress with_reducible refine Keeps.record ?_ rfl rfl rfl rfl rfl rfl rfl)
    | (with_reducible apply Keeps.foldl_via; intro _ _)
    | dsimp -zeta +zetaDelta only

theorem boltEmit_runs (m : MillId) (c : BoltCtx) (s : State) :
    Runs s s (boltEmit m c) := by
  unfold boltEmit
  apply Runs.start; intro o k
  repeat' first
    | split
    | (intro _)
    | extract_lets
    | with_reducible apply Runs.get_bind
    | with_reducible apply Runs.set_bind
    | with_reducible apply Runs.modify_bind
    | with_reducible apply Runs.pure_bind
    | with_reducible apply Runs.throw_bind
    | with_reducible apply Runs.of_pure
    | with_reducible apply Runs.of_throw
    | with_reducible apply Runs.of_modify
    | with_reducible apply Runs.of_set
    | with_reducible apply Runs.step (boltAt_runs _ _ _)
    | with_reducible apply Runs.last (boltAt_runs _ _ _)
    | with_reducible apply Runs.step (copyLine_runs _ _ _ _)
    | with_reducible apply Runs.last (copyLine_runs _ _ _ _)
    | with_reducible apply Runs.step (indexIn_runs _ _ _)
    | with_reducible apply Runs.last (indexIn_runs _ _ _)
    | with_reducible apply Runs.step (Runs.forM _ _ fun _ _ => Runs.start ?_)
    | with_reducible apply Runs.last (Runs.forM _ _ fun _ _ => Runs.start ?_)
    | with_reducible apply Runs.step (Runs.mapM _ _ fun _ _ => Runs.start ?_)
    | with_reducible apply Runs.last (Runs.mapM _ _ fun _ _ => Runs.start ?_)
    | with_reducible apply Runs.map
    | with_reducible apply Runs.exceptMap
    | with_reducible refine Runs.bind ?_ ?_
    | (with_reducible assumption)
    | (with_reducible apply State.record_via; intro _)
    | (with_reducible apply Keeps.of_ite <;> intro _)
    | with_reducible exact Keeps.refl _
    | (with_reducible apply Keeps.of_pair (by assumption))
    | (with_reducible apply Keeps.of_triple (by assumption))
    | (fail_if_no_progress with_reducible refine Keeps.record ?_ rfl rfl rfl rfl rfl rfl rfl)
    | (with_reducible apply Keeps.foldl_via; intro _ _)
    | dsimp -zeta +zetaDelta only

theorem takeRow_runs (m : MillId) (c : BoltCtx) (row : ℕ) (pos : ℕ) (s : State) :
    Runs s s (takeRow m c row pos) := by
  unfold takeRow
  apply Runs.start; intro o k
  repeat' first
    | split
    | (intro _)
    | extract_lets
    | with_reducible apply Runs.get_bind
    | with_reducible apply Runs.set_bind
    | with_reducible apply Runs.modify_bind
    | with_reducible apply Runs.pure_bind
    | with_reducible apply Runs.throw_bind
    | with_reducible apply Runs.of_pure
    | with_reducible apply Runs.of_throw
    | with_reducible apply Runs.of_modify
    | with_reducible apply Runs.of_set
    | with_reducible apply Runs.step (bltTry_runs _ _ _ ?_)
    | with_reducible apply Runs.last (bltTry_runs _ _ _ ?_)
    | with_reducible apply Runs.step (Runs.forM _ _ fun _ _ => Runs.start ?_)
    | with_reducible apply Runs.last (Runs.forM _ _ fun _ _ => Runs.start ?_)
    | with_reducible apply Runs.step (Runs.mapM _ _ fun _ _ => Runs.start ?_)
    | with_reducible apply Runs.last (Runs.mapM _ _ fun _ _ => Runs.start ?_)
    | with_reducible apply Runs.map
    | with_reducible apply Runs.exceptMap
    | with_reducible refine Runs.bind ?_ ?_
    | (with_reducible assumption)
    | with_reducible apply Keeps.via (State.ledgerRead_keeps ..)
    | with_reducible apply Keeps.via (State.ledgerWrite_keeps ..)
    | with_reducible apply Keeps.via (State.onBolt_keeps ..)
    | with_reducible apply Keeps.via (State.translateRange_keeps ..)
    | (with_reducible apply State.record_via; intro _)
    | (with_reducible apply Keeps.of_ite <;> intro _)
    | with_reducible exact Keeps.refl _
    | (with_reducible apply Keeps.of_pair (by assumption))
    | (with_reducible apply Keeps.of_triple (by assumption))
    | (fail_if_no_progress with_reducible refine Keeps.record ?_ rfl rfl rfl rfl rfl rfl rfl)
    | (with_reducible apply Keeps.foldl_via; intro _ _)
    | dsimp -zeta +zetaDelta only

theorem gradIn_runs (m : MillId) (c : BoltCtx) (x : Spot) (s : State) :
    Runs s s (gradIn m c x) := by
  unfold gradIn
  apply Runs.start; intro o k
  repeat' first
    | split
    | (intro _)
    | extract_lets
    | with_reducible apply Runs.get_bind
    | with_reducible apply Runs.set_bind
    | with_reducible apply Runs.modify_bind
    | with_reducible apply Runs.pure_bind
    | with_reducible apply Runs.throw_bind
    | with_reducible apply Runs.of_pure
    | with_reducible apply Runs.of_throw
    | with_reducible apply Runs.of_modify
    | with_reducible apply Runs.of_set
    | with_reducible apply Runs.step (wordIn_runs _ _ _ _)
    | with_reducible apply Runs.last (wordIn_runs _ _ _ _)
    | with_reducible apply Runs.step (Runs.forM _ _ fun _ _ => Runs.start ?_)
    | with_reducible apply Runs.last (Runs.forM _ _ fun _ _ => Runs.start ?_)
    | with_reducible apply Runs.step (Runs.mapM _ _ fun _ _ => Runs.start ?_)
    | with_reducible apply Runs.last (Runs.mapM _ _ fun _ _ => Runs.start ?_)
    | with_reducible apply Runs.map
    | with_reducible apply Runs.exceptMap
    | with_reducible refine Runs.bind ?_ ?_
    | (with_reducible assumption)
    | with_reducible apply Keeps.via (State.takeInjAt_keeps ..)
    | (with_reducible apply State.record_via; intro _)
    | (with_reducible apply Keeps.of_ite <;> intro _)
    | with_reducible exact Keeps.refl _
    | (with_reducible apply Keeps.of_pair (by assumption))
    | (with_reducible apply Keeps.of_triple (by assumption))
    | (fail_if_no_progress with_reducible refine Keeps.record ?_ rfl rfl rfl rfl rfl rfl rfl)
    | (with_reducible apply Keeps.foldl_via; intro _ _)
    | dsimp -zeta +zetaDelta only

theorem elemIn_runs (m : MillId) (c : BoltCtx) (x : Spot) (fresh : Bool) (s : State) :
    Runs s s (elemIn m c x fresh) := by
  unfold elemIn
  apply Runs.start; intro o k
  repeat' first
    | split
    | (intro _)
    | extract_lets
    | with_reducible apply Runs.get_bind
    | with_reducible apply Runs.set_bind
    | with_reducible apply Runs.modify_bind
    | with_reducible apply Runs.pure_bind
    | with_reducible apply Runs.throw_bind
    | with_reducible apply Runs.of_pure
    | with_reducible apply Runs.of_throw
    | with_reducible apply Runs.of_modify
    | with_reducible apply Runs.of_set
    | with_reducible apply Runs.step (gradIn_runs _ _ _)
    | with_reducible apply Runs.last (gradIn_runs _ _ _)
    | with_reducible apply Runs.step (masterIn_runs _ _ _)
    | with_reducible apply Runs.last (masterIn_runs _ _ _)
    | with_reducible apply Runs.step (wordIn_runs _ _ _ _)
    | with_reducible apply Runs.last (wordIn_runs _ _ _ _)
    | with_reducible apply Runs.step (Runs.forM _ _ fun _ _ => Runs.start ?_)
    | with_reducible apply Runs.last (Runs.forM _ _ fun _ _ => Runs.start ?_)
    | with_reducible apply Runs.step (Runs.mapM _ _ fun _ _ => Runs.start ?_)
    | with_reducible apply Runs.last (Runs.mapM _ _ fun _ _ => Runs.start ?_)
    | with_reducible apply Runs.map
    | with_reducible apply Runs.exceptMap
    | with_reducible refine Runs.bind ?_ ?_
    | (with_reducible assumption)
    | (with_reducible apply State.record_via; intro _)
    | (with_reducible apply Keeps.of_ite <;> intro _)
    | with_reducible exact Keeps.refl _
    | (with_reducible apply Keeps.of_pair (by assumption))
    | (with_reducible apply Keeps.of_triple (by assumption))
    | (fail_if_no_progress with_reducible refine Keeps.record ?_ rfl rfl rfl rfl rfl rfl rfl)
    | (with_reducible apply Keeps.foldl_via; intro _ _)
    | dsimp -zeta +zetaDelta only

theorem State.rangesWrite_keeps (s : State) (m : MillId) (v : Mover) (a3 : List (List (ℕ × ℕ) × List Byte)) :
    Keeps s (State.rangesWrite s m v a3).2 := by
  induction a3 generalizing s m v with
  | nil =>
    unfold State.rangesWrite
    repeat' first
      | split
      | extract_lets
      | with_reducible apply Keeps.via (State.partsWrite_keeps ..)
      | (with_reducible apply Keeps.of_ite <;> intro _)
      | with_reducible exact Keeps.refl _
      | (with_reducible apply Keeps.of_pair (by assumption))
      | (with_reducible apply Keeps.of_triple (by assumption))
      | (fail_if_no_progress with_reducible refine Keeps.record ?_ rfl rfl rfl rfl rfl rfl rfl)
      | (with_reducible apply Keeps.foldl_via; intro _ _)
      | (fail_if_no_progress dsimp -zeta +zetaDelta only)
  | cons x rest ih =>
    obtain ⟨x, y⟩ := x
    unfold State.rangesWrite
    repeat' first
      | split
      | extract_lets
      | with_reducible apply Keeps.via (ih ..)
      | with_reducible apply Keeps.via (State.partsWrite_keeps ..)
      | (with_reducible apply Keeps.of_ite <;> intro _)
      | with_reducible exact Keeps.refl _
      | (with_reducible apply Keeps.of_pair (by assumption))
      | (with_reducible apply Keeps.of_triple (by assumption))
      | (fail_if_no_progress with_reducible refine Keeps.record ?_ rfl rfl rfl rfl rfl rfl rfl)
      | (with_reducible apply Keeps.foldl_via; intro _ _)
      | (fail_if_no_progress dsimp -zeta +zetaDelta only)

theorem bltWrite_runs (m : MillId) (line : ℕ) (elem : ℕ) (ws : List (ℕ × List Byte)) (s : State) :
    Runs s s (bltWrite m line elem ws) := by
  unfold bltWrite
  apply Runs.start; intro o k
  refine Runs.step (Runs.mapM _ _ fun _ _ => ?_) k fun ps s1 k1 => ?_
  · exact Runs.step (bltTry_runs _ _ _ fun _ => State.translateRange_keeps ..) (Keeps.refl _) fun _ _ k => Runs.of_pure _ k
  apply Runs.get_bind
  have hr := State.rangesWrite_keeps s1 m (s1.boltMover m) ps
  split
  · rename_i e; rw [e] at hr; exact Runs.of_set (k1.trans hr)
  · exact Runs.of_throw _ k1
  · rename_i e
    rw [e] at hr
    exact Runs.set_bind (k1.trans ⟨hr.1, hr.2.1, fun w => ⟨w.1, (hr.2.2 w).2⟩⟩) fun k => Runs.of_throw _ k

theorem State.countFact_keeps (s : State) (m : MillId) (a2 : Option (Option (List Num) × ℕ × ℕ)) :
    Keeps s (State.countFact s m a2) := by
  unfold State.countFact
  repeat' first
    | split
    | extract_lets
    | with_reducible apply Keeps.via (State.onBolt_keeps ..)
    | with_reducible apply Keeps.via (State.raise_keeps ..)
    | with_reducible apply Keeps.via (State.tally_keeps ..)
    | (with_reducible apply Keeps.of_ite <;> intro _)
    | with_reducible exact Keeps.refl _
    | (with_reducible apply Keeps.of_pair (by assumption))
    | (with_reducible apply Keeps.of_triple (by assumption))
    | (fail_if_no_progress with_reducible refine Keeps.record ?_ rfl rfl rfl rfl rfl rfl rfl)
    | (with_reducible apply Keeps.foldl_via; intro _ _)
    | (fail_if_no_progress dsimp -zeta +zetaDelta only)

theorem State.nonfinite_keeps (s : State) (m : MillId) :
    Keeps s (State.nonfinite s m) := by
  unfold State.nonfinite
  repeat' first
    | split
    | extract_lets
    | with_reducible apply Keeps.via (State.onBolt_keeps ..)
    | with_reducible apply Keeps.via (State.raise_keeps ..)
    | with_reducible apply Keeps.via (State.tally_keeps ..)
    | (with_reducible apply Keeps.of_ite <;> intro _)
    | with_reducible exact Keeps.refl _
    | (with_reducible apply Keeps.of_pair (by assumption))
    | (with_reducible apply Keeps.of_triple (by assumption))
    | (fail_if_no_progress with_reducible refine Keeps.record ?_ rfl rfl rfl rfl rfl rfl rfl)
    | (with_reducible apply Keeps.foldl_via; intro _ _)
    | (fail_if_no_progress dsimp -zeta +zetaDelta only)

theorem State.onGroup_keeps (s : State) (idx : ℕ) (f : Group → Group) :
    Keeps s (State.onGroup s idx f) := by
  unfold State.onGroup
  repeat' first
    | split
    | extract_lets
    | (with_reducible apply Keeps.of_ite <;> intro _)
    | with_reducible exact Keeps.refl _
    | (with_reducible apply Keeps.of_pair (by assumption))
    | (with_reducible apply Keeps.of_triple (by assumption))
    | (fail_if_no_progress with_reducible refine Keeps.record ?_ rfl rfl rfl rfl rfl rfl rfl)
    | (with_reducible apply Keeps.foldl_via; intro _ _)
    | (fail_if_no_progress dsimp -zeta +zetaDelta only)

theorem State.weighFold_keeps (s : State) (c : BoltCtx) (line : ℕ) (elem : ℕ) (master : ℕ) :
    Keeps s (State.weighFold s c line elem master) := by
  unfold State.weighFold
  repeat' first
    | split
    | extract_lets
    | with_reducible apply Keeps.via (State.onGroup_keeps ..)
    | (with_reducible apply Keeps.of_ite <;> intro _)
    | with_reducible exact Keeps.refl _
    | (with_reducible apply Keeps.of_pair (by assumption))
    | (with_reducible apply Keeps.of_triple (by assumption))
    | (fail_if_no_progress with_reducible refine Keeps.record ?_ rfl rfl rfl rfl rfl rfl rfl)
    | (with_reducible apply Keeps.foldl_via; intro _ _)
    | (fail_if_no_progress dsimp -zeta +zetaDelta only)

theorem State.barReplay_keeps (s : State) (m : MillId) (c : BoltCtx) :
    Keeps s (State.barReplay s m c) := by
  unfold State.barReplay
  repeat' first
    | split
    | extract_lets
    | with_reducible apply Keeps.via (Keeps.onMiller ..)
    | (with_reducible apply Keeps.of_ite <;> intro _)
    | with_reducible exact Keeps.refl _
    | (with_reducible apply Keeps.of_pair (by assumption))
    | (with_reducible apply Keeps.of_triple (by assumption))
    | (fail_if_no_progress with_reducible refine Keeps.record ?_ rfl rfl rfl rfl rfl rfl rfl)
    | (with_reducible apply Keeps.foldl_via; intro _ _)
    | (fail_if_no_progress dsimp -zeta +zetaDelta only)

theorem State.wroteMaster_keeps (s : State) (m : MillId) (c : BoltCtx) (line : ℕ) (elem : ℕ) (master : ℕ) :
    Keeps s (State.wroteMaster s m c line elem master) := by
  unfold State.wroteMaster
  repeat' first
    | split
    | extract_lets
    | with_reducible apply Keeps.via (State.barReplay_keeps ..)
    | with_reducible apply Keeps.via (State.weighFold_keeps ..)
    | (with_reducible apply Keeps.of_ite <;> intro _)
    | with_reducible exact Keeps.refl _
    | (with_reducible apply Keeps.of_pair (by assumption))
    | (with_reducible apply Keeps.of_triple (by assumption))
    | (fail_if_no_progress with_reducible refine Keeps.record ?_ rfl rfl rfl rfl rfl rfl rfl)
    | (with_reducible apply Keeps.foldl_via; intro _ _)
    | (fail_if_no_progress dsimp -zeta +zetaDelta only)

theorem State.elemDone_keeps (s : State) (m : MillId) (c : BoltCtx) (x : Spot) (o : Option ElemOut) :
    Keeps s (State.elemDone s m c x o) := by
  unfold State.elemDone
  repeat' first
    | split
    | extract_lets
    | with_reducible apply Keeps.via (State.nonfinite_keeps ..)
    | with_reducible apply Keeps.via (State.tally_keeps ..)
    | with_reducible apply Keeps.via (State.wroteMaster_keeps ..)
    | (with_reducible apply Keeps.of_ite <;> intro _)
    | with_reducible exact Keeps.refl _
    | (with_reducible apply Keeps.of_pair (by assumption))
    | (with_reducible apply Keeps.of_triple (by assumption))
    | (fail_if_no_progress with_reducible refine Keeps.record ?_ rfl rfl rfl rfl rfl rfl rfl)
    | (with_reducible apply Keeps.foldl_via; intro _ _)
    | (fail_if_no_progress dsimp -zeta +zetaDelta only)

theorem boltBlock_runs (m : MillId) (c : BoltCtx) (x : Spot) (t : ℕ) (s : State) :
    Runs s s (boltBlock m c x t) := by
  unfold boltBlock
  apply Runs.start; intro o k
  repeat' first
    | split
    | (intro _)
    | extract_lets
    | with_reducible apply Runs.get_bind
    | with_reducible apply Runs.set_bind
    | with_reducible apply Runs.modify_bind
    | with_reducible apply Runs.pure_bind
    | with_reducible apply Runs.throw_bind
    | with_reducible apply Runs.of_pure
    | with_reducible apply Runs.of_throw
    | with_reducible apply Runs.of_modify
    | with_reducible apply Runs.of_set
    | with_reducible apply Runs.step (bltRead_runs _ _ _ _ _)
    | with_reducible apply Runs.last (bltRead_runs _ _ _ _ _)
    | with_reducible apply Runs.step (bltWrite_runs _ _ _ _)
    | with_reducible apply Runs.last (bltWrite_runs _ _ _ _)
    | with_reducible apply Runs.step (elemIn_runs _ _ _ _)
    | with_reducible apply Runs.last (elemIn_runs _ _ _ _)
    | with_reducible apply Runs.step (Runs.forM _ _ fun _ _ => Runs.start ?_)
    | with_reducible apply Runs.last (Runs.forM _ _ fun _ _ => Runs.start ?_)
    | with_reducible apply Runs.step (Runs.mapM _ _ fun _ _ => Runs.start ?_)
    | with_reducible apply Runs.last (Runs.mapM _ _ fun _ _ => Runs.start ?_)
    | with_reducible apply Runs.map
    | with_reducible apply Runs.exceptMap
    | with_reducible refine Runs.bind ?_ ?_
    | (with_reducible assumption)
    | with_reducible apply Keeps.via (State.boltFlushes_keeps ..)
    | with_reducible apply Keeps.via (State.countFact_keeps ..)
    | with_reducible apply Keeps.via (State.elemDone_keeps ..)
    | with_reducible apply Keeps.via (State.injected_keeps ..)
    | (with_reducible apply State.record_via; intro _)
    | (with_reducible apply Keeps.forAll_via; intro _ _)
    | (with_reducible apply Keeps.of_ite <;> intro _)
    | with_reducible exact Keeps.refl _
    | (with_reducible apply Keeps.of_pair (by assumption))
    | (with_reducible apply Keeps.of_triple (by assumption))
    | (fail_if_no_progress with_reducible refine Keeps.record ?_ rfl rfl rfl rfl rfl rfl rfl)
    | (with_reducible apply Keeps.foldl_via; intro _ _)
    | dsimp -zeta +zetaDelta only

theorem boltElem_runs (m : MillId) (c : BoltCtx) (x : Spot) (delta : ℕ) (t : ℕ) (fresh : Bool) (s : State) :
    Runs s s (boltElem m c x delta t fresh) := by
  unfold boltElem
  apply Runs.start; intro o k
  repeat' first
    | split
    | (intro _)
    | extract_lets
    | with_reducible apply Runs.get_bind
    | with_reducible apply Runs.set_bind
    | with_reducible apply Runs.modify_bind
    | with_reducible apply Runs.pure_bind
    | with_reducible apply Runs.throw_bind
    | with_reducible apply Runs.of_pure
    | with_reducible apply Runs.of_throw
    | with_reducible apply Runs.of_modify
    | with_reducible apply Runs.of_set
    | with_reducible apply Runs.step (bltWrite_runs _ _ _ _)
    | with_reducible apply Runs.last (bltWrite_runs _ _ _ _)
    | with_reducible apply Runs.step (elemIn_runs _ _ _ _)
    | with_reducible apply Runs.last (elemIn_runs _ _ _ _)
    | with_reducible apply Runs.step (Runs.forM _ _ fun _ _ => Runs.start ?_)
    | with_reducible apply Runs.last (Runs.forM _ _ fun _ _ => Runs.start ?_)
    | with_reducible apply Runs.step (Runs.mapM _ _ fun _ _ => Runs.start ?_)
    | with_reducible apply Runs.last (Runs.mapM _ _ fun _ _ => Runs.start ?_)
    | with_reducible apply Runs.map
    | with_reducible apply Runs.exceptMap
    | with_reducible refine Runs.bind ?_ ?_
    | (with_reducible assumption)
    | with_reducible apply Keeps.via (State.boltFlushes_keeps ..)
    | with_reducible apply Keeps.via (State.elemDone_keeps ..)
    | (with_reducible apply State.record_via; intro _)
    | (with_reducible apply Keeps.of_ite <;> intro _)
    | with_reducible exact Keeps.refl _
    | (with_reducible apply Keeps.of_pair (by assumption))
    | (with_reducible apply Keeps.of_triple (by assumption))
    | (fail_if_no_progress with_reducible refine Keeps.record ?_ rfl rfl rfl rfl rfl rfl rfl)
    | (with_reducible apply Keeps.foldl_via; intro _ _)
    | dsimp -zeta +zetaDelta only

theorem boltLine_runs (m : MillId) (c : BoltCtx) (line : ℕ) (pos : ℕ) (first : ℕ) (delta : ℕ) (t : ℕ) (fresh : Bool) (s : State) :
    Runs s s (boltLine m c line pos first delta t fresh) := by
  unfold boltLine
  apply Runs.start; intro o k
  repeat' first
    | split
    | (intro _)
    | extract_lets
    | with_reducible apply Runs.get_bind
    | with_reducible apply Runs.set_bind
    | with_reducible apply Runs.modify_bind
    | with_reducible apply Runs.pure_bind
    | with_reducible apply Runs.throw_bind
    | with_reducible apply Runs.of_pure
    | with_reducible apply Runs.of_throw
    | with_reducible apply Runs.of_modify
    | with_reducible apply Runs.of_set
    | with_reducible apply Runs.step (boltAt_runs _ _ _)
    | with_reducible apply Runs.last (boltAt_runs _ _ _)
    | with_reducible apply Runs.step (boltBlock_runs _ _ _ _)
    | with_reducible apply Runs.last (boltBlock_runs _ _ _ _)
    | with_reducible apply Runs.step (boltElem_runs _ _ _ _ _ _)
    | with_reducible apply Runs.last (boltElem_runs _ _ _ _ _ _)
    | with_reducible apply Runs.step (Runs.forM _ _ fun _ _ => Runs.start ?_)
    | with_reducible apply Runs.last (Runs.forM _ _ fun _ _ => Runs.start ?_)
    | with_reducible apply Runs.step (Runs.mapM _ _ fun _ _ => Runs.start ?_)
    | with_reducible apply Runs.last (Runs.mapM _ _ fun _ _ => Runs.start ?_)
    | with_reducible apply Runs.map
    | with_reducible apply Runs.exceptMap
    | with_reducible refine Runs.bind ?_ ?_
    | (with_reducible assumption)
    | with_reducible apply Keeps.via (State.tally_keeps ..)
    | (with_reducible apply State.record_via; intro _)
    | (with_reducible apply Keeps.of_ite <;> intro _)
    | with_reducible exact Keeps.refl _
    | (with_reducible apply Keeps.of_pair (by assumption))
    | (with_reducible apply Keeps.of_triple (by assumption))
    | (fail_if_no_progress with_reducible refine Keeps.record ?_ rfl rfl rfl rfl rfl rfl rfl)
    | (with_reducible apply Keeps.foldl_via; intro _ _)
    | dsimp -zeta +zetaDelta only

theorem State.rowDone_keeps (s : State) (m : MillId) (c : BoltCtx) (row : ℕ) (e : ℕ) :
    Keeps s (State.rowDone s m c row e) := by
  unfold State.rowDone
  repeat' first
    | split
    | extract_lets
    | with_reducible apply Keeps.via (State.rowWritten_keeps ..)
    | with_reducible apply Keeps.via (State.tally_keeps ..)
    | (with_reducible apply Keeps.of_ite <;> intro _)
    | with_reducible exact Keeps.refl _
    | (with_reducible apply Keeps.of_pair (by assumption))
    | (with_reducible apply Keeps.of_triple (by assumption))
    | (fail_if_no_progress with_reducible refine Keeps.record ?_ rfl rfl rfl rfl rfl rfl rfl)
    | (with_reducible apply Keeps.foldl_via; intro _ _)
    | (fail_if_no_progress dsimp -zeta +zetaDelta only)

theorem boltRow_runs (m : MillId) (c : BoltCtx) (row : ℕ) (pos : ℕ) (elem : ℕ) (s : State) :
    Runs s s (boltRow m c row pos elem) := by
  unfold boltRow
  apply Runs.start; intro o k
  repeat' first
    | split
    | (intro _)
    | extract_lets
    | with_reducible apply Runs.get_bind
    | with_reducible apply Runs.set_bind
    | with_reducible apply Runs.modify_bind
    | with_reducible apply Runs.pure_bind
    | with_reducible apply Runs.throw_bind
    | with_reducible apply Runs.of_pure
    | with_reducible apply Runs.of_throw
    | with_reducible apply Runs.of_modify
    | with_reducible apply Runs.of_set
    | with_reducible apply Runs.step (boltLine_runs _ _ _ _ _ _ _ _)
    | with_reducible apply Runs.last (boltLine_runs _ _ _ _ _ _ _ _)
    | with_reducible apply Runs.step (copyLine_runs _ _ _ _)
    | with_reducible apply Runs.last (copyLine_runs _ _ _ _)
    | with_reducible apply Runs.step (takeRow_runs _ _ _ _)
    | with_reducible apply Runs.last (takeRow_runs _ _ _ _)
    | with_reducible apply Runs.step (Runs.forM _ _ fun _ _ => Runs.start ?_)
    | with_reducible apply Runs.last (Runs.forM _ _ fun _ _ => Runs.start ?_)
    | with_reducible apply Runs.step (Runs.mapM _ _ fun _ _ => Runs.start ?_)
    | with_reducible apply Runs.last (Runs.mapM _ _ fun _ _ => Runs.start ?_)
    | with_reducible apply Runs.map
    | with_reducible apply Runs.exceptMap
    | with_reducible refine Runs.bind ?_ ?_
    | (with_reducible assumption)
    | with_reducible apply Keeps.via (State.rowDone_keeps ..)
    | with_reducible apply Keeps.via (State.tally_keeps ..)
    | (with_reducible apply State.record_via; intro _)
    | (with_reducible apply Keeps.of_ite <;> intro _)
    | with_reducible exact Keeps.refl _
    | (with_reducible apply Keeps.of_pair (by assumption))
    | (with_reducible apply Keeps.of_triple (by assumption))
    | (fail_if_no_progress with_reducible refine Keeps.record ?_ rfl rfl rfl rfl rfl rfl rfl)
    | (with_reducible apply Keeps.foldl_via; intro _ _)
    | dsimp -zeta +zetaDelta only

theorem boltSparse_runs (m : MillId) (c : BoltCtx) (s : State) :
    Runs s s (boltSparse m c) := by
  unfold boltSparse
  apply Runs.start; intro o k
  repeat' first
    | split
    | (intro _)
    | extract_lets
    | with_reducible apply Runs.get_bind
    | with_reducible apply Runs.set_bind
    | with_reducible apply Runs.modify_bind
    | with_reducible apply Runs.pure_bind
    | with_reducible apply Runs.throw_bind
    | with_reducible apply Runs.of_pure
    | with_reducible apply Runs.of_throw
    | with_reducible apply Runs.of_modify
    | with_reducible apply Runs.of_set
    | with_reducible apply Runs.step (boltAt_runs _ _ _)
    | with_reducible apply Runs.last (boltAt_runs _ _ _)
    | with_reducible apply Runs.step (boltRow_runs _ _ _ _ _)
    | with_reducible apply Runs.last (boltRow_runs _ _ _ _ _)
    | with_reducible apply Runs.step (indexIn_runs _ _ _)
    | with_reducible apply Runs.last (indexIn_runs _ _ _)
    | with_reducible apply Runs.step (Runs.forM _ _ fun _ _ => Runs.start ?_)
    | with_reducible apply Runs.last (Runs.forM _ _ fun _ _ => Runs.start ?_)
    | with_reducible apply Runs.step (Runs.mapM _ _ fun _ _ => Runs.start ?_)
    | with_reducible apply Runs.last (Runs.mapM _ _ fun _ _ => Runs.start ?_)
    | with_reducible apply Runs.map
    | with_reducible apply Runs.exceptMap
    | with_reducible refine Runs.bind ?_ ?_
    | (with_reducible assumption)
    | with_reducible apply Keeps.via (State.onBolt_keeps ..)
    | (with_reducible apply State.record_via; intro _)
    | (with_reducible apply Keeps.of_ite <;> intro _)
    | with_reducible exact Keeps.refl _
    | (with_reducible apply Keeps.of_pair (by assumption))
    | (with_reducible apply Keeps.of_triple (by assumption))
    | (fail_if_no_progress with_reducible refine Keeps.record ?_ rfl rfl rfl rfl rfl rfl rfl)
    | (with_reducible apply Keeps.foldl_via; intro _ _)
    | dsimp -zeta +zetaDelta only

theorem boltDense_runs (m : MillId) (c : BoltCtx) (s : State) :
    Runs s s (boltDense m c) := by
  unfold boltDense
  apply Runs.start; intro o k
  repeat' first
    | split
    | (intro _)
    | extract_lets
    | with_reducible apply Runs.get_bind
    | with_reducible apply Runs.set_bind
    | with_reducible apply Runs.modify_bind
    | with_reducible apply Runs.pure_bind
    | with_reducible apply Runs.throw_bind
    | with_reducible apply Runs.of_pure
    | with_reducible apply Runs.of_throw
    | with_reducible apply Runs.of_modify
    | with_reducible apply Runs.of_set
    | with_reducible apply Runs.step (boltAt_runs _ _ _)
    | with_reducible apply Runs.last (boltAt_runs _ _ _)
    | with_reducible apply Runs.step (boltLine_runs _ _ _ _ _ _ _ _)
    | with_reducible apply Runs.last (boltLine_runs _ _ _ _ _ _ _ _)
    | with_reducible apply Runs.step (copyLine_runs _ _ _ _)
    | with_reducible apply Runs.last (copyLine_runs _ _ _ _)
    | with_reducible apply Runs.step (Runs.forM _ _ fun _ _ => Runs.start ?_)
    | with_reducible apply Runs.last (Runs.forM _ _ fun _ _ => Runs.start ?_)
    | with_reducible apply Runs.step (Runs.mapM _ _ fun _ _ => Runs.start ?_)
    | with_reducible apply Runs.last (Runs.mapM _ _ fun _ _ => Runs.start ?_)
    | with_reducible apply Runs.map
    | with_reducible apply Runs.exceptMap
    | with_reducible refine Runs.bind ?_ ?_
    | (with_reducible assumption)
    | (with_reducible apply State.record_via; intro _)
    | (with_reducible apply Keeps.of_ite <;> intro _)
    | with_reducible exact Keeps.refl _
    | (with_reducible apply Keeps.of_pair (by assumption))
    | (with_reducible apply Keeps.of_triple (by assumption))
    | (fail_if_no_progress with_reducible refine Keeps.record ?_ rfl rfl rfl rfl rfl rfl rfl)
    | (with_reducible apply Keeps.foldl_via; intro _ _)
    | dsimp -zeta +zetaDelta only

theorem sweepElem_runs (m : MillId) (c : BoltCtx) (x : Spot) (s : State) :
    Runs s s (sweepElem m c x) := by
  unfold sweepElem
  apply Runs.start; intro o k
  repeat' first
    | split
    | (intro _)
    | extract_lets
    | with_reducible apply Runs.get_bind
    | with_reducible apply Runs.set_bind
    | with_reducible apply Runs.modify_bind
    | with_reducible apply Runs.pure_bind
    | with_reducible apply Runs.throw_bind
    | with_reducible apply Runs.of_pure
    | with_reducible apply Runs.of_throw
    | with_reducible apply Runs.of_modify
    | with_reducible apply Runs.of_set
    | with_reducible apply Runs.step (boltAt_runs _ _ _)
    | with_reducible apply Runs.last (boltAt_runs _ _ _)
    | with_reducible apply Runs.step (gradIn_runs _ _ _)
    | with_reducible apply Runs.last (gradIn_runs _ _ _)
    | with_reducible apply Runs.step (masterIn_runs _ _ _)
    | with_reducible apply Runs.last (masterIn_runs _ _ _)
    | with_reducible apply Runs.step (Runs.forM _ _ fun _ _ => Runs.start ?_)
    | with_reducible apply Runs.last (Runs.forM _ _ fun _ _ => Runs.start ?_)
    | with_reducible apply Runs.step (Runs.mapM _ _ fun _ _ => Runs.start ?_)
    | with_reducible apply Runs.last (Runs.mapM _ _ fun _ _ => Runs.start ?_)
    | with_reducible apply Runs.map
    | with_reducible apply Runs.exceptMap
    | with_reducible refine Runs.bind ?_ ?_
    | (with_reducible assumption)
    | with_reducible apply Keeps.via (State.boltFlushes_keeps ..)
    | with_reducible apply Keeps.via (State.onBolt_keeps ..)
    | (with_reducible apply State.record_via; intro _)
    | (with_reducible apply Keeps.of_ite <;> intro _)
    | with_reducible exact Keeps.refl _
    | (with_reducible apply Keeps.of_pair (by assumption))
    | (with_reducible apply Keeps.of_triple (by assumption))
    | (fail_if_no_progress with_reducible refine Keeps.record ?_ rfl rfl rfl rfl rfl rfl rfl)
    | (with_reducible apply Keeps.foldl_via; intro _ _)
    | dsimp -zeta +zetaDelta only

theorem boltSweep_runs (m : MillId) (c : BoltCtx) (s : State) :
    Runs s s (boltSweep m c) := by
  unfold boltSweep
  apply Runs.start; intro o k
  repeat' first
    | split
    | (intro _)
    | extract_lets
    | with_reducible apply Runs.get_bind
    | with_reducible apply Runs.set_bind
    | with_reducible apply Runs.modify_bind
    | with_reducible apply Runs.pure_bind
    | with_reducible apply Runs.throw_bind
    | with_reducible apply Runs.of_pure
    | with_reducible apply Runs.of_throw
    | with_reducible apply Runs.of_modify
    | with_reducible apply Runs.of_set
    | with_reducible apply Runs.step (bltWrite_runs _ _ _ _)
    | with_reducible apply Runs.last (bltWrite_runs _ _ _ _)
    | with_reducible apply Runs.step (boltAt_runs _ _ _)
    | with_reducible apply Runs.last (boltAt_runs _ _ _)
    | with_reducible apply Runs.step (sweepElem_runs _ _ _)
    | with_reducible apply Runs.last (sweepElem_runs _ _ _)
    | with_reducible apply Runs.step (wordIn_runs _ _ _ _)
    | with_reducible apply Runs.last (wordIn_runs _ _ _ _)
    | with_reducible apply Runs.step (Runs.forM _ _ fun _ _ => Runs.start ?_)
    | with_reducible apply Runs.last (Runs.forM _ _ fun _ _ => Runs.start ?_)
    | with_reducible apply Runs.step (Runs.mapM _ _ fun _ _ => Runs.start ?_)
    | with_reducible apply Runs.last (Runs.mapM _ _ fun _ _ => Runs.start ?_)
    | with_reducible apply Runs.map
    | with_reducible apply Runs.exceptMap
    | with_reducible refine Runs.bind ?_ ?_
    | (with_reducible assumption)
    | with_reducible apply Keeps.via (State.barReplay_keeps ..)
    | with_reducible apply Keeps.via (State.boltFlushes_keeps ..)
    | with_reducible apply Keeps.via (State.onBolt_keeps ..)
    | (with_reducible apply State.record_via; intro _)
    | (with_reducible apply Keeps.of_ite <;> intro _)
    | with_reducible exact Keeps.refl _
    | (with_reducible apply Keeps.of_pair (by assumption))
    | (with_reducible apply Keeps.of_triple (by assumption))
    | (fail_if_no_progress with_reducible refine Keeps.record ?_ rfl rfl rfl rfl rfl rfl rfl)
    | (with_reducible apply Keeps.foldl_via; intro _ _)
    | dsimp -zeta +zetaDelta only

theorem boltPlain_runs (m : MillId) (c : BoltCtx) (s : State) :
    Runs s s (boltPlain m c) := by
  unfold boltPlain
  apply Runs.start; intro o k
  repeat' first
    | split
    | (intro _)
    | extract_lets
    | with_reducible apply Runs.get_bind
    | with_reducible apply Runs.set_bind
    | with_reducible apply Runs.modify_bind
    | with_reducible apply Runs.pure_bind
    | with_reducible apply Runs.throw_bind
    | with_reducible apply Runs.of_pure
    | with_reducible apply Runs.of_throw
    | with_reducible apply Runs.of_modify
    | with_reducible apply Runs.of_set
    | with_reducible apply Runs.step (boltDense_runs _ _)
    | with_reducible apply Runs.last (boltDense_runs _ _)
    | with_reducible apply Runs.step (boltSweep_runs _ _)
    | with_reducible apply Runs.last (boltSweep_runs _ _)
    | with_reducible apply Runs.step (Runs.forM _ _ fun _ _ => Runs.start ?_)
    | with_reducible apply Runs.last (Runs.forM _ _ fun _ _ => Runs.start ?_)
    | with_reducible apply Runs.step (Runs.mapM _ _ fun _ _ => Runs.start ?_)
    | with_reducible apply Runs.last (Runs.mapM _ _ fun _ _ => Runs.start ?_)
    | with_reducible apply Runs.map
    | with_reducible apply Runs.exceptMap
    | with_reducible refine Runs.bind ?_ ?_
    | (with_reducible assumption)
    | (with_reducible apply State.record_via; intro _)
    | (with_reducible apply Keeps.of_ite <;> intro _)
    | with_reducible exact Keeps.refl _
    | (with_reducible apply Keeps.of_pair (by assumption))
    | (with_reducible apply Keeps.of_triple (by assumption))
    | (fail_if_no_progress with_reducible refine Keeps.record ?_ rfl rfl rfl rfl rfl rfl rfl)
    | (with_reducible apply Keeps.foldl_via; intro _ _)
    | dsimp -zeta +zetaDelta only

theorem boltBody_runs (m : MillId) (s : State) :
    Runs s s (boltBody m) := by
  unfold boltBody
  apply Runs.start; intro o k
  repeat' first
    | split
    | (intro _)
    | extract_lets
    | with_reducible apply Runs.get_bind
    | with_reducible apply Runs.set_bind
    | with_reducible apply Runs.modify_bind
    | with_reducible apply Runs.pure_bind
    | with_reducible apply Runs.throw_bind
    | with_reducible apply Runs.of_pure
    | with_reducible apply Runs.of_throw
    | with_reducible apply Runs.of_modify
    | with_reducible apply Runs.of_set
    | with_reducible apply Runs.step (boltCheck_runs _ _)
    | with_reducible apply Runs.last (boltCheck_runs _ _)
    | with_reducible apply Runs.step (boltEmit_runs _ _)
    | with_reducible apply Runs.last (boltEmit_runs _ _)
    | with_reducible apply Runs.step (boltPlain_runs _ _)
    | with_reducible apply Runs.last (boltPlain_runs _ _)
    | with_reducible apply Runs.step (boltSparse_runs _ _)
    | with_reducible apply Runs.last (boltSparse_runs _ _)
    | with_reducible apply Runs.step (Runs.forM _ _ fun _ _ => Runs.start ?_)
    | with_reducible apply Runs.last (Runs.forM _ _ fun _ _ => Runs.start ?_)
    | with_reducible apply Runs.step (Runs.mapM _ _ fun _ _ => Runs.start ?_)
    | with_reducible apply Runs.last (Runs.mapM _ _ fun _ _ => Runs.start ?_)
    | with_reducible apply Runs.map
    | with_reducible apply Runs.exceptMap
    | with_reducible refine Runs.bind ?_ ?_
    | (with_reducible assumption)
    | (with_reducible apply State.record_via; intro _)
    | (with_reducible apply Keeps.of_ite <;> intro _)
    | with_reducible exact Keeps.refl _
    | (with_reducible apply Keeps.of_pair (by assumption))
    | (with_reducible apply Keeps.of_triple (by assumption))
    | (fail_if_no_progress with_reducible refine Keeps.record ?_ rfl rfl rfl rfl rfl rfl rfl)
    | (with_reducible apply Keeps.foldl_via; intro _ _)
    | dsimp -zeta +zetaDelta only

theorem boltLatch_runs (m : MillId) (o : UpdateOp) (s : State) :
    Runs s s (boltLatch m o) := by
  unfold boltLatch
  apply Runs.start; intro o k
  repeat' first
    | split
    | (intro _)
    | extract_lets
    | with_reducible apply Runs.get_bind
    | with_reducible apply Runs.set_bind
    | with_reducible apply Runs.modify_bind
    | with_reducible apply Runs.pure_bind
    | with_reducible apply Runs.throw_bind
    | with_reducible apply Runs.of_pure
    | with_reducible apply Runs.of_throw
    | with_reducible apply Runs.of_modify
    | with_reducible apply Runs.of_set
    | with_reducible apply Runs.step (bltRead_runs _ _ _ _ _)
    | with_reducible apply Runs.last (bltRead_runs _ _ _ _ _)
    | with_reducible apply Runs.step (Runs.forM _ _ fun _ _ => Runs.start ?_)
    | with_reducible apply Runs.last (Runs.forM _ _ fun _ _ => Runs.start ?_)
    | with_reducible apply Runs.step (Runs.mapM _ _ fun _ _ => Runs.start ?_)
    | with_reducible apply Runs.last (Runs.mapM _ _ fun _ _ => Runs.start ?_)
    | with_reducible apply Runs.map
    | with_reducible apply Runs.exceptMap
    | with_reducible refine Runs.bind ?_ ?_
    | (with_reducible assumption)
    | with_reducible apply Keeps.via (State.boltFlushes_keeps ..)
    | with_reducible apply Keeps.via (State.onBolt_keeps ..)
    | with_reducible apply Keeps.via (State.onGroup_keeps ..)
    | (with_reducible apply State.record_via; intro _)
    | (with_reducible apply Keeps.of_ite <;> intro _)
    | with_reducible exact Keeps.refl _
    | (with_reducible apply Keeps.of_pair (by assumption))
    | (with_reducible apply Keeps.of_triple (by assumption))
    | (fail_if_no_progress with_reducible refine Keeps.record ?_ rfl rfl rfl rfl rfl rfl rfl)
    | (with_reducible apply Keeps.foldl_via; intro _ _)
    | dsimp -zeta +zetaDelta only

theorem boltWork_runs (m : MillId) (o : UpdateOp) (s : State) :
    Runs s s (boltWork m o) := by
  unfold boltWork
  apply Runs.start; intro o k
  repeat' first
    | split
    | (intro _)
    | extract_lets
    | with_reducible apply Runs.get_bind
    | with_reducible apply Runs.set_bind
    | with_reducible apply Runs.modify_bind
    | with_reducible apply Runs.pure_bind
    | with_reducible apply Runs.throw_bind
    | with_reducible apply Runs.of_pure
    | with_reducible apply Runs.of_throw
    | with_reducible apply Runs.of_modify
    | with_reducible apply Runs.of_set
    | with_reducible apply Runs.step (boltBody_runs _)
    | with_reducible apply Runs.last (boltBody_runs _)
    | with_reducible apply Runs.step (boltLatch_runs _ _)
    | with_reducible apply Runs.last (boltLatch_runs _ _)
    | with_reducible apply Runs.step (Runs.forM _ _ fun _ _ => Runs.start ?_)
    | with_reducible apply Runs.last (Runs.forM _ _ fun _ _ => Runs.start ?_)
    | with_reducible apply Runs.step (Runs.mapM _ _ fun _ _ => Runs.start ?_)
    | with_reducible apply Runs.last (Runs.mapM _ _ fun _ _ => Runs.start ?_)
    | with_reducible apply Runs.map
    | with_reducible apply Runs.exceptMap
    | with_reducible refine Runs.bind ?_ ?_
    | (with_reducible assumption)
    | (with_reducible apply State.record_via; intro _)
    | (with_reducible apply Keeps.of_ite <;> intro _)
    | with_reducible exact Keeps.refl _
    | (with_reducible apply Keeps.of_pair (by assumption))
    | (with_reducible apply Keeps.of_triple (by assumption))
    | (fail_if_no_progress with_reducible refine Keeps.record ?_ rfl rfl rfl rfl rfl rfl rfl)
    | (with_reducible apply Keeps.foldl_via; intro _ _)
    | dsimp -zeta +zetaDelta only

theorem State.leatRecord_keeps (s : State) (group : ℕ) (rank : ℕ) (cause : ℕ) (step : ℕ) (seq : W32) :
    Keeps s (State.leatRecord s group rank cause step seq) := by
  unfold State.leatRecord
  repeat' first
    | split
    | extract_lets
    | (with_reducible apply State.record_via; intro _)
    | with_reducible apply Keeps.via (State.setWord64_keeps ..)
    | with_reducible apply Keeps.via (State.setWord_keeps ..)
    | (with_reducible apply Keeps.of_ite <;> intro _)
    | with_reducible exact Keeps.refl _
    | (with_reducible apply Keeps.of_pair (by assumption))
    | (with_reducible apply Keeps.of_triple (by assumption))
    | (fail_if_no_progress with_reducible refine Keeps.record ?_ rfl rfl rfl rfl rfl rfl rfl)
    | (with_reducible apply Keeps.foldl_via; intro _ _)
    | (fail_if_no_progress dsimp -zeta +zetaDelta only)

theorem State.leatFault_keeps (s : State) (m : MillId) (system : Bool) (group : ℕ) (rank : ℕ) (cause : ℕ) (step : ℕ) (pc : W64) (slot : ℕ) :
    Keeps s (State.leatFault s m system group rank cause step pc slot) := by
  unfold State.leatFault
  repeat' first
    | split
    | extract_lets
    | with_reducible apply Keeps.via (State.leatRecord_keeps ..)
    | with_reducible apply Keeps.via (State.raise_keeps ..)
    | with_reducible apply Keeps.via (State.report_keeps ..)
    | (with_reducible apply Keeps.of_ite <;> intro _)
    | with_reducible exact Keeps.refl _
    | (with_reducible apply Keeps.of_pair (by assumption))
    | (with_reducible apply Keeps.of_triple (by assumption))
    | (fail_if_no_progress with_reducible refine Keeps.record ?_ rfl rfl rfl rfl rfl rfl rfl)
    | (with_reducible apply Keeps.foldl_via; intro _ _)
    | (fail_if_no_progress dsimp -zeta +zetaDelta only)

theorem State.bltStall_keeps (s : State) (m : MillId) (cause : ℕ) (vpage : ℕ) (line : ℕ) (elem : ℕ) :
    Keeps s (State.bltStall s m cause vpage line elem) := by
  unfold State.bltStall
  repeat' first
    | split
    | extract_lets
    | with_reducible apply Keeps.via (State.onBolt_keeps ..)
    | (with_reducible apply Keeps.of_ite <;> intro _)
    | with_reducible exact Keeps.refl _
    | (with_reducible apply Keeps.of_pair (by assumption))
    | (with_reducible apply Keeps.of_triple (by assumption))
    | (fail_if_no_progress with_reducible refine Keeps.record ?_ rfl rfl rfl rfl rfl rfl rfl)
    | (with_reducible apply Keeps.foldl_via; intro _ _)
    | (fail_if_no_progress dsimp -zeta +zetaDelta only)

theorem State.bltSettle_keeps (s : State) (m : MillId) (a2 : Except BltStop Unit) :
    Keeps s (State.bltSettle s m a2) := by
  unfold State.bltSettle
  repeat' first
    | split
    | extract_lets
    | with_reducible apply Keeps.via (State.bltEnd_keeps ..)
    | with_reducible apply Keeps.via (State.bltStall_keeps ..)
    | with_reducible apply Keeps.via (State.dropUpdate_keeps ..)
    | with_reducible apply Keeps.via (State.leatFault_keeps ..)
    | with_reducible apply Keeps.via (State.onBolt_keeps ..)
    | (with_reducible apply Keeps.of_ite <;> intro _)
    | with_reducible exact Keeps.refl _
    | (with_reducible apply Keeps.of_pair (by assumption))
    | (with_reducible apply Keeps.of_triple (by assumption))
    | (fail_if_no_progress with_reducible refine Keeps.record ?_ rfl rfl rfl rfl rfl rfl rfl)
    | (with_reducible apply Keeps.foldl_via; intro _ _)
    | (fail_if_no_progress dsimp -zeta +zetaDelta only)

theorem State.boltRun_keeps (s : State) (m : MillId) (o : UpdateOp) :
    Keeps s (State.boltRun s m o) := by
  unfold State.boltRun
  split
  · exact State.bltEnd_keeps ..
  · have h := boltWork_runs m o s
    unfold Runs at h
    split
    rename_i e
    rw [e] at h
    exact h.trans (State.bltSettle_keeps ..)

theorem State.boltContinue_keeps (s : State) (m : MillId) :
    Keeps s (State.boltContinue s m) := by
  unfold State.boltContinue
  repeat' first
    | split
    | extract_lets
    | with_reducible apply Keeps.via (State.boltRun_keeps ..)
    | with_reducible apply Keeps.via (State.onBolt_keeps ..)
    | (with_reducible apply Keeps.of_ite <;> intro _)
    | with_reducible exact Keeps.refl _
    | (with_reducible apply Keeps.of_pair (by assumption))
    | (with_reducible apply Keeps.of_triple (by assumption))
    | (fail_if_no_progress with_reducible refine Keeps.record ?_ rfl rfl rfl rfl rfl rfl rfl)
    | (with_reducible apply Keeps.foldl_via; intro _ _)
    | (fail_if_no_progress dsimp -zeta +zetaDelta only)

theorem State.boltResumeWrite_keeps (s : State) (m : MillId) :
    Keeps s (State.boltResumeWrite s m).2 := by
  unfold State.boltResumeWrite
  repeat' first
    | split
    | extract_lets
    | with_reducible apply Keeps.via (State.boltContinue_keeps ..)
    | (with_reducible apply Keeps.of_ite <;> intro _)
    | with_reducible exact Keeps.refl _
    | (with_reducible apply Keeps.of_pair (by assumption))
    | (with_reducible apply Keeps.of_triple (by assumption))
    | (fail_if_no_progress with_reducible refine Keeps.record ?_ rfl rfl rfl rfl rfl rfl rfl)
    | (with_reducible apply Keeps.foldl_via; intro _ _)
    | (fail_if_no_progress dsimp -zeta +zetaDelta only)

theorem updateStart_keeps (m : MillId) (codes : List Ecc) (s : State) :
    Keeps s (updateStart m codes s) := by
  unfold updateStart
  repeat' first
    | split
    | extract_lets
    | with_reducible apply Keeps.via (State.boltRun_keeps ..)
    | (with_reducible apply State.coded_via; intro _)
    | (with_reducible apply Keeps.of_ite <;> intro _)
    | with_reducible exact Keeps.refl _
    | (with_reducible apply Keeps.of_pair (by assumption))
    | (with_reducible apply Keeps.of_triple (by assumption))
    | (fail_if_no_progress with_reducible refine Keeps.record ?_ rfl rfl rfl rfl rfl rfl rfl)
    | (with_reducible apply Keeps.foldl_via; intro _ _)
    | (fail_if_no_progress dsimp -zeta +zetaDelta only)

theorem boltPark_keeps (m : MillId) (s : State) :
    Keeps s (boltPark m s) := by
  unfold boltPark
  repeat' first
    | split
    | extract_lets
    | with_reducible apply Keeps.via (State.bltRecord_keeps ..)
    | with_reducible apply Keeps.via (State.ctrlMsg_keeps ..)
    | with_reducible apply Keeps.via (State.onBolt_keeps ..)
    | with_reducible apply Keeps.via (State.raise_keeps ..)
    | with_reducible apply Keeps.via (State.tally_keeps ..)
    | (with_reducible apply Keeps.of_ite <;> intro _)
    | with_reducible exact Keeps.refl _
    | (with_reducible apply Keeps.of_pair (by assumption))
    | (with_reducible apply Keeps.of_triple (by assumption))
    | (fail_if_no_progress with_reducible refine Keeps.record ?_ rfl rfl rfl rfl rfl rfl rfl)
    | (with_reducible apply Keeps.foldl_via; intro _ _)
    | (fail_if_no_progress dsimp -zeta +zetaDelta only)

theorem updateComplete_keeps (m : MillId) (s : State) :
    Keeps s (updateComplete m s) := by
  unfold updateComplete
  repeat' first
    | split
    | extract_lets
    | with_reducible apply Keeps.via (Keeps.onBolter ..)
    | with_reducible apply Keeps.via (State.enginePost_keeps ..)
    | with_reducible apply Keeps.via (State.raise_keeps ..)
    | with_reducible apply Keeps.via (State.tally_keeps ..)
    | (with_reducible apply Keeps.of_ite <;> intro _)
    | with_reducible exact Keeps.refl _
    | (with_reducible apply Keeps.of_pair (by assumption))
    | (with_reducible apply Keeps.of_triple (by assumption))
    | (fail_if_no_progress with_reducible refine Keeps.record ?_ rfl rfl rfl rfl rfl rfl rfl)
    | (with_reducible apply Keeps.foldl_via; intro _ _)
    | (fail_if_no_progress dsimp -zeta +zetaDelta only)

theorem State.parkRecord_keeps (s : State) (m : MillId) (off : ℕ) (t : Transfer) (cause : ℕ) (side : ℕ) (addr : ℕ) (c : ℕ) :
    Keeps s (State.parkRecord s m off t cause side addr c) := by
  unfold State.parkRecord
  repeat' first
    | split
    | extract_lets
    | with_reducible apply Keeps.via (State.setWord64_keeps ..)
    | with_reducible apply Keeps.via (State.setWord_keeps ..)
    | (with_reducible apply Keeps.forAll_via; intro _ _)
    | (with_reducible apply Keeps.of_ite <;> intro _)
    | with_reducible exact Keeps.refl _
    | (with_reducible apply Keeps.of_pair (by assumption))
    | (with_reducible apply Keeps.of_triple (by assumption))
    | (fail_if_no_progress with_reducible refine Keeps.record ?_ rfl rfl rfl rfl rfl rfl rfl)
    | (with_reducible apply Keeps.foldl_via; intro _ _)
    | (fail_if_no_progress dsimp -zeta +zetaDelta only)

theorem State.onQueue_keeps (s : State) (m : MillId) (q : ℕ) (f : SluQueue → SluQueue) :
    Keeps s (State.onQueue s m q f) := by
  unfold State.onQueue
  repeat' first
    | split
    | extract_lets
    | with_reducible apply Keeps.via (Keeps.onSluice ..)
    | (with_reducible apply Keeps.of_ite <;> intro _)
    | with_reducible exact Keeps.refl _
    | (with_reducible apply Keeps.of_pair (by assumption))
    | (with_reducible apply Keeps.of_triple (by assumption))
    | (fail_if_no_progress with_reducible refine Keeps.record ?_ rfl rfl rfl rfl rfl rfl rfl)
    | (with_reducible apply Keeps.foldl_via; intro _ _)
    | (fail_if_no_progress dsimp -zeta +zetaDelta only)

theorem State.park_keeps (s : State) (m : MillId) (q : ℕ) (t : Transfer) (cause : ℕ) (side : ℕ) (addr : ℕ) (c : ℕ) :
    Keeps s (State.park s m q t cause side addr c) := by
  unfold State.park
  repeat' first
    | split
    | extract_lets
    | with_reducible apply Keeps.via (State.ctrlMsg_keeps ..)
    | with_reducible apply Keeps.via (State.onQueue_keeps ..)
    | with_reducible apply Keeps.via (State.parkRecord_keeps ..)
    | with_reducible apply Keeps.via (State.raise_keeps ..)
    | with_reducible apply Keeps.via (State.tally_keeps ..)
    | (with_reducible apply Keeps.of_ite <;> intro _)
    | with_reducible exact Keeps.refl _
    | (with_reducible apply Keeps.of_pair (by assumption))
    | (with_reducible apply Keeps.of_triple (by assumption))
    | (fail_if_no_progress with_reducible refine Keeps.record ?_ rfl rfl rfl rfl rfl rfl rfl)
    | (with_reducible apply Keeps.foldl_via; intro _ _)
    | (fail_if_no_progress dsimp -zeta +zetaDelta only)

theorem State.sluFault_keeps (s : State) (m : MillId) (q : ℕ) (t : Transfer) (cause : ℕ) (side : ℕ) (addr : ℕ) (c : ℕ) (contract : Bool) (injected : Bool) :
    Keeps s (State.sluFault s m q t cause side addr c contract injected) := by
  unfold State.sluFault
  repeat' first
    | split
    | extract_lets
    | with_reducible apply Keeps.via (State.parkRecord_keeps ..)
    | with_reducible apply Keeps.via (State.raise_keeps ..)
    | (with_reducible apply State.record_via; intro _)
    | with_reducible apply Keeps.via (State.report_keeps ..)
    | (with_reducible apply Keeps.of_ite <;> intro _)
    | with_reducible exact Keeps.refl _
    | (with_reducible apply Keeps.of_pair (by assumption))
    | (with_reducible apply Keeps.of_triple (by assumption))
    | (fail_if_no_progress with_reducible refine Keeps.record ?_ rfl rfl rfl rfl rfl rfl rfl)
    | (with_reducible apply Keeps.foldl_via; intro _ _)
    | (fail_if_no_progress dsimp -zeta +zetaDelta only)

theorem State.leaveQueue_keeps (s : State) (m : MillId) (q : ℕ) (t : Transfer) :
    Keeps s (State.leaveQueue s m q t) := by
  unfold State.leaveQueue
  repeat' first
    | split
    | extract_lets
    | with_reducible apply Keeps.via (Keeps.onRace ..)
    | with_reducible apply Keeps.via (State.onQueue_keeps ..)
    | with_reducible apply Keeps.via (State.sluFault_keeps ..)
    | with_reducible apply Keeps.via (State.tally_keeps ..)
    | (with_reducible apply Keeps.of_ite <;> intro _)
    | with_reducible exact Keeps.refl _
    | (with_reducible apply Keeps.of_pair (by assumption))
    | (with_reducible apply Keeps.of_triple (by assumption))
    | (fail_if_no_progress with_reducible refine Keeps.record ?_ rfl rfl rfl rfl rfl rfl rfl)
    | (with_reducible apply Keeps.foldl_via; intro _ _)
    | (fail_if_no_progress dsimp -zeta +zetaDelta only)

theorem State.postXfer_keeps (s : State) (m : MillId) (q : ℕ) (t : Transfer) :
    Keeps s (State.postXfer s m q t) := by
  unfold State.postXfer
  repeat' first
    | split
    | extract_lets
    | with_reducible apply Keeps.via (State.enginePost_keeps ..)
    | with_reducible apply Keeps.via (State.leaveQueue_keeps ..)
    | with_reducible apply Keeps.via (State.onQueue_keeps ..)
    | (with_reducible apply Keeps.of_ite <;> intro _)
    | with_reducible exact Keeps.refl _
    | (with_reducible apply Keeps.of_pair (by assumption))
    | (with_reducible apply Keeps.of_triple (by assumption))
    | (fail_if_no_progress with_reducible refine Keeps.record ?_ rfl rfl rfl rfl rfl rfl rfl)
    | (with_reducible apply Keeps.foldl_via; intro _ _)
    | (fail_if_no_progress dsimp -zeta +zetaDelta only)

theorem State.postQueue_keeps (s : State) (m : MillId) (q : ℕ) :
    Keeps s (State.postQueue s m q) := by
  unfold State.postQueue
  repeat' first
    | split
    | extract_lets
    | with_reducible apply Keeps.via (State.postXfer_keeps ..)
    | (with_reducible apply Keeps.forAll_via; intro _ _)
    | (with_reducible apply Keeps.of_ite <;> intro _)
    | with_reducible exact Keeps.refl _
    | (with_reducible apply Keeps.of_pair (by assumption))
    | (with_reducible apply Keeps.of_triple (by assumption))
    | (fail_if_no_progress with_reducible refine Keeps.record ?_ rfl rfl rfl rfl rfl rfl rfl)
    | (with_reducible apply Keeps.foldl_via; intro _ _)
    | (fail_if_no_progress dsimp -zeta +zetaDelta only)

theorem State.failChunk_keeps (s : State) (m : MillId) (q : ℕ) (t : Transfer) (c : ℕ) (left : List (Request × W64)) (failing : ℕ × ℕ × ℕ × ℕ × Bool × Bool) :
    Keeps s (State.failChunk s m q t c left failing) := by
  unfold State.failChunk
  repeat' first
    | split
    | extract_lets
    | with_reducible apply Keeps.via (State.onQueue_keeps ..)
    | with_reducible apply Keeps.via (State.postQueue_keeps ..)
    | (with_reducible apply Keeps.of_ite <;> intro _)
    | with_reducible exact Keeps.refl _
    | (with_reducible apply Keeps.of_pair (by assumption))
    | (with_reducible apply Keeps.of_triple (by assumption))
    | (fail_if_no_progress with_reducible refine Keeps.record ?_ rfl rfl rfl rfl rfl rfl rfl)
    | (with_reducible apply Keeps.foldl_via; intro _ _)
    | (fail_if_no_progress dsimp -zeta +zetaDelta only)

theorem State.pinWords_keeps (s : State) (m : MillId) (a2 : List ℕ) :
    Keeps s (State.pinWords s m a2).2 := by
  induction a2 generalizing s m with
  | nil =>
    unfold State.pinWords
    repeat' first
      | split
      | extract_lets
      | with_reducible apply Keeps.via (State.takeCode_keeps ..)
      | (with_reducible apply Keeps.of_ite <;> intro _)
      | with_reducible exact Keeps.refl _
      | (with_reducible apply Keeps.of_pair (by assumption))
      | (with_reducible apply Keeps.of_triple (by assumption))
      | (fail_if_no_progress with_reducible refine Keeps.record ?_ rfl rfl rfl rfl rfl rfl rfl)
      | (with_reducible apply Keeps.foldl_via; intro _ _)
      | (fail_if_no_progress dsimp -zeta +zetaDelta only)
  | cons x rest ih =>
    unfold State.pinWords
    repeat' first
      | split
      | extract_lets
      | with_reducible apply Keeps.via (ih ..)
      | with_reducible apply Keeps.via (State.takeCode_keeps ..)
      | (with_reducible apply Keeps.of_ite <;> intro _)
      | with_reducible exact Keeps.refl _
      | (with_reducible apply Keeps.of_pair (by assumption))
      | (with_reducible apply Keeps.of_triple (by assumption))
      | (fail_if_no_progress with_reducible refine Keeps.record ?_ rfl rfl rfl rfl rfl rfl rfl)
      | (with_reducible apply Keeps.foldl_via; intro _ _)
      | (fail_if_no_progress dsimp -zeta +zetaDelta only)

theorem State.pinRead_keeps (s : State) (m : MillId) (off : ℕ) (n : ℕ) :
    Keeps s (State.pinRead s m off n).2 := by
  unfold State.pinRead
  repeat' first
    | split
    | extract_lets
    | with_reducible apply Keeps.via (State.pinWords_keeps ..)
    | with_reducible apply Keeps.via (State.raise_keeps ..)
    | with_reducible apply Keeps.via (State.takeInj_keeps ..)
    | (with_reducible apply Keeps.of_ite <;> intro _)
    | with_reducible exact Keeps.refl _
    | (with_reducible apply Keeps.of_pair (by assumption))
    | (with_reducible apply Keeps.of_triple (by assumption))
    | (fail_if_no_progress with_reducible refine Keeps.record ?_ rfl rfl rfl rfl rfl rfl rfl)
    | (with_reducible apply Keeps.foldl_via; intro _ _)
    | (fail_if_no_progress dsimp -zeta +zetaDelta only)

theorem State.pinSegs_keeps (s : State) (m : MillId) (a2 : List Seg) :
    Keeps s (State.pinSegs s m a2).2 := by
  induction a2 generalizing s m with
  | nil =>
    unfold State.pinSegs
    repeat' first
      | split
      | extract_lets
      | with_reducible apply Keeps.via (State.pinRead_keeps ..)
      | (with_reducible apply Keeps.of_ite <;> intro _)
      | with_reducible exact Keeps.refl _
      | (with_reducible apply Keeps.of_pair (by assumption))
      | (with_reducible apply Keeps.of_triple (by assumption))
      | (fail_if_no_progress with_reducible refine Keeps.record ?_ rfl rfl rfl rfl rfl rfl rfl)
      | (with_reducible apply Keeps.foldl_via; intro _ _)
      | (fail_if_no_progress dsimp -zeta +zetaDelta only)
  | cons x rest ih =>
    unfold State.pinSegs
    repeat' first
      | split
      | extract_lets
      | with_reducible apply Keeps.via (ih ..)
      | with_reducible apply Keeps.via (State.pinRead_keeps ..)
      | (with_reducible apply Keeps.of_ite <;> intro _)
      | with_reducible exact Keeps.refl _
      | (with_reducible apply Keeps.of_pair (by assumption))
      | (with_reducible apply Keeps.of_triple (by assumption))
      | (fail_if_no_progress with_reducible refine Keeps.record ?_ rfl rfl rfl rfl rfl rfl rfl)
      | (with_reducible apply Keeps.foldl_via; intro _ _)
      | (fail_if_no_progress dsimp -zeta +zetaDelta only)

theorem State.chunkFlits_keeps (s : State) (m : MillId) (q : ℕ) (t : Transfer) (segs : List Seg) :
    Keeps s (State.chunkFlits s m q t segs) := by
  unfold State.chunkFlits
  repeat' first
    | split
    | extract_lets
    | with_reducible apply Keeps.via (State.floorSend_keeps ..)
    | (with_reducible apply Keeps.forAll_via; intro _ _)
    | (with_reducible apply Keeps.of_ite <;> intro _)
    | with_reducible exact Keeps.refl _
    | (with_reducible apply Keeps.of_pair (by assumption))
    | (with_reducible apply Keeps.of_triple (by assumption))
    | (fail_if_no_progress with_reducible refine Keeps.record ?_ rfl rfl rfl rfl rfl rfl rfl)
    | (with_reducible apply Keeps.foldl_via; intro _ _)
    | (fail_if_no_progress dsimp -zeta +zetaDelta only)

theorem State.moveChunk_keeps (s : State) (segs : List Seg) :
    Keeps s (State.moveChunk s segs) := by
  unfold State.moveChunk
  repeat' first
    | split
    | extract_lets
    | with_reducible apply Keeps.via (State.locWrite_keeps ..)
    | (with_reducible apply Keeps.of_ite <;> intro _)
    | with_reducible exact Keeps.refl _
    | (with_reducible apply Keeps.of_pair (by assumption))
    | (with_reducible apply Keeps.of_triple (by assumption))
    | (fail_if_no_progress with_reducible refine Keeps.record ?_ rfl rfl rfl rfl rfl rfl rfl)
    | (with_reducible apply Keeps.foldl_via; intro _ _)
    | (fail_if_no_progress dsimp -zeta +zetaDelta only)

theorem State.landChunk_keeps (s : State) (m : MillId) (q : ℕ) (t : Transfer) (f : Flight) :
    Keeps s (State.landChunk s m q t f) := by
  unfold State.landChunk
  repeat' first
    | split
    | extract_lets
    | with_reducible apply Keeps.via (State.chunkFlits_keeps ..)
    | with_reducible apply Keeps.via (State.moveChunk_keeps ..)
    | with_reducible apply Keeps.via (State.onQueue_keeps ..)
    | with_reducible apply Keeps.via (State.postQueue_keeps ..)
    | with_reducible apply Keeps.via (State.tally_keeps ..)
    | (with_reducible apply Keeps.of_ite <;> intro _)
    | with_reducible exact Keeps.refl _
    | (with_reducible apply Keeps.of_pair (by assumption))
    | (with_reducible apply Keeps.of_triple (by assumption))
    | (fail_if_no_progress with_reducible refine Keeps.record ?_ rfl rfl rfl rfl rfl rfl rfl)
    | (with_reducible apply Keeps.foldl_via; intro _ _)
    | (fail_if_no_progress dsimp -zeta +zetaDelta only)

theorem State.completeChunk_keeps (s : State) (m : MillId) (q : ℕ) (t : Transfer) (f : Flight) :
    Keeps s (State.completeChunk s m q t f) := by
  unfold State.completeChunk
  repeat' first
    | split
    | extract_lets
    | with_reducible apply Keeps.via (State.failChunk_keeps ..)
    | with_reducible apply Keeps.via (State.landChunk_keeps ..)
    | with_reducible apply Keeps.via (State.pinSegs_keeps ..)
    | (with_reducible apply Keeps.of_ite <;> intro _)
    | with_reducible exact Keeps.refl _
    | (with_reducible apply Keeps.of_pair (by assumption))
    | (with_reducible apply Keeps.of_triple (by assumption))
    | (fail_if_no_progress with_reducible refine Keeps.record ?_ rfl rfl rfl rfl rfl rfl rfl)
    | (with_reducible apply Keeps.foldl_via; intro _ _)
    | (fail_if_no_progress dsimp -zeta +zetaDelta only)

theorem chunkComplete_keeps (m : MillId) (q : Fin 16) (pick : BitVec 16) (codes : List Ecc) (s : State) :
    Keeps s (chunkComplete m q pick codes s) := by
  unfold chunkComplete
  repeat' first
    | split
    | extract_lets
    | (with_reducible apply State.coded_via; intro _)
    | with_reducible apply Keeps.via (State.completeChunk_keeps ..)
    | (with_reducible apply Keeps.of_ite <;> intro _)
    | with_reducible exact Keeps.refl _
    | (with_reducible apply Keeps.of_pair (by assumption))
    | (with_reducible apply Keeps.of_triple (by assumption))
    | (fail_if_no_progress with_reducible refine Keeps.record ?_ rfl rfl rfl rfl rfl rfl rfl)
    | (with_reducible apply Keeps.foldl_via; intro _ _)
    | (fail_if_no_progress dsimp -zeta +zetaDelta only)

theorem State.queueTranslate_keeps (s : State) (m : MillId) (q : ℕ) (va : ℕ) (write : Bool) :
    Keeps s (State.queueTranslate s m q va write).2.2 := by
  unfold State.queueTranslate
  repeat' first
    | split
    | extract_lets
    | with_reducible apply Keeps.via (State.takeInjAt_keeps ..)
    | with_reducible apply Keeps.via (State.takeInj_keeps ..)
    | with_reducible apply Keeps.via (State.translate_keeps ..)
    | (with_reducible apply Keeps.of_ite <;> intro _)
    | with_reducible exact Keeps.refl _
    | (with_reducible apply Keeps.of_pair (by assumption))
    | (with_reducible apply Keeps.of_triple (by assumption))
    | (fail_if_no_progress with_reducible refine Keeps.record ?_ rfl rfl rfl rfl rfl rfl rfl)
    | (with_reducible apply Keeps.foldl_via; intro _ _)
    | (fail_if_no_progress dsimp -zeta +zetaDelta only)

theorem State.placePages_keeps (s : State) (m : MillId) (q : ℕ) (side : ℕ) (a4 : List (ℕ × ℕ)) :
    Keeps s (State.placePages s m q side a4).2 := by
  induction a4 generalizing s m q side with
  | nil =>
    unfold State.placePages
    repeat' first
      | split
      | extract_lets
      | with_reducible apply Keeps.via (State.queueTranslate_keeps ..)
      | (with_reducible apply Keeps.of_ite <;> intro _)
      | with_reducible exact Keeps.refl _
      | (with_reducible apply Keeps.of_pair (by assumption))
      | (with_reducible apply Keeps.of_triple (by assumption))
      | (fail_if_no_progress with_reducible refine Keeps.record ?_ rfl rfl rfl rfl rfl rfl rfl)
      | (with_reducible apply Keeps.foldl_via; intro _ _)
      | (fail_if_no_progress dsimp -zeta +zetaDelta only)
  | cons x rest ih =>
    obtain ⟨x, y⟩ := x
    unfold State.placePages
    repeat' first
      | split
      | extract_lets
      | with_reducible apply Keeps.via (ih ..)
      | with_reducible apply Keeps.via (State.queueTranslate_keeps ..)
      | (with_reducible apply Keeps.of_ite <;> intro _)
      | with_reducible exact Keeps.refl _
      | (with_reducible apply Keeps.of_pair (by assumption))
      | (with_reducible apply Keeps.of_triple (by assumption))
      | (fail_if_no_progress with_reducible refine Keeps.record ?_ rfl rfl rfl rfl rfl rfl rfl)
      | (with_reducible apply Keeps.foldl_via; intro _ _)
      | (fail_if_no_progress dsimp -zeta +zetaDelta only)

theorem State.placeRun_keeps (s : State) (m : MillId) (q : ℕ) (end_ : ℕ) (addr : ℤ) (len : ℕ) (side : ℕ) :
    Keeps s (State.placeRun s m q end_ addr len side).2 := by
  unfold State.placeRun
  repeat' first
    | split
    | extract_lets
    | with_reducible apply Keeps.via (State.placePages_keeps ..)
    | (with_reducible apply Keeps.of_ite <;> intro _)
    | with_reducible exact Keeps.refl _
    | (with_reducible apply Keeps.of_pair (by assumption))
    | (with_reducible apply Keeps.of_triple (by assumption))
    | (fail_if_no_progress with_reducible refine Keeps.record ?_ rfl rfl rfl rfl rfl rfl rfl)
    | (with_reducible apply Keeps.foldl_via; intro _ _)
    | (fail_if_no_progress dsimp -zeta +zetaDelta only)

theorem State.piecesRead_keeps (s : State) (m : MillId) (l : List (Loc × Nat)) : Keeps s (s.piecesRead m l).2 := by
  induction l generalizing s with
  | nil => exact Keeps.refl s
  | cons x rest ih =>
    obtain ⟨l, n⟩ := x
    cases l with
    | mem a =>
      have h := State.portRead_keeps s m a n
      unfold State.piecesRead
      split
      · rename_i e; rw [e] at h; exact h.trans (ih _)
      · exact h
    | _ => exact ih s


theorem State.readIndex_keeps (s : State) (m : MillId) (q : ℕ) (d : SDesc) (i1 : ℕ) :
    Keeps s (State.readIndex s m q d i1).2 := by
  unfold State.readIndex
  repeat' first
    | split
    | extract_lets
    | with_reducible apply Keeps.via (State.piecesRead_keeps ..)
    | with_reducible apply Keeps.via (State.placeRun_keeps ..)
    | with_reducible apply Keeps.via (State.takeInj_keeps ..)
    | (with_reducible apply Keeps.of_ite <;> intro _)
    | with_reducible exact Keeps.refl _
    | (with_reducible apply Keeps.of_pair (by assumption))
    | (with_reducible apply Keeps.of_triple (by assumption))
    | (fail_if_no_progress with_reducible refine Keeps.record ?_ rfl rfl rfl rfl rfl rfl rfl)
    | (with_reducible apply Keeps.foldl_via; intro _ _)
    | (fail_if_no_progress dsimp -zeta +zetaDelta only)

theorem State.runIndex_keeps (s : State) (m : MillId) (q : ℕ) (d : SDesc) (i1 : ℕ) :
    Keeps s (State.runIndex s m q d i1).2 := by
  unfold State.runIndex
  repeat' first
    | split
    | extract_lets
    | with_reducible apply Keeps.via (State.readIndex_keeps ..)
    | (with_reducible apply Keeps.of_ite <;> intro _)
    | with_reducible exact Keeps.refl _
    | (with_reducible apply Keeps.of_pair (by assumption))
    | (with_reducible apply Keeps.of_triple (by assumption))
    | (fail_if_no_progress with_reducible refine Keeps.record ?_ rfl rfl rfl rfl rfl rfl rfl)
    | (with_reducible apply Keeps.foldl_via; intro _ _)
    | (fail_if_no_progress dsimp -zeta +zetaDelta only)

theorem State.planReads_keeps (s : State) (m : MillId) (q : ℕ) (a3 : ChunkPlan) (a4 : List (ℕ × ℕ)) :
    Keeps s (State.planReads s m q a3 a4).2 := by
  induction a4 generalizing s m q a3 with
  | nil =>
    unfold State.planReads
    repeat' first
      | split
      | extract_lets
      | with_reducible apply Keeps.via (State.placeRun_keeps ..)
      | (with_reducible apply Keeps.of_ite <;> intro _)
      | with_reducible exact Keeps.refl _
      | (with_reducible apply Keeps.of_pair (by assumption))
      | (with_reducible apply Keeps.of_triple (by assumption))
      | (fail_if_no_progress with_reducible refine Keeps.record ?_ rfl rfl rfl rfl rfl rfl rfl)
      | (with_reducible apply Keeps.foldl_via; intro _ _)
      | (fail_if_no_progress dsimp -zeta +zetaDelta only)
  | cons x rest ih =>
    obtain ⟨x, y⟩ := x
    unfold State.planReads
    repeat' first
      | split
      | extract_lets
      | with_reducible apply Keeps.via (ih ..)
      | with_reducible apply Keeps.via (State.placeRun_keeps ..)
      | (with_reducible apply Keeps.of_ite <;> intro _)
      | with_reducible exact Keeps.refl _
      | (with_reducible apply Keeps.of_pair (by assumption))
      | (with_reducible apply Keeps.of_triple (by assumption))
      | (fail_if_no_progress with_reducible refine Keeps.record ?_ rfl rfl rfl rfl rfl rfl rfl)
      | (with_reducible apply Keeps.foldl_via; intro _ _)
      | (fail_if_no_progress dsimp -zeta +zetaDelta only)

theorem State.dropChannelOp_keeps (s : State) (m : MillId) (q : ℕ) (t : Transfer) :
    Keeps s (State.dropChannelOp s m q t) := by
  unfold State.dropChannelOp
  repeat' first
    | split
    | extract_lets
    | (with_reducible apply Keeps.of_ite <;> intro _)
    | with_reducible exact Keeps.refl _
    | (with_reducible apply Keeps.of_pair (by assumption))
    | (with_reducible apply Keeps.of_triple (by assumption))
    | (fail_if_no_progress with_reducible refine Keeps.record ?_ rfl rfl rfl rfl rfl rfl rfl)
    | (with_reducible apply Keeps.foldl_via; intro _ _)
    | (fail_if_no_progress dsimp -zeta +zetaDelta only)

theorem State.placeEnd_keeps (s : State) (m : MillId) (q : ℕ) (end_ : ℕ) (addr : ℤ) (len : ℕ) (side : ℕ) (skip : Bool) :
    Keeps s (State.placeEnd s m q end_ addr len side skip).2 := by
  unfold State.placeEnd
  repeat' first
    | split
    | extract_lets
    | with_reducible apply Keeps.via (State.placeRun_keeps ..)
    | (with_reducible apply Keeps.of_ite <;> intro _)
    | with_reducible exact Keeps.refl _
    | (with_reducible apply Keeps.of_pair (by assumption))
    | (with_reducible apply Keeps.of_triple (by assumption))
    | (fail_if_no_progress with_reducible refine Keeps.record ?_ rfl rfl rfl rfl rfl rfl rfl)
    | (with_reducible apply Keeps.foldl_via; intro _ _)
    | (fail_if_no_progress dsimp -zeta +zetaDelta only)

theorem State.planRun_keeps (s : State) (m : MillId) (q : ℕ) (d : SDesc) (fetch : Bool) (p : ChunkPlan) (run : ℕ × ℕ) :
    Keeps s (State.planRun s m q d fetch p run).2 := by
  unfold State.planRun
  repeat' first
    | split
    | extract_lets
    | with_reducible apply Keeps.via (State.placeEnd_keeps ..)
    | with_reducible apply Keeps.via (State.runIndex_keeps ..)
    | (with_reducible apply Keeps.of_ite <;> intro _)
    | with_reducible exact Keeps.refl _
    | (with_reducible apply Keeps.of_pair (by assumption))
    | (with_reducible apply Keeps.of_triple (by assumption))
    | (fail_if_no_progress with_reducible refine Keeps.record ?_ rfl rfl rfl rfl rfl rfl rfl)
    | (with_reducible apply Keeps.foldl_via; intro _ _)
    | (fail_if_no_progress dsimp -zeta +zetaDelta only)

theorem State.planRuns_keeps (s : State) (m : MillId) (q : ℕ) (d : SDesc) (fetch : Bool) (a5 : ChunkPlan) (a6 : List (ℕ × ℕ)) :
    Keeps s (State.planRuns s m q d fetch a5 a6).2 := by
  induction a6 generalizing s m q d fetch a5 with
  | nil =>
    unfold State.planRuns
    repeat' first
      | split
      | extract_lets
      | with_reducible apply Keeps.via (State.planRun_keeps ..)
      | (with_reducible apply Keeps.of_ite <;> intro _)
      | with_reducible exact Keeps.refl _
      | (with_reducible apply Keeps.of_pair (by assumption))
      | (with_reducible apply Keeps.of_triple (by assumption))
      | (fail_if_no_progress with_reducible refine Keeps.record ?_ rfl rfl rfl rfl rfl rfl rfl)
      | (with_reducible apply Keeps.foldl_via; intro _ _)
      | (fail_if_no_progress dsimp -zeta +zetaDelta only)
  | cons x rest ih =>
    unfold State.planRuns
    repeat' first
      | split
      | extract_lets
      | with_reducible apply Keeps.via (ih ..)
      | with_reducible apply Keeps.via (State.planRun_keeps ..)
      | (with_reducible apply Keeps.of_ite <;> intro _)
      | with_reducible exact Keeps.refl _
      | (with_reducible apply Keeps.of_pair (by assumption))
      | (with_reducible apply Keeps.of_triple (by assumption))
      | (fail_if_no_progress with_reducible refine Keeps.record ?_ rfl rfl rfl rfl rfl rfl rfl)
      | (with_reducible apply Keeps.foldl_via; intro _ _)
      | (fail_if_no_progress dsimp -zeta +zetaDelta only)

theorem State.planChunk_keeps (s : State) (m : MillId) (q : ℕ) (d : SDesc) (fetch : Bool) (c : ℕ) :
    Keeps s (State.planChunk s m q d fetch c).2 := by
  unfold State.planChunk
  repeat' first
    | split
    | extract_lets
    | with_reducible apply Keeps.via (State.planRuns_keeps ..)
    | (with_reducible apply Keeps.of_ite <;> intro _)
    | with_reducible exact Keeps.refl _
    | (with_reducible apply Keeps.of_pair (by assumption))
    | (with_reducible apply Keeps.of_triple (by assumption))
    | (fail_if_no_progress with_reducible refine Keeps.record ?_ rfl rfl rfl rfl rfl rfl rfl)
    | (with_reducible apply Keeps.foldl_via; intro _ _)
    | (fail_if_no_progress dsimp -zeta +zetaDelta only)

theorem State.planXfer_keeps (s : State) (m : MillId) (q : ℕ) (t : Transfer) (c : ℕ) :
    Keeps s (State.planXfer s m q t c).2 := by
  unfold State.planXfer
  repeat' first
    | split
    | extract_lets
    | with_reducible apply Keeps.via (State.planChunk_keeps ..)
    | with_reducible apply Keeps.via (State.planReads_keeps ..)
    | (with_reducible apply Keeps.of_ite <;> intro _)
    | with_reducible exact Keeps.refl _
    | (with_reducible apply Keeps.of_pair (by assumption))
    | (with_reducible apply Keeps.of_triple (by assumption))
    | (fail_if_no_progress with_reducible refine Keeps.record ?_ rfl rfl rfl rfl rfl rfl rfl)
    | (with_reducible apply Keeps.foldl_via; intro _ _)
    | (fail_if_no_progress dsimp -zeta +zetaDelta only)

theorem State.chunkFault_keeps (s : State) (m : MillId) (q : ℕ) (t : Transfer) (c : ℕ) (e : ChunkFault) :
    Keeps s (State.chunkFault s m q t c e) := by
  unfold State.chunkFault
  repeat' first
    | split
    | extract_lets
    | with_reducible apply Keeps.via (State.onQueue_keeps ..)
    | with_reducible apply Keeps.via (State.park_keeps ..)
    | with_reducible apply Keeps.via (State.postQueue_keeps ..)
    | (with_reducible apply Keeps.of_ite <;> intro _)
    | with_reducible exact Keeps.refl _
    | (with_reducible apply Keeps.of_pair (by assumption))
    | (with_reducible apply Keeps.of_triple (by assumption))
    | (fail_if_no_progress with_reducible refine Keeps.record ?_ rfl rfl rfl rfl rfl rfl rfl)
    | (with_reducible apply Keeps.foldl_via; intro _ _)
    | (fail_if_no_progress dsimp -zeta +zetaDelta only)

theorem State.lineRead_keeps (s : State) (m : MillId) (line : ℕ) :
    Keeps s (State.lineRead s m line).2 := by
  unfold State.lineRead
  repeat' first
    | split
    | extract_lets
    | with_reducible apply Keeps.via (Keeps.onSluice ..)
    | with_reducible apply Keeps.via (State.takeCode_keeps ..)
    | with_reducible apply Keeps.via (State.takeInj_keeps ..)
    | with_reducible apply Keeps.via (State.tally_keeps ..)
    | (with_reducible apply Keeps.of_ite <;> intro _)
    | with_reducible exact Keeps.refl _
    | (with_reducible apply Keeps.of_pair (by assumption))
    | (with_reducible apply Keeps.of_triple (by assumption))
    | (fail_if_no_progress with_reducible refine Keeps.record ?_ rfl rfl rfl rfl rfl rfl rfl)
    | (with_reducible apply Keeps.foldl_via; intro _ _)
    | (fail_if_no_progress dsimp -zeta +zetaDelta only)

theorem State.cachePiece_keeps (s : State) (m : MillId) (p : CachePlan) (x : ℕ × ℕ) :
    Keeps s (State.cachePiece s m p x).2 := by
  unfold State.cachePiece
  repeat' first
    | split
    | extract_lets
    | with_reducible apply Keeps.via (State.lineRead_keeps ..)
    | (with_reducible apply Keeps.of_ite <;> intro _)
    | with_reducible exact Keeps.refl _
    | (with_reducible apply Keeps.of_pair (by assumption))
    | (with_reducible apply Keeps.of_triple (by assumption))
    | (fail_if_no_progress with_reducible refine Keeps.record ?_ rfl rfl rfl rfl rfl rfl rfl)
    | (with_reducible apply Keeps.foldl_via; intro _ _)
    | (fail_if_no_progress dsimp -zeta +zetaDelta only)

theorem State.cachePieces_keeps (s : State) (m : MillId) (a2 : CachePlan) (a3 : List (ℕ × ℕ)) :
    Keeps s (State.cachePieces s m a2 a3).2 := by
  induction a3 generalizing s m a2 with
  | nil =>
    unfold State.cachePieces
    repeat' first
      | split
      | extract_lets
      | with_reducible apply Keeps.via (State.cachePiece_keeps ..)
      | (with_reducible apply Keeps.of_ite <;> intro _)
      | with_reducible exact Keeps.refl _
      | (with_reducible apply Keeps.of_pair (by assumption))
      | (with_reducible apply Keeps.of_triple (by assumption))
      | (fail_if_no_progress with_reducible refine Keeps.record ?_ rfl rfl rfl rfl rfl rfl rfl)
      | (with_reducible apply Keeps.foldl_via; intro _ _)
      | (fail_if_no_progress dsimp -zeta +zetaDelta only)
  | cons x rest ih =>
    unfold State.cachePieces
    repeat' first
      | split
      | extract_lets
      | with_reducible apply Keeps.via (ih ..)
      | with_reducible apply Keeps.via (State.cachePiece_keeps ..)
      | (with_reducible apply Keeps.of_ite <;> intro _)
      | with_reducible exact Keeps.refl _
      | (with_reducible apply Keeps.of_pair (by assumption))
      | (with_reducible apply Keeps.of_triple (by assumption))
      | (fail_if_no_progress with_reducible refine Keeps.record ?_ rfl rfl rfl rfl rfl rfl rfl)
      | (with_reducible apply Keeps.foldl_via; intro _ _)
      | (fail_if_no_progress dsimp -zeta +zetaDelta only)

theorem State.chunkRequests_keeps (s : State) (m : MillId) (gran : Bool) (segs : List Seg) :
    Keeps s (State.chunkRequests s m gran segs).2 := by
  unfold State.chunkRequests
  repeat' first
    | split
    | extract_lets
    | with_reducible apply Keeps.via (State.cachePieces_keeps ..)
    | (with_reducible apply Keeps.of_ite <;> intro _)
    | with_reducible exact Keeps.refl _
    | (with_reducible apply Keeps.of_pair (by assumption))
    | (with_reducible apply Keeps.of_triple (by assumption))
    | (fail_if_no_progress with_reducible refine Keeps.record ?_ rfl rfl rfl rfl rfl rfl rfl)
    | (with_reducible apply Keeps.foldl_via; intro _ _)
    | (fail_if_no_progress dsimp -zeta +zetaDelta only)

theorem State.issueChunk_keeps (s : State) (m : MillId) (q : ℕ) (t : Transfer) (p : ChunkPlan) (r : CachePlan) :
    Keeps s (State.issueChunk s m q t p r) := by
  unfold State.issueChunk
  repeat' first
    | split
    | extract_lets
    | with_reducible apply Keeps.via (Keeps.onSluice ..)
    | with_reducible apply Keeps.via (State.onQueue_keeps ..)
    | with_reducible apply Keeps.via (State.tally_keeps ..)
    | (with_reducible apply Keeps.of_ite <;> intro _)
    | with_reducible exact Keeps.refl _
    | (with_reducible apply Keeps.of_pair (by assumption))
    | (with_reducible apply Keeps.of_triple (by assumption))
    | (fail_if_no_progress with_reducible refine Keeps.record ?_ rfl rfl rfl rfl rfl rfl rfl)
    | (with_reducible apply Keeps.foldl_via; intro _ _)
    | (fail_if_no_progress dsimp -zeta +zetaDelta only)

theorem State.entryWait_keeps (s : State) (m : MillId) (q : ℕ) (t : Transfer) :
    Keeps s (State.entryWait s m q t) := by
  unfold State.entryWait
  repeat' first
    | split
    | extract_lets
    | with_reducible apply Keeps.via (Keeps.onSluice ..)
    | with_reducible apply Keeps.via (State.onQueue_keeps ..)
    | with_reducible apply Keeps.via (State.tally_keeps ..)
    | (with_reducible apply Keeps.of_ite <;> intro _)
    | with_reducible exact Keeps.refl _
    | (with_reducible apply Keeps.of_pair (by assumption))
    | (with_reducible apply Keeps.of_triple (by assumption))
    | (fail_if_no_progress with_reducible refine Keeps.record ?_ rfl rfl rfl rfl rfl rfl rfl)
    | (with_reducible apply Keeps.foldl_via; intro _ _)
    | (fail_if_no_progress dsimp -zeta +zetaDelta only)

theorem State.translateChunk_keeps (s : State) (m : MillId) (q : ℕ) (t : Transfer) :
    Keeps s (State.translateChunk s m q t) := by
  unfold State.translateChunk
  repeat' first
    | split
    | extract_lets
    | with_reducible apply Keeps.via (State.chunkFault_keeps ..)
    | with_reducible apply Keeps.via (State.chunkRequests_keeps ..)
    | with_reducible apply Keeps.via (State.entryWait_keeps ..)
    | with_reducible apply Keeps.via (State.issueChunk_keeps ..)
    | with_reducible apply Keeps.via (State.planXfer_keeps ..)
    | (with_reducible apply Keeps.of_ite <;> intro _)
    | with_reducible exact Keeps.refl _
    | (with_reducible apply Keeps.of_pair (by assumption))
    | (with_reducible apply Keeps.of_triple (by assumption))
    | (fail_if_no_progress with_reducible refine Keeps.record ?_ rfl rfl rfl rfl rfl rfl rfl)
    | (with_reducible apply Keeps.foldl_via; intro _ _)
    | (fail_if_no_progress dsimp -zeta +zetaDelta only)

theorem State.descParts_keeps (s : State) (m : MillId) (ps : List (ℕ × ℕ)) :
    Keeps s (State.descParts s m ps).2 := by
  unfold State.descParts
  repeat' first
    | split
    | extract_lets
    | with_reducible apply Keeps.via (State.partsRead_keeps ..)
    | (with_reducible apply Keeps.of_ite <;> intro _)
    | with_reducible exact Keeps.refl _
    | (with_reducible apply Keeps.of_pair (by assumption))
    | (with_reducible apply Keeps.of_triple (by assumption))
    | (fail_if_no_progress with_reducible refine Keeps.record ?_ rfl rfl rfl rfl rfl rfl rfl)
    | (with_reducible apply Keeps.foldl_via; intro _ _)
    | (fail_if_no_progress dsimp -zeta +zetaDelta only)

theorem State.readDesc_keeps (s : State) (m : MillId) (system : Bool) (addr : ℕ) :
    Keeps s (State.readDesc s m system addr).2 := by
  unfold State.readDesc
  repeat' first
    | split
    | extract_lets
    | with_reducible apply Keeps.via (State.descParts_keeps ..)
    | with_reducible apply Keeps.via (State.pinRead_keeps ..)
    | with_reducible apply Keeps.via (State.translateRange_keeps ..)
    | (with_reducible apply Keeps.of_ite <;> intro _)
    | with_reducible exact Keeps.refl _
    | (with_reducible apply Keeps.of_pair (by assumption))
    | (with_reducible apply Keeps.of_triple (by assumption))
    | (fail_if_no_progress with_reducible refine Keeps.record ?_ rfl rfl rfl rfl rfl rfl rfl)
    | (with_reducible apply Keeps.foldl_via; intro _ _)
    | (fail_if_no_progress dsimp -zeta +zetaDelta only)

theorem State.enqueue_keeps (s : State) (m : MillId) (q : ℕ) (t : Transfer) :
    Keeps s (State.enqueue s m q t) := by
  unfold State.enqueue
  repeat' first
    | split
    | extract_lets
    | with_reducible apply Keeps.via (Keeps.onSluice ..)
    | with_reducible apply Keeps.via (State.onQueue_keeps ..)
    | (with_reducible apply Keeps.of_ite <;> intro _)
    | with_reducible exact Keeps.refl _
    | (with_reducible apply Keeps.of_pair (by assumption))
    | (with_reducible apply Keeps.of_triple (by assumption))
    | (fail_if_no_progress with_reducible refine Keeps.record ?_ rfl rfl rfl rfl rfl rfl rfl)
    | (with_reducible apply Keeps.foldl_via; intro _ _)
    | (fail_if_no_progress dsimp -zeta +zetaDelta only)

theorem State.issueXfer_keeps (s : State) (m : MillId) (system : Bool) (addr : W64) (src : Option W64) (dst : Option W64) (queue : Option ℕ) (tctr : Option ℕ) (pc : W64) :
    Keeps s (State.issueXfer s m system addr src dst queue tctr pc) := by
  unfold State.issueXfer
  repeat' first
    | split
    | extract_lets
    | with_reducible apply Keeps.via (State.enqueue_keeps ..)
    | with_reducible apply Keeps.via (State.readDesc_keeps ..)
    | with_reducible apply Keeps.via (State.sluFault_keeps ..)
    | (with_reducible apply Keeps.of_ite <;> intro _)
    | with_reducible exact Keeps.refl _
    | (with_reducible apply Keeps.of_pair (by assumption))
    | (with_reducible apply Keeps.of_triple (by assumption))
    | (fail_if_no_progress with_reducible refine Keeps.record ?_ rfl rfl rfl rfl rfl rfl rfl)
    | (with_reducible apply Keeps.foldl_via; intro _ _)
    | (fail_if_no_progress dsimp -zeta +zetaDelta only)

theorem State.tlbInval_keeps (s : State) (m : MillId) (page : Option ℕ) :
    Keeps s (State.tlbInval s m page) := by
  unfold State.tlbInval
  repeat' first
    | split
    | extract_lets
    | with_reducible apply Keeps.via (Keeps.onSluice ..)
    | with_reducible apply Keeps.via (State.ctrlMsg_keeps ..)
    | (with_reducible apply Keeps.of_ite <;> intro _)
    | with_reducible exact Keeps.refl _
    | (with_reducible apply Keeps.of_pair (by assumption))
    | (with_reducible apply Keeps.of_triple (by assumption))
    | (fail_if_no_progress with_reducible refine Keeps.record ?_ rfl rfl rfl rfl rfl rfl rfl)
    | (with_reducible apply Keeps.foldl_via; intro _ _)
    | (fail_if_no_progress dsimp -zeta +zetaDelta only)

theorem State.holdEnds_keeps (s : State) :
    Keeps s (State.holdEnds s) := by
  unfold State.holdEnds
  repeat' first
    | split
    | extract_lets
    | (with_reducible apply Keeps.of_ite <;> intro _)
    | with_reducible exact Keeps.refl _
    | (with_reducible apply Keeps.of_pair (by assumption))
    | (with_reducible apply Keeps.of_triple (by assumption))
    | (fail_if_no_progress with_reducible refine Keeps.record ?_ rfl rfl rfl rfl rfl rfl rfl)
    | (with_reducible apply Keeps.foldl_via; intro _ _)
    | (fail_if_no_progress dsimp -zeta +zetaDelta only)

theorem tlbInvalDone_keeps (m : MillId) (s : State) :
    Keeps s (tlbInvalDone m s) := by
  unfold tlbInvalDone
  repeat' first
    | split
    | extract_lets
    | with_reducible apply Keeps.via (Keeps.onSluice ..)
    | with_reducible apply Keeps.via (State.holdEnds_keeps ..)
    | (with_reducible apply Keeps.of_ite <;> intro _)
    | with_reducible exact Keeps.refl _
    | (with_reducible apply Keeps.of_pair (by assumption))
    | (with_reducible apply Keeps.of_triple (by assumption))
    | (fail_if_no_progress with_reducible refine Keeps.record ?_ rfl rfl rfl rfl rfl rfl rfl)
    | (with_reducible apply Keeps.foldl_via; intro _ _)
    | (fail_if_no_progress dsimp -zeta +zetaDelta only)

theorem granPinApply_keeps (m : MillId) (s : State) :
    Keeps s (granPinApply m s) := by
  unfold granPinApply
  refine Keeps.of_ite (fun _ => Keeps.refl s) fun _ => ?_
  exact (Keeps.onSluice s m _).trans (Keeps.granaries (s := s.onSluice m _) _ fun h => Memory.wf_filter _ (by cases m <;> exact h))

theorem State.requestCounts_keeps (s : State) (m : MillId) (r : Request) (issued : W64) :
    Keeps s (State.requestCounts s m r issued) := by
  unfold State.requestCounts
  repeat' first
    | split
    | extract_lets
    | with_reducible apply Keeps.via (State.tally_keeps ..)
    | (with_reducible apply Keeps.of_ite <;> intro _)
    | with_reducible exact Keeps.refl _
    | (with_reducible apply Keeps.of_pair (by assumption))
    | (with_reducible apply Keeps.of_triple (by assumption))
    | (fail_if_no_progress with_reducible refine Keeps.record ?_ rfl rfl rfl rfl rfl rfl rfl)
    | (with_reducible apply Keeps.foldl_via; intro _ _)
    | (fail_if_no_progress dsimp -zeta +zetaDelta only)

theorem scrubRead_keeps (port : PortRef) (addr : BitVec 44) (ecc : Ecc) (s : State) :
    Keeps s (scrubRead port addr ecc s) := by
  unfold scrubRead
  repeat' first
    | split
    | extract_lets
    | with_reducible apply Keeps.via (State.eccCorrected_keeps ..)
    | with_reducible apply Keeps.via (State.eccUncorrectable_keeps ..)
    | with_reducible apply Keeps.via (State.rawWrite_keeps ..)
    | with_reducible apply Keeps.via (State.takeInj_keeps ..)
    | with_reducible apply Keeps.via (State.tally_keeps ..)
    | (with_reducible apply Keeps.of_ite <;> intro _)
    | with_reducible exact Keeps.refl _
    | (with_reducible apply Keeps.of_pair (by assumption))
    | (with_reducible apply Keeps.of_triple (by assumption))
    | (fail_if_no_progress with_reducible refine Keeps.record ?_ rfl rfl rfl rfl rfl rfl rfl)
    | (with_reducible apply Keeps.foldl_via; intro _ _)
    | (fail_if_no_progress dsimp -zeta +zetaDelta only)

theorem chunkTranslate_keeps (m : MillId) (q : Fin 16) (codes : List Ecc) (s : State) :
    Keeps s (chunkTranslate m q codes s) := by
  unfold chunkTranslate
  repeat' first
    | split
    | extract_lets
    | (with_reducible apply State.coded_via; intro _)
    | with_reducible apply Keeps.via (State.translateChunk_keeps ..)
    | (with_reducible apply Keeps.of_ite <;> intro _)
    | with_reducible exact Keeps.refl _
    | (with_reducible apply Keeps.of_pair (by assumption))
    | (with_reducible apply Keeps.of_triple (by assumption))
    | (fail_if_no_progress with_reducible refine Keeps.record ?_ rfl rfl rfl rfl rfl rfl rfl)
    | (with_reducible apply Keeps.foldl_via; intro _ _)
    | (fail_if_no_progress dsimp -zeta +zetaDelta only)

theorem State.dropXfers_keeps (s : State) (m : MillId) (system : Bool) :
    Keeps s (State.dropXfers s m system) := by
  unfold State.dropXfers
  repeat' first
    | split
    | extract_lets
    | with_reducible apply Keeps.via (Keeps.onSluice ..)
    | (with_reducible apply Keeps.of_ite <;> intro _)
    | with_reducible exact Keeps.refl _
    | (with_reducible apply Keeps.of_pair (by assumption))
    | (with_reducible apply Keeps.of_triple (by assumption))
    | (fail_if_no_progress with_reducible refine Keeps.record ?_ rfl rfl rfl rfl rfl rfl rfl)
    | (with_reducible apply Keeps.foldl_via; intro _ _)
    | (fail_if_no_progress dsimp -zeta +zetaDelta only)

theorem State.requestPort_keeps (s : State) (m : MillId) (r : Request) :
    Keeps s (State.requestPort s m r).2 := by
  unfold State.requestPort
  repeat' first
    | split
    | extract_lets
    | with_reducible apply Keeps.via (State.portRead_keeps ..)
    | with_reducible apply Keeps.via (State.portWrite_keeps ..)
    | (with_reducible apply Keeps.of_ite <;> intro _)
    | with_reducible exact Keeps.refl _
    | (with_reducible apply Keeps.of_pair (by assumption))
    | (with_reducible apply Keeps.of_triple (by assumption))
    | (fail_if_no_progress with_reducible refine Keeps.record ?_ rfl rfl rfl rfl rfl rfl rfl)
    | (with_reducible apply Keeps.foldl_via; intro _ _)
    | (fail_if_no_progress dsimp -zeta +zetaDelta only)

theorem State.requestDone_keeps (s : State) (m : MillId) (q : ℕ) (t : Transfer) (f : Flight) (r : Request) :
    Keeps s (State.requestDone s m q t f r) := by
  unfold State.requestDone
  repeat' first
    | split
    | extract_lets
    | with_reducible apply Keeps.via (Keeps.onSluice ..)
    | with_reducible apply Keeps.via (State.onQueue_keeps ..)
    | (with_reducible apply Keeps.of_ite <;> intro _)
    | with_reducible exact Keeps.refl _
    | (with_reducible apply Keeps.of_pair (by assumption))
    | (with_reducible apply Keeps.of_triple (by assumption))
    | (fail_if_no_progress with_reducible refine Keeps.record ?_ rfl rfl rfl rfl rfl rfl rfl)
    | (with_reducible apply Keeps.foldl_via; intro _ _)
    | (fail_if_no_progress dsimp -zeta +zetaDelta only)

theorem State.completeRequest_keeps (s : State) (m : MillId) (q : ℕ) (t : Transfer) (f : Flight) (r : Request) :
    Keeps s (State.completeRequest s m q t f r) := by
  unfold State.completeRequest
  repeat' first
    | split
    | extract_lets
    | with_reducible apply Keeps.via (State.failChunk_keeps ..)
    | with_reducible apply Keeps.via (State.requestCounts_keeps ..)
    | with_reducible apply Keeps.via (State.requestDone_keeps ..)
    | with_reducible apply Keeps.via (State.requestPort_keeps ..)
    | (with_reducible apply Keeps.of_ite <;> intro _)
    | with_reducible exact Keeps.refl _
    | (with_reducible apply Keeps.of_pair (by assumption))
    | (with_reducible apply Keeps.of_triple (by assumption))
    | (fail_if_no_progress with_reducible refine Keeps.record ?_ rfl rfl rfl rfl rfl rfl rfl)
    | (with_reducible apply Keeps.foldl_via; intro _ _)
    | (fail_if_no_progress dsimp -zeta +zetaDelta only)

theorem State.failPark_keeps (s : State) (m : MillId) (q : ℕ) (t : Transfer) :
    Keeps s (State.failPark s m q t) := by
  unfold State.failPark
  repeat' first
    | split
    | extract_lets
    | with_reducible apply Keeps.via (State.chunkFault_keeps ..)
    | with_reducible apply Keeps.via (State.dropChannelOp_keeps ..)
    | (with_reducible apply Keeps.of_ite <;> intro _)
    | with_reducible exact Keeps.refl _
    | (with_reducible apply Keeps.of_pair (by assumption))
    | (with_reducible apply Keeps.of_triple (by assumption))
    | (fail_if_no_progress with_reducible refine Keeps.record ?_ rfl rfl rfl rfl rfl rfl rfl)
    | (with_reducible apply Keeps.foldl_via; intro _ _)
    | (fail_if_no_progress dsimp -zeta +zetaDelta only)

theorem State.sluResume_keeps (s : State) (m : MillId) (q : ℕ) (resume : Bool) (fail : Bool) :
    Keeps s (State.sluResume s m q resume fail).2 := by
  unfold State.sluResume
  repeat' first
    | split
    | extract_lets
    | with_reducible apply Keeps.via (State.failPark_keeps ..)
    | with_reducible apply Keeps.via (State.onQueue_keeps ..)
    | (with_reducible apply Keeps.of_ite <;> intro _)
    | with_reducible exact Keeps.refl _
    | (with_reducible apply Keeps.of_pair (by assumption))
    | (with_reducible apply Keeps.of_triple (by assumption))
    | (fail_if_no_progress with_reducible refine Keeps.record ?_ rfl rfl rfl rfl rfl rfl rfl)
    | (with_reducible apply Keeps.foldl_via; intro _ _)
    | (fail_if_no_progress dsimp -zeta +zetaDelta only)

theorem State.completeDropped_keeps (s : State) (m : MillId) (q : ℕ) (d : Request × W64) :
    Keeps s (State.completeDropped s m q d) := by
  unfold State.completeDropped
  repeat' first
    | split
    | extract_lets
    | with_reducible apply Keeps.via (State.onQueue_keeps ..)
    | with_reducible apply Keeps.via (State.requestCounts_keeps ..)
    | with_reducible apply Keeps.via (State.requestPort_keeps ..)
    | (with_reducible apply Keeps.of_ite <;> intro _)
    | with_reducible exact Keeps.refl _
    | (with_reducible apply Keeps.of_pair (by assumption))
    | (with_reducible apply Keeps.of_triple (by assumption))
    | (fail_if_no_progress with_reducible refine Keeps.record ?_ rfl rfl rfl rfl rfl rfl rfl)
    | (with_reducible apply Keeps.foldl_via; intro _ _)
    | (fail_if_no_progress dsimp -zeta +zetaDelta only)

theorem granuleComplete_keeps (m : MillId) (q : Fin 16) (pick : BitVec 16) (codes : List Ecc) (s : State) :
    Keeps s (granuleComplete m q pick codes s) := by
  unfold granuleComplete
  repeat' first
    | split
    | extract_lets
    | (with_reducible apply State.coded_via; intro _)
    | with_reducible apply Keeps.via (State.completeDropped_keeps ..)
    | with_reducible apply Keeps.via (State.completeRequest_keeps ..)
    | (with_reducible apply Keeps.of_ite <;> intro _)
    | with_reducible exact Keeps.refl _
    | (with_reducible apply Keeps.of_pair (by assumption))
    | (with_reducible apply Keeps.of_triple (by assumption))
    | (fail_if_no_progress with_reducible refine Keeps.record ?_ rfl rfl rfl rfl rfl rfl rfl)
    | (with_reducible apply Keeps.foldl_via; intro _ _)
    | (fail_if_no_progress dsimp -zeta +zetaDelta only)

theorem weightCacheFill_keeps (m : MillId) (line : BitVec 44) (victim : Fin 16) (s : State) :
    Keeps s (weightCacheFill m line victim s) := by
  unfold weightCacheFill
  repeat' first
    | split
    | extract_lets
    | with_reducible apply Keeps.via (Keeps.onSluice ..)
    | (with_reducible apply Keeps.of_ite <;> intro _)
    | with_reducible exact Keeps.refl _
    | (with_reducible apply Keeps.of_pair (by assumption))
    | (with_reducible apply Keeps.of_triple (by assumption))
    | (fail_if_no_progress with_reducible refine Keeps.record ?_ rfl rfl rfl rfl rfl rfl rfl)
    | (with_reducible apply Keeps.foldl_via; intro _ _)
    | (fail_if_no_progress dsimp -zeta +zetaDelta only)

theorem State.onPort_keeps (s : State) (p : ℕ) (f : LeatPort → LeatPort) :
    Keeps s (State.onPort s p f) := by
  unfold State.onPort
  repeat' first
    | split
    | extract_lets
    | (with_reducible apply Keeps.of_ite <;> intro _)
    | with_reducible exact Keeps.refl _
    | (with_reducible apply Keeps.of_pair (by assumption))
    | (with_reducible apply Keeps.of_triple (by assumption))
    | (fail_if_no_progress with_reducible refine Keeps.record ?_ rfl rfl rfl rfl rfl rfl rfl)
    | (with_reducible apply Keeps.foldl_via; intro _ _)
    | (fail_if_no_progress dsimp -zeta +zetaDelta only)

theorem State.sendFlit_keeps (s : State) (p : ℕ) (f : BitVec 256 × List Byte) (reserved : Bool) :
    Keeps s (State.sendFlit s p f reserved) := by
  unfold State.sendFlit
  repeat' first
    | split
    | extract_lets
    | with_reducible apply Keeps.via (State.onPort_keeps ..)
    | with_reducible apply Keeps.via (State.tally_keeps ..)
    | (with_reducible apply Keeps.of_ite <;> intro _)
    | with_reducible exact Keeps.refl _
    | (with_reducible apply Keeps.of_pair (by assumption))
    | (with_reducible apply Keeps.of_triple (by assumption))
    | (fail_if_no_progress with_reducible refine Keeps.record ?_ rfl rfl rfl rfl rfl rfl rfl)
    | (with_reducible apply Keeps.foldl_via; intro _ _)
    | (fail_if_no_progress dsimp -zeta +zetaDelta only)

theorem State.pumpPort_keeps (s : State) (p : ℕ) (fuel : ℕ) :
    Keeps s (State.pumpPort s p fuel) := by
  induction fuel generalizing s p with
  | zero =>
    unfold State.pumpPort
    repeat' first
      | split
      | extract_lets
      | with_reducible apply Keeps.via (State.sendFlit_keeps ..)
      | with_reducible apply Keeps.via (State.tally_keeps ..)
      | (with_reducible apply Keeps.of_ite <;> intro _)
      | with_reducible exact Keeps.refl _
      | (with_reducible apply Keeps.of_pair (by assumption))
      | (with_reducible apply Keeps.of_triple (by assumption))
      | (fail_if_no_progress with_reducible refine Keeps.record ?_ rfl rfl rfl rfl rfl rfl rfl)
      | (with_reducible apply Keeps.foldl_via; intro _ _)
      | (fail_if_no_progress dsimp -zeta +zetaDelta only)
  | succ k ih =>
    unfold State.pumpPort
    repeat' first
      | split
      | extract_lets
      | with_reducible apply Keeps.via (ih ..)
      | with_reducible apply Keeps.via (State.sendFlit_keeps ..)
      | with_reducible apply Keeps.via (State.tally_keeps ..)
      | (with_reducible apply Keeps.of_ite <;> intro _)
      | with_reducible exact Keeps.refl _
      | (with_reducible apply Keeps.of_pair (by assumption))
      | (with_reducible apply Keeps.of_triple (by assumption))
      | (fail_if_no_progress with_reducible refine Keeps.record ?_ rfl rfl rfl rfl rfl rfl rfl)
      | (with_reducible apply Keeps.foldl_via; intro _ _)
      | (fail_if_no_progress dsimp -zeta +zetaDelta only)

theorem State.pump_keeps (s : State) (p : ℕ) :
    Keeps s (State.pump s p) := by
  unfold State.pump
  repeat' first
    | split
    | extract_lets
    | with_reducible apply Keeps.via (State.pumpPort_keeps ..)
    | (with_reducible apply Keeps.of_ite <;> intro _)
    | with_reducible exact Keeps.refl _
    | (with_reducible apply Keeps.of_pair (by assumption))
    | (with_reducible apply Keeps.of_triple (by assumption))
    | (fail_if_no_progress with_reducible refine Keeps.record ?_ rfl rfl rfl rfl rfl rfl rfl)
    | (with_reducible apply Keeps.foldl_via; intro _ _)
    | (fail_if_no_progress dsimp -zeta +zetaDelta only)

theorem State.ackTo_keeps (s : State) (p : ℕ) (ack : BitVec 16) :
    Keeps s (State.ackTo s p ack) := by
  unfold State.ackTo
  repeat' first
    | split
    | extract_lets
    | with_reducible apply Keeps.via (State.onPort_keeps ..)
    | with_reducible apply Keeps.via (State.pump_keeps ..)
    | (with_reducible apply Keeps.of_ite <;> intro _)
    | with_reducible exact Keeps.refl _
    | (with_reducible apply Keeps.of_pair (by assumption))
    | (with_reducible apply Keeps.of_triple (by assumption))
    | (fail_if_no_progress with_reducible refine Keeps.record ?_ rfl rfl rfl rfl rfl rfl rfl)
    | (with_reducible apply Keeps.foldl_via; intro _ _)
    | (fail_if_no_progress dsimp -zeta +zetaDelta only)

theorem State.linkFields_keeps (s : State) (p : ℕ) (h : FlitHdr) :
    Keeps s (State.linkFields s p h) := by
  unfold State.linkFields
  repeat' first
    | split
    | extract_lets
    | with_reducible apply Keeps.via (State.ackTo_keeps ..)
    | with_reducible apply Keeps.via (State.injectedTimed_keeps ..)
    | with_reducible apply Keeps.via (State.onPort_keeps ..)
    | with_reducible apply Keeps.via (State.pump_keeps ..)
    | (with_reducible apply Keeps.of_ite <;> intro _)
    | with_reducible exact Keeps.refl _
    | (with_reducible apply Keeps.of_pair (by assumption))
    | (with_reducible apply Keeps.of_triple (by assumption))
    | (fail_if_no_progress with_reducible refine Keeps.record ?_ rfl rfl rfl rfl rfl rfl rfl)
    | (with_reducible apply Keeps.foldl_via; intro _ _)
    | (fail_if_no_progress dsimp -zeta +zetaDelta only)

theorem State.portDown_keeps (s : State) (p : ℕ) :
    Keeps s (State.portDown s p) := by
  unfold State.portDown
  repeat' first
    | split
    | extract_lets
    | with_reducible apply Keeps.via (State.onPort_keeps ..)
    | with_reducible apply Keeps.via (State.raise_keeps ..)
    | (with_reducible apply Keeps.of_ite <;> intro _)
    | with_reducible exact Keeps.refl _
    | (with_reducible apply Keeps.of_pair (by assumption))
    | (with_reducible apply Keeps.of_triple (by assumption))
    | (fail_if_no_progress with_reducible refine Keeps.record ?_ rfl rfl rfl rfl rfl rfl rfl)
    | (with_reducible apply Keeps.foldl_via; intro _ _)
    | (fail_if_no_progress dsimp -zeta +zetaDelta only)

theorem State.portRetrain_keeps (s : State) (p : ℕ) (w : ℕ) :
    Keeps s (State.portRetrain s p w) := by
  unfold State.portRetrain
  repeat' first
    | split
    | extract_lets
    | with_reducible apply Keeps.via (State.onPort_keeps ..)
    | with_reducible apply Keeps.via (State.portDown_keeps ..)
    | with_reducible apply Keeps.via (State.tally_keeps ..)
    | (with_reducible apply Keeps.of_ite <;> intro _)
    | with_reducible exact Keeps.refl _
    | (with_reducible apply Keeps.of_pair (by assumption))
    | (with_reducible apply Keeps.of_triple (by assumption))
    | (fail_if_no_progress with_reducible refine Keeps.record ?_ rfl rfl rfl rfl rfl rfl rfl)
    | (with_reducible apply Keeps.foldl_via; intro _ _)
    | (fail_if_no_progress dsimp -zeta +zetaDelta only)

theorem State.replayFrom_keeps (s : State) (p : ℕ) (seq : BitVec 16) :
    Keeps s (State.replayFrom s p seq) := by
  unfold State.replayFrom
  repeat' first
    | split
    | extract_lets
    | with_reducible apply Keeps.via (State.onPort_keeps ..)
    | with_reducible apply Keeps.via (State.portRetrain_keeps ..)
    | with_reducible apply Keeps.via (State.tally_keeps ..)
    | (with_reducible apply Keeps.of_ite <;> intro _)
    | with_reducible exact Keeps.refl _
    | (with_reducible apply Keeps.of_pair (by assumption))
    | (with_reducible apply Keeps.of_triple (by assumption))
    | (fail_if_no_progress with_reducible refine Keeps.record ?_ rfl rfl rfl rfl rfl rfl rfl)
    | (with_reducible apply Keeps.foldl_via; intro _ _)
    | (fail_if_no_progress dsimp -zeta +zetaDelta only)

theorem ackTimeout_keeps (port : Fin 24) (s : State) :
    Keeps s (ackTimeout port s) := by
  unfold ackTimeout
  repeat' first
    | split
    | extract_lets
    | with_reducible apply Keeps.via (State.replayFrom_keeps ..)
    | with_reducible apply Keeps.via (State.tally_keeps ..)
    | (with_reducible apply Keeps.of_ite <;> intro _)
    | with_reducible exact Keeps.refl _
    | (with_reducible apply Keeps.of_pair (by assumption))
    | (with_reducible apply Keeps.of_triple (by assumption))
    | (fail_if_no_progress with_reducible refine Keeps.record ?_ rfl rfl rfl rfl rfl rfl rfl)
    | (with_reducible apply Keeps.foldl_via; intro _ _)
    | (fail_if_no_progress dsimp -zeta +zetaDelta only)

theorem State.portEnable_keeps (s : State) (p : ℕ) :
    Keeps s (State.portEnable s p) := by
  unfold State.portEnable
  repeat' first
    | split
    | extract_lets
    | with_reducible apply Keeps.via (State.onPort_keeps ..)
    | with_reducible apply Keeps.via (State.raise_keeps ..)
    | (with_reducible apply Keeps.of_ite <;> intro _)
    | with_reducible exact Keeps.refl _
    | (with_reducible apply Keeps.of_pair (by assumption))
    | (with_reducible apply Keeps.of_triple (by assumption))
    | (fail_if_no_progress with_reducible refine Keeps.record ?_ rfl rfl rfl rfl rfl rfl rfl)
    | (with_reducible apply Keeps.foldl_via; intro _ _)
    | (fail_if_no_progress dsimp -zeta +zetaDelta only)

theorem trainAttempt_keeps (port : Fin 24) (s : State) :
    Keeps s (trainAttempt port s) := by
  unfold trainAttempt
  repeat' first
    | split
    | extract_lets
    | with_reducible apply Keeps.via (State.onPort_keeps ..)
    | (with_reducible apply Keeps.of_ite <;> intro _)
    | with_reducible exact Keeps.refl _
    | (with_reducible apply Keeps.of_pair (by assumption))
    | (with_reducible apply Keeps.of_triple (by assumption))
    | (fail_if_no_progress with_reducible refine Keeps.record ?_ rfl rfl rfl rfl rfl rfl rfl)
    | (with_reducible apply Keeps.foldl_via; intro _ _)
    | (fail_if_no_progress dsimp -zeta +zetaDelta only)

theorem State.portsRelease_keeps (s : State) :
    Keeps s (State.portsRelease s) := by
  unfold State.portsRelease
  repeat' first
    | split
    | extract_lets
    | with_reducible apply Keeps.via (State.onPort_keeps ..)
    | (with_reducible apply Keeps.forAll_via; intro _ _)
    | (with_reducible apply Keeps.of_ite <;> intro _)
    | with_reducible exact Keeps.refl _
    | (with_reducible apply Keeps.of_pair (by assumption))
    | (with_reducible apply Keeps.of_triple (by assumption))
    | (fail_if_no_progress with_reducible refine Keeps.record ?_ rfl rfl rfl rfl rfl rfl rfl)
    | (with_reducible apply Keeps.foldl_via; intro _ _)
    | (fail_if_no_progress dsimp -zeta +zetaDelta only)

theorem State.freeBuffer_keeps (s : State) (p : Option ℕ) (h : FlitHdr) :
    Keeps s (State.freeBuffer s p h) := by
  unfold State.freeBuffer
  repeat' first
    | split
    | extract_lets
    | with_reducible apply Keeps.via (State.onPort_keeps ..)
    | (with_reducible apply Keeps.of_ite <;> intro _)
    | with_reducible exact Keeps.refl _
    | (with_reducible apply Keeps.of_pair (by assumption))
    | (with_reducible apply Keeps.of_triple (by assumption))
    | (fail_if_no_progress with_reducible refine Keeps.record ?_ rfl rfl rfl rfl rfl rfl rfl)
    | (with_reducible apply Keeps.foldl_via; intro _ _)
    | (fail_if_no_progress dsimp -zeta +zetaDelta only)

theorem State.portSend_keeps (s : State) (p : ℕ) (h : FlitHdr) (payload : List Byte) :
    Keeps s (State.portSend s p h payload) := by
  unfold State.portSend
  repeat' first
    | split
    | extract_lets
    | with_reducible apply Keeps.via (State.onPort_keeps ..)
    | with_reducible apply Keeps.via (State.pump_keeps ..)
    | (with_reducible apply Keeps.of_ite <;> intro _)
    | with_reducible exact Keeps.refl _
    | (with_reducible apply Keeps.of_pair (by assumption))
    | (with_reducible apply Keeps.of_triple (by assumption))
    | (fail_if_no_progress with_reducible refine Keeps.record ?_ rfl rfl rfl rfl rfl rfl rfl)
    | (with_reducible apply Keeps.foldl_via; intro _ _)
    | (fail_if_no_progress dsimp -zeta +zetaDelta only)

theorem State.moveOn_keeps (s : State) (from_ : Option ℕ) (h : FlitHdr) (payload : List Byte) :
    Keeps s (State.moveOn s from_ h payload) := by
  unfold State.moveOn
  repeat' first
    | split
    | extract_lets
    | with_reducible apply Keeps.via (State.freeBuffer_keeps ..)
    | with_reducible apply Keeps.via (State.portSend_keeps ..)
    | with_reducible apply Keeps.via (State.raise_keeps ..)
    | with_reducible apply Keeps.via (State.tally_keeps ..)
    | (with_reducible apply Keeps.of_ite <;> intro _)
    | with_reducible exact Keeps.refl _
    | (with_reducible apply Keeps.of_pair (by assumption))
    | (with_reducible apply Keeps.of_triple (by assumption))
    | (fail_if_no_progress with_reducible refine Keeps.record ?_ rfl rfl rfl rfl rfl rfl rfl)
    | (with_reducible apply Keeps.foldl_via; intro _ _)
    | (fail_if_no_progress dsimp -zeta +zetaDelta only)

theorem State.launch_keeps (s : State) (h : FlitHdr) (payload : List Byte) :
    Keeps s (State.launch s h payload) := by
  unfold State.launch
  repeat' first
    | split
    | extract_lets
    | with_reducible apply Keeps.via (State.moveOn_keeps ..)
    | with_reducible apply Keeps.via (State.tally_keeps ..)
    | (with_reducible apply Keeps.of_ite <;> intro _)
    | with_reducible exact Keeps.refl _
    | (with_reducible apply Keeps.of_pair (by assumption))
    | (with_reducible apply Keeps.of_triple (by assumption))
    | (fail_if_no_progress with_reducible refine Keeps.record ?_ rfl rfl rfl rfl rfl rfl rfl)
    | (with_reducible apply Keeps.foldl_via; intro _ _)
    | (fail_if_no_progress dsimp -zeta +zetaDelta only)

theorem State.retryBlocked_keeps (s : State) :
    Keeps s (State.retryBlocked s) := by
  unfold State.retryBlocked
  repeat' first
    | split
    | extract_lets
    | with_reducible apply Keeps.via (State.launch_keeps ..)
    | with_reducible apply Keeps.via (State.moveOn_keeps ..)
    | (with_reducible apply Keeps.forAll_via; intro _ _)
    | (with_reducible apply Keeps.of_ite <;> intro _)
    | with_reducible exact Keeps.refl _
    | (with_reducible apply Keeps.of_pair (by assumption))
    | (with_reducible apply Keeps.of_triple (by assumption))
    | (fail_if_no_progress with_reducible refine Keeps.record ?_ rfl rfl rfl rfl rfl rfl rfl)
    | (with_reducible apply Keeps.foldl_via; intro _ _)
    | (fail_if_no_progress dsimp -zeta +zetaDelta only)

theorem State.routeWrite_keeps (s : State) (w : W32) :
    Keeps s (State.routeWrite s w) := by
  unfold State.routeWrite
  repeat' first
    | split
    | extract_lets
    | with_reducible apply Keeps.via (State.putFld_keeps ..)
    | with_reducible apply Keeps.via (State.retryBlocked_keeps ..)
    | (with_reducible apply Keeps.of_ite <;> intro _)
    | with_reducible exact Keeps.refl _
    | (with_reducible apply Keeps.of_pair (by assumption))
    | (with_reducible apply Keeps.of_triple (by assumption))
    | (fail_if_no_progress with_reducible refine Keeps.record ?_ rfl rfl rfl rfl rfl rfl rfl)
    | (with_reducible apply Keeps.foldl_via; intro _ _)
    | (fail_if_no_progress dsimp -zeta +zetaDelta only)

theorem portTrainDone_keeps (port : Fin 24) (lanes : BitVec 8) (partner : BitVec 16) (s : State) :
    Keeps s (portTrainDone port lanes partner s) := by
  unfold portTrainDone
  repeat' first
    | split
    | extract_lets
    | with_reducible apply Keeps.via (State.onPort_keeps ..)
    | with_reducible apply Keeps.via (State.portDown_keeps ..)
    | with_reducible apply Keeps.via (State.pump_keeps ..)
    | with_reducible apply Keeps.via (State.raise_keeps ..)
    | with_reducible apply Keeps.via (State.retryBlocked_keeps ..)
    | (with_reducible apply Keeps.of_ite <;> intro _)
    | with_reducible exact Keeps.refl _
    | (with_reducible apply Keeps.of_pair (by assumption))
    | (with_reducible apply Keeps.of_triple (by assumption))
    | (fail_if_no_progress with_reducible refine Keeps.record ?_ rfl rfl rfl rfl rfl rfl rfl)
    | (with_reducible apply Keeps.foldl_via; intro _ _)
    | (fail_if_no_progress dsimp -zeta +zetaDelta only)

theorem State.sendLink_keeps (s : State) (p : ℕ) (t : BitVec 4) (payload : List Byte) :
    Keeps s (State.sendLink s p t payload) := by
  unfold State.sendLink
  repeat' first
    | split
    | extract_lets
    | with_reducible apply Keeps.via (State.onPort_keeps ..)
    | with_reducible apply Keeps.via (State.tally_keeps ..)
    | (with_reducible apply Keeps.of_ite <;> intro _)
    | with_reducible exact Keeps.refl _
    | (with_reducible apply Keeps.of_pair (by assumption))
    | (with_reducible apply Keeps.of_triple (by assumption))
    | (fail_if_no_progress with_reducible refine Keeps.record ?_ rfl rfl rfl rfl rfl rfl rfl)
    | (with_reducible apply Keeps.foldl_via; intro _ _)
    | (fail_if_no_progress dsimp -zeta +zetaDelta only)

theorem State.nack_keeps (s : State) (p : ℕ) :
    Keeps s (State.nack s p) := by
  unfold State.nack
  repeat' first
    | split
    | extract_lets
    | with_reducible apply Keeps.via (State.onPort_keeps ..)
    | with_reducible apply Keeps.via (State.sendLink_keeps ..)
    | with_reducible apply Keeps.via (State.tally_keeps ..)
    | (with_reducible apply Keeps.of_ite <;> intro _)
    | with_reducible exact Keeps.refl _
    | (with_reducible apply Keeps.of_pair (by assumption))
    | (with_reducible apply Keeps.of_triple (by assumption))
    | (fail_if_no_progress with_reducible refine Keeps.record ?_ rfl rfl rfl rfl rfl rfl rfl)
    | (with_reducible apply Keeps.foldl_via; intro _ _)
    | (fail_if_no_progress dsimp -zeta +zetaDelta only)

theorem laneDrop_keeps (port : Fin 24) (lane : Fin 8) (s : State) :
    Keeps s (laneDrop port lane s) := by
  unfold laneDrop
  repeat' first
    | split
    | extract_lets
    | with_reducible apply Keeps.via (State.onPort_keeps ..)
    | with_reducible apply Keeps.via (State.portRetrain_keeps ..)
    | with_reducible apply Keeps.via (State.raise_keeps ..)
    | with_reducible apply Keeps.via (State.takeInjAt_keeps ..)
    | with_reducible apply Keeps.via (State.tally_keeps ..)
    | (with_reducible apply Keeps.of_ite <;> intro _)
    | with_reducible exact Keeps.refl _
    | (with_reducible apply Keeps.of_pair (by assumption))
    | (with_reducible apply Keeps.of_triple (by assumption))
    | (fail_if_no_progress with_reducible refine Keeps.record ?_ rfl rfl rfl rfl rfl rfl rfl)
    | (with_reducible apply Keeps.foldl_via; intro _ _)
    | (fail_if_no_progress dsimp -zeta +zetaDelta only)

theorem State.portsHold_keeps (s : State) :
    Keeps s (State.portsHold s) := by
  unfold State.portsHold
  repeat' first
    | split
    | extract_lets
    | with_reducible apply Keeps.via (State.onPort_keeps ..)
    | (with_reducible apply Keeps.forAll_via; intro _ _)
    | (with_reducible apply Keeps.of_ite <;> intro _)
    | with_reducible exact Keeps.refl _
    | (with_reducible apply Keeps.of_pair (by assumption))
    | (with_reducible apply Keeps.of_triple (by assumption))
    | (fail_if_no_progress with_reducible refine Keeps.record ?_ rfl rfl rfl rfl rfl rfl rfl)
    | (with_reducible apply Keeps.foldl_via; intro _ _)
    | (fail_if_no_progress dsimp -zeta +zetaDelta only)

theorem State.retrainPort_keeps (s : State) (p : ℕ) :
    Keeps s (State.retrainPort s p) := by
  unfold State.retrainPort
  repeat' first
    | split
    | extract_lets
    | with_reducible apply Keeps.via (State.onPort_keeps ..)
    | with_reducible apply Keeps.via (State.portRetrain_keeps ..)
    | (with_reducible apply Keeps.of_ite <;> intro _)
    | with_reducible exact Keeps.refl _
    | (with_reducible apply Keeps.of_pair (by assumption))
    | (with_reducible apply Keeps.of_triple (by assumption))
    | (fail_if_no_progress with_reducible refine Keeps.record ?_ rfl rfl rfl rfl rfl rfl rfl)
    | (with_reducible apply Keeps.foldl_via; intro _ _)
    | (fail_if_no_progress dsimp -zeta +zetaDelta only)

theorem State.leatRefuse_keeps (s : State) (m : MillId) (q : ℕ) (t : Transfer) (gi : ℕ) (cause : ℕ) (step : ℕ) :
    Keeps s (State.leatRefuse s m q t gi cause step) := by
  unfold State.leatRefuse
  repeat' first
    | split
    | extract_lets
    | with_reducible apply Keeps.via (State.leatFault_keeps ..)
    | with_reducible apply Keeps.via (State.onQueue_keeps ..)
    | with_reducible apply Keeps.via (State.postQueue_keeps ..)
    | (with_reducible apply Keeps.of_ite <;> intro _)
    | with_reducible exact Keeps.refl _
    | (with_reducible apply Keeps.of_pair (by assumption))
    | (with_reducible apply Keeps.of_triple (by assumption))
    | (fail_if_no_progress with_reducible refine Keeps.record ?_ rfl rfl rfl rfl rfl rfl rfl)
    | (with_reducible apply Keeps.foldl_via; intro _ _)
    | (fail_if_no_progress dsimp -zeta +zetaDelta only)

theorem State.gateSkew_keeps (s : State) (gi : ℕ) :
    Keeps s (State.gateSkew s gi) := by
  unfold State.gateSkew
  repeat' first
    | split
    | extract_lets
    | with_reducible apply Keeps.via (State.bltFault_keeps ..)
    | with_reducible apply Keeps.via (State.onGroup_keeps ..)
    | with_reducible apply Keeps.via (State.raise_keeps ..)
    | with_reducible apply Keeps.via (State.tally_keeps ..)
    | (with_reducible apply Keeps.forAll_via; intro _ _)
    | (with_reducible apply Keeps.of_ite <;> intro _)
    | with_reducible exact Keeps.refl _
    | (with_reducible apply Keeps.of_pair (by assumption))
    | (with_reducible apply Keeps.of_triple (by assumption))
    | (fail_if_no_progress with_reducible refine Keeps.record ?_ rfl rfl rfl rfl rfl rfl rfl)
    | (with_reducible apply Keeps.foldl_via; intro _ _)
    | (fail_if_no_progress dsimp -zeta +zetaDelta only)

theorem State.gateJudge_keeps (s : State) (gi : ℕ) :
    Keeps s (State.gateJudge s gi) := by
  unfold State.gateJudge
  repeat' first
    | split
    | extract_lets
    | with_reducible apply Keeps.via (State.gateSkew_keeps ..)
    | (with_reducible apply Keeps.of_ite <;> intro _)
    | with_reducible exact Keeps.refl _
    | (with_reducible apply Keeps.of_pair (by assumption))
    | (with_reducible apply Keeps.of_triple (by assumption))
    | (fail_if_no_progress with_reducible refine Keeps.record ?_ rfl rfl rfl rfl rfl rfl rfl)
    | (with_reducible apply Keeps.foldl_via; intro _ _)
    | (fail_if_no_progress dsimp -zeta +zetaDelta only)

theorem State.weighRecord_keeps (s : State) (gi : ℕ) (rank : ℕ) (cause : ℕ) (step : ℕ) :
    Keeps s (State.weighRecord s gi rank cause step) := by
  unfold State.weighRecord
  repeat' first
    | split
    | extract_lets
    | (with_reducible apply State.record_via; intro _)
    | with_reducible apply Keeps.via (State.setWord64_keeps ..)
    | with_reducible apply Keeps.via (State.setWord_keeps ..)
    | (with_reducible apply Keeps.of_ite <;> intro _)
    | with_reducible exact Keeps.refl _
    | (with_reducible apply Keeps.of_pair (by assumption))
    | (with_reducible apply Keeps.of_triple (by assumption))
    | (fail_if_no_progress with_reducible refine Keeps.record ?_ rfl rfl rfl rfl rfl rfl rfl)
    | (with_reducible apply Keeps.foldl_via; intro _ _)
    | (fail_if_no_progress dsimp -zeta +zetaDelta only)

theorem State.endOp_keeps (s : State) (g : ℕ) (o : ChannelOp) :
    Keeps s (State.endOp s g o) := by
  unfold State.endOp
  repeat' first
    | split
    | extract_lets
    | with_reducible apply Keeps.via (State.onGroup_keeps ..)
    | with_reducible apply Keeps.via (State.onQueue_keeps ..)
    | with_reducible apply Keeps.via (State.postQueue_keeps ..)
    | (with_reducible apply Keeps.of_ite <;> intro _)
    | with_reducible exact Keeps.refl _
    | (with_reducible apply Keeps.of_pair (by assumption))
    | (with_reducible apply Keeps.of_triple (by assumption))
    | (fail_if_no_progress with_reducible refine Keeps.record ?_ rfl rfl rfl rfl rfl rfl rfl)
    | (with_reducible apply Keeps.foldl_via; intro _ _)
    | (fail_if_no_progress dsimp -zeta +zetaDelta only)

theorem State.endGroupOps_keeps (s : State) (g : Group) :
    Keeps s (State.endGroupOps s g) := by
  unfold State.endGroupOps
  repeat' first
    | split
    | extract_lets
    | with_reducible apply Keeps.via (State.endOp_keeps ..)
    | with_reducible apply Keeps.via (State.leatFault_keeps ..)
    | (with_reducible apply Keeps.forAll_via; intro _ _)
    | (with_reducible apply Keeps.of_ite <;> intro _)
    | with_reducible exact Keeps.refl _
    | (with_reducible apply Keeps.of_pair (by assumption))
    | (with_reducible apply Keeps.of_triple (by assumption))
    | (fail_if_no_progress with_reducible refine Keeps.record ?_ rfl rfl rfl rfl rfl rfl rfl)
    | (with_reducible apply Keeps.foldl_via; intro _ _)
    | (fail_if_no_progress dsimp -zeta +zetaDelta only)

theorem State.groupDrop_keeps (s : State) (gi : ℕ) :
    Keeps s (State.groupDrop s gi) := by
  unfold State.groupDrop
  repeat' first
    | split
    | extract_lets
    | with_reducible apply Keeps.via (State.endGroupOps_keeps ..)
    | (with_reducible apply Keeps.of_ite <;> intro _)
    | with_reducible exact Keeps.refl _
    | (with_reducible apply Keeps.of_pair (by assumption))
    | (with_reducible apply Keeps.of_triple (by assumption))
    | (fail_if_no_progress with_reducible refine Keeps.record ?_ rfl rfl rfl rfl rfl rfl rfl)
    | (with_reducible apply Keeps.foldl_via; intro _ _)
    | (fail_if_no_progress dsimp -zeta +zetaDelta only)

theorem State.weighCompare_keeps (s : State) (g : Group) (recs : List ClearRec) :
    Keeps s (State.weighCompare s g recs) := by
  unfold State.weighCompare
  repeat' first
    | split
    | extract_lets
    | with_reducible apply Keeps.via (State.groupDrop_keeps ..)
    | with_reducible apply Keeps.via (State.histPending_keeps ..)
    | with_reducible apply Keeps.via (State.onGroup_keeps ..)
    | with_reducible apply Keeps.via (State.raise_keeps ..)
    | with_reducible apply Keeps.via (State.tally_keeps ..)
    | with_reducible apply Keeps.via (State.weighRecord_keeps ..)
    | (with_reducible apply Keeps.of_ite <;> intro _)
    | with_reducible exact Keeps.refl _
    | (with_reducible apply Keeps.of_pair (by assumption))
    | (with_reducible apply Keeps.of_triple (by assumption))
    | (fail_if_no_progress with_reducible refine Keeps.record ?_ rfl rfl rfl rfl rfl rfl rfl)
    | (with_reducible apply Keeps.foldl_via; intro _ _)
    | (fail_if_no_progress dsimp -zeta +zetaDelta only)

theorem State.gateOpen_keeps (s : State) (g : Group) :
    Keeps s (State.gateOpen s g) := by
  unfold State.gateOpen
  repeat' first
    | split
    | extract_lets
    | with_reducible apply Keeps.via (State.onGroup_keeps ..)
    | with_reducible apply Keeps.via (State.tally_keeps ..)
    | (with_reducible apply Keeps.of_ite <;> intro _)
    | with_reducible exact Keeps.refl _
    | (with_reducible apply Keeps.of_pair (by assumption))
    | (with_reducible apply Keeps.of_triple (by assumption))
    | (fail_if_no_progress with_reducible refine Keeps.record ?_ rfl rfl rfl rfl rfl rfl rfl)
    | (with_reducible apply Keeps.foldl_via; intro _ _)
    | (fail_if_no_progress dsimp -zeta +zetaDelta only)

theorem State.tryGate_keeps (s : State) (gi : ℕ) :
    Keeps s (State.tryGate s gi) := by
  unfold State.tryGate
  repeat' first
    | split
    | extract_lets
    | with_reducible apply Keeps.via (State.gateJudge_keeps ..)
    | with_reducible apply Keeps.via (State.gateOpen_keeps ..)
    | with_reducible apply Keeps.via (State.weighCompare_keeps ..)
    | (with_reducible apply Keeps.of_ite <;> intro _)
    | with_reducible exact Keeps.refl _
    | (with_reducible apply Keeps.of_pair (by assumption))
    | (with_reducible apply Keeps.of_triple (by assumption))
    | (fail_if_no_progress with_reducible refine Keeps.record ?_ rfl rfl rfl rfl rfl rfl rfl)
    | (with_reducible apply Keeps.foldl_via; intro _ _)
    | (fail_if_no_progress dsimp -zeta +zetaDelta only)

theorem State.epochNackIn_keeps (s : State) (p : Option ℕ) (h : FlitHdr) (payload : List Byte) :
    Keeps s (State.epochNackIn s p h payload) := by
  unfold State.epochNackIn
  repeat' first
    | split
    | extract_lets
    | with_reducible apply Keeps.via (State.raise_keeps ..)
    | (with_reducible apply Keeps.of_ite <;> intro _)
    | with_reducible exact Keeps.refl _
    | (with_reducible apply Keeps.of_pair (by assumption))
    | (with_reducible apply Keeps.of_triple (by assumption))
    | (fail_if_no_progress with_reducible refine Keeps.record ?_ rfl rfl rfl rfl rfl rfl rfl)
    | (with_reducible apply Keeps.foldl_via; intro _ _)
    | (fail_if_no_progress dsimp -zeta +zetaDelta only)

theorem State.epochNack_keeps (s : State) (h : FlitHdr) (epoch : W32) :
    Keeps s (State.epochNack s h epoch) := by
  unfold State.epochNack
  repeat' first
    | split
    | extract_lets
    | with_reducible apply Keeps.via (State.launch_keeps ..)
    | (with_reducible apply Keeps.of_ite <;> intro _)
    | with_reducible exact Keeps.refl _
    | (with_reducible apply Keeps.of_pair (by assumption))
    | (with_reducible apply Keeps.of_triple (by assumption))
    | (fail_if_no_progress with_reducible refine Keeps.record ?_ rfl rfl rfl rfl rfl rfl rfl)
    | (with_reducible apply Keeps.foldl_via; intro _ _)
    | (fail_if_no_progress dsimp -zeta +zetaDelta only)

theorem State.pondLand_keeps (s : State) (m : MillId) (u : ℕ) (data : List Byte) :
    Keeps s (State.pondLand s m u data).2 := by
  unfold State.pondLand
  repeat' first
    | split
    | extract_lets
    | with_reducible apply Keeps.via (State.physWrite_keeps ..)
    | with_reducible apply Keeps.via (State.portWrite_keeps ..)
    | with_reducible apply Keeps.via (State.tally_keeps ..)
    | (with_reducible apply Keeps.of_ite <;> intro _)
    | with_reducible exact Keeps.refl _
    | (with_reducible apply Keeps.of_pair (by assumption))
    | (with_reducible apply Keeps.of_triple (by assumption))
    | (fail_if_no_progress with_reducible refine Keeps.record ?_ rfl rfl rfl rfl rfl rfl rfl)
    | (with_reducible apply Keeps.foldl_via; intro _ _)
    | (fail_if_no_progress dsimp -zeta +zetaDelta only)

theorem State.receptionHeld_keeps (s : State) :
    Keeps s (State.receptionHeld s) := by
  unfold State.receptionHeld
  repeat' first
    | split
    | extract_lets
    | (with_reducible apply Keeps.of_ite <;> intro _)
    | with_reducible exact Keeps.refl _
    | (with_reducible apply Keeps.of_pair (by assumption))
    | (with_reducible apply Keeps.of_triple (by assumption))
    | (fail_if_no_progress with_reducible refine Keeps.record ?_ rfl rfl rfl rfl rfl rfl rfl)
    | (with_reducible apply Keeps.foldl_via; intro _ _)
    | (fail_if_no_progress dsimp -zeta +zetaDelta only)

theorem State.pondUnit_keeps (s : State) (m : MillId) (one : Bool) (page : Bool) (u : ℕ) (data : List Byte) :
    Keeps s (State.pondUnit s m one page u data).2 := by
  unfold State.pondUnit
  repeat' first
    | split
    | extract_lets
    | with_reducible apply Keeps.via (State.pondLand_keeps ..)
    | with_reducible apply Keeps.via (State.receptionHeld_keeps ..)
    | (with_reducible apply Keeps.of_ite <;> intro _)
    | with_reducible exact Keeps.refl _
    | (with_reducible apply Keeps.of_pair (by assumption))
    | (with_reducible apply Keeps.of_triple (by assumption))
    | (fail_if_no_progress with_reducible refine Keeps.record ?_ rfl rfl rfl rfl rfl rfl rfl)
    | (with_reducible apply Keeps.foldl_via; intro _ _)
    | (fail_if_no_progress dsimp -zeta +zetaDelta only)

theorem State.pondIn_keeps (s : State) (g : Group) (h : FlitHdr) (payload : List Byte) :
    Keeps s (State.pondIn s g h payload).2 := by
  unfold State.pondIn
  repeat' first
    | split
    | extract_lets
    | with_reducible apply Keeps.via (State.pondUnit_keeps ..)
    | (with_reducible apply Keeps.of_ite <;> intro _)
    | with_reducible exact Keeps.refl _
    | (with_reducible apply Keeps.of_pair (by assumption))
    | (with_reducible apply Keeps.of_triple (by assumption))
    | (fail_if_no_progress with_reducible refine Keeps.record ?_ rfl rfl rfl rfl rfl rfl rfl)
    | (with_reducible apply Keeps.foldl_via; intro _ _)
    | (fail_if_no_progress dsimp -zeta +zetaDelta only)

theorem State.leatCount_keeps (s : State) (o : ChannelOp) (write : Bool) (a : ℕ) (n : ℕ) :
    Keeps s (State.leatCount s o write a n) := by
  unfold State.leatCount
  repeat' first
    | split
    | extract_lets
    | with_reducible apply Keeps.via (State.tally_keeps ..)
    | (with_reducible apply Keeps.of_ite <;> intro _)
    | with_reducible exact Keeps.refl _
    | (with_reducible apply Keeps.of_pair (by assumption))
    | (with_reducible apply Keeps.of_triple (by assumption))
    | (fail_if_no_progress with_reducible refine Keeps.record ?_ rfl rfl rfl rfl rfl rfl rfl)
    | (with_reducible apply Keeps.foldl_via; intro _ _)
    | (fail_if_no_progress dsimp -zeta +zetaDelta only)

theorem State.leatSegs_keeps (s : State) (o : ChannelOp) (l : List Seg) : Keeps s (s.leatSegs o l).2 := by
  induction l generalizing s with
  | nil => exact Keeps.refl s
  | cons g rest ih =>
    unfold State.leatSegs
    extract_lets go fault
    have hg : ∀ bs s, Keeps s (go bs s).2 := by
      intro bs s
      have h := ih s
      change Keeps s (Prod.snd (match s.leatSegs o rest with | (.ok cs, s) => (Except.ok (bs ++ cs), s) | r => r))
      split
      · rename_i e; rw [e] at h; exact h
      · exact h
    clear_value go
    split
    · rename_i a _
      have h := State.partsRead_keeps s o.mill none [(a, g.len)]
      split
      · rename_i e; rw [e] at h; exact (h.trans (State.leatCount_keeps ..)).trans (hg _ _)
      · rename_i e; rw [e] at h; exact h.trans (State.memHistory_keeps ..)
      · rename_i e; rw [e] at h; exact h
    · rename_i k _
      have h := State.pinRead_keeps s o.mill (k % 0x6000000) g.len
      split
      · rename_i e; rw [e] at h; exact h
      · rename_i e; rw [e] at h; exact h.trans (hg _ _)
    · exact hg _ _


theorem State.leatRead_keeps (s : State) (o : ChannelOp) (pos : ℕ) (len : ℕ) :
    Keeps s (State.leatRead s o pos len).2 := by
  unfold State.leatRead
  extract_lets d c
  split
  · exact Keeps.refl s
  · rename_i p _
    split
    · exact Keeps.refl s
    · have h := State.leatSegs_keeps s o p.segs
      split
      · exact Keeps.refl s
      · rename_i e; rw [e] at h; exact h
      · rename_i e; rw [e] at h; exact h

theorem State.leatStop_keeps (s : State) (o : ChannelOp) (e : LeatStop) :
    Keeps s (State.leatStop s o e) := by
  unfold State.leatStop
  repeat' first
    | split
    | extract_lets
    | with_reducible apply Keeps.via (State.chunkFault_keeps ..)
    | with_reducible apply Keeps.via (State.dropChannelOp_keeps ..)
    | with_reducible apply Keeps.via (State.park_keeps ..)
    | with_reducible apply Keeps.via (State.sluFault_keeps ..)
    | (with_reducible apply Keeps.of_ite <;> intro _)
    | with_reducible exact Keeps.refl _
    | (with_reducible apply Keeps.of_pair (by assumption))
    | (with_reducible apply Keeps.of_triple (by assumption))
    | (fail_if_no_progress with_reducible refine Keeps.record ?_ rfl rfl rfl rfl rfl rfl rfl)
    | (with_reducible apply Keeps.foldl_via; intro _ _)
    | (fail_if_no_progress dsimp -zeta +zetaDelta only)

theorem State.onOp_keeps (s : State) (g : ℕ) (o : ChannelOp) (f : ChannelOp → ChannelOp) :
    Keeps s (State.onOp s g o f) := by
  unfold State.onOp
  repeat' first
    | split
    | extract_lets
    | with_reducible apply Keeps.via (State.onGroup_keeps ..)
    | (with_reducible apply Keeps.of_ite <;> intro _)
    | with_reducible exact Keeps.refl _
    | (with_reducible apply Keeps.of_pair (by assumption))
    | (with_reducible apply Keeps.of_triple (by assumption))
    | (fail_if_no_progress with_reducible refine Keeps.record ?_ rfl rfl rfl rfl rfl rfl rfl)
    | (with_reducible apply Keeps.foldl_via; intro _ _)
    | (fail_if_no_progress dsimp -zeta +zetaDelta only)

theorem State.leatResumed_keeps (s : State) (o : ChannelOp) :
    Keeps s (State.leatResumed s o) := by
  unfold State.leatResumed
  repeat' first
    | split
    | extract_lets
    | with_reducible apply Keeps.via (State.onQueue_keeps ..)
    | (with_reducible apply Keeps.of_ite <;> intro _)
    | with_reducible exact Keeps.refl _
    | (with_reducible apply Keeps.of_pair (by assumption))
    | (with_reducible apply Keeps.of_triple (by assumption))
    | (fail_if_no_progress with_reducible refine Keeps.record ?_ rfl rfl rfl rfl rfl rfl rfl)
    | (with_reducible apply Keeps.foldl_via; intro _ _)
    | (fail_if_no_progress dsimp -zeta +zetaDelta only)

theorem State.groupSend_keeps (s : State) (g : Group) (h : FlitHdr) (payload : List Byte) :
    Keeps s (State.groupSend s g h payload) := by
  unfold State.groupSend
  repeat' first
    | split
    | extract_lets
    | with_reducible apply Keeps.via (State.launch_keeps ..)
    | (with_reducible apply Keeps.of_ite <;> intro _)
    | with_reducible exact Keeps.refl _
    | (with_reducible apply Keeps.of_pair (by assumption))
    | (with_reducible apply Keeps.of_triple (by assumption))
    | (fail_if_no_progress with_reducible refine Keeps.record ?_ rfl rfl rfl rfl rfl rfl rfl)
    | (with_reducible apply Keeps.foldl_via; intro _ _)
    | (fail_if_no_progress dsimp -zeta +zetaDelta only)

theorem State.sendUnit_keeps (s : State) (g : Group) (o : ChannelOp) (dest : ℕ) (unit : ℕ) (payload : List Byte) :
    Keeps s (State.sendUnit s g o dest unit payload) := by
  unfold State.sendUnit
  repeat' first
    | split
    | extract_lets
    | with_reducible apply Keeps.via (State.groupSend_keeps ..)
    | (with_reducible apply Keeps.of_ite <;> intro _)
    | with_reducible exact Keeps.refl _
    | (with_reducible apply Keeps.of_pair (by assumption))
    | (with_reducible apply Keeps.of_triple (by assumption))
    | (fail_if_no_progress with_reducible refine Keeps.record ?_ rfl rfl rfl rfl rfl rfl rfl)
    | (with_reducible apply Keeps.foldl_via; intro _ _)
    | (fail_if_no_progress dsimp -zeta +zetaDelta only)

theorem State.sendUnits_keeps (s : State) (g : Group) (o : ChannelOp) (dests : List ℕ) (unit : ℕ) (payload : List Byte) :
    Keeps s (State.sendUnits s g o dests unit payload) := by
  unfold State.sendUnits
  repeat' first
    | split
    | extract_lets
    | with_reducible apply Keeps.via (State.endOp_keeps ..)
    | with_reducible apply Keeps.via (State.leatFault_keeps ..)
    | with_reducible apply Keeps.via (State.sendUnit_keeps ..)
    | (with_reducible apply Keeps.forAll_via; intro _ _)
    | (with_reducible apply Keeps.of_ite <;> intro _)
    | with_reducible exact Keeps.refl _
    | (with_reducible apply Keeps.of_pair (by assumption))
    | (with_reducible apply Keeps.of_triple (by assumption))
    | (fail_if_no_progress with_reducible refine Keeps.record ?_ rfl rfl rfl rfl rfl rfl rfl)
    | (with_reducible apply Keeps.foldl_via; intro _ _)
    | (fail_if_no_progress dsimp -zeta +zetaDelta only)

theorem State.leatPut_keeps (s : State) (o : ChannelOp) (ps : List (ℕ × ℕ)) (bs : List Byte) (c : ℕ) :
    Keeps s (State.leatPut s o ps bs c).2 := by
  unfold State.leatPut
  repeat' first
    | split
    | extract_lets
    | with_reducible apply Keeps.via (State.leatCount_keeps ..)
    | with_reducible apply Keeps.via (State.memHistory_keeps ..)
    | with_reducible apply Keeps.via (State.partsWrite_keeps ..)
    | with_reducible apply Keeps.via (State.tally_keeps ..)
    | (with_reducible apply Keeps.forAll_via; intro _ _)
    | (with_reducible apply Keeps.of_ite <;> intro _)
    | with_reducible exact Keeps.refl _
    | (with_reducible apply Keeps.of_pair (by assumption))
    | (with_reducible apply Keeps.of_triple (by assumption))
    | (fail_if_no_progress with_reducible refine Keeps.record ?_ rfl rfl rfl rfl rfl rfl rfl)
    | (with_reducible apply Keeps.foldl_via; intro _ _)
    | (fail_if_no_progress dsimp -zeta +zetaDelta only)

theorem State.leatWrite_keeps (s : State) (o : ChannelOp) (base : ℕ) (at_ : ℕ) (bs : List Byte) :
    Keeps s (State.leatWrite s o base at_ bs).2 := by
  unfold State.leatWrite
  repeat' first
    | split
    | extract_lets
    | with_reducible apply Keeps.via (State.leatPut_keeps ..)
    | with_reducible apply Keeps.via (State.placeRun_keeps ..)
    | (with_reducible apply Keeps.of_ite <;> intro _)
    | with_reducible exact Keeps.refl _
    | (with_reducible apply Keeps.of_pair (by assumption))
    | (with_reducible apply Keeps.of_triple (by assumption))
    | (fail_if_no_progress with_reducible refine Keeps.record ?_ rfl rfl rfl rfl rfl rfl rfl)
    | (with_reducible apply Keeps.foldl_via; intro _ _)
    | (fail_if_no_progress dsimp -zeta +zetaDelta only)

theorem State.putUnit_keeps (s : State) (gi : ℕ) (o : ChannelOp) (c : Channel) (k : ℕ) (bs : List Byte) (port : Option ℕ) :
    Keeps s (State.putUnit s gi o c k bs port).2 := by
  unfold State.putUnit
  repeat' first
    | split
    | extract_lets
    | with_reducible apply Keeps.via (State.floorSend_keeps ..)
    | with_reducible apply Keeps.via (State.leatResumed_keeps ..)
    | with_reducible apply Keeps.via (State.leatStop_keeps ..)
    | with_reducible apply Keeps.via (State.leatWrite_keeps ..)
    | with_reducible apply Keeps.via (State.onOp_keeps ..)
    | (with_reducible apply Keeps.of_ite <;> intro _)
    | with_reducible exact Keeps.refl _
    | (with_reducible apply Keeps.of_pair (by assumption))
    | (with_reducible apply Keeps.of_triple (by assumption))
    | (fail_if_no_progress with_reducible refine Keeps.record ?_ rfl rfl rfl rfl rfl rfl rfl)
    | (with_reducible apply Keeps.foldl_via; intro _ _)
    | (fail_if_no_progress dsimp -zeta +zetaDelta only)

theorem State.sumIn_keeps (s : State) (gi : ℕ) (g : Group) (o : ChannelOp) (c : Channel) (k : ℕ) (data : List Byte) (port : Option ℕ) :
    Keeps s (State.sumIn s gi g o c k data port).2 := by
  unfold State.sumIn
  repeat' first
    | split
    | extract_lets
    | with_reducible apply Keeps.via (State.leatRead_keeps ..)
    | with_reducible apply Keeps.via (State.leatResumed_keeps ..)
    | with_reducible apply Keeps.via (State.leatStop_keeps ..)
    | with_reducible apply Keeps.via (State.onOp_keeps ..)
    | with_reducible apply Keeps.via (State.putUnit_keeps ..)
    | with_reducible apply Keeps.via (State.sendUnits_keeps ..)
    | with_reducible apply Keeps.via (State.tally_keeps ..)
    | (with_reducible apply Keeps.of_ite <;> intro _)
    | with_reducible exact Keeps.refl _
    | (with_reducible apply Keeps.of_pair (by assumption))
    | (with_reducible apply Keeps.of_triple (by assumption))
    | (fail_if_no_progress with_reducible refine Keeps.record ?_ rfl rfl rfl rfl rfl rfl rfl)
    | (with_reducible apply Keeps.foldl_via; intro _ _)
    | (fail_if_no_progress dsimp -zeta +zetaDelta only)

theorem State.gatherIn_keeps (s : State) (gi : ℕ) (g : Group) (o : ChannelOp) (c : Channel) (k : ℕ) (data : List Byte) (port : Option ℕ) :
    Keeps s (State.gatherIn s gi g o c k data port).2 := by
  unfold State.gatherIn
  repeat' first
    | split
    | extract_lets
    | with_reducible apply Keeps.via (State.onOp_keeps ..)
    | with_reducible apply Keeps.via (State.putUnit_keeps ..)
    | with_reducible apply Keeps.via (State.sendUnits_keeps ..)
    | (with_reducible apply Keeps.of_ite <;> intro _)
    | with_reducible exact Keeps.refl _
    | (with_reducible apply Keeps.of_pair (by assumption))
    | (with_reducible apply Keeps.of_triple (by assumption))
    | (fail_if_no_progress with_reducible refine Keeps.record ?_ rfl rfl rfl rfl rfl rfl rfl)
    | (with_reducible apply Keeps.foldl_via; intro _ _)
    | (fail_if_no_progress dsimp -zeta +zetaDelta only)

theorem State.treeIn_keeps (s : State) (gi : ℕ) (g : Group) (o : ChannelOp) (c : Channel) (k : ℕ) (up : ℕ) (data : List Byte) (port : Option ℕ) :
    Keeps s (State.treeIn s gi g o c k up data port).2 := by
  unfold State.treeIn
  repeat' first
    | split
    | extract_lets
    | with_reducible apply Keeps.via (State.onOp_keeps ..)
    | with_reducible apply Keeps.via (State.putUnit_keeps ..)
    | with_reducible apply Keeps.via (State.sendUnits_keeps ..)
    | (with_reducible apply Keeps.of_ite <;> intro _)
    | with_reducible exact Keeps.refl _
    | (with_reducible apply Keeps.of_pair (by assumption))
    | (with_reducible apply Keeps.of_triple (by assumption))
    | (fail_if_no_progress with_reducible refine Keeps.record ?_ rfl rfl rfl rfl rfl rfl rfl)
    | (with_reducible apply Keeps.foldl_via; intro _ _)
    | (fail_if_no_progress dsimp -zeta +zetaDelta only)

theorem State.unitIn_keeps (s : State) (gi : ℕ) (g : Group) (o : ChannelOp) (h : FlitHdr) (payload : List Byte) (port : Option ℕ) :
    Keeps s (State.unitIn s gi g o h payload port).2 := by
  unfold State.unitIn
  repeat' first
    | split
    | extract_lets
    | with_reducible apply Keeps.via (State.gatherIn_keeps ..)
    | with_reducible apply Keeps.via (State.sumIn_keeps ..)
    | with_reducible apply Keeps.via (State.treeIn_keeps ..)
    | (with_reducible apply Keeps.of_ite <;> intro _)
    | with_reducible exact Keeps.refl _
    | (with_reducible apply Keeps.of_pair (by assumption))
    | (with_reducible apply Keeps.of_triple (by assumption))
    | (fail_if_no_progress with_reducible refine Keeps.record ?_ rfl rfl rfl rfl rfl rfl rfl)
    | (with_reducible apply Keeps.foldl_via; intro _ _)
    | (fail_if_no_progress dsimp -zeta +zetaDelta only)

theorem State.ackUp_keeps (s : State) (g : Group) (c : Channel) (o : ChannelOp) :
    Keeps s (State.ackUp s g c o) := by
  unfold State.ackUp
  repeat' first
    | split
    | extract_lets
    | with_reducible apply Keeps.via (State.groupSend_keeps ..)
    | with_reducible apply Keeps.via (State.onOp_keeps ..)
    | (with_reducible apply Keeps.of_ite <;> intro _)
    | with_reducible exact Keeps.refl _
    | (with_reducible apply Keeps.of_pair (by assumption))
    | (with_reducible apply Keeps.of_triple (by assumption))
    | (fail_if_no_progress with_reducible refine Keeps.record ?_ rfl rfl rfl rfl rfl rfl rfl)
    | (with_reducible apply Keeps.foldl_via; intro _ _)
    | (fail_if_no_progress dsimp -zeta +zetaDelta only)

theorem State.earn_keeps (s : State) (g : Group) (c : Channel) (o : ChannelOp) :
    Keeps s (State.earn s g c o) := by
  unfold State.earn
  repeat' first
    | split
    | extract_lets
    | with_reducible apply Keeps.via (State.onOp_keeps ..)
    | with_reducible apply Keeps.via (State.onQueue_keeps ..)
    | with_reducible apply Keeps.via (State.postQueue_keeps ..)
    | with_reducible apply Keeps.via (State.tally_keeps ..)
    | (with_reducible apply Keeps.of_ite <;> intro _)
    | with_reducible exact Keeps.refl _
    | (with_reducible apply Keeps.of_pair (by assumption))
    | (with_reducible apply Keeps.of_triple (by assumption))
    | (fail_if_no_progress with_reducible refine Keeps.record ?_ rfl rfl rfl rfl rfl rfl rfl)
    | (with_reducible apply Keeps.foldl_via; intro _ _)
    | (fail_if_no_progress dsimp -zeta +zetaDelta only)

theorem State.settleOp_keeps (s : State) (gi : ℕ) (o : ChannelOp) :
    Keeps s (State.settleOp s gi o) := by
  unfold State.settleOp
  repeat' first
    | split
    | extract_lets
    | with_reducible apply Keeps.via (State.ackUp_keeps ..)
    | with_reducible apply Keeps.via (State.earn_keeps ..)
    | (with_reducible apply Keeps.of_ite <;> intro _)
    | with_reducible exact Keeps.refl _
    | (with_reducible apply Keeps.of_pair (by assumption))
    | (with_reducible apply Keeps.of_triple (by assumption))
    | (fail_if_no_progress with_reducible refine Keeps.record ?_ rfl rfl rfl rfl rfl rfl rfl)
    | (with_reducible apply Keeps.foldl_via; intro _ _)
    | (fail_if_no_progress dsimp -zeta +zetaDelta only)

theorem State.dataRun_keeps (s : State) (gi : ℕ) (step : ℕ) (h : FlitHdr) (payload : List Byte) (port : Option ℕ) :
    Keeps s (State.dataRun s gi step h payload port).2 := by
  unfold State.dataRun
  repeat' first
    | split
    | extract_lets
    | with_reducible apply Keeps.via (State.onGroup_keeps ..)
    | with_reducible apply Keeps.via (State.settleOp_keeps ..)
    | with_reducible apply Keeps.via (State.tryGate_keeps ..)
    | with_reducible apply Keeps.via (State.unitIn_keeps ..)
    | (with_reducible apply Keeps.of_ite <;> intro _)
    | with_reducible exact Keeps.refl _
    | (with_reducible apply Keeps.of_pair (by assumption))
    | (with_reducible apply Keeps.of_triple (by assumption))
    | (fail_if_no_progress with_reducible refine Keeps.record ?_ rfl rfl rfl rfl rfl rfl rfl)
    | (with_reducible apply Keeps.foldl_via; intro _ _)
    | (fail_if_no_progress dsimp -zeta +zetaDelta only)

theorem State.retractLimit_keeps (s : State) (gi : ℕ) (step : ℕ) (rank : ℕ) :
    Keeps s (State.retractLimit s gi step rank) := by
  unfold State.retractLimit
  repeat' first
    | split
    | extract_lets
    | with_reducible apply Keeps.via (State.dropUpdate_keeps ..)
    | with_reducible apply Keeps.via (State.leatFault_keeps ..)
    | with_reducible apply Keeps.via (State.leatRecord_keeps ..)
    | with_reducible apply Keeps.via (State.onGroup_keeps ..)
    | with_reducible apply Keeps.via (State.raise_keeps ..)
    | (with_reducible apply Keeps.forAll_via; intro _ _)
    | (with_reducible apply Keeps.of_ite <;> intro _)
    | with_reducible exact Keeps.refl _
    | (with_reducible apply Keeps.of_pair (by assumption))
    | (with_reducible apply Keeps.of_triple (by assumption))
    | (fail_if_no_progress with_reducible refine Keeps.record ?_ rfl rfl rfl rfl rfl rfl rfl)
    | (with_reducible apply Keeps.foldl_via; intro _ _)
    | (fail_if_no_progress dsimp -zeta +zetaDelta only)

theorem State.leatPlan_keeps (s : State) (o : ChannelOp) (reads : Bool) (fuel : Nat) : Keeps s (s.leatPlan o reads fuel).2 := by
  induction fuel generalizing s with
  | zero => exact Keeps.refl s
  | succ k ih =>
    unfold State.leatPlan
    extract_lets c next
    have hn : ∀ s p, Keeps s (next s p) := fun s p =>
      ((State.tally_keeps ..).trans (State.tally_keeps ..)).trans (State.onQueue_keeps ..)
    clear_value next
    split
    · exact Keeps.refl s
    · split
      · exact (hn _ _).trans (ih _)
      · have hp := State.planChunk_keeps s o.mill o.queue o.d true c
        split
        · exact Keeps.refl s
        · rename_i e; rw [e] at hp; exact hp
        · rename_i e; rw [e] at hp; exact (hp.trans (hn _ _)).trans (ih _)


theorem State.ownSent_keeps (s : State) (gi : ℕ) (g : Group) (o : ChannelOp) (c : Channel) (x : OwnUnit) (bs : List Byte) :
    Keeps s (State.ownSent s gi g o c x bs) := by
  unfold State.ownSent
  repeat' first
    | split
    | extract_lets
    | with_reducible apply Keeps.via (State.onOp_keeps ..)
    | with_reducible apply Keeps.via (State.sendUnits_keeps ..)
    | (with_reducible apply Keeps.of_ite <;> intro _)
    | with_reducible exact Keeps.refl _
    | (with_reducible apply Keeps.of_pair (by assumption))
    | (with_reducible apply Keeps.of_triple (by assumption))
    | (fail_if_no_progress with_reducible refine Keeps.record ?_ rfl rfl rfl rfl rfl rfl rfl)
    | (with_reducible apply Keeps.foldl_via; intro _ _)
    | (fail_if_no_progress dsimp -zeta +zetaDelta only)

theorem State.unitFlits_keeps (s : State) (g : Group) (o : ChannelOp) (c : Channel) (x : OwnUnit) :
    Keeps s (State.unitFlits s g o c x) := by
  unfold State.unitFlits
  repeat' first
    | split
    | extract_lets
    | with_reducible apply Keeps.via (State.floorSend_keeps ..)
    | with_reducible apply Keeps.via (State.planRuns_keeps ..)
    | (with_reducible apply Keeps.forAll_via; intro _ _)
    | (with_reducible apply Keeps.of_ite <;> intro _)
    | with_reducible exact Keeps.refl _
    | (with_reducible apply Keeps.of_pair (by assumption))
    | (with_reducible apply Keeps.of_triple (by assumption))
    | (fail_if_no_progress with_reducible refine Keeps.record ?_ rfl rfl rfl rfl rfl rfl rfl)
    | (with_reducible apply Keeps.foldl_via; intro _ _)
    | (fail_if_no_progress dsimp -zeta +zetaDelta only)

theorem State.ownUnit_keeps (s : State) (gi : ℕ) (g : Group) (o : ChannelOp) (c : Channel) (u : ℕ) :
    Keeps s (State.ownUnit s gi g o c u).2 := by
  unfold State.ownUnit
  repeat' first
    | split
    | extract_lets
    | with_reducible apply Keeps.via (State.leatRead_keeps ..)
    | with_reducible apply Keeps.via (State.leatResumed_keeps ..)
    | with_reducible apply Keeps.via (State.leatStop_keeps ..)
    | with_reducible apply Keeps.via (State.ownSent_keeps ..)
    | with_reducible apply Keeps.via (State.putUnit_keeps ..)
    | with_reducible apply Keeps.via (State.unitFlits_keeps ..)
    | (with_reducible apply Keeps.of_ite <;> intro _)
    | with_reducible exact Keeps.refl _
    | (with_reducible apply Keeps.of_pair (by assumption))
    | (with_reducible apply Keeps.of_triple (by assumption))
    | (fail_if_no_progress with_reducible refine Keeps.record ?_ rfl rfl rfl rfl rfl rfl rfl)
    | (with_reducible apply Keeps.foldl_via; intro _ _)
    | (fail_if_no_progress dsimp -zeta +zetaDelta only)

theorem State.ownRun_keeps (s : State) (gi : ℕ) (o : ChannelOp) (fuel : ℕ) :
    Keeps s (State.ownRun s gi o fuel) := by
  induction fuel generalizing s gi o with
  | zero =>
    unfold State.ownRun
    repeat' first
      | split
      | extract_lets
      | with_reducible apply Keeps.via (State.ownUnit_keeps ..)
      | (with_reducible apply Keeps.of_ite <;> intro _)
      | with_reducible exact Keeps.refl _
      | (with_reducible apply Keeps.of_pair (by assumption))
      | (with_reducible apply Keeps.of_triple (by assumption))
      | (fail_if_no_progress with_reducible refine Keeps.record ?_ rfl rfl rfl rfl rfl rfl rfl)
      | (with_reducible apply Keeps.foldl_via; intro _ _)
      | (fail_if_no_progress dsimp -zeta +zetaDelta only)
  | succ k ih =>
    unfold State.ownRun
    repeat' first
      | split
      | extract_lets
      | with_reducible apply Keeps.via (ih ..)
      | with_reducible apply Keeps.via (State.ownUnit_keeps ..)
      | (with_reducible apply Keeps.of_ite <;> intro _)
      | with_reducible exact Keeps.refl _
      | (with_reducible apply Keeps.of_pair (by assumption))
      | (with_reducible apply Keeps.of_triple (by assumption))
      | (fail_if_no_progress with_reducible refine Keeps.record ?_ rfl rfl rfl rfl rfl rfl rfl)
      | (with_reducible apply Keeps.foldl_via; intro _ _)
      | (fail_if_no_progress dsimp -zeta +zetaDelta only)

theorem State.opGoOn_keeps (s : State) (gi : ℕ) (o : ChannelOp) :
    Keeps s (State.opGoOn s gi o) := by
  unfold State.opGoOn
  repeat' first
    | split
    | extract_lets
    | with_reducible apply Keeps.via (State.leatPlan_keeps ..)
    | with_reducible apply Keeps.via (State.leatStop_keeps ..)
    | with_reducible apply Keeps.via (State.ownRun_keeps ..)
    | with_reducible apply Keeps.via (State.settleOp_keeps ..)
    | (with_reducible apply Keeps.of_ite <;> intro _)
    | with_reducible exact Keeps.refl _
    | (with_reducible apply Keeps.of_pair (by assumption))
    | (with_reducible apply Keeps.of_triple (by assumption))
    | (fail_if_no_progress with_reducible refine Keeps.record ?_ rfl rfl rfl rfl rfl rfl rfl)
    | (with_reducible apply Keeps.foldl_via; intro _ _)
    | (fail_if_no_progress dsimp -zeta +zetaDelta only)

theorem State.rerun_keeps (s : State) (gi : ℕ) (step : ℕ) :
    Keeps s (State.rerun s gi step) := by
  unfold State.rerun
  repeat' first
    | split
    | extract_lets
    | with_reducible apply Keeps.via (State.onOp_keeps ..)
    | with_reducible apply Keeps.via (State.opGoOn_keeps ..)
    | with_reducible apply Keeps.via (State.tally_keeps ..)
    | (with_reducible apply Keeps.forAll_via; intro _ _)
    | (with_reducible apply Keeps.of_ite <;> intro _)
    | with_reducible exact Keeps.refl _
    | (with_reducible apply Keeps.of_pair (by assumption))
    | (with_reducible apply Keeps.of_triple (by assumption))
    | (fail_if_no_progress with_reducible refine Keeps.record ?_ rfl rfl rfl rfl rfl rfl rfl)
    | (with_reducible apply Keeps.foldl_via; intro _ _)
    | (fail_if_no_progress dsimp -zeta +zetaDelta only)

theorem State.retractHere_keeps (s : State) (gi : ℕ) (step : ℕ) (rank : ℕ) :
    Keeps s (State.retractHere s gi step rank) := by
  unfold State.retractHere
  repeat' first
    | split
    | extract_lets
    | with_reducible apply Keeps.via (State.onGroup_keeps ..)
    | with_reducible apply Keeps.via (State.raise_keeps ..)
    | with_reducible apply Keeps.via (State.rerun_keeps ..)
    | with_reducible apply Keeps.via (State.retractLimit_keeps ..)
    | (with_reducible apply Keeps.of_ite <;> intro _)
    | with_reducible exact Keeps.refl _
    | (with_reducible apply Keeps.of_pair (by assumption))
    | (with_reducible apply Keeps.of_triple (by assumption))
    | (fail_if_no_progress with_reducible refine Keeps.record ?_ rfl rfl rfl rfl rfl rfl rfl)
    | (with_reducible apply Keeps.foldl_via; intro _ _)
    | (fail_if_no_progress dsimp -zeta +zetaDelta only)

theorem State.runUp_keeps (s : State) (gi : ℕ) (step : ℕ) (run : ℕ) (rank : ℕ) :
    Keeps s (State.runUp s gi step run rank) := by
  unfold State.runUp
  repeat' first
    | split
    | extract_lets
    | with_reducible apply Keeps.via (State.retractHere_keeps ..)
    | (with_reducible apply Keeps.forAll_via; intro _ _)
    | (with_reducible apply Keeps.of_ite <;> intro _)
    | with_reducible exact Keeps.refl _
    | (with_reducible apply Keeps.of_pair (by assumption))
    | (with_reducible apply Keeps.of_triple (by assumption))
    | (fail_if_no_progress with_reducible refine Keeps.record ?_ rfl rfl rfl rfl rfl rfl rfl)
    | (with_reducible apply Keeps.foldl_via; intro _ _)
    | (fail_if_no_progress dsimp -zeta +zetaDelta only)

theorem State.dataIn_keeps (s : State) (gi : ℕ) (h : FlitHdr) (payload : List Byte) (port : Option ℕ) :
    Keeps s (State.dataIn s gi h payload port).2 := by
  unfold State.dataIn
  repeat' first
    | split
    | extract_lets
    | with_reducible apply Keeps.via (State.dataRun_keeps ..)
    | with_reducible apply Keeps.via (State.pondIn_keeps ..)
    | with_reducible apply Keeps.via (State.runUp_keeps ..)
    | with_reducible apply Keeps.via (State.tally_keeps ..)
    | (with_reducible apply Keeps.of_ite <;> intro _)
    | with_reducible exact Keeps.refl _
    | (with_reducible apply Keeps.of_pair (by assumption))
    | (with_reducible apply Keeps.of_triple (by assumption))
    | (fail_if_no_progress with_reducible refine Keeps.record ?_ rfl rfl rfl rfl rfl rfl rfl)
    | (with_reducible apply Keeps.foldl_via; intro _ _)
    | (fail_if_no_progress dsimp -zeta +zetaDelta only)

theorem State.treeAckIn_keeps (s : State) (gi : ℕ) (h : FlitHdr) :
    Keeps s (State.treeAckIn s gi h) := by
  unfold State.treeAckIn
  repeat' first
    | split
    | extract_lets
    | with_reducible apply Keeps.via (State.onOp_keeps ..)
    | with_reducible apply Keeps.via (State.settleOp_keeps ..)
    | (with_reducible apply Keeps.of_ite <;> intro _)
    | with_reducible exact Keeps.refl _
    | (with_reducible apply Keeps.of_pair (by assumption))
    | (with_reducible apply Keeps.of_triple (by assumption))
    | (fail_if_no_progress with_reducible refine Keeps.record ?_ rfl rfl rfl rfl rfl rfl rfl)
    | (with_reducible apply Keeps.foldl_via; intro _ _)
    | (fail_if_no_progress dsimp -zeta +zetaDelta only)

theorem State.treeSend_keeps (s : State) (g : Group) (type_ : BitVec 4) (gate : ℕ) (run : ℕ) (except_ : ℕ) (payload : List Byte) :
    Keeps s (State.treeSend s g type_ gate run except_ payload) := by
  unfold State.treeSend
  repeat' first
    | split
    | extract_lets
    | with_reducible apply Keeps.via (State.groupSend_keeps ..)
    | (with_reducible apply Keeps.forAll_via; intro _ _)
    | (with_reducible apply Keeps.of_ite <;> intro _)
    | with_reducible exact Keeps.refl _
    | (with_reducible apply Keeps.of_pair (by assumption))
    | (with_reducible apply Keeps.of_triple (by assumption))
    | (fail_if_no_progress with_reducible refine Keeps.record ?_ rfl rfl rfl rfl rfl rfl rfl)
    | (with_reducible apply Keeps.foldl_via; intro _ _)
    | (fail_if_no_progress dsimp -zeta +zetaDelta only)

theorem State.clearIn_keeps (s : State) (gi : ℕ) (r : ClearRec) (own : Bool) :
    Keeps s (State.clearIn s gi r own) := by
  unfold State.clearIn
  repeat' first
    | split
    | extract_lets
    | with_reducible apply Keeps.via (State.leatRecord_keeps ..)
    | with_reducible apply Keeps.via (State.onGroup_keeps ..)
    | with_reducible apply Keeps.via (State.raise_keeps ..)
    | with_reducible apply Keeps.via (State.tryGate_keeps ..)
    | (with_reducible apply Keeps.of_ite <;> intro _)
    | with_reducible exact Keeps.refl _
    | (with_reducible apply Keeps.of_pair (by assumption))
    | (with_reducible apply Keeps.of_triple (by assumption))
    | (fail_if_no_progress with_reducible refine Keeps.record ?_ rfl rfl rfl rfl rfl rfl rfl)
    | (with_reducible apply Keeps.foldl_via; intro _ _)
    | (fail_if_no_progress dsimp -zeta +zetaDelta only)

theorem State.controlIn_keeps (s : State) (gi : ℕ) (h : FlitHdr) (payload : List Byte) :
    Keeps s (State.controlIn s gi h payload) := by
  unfold State.controlIn
  repeat' first
    | split
    | extract_lets
    | with_reducible apply Keeps.via (State.clearIn_keeps ..)
    | with_reducible apply Keeps.via (State.retractHere_keeps ..)
    | with_reducible apply Keeps.via (State.takeInjAt_keeps ..)
    | with_reducible apply Keeps.via (State.takeInj_keeps ..)
    | with_reducible apply Keeps.via (State.tally_keeps ..)
    | with_reducible apply Keeps.via (State.treeSend_keeps ..)
    | (with_reducible apply Keeps.of_ite <;> intro _)
    | with_reducible exact Keeps.refl _
    | (with_reducible apply Keeps.of_pair (by assumption))
    | (with_reducible apply Keeps.of_triple (by assumption))
    | (fail_if_no_progress with_reducible refine Keeps.record ?_ rfl rfl rfl rfl rfl rfl rfl)
    | (with_reducible apply Keeps.foldl_via; intro _ _)
    | (fail_if_no_progress dsimp -zeta +zetaDelta only)

theorem State.arrive_keeps (s : State) (p : Option ℕ) (h : FlitHdr) (payload : List Byte) :
    Keeps s (State.arrive s p h payload).2 := by
  unfold State.arrive
  repeat' first
    | split
    | extract_lets
    | with_reducible apply Keeps.via (State.controlIn_keeps ..)
    | with_reducible apply Keeps.via (State.dataIn_keeps ..)
    | with_reducible apply Keeps.via (State.epochNackIn_keeps ..)
    | with_reducible apply Keeps.via (State.epochNack_keeps ..)
    | with_reducible apply Keeps.via (State.takeInjAt_keeps ..)
    | with_reducible apply Keeps.via (State.tally_keeps ..)
    | with_reducible apply Keeps.via (State.treeAckIn_keeps ..)
    | (with_reducible apply Keeps.of_ite <;> intro _)
    | with_reducible exact Keeps.refl _
    | (with_reducible apply Keeps.of_pair (by assumption))
    | (with_reducible apply Keeps.of_triple (by assumption))
    | (fail_if_no_progress with_reducible refine Keeps.record ?_ rfl rfl rfl rfl rfl rfl rfl)
    | (with_reducible apply Keeps.foldl_via; intro _ _)
    | (fail_if_no_progress dsimp -zeta +zetaDelta only)

theorem State.accept_keeps (s : State) (p : Option ℕ) (h : FlitHdr) (payload : List Byte) :
    Keeps s (State.accept s p h payload) := by
  unfold State.accept
  repeat' first
    | split
    | extract_lets
    | with_reducible apply Keeps.via (State.arrive_keeps ..)
    | with_reducible apply Keeps.via (State.freeBuffer_keeps ..)
    | (with_reducible apply Keeps.of_ite <;> intro _)
    | with_reducible exact Keeps.refl _
    | (with_reducible apply Keeps.of_pair (by assumption))
    | (with_reducible apply Keeps.of_triple (by assumption))
    | (fail_if_no_progress with_reducible refine Keeps.record ?_ rfl rfl rfl rfl rfl rfl rfl)
    | (with_reducible apply Keeps.foldl_via; intro _ _)
    | (fail_if_no_progress dsimp -zeta +zetaDelta only)

theorem State.retryHeld_keeps (s : State) :
    Keeps s (State.retryHeld s) := by
  unfold State.retryHeld
  repeat' first
    | split
    | extract_lets
    | with_reducible apply Keeps.via (State.accept_keeps ..)
    | (with_reducible apply Keeps.forAll_via; intro _ _)
    | (with_reducible apply Keeps.of_ite <;> intro _)
    | with_reducible exact Keeps.refl _
    | (with_reducible apply Keeps.of_pair (by assumption))
    | (with_reducible apply Keeps.of_triple (by assumption))
    | (fail_if_no_progress with_reducible refine Keeps.record ?_ rfl rfl rfl rfl rfl rfl rfl)
    | (with_reducible apply Keeps.foldl_via; intro _ _)
    | (fail_if_no_progress dsimp -zeta +zetaDelta only)

theorem State.startLeat_keeps (s : State) (m : MillId) (q : ℕ) (t : Transfer) :
    Keeps s (State.startLeat s m q t) := by
  unfold State.startLeat
  repeat' first
    | split
    | extract_lets
    | with_reducible apply Keeps.via (State.leatRefuse_keeps ..)
    | with_reducible apply Keeps.via (State.onGroup_keeps ..)
    | with_reducible apply Keeps.via (State.onQueue_keeps ..)
    | with_reducible apply Keeps.via (State.opGoOn_keeps ..)
    | with_reducible apply Keeps.via (State.retryHeld_keeps ..)
    | with_reducible apply Keeps.via (State.tally_keeps ..)
    | with_reducible apply Keeps.via (State.tryGate_keeps ..)
    | (with_reducible apply Keeps.of_ite <;> intro _)
    | with_reducible exact Keeps.refl _
    | (with_reducible apply Keeps.of_pair (by assumption))
    | (with_reducible apply Keeps.of_triple (by assumption))
    | (fail_if_no_progress with_reducible refine Keeps.record ?_ rfl rfl rfl rfl rfl rfl rfl)
    | (with_reducible apply Keeps.foldl_via; intro _ _)
    | (fail_if_no_progress dsimp -zeta +zetaDelta only)

theorem State.startNext_keeps (s : State) (m : MillId) (q : ℕ) :
    Keeps s (State.startNext s m q) := by
  unfold State.startNext
  repeat' first
    | split
    | extract_lets
    | with_reducible apply Keeps.via (State.onQueue_keeps ..)
    | with_reducible apply Keeps.via (State.startLeat_keeps ..)
    | (with_reducible apply Keeps.of_ite <;> intro _)
    | with_reducible exact Keeps.refl _
    | (with_reducible apply Keeps.of_pair (by assumption))
    | (with_reducible apply Keeps.of_triple (by assumption))
    | (fail_if_no_progress with_reducible refine Keeps.record ?_ rfl rfl rfl rfl rfl rfl rfl)
    | (with_reducible apply Keeps.foldl_via; intro _ _)
    | (fail_if_no_progress dsimp -zeta +zetaDelta only)

theorem State.queueGoOn_keeps (s : State) (m : MillId) (q : ℕ) :
    Keeps s (State.queueGoOn s m q) := by
  unfold State.queueGoOn
  repeat' first
    | split
    | extract_lets
    | with_reducible apply Keeps.via (State.opGoOn_keeps ..)
    | (with_reducible apply Keeps.forAll_via; intro _ _)
    | (with_reducible apply Keeps.of_ite <;> intro _)
    | with_reducible exact Keeps.refl _
    | (with_reducible apply Keeps.of_pair (by assumption))
    | (with_reducible apply Keeps.of_triple (by assumption))
    | (fail_if_no_progress with_reducible refine Keeps.record ?_ rfl rfl rfl rfl rfl rfl rfl)
    | (with_reducible apply Keeps.foldl_via; intro _ _)
    | (fail_if_no_progress dsimp -zeta +zetaDelta only)

theorem transferStart_keeps (m : MillId) (q : Fin 16) (codes : List Ecc) (s : State) :
    Keeps s (transferStart m q codes s) := by
  unfold transferStart
  repeat' first
    | split
    | extract_lets
    | (with_reducible apply State.coded_via; intro _)
    | with_reducible apply Keeps.via (State.queueGoOn_keeps ..)
    | with_reducible apply Keeps.via (State.retryHeld_keeps ..)
    | with_reducible apply Keeps.via (State.startNext_keeps ..)
    | (with_reducible apply Keeps.of_ite <;> intro _)
    | with_reducible exact Keeps.refl _
    | (with_reducible apply Keeps.of_pair (by assumption))
    | (with_reducible apply Keeps.of_triple (by assumption))
    | (fail_if_no_progress with_reducible refine Keeps.record ?_ rfl rfl rfl rfl rfl rfl rfl)
    | (with_reducible apply Keeps.foldl_via; intro _ _)
    | (fail_if_no_progress dsimp -zeta +zetaDelta only)

theorem State.timeSetWrite_keeps (s : State) (v : W64) :
    Keeps s (State.timeSetWrite s v).2 := by
  unfold State.timeSetWrite
  repeat' first
    | split
    | extract_lets
    | (with_reducible apply Keeps.of_ite <;> intro _)
    | with_reducible exact Keeps.refl _
    | (with_reducible apply Keeps.of_pair (by assumption))
    | (with_reducible apply Keeps.of_triple (by assumption))
    | (fail_if_no_progress with_reducible refine Keeps.record ?_ rfl rfl rfl rfl rfl rfl rfl)
    | (with_reducible apply Keeps.foldl_via; intro _ _)
    | (fail_if_no_progress dsimp -zeta +zetaDelta only)

theorem State.dropLeatOps_keeps (s : State) (m : MillId) (system : Bool) :
    Keeps s (State.dropLeatOps s m system) := by
  unfold State.dropLeatOps
  repeat' first
    | split
    | extract_lets
    | (with_reducible apply Keeps.of_ite <;> intro _)
    | with_reducible exact Keeps.refl _
    | (with_reducible apply Keeps.of_pair (by assumption))
    | (with_reducible apply Keeps.of_triple (by assumption))
    | (fail_if_no_progress with_reducible refine Keeps.record ?_ rfl rfl rfl rfl rfl rfl rfl)
    | (with_reducible apply Keeps.foldl_via; intro _ _)
    | (fail_if_no_progress dsimp -zeta +zetaDelta only)

theorem State.flitTake_keeps (s : State) (p : ℕ) (h : FlitHdr) (pl : List Byte) :
    Keeps s (State.flitTake s p h pl) := by
  unfold State.flitTake
  extract_lets s1 gi s2 dest self s3 s4
  have h1 : Keeps s s1 := (State.onPort_keeps _ _ _).trans (State.tally_keeps _ _ _ _)
  have h2 : Keeps s1 s2 := by
    change Keeps s1 (match s1.group gi with
      | some g => if s1.injects .leat 2 then (s1.injected .leat).retractHere gi g.open_ 0 else s1
      | none => s1)
    split
    · split
      · exact (State.injected_keeps _ _).trans (State.retractHere_keeps ..)
      · exact Keeps.refl _
    · exact Keeps.refl _
  have h3 : Keeps s2 s3 := by
    change Keeps s2 (ite _ _ _)
    split
    · exact (State.tally_keeps _ _ _ _).trans (State.freeBuffer_keeps ..)
    · change Keeps s2 (ite _ _ _)
      split
      · exact State.accept_keeps ..
      · exact State.moveOn_keeps ..
  have h := ((h1.trans h2).trans h3).trans (State.retryHeld_keeps s3)
  split
  · exact h.trans (State.sendLink_keeps ..)
  · exact h

theorem State.timeFlit_keeps (s : State) (p : ℕ) (payload : List Byte) :
    Keeps s (State.timeFlit s p payload) := by
  unfold State.timeFlit
  repeat' first
    | split
    | extract_lets
    | with_reducible apply Keeps.via (State.sendLink_keeps ..)
    | with_reducible apply Keeps.via (State.tally_keeps ..)
    | (with_reducible apply Keeps.of_ite <;> intro _)
    | with_reducible exact Keeps.refl _
    | (with_reducible apply Keeps.of_pair (by assumption))
    | (with_reducible apply Keeps.of_triple (by assumption))
    | (fail_if_no_progress with_reducible refine Keeps.record ?_ rfl rfl rfl rfl rfl rfl rfl)
    | (with_reducible apply Keeps.foldl_via; intro _ _)
    | (fail_if_no_progress dsimp -zeta +zetaDelta only)

theorem State.flitLink_keeps (s : State) (p : ℕ) (h : FlitHdr) (pl : List Byte) :
    Keeps s (State.flitLink s p h pl) := by
  unfold State.flitLink
  repeat' first
    | split
    | extract_lets
    | with_reducible apply Keeps.via (State.nack_keeps ..)
    | with_reducible apply Keeps.via (State.replayFrom_keeps ..)
    | with_reducible apply Keeps.via (State.tally_keeps ..)
    | with_reducible apply Keeps.via (State.timeFlit_keeps ..)
    | (with_reducible apply Keeps.of_ite <;> intro _)
    | with_reducible exact Keeps.refl _
    | (with_reducible apply Keeps.of_pair (by assumption))
    | (with_reducible apply Keeps.of_triple (by assumption))
    | (fail_if_no_progress with_reducible refine Keeps.record ?_ rfl rfl rfl rfl rfl rfl rfl)
    | (with_reducible apply Keeps.foldl_via; intro _ _)
    | (fail_if_no_progress dsimp -zeta +zetaDelta only)

theorem flitReceive_keeps (port : Fin 24) (rx : RxWord) (codes : List Ecc) (s : State) :
    Keeps s (flitReceive port rx codes s) := by
  unfold flitReceive
  repeat' first
    | split
    | extract_lets
    | (with_reducible apply State.coded_via; intro _)
    | with_reducible apply Keeps.via (State.flitLink_keeps ..)
    | with_reducible apply Keeps.via (State.flitTake_keeps ..)
    | with_reducible apply Keeps.via (State.linkFields_keeps ..)
    | with_reducible apply Keeps.via (State.nack_keeps ..)
    | with_reducible apply Keeps.via (State.takeInj_keeps ..)
    | with_reducible apply Keeps.via (State.tally_keeps ..)
    | (with_reducible apply Keeps.of_ite <;> intro _)
    | with_reducible exact Keeps.refl _
    | (with_reducible apply Keeps.of_pair (by assumption))
    | (with_reducible apply Keeps.of_triple (by assumption))
    | (fail_if_no_progress with_reducible refine Keeps.record ?_ rfl rfl rfl rfl rfl rfl rfl)
    | (with_reducible apply Keeps.foldl_via; intro _ _)
    | (fail_if_no_progress dsimp -zeta +zetaDelta only)

theorem epochResend_keeps (port : Fin 24) (s : State) :
    Keeps s (epochResend port s) := by
  unfold epochResend
  repeat' first
    | split
    | extract_lets
    | with_reducible apply Keeps.via (State.launch_keeps ..)
    | (with_reducible apply Keeps.of_ite <;> intro _)
    | with_reducible exact Keeps.refl _
    | (with_reducible apply Keeps.of_pair (by assumption))
    | (with_reducible apply Keeps.of_triple (by assumption))
    | (fail_if_no_progress with_reducible refine Keeps.record ?_ rfl rfl rfl rfl rfl rfl rfl)
    | (with_reducible apply Keeps.foldl_via; intro _ _)
    | (fail_if_no_progress dsimp -zeta +zetaDelta only)

theorem State.loseTime_keeps (s : State) :
    Keeps s (State.loseTime s) := by
  unfold State.loseTime
  repeat' first
    | split
    | extract_lets
    | with_reducible apply Keeps.via (State.raise_keeps ..)
    | (with_reducible apply Keeps.of_ite <;> intro _)
    | with_reducible exact Keeps.refl _
    | (with_reducible apply Keeps.of_pair (by assumption))
    | (with_reducible apply Keeps.of_triple (by assumption))
    | (fail_if_no_progress with_reducible refine Keeps.record ?_ rfl rfl rfl rfl rfl rfl rfl)
    | (with_reducible apply Keeps.foldl_via; intro _ _)
    | (fail_if_no_progress dsimp -zeta +zetaDelta only)

theorem timeLost_keeps (s : State) :
    Keeps s (timeLost s) := by
  unfold timeLost
  repeat' first
    | split
    | extract_lets
    | with_reducible apply Keeps.via (State.loseTime_keeps ..)
    | (with_reducible apply Keeps.of_ite <;> intro _)
    | with_reducible exact Keeps.refl _
    | (with_reducible apply Keeps.of_pair (by assumption))
    | (with_reducible apply Keeps.of_triple (by assumption))
    | (fail_if_no_progress with_reducible refine Keeps.record ?_ rfl rfl rfl rfl rfl rfl rfl)
    | (with_reducible apply Keeps.foldl_via; intro _ _)
    | (fail_if_no_progress dsimp -zeta +zetaDelta only)

theorem State.tableRead_keeps (s : State) (a : ℕ) (n : ℕ) :
    Keeps s (State.tableRead s a n).2 := by
  unfold State.tableRead
  repeat' first
    | split
    | extract_lets
    | with_reducible apply Keeps.via (State.partsRead_keeps ..)
    | (with_reducible apply Keeps.of_ite <;> intro _)
    | with_reducible exact Keeps.refl _
    | (with_reducible apply Keeps.of_pair (by assumption))
    | (with_reducible apply Keeps.of_triple (by assumption))
    | (fail_if_no_progress with_reducible refine Keeps.record ?_ rfl rfl rfl rfl rfl rfl rfl)
    | (with_reducible apply Keeps.foldl_via; intro _ _)
    | (fail_if_no_progress dsimp -zeta +zetaDelta only)

theorem State.formClear_keeps (s : State) (g : Group) (c : ℕ) :
    Keeps s (State.formClear s g c).2.2 := by
  unfold State.formClear
  repeat' first
    | split
    | extract_lets
    | with_reducible apply Keeps.via (State.takeInj_keeps ..)
    | (with_reducible apply Keeps.of_ite <;> intro _)
    | with_reducible exact Keeps.refl _
    | (with_reducible apply Keeps.of_pair (by assumption))
    | (with_reducible apply Keeps.of_triple (by assumption))
    | (fail_if_no_progress with_reducible refine Keeps.record ?_ rfl rfl rfl rfl rfl rfl rfl)
    | (with_reducible apply Keeps.foldl_via; intro _ _)
    | (fail_if_no_progress dsimp -zeta +zetaDelta only)

theorem State.sendClear_keeps (s : State) (g : Group) (c : ℕ) (again : Bool) :
    Keeps s (State.sendClear s g c again) := by
  unfold State.sendClear
  repeat' first
    | split
    | extract_lets
    | with_reducible apply Keeps.via (State.clearIn_keeps ..)
    | with_reducible apply Keeps.via (State.formClear_keeps ..)
    | with_reducible apply Keeps.via (State.onGroup_keeps ..)
    | with_reducible apply Keeps.via (State.tally_keeps ..)
    | with_reducible apply Keeps.via (State.treeSend_keeps ..)
    | (with_reducible apply Keeps.of_ite <;> intro _)
    | with_reducible exact Keeps.refl _
    | (with_reducible apply Keeps.of_pair (by assumption))
    | (with_reducible apply Keeps.of_triple (by assumption))
    | (fail_if_no_progress with_reducible refine Keeps.record ?_ rfl rfl rfl rfl rfl rfl rfl)
    | (with_reducible apply Keeps.foldl_via; intro _ _)
    | (fail_if_no_progress dsimp -zeta +zetaDelta only)

theorem State.putGroup_keeps (s : State) (g : Group) :
    Keeps s (State.putGroup s g) := by
  unfold State.putGroup
  repeat' first
    | split
    | extract_lets
    | with_reducible apply Keeps.via (State.groupDrop_keeps ..)
    | with_reducible apply Keeps.via (State.pondFailure_keeps ..)
    | with_reducible apply Keeps.via (State.retryHeld_keeps ..)
    | (with_reducible apply Keeps.of_ite <;> intro _)
    | with_reducible exact Keeps.refl _
    | (with_reducible apply Keeps.of_pair (by assumption))
    | (with_reducible apply Keeps.of_triple (by assumption))
    | (fail_if_no_progress with_reducible refine Keeps.record ?_ rfl rfl rfl rfl rfl rfl rfl)
    | (with_reducible apply Keeps.foldl_via; intro _ _)
    | (fail_if_no_progress dsimp -zeta +zetaDelta only)

theorem timeSyncTick_keeps (s : State) :
    Keeps s (timeSyncTick s) := by
  unfold timeSyncTick
  repeat' first
    | split
    | extract_lets
    | with_reducible apply Keeps.via (State.sendLink_keeps ..)
    | (with_reducible apply Keeps.of_ite <;> intro _)
    | with_reducible exact Keeps.refl _
    | (with_reducible apply Keeps.of_pair (by assumption))
    | (with_reducible apply Keeps.of_triple (by assumption))
    | (fail_if_no_progress with_reducible refine Keeps.record ?_ rfl rfl rfl rfl rfl rfl rfl)
    | (with_reducible apply Keeps.foldl_via; intro _ _)
    | (fail_if_no_progress dsimp -zeta +zetaDelta only)

theorem State.retract_keeps (s : State) (gi : ℕ) (step : ℕ) :
    Keeps s (State.retract s gi step) := by
  unfold State.retract
  repeat' first
    | split
    | extract_lets
    | with_reducible apply Keeps.via (State.retractHere_keeps ..)
    | with_reducible apply Keeps.via (State.tally_keeps ..)
    | with_reducible apply Keeps.via (State.treeSend_keeps ..)
    | (with_reducible apply Keeps.of_ite <;> intro _)
    | with_reducible exact Keeps.refl _
    | (with_reducible apply Keeps.of_pair (by assumption))
    | (with_reducible apply Keeps.of_triple (by assumption))
    | (fail_if_no_progress with_reducible refine Keeps.record ?_ rfl rfl rfl rfl rfl rfl rfl)
    | (with_reducible apply Keeps.foldl_via; intro _ _)
    | (fail_if_no_progress dsimp -zeta +zetaDelta only)

theorem State.loadResult_keeps (s : State) (r : ℕ) :
    Keeps s (State.loadResult s r) := by
  unfold State.loadResult
  repeat' first
    | split
    | extract_lets
    | with_reducible apply Keeps.via (State.putFld_keeps ..)
    | (with_reducible apply Keeps.of_ite <;> intro _)
    | with_reducible exact Keeps.refl _
    | (with_reducible apply Keeps.of_pair (by assumption))
    | (with_reducible apply Keeps.of_triple (by assumption))
    | (fail_if_no_progress with_reducible refine Keeps.record ?_ rfl rfl rfl rfl rfl rfl rfl)
    | (with_reducible apply Keeps.foldl_via; intro _ _)
    | (fail_if_no_progress dsimp -zeta +zetaDelta only)

theorem State.groupLoad_keeps (s : State) (gi : ℕ) :
    Keeps s (State.groupLoad s gi) := by
  unfold State.groupLoad
  repeat' first
    | split
    | extract_lets
    | with_reducible apply Keeps.via (State.loadResult_keeps ..)
    | with_reducible apply Keeps.via (State.putGroup_keeps ..)
    | with_reducible apply Keeps.via (State.tableRead_keeps ..)
    | (with_reducible apply Keeps.of_ite <;> intro _)
    | with_reducible exact Keeps.refl _
    | (with_reducible apply Keeps.of_pair (by assumption))
    | (with_reducible apply Keeps.of_triple (by assumption))
    | (fail_if_no_progress with_reducible refine Keeps.record ?_ rfl rfl rfl rfl rfl rfl rfl)
    | (with_reducible apply Keeps.foldl_via; intro _ _)
    | (fail_if_no_progress dsimp -zeta +zetaDelta only)

theorem wrapNear_keeps (k : WrapKind) (s : State) :
    Keeps s (wrapNear k s) := by
  unfold wrapNear
  repeat' first
    | split
    | extract_lets
    | with_reducible apply Keeps.via (State.raise_keeps ..)
    | (with_reducible apply Keeps.of_ite <;> intro _)
    | with_reducible exact Keeps.refl _
    | (with_reducible apply Keeps.of_pair (by assumption))
    | (with_reducible apply Keeps.of_triple (by assumption))
    | (fail_if_no_progress with_reducible refine Keeps.record ?_ rfl rfl rfl rfl rfl rfl rfl)
    | (with_reducible apply Keeps.foldl_via; intro _ _)
    | (fail_if_no_progress dsimp -zeta +zetaDelta only)

theorem clearSend_keeps (group : BitVec 12) (s : State) :
    Keeps s (clearSend group s) := by
  unfold clearSend
  repeat' first
    | split
    | extract_lets
    | with_reducible apply Keeps.via (State.sendClear_keeps ..)
    | (with_reducible apply Keeps.of_ite <;> intro _)
    | with_reducible exact Keeps.refl _
    | (with_reducible apply Keeps.of_pair (by assumption))
    | (with_reducible apply Keeps.of_triple (by assumption))
    | (fail_if_no_progress with_reducible refine Keeps.record ?_ rfl rfl rfl rfl rfl rfl rfl)
    | (with_reducible apply Keeps.foldl_via; intro _ _)
    | (fail_if_no_progress dsimp -zeta +zetaDelta only)

theorem memberSuspect_keeps (group : BitVec 12) (rank : BitVec 16) (s : State) :
    Keeps s (memberSuspect group rank s) := by
  unfold memberSuspect
  repeat' first
    | split
    | extract_lets
    | with_reducible apply Keeps.via (State.injectedTimed_keeps ..)
    | with_reducible apply Keeps.via (State.leatRecord_keeps ..)
    | with_reducible apply Keeps.via (State.raise_keeps ..)
    | with_reducible apply Keeps.via (State.tally_keeps ..)
    | (with_reducible apply Keeps.of_ite <;> intro _)
    | with_reducible exact Keeps.refl _
    | (with_reducible apply Keeps.of_pair (by assumption))
    | (with_reducible apply Keeps.of_triple (by assumption))
    | (fail_if_no_progress with_reducible refine Keeps.record ?_ rfl rfl rfl rfl rfl rfl rfl)
    | (with_reducible apply Keeps.foldl_via; intro _ _)
    | (fail_if_no_progress dsimp -zeta +zetaDelta only)

end Sys2Proof.Machine
end

