-- ==== Sys2Proof/Laws/KeepsLoader.lean ====
section
/-! SUPPORT. What each change of the state made in Machine/Loader, Settings, Pond, RaceOps, Stone, Race, Toll keeps: the
queue, the fuses blown, soundness. -/

namespace Sys2Proof.Machine

set_option Elab.async false

set_option linter.unusedTactic false
set_option linter.unreachableTactic false
set_option linter.unusedVariables false

theorem State.extendMeas_keeps (s : State) (i : ℕ) (x : List Byte) :
    Keeps s (State.extendMeas s i x) := by
  unfold State.extendMeas
  repeat' first
    | split
    | extract_lets
    | (with_reducible apply Keeps.of_ite <;> intro _)
    | with_reducible exact Keeps.refl _
    | (with_reducible apply Keeps.of_pair (by assumption))
    | (with_reducible apply Keeps.of_triple (by assumption))
    | (fail_if_no_progress with_reducible refine Keeps.record ?_ rfl rfl rfl rfl rfl rfl rfl)
    | (with_reducible apply Keeps.foldl_via; intro _ _)
    | (fail_if_no_progress dsimp -zeta +zetaDelta only)

theorem State.dropLines_keeps (s : State) (a : ℕ) (n : ℕ) :
    Keeps s (State.dropLines s a n) := by
  unfold State.dropLines
  repeat' first
    | split
    | extract_lets
    | with_reducible apply Keeps.via (Keeps.onSluice ..)
    | with_reducible apply Keeps.via (State.tally_keeps ..)
    | (with_reducible apply Keeps.forAll_via; intro _ _)
    | (with_reducible apply Keeps.of_ite <;> intro _)
    | with_reducible exact Keeps.refl _
    | (with_reducible apply Keeps.of_pair (by assumption))
    | (with_reducible apply Keeps.of_triple (by assumption))
    | (fail_if_no_progress with_reducible refine Keeps.record ?_ rfl rfl rfl rfl rfl rfl rfl)
    | (with_reducible apply Keeps.foldl_via; intro _ _)
    | (fail_if_no_progress dsimp -zeta +zetaDelta only)

theorem State.rangeTakes_keeps (s : State) (a n : Nat) (mem : List Host.Cell) (h : Memory.wf s.mem = true → Memory.wf mem = true) :
    Keeps s (s.rangeTakes a n mem) := by
  unfold State.rangeTakes
  exact ((Keeps.physical mem h).trans (State.dropLines_keeps ..)).trans (Keeps.forAll _ _ fun _ _ => Keeps.onMill ..)


theorem State.physZero_keeps (s : State) (a : ℕ) (n : ℕ) :
    Keeps s (State.physZero s a n) := by
  exact State.rangeTakes_keeps _ _ _ _ fun h => Memory.wf_filter _ h

theorem State.unmapImage_keeps (s : State) (m : MillId) (pages : List ℕ) :
    Keeps s (State.unmapImage s m pages) := by
  unfold State.unmapImage
  repeat' first
    | split
    | extract_lets
    | with_reducible apply Keeps.via (Keeps.onMill ..)
    | with_reducible apply Keeps.via (Keeps.onSluice ..)
    | with_reducible apply Keeps.via (State.physWrite_keeps ..)
    | with_reducible apply Keeps.via (State.physZero_keeps ..)
    | (with_reducible apply Keeps.forAll_via; intro _ _)
    | (with_reducible apply Keeps.of_ite <;> intro _)
    | with_reducible exact Keeps.refl _
    | (with_reducible apply Keeps.of_pair (by assumption))
    | (with_reducible apply Keeps.of_triple (by assumption))
    | (fail_if_no_progress with_reducible refine Keeps.record ?_ rfl rfl rfl rfl rfl rfl rfl)
    | (with_reducible apply Keeps.foldl_via; intro _ _)
    | (fail_if_no_progress dsimp -zeta +zetaDelta only)

theorem State.mapPages_keeps (s : State) (m : MillId) (l1 : List ℕ) (pages : List (ℕ × ℕ × Bool)) :
    Keeps s (State.mapPages s m l1 pages) := by
  unfold State.mapPages
  repeat' first
    | split
    | extract_lets
    | with_reducible apply Keeps.via (State.physWrite_keeps ..)
    | (with_reducible apply Keeps.forAll_via; intro _ _)
    | (with_reducible apply Keeps.of_ite <;> intro _)
    | with_reducible exact Keeps.refl _
    | (with_reducible apply Keeps.of_pair (by assumption))
    | (with_reducible apply Keeps.of_triple (by assumption))
    | (fail_if_no_progress with_reducible refine Keeps.record ?_ rfl rfl rfl rfl rfl rfl rfl)
    | (with_reducible apply Keeps.foldl_via; intro _ _)
    | (fail_if_no_progress dsimp -zeta +zetaDelta only)

theorem State.physCopy_keeps (s : State) (src : ℕ) (dst : ℕ) (n : ℕ) :
    Keeps s (State.physCopy s src dst n) := by
  exact State.rangeTakes_keeps _ _ _ _ fun h => Memory.wf_cells _ (Memory.wf_filter _ h)

theorem State.fillSection_keeps (s : State) (a : ℕ) (p : Placed) :
    Keeps s (State.fillSection s a p) := by
  unfold State.fillSection
  repeat' first
    | split
    | extract_lets
    | with_reducible apply Keeps.via (State.physCopy_keeps ..)
    | with_reducible apply Keeps.via (State.physZero_keeps ..)
    | (with_reducible apply Keeps.forAll_via; intro _ _)
    | (with_reducible apply Keeps.of_ite <;> intro _)
    | with_reducible exact Keeps.refl _
    | (with_reducible apply Keeps.of_pair (by assumption))
    | (with_reducible apply Keeps.of_triple (by assumption))
    | (fail_if_no_progress with_reducible refine Keeps.record ?_ rfl rfl rfl rfl rfl rfl rfl)
    | (with_reducible apply Keeps.foldl_via; intro _ _)
    | (fail_if_no_progress dsimp -zeta +zetaDelta only)

theorem State.relocate_keeps (s : State) (a : ℕ) (ps : List Placed) (k : ℕ) :
    ∀ t, State.relocate s a ps k = some t → Keeps s t := by
  intro t h
  unfold State.relocate at h
  extract_lets o w off add at h
  split at h
  · split at h
    · cases h
    · cases h; exact State.physWrite_keeps ..
  · cases h

theorem State.relocateAll_keeps (s : State) (m : MillId) (a : Nat) (ps : List Placed) (l : List Nat) : Keeps s (s.relocateAll m a ps l).2 := by
  induction l generalizing s with
  | nil => exact Keeps.refl s
  | cons k rest ih =>
    unfold State.relocateAll
    split
    · exact Keeps.refl s
    · rename_i u e
      exact ((State.relocate_keeps s a ps k u e).trans (State.tally_keeps ..)).trans (ih _)


theorem State.loadRegisters_keeps (s : State) (m : MillId) (a : ℕ) (ps : List Placed) :
    Keeps s (State.loadRegisters s m a ps) := by
  unfold State.loadRegisters
  repeat' first
    | split
    | extract_lets
    | with_reducible apply Keeps.via (Keeps.onMill ..)
    | with_reducible apply Keeps.via (State.storeWord64_keeps ..)
    | with_reducible apply Keeps.via (State.storeWord_keeps ..)
    | (with_reducible apply Keeps.forAll_via; intro _ _)
    | (with_reducible apply Keeps.of_ite <;> intro _)
    | with_reducible exact Keeps.refl _
    | (with_reducible apply Keeps.of_pair (by assumption))
    | (with_reducible apply Keeps.of_triple (by assumption))
    | (fail_if_no_progress with_reducible refine Keeps.record ?_ rfl rfl rfl rfl rfl rfl rfl)
    | (with_reducible apply Keeps.foldl_via; intro _ _)
    | (fail_if_no_progress dsimp -zeta +zetaDelta only)

theorem State.loadRead_keeps (s : State) (m : MillId) (a : ℕ) (len : ℕ) :
    Keeps s (State.loadRead s m a len).2 := by
  unfold State.loadRead
  repeat' first
    | split
    | extract_lets
    | with_reducible apply Keeps.via (Keeps.onMill ..)
    | with_reducible apply Keeps.via (State.fillSection_keeps ..)
    | with_reducible apply Keeps.via (State.loadRegisters_keeps ..)
    | with_reducible apply Keeps.via (State.mapPages_keeps ..)
    | with_reducible apply Keeps.via (State.relocateAll_keeps ..)
    | with_reducible apply Keeps.via (State.tally_keeps ..)
    | with_reducible apply Keeps.via (State.unmapImage_keeps ..)
    | (with_reducible apply Keeps.forAll_via; intro _ _)
    | (with_reducible apply Keeps.of_ite <;> intro _)
    | with_reducible exact Keeps.refl _
    | (with_reducible apply Keeps.of_pair (by assumption))
    | (with_reducible apply Keeps.of_triple (by assumption))
    | (fail_if_no_progress with_reducible refine Keeps.record ?_ rfl rfl rfl rfl rfl rfl rfl)
    | (with_reducible apply Keeps.foldl_via; intro _ _)
    | (fail_if_no_progress dsimp -zeta +zetaDelta only)

theorem State.loadImage_keeps (s : State) (m : MillId) (a len : Nat) (r : Nat × State) (h : s.loadImage m a len = some r) :
    Keeps s r.2 := by
  unfold State.loadImage at h
  extract_lets t at h
  have ht : Keeps s t := State.unmapImage_keeps ..
  clear_value t
  split at h
  · cases h; exact ht
  · have hr := State.readRun_keeps t m a len
    split at h
    · cases h
    · rename_i e; rw [e] at hr; cases h; exact ht.trans hr
    · rename_i e; rw [e] at hr; cases h; exact (ht.trans hr).trans (State.loadRead_keeps ..)


theorem State.clearMeas_keeps (s : State) (i : ℕ) :
    Keeps s (State.clearMeas s i) := by
  unfold State.clearMeas
  repeat' first
    | split
    | extract_lets
    | (with_reducible apply Keeps.of_ite <;> intro _)
    | with_reducible exact Keeps.refl _
    | (with_reducible apply Keeps.of_pair (by assumption))
    | (with_reducible apply Keeps.of_triple (by assumption))
    | (fail_if_no_progress with_reducible refine Keeps.record ?_ rfl rfl rfl rfl rfl rfl rfl)
    | (with_reducible apply Keeps.foldl_via; intro _ _)
    | (fail_if_no_progress dsimp -zeta +zetaDelta only)

theorem State.claimRefused_keeps (s : State) (p : Page) (code : ℕ) (path : ℕ) :
    Keeps s (State.claimRefused s p code path) := by
  unfold State.claimRefused
  repeat' first
    | split
    | extract_lets
    | with_reducible apply Keeps.via (State.claimBusy_keeps ..)
    | with_reducible apply Keeps.via (State.putFld_keeps ..)
    | (with_reducible apply Keeps.of_ite <;> intro _)
    | with_reducible exact Keeps.refl _
    | (with_reducible apply Keeps.of_pair (by assumption))
    | (with_reducible apply Keeps.of_triple (by assumption))
    | (fail_if_no_progress with_reducible refine Keeps.record ?_ rfl rfl rfl rfl rfl rfl rfl)
    | (with_reducible apply Keeps.foldl_via; intro _ _)
    | (fail_if_no_progress dsimp -zeta +zetaDelta only)

theorem State.claim_keeps (s : State) (p : Page) (code : ℕ) (path : ℕ) :
    Keeps s (State.claim s p code path).2 := by
  unfold State.claim
  repeat' first
    | split
    | extract_lets
    | with_reducible apply Keeps.via (State.claimRefused_keeps ..)
    | with_reducible apply Keeps.via (State.injected_keeps ..)
    | with_reducible apply Keeps.via (State.putFld_keeps ..)
    | with_reducible apply Keeps.via (State.tally_keeps ..)
    | (with_reducible apply Keeps.of_ite <;> intro _)
    | with_reducible exact Keeps.refl _
    | (with_reducible apply Keeps.of_pair (by assumption))
    | (with_reducible apply Keeps.of_triple (by assumption))
    | (fail_if_no_progress with_reducible refine Keeps.record ?_ rfl rfl rfl rfl rfl rfl rfl)
    | (with_reducible apply Keeps.foldl_via; intro _ _)
    | (fail_if_no_progress dsimp -zeta +zetaDelta only)

theorem State.gated_keeps (s : State) (path : ℕ) (p : Page) (off : ℕ) (w : W32) :
    Keeps s (State.gated s path p off w).2 := by
  unfold State.gated
  extract_lets need
  have hn : ∀ s w bit res code, Keeps s (need s w bit res code).2 := by
    intro s w bit res code
    change Keeps s (@ite (W32 × State) _ _ _ _).2
    split
    · exact Keeps.refl s
    · exact State.claimRefused_keeps ..
  clear_value need
  split
  · split
    exact (Keeps.of_pair (by assumption) (hn ..)).trans (hn ..)
  · split
    · exact Keeps.refl s
    · have h := State.claim_keeps s (.timer .m0 1) 1 4
      split
      · rename_i e; rw [e] at h; exact h
      · rename_i e; rw [e] at h; exact h
  · exact Keeps.refl s

theorem State.setTimer_keeps (s : State) (m : MillId) (n : ℕ) (t : Timer) :
    Keeps s (State.setTimer s m n t) := by
  unfold State.setTimer
  repeat' first
    | split
    | extract_lets
    | with_reducible apply Keeps.via (Keeps.onMill ..)
    | (with_reducible apply Keeps.of_ite <;> intro _)
    | with_reducible exact Keeps.refl _
    | (with_reducible apply Keeps.of_pair (by assumption))
    | (with_reducible apply Keeps.of_triple (by assumption))
    | (fail_if_no_progress with_reducible refine Keeps.record ?_ rfl rfl rfl rfl rfl rfl rfl)
    | (with_reducible apply Keeps.foldl_via; intro _ _)
    | (fail_if_no_progress dsimp -zeta +zetaDelta only)

theorem State.pondTimer_keeps (s : State) (began : W64) :
    Keeps s (State.pondTimer s began) := by
  unfold State.pondTimer
  repeat' first
    | split
    | extract_lets
    | with_reducible apply Keeps.via (State.setTimer_keeps ..)
    | (with_reducible apply Keeps.of_ite <;> intro _)
    | with_reducible exact Keeps.refl _
    | (with_reducible apply Keeps.of_pair (by assumption))
    | (with_reducible apply Keeps.of_triple (by assumption))
    | (fail_if_no_progress with_reducible refine Keeps.record ?_ rfl rfl rfl rfl rfl rfl rfl)
    | (with_reducible apply Keeps.foldl_via; intro _ _)
    | (fail_if_no_progress dsimp -zeta +zetaDelta only)

theorem State.enabled_keeps (s : State) (p : Page) (old : W32) :
    Keeps s (State.enabled s p old) := by
  unfold State.enabled
  repeat' first
    | split
    | extract_lets
    | with_reducible apply Keeps.via (State.deliver_keeps ..)
    | (with_reducible apply Keeps.forAll_via; intro _ _)
    | (with_reducible apply Keeps.of_ite <;> intro _)
    | with_reducible exact Keeps.refl _
    | (with_reducible apply Keeps.of_pair (by assumption))
    | (with_reducible apply Keeps.of_triple (by assumption))
    | (fail_if_no_progress with_reducible refine Keeps.record ?_ rfl rfl rfl rfl rfl rfl rfl)
    | (with_reducible apply Keeps.foldl_via; intro _ _)
    | (fail_if_no_progress dsimp -zeta +zetaDelta only)

theorem State.stored_keeps (s : State) (p : Page) (off : ℕ) (old : W32) :
    Keeps s (State.stored s p off old) := by
  unfold State.stored
  repeat' first
    | split
    | extract_lets
    | with_reducible apply Keeps.via (State.enabled_keeps ..)
    | with_reducible apply Keeps.via (State.planWritten_keeps ..)
    | with_reducible apply Keeps.via (State.pondTimer_keeps ..)
    | (with_reducible apply Keeps.of_ite <;> intro _)
    | with_reducible exact Keeps.refl _
    | (with_reducible apply Keeps.of_pair (by assumption))
    | (with_reducible apply Keeps.of_triple (by assumption))
    | (fail_if_no_progress with_reducible refine Keeps.record ?_ rfl rfl rfl rfl rfl rfl rfl)
    | (with_reducible apply Keeps.foldl_via; intro _ _)
    | (fail_if_no_progress dsimp -zeta +zetaDelta only)

theorem State.onPond_keeps (s : State) (f : Pond → Pond) :
    Keeps s (State.onPond s f) := by
  unfold State.onPond
  repeat' first
    | split
    | extract_lets
    | (with_reducible apply Keeps.of_ite <;> intro _)
    | with_reducible exact Keeps.refl _
    | (with_reducible apply Keeps.of_pair (by assumption))
    | (with_reducible apply Keeps.of_triple (by assumption))
    | (fail_if_no_progress with_reducible refine Keeps.record ?_ rfl rfl rfl rfl rfl rfl rfl)
    | (with_reducible apply Keeps.foldl_via; intro _ _)
    | (fail_if_no_progress dsimp -zeta +zetaDelta only)

theorem State.pondUnits_keeps (s : State) (m : MillId) (g : Group) (run : ℕ) (unit0 : ℕ) (bs : List Byte) (units : List ℕ) :
    Keeps s (State.pondUnits s m g run unit0 bs units) := by
  unfold State.pondUnits
  repeat' first
    | split
    | extract_lets
    | with_reducible apply Keeps.via (State.groupSend_keeps ..)
    | with_reducible apply Keeps.via (State.tally_keeps ..)
    | (with_reducible apply Keeps.forAll_via; intro _ _)
    | (with_reducible apply Keeps.of_ite <;> intro _)
    | with_reducible exact Keeps.refl _
    | (with_reducible apply Keeps.of_pair (by assumption))
    | (with_reducible apply Keeps.of_triple (by assumption))
    | (fail_if_no_progress with_reducible refine Keeps.record ?_ rfl rfl rfl rfl rfl rfl rfl)
    | (with_reducible apply Keeps.foldl_via; intro _ _)
    | (fail_if_no_progress dsimp -zeta +zetaDelta only)

theorem State.pageSent_keeps (s : State) (m : MillId) (p : PondPage) (crc : W64) (g : Group) :
    Keeps s (State.pageSent s m p crc g) := by
  unfold State.pageSent
  repeat' first
    | split
    | extract_lets
    | with_reducible apply Keeps.via (State.onPond_keeps ..)
    | with_reducible apply Keeps.via (State.pondUnits_keeps ..)
    | (with_reducible apply Keeps.of_ite <;> intro _)
    | with_reducible exact Keeps.refl _
    | (with_reducible apply Keeps.of_pair (by assumption))
    | (with_reducible apply Keeps.of_triple (by assumption))
    | (fail_if_no_progress with_reducible refine Keeps.record ?_ rfl rfl rfl rfl rfl rfl rfl)
    | (with_reducible apply Keeps.foldl_via; intro _ _)
    | (fail_if_no_progress dsimp -zeta +zetaDelta only)

theorem State.setWp_keeps (s : State) (m : MillId) (va : ℕ) (wp : Bool) :
    Keeps s (State.setWp s m va wp) := by
  unfold State.setWp
  repeat' first
    | split
    | extract_lets
    | with_reducible apply Keeps.via (State.physWrite_keeps ..)
    | (with_reducible apply Keeps.of_ite <;> intro _)
    | with_reducible exact Keeps.refl _
    | (with_reducible apply Keeps.of_pair (by assumption))
    | (with_reducible apply Keeps.of_triple (by assumption))
    | (fail_if_no_progress with_reducible refine Keeps.record ?_ rfl rfl rfl rfl rfl rfl rfl)
    | (with_reducible apply Keeps.foldl_via; intro _ _)
    | (fail_if_no_progress dsimp -zeta +zetaDelta only)

theorem State.pondMark_keeps (s : State) (state : ℕ) :
    Keeps s (State.pondMark s state) := by
  unfold State.pondMark
  repeat' first
    | split
    | extract_lets
    | with_reducible apply Keeps.via (State.physWrite_keeps ..)
    | (with_reducible apply Keeps.forAll_via; intro _ _)
    | (with_reducible apply Keeps.of_ite <;> intro _)
    | with_reducible exact Keeps.refl _
    | (with_reducible apply Keeps.of_pair (by assumption))
    | (with_reducible apply Keeps.of_triple (by assumption))
    | (fail_if_no_progress with_reducible refine Keeps.record ?_ rfl rfl rfl rfl rfl rfl rfl)
    | (with_reducible apply Keeps.foldl_via; intro _ _)
    | (fail_if_no_progress dsimp -zeta +zetaDelta only)

theorem State.pondResume_keeps (s : State) (m : MillId) (vpage : Option ℕ) :
    Keeps s (State.pondResume s m vpage) := by
  unfold State.pondResume
  repeat' first
    | split
    | extract_lets
    | with_reducible apply Keeps.via (Keeps.onGov ..)
    | with_reducible apply Keeps.via (State.boltContinue_keeps ..)
    | with_reducible apply Keeps.via (State.onBolt_keeps ..)
    | with_reducible apply Keeps.via (State.onQueue_keeps ..)
    | (with_reducible apply Keeps.forAll_via; intro _ _)
    | (with_reducible apply Keeps.of_ite <;> intro _)
    | with_reducible exact Keeps.refl _
    | (with_reducible apply Keeps.of_pair (by assumption))
    | (with_reducible apply Keeps.of_triple (by assumption))
    | (fail_if_no_progress with_reducible refine Keeps.record ?_ rfl rfl rfl rfl rfl rfl rfl)
    | (with_reducible apply Keeps.foldl_via; intro _ _)
    | (fail_if_no_progress dsimp -zeta +zetaDelta only)

theorem State.pondRearm_keeps (s : State) :
    Keeps s (State.pondRearm s) := by
  unfold State.pondRearm
  repeat' first
    | split
    | extract_lets
    | with_reducible apply Keeps.via (State.pondTimer_keeps ..)
    | (with_reducible apply Keeps.of_ite <;> intro _)
    | with_reducible exact Keeps.refl _
    | (with_reducible apply Keeps.of_pair (by assumption))
    | (with_reducible apply Keeps.of_triple (by assumption))
    | (fail_if_no_progress with_reducible refine Keeps.record ?_ rfl rfl rfl rfl rfl rfl rfl)
    | (with_reducible apply Keeps.foldl_via; intro _ _)
    | (fail_if_no_progress dsimp -zeta +zetaDelta only)

theorem State.pondRecord_keeps (s : State) (gen : W32) (cause : ℕ) (va : ℕ) :
    Keeps s (State.pondRecord s gen cause va) := by
  unfold State.pondRecord
  repeat' first
    | split
    | extract_lets
    | (with_reducible apply State.record_via; intro _)
    | with_reducible apply Keeps.via (State.setWord64_keeps ..)
    | with_reducible apply Keeps.via (State.setWord_keeps ..)
    | (with_reducible apply Keeps.of_ite <;> intro _)
    | with_reducible exact Keeps.refl _
    | (with_reducible apply Keeps.of_pair (by assumption))
    | (with_reducible apply Keeps.of_triple (by assumption))
    | (fail_if_no_progress with_reducible refine Keeps.record ?_ rfl rfl rfl rfl rfl rfl rfl)
    | (with_reducible apply Keeps.foldl_via; intro _ _)
    | (fail_if_no_progress dsimp -zeta +zetaDelta only)

theorem State.pondFail_keeps (s : State) (cause : ℕ) (va : ℕ) :
    Keeps s (State.pondFail s cause va) := by
  unfold State.pondFail
  repeat' first
    | split
    | extract_lets
    | with_reducible apply Keeps.via (State.onPond_keeps ..)
    | with_reducible apply Keeps.via (State.pondMark_keeps ..)
    | with_reducible apply Keeps.via (State.pondRearm_keeps ..)
    | with_reducible apply Keeps.via (State.pondRecord_keeps ..)
    | with_reducible apply Keeps.via (State.pondResume_keeps ..)
    | with_reducible apply Keeps.via (State.raise_keeps ..)
    | with_reducible apply Keeps.via (State.setWp_keeps ..)
    | with_reducible apply Keeps.via (State.tally_keeps ..)
    | with_reducible apply Keeps.via (State.tlbInval_keeps ..)
    | (with_reducible apply Keeps.forAll_via; intro _ _)
    | (with_reducible apply Keeps.of_ite <;> intro _)
    | with_reducible exact Keeps.refl _
    | (with_reducible apply Keeps.of_pair (by assumption))
    | (with_reducible apply Keeps.of_triple (by assumption))
    | (fail_if_no_progress with_reducible refine Keeps.record ?_ rfl rfl rfl rfl rfl rfl rfl)
    | (with_reducible apply Keeps.foldl_via; intro _ _)
    | (fail_if_no_progress dsimp -zeta +zetaDelta only)

theorem State.pondHeld_keeps (s : State) :
    Keeps s (State.pondHeld s) := by
  unfold State.pondHeld
  repeat' first
    | split
    | extract_lets
    | with_reducible apply Keeps.via (State.onPond_keeps ..)
    | with_reducible apply Keeps.via (State.pondResume_keeps ..)
    | with_reducible apply Keeps.via (State.pondTimer_keeps ..)
    | with_reducible apply Keeps.via (State.raise_keeps ..)
    | with_reducible apply Keeps.via (State.tally_keeps ..)
    | (with_reducible apply Keeps.forAll_via; intro _ _)
    | (with_reducible apply Keeps.of_ite <;> intro _)
    | with_reducible exact Keeps.refl _
    | (with_reducible apply Keeps.of_pair (by assumption))
    | (with_reducible apply Keeps.of_triple (by assumption))
    | (fail_if_no_progress with_reducible refine Keeps.record ?_ rfl rfl rfl rfl rfl rfl rfl)
    | (with_reducible apply Keeps.foldl_via; intro _ _)
    | (fail_if_no_progress dsimp -zeta +zetaDelta only)

theorem State.sendHeads_keeps (s : State) (g : Group) :
    Keeps s (State.sendHeads s g) := by
  unfold State.sendHeads
  repeat' first
    | split
    | extract_lets
    | with_reducible apply Keeps.via (State.pondUnits_keeps ..)
    | (with_reducible apply Keeps.forAll_via; intro _ _)
    | (with_reducible apply Keeps.of_ite <;> intro _)
    | with_reducible exact Keeps.refl _
    | (with_reducible apply Keeps.of_pair (by assumption))
    | (with_reducible apply Keeps.of_triple (by assumption))
    | (fail_if_no_progress with_reducible refine Keeps.record ?_ rfl rfl rfl rfl rfl rfl rfl)
    | (with_reducible apply Keeps.foldl_via; intro _ _)
    | (fail_if_no_progress dsimp -zeta +zetaDelta only)

theorem State.pondDone_keeps (s : State) :
    Keeps s (State.pondDone s) := by
  unfold State.pondDone
  repeat' first
    | split
    | extract_lets
    | with_reducible apply Keeps.via (State.pondFail_keeps ..)
    | with_reducible apply Keeps.via (State.pondHeld_keeps ..)
    | with_reducible apply Keeps.via (State.pondMark_keeps ..)
    | with_reducible apply Keeps.via (State.sendHeads_keeps ..)
    | (with_reducible apply Keeps.of_ite <;> intro _)
    | with_reducible exact Keeps.refl _
    | (with_reducible apply Keeps.of_pair (by assumption))
    | (with_reducible apply Keeps.of_triple (by assumption))
    | (fail_if_no_progress with_reducible refine Keeps.record ?_ rfl rfl rfl rfl rfl rfl rfl)
    | (with_reducible apply Keeps.foldl_via; intro _ _)
    | (fail_if_no_progress dsimp -zeta +zetaDelta only)

theorem State.pondSettle_keeps (s : State) :
    Keeps s (State.pondSettle s) := by
  unfold State.pondSettle
  repeat' first
    | split
    | extract_lets
    | with_reducible apply Keeps.via (State.pondDone_keeps ..)
    | (with_reducible apply Keeps.of_ite <;> intro _)
    | with_reducible exact Keeps.refl _
    | (with_reducible apply Keeps.of_pair (by assumption))
    | (with_reducible apply Keeps.of_triple (by assumption))
    | (fail_if_no_progress with_reducible refine Keeps.record ?_ rfl rfl rfl rfl rfl rfl rfl)
    | (with_reducible apply Keeps.foldl_via; intro _ _)
    | (fail_if_no_progress dsimp -zeta +zetaDelta only)

theorem State.setPondPages_keeps (s : State) (m : MillId) (l : List PondPage) :
    Keeps s (State.setPondPages s m l) := by
  unfold State.setPondPages
  repeat' first
    | split
    | extract_lets
    | with_reducible apply Keeps.via (State.onPond_keeps ..)
    | (with_reducible apply Keeps.of_ite <;> intro _)
    | with_reducible exact Keeps.refl _
    | (with_reducible apply Keeps.of_pair (by assumption))
    | (with_reducible apply Keeps.of_triple (by assumption))
    | (fail_if_no_progress with_reducible refine Keeps.record ?_ rfl rfl rfl rfl rfl rfl rfl)
    | (with_reducible apply Keeps.foldl_via; intro _ _)
    | (fail_if_no_progress dsimp -zeta +zetaDelta only)

theorem State.pageDone_keeps (s : State) (m : MillId) (p : PondPage) (touch : Bool) :
    Keeps s (State.pageDone s m p touch) := by
  unfold State.pageDone
  repeat' first
    | split
    | extract_lets
    | with_reducible apply Keeps.via (State.pondResume_keeps ..)
    | with_reducible apply Keeps.via (State.pondSettle_keeps ..)
    | with_reducible apply Keeps.via (State.setPondPages_keeps ..)
    | with_reducible apply Keeps.via (State.setWp_keeps ..)
    | with_reducible apply Keeps.via (State.tally_keeps ..)
    | with_reducible apply Keeps.via (State.tlbInval_keeps ..)
    | (with_reducible apply Keeps.of_ite <;> intro _)
    | with_reducible exact Keeps.refl _
    | (with_reducible apply Keeps.of_pair (by assumption))
    | (with_reducible apply Keeps.of_triple (by assumption))
    | (fail_if_no_progress with_reducible refine Keeps.record ?_ rfl rfl rfl rfl rfl rfl rfl)
    | (with_reducible apply Keeps.foldl_via; intro _ _)
    | (fail_if_no_progress dsimp -zeta +zetaDelta only)

theorem State.copyCounted_keeps (s : State) (a : ℕ) (n : ℕ) :
    Keeps s (State.copyCounted s a n) := by
  unfold State.copyCounted
  repeat' first
    | split
    | extract_lets
    | with_reducible apply Keeps.via (State.tally_keeps ..)
    | (with_reducible apply Keeps.of_ite <;> intro _)
    | with_reducible exact Keeps.refl _
    | (with_reducible apply Keeps.of_pair (by assumption))
    | (with_reducible apply Keeps.of_triple (by assumption))
    | (fail_if_no_progress with_reducible refine Keeps.record ?_ rfl rfl rfl rfl rfl rfl rfl)
    | (with_reducible apply Keeps.foldl_via; intro _ _)
    | (fail_if_no_progress dsimp -zeta +zetaDelta only)

theorem State.pageKept_keeps (s : State) (m : MillId) (p : PondPage) (crc : W64) :
    Keeps s (State.pageKept s m p crc) := by
  unfold State.pageKept
  repeat' first
    | split
    | extract_lets
    | with_reducible apply Keeps.via (State.copyCounted_keeps ..)
    | with_reducible apply Keeps.via (State.physCopy_keeps ..)
    | with_reducible apply Keeps.via (State.physWrite_keeps ..)
    | (with_reducible apply Keeps.of_ite <;> intro _)
    | with_reducible exact Keeps.refl _
    | (with_reducible apply Keeps.of_pair (by assumption))
    | (with_reducible apply Keeps.of_triple (by assumption))
    | (fail_if_no_progress with_reducible refine Keeps.record ?_ rfl rfl rfl rfl rfl rfl rfl)
    | (with_reducible apply Keeps.foldl_via; intro _ _)
    | (fail_if_no_progress dsimp -zeta +zetaDelta only)

theorem State.pageRead_keeps (s : State) (m : MillId) (p : PondPage) (touch : Bool) :
    Keeps s (State.pageRead s m p touch) := by
  unfold State.pageRead
  repeat' first
    | split
    | extract_lets
    | with_reducible apply Keeps.via (State.pageDone_keeps ..)
    | with_reducible apply Keeps.via (State.pageKept_keeps ..)
    | with_reducible apply Keeps.via (State.pageSent_keeps ..)
    | with_reducible apply Keeps.via (State.pondFail_keeps ..)
    | with_reducible apply Keeps.via (State.takeInj_keeps ..)
    | (with_reducible apply Keeps.of_ite <;> intro _)
    | with_reducible exact Keeps.refl _
    | (with_reducible apply Keeps.of_pair (by assumption))
    | (with_reducible apply Keeps.of_triple (by assumption))
    | (fail_if_no_progress with_reducible refine Keeps.record ?_ rfl rfl rfl rfl rfl rfl rfl)
    | (with_reducible apply Keeps.foldl_via; intro _ _)
    | (fail_if_no_progress dsimp -zeta +zetaDelta only)

theorem State.copyPage_keeps (s : State) (m : MillId) (p : PondPage) (touch : Bool) :
    Keeps s (State.copyPage s m p touch) := by
  unfold State.copyPage
  repeat' first
    | split
    | extract_lets
    | with_reducible apply Keeps.via (State.badFrame_keeps ..)
    | with_reducible apply Keeps.via (State.pageRead_keeps ..)
    | with_reducible apply Keeps.via (State.pondFail_keeps ..)
    | with_reducible apply Keeps.via (State.readRun_keeps ..)
    | with_reducible apply Keeps.via (State.takeInj_keeps ..)
    | (with_reducible apply Keeps.of_ite <;> intro _)
    | with_reducible exact Keeps.refl _
    | (with_reducible apply Keeps.of_pair (by assumption))
    | (with_reducible apply Keeps.of_triple (by assumption))
    | (fail_if_no_progress with_reducible refine Keeps.record ?_ rfl rfl rfl rfl rfl rfl rfl)
    | (with_reducible apply Keeps.foldl_via; intro _ _)
    | (fail_if_no_progress dsimp -zeta +zetaDelta only)

theorem pondPageCopy_keeps (m : MillId) (codes : List Ecc) (s : State) :
    Keeps s (pondPageCopy m codes s) := by
  unfold pondPageCopy
  repeat' first
    | split
    | extract_lets
    | (with_reducible apply State.coded_via; intro _)
    | with_reducible apply Keeps.via (State.copyPage_keeps ..)
    | with_reducible apply Keeps.via (State.pondSettle_keeps ..)
    | (with_reducible apply Keeps.of_ite <;> intro _)
    | with_reducible exact Keeps.refl _
    | (with_reducible apply Keeps.of_pair (by assumption))
    | (with_reducible apply Keeps.of_triple (by assumption))
    | (fail_if_no_progress with_reducible refine Keeps.record ?_ rfl rfl rfl rfl rfl rfl rfl)
    | (with_reducible apply Keeps.foldl_via; intro _ _)
    | (fail_if_no_progress dsimp -zeta +zetaDelta only)

theorem restoreGroup_keeps (ix step : Nat) (b : State × Nat) (i : Nat) : Keeps b.1 (restoreGroup ix step b i).1 := by
  unfold restoreGroup
  extract_lets s gi bs k epoch entry s1 s2
  have h1 : Keeps s s1 := State.physWrite_keeps ..
  refine Keeps.trans ?_ (State.groupLoad_keeps ..)
  change Keeps s (ite _ _ _)
  split
  · exact h1.trans (State.physWrite_keeps ..)
  · exact h1


theorem State.restoreGroups_keeps (s : State) (slot : Bool) :
    Keeps s (State.restoreGroups s slot) := by
  unfold State.restoreGroups
  extract_lets base n ix step
  split
  rename_i t k e
  extract_lets rt routes
  refine Keeps.trans ?_ (State.retryBlocked_keeps _)
  have h : Keeps s t := by
    refine Keeps.of_pair (e := (k, t)) (t := t) rfl ?_
    have g := Keeps.fold_acc (s := s) (fun b : State × Nat => b.1) (restoreGroup ix step) (restoreGroup_keeps ix step)
      (List.range n) (s, ix + roundUp (2 * n) 512) (Keeps.refl s)
    rw [e] at g
    exact g
  exact h.trans (Keeps.of_eq rfl rfl rfl rfl rfl rfl rfl)

theorem State.pondHold_keeps (s : State) (m : MillId) (cs : List Captured) :
    Keeps s (State.pondHold s m cs) := by
  unfold State.pondHold
  repeat' first
    | split
    | extract_lets
    | with_reducible apply Keeps.via (State.onPond_keeps ..)
    | with_reducible apply Keeps.via (State.physWrite_keeps ..)
    | with_reducible apply Keeps.via (State.setPondPages_keeps ..)
    | with_reducible apply Keeps.via (State.setWp_keeps ..)
    | with_reducible apply Keeps.via (State.tlbInval_keeps ..)
    | (with_reducible apply Keeps.forAll_via; intro _ _)
    | (with_reducible apply Keeps.of_ite <;> intro _)
    | with_reducible exact Keeps.refl _
    | (with_reducible apply Keeps.of_pair (by assumption))
    | (with_reducible apply Keeps.of_triple (by assumption))
    | (fail_if_no_progress with_reducible refine Keeps.record ?_ rfl rfl rfl rfl rfl rfl rfl)
    | (with_reducible apply Keeps.foldl_via; intro _ _)
    | (fail_if_no_progress dsimp -zeta +zetaDelta only)

theorem pondCopyBegin_keeps (s : State) :
    Keeps s (pondCopyBegin s) := by
  unfold pondCopyBegin
  repeat' first
    | split
    | extract_lets
    | with_reducible apply Keeps.via (State.ledgerFlush_keeps ..)
    | with_reducible apply Keeps.via (State.onPond_keeps ..)
    | with_reducible apply Keeps.via (State.pondHold_keeps ..)
    | with_reducible apply Keeps.via (State.pondRearm_keeps ..)
    | with_reducible apply Keeps.via (State.pondRecord_keeps ..)
    | with_reducible apply Keeps.via (State.pondTimer_keeps ..)
    | with_reducible apply Keeps.via (State.raise_keeps ..)
    | with_reducible apply Keeps.via (State.tally_keeps ..)
    | (with_reducible apply Keeps.forAll_via; intro _ _)
    | (with_reducible apply Keeps.of_ite <;> intro _)
    | with_reducible exact Keeps.refl _
    | (with_reducible apply Keeps.of_pair (by assumption))
    | (with_reducible apply Keeps.of_triple (by assumption))
    | (fail_if_no_progress with_reducible refine Keeps.record ?_ rfl rfl rfl rfl rfl rfl rfl)
    | (with_reducible apply Keeps.foldl_via; intro _ _)
    | (fail_if_no_progress dsimp -zeta +zetaDelta only)

theorem State.clearScale_keeps (s : State) (m : MillId) :
    Keeps s (State.clearScale s m) := by
  unfold State.clearScale
  repeat' first
    | split
    | extract_lets
    | with_reducible apply Keeps.via (State.vpoke_keeps ..)
    | (with_reducible apply Keeps.forAll_via; intro _ _)
    | (with_reducible apply Keeps.of_ite <;> intro _)
    | with_reducible exact Keeps.refl _
    | (with_reducible apply Keeps.of_pair (by assumption))
    | (with_reducible apply Keeps.of_triple (by assumption))
    | (fail_if_no_progress with_reducible refine Keeps.record ?_ rfl rfl rfl rfl rfl rfl rfl)
    | (with_reducible apply Keeps.foldl_via; intro _ _)
    | (fail_if_no_progress dsimp -zeta +zetaDelta only)

theorem State.restoreSetting_keeps (s : State) (off : ℕ) (v : ℕ) :
    Keeps s (State.restoreSetting s off v) := by
  unfold State.restoreSetting
  repeat' first
    | split
    | extract_lets
    | with_reducible apply Keeps.via (State.gated_keeps ..)
    | with_reducible apply Keeps.via (State.storeWord_keeps ..)
    | with_reducible apply Keeps.via (State.stored_keeps ..)
    | (with_reducible apply Keeps.of_ite <;> intro _)
    | with_reducible exact Keeps.refl _
    | (with_reducible apply Keeps.of_pair (by assumption))
    | (with_reducible apply Keeps.of_triple (by assumption))
    | (fail_if_no_progress with_reducible refine Keeps.record ?_ rfl rfl rfl rfl rfl rfl rfl)
    | (with_reducible apply Keeps.foldl_via; intro _ _)
    | (fail_if_no_progress dsimp -zeta +zetaDelta only)

theorem State.restoreSettings_keeps (s : State) (m : MillId) (slot : Bool) :
    Keeps s (State.restoreSettings s m slot) := by
  unfold State.restoreSettings
  repeat' first
    | split
    | extract_lets
    | with_reducible apply Keeps.via (State.planWritten_keeps ..)
    | with_reducible apply Keeps.via (State.restoreSetting_keeps ..)
    | (with_reducible apply Keeps.forAll_via; intro _ _)
    | (with_reducible apply Keeps.of_ite <;> intro _)
    | with_reducible exact Keeps.refl _
    | (with_reducible apply Keeps.of_pair (by assumption))
    | (with_reducible apply Keeps.of_triple (by assumption))
    | (fail_if_no_progress with_reducible refine Keeps.record ?_ rfl rfl rfl rfl rfl rfl rfl)
    | (with_reducible apply Keeps.foldl_via; intro _ _)
    | (fail_if_no_progress dsimp -zeta +zetaDelta only)

theorem State.pondExported_keeps (s : State) (slot : Bool) :
    Keeps s (State.pondExported s slot) := by
  unfold State.pondExported
  repeat' first
    | split
    | extract_lets
    | (with_reducible apply Keeps.of_ite <;> intro _)
    | with_reducible exact Keeps.refl _
    | (with_reducible apply Keeps.of_pair (by assumption))
    | (with_reducible apply Keeps.of_triple (by assumption))
    | (fail_if_no_progress with_reducible refine Keeps.record ?_ rfl rfl rfl rfl rfl rfl rfl)
    | (with_reducible apply Keeps.foldl_via; intro _ _)
    | (fail_if_no_progress dsimp -zeta +zetaDelta only)

theorem State.pondReceive_keeps (s : State) (slot : Bool) :
    Keeps s (State.pondReceive s slot) := by
  unfold State.pondReceive
  repeat' first
    | split
    | extract_lets
    | with_reducible apply Keeps.via (State.onPond_keeps ..)
    | with_reducible apply Keeps.via (State.pondRecord_keeps ..)
    | with_reducible apply Keeps.via (State.retryHeld_keeps ..)
    | (with_reducible apply Keeps.of_ite <;> intro _)
    | with_reducible exact Keeps.refl _
    | (with_reducible apply Keeps.of_pair (by assumption))
    | (with_reducible apply Keeps.of_triple (by assumption))
    | (fail_if_no_progress with_reducible refine Keeps.record ?_ rfl rfl rfl rfl rfl rfl rfl)
    | (with_reducible apply Keeps.foldl_via; intro _ _)
    | (fail_if_no_progress dsimp -zeta +zetaDelta only)

theorem State.pondRequest_keeps (s : State) :
    Keeps s (State.pondRequest s) := by
  unfold State.pondRequest
  repeat' first
    | split
    | extract_lets
    | with_reducible apply Keeps.via (State.onPond_keeps ..)
    | with_reducible apply Keeps.via (State.raise_keeps ..)
    | with_reducible apply Keeps.via (State.tally_keeps ..)
    | (with_reducible apply Keeps.of_ite <;> intro _)
    | with_reducible exact Keeps.refl _
    | (with_reducible apply Keeps.of_pair (by assumption))
    | (with_reducible apply Keeps.of_triple (by assumption))
    | (fail_if_no_progress with_reducible refine Keeps.record ?_ rfl rfl rfl rfl rfl rfl rfl)
    | (with_reducible apply Keeps.foldl_via; intro _ _)
    | (fail_if_no_progress dsimp -zeta +zetaDelta only)

theorem State.pondTake_keeps (s : State) :
    Keeps s (State.pondTake s) := by
  unfold State.pondTake
  repeat' first
    | split
    | extract_lets
    | with_reducible apply Keeps.via (State.pondRecord_keeps ..)
    | with_reducible apply Keeps.via (State.pondRequest_keeps ..)
    | (with_reducible apply Keeps.of_ite <;> intro _)
    | with_reducible exact Keeps.refl _
    | (with_reducible apply Keeps.of_pair (by assumption))
    | (with_reducible apply Keeps.of_triple (by assumption))
    | (fail_if_no_progress with_reducible refine Keeps.record ?_ rfl rfl rfl rfl rfl rfl rfl)
    | (with_reducible apply Keeps.foldl_via; intro _ _)
    | (fail_if_no_progress dsimp -zeta +zetaDelta only)

theorem State.pondFailAdd_keeps (s : State) (n : ℕ) :
    Keeps s (State.pondFailAdd s n) := by
  unfold State.pondFailAdd
  repeat' first
    | split
    | extract_lets
    | with_reducible apply Keeps.via (State.pondFailure_keeps ..)
    | (with_reducible apply Keeps.of_ite <;> intro _)
    | with_reducible exact Keeps.refl _
    | (with_reducible apply Keeps.of_pair (by assumption))
    | (with_reducible apply Keeps.of_triple (by assumption))
    | (fail_if_no_progress with_reducible refine Keeps.record ?_ rfl rfl rfl rfl rfl rfl rfl)
    | (with_reducible apply Keeps.foldl_via; intro _ _)
    | (fail_if_no_progress dsimp -zeta +zetaDelta only)

theorem State.restoreFailed_keeps (s : State) (cause : ℕ) (va : ℕ) (gen : W32) :
    Keeps s (State.restoreFailed s cause va gen) := by
  unfold State.restoreFailed
  repeat' first
    | split
    | extract_lets
    | with_reducible apply Keeps.via (State.pondRecord_keeps ..)
    | with_reducible apply Keeps.via (State.raise_keeps ..)
    | (with_reducible apply Keeps.of_ite <;> intro _)
    | with_reducible exact Keeps.refl _
    | (with_reducible apply Keeps.of_pair (by assumption))
    | (with_reducible apply Keeps.of_triple (by assumption))
    | (fail_if_no_progress with_reducible refine Keeps.record ?_ rfl rfl rfl rfl rfl rfl rfl)
    | (with_reducible apply Keeps.foldl_via; intro _ _)
    | (fail_if_no_progress dsimp -zeta +zetaDelta only)

theorem State.pondAbort_keeps (s : State) :
    Keeps s (State.pondAbort s) := by
  unfold State.pondAbort
  repeat' first
    | split
    | extract_lets
    | with_reducible apply Keeps.via (State.onPond_keeps ..)
    | with_reducible apply Keeps.via (State.pondFail_keeps ..)
    | with_reducible apply Keeps.via (State.pondRearm_keeps ..)
    | with_reducible apply Keeps.via (State.pondRecord_keeps ..)
    | with_reducible apply Keeps.via (State.raise_keeps ..)
    | with_reducible apply Keeps.via (State.tally_keeps ..)
    | (with_reducible apply Keeps.of_ite <;> intro _)
    | with_reducible exact Keeps.refl _
    | (with_reducible apply Keeps.of_pair (by assumption))
    | (with_reducible apply Keeps.of_triple (by assumption))
    | (fail_if_no_progress with_reducible refine Keeps.record ?_ rfl rfl rfl rfl rfl rfl rfl)
    | (with_reducible apply Keeps.foldl_via; intro _ _)
    | (fail_if_no_progress dsimp -zeta +zetaDelta only)

theorem State.restorePages_keeps (s : State) (m : MillId) (slot : Bool) (mask : List Nat) (l : List Nat) :
    Keeps s (s.restorePages m slot mask l).2 := by
  induction l generalizing s with
  | nil => exact Keeps.refl s
  | cons i rest ih =>
    unfold State.restorePages
    extract_lets at1 va wanted
    split
    · exact ih s
    · split
      · exact Keeps.refl s
      · rename_i src _ _ _ _ _
        have hr := State.readRun_keeps s m src pageSize
        split
        · rename_i e; rw [e] at hr; exact hr
        · rename_i e
          rw [e] at hr
          split
          rename_i bad t e2
          have ht := Keeps.via (Keeps.of_pair e2 (State.takeInj_keeps ..)) hr
          extract_lets u
          have hu : Keeps s u := Keeps.via (State.tally_keeps _ .pond 12 1) (Keeps.via (State.copyCounted_keeps ..) (Keeps.via (State.physCopy_keeps t src _ pageSize) ht))
          split
          · exact Keeps.via (State.tally_keeps ..) hu
          · exact Keeps.via (ih _) hu


theorem pondTouchCopy_keeps (m : MillId) (codes : List Ecc) (s : State) :
    Keeps s (pondTouchCopy m codes s) := by
  unfold pondTouchCopy
  repeat' first
    | split
    | extract_lets
    | (with_reducible apply State.coded_via; intro _)
    | with_reducible apply Keeps.via (State.copyPage_keeps ..)
    | with_reducible apply Keeps.via (State.pondResume_keeps ..)
    | (with_reducible apply Keeps.of_ite <;> intro _)
    | with_reducible exact Keeps.refl _
    | (with_reducible apply Keeps.of_pair (by assumption))
    | (with_reducible apply Keeps.of_triple (by assumption))
    | (fail_if_no_progress with_reducible refine Keeps.record ?_ rfl rfl rfl rfl rfl rfl rfl)
    | (with_reducible apply Keeps.foldl_via; intro _ _)
    | (fail_if_no_progress dsimp -zeta +zetaDelta only)

theorem State.pondRestore_keeps (s : State) (slot : Bool) (settings : Bool) :
    Keeps s (State.pondRestore s slot settings) := by
  unfold State.pondRestore
  extract_lets f gen s1 ms masks r
  split
  · exact State.pondRecord_keeps ..
  · have h1 : Keeps s s1 := State.tally_keeps ..
    split
    · exact h1.trans (State.restoreFailed_keeps ..)
    · split
      · exact h1.trans (State.restoreFailed_keeps ..)
      · have hr : Keeps s r.2 := by
          refine h1.trans (Keeps.fold_acc (fun b : Option (Nat × Nat) × State => b.2) _ ?_ _ _ (Keeps.refl s1))
          intro b x
          dsimp only
          split
          · exact Keeps.refl _
          · exact State.restorePages_keeps ..
        clear_value r
        split
        · exact Keeps.trans hr (State.restoreFailed_keeps ..)
        · rename_i t
          extract_lets s2 s3 s4
          have h2 : Keeps t s2 := by
            change Keeps t (ite _ _ _)
            split
            · exact Keeps.forAll _ _ fun _ _ => State.restoreSettings_keeps ..
            · exact Keeps.refl t
          have h3 : Keeps s2 s3 := by
            change Keeps s2 (ite _ _ _)
            split
            · exact State.restoreGroups_keeps ..
            · exact Keeps.refl _
          refine (((Keeps.trans hr h2).trans h3).trans ?_).trans (State.raise_keeps ..)
          refine Keeps.forAll _ _ fun u m => ?_
          split
          · exact State.clearScale_keeps ..
          · exact Keeps.refl u

theorem State.stoneFault_keeps (s : State) (m : MillId) (n : Fin 24) (cause : ℕ) (command : Bool) (res : ℕ) (opnd : ℕ) (o : RaceOp) :
    Keeps s (State.stoneFault s m n cause command res opnd o) := by
  unfold State.stoneFault
  repeat' first
    | split
    | extract_lets
    | with_reducible apply Keeps.via (Keeps.onStone ..)
    | with_reducible apply Keeps.via (State.report_keeps ..)
    | (with_reducible apply Keeps.of_ite <;> intro _)
    | with_reducible exact Keeps.refl _
    | (with_reducible apply Keeps.of_pair (by assumption))
    | (with_reducible apply Keeps.of_triple (by assumption))
    | (fail_if_no_progress with_reducible refine Keeps.record ?_ rfl rfl rfl rfl rfl rfl rfl)
    | (with_reducible apply Keeps.foldl_via; intro _ _)
    | (fail_if_no_progress dsimp -zeta +zetaDelta only)

theorem State.onRaceOp_keeps (s : State) (m : MillId) (id : ℕ) (f : RaceOp → RaceOp) :
    Keeps s (State.onRaceOp s m id f) := by
  unfold State.onRaceOp
  repeat' first
    | split
    | extract_lets
    | with_reducible apply Keeps.via (Keeps.onRace ..)
    | (with_reducible apply Keeps.of_ite <;> intro _)
    | with_reducible exact Keeps.refl _
    | (with_reducible apply Keeps.of_pair (by assumption))
    | (with_reducible apply Keeps.of_triple (by assumption))
    | (fail_if_no_progress with_reducible refine Keeps.record ?_ rfl rfl rfl rfl rfl rfl rfl)
    | (with_reducible apply Keeps.foldl_via; intro _ _)
    | (fail_if_no_progress dsimp -zeta +zetaDelta only)

theorem State.keepBref_keeps (s : State) (own : MillId) (op : ℕ) (m : MillId) (t : OpndTensor) :
    Keeps s (State.keepBref s own op m t) := by
  unfold State.keepBref
  repeat' first
    | split
    | extract_lets
    | with_reducible apply Keeps.via (State.onRaceOp_keeps ..)
    | (with_reducible apply Keeps.of_ite <;> intro _)
    | with_reducible exact Keeps.refl _
    | (with_reducible apply Keeps.of_pair (by assumption))
    | (with_reducible apply Keeps.of_triple (by assumption))
    | (fail_if_no_progress with_reducible refine Keeps.record ?_ rfl rfl rfl rfl rfl rfl rfl)
    | (with_reducible apply Keeps.foldl_via; intro _ _)
    | (fail_if_no_progress dsimp -zeta +zetaDelta only)

theorem State.raceAbandon_keeps (s : State) (own : MillId) (pos : ℕ) (cause : ℕ) :
    Keeps s (State.raceAbandon s own pos cause) := by
  unfold State.raceAbandon
  repeat' first
    | split
    | extract_lets
    | with_reducible apply Keeps.via (Keeps.onRace ..)
    | with_reducible apply Keeps.via (State.raise_keeps ..)
    | (with_reducible apply State.record_via; intro _)
    | with_reducible apply Keeps.via (State.setWord_keeps ..)
    | with_reducible apply Keeps.via (State.tally_keeps ..)
    | (with_reducible apply Keeps.of_ite <;> intro _)
    | with_reducible exact Keeps.refl _
    | (with_reducible apply Keeps.of_pair (by assumption))
    | (with_reducible apply Keeps.of_triple (by assumption))
    | (fail_if_no_progress with_reducible refine Keeps.record ?_ rfl rfl rfl rfl rfl rfl rfl)
    | (with_reducible apply Keeps.foldl_via; intro _ _)
    | (fail_if_no_progress dsimp -zeta +zetaDelta only)

theorem State.govRun_keeps {α : Type} (s : State) (q : GovAt) (h : W64) (g : Gov α) (k : Runs s s g) : GovRes.All s (s.govRun q h g) := by
  unfold State.govRun
  unfold Runs at k
  split
  · rename_i e; rw [e] at k; exact k
  · trivial
  · rename_i e; rw [e] at k; exact Keeps.via (State.govEnd_keeps ..) k


theorem State.testRows_keeps (s : State) (m : MillId) (n : Fin 24) (found : List ℕ) :
    Keeps s (State.testRows s m n found).2 := by
  unfold State.testRows
  repeat' first
    | split
    | extract_lets
    | with_reducible apply Keeps.via (State.takeInj_keeps ..)
    | (with_reducible apply Keeps.of_ite <;> intro _)
    | with_reducible exact Keeps.refl _
    | (with_reducible apply Keeps.of_pair (by assumption))
    | (with_reducible apply Keeps.of_triple (by assumption))
    | (fail_if_no_progress with_reducible refine Keeps.record ?_ rfl rfl rfl rfl rfl rfl rfl)
    | (with_reducible apply Keeps.foldl_via; intro _ _)
    | (fail_if_no_progress dsimp -zeta +zetaDelta only)

theorem abortDone_keeps (m : MillId) (n : Fin 24) (s : State) :
    Keeps s (abortDone m n s) := by
  unfold abortDone
  repeat' first
    | split
    | extract_lets
    | with_reducible apply Keeps.via (Keeps.onStone ..)
    | with_reducible apply Keeps.via (State.raise_keeps ..)
    | (with_reducible apply Keeps.of_ite <;> intro _)
    | with_reducible exact Keeps.refl _
    | (with_reducible apply Keeps.of_pair (by assumption))
    | (with_reducible apply Keeps.of_triple (by assumption))
    | (fail_if_no_progress with_reducible refine Keeps.record ?_ rfl rfl rfl rfl rfl rfl rfl)
    | (with_reducible apply Keeps.foldl_via; intro _ _)
    | (fail_if_no_progress dsimp -zeta +zetaDelta only)

theorem State.broadcastRow_keeps (s : State) (m : MillId) (n : Fin 24) (o : RaceOp) (t : OpndTensor) (edge : ℤ) (es : List Elem) :
    Keeps s (State.broadcastRow s m n o t edge es) := by
  unfold State.broadcastRow
  repeat' first
    | split
    | extract_lets
    | with_reducible apply Keeps.via (Keeps.onStone ..)
    | with_reducible apply Keeps.via (State.keepBref_keeps ..)
    | with_reducible apply Keeps.via (State.onRaceOp_keeps ..)
    | with_reducible apply Keeps.via (State.tally_keeps ..)
    | (with_reducible apply Keeps.of_ite <;> intro _)
    | with_reducible exact Keeps.refl _
    | (with_reducible apply Keeps.of_pair (by assumption))
    | (with_reducible apply Keeps.of_triple (by assumption))
    | (fail_if_no_progress with_reducible refine Keeps.record ?_ rfl rfl rfl rfl rfl rfl rfl)
    | (with_reducible apply Keeps.foldl_via; intro _ _)
    | (fail_if_no_progress dsimp -zeta +zetaDelta only)

theorem State.openToll_keeps (s : State) (m : MillId) (r : TollRec) :
    Keeps s (State.openToll s m r) := by
  unfold State.openToll
  repeat' first
    | split
    | extract_lets
    | with_reducible apply Keeps.via (Keeps.onToll ..)
    | with_reducible apply Keeps.via (State.tally_keeps ..)
    | (with_reducible apply Keeps.of_ite <;> intro _)
    | with_reducible exact Keeps.refl _
    | (with_reducible apply Keeps.of_pair (by assumption))
    | (with_reducible apply Keeps.of_triple (by assumption))
    | (fail_if_no_progress with_reducible refine Keeps.record ?_ rfl rfl rfl rfl rfl rfl rfl)
    | (with_reducible apply Keeps.foldl_via; intro _ _)
    | (fail_if_no_progress dsimp -zeta +zetaDelta only)

theorem State.samplePass_keeps (s : State) (m : MillId) (n : Fin 24) (count : ℕ) (mode : Mode) (set : StatSet) (t : Streamed) (k : PassKind) (wide : Bool) (ones : Bool) (hit : Option (ℕ × ℕ)) (out : PassOut) (verdict : Bool) :
    Keeps s (State.samplePass s m n count mode set t k wide ones hit out verdict) := by
  unfold State.samplePass
  repeat' first
    | split
    | extract_lets
    | with_reducible apply Keeps.via (State.openToll_keeps ..)
    | with_reducible apply Keeps.via (State.takeInj_keeps ..)
    | (with_reducible apply Keeps.of_ite <;> intro _)
    | with_reducible exact Keeps.refl _
    | (with_reducible apply Keeps.of_pair (by assumption))
    | (with_reducible apply Keeps.of_triple (by assumption))
    | (fail_if_no_progress with_reducible refine Keeps.record ?_ rfl rfl rfl rfl rfl rfl rfl)
    | (with_reducible apply Keeps.foldl_via; intro _ _)
    | (fail_if_no_progress dsimp -zeta +zetaDelta only)

theorem State.partMade_keeps (s : State) (m : MillId) (n : Fin 24) (op : ℕ) :
    Keeps s (State.partMade s m n op) := by
  unfold State.partMade
  repeat' first
    | split
    | extract_lets
    | with_reducible apply Keeps.via (Keeps.onStone ..)
    | with_reducible apply Keeps.via (State.onRaceOp_keeps ..)
    | (with_reducible apply Keeps.of_ite <;> intro _)
    | with_reducible exact Keeps.refl _
    | (with_reducible apply Keeps.of_pair (by assumption))
    | (with_reducible apply Keeps.of_triple (by assumption))
    | (fail_if_no_progress with_reducible refine Keeps.record ?_ rfl rfl rfl rfl rfl rfl rfl)
    | (with_reducible apply Keeps.foldl_via; intro _ _)
    | (fail_if_no_progress dsimp -zeta +zetaDelta only)

theorem State.passEnded_keeps (s : State) (m : MillId) (n : Fin 24) (p : StonePass) :
    Keeps s (State.passEnded s m n p) := by
  unfold State.passEnded
  repeat' first
    | split
    | extract_lets
    | with_reducible apply Keeps.via (Keeps.onStone ..)
    | with_reducible apply Keeps.via (State.partMade_keeps ..)
    | (with_reducible apply Keeps.of_ite <;> intro _)
    | with_reducible exact Keeps.refl _
    | (with_reducible apply Keeps.of_pair (by assumption))
    | (with_reducible apply Keeps.of_triple (by assumption))
    | (fail_if_no_progress with_reducible refine Keeps.record ?_ rfl rfl rfl rfl rfl rfl rfl)
    | (with_reducible apply Keeps.foldl_via; intro _ _)
    | (fail_if_no_progress dsimp -zeta +zetaDelta only)

theorem State.checkRecord_keeps (s : State) (m : MillId) (n : Fin 24) (c : WfCheck) (ones : Bool) :
    Keeps s (State.checkRecord s m n c ones) := by
  unfold State.checkRecord
  repeat' first
    | split
    | extract_lets
    | (with_reducible apply State.record_via; intro _)
    | with_reducible apply Keeps.via (State.setWord64_keeps ..)
    | with_reducible apply Keeps.via (State.setWord_keeps ..)
    | (with_reducible apply Keeps.of_ite <;> intro _)
    | with_reducible exact Keeps.refl _
    | (with_reducible apply Keeps.of_pair (by assumption))
    | (with_reducible apply Keeps.of_triple (by assumption))
    | (fail_if_no_progress with_reducible refine Keeps.record ?_ rfl rfl rfl rfl rfl rfl rfl)
    | (with_reducible apply Keeps.foldl_via; intro _ _)
    | (fail_if_no_progress dsimp -zeta +zetaDelta only)

theorem State.checkFailure_keeps (s : State) (m : MillId) (n : Fin 24) (p : StonePass) (c : WfCheck) :
    Keeps s (State.checkFailure s m n p c) := by
  unfold State.checkFailure
  repeat' first
    | split
    | extract_lets
    | with_reducible apply Keeps.via (Keeps.onStone ..)
    | with_reducible apply Keeps.via (Keeps.onToll ..)
    | with_reducible apply Keeps.via (State.checkRecord_keeps ..)
    | with_reducible apply Keeps.via (State.histPending_keeps ..)
    | with_reducible apply Keeps.via (State.raise_keeps ..)
    | with_reducible apply Keeps.via (State.report_keeps ..)
    | with_reducible apply Keeps.via (State.tally_keeps ..)
    | (with_reducible apply Keeps.of_ite <;> intro _)
    | with_reducible exact Keeps.refl _
    | (with_reducible apply Keeps.of_pair (by assumption))
    | (with_reducible apply Keeps.of_triple (by assumption))
    | (fail_if_no_progress with_reducible refine Keeps.record ?_ rfl rfl rfl rfl rfl rfl rfl)
    | (with_reducible apply Keeps.foldl_via; intro _ _)
    | (fail_if_no_progress dsimp -zeta +zetaDelta only)

theorem wavefrontDone_keeps (m : MillId) (n : Fin 24) (s : State) :
    Keeps s (wavefrontDone m n s) := by
  unfold wavefrontDone
  repeat' first
    | split
    | extract_lets
    | with_reducible apply Keeps.via (Keeps.onStone ..)
    | with_reducible apply Keeps.via (State.checkFailure_keeps ..)
    | with_reducible apply Keeps.via (State.passEnded_keeps ..)
    | with_reducible apply Keeps.via (State.tally_keeps ..)
    | (with_reducible apply Keeps.of_ite <;> intro _)
    | with_reducible exact Keeps.refl _
    | (with_reducible apply Keeps.of_pair (by assumption))
    | (with_reducible apply Keeps.of_triple (by assumption))
    | (fail_if_no_progress with_reducible refine Keeps.record ?_ rfl rfl rfl rfl rfl rfl rfl)
    | (with_reducible apply Keeps.foldl_via; intro _ _)
    | (fail_if_no_progress dsimp -zeta +zetaDelta only)

theorem State.takeBankInj_keeps (s : State) (m : MillId) (n : Fin 24) (bank : ℕ) :
    Keeps s (State.takeBankInj s m n bank).2 := by
  unfold State.takeBankInj
  repeat' first
    | split
    | extract_lets
    | with_reducible apply Keeps.via (State.takeInj_keeps ..)
    | (with_reducible apply Keeps.of_ite <;> intro _)
    | with_reducible exact Keeps.refl _
    | (with_reducible apply Keeps.of_pair (by assumption))
    | (with_reducible apply Keeps.of_triple (by assumption))
    | (fail_if_no_progress with_reducible refine Keeps.record ?_ rfl rfl rfl rfl rfl rfl rfl)
    | (with_reducible apply Keeps.foldl_via; intro _ _)
    | (fail_if_no_progress dsimp -zeta +zetaDelta only)

theorem State.bankBad_keeps (s : State) (m : MillId) (n : Fin 24) (bank : ℕ) (o : RaceOp) (injected : Bool) :
    Keeps s (State.bankBad s m n bank o injected) := by
  unfold State.bankBad
  repeat' first
    | split
    | extract_lets
    | with_reducible apply Keeps.via (Keeps.onStone ..)
    | with_reducible apply Keeps.via (State.raise_keeps ..)
    | with_reducible apply Keeps.via (State.report_keeps ..)
    | (with_reducible apply Keeps.of_ite <;> intro _)
    | with_reducible exact Keeps.refl _
    | (with_reducible apply Keeps.of_pair (by assumption))
    | (with_reducible apply Keeps.of_triple (by assumption))
    | (fail_if_no_progress with_reducible refine Keeps.record ?_ rfl rfl rfl rfl rfl rfl rfl)
    | (with_reducible apply Keeps.foldl_via; intro _ _)
    | (fail_if_no_progress dsimp -zeta +zetaDelta only)

theorem State.bankRead_keeps (s : State) (m : MillId) (n : Fin 24) (bank : ℕ) (o : RaceOp) :
    Keeps s (State.bankRead s m n bank o).2 := by
  unfold State.bankRead
  repeat' first
    | split
    | extract_lets
    | with_reducible apply Keeps.via (State.bankBad_keeps ..)
    | with_reducible apply Keeps.via (State.raise_keeps ..)
    | with_reducible apply Keeps.via (State.takeBankInj_keeps ..)
    | with_reducible apply Keeps.via (State.tally_keeps ..)
    | (with_reducible apply Keeps.of_ite <;> intro _)
    | with_reducible exact Keeps.refl _
    | (with_reducible apply Keeps.of_pair (by assumption))
    | (with_reducible apply Keeps.of_triple (by assumption))
    | (fail_if_no_progress with_reducible refine Keeps.record ?_ rfl rfl rfl rfl rfl rfl rfl)
    | (with_reducible apply Keeps.foldl_via; intro _ _)
    | (fail_if_no_progress dsimp -zeta +zetaDelta only)

theorem State.sampleDrain_keeps (s : State) (m : MillId) (n : Fin 24) (bank : ℕ) :
    Keeps s (State.sampleDrain s m n bank) := by
  unfold State.sampleDrain
  repeat' first
    | split
    | extract_lets
    | with_reducible apply Keeps.via (Keeps.onStone ..)
    | with_reducible apply Keeps.via (State.openToll_keeps ..)
    | (with_reducible apply Keeps.of_ite <;> intro _)
    | with_reducible exact Keeps.refl _
    | (with_reducible apply Keeps.of_pair (by assumption))
    | (with_reducible apply Keeps.of_triple (by assumption))
    | (fail_if_no_progress with_reducible refine Keeps.record ?_ rfl rfl rfl rfl rfl rfl rfl)
    | (with_reducible apply Keeps.foldl_via; intro _ _)
    | (fail_if_no_progress dsimp -zeta +zetaDelta only)

theorem bankDrain_keeps (m : MillId) (n : Fin 24) (codes : List Ecc) (s : State) :
    Keeps s (bankDrain m n codes s) := by
  unfold bankDrain
  repeat' first
    | split
    | extract_lets
    | with_reducible apply Keeps.via (State.addJob_keeps ..)
    | with_reducible apply Keeps.via (State.bankRead_keeps ..)
    | (with_reducible apply State.coded_via; intro _)
    | with_reducible apply Keeps.via (State.onRaceOp_keeps ..)
    | with_reducible apply Keeps.via (State.sampleDrain_keeps ..)
    | with_reducible apply Keeps.via (State.stoneFault_keeps ..)
    | (with_reducible apply Keeps.forAll_via; intro _ _)
    | (with_reducible apply Keeps.of_ite <;> intro _)
    | with_reducible exact Keeps.refl _
    | (with_reducible apply Keeps.of_pair (by assumption))
    | (with_reducible apply Keeps.of_triple (by assumption))
    | (fail_if_no_progress with_reducible refine Keeps.record ?_ rfl rfl rfl rfl rfl rfl rfl)
    | (with_reducible apply Keeps.foldl_via; intro _ _)
    | (fail_if_no_progress dsimp -zeta +zetaDelta only)

theorem repairRun_keeps (m : MillId) (n : Fin 24) (s : State) :
    Keeps s (repairRun m n s) := by
  unfold repairRun
  repeat' first
    | split
    | extract_lets
    | with_reducible apply Keeps.via (Keeps.onStone ..)
    | (with_reducible apply Keeps.of_ite <;> intro _)
    | with_reducible exact Keeps.refl _
    | (with_reducible apply Keeps.of_pair (by assumption))
    | (with_reducible apply Keeps.of_triple (by assumption))
    | (fail_if_no_progress with_reducible refine Keeps.record ?_ rfl rfl rfl rfl rfl rfl rfl)
    | (with_reducible apply Keeps.foldl_via; intro _ _)
    | (fail_if_no_progress dsimp -zeta +zetaDelta only)

theorem State.writeSkew_keeps (s : State) (m : MillId) (n : Fin 24) (disabled : List ℕ) :
    Keeps s (State.writeSkew s m n disabled) := by
  unfold State.writeSkew
  repeat' first
    | split
    | extract_lets
    | with_reducible apply Keeps.via (State.setWord_keeps ..)
    | (with_reducible apply Keeps.forAll_via; intro _ _)
    | (with_reducible apply Keeps.of_ite <;> intro _)
    | with_reducible exact Keeps.refl _
    | (with_reducible apply Keeps.of_pair (by assumption))
    | (with_reducible apply Keeps.of_triple (by assumption))
    | (fail_if_no_progress with_reducible refine Keeps.record ?_ rfl rfl rfl rfl rfl rfl rfl)
    | (with_reducible apply Keeps.foldl_via; intro _ _)
    | (fail_if_no_progress dsimp -zeta +zetaDelta only)

theorem State.selftestHistory_keeps (s : State) (m : MillId) (n : Fin 24) (row : Option ℕ) :
    Keeps s (State.selftestHistory s m n row) := by
  unfold State.selftestHistory
  repeat' first
    | split
    | extract_lets
    | with_reducible apply Keeps.via (State.histWrite_keeps ..)
    | (with_reducible apply Keeps.of_ite <;> intro _)
    | with_reducible exact Keeps.refl _
    | (with_reducible apply Keeps.of_pair (by assumption))
    | (with_reducible apply Keeps.of_triple (by assumption))
    | (fail_if_no_progress with_reducible refine Keeps.record ?_ rfl rfl rfl rfl rfl rfl rfl)
    | (with_reducible apply Keeps.foldl_via; intro _ _)
    | (fail_if_no_progress dsimp -zeta +zetaDelta only)

theorem selftestDone_keeps (m : MillId) (n : Fin 24) (failing : List (Fin 261)) (pathFault : Bool) (s : State) :
    Keeps s (selftestDone m n failing pathFault s) := by
  unfold selftestDone
  repeat' first
    | split
    | extract_lets
    | with_reducible apply Keeps.via (Keeps.onStone ..)
    | with_reducible apply Keeps.via (State.putFld_keeps ..)
    | with_reducible apply Keeps.via (State.raise_keeps ..)
    | with_reducible apply Keeps.via (State.selftestHistory_keeps ..)
    | with_reducible apply Keeps.via (State.testRows_keeps ..)
    | with_reducible apply Keeps.via (State.writeSkew_keeps ..)
    | (with_reducible apply Keeps.forAll_via; intro _ _)
    | (with_reducible apply Keeps.of_ite <;> intro _)
    | with_reducible exact Keeps.refl _
    | (with_reducible apply Keeps.of_pair (by assumption))
    | (with_reducible apply Keeps.of_triple (by assumption))
    | (fail_if_no_progress with_reducible refine Keeps.record ?_ rfl rfl rfl rfl rfl rfl rfl)
    | (with_reducible apply Keeps.foldl_via; intro _ _)
    | (fail_if_no_progress dsimp -zeta +zetaDelta only)

theorem State.swapInjections_keeps (s : State) (m : MillId) (n : Fin 24) (set : StatSet) :
    Keeps s (State.swapInjections s m n set).2 := by
  unfold State.swapInjections
  repeat' first
    | split
    | extract_lets
    | with_reducible apply Keeps.via (State.takeInj_keeps ..)
    | (with_reducible apply Keeps.of_ite <;> intro _)
    | with_reducible exact Keeps.refl _
    | (with_reducible apply Keeps.of_pair (by assumption))
    | (with_reducible apply Keeps.of_triple (by assumption))
    | (fail_if_no_progress with_reducible refine Keeps.record ?_ rfl rfl rfl rfl rfl rfl rfl)
    | (with_reducible apply Keeps.foldl_via; intro _ _)
    | (fail_if_no_progress dsimp -zeta +zetaDelta only)

theorem swap_keeps (m : MillId) (n : Fin 24) (s : State) :
    Keeps s (swap m n s) := by
  unfold swap
  repeat' first
    | split
    | extract_lets
    | with_reducible apply Keeps.via (Keeps.onStone ..)
    | with_reducible apply Keeps.via (State.swapInjections_keeps ..)
    | with_reducible apply Keeps.via (State.tally_keeps ..)
    | (with_reducible apply Keeps.of_ite <;> intro _)
    | with_reducible exact Keeps.refl _
    | (with_reducible apply Keeps.of_pair (by assumption))
    | (with_reducible apply Keeps.of_triple (by assumption))
    | (fail_if_no_progress with_reducible refine Keeps.record ?_ rfl rfl rfl rfl rfl rfl rfl)
    | (with_reducible apply Keeps.foldl_via; intro _ _)
    | (fail_if_no_progress dsimp -zeta +zetaDelta only)

theorem readHopper_runs (m : MillId) (key : ℕ) (n : ℕ) (s : State) :
    Runs s s (readHopper m key n) := by
  unfold readHopper
  apply Runs.start; intro o k
  repeat' first
    | split
    | (intro _)
    | extract_lets
    | with_reducible apply Runs.get_bind
    | with_reducible apply Runs.set_bind
    | with_reducible apply Runs.modify_bind
    | with_reducible apply Runs.pure_bind
    | with_reducible apply Runs.throw_bind
    | with_reducible apply Runs.of_pure
    | with_reducible apply Runs.of_throw
    | with_reducible apply Runs.of_modify
    | with_reducible apply Runs.of_set
    | with_reducible apply Runs.step (Runs.forM _ _ fun _ _ => Runs.start ?_)
    | with_reducible apply Runs.last (Runs.forM _ _ fun _ _ => Runs.start ?_)
    | with_reducible apply Runs.step (Runs.mapM _ _ fun _ _ => Runs.start ?_)
    | with_reducible apply Runs.last (Runs.mapM _ _ fun _ _ => Runs.start ?_)
    | with_reducible apply Runs.map
    | with_reducible apply Runs.exceptMap
    | with_reducible refine Runs.bind ?_ ?_
    | (with_reducible assumption)
    | with_reducible apply Keeps.via (State.hopperRace_keeps ..)
    | (with_reducible apply State.record_via; intro _)
    | (with_reducible apply Keeps.of_ite <;> intro _)
    | with_reducible exact Keeps.refl _
    | (with_reducible apply Keeps.of_pair (by assumption))
    | (with_reducible apply Keeps.of_triple (by assumption))
    | (fail_if_no_progress with_reducible refine Keeps.record ?_ rfl rfl rfl rfl rfl rfl rfl)
    | (with_reducible apply Keeps.foldl_via; intro _ _)
    | dsimp -zeta +zetaDelta only

theorem loadRow_runs (q : GovAt) (o : RaceOp) (key : ℕ) (l : ℕ) (s : State) :
    Runs s s (loadRow q o key l) := by
  unfold loadRow
  apply Runs.start; intro o k
  repeat' first
    | split
    | (intro _)
    | extract_lets
    | with_reducible apply Runs.get_bind
    | with_reducible apply Runs.set_bind
    | with_reducible apply Runs.modify_bind
    | with_reducible apply Runs.pure_bind
    | with_reducible apply Runs.throw_bind
    | with_reducible apply Runs.of_pure
    | with_reducible apply Runs.of_throw
    | with_reducible apply Runs.of_modify
    | with_reducible apply Runs.of_set
    | with_reducible apply Runs.step (latchOperand_runs _ _ _ _ _)
    | with_reducible apply Runs.last (latchOperand_runs _ _ _ _ _)
    | with_reducible apply Runs.step (operandLine_runs _ _ _ _)
    | with_reducible apply Runs.last (operandLine_runs _ _ _ _)
    | with_reducible apply Runs.step (readHopper_runs _ _ _)
    | with_reducible apply Runs.last (readHopper_runs _ _ _)
    | with_reducible apply Runs.step (Runs.forM _ _ fun _ _ => Runs.start ?_)
    | with_reducible apply Runs.last (Runs.forM _ _ fun _ _ => Runs.start ?_)
    | with_reducible apply Runs.step (Runs.mapM _ _ fun _ _ => Runs.start ?_)
    | with_reducible apply Runs.last (Runs.mapM _ _ fun _ _ => Runs.start ?_)
    | with_reducible apply Runs.map
    | with_reducible apply Runs.exceptMap
    | with_reducible refine Runs.bind ?_ ?_
    | (with_reducible assumption)
    | (with_reducible apply State.record_via; intro _)
    | (with_reducible apply Keeps.of_ite <;> intro _)
    | with_reducible exact Keeps.refl _
    | (with_reducible apply Keeps.of_pair (by assumption))
    | (with_reducible apply Keeps.of_triple (by assumption))
    | (fail_if_no_progress with_reducible refine Keeps.record ?_ rfl rfl rfl rfl rfl rfl rfl)
    | (with_reducible apply Keeps.foldl_via; intro _ _)
    | dsimp -zeta +zetaDelta only

theorem shadowBroadcast_keeps (m : MillId) (n : Fin 24) (codes : List Ecc) (s : State) :
    Keeps s (shadowBroadcast m n codes s) := by
  unfold shadowBroadcast
  split
  · exact Keeps.refl s
  · split
    · exact Keeps.refl s
    · rename_i o _
      extract_lets l
      split
      · exact Keeps.refl s
      · refine Keeps.of_ite (fun _ => State.stoneFault_keeps ..) fun _ => ?_
        refine State.coded_keeps _ _ _ fun s => ?_
        have h := State.govRun_keeps s (loaderAt m n.val o.pc o.system) o.ay (loadRow (loaderAt m n.val o.pc o.system) o (o.block m) l) (loadRow_runs ..)
        split
        · exact Keeps.refl s
        · rename_i e; exact Keeps.via (Keeps.onStone ..) (GovRes.of_stop e h (Keeps.refl s))
        · rename_i e; exact Keeps.via (State.broadcastRow_keeps ..) (GovRes.of_ok e h (Keeps.refl s))

theorem State.takeCellInj_keeps (s : State) (m : MillId) (n : Fin 24) (set : StatSet) :
    Keeps s (State.takeCellInj s m n set).2 := by
  unfold State.takeCellInj
  repeat' first
    | split
    | extract_lets
    | with_reducible apply Keeps.via (State.takeInj_keeps ..)
    | (with_reducible apply Keeps.of_ite <;> intro _)
    | with_reducible exact Keeps.refl _
    | (with_reducible apply Keeps.of_pair (by assumption))
    | (with_reducible apply Keeps.of_triple (by assumption))
    | (fail_if_no_progress with_reducible refine Keeps.record ?_ rfl rfl rfl rfl rfl rfl rfl)
    | (with_reducible apply Keeps.foldl_via; intro _ _)
    | (fail_if_no_progress dsimp -zeta +zetaDelta only)

theorem passAbort_keeps (m : MillId) (n : Fin 24) (s : State) :
    Keeps s (passAbort m n s) := by
  unfold passAbort
  repeat' first
    | split
    | extract_lets
    | with_reducible apply Keeps.via (Keeps.onStone ..)
    | with_reducible apply Keeps.via (State.raceAbandon_keeps ..)
    | with_reducible apply Keeps.via (State.tally_keeps ..)
    | (with_reducible apply Keeps.of_ite <;> intro _)
    | with_reducible exact Keeps.refl _
    | (with_reducible apply Keeps.of_pair (by assumption))
    | (with_reducible apply Keeps.of_triple (by assumption))
    | (fail_if_no_progress with_reducible refine Keeps.record ?_ rfl rfl rfl rfl rfl rfl rfl)
    | (with_reducible apply Keeps.foldl_via; intro _ _)
    | (fail_if_no_progress dsimp -zeta +zetaDelta only)

theorem hopperTile_runs (q : GovAt) (handle : W64) (key : ℕ) (line0 : ℕ) (elem0 : ℕ) (columns : Bool) (bref : Option ℤ) (s : State) :
    Runs s s (hopperTile q handle key line0 elem0 columns bref) := by
  unfold hopperTile
  apply Runs.start; intro o k
  repeat' first
    | split
    | (intro _)
    | extract_lets
    | with_reducible apply Runs.get_bind
    | with_reducible apply Runs.set_bind
    | with_reducible apply Runs.modify_bind
    | with_reducible apply Runs.pure_bind
    | with_reducible apply Runs.throw_bind
    | with_reducible apply Runs.of_pure
    | with_reducible apply Runs.of_throw
    | with_reducible apply Runs.of_modify
    | with_reducible apply Runs.of_set
    | with_reducible apply Runs.step (latchOperand_runs _ _ _ _ _)
    | with_reducible apply Runs.last (latchOperand_runs _ _ _ _ _)
    | with_reducible apply Runs.step (operandLine_runs _ _ _ _)
    | with_reducible apply Runs.last (operandLine_runs _ _ _ _)
    | with_reducible apply Runs.step (readHopper_runs _ _ _)
    | with_reducible apply Runs.last (readHopper_runs _ _ _)
    | with_reducible apply Runs.step (Runs.forM _ _ fun _ _ => Runs.start ?_)
    | with_reducible apply Runs.last (Runs.forM _ _ fun _ _ => Runs.start ?_)
    | with_reducible apply Runs.step (Runs.mapM _ _ fun _ _ => Runs.start ?_)
    | with_reducible apply Runs.last (Runs.mapM _ _ fun _ _ => Runs.start ?_)
    | with_reducible apply Runs.map
    | with_reducible apply Runs.exceptMap
    | with_reducible refine Runs.bind ?_ ?_
    | (with_reducible assumption)
    | (with_reducible apply State.record_via; intro _)
    | (with_reducible apply Keeps.of_ite <;> intro _)
    | with_reducible exact Keeps.refl _
    | (with_reducible apply Keeps.of_pair (by assumption))
    | (with_reducible apply Keeps.of_triple (by assumption))
    | (fail_if_no_progress with_reducible refine Keeps.record ?_ rfl rfl rfl rfl rfl rfl rfl)
    | (with_reducible apply Keeps.foldl_via; intro _ _)
    | dsimp -zeta +zetaDelta only

theorem State.streamHopper_keeps (s : State) (m : MillId) (n : Nat) (own : MillId) (o : RaceOp) (handle : W64) (key line0 : Nat) (columns : Bool) :
    GovRes.All s (s.streamHopper m n own o handle key line0 columns) := by
  unfold State.streamHopper
  extract_lets q
  have h := State.govRun_keeps s q handle (hopperTile q handle key line0 o.elem0 columns (o.bref m (handleDesc handle))) (hopperTile_runs ..)
  split
  · rename_i e; exact Keeps.via (State.keepBref_keeps ..) (GovRes.of_ok e h (Keeps.refl s))
  · rename_i e; exact GovRes.of_stop e h (Keeps.refl s)
  · trivial


theorem State.streamed_keeps (s : State) (m : MillId) (n : Nat) (w : Work) : GovRes.All s (s.streamed m n w) := by
  unfold State.streamed
  split
  · exact Keeps.refl s
  · exact State.streamHopper_keeps ..
  · exact State.streamHopper_keeps ..


theorem State.bankFault_keeps (s : State) (m : MillId) (n : Fin 24) (bank : ℕ) (use : ℕ) (cause : ℕ) (o : RaceOp) :
    Keeps s (State.bankFault s m n bank use cause o) := by
  unfold State.bankFault
  repeat' first
    | split
    | extract_lets
    | with_reducible apply Keeps.via (State.stoneFault_keeps ..)
    | (with_reducible apply Keeps.of_ite <;> intro _)
    | with_reducible exact Keeps.refl _
    | (with_reducible apply Keeps.of_pair (by assumption))
    | (with_reducible apply Keeps.of_triple (by assumption))
    | (fail_if_no_progress with_reducible refine Keeps.record ?_ rfl rfl rfl rfl rfl rfl rfl)
    | (with_reducible apply Keeps.foldl_via; intro _ _)
    | (fail_if_no_progress dsimp -zeta +zetaDelta only)

theorem State.countPass_keeps (s : State) (m : MillId) (n : Fin 24) (flIn : ℕ) (flOut : ℕ) (nans : ℕ) :
    Keeps s (State.countPass s m n flIn flOut nans) := by
  unfold State.countPass
  repeat' first
    | split
    | extract_lets
    | with_reducible apply Keeps.via (State.raise_keeps ..)
    | with_reducible apply Keeps.via (State.tally_keeps ..)
    | (with_reducible apply Keeps.of_ite <;> intro _)
    | with_reducible exact Keeps.refl _
    | (with_reducible apply Keeps.of_pair (by assumption))
    | (with_reducible apply Keeps.of_triple (by assumption))
    | (fail_if_no_progress with_reducible refine Keeps.record ?_ rfl rfl rfl rfl rfl rfl rfl)
    | (with_reducible apply Keeps.foldl_via; intro _ _)
    | (fail_if_no_progress dsimp -zeta +zetaDelta only)

theorem State.countWork_keeps (s : State) (m : MillId) (w : Work) :
    Keeps s (State.countWork s m w) := by
  unfold State.countWork
  repeat' first
    | split
    | extract_lets
    | with_reducible apply Keeps.via (State.tally_keeps ..)
    | (with_reducible apply Keeps.of_ite <;> intro _)
    | with_reducible exact Keeps.refl _
    | (with_reducible apply Keeps.of_pair (by assumption))
    | (with_reducible apply Keeps.of_triple (by assumption))
    | (fail_if_no_progress with_reducible refine Keeps.record ?_ rfl rfl rfl rfl rfl rfl rfl)
    | (with_reducible apply Keeps.foldl_via; intro _ _)
    | (fail_if_no_progress dsimp -zeta +zetaDelta only)

theorem State.runPass_keeps (s : State) (m : MillId) (n : Fin 24) (w : Work) (t : Streamed) (k : PassKind) (bank : ℕ) (mode : Mode) :
    Keeps s (State.runPass s m n w t k bank mode) := by
  unfold State.runPass
  repeat' first
    | split
    | extract_lets
    | with_reducible apply Keeps.via (Keeps.onStone ..)
    | with_reducible apply Keeps.via (State.countPass_keeps ..)
    | with_reducible apply Keeps.via (State.countWork_keeps ..)
    | with_reducible apply Keeps.via (State.samplePass_keeps ..)
    | with_reducible apply Keeps.via (State.takeCellInj_keeps ..)
    | (with_reducible apply Keeps.of_ite <;> intro _)
    | with_reducible exact Keeps.refl _
    | (with_reducible apply Keeps.of_pair (by assumption))
    | (with_reducible apply Keeps.of_triple (by assumption))
    | (fail_if_no_progress with_reducible refine Keeps.record ?_ rfl rfl rfl rfl rfl rfl rfl)
    | (with_reducible apply Keeps.foldl_via; intro _ _)
    | (fail_if_no_progress dsimp -zeta +zetaDelta only)

theorem State.beginPass_keeps (s : State) (m : MillId) (n : Fin 24) (w : Work) (o : RaceOp) (t : Streamed) (bank : ℕ) (mode : Mode) :
    Keeps s (State.beginPass s m n w o t bank mode) := by
  unfold State.beginPass
  repeat' first
    | split
    | extract_lets
    | with_reducible apply Keeps.via (Keeps.onStone ..)
    | with_reducible apply Keeps.via (State.bankFault_keeps ..)
    | with_reducible apply Keeps.via (State.bankRead_keeps ..)
    | with_reducible apply Keeps.via (State.govFault_keeps ..)
    | with_reducible apply Keeps.via (State.runPass_keeps ..)
    | with_reducible apply Keeps.via (State.stoneFault_keeps ..)
    | (with_reducible apply Keeps.of_ite <;> intro _)
    | with_reducible exact Keeps.refl _
    | (with_reducible apply Keeps.of_pair (by assumption))
    | (with_reducible apply Keeps.of_triple (by assumption))
    | (fail_if_no_progress with_reducible refine Keeps.record ?_ rfl rfl rfl rfl rfl rfl rfl)
    | (with_reducible apply Keeps.foldl_via; intro _ _)
    | (fail_if_no_progress dsimp -zeta +zetaDelta only)

theorem stonePass_keeps (m : MillId) (n : Fin 24) (codes : List Ecc) (s : State) :
    Keeps s (stonePass m n codes s) := by
  unfold stonePass
  repeat' first
    | split
    | extract_lets
    | with_reducible apply Keeps.via (Keeps.onStone ..)
    | with_reducible apply Keeps.via (State.beginPass_keeps ..)
    | (with_reducible apply State.coded_via; intro _)
    | (with_reducible refine GovRes.of_ok (by assumption) (State.streamed_keeps ..) ?_)
    | (with_reducible refine GovRes.of_stop (by assumption) (State.streamed_keeps ..) ?_)
    | (with_reducible apply Keeps.of_ite <;> intro _)
    | with_reducible exact Keeps.refl _
    | (with_reducible apply Keeps.of_pair (by assumption))
    | (with_reducible apply Keeps.of_triple (by assumption))
    | (fail_if_no_progress with_reducible refine Keeps.record ?_ rfl rfl rfl rfl rfl rfl rfl)
    | (with_reducible apply Keeps.foldl_via; intro _ _)
    | (fail_if_no_progress dsimp -zeta +zetaDelta only)

theorem State.repairCtl_keeps (s : State) (m : MillId) (n : Fin 24) (apply : Bool) (test : Bool) :
    Keeps s (State.repairCtl s m n apply test) := by
  unfold State.repairCtl
  repeat' first
    | split
    | extract_lets
    | with_reducible apply Keeps.via (Keeps.onStone ..)
    | with_reducible apply Keeps.via (State.putFld_keeps ..)
    | (with_reducible apply Keeps.of_ite <;> intro _)
    | with_reducible exact Keeps.refl _
    | (with_reducible apply Keeps.of_pair (by assumption))
    | (with_reducible apply Keeps.of_triple (by assumption))
    | (fail_if_no_progress with_reducible refine Keeps.record ?_ rfl rfl rfl rfl rfl rfl rfl)
    | (with_reducible apply Keeps.foldl_via; intro _ _)
    | (fail_if_no_progress dsimp -zeta +zetaDelta only)

theorem rowShift_keeps (m : MillId) (n : Fin 24) (s : State) :
    Keeps s (rowShift m n s) := by
  unfold rowShift
  repeat' first
    | split
    | extract_lets
    | with_reducible apply Keeps.via (Keeps.onStone ..)
    | with_reducible apply Keeps.via (State.stoneFault_keeps ..)
    | with_reducible apply Keeps.via (State.takeInj_keeps ..)
    | with_reducible apply Keeps.via (State.tally_keeps ..)
    | (with_reducible apply Keeps.of_ite <;> intro _)
    | with_reducible exact Keeps.refl _
    | (with_reducible apply Keeps.of_pair (by assumption))
    | (with_reducible apply Keeps.of_triple (by assumption))
    | (fail_if_no_progress with_reducible refine Keeps.record ?_ rfl rfl rfl rfl rfl rfl rfl)
    | (with_reducible apply Keeps.foldl_via; intro _ _)
    | (fail_if_no_progress dsimp -zeta +zetaDelta only)

theorem State.takeDW_keeps (s : State) (m : MillId) (stream : ℕ) (c : Column) :
    Keeps s (State.takeDW s m stream c) := by
  unfold State.takeDW
  repeat' first
    | split
    | extract_lets
    | with_reducible apply Keeps.via (Keeps.onRace ..)
    | (with_reducible apply Keeps.of_ite <;> intro _)
    | with_reducible exact Keeps.refl _
    | (with_reducible apply Keeps.of_pair (by assumption))
    | (with_reducible apply Keeps.of_triple (by assumption))
    | (fail_if_no_progress with_reducible refine Keeps.record ?_ rfl rfl rfl rfl rfl rfl rfl)
    | (with_reducible apply Keeps.foldl_via; intro _ _)
    | (fail_if_no_progress dsimp -zeta +zetaDelta only)

theorem State.writeTile_keeps (s : State) (own : MillId) (stream : ℕ) :
    Keeps s (State.writeTile s own stream) := by
  unfold State.writeTile
  repeat' first
    | split
    | extract_lets
    | with_reducible apply Keeps.via (Keeps.onRace ..)
    | with_reducible apply Keeps.via (State.addJob_keeps ..)
    | with_reducible apply Keeps.via (State.onRaceOp_keeps ..)
    | with_reducible apply Keeps.via (State.tally_keeps ..)
    | (with_reducible apply Keeps.forAll_via; intro _ _)
    | (with_reducible apply Keeps.of_ite <;> intro _)
    | with_reducible exact Keeps.refl _
    | (with_reducible apply Keeps.of_pair (by assumption))
    | (with_reducible apply Keeps.of_triple (by assumption))
    | (fail_if_no_progress with_reducible refine Keeps.record ?_ rfl rfl rfl rfl rfl rfl rfl)
    | (with_reducible apply Keeps.foldl_via; intro _ _)
    | (fail_if_no_progress dsimp -zeta +zetaDelta only)

theorem State.takeCompat_keeps (s : State) (m : MillId) :
    Keeps s (State.takeCompat s m) := by
  unfold State.takeCompat
  repeat' first
    | split
    | extract_lets
    | with_reducible apply Keeps.via (Keeps.onGov ..)
    | (with_reducible apply Keeps.of_ite <;> intro _)
    | with_reducible exact Keeps.refl _
    | (with_reducible apply Keeps.of_pair (by assumption))
    | (with_reducible apply Keeps.of_triple (by assumption))
    | (fail_if_no_progress with_reducible refine Keeps.record ?_ rfl rfl rfl rfl rfl rfl rfl)
    | (with_reducible apply Keeps.foldl_via; intro _ _)
    | (fail_if_no_progress dsimp -zeta +zetaDelta only)

theorem tileTensor_runs (q : GovAt) (o : RaceOp) (s : State) :
    Runs s s (tileTensor q o) := by
  unfold tileTensor
  apply Runs.start; intro o k
  repeat' first
    | split
    | (intro _)
    | extract_lets
    | with_reducible apply Runs.get_bind
    | with_reducible apply Runs.set_bind
    | with_reducible apply Runs.modify_bind
    | with_reducible apply Runs.pure_bind
    | with_reducible apply Runs.throw_bind
    | with_reducible apply Runs.of_pure
    | with_reducible apply Runs.of_throw
    | with_reducible apply Runs.of_modify
    | with_reducible apply Runs.of_set
    | with_reducible apply Runs.step (latchOperand_runs _ _ _ _ _)
    | with_reducible apply Runs.last (latchOperand_runs _ _ _ _ _)
    | with_reducible apply Runs.step (Runs.forM _ _ fun _ _ => Runs.start ?_)
    | with_reducible apply Runs.last (Runs.forM _ _ fun _ _ => Runs.start ?_)
    | with_reducible apply Runs.step (Runs.mapM _ _ fun _ _ => Runs.start ?_)
    | with_reducible apply Runs.last (Runs.mapM _ _ fun _ _ => Runs.start ?_)
    | with_reducible apply Runs.map
    | with_reducible apply Runs.exceptMap
    | with_reducible refine Runs.bind ?_ ?_
    | (with_reducible assumption)
    | (with_reducible apply State.record_via; intro _)
    | (with_reducible apply Keeps.of_ite <;> intro _)
    | with_reducible exact Keeps.refl _
    | (with_reducible apply Keeps.of_pair (by assumption))
    | (with_reducible apply Keeps.of_triple (by assumption))
    | (fail_if_no_progress with_reducible refine Keeps.record ?_ rfl rfl rfl rfl rfl rfl rfl)
    | (with_reducible apply Keeps.foldl_via; intro _ _)
    | dsimp -zeta +zetaDelta only

theorem State.issueTile_keeps (s : State) (m : MillId) (o : RaceOp) :
    Keeps s (State.issueTile s m o) := by
  unfold State.issueTile
  have h := State.govRun_keeps s (headraceAt m o.pc o.system) o.ay (tileTensor (headraceAt m o.pc o.system) o) (tileTensor_runs ..)
  split
  · exact Keeps.refl s
  · rename_i e; exact GovRes.of_stop e h (Keeps.refl s)
  · rename_i t u e
    have hu : Keeps s u := GovRes.of_ok e h (Keeps.refl s)
    split
    rename_i n0 n1 _
    extract_lets x
    split
    · exact hu
    · split
      · exact Keeps.via (State.sluFault_keeps ..) hu
      · exact Keeps.via (State.enqueue_keeps ..) hu

theorem State.raiseRaces_keeps (s : State) (bit : ℕ) :
    Keeps s (State.raiseRaces s bit) := by
  unfold State.raiseRaces
  repeat' first
    | split
    | extract_lets
    | with_reducible apply Keeps.via (State.raise_keeps ..)
    | (with_reducible apply Keeps.of_ite <;> intro _)
    | with_reducible exact Keeps.refl _
    | (with_reducible apply Keeps.of_pair (by assumption))
    | (with_reducible apply Keeps.of_triple (by assumption))
    | (fail_if_no_progress with_reducible refine Keeps.record ?_ rfl rfl rfl rfl rfl rfl rfl)
    | (with_reducible apply Keeps.foldl_via; intro _ _)
    | (fail_if_no_progress dsimp -zeta +zetaDelta only)

theorem State.setSplice_keeps (s : State) (on : Bool) (one : Bool) :
    Keeps s (State.setSplice s on one) := by
  unfold State.setSplice
  repeat' first
    | split
    | extract_lets
    | with_reducible apply Keeps.via (Keeps.onRace ..)
    | (with_reducible apply Keeps.of_ite <;> intro _)
    | with_reducible exact Keeps.refl _
    | (with_reducible apply Keeps.of_pair (by assumption))
    | (with_reducible apply Keeps.of_triple (by assumption))
    | (fail_if_no_progress with_reducible refine Keeps.record ?_ rfl rfl rfl rfl rfl rfl rfl)
    | (with_reducible apply Keeps.foldl_via; intro _ _)
    | (fail_if_no_progress dsimp -zeta +zetaDelta only)

theorem State.unsplice_keeps (s : State) (mismatch : Bool) :
    Keeps s (State.unsplice s mismatch) := by
  unfold State.unsplice
  repeat' first
    | split
    | extract_lets
    | with_reducible apply Keeps.via (State.raiseRaces_keeps ..)
    | with_reducible apply Keeps.via (State.setSplice_keeps ..)
    | (with_reducible apply Keeps.of_ite <;> intro _)
    | with_reducible exact Keeps.refl _
    | (with_reducible apply Keeps.of_pair (by assumption))
    | (with_reducible apply Keeps.of_triple (by assumption))
    | (fail_if_no_progress with_reducible refine Keeps.record ?_ rfl rfl rfl rfl rfl rfl rfl)
    | (with_reducible apply Keeps.foldl_via; intro _ _)
    | (fail_if_no_progress dsimp -zeta +zetaDelta only)

theorem tileScale_runs (q : GovAt) (t : OpndTensor) (o : RaceOp) (i : ℕ) (s : State) :
    Runs s s (tileScale q t o i) := by
  unfold tileScale
  apply Runs.start; intro o k
  repeat' first
    | split
    | (intro _)
    | extract_lets
    | with_reducible apply Runs.get_bind
    | with_reducible apply Runs.set_bind
    | with_reducible apply Runs.modify_bind
    | with_reducible apply Runs.pure_bind
    | with_reducible apply Runs.throw_bind
    | with_reducible apply Runs.of_pure
    | with_reducible apply Runs.of_throw
    | with_reducible apply Runs.of_modify
    | with_reducible apply Runs.of_set
    | with_reducible apply Runs.step (lineEntry_runs _ _)
    | with_reducible apply Runs.last (lineEntry_runs _ _)
    | with_reducible apply Runs.step (Runs.forM _ _ fun _ _ => Runs.start ?_)
    | with_reducible apply Runs.last (Runs.forM _ _ fun _ _ => Runs.start ?_)
    | with_reducible apply Runs.step (Runs.mapM _ _ fun _ _ => Runs.start ?_)
    | with_reducible apply Runs.last (Runs.mapM _ _ fun _ _ => Runs.start ?_)
    | with_reducible apply Runs.map
    | with_reducible apply Runs.exceptMap
    | with_reducible refine Runs.bind ?_ ?_
    | (with_reducible assumption)
    | (with_reducible apply State.record_via; intro _)
    | (with_reducible apply Keeps.of_ite <;> intro _)
    | with_reducible exact Keeps.refl _
    | (with_reducible apply Keeps.of_pair (by assumption))
    | (with_reducible apply Keeps.of_triple (by assumption))
    | (fail_if_no_progress with_reducible refine Keeps.record ?_ rfl rfl rfl rfl rfl rfl rfl)
    | (with_reducible apply Keeps.foldl_via; intro _ _)
    | dsimp -zeta +zetaDelta only

theorem tileColumn_runs (q : GovAt) (o : RaceOp) (folds : Bool) (s : State) :
    Runs s s (tileColumn q o folds) := by
  unfold tileColumn
  apply Runs.start; intro o k
  repeat' first
    | split
    | (intro _)
    | extract_lets
    | with_reducible apply Runs.get_bind
    | with_reducible apply Runs.set_bind
    | with_reducible apply Runs.modify_bind
    | with_reducible apply Runs.pure_bind
    | with_reducible apply Runs.throw_bind
    | with_reducible apply Runs.of_pure
    | with_reducible apply Runs.of_throw
    | with_reducible apply Runs.of_modify
    | with_reducible apply Runs.of_set
    | with_reducible apply Runs.step (latchOperand_runs _ _ _ _ _)
    | with_reducible apply Runs.last (latchOperand_runs _ _ _ _ _)
    | with_reducible apply Runs.step (scaleLine_runs _ _ _ _ _)
    | with_reducible apply Runs.last (scaleLine_runs _ _ _ _ _)
    | with_reducible apply Runs.step (tileScale_runs _ _ _ _)
    | with_reducible apply Runs.last (tileScale_runs _ _ _ _)
    | with_reducible apply Runs.step (Runs.forM _ _ fun _ _ => Runs.start ?_)
    | with_reducible apply Runs.last (Runs.forM _ _ fun _ _ => Runs.start ?_)
    | with_reducible apply Runs.step (Runs.mapM _ _ fun _ _ => Runs.start ?_)
    | with_reducible apply Runs.last (Runs.mapM _ _ fun _ _ => Runs.start ?_)
    | with_reducible apply Runs.map
    | with_reducible apply Runs.exceptMap
    | with_reducible refine Runs.bind ?_ ?_
    | (with_reducible assumption)
    | (with_reducible apply State.record_via; intro _)
    | (with_reducible apply Keeps.of_ite <;> intro _)
    | with_reducible exact Keeps.refl _
    | (with_reducible apply Keeps.of_pair (by assumption))
    | (with_reducible apply Keeps.of_triple (by assumption))
    | (fail_if_no_progress with_reducible refine Keeps.record ?_ rfl rfl rfl rfl rfl rfl rfl)
    | (with_reducible apply Keeps.foldl_via; intro _ _)
    | dsimp -zeta +zetaDelta only

theorem State.setCols_keeps (s : State) (own : MillId) (pos : ℕ) (stream : ℕ) (cs : List Column) :
    Keeps s (State.setCols s own pos stream cs) := by
  unfold State.setCols
  repeat' first
    | split
    | extract_lets
    | with_reducible apply Keeps.via (Keeps.onRace ..)
    | (with_reducible apply Keeps.of_ite <;> intro _)
    | with_reducible exact Keeps.refl _
    | (with_reducible apply Keeps.of_pair (by assumption))
    | (with_reducible apply Keeps.of_triple (by assumption))
    | (fail_if_no_progress with_reducible refine Keeps.record ?_ rfl rfl rfl rfl rfl rfl rfl)
    | (with_reducible apply Keeps.foldl_via; intro _ _)
    | (fail_if_no_progress dsimp -zeta +zetaDelta only)

theorem State.setTail_keeps (s : State) (own : MillId) (stream : ℕ) (cs : List Column) :
    Keeps s (State.setTail s own stream cs) := by
  unfold State.setTail
  repeat' first
    | split
    | extract_lets
    | with_reducible apply Keeps.via (Keeps.onRace ..)
    | (with_reducible apply Keeps.of_ite <;> intro _)
    | with_reducible exact Keeps.refl _
    | (with_reducible apply Keeps.of_pair (by assumption))
    | (with_reducible apply Keeps.of_triple (by assumption))
    | (fail_if_no_progress with_reducible refine Keeps.record ?_ rfl rfl rfl rfl rfl rfl rfl)
    | (with_reducible apply Keeps.foldl_via; intro _ _)
    | (fail_if_no_progress dsimp -zeta +zetaDelta only)

theorem State.arriveCol_keeps (s : State) (own : MillId) (q : ℕ) (stream : ℕ) (c : Column) :
    Keeps s (State.arriveCol s own q stream c) := by
  unfold State.arriveCol
  repeat' first
    | split
    | extract_lets
    | with_reducible apply Keeps.via (Keeps.onRace ..)
    | with_reducible apply Keeps.via (State.setCols_keeps ..)
    | with_reducible apply Keeps.via (State.setTail_keeps ..)
    | (with_reducible apply Keeps.of_ite <;> intro _)
    | with_reducible exact Keeps.refl _
    | (with_reducible apply Keeps.of_pair (by assumption))
    | (with_reducible apply Keeps.of_triple (by assumption))
    | (fail_if_no_progress with_reducible refine Keeps.record ?_ rfl rfl rfl rfl rfl rfl rfl)
    | (with_reducible apply Keeps.foldl_via; intro _ _)
    | (fail_if_no_progress dsimp -zeta +zetaDelta only)

theorem headraceEntry_keeps (m : MillId) (stream : Fin 4) (codes : List Ecc) (s : State) :
    Keeps s (headraceEntry m stream codes s) := by
  unfold headraceEntry
  split
  · exact Keeps.refl s
  · split
    · exact Keeps.refl s
    · rename_i o _
      split
      · exact Keeps.refl s
      · refine State.coded_keeps _ _ _ fun s => ?_
        have h := State.govRun_keeps s (headraceAt m o.pc o.system) o.ay (tileColumn (headraceAt m o.pc o.system) o (s.tileFolds m o.stream)) (tileColumn_runs ..)
        split
        · exact Keeps.refl s
        · rename_i e; exact Keeps.via (State.onRaceOp_keeps ..) (GovRes.of_stop e h (Keeps.refl s))
        · rename_i t c u e
          have hu : Keeps s u := GovRes.of_ok e h (Keeps.refl s)
          extract_lets v w x
          have hw : Keeps s w := Keeps.via (State.tally_keeps ..) (Keeps.via (State.tally_keeps ..) (Keeps.via (State.keepBref_keeps ..) hu))
          have hx : Keeps s x := Keeps.of_ite (fun _ => Keeps.via (State.tally_keeps ..) hw) fun _ => hw
          exact Keeps.via (State.onRaceOp_keeps ..) (Keeps.via (State.arriveCol_keeps ..) hx)

theorem compatChange_keeps (m : MillId) (s : State) :
    Keeps s (compatChange m s) := by
  unfold compatChange
  repeat' first
    | split
    | extract_lets
    | with_reducible apply Keeps.via (State.takeCompat_keeps ..)
    | with_reducible apply Keeps.via (State.unsplice_keeps ..)
    | (with_reducible apply Keeps.of_ite <;> intro _)
    | with_reducible exact Keeps.refl _
    | (with_reducible apply Keeps.of_pair (by assumption))
    | (with_reducible apply Keeps.of_triple (by assumption))
    | (fail_if_no_progress with_reducible refine Keeps.record ?_ rfl rfl rfl rfl rfl rfl rfl)
    | (with_reducible apply Keeps.foldl_via; intro _ _)
    | (fail_if_no_progress dsimp -zeta +zetaDelta only)

theorem State.finishRaceOp_keeps (s : State) (m : MillId) (o : RaceOp) :
    Keeps s (State.finishRaceOp s m o) := by
  unfold State.finishRaceOp
  repeat' first
    | split
    | extract_lets
    | with_reducible apply Keeps.via (Keeps.onRace ..)
    | with_reducible apply Keeps.via (State.enginePost_keeps ..)
    | (with_reducible apply Keeps.of_ite <;> intro _)
    | with_reducible exact Keeps.refl _
    | (with_reducible apply Keeps.of_pair (by assumption))
    | (with_reducible apply Keeps.of_triple (by assumption))
    | (fail_if_no_progress with_reducible refine Keeps.record ?_ rfl rfl rfl rfl rfl rfl rfl)
    | (with_reducible apply Keeps.foldl_via; intro _ _)
    | (fail_if_no_progress dsimp -zeta +zetaDelta only)

theorem State.bindDone_keeps (s : State) (m : MillId) (o : RaceOp) :
    Keeps s (State.bindDone s m o) := by
  unfold State.bindDone
  repeat' first
    | split
    | extract_lets
    | with_reducible apply Keeps.via (Keeps.onRace ..)
    | with_reducible apply Keeps.via (State.finishRaceOp_keeps ..)
    | with_reducible apply Keeps.via (State.onRaceOp_keeps ..)
    | with_reducible apply Keeps.via (State.report_keeps ..)
    | (with_reducible apply Keeps.of_ite <;> intro _)
    | with_reducible exact Keeps.refl _
    | (with_reducible apply Keeps.of_pair (by assumption))
    | (with_reducible apply Keeps.of_triple (by assumption))
    | (fail_if_no_progress with_reducible refine Keeps.record ?_ rfl rfl rfl rfl rfl rfl rfl)
    | (with_reducible apply Keeps.foldl_via; intro _ _)
    | (fail_if_no_progress dsimp -zeta +zetaDelta only)

theorem State.corruptWord_keeps (s : State) (own : MillId) (q : ℕ) (c : Column) :
    Keeps s (State.corruptWord s own q c).2 := by
  unfold State.corruptWord
  repeat' first
    | split
    | extract_lets
    | with_reducible apply Keeps.via (State.drawn_keeps ..)
    | with_reducible apply Keeps.via (State.takeInjAt_keeps ..)
    | (with_reducible apply Keeps.of_ite <;> intro _)
    | with_reducible exact Keeps.refl _
    | (with_reducible apply Keeps.of_pair (by assumption))
    | (with_reducible apply Keeps.of_triple (by assumption))
    | (fail_if_no_progress with_reducible refine Keeps.record ?_ rfl rfl rfl rfl rfl rfl rfl)
    | (with_reducible apply Keeps.foldl_via; intro _ _)
    | (fail_if_no_progress dsimp -zeta +zetaDelta only)

theorem State.hopCol_keeps (s : State) (own : MillId) (q : ℕ) (stream : ℕ) (c : Column) (k : HopKind) :
    Keeps s (State.hopCol s own q stream c k) := by
  unfold State.hopCol
  repeat' first
    | split
    | extract_lets
    | with_reducible apply Keeps.via (Keeps.onStone ..)
    | with_reducible apply Keeps.via (State.arriveCol_keeps ..)
    | with_reducible apply Keeps.via (State.corruptWord_keeps ..)
    | with_reducible apply Keeps.via (State.setCols_keeps ..)
    | with_reducible apply Keeps.via (State.tally_keeps ..)
    | (with_reducible apply Keeps.of_ite <;> intro _)
    | with_reducible exact Keeps.refl _
    | (with_reducible apply Keeps.of_pair (by assumption))
    | (with_reducible apply Keeps.of_triple (by assumption))
    | (fail_if_no_progress with_reducible refine Keeps.record ?_ rfl rfl rfl rfl rfl rfl rfl)
    | (with_reducible apply Keeps.foldl_via; intro _ _)
    | (fail_if_no_progress dsimp -zeta +zetaDelta only)

theorem State.raceInjected_keeps (s : State) (own : MillId) (q : ℕ) (shaft : Bool) :
    Keeps s (State.raceInjected s own q shaft) := by
  unfold State.raceInjected
  repeat' first
    | split
    | extract_lets
    | with_reducible apply Keeps.via (State.raceAbandon_keeps ..)
    | with_reducible apply Keeps.via (State.raise_keeps ..)
    | with_reducible apply Keeps.via (State.report_keeps ..)
    | (with_reducible apply Keeps.of_ite <;> intro _)
    | with_reducible exact Keeps.refl _
    | (with_reducible apply Keeps.of_pair (by assumption))
    | (with_reducible apply Keeps.of_triple (by assumption))
    | (fail_if_no_progress with_reducible refine Keeps.record ?_ rfl rfl rfl rfl rfl rfl rfl)
    | (with_reducible apply Keeps.foldl_via; intro _ _)
    | (fail_if_no_progress dsimp -zeta +zetaDelta only)

theorem spliceBegin_keeps (s : State) :
    Keeps s (spliceBegin s) := by
  unfold spliceBegin
  repeat' first
    | split
    | extract_lets
    | with_reducible apply Keeps.via (State.raiseRaces_keeps ..)
    | with_reducible apply Keeps.via (State.setSplice_keeps ..)
    | with_reducible apply Keeps.via (State.takeCompat_keeps ..)
    | (with_reducible apply Keeps.of_ite <;> intro _)
    | with_reducible exact Keeps.refl _
    | (with_reducible apply Keeps.of_pair (by assumption))
    | (with_reducible apply Keeps.of_triple (by assumption))
    | (fail_if_no_progress with_reducible refine Keeps.record ?_ rfl rfl rfl rfl rfl rfl rfl)
    | (with_reducible apply Keeps.foldl_via; intro _ _)
    | (fail_if_no_progress dsimp -zeta +zetaDelta only)

theorem raceOpDone_keeps (m : MillId) (k : ℕ) (s : State) :
    Keeps s (raceOpDone m k s) := by
  unfold raceOpDone
  repeat' first
    | split
    | extract_lets
    | with_reducible apply Keeps.via (Keeps.onStone ..)
    | with_reducible apply Keeps.via (State.bindDone_keeps ..)
    | with_reducible apply Keeps.via (State.finishRaceOp_keeps ..)
    | with_reducible apply Keeps.via (State.tally_keeps ..)
    | (with_reducible apply Keeps.of_ite <;> intro _)
    | with_reducible exact Keeps.refl _
    | (with_reducible apply Keeps.of_pair (by assumption))
    | (with_reducible apply Keeps.of_triple (by assumption))
    | (fail_if_no_progress with_reducible refine Keeps.record ?_ rfl rfl rfl rfl rfl rfl rfl)
    | (with_reducible apply Keeps.foldl_via; intro _ _)
    | (fail_if_no_progress dsimp -zeta +zetaDelta only)

theorem spliceEnd_keeps (s : State) :
    Keeps s (spliceEnd s) := by
  unfold spliceEnd
  repeat' first
    | split
    | extract_lets
    | with_reducible apply Keeps.via (State.takeCompat_keeps ..)
    | with_reducible apply Keeps.via (State.unsplice_keeps ..)
    | (with_reducible apply Keeps.of_ite <;> intro _)
    | with_reducible exact Keeps.refl _
    | (with_reducible apply Keeps.of_pair (by assumption))
    | (with_reducible apply Keeps.of_triple (by assumption))
    | (fail_if_no_progress with_reducible refine Keeps.record ?_ rfl rfl rfl rfl rfl rfl rfl)
    | (with_reducible apply Keeps.foldl_via; intro _ _)
    | (fail_if_no_progress dsimp -zeta +zetaDelta only)

theorem State.hopInjected_keeps (s : State) (own : MillId) (q : ℕ) :
    ∀ t, State.hopInjected s own q = some t → Keeps s t := by
  intro t h
  unfold State.hopInjected at h
  split at h
  rename_i i1 s1 e1
  have h1 : Keeps s s1 := Keeps.of_pair e1 (State.takeInjAt_keeps ..)
  split at h
  rename_i i3 s3 e3
  have h3 : Keeps s s3 := by
    refine Keeps.of_pair e3 ?_
    split
    · exact State.takeInj_keeps ..
    · exact Keeps.refl s
  split at h
  · cases h; exact Keeps.via (State.raceInjected_keeps ..) h1
  · split at h
    · cases h; exact Keeps.via (State.raceInjected_keeps ..) h3
    · cases h

theorem tailraceWrite_keeps (m : MillId) (stream : Fin 4) (s : State) :
    Keeps s (tailraceWrite m stream s) := by
  unfold tailraceWrite
  repeat' first
    | split
    | extract_lets
    | with_reducible apply Keeps.via (State.setTail_keeps ..)
    | with_reducible apply Keeps.via (State.takeDW_keeps ..)
    | with_reducible apply Keeps.via (State.tally_keeps ..)
    | with_reducible apply Keeps.via (State.writeTile_keeps ..)
    | (with_reducible apply Keeps.of_ite <;> intro _)
    | with_reducible exact Keeps.refl _
    | (with_reducible apply Keeps.of_pair (by assumption))
    | (with_reducible apply Keeps.of_triple (by assumption))
    | (fail_if_no_progress with_reducible refine Keeps.record ?_ rfl rfl rfl rfl rfl rfl rfl)
    | (with_reducible apply Keeps.foldl_via; intro _ _)
    | (fail_if_no_progress dsimp -zeta +zetaDelta only)

theorem columnHop_keeps (m : MillId) (stream : Fin 4) (pos : Fin 24) (s : State) :
    Keeps s (columnHop m stream pos s) := by
  unfold columnHop
  extract_lets own q
  split
  · exact Keeps.refl s
  · split
    · exact Keeps.refl s
    · split
      · exact Keeps.refl s
      · split
        · exact State.hopCol_keeps ..
        · rcases e : s.hopInjected own q with _ | t
          · exact State.hopCol_keeps ..
          · exact State.hopInjected_keeps s own q t e

theorem State.setToll_keeps (s : State) (m : MillId) (k : ℕ) (r : Option TollRec) :
    Keeps s (State.setToll s m k r) := by
  unfold State.setToll
  repeat' first
    | split
    | extract_lets
    | with_reducible apply Keeps.via (Keeps.onToll ..)
    | (with_reducible apply Keeps.of_ite <;> intro _)
    | with_reducible exact Keeps.refl _
    | (with_reducible apply Keeps.of_pair (by assumption))
    | (with_reducible apply Keeps.of_triple (by assumption))
    | (fail_if_no_progress with_reducible refine Keeps.record ?_ rfl rfl rfl rfl rfl rfl rfl)
    | (with_reducible apply Keeps.foldl_via; intro _ _)
    | (fail_if_no_progress dsimp -zeta +zetaDelta only)

theorem State.tollWakes_keeps (s : State) (m : MillId) (n : Fin 24) :
    Keeps s (State.tollWakes s m n) := by
  unfold State.tollWakes
  repeat' first
    | split
    | extract_lets
    | with_reducible apply Keeps.via (Keeps.onPower ..)
    | with_reducible apply Keeps.via (State.tally_keeps ..)
    | (with_reducible apply Keeps.of_ite <;> intro _)
    | with_reducible exact Keeps.refl _
    | (with_reducible apply Keeps.of_pair (by assumption))
    | (with_reducible apply Keeps.of_triple (by assumption))
    | (fail_if_no_progress with_reducible refine Keeps.record ?_ rfl rfl rfl rfl rfl rfl rfl)
    | (with_reducible apply Keeps.foldl_via; intro _ _)
    | (fail_if_no_progress dsimp -zeta +zetaDelta only)

theorem tollPass_keeps (m : MillId) (stone : Fin 24) (s : State) :
    Keeps s (tollPass m stone s) := by
  unfold tollPass
  repeat' first
    | split
    | extract_lets
    | with_reducible apply Keeps.via (State.setToll_keeps ..)
    | with_reducible apply Keeps.via (State.tally_keeps ..)
    | with_reducible apply Keeps.via (State.tollWakes_keeps ..)
    | (with_reducible apply Keeps.of_ite <;> intro _)
    | with_reducible exact Keeps.refl _
    | (with_reducible apply Keeps.of_pair (by assumption))
    | (with_reducible apply Keeps.of_triple (by assumption))
    | (fail_if_no_progress with_reducible refine Keeps.record ?_ rfl rfl rfl rfl rfl rfl rfl)
    | (with_reducible apply Keeps.foldl_via; intro _ _)
    | (fail_if_no_progress dsimp -zeta +zetaDelta only)

theorem State.tollLeaves_keeps (s : State) (m : MillId) (n : ℕ) :
    Keeps s (State.tollLeaves s m n) := by
  unfold State.tollLeaves
  repeat' first
    | split
    | extract_lets
    | with_reducible apply Keeps.via (Keeps.onStone ..)
    | (with_reducible apply Keeps.of_ite <;> intro _)
    | with_reducible exact Keeps.refl _
    | (with_reducible apply Keeps.of_pair (by assumption))
    | (with_reducible apply Keeps.of_triple (by assumption))
    | (fail_if_no_progress with_reducible refine Keeps.record ?_ rfl rfl rfl rfl rfl rfl rfl)
    | (with_reducible apply Keeps.foldl_via; intro _ _)
    | (fail_if_no_progress dsimp -zeta +zetaDelta only)

theorem State.tollRecord_keeps (s : State) (m : MillId) (stone : ℕ) (by__ : ℕ) (kind : ℕ) (count : ℕ) (indig : W64) (pc : W64) :
    Keeps s (State.tollRecord s m stone by__ kind count indig pc) := by
  unfold State.tollRecord
  repeat' first
    | split
    | extract_lets
    | (with_reducible apply State.record_via; intro _)
    | with_reducible apply Keeps.via (State.setWord64_keeps ..)
    | with_reducible apply Keeps.via (State.setWord_keeps ..)
    | (with_reducible apply Keeps.of_ite <;> intro _)
    | with_reducible exact Keeps.refl _
    | (with_reducible apply Keeps.of_pair (by assumption))
    | (with_reducible apply Keeps.of_triple (by assumption))
    | (fail_if_no_progress with_reducible refine Keeps.record ?_ rfl rfl rfl rfl rfl rfl rfl)
    | (with_reducible apply Keeps.foldl_via; intro _ _)
    | (fail_if_no_progress dsimp -zeta +zetaDelta only)

theorem State.tollMismatch_keeps (s : State) (m : MillId) (r : TollRec) (by__ : ℕ) (kind : ℕ) (det : ℕ) (unit : UnitRef) (injected : Bool) :
    Keeps s (State.tollMismatch s m r by__ kind det unit injected) := by
  unfold State.tollMismatch
  repeat' first
    | split
    | extract_lets
    | with_reducible apply Keeps.via (State.raise_keeps ..)
    | with_reducible apply Keeps.via (State.report_keeps ..)
    | with_reducible apply Keeps.via (State.tally_keeps ..)
    | with_reducible apply Keeps.via (State.tollRecord_keeps ..)
    | (with_reducible apply Keeps.of_ite <;> intro _)
    | with_reducible exact Keeps.refl _
    | (with_reducible apply Keeps.of_pair (by assumption))
    | (with_reducible apply Keeps.of_triple (by assumption))
    | (fail_if_no_progress with_reducible refine Keeps.record ?_ rfl rfl rfl rfl rfl rfl rfl)
    | (with_reducible apply Keeps.foldl_via; intro _ _)
    | (fail_if_no_progress dsimp -zeta +zetaDelta only)

theorem tollPassDone_keeps (m : MillId) (s : State) :
    Keeps s (tollPassDone m s) := by
  unfold tollPassDone
  repeat' first
    | split
    | extract_lets
    | with_reducible apply Keeps.via (State.classFour_keeps ..)
    | with_reducible apply Keeps.via (State.raise_keeps ..)
    | with_reducible apply Keeps.via (State.report_keeps ..)
    | with_reducible apply Keeps.via (State.setToll_keeps ..)
    | with_reducible apply Keeps.via (State.takeInj_keeps ..)
    | with_reducible apply Keeps.via (State.tally_keeps ..)
    | with_reducible apply Keeps.via (State.tollLeaves_keeps ..)
    | with_reducible apply Keeps.via (State.tollMismatch_keeps ..)
    | (with_reducible apply Keeps.of_ite <;> intro _)
    | with_reducible exact Keeps.refl _
    | (with_reducible apply Keeps.of_pair (by assumption))
    | (with_reducible apply Keeps.of_triple (by assumption))
    | (fail_if_no_progress with_reducible refine Keeps.record ?_ rfl rfl rfl rfl rfl rfl rfl)
    | (with_reducible apply Keeps.foldl_via; intro _ _)
    | (fail_if_no_progress dsimp -zeta +zetaDelta only)

theorem tollDrain_keeps (m : MillId) (s : State) :
    Keeps s (tollDrain m s) := by
  unfold tollDrain
  repeat' first
    | split
    | extract_lets
    | with_reducible apply Keeps.via (Keeps.onStone ..)
    | with_reducible apply Keeps.via (State.setToll_keeps ..)
    | with_reducible apply Keeps.via (State.takeInj_keeps ..)
    | with_reducible apply Keeps.via (State.tally_keeps ..)
    | with_reducible apply Keeps.via (State.tollMismatch_keeps ..)
    | (with_reducible apply Keeps.of_ite <;> intro _)
    | with_reducible exact Keeps.refl _
    | (with_reducible apply Keeps.of_pair (by assumption))
    | (with_reducible apply Keeps.of_triple (by assumption))
    | (fail_if_no_progress with_reducible refine Keeps.record ?_ rfl rfl rfl rfl rfl rfl rfl)
    | (with_reducible apply Keeps.foldl_via; intro _ _)
    | (fail_if_no_progress dsimp -zeta +zetaDelta only)

end Sys2Proof.Machine
end

