-- ==== Sys2Proof/Laws/KeepsLog.lean ====
section
/-! SUPPORT. What each change of the state made in Machine/Log, Command, Port, Trust, Power, RegRead, RegWrite keeps:
the queue, the fuses blown, soundness. -/

namespace Sys2Proof.Machine

set_option Elab.async false

set_option linter.unusedTactic false
set_option linter.unreachableTactic false
set_option linter.unusedVariables false

theorem State.spill_keeps (s : State) (m : MillId) (x : BitVec 256) :
    Keeps s (State.spill s m x) := by
  unfold State.spill
  repeat' first
    | split
    | extract_lets
    | with_reducible apply Keeps.via (Keeps.onLog ..)
    | with_reducible apply Keeps.via (State.physWrite_keeps ..)
    | with_reducible apply Keeps.via (State.raise_keeps ..)
    | with_reducible apply Keeps.via (State.takeInj_keeps ..)
    | with_reducible apply Keeps.via (State.tally_keeps ..)
    | (with_reducible apply Keeps.of_ite <;> intro _)
    | with_reducible exact Keeps.refl _
    | (with_reducible apply Keeps.of_pair (by assumption))
    | (with_reducible apply Keeps.of_triple (by assumption))
    | (fail_if_no_progress with_reducible refine Keeps.record ?_ rfl rfl rfl rfl rfl rfl rfl)
    | (with_reducible apply Keeps.foldl_via; intro _ _)
    | (fail_if_no_progress dsimp -zeta +zetaDelta only)

theorem State.logRun_keeps (s : State) (m : MillId) :
    Keeps s (State.logRun s m).2 := by
  unfold State.logRun
  repeat' first
    | split
    | extract_lets
    | with_reducible apply Keeps.via (Keeps.onLog ..)
    | (with_reducible apply Keeps.of_ite <;> intro _)
    | with_reducible exact Keeps.refl _
    | (with_reducible apply Keeps.of_pair (by assumption))
    | (with_reducible apply Keeps.of_triple (by assumption))
    | (fail_if_no_progress with_reducible refine Keeps.record ?_ rfl rfl rfl rfl rfl rfl rfl)
    | (with_reducible apply Keeps.foldl_via; intro _ _)
    | (fail_if_no_progress dsimp -zeta +zetaDelta only)

theorem State.logTrigNow_keeps (s : State) (m : MillId) :
    Keeps s (State.logTrigNow s m) := by
  unfold State.logTrigNow
  repeat' first
    | split
    | extract_lets
    | with_reducible apply Keeps.via (State.logTrigger_keeps ..)
    | (with_reducible apply Keeps.of_ite <;> intro _)
    | with_reducible exact Keeps.refl _
    | (with_reducible apply Keeps.of_pair (by assumption))
    | (with_reducible apply Keeps.of_triple (by assumption))
    | (fail_if_no_progress with_reducible refine Keeps.record ?_ rfl rfl rfl rfl rfl rfl rfl)
    | (with_reducible apply Keeps.foldl_via; intro _ _)
    | (fail_if_no_progress dsimp -zeta +zetaDelta only)

theorem State.logAreas_keeps (s : State) (m : MillId) :
    Keeps s (State.logAreas s m) := by
  unfold State.logAreas
  repeat' first
    | split
    | extract_lets
    | with_reducible apply Keeps.via (Keeps.onLog ..)
    | (with_reducible apply Keeps.of_ite <;> intro _)
    | with_reducible exact Keeps.refl _
    | (with_reducible apply Keeps.of_pair (by assumption))
    | (with_reducible apply Keeps.of_triple (by assumption))
    | (fail_if_no_progress with_reducible refine Keeps.record ?_ rfl rfl rfl rfl rfl rfl rfl)
    | (with_reducible apply Keeps.foldl_via; intro _ _)
    | (fail_if_no_progress dsimp -zeta +zetaDelta only)

theorem State.logSample_keeps (s : State) (m : MillId) (c : Ctx) (x : Stall) (hold : Bool) (trig : Bool) :
    Keeps s (State.logSample s m c x hold trig) := by
  unfold State.logSample
  repeat' first
    | split
    | extract_lets
    | with_reducible apply Keeps.via (Keeps.onLog ..)
    | with_reducible apply Keeps.via (State.raise_keeps ..)
    | with_reducible apply Keeps.via (State.spill_keeps ..)
    | with_reducible apply Keeps.via (State.tally_keeps ..)
    | (with_reducible apply Keeps.of_ite <;> intro _)
    | with_reducible exact Keeps.refl _
    | (with_reducible apply Keeps.of_pair (by assumption))
    | (with_reducible apply Keeps.of_triple (by assumption))
    | (fail_if_no_progress with_reducible refine Keeps.record ?_ rfl rfl rfl rfl rfl rfl rfl)
    | (with_reducible apply Keeps.foldl_via; intro _ _)
    | (fail_if_no_progress dsimp -zeta +zetaDelta only)

theorem State.logArm_keeps (s : State) (m : MillId) :
    Keeps s (State.logArm s m).2 := by
  unfold State.logArm
  repeat' first
    | split
    | extract_lets
    | with_reducible apply Keeps.via (Keeps.onLog ..)
    | (with_reducible apply Keeps.of_ite <;> intro _)
    | with_reducible exact Keeps.refl _
    | (with_reducible apply Keeps.of_pair (by assumption))
    | (with_reducible apply Keeps.of_triple (by assumption))
    | (fail_if_no_progress with_reducible refine Keeps.record ?_ rfl rfl rfl rfl rfl rfl rfl)
    | (with_reducible apply Keeps.foldl_via; intro _ _)
    | (fail_if_no_progress dsimp -zeta +zetaDelta only)

theorem logTriggered_keeps (m : MillId) (s : State) :
    Keeps s (logTriggered m s) := by
  unfold logTriggered
  repeat' first
    | split
    | extract_lets
    | with_reducible apply Keeps.via (State.logSample_keeps ..)
    | (with_reducible apply Keeps.of_ite <;> intro _)
    | with_reducible exact Keeps.refl _
    | (with_reducible apply Keeps.of_pair (by assumption))
    | (with_reducible apply Keeps.of_triple (by assumption))
    | (fail_if_no_progress with_reducible refine Keeps.record ?_ rfl rfl rfl rfl rfl rfl rfl)
    | (with_reducible apply Keeps.foldl_via; intro _ _)
    | (fail_if_no_progress dsimp -zeta +zetaDelta only)

theorem State.logIssue_keeps (s : State) (m : MillId) (c : Ctx) (pc : W64) (count : ℕ) (next : Stall) :
    Keeps s (State.logIssue s m c pc count next) := by
  unfold State.logIssue
  repeat' first
    | split
    | extract_lets
    | with_reducible apply Keeps.via (State.logSample_keeps ..)
    | with_reducible apply Keeps.via (State.logTrigger_keeps ..)
    | (with_reducible apply Keeps.of_ite <;> intro _)
    | with_reducible exact Keeps.refl _
    | (with_reducible apply Keeps.of_pair (by assumption))
    | (with_reducible apply Keeps.of_triple (by assumption))
    | (fail_if_no_progress with_reducible refine Keeps.record ?_ rfl rfl rfl rfl rfl rfl rfl)
    | (with_reducible apply Keeps.foldl_via; intro _ _)
    | (fail_if_no_progress dsimp -zeta +zetaDelta only)

theorem State.latch_keeps (s : State) (m : MillId) (seq : W32) (kind : ℕ) (run : ℕ) (spliced : Bool) (status : ℕ) :
    Keeps s (State.latch s m seq kind run spliced status) := by
  unfold State.latch
  repeat' first
    | split
    | extract_lets
    | with_reducible apply Keeps.via (Keeps.onLog ..)
    | with_reducible apply Keeps.via (State.physWrite_keeps ..)
    | with_reducible apply Keeps.via (State.tally_keeps ..)
    | (with_reducible apply Keeps.of_ite <;> intro _)
    | with_reducible exact Keeps.refl _
    | (with_reducible apply Keeps.of_pair (by assumption))
    | (with_reducible apply Keeps.of_triple (by assumption))
    | (fail_if_no_progress with_reducible refine Keeps.record ?_ rfl rfl rfl rfl rfl rfl rfl)
    | (with_reducible apply Keeps.foldl_via; intro _ _)
    | (fail_if_no_progress dsimp -zeta +zetaDelta only)

theorem State.stageDrops_keeps (s : State) (m : MillId) (stage : ℕ) :
    Keeps s (State.stageDrops s m stage) := by
  unfold State.stageDrops
  extract_lets js s1
  have h1 : Keeps s s1 := State.setStageJobs_keeps ..
  clear_value s1 js
  split
  · exact Keeps.of_ite (fun _ => h1) fun _ => Keeps.via (State.abandonLines_keeps ..) h1
  · exact h1

theorem State.stoneDrops_keeps (s : State) (m : MillId) (keep : ℕ → Bool) (n : ℕ) :
    Keeps s (State.stoneDrops s m keep n) := by
  unfold State.stoneDrops
  extract_lets x halted s1 loads y aborts
  have h1 : Keeps s s1 := by
    unfold s1
    split
    · exact Keeps.of_ite (fun _ => Keeps.refl s) fun _ => State.raceAbandon_keeps ..
    · exact Keeps.refl s
  exact Keeps.via (State.tally_keeps ..) (Keeps.via (Keeps.onStone ..) h1)

theorem State.raceDrop_keeps (s : State) (m : MillId) :
    Keeps s (State.raceDrop s m) := by
  unfold State.raceDrop
  repeat' first
    | split
    | extract_lets
    | with_reducible apply Keeps.via (Keeps.onRace ..)
    | with_reducible apply Keeps.via (State.stoneDrops_keeps ..)
    | (with_reducible apply Keeps.forAll_via; intro _ _)
    | (with_reducible apply Keeps.of_ite <;> intro _)
    | with_reducible exact Keeps.refl _
    | (with_reducible apply Keeps.of_pair (by assumption))
    | (with_reducible apply Keeps.of_triple (by assumption))
    | (fail_if_no_progress with_reducible refine Keeps.record ?_ rfl rfl rfl rfl rfl rfl rfl)
    | (with_reducible apply Keeps.foldl_via; intro _ _)
    | (fail_if_no_progress dsimp -zeta +zetaDelta only)

theorem State.beginCmd_keeps (s : State) (m : MillId) (c : Cmd) :
    Keeps s (State.beginCmd s m c) := by
  unfold State.beginCmd
  repeat' first
    | split
    | extract_lets
    | with_reducible apply Keeps.via (Keeps.onCmd ..)
    | with_reducible apply Keeps.via (Keeps.onMiller ..)
    | with_reducible apply Keeps.via (Keeps.onToll ..)
    | with_reducible apply Keeps.via (State.ctrlMsg_keeps ..)
    | with_reducible apply Keeps.via (State.latch_keeps ..)
    | with_reducible apply Keeps.via (State.onPond_keeps ..)
    | (with_reducible apply Keeps.of_ite <;> intro _)
    | with_reducible exact Keeps.refl _
    | (with_reducible apply Keeps.of_pair (by assumption))
    | (with_reducible apply Keeps.of_triple (by assumption))
    | (fail_if_no_progress with_reducible refine Keeps.record ?_ rfl rfl rfl rfl rfl rfl rfl)
    | (with_reducible apply Keeps.foldl_via; intro _ _)
    | (fail_if_no_progress dsimp -zeta +zetaDelta only)

theorem State.runLoad_keeps (s : State) (m : MillId) (c : Cmd) :
    Keeps s (State.runLoad s m c) := by
  unfold State.runLoad
  extract_lets t digest
  have ht : Keeps s t := Keeps.via (State.clearMeas_keeps ..) (State.beginCmd_keeps ..)
  split
  · exact Keeps.refl s
  · rename_i st u e
    have hu : Keeps s u := Keeps.via (State.loadImage_keeps t m c.addr.toNat c.length.toNat _ e) ht
    extract_lets v
    have hv : Keeps s v := Keeps.of_ite (fun _ => Keeps.via (State.extendMeas_keeps ..) hu) fun _ => hu
    exact Keeps.via (Keeps.onMiller ..) hv

theorem State.countFault_keeps (s : State) (m : MillId) (f : FaultInfo) :
    Keeps s (State.countFault s m f) := by
  unfold State.countFault
  repeat' first
    | split
    | extract_lets
    | with_reducible apply Keeps.via (State.raise_keeps ..)
    | with_reducible apply Keeps.via (State.tally_keeps ..)
    | (with_reducible apply Keeps.of_ite <;> intro _)
    | with_reducible exact Keeps.refl _
    | (with_reducible apply Keeps.of_pair (by assumption))
    | (with_reducible apply Keeps.of_triple (by assumption))
    | (fail_if_no_progress with_reducible refine Keeps.record ?_ rfl rfl rfl rfl rfl rfl rfl)
    | (with_reducible apply Keeps.foldl_via; intro _ _)
    | (fail_if_no_progress dsimp -zeta +zetaDelta only)

theorem State.loseFault_keeps (s : State) (m : MillId) (f : FaultInfo) :
    Keeps s (State.loseFault s m f) := by
  unfold State.loseFault
  repeat' first
    | split
    | extract_lets
    | with_reducible apply Keeps.via (State.countFault_keeps ..)
    | with_reducible apply Keeps.via (State.tally_keeps ..)
    | (with_reducible apply Keeps.of_ite <;> intro _)
    | with_reducible exact Keeps.refl _
    | (with_reducible apply Keeps.of_pair (by assumption))
    | (with_reducible apply Keeps.of_triple (by assumption))
    | (fail_if_no_progress with_reducible refine Keeps.record ?_ rfl rfl rfl rfl rfl rfl rfl)
    | (with_reducible apply Keeps.foldl_via; intro _ _)
    | (fail_if_no_progress dsimp -zeta +zetaDelta only)

theorem State.govDrop_keeps (s : State) (m : MillId) :
    Keeps s (State.govDrop s m) := by
  unfold State.govDrop
  repeat' first
    | split
    | extract_lets
    | with_reducible apply Keeps.via (Keeps.onGov ..)
    | with_reducible apply Keeps.via (State.stageDrops_keeps ..)
    | (with_reducible apply Keeps.forAll_via; intro _ _)
    | (with_reducible apply Keeps.of_ite <;> intro _)
    | with_reducible exact Keeps.refl _
    | (with_reducible apply Keeps.of_pair (by assumption))
    | (with_reducible apply Keeps.of_triple (by assumption))
    | (fail_if_no_progress with_reducible refine Keeps.record ?_ rfl rfl rfl rfl rfl rfl rfl)
    | (with_reducible apply Keeps.foldl_via; intro _ _)
    | (fail_if_no_progress dsimp -zeta +zetaDelta only)

theorem State.dropOps_keeps (s : State) (m : MillId) :
    Keeps s (State.dropOps s m) := by
  unfold State.dropOps
  repeat' first
    | split
    | extract_lets
    | with_reducible apply Keeps.via (Keeps.onMill ..)
    | with_reducible apply Keeps.via (Keeps.onMiller ..)
    | with_reducible apply Keeps.via (Keeps.onToll ..)
    | with_reducible apply Keeps.via (State.dropLeatOps_keeps ..)
    | with_reducible apply Keeps.via (State.dropUpdate_keeps ..)
    | with_reducible apply Keeps.via (State.dropXfers_keeps ..)
    | with_reducible apply Keeps.via (State.govDrop_keeps ..)
    | with_reducible apply Keeps.via (State.loseFault_keeps ..)
    | with_reducible apply Keeps.via (State.raceDrop_keeps ..)
    | (with_reducible apply Keeps.forAll_via; intro _ _)
    | (with_reducible apply Keeps.of_ite <;> intro _)
    | with_reducible exact Keeps.refl _
    | (with_reducible apply Keeps.of_pair (by assumption))
    | (with_reducible apply Keeps.of_triple (by assumption))
    | (fail_if_no_progress with_reducible refine Keeps.record ?_ rfl rfl rfl rfl rfl rfl rfl)
    | (with_reducible apply Keeps.foldl_via; intro _ _)
    | (fail_if_no_progress dsimp -zeta +zetaDelta only)

theorem State.recordFault_keeps (s : State) (m : MillId) (f : FaultInfo) :
    Keeps s (State.recordFault s m f) := by
  unfold State.recordFault
  repeat' first
    | split
    | extract_lets
    | with_reducible apply Keeps.via (Keeps.onMiller ..)
    | with_reducible apply Keeps.via (State.countFault_keeps ..)
    | (with_reducible apply State.record_via; intro _)
    | with_reducible apply Keeps.via (State.setWord64_keeps ..)
    | with_reducible apply Keeps.via (State.setWord_keeps ..)
    | with_reducible apply Keeps.via (State.tally_keeps ..)
    | (with_reducible apply Keeps.of_ite <;> intro _)
    | with_reducible exact Keeps.refl _
    | (with_reducible apply Keeps.of_pair (by assumption))
    | (with_reducible apply Keeps.of_triple (by assumption))
    | (fail_if_no_progress with_reducible refine Keeps.record ?_ rfl rfl rfl rfl rfl rfl rfl)
    | (with_reducible apply Keeps.foldl_via; intro _ _)
    | (fail_if_no_progress dsimp -zeta +zetaDelta only)

theorem State.endCommand_keeps (s : State) (m : MillId) (f : FaultInfo) :
    Keeps s (State.endCommand s m f) := by
  unfold State.endCommand
  repeat' first
    | split
    | extract_lets
    | with_reducible apply Keeps.via (Keeps.onMiller ..)
    | with_reducible apply Keeps.via (State.dropOps_keeps ..)
    | with_reducible apply Keeps.via (State.loseFault_keeps ..)
    | with_reducible apply Keeps.via (State.recordFault_keeps ..)
    | (with_reducible apply Keeps.forAll_via; intro _ _)
    | (with_reducible apply Keeps.of_ite <;> intro _)
    | with_reducible exact Keeps.refl _
    | (with_reducible apply Keeps.of_pair (by assumption))
    | (with_reducible apply Keeps.of_triple (by assumption))
    | (fail_if_no_progress with_reducible refine Keeps.record ?_ rfl rfl rfl rfl rfl rfl rfl)
    | (with_reducible apply Keeps.foldl_via; intro _ _)
    | (fail_if_no_progress dsimp -zeta +zetaDelta only)

theorem engineFault_keeps (m : MillId) (s : State) :
    Keeps s (engineFault m s) := by
  unfold engineFault
  repeat' first
    | split
    | extract_lets
    | with_reducible apply Keeps.via (Keeps.onMiller ..)
    | with_reducible apply Keeps.via (State.dropLeatOps_keeps ..)
    | with_reducible apply Keeps.via (State.dropXfers_keeps ..)
    | with_reducible apply Keeps.via (State.endCommand_keeps ..)
    | with_reducible apply Keeps.via (State.loseFault_keeps ..)
    | (with_reducible apply Keeps.of_ite <;> intro _)
    | with_reducible exact Keeps.refl _
    | (with_reducible apply Keeps.of_pair (by assumption))
    | (with_reducible apply Keeps.of_triple (by assumption))
    | (fail_if_no_progress with_reducible refine Keeps.record ?_ rfl rfl rfl rfl rfl rfl rfl)
    | (with_reducible apply Keeps.foldl_via; intro _ _)
    | (fail_if_no_progress dsimp -zeta +zetaDelta only)

theorem State.entryCheck_keeps (s : State) (m : MillId) (c : Cmd) :
    Keeps s (State.entryCheck s m c) := by
  unfold State.entryCheck
  repeat' first
    | split
    | extract_lets
    | with_reducible apply Keeps.via (State.endCommand_keeps ..)
    | (with_reducible apply Keeps.of_ite <;> intro _)
    | with_reducible exact Keeps.refl _
    | (with_reducible apply Keeps.of_pair (by assumption))
    | (with_reducible apply Keeps.of_triple (by assumption))
    | (fail_if_no_progress with_reducible refine Keeps.record ?_ rfl rfl rfl rfl rfl rfl rfl)
    | (with_reducible apply Keeps.foldl_via; intro _ _)
    | (fail_if_no_progress dsimp -zeta +zetaDelta only)

theorem State.beginRun_keeps (s : State) (m : MillId) (c : Cmd) :
    Keeps s (State.beginRun s m c) := by
  unfold State.beginRun
  repeat' first
    | split
    | extract_lets
    | with_reducible apply Keeps.via (Keeps.onMill ..)
    | with_reducible apply Keeps.via (Keeps.onMiller ..)
    | (with_reducible apply Keeps.of_ite <;> intro _)
    | with_reducible exact Keeps.refl _
    | (with_reducible apply Keeps.of_pair (by assumption))
    | (with_reducible apply Keeps.of_triple (by assumption))
    | (fail_if_no_progress with_reducible refine Keeps.record ?_ rfl rfl rfl rfl rfl rfl rfl)
    | (with_reducible apply Keeps.foldl_via; intro _ _)
    | (fail_if_no_progress dsimp -zeta +zetaDelta only)

theorem State.begins_keeps (s : State) (m : MillId) (c : Cmd) :
    Keeps s (State.begins s m c) := by
  unfold State.begins
  repeat' first
    | split
    | extract_lets
    | with_reducible apply Keeps.via (State.beginCmd_keeps ..)
    | with_reducible apply Keeps.via (State.beginRun_keeps ..)
    | (with_reducible apply Keeps.of_ite <;> intro _)
    | with_reducible exact Keeps.refl _
    | (with_reducible apply Keeps.of_pair (by assumption))
    | (with_reducible apply Keeps.of_triple (by assumption))
    | (fail_if_no_progress with_reducible refine Keeps.record ?_ rfl rfl rfl rfl rfl rfl rfl)
    | (with_reducible apply Keeps.foldl_via; intro _ _)
    | (fail_if_no_progress dsimp -zeta +zetaDelta only)

theorem State.startRun_keeps (s : State) (m : MillId) (c : Cmd) :
    Keeps s (State.startRun s m c) := by
  unfold State.startRun
  repeat' first
    | split
    | extract_lets
    | with_reducible apply Keeps.via (State.begins_keeps ..)
    | with_reducible apply Keeps.via (State.entryCheck_keeps ..)
    | (with_reducible apply Keeps.of_ite <;> intro _)
    | with_reducible exact Keeps.refl _
    | (with_reducible apply Keeps.of_pair (by assumption))
    | (with_reducible apply Keeps.of_triple (by assumption))
    | (fail_if_no_progress with_reducible refine Keeps.record ?_ rfl rfl rfl rfl rfl rfl rfl)
    | (with_reducible apply Keeps.foldl_via; intro _ _)
    | (fail_if_no_progress dsimp -zeta +zetaDelta only)

theorem mark_keeps (m : MillId) (s : State) :
    Keeps s (mark m s) := by
  unfold mark
  repeat' first
    | split
    | extract_lets
    | with_reducible apply Keeps.via (Keeps.onMiller ..)
    | with_reducible apply Keeps.via (State.beginCmd_keeps ..)
    | (with_reducible apply Keeps.of_ite <;> intro _)
    | with_reducible exact Keeps.refl _
    | (with_reducible apply Keeps.of_pair (by assumption))
    | (with_reducible apply Keeps.of_triple (by assumption))
    | (fail_if_no_progress with_reducible refine Keeps.record ?_ rfl rfl rfl rfl rfl rfl rfl)
    | (with_reducible apply Keeps.foldl_via; intro _ _)
    | (fail_if_no_progress dsimp -zeta +zetaDelta only)

theorem State.abortCommand_keeps (s : State) (m : MillId) (e : Ending) (cause : ℕ) (fault : Bool) :
    Keeps s (State.abortCommand s m e cause fault) := by
  unfold State.abortCommand
  repeat' first
    | split
    | extract_lets
    | with_reducible apply Keeps.via (Keeps.onMiller ..)
    | with_reducible apply Keeps.via (State.dropOps_keeps ..)
    | with_reducible apply Keeps.via (State.recordFault_keeps ..)
    | (with_reducible apply State.record_via; intro _)
    | with_reducible apply Keeps.via (State.setWord64_keeps ..)
    | with_reducible apply Keeps.via (State.setWord_keeps ..)
    | (with_reducible apply Keeps.forAll_via; intro _ _)
    | (with_reducible apply Keeps.of_ite <;> intro _)
    | with_reducible exact Keeps.refl _
    | (with_reducible apply Keeps.of_pair (by assumption))
    | (with_reducible apply Keeps.of_triple (by assumption))
    | (fail_if_no_progress with_reducible refine Keeps.record ?_ rfl rfl rfl rfl rfl rfl rfl)
    | (with_reducible apply Keeps.foldl_via; intro _ _)
    | (fail_if_no_progress dsimp -zeta +zetaDelta only)

theorem State.cmdAbort_keeps (s : State) (m : MillId) (seq : W32) :
    Keeps s (State.cmdAbort s m seq) := by
  unfold State.cmdAbort
  repeat' first
    | split
    | extract_lets
    | with_reducible apply Keeps.via (State.abortCommand_keeps ..)
    | with_reducible apply Keeps.via (State.raise_keeps ..)
    | with_reducible apply Keeps.via (State.tally_keeps ..)
    | (with_reducible apply Keeps.of_ite <;> intro _)
    | with_reducible exact Keeps.refl _
    | (with_reducible apply Keeps.of_pair (by assumption))
    | (with_reducible apply Keeps.of_triple (by assumption))
    | (fail_if_no_progress with_reducible refine Keeps.record ?_ rfl rfl rfl rfl rfl rfl rfl)
    | (with_reducible apply Keeps.foldl_via; intro _ _)
    | (fail_if_no_progress dsimp -zeta +zetaDelta only)

theorem State.spliceRefuse_keeps (s : State) (m : MillId) :
    Keeps s (State.spliceRefuse s m) := by
  unfold State.spliceRefuse
  repeat' first
    | split
    | extract_lets
    | with_reducible apply Keeps.via (Keeps.onCmd ..)
    | with_reducible apply Keeps.via (Keeps.onMiller ..)
    | with_reducible apply Keeps.via (State.endCommand_keeps ..)
    | with_reducible apply Keeps.via (State.raise_keeps ..)
    | (with_reducible apply Keeps.of_ite <;> intro _)
    | with_reducible exact Keeps.refl _
    | (with_reducible apply Keeps.of_pair (by assumption))
    | (with_reducible apply Keeps.of_triple (by assumption))
    | (fail_if_no_progress with_reducible refine Keeps.record ?_ rfl rfl rfl rfl rfl rfl rfl)
    | (with_reducible apply Keeps.foldl_via; intro _ _)
    | (fail_if_no_progress dsimp -zeta +zetaDelta only)

theorem State.retractAll_keeps (s : State) (ms : List MillId) :
    Keeps s (State.retractAll s ms) := by
  unfold State.retractAll
  repeat' first
    | split
    | extract_lets
    | with_reducible apply Keeps.via (State.dropOps_keeps ..)
    | with_reducible apply Keeps.via (State.retract_keeps ..)
    | (with_reducible apply Keeps.forAll_via; intro _ _)
    | (with_reducible apply Keeps.of_ite <;> intro _)
    | with_reducible exact Keeps.refl _
    | (with_reducible apply Keeps.of_pair (by assumption))
    | (with_reducible apply Keeps.of_triple (by assumption))
    | (fail_if_no_progress with_reducible refine Keeps.record ?_ rfl rfl rfl rfl rfl rfl rfl)
    | (with_reducible apply Keeps.foldl_via; intro _ _)
    | (fail_if_no_progress dsimp -zeta +zetaDelta only)

theorem State.cmdRefuse_keeps (s : State) (m : MillId) (path : ℕ) (seq : W32) (cause : ℕ) :
    Keeps s (State.cmdRefuse s m path seq cause) := by
  unfold State.cmdRefuse
  repeat' first
    | split
    | extract_lets
    | with_reducible apply Keeps.via (State.raise_keeps ..)
    | (with_reducible apply State.record_via; intro _)
    | with_reducible apply Keeps.via (State.setWord_keeps ..)
    | with_reducible apply Keeps.via (State.tally_keeps ..)
    | (with_reducible apply Keeps.of_ite <;> intro _)
    | with_reducible exact Keeps.refl _
    | (with_reducible apply Keeps.of_pair (by assumption))
    | (with_reducible apply Keeps.of_triple (by assumption))
    | (fail_if_no_progress with_reducible refine Keeps.record ?_ rfl rfl rfl rfl rfl rfl rfl)
    | (with_reducible apply Keeps.foldl_via; intro _ _)
    | (fail_if_no_progress dsimp -zeta +zetaDelta only)

theorem State.cmdSubmit_keeps (s : State) (m : MillId) (path : ℕ) (ws : List W32) :
    Keeps s (State.cmdSubmit s m path ws) := by
  unfold State.cmdSubmit
  repeat' first
    | split
    | extract_lets
    | with_reducible apply Keeps.via (Keeps.onCmd ..)
    | with_reducible apply Keeps.via (State.cmdRefuse_keeps ..)
    | with_reducible apply Keeps.via (State.setWord_keeps ..)
    | with_reducible apply Keeps.via (State.takeInj_keeps ..)
    | with_reducible apply Keeps.via (State.tally_keeps ..)
    | (with_reducible apply Keeps.of_ite <;> intro _)
    | with_reducible exact Keeps.refl _
    | (with_reducible apply Keeps.of_pair (by assumption))
    | (with_reducible apply Keeps.of_triple (by assumption))
    | (fail_if_no_progress with_reducible refine Keeps.record ?_ rfl rfl rfl rfl rfl rfl rfl)
    | (with_reducible apply Keeps.foldl_via; intro _ _)
    | (fail_if_no_progress dsimp -zeta +zetaDelta only)

theorem State.statusEntry_keeps (s : State) (m : MillId) (c : Cmd) (e : Ending) :
    Keeps s (State.statusEntry s m c e) := by
  unfold State.statusEntry
  repeat' first
    | split
    | extract_lets
    | with_reducible apply Keeps.via (State.hostSend_keeps ..)
    | with_reducible apply Keeps.via (State.raise_keeps ..)
    | with_reducible apply Keeps.via (State.sendRoute_keeps ..)
    | with_reducible apply Keeps.via (State.setWord64_keeps ..)
    | with_reducible apply Keeps.via (State.setWord_keeps ..)
    | with_reducible apply Keeps.via (State.tally_keeps ..)
    | (with_reducible apply Keeps.of_ite <;> intro _)
    | with_reducible exact Keeps.refl _
    | (with_reducible apply Keeps.of_pair (by assumption))
    | (with_reducible apply Keeps.of_triple (by assumption))
    | (fail_if_no_progress with_reducible refine Keeps.record ?_ rfl rfl rfl rfl rfl rfl rfl)
    | (with_reducible apply Keeps.foldl_via; intro _ _)
    | (fail_if_no_progress dsimp -zeta +zetaDelta only)

theorem State.finish_keeps (s : State) (m : MillId) :
    Keeps s (State.finish s m) := by
  unfold State.finish
  repeat' first
    | split
    | extract_lets
    | with_reducible apply Keeps.via (Keeps.onCmd ..)
    | with_reducible apply Keeps.via (Keeps.onMiller ..)
    | with_reducible apply Keeps.via (Keeps.onToll ..)
    | with_reducible apply Keeps.via (State.classify_keeps ..)
    | with_reducible apply Keeps.via (State.latch_keeps ..)
    | with_reducible apply Keeps.via (State.logAreas_keeps ..)
    | with_reducible apply Keeps.via (State.loseFault_keeps ..)
    | with_reducible apply Keeps.via (State.onPond_keeps ..)
    | with_reducible apply Keeps.via (State.statusEntry_keeps ..)
    | with_reducible apply Keeps.via (State.watchEndLatch_keeps ..)
    | (with_reducible apply Keeps.forAll_via; intro _ _)
    | (with_reducible apply Keeps.of_ite <;> intro _)
    | with_reducible exact Keeps.refl _
    | (with_reducible apply Keeps.of_pair (by assumption))
    | (with_reducible apply Keeps.of_triple (by assumption))
    | (fail_if_no_progress with_reducible refine Keeps.record ?_ rfl rfl rfl rfl rfl rfl rfl)
    | (with_reducible apply Keeps.foldl_via; intro _ _)
    | (fail_if_no_progress dsimp -zeta +zetaDelta only)

theorem commandComplete_keeps (m : MillId) (s : State) :
    Keeps s (commandComplete m s) := by
  unfold commandComplete
  repeat' first
    | split
    | extract_lets
    | with_reducible apply Keeps.via (State.finish_keeps ..)
    | with_reducible apply Keeps.via (State.onPond_keeps ..)
    | (with_reducible apply Keeps.forAll_via; intro _ _)
    | (with_reducible apply Keeps.of_ite <;> intro _)
    | with_reducible exact Keeps.refl _
    | (with_reducible apply Keeps.of_pair (by assumption))
    | (with_reducible apply Keeps.of_triple (by assumption))
    | (fail_if_no_progress with_reducible refine Keeps.record ?_ rfl rfl rfl rfl rfl rfl rfl)
    | (with_reducible apply Keeps.foldl_via; intro _ _)
    | (fail_if_no_progress dsimp -zeta +zetaDelta only)

theorem State.cmdFlush_keeps (s : State) (m : MillId) :
    Keeps s (State.cmdFlush s m) := by
  unfold State.cmdFlush
  repeat' first
    | split
    | extract_lets
    | with_reducible apply Keeps.via (Keeps.onCmd ..)
    | with_reducible apply Keeps.via (Keeps.onMiller ..)
    | with_reducible apply Keeps.via (State.raise_keeps ..)
    | with_reducible apply Keeps.via (State.statusEntry_keeps ..)
    | with_reducible apply Keeps.via (State.tally_keeps ..)
    | (with_reducible apply Keeps.forAll_via; intro _ _)
    | (with_reducible apply Keeps.of_ite <;> intro _)
    | with_reducible exact Keeps.refl _
    | (with_reducible apply Keeps.of_pair (by assumption))
    | (with_reducible apply Keeps.of_triple (by assumption))
    | (fail_if_no_progress with_reducible refine Keeps.record ?_ rfl rfl rfl rfl rfl rfl rfl)
    | (with_reducible apply Keeps.foldl_via; intro _ _)
    | (fail_if_no_progress dsimp -zeta +zetaDelta only)

theorem State.resetAsm_keeps (s : State) (p : Path) (m : MillId) :
    Keeps s (State.resetAsm s p m) := by
  unfold State.resetAsm
  repeat' first
    | split
    | extract_lets
    | with_reducible apply Keeps.via (Keeps.onCmd ..)
    | (with_reducible apply Keeps.of_ite <;> intro _)
    | with_reducible exact Keeps.refl _
    | (with_reducible apply Keeps.of_pair (by assumption))
    | (with_reducible apply Keeps.of_triple (by assumption))
    | (fail_if_no_progress with_reducible refine Keeps.record ?_ rfl rfl rfl rfl rfl rfl rfl)
    | (with_reducible apply Keeps.foldl_via; intro _ _)
    | (fail_if_no_progress dsimp -zeta +zetaDelta only)

theorem State.startBoth_keeps (s : State) (m : MillId) (c : Cmd) (d : Cmd) :
    Keeps s (State.startBoth s m c d) := by
  unfold State.startBoth
  repeat' first
    | split
    | extract_lets
    | with_reducible apply Keeps.via (State.begins_keeps ..)
    | with_reducible apply Keeps.via (State.entryCheck_keeps ..)
    | (with_reducible apply Keeps.of_ite <;> intro _)
    | with_reducible exact Keeps.refl _
    | (with_reducible apply Keeps.of_pair (by assumption))
    | (with_reducible apply Keeps.of_triple (by assumption))
    | (fail_if_no_progress with_reducible refine Keeps.record ?_ rfl rfl rfl rfl rfl rfl rfl)
    | (with_reducible apply Keeps.foldl_via; intro _ _)
    | (fail_if_no_progress dsimp -zeta +zetaDelta only)

theorem replay_keeps (m : MillId) (s : State) :
    Keeps s (replay m s) := by
  unfold replay
  repeat' first
    | split
    | extract_lets
    | with_reducible apply Keeps.via (Keeps.onMiller ..)
    | with_reducible apply Keeps.via (State.endCommand_keeps ..)
    | with_reducible apply Keeps.via (State.raise_keeps ..)
    | with_reducible apply Keeps.via (State.retractAll_keeps ..)
    | (with_reducible apply Keeps.forAll_via; intro _ _)
    | (with_reducible apply Keeps.of_ite <;> intro _)
    | with_reducible exact Keeps.refl _
    | (with_reducible apply Keeps.of_pair (by assumption))
    | (with_reducible apply Keeps.of_triple (by assumption))
    | (fail_if_no_progress with_reducible refine Keeps.record ?_ rfl rfl rfl rfl rfl rfl rfl)
    | (with_reducible apply Keeps.foldl_via; intro _ _)
    | (fail_if_no_progress dsimp -zeta +zetaDelta only)

theorem load_keeps (m : MillId) (codes : List Ecc) (s : State) :
    Keeps s (load m codes s) := by
  unfold load
  repeat' first
    | split
    | extract_lets
    | (with_reducible apply State.coded_via; intro _)
    | with_reducible apply Keeps.via (State.runLoad_keeps ..)
    | (with_reducible apply Keeps.of_ite <;> intro _)
    | with_reducible exact Keeps.refl _
    | (with_reducible apply Keeps.of_pair (by assumption))
    | (with_reducible apply Keeps.of_triple (by assumption))
    | (fail_if_no_progress with_reducible refine Keeps.record ?_ rfl rfl rfl rfl rfl rfl rfl)
    | (with_reducible apply Keeps.foldl_via; intro _ _)
    | (fail_if_no_progress dsimp -zeta +zetaDelta only)

theorem replayRestart_keeps (m : MillId) (s : State) :
    Keeps s (replayRestart m s) := by
  unfold replayRestart
  repeat' first
    | split
    | extract_lets
    | with_reducible apply Keeps.via (Keeps.onMiller ..)
    | with_reducible apply Keeps.via (Keeps.onToll ..)
    | with_reducible apply Keeps.via (State.beginRun_keeps ..)
    | with_reducible apply Keeps.via (State.latch_keeps ..)
    | with_reducible apply Keeps.via (State.raise_keeps ..)
    | with_reducible apply Keeps.via (State.tally_keeps ..)
    | (with_reducible apply Keeps.forAll_via; intro _ _)
    | (with_reducible apply Keeps.of_ite <;> intro _)
    | with_reducible exact Keeps.refl _
    | (with_reducible apply Keeps.of_pair (by assumption))
    | (with_reducible apply Keeps.of_triple (by assumption))
    | (fail_if_no_progress with_reducible refine Keeps.record ?_ rfl rfl rfl rfl rfl rfl rfl)
    | (with_reducible apply Keeps.foldl_via; intro _ _)
    | (fail_if_no_progress dsimp -zeta +zetaDelta only)

theorem run_keeps (m : MillId) (s : State) :
    Keeps s (run m s) := by
  unfold run
  repeat' first
    | split
    | extract_lets
    | with_reducible apply Keeps.via (Keeps.onMiller ..)
    | with_reducible apply Keeps.via (State.spliceRefuse_keeps ..)
    | with_reducible apply Keeps.via (State.startBoth_keeps ..)
    | with_reducible apply Keeps.via (State.startRun_keeps ..)
    | (with_reducible apply Keeps.of_ite <;> intro _)
    | with_reducible exact Keeps.refl _
    | (with_reducible apply Keeps.of_pair (by assumption))
    | (with_reducible apply Keeps.of_triple (by assumption))
    | (fail_if_no_progress with_reducible refine Keeps.record ?_ rfl rfl rfl rfl rfl rfl rfl)
    | (with_reducible apply Keeps.foldl_via; intro _ _)
    | (fail_if_no_progress dsimp -zeta +zetaDelta only)

theorem State.cmdRelease_keeps (s : State) (n : ℕ) :
    Keeps s (State.cmdRelease s n) := by
  unfold State.cmdRelease
  repeat' first
    | split
    | extract_lets
    | with_reducible apply Keeps.via (Keeps.onCmd ..)
    | with_reducible apply Keeps.via (State.cmdSubmit_keeps ..)
    | (with_reducible apply Keeps.forAll_via; intro _ _)
    | (with_reducible apply Keeps.of_ite <;> intro _)
    | with_reducible exact Keeps.refl _
    | (with_reducible apply Keeps.of_pair (by assumption))
    | (with_reducible apply Keeps.of_triple (by assumption))
    | (fail_if_no_progress with_reducible refine Keeps.record ?_ rfl rfl rfl rfl rfl rfl rfl)
    | (with_reducible apply Keeps.foldl_via; intro _ _)
    | (fail_if_no_progress dsimp -zeta +zetaDelta only)

theorem State.cmdWordWrite_keeps (s : State) (p : Path) (m : MillId) (w : W32) :
    Keeps s (State.cmdWordWrite s p m w) := by
  unfold State.cmdWordWrite
  repeat' first
    | split
    | extract_lets
    | with_reducible apply Keeps.via (Keeps.onCmd ..)
    | with_reducible apply Keeps.via (State.cmdRefuse_keeps ..)
    | with_reducible apply Keeps.via (State.cmdSubmit_keeps ..)
    | with_reducible apply Keeps.via (State.tally_keeps ..)
    | (with_reducible apply Keeps.of_ite <;> intro _)
    | with_reducible exact Keeps.refl _
    | (with_reducible apply Keeps.of_pair (by assumption))
    | (with_reducible apply Keeps.of_triple (by assumption))
    | (fail_if_no_progress with_reducible refine Keeps.record ?_ rfl rfl rfl rfl rfl rfl rfl)
    | (with_reducible apply Keeps.foldl_via; intro _ _)
    | (fail_if_no_progress dsimp -zeta +zetaDelta only)

theorem State.partSent_keeps (s : State) :
    Keeps s (State.partSent s).2 := by
  unfold State.partSent
  repeat' first
    | split
    | extract_lets
    | with_reducible apply Keeps.via (State.drawn_keeps ..)
    | (with_reducible apply Keeps.of_ite <;> intro _)
    | with_reducible exact Keeps.refl _
    | (with_reducible apply Keeps.of_pair (by assumption))
    | (with_reducible apply Keeps.of_triple (by assumption))
    | (fail_if_no_progress with_reducible refine Keeps.record ?_ rfl rfl rfl rfl rfl rfl rfl)
    | (with_reducible apply Keeps.foldl_via; intro _ _)
    | (fail_if_no_progress dsimp -zeta +zetaDelta only)

theorem State.readsCounted_keeps (s : State) (a : ℕ) (n : ℕ) :
    Keeps s (State.readsCounted s a n) := by
  unfold State.readsCounted
  repeat' first
    | split
    | extract_lets
    | with_reducible apply Keeps.via (State.tally_keeps ..)
    | (with_reducible apply Keeps.of_ite <;> intro _)
    | with_reducible exact Keeps.refl _
    | (with_reducible apply Keeps.of_pair (by assumption))
    | (with_reducible apply Keeps.of_triple (by assumption))
    | (fail_if_no_progress with_reducible refine Keeps.record ?_ rfl rfl rfl rfl rfl rfl rfl)
    | (with_reducible apply Keeps.foldl_via; intro _ _)
    | (fail_if_no_progress dsimp -zeta +zetaDelta only)

theorem State.sendCopy_keeps (payload fuel src dst n : Nat) (s : State) : Keeps s (State.sendCopy payload fuel src dst n s) := by
  induction fuel generalizing src dst n s with
  | zero => exact Keeps.refl s
  | succ f ih =>
    unfold State.sendCopy
    refine Keeps.of_ite (fun _ => Keeps.refl s) fun _ => ?_
    exact ((State.readsCounted_keeps ..).trans (State.hostSend_keeps ..)).trans (ih ..)


theorem State.sentBytes_keeps (s : State) (n : ℕ) :
    Keeps s (State.sentBytes s n) := by
  unfold State.sentBytes
  repeat' first
    | split
    | extract_lets
    | with_reducible apply Keeps.via (State.sendCopy_keeps ..)
    | with_reducible apply Keeps.via (State.setWord64_keeps ..)
    | with_reducible apply Keeps.via (State.tally_keeps ..)
    | (with_reducible apply Keeps.of_ite <;> intro _)
    | with_reducible exact Keeps.refl _
    | (with_reducible apply Keeps.of_pair (by assumption))
    | (with_reducible apply Keeps.of_triple (by assumption))
    | (fail_if_no_progress with_reducible refine Keeps.record ?_ rfl rfl rfl rfl rfl rfl rfl)
    | (with_reducible apply Keeps.foldl_via; intro _ _)
    | (fail_if_no_progress dsimp -zeta +zetaDelta only)

theorem State.endCopyAt_keeps (s : State) (n : ℕ) (why : ℕ) :
    Keeps s (State.endCopyAt s n why) := by
  unfold State.endCopyAt
  repeat' first
    | split
    | extract_lets
    | with_reducible apply Keeps.via (State.putFld_keeps ..)
    | with_reducible apply Keeps.via (State.raise_keeps ..)
    | with_reducible apply Keeps.via (State.sentBytes_keeps ..)
    | (with_reducible apply Keeps.of_ite <;> intro _)
    | with_reducible exact Keeps.refl _
    | (with_reducible apply Keeps.of_pair (by assumption))
    | (with_reducible apply Keeps.of_triple (by assumption))
    | (fail_if_no_progress with_reducible refine Keeps.record ?_ rfl rfl rfl rfl rfl rfl rfl)
    | (with_reducible apply Keeps.foldl_via; intro _ _)
    | (fail_if_no_progress dsimp -zeta +zetaDelta only)

theorem State.endCopy_keeps (s : State) (why : ℕ) :
    Keeps s (State.endCopy s why) := by
  unfold State.endCopy
  repeat' first
    | split
    | extract_lets
    | with_reducible apply Keeps.via (State.endCopyAt_keeps ..)
    | with_reducible apply Keeps.via (State.partSent_keeps ..)
    | (with_reducible apply Keeps.of_ite <;> intro _)
    | with_reducible exact Keeps.refl _
    | (with_reducible apply Keeps.of_pair (by assumption))
    | (with_reducible apply Keeps.of_triple (by assumption))
    | (fail_if_no_progress with_reducible refine Keeps.record ?_ rfl rfl rfl rfl rfl rfl rfl)
    | (with_reducible apply Keeps.foldl_via; intro _ _)
    | (fail_if_no_progress dsimp -zeta +zetaDelta only)

theorem State.onHost_keeps (s : State) (f : HostPort → HostPort) (h : (f s.host).fifo = s.host.fifo) : Keeps s (s.onHost f) :=
  Keeps.of_eq rfl rfl rfl rfl rfl rfl h


theorem State.linkLoss_keeps (s : State) :
    Keeps s (State.linkLoss s) := by
  unfold State.linkLoss
  repeat' first
    | split
    | extract_lets
    | with_reducible apply Keeps.via (Keeps.onCmd ..)
    | with_reducible apply Keeps.via (State.endCopy_keeps ..)
    | with_reducible apply Keeps.via (State.onHost_keeps _ _ rfl)
    | with_reducible apply Keeps.via (State.raise_keeps ..)
    | with_reducible apply Keeps.via (State.tally_keeps ..)
    | (with_reducible apply Keeps.forAll_via; intro _ _)
    | (with_reducible apply Keeps.of_ite <;> intro _)
    | with_reducible exact Keeps.refl _
    | (with_reducible apply Keeps.of_pair (by assumption))
    | (with_reducible apply Keeps.of_triple (by assumption))
    | (fail_if_no_progress with_reducible refine Keeps.record ?_ rfl rfl rfl rfl rfl rfl rfl)
    | (with_reducible apply Keeps.foldl_via; intro _ _)
    | (fail_if_no_progress dsimp -zeta +zetaDelta only)

theorem chuteOutDone_keeps (s : State) :
    Keeps s (chuteOutDone s) := by
  unfold chuteOutDone
  repeat' first
    | split
    | extract_lets
    | with_reducible apply Keeps.via (State.endCopy_keeps ..)
    | with_reducible apply Keeps.via (State.hostSend_keeps ..)
    | with_reducible apply Keeps.via (State.putFld_keeps ..)
    | with_reducible apply Keeps.via (State.raise_keeps ..)
    | with_reducible apply Keeps.via (State.sentBytes_keeps ..)
    | (with_reducible apply Keeps.of_ite <;> intro _)
    | with_reducible exact Keeps.refl _
    | (with_reducible apply Keeps.of_pair (by assumption))
    | (with_reducible apply Keeps.of_triple (by assumption))
    | (fail_if_no_progress with_reducible refine Keeps.record ?_ rfl rfl rfl rfl rfl rfl rfl)
    | (with_reducible apply Keeps.foldl_via; intro _ _)
    | (fail_if_no_progress dsimp -zeta +zetaDelta only)

theorem State.linkSet_keeps (s : State) (width : ℕ) (speed : ℕ) (flit : Bool) :
    Keeps s (State.linkSet s width speed flit) := by
  unfold State.linkSet
  repeat' first
    | split
    | extract_lets
    | with_reducible apply Keeps.via (State.onHost_keeps _ _ rfl)
    | (with_reducible apply Keeps.of_ite <;> intro _)
    | with_reducible exact Keeps.refl _
    | (with_reducible apply Keeps.of_pair (by assumption))
    | (with_reducible apply Keeps.of_triple (by assumption))
    | (fail_if_no_progress with_reducible refine Keeps.record ?_ rfl rfl rfl rfl rfl rfl rfl)
    | (with_reducible apply Keeps.foldl_via; intro _ _)
    | (fail_if_no_progress dsimp -zeta +zetaDelta only)

theorem State.doneRead_keeps (s : State) (path : Path) (wide : Bool) :
    Keeps s (State.doneRead s path wide) := by
  unfold State.doneRead
  repeat' first
    | split
    | extract_lets
    | with_reducible apply Keeps.via (Keeps.onPath ..)
    | (with_reducible apply Keeps.of_ite <;> intro _)
    | with_reducible exact Keeps.refl _
    | (with_reducible apply Keeps.of_pair (by assumption))
    | (with_reducible apply Keeps.of_triple (by assumption))
    | (fail_if_no_progress with_reducible refine Keeps.record ?_ rfl rfl rfl rfl rfl rfl rfl)
    | (with_reducible apply Keeps.foldl_via; intro _ _)
    | (fail_if_no_progress dsimp -zeta +zetaDelta only)

theorem State.doneReply_keeps (s : State) (n : ℕ) :
    Keeps s (State.doneReply s n) := by
  unfold State.doneReply
  repeat' first
    | split
    | extract_lets
    | with_reducible apply Keeps.via (State.doneRead_keeps ..)
    | with_reducible apply Keeps.via (State.onHost_keeps _ _ rfl)
    | (with_reducible apply Keeps.of_ite <;> intro _)
    | with_reducible exact Keeps.refl _
    | (with_reducible apply Keeps.of_pair (by assumption))
    | (with_reducible apply Keeps.of_triple (by assumption))
    | (fail_if_no_progress with_reducible refine Keeps.record ?_ rfl rfl rfl rfl rfl rfl rfl)
    | (with_reducible apply Keeps.foldl_via; intro _ _)
    | (fail_if_no_progress dsimp -zeta +zetaDelta only)

theorem State.chuteWrite_keeps (s : State) (a : ℕ) (ws : List (ℕ × W32)) (good : Bool) :
    Keeps s (State.chuteWrite s a ws good) := by
  unfold State.chuteWrite
  repeat' first
    | split
    | extract_lets
    | with_reducible apply Keeps.via (State.cmdRelease_keeps ..)
    | with_reducible apply Keeps.via (State.doneReply_keeps ..)
    | with_reducible apply Keeps.via (State.onHost_keeps _ _ rfl)
    | with_reducible apply Keeps.via (State.physWrite_keeps ..)
    | with_reducible apply Keeps.via (State.tally_keeps ..)
    | (with_reducible apply Keeps.of_ite <;> intro _)
    | with_reducible exact Keeps.refl _
    | (with_reducible apply Keeps.of_pair (by assumption))
    | (with_reducible apply Keeps.of_triple (by assumption))
    | (fail_if_no_progress with_reducible refine Keeps.record ?_ rfl rfl rfl rfl rfl rfl rfl)
    | (with_reducible apply Keeps.foldl_via; intro _ _)
    | (fail_if_no_progress dsimp -zeta +zetaDelta only)

theorem chuteInGranuleWritten_keeps (codes : List Ecc) (s : State) :
    Keeps s (chuteInGranuleWritten codes s) := by
  unfold chuteInGranuleWritten
  split
  · exact Keeps.refl s
  · refine Keeps.of_ite (fun _ => Keeps.refl s) fun _ => ?_
    extract_lets ws m
    refine State.coded_keeps _ _ _ fun s => ?_
    rename_i x rest _ _
    have h := State.portWrite_keeps s m x.1 [(x.1, 4 * ws.length)]
    split
    · exact Keeps.refl s
    · rename_i e; rw [e] at h; exact Keeps.via (State.chuteWrite_keeps ..) h
    · rename_i e; rw [e] at h; exact Keeps.via (State.chuteWrite_keeps ..) h

theorem d3hotEnter_keeps (s : State) :
    Keeps s (d3hotEnter s) := by
  unfold d3hotEnter
  repeat' first
    | split
    | extract_lets
    | with_reducible apply Keeps.via (State.onHost_keeps _ _ rfl)
    | (with_reducible apply Keeps.of_ite <;> intro _)
    | with_reducible exact Keeps.refl _
    | (with_reducible apply Keeps.of_pair (by assumption))
    | (with_reducible apply Keeps.of_triple (by assumption))
    | (fail_if_no_progress with_reducible refine Keeps.record ?_ rfl rfl rfl rfl rfl rfl rfl)
    | (with_reducible apply Keeps.foldl_via; intro _ _)
    | (fail_if_no_progress dsimp -zeta +zetaDelta only)

theorem d3hotExit_keeps (s : State) :
    Keeps s (d3hotExit s) := by
  unfold d3hotExit
  repeat' first
    | split
    | extract_lets
    | with_reducible apply Keeps.via (State.hostSend_keeps ..)
    | with_reducible apply Keeps.via (State.onHost_keeps _ _ rfl)
    | (with_reducible apply Keeps.forAll_via; intro _ _)
    | (with_reducible apply Keeps.of_ite <;> intro _)
    | with_reducible exact Keeps.refl _
    | (with_reducible apply Keeps.of_pair (by assumption))
    | (with_reducible apply Keeps.of_triple (by assumption))
    | (fail_if_no_progress with_reducible refine Keeps.record ?_ rfl rfl rfl rfl rfl rfl rfl)
    | (with_reducible apply Keeps.foldl_via; intro _ _)
    | (fail_if_no_progress dsimp -zeta +zetaDelta only)

theorem perstAssert_keeps (s : State) :
    Keeps s (perstAssert s) := by
  unfold perstAssert
  repeat' first
    | split
    | extract_lets
    | with_reducible apply Keeps.via (State.linkLoss_keeps ..)
    | with_reducible apply Keeps.via (State.onHost_keeps _ _ rfl)
    | (with_reducible apply Keeps.of_ite <;> intro _)
    | with_reducible exact Keeps.refl _
    | (with_reducible apply Keeps.of_pair (by assumption))
    | (with_reducible apply Keeps.of_triple (by assumption))
    | (fail_if_no_progress with_reducible refine Keeps.record ?_ rfl rfl rfl rfl rfl rfl rfl)
    | (with_reducible apply Keeps.foldl_via; intro _ _)
    | (fail_if_no_progress dsimp -zeta +zetaDelta only)

theorem linkUp_keeps (width : BitVec 5) (speed : BitVec 3) (flit : Bool) (s : State) :
    Keeps s (linkUp width speed flit s) := by
  unfold linkUp
  repeat' first
    | split
    | extract_lets
    | with_reducible apply Keeps.via (State.linkSet_keeps ..)
    | with_reducible apply Keeps.via (State.raise_keeps ..)
    | (with_reducible apply Keeps.of_ite <;> intro _)
    | with_reducible exact Keeps.refl _
    | (with_reducible apply Keeps.of_pair (by assumption))
    | (with_reducible apply Keeps.of_triple (by assumption))
    | (fail_if_no_progress with_reducible refine Keeps.record ?_ rfl rfl rfl rfl rfl rfl rfl)
    | (with_reducible apply Keeps.foldl_via; intro _ _)
    | (fail_if_no_progress dsimp -zeta +zetaDelta only)

theorem State.linkTrain_keeps (s : State) :
    Keeps s (State.linkTrain s) := by
  unfold State.linkTrain
  repeat' first
    | split
    | extract_lets
    | with_reducible apply Keeps.via (State.onHost_keeps _ _ rfl)
    | (with_reducible apply Keeps.of_ite <;> intro _)
    | with_reducible exact Keeps.refl _
    | (with_reducible apply Keeps.of_pair (by assumption))
    | (with_reducible apply Keeps.of_triple (by assumption))
    | (fail_if_no_progress with_reducible refine Keeps.record ?_ rfl rfl rfl rfl rfl rfl rfl)
    | (with_reducible apply Keeps.foldl_via; intro _ _)
    | (fail_if_no_progress dsimp -zeta +zetaDelta only)

theorem perstRelease_keeps (s : State) :
    Keeps s (perstRelease s) := by
  unfold perstRelease
  repeat' first
    | split
    | extract_lets
    | with_reducible apply Keeps.via (State.linkTrain_keeps ..)
    | with_reducible apply Keeps.via (State.onHost_keeps _ _ rfl)
    | (with_reducible apply Keeps.of_ite <;> intro _)
    | with_reducible exact Keeps.refl _
    | (with_reducible apply Keeps.of_pair (by assumption))
    | (with_reducible apply Keeps.of_triple (by assumption))
    | (fail_if_no_progress with_reducible refine Keeps.record ?_ rfl rfl rfl rfl rfl rfl rfl)
    | (with_reducible apply Keeps.foldl_via; intro _ _)
    | (fail_if_no_progress dsimp -zeta +zetaDelta only)

theorem chuteOutSourceError_keeps (s : State) :
    Keeps s (chuteOutSourceError s) := by
  unfold chuteOutSourceError
  refine Keeps.of_ite (fun _ => Keeps.refl s) fun _ => ?_
  split
  rename_i n t e
  have ht : Keeps s t := Keeps.of_pair e (State.partSent_keeps ..)
  extract_lets w u
  have hu : Keeps s u := by
    unfold u
    split
    · exact ht
    · exact Keeps.via (State.memHistory_keeps ..) (Keeps.via (State.eccUncorrectable_keeps ..) ht)
  exact Keeps.via (State.endCopyAt_keeps ..) hu

theorem State.chuteOutCtl_keeps (s : State) (w : W32) :
    Keeps s (State.chuteOutCtl s w).2 := by
  unfold State.chuteOutCtl
  repeat' first
    | split
    | extract_lets
    | with_reducible apply Keeps.via (State.endCopy_keeps ..)
    | with_reducible apply Keeps.via (State.linkLoss_keeps ..)
    | with_reducible apply Keeps.via (State.linkTrain_keeps ..)
    | with_reducible apply Keeps.via (State.putFld_keeps ..)
    | with_reducible apply Keeps.via (State.setWord64_keeps ..)
    | with_reducible apply Keeps.via (State.takeInj_keeps ..)
    | (with_reducible apply Keeps.of_ite <;> intro _)
    | with_reducible exact Keeps.refl _
    | (with_reducible apply Keeps.of_pair (by assumption))
    | (with_reducible apply Keeps.of_triple (by assumption))
    | (fail_if_no_progress with_reducible refine Keeps.record ?_ rfl rfl rfl rfl rfl rfl rfl)
    | (with_reducible apply Keeps.foldl_via; intro _ _)
    | (fail_if_no_progress dsimp -zeta +zetaDelta only)

theorem linkDown_keeps (s : State) :
    Keeps s (linkDown s) := by
  unfold linkDown
  repeat' first
    | split
    | extract_lets
    | with_reducible apply Keeps.via (State.linkLoss_keeps ..)
    | with_reducible apply Keeps.via (State.linkTrain_keeps ..)
    | (with_reducible apply Keeps.of_ite <;> intro _)
    | with_reducible exact Keeps.refl _
    | (with_reducible apply Keeps.of_pair (by assumption))
    | (with_reducible apply Keeps.of_triple (by assumption))
    | (fail_if_no_progress with_reducible refine Keeps.record ?_ rfl rfl rfl rfl rfl rfl rfl)
    | (with_reducible apply Keeps.foldl_via; intro _ _)
    | (fail_if_no_progress dsimp -zeta +zetaDelta only)

theorem chuteInWord_keeps (byteEnables : BitVec 4) (w : W32) (s : State) :
    Keeps s (chuteInWord byteEnables w s) := by
  unfold chuteInWord
  repeat' first
    | split
    | extract_lets
    | with_reducible apply Keeps.via (State.onHost_keeps _ _ rfl)
    | with_reducible apply Keeps.via (State.raise_keeps ..)
    | with_reducible apply Keeps.via (State.setWord64_keeps ..)
    | with_reducible apply Keeps.via (State.takeInj_keeps ..)
    | with_reducible apply Keeps.via (State.tally_keeps ..)
    | (with_reducible apply Keeps.of_ite <;> intro _)
    | with_reducible exact Keeps.refl _
    | (with_reducible apply Keeps.of_pair (by assumption))
    | (with_reducible apply Keeps.of_triple (by assumption))
    | (fail_if_no_progress with_reducible refine Keeps.record ?_ rfl rfl rfl rfl rfl rfl rfl)
    | (with_reducible apply Keeps.foldl_via; intro _ _)
    | (fail_if_no_progress dsimp -zeta +zetaDelta only)

theorem State.fifoRead_keeps (s : State) :
    Keeps s (State.fifoRead s).2.2 := by
  unfold State.fifoRead
  split
  · exact State.onHost_keeps _ _ rfl
  · rename_i e
    refine ⟨rfl, ⟨rfl, rfl, rfl, rfl, Nat.le_refl _, Nat.le_refl _⟩, fun w => ⟨w.1, w.2.1, w.2.2.1, w.2.2.2.1, ?_⟩⟩
    have h := w.2.2.2.2
    rw [e, List.length_cons] at h
    exact Nat.le_of_succ_le h

theorem State.bootMeasure_keeps (s : State) (b : Bool) :
    Keeps s (State.bootMeasure s b) := by
  unfold State.bootMeasure
  repeat' first
    | split
    | extract_lets
    | with_reducible apply Keeps.via (State.extendMeas_keeps ..)
    | (with_reducible apply Keeps.of_ite <;> intro _)
    | with_reducible exact Keeps.refl _
    | (with_reducible apply Keeps.of_pair (by assumption))
    | (with_reducible apply Keeps.of_triple (by assumption))
    | (fail_if_no_progress with_reducible refine Keeps.record ?_ rfl rfl rfl rfl rfl rfl rfl)
    | (with_reducible apply Keeps.foldl_via; intro _ _)
    | (fail_if_no_progress dsimp -zeta +zetaDelta only)

theorem State.verifySlot_keeps (s : State) (b : Bool) :
    Keeps s (State.verifySlot s b).2 := by
  unfold State.verifySlot
  repeat' first
    | split
    | extract_lets
    | with_reducible apply Keeps.via (State.takeInj_keeps ..)
    | with_reducible apply Keeps.via (State.tally_keeps ..)
    | (with_reducible apply Keeps.of_ite <;> intro _)
    | with_reducible exact Keeps.refl _
    | (with_reducible apply Keeps.of_pair (by assumption))
    | (with_reducible apply Keeps.of_triple (by assumption))
    | (fail_if_no_progress with_reducible refine Keeps.record ?_ rfl rfl rfl rfl rfl rfl rfl)
    | (with_reducible apply Keeps.foldl_via; intro _ _)
    | (fail_if_no_progress dsimp -zeta +zetaDelta only)

theorem State.bootVerify_keeps (s : State) :
    Keeps s (State.bootVerify s).2 := by
  unfold State.bootVerify
  repeat' first
    | split
    | extract_lets
    | with_reducible apply Keeps.via (State.bootMeasure_keeps ..)
    | with_reducible apply Keeps.via (State.raise_keeps ..)
    | with_reducible apply Keeps.via (State.verifySlot_keeps ..)
    | (with_reducible apply Keeps.of_ite <;> intro _)
    | with_reducible exact Keeps.refl _
    | (with_reducible apply Keeps.of_pair (by assumption))
    | (with_reducible apply Keeps.of_triple (by assumption))
    | (fail_if_no_progress with_reducible refine Keeps.record ?_ rfl rfl rfl rfl rfl rfl rfl)
    | (with_reducible apply Keeps.foldl_via; intro _ _)
    | (fail_if_no_progress dsimp -zeta +zetaDelta only)

theorem State.reserveLeaf_keeps (s : State) :
    Keeps s (State.reserveLeaf s).2 := by
  unfold State.reserveLeaf
  repeat' first
    | split
    | extract_lets
    | with_reducible apply Keeps.via (State.takeInj_keeps ..)
    | with_reducible apply Keeps.via (State.tally_keeps ..)
    | (with_reducible apply Keeps.of_ite <;> intro _)
    | with_reducible exact Keeps.refl _
    | (with_reducible apply Keeps.of_pair (by assumption))
    | (with_reducible apply Keeps.of_triple (by assumption))
    | (fail_if_no_progress with_reducible refine Keeps.record ?_ rfl rfl rfl rfl rfl rfl rfl)
    | (with_reducible apply Keeps.foldl_via; intro _ _)
    | (fail_if_no_progress dsimp -zeta +zetaDelta only)

theorem State.keyLeft_keeps (s : State) :
    Keeps s (State.keyLeft s) := by
  unfold State.keyLeft
  repeat' first
    | split
    | extract_lets
    | with_reducible apply Keeps.via (State.raise_keeps ..)
    | (with_reducible apply Keeps.of_ite <;> intro _)
    | with_reducible exact Keeps.refl _
    | (with_reducible apply Keeps.of_pair (by assumption))
    | (with_reducible apply Keeps.of_triple (by assumption))
    | (fail_if_no_progress with_reducible refine Keeps.record ?_ rfl rfl rfl rfl rfl rfl rfl)
    | (with_reducible apply Keeps.foldl_via; intro _ _)
    | (fail_if_no_progress dsimp -zeta +zetaDelta only)

theorem State.sign_keeps (s : State) (msg : List Byte) :
    Keeps s (State.sign s msg).2 := by
  unfold State.sign
  repeat' first
    | split
    | extract_lets
    | with_reducible apply Keeps.via (State.keyLeft_keeps ..)
    | with_reducible apply Keeps.via (State.tally_keeps ..)
    | (with_reducible apply Keeps.of_ite <;> intro _)
    | with_reducible exact Keeps.refl _
    | (with_reducible apply Keeps.of_pair (by assumption))
    | (with_reducible apply Keeps.of_triple (by assumption))
    | (fail_if_no_progress with_reducible refine Keeps.record ?_ rfl rfl rfl rfl rfl rfl rfl)
    | (with_reducible apply Keeps.foldl_via; intro _ _)
    | (fail_if_no_progress dsimp -zeta +zetaDelta only)

theorem State.verifyInactive_keeps (s : State) :
    Keeps s (State.verifyInactive s) := by
  unfold State.verifyInactive
  repeat' first
    | split
    | extract_lets
    | with_reducible apply Keeps.via (State.putFld_keeps ..)
    | with_reducible apply Keeps.via (State.verifySlot_keeps ..)
    | (with_reducible apply Keeps.of_ite <;> intro _)
    | with_reducible exact Keeps.refl _
    | (with_reducible apply Keeps.of_pair (by assumption))
    | (with_reducible apply Keeps.of_triple (by assumption))
    | (fail_if_no_progress with_reducible refine Keeps.record ?_ rfl rfl rfl rfl rfl rfl rfl)
    | (with_reducible apply Keeps.foldl_via; intro _ _)
    | (fail_if_no_progress dsimp -zeta +zetaDelta only)

theorem State.commitSvn_keeps (s : State) :
    Keeps s (State.commitSvn s) := by
  unfold State.commitSvn
  refine Keeps.of_ite (fun _ => Keeps.refl s) fun h => ?_
  refine Keeps.trans ?_ (State.raise_keeps ..)
  exact ⟨rfl, ⟨rfl, rfl, rfl, rfl, Nat.le_of_lt (Nat.lt_of_not_le h), Nat.le_refl _⟩, id⟩

theorem State.quoteBegin_keeps (s : State) :
    Keeps s (State.quoteBegin s) := by
  unfold State.quoteBegin
  repeat' first
    | split
    | extract_lets
    | with_reducible apply Keeps.via (State.putFld_keeps ..)
    | with_reducible apply Keeps.via (State.raise_keeps ..)
    | with_reducible apply Keeps.via (State.reserveLeaf_keeps ..)
    | (with_reducible apply Keeps.of_ite <;> intro _)
    | with_reducible exact Keeps.refl _
    | (with_reducible apply Keeps.of_pair (by assumption))
    | (with_reducible apply Keeps.of_triple (by assumption))
    | (fail_if_no_progress with_reducible refine Keeps.record ?_ rfl rfl rfl rfl rfl rfl rfl)
    | (with_reducible apply Keeps.foldl_via; intro _ _)
    | (fail_if_no_progress dsimp -zeta +zetaDelta only)

theorem State.rotateNow_keeps (s : State) :
    Keeps s (State.rotateNow s) := by
  unfold State.rotateNow
  split
  rename_i ok t e
  have ht : Keeps s t := by
    refine Keeps.of_pair e ?_
    split
    · exact State.reserveLeaf_keeps ..
    · exact Keeps.refl s
  refine Keeps.of_ite (fun _ => ht) fun _ => ?_
  extract_lets gen rec1
  split
  rename_i sig u g
  have hu : Keeps t u := Keeps.of_pair g (State.sign_keeps ..)
  refine (ht.trans ?_).trans (State.raise_keeps ..)
  exact hu.trans ⟨rfl, ⟨rfl, rfl, rfl, rfl, Nat.le_refl _, Nat.le_succ _⟩, id⟩

theorem State.trustCtl_keeps (s : State) (p : Path) (w : W32) :
    Keeps s (State.trustCtl s p w) := by
  unfold State.trustCtl
  repeat' first
    | split
    | extract_lets
    | with_reducible apply Keeps.via (State.accessErr_keeps ..)
    | with_reducible apply Keeps.via (State.commitSvn_keeps ..)
    | with_reducible apply Keeps.via (State.quoteBegin_keeps ..)
    | with_reducible apply Keeps.via (State.rotateNow_keeps ..)
    | with_reducible apply Keeps.via (State.verifyInactive_keeps ..)
    | (with_reducible apply Keeps.of_ite <;> intro _)
    | with_reducible exact Keeps.refl _
    | (with_reducible apply Keeps.of_pair (by assumption))
    | (with_reducible apply Keeps.of_triple (by assumption))
    | (fail_if_no_progress with_reducible refine Keeps.record ?_ rfl rfl rfl rfl rfl rfl rfl)
    | (with_reducible apply Keeps.foldl_via; intro _ _)
    | (fail_if_no_progress dsimp -zeta +zetaDelta only)

theorem digestRecompute_keeps (s : State) :
    Keeps s (digestRecompute s) := by
  unfold digestRecompute
  repeat' first
    | split
    | extract_lets
    | with_reducible apply Keeps.via (State.tally_keeps ..)
    | (with_reducible apply Keeps.of_ite <;> intro _)
    | with_reducible exact Keeps.refl _
    | (with_reducible apply Keeps.of_pair (by assumption))
    | (with_reducible apply Keeps.of_triple (by assumption))
    | (fail_if_no_progress with_reducible refine Keeps.record ?_ rfl rfl rfl rfl rfl rfl rfl)
    | (with_reducible apply Keeps.foldl_via; intro _ _)
    | (fail_if_no_progress dsimp -zeta +zetaDelta only)

theorem State.measCtl_keeps (s : State) (p : Path) (w : W32) :
    Keeps s (State.measCtl s p w) := by
  unfold State.measCtl
  repeat' first
    | split
    | extract_lets
    | with_reducible apply Keeps.via (State.accessErr_keeps ..)
    | with_reducible apply Keeps.via (State.extendMeas_keeps ..)
    | (with_reducible apply Keeps.of_ite <;> intro _)
    | with_reducible exact Keeps.refl _
    | (with_reducible apply Keeps.of_pair (by assumption))
    | (with_reducible apply Keeps.of_triple (by assumption))
    | (fail_if_no_progress with_reducible refine Keeps.record ?_ rfl rfl rfl rfl rfl rfl rfl)
    | (with_reducible apply Keeps.foldl_via; intro _ _)
    | (fail_if_no_progress dsimp -zeta +zetaDelta only)

theorem quoteDone_keeps (s : State) :
    Keeps s (quoteDone s) := by
  unfold quoteDone
  repeat' first
    | split
    | extract_lets
    | with_reducible apply Keeps.via (State.physWrite_keeps ..)
    | with_reducible apply Keeps.via (State.putFld_keeps ..)
    | with_reducible apply Keeps.via (State.raise_keeps ..)
    | with_reducible apply Keeps.via (State.rotateNow_keeps ..)
    | with_reducible apply Keeps.via (State.sign_keeps ..)
    | with_reducible apply Keeps.via (State.tally_keeps ..)
    | (with_reducible apply Keeps.of_ite <;> intro _)
    | with_reducible exact Keeps.refl _
    | (with_reducible apply Keeps.of_pair (by assumption))
    | (with_reducible apply Keeps.of_triple (by assumption))
    | (fail_if_no_progress with_reducible refine Keeps.record ?_ rfl rfl rfl rfl rfl rfl rfl)
    | (with_reducible apply Keeps.foldl_via; intro _ _)
    | (fail_if_no_progress dsimp -zeta +zetaDelta only)

theorem State.onSupply_keeps (s : State) (f : Supply → Supply) :
    Keeps s (State.onSupply s f) := by
  unfold State.onSupply
  repeat' first
    | split
    | extract_lets
    | (with_reducible apply Keeps.of_ite <;> intro _)
    | with_reducible exact Keeps.refl _
    | (with_reducible apply Keeps.of_pair (by assumption))
    | (with_reducible apply Keeps.of_triple (by assumption))
    | (fail_if_no_progress with_reducible refine Keeps.record ?_ rfl rfl rfl rfl rfl rfl rfl)
    | (with_reducible apply Keeps.foldl_via; intro _ _)
    | (fail_if_no_progress dsimp -zeta +zetaDelta only)

theorem State.claimsFreed_keeps (s : State) (ps : List Page) :
    Keeps s (State.claimsFreed s ps) := by
  unfold State.claimsFreed
  repeat' first
    | split
    | extract_lets
    | with_reducible apply Keeps.via (State.tally_keeps ..)
    | (with_reducible apply Keeps.of_ite <;> intro _)
    | with_reducible exact Keeps.refl _
    | (with_reducible apply Keeps.of_pair (by assumption))
    | (with_reducible apply Keeps.of_triple (by assumption))
    | (fail_if_no_progress with_reducible refine Keeps.record ?_ rfl rfl rfl rfl rfl rfl rfl)
    | (with_reducible apply Keeps.foldl_via; intro _ _)
    | (fail_if_no_progress dsimp -zeta +zetaDelta only)

theorem State.coreOff_keeps (s : State) (stage : ℕ) :
    Keeps s (State.coreOff s stage) := by
  unfold State.coreOff
  extract_lets t
  have ht : Keeps s t := by
    change Keeps s (ite _ _ _)
    split
    · exact (State.linkLoss_keeps ..).trans (State.claimsFreed_keeps ..)
    · exact Keeps.refl s
  exact ht.trans ⟨rfl, ⟨rfl, rfl, rfl, rfl, Nat.le_refl _, Nat.le_refl _⟩, fun w => ⟨w.1, rfl, rfl, w.2.2.2.1, w.2.2.2.2⟩⟩

theorem State.restart_keeps (s : State) :
    Keeps s (State.restart s) := by
  unfold State.restart
  repeat' first
    | split
    | extract_lets
    | with_reducible apply Keeps.via (State.coreOff_keeps ..)
    | with_reducible apply Keeps.via (State.putFld_keeps ..)
    | (with_reducible apply Keeps.of_ite <;> intro _)
    | with_reducible exact Keeps.refl _
    | (with_reducible apply Keeps.of_pair (by assumption))
    | (with_reducible apply Keeps.of_triple (by assumption))
    | (fail_if_no_progress with_reducible refine Keeps.record ?_ rfl rfl rfl rfl rfl rfl rfl)
    | (with_reducible apply Keeps.foldl_via; intro _ _)
    | (fail_if_no_progress dsimp -zeta +zetaDelta only)

theorem inputRange_keeps (centivolts : BitVec 16) (s : State) :
    Keeps s (inputRange centivolts s) := by
  unfold inputRange
  repeat' first
    | split
    | extract_lets
    | with_reducible apply Keeps.via (State.onSupply_keeps ..)
    | with_reducible apply Keeps.via (State.raise_keeps ..)
    | with_reducible apply Keeps.via (State.restart_keeps ..)
    | (with_reducible apply Keeps.of_ite <;> intro _)
    | with_reducible exact Keeps.refl _
    | (with_reducible apply Keeps.of_pair (by assumption))
    | (with_reducible apply Keeps.of_triple (by assumption))
    | (fail_if_no_progress with_reducible refine Keeps.record ?_ rfl rfl rfl rfl rfl rfl rfl)
    | (with_reducible apply Keeps.foldl_via; intro _ _)
    | (fail_if_no_progress dsimp -zeta +zetaDelta only)

theorem State.onRef_keeps (s : State) (f : RefClock → RefClock) :
    Keeps s (State.onRef s f) := by
  unfold State.onRef
  repeat' first
    | split
    | extract_lets
    | (with_reducible apply Keeps.of_ite <;> intro _)
    | with_reducible exact Keeps.refl _
    | (with_reducible apply Keeps.of_pair (by assumption))
    | (with_reducible apply Keeps.of_triple (by assumption))
    | (fail_if_no_progress with_reducible refine Keeps.record ?_ rfl rfl rfl rfl rfl rfl rfl)
    | (with_reducible apply Keeps.foldl_via; intro _ _)
    | (fail_if_no_progress dsimp -zeta +zetaDelta only)

theorem State.declareRef_keeps (s : State) (wild : Bool) :
    Keeps s (State.declareRef s wild) := by
  unfold State.declareRef
  repeat' first
    | split
    | extract_lets
    | with_reducible apply Keeps.via (State.linkLoss_keeps ..)
    | with_reducible apply Keeps.via (State.loseTime_keeps ..)
    | with_reducible apply Keeps.via (State.onRef_keeps ..)
    | with_reducible apply Keeps.via (State.portsHold_keeps ..)
    | with_reducible apply Keeps.via (State.raise_keeps ..)
    | with_reducible apply Keeps.via (State.tally_keeps ..)
    | (with_reducible apply Keeps.of_ite <;> intro _)
    | with_reducible exact Keeps.refl _
    | (with_reducible apply Keeps.of_pair (by assumption))
    | (with_reducible apply Keeps.of_triple (by assumption))
    | (fail_if_no_progress with_reducible refine Keeps.record ?_ rfl rfl rfl rfl rfl rfl rfl)
    | (with_reducible apply Keeps.foldl_via; intro _ _)
    | (fail_if_no_progress dsimp -zeta +zetaDelta only)

theorem refWindow_keeps (edges : BitVec 16) (s : State) :
    Keeps s (refWindow edges s) := by
  unfold refWindow
  repeat' first
    | split
    | extract_lets
    | with_reducible apply Keeps.via (State.declareRef_keeps ..)
    | with_reducible apply Keeps.via (State.onRef_keeps ..)
    | with_reducible apply Keeps.via (State.takeInj_keeps ..)
    | (with_reducible apply Keeps.of_ite <;> intro _)
    | with_reducible exact Keeps.refl _
    | (with_reducible apply Keeps.of_pair (by assumption))
    | (with_reducible apply Keeps.of_triple (by assumption))
    | (fail_if_no_progress with_reducible refine Keeps.record ?_ rfl rfl rfl rfl rfl rfl rfl)
    | (with_reducible apply Keeps.foldl_via; intro _ _)
    | (fail_if_no_progress dsimp -zeta +zetaDelta only)

theorem State.pagesDirty_keeps (s : State) (ps : List Page) :
    Keeps s (State.pagesDirty s ps) := by
  unfold State.pagesDirty
  repeat' first
    | split
    | extract_lets
    | (with_reducible apply Keeps.of_ite <;> intro _)
    | with_reducible exact Keeps.refl _
    | (with_reducible apply Keeps.of_pair (by assumption))
    | (with_reducible apply Keeps.of_triple (by assumption))
    | (fail_if_no_progress with_reducible refine Keeps.record ?_ rfl rfl rfl rfl rfl rfl rfl)
    | (with_reducible apply Keeps.foldl_via; intro _ _)
    | (fail_if_no_progress dsimp -zeta +zetaDelta only)

theorem State.islandUp_keeps (s : State) (refCal : ℕ) :
    Keeps s (State.islandUp s refCal) := by
  unfold State.islandUp
  repeat' first
    | split
    | extract_lets
    | with_reducible apply Keeps.via (State.onRef_keeps ..)
    | with_reducible apply Keeps.via (State.pagesDirty_keeps ..)
    | with_reducible apply Keeps.via (State.setWord_keeps ..)
    | (with_reducible apply Keeps.of_ite <;> intro _)
    | with_reducible exact Keeps.refl _
    | (with_reducible apply Keeps.of_pair (by assumption))
    | (with_reducible apply Keeps.of_triple (by assumption))
    | (fail_if_no_progress with_reducible refine Keeps.record ?_ rfl rfl rfl rfl rfl rfl rfl)
    | (with_reducible apply Keeps.foldl_via; intro _ _)
    | (fail_if_no_progress dsimp -zeta +zetaDelta only)

theorem State.startFail_keeps (s : State) (stage : ℕ) (cause : ℕ) :
    Keeps s (State.startFail s stage cause) := by
  unfold State.startFail
  repeat' first
    | split
    | extract_lets
    | with_reducible apply Keeps.via (State.putFld_keeps ..)
    | with_reducible apply Keeps.via (State.raise_keeps ..)
    | (with_reducible apply Keeps.of_ite <;> intro _)
    | with_reducible exact Keeps.refl _
    | (with_reducible apply Keeps.of_pair (by assumption))
    | (with_reducible apply Keeps.of_triple (by assumption))
    | (fail_if_no_progress with_reducible refine Keeps.record ?_ rfl rfl rfl rfl rfl rfl rfl)
    | (with_reducible apply Keeps.foldl_via; intro _ _)
    | (fail_if_no_progress dsimp -zeta +zetaDelta only)

theorem State.bootStage_keeps (s : State) :
    Keeps s (State.bootStage s) := by
  unfold State.bootStage
  repeat' first
    | split
    | extract_lets
    | with_reducible apply Keeps.via (State.bootVerify_keeps ..)
    | with_reducible apply Keeps.via (State.onSupply_keeps ..)
    | with_reducible apply Keeps.via (State.startFail_keeps ..)
    | with_reducible apply Keeps.via (State.tally_keeps ..)
    | (with_reducible apply Keeps.of_ite <;> intro _)
    | with_reducible exact Keeps.refl _
    | (with_reducible apply Keeps.of_pair (by assumption))
    | (with_reducible apply Keeps.of_triple (by assumption))
    | (fail_if_no_progress with_reducible refine Keeps.record ?_ rfl rfl rfl rfl rfl rfl rfl)
    | (with_reducible apply Keeps.foldl_via; intro _ _)
    | (fail_if_no_progress dsimp -zeta +zetaDelta only)

theorem State.stoneUp_keeps (s : State) (m : MillId) (n : Fin 24) :
    Keeps s (State.stoneUp s m n) := by
  unfold State.stoneUp
  repeat' first
    | split
    | extract_lets
    | with_reducible apply Keeps.via (Keeps.onPower ..)
    | with_reducible apply Keeps.via (Keeps.onStone ..)
    | with_reducible apply Keeps.via (State.setWord_keeps ..)
    | with_reducible apply Keeps.via (State.writeSkew_keeps ..)
    | (with_reducible apply Keeps.of_ite <;> intro _)
    | with_reducible exact Keeps.refl _
    | (with_reducible apply Keeps.of_pair (by assumption))
    | (with_reducible apply Keeps.of_triple (by assumption))
    | (fail_if_no_progress with_reducible refine Keeps.record ?_ rfl rfl rfl rfl rfl rfl rfl)
    | (with_reducible apply Keeps.foldl_via; intro _ _)
    | (fail_if_no_progress dsimp -zeta +zetaDelta only)

theorem State.millUp_keeps (s : State) (m : MillId) :
    Keeps s (State.millUp s m) := by
  unfold State.millUp
  repeat' first
    | split
    | extract_lets
    | with_reducible apply Keeps.via (State.setWord64_keeps ..)
    | with_reducible apply Keeps.via (State.setWord_keeps ..)
    | with_reducible apply Keeps.via (State.stoneUp_keeps ..)
    | with_reducible apply Keeps.via (State.storeWord_keeps ..)
    | (with_reducible apply Keeps.forAll_via; intro _ _)
    | (with_reducible apply Keeps.of_ite <;> intro _)
    | with_reducible exact Keeps.refl _
    | (with_reducible apply Keeps.of_pair (by assumption))
    | (with_reducible apply Keeps.of_triple (by assumption))
    | (fail_if_no_progress with_reducible refine Keeps.record ?_ rfl rfl rfl rfl rfl rfl rfl)
    | (with_reducible apply Keeps.foldl_via; intro _ _)
    | (fail_if_no_progress dsimp -zeta +zetaDelta only)

theorem State.portRetired_keeps (s : State) (p : ℕ) :
    Keeps s (State.portRetired s p) := by
  unfold State.portRetired
  repeat' first
    | split
    | extract_lets
    | with_reducible apply Keeps.via (State.portEnable_keeps ..)
    | with_reducible apply Keeps.via (State.putFld_keeps ..)
    | (with_reducible apply Keeps.of_ite <;> intro _)
    | with_reducible exact Keeps.refl _
    | (with_reducible apply Keeps.of_pair (by assumption))
    | (with_reducible apply Keeps.of_triple (by assumption))
    | (fail_if_no_progress with_reducible refine Keeps.record ?_ rfl rfl rfl rfl rfl rfl rfl)
    | (with_reducible apply Keeps.foldl_via; intro _ _)
    | (fail_if_no_progress dsimp -zeta +zetaDelta only)

theorem State.coreUp_keeps (s : State) :
    Keeps s (State.coreUp s) := by
  unfold State.coreUp
  repeat' first
    | split
    | extract_lets
    | with_reducible apply Keeps.via (State.millUp_keeps ..)
    | with_reducible apply Keeps.via (State.onSupply_keeps ..)
    | with_reducible apply Keeps.via (State.pagesDirty_keeps ..)
    | with_reducible apply Keeps.via (State.pondFailure_keeps ..)
    | with_reducible apply Keeps.via (State.portRetired_keeps ..)
    | with_reducible apply Keeps.via (State.tally_keeps ..)
    | (with_reducible apply Keeps.forAll_via; intro _ _)
    | (with_reducible apply Keeps.of_ite <;> intro _)
    | with_reducible exact Keeps.refl _
    | (with_reducible apply Keeps.of_pair (by assumption))
    | (with_reducible apply Keeps.of_triple (by assumption))
    | (fail_if_no_progress with_reducible refine Keeps.record ?_ rfl rfl rfl rfl rfl rfl rfl)
    | (with_reducible apply Keeps.foldl_via; intro _ _)
    | (fail_if_no_progress dsimp -zeta +zetaDelta only)

theorem State.dropPondIn_keeps (s : State) (lo : ℕ) (hi : ℕ) :
    Keeps s (State.dropPondIn s lo hi) := by
  unfold State.dropPondIn
  repeat' first
    | split
    | extract_lets
    | (with_reducible apply Keeps.of_ite <;> intro _)
    | with_reducible exact Keeps.refl _
    | (with_reducible apply Keeps.of_pair (by assumption))
    | (with_reducible apply Keeps.of_triple (by assumption))
    | (fail_if_no_progress with_reducible refine Keeps.record ?_ rfl rfl rfl rfl rfl rfl rfl)
    | (with_reducible apply Keeps.foldl_via; intro _ _)
    | (fail_if_no_progress dsimp -zeta +zetaDelta only)

theorem State.dimmChanged_keeps (s : State) (j : ℕ) (serial : ℕ) :
    Keeps s (State.dimmChanged s j serial) := by
  unfold State.dimmChanged
  repeat' first
    | split
    | extract_lets
    | with_reducible apply Keeps.via (State.dropPondIn_keeps ..)
    | (with_reducible apply Keeps.of_ite <;> intro _)
    | with_reducible exact Keeps.refl _
    | (with_reducible apply Keeps.of_pair (by assumption))
    | (with_reducible apply Keeps.of_triple (by assumption))
    | (fail_if_no_progress with_reducible refine Keeps.record ?_ rfl rfl rfl rfl rfl rfl rfl)
    | (with_reducible apply Keeps.foldl_via; intro _ _)
    | (fail_if_no_progress dsimp -zeta +zetaDelta only)

theorem State.dimmCheck_keeps (s : State) (serials : List ℕ) :
    Keeps s (State.dimmCheck s serials) := by
  unfold State.dimmCheck
  repeat' first
    | split
    | extract_lets
    | with_reducible apply Keeps.via (State.dimmChanged_keeps ..)
    | (with_reducible apply Keeps.forAll_via; intro _ _)
    | (with_reducible apply Keeps.of_ite <;> intro _)
    | with_reducible exact Keeps.refl _
    | (with_reducible apply Keeps.of_pair (by assumption))
    | (with_reducible apply Keeps.of_triple (by assumption))
    | (fail_if_no_progress with_reducible refine Keeps.record ?_ rfl rfl rfl rfl rfl rfl rfl)
    | (with_reducible apply Keeps.foldl_via; intro _ _)
    | (fail_if_no_progress dsimp -zeta +zetaDelta only)

theorem State.portsTrain_keeps (s : State) :
    Keeps s (State.portsTrain s) := by
  unfold State.portsTrain
  repeat' first
    | split
    | extract_lets
    | with_reducible apply Keeps.via (State.onPort_keeps ..)
    | (with_reducible apply Keeps.forAll_via; intro _ _)
    | (with_reducible apply Keeps.of_ite <;> intro _)
    | with_reducible exact Keeps.refl _
    | (with_reducible apply Keeps.of_pair (by assumption))
    | (with_reducible apply Keeps.of_triple (by assumption))
    | (fail_if_no_progress with_reducible refine Keeps.record ?_ rfl rfl rfl rfl rfl rfl rfl)
    | (with_reducible apply Keeps.foldl_via; intro _ _)
    | (fail_if_no_progress dsimp -zeta +zetaDelta only)

theorem State.unitFailed_keeps (s : State) (u : ℕ × ℕ) :
    Keeps s (State.unitFailed s u) := by
  unfold State.unitFailed
  repeat' first
    | split
    | extract_lets
    | with_reducible apply Keeps.via (Keeps.onPower ..)
    | with_reducible apply Keeps.via (Keeps.onStone ..)
    | with_reducible apply Keeps.via (State.histWrite_keeps ..)
    | with_reducible apply Keeps.via (State.repairRow_keeps ..)
    | with_reducible apply Keeps.via (State.retireUnit_keeps ..)
    | (with_reducible apply Keeps.of_ite <;> intro _)
    | with_reducible exact Keeps.refl _
    | (with_reducible apply Keeps.of_pair (by assumption))
    | (with_reducible apply Keeps.of_triple (by assumption))
    | (fail_if_no_progress with_reducible refine Keeps.record ?_ rfl rfl rfl rfl rfl rfl rfl)
    | (with_reducible apply Keeps.foldl_via; intro _ _)
    | (fail_if_no_progress dsimp -zeta +zetaDelta only)

theorem State.portsSettle_keeps (s : State) :
    Keeps s (State.portsSettle s) := by
  unfold State.portsSettle
  repeat' first
    | split
    | extract_lets
    | with_reducible apply Keeps.via (State.onPort_keeps ..)
    | (with_reducible apply Keeps.forAll_via; intro _ _)
    | (with_reducible apply Keeps.of_ite <;> intro _)
    | with_reducible exact Keeps.refl _
    | (with_reducible apply Keeps.of_pair (by assumption))
    | (with_reducible apply Keeps.of_triple (by assumption))
    | (fail_if_no_progress with_reducible refine Keeps.record ?_ rfl rfl rfl rfl rfl rfl rfl)
    | (with_reducible apply Keeps.foldl_via; intro _ _)
    | (fail_if_no_progress dsimp -zeta +zetaDelta only)

theorem startupStageDone_keeps (r : StageReport) (s : State) :
    Keeps s (startupStageDone r s) := by
  unfold startupStageDone
  repeat' first
    | split
    | extract_lets
    | with_reducible apply Keeps.via (State.bootStage_keeps ..)
    | with_reducible apply Keeps.via (State.coreUp_keeps ..)
    | with_reducible apply Keeps.via (State.dimmCheck_keeps ..)
    | with_reducible apply Keeps.via (State.islandUp_keeps ..)
    | with_reducible apply Keeps.via (State.linkSet_keeps ..)
    | with_reducible apply Keeps.via (State.linkTrain_keeps ..)
    | with_reducible apply Keeps.via (State.onSupply_keeps ..)
    | with_reducible apply Keeps.via (State.portsSettle_keeps ..)
    | with_reducible apply Keeps.via (State.portsTrain_keeps ..)
    | with_reducible apply Keeps.via (State.raise_keeps ..)
    | with_reducible apply Keeps.via (State.startFail_keeps ..)
    | with_reducible apply Keeps.via (State.unitFailed_keeps ..)
    | (with_reducible apply Keeps.forAll_via; intro _ _)
    | (with_reducible apply Keeps.of_ite <;> intro _)
    | with_reducible exact Keeps.refl _
    | (with_reducible apply Keeps.of_pair (by assumption))
    | (with_reducible apply Keeps.of_triple (by assumption))
    | (fail_if_no_progress with_reducible refine Keeps.record ?_ rfl rfl rfl rfl rfl rfl rfl)
    | (with_reducible apply Keeps.foldl_via; intro _ _)
    | (fail_if_no_progress dsimp -zeta +zetaDelta only)

theorem State.lowerCap_keeps (s : State) (steps : ℕ) :
    Keeps s (State.lowerCap s steps) := by
  unfold State.lowerCap
  repeat' first
    | split
    | extract_lets
    | with_reducible apply Keeps.via (Keeps.onPower ..)
    | (with_reducible apply Keeps.forAll_via; intro _ _)
    | (with_reducible apply Keeps.of_ite <;> intro _)
    | with_reducible exact Keeps.refl _
    | (with_reducible apply Keeps.of_pair (by assumption))
    | (with_reducible apply Keeps.of_triple (by assumption))
    | (fail_if_no_progress with_reducible refine Keeps.record ?_ rfl rfl rfl rfl rfl rfl rfl)
    | (with_reducible apply Keeps.foldl_via; intro _ _)
    | (fail_if_no_progress dsimp -zeta +zetaDelta only)

theorem voltageControlTick_keeps (m : MillId) (s : State) :
    Keeps s (voltageControlTick m s) := by
  unfold voltageControlTick
  repeat' first
    | split
    | extract_lets
    | with_reducible apply Keeps.via (Keeps.onPower ..)
    | with_reducible apply Keeps.via (State.raise_keeps ..)
    | with_reducible apply Keeps.via (State.tally_keeps ..)
    | (with_reducible apply Keeps.of_ite <;> intro _)
    | with_reducible exact Keeps.refl _
    | (with_reducible apply Keeps.of_pair (by assumption))
    | (with_reducible apply Keeps.of_triple (by assumption))
    | (fail_if_no_progress with_reducible refine Keeps.record ?_ rfl rfl rfl rfl rfl rfl rfl)
    | (with_reducible apply Keeps.foldl_via; intro _ _)
    | (fail_if_no_progress dsimp -zeta +zetaDelta only)

theorem refLost_keeps (s : State) :
    Keeps s (refLost s) := by
  unfold refLost
  repeat' first
    | split
    | extract_lets
    | with_reducible apply Keeps.via (State.declareRef_keeps ..)
    | with_reducible apply Keeps.via (State.injectedTimed_keeps ..)
    | with_reducible apply Keeps.via (State.onRef_keeps ..)
    | (with_reducible apply Keeps.of_ite <;> intro _)
    | with_reducible exact Keeps.refl _
    | (with_reducible apply Keeps.of_pair (by assumption))
    | (with_reducible apply Keeps.of_triple (by assumption))
    | (fail_if_no_progress with_reducible refine Keeps.record ?_ rfl rfl rfl rfl rfl rfl rfl)
    | (with_reducible apply Keeps.foldl_via; intro _ _)
    | (fail_if_no_progress dsimp -zeta +zetaDelta only)

theorem State.releaseCap_keeps (s : State) :
    Keeps s (State.releaseCap s) := by
  unfold State.releaseCap
  repeat' first
    | split
    | extract_lets
    | with_reducible apply Keeps.via (State.onSupply_keeps ..)
    | (with_reducible apply Keeps.of_ite <;> intro _)
    | with_reducible exact Keeps.refl _
    | (with_reducible apply Keeps.of_pair (by assumption))
    | (with_reducible apply Keeps.of_triple (by assumption))
    | (fail_if_no_progress with_reducible refine Keeps.record ?_ rfl rfl rfl rfl rfl rfl rfl)
    | (with_reducible apply Keeps.foldl_via; intro _ _)
    | (fail_if_no_progress dsimp -zeta +zetaDelta only)

theorem State.mill1Gone_keeps (s : State) :
    Keeps s (State.mill1Gone s) := by
  unfold State.mill1Gone
  repeat' first
    | split
    | extract_lets
    | with_reducible apply Keeps.via (State.onPort_keeps ..)
    | (with_reducible apply Keeps.forAll_via; intro _ _)
    | (with_reducible apply Keeps.of_ite <;> intro _)
    | with_reducible exact Keeps.refl _
    | (with_reducible apply Keeps.of_pair (by assumption))
    | (with_reducible apply Keeps.of_triple (by assumption))
    | (fail_if_no_progress with_reducible refine Keeps.record ?_ rfl rfl rfl rfl rfl rfl rfl)
    | (with_reducible apply Keeps.foldl_via; intro _ _)
    | (fail_if_no_progress dsimp -zeta +zetaDelta only)

theorem State.applyRetirement_keeps (s : State) (u : ℕ × ℕ) :
    Keeps s (State.applyRetirement s u) := by
  unfold State.applyRetirement
  repeat' first
    | split
    | extract_lets
    | with_reducible apply Keeps.via (Keeps.onPower ..)
    | with_reducible apply Keeps.via (Keeps.onStone ..)
    | with_reducible apply Keeps.via (State.claimsFreed_keeps ..)
    | with_reducible apply Keeps.via (State.coreOff_keeps ..)
    | with_reducible apply Keeps.via (State.dropPondIn_keeps ..)
    | with_reducible apply Keeps.via (State.mill1Gone_keeps ..)
    | with_reducible apply Keeps.via (State.pondFailure_keeps ..)
    | with_reducible apply Keeps.via (State.portRetired_keeps ..)
    | with_reducible apply Keeps.via (State.raise_keeps ..)
    | with_reducible apply Keeps.via (State.unsplice_keeps ..)
    | (with_reducible apply Keeps.of_ite <;> intro _)
    | with_reducible exact Keeps.refl _
    | (with_reducible apply Keeps.of_pair (by assumption))
    | (with_reducible apply Keeps.of_triple (by assumption))
    | (fail_if_no_progress with_reducible refine Keeps.record ?_ rfl rfl rfl rfl rfl rfl rfl)
    | (with_reducible apply Keeps.foldl_via; intro _ _)
    | (fail_if_no_progress dsimp -zeta +zetaDelta only)

theorem retirementApply_keeps (s : State) :
    Keeps s (retirementApply s) := by
  unfold retirementApply
  repeat' first
    | split
    | extract_lets
    | with_reducible apply Keeps.via (State.applyRetirement_keeps ..)
    | (with_reducible apply Keeps.of_ite <;> intro _)
    | with_reducible exact Keeps.refl _
    | (with_reducible apply Keeps.of_pair (by assumption))
    | (with_reducible apply Keeps.of_triple (by assumption))
    | (fail_if_no_progress with_reducible refine Keeps.record ?_ rfl rfl rfl rfl rfl rfl rfl)
    | (with_reducible apply Keeps.foldl_via; intro _ _)
    | (fail_if_no_progress dsimp -zeta +zetaDelta only)

theorem inputStableInRange_keeps (s : State) :
    Keeps s (inputStableInRange s) := by
  unfold inputStableInRange
  repeat' first
    | split
    | extract_lets
    | with_reducible apply Keeps.via (State.drawn_keeps ..)
    | with_reducible apply Keeps.via (State.onSupply_keeps ..)
    | (with_reducible apply Keeps.of_ite <;> intro _)
    | with_reducible exact Keeps.refl _
    | (with_reducible apply Keeps.of_pair (by assumption))
    | (with_reducible apply Keeps.of_triple (by assumption))
    | (fail_if_no_progress with_reducible refine Keeps.record ?_ rfl rfl rfl rfl rfl rfl rfl)
    | (with_reducible apply Keeps.foldl_via; intro _ _)
    | (fail_if_no_progress dsimp -zeta +zetaDelta only)

theorem State.removePower_keeps (s : State) (thermal : Bool) :
    Keeps s (State.removePower s thermal) := by
  unfold State.removePower
  repeat' first
    | split
    | extract_lets
    | with_reducible apply Keeps.via (State.onSupply_keeps ..)
    | with_reducible apply Keeps.via (State.restart_keeps ..)
    | (with_reducible apply Keeps.of_ite <;> intro _)
    | with_reducible exact Keeps.refl _
    | (with_reducible apply Keeps.of_pair (by assumption))
    | (with_reducible apply Keeps.of_triple (by assumption))
    | (fail_if_no_progress with_reducible refine Keeps.record ?_ rfl rfl rfl rfl rfl rfl rfl)
    | (with_reducible apply Keeps.foldl_via; intro _ _)
    | (fail_if_no_progress dsimp -zeta +zetaDelta only)

theorem State.inputAt_keeps (s : State) (centivolts : ℕ) :
    Keeps s (State.inputAt s centivolts) := by
  unfold State.inputAt
  repeat' first
    | split
    | extract_lets
    | with_reducible apply Keeps.via (State.onSupply_keeps ..)
    | with_reducible apply Keeps.via (State.raise_keeps ..)
    | (with_reducible apply Keeps.of_ite <;> intro _)
    | with_reducible exact Keeps.refl _
    | (with_reducible apply Keeps.of_pair (by assumption))
    | (with_reducible apply Keeps.of_triple (by assumption))
    | (fail_if_no_progress with_reducible refine Keeps.record ?_ rfl rfl rfl rfl rfl rfl rfl)
    | (with_reducible apply Keeps.foldl_via; intro _ _)
    | (fail_if_no_progress dsimp -zeta +zetaDelta only)

theorem inputUndervoltage_keeps (centivolts : BitVec 16) (s : State) :
    Keeps s (inputUndervoltage centivolts s) := by
  unfold inputUndervoltage
  repeat' first
    | split
    | extract_lets
    | with_reducible apply Keeps.via (State.inputAt_keeps ..)
    | with_reducible apply Keeps.via (State.removePower_keeps ..)
    | (with_reducible apply Keeps.of_ite <;> intro _)
    | with_reducible exact Keeps.refl _
    | (with_reducible apply Keeps.of_pair (by assumption))
    | (with_reducible apply Keeps.of_triple (by assumption))
    | (fail_if_no_progress with_reducible refine Keeps.record ?_ rfl rfl rfl rfl rfl rfl rfl)
    | (with_reducible apply Keeps.foldl_via; intro _ _)
    | (fail_if_no_progress dsimp -zeta +zetaDelta only)

theorem refWaitExpired_keeps (s : State) :
    Keeps s (refWaitExpired s) := by
  unfold refWaitExpired
  repeat' first
    | split
    | extract_lets
    | with_reducible apply Keeps.via (State.abortCommand_keeps ..)
    | with_reducible apply Keeps.via (State.onRef_keeps ..)
    | with_reducible apply Keeps.via (State.raise_keeps ..)
    | with_reducible apply Keeps.via (State.tally_keeps ..)
    | (with_reducible apply Keeps.of_ite <;> intro _)
    | with_reducible exact Keeps.refl _
    | (with_reducible apply Keeps.of_pair (by assumption))
    | (with_reducible apply Keeps.of_triple (by assumption))
    | (fail_if_no_progress with_reducible refine Keeps.record ?_ rfl rfl rfl rfl rfl rfl rfl)
    | (with_reducible apply Keeps.foldl_via; intro _ _)
    | (fail_if_no_progress dsimp -zeta +zetaDelta only)

theorem State.islandOff_keeps (s : State) (stage : ℕ) (centivolts : ℕ) :
    Keeps s (State.islandOff s stage centivolts) := by
  exact ⟨rfl, ⟨rfl, rfl, rfl, rfl, Nat.le_refl _, Nat.le_refl _⟩, fun w => ⟨rfl, rfl, rfl, w.2.2.2.1, Nat.zero_le _⟩⟩

theorem islandPowerLoss_keeps (centivolts : BitVec 16) (s : State) :
    Keeps s (islandPowerLoss centivolts s) := by
  unfold islandPowerLoss
  repeat' first
    | split
    | extract_lets
    | with_reducible apply Keeps.via (State.islandOff_keeps ..)
    | (with_reducible apply Keeps.of_ite <;> intro _)
    | with_reducible exact Keeps.refl _
    | (with_reducible apply Keeps.of_pair (by assumption))
    | (with_reducible apply Keeps.of_triple (by assumption))
    | (fail_if_no_progress with_reducible refine Keeps.record ?_ rfl rfl rfl rfl rfl rfl rfl)
    | (with_reducible apply Keeps.foldl_via; intro _ _)
    | (fail_if_no_progress dsimp -zeta +zetaDelta only)

theorem refRecovery_keeps (s : State) :
    Keeps s (refRecovery s) := by
  unfold refRecovery
  repeat' first
    | split
    | extract_lets
    | with_reducible apply Keeps.via (State.linkTrain_keeps ..)
    | with_reducible apply Keeps.via (State.onRef_keeps ..)
    | with_reducible apply Keeps.via (State.portsRelease_keeps ..)
    | with_reducible apply Keeps.via (State.raise_keeps ..)
    | with_reducible apply Keeps.via (State.tally_keeps ..)
    | (with_reducible apply Keeps.of_ite <;> intro _)
    | with_reducible exact Keeps.refl _
    | (with_reducible apply Keeps.of_pair (by assumption))
    | (with_reducible apply Keeps.of_triple (by assumption))
    | (fail_if_no_progress with_reducible refine Keeps.record ?_ rfl rfl rfl rfl rfl rfl rfl)
    | (with_reducible apply Keeps.foldl_via; intro _ _)
    | (fail_if_no_progress dsimp -zeta +zetaDelta only)

theorem inputSample_keeps (watts : BitVec 13) (s : State) :
    Keeps s (inputSample watts s) := by
  unfold inputSample
  repeat' first
    | split
    | extract_lets
    | with_reducible apply Keeps.via (State.injectedTimed_keeps ..)
    | with_reducible apply Keeps.via (State.lowerCap_keeps ..)
    | with_reducible apply Keeps.via (State.onSupply_keeps ..)
    | with_reducible apply Keeps.via (State.raise_keeps ..)
    | with_reducible apply Keeps.via (State.tally_keeps ..)
    | (with_reducible apply Keeps.of_ite <;> intro _)
    | with_reducible exact Keeps.refl _
    | (with_reducible apply Keeps.of_pair (by assumption))
    | (with_reducible apply Keeps.of_triple (by assumption))
    | (fail_if_no_progress with_reducible refine Keeps.record ?_ rfl rfl rfl rfl rfl rfl rfl)
    | (with_reducible apply Keeps.foldl_via; intro _ _)
    | (fail_if_no_progress dsimp -zeta +zetaDelta only)

theorem inputReset_keeps (centivolts : BitVec 16) (s : State) :
    Keeps s (inputReset centivolts s) := by
  unfold inputReset
  repeat' first
    | split
    | extract_lets
    | with_reducible apply Keeps.via (State.islandOff_keeps ..)
    | (with_reducible apply Keeps.of_ite <;> intro _)
    | with_reducible exact Keeps.refl _
    | (with_reducible apply Keeps.of_pair (by assumption))
    | (with_reducible apply Keeps.of_triple (by assumption))
    | (fail_if_no_progress with_reducible refine Keeps.record ?_ rfl rfl rfl rfl rfl rfl rfl)
    | (with_reducible apply Keeps.foldl_via; intro _ _)
    | (fail_if_no_progress dsimp -zeta +zetaDelta only)

theorem State.holdStones_keeps (s : State) :
    Keeps s (State.holdStones s) := by
  unfold State.holdStones
  repeat' first
    | split
    | extract_lets
    | with_reducible apply Keeps.via (State.raise_keeps ..)
    | with_reducible apply Keeps.via (State.tally_keeps ..)
    | (with_reducible apply Keeps.forAll_via; intro _ _)
    | (with_reducible apply Keeps.of_ite <;> intro _)
    | with_reducible exact Keeps.refl _
    | (with_reducible apply Keeps.of_pair (by assumption))
    | (with_reducible apply Keeps.of_triple (by assumption))
    | (fail_if_no_progress with_reducible refine Keeps.record ?_ rfl rfl rfl rfl rfl rfl rfl)
    | (with_reducible apply Keeps.foldl_via; intro _ _)
    | (fail_if_no_progress dsimp -zeta +zetaDelta only)

theorem ebrakeTrip_keeps (c : TripCause) (s : State) :
    Keeps s (ebrakeTrip c s) := by
  unfold ebrakeTrip
  split
  rename_i inj t e
  have ht : Keeps s t := Keeps.of_pair e (State.takeInj_keeps ..)
  refine Keeps.of_ite (fun _ => Keeps.refl s) fun _ => ?_
  extract_lets s0 s1 trip s2 now s3 s4 s5
  have h1 : Keeps s s1 := by
    change Keeps s (ite _ _ _)
    split
    · exact ht
    · exact ht.trans (State.holdStones_keeps ..)
  have h2 : Keeps s s2 := by
    unfold s2
    split
    · rename_i m a _
      have h3 : Keeps s (s1.onPower m fun p => { p with coreA := a.toNat }) := Keeps.via (Keeps.onPower ..) h1
      exact Keeps.of_ite (fun _ => Keeps.via (State.raise_keeps ..) (Keeps.via (State.tally_keeps ..) h3)) fun _ => h3
    · exact h1
  have h4 : Keeps s s4 :=
    (((h2.trans (State.onSupply_keeps ..)).trans (State.tally_keeps ..)).trans (State.raise_keeps ..)).trans (State.lowerCap_keeps ..)
  refine Keeps.of_ite (fun _ => h4) fun _ => ?_
  have h5 : Keeps s s5 := (h4.trans (State.onSupply_keeps ..)).trans (State.raise_keeps ..)
  exact h5.trans (Keeps.forAll _ _ fun _ _ => Keeps.onPower ..)

theorem pllStop_keeps (s : State) :
    Keeps s (pllStop s) := by
  unfold pllStop
  repeat' first
    | split
    | extract_lets
    | with_reducible apply Keeps.via (State.onRef_keeps ..)
    | (with_reducible apply Keeps.of_ite <;> intro _)
    | with_reducible exact Keeps.refl _
    | (with_reducible apply Keeps.of_pair (by assumption))
    | (with_reducible apply Keeps.of_triple (by assumption))
    | (fail_if_no_progress with_reducible refine Keeps.record ?_ rfl rfl rfl rfl rfl rfl rfl)
    | (with_reducible apply Keeps.foldl_via; intro _ _)
    | (fail_if_no_progress dsimp -zeta +zetaDelta only)

theorem State.powerDown_keeps (s : State) :
    Keeps s (State.powerDown s).2 := by
  unfold State.powerDown
  repeat' first
    | split
    | extract_lets
    | with_reducible apply Keeps.via (State.coreOff_keeps ..)
    | with_reducible apply Keeps.via (State.onSupply_keeps ..)
    | with_reducible apply Keeps.via (State.tally_keeps ..)
    | (with_reducible apply Keeps.of_ite <;> intro _)
    | with_reducible exact Keeps.refl _
    | (with_reducible apply Keeps.of_pair (by assumption))
    | (with_reducible apply Keeps.of_triple (by assumption))
    | (fail_if_no_progress with_reducible refine Keeps.record ?_ rfl rfl rfl rfl rfl rfl rfl)
    | (with_reducible apply Keeps.foldl_via; intro _ _)
    | (fail_if_no_progress dsimp -zeta +zetaDelta only)

theorem inputOvervoltage_keeps (centivolts : BitVec 16) (s : State) :
    Keeps s (inputOvervoltage centivolts s) := by
  unfold inputOvervoltage
  repeat' first
    | split
    | extract_lets
    | with_reducible apply Keeps.via (State.inputAt_keeps ..)
    | with_reducible apply Keeps.via (State.removePower_keeps ..)
    | (with_reducible apply Keeps.of_ite <;> intro _)
    | with_reducible exact Keeps.refl _
    | (with_reducible apply Keeps.of_pair (by assumption))
    | (with_reducible apply Keeps.of_triple (by assumption))
    | (fail_if_no_progress with_reducible refine Keeps.record ?_ rfl rfl rfl rfl rfl rfl rfl)
    | (with_reducible apply Keeps.foldl_via; intro _ _)
    | (fail_if_no_progress dsimp -zeta +zetaDelta only)

theorem State.millerReset_keeps (s : State) (m : MillId) :
    Keeps s (State.millerReset s m) := by
  unfold State.millerReset
  repeat' first
    | split
    | extract_lets
    | with_reducible apply Keeps.via (Keeps.onMiller ..)
    | with_reducible apply Keeps.via (State.abortCommand_keeps ..)
    | with_reducible apply Keeps.via (State.dropLeatOps_keeps ..)
    | with_reducible apply Keeps.via (State.dropXfers_keeps ..)
    | (with_reducible apply Keeps.of_ite <;> intro _)
    | with_reducible exact Keeps.refl _
    | (with_reducible apply Keeps.of_pair (by assumption))
    | (with_reducible apply Keeps.of_triple (by assumption))
    | (fail_if_no_progress with_reducible refine Keeps.record ?_ rfl rfl rfl rfl rfl rfl rfl)
    | (with_reducible apply Keeps.foldl_via; intro _ _)
    | (fail_if_no_progress dsimp -zeta +zetaDelta only)

theorem State.millerResetWrite_keeps (s : State) (p : Path) (m : MillId) (w : W32) :
    Keeps s (State.millerResetWrite s p m w) := by
  unfold State.millerResetWrite
  repeat' first
    | split
    | extract_lets
    | with_reducible apply Keeps.via (State.accessErr_keeps ..)
    | with_reducible apply Keeps.via (State.millerReset_keeps ..)
    | (with_reducible apply Keeps.of_ite <;> intro _)
    | with_reducible exact Keeps.refl _
    | (with_reducible apply Keeps.of_pair (by assumption))
    | (with_reducible apply Keeps.of_triple (by assumption))
    | (fail_if_no_progress with_reducible refine Keeps.record ?_ rfl rfl rfl rfl rfl rfl rfl)
    | (with_reducible apply Keeps.foldl_via; intro _ _)
    | (fail_if_no_progress dsimp -zeta +zetaDelta only)

theorem ebrakeRelease_keeps (amps0 : BitVec 11) (amps1 : BitVec 11) (s : State) :
    Keeps s (ebrakeRelease amps0 amps1 s) := by
  unfold ebrakeRelease
  repeat' first
    | split
    | extract_lets
    | with_reducible apply Keeps.via (Keeps.onPower ..)
    | with_reducible apply Keeps.via (State.onSupply_keeps ..)
    | (with_reducible apply Keeps.of_ite <;> intro _)
    | with_reducible exact Keeps.refl _
    | (with_reducible apply Keeps.of_pair (by assumption))
    | (with_reducible apply Keeps.of_triple (by assumption))
    | (fail_if_no_progress with_reducible refine Keeps.record ?_ rfl rfl rfl rfl rfl rfl rfl)
    | (with_reducible apply Keeps.foldl_via; intro _ _)
    | (fail_if_no_progress dsimp -zeta +zetaDelta only)

theorem canaryMeasure_keeps (m : MillId) (rates : List (BitVec 12)) (s : State) :
    Keeps s (canaryMeasure m rates s) := by
  unfold canaryMeasure
  repeat' first
    | split
    | extract_lets
    | with_reducible apply Keeps.via (Keeps.onPower ..)
    | with_reducible apply Keeps.via (State.injectedTimed_keeps ..)
    | (with_reducible apply Keeps.of_ite <;> intro _)
    | with_reducible exact Keeps.refl _
    | (with_reducible apply Keeps.of_pair (by assumption))
    | (with_reducible apply Keeps.of_triple (by assumption))
    | (fail_if_no_progress with_reducible refine Keeps.record ?_ rfl rfl rfl rfl rfl rfl rfl)
    | (with_reducible apply Keeps.foldl_via; intro _ _)
    | (fail_if_no_progress dsimp -zeta +zetaDelta only)

theorem brakeCapRaise_keeps (s : State) :
    Keeps s (brakeCapRaise s) := by
  unfold brakeCapRaise
  repeat' first
    | split
    | extract_lets
    | with_reducible apply Keeps.via (Keeps.onPower ..)
    | (with_reducible apply Keeps.forAll_via; intro _ _)
    | (with_reducible apply Keeps.of_ite <;> intro _)
    | with_reducible exact Keeps.refl _
    | (with_reducible apply Keeps.of_pair (by assumption))
    | (with_reducible apply Keeps.of_triple (by assumption))
    | (fail_if_no_progress with_reducible refine Keeps.record ?_ rfl rfl rfl rfl rfl rfl rfl)
    | (with_reducible apply Keeps.foldl_via; intro _ _)
    | (fail_if_no_progress dsimp -zeta +zetaDelta only)

theorem State.supplyCtl_keeps (s : State) (p : Path) (w : W32) :
    Keeps s (State.supplyCtl s p w) := by
  unfold State.supplyCtl
  extract_lets s1 s2 s3
  have h1 : Keeps s s1 := by
    change Keeps s (ite _ _ _)
    split
    · exact State.releaseCap_keeps ..
    · exact Keeps.refl s
  have h2 : Keeps s s2 := by
    change Keeps s (ite _ _ _)
    split
    · exact h1.trans (State.onSupply_keeps ..)
    · exact h1
  have h3 : Keeps s s3 := by
    change Keeps s (ite _ _ _)
    split
    · exact h2
    · have h := State.powerDown_keeps s2
      split
      · rename_i e; rw [e] at h; exact h2.trans h
      · rename_i e; rw [e] at h; exact (h2.trans h).trans (State.accessErr_keeps ..)
  refine Keeps.of_ite (fun _ => h3.trans (State.restart_keeps ..)) fun _ => h3

theorem stoneUngateDone_keeps (m : MillId) (n : Fin 24) (s : State) :
    Keeps s (stoneUngateDone m n s) := by
  unfold stoneUngateDone
  repeat' first
    | split
    | extract_lets
    | with_reducible apply Keeps.via (Keeps.onPower ..)
    | with_reducible apply Keeps.via (Keeps.onStone ..)
    | with_reducible apply Keeps.via (State.tally_keeps ..)
    | (with_reducible apply Keeps.of_ite <;> intro _)
    | with_reducible exact Keeps.refl _
    | (with_reducible apply Keeps.of_pair (by assumption))
    | (with_reducible apply Keeps.of_triple (by assumption))
    | (fail_if_no_progress with_reducible refine Keeps.record ?_ rfl rfl rfl rfl rfl rfl rfl)
    | (with_reducible apply Keeps.foldl_via; intro _ _)
    | (fail_if_no_progress dsimp -zeta +zetaDelta only)

theorem timerExpired_keeps (m : MillId) (t : Fin 4) (s : State) :
    Keeps s (timerExpired m t s) := by
  unfold timerExpired
  repeat' first
    | split
    | extract_lets
    | with_reducible apply Keeps.via (State.pondRequest_keeps ..)
    | with_reducible apply Keeps.via (State.raise_keeps ..)
    | with_reducible apply Keeps.via (State.setTimer_keeps ..)
    | with_reducible apply Keeps.via (State.takeInj_keeps ..)
    | with_reducible apply Keeps.via (State.tally_keeps ..)
    | (with_reducible apply Keeps.of_ite <;> intro _)
    | with_reducible exact Keeps.refl _
    | (with_reducible apply Keeps.of_pair (by assumption))
    | (with_reducible apply Keeps.of_triple (by assumption))
    | (fail_if_no_progress with_reducible refine Keeps.record ?_ rfl rfl rfl rfl rfl rfl rfl)
    | (with_reducible apply Keeps.foldl_via; intro _ _)
    | (fail_if_no_progress dsimp -zeta +zetaDelta only)

theorem stoneGate_keeps (m : MillId) (n : Fin 24) (s : State) :
    Keeps s (stoneGate m n s) := by
  unfold stoneGate
  repeat' first
    | split
    | extract_lets
    | with_reducible apply Keeps.via (Keeps.onPower ..)
    | with_reducible apply Keeps.via (Keeps.onStone ..)
    | with_reducible apply Keeps.via (State.tally_keeps ..)
    | (with_reducible apply Keeps.of_ite <;> intro _)
    | with_reducible exact Keeps.refl _
    | (with_reducible apply Keeps.of_pair (by assumption))
    | (with_reducible apply Keeps.of_triple (by assumption))
    | (fail_if_no_progress with_reducible refine Keeps.record ?_ rfl rfl rfl rfl rfl rfl rfl)
    | (with_reducible apply Keeps.foldl_via; intro _ _)
    | (fail_if_no_progress dsimp -zeta +zetaDelta only)

theorem systemContextEccReset_keeps (m : MillId) (s : State) :
    Keeps s (systemContextEccReset m s) := by
  unfold systemContextEccReset
  repeat' first
    | split
    | extract_lets
    | with_reducible apply Keeps.via (State.histPending_keeps ..)
    | with_reducible apply Keeps.via (State.millerReset_keeps ..)
    | (with_reducible apply Keeps.of_ite <;> intro _)
    | with_reducible exact Keeps.refl _
    | (with_reducible apply Keeps.of_pair (by assumption))
    | (with_reducible apply Keeps.of_triple (by assumption))
    | (fail_if_no_progress with_reducible refine Keeps.record ?_ rfl rfl rfl rfl rfl rfl rfl)
    | (with_reducible apply Keeps.foldl_via; intro _ _)
    | (fail_if_no_progress dsimp -zeta +zetaDelta only)

theorem thermalRestart_keeps (s : State) :
    Keeps s (thermalRestart s) := by
  unfold thermalRestart
  repeat' first
    | split
    | extract_lets
    | with_reducible apply Keeps.via (State.onSupply_keeps ..)
    | (with_reducible apply Keeps.of_ite <;> intro _)
    | with_reducible exact Keeps.refl _
    | (with_reducible apply Keeps.of_pair (by assumption))
    | (with_reducible apply Keeps.of_triple (by assumption))
    | (fail_if_no_progress with_reducible refine Keeps.record ?_ rfl rfl rfl rfl rfl rfl rfl)
    | (with_reducible apply Keeps.foldl_via; intro _ _)
    | (fail_if_no_progress dsimp -zeta +zetaDelta only)

theorem junctionTrip_keeps (a0 : MillId) (a1 : Fin 32) (s : State) :
    Keeps s (junctionTrip a0 a1 s) := by
  unfold junctionTrip
  repeat' first
    | split
    | extract_lets
    | with_reducible apply Keeps.via (State.removePower_keeps ..)
    | (with_reducible apply Keeps.of_ite <;> intro _)
    | with_reducible exact Keeps.refl _
    | (with_reducible apply Keeps.of_pair (by assumption))
    | (with_reducible apply Keeps.of_triple (by assumption))
    | (fail_if_no_progress with_reducible refine Keeps.record ?_ rfl rfl rfl rfl rfl rfl rfl)
    | (with_reducible apply Keeps.foldl_via; intro _ _)
    | (fail_if_no_progress dsimp -zeta +zetaDelta only)

theorem State.digestRead_keeps (s : State) (path : Path) (k : ℕ) :
    Keeps s (State.digestRead s path k).2 := by
  unfold State.digestRead
  repeat' first
    | split
    | extract_lets
    | with_reducible apply Keeps.via (Keeps.onPath ..)
    | (with_reducible apply Keeps.of_ite <;> intro _)
    | with_reducible exact Keeps.refl _
    | (with_reducible apply Keeps.of_pair (by assumption))
    | (with_reducible apply Keeps.of_triple (by assumption))
    | (fail_if_no_progress with_reducible refine Keeps.record ?_ rfl rfl rfl rfl rfl rfl rfl)
    | (with_reducible apply Keeps.foldl_via; intro _ _)
    | (fail_if_no_progress dsimp -zeta +zetaDelta only)

theorem State.readReg_keeps (s : State) (path : Path) (p : Page) (off : ℕ) (x : WordAt) :
    Keeps s (State.readReg s path p off x).2 := by
  unfold State.readReg
  repeat' first
    | split
    | extract_lets
    | with_reducible apply Keeps.via (Keeps.onPath ..)
    | with_reducible apply Keeps.via (State.putFld_keeps ..)
    | (with_reducible apply Keeps.forAll_via; intro _ _)
    | (with_reducible apply Keeps.of_ite <;> intro _)
    | with_reducible exact Keeps.refl _
    | (with_reducible apply Keeps.of_pair (by assumption))
    | (with_reducible apply Keeps.of_triple (by assumption))
    | (fail_if_no_progress with_reducible refine Keeps.record ?_ rfl rfl rfl rfl rfl rfl rfl)
    | (with_reducible apply Keeps.foldl_via; intro _ _)
    | (fail_if_no_progress dsimp -zeta +zetaDelta only)

theorem State.accessInjected_keeps (s : State) (path : Path) :
    Keeps s (State.accessInjected s path).2 := by
  unfold State.accessInjected
  repeat' first
    | split
    | extract_lets
    | with_reducible apply Keeps.via (State.injected_keeps ..)
    | (with_reducible apply Keeps.of_ite <;> intro _)
    | with_reducible exact Keeps.refl _
    | (with_reducible apply Keeps.of_pair (by assumption))
    | (with_reducible apply Keeps.of_triple (by assumption))
    | (fail_if_no_progress with_reducible refine Keeps.record ?_ rfl rfl rfl rfl rfl rfl rfl)
    | (with_reducible apply Keeps.foldl_via; intro _ _)
    | (fail_if_no_progress dsimp -zeta +zetaDelta only)

theorem State.hoistBusy_keeps (s : State) (path : Path) :
    Keeps s (State.hoistBusy s path) := by
  unfold State.hoistBusy
  repeat' first
    | split
    | extract_lets
    | with_reducible apply Keeps.via (State.claimBusy_keeps ..)
    | (with_reducible apply Keeps.of_ite <;> intro _)
    | with_reducible exact Keeps.refl _
    | (with_reducible apply Keeps.of_pair (by assumption))
    | (with_reducible apply Keeps.of_triple (by assumption))
    | (fail_if_no_progress with_reducible refine Keeps.record ?_ rfl rfl rfl rfl rfl rfl rfl)
    | (with_reducible apply Keeps.foldl_via; intro _ _)
    | (fail_if_no_progress dsimp -zeta +zetaDelta only)

theorem State.hoistRead_keeps (s : State) (r : W32 × State) (h : s.hoistRead = some r) : Keeps s r.2 := by
  unfold State.hoistRead at h
  extract_lets a nv ok bs s1 at h
  split at h
  · cases h
  · cases h
    exact ((State.putFld_keeps ..).trans (State.putFld_keeps ..)).trans (State.tally_keeps ..)


theorem State.logRead_keeps (s : State) (path : Path) (m : MillId) (k : ℕ) :
    Keeps s (State.logRead s path m k).2 := by
  unfold State.logRead
  repeat' first
    | split
    | extract_lets
    | with_reducible apply Keeps.via (Keeps.onPath ..)
    | (with_reducible apply Keeps.of_ite <;> intro _)
    | with_reducible exact Keeps.refl _
    | (with_reducible apply Keeps.of_pair (by assumption))
    | (with_reducible apply Keeps.of_triple (by assumption))
    | (fail_if_no_progress with_reducible refine Keeps.record ?_ rfl rfl rfl rfl rfl rfl rfl)
    | (with_reducible apply Keeps.foldl_via; intro _ _)
    | (fail_if_no_progress dsimp -zeta +zetaDelta only)

theorem State.readWord_keeps (s : State) (path : Path) (off : ℕ) :
    Keeps s (State.readWord s path off).2 := by
  unfold State.readWord
  extract_lets reject o
  have hr : ∀ s c, Keeps s (reject s c).2 := fun s c => State.accessErr_keeps ..
  clear_value reject
  split
  rename_i inj t e
  have ht : Keeps s t := Keeps.of_pair e (State.accessInjected_keeps ..)
  clear e
  suffices h : Keeps t _ from ht.trans h
  split
  · exact hr ..
  · split
    · exact hr ..
    · split
      · exact hr ..
      · split
        · exact Keeps.refl t
        · split
          · exact hr ..
          · split
            · split
              · split
                rename_i lo hi u g
                exact (Keeps.of_triple g (State.fifoRead_keeps t)).trans (Keeps.onPath ..)
              · split
                · split
                  · exact State.hoistBusy_keeps ..
                  · split
                    · split
                      · rename_i g; exact State.hoistRead_keeps t _ g
                      · exact hr ..
                    · exact State.readReg_keeps ..
                · exact State.readReg_keeps ..
            · split
              · exact State.logRead_keeps ..
              · exact State.readReg_keeps ..
            · split
              · exact State.digestRead_keeps ..
              · split
                · exact State.digestRead_keeps ..
                · exact State.readReg_keeps ..
            · exact State.readReg_keeps ..

theorem State.reply_keeps (s : State) (path : Path) (v : W64) :
    Keeps s (State.reply s path v) := by
  unfold State.reply
  repeat' first
    | split
    | extract_lets
    | with_reducible apply Keeps.via (Keeps.onPath ..)
    | (with_reducible apply Keeps.of_ite <;> intro _)
    | with_reducible exact Keeps.refl _
    | (with_reducible apply Keeps.of_pair (by assumption))
    | (with_reducible apply Keeps.of_triple (by assumption))
    | (fail_if_no_progress with_reducible refine Keeps.record ?_ rfl rfl rfl rfl rfl rfl rfl)
    | (with_reducible apply Keeps.foldl_via; intro _ _)
    | (fail_if_no_progress dsimp -zeta +zetaDelta only)

theorem State.regRead_keeps (s : State) (path : Path) (off : ℕ) (width : ℕ) :
    Keeps s (State.regRead s path off width) := by
  unfold State.regRead
  repeat' first
    | split
    | extract_lets
    | with_reducible apply Keeps.via (State.accessErr_keeps ..)
    | with_reducible apply Keeps.via (State.onHost_keeps _ _ rfl)
    | with_reducible apply Keeps.via (State.readWord_keeps ..)
    | with_reducible apply Keeps.via (State.reply_keeps ..)
    | with_reducible apply Keeps.via (State.tally_keeps ..)
    | (with_reducible apply Keeps.of_ite <;> intro _)
    | with_reducible exact Keeps.refl _
    | (with_reducible apply Keeps.of_pair (by assumption))
    | (with_reducible apply Keeps.of_triple (by assumption))
    | (fail_if_no_progress with_reducible refine Keeps.record ?_ rfl rfl rfl rfl rfl rfl rfl)
    | (with_reducible apply Keeps.foldl_via; intro _ _)
    | (fail_if_no_progress dsimp -zeta +zetaDelta only)

theorem State.hoistWrite_keeps (s : State) (w : W32) :
    ∀ t, State.hoistWrite s w = some t → Keeps s t := by
  intro t h
  unfold State.hoistWrite at h
  extract_lets a nv ok bs x s1 s2 at h
  have h1 : Keeps s s1 := by
    change Keeps s (ite _ _ _)
    split
    · exact (Keeps.store _ fun w => Memory.wf_writeBytes _ _ w).trans (Keeps.of_eq rfl rfl rfl rfl rfl rfl rfl)
    · exact State.physWrite_keeps ..
  split at h
  · cases h
  · cases h
    exact ((h1.trans (State.putFld_keeps ..)).trans (State.putFld_keeps ..)).trans (State.tally_keeps ..)

theorem State.msixWrite_keeps (s : State) (off : ℕ) (w : W32) :
    Keeps s (State.msixWrite s off w) := by
  unfold State.msixWrite
  repeat' first
    | split
    | extract_lets
    | with_reducible apply Keeps.via (State.onHost_keeps _ _ rfl)
    | with_reducible apply Keeps.via (State.sendMsix_keeps ..)
    | (with_reducible apply Keeps.of_ite <;> intro _)
    | with_reducible exact Keeps.refl _
    | (with_reducible apply Keeps.of_pair (by assumption))
    | (with_reducible apply Keeps.of_triple (by assumption))
    | (fail_if_no_progress with_reducible refine Keeps.record ?_ rfl rfl rfl rfl rfl rfl rfl)
    | (with_reducible apply Keeps.foldl_via; intro _ _)
    | (fail_if_no_progress dsimp -zeta +zetaDelta only)

theorem State.dropBit_keeps (s : State) (p : Page) (off : ℕ) (i : ℕ) :
    Keeps s (State.dropBit s p off i) := by
  unfold State.dropBit
  repeat' first
    | split
    | extract_lets
    | with_reducible apply Keeps.via (State.putFld_keeps ..)
    | with_reducible apply Keeps.via (State.setGen_keeps ..)
    | (with_reducible apply Keeps.of_ite <;> intro _)
    | with_reducible exact Keeps.refl _
    | (with_reducible apply Keeps.of_pair (by assumption))
    | (with_reducible apply Keeps.of_triple (by assumption))
    | (fail_if_no_progress with_reducible refine Keeps.record ?_ rfl rfl rfl rfl rfl rfl rfl)
    | (with_reducible apply Keeps.foldl_via; intro _ _)
    | (fail_if_no_progress dsimp -zeta +zetaDelta only)

theorem State.retireCtl_keeps (s : State) (w : W32) :
    Keeps s (State.retireCtl s w).2 := by
  unfold State.retireCtl
  repeat' first
    | split
    | extract_lets
    | with_reducible apply Keeps.via (State.retireByClass_keeps ..)
    | (with_reducible apply Keeps.of_ite <;> intro _)
    | with_reducible exact Keeps.refl _
    | (with_reducible apply Keeps.of_pair (by assumption))
    | (with_reducible apply Keeps.of_triple (by assumption))
    | (fail_if_no_progress with_reducible refine Keeps.record ?_ rfl rfl rfl rfl rfl rfl rfl)
    | (with_reducible apply Keeps.foldl_via; intro _ _)
    | (fail_if_no_progress dsimp -zeta +zetaDelta only)

theorem State.pondCtl_keeps (s : State) (w : W32) :
    Keeps s (State.pondCtl s w) := by
  unfold State.pondCtl
  repeat' first
    | split
    | extract_lets
    | with_reducible apply Keeps.via (State.pondAbort_keeps ..)
    | with_reducible apply Keeps.via (State.pondExported_keeps ..)
    | with_reducible apply Keeps.via (State.pondReceive_keeps ..)
    | with_reducible apply Keeps.via (State.pondRestore_keeps ..)
    | with_reducible apply Keeps.via (State.pondTake_keeps ..)
    | (with_reducible apply Keeps.of_ite <;> intro _)
    | with_reducible exact Keeps.refl _
    | (with_reducible apply Keeps.of_pair (by assumption))
    | (with_reducible apply Keeps.of_triple (by assumption))
    | (fail_if_no_progress with_reducible refine Keeps.record ?_ rfl rfl rfl rfl rfl rfl rfl)
    | (with_reducible apply Keeps.foldl_via; intro _ _)
    | (fail_if_no_progress dsimp -zeta +zetaDelta only)

theorem State.logCtl_keeps (s : State) (m : MillId) (w : W32) :
    Keeps s (State.logCtl s m w).2 := by
  unfold State.logCtl
  repeat' first
    | split
    | extract_lets
    | with_reducible apply Keeps.via (State.logArm_keeps ..)
    | with_reducible apply Keeps.via (State.logRun_keeps ..)
    | with_reducible apply Keeps.via (State.logTrigNow_keeps ..)
    | (with_reducible apply Keeps.of_ite <;> intro _)
    | with_reducible exact Keeps.refl _
    | (with_reducible apply Keeps.of_pair (by assumption))
    | (with_reducible apply Keeps.of_triple (by assumption))
    | (fail_if_no_progress with_reducible refine Keeps.record ?_ rfl rfl rfl rfl rfl rfl rfl)
    | (with_reducible apply Keeps.foldl_via; intro _ _)
    | (fail_if_no_progress dsimp -zeta +zetaDelta only)

theorem State.act_keeps (s : State) (path : Path) (p : Page) (off : ℕ) (w : W32) (v : W64) :
    Keeps s (State.act s path p off w v) := by
  unfold State.act
  repeat' first
    | split
    | extract_lets
    | with_reducible apply Keeps.via (State.accessErr_keeps ..)
    | with_reducible apply Keeps.via (State.boltResumeWrite_keeps ..)
    | with_reducible apply Keeps.via (State.chuteOutCtl_keeps ..)
    | with_reducible apply Keeps.via (State.cmdAbort_keeps ..)
    | with_reducible apply Keeps.via (State.cmdFlush_keeps ..)
    | with_reducible apply Keeps.via (State.cmdWordWrite_keeps ..)
    | with_reducible apply Keeps.via (State.groupDrop_keeps ..)
    | with_reducible apply Keeps.via (State.groupLoad_keeps ..)
    | with_reducible apply Keeps.via (State.ledgerFlush_keeps ..)
    | with_reducible apply Keeps.via (State.logCtl_keeps ..)
    | with_reducible apply Keeps.via (State.measCtl_keeps ..)
    | with_reducible apply Keeps.via (State.millerResetWrite_keeps ..)
    | with_reducible apply Keeps.via (State.onHost_keeps _ _ rfl)
    | with_reducible apply Keeps.via (State.pondCtl_keeps ..)
    | with_reducible apply Keeps.via (State.pondFailAdd_keeps ..)
    | with_reducible apply Keeps.via (State.portEnable_keeps ..)
    | with_reducible apply Keeps.via (State.repairCtl_keeps ..)
    | with_reducible apply Keeps.via (State.resetAsm_keeps ..)
    | with_reducible apply Keeps.via (State.retireCtl_keeps ..)
    | with_reducible apply Keeps.via (State.retrainPort_keeps ..)
    | with_reducible apply Keeps.via (State.setTimer_keeps ..)
    | with_reducible apply Keeps.via (State.sluResume_keeps ..)
    | with_reducible apply Keeps.via (State.supplyCtl_keeps ..)
    | with_reducible apply Keeps.via (State.timeSetWrite_keeps ..)
    | with_reducible apply Keeps.via (State.tlbInval_keeps ..)
    | with_reducible apply Keeps.via (State.trustCtl_keeps ..)
    | with_reducible apply Keeps.via (State.watchClose_keeps ..)
    | with_reducible apply Keeps.via (State.watchOpen_keeps ..)
    | (with_reducible apply Keeps.forAll_via; intro _ _)
    | (with_reducible apply Keeps.of_ite <;> intro _)
    | with_reducible exact Keeps.refl _
    | (with_reducible apply Keeps.of_pair (by assumption))
    | (with_reducible apply Keeps.of_triple (by assumption))
    | (fail_if_no_progress with_reducible refine Keeps.record ?_ rfl rfl rfl rfl rfl rfl rfl)
    | (with_reducible apply Keeps.foldl_via; intro _ _)
    | (fail_if_no_progress dsimp -zeta +zetaDelta only)

theorem State.writeCustom_keeps (s : State) (path : Path) (p : Page) (off : ℕ) (w : W32) :
    ∀ t, State.writeCustom s path p off w = some t → Keeps s t := by
  intro t h
  unfold State.writeCustom at h
  split at h
  · split at h
    · cases h
      split
      · rename_i g; exact State.hoistWrite_keeps s w _ g
      · exact State.accessErr_keeps ..
    · cases h
  · split at h
    · cases h
      refine Keeps.trans ?_ (State.routeWrite_keeps ..)
      exact Keeps.of_ite (fun _ => Keeps.refl s) fun _ => State.accessErr_keeps ..
    · cases h
  · split at h
    · cases h
      exact Keeps.of_eq rfl rfl rfl rfl rfl rfl rfl
    · cases h
  · cases h

theorem State.releaseEffect_keeps (s : State) (p : Page) (code : ℕ) :
    Keeps s (State.releaseEffect s p code) := by
  unfold State.releaseEffect
  repeat' first
    | split
    | extract_lets
    | with_reducible apply Keeps.via (State.dropBit_keeps ..)
    | with_reducible apply Keeps.via (State.putFld_keeps ..)
    | with_reducible apply Keeps.via (State.setTimer_keeps ..)
    | (with_reducible apply Keeps.of_ite <;> intro _)
    | with_reducible exact Keeps.refl _
    | (with_reducible apply Keeps.of_pair (by assumption))
    | (with_reducible apply Keeps.of_triple (by assumption))
    | (fail_if_no_progress with_reducible refine Keeps.record ?_ rfl rfl rfl rfl rfl rfl rfl)
    | (with_reducible apply Keeps.foldl_via; intro _ _)
    | (fail_if_no_progress dsimp -zeta +zetaDelta only)

theorem State.releaseClaim_keeps (s : State) (p : Page) (code : ℕ) :
    Keeps s (State.releaseClaim s p code) := by
  unfold State.releaseClaim
  repeat' first
    | split
    | extract_lets
    | with_reducible apply Keeps.via (State.putFld_keeps ..)
    | with_reducible apply Keeps.via (State.releaseEffect_keeps ..)
    | with_reducible apply Keeps.via (State.tally_keeps ..)
    | (with_reducible apply Keeps.of_ite <;> intro _)
    | with_reducible exact Keeps.refl _
    | (with_reducible apply Keeps.of_pair (by assumption))
    | (with_reducible apply Keeps.of_triple (by assumption))
    | (fail_if_no_progress with_reducible refine Keeps.record ?_ rfl rfl rfl rfl rfl rfl rfl)
    | (with_reducible apply Keeps.foldl_via; intro _ _)
    | (fail_if_no_progress dsimp -zeta +zetaDelta only)

theorem State.writeClaim_keeps (s : State) (path : Path) (p : Page) (w : W32) :
    Keeps s (State.writeClaim s path p w) := by
  unfold State.writeClaim
  repeat' first
    | split
    | extract_lets
    | with_reducible apply Keeps.via (State.accessErr_keeps ..)
    | with_reducible apply Keeps.via (State.claim_keeps ..)
    | with_reducible apply Keeps.via (State.releaseClaim_keeps ..)
    | (with_reducible apply Keeps.of_ite <;> intro _)
    | with_reducible exact Keeps.refl _
    | (with_reducible apply Keeps.of_pair (by assumption))
    | (with_reducible apply Keeps.of_triple (by assumption))
    | (fail_if_no_progress with_reducible refine Keeps.record ?_ rfl rfl rfl rfl rfl rfl rfl)
    | (with_reducible apply Keeps.foldl_via; intro _ _)
    | (fail_if_no_progress dsimp -zeta +zetaDelta only)

theorem State.writeInjCtl_keeps (s : State) (path : Path) (p : Page) (w : W32) :
    Keeps s (State.writeInjCtl s path p w) := by
  unfold State.writeInjCtl
  repeat' first
    | split
    | extract_lets
    | with_reducible apply Keeps.via (State.accessErr_keeps ..)
    | with_reducible apply Keeps.via (State.setGen_keeps ..)
    | with_reducible apply Keeps.via (State.setWord_keeps ..)
    | (with_reducible apply Keeps.of_ite <;> intro _)
    | with_reducible exact Keeps.refl _
    | (with_reducible apply Keeps.of_pair (by assumption))
    | (with_reducible apply Keeps.of_triple (by assumption))
    | (fail_if_no_progress with_reducible refine Keeps.record ?_ rfl rfl rfl rfl rfl rfl rfl)
    | (with_reducible apply Keeps.foldl_via; intro _ _)
    | (fail_if_no_progress dsimp -zeta +zetaDelta only)

theorem State.writeEvtClr_keeps (s : State) (path : Path) (p : Page) (w : W32) :
    Keeps s (State.writeEvtClr s path p w) := by
  unfold State.writeEvtClr
  repeat' first
    | split
    | extract_lets
    | with_reducible apply Keeps.via (State.accessErr_keeps ..)
    | with_reducible apply Keeps.via (State.setWord_keeps ..)
    | (with_reducible apply Keeps.of_ite <;> intro _)
    | with_reducible exact Keeps.refl _
    | (with_reducible apply Keeps.of_pair (by assumption))
    | (with_reducible apply Keeps.of_triple (by assumption))
    | (fail_if_no_progress with_reducible refine Keeps.record ?_ rfl rfl rfl rfl rfl rfl rfl)
    | (with_reducible apply Keeps.foldl_via; intro _ _)
    | (fail_if_no_progress dsimp -zeta +zetaDelta only)

theorem State.writeBlock_keeps (s : State) (path : Path) (p : Page) (off : ℕ) (x : WordAt) (w : W32) (v : W64) :
    Keeps s (State.writeBlock s path p off x w v) := by
  unfold State.writeBlock
  repeat' first
    | split
    | extract_lets
    | with_reducible apply Keeps.via (State.accessErr_keeps ..)
    | with_reducible apply Keeps.via (State.act_keeps ..)
    | with_reducible apply Keeps.via (State.gated_keeps ..)
    | with_reducible apply Keeps.via (State.setGen_keeps ..)
    | with_reducible apply Keeps.via (State.setWord64_keeps ..)
    | with_reducible apply Keeps.via (State.setWord_keeps ..)
    | with_reducible apply Keeps.via (State.stored_keeps ..)
    | (refine Keeps.via (State.writeCustom_keeps _ _ _ _ _ _ (by assumption)) ?_)
    | (refine Keeps.via (State.writeCustom_keeps _ _ _ _ _ _ ?_) ?_; assumption)
    | (with_reducible apply Keeps.of_ite <;> intro _)
    | with_reducible exact Keeps.refl _
    | (with_reducible apply Keeps.of_pair (by assumption))
    | (with_reducible apply Keeps.of_triple (by assumption))
    | (fail_if_no_progress with_reducible refine Keeps.record ?_ rfl rfl rfl rfl rfl rfl rfl)
    | (with_reducible apply Keeps.foldl_via; intro _ _)
    | (fail_if_no_progress dsimp -zeta +zetaDelta only)

theorem State.writeEvtEn_keeps (s : State) (path : Path) (p : Page) (w : W32) :
    Keeps s (State.writeEvtEn s path p w) := by
  unfold State.writeEvtEn
  repeat' first
    | split
    | extract_lets
    | with_reducible apply Keeps.via (State.accessErr_keeps ..)
    | with_reducible apply Keeps.via (State.setGen_keeps ..)
    | with_reducible apply Keeps.via (State.setWord_keeps ..)
    | with_reducible apply Keeps.via (State.stored_keeps ..)
    | (with_reducible apply Keeps.of_ite <;> intro _)
    | with_reducible exact Keeps.refl _
    | (with_reducible apply Keeps.of_pair (by assumption))
    | (with_reducible apply Keeps.of_triple (by assumption))
    | (fail_if_no_progress with_reducible refine Keeps.record ?_ rfl rfl rfl rfl rfl rfl rfl)
    | (with_reducible apply Keeps.foldl_via; intro _ _)
    | (fail_if_no_progress dsimp -zeta +zetaDelta only)

theorem State.writeReg_keeps (s : State) (path : Path) (p : Page) (off : ℕ) (x : WordAt) (w : W32) :
    Keeps s (State.writeReg s path p off x w) := by
  unfold State.writeReg
  extract_lets at1 err fs sys base v
  have he : ∀ c, Keeps s (err c) := fun c => State.accessErr_keeps ..
  clear_value err v
  refine Keeps.of_ite (fun _ => he _) fun _ => Keeps.of_ite (fun _ => he _) fun _ => Keeps.of_ite (fun _ => ?_) fun _ =>
    Keeps.of_ite (fun _ => he _) fun _ => Keeps.of_ite (fun _ => he _) fun _ => ?_
  · exact Keeps.of_ite (fun _ => Keeps.refl s) fun _ => he _
  · split
    · exact State.claimBusy_keeps ..
    · refine Keeps.of_ite (fun _ => Keeps.onPath ..) fun _ => Keeps.of_ite (fun _ => he _) fun _ => ?_
      split
      · exact State.writeEvtEn_keeps ..
      · exact State.writeEvtClr_keeps ..
      · exact Keeps.of_ite (fun _ => he _) fun _ => State.writeBlock_keeps ..
      · exact State.writeInjCtl_keeps ..
      · exact State.writeClaim_keeps ..
      · exact State.writeBlock_keeps ..

theorem State.writeWord_keeps (s : State) (path : Path) (off : ℕ) (w : W32) :
    Keeps s (State.writeWord s path off w) := by
  unfold State.writeWord
  repeat' first
    | split
    | extract_lets
    | with_reducible apply Keeps.via (State.accessErr_keeps ..)
    | with_reducible apply Keeps.via (State.accessInjected_keeps ..)
    | with_reducible apply Keeps.via (State.msixWrite_keeps ..)
    | with_reducible apply Keeps.via (State.writeReg_keeps ..)
    | (with_reducible apply Keeps.of_ite <;> intro _)
    | with_reducible exact Keeps.refl _
    | (with_reducible apply Keeps.of_pair (by assumption))
    | (with_reducible apply Keeps.of_triple (by assumption))
    | (fail_if_no_progress with_reducible refine Keeps.record ?_ rfl rfl rfl rfl rfl rfl rfl)
    | (with_reducible apply Keeps.foldl_via; intro _ _)
    | (fail_if_no_progress dsimp -zeta +zetaDelta only)

theorem State.regWrite_keeps (s : State) (path : Path) (off : ℕ) (width : ℕ) (v : W64) :
    Keeps s (State.regWrite s path off width v) := by
  unfold State.regWrite
  repeat' first
    | split
    | extract_lets
    | with_reducible apply Keeps.via (State.accessErr_keeps ..)
    | with_reducible apply Keeps.via (State.tally_keeps ..)
    | with_reducible apply Keeps.via (State.writeWord_keeps ..)
    | (with_reducible apply Keeps.of_ite <;> intro _)
    | with_reducible exact Keeps.refl _
    | (with_reducible apply Keeps.of_pair (by assumption))
    | (with_reducible apply Keeps.of_triple (by assumption))
    | (fail_if_no_progress with_reducible refine Keeps.record ?_ rfl rfl rfl rfl rfl rfl rfl)
    | (with_reducible apply Keeps.foldl_via; intro _ _)
    | (fail_if_no_progress dsimp -zeta +zetaDelta only)

end Sys2Proof.Machine
end

