-- ==== Sys2Proof/Laws/KeepsChain.lean ====
section
/-! SUPPORT. What each change of the state made in Machine/Chain, Flits, Vector, Ikiug, Rows, Tick keeps: the queue, the
fuses blown, soundness. -/

namespace Sys2Proof.Machine

set_option Elab.async false

set_option linter.unusedTactic false
set_option linter.unreachableTactic false
set_option linter.unusedVariables false

theorem State.onHoist_keeps (s : State) (f : Chain → Chain) :
    Keeps s (State.onHoist s f) := by
  unfold State.onHoist
  repeat' first
    | split
    | extract_lets
    | (with_reducible apply Keeps.of_ite <;> intro _)
    | with_reducible exact Keeps.refl _
    | (with_reducible apply Keeps.of_pair (by assumption))
    | (with_reducible apply Keeps.of_triple (by assumption))
    | (fail_if_no_progress with_reducible refine Keeps.record ?_ rfl rfl rfl rfl rfl rfl rfl)
    | (with_reducible apply Keeps.foldl_via; intro _ _)
    | (fail_if_no_progress dsimp -zeta +zetaDelta only)

theorem State.forward_keeps (s : State) (f : ChainFrame) :
    Keeps s (State.forward s f) := by
  unfold State.forward
  repeat' first
    | split
    | extract_lets
    | with_reducible apply Keeps.via (State.onHoist_keeps ..)
    | (with_reducible apply Keeps.of_ite <;> intro _)
    | with_reducible exact Keeps.refl _
    | (with_reducible apply Keeps.of_pair (by assumption))
    | (with_reducible apply Keeps.of_triple (by assumption))
    | (fail_if_no_progress with_reducible refine Keeps.record ?_ rfl rfl rfl rfl rfl rfl rfl)
    | (with_reducible apply Keeps.foldl_via; intro _ _)
    | (fail_if_no_progress dsimp -zeta +zetaDelta only)

theorem State.hostTally_keeps (s : State) (k : ℕ) :
    Keeps s (State.hostTally s k) := by
  unfold State.hostTally
  repeat' first
    | split
    | extract_lets
    | with_reducible apply Keeps.via (State.tally_keeps ..)
    | (with_reducible apply Keeps.of_ite <;> intro _)
    | with_reducible exact Keeps.refl _
    | (with_reducible apply Keeps.of_pair (by assumption))
    | (with_reducible apply Keeps.of_triple (by assumption))
    | (fail_if_no_progress with_reducible refine Keeps.record ?_ rfl rfl rfl rfl rfl rfl rfl)
    | (with_reducible apply Keeps.foldl_via; intro _ _)
    | (fail_if_no_progress dsimp -zeta +zetaDelta only)

theorem State.answer_keeps (s : State) (f : ChainFrame) (status : Byte) :
    Keeps s (State.answer s f status) := by
  unfold State.answer
  repeat' first
    | split
    | extract_lets
    | with_reducible apply Keeps.via (State.forward_keeps ..)
    | with_reducible apply Keeps.via (State.hostTally_keeps ..)
    | (with_reducible apply Keeps.of_ite <;> intro _)
    | with_reducible exact Keeps.refl _
    | (with_reducible apply Keeps.of_pair (by assumption))
    | (with_reducible apply Keeps.of_triple (by assumption))
    | (fail_if_no_progress with_reducible refine Keeps.record ?_ rfl rfl rfl rfl rfl rfl rfl)
    | (with_reducible apply Keeps.foldl_via; intro _ _)
    | (fail_if_no_progress dsimp -zeta +zetaDelta only)

theorem State.chainEnumerate_keeps (s : State) (f : ChainFrame) :
    Keeps s (State.chainEnumerate s f) := by
  unfold State.chainEnumerate
  repeat' first
    | split
    | extract_lets
    | with_reducible apply Keeps.via (State.answer_keeps ..)
    | with_reducible apply Keeps.via (State.forward_keeps ..)
    | with_reducible apply Keeps.via (State.onHoist_keeps ..)
    | with_reducible apply Keeps.via (State.raise_keeps ..)
    | (with_reducible apply Keeps.of_ite <;> intro _)
    | with_reducible exact Keeps.refl _
    | (with_reducible apply Keeps.of_pair (by assumption))
    | (with_reducible apply Keeps.of_triple (by assumption))
    | (fail_if_no_progress with_reducible refine Keeps.record ?_ rfl rfl rfl rfl rfl rfl rfl)
    | (with_reducible apply Keeps.foldl_via; intro _ _)
    | (fail_if_no_progress dsimp -zeta +zetaDelta only)

theorem State.chainResult_keeps (s : State) (f : ChainFrame) :
    Keeps s (State.chainResult s f) := by
  unfold State.chainResult
  repeat' first
    | split
    | extract_lets
    | with_reducible apply Keeps.via (State.answer_keeps ..)
    | with_reducible apply Keeps.via (State.forward_keeps ..)
    | with_reducible apply Keeps.via (State.hostTally_keeps ..)
    | with_reducible apply Keeps.via (State.onHoist_keeps ..)
    | (with_reducible apply Keeps.of_ite <;> intro _)
    | with_reducible exact Keeps.refl _
    | (with_reducible apply Keeps.of_pair (by assumption))
    | (with_reducible apply Keeps.of_triple (by assumption))
    | (fail_if_no_progress with_reducible refine Keeps.record ?_ rfl rfl rfl rfl rfl rfl rfl)
    | (with_reducible apply Keeps.foldl_via; intro _ _)
    | (fail_if_no_progress dsimp -zeta +zetaDelta only)

theorem State.chainRead_keeps (s : State) (f : ChainFrame) :
    Keeps s (State.chainRead s f) := by
  unfold State.chainRead
  repeat' first
    | split
    | extract_lets
    | with_reducible apply Keeps.via (State.answer_keeps ..)
    | with_reducible apply Keeps.via (State.forward_keeps ..)
    | with_reducible apply Keeps.via (State.onHoist_keeps ..)
    | (with_reducible apply Keeps.of_ite <;> intro _)
    | with_reducible exact Keeps.refl _
    | (with_reducible apply Keeps.of_pair (by assumption))
    | (with_reducible apply Keeps.of_triple (by assumption))
    | (fail_if_no_progress with_reducible refine Keeps.record ?_ rfl rfl rfl rfl rfl rfl rfl)
    | (with_reducible apply Keeps.foldl_via; intro _ _)
    | (fail_if_no_progress dsimp -zeta +zetaDelta only)

theorem State.chainForget_keeps (s : State) (f : ChainFrame) :
    Keeps s (State.chainForget s f) := by
  unfold State.chainForget
  repeat' first
    | split
    | extract_lets
    | with_reducible apply Keeps.via (State.answer_keeps ..)
    | with_reducible apply Keeps.via (State.forward_keeps ..)
    | with_reducible apply Keeps.via (State.onHoist_keeps ..)
    | (with_reducible apply Keeps.of_ite <;> intro _)
    | with_reducible exact Keeps.refl _
    | (with_reducible apply Keeps.of_pair (by assumption))
    | (with_reducible apply Keeps.of_triple (by assumption))
    | (fail_if_no_progress with_reducible refine Keeps.record ?_ rfl rfl rfl rfl rfl rfl rfl)
    | (with_reducible apply Keeps.foldl_via; intro _ _)
    | (fail_if_no_progress dsimp -zeta +zetaDelta only)

theorem chainBypassOpen_keeps (s : State) :
    Keeps s (chainBypassOpen s) := by
  unfold chainBypassOpen
  repeat' first
    | split
    | extract_lets
    | with_reducible apply Keeps.via (State.onHoist_keeps ..)
    | (with_reducible apply Keeps.of_ite <;> intro _)
    | with_reducible exact Keeps.refl _
    | (with_reducible apply Keeps.of_pair (by assumption))
    | (with_reducible apply Keeps.of_triple (by assumption))
    | (fail_if_no_progress with_reducible refine Keeps.record ?_ rfl rfl rfl rfl rfl rfl rfl)
    | (with_reducible apply Keeps.foldl_via; intro _ _)
    | (fail_if_no_progress dsimp -zeta +zetaDelta only)

theorem State.chainPoll_keeps (s : State) (f : ChainFrame) :
    Keeps s (State.chainPoll s f) := by
  unfold State.chainPoll
  repeat' first
    | split
    | extract_lets
    | with_reducible apply Keeps.via (State.answer_keeps ..)
    | with_reducible apply Keeps.via (State.forward_keeps ..)
    | (with_reducible apply Keeps.of_ite <;> intro _)
    | with_reducible exact Keeps.refl _
    | (with_reducible apply Keeps.of_pair (by assumption))
    | (with_reducible apply Keeps.of_triple (by assumption))
    | (fail_if_no_progress with_reducible refine Keeps.record ?_ rfl rfl rfl rfl rfl rfl rfl)
    | (with_reducible apply Keeps.foldl_via; intro _ _)
    | (fail_if_no_progress dsimp -zeta +zetaDelta only)

theorem chainReadDone_keeps (tag : Byte) (s : State) :
    Keeps s (chainReadDone tag s) := by
  unfold chainReadDone
  repeat' first
    | split
    | extract_lets
    | with_reducible apply Keeps.via (State.onHoist_keeps ..)
    | with_reducible apply Keeps.via (State.regRead_keeps ..)
    | (with_reducible apply Keeps.of_ite <;> intro _)
    | with_reducible exact Keeps.refl _
    | (with_reducible apply Keeps.of_pair (by assumption))
    | (with_reducible apply Keeps.of_triple (by assumption))
    | (fail_if_no_progress with_reducible refine Keeps.record ?_ rfl rfl rfl rfl rfl rfl rfl)
    | (with_reducible apply Keeps.foldl_via; intro _ _)
    | (fail_if_no_progress dsimp -zeta +zetaDelta only)

theorem State.chainWrite_keeps (s : State) (f : ChainFrame) :
    Keeps s (State.chainWrite s f) := by
  unfold State.chainWrite
  repeat' first
    | split
    | extract_lets
    | with_reducible apply Keeps.via (State.answer_keeps ..)
    | with_reducible apply Keeps.via (State.forward_keeps ..)
    | with_reducible apply Keeps.via (State.regWrite_keeps ..)
    | (with_reducible apply Keeps.of_ite <;> intro _)
    | with_reducible exact Keeps.refl _
    | (with_reducible apply Keeps.of_pair (by assumption))
    | (with_reducible apply Keeps.of_triple (by assumption))
    | (fail_if_no_progress with_reducible refine Keeps.record ?_ rfl rfl rfl rfl rfl rfl rfl)
    | (with_reducible apply Keeps.foldl_via; intro _ _)
    | (fail_if_no_progress dsimp -zeta +zetaDelta only)

theorem State.chainFrame_keeps (s : State) (op : BitVec 4) (b : BitVec 124) (act : State → ChainFrame → State)
    (h : ∀ s f, Keeps s (act s f)) : Keeps s (s.chainFrame op b act) := by
  unfold State.chainFrame
  refine Keeps.of_ite (fun _ => State.onHoist_keeps ..) fun _ => ?_
  extract_lets f
  split
  rename_i inj t e
  have ht : Keeps s t := Keeps.of_pair e (State.takeInj_keeps ..)
  refine Keeps.of_ite (fun _ => ?_) fun _ => Keeps.of_ite (fun _ => ht.trans (State.forward_keeps ..)) fun _ => ht.trans (h ..)
  exact ((ht.trans (State.hostTally_keeps ..)).trans (State.raise_keeps ..)).trans (State.forward_keeps ..)


theorem State.takeFlit_keeps (s : State) (m : MillId) (f : FloorFlit) :
    Keeps s (State.takeFlit s m f) := by
  unfold State.takeFlit
  repeat' first
    | split
    | extract_lets
    | with_reducible apply Keeps.via (State.onFloor_keeps ..)
    | (with_reducible apply Keeps.of_ite <;> intro _)
    | with_reducible exact Keeps.refl _
    | (with_reducible apply Keeps.of_pair (by assumption))
    | (with_reducible apply Keeps.of_triple (by assumption))
    | (fail_if_no_progress with_reducible refine Keeps.record ?_ rfl rfl rfl rfl rfl rfl rfl)
    | (with_reducible apply Keeps.foldl_via; intro _ _)
    | (fail_if_no_progress dsimp -zeta +zetaDelta only)

theorem State.crossLink_keeps (s : State) (m : MillId) (link : ℕ) (f : FloorFlit) :
    Keeps s (State.crossLink s m link f) := by
  unfold State.crossLink
  repeat' first
    | split
    | extract_lets
    | with_reducible apply Keeps.via (State.flitAt_keeps ..)
    | with_reducible apply Keeps.via (State.takeFlit_keeps ..)
    | (with_reducible apply Keeps.of_ite <;> intro _)
    | with_reducible exact Keeps.refl _
    | (with_reducible apply Keeps.of_pair (by assumption))
    | (with_reducible apply Keeps.of_triple (by assumption))
    | (fail_if_no_progress with_reducible refine Keeps.record ?_ rfl rfl rfl rfl rfl rfl rfl)
    | (with_reducible apply Keeps.foldl_via; intro _ _)
    | (fail_if_no_progress dsimp -zeta +zetaDelta only)

theorem State.shaftHop_keeps (s : State) (m : MillId) (node : ℕ × ℕ) :
    Keeps s (State.shaftHop s m node) := by
  unfold State.shaftHop
  repeat' first
    | split
    | extract_lets
    | with_reducible apply Keeps.via (Keeps.onMill ..)
    | with_reducible apply Keeps.via (State.flitAt_keeps ..)
    | with_reducible apply Keeps.via (State.tally_keeps ..)
    | (with_reducible apply Keeps.of_ite <;> intro _)
    | with_reducible exact Keeps.refl _
    | (with_reducible apply Keeps.of_pair (by assumption))
    | (with_reducible apply Keeps.of_triple (by assumption))
    | (fail_if_no_progress with_reducible refine Keeps.record ?_ rfl rfl rfl rfl rfl rfl rfl)
    | (with_reducible apply Keeps.foldl_via; intro _ _)
    | (fail_if_no_progress dsimp -zeta +zetaDelta only)

theorem State.slotMissing_keeps (s : State) (m : MillId) (link : Nat) (f : FloorFlit) (st : Nat) (inj : Bool) (t : State)
    (h : s.slotMissing m link = some (f, st, inj, t)) : Keeps s t := by
  unfold State.slotMissing at h
  extract_lets p at h
  obtain ⟨g, _, h⟩ := List.exists_of_findSome?_eq_some h
  dsimp only at h
  split at h
  · cases h
  · rcases e : s.takeInjAt p 1 (s.flitStream m g) with ⟨i, u⟩
    rw [e] at h
    dsimp only at h
    have hu : Keeps s u := Keeps.of_pair e (State.takeInjAt_keeps ..)
    split at h
    · cases h; exact hu
    · split at h
      · cases h
      · cases h; exact Keeps.refl s


theorem remoteTpostArrive_keeps (m : MillId) (s : State) :
    Keeps s (remoteTpostArrive m s) := by
  unfold remoteTpostArrive
  repeat' first
    | split
    | extract_lets
    | with_reducible apply Keeps.via (Keeps.onMill ..)
    | with_reducible apply Keeps.via (State.enginePost_keeps ..)
    | (with_reducible apply Keeps.of_ite <;> intro _)
    | with_reducible exact Keeps.refl _
    | (with_reducible apply Keeps.of_pair (by assumption))
    | (with_reducible apply Keeps.of_triple (by assumption))
    | (fail_if_no_progress with_reducible refine Keeps.record ?_ rfl rfl rfl rfl rfl rfl rfl)
    | (with_reducible apply Keeps.foldl_via; intro _ _)
    | (fail_if_no_progress dsimp -zeta +zetaDelta only)

theorem State.passSlots_keeps (s : State) (m : MillId) (link : ℕ) (k : ℕ) :
    Keeps s (State.passSlots s m link k) := by
  unfold State.passSlots
  repeat' first
    | split
    | extract_lets
    | with_reducible apply Keeps.via (State.onFloor_keeps ..)
    | with_reducible apply Keeps.via (State.tally_keeps ..)
    | (with_reducible apply Keeps.of_ite <;> intro _)
    | with_reducible exact Keeps.refl _
    | (with_reducible apply Keeps.of_pair (by assumption))
    | (with_reducible apply Keeps.of_triple (by assumption))
    | (fail_if_no_progress with_reducible refine Keeps.record ?_ rfl rfl rfl rfl rfl rfl rfl)
    | (with_reducible apply Keeps.foldl_via; intro _ _)
    | (fail_if_no_progress dsimp -zeta +zetaDelta only)

theorem State.linkHop_keeps (s : State) (m : MillId) (link : ℕ) :
    Keeps s (State.linkHop s m link) := by
  unfold State.linkHop
  repeat' first
    | split
    | extract_lets
    | with_reducible apply Keeps.via (State.crossLink_keeps ..)
    | with_reducible apply Keeps.via (State.onFloor_keeps ..)
    | with_reducible apply Keeps.via (State.passSlots_keeps ..)
    | with_reducible apply Keeps.via (State.tally_keeps ..)
    | (with_reducible apply Keeps.of_ite <;> intro _)
    | with_reducible exact Keeps.refl _
    | (with_reducible apply Keeps.of_pair (by assumption))
    | (with_reducible apply Keeps.of_triple (by assumption))
    | (fail_if_no_progress with_reducible refine Keeps.record ?_ rfl rfl rfl rfl rfl rfl rfl)
    | (with_reducible apply Keeps.foldl_via; intro _ _)
    | (fail_if_no_progress dsimp -zeta +zetaDelta only)

theorem State.flitHop_keeps (s : State) (m : MillId) (l : ℕ) : Keeps s (s.flitHop m l) := by
  unfold State.flitHop
  split
  · rename_i e
    exact Keeps.via (State.floorFault_keeps ..) (Keeps.via (State.takeFlit_keeps ..) (State.slotMissing_keeps _ _ _ _ _ _ _ e))
  · exact State.linkHop_keeps ..

theorem floorFlitHop_keeps (m : MillId) (x : Fin 8) (y : Fin 6) (way : LinkWay) (s : State) :
    Keeps s (floorFlitHop m x y way s) := by
  unfold floorFlitHop
  refine Keeps.of_ite (fun _ => Keeps.refl s) fun _ => ?_
  split
  · exact State.flitHop_keeps ..
  · exact State.shaftHop_keeps ..

theorem State.setCarry_keeps (s : State) (m : MillId) (unit : ℕ) (c : W32 × W32) :
    Keeps s (State.setCarry s m unit c) := by
  unfold State.setCarry
  repeat' first
    | split
    | extract_lets
    | with_reducible apply Keeps.via (Keeps.onMiller ..)
    | (with_reducible apply Keeps.of_ite <;> intro _)
    | with_reducible exact Keeps.refl _
    | (with_reducible apply Keeps.of_pair (by assumption))
    | (with_reducible apply Keeps.of_triple (by assumption))
    | (fail_if_no_progress with_reducible refine Keeps.record ?_ rfl rfl rfl rfl rfl rfl rfl)
    | (with_reducible apply Keeps.foldl_via; intro _ _)
    | (fail_if_no_progress dsimp -zeta +zetaDelta only)

theorem State.lanesDrawn_keeps (s : State) :
    Keeps s (State.lanesDrawn s) := by
  unfold State.lanesDrawn
  repeat' first
    | split
    | extract_lets
    | (with_reducible apply Keeps.of_ite <;> intro _)
    | with_reducible exact Keeps.refl _
    | (with_reducible apply Keeps.of_pair (by assumption))
    | (with_reducible apply Keeps.of_triple (by assumption))
    | (fail_if_no_progress with_reducible refine Keeps.record ?_ rfl rfl rfl rfl rfl rfl rfl)
    | (with_reducible apply Keeps.foldl_via; intro _ _)
    | (fail_if_no_progress dsimp -zeta +zetaDelta only)

theorem State.vecPosted_keeps (s : State) (m : MillId) (o : VecOp) (rest : List VecOp) (id : ℕ) :
    Keeps s (State.vecPosted s m o rest id) := by
  unfold State.vecPosted
  repeat' first
    | split
    | extract_lets
    | with_reducible apply Keeps.via (Keeps.onGov ..)
    | with_reducible apply Keeps.via (Keeps.onMiller ..)
    | with_reducible apply Keeps.via (Keeps.onRace ..)
    | with_reducible apply Keeps.via (State.enginePost_keeps ..)
    | with_reducible apply Keeps.via (State.lanesDrawn_keeps ..)
    | (with_reducible apply Keeps.of_ite <;> intro _)
    | with_reducible exact Keeps.refl _
    | (with_reducible apply Keeps.of_pair (by assumption))
    | (with_reducible apply Keeps.of_triple (by assumption))
    | (fail_if_no_progress with_reducible refine Keeps.record ?_ rfl rfl rfl rfl rfl rfl rfl)
    | (with_reducible apply Keeps.foldl_via; intro _ _)
    | (fail_if_no_progress dsimp -zeta +zetaDelta only)

theorem State.setVreg_keeps (s : State) (m : MillId) (unit : ℕ) (r : ℕ) (v : BitVec 2048) :
    Keeps s (State.setVreg s m unit r v) := by
  unfold State.setVreg
  repeat' first
    | split
    | extract_lets
    | with_reducible apply Keeps.via (Keeps.onMiller ..)
    | (with_reducible apply Keeps.of_ite <;> intro _)
    | with_reducible exact Keeps.refl _
    | (with_reducible apply Keeps.of_pair (by assumption))
    | (with_reducible apply Keeps.of_triple (by assumption))
    | (fail_if_no_progress with_reducible refine Keeps.record ?_ rfl rfl rfl rfl rfl rfl rfl)
    | (with_reducible apply Keeps.foldl_via; intro _ _)
    | (fail_if_no_progress dsimp -zeta +zetaDelta only)

theorem vecOpen_runs (q : GovAt) (o : VecOp) (p : ℕ) (first : Bool) (id : ℕ) (d : GDesc) (s : State) :
    Runs s s (vecOpen q o p first id d) := by
  unfold vecOpen
  apply Runs.start; intro o k
  repeat' first
    | split
    | (intro _)
    | extract_lets
    | with_reducible apply Runs.get_bind
    | with_reducible apply Runs.set_bind
    | with_reducible apply Runs.modify_bind
    | with_reducible apply Runs.pure_bind
    | with_reducible apply Runs.throw_bind
    | with_reducible apply Runs.of_pure
    | with_reducible apply Runs.of_throw
    | with_reducible apply Runs.of_modify
    | with_reducible apply Runs.of_set
    | with_reducible apply Runs.step (beginWrite_runs _ _ _ _)
    | with_reducible apply Runs.last (beginWrite_runs _ _ _ _)
    | with_reducible apply Runs.step (takeLine_runs _ _ _ _)
    | with_reducible apply Runs.last (takeLine_runs _ _ _ _)
    | with_reducible apply Runs.step (Runs.forM _ _ fun _ _ => Runs.start ?_)
    | with_reducible apply Runs.last (Runs.forM _ _ fun _ _ => Runs.start ?_)
    | with_reducible apply Runs.step (Runs.mapM _ _ fun _ _ => Runs.start ?_)
    | with_reducible apply Runs.last (Runs.mapM _ _ fun _ _ => Runs.start ?_)
    | with_reducible apply Runs.map
    | with_reducible apply Runs.exceptMap
    | with_reducible refine Runs.bind ?_ ?_
    | (with_reducible assumption)
    | (with_reducible apply State.record_via; intro _)
    | (with_reducible apply Keeps.of_ite <;> intro _)
    | with_reducible exact Keeps.refl _
    | (with_reducible apply Keeps.of_pair (by assumption))
    | (with_reducible apply Keeps.of_triple (by assumption))
    | (fail_if_no_progress with_reducible refine Keeps.record ?_ rfl rfl rfl rfl rfl rfl rfl)
    | (with_reducible apply Keeps.foldl_via; intro _ _)
    | dsimp -zeta +zetaDelta only

theorem vecStage_runs (q : GovAt) (o : VecOp) (p : ℕ) (first : Bool) (id : ℕ) (s : State) :
    Runs s s (vecStage q o p first id) := by
  unfold vecStage
  apply Runs.start; intro o k
  repeat' first
    | split
    | (intro _)
    | extract_lets
    | with_reducible apply Runs.get_bind
    | with_reducible apply Runs.set_bind
    | with_reducible apply Runs.modify_bind
    | with_reducible apply Runs.pure_bind
    | with_reducible apply Runs.throw_bind
    | with_reducible apply Runs.of_pure
    | with_reducible apply Runs.of_throw
    | with_reducible apply Runs.of_modify
    | with_reducible apply Runs.of_set
    | with_reducible apply Runs.step (gdesc_runs _ _)
    | with_reducible apply Runs.last (gdesc_runs _ _)
    | with_reducible apply Runs.step (vecOpen_runs _ _ _ _ _ _)
    | with_reducible apply Runs.last (vecOpen_runs _ _ _ _ _ _)
    | with_reducible apply Runs.step (Runs.forM _ _ fun _ _ => Runs.start ?_)
    | with_reducible apply Runs.last (Runs.forM _ _ fun _ _ => Runs.start ?_)
    | with_reducible apply Runs.step (Runs.mapM _ _ fun _ _ => Runs.start ?_)
    | with_reducible apply Runs.last (Runs.mapM _ _ fun _ _ => Runs.start ?_)
    | with_reducible apply Runs.map
    | with_reducible apply Runs.exceptMap
    | with_reducible refine Runs.bind ?_ ?_
    | (with_reducible assumption)
    | with_reducible apply Keeps.via (State.addJob_keeps ..)
    | with_reducible apply Keeps.via (Keeps.onGov ..)
    | (with_reducible apply State.record_via; intro _)
    | (with_reducible apply Keeps.of_ite <;> intro _)
    | with_reducible exact Keeps.refl _
    | (with_reducible apply Keeps.of_pair (by assumption))
    | (with_reducible apply Keeps.of_triple (by assumption))
    | (fail_if_no_progress with_reducible refine Keeps.record ?_ rfl rfl rfl rfl rfl rfl rfl)
    | (with_reducible apply Keeps.foldl_via; intro _ _)
    | dsimp -zeta +zetaDelta only

theorem State.vecFault_keeps (s : State) (m : MillId) (o : VecOp) (unit : ℕ) (e : VecErr) :
    Keeps s (State.vecFault s m o unit e) := by
  unfold State.vecFault
  repeat' first
    | split
    | extract_lets
    | with_reducible apply Keeps.via (State.report_keeps ..)
    | (with_reducible apply Keeps.of_ite <;> intro _)
    | with_reducible exact Keeps.refl _
    | (with_reducible apply Keeps.of_pair (by assumption))
    | (with_reducible apply Keeps.of_triple (by assumption))
    | (fail_if_no_progress with_reducible refine Keeps.record ?_ rfl rfl rfl rfl rfl rfl rfl)
    | (with_reducible apply Keeps.foldl_via; intro _ _)
    | (fail_if_no_progress dsimp -zeta +zetaDelta only)

/-- What a vector operation on a unit leaves keeps what was there. -/
def VecDone.Kept (s : State) : VecDone → Prop
  | .ok t | .fault t => Keeps s t
  | .wait _ => True

theorem State.vecMem_keeps (s : State) (m : MillId) (o : VecOp) (p : Nat) (store : Bool) : (s.vecMem m o p store).Kept s := by
  unfold State.vecMem
  extract_lets a stone off
  split
  rename_i bad inj t e
  have ht : Keeps s t := Keeps.of_triple e (State.hopperRace_keeps ..)
  split
  · exact ht.trans (State.floorFault_keeps ..)
  · split
    · exact ht.trans (Keeps.hoppers _ fun h => Memory.wf_writeBytes _ _ h)
    · exact ht.trans (State.setVreg_keeps ..)

theorem State.vecLine_keeps (s : State) (m : MillId) (o : VecOp) (p : Nat) (first : Bool) (id : Nat) :
    (s.vecLine m o p first id).Kept s := by
  unfold State.vecLine
  extract_lets q
  have h : Keeps s _ := vecStage_runs q o p first id s
  split
  · rename_i e; rw [e] at h; exact h
  · rename_i e; rw [e] at h; exact h.trans (State.vecFault_keeps ..)
  · trivial
  · rename_i e; rw [e] at h; exact h.trans (State.govEnd_keeps ..)

theorem State.vecReg_keeps (s : State) (m : MillId) (o : VecOp) (p : Nat) : (s.vecReg m o p).Kept s := by
  unfold State.vecReg
  extract_lets w
  split
  · exact State.vecFault_keeps ..
  · extract_lets t
    have ht : Keeps s t := Keeps.forAll _ _ fun _ _ => State.setVreg_keeps ..
    change Keeps s _
    split
    · exact ht.trans (State.setCarry_keeps ..)
    · exact ht

theorem State.vecUnit_keeps (s : State) (m : MillId) (o : VecOp) (p : Nat) (first : Bool) (id : Nat) :
    (s.vecUnit m o p first id).Kept s := by
  unfold State.vecUnit
  split
  · exact State.vecMem_keeps ..
  · exact State.vecMem_keeps ..
  · exact State.vecLine_keeps ..
  · exact State.vecReg_keeps ..

theorem State.vecUnits_keeps (m : MillId) (o : VecOp) (id : Nat) (first : Bool) (l : List Nat) (s : State) :
    (s.vecUnits m o id first l).Kept s := by
  induction l generalizing s first with
  | nil => exact Keeps.refl s
  | cons p ps ih =>
    have h := State.vecUnit_keeps s m o p first id
    unfold State.vecUnits
    split
    · rename_i t e
      rw [e] at h
      have g := ih false t
      revert g
      cases t.vecUnits m o id false ps <;> intro g
      · exact Keeps.trans h g
      · exact Keeps.trans h g
      · trivial
    · rename_i e; rw [e] at h; exact h
    · trivial

theorem State.vecRun_keeps (s : State) (m : MillId) (o : VecOp) (rest : List VecOp) : Keeps s (s.vecRun m o rest) := by
  unfold State.vecRun
  extract_lets id
  have h := State.vecUnits_keeps m o id true (vUnits o.slot) s
  split
  · exact Keeps.onGov ..
  · rename_i e; rw [e] at h; exact Keeps.trans h (Keeps.onMiller ..)
  · rename_i e; rw [e] at h; exact Keeps.trans h (State.vecPosted_keeps ..)


theorem vectorOpDone_keeps (m : MillId) (codes : List Ecc) (s : State) :
    Keeps s (vectorOpDone m codes s) := by
  unfold vectorOpDone
  repeat' first
    | split
    | extract_lets
    | (with_reducible apply State.coded_via; intro _)
    | with_reducible apply Keeps.via (State.vecRun_keeps ..)
    | (with_reducible apply Keeps.of_ite <;> intro _)
    | with_reducible exact Keeps.refl _
    | (with_reducible apply Keeps.of_pair (by assumption))
    | (with_reducible apply Keeps.of_triple (by assumption))
    | (fail_if_no_progress with_reducible refine Keeps.record ?_ rfl rfl rfl rfl rfl rfl rfl)
    | (with_reducible apply Keeps.foldl_via; intro _ _)
    | (fail_if_no_progress dsimp -zeta +zetaDelta only)

theorem State.ikTally_keeps (s : State) (m : MillId) (c : Ctx) (k : ℕ) (n : ℕ) :
    Keeps s (State.ikTally s m c k n) := by
  unfold State.ikTally
  repeat' first
    | split
    | extract_lets
    | with_reducible apply Keeps.via (State.tally_keeps ..)
    | (with_reducible apply Keeps.of_ite <;> intro _)
    | with_reducible exact Keeps.refl _
    | (with_reducible apply Keeps.of_pair (by assumption))
    | (with_reducible apply Keeps.of_triple (by assumption))
    | (fail_if_no_progress with_reducible refine Keeps.record ?_ rfl rfl rfl rfl rfl rfl rfl)
    | (with_reducible apply Keeps.foldl_via; intro _ _)
    | (fail_if_no_progress dsimp -zeta +zetaDelta only)

theorem State.onCtx_keeps (s : State) (m : MillId) (c : Ctx) (f : Context → Context) :
    Keeps s (State.onCtx s m c f) := by
  unfold State.onCtx
  repeat' first
    | split
    | extract_lets
    | with_reducible apply Keeps.via (Keeps.onMiller ..)
    | (with_reducible apply Keeps.of_ite <;> intro _)
    | with_reducible exact Keeps.refl _
    | (with_reducible apply Keeps.of_pair (by assumption))
    | (with_reducible apply Keeps.of_triple (by assumption))
    | (fail_if_no_progress with_reducible refine Keeps.record ?_ rfl rfl rfl rfl rfl rfl rfl)
    | (with_reducible apply Keeps.foldl_via; intro _ _)
    | (fail_if_no_progress dsimp -zeta +zetaDelta only)

theorem State.precise_keeps (s : State) (m : MillId) (c : Ctx) (f : FaultInfo) :
    Keeps s (State.precise s m c f) := by
  unfold State.precise
  repeat' first
    | split
    | extract_lets
    | with_reducible apply Keeps.via (State.dropLeatOps_keeps ..)
    | with_reducible apply Keeps.via (State.dropXfers_keeps ..)
    | with_reducible apply Keeps.via (State.endCommand_keeps ..)
    | with_reducible apply Keeps.via (State.onCtx_keeps ..)
    | (with_reducible apply Keeps.of_ite <;> intro _)
    | with_reducible exact Keeps.refl _
    | (with_reducible apply Keeps.of_pair (by assumption))
    | (with_reducible apply Keeps.of_triple (by assumption))
    | (fail_if_no_progress with_reducible refine Keeps.record ?_ rfl rfl rfl rfl rfl rfl rfl)
    | (with_reducible apply Keeps.foldl_via; intro _ _)
    | (fail_if_no_progress dsimp -zeta +zetaDelta only)

theorem State.setSt_keeps (s : State) (m : MillId) (c : Ctx) (st : CtxState) :
    Keeps s (State.setSt s m c st) := by
  unfold State.setSt
  repeat' first
    | split
    | extract_lets
    | with_reducible apply Keeps.via (Keeps.onMiller ..)
    | (with_reducible apply Keeps.of_ite <;> intro _)
    | with_reducible exact Keeps.refl _
    | (with_reducible apply Keeps.of_pair (by assumption))
    | (with_reducible apply Keeps.of_triple (by assumption))
    | (fail_if_no_progress with_reducible refine Keeps.record ?_ rfl rfl rfl rfl rfl rfl rfl)
    | (with_reducible apply Keeps.foldl_via; intro _ _)
    | (fail_if_no_progress dsimp -zeta +zetaDelta only)

theorem State.takeTimeout_keeps (s : State) (m : MillId) (c : Ctx) (b : Bundle) :
    Keeps s (State.takeTimeout s m c b) := by
  unfold State.takeTimeout
  repeat' first
    | split
    | extract_lets
    | with_reducible apply Keeps.via (State.ikTally_keeps ..)
    | with_reducible apply Keeps.via (State.onCtx_keeps ..)
    | with_reducible apply Keeps.via (State.precise_keeps ..)
    | with_reducible apply Keeps.via (State.raise_keeps ..)
    | with_reducible apply Keeps.via (State.setSt_keeps ..)
    | (with_reducible apply Keeps.of_ite <;> intro _)
    | with_reducible exact Keeps.refl _
    | (with_reducible apply Keeps.of_pair (by assumption))
    | (with_reducible apply Keeps.of_triple (by assumption))
    | (fail_if_no_progress with_reducible refine Keeps.record ?_ rfl rfl rfl rfl rfl rfl rfl)
    | (with_reducible apply Keeps.foldl_via; intro _ _)
    | (fail_if_no_progress dsimp -zeta +zetaDelta only)

theorem State.waitExpired_keeps (s : State) (m : MillId) (c : Ctx) :
    Keeps s (State.waitExpired s m c) := by
  unfold State.waitExpired
  repeat' first
    | split
    | extract_lets
    | with_reducible apply Keeps.via (State.takeTimeout_keeps ..)
    | (with_reducible apply Keeps.of_ite <;> intro _)
    | with_reducible exact Keeps.refl _
    | (with_reducible apply Keeps.of_pair (by assumption))
    | (with_reducible apply Keeps.of_triple (by assumption))
    | (fail_if_no_progress with_reducible refine Keeps.record ?_ rfl rfl rfl rfl rfl rfl rfl)
    | (with_reducible apply Keeps.foldl_via; intro _ _)
    | (fail_if_no_progress dsimp -zeta +zetaDelta only)

theorem waitTimeout_keeps (m : MillId) (s : State) :
    Keeps s (waitTimeout m s) := by
  unfold waitTimeout
  repeat' first
    | split
    | extract_lets
    | with_reducible apply Keeps.via (State.waitExpired_keeps ..)
    | (with_reducible apply Keeps.of_ite <;> intro _)
    | with_reducible exact Keeps.refl _
    | (with_reducible apply Keeps.of_pair (by assumption))
    | (with_reducible apply Keeps.of_triple (by assumption))
    | (fail_if_no_progress with_reducible refine Keeps.record ?_ rfl rfl rfl rfl rfl rfl rfl)
    | (with_reducible apply Keeps.foldl_via; intro _ _)
    | (fail_if_no_progress dsimp -zeta +zetaDelta only)

theorem logHoldSample_keeps (m : MillId) (c : Ctx) (s : State) :
    Keeps s (logHoldSample m c s) := by
  unfold logHoldSample
  repeat' first
    | split
    | extract_lets
    | with_reducible apply Keeps.via (State.logSample_keeps ..)
    | with_reducible apply Keeps.via (State.onCtx_keeps ..)
    | (with_reducible apply Keeps.of_ite <;> intro _)
    | with_reducible exact Keeps.refl _
    | (with_reducible apply Keeps.of_pair (by assumption))
    | (with_reducible apply Keeps.of_triple (by assumption))
    | (fail_if_no_progress with_reducible refine Keeps.record ?_ rfl rfl rfl rfl rfl rfl rfl)
    | (with_reducible apply Keeps.foldl_via; intro _ _)
    | (fail_if_no_progress dsimp -zeta +zetaDelta only)

theorem State.millerCondition_keeps (s : State) (m : MillId) (c : Ctx) (page : Page) (injected : Bool) :
    Keeps s (State.millerCondition s m c page injected) := by
  unfold State.millerCondition
  repeat' first
    | split
    | extract_lets
    | with_reducible apply Keeps.via (Keeps.onMiller ..)
    | with_reducible apply Keeps.via (State.drawn_keeps ..)
    | with_reducible apply Keeps.via (State.histPending_keeps ..)
    | with_reducible apply Keeps.via (State.onCtx_keeps ..)
    | (with_reducible apply Keeps.of_ite <;> intro _)
    | with_reducible exact Keeps.refl _
    | (with_reducible apply Keeps.of_pair (by assumption))
    | (with_reducible apply Keeps.of_triple (by assumption))
    | (fail_if_no_progress with_reducible refine Keeps.record ?_ rfl rfl rfl rfl rfl rfl rfl)
    | (with_reducible apply Keeps.foldl_via; intro _ _)
    | (fail_if_no_progress dsimp -zeta +zetaDelta only)

theorem State.registerEcc_keeps (s : State) (m : MillId) (c : Ctx) :
    Keeps s (State.registerEcc s m c) := by
  unfold State.registerEcc
  repeat' first
    | split
    | extract_lets
    | with_reducible apply Keeps.via (State.millerCondition_keeps ..)
    | with_reducible apply Keeps.via (systemContextEccReset_keeps ..)
    | (with_reducible apply Keeps.of_ite <;> intro _)
    | with_reducible exact Keeps.refl _
    | (with_reducible apply Keeps.of_pair (by assumption))
    | (with_reducible apply Keeps.of_triple (by assumption))
    | (fail_if_no_progress with_reducible refine Keeps.record ?_ rfl rfl rfl rfl rfl rfl rfl)
    | (with_reducible apply Keeps.foldl_via; intro _ _)
    | (fail_if_no_progress dsimp -zeta +zetaDelta only)

theorem State.bundleToll_keeps (s : State) (m : MillId) (c : Ctx) :
    Keeps s (State.bundleToll s m c).2 := by
  unfold State.bundleToll
  repeat' first
    | split
    | extract_lets
    | with_reducible apply Keeps.via (State.millerCondition_keeps ..)
    | with_reducible apply Keeps.via (State.raise_keeps ..)
    | with_reducible apply Keeps.via (State.takeInj_keeps ..)
    | with_reducible apply Keeps.via (State.tally_keeps ..)
    | with_reducible apply Keeps.via (State.tollRecord_keeps ..)
    | (with_reducible apply Keeps.of_ite <;> intro _)
    | with_reducible exact Keeps.refl _
    | (with_reducible apply Keeps.of_pair (by assumption))
    | (with_reducible apply Keeps.of_triple (by assumption))
    | (fail_if_no_progress with_reducible refine Keeps.record ?_ rfl rfl rfl rfl rfl rfl rfl)
    | (with_reducible apply Keeps.foldl_via; intro _ _)
    | (fail_if_no_progress dsimp -zeta +zetaDelta only)

theorem State.takeEvent_keeps (s : State) (m : MillId) :
    Keeps s (State.takeEvent s m) := by
  unfold State.takeEvent
  repeat' first
    | split
    | extract_lets
    | with_reducible apply Keeps.via (Keeps.onMiller ..)
    | with_reducible apply Keeps.via (State.drawn_keeps ..)
    | with_reducible apply Keeps.via (State.onCtx_keeps ..)
    | (with_reducible apply Keeps.of_ite <;> intro _)
    | with_reducible exact Keeps.refl _
    | (with_reducible apply Keeps.of_pair (by assumption))
    | (with_reducible apply Keeps.of_triple (by assumption))
    | (fail_if_no_progress with_reducible refine Keeps.record ?_ rfl rfl rfl rfl rfl rfl rfl)
    | (with_reducible apply Keeps.foldl_via; intro _ _)
    | (fail_if_no_progress dsimp -zeta +zetaDelta only)

theorem State.localPlace_keeps (s : State) (m : MillId) (c : Ctx) (pc : W64) (slot : ℕ) (a : W64) (write : Bool) :
    Keeps s (State.localPlace s m c pc slot a write).2 := by
  unfold State.localPlace
  repeat' first
    | split
    | extract_lets
    | with_reducible apply Keeps.via (State.hopperRace_keeps ..)
    | with_reducible apply Keeps.via (State.pinRead_keeps ..)
    | (with_reducible apply Keeps.of_ite <;> intro _)
    | with_reducible exact Keeps.refl _
    | (with_reducible apply Keeps.of_pair (by assumption))
    | (with_reducible apply Keeps.of_triple (by assumption))
    | (fail_if_no_progress with_reducible refine Keeps.record ?_ rfl rfl rfl rfl rfl rfl rfl)
    | (with_reducible apply Keeps.foldl_via; intro _ _)
    | (fail_if_no_progress dsimp -zeta +zetaDelta only)

theorem State.scalarRun_keeps (s : State) (m : MillId) (c : Ctx) (k : Context) (slot : ℕ) (w : W64) (imm : W64) :
    Keeps s (State.scalarRun s m c k slot w imm).2 := by
  unfold State.scalarRun
  repeat' first
    | split
    | extract_lets
    | with_reducible apply Keeps.via (State.localPlace_keeps ..)
    | with_reducible apply Keeps.via (State.regRead_keeps ..)
    | (with_reducible apply Keeps.of_ite <;> intro _)
    | with_reducible exact Keeps.refl _
    | (with_reducible apply Keeps.of_pair (by assumption))
    | (with_reducible apply Keeps.of_triple (by assumption))
    | (fail_if_no_progress with_reducible refine Keeps.record ?_ rfl rfl rfl rfl rfl rfl rfl)
    | (with_reducible apply Keeps.foldl_via; intro _ _)
    | (fail_if_no_progress dsimp -zeta +zetaDelta only)

theorem State.slotRun_keeps (s : State) (m : MillId) (c : Ctx) (k : Context) (b : Bundle) (slot : ℕ) :
    Keeps s (State.slotRun s m c k b slot).2 := by
  unfold State.slotRun
  repeat' first
    | split
    | extract_lets
    | with_reducible apply Keeps.via (State.scalarRun_keeps ..)
    | (with_reducible apply Keeps.of_ite <;> intro _)
    | with_reducible exact Keeps.refl _
    | (with_reducible apply Keeps.of_pair (by assumption))
    | (with_reducible apply Keeps.of_triple (by assumption))
    | (fail_if_no_progress with_reducible refine Keeps.record ?_ rfl rfl rfl rfl rfl rfl rfl)
    | (with_reducible apply Keeps.foldl_via; intro _ _)
    | (fail_if_no_progress dsimp -zeta +zetaDelta only)

theorem State.tpost_keeps (s : State) (m : MillId) (c : Ctx) (b : Bundle) :
    Keeps s (State.tpost s m c b) := by
  unfold State.tpost
  repeat' first
    | split
    | extract_lets
    | with_reducible apply Keeps.via (Keeps.onMill ..)
    | with_reducible apply Keeps.via (State.ikTally_keeps ..)
    | with_reducible apply Keeps.via (State.post_keeps ..)
    | (with_reducible apply Keeps.of_ite <;> intro _)
    | with_reducible exact Keeps.refl _
    | (with_reducible apply Keeps.of_pair (by assumption))
    | (with_reducible apply Keeps.of_triple (by assumption))
    | (fail_if_no_progress with_reducible refine Keeps.record ?_ rfl rfl rfl rfl rfl rfl rfl)
    | (with_reducible apply Keeps.foldl_via; intro _ _)
    | (fail_if_no_progress dsimp -zeta +zetaDelta only)

theorem State.holdAt_keeps (s : State) (m : MillId) (c : Ctx) (b : Bundle) (h : Hold) :
    Keeps s (State.holdAt s m c b h) := by
  unfold State.holdAt
  repeat' first
    | split
    | extract_lets
    | with_reducible apply Keeps.via (Keeps.onPower ..)
    | with_reducible apply Keeps.via (State.ikTally_keeps ..)
    | with_reducible apply Keeps.via (State.onCtx_keeps ..)
    | with_reducible apply Keeps.via (State.setSt_keeps ..)
    | with_reducible apply Keeps.via (State.takeInj_keeps ..)
    | with_reducible apply Keeps.via (State.takeTimeout_keeps ..)
    | with_reducible apply Keeps.via (State.tally_keeps ..)
    | (with_reducible apply Keeps.of_ite <;> intro _)
    | with_reducible exact Keeps.refl _
    | (with_reducible apply Keeps.of_pair (by assumption))
    | (with_reducible apply Keeps.of_triple (by assumption))
    | (fail_if_no_progress with_reducible refine Keeps.record ?_ rfl rfl rfl rfl rfl rfl rfl)
    | (with_reducible apply Keeps.foldl_via; intro _ _)
    | (fail_if_no_progress dsimp -zeta +zetaDelta only)

theorem State.localNote_keeps (s : State) (m : MillId) (f : FaultInfo) :
    Keeps s (State.localNote s m f) := by
  unfold State.localNote
  repeat' first
    | split
    | extract_lets
    | with_reducible apply Keeps.via (State.injected_keeps ..)
    | with_reducible apply Keeps.via (State.raise_keeps ..)
    | with_reducible apply Keeps.via (State.tally_keeps ..)
    | (with_reducible apply Keeps.of_ite <;> intro _)
    | with_reducible exact Keeps.refl _
    | (with_reducible apply Keeps.of_pair (by assumption))
    | (with_reducible apply Keeps.of_triple (by assumption))
    | (fail_if_no_progress with_reducible refine Keeps.record ?_ rfl rfl rfl rfl rfl rfl rfl)
    | (with_reducible apply Keeps.foldl_via; intro _ _)
    | (fail_if_no_progress dsimp -zeta +zetaDelta only)

theorem gfmt_runs (q : GovAt) (h : W64) (s : State) :
    Runs s s (gfmt q h) := by
  unfold gfmt
  apply Runs.start; intro o k
  repeat' first
    | split
    | (intro _)
    | extract_lets
    | with_reducible apply Runs.get_bind
    | with_reducible apply Runs.set_bind
    | with_reducible apply Runs.modify_bind
    | with_reducible apply Runs.pure_bind
    | with_reducible apply Runs.throw_bind
    | with_reducible apply Runs.of_pure
    | with_reducible apply Runs.of_throw
    | with_reducible apply Runs.of_modify
    | with_reducible apply Runs.of_set
    | with_reducible apply Runs.step (gdesc_runs _ _)
    | with_reducible apply Runs.last (gdesc_runs _ _)
    | with_reducible apply Runs.step (readLayer_runs _ _)
    | with_reducible apply Runs.last (readLayer_runs _ _)
    | with_reducible apply Runs.step (Runs.forM _ _ fun _ _ => Runs.start ?_)
    | with_reducible apply Runs.last (Runs.forM _ _ fun _ _ => Runs.start ?_)
    | with_reducible apply Runs.step (Runs.mapM _ _ fun _ _ => Runs.start ?_)
    | with_reducible apply Runs.last (Runs.mapM _ _ fun _ _ => Runs.start ?_)
    | with_reducible apply Runs.map
    | with_reducible apply Runs.exceptMap
    | with_reducible refine Runs.bind ?_ ?_
    | (with_reducible assumption)
    | (with_reducible apply State.record_via; intro _)
    | (with_reducible apply Keeps.of_ite <;> intro _)
    | with_reducible exact Keeps.refl _
    | (with_reducible apply Keeps.of_pair (by assumption))
    | (with_reducible apply Keeps.of_triple (by assumption))
    | (fail_if_no_progress with_reducible refine Keeps.record ?_ rfl rfl rfl rfl rfl rfl rfl)
    | (with_reducible apply Keeps.foldl_via; intro _ _)
    | dsimp -zeta +zetaDelta only

theorem State.gfmtRun_keeps (s : State) (m : MillId) (c : Ctx) (k : Context) (b : Bundle) :
    Keeps s (State.gfmtRun s m c k b).2 := by
  unfold State.gfmtRun
  repeat' first
    | split
    | extract_lets
    | with_reducible apply Keeps.via (Keeps.onMiller ..)
    | with_reducible apply Keeps.via (State.drawn_keeps ..)
    | with_reducible apply Keeps.via (State.govEnd_keeps ..)
    | with_reducible apply Keeps.via (gfmt_runs ..)
    | exact gfmt_runs ..
    | with_reducible apply Keeps.via (State.boltRun_keeps _ _ _ (gfmt_runs ..))
    | (with_reducible apply Keeps.of_ite <;> intro _)
    | with_reducible exact Keeps.refl _
    | (with_reducible apply Keeps.of_pair (by assumption))
    | (with_reducible apply Keeps.of_triple (by assumption))
    | (fail_if_no_progress with_reducible refine Keeps.record ?_ rfl rfl rfl rfl rfl rfl rfl)
    | (with_reducible apply Keeps.foldl_via; intro _ _)
    | (fail_if_no_progress dsimp -zeta +zetaDelta only)

theorem State.doStore_keeps (s : State) (m : MillId) (x : Store) :
    Keeps s (State.doStore s m x) := by
  unfold State.doStore
  repeat' first
    | split
    | extract_lets
    | with_reducible apply Keeps.via (State.locWrite_keeps ..)
    | with_reducible apply Keeps.via (State.regWrite_keeps ..)
    | (with_reducible apply Keeps.of_ite <;> intro _)
    | with_reducible exact Keeps.refl _
    | (with_reducible apply Keeps.of_pair (by assumption))
    | (with_reducible apply Keeps.of_triple (by assumption))
    | (fail_if_no_progress with_reducible refine Keeps.record ?_ rfl rfl rfl rfl rfl rfl rfl)
    | (with_reducible apply Keeps.foldl_via; intro _ _)
    | (fail_if_no_progress dsimp -zeta +zetaDelta only)

theorem State.toEngines_keeps (s : State) (m : MillId) (c : Ctx) (k : Context) (b : Bundle) :
    Keeps s (State.toEngines s m c k b) := by
  unfold State.toEngines
  repeat' first
    | split
    | extract_lets
    | with_reducible apply Keeps.via (Keeps.onBolter ..)
    | with_reducible apply Keeps.via (Keeps.onMiller ..)
    | with_reducible apply Keeps.via (Keeps.onRace ..)
    | with_reducible apply Keeps.via (State.issueTile_keeps ..)
    | with_reducible apply Keeps.via (State.issueXfer_keeps ..)
    | (with_reducible apply Keeps.of_ite <;> intro _)
    | with_reducible exact Keeps.refl _
    | (with_reducible apply Keeps.of_pair (by assumption))
    | (with_reducible apply Keeps.of_triple (by assumption))
    | (fail_if_no_progress with_reducible refine Keeps.record ?_ rfl rfl rfl rfl rfl rfl rfl)
    | (with_reducible apply Keeps.foldl_via; intro _ _)
    | (fail_if_no_progress dsimp -zeta +zetaDelta only)

theorem State.commit_keeps (s : State) (m : MillId) (c : Ctx) (k : Context) (b : Bundle) (outs : List SlotOut) (gf : List (ℕ × W64)) :
    Keeps s (State.commit s m c k b outs gf) := by
  unfold State.commit
  repeat' first
    | split
    | extract_lets
    | with_reducible apply Keeps.via (State.doStore_keeps ..)
    | with_reducible apply Keeps.via (State.ikTally_keeps ..)
    | with_reducible apply Keeps.via (State.logIssue_keeps ..)
    | with_reducible apply Keeps.via (State.onCtx_keeps ..)
    | with_reducible apply Keeps.via (State.setSt_keeps ..)
    | with_reducible apply Keeps.via (State.tally_keeps ..)
    | with_reducible apply Keeps.via (State.toEngines_keeps ..)
    | with_reducible apply Keeps.via (State.tpost_keeps ..)
    | (with_reducible apply Keeps.forAll_via; intro _ _)
    | (with_reducible apply Keeps.of_ite <;> intro _)
    | with_reducible exact Keeps.refl _
    | (with_reducible apply Keeps.of_pair (by assumption))
    | (with_reducible apply Keeps.of_triple (by assumption))
    | (fail_if_no_progress with_reducible refine Keeps.record ?_ rfl rfl rfl rfl rfl rfl rfl)
    | (with_reducible apply Keeps.foldl_via; intro _ _)
    | (fail_if_no_progress dsimp -zeta +zetaDelta only)

theorem State.issue_keeps (s : State) (m : MillId) (c : Ctx) (b : Bundle) :
    Keeps s (State.issue s m c b) := by
  unfold State.issue
  repeat' first
    | split
    | extract_lets
    | with_reducible apply Keeps.via (State.commit_keeps ..)
    | with_reducible apply Keeps.via (State.gfmtRun_keeps ..)
    | with_reducible apply Keeps.via (State.localNote_keeps ..)
    | with_reducible apply Keeps.via (State.precise_keeps ..)
    | with_reducible apply Keeps.via (State.slotRun_keeps ..)
    | (with_reducible apply Keeps.of_ite <;> intro _)
    | with_reducible exact Keeps.refl _
    | (with_reducible apply Keeps.of_pair (by assumption))
    | (with_reducible apply Keeps.of_triple (by assumption))
    | (fail_if_no_progress with_reducible refine Keeps.record ?_ rfl rfl rfl rfl rfl rfl rfl)
    | (with_reducible apply Keeps.foldl_via; intro _ _)
    | (fail_if_no_progress dsimp -zeta +zetaDelta only)

theorem State.tryIssue_keeps (s : State) (m : MillId) (c : Ctx) (b : Bundle) :
    Keeps s (State.tryIssue s m c b) := by
  unfold State.tryIssue
  repeat' first
    | split
    | extract_lets
    | with_reducible apply Keeps.via (State.bundleToll_keeps ..)
    | with_reducible apply Keeps.via (State.holdAt_keeps ..)
    | with_reducible apply Keeps.via (State.issue_keeps ..)
    | with_reducible apply Keeps.via (State.takeInj_keeps ..)
    | (with_reducible apply Keeps.of_ite <;> intro _)
    | with_reducible exact Keeps.refl _
    | (with_reducible apply Keeps.of_pair (by assumption))
    | (with_reducible apply Keeps.of_triple (by assumption))
    | (fail_if_no_progress with_reducible refine Keeps.record ?_ rfl rfl rfl rfl rfl rfl rfl)
    | (with_reducible apply Keeps.foldl_via; intro _ _)
    | (fail_if_no_progress dsimp -zeta +zetaDelta only)

theorem State.fetchImage_keeps (s : State) (m : MillId) :
    Keeps s (State.fetchImage s m) := by
  unfold State.fetchImage
  repeat' first
    | split
    | extract_lets
    | with_reducible apply Keeps.via (State.endCommand_keeps ..)
    | with_reducible apply Keeps.via (State.memHistory_keeps ..)
    | with_reducible apply Keeps.via (State.onCtx_keeps ..)
    | with_reducible apply Keeps.via (State.portRead_keeps ..)
    | with_reducible apply Keeps.via (State.takeInj_keeps ..)
    | with_reducible apply Keeps.via (State.tally_keeps ..)
    | with_reducible apply Keeps.via (State.translate_keeps ..)
    | (with_reducible apply Keeps.of_ite <;> intro _)
    | with_reducible exact Keeps.refl _
    | (with_reducible apply Keeps.of_pair (by assumption))
    | (with_reducible apply Keeps.of_triple (by assumption))
    | (fail_if_no_progress with_reducible refine Keeps.record ?_ rfl rfl rfl rfl rfl rfl rfl)
    | (with_reducible apply Keeps.foldl_via; intro _ _)
    | (fail_if_no_progress dsimp -zeta +zetaDelta only)

theorem bundleFetch_keeps (m : MillId) (c : Ctx) (src : FetchSource) (codes : List Ecc) (s : State) :
    Keeps s (bundleFetch m c src codes s) := by
  unfold bundleFetch
  repeat' first
    | split
    | extract_lets
    | (with_reducible apply State.coded_via; intro _)
    | with_reducible apply Keeps.via (State.fetchImage_keeps ..)
    | with_reducible apply Keeps.via (State.onCtx_keeps ..)
    | with_reducible apply Keeps.via (State.takeEvent_keeps ..)
    | (with_reducible apply Keeps.of_ite <;> intro _)
    | with_reducible exact Keeps.refl _
    | (with_reducible apply Keeps.of_pair (by assumption))
    | (with_reducible apply Keeps.of_triple (by assumption))
    | (fail_if_no_progress with_reducible refine Keeps.record ?_ rfl rfl rfl rfl rfl rfl rfl)
    | (with_reducible apply Keeps.foldl_via; intro _ _)
    | (fail_if_no_progress dsimp -zeta +zetaDelta only)

theorem bundleIssue_keeps (m : MillId) (c : Ctx) (ecc : Ecc) (codes : List Ecc) (s : State) :
    Keeps s (bundleIssue m c ecc codes s) := by
  unfold bundleIssue
  repeat' first
    | split
    | extract_lets
    | (with_reducible apply State.coded_via; intro _)
    | with_reducible apply Keeps.via (State.precise_keeps ..)
    | with_reducible apply Keeps.via (State.registerEcc_keeps ..)
    | with_reducible apply Keeps.via (State.takeInj_keeps ..)
    | with_reducible apply Keeps.via (State.tryIssue_keeps ..)
    | (with_reducible apply Keeps.of_ite <;> intro _)
    | with_reducible exact Keeps.refl _
    | (with_reducible apply Keeps.of_pair (by assumption))
    | (with_reducible apply Keeps.of_triple (by assumption))
    | (fail_if_no_progress with_reducible refine Keeps.record ?_ rfl rfl rfl rfl rfl rfl rfl)
    | (with_reducible apply Keeps.foldl_via; intro _ _)
    | (fail_if_no_progress dsimp -zeta +zetaDelta only)

theorem abnUnreadRead_keeps (p : Path) (m : MillId) (s : State) :
    Keeps s (abnUnreadRead p m s) := by
  unfold abnUnreadRead
  repeat' first
    | split
    | extract_lets
    | with_reducible apply Keeps.via (State.regRead_keeps ..)
    | (with_reducible apply Keeps.of_ite <;> intro _)
    | with_reducible exact Keeps.refl _
    | (with_reducible apply Keeps.of_pair (by assumption))
    | (with_reducible apply Keeps.of_triple (by assumption))
    | (fail_if_no_progress with_reducible refine Keeps.record ?_ rfl rfl rfl rfl rfl rfl rfl)
    | (with_reducible apply Keeps.foldl_via; intro _ _)
    | (fail_if_no_progress dsimp -zeta +zetaDelta only)

theorem settingDigestRead_keeps (p : Path) (s : State) :
    Keeps s (settingDigestRead p s) := by
  unfold settingDigestRead
  repeat' first
    | split
    | extract_lets
    | with_reducible apply Keeps.via (State.regRead_keeps ..)
    | (with_reducible apply Keeps.of_ite <;> intro _)
    | with_reducible exact Keeps.refl _
    | (with_reducible apply Keeps.of_pair (by assumption))
    | (with_reducible apply Keeps.of_triple (by assumption))
    | (fail_if_no_progress with_reducible refine Keeps.record ?_ rfl rfl rfl rfl rfl rfl rfl)
    | (with_reducible apply Keeps.foldl_via; intro _ _)
    | (fail_if_no_progress dsimp -zeta +zetaDelta only)

theorem resume_keeps (p : Path) (m : MillId) (q : Fin 16) (s : State) :
    Keeps s (resume p m q s) := by
  unfold resume
  repeat' first
    | split
    | extract_lets
    | with_reducible apply Keeps.via (State.regWrite_keeps ..)
    | (with_reducible apply Keeps.of_ite <;> intro _)
    | with_reducible exact Keeps.refl _
    | (with_reducible apply Keeps.of_pair (by assumption))
    | (with_reducible apply Keeps.of_triple (by assumption))
    | (fail_if_no_progress with_reducible refine Keeps.record ?_ rfl rfl rfl rfl rfl rfl rfl)
    | (with_reducible apply Keeps.foldl_via; intro _ _)
    | (fail_if_no_progress dsimp -zeta +zetaDelta only)

theorem releaseCap_keeps (p : Path) (s : State) :
    Keeps s (releaseCap p s) := by
  unfold releaseCap
  repeat' first
    | split
    | extract_lets
    | with_reducible apply Keeps.via (State.regWrite_keeps ..)
    | (with_reducible apply Keeps.of_ite <;> intro _)
    | with_reducible exact Keeps.refl _
    | (with_reducible apply Keeps.of_pair (by assumption))
    | (with_reducible apply Keeps.of_triple (by assumption))
    | (fail_if_no_progress with_reducible refine Keeps.record ?_ rfl rfl rfl rfl rfl rfl rfl)
    | (with_reducible apply Keeps.foldl_via; intro _ _)
    | (fail_if_no_progress dsimp -zeta +zetaDelta only)

theorem chuteInDoneRead_keeps (s : State) :
    Keeps s (chuteInDoneRead s) := by
  unfold chuteInDoneRead
  repeat' first
    | split
    | extract_lets
    | with_reducible apply Keeps.via (State.regRead_keeps ..)
    | (with_reducible apply Keeps.of_ite <;> intro _)
    | with_reducible exact Keeps.refl _
    | (with_reducible apply Keeps.of_pair (by assumption))
    | (with_reducible apply Keeps.of_triple (by assumption))
    | (fail_if_no_progress with_reducible refine Keeps.record ?_ rfl rfl rfl rfl rfl rfl rfl)
    | (with_reducible apply Keeps.foldl_via; intro _ _)
    | (fail_if_no_progress dsimp -zeta +zetaDelta only)

theorem pondAbort_keeps (p : Path) (s : State) :
    Keeps s (pondAbort p s) := by
  unfold pondAbort
  repeat' first
    | split
    | extract_lets
    | with_reducible apply Keeps.via (State.regWrite_keeps ..)
    | (with_reducible apply Keeps.of_ite <;> intro _)
    | with_reducible exact Keeps.refl _
    | (with_reducible apply Keeps.of_pair (by assumption))
    | (with_reducible apply Keeps.of_triple (by assumption))
    | (fail_if_no_progress with_reducible refine Keeps.record ?_ rfl rfl rfl rfl rfl rfl rfl)
    | (with_reducible apply Keeps.foldl_via; intro _ _)
    | (fail_if_no_progress dsimp -zeta +zetaDelta only)

theorem tlbInvalPage_keeps (p : Path) (m : MillId) (s : State) :
    Keeps s (tlbInvalPage p m s) := by
  unfold tlbInvalPage
  repeat' first
    | split
    | extract_lets
    | with_reducible apply Keeps.via (State.regWrite_keeps ..)
    | (with_reducible apply Keeps.of_ite <;> intro _)
    | with_reducible exact Keeps.refl _
    | (with_reducible apply Keeps.of_pair (by assumption))
    | (with_reducible apply Keeps.of_triple (by assumption))
    | (fail_if_no_progress with_reducible refine Keeps.record ?_ rfl rfl rfl rfl rfl rfl rfl)
    | (with_reducible apply Keeps.foldl_via; intro _ _)
    | (fail_if_no_progress dsimp -zeta +zetaDelta only)

theorem stop_keeps (p : Path) (s : State) :
    Keeps s (stop p s) := by
  unfold stop
  repeat' first
    | split
    | extract_lets
    | with_reducible apply Keeps.via (State.regWrite_keeps ..)
    | (with_reducible apply Keeps.of_ite <;> intro _)
    | with_reducible exact Keeps.refl _
    | (with_reducible apply Keeps.of_pair (by assumption))
    | (with_reducible apply Keeps.of_triple (by assumption))
    | (fail_if_no_progress with_reducible refine Keeps.record ?_ rfl rfl rfl rfl rfl rfl rfl)
    | (with_reducible apply Keeps.foldl_via; intro _ _)
    | (fail_if_no_progress dsimp -zeta +zetaDelta only)

theorem errUnreadRead_keeps (p : Path) (port : PortRef) (s : State) :
    Keeps s (errUnreadRead p port s) := by
  unfold errUnreadRead
  repeat' first
    | split
    | extract_lets
    | with_reducible apply Keeps.via (State.regRead_keeps ..)
    | (with_reducible apply Keeps.of_ite <;> intro _)
    | with_reducible exact Keeps.refl _
    | (with_reducible apply Keeps.of_pair (by assumption))
    | (with_reducible apply Keeps.of_triple (by assumption))
    | (fail_if_no_progress with_reducible refine Keeps.record ?_ rfl rfl rfl rfl rfl rfl rfl)
    | (with_reducible apply Keeps.foldl_via; intro _ _)
    | (fail_if_no_progress dsimp -zeta +zetaDelta only)

theorem resetAsm_keeps (p : Path) (m : MillId) (s : State) :
    Keeps s (resetAsm p m s) := by
  unfold resetAsm
  repeat' first
    | split
    | extract_lets
    | with_reducible apply Keeps.via (State.regWrite_keeps ..)
    | (with_reducible apply Keeps.of_ite <;> intro _)
    | with_reducible exact Keeps.refl _
    | (with_reducible apply Keeps.of_pair (by assumption))
    | (with_reducible apply Keeps.of_triple (by assumption))
    | (fail_if_no_progress with_reducible refine Keeps.record ?_ rfl rfl rfl rfl rfl rfl rfl)
    | (with_reducible apply Keeps.foldl_via; intro _ _)
    | (fail_if_no_progress dsimp -zeta +zetaDelta only)

theorem chuteInDestWrite_keeps (p : Path) (value : W64) (s : State) :
    Keeps s (chuteInDestWrite p value s) := by
  unfold chuteInDestWrite
  repeat' first
    | split
    | extract_lets
    | with_reducible apply Keeps.via (State.regWrite_keeps ..)
    | (with_reducible apply Keeps.of_ite <;> intro _)
    | with_reducible exact Keeps.refl _
    | (with_reducible apply Keeps.of_pair (by assumption))
    | (with_reducible apply Keeps.of_triple (by assumption))
    | (fail_if_no_progress with_reducible refine Keeps.record ?_ rfl rfl rfl rfl rfl rfl rfl)
    | (with_reducible apply Keeps.foldl_via; intro _ _)
    | (fail_if_no_progress dsimp -zeta +zetaDelta only)

theorem chkUnreadRead_keeps (p : Path) (m : MillId) (n : Fin 24) (s : State) :
    Keeps s (chkUnreadRead p m n s) := by
  unfold chkUnreadRead
  repeat' first
    | split
    | extract_lets
    | with_reducible apply Keeps.via (State.regRead_keeps ..)
    | (with_reducible apply Keeps.of_ite <;> intro _)
    | with_reducible exact Keeps.refl _
    | (with_reducible apply Keeps.of_pair (by assumption))
    | (with_reducible apply Keeps.of_triple (by assumption))
    | (fail_if_no_progress with_reducible refine Keeps.record ?_ rfl rfl rfl rfl rfl rfl rfl)
    | (with_reducible apply Keeps.foldl_via; intro _ _)
    | (fail_if_no_progress dsimp -zeta +zetaDelta only)

theorem receive_keeps (p : Path) (slot : Bool) (s : State) :
    Keeps s (receive p slot s) := by
  unfold receive
  repeat' first
    | split
    | extract_lets
    | with_reducible apply Keeps.via (State.regWrite_keeps ..)
    | (with_reducible apply Keeps.of_ite <;> intro _)
    | with_reducible exact Keeps.refl _
    | (with_reducible apply Keeps.of_pair (by assumption))
    | (with_reducible apply Keeps.of_triple (by assumption))
    | (fail_if_no_progress with_reducible refine Keeps.record ?_ rfl rfl rfl rfl rfl rfl rfl)
    | (with_reducible apply Keeps.foldl_via; intro _ _)
    | (fail_if_no_progress dsimp -zeta +zetaDelta only)

theorem retireRestore_keeps (p : Path) (kind : BitVec 4) (index : BitVec 16) (s : State) :
    Keeps s (retireRestore p kind index s) := by
  unfold retireRestore
  repeat' first
    | split
    | extract_lets
    | with_reducible apply Keeps.via (State.regWrite_keeps ..)
    | (with_reducible apply Keeps.of_ite <;> intro _)
    | with_reducible exact Keeps.refl _
    | (with_reducible apply Keeps.of_pair (by assumption))
    | (with_reducible apply Keeps.of_triple (by assumption))
    | (fail_if_no_progress with_reducible refine Keeps.record ?_ rfl rfl rfl rfl rfl rfl rfl)
    | (with_reducible apply Keeps.foldl_via; intro _ _)
    | (fail_if_no_progress dsimp -zeta +zetaDelta only)

theorem release_keeps (p : Path) (page : Page) (code : BitVec 4) (s : State) :
    Keeps s (release p page code s) := by
  unfold release
  repeat' first
    | split
    | extract_lets
    | with_reducible apply Keeps.via (State.regWrite_keeps ..)
    | (with_reducible apply Keeps.of_ite <;> intro _)
    | with_reducible exact Keeps.refl _
    | (with_reducible apply Keeps.of_pair (by assumption))
    | (with_reducible apply Keeps.of_triple (by assumption))
    | (fail_if_no_progress with_reducible refine Keeps.record ?_ rfl rfl rfl rfl rfl rfl rfl)
    | (with_reducible apply Keeps.foldl_via; intro _ _)
    | (fail_if_no_progress dsimp -zeta +zetaDelta only)

theorem injArm_keeps (p : Path) (page : Page) (repeats : Byte) (param : BitVec 16) (s : State) :
    Keeps s (injArm p page repeats param s) := by
  unfold injArm
  repeat' first
    | split
    | extract_lets
    | with_reducible apply Keeps.via (State.regWrite_keeps ..)
    | (with_reducible apply Keeps.of_ite <;> intro _)
    | with_reducible exact Keeps.refl _
    | (with_reducible apply Keeps.of_pair (by assumption))
    | (with_reducible apply Keeps.of_triple (by assumption))
    | (fail_if_no_progress with_reducible refine Keeps.record ?_ rfl rfl rfl rfl rfl rfl rfl)
    | (with_reducible apply Keeps.foldl_via; intro _ _)
    | (fail_if_no_progress dsimp -zeta +zetaDelta only)

theorem trigNow_keeps (p : Path) (m : MillId) (s : State) :
    Keeps s (trigNow p m s) := by
  unfold trigNow
  repeat' first
    | split
    | extract_lets
    | with_reducible apply Keeps.via (State.regWrite_keeps ..)
    | (with_reducible apply Keeps.of_ite <;> intro _)
    | with_reducible exact Keeps.refl _
    | (with_reducible apply Keeps.of_pair (by assumption))
    | (with_reducible apply Keeps.of_triple (by assumption))
    | (fail_if_no_progress with_reducible refine Keeps.record ?_ rfl rfl rfl rfl rfl rfl rfl)
    | (with_reducible apply Keeps.foldl_via; intro _ _)
    | (fail_if_no_progress dsimp -zeta +zetaDelta only)

theorem evtEn_keeps (p : Path) (page : Page) (w : W32) (s : State) :
    Keeps s (evtEn p page w s) := by
  unfold evtEn
  repeat' first
    | split
    | extract_lets
    | with_reducible apply Keeps.via (State.regWrite_keeps ..)
    | (with_reducible apply Keeps.of_ite <;> intro _)
    | with_reducible exact Keeps.refl _
    | (with_reducible apply Keeps.of_pair (by assumption))
    | (with_reducible apply Keeps.of_triple (by assumption))
    | (fail_if_no_progress with_reducible refine Keeps.record ?_ rfl rfl rfl rfl rfl rfl rfl)
    | (with_reducible apply Keeps.foldl_via; intro _ _)
    | (fail_if_no_progress dsimp -zeta +zetaDelta only)

theorem evtClr_keeps (p : Path) (page : Page) (w : W32) (s : State) :
    Keeps s (evtClr p page w s) := by
  unfold evtClr
  repeat' first
    | split
    | extract_lets
    | with_reducible apply Keeps.via (State.regWrite_keeps ..)
    | (with_reducible apply Keeps.of_ite <;> intro _)
    | with_reducible exact Keeps.refl _
    | (with_reducible apply Keeps.of_pair (by assumption))
    | (with_reducible apply Keeps.of_triple (by assumption))
    | (fail_if_no_progress with_reducible refine Keeps.record ?_ rfl rfl rfl rfl rfl rfl rfl)
    | (with_reducible apply Keeps.foldl_via; intro _ _)
    | (fail_if_no_progress dsimp -zeta +zetaDelta only)

theorem drop_keeps (p : Path) (group : BitVec 12) (s : State) :
    Keeps s (drop p group s) := by
  unfold drop
  repeat' first
    | split
    | extract_lets
    | with_reducible apply Keeps.via (State.regWrite_keeps ..)
    | (with_reducible apply Keeps.of_ite <;> intro _)
    | with_reducible exact Keeps.refl _
    | (with_reducible apply Keeps.of_pair (by assumption))
    | (with_reducible apply Keeps.of_triple (by assumption))
    | (fail_if_no_progress with_reducible refine Keeps.record ?_ rfl rfl rfl rfl rfl rfl rfl)
    | (with_reducible apply Keeps.foldl_via; intro _ _)
    | (fail_if_no_progress dsimp -zeta +zetaDelta only)

theorem rotate_keeps (p : Path) (s : State) :
    Keeps s (rotate p s) := by
  unfold rotate
  repeat' first
    | split
    | extract_lets
    | with_reducible apply Keeps.via (State.regWrite_keeps ..)
    | (with_reducible apply Keeps.of_ite <;> intro _)
    | with_reducible exact Keeps.refl _
    | (with_reducible apply Keeps.of_pair (by assumption))
    | (with_reducible apply Keeps.of_triple (by assumption))
    | (fail_if_no_progress with_reducible refine Keeps.record ?_ rfl rfl rfl rfl rfl rfl rfl)
    | (with_reducible apply Keeps.foldl_via; intro _ _)
    | (fail_if_no_progress dsimp -zeta +zetaDelta only)

theorem retrain_keeps (p : Path) (port : Fin 24) (s : State) :
    Keeps s (retrain p port s) := by
  unfold retrain
  repeat' first
    | split
    | extract_lets
    | with_reducible apply Keeps.via (State.regWrite_keeps ..)
    | (with_reducible apply Keeps.of_ite <;> intro _)
    | with_reducible exact Keeps.refl _
    | (with_reducible apply Keeps.of_pair (by assumption))
    | (with_reducible apply Keeps.of_triple (by assumption))
    | (fail_if_no_progress with_reducible refine Keeps.record ?_ rfl rfl rfl rfl rfl rfl rfl)
    | (with_reducible apply Keeps.foldl_via; intro _ _)
    | (fail_if_no_progress dsimp -zeta +zetaDelta only)

theorem wrUnreadRead_keeps (p : Path) (s : State) :
    Keeps s (wrUnreadRead p s) := by
  unfold wrUnreadRead
  repeat' first
    | split
    | extract_lets
    | with_reducible apply Keeps.via (State.regRead_keeps ..)
    | (with_reducible apply Keeps.of_ite <;> intro _)
    | with_reducible exact Keeps.refl _
    | (with_reducible apply Keeps.of_pair (by assumption))
    | (with_reducible apply Keeps.of_triple (by assumption))
    | (fail_if_no_progress with_reducible refine Keeps.record ?_ rfl rfl rfl rfl rfl rfl rfl)
    | (with_reducible apply Keeps.foldl_via; intro _ _)
    | (fail_if_no_progress dsimp -zeta +zetaDelta only)

theorem verifyInactive_keeps (p : Path) (s : State) :
    Keeps s (verifyInactive p s) := by
  unfold verifyInactive
  repeat' first
    | split
    | extract_lets
    | with_reducible apply Keeps.via (State.regWrite_keeps ..)
    | (with_reducible apply Keeps.of_ite <;> intro _)
    | with_reducible exact Keeps.refl _
    | (with_reducible apply Keeps.of_pair (by assumption))
    | (with_reducible apply Keeps.of_triple (by assumption))
    | (fail_if_no_progress with_reducible refine Keeps.record ?_ rfl rfl rfl rfl rfl rfl rfl)
    | (with_reducible apply Keeps.foldl_via; intro _ _)
    | (fail_if_no_progress dsimp -zeta +zetaDelta only)

theorem lrUnreadRead_keeps (p : Path) (s : State) :
    Keeps s (lrUnreadRead p s) := by
  unfold lrUnreadRead
  repeat' first
    | split
    | extract_lets
    | with_reducible apply Keeps.via (State.regRead_keeps ..)
    | (with_reducible apply Keeps.of_ite <;> intro _)
    | with_reducible exact Keeps.refl _
    | (with_reducible apply Keeps.of_pair (by assumption))
    | (with_reducible apply Keeps.of_triple (by assumption))
    | (fail_if_no_progress with_reducible refine Keeps.record ?_ rfl rfl rfl rfl rfl rfl rfl)
    | (with_reducible apply Keeps.foldl_via; intro _ _)
    | (fail_if_no_progress dsimp -zeta +zetaDelta only)

theorem start_keeps (p : Path) (s : State) :
    Keeps s (start p s) := by
  unfold start
  repeat' first
    | split
    | extract_lets
    | with_reducible apply Keeps.via (State.regWrite_keeps ..)
    | (with_reducible apply Keeps.of_ite <;> intro _)
    | with_reducible exact Keeps.refl _
    | (with_reducible apply Keeps.of_pair (by assumption))
    | (with_reducible apply Keeps.of_triple (by assumption))
    | (fail_if_no_progress with_reducible refine Keeps.record ?_ rfl rfl rfl rfl rfl rfl rfl)
    | (with_reducible apply Keeps.foldl_via; intro _ _)
    | (fail_if_no_progress dsimp -zeta +zetaDelta only)

theorem quote_keeps (p : Path) (s : State) :
    Keeps s (quote p s) := by
  unfold quote
  repeat' first
    | split
    | extract_lets
    | with_reducible apply Keeps.via (State.regWrite_keeps ..)
    | (with_reducible apply Keeps.of_ite <;> intro _)
    | with_reducible exact Keeps.refl _
    | (with_reducible apply Keeps.of_pair (by assumption))
    | (with_reducible apply Keeps.of_triple (by assumption))
    | (fail_if_no_progress with_reducible refine Keeps.record ?_ rfl rfl rfl rfl rfl rfl rfl)
    | (with_reducible apply Keeps.foldl_via; intro _ _)
    | (fail_if_no_progress dsimp -zeta +zetaDelta only)

theorem hoistDataRead_keeps (p : Path) (s : State) :
    Keeps s (hoistDataRead p s) := by
  unfold hoistDataRead
  repeat' first
    | split
    | extract_lets
    | with_reducible apply Keeps.via (State.regRead_keeps ..)
    | (with_reducible apply Keeps.of_ite <;> intro _)
    | with_reducible exact Keeps.refl _
    | (with_reducible apply Keeps.of_pair (by assumption))
    | (with_reducible apply Keeps.of_triple (by assumption))
    | (fail_if_no_progress with_reducible refine Keeps.record ?_ rfl rfl rfl rfl rfl rfl rfl)
    | (with_reducible apply Keeps.foldl_via; intro _ _)
    | (fail_if_no_progress dsimp -zeta +zetaDelta only)

theorem timeSet_keeps (p : Path) (value : W64) (s : State) :
    Keeps s (timeSet p value s) := by
  unfold timeSet
  repeat' first
    | split
    | extract_lets
    | with_reducible apply Keeps.via (State.regWrite_keeps ..)
    | (with_reducible apply Keeps.of_ite <;> intro _)
    | with_reducible exact Keeps.refl _
    | (with_reducible apply Keeps.of_pair (by assumption))
    | (with_reducible apply Keeps.of_triple (by assumption))
    | (fail_if_no_progress with_reducible refine Keeps.record ?_ rfl rfl rfl rfl rfl rfl rfl)
    | (with_reducible apply Keeps.foldl_via; intro _ _)
    | (fail_if_no_progress dsimp -zeta +zetaDelta only)

theorem sluFltUnreadRead_keeps (p : Path) (m : MillId) (s : State) :
    Keeps s (sluFltUnreadRead p m s) := by
  unfold sluFltUnreadRead
  repeat' first
    | split
    | extract_lets
    | with_reducible apply Keeps.via (State.regRead_keeps ..)
    | (with_reducible apply Keeps.of_ite <;> intro _)
    | with_reducible exact Keeps.refl _
    | (with_reducible apply Keeps.of_pair (by assumption))
    | (with_reducible apply Keeps.of_triple (by assumption))
    | (fail_if_no_progress with_reducible refine Keeps.record ?_ rfl rfl rfl rfl rfl rfl rfl)
    | (with_reducible apply Keeps.foldl_via; intro _ _)
    | (fail_if_no_progress dsimp -zeta +zetaDelta only)

theorem powerDown_keeps (p : Path) (s : State) :
    Keeps s (powerDown p s) := by
  unfold powerDown
  repeat' first
    | split
    | extract_lets
    | with_reducible apply Keeps.via (State.regWrite_keeps ..)
    | (with_reducible apply Keeps.of_ite <;> intro _)
    | with_reducible exact Keeps.refl _
    | (with_reducible apply Keeps.of_pair (by assumption))
    | (with_reducible apply Keeps.of_triple (by assumption))
    | (fail_if_no_progress with_reducible refine Keeps.record ?_ rfl rfl rfl rfl rfl rfl rfl)
    | (with_reducible apply Keeps.foldl_via; intro _ _)
    | (fail_if_no_progress dsimp -zeta +zetaDelta only)

theorem take_keeps (p : Path) (s : State) :
    Keeps s (take p s) := by
  unfold take
  repeat' first
    | split
    | extract_lets
    | with_reducible apply Keeps.via (State.regWrite_keeps ..)
    | (with_reducible apply Keeps.of_ite <;> intro _)
    | with_reducible exact Keeps.refl _
    | (with_reducible apply Keeps.of_pair (by assumption))
    | (with_reducible apply Keeps.of_triple (by assumption))
    | (fail_if_no_progress with_reducible refine Keeps.record ?_ rfl rfl rfl rfl rfl rfl rfl)
    | (with_reducible apply Keeps.foldl_via; intro _ _)
    | (fail_if_no_progress dsimp -zeta +zetaDelta only)

theorem millerReset_keeps (p : Path) (m : MillId) (s : State) :
    Keeps s (millerReset p m s) := by
  unfold millerReset
  repeat' first
    | split
    | extract_lets
    | with_reducible apply Keeps.via (State.regWrite_keeps ..)
    | (with_reducible apply Keeps.of_ite <;> intro _)
    | with_reducible exact Keeps.refl _
    | (with_reducible apply Keeps.of_pair (by assumption))
    | (with_reducible apply Keeps.of_triple (by assumption))
    | (fail_if_no_progress with_reducible refine Keeps.record ?_ rfl rfl rfl rfl rfl rfl rfl)
    | (with_reducible apply Keeps.foldl_via; intro _ _)
    | (fail_if_no_progress dsimp -zeta +zetaDelta only)

theorem cmdWord_keeps (p : Path) (m : MillId) (offset : BitVec 12) (w : W32) (s : State) :
    Keeps s (cmdWord p m offset w s) := by
  unfold cmdWord
  repeat' first
    | split
    | extract_lets
    | with_reducible apply Keeps.via (State.regWrite_keeps ..)
    | (with_reducible apply Keeps.of_ite <;> intro _)
    | with_reducible exact Keeps.refl _
    | (with_reducible apply Keeps.of_pair (by assumption))
    | (with_reducible apply Keeps.of_triple (by assumption))
    | (fail_if_no_progress with_reducible refine Keeps.record ?_ rfl rfl rfl rfl rfl rfl rfl)
    | (with_reducible apply Keeps.foldl_via; intro _ _)
    | (fail_if_no_progress dsimp -zeta +zetaDelta only)

theorem flush_keeps (p : Path) (m : MillId) (s : State) :
    Keeps s (flush p m s) := by
  unfold flush
  repeat' first
    | split
    | extract_lets
    | with_reducible apply Keeps.via (State.regWrite_keeps ..)
    | (with_reducible apply Keeps.of_ite <;> intro _)
    | with_reducible exact Keeps.refl _
    | (with_reducible apply Keeps.of_pair (by assumption))
    | (with_reducible apply Keeps.of_triple (by assumption))
    | (fail_if_no_progress with_reducible refine Keeps.record ?_ rfl rfl rfl rfl rfl rfl rfl)
    | (with_reducible apply Keeps.foldl_via; intro _ _)
    | (fail_if_no_progress dsimp -zeta +zetaDelta only)

theorem logRun_keeps (p : Path) (m : MillId) (s : State) :
    Keeps s (logRun p m s) := by
  unfold logRun
  repeat' first
    | split
    | extract_lets
    | with_reducible apply Keeps.via (State.regWrite_keeps ..)
    | (with_reducible apply Keeps.of_ite <;> intro _)
    | with_reducible exact Keeps.refl _
    | (with_reducible apply Keeps.of_pair (by assumption))
    | (with_reducible apply Keeps.of_triple (by assumption))
    | (fail_if_no_progress with_reducible refine Keeps.record ?_ rfl rfl rfl rfl rfl rfl rfl)
    | (with_reducible apply Keeps.foldl_via; intro _ _)
    | (fail_if_no_progress dsimp -zeta +zetaDelta only)

theorem powerOn_keeps (p : Path) (s : State) :
    Keeps s (powerOn p s) := by
  unfold powerOn
  repeat' first
    | split
    | extract_lets
    | with_reducible apply Keeps.via (State.regWrite_keeps ..)
    | (with_reducible apply Keeps.of_ite <;> intro _)
    | with_reducible exact Keeps.refl _
    | (with_reducible apply Keeps.of_pair (by assumption))
    | (with_reducible apply Keeps.of_triple (by assumption))
    | (fail_if_no_progress with_reducible refine Keeps.record ?_ rfl rfl rfl rfl rfl rfl rfl)
    | (with_reducible apply Keeps.foldl_via; intro _ _)
    | (fail_if_no_progress dsimp -zeta +zetaDelta only)

theorem logRdDataRead_keeps (p : Path) (m : MillId) (s : State) :
    Keeps s (logRdDataRead p m s) := by
  unfold logRdDataRead
  repeat' first
    | split
    | extract_lets
    | with_reducible apply Keeps.via (State.regRead_keeps ..)
    | (with_reducible apply Keeps.of_ite <;> intro _)
    | with_reducible exact Keeps.refl _
    | (with_reducible apply Keeps.of_pair (by assumption))
    | (with_reducible apply Keeps.of_triple (by assumption))
    | (fail_if_no_progress with_reducible refine Keeps.record ?_ rfl rfl rfl rfl rfl rfl rfl)
    | (with_reducible apply Keeps.foldl_via; intro _ _)
    | (fail_if_no_progress dsimp -zeta +zetaDelta only)

theorem arm_keeps (p : Path) (m : MillId) (s : State) :
    Keeps s (arm p m s) := by
  unfold arm
  repeat' first
    | split
    | extract_lets
    | with_reducible apply Keeps.via (State.regWrite_keeps ..)
    | (with_reducible apply Keeps.of_ite <;> intro _)
    | with_reducible exact Keeps.refl _
    | (with_reducible apply Keeps.of_pair (by assumption))
    | (with_reducible apply Keeps.of_triple (by assumption))
    | (fail_if_no_progress with_reducible refine Keeps.record ?_ rfl rfl rfl rfl rfl rfl rfl)
    | (with_reducible apply Keeps.foldl_via; intro _ _)
    | (fail_if_no_progress dsimp -zeta +zetaDelta only)

theorem fail_keeps (p : Path) (m : MillId) (q : Fin 16) (s : State) :
    Keeps s (fail p m q s) := by
  unfold fail
  repeat' first
    | split
    | extract_lets
    | with_reducible apply Keeps.via (State.regWrite_keeps ..)
    | (with_reducible apply Keeps.of_ite <;> intro _)
    | with_reducible exact Keeps.refl _
    | (with_reducible apply Keeps.of_pair (by assumption))
    | (with_reducible apply Keeps.of_triple (by assumption))
    | (fail_if_no_progress with_reducible refine Keeps.record ?_ rfl rfl rfl rfl rfl rfl rfl)
    | (with_reducible apply Keeps.foldl_via; intro _ _)
    | (fail_if_no_progress dsimp -zeta +zetaDelta only)

theorem writeback_keeps (p : Path) (m : MillId) (s : State) :
    Keeps s (writeback p m s) := by
  unfold writeback
  repeat' first
    | split
    | extract_lets
    | with_reducible apply Keeps.via (State.regWrite_keeps ..)
    | (with_reducible apply Keeps.of_ite <;> intro _)
    | with_reducible exact Keeps.refl _
    | (with_reducible apply Keeps.of_pair (by assumption))
    | (with_reducible apply Keeps.of_triple (by assumption))
    | (fail_if_no_progress with_reducible refine Keeps.record ?_ rfl rfl rfl rfl rfl rfl rfl)
    | (with_reducible apply Keeps.foldl_via; intro _ _)
    | (fail_if_no_progress dsimp -zeta +zetaDelta only)

theorem disarm_keeps (p : Path) (page : Page) (s : State) :
    Keeps s (disarm p page s) := by
  unfold disarm
  repeat' first
    | split
    | extract_lets
    | with_reducible apply Keeps.via (State.regWrite_keeps ..)
    | (with_reducible apply Keeps.of_ite <;> intro _)
    | with_reducible exact Keeps.refl _
    | (with_reducible apply Keeps.of_pair (by assumption))
    | (with_reducible apply Keeps.of_triple (by assumption))
    | (fail_if_no_progress with_reducible refine Keeps.record ?_ rfl rfl rfl rfl rfl rfl rfl)
    | (with_reducible apply Keeps.foldl_via; intro _ _)
    | (fail_if_no_progress dsimp -zeta +zetaDelta only)

theorem acquire_keeps (p : Path) (page : Page) (code : BitVec 4) (s : State) :
    Keeps s (acquire p page code s) := by
  unfold acquire
  repeat' first
    | split
    | extract_lets
    | with_reducible apply Keeps.via (State.regWrite_keeps ..)
    | (with_reducible apply Keeps.of_ite <;> intro _)
    | with_reducible exact Keeps.refl _
    | (with_reducible apply Keeps.of_pair (by assumption))
    | (with_reducible apply Keeps.of_triple (by assumption))
    | (fail_if_no_progress with_reducible refine Keeps.record ?_ rfl rfl rfl rfl rfl rfl rfl)
    | (with_reducible apply Keeps.foldl_via; intro _ _)
    | (fail_if_no_progress dsimp -zeta +zetaDelta only)

theorem selftest_keeps (p : Path) (m : MillId) (n : Fin 24) (s : State) :
    Keeps s (selftest p m n s) := by
  unfold selftest
  repeat' first
    | split
    | extract_lets
    | with_reducible apply Keeps.via (State.regWrite_keeps ..)
    | (with_reducible apply Keeps.of_ite <;> intro _)
    | with_reducible exact Keeps.refl _
    | (with_reducible apply Keeps.of_pair (by assumption))
    | (with_reducible apply Keeps.of_triple (by assumption))
    | (fail_if_no_progress with_reducible refine Keeps.record ?_ rfl rfl rfl rfl rfl rfl rfl)
    | (with_reducible apply Keeps.foldl_via; intro _ _)
    | (fail_if_no_progress dsimp -zeta +zetaDelta only)

theorem groupLoad_keeps (p : Path) (group : BitVec 12) (codes : List Ecc) (s : State) :
    Keeps s (groupLoad p group codes s) := by
  unfold groupLoad
  repeat' first
    | split
    | extract_lets
    | (with_reducible apply State.coded_via; intro _)
    | with_reducible apply Keeps.via (State.regWrite_keeps ..)
    | (with_reducible apply Keeps.of_ite <;> intro _)
    | with_reducible exact Keeps.refl _
    | (with_reducible apply Keeps.of_pair (by assumption))
    | (with_reducible apply Keeps.of_triple (by assumption))
    | (fail_if_no_progress with_reducible refine Keeps.record ?_ rfl rfl rfl rfl rfl rfl rfl)
    | (with_reducible apply Keeps.foldl_via; intro _ _)
    | (fail_if_no_progress dsimp -zeta +zetaDelta only)

theorem retire_keeps (p : Path) (kind : BitVec 4) (index : BitVec 16) (s : State) :
    Keeps s (retire p kind index s) := by
  unfold retire
  repeat' first
    | split
    | extract_lets
    | with_reducible apply Keeps.via (State.regWrite_keeps ..)
    | (with_reducible apply Keeps.of_ite <;> intro _)
    | with_reducible exact Keeps.refl _
    | (with_reducible apply Keeps.of_pair (by assumption))
    | (with_reducible apply Keeps.of_triple (by assumption))
    | (fail_if_no_progress with_reducible refine Keeps.record ?_ rfl rfl rfl rfl rfl rfl rfl)
    | (with_reducible apply Keeps.foldl_via; intro _ _)
    | (fail_if_no_progress dsimp -zeta +zetaDelta only)

theorem registerWrite_keeps (p : Path) (offset : BitVec 28) (width : ℕ) (value : W64) (s : State) :
    Keeps s (registerWrite p offset width value s) := by
  unfold registerWrite
  repeat' first
    | split
    | extract_lets
    | with_reducible apply Keeps.via (State.regWrite_keeps ..)
    | (with_reducible apply Keeps.of_ite <;> intro _)
    | with_reducible exact Keeps.refl _
    | (with_reducible apply Keeps.of_pair (by assumption))
    | (with_reducible apply Keeps.of_triple (by assumption))
    | (fail_if_no_progress with_reducible refine Keeps.record ?_ rfl rfl rfl rfl rfl rfl rfl)
    | (with_reducible apply Keeps.foldl_via; intro _ _)
    | (fail_if_no_progress dsimp -zeta +zetaDelta only)

theorem boltResume_keeps (p : Path) (m : MillId) (codes : List Ecc) (s : State) :
    Keeps s (boltResume p m codes s) := by
  unfold boltResume
  repeat' first
    | split
    | extract_lets
    | (with_reducible apply State.coded_via; intro _)
    | with_reducible apply Keeps.via (State.regWrite_keeps ..)
    | (with_reducible apply Keeps.of_ite <;> intro _)
    | with_reducible exact Keeps.refl _
    | (with_reducible apply Keeps.of_pair (by assumption))
    | (with_reducible apply Keeps.of_triple (by assumption))
    | (fail_if_no_progress with_reducible refine Keeps.record ?_ rfl rfl rfl rfl rfl rfl rfl)
    | (with_reducible apply Keeps.foldl_via; intro _ _)
    | (fail_if_no_progress dsimp -zeta +zetaDelta only)

theorem registerReadRejected_keeps (p : Path) (offset : BitVec 28) (width : ℕ) (s : State) :
    Keeps s (registerReadRejected p offset width s) := by
  unfold registerReadRejected
  repeat' first
    | split
    | extract_lets
    | with_reducible apply Keeps.via (State.regRead_keeps ..)
    | (with_reducible apply Keeps.of_ite <;> intro _)
    | with_reducible exact Keeps.refl _
    | (with_reducible apply Keeps.of_pair (by assumption))
    | (with_reducible apply Keeps.of_triple (by assumption))
    | (fail_if_no_progress with_reducible refine Keeps.record ?_ rfl rfl rfl rfl rfl rfl rfl)
    | (with_reducible apply Keeps.foldl_via; intro _ _)
    | (fail_if_no_progress dsimp -zeta +zetaDelta only)

theorem dryUnreadRead_keeps (p : Path) (m : MillId) (s : State) :
    Keeps s (dryUnreadRead p m s) := by
  unfold dryUnreadRead
  repeat' first
    | split
    | extract_lets
    | with_reducible apply Keeps.via (State.regRead_keeps ..)
    | (with_reducible apply Keeps.of_ite <;> intro _)
    | with_reducible exact Keeps.refl _
    | (with_reducible apply Keeps.of_pair (by assumption))
    | (with_reducible apply Keeps.of_triple (by assumption))
    | (fail_if_no_progress with_reducible refine Keeps.record ?_ rfl rfl rfl rfl rfl rfl rfl)
    | (with_reducible apply Keeps.foldl_via; intro _ _)
    | (fail_if_no_progress dsimp -zeta +zetaDelta only)

theorem exported_keeps (p : Path) (slot : Bool) (s : State) :
    Keeps s (exported p slot s) := by
  unfold exported
  repeat' first
    | split
    | extract_lets
    | with_reducible apply Keeps.via (State.regWrite_keeps ..)
    | (with_reducible apply Keeps.of_ite <;> intro _)
    | with_reducible exact Keeps.refl _
    | (with_reducible apply Keeps.of_pair (by assumption))
    | (with_reducible apply Keeps.of_triple (by assumption))
    | (fail_if_no_progress with_reducible refine Keeps.record ?_ rfl rfl rfl rfl rfl rfl rfl)
    | (with_reducible apply Keeps.foldl_via; intro _ _)
    | (fail_if_no_progress dsimp -zeta +zetaDelta only)

theorem activate_keeps (p : Path) (s : State) :
    Keeps s (activate p s) := by
  unfold activate
  repeat' first
    | split
    | extract_lets
    | with_reducible apply Keeps.via (State.regWrite_keeps ..)
    | (with_reducible apply Keeps.of_ite <;> intro _)
    | with_reducible exact Keeps.refl _
    | (with_reducible apply Keeps.of_pair (by assumption))
    | (with_reducible apply Keeps.of_triple (by assumption))
    | (fail_if_no_progress with_reducible refine Keeps.record ?_ rfl rfl rfl rfl rfl rfl rfl)
    | (with_reducible apply Keeps.foldl_via; intro _ _)
    | (fail_if_no_progress dsimp -zeta +zetaDelta only)

theorem routeData_keeps (p : Path) (w : W32) (s : State) :
    Keeps s (routeData p w s) := by
  unfold routeData
  repeat' first
    | split
    | extract_lets
    | with_reducible apply Keeps.via (State.regWrite_keeps ..)
    | (with_reducible apply Keeps.of_ite <;> intro _)
    | with_reducible exact Keeps.refl _
    | (with_reducible apply Keeps.of_pair (by assumption))
    | (with_reducible apply Keeps.of_triple (by assumption))
    | (fail_if_no_progress with_reducible refine Keeps.record ?_ rfl rfl rfl rfl rfl rfl rfl)
    | (with_reducible apply Keeps.foldl_via; intro _ _)
    | (fail_if_no_progress dsimp -zeta +zetaDelta only)

theorem bfltUnreadRead_keeps (p : Path) (m : MillId) (s : State) :
    Keeps s (bfltUnreadRead p m s) := by
  unfold bfltUnreadRead
  repeat' first
    | split
    | extract_lets
    | with_reducible apply Keeps.via (State.regRead_keeps ..)
    | (with_reducible apply Keeps.of_ite <;> intro _)
    | with_reducible exact Keeps.refl _
    | (with_reducible apply Keeps.of_pair (by assumption))
    | (with_reducible apply Keeps.of_triple (by assumption))
    | (fail_if_no_progress with_reducible refine Keeps.record ?_ rfl rfl rfl rfl rfl rfl rfl)
    | (with_reducible apply Keeps.foldl_via; intro _ _)
    | (fail_if_no_progress dsimp -zeta +zetaDelta only)

theorem pondRestore_keeps (p : Path) (slot : Bool) (settings : Bool) (s : State) :
    Keeps s (pondRestore p slot settings s) := by
  unfold pondRestore
  repeat' first
    | split
    | extract_lets
    | with_reducible apply Keeps.via (State.regWrite_keeps ..)
    | (with_reducible apply Keeps.of_ite <;> intro _)
    | with_reducible exact Keeps.refl _
    | (with_reducible apply Keeps.of_pair (by assumption))
    | (with_reducible apply Keeps.of_triple (by assumption))
    | (fail_if_no_progress with_reducible refine Keeps.record ?_ rfl rfl rfl rfl rfl rfl rfl)
    | (with_reducible apply Keeps.foldl_via; intro _ _)
    | (fail_if_no_progress dsimp -zeta +zetaDelta only)

theorem cbUnreadRead_keeps (p : Path) (s : State) :
    Keeps s (cbUnreadRead p s) := by
  unfold cbUnreadRead
  repeat' first
    | split
    | extract_lets
    | with_reducible apply Keeps.via (State.regRead_keeps ..)
    | (with_reducible apply Keeps.of_ite <;> intro _)
    | with_reducible exact Keeps.refl _
    | (with_reducible apply Keeps.of_pair (by assumption))
    | (with_reducible apply Keeps.of_triple (by assumption))
    | (fail_if_no_progress with_reducible refine Keeps.record ?_ rfl rfl rfl rfl rfl rfl rfl)
    | (with_reducible apply Keeps.foldl_via; intro _ _)
    | (fail_if_no_progress dsimp -zeta +zetaDelta only)

theorem govFltUnreadRead_keeps (p : Path) (m : MillId) (s : State) :
    Keeps s (govFltUnreadRead p m s) := by
  unfold govFltUnreadRead
  repeat' first
    | split
    | extract_lets
    | with_reducible apply Keeps.via (State.regRead_keeps ..)
    | (with_reducible apply Keeps.of_ite <;> intro _)
    | with_reducible exact Keeps.refl _
    | (with_reducible apply Keeps.of_pair (by assumption))
    | (with_reducible apply Keeps.of_triple (by assumption))
    | (fail_if_no_progress with_reducible refine Keeps.record ?_ rfl rfl rfl rfl rfl rfl rfl)
    | (with_reducible apply Keeps.foldl_via; intro _ _)
    | (fail_if_no_progress dsimp -zeta +zetaDelta only)

theorem raUnreadRead_keeps (p : Path) (s : State) :
    Keeps s (raUnreadRead p s) := by
  unfold raUnreadRead
  repeat' first
    | split
    | extract_lets
    | with_reducible apply Keeps.via (State.regRead_keeps ..)
    | (with_reducible apply Keeps.of_ite <;> intro _)
    | with_reducible exact Keeps.refl _
    | (with_reducible apply Keeps.of_pair (by assumption))
    | (with_reducible apply Keeps.of_triple (by assumption))
    | (fail_if_no_progress with_reducible refine Keeps.record ?_ rfl rfl rfl rfl rfl rfl rfl)
    | (with_reducible apply Keeps.foldl_via; intro _ _)
    | (fail_if_no_progress dsimp -zeta +zetaDelta only)

theorem cmdAbort_keeps (p : Path) (m : MillId) (seq : W32) (s : State) :
    Keeps s (cmdAbort p m seq s) := by
  unfold cmdAbort
  repeat' first
    | split
    | extract_lets
    | with_reducible apply Keeps.via (State.regWrite_keeps ..)
    | (with_reducible apply Keeps.of_ite <;> intro _)
    | with_reducible exact Keeps.refl _
    | (with_reducible apply Keeps.of_pair (by assumption))
    | (with_reducible apply Keeps.of_triple (by assumption))
    | (fail_if_no_progress with_reducible refine Keeps.record ?_ rfl rfl rfl rfl rfl rfl rfl)
    | (with_reducible apply Keeps.foldl_via; intro _ _)
    | (fail_if_no_progress dsimp -zeta +zetaDelta only)

theorem extend_keeps (p : Path) (index : BitVec 3) (s : State) :
    Keeps s (extend p index s) := by
  unfold extend
  repeat' first
    | split
    | extract_lets
    | with_reducible apply Keeps.via (State.regWrite_keeps ..)
    | (with_reducible apply Keeps.of_ite <;> intro _)
    | with_reducible exact Keeps.refl _
    | (with_reducible apply Keeps.of_pair (by assumption))
    | (with_reducible apply Keeps.of_triple (by assumption))
    | (fail_if_no_progress with_reducible refine Keeps.record ?_ rfl rfl rfl rfl rfl rfl rfl)
    | (with_reducible apply Keeps.foldl_via; intro _ _)
    | (fail_if_no_progress dsimp -zeta +zetaDelta only)

theorem moduleReset_keeps (p : Path) (s : State) :
    Keeps s (moduleReset p s) := by
  unfold moduleReset
  repeat' first
    | split
    | extract_lets
    | with_reducible apply Keeps.via (State.regWrite_keeps ..)
    | (with_reducible apply Keeps.of_ite <;> intro _)
    | with_reducible exact Keeps.refl _
    | (with_reducible apply Keeps.of_pair (by assumption))
    | (with_reducible apply Keeps.of_triple (by assumption))
    | (fail_if_no_progress with_reducible refine Keeps.record ?_ rfl rfl rfl rfl rfl rfl rfl)
    | (with_reducible apply Keeps.foldl_via; intro _ _)
    | (fail_if_no_progress dsimp -zeta +zetaDelta only)

theorem hoistDataWrite_keeps (p : Path) (w : W32) (s : State) :
    Keeps s (hoistDataWrite p w s) := by
  unfold hoistDataWrite
  repeat' first
    | split
    | extract_lets
    | with_reducible apply Keeps.via (State.regWrite_keeps ..)
    | (with_reducible apply Keeps.of_ite <;> intro _)
    | with_reducible exact Keeps.refl _
    | (with_reducible apply Keeps.of_pair (by assumption))
    | (with_reducible apply Keeps.of_triple (by assumption))
    | (fail_if_no_progress with_reducible refine Keeps.record ?_ rfl rfl rfl rfl rfl rfl rfl)
    | (with_reducible apply Keeps.foldl_via; intro _ _)
    | (fail_if_no_progress dsimp -zeta +zetaDelta only)

theorem prUnreadRead_keeps (p : Path) (s : State) :
    Keeps s (prUnreadRead p s) := by
  unfold prUnreadRead
  repeat' first
    | split
    | extract_lets
    | with_reducible apply Keeps.via (State.regRead_keeps ..)
    | (with_reducible apply Keeps.of_ite <;> intro _)
    | with_reducible exact Keeps.refl _
    | (with_reducible apply Keeps.of_pair (by assumption))
    | (with_reducible apply Keeps.of_triple (by assumption))
    | (fail_if_no_progress with_reducible refine Keeps.record ?_ rfl rfl rfl rfl rfl rfl rfl)
    | (with_reducible apply Keeps.foldl_via; intro _ _)
    | (fail_if_no_progress dsimp -zeta +zetaDelta only)

theorem evtFifoRead_keeps (p : Path) (s : State) :
    Keeps s (evtFifoRead p s) := by
  unfold evtFifoRead
  repeat' first
    | split
    | extract_lets
    | with_reducible apply Keeps.via (State.regRead_keeps ..)
    | (with_reducible apply Keeps.of_ite <;> intro _)
    | with_reducible exact Keeps.refl _
    | (with_reducible apply Keeps.of_pair (by assumption))
    | (with_reducible apply Keeps.of_triple (by assumption))
    | (fail_if_no_progress with_reducible refine Keeps.record ?_ rfl rfl rfl rfl rfl rfl rfl)
    | (with_reducible apply Keeps.foldl_via; intro _ _)
    | (fail_if_no_progress dsimp -zeta +zetaDelta only)

theorem tlbInvalAll_keeps (p : Path) (m : MillId) (s : State) :
    Keeps s (tlbInvalAll p m s) := by
  unfold tlbInvalAll
  repeat' first
    | split
    | extract_lets
    | with_reducible apply Keeps.via (State.regWrite_keeps ..)
    | (with_reducible apply Keeps.of_ite <;> intro _)
    | with_reducible exact Keeps.refl _
    | (with_reducible apply Keeps.of_pair (by assumption))
    | (with_reducible apply Keeps.of_triple (by assumption))
    | (fail_if_no_progress with_reducible refine Keeps.record ?_ rfl rfl rfl rfl rfl rfl rfl)
    | (with_reducible apply Keeps.foldl_via; intro _ _)
    | (fail_if_no_progress dsimp -zeta +zetaDelta only)

theorem frUnreadRead_keeps (p : Path) (m : MillId) (s : State) :
    Keeps s (frUnreadRead p m s) := by
  unfold frUnreadRead
  repeat' first
    | split
    | extract_lets
    | with_reducible apply Keeps.via (State.regRead_keeps ..)
    | (with_reducible apply Keeps.of_ite <;> intro _)
    | with_reducible exact Keeps.refl _
    | (with_reducible apply Keeps.of_pair (by assumption))
    | (with_reducible apply Keeps.of_triple (by assumption))
    | (fail_if_no_progress with_reducible refine Keeps.record ?_ rfl rfl rfl rfl rfl rfl rfl)
    | (with_reducible apply Keeps.foldl_via; intro _ _)
    | (fail_if_no_progress dsimp -zeta +zetaDelta only)

theorem reg64LowRead_keeps (p : Path) (offset : BitVec 28) (s : State) :
    Keeps s (reg64LowRead p offset s) := by
  unfold reg64LowRead
  repeat' first
    | split
    | extract_lets
    | with_reducible apply Keeps.via (State.regRead_keeps ..)
    | (with_reducible apply Keeps.of_ite <;> intro _)
    | with_reducible exact Keeps.refl _
    | (with_reducible apply Keeps.of_pair (by assumption))
    | (with_reducible apply Keeps.of_triple (by assumption))
    | (fail_if_no_progress with_reducible refine Keeps.record ?_ rfl rfl rfl rfl rfl rfl rfl)
    | (with_reducible apply Keeps.foldl_via; intro _ _)
    | (fail_if_no_progress dsimp -zeta +zetaDelta only)

theorem watchClose_keeps (p : Path) (m : MillId) (mask : BitVec 16) (s : State) :
    Keeps s (watchClose p m mask s) := by
  unfold watchClose
  repeat' first
    | split
    | extract_lets
    | with_reducible apply Keeps.via (State.regWrite_keeps ..)
    | (with_reducible apply Keeps.of_ite <;> intro _)
    | with_reducible exact Keeps.refl _
    | (with_reducible apply Keeps.of_pair (by assumption))
    | (with_reducible apply Keeps.of_triple (by assumption))
    | (fail_if_no_progress with_reducible refine Keeps.record ?_ rfl rfl rfl rfl rfl rfl rfl)
    | (with_reducible apply Keeps.foldl_via; intro _ _)
    | (fail_if_no_progress dsimp -zeta +zetaDelta only)

theorem rfUnreadRead_keeps (p : Path) (m : MillId) (s : State) :
    Keeps s (rfUnreadRead p m s) := by
  unfold rfUnreadRead
  repeat' first
    | split
    | extract_lets
    | with_reducible apply Keeps.via (State.regRead_keeps ..)
    | (with_reducible apply Keeps.of_ite <;> intro _)
    | with_reducible exact Keeps.refl _
    | (with_reducible apply Keeps.of_pair (by assumption))
    | (with_reducible apply Keeps.of_triple (by assumption))
    | (fail_if_no_progress with_reducible refine Keeps.record ?_ rfl rfl rfl rfl rfl rfl rfl)
    | (with_reducible apply Keeps.foldl_via; intro _ _)
    | (fail_if_no_progress dsimp -zeta +zetaDelta only)

theorem injectionTimeEnd_keeps (page : Page) (s : State) :
    Keeps s (injectionTimeEnd page s) := by
  unfold injectionTimeEnd
  repeat' first
    | split
    | extract_lets
    | (with_reducible apply Keeps.of_ite <;> intro _)
    | with_reducible exact Keeps.refl _
    | (with_reducible apply Keeps.of_pair (by assumption))
    | (with_reducible apply Keeps.of_triple (by assumption))
    | (fail_if_no_progress with_reducible refine Keeps.record ?_ rfl rfl rfl rfl rfl rfl rfl)
    | (with_reducible apply Keeps.foldl_via; intro _ _)
    | (fail_if_no_progress dsimp -zeta +zetaDelta only)

theorem trUnreadRead_keeps (p : Path) (m : MillId) (s : State) :
    Keeps s (trUnreadRead p m s) := by
  unfold trUnreadRead
  repeat' first
    | split
    | extract_lets
    | with_reducible apply Keeps.via (State.regRead_keeps ..)
    | (with_reducible apply Keeps.of_ite <;> intro _)
    | with_reducible exact Keeps.refl _
    | (with_reducible apply Keeps.of_pair (by assumption))
    | (with_reducible apply Keeps.of_triple (by assumption))
    | (fail_if_no_progress with_reducible refine Keeps.record ?_ rfl rfl rfl rfl rfl rfl rfl)
    | (with_reducible apply Keeps.foldl_via; intro _ _)
    | (fail_if_no_progress dsimp -zeta +zetaDelta only)

theorem commitSvn_keeps (p : Path) (s : State) :
    Keeps s (commitSvn p s) := by
  unfold commitSvn
  repeat' first
    | split
    | extract_lets
    | with_reducible apply Keeps.via (State.regWrite_keeps ..)
    | (with_reducible apply Keeps.of_ite <;> intro _)
    | with_reducible exact Keeps.refl _
    | (with_reducible apply Keeps.of_pair (by assumption))
    | (with_reducible apply Keeps.of_triple (by assumption))
    | (fail_if_no_progress with_reducible refine Keeps.record ?_ rfl rfl rfl rfl rfl rfl rfl)
    | (with_reducible apply Keeps.foldl_via; intro _ _)
    | (fail_if_no_progress dsimp -zeta +zetaDelta only)

theorem apply_keeps (p : Path) (m : MillId) (n : Fin 24) (s : State) :
    Keeps s (apply p m n s) := by
  unfold apply
  repeat' first
    | split
    | extract_lets
    | with_reducible apply Keeps.via (State.regWrite_keeps ..)
    | (with_reducible apply Keeps.of_ite <;> intro _)
    | with_reducible exact Keeps.refl _
    | (with_reducible apply Keeps.of_pair (by assumption))
    | (with_reducible apply Keeps.of_triple (by assumption))
    | (fail_if_no_progress with_reducible refine Keeps.record ?_ rfl rfl rfl rfl rfl rfl rfl)
    | (with_reducible apply Keeps.foldl_via; intro _ _)
    | (fail_if_no_progress dsimp -zeta +zetaDelta only)

theorem State.tickTimers_keeps (s : State) (m : MillId) :
    Keeps s (State.tickTimers s m) := by
  unfold State.tickTimers
  repeat' first
    | split
    | extract_lets
    | with_reducible apply Keeps.via (Keeps.onMill ..)
    | (with_reducible apply Keeps.of_ite <;> intro _)
    | with_reducible exact Keeps.refl _
    | (with_reducible apply Keeps.of_pair (by assumption))
    | (with_reducible apply Keeps.of_triple (by assumption))
    | (fail_if_no_progress with_reducible refine Keeps.record ?_ rfl rfl rfl rfl rfl rfl rfl)
    | (with_reducible apply Keeps.foldl_via; intro _ _)
    | (fail_if_no_progress dsimp -zeta +zetaDelta only)

theorem State.tickCtx_keeps (s : State) (m : MillId) (c : Ctx) :
    Keeps s (State.tickCtx s m c) := by
  unfold State.tickCtx
  repeat' first
    | split
    | extract_lets
    | with_reducible apply Keeps.via (State.logTrigger_keeps ..)
    | with_reducible apply Keeps.via (State.onCtx_keeps ..)
    | (with_reducible apply Keeps.of_ite <;> intro _)
    | with_reducible exact Keeps.refl _
    | (with_reducible apply Keeps.of_pair (by assumption))
    | (with_reducible apply Keeps.of_triple (by assumption))
    | (fail_if_no_progress with_reducible refine Keeps.record ?_ rfl rfl rfl rfl rfl rfl rfl)
    | (with_reducible apply Keeps.foldl_via; intro _ _)
    | (fail_if_no_progress dsimp -zeta +zetaDelta only)

theorem State.tickEnergy_keeps (s : State) (m : MillId) :
    Keeps s (State.tickEnergy s m) := by
  unfold State.tickEnergy
  repeat' first
    | split
    | extract_lets
    | with_reducible apply Keeps.via (Keeps.onPower ..)
    | with_reducible apply Keeps.via (State.tally_keeps ..)
    | (with_reducible apply Keeps.of_ite <;> intro _)
    | with_reducible exact Keeps.refl _
    | (with_reducible apply Keeps.of_pair (by assumption))
    | (with_reducible apply Keeps.of_triple (by assumption))
    | (fail_if_no_progress with_reducible refine Keeps.record ?_ rfl rfl rfl rfl rfl rfl rfl)
    | (with_reducible apply Keeps.foldl_via; intro _ _)
    | (fail_if_no_progress dsimp -zeta +zetaDelta only)

theorem State.tickTally_keeps (s : State) (p : Page) (k : ℕ) (on : Bool) :
    Keeps s (State.tickTally s p k on) := by
  unfold State.tickTally
  repeat' first
    | split
    | extract_lets
    | with_reducible apply Keeps.via (State.tally_keeps ..)
    | (with_reducible apply Keeps.of_ite <;> intro _)
    | with_reducible exact Keeps.refl _
    | (with_reducible apply Keeps.of_pair (by assumption))
    | (with_reducible apply Keeps.of_triple (by assumption))
    | (fail_if_no_progress with_reducible refine Keeps.record ?_ rfl rfl rfl rfl rfl rfl rfl)
    | (with_reducible apply Keeps.foldl_via; intro _ _)
    | (fail_if_no_progress dsimp -zeta +zetaDelta only)

theorem State.tickModule_keeps (s : State) :
    Keeps s (State.tickModule s) := by
  unfold State.tickModule
  repeat' first
    | split
    | extract_lets
    | with_reducible apply Keeps.via (State.tickTally_keeps ..)
    | (with_reducible apply Keeps.forAll_via; intro _ _)
    | (with_reducible apply Keeps.of_ite <;> intro _)
    | with_reducible exact Keeps.refl _
    | (with_reducible apply Keeps.of_pair (by assumption))
    | (with_reducible apply Keeps.of_triple (by assumption))
    | (fail_if_no_progress with_reducible refine Keeps.record ?_ rfl rfl rfl rfl rfl rfl rfl)
    | (with_reducible apply Keeps.foldl_via; intro _ _)
    | (fail_if_no_progress dsimp -zeta +zetaDelta only)

theorem State.tickTime_keeps (s : State) :
    Keeps s (State.tickTime s) := by
  unfold State.tickTime
  repeat' first
    | split
    | extract_lets
    | (with_reducible apply Keeps.of_ite <;> intro _)
    | with_reducible exact Keeps.refl _
    | (with_reducible apply Keeps.of_pair (by assumption))
    | (with_reducible apply Keeps.of_triple (by assumption))
    | (fail_if_no_progress with_reducible refine Keeps.record ?_ rfl rfl rfl rfl rfl rfl rfl)
    | (with_reducible apply Keeps.foldl_via; intro _ _)
    | (fail_if_no_progress dsimp -zeta +zetaDelta only)

theorem State.tickPond_keeps (s : State) :
    Keeps s (State.tickPond s) := by
  unfold State.tickPond
  repeat' first
    | split
    | extract_lets
    | with_reducible apply Keeps.via (State.onPond_keeps ..)
    | (with_reducible apply Keeps.of_ite <;> intro _)
    | with_reducible exact Keeps.refl _
    | (with_reducible apply Keeps.of_pair (by assumption))
    | (with_reducible apply Keeps.of_triple (by assumption))
    | (fail_if_no_progress with_reducible refine Keeps.record ?_ rfl rfl rfl rfl rfl rfl rfl)
    | (with_reducible apply Keeps.foldl_via; intro _ _)
    | (fail_if_no_progress dsimp -zeta +zetaDelta only)

theorem State.tickMill_keeps (s : State) (m : MillId) :
    Keeps s (State.tickMill s m) := by
  unfold State.tickMill
  repeat' first
    | split
    | extract_lets
    | with_reducible apply Keeps.via (State.tickEnergy_keeps ..)
    | with_reducible apply Keeps.via (State.tickTally_keeps ..)
    | (with_reducible apply Keeps.of_ite <;> intro _)
    | with_reducible exact Keeps.refl _
    | (with_reducible apply Keeps.of_pair (by assumption))
    | (with_reducible apply Keeps.of_triple (by assumption))
    | (fail_if_no_progress with_reducible refine Keeps.record ?_ rfl rfl rfl rfl rfl rfl rfl)
    | (with_reducible apply Keeps.foldl_via; intro _ _)
    | (fail_if_no_progress dsimp -zeta +zetaDelta only)

theorem tick_keeps (s : State) :
    Keeps s (tick s) := by
  unfold tick
  repeat' first
    | split
    | extract_lets
    | with_reducible apply Keeps.via (State.tickCtx_keeps ..)
    | with_reducible apply Keeps.via (State.tickMill_keeps ..)
    | with_reducible apply Keeps.via (State.tickModule_keeps ..)
    | with_reducible apply Keeps.via (State.tickPond_keeps ..)
    | with_reducible apply Keeps.via (State.tickTime_keeps ..)
    | with_reducible apply Keeps.via (State.tickTimers_keeps ..)
    | (with_reducible apply Keeps.of_ite <;> intro _)
    | with_reducible exact Keeps.refl _
    | (with_reducible apply Keeps.of_pair (by assumption))
    | (with_reducible apply Keeps.of_triple (by assumption))
    | (fail_if_no_progress with_reducible refine Keeps.record ?_ rfl rfl rfl rfl rfl rfl rfl)
    | (with_reducible apply Keeps.foldl_via; intro _ _)
    | (fail_if_no_progress dsimp -zeta +zetaDelta only)

end Sys2Proof.Machine
end

