-- ==== Sys2Proof/Laws/Rows.lean ====
section
/-! SUPPORT. The rows that are a write of an action register: each is its action, on a state that has counted the access. -/

namespace Sys2Proof.Machine

variable (s : State)

/-- A write of an action register that reaches it is its actions. -/
theorem State.regWrite_action (path : Path) (p : Page) (off : Nat) (x : WordAt) (v : W64) (ho : 0x100 ≤ off) (hlt : off < 0x1000)
    (h4 : off % 4 = 0) (ha : Accepts s path p) (hm : inMsix path p off = false) (hx : wordAt p off = some x)
    (hw : x.reg.wide = false) (h1 : (x.reg.flds.all fun f => f.acc == .ro || f.acc == .rc) = false)
    (hwo : ∀ f ∈ x.reg.flds, f.acc ≠ .rw) (hhi : x.hi = false) (w : W32) (hv : loWord v = w)
    (hmask : (w.zeroExtend 64).toNat &&& fieldsMask x.reg.flds (fun _ => true) = (w.zeroExtend 64).toNat)
    (hclaim : (s.countAccess path 5).needsClaim path p off = none)
    (hcustom : (s.countAccess path 5).writeCustom path p off w = none)
    (hgate : ∀ t : State, ∀ w : W32, t.gated path.code p off w = (w, t))
    (hstored : ∀ t : State, ∀ w : W32, t.stored p off w = t) :
    s.regWrite path (p.base + off) 32 v = (s.countAccess path 5).act path p off w (w.zeroExtend 64) := by
  rw [State.regWrite_word s path p off x v hlt h4 ha hm hx, hv]
  exact State.writeReg_action _ path p off x _ ho hw h1 hwo hmask hclaim hcustom (hgate _ _) hhi (hstored _ _)

/-! ## The actions of a page's register -/

variable (path : Path) (off : Nat) (w : W32) (v : W64)

theorem act_power (m : MillId) : s.act path (.power m) off w v = if off = 0x118 then s.millerResetWrite path m w else s := rfl
theorem act_stone (m : MillId) (n : Fin 24) :
    s.act path (.stone m n) off w v = if off = 0x110 then s.repairCtl m n (bitOf w 0) (bitOf w 1) else s := rfl
theorem act_ledger (m : MillId) :
    s.act path (.ledger m) off w v = if off = 0x180 ∧ bitOf w 0 = true then s.ledgerFlush m else s := rfl
theorem act_timer (m : MillId) (n : Fin 4) :
    s.act path (.timer m n) off w v = if off = 0x100 then s.setTimer m n.val (s.period m n) else s := rfl
theorem act_supplyCtl : s.act path .supply 0x10C w v = s.supplyCtl path w := rfl
theorem act_cmdCtl (m : MillId) : s.act path (.command m) 0x110 w v =
    (fun s => if bitOf w 1 then s.resetAsm path m else s) (if bitOf w 0 then s.cmdFlush m else s) := rfl
theorem act_cmdAbort (m : MillId) : s.act path (.command m) 0x10C w v = s.cmdAbort m w := rfl
theorem act_tlbInval (m : MillId) : s.act path (.sluice m) 0x118 w v =
    (fun s : State => if bitOf w 1 then s.tlbInval m (some (s.fld64 (.sluice m) 0x120 0 48 / pageSize)) else s)
      (if bitOf w 0 then s.tlbInval m none else s) := rfl
theorem act_pondCtl : s.act path .pond 0x104 w v = s.pondCtl w := rfl
theorem act_trustCtl : s.act path .trust 0x108 w v = s.trustCtl path w := rfl
theorem act_measCtl : s.act path .trust 0x320 w v = s.measCtl path w := rfl

theorem moduleReset_eq (p : Path) (ha : Accepts s p .supply) : moduleReset p s = (s.countAccess p 5).supplyCtl p 8 := by
  unfold moduleReset
  rw [State.regWrite_action s p .supply 0x10C _ _ (by decide) (by decide) (by decide) ha
    (by simp [inMsix]) rfl rfl (by decide) (by decide) rfl 8 rfl (by decide) rfl rfl (fun _ _ => rfl) (fun _ _ => rfl)]
  exact act_supplyCtl _ _ _ _

theorem powerOn_eq (p : Path) (ha : Accepts s p .supply) : powerOn p s = (s.countAccess p 5).supplyCtl p 2 := by
  unfold powerOn
  rw [State.regWrite_action s p .supply 0x10C _ _ (by decide) (by decide) (by decide) ha
    (by simp [inMsix]) rfl rfl (by decide) (by decide) rfl 2 rfl (by decide) rfl rfl (fun _ _ => rfl) (fun _ _ => rfl)]
  exact act_supplyCtl _ _ _ _

theorem powerDown_eq (p : Path) (ha : Accepts s p .supply) : powerDown p s = (s.countAccess p 5).supplyCtl p 4 := by
  unfold powerDown
  rw [State.regWrite_action s p .supply 0x10C _ _ (by decide) (by decide) (by decide) ha
    (by simp [inMsix]) rfl rfl (by decide) (by decide) rfl 4 rfl (by decide) rfl rfl (fun _ _ => rfl) (fun _ _ => rfl)]
  exact act_supplyCtl _ _ _ _

theorem releaseCap_eq (p : Path) (ha : Accepts s p .supply) : releaseCap p s = (s.countAccess p 5).supplyCtl p 1 := by
  unfold releaseCap
  rw [State.regWrite_action s p .supply 0x10C _ _ (by decide) (by decide) (by decide) ha
    (by simp [inMsix]) rfl rfl (by decide) (by decide) rfl 1 rfl (by decide) rfl rfl (fun _ _ => rfl) (fun _ _ => rfl)]
  exact act_supplyCtl _ _ _ _

theorem millerReset_eq (p : Path) (m : MillId) (ha : Accepts s p (.power m)) : millerReset p m s = (s.countAccess p 5).millerResetWrite p m 1 := by
  unfold millerReset
  rw [State.regWrite_action s p (.power m) 0x118 _ _ (by decide) (by decide) (by decide) ha
    (by simp [inMsix]) rfl rfl (by decide) (by decide) rfl 1 rfl (by decide) rfl rfl (fun _ _ => rfl) (fun _ _ => rfl)]
  rw [act_power, if_pos rfl]

theorem resetAsm_eq (p : Path) (m : MillId) (ha : Accepts s p (.command m)) : resetAsm p m s = (s.countAccess p 5).resetAsm p m := by
  unfold resetAsm
  rw [State.regWrite_action s p (.command m) 0x110 _ _ (by decide) (by decide) (by decide) ha
    (by simp [inMsix]) rfl rfl (by decide) (by decide) rfl 2 rfl (by decide) rfl rfl (fun _ _ => rfl) (fun _ _ => rfl)]
  rw [act_cmdCtl]; simp [bitOf, natBits]

theorem flush_eq (p : Path) (m : MillId) (ha : Accepts s p (.command m)) : flush p m s = (s.countAccess p 5).cmdFlush m := by
  unfold flush
  rw [State.regWrite_action s p (.command m) 0x110 _ _ (by decide) (by decide) (by decide) ha
    (by simp [inMsix]) rfl rfl (by decide) (by decide) rfl 1 rfl (by decide) rfl rfl (fun _ _ => rfl) (fun _ _ => rfl)]
  rw [act_cmdCtl]; simp [bitOf, natBits]

theorem apply_eq (p : Path) (m : MillId) (n : Fin 24) (ha : Accepts s p (.stone m n)) : apply p m n s = (s.countAccess p 5).repairCtl m n true false := by
  unfold apply
  rw [State.regWrite_action s p (.stone m n) 0x110 _ _ (by decide) (by decide) (by decide) ha
    (by simp [inMsix]) rfl rfl (by decide) (by decide) rfl 1 rfl (by decide) rfl rfl (fun _ _ => rfl) (fun _ _ => rfl)]
  rw [act_stone, if_pos rfl]; simp [bitOf, natBits]

theorem selftest_eq (p : Path) (m : MillId) (n : Fin 24) (ha : Accepts s p (.stone m n)) : selftest p m n s = (s.countAccess p 5).repairCtl m n false true := by
  unfold selftest
  rw [State.regWrite_action s p (.stone m n) 0x110 _ _ (by decide) (by decide) (by decide) ha
    (by simp [inMsix]) rfl rfl (by decide) (by decide) rfl 2 rfl (by decide) rfl rfl (fun _ _ => rfl) (fun _ _ => rfl)]
  rw [act_stone, if_pos rfl]; simp [bitOf, natBits]

theorem writeback_eq (p : Path) (m : MillId) (ha : Accepts s p (.ledger m)) : writeback p m s = (s.countAccess p 5).ledgerFlush m := by
  unfold writeback
  rw [State.regWrite_action s p (.ledger m) 0x180 _ _ (by decide) (by decide) (by decide) ha
    (by simp [inMsix]) rfl rfl (by decide) (by decide) rfl 1 rfl (by decide) rfl rfl (fun _ _ => rfl) (fun _ _ => rfl)]
  rw [act_ledger, if_pos (by decide)]

theorem tlbInvalAll_eq (p : Path) (m : MillId) (ha : Accepts s p (.sluice m)) : tlbInvalAll p m s = (s.countAccess p 5).tlbInval m none := by
  unfold tlbInvalAll
  rw [State.regWrite_action s p (.sluice m) 0x118 _ _ (by decide) (by decide) (by decide) ha
    (by simp [inMsix]) rfl rfl (by decide) (by decide) rfl 1 rfl (by decide) rfl rfl (fun _ _ => rfl) (fun _ _ => rfl)]
  rw [act_tlbInval]; simp [bitOf, natBits]

theorem tlbInvalPage_eq (p : Path) (m : MillId) (ha : Accepts s p (.sluice m)) : tlbInvalPage p m s = (s.countAccess p 5).tlbInval m (some ((s.countAccess p 5).fld64 (.sluice m) 0x120 0 48 / pageSize)) := by
  unfold tlbInvalPage
  rw [State.regWrite_action s p (.sluice m) 0x118 _ _ (by decide) (by decide) (by decide) ha
    (by simp [inMsix]) rfl rfl (by decide) (by decide) rfl 2 rfl (by decide) rfl rfl (fun _ _ => rfl) (fun _ _ => rfl)]
  rw [act_tlbInval]; simp [bitOf, natBits]

theorem take_eq (p : Path) (ha : Accepts s p .pond) : take p s = (s.countAccess p 5).pondTake := by
  unfold take
  rw [State.regWrite_action s p .pond 0x104 _ _ (by decide) (by decide) (by decide) ha
    (by simp [inMsix]) rfl rfl (by decide) (by decide) rfl 1 rfl (by decide) rfl rfl (fun _ _ => rfl) (fun _ _ => rfl)]
  rw [act_pondCtl]; simp [State.pondCtl, bitOf, natBits]

theorem pondAbort_eq (p : Path) (ha : Accepts s p .pond) : pondAbort p s = (s.countAccess p 5).pondAbort := by
  unfold pondAbort
  rw [State.regWrite_action s p .pond 0x104 _ _ (by decide) (by decide) (by decide) ha
    (by simp [inMsix]) rfl rfl (by decide) (by decide) rfl 2 rfl (by decide) rfl rfl (fun _ _ => rfl) (fun _ _ => rfl)]
  rw [act_pondCtl]; simp [State.pondCtl, bitOf, natBits]

theorem verifyInactive_eq (p : Path) (ha : Accepts s p .trust) : verifyInactive p s = (s.countAccess p 5).trustCtl p 1 := by
  unfold verifyInactive
  rw [State.regWrite_action s p .trust 0x108 _ _ (by decide) (by decide) (by decide) ha
    (by simp [inMsix]) rfl rfl (by decide) (by decide) rfl 1 rfl (by decide) rfl rfl (fun _ _ => rfl) (fun _ _ => rfl)]
  exact act_trustCtl _ _ _ _

theorem activate_eq (p : Path) (ha : Accepts s p .trust) : activate p s = (s.countAccess p 5).trustCtl p 2 := by
  unfold activate
  rw [State.regWrite_action s p .trust 0x108 _ _ (by decide) (by decide) (by decide) ha
    (by simp [inMsix]) rfl rfl (by decide) (by decide) rfl 2 rfl (by decide) rfl rfl (fun _ _ => rfl) (fun _ _ => rfl)]
  exact act_trustCtl _ _ _ _

theorem commitSvn_eq (p : Path) (ha : Accepts s p .trust) : commitSvn p s = (s.countAccess p 5).trustCtl p 4 := by
  unfold commitSvn
  rw [State.regWrite_action s p .trust 0x108 _ _ (by decide) (by decide) (by decide) ha
    (by simp [inMsix]) rfl rfl (by decide) (by decide) rfl 4 rfl (by decide) rfl rfl (fun _ _ => rfl) (fun _ _ => rfl)]
  exact act_trustCtl _ _ _ _

theorem quote_eq (p : Path) (ha : Accepts s p .trust) : quote p s = (s.countAccess p 5).trustCtl p 8 := by
  unfold quote
  rw [State.regWrite_action s p .trust 0x108 _ _ (by decide) (by decide) (by decide) ha
    (by simp [inMsix]) rfl rfl (by decide) (by decide) rfl 8 rfl (by decide) rfl rfl (fun _ _ => rfl) (fun _ _ => rfl)]
  exact act_trustCtl _ _ _ _

theorem rotate_eq (p : Path) (ha : Accepts s p .trust) : rotate p s = (s.countAccess p 5).trustCtl p 16 := by
  unfold rotate
  rw [State.regWrite_action s p .trust 0x108 _ _ (by decide) (by decide) (by decide) ha
    (by simp [inMsix]) rfl rfl (by decide) (by decide) rfl 16 rfl (by decide) rfl rfl (fun _ _ => rfl) (fun _ _ => rfl)]
  exact act_trustCtl _ _ _ _

end Sys2Proof.Machine
end

