-- ==== Sys2Proof/Tests/Slice0.lean ====
section
/-! SUPPORT. Tests: ill-formed commands refused, worked examples of the spec, and for each statement states and operands that
meet its hypotheses together. -/

namespace Sys2Proof.Tests

set_option Elab.async false

open Sys2Proof Sys2Proof.Machine

/-! ## Small states -/

/-- The start complete, nothing else touched. -/
def up : State := { State.reset with supply := { Supply.reset with stage := 9 } }
/-- The same with the PCI Express link up. -/
def linked : State := { up with host := { HostPort.reset with link := 2, width := 16, speed := 6, busMaster := true, msixEnable := true } }
/-- Mill 0 changed. -/
def on0 (s : State) (f : Mill → Mill) : State := { s with mill0 := f s.mill0 }
/-- The state a command answers. -/
def after (c : Instr) (s : State) : State := match exec c s with
  | .next t => t
  | .fault _ => s
  | .refused _ => s

/-! ## Well-formed commands -/

/-- A stage report of an empty module. -/
def report : StageReport :=
  { refCal := 0, railOk := true, failed := [], dimmSerials := List.replicate 16 0, pcieUp := true, pcieWidth := 16, pcieSpeed := 6, pcieFlit := true }

theorem test_wf_report : (Instr.startupStageDone report).wf = true := by decide
theorem test_wf_report_sockets : (Instr.startupStageDone { report with dimmSerials := [0] }).wf = false := by decide
theorem test_wf_report_units : ([⟨.stone, 48⟩, ⟨.stoneRow, 48 * 512⟩, ⟨.stoneRow, 261⟩, ⟨.vectorUnit, 24⟩, ⟨.miller, 2⟩, ⟨.hbm, 20⟩,
    ⟨.ddr, 16⟩, ⟨.leatPort, 24⟩, ⟨.shaft, 2⟩, ⟨.governorStage, 28⟩, ⟨.bolter, 2⟩, ⟨.module, 1⟩] : List UnitRef).all
      (fun u => !(Instr.startupStageDone { report with failed := [u] }).wf) = true := by decide
theorem test_wf_report_link : (Instr.startupStageDone { report with pcieWidth := 3 }).wf = false ∧
    (Instr.startupStageDone { report with pcieSpeed := 7 }).wf = false := by decide
theorem test_wf_link_width : (Instr.linkUp 12 6 true).wf = false := by decide
theorem test_wf_link_speed : (Instr.linkUp 16 0 true).wf = false := by decide
theorem test_wf_canary : (Instr.canaryMeasure .m0 [0]).wf = false := by decide
theorem test_wf_cmd_word : (Instr.cmdWord .pcie .m0 0x7FC 0).wf = false ∧ (Instr.cmdWord .pcie .m0 0x802 0).wf = false := by decide
theorem test_wf_selftest : (Instr.selftestDone .m0 0 [3, 3] false).wf = false := by decide
theorem test_wf_floor_link : (Instr.floorFlitHop .m0 7 5 .xUp).wf = false := by decide
theorem test_wf_flit_payload : (Instr.flitReceive 0 ⟨.flit 0 [0] 0, []⟩).wf = false := by decide
theorem test_wf_flit_corrected : (Instr.flitReceive 0 ⟨.flit 0 (List.replicate 512 0) 9, []⟩).wf = false := by decide +kernel
theorem test_wf_lanes : (Instr.portTrainDone 0 0 0).wf = false := by decide
theorem test_wf_frames : (Instr.read 2).wf = false ∧ (Instr.write 1).wf = false ∧ (Instr.result 1).wf = false ∧
    (Instr.enumerate 1 true).wf = false ∧ (Instr.forget 1).wf = false ∧ (Instr.poll 1).wf = false := by decide
theorem test_wf_reg64 : (Instr.reg64LowRead .pcie 0x1184).wf = false := by decide
theorem test_wf_register_width : (Instr.registerWrite .pcie 0x1000 16 0).wf = false ∧
    (Instr.registerReadRejected .pcie 0x1000 128).wf = false := by decide
theorem test_wf_register_align : (Instr.registerWrite .pcie 0x1002 32 0).wf = false ∧
    (Instr.registerReadRejected .pcie 0x1001 32).wf = false := by decide

/-! ## Worked examples -/

/-- The words of the worked example of chapter 13: a RUN of mill 0 with NEXT_SEQ 0x1A2B. -/
def exampleWords : List W32 :=
  [0x0000610A, 0x00001A2B, 0x00200000, 0, 0x00009C65, 0, 0x3D800000, 0, 0x3F800000, 0]
def exampleState : State := linked.setWord (.command .m0) 0x104 0x1A2B
def exampleWrites : List Instr := exampleWords.zipIdx.map fun x => .cmdWord .pcie .m0 (BitVec.ofNat 12 (0x800 + 4 * x.2)) x.1
def exampleCmd : Cmd :=
  { seq := 0x1A2B, kind := .run, spliced := false, pondPoint := true, notify := true, addr := 0x200000, length := 0,
    args := [40037, 0x3D800000, 0x3F800000] }

theorem test_example_command : (execAll exampleWrites exampleState).map (fun t => (t.mill0.cmd.queue, t.word (.command .m0) 0x104)) =
    some ([exampleCmd], 0x1A2C) := by decide
theorem test_example_words : exampleCmd.words = exampleWords := by decide
/-- Its status entry is entry 11, at offset 0x360. -/
theorem test_example_status : (exampleState.statusEntry .m0 exampleCmd .done).word (.command .m0) 0x360 = 0x1A2B := by decide
/-- Chapter 02: with row 100 disabled, logical rows 0 to 99 stay, 100 to 256 move up by one. -/
theorem test_example_row_map : (rowMap [100]).getD 99 0 = 99 ∧ (rowMap [100]).getD 100 0 = 101 ∧ (rowMap [100]).getD 255 0 = 256 ∧
    (rowMap [100]).getD 256 0 = 257 := by decide
/-- Chapter 08: the WB slot of b0. -/
theorem test_example_wait_slot : bitsOf (0x000004001F4205C0 : W64) 0 8 = 0xC0 ∧ wTctr (0x000004001F4205C0 : W64) = 5 ∧
    waitTimeoutNs (0x000004001F4205C0 : W64) = 2000000 := by decide
theorem test_no_bits : decodeTableWord 64 0 = none := by decide
/-! ## States and operands that meet the hypotheses of the statements, clause by clause -/

def atStage (k : Nat) : State := { State.reset with supply := { Supply.reset with stage := k } }
theorem accepts_up (p : Page) (h : up.pageLive p = true) : Accepts up .sys0 p := ⟨by decide, h, by decide⟩
theorem accepts_linked (p : Page) (h : linked.pageLive p = true) : Accepts linked .pcie p := ⟨by decide, h, by decide⟩

/-! ### Supply, start-up and resets -/

theorem witness_IslandPowerCyclesResetEveryPage : (atStage 0).supply.stage = 0 ∧ 4000 ≤ (4000 : BitVec 16).toNat ∧
    (5400 : BitVec 16).toNat ≤ 5400 ∧ (2999 : BitVec 16).toNat < 3000 := by decide

def hot : State := { up with supply := { up.supply with thermal := true, holdOff := true } }
theorem witness_InputAndJunctionLimitsRemoveCorePower :
    (up.supply.stage ≠ 0 ∧ inRange (3999 : BitVec 16).toNat = false ∧ inRange (5401 : BitVec 16).toNat = false ∧
      3000 ≤ (3999 : BitVec 16).toNat) ∧ 5600 < (5601 : BitVec 16).toNat ∧
    ((3799 : BitVec 16).toNat < 3800 ∧ 3000 ≤ (3000 : BitVec 16).toNat) ∧ 5 ≤ (atStage 5).supply.stage ∧
    (hot.supply.thermal = true ∧ inRange hot.supply.inputCv = true) ∧ (hot.supply.stage ≠ 0 ∧ hot.supply.holdOff = true) ∧
    (let s : State := { up with supply := { up.supply with inputCv := 3999 } }
     s.supply.stage ≠ 0 ∧ s.supply.holdOff = false ∧ inRange s.supply.inputCv = false) := by decide

def atStage4 : State := { atStage 4 with hoist := { Chain.reset with addr := 3 } }
def atStage5 : State := { atStage 5 with supply := { (atStage 5).supply with powerOn := true } }
theorem witness_StartupPassesItsStages :
    ((atStage 1).startHeld = false ∧ inRange (atStage 1).supply.inputCv = true) ∧ (atStage 2).startHeld = false ∧
    (atStage 3).startHeld = false ∧ (atStage4.startHeld = false ∧ atStage4.hoist.addr ≠ 0xFFF) ∧
    (atStage5.startHeld = false ∧ atStage5.supply.powerOn = true) ∧ (atStage 6).startHeld = false ∧
    ((atStage 7).startHeld = false ∧ (atStage 7).host.perst = false ∧ report.pcieUp = true) ∧
    (let s : State := { atStage 7 with host := { HostPort.reset with perst := true } }
     s.startHeld = false ∧ s.host.perst = true) ∧
    (atStage 8).startHeld = false := by decide +kernel

def busy : State := on0 up fun x => { x with cmd := { x.cmd with queue := [exampleCmd], running := true } }
theorem witness_SupplyControlWritesDoTheirActions : Accepts up .sys0 .supply ∧ (up.corePower = true ∧ up.noCommand = true) ∧
    (Accepts busy .sys0 .supply ∧ busy.noCommand = false) ∧ (Accepts up .sys0 (.power .m1) ∧ Path.sys0 = sysPath MillId.m1.other) ∧
    (Accepts up .sys1 (.power .m1) ∧ Path.sys1 ≠ .chain ∧ Path.sys1 ≠ sysPath MillId.m1.other) := by unfold Accepts; decide

theorem witness_MillerAndCorePowerResetTheirPages : (Page.stone .m1 23).island = false ∧ up.pageLive (.ikiug .m1) = true := by decide

def calm : State := { up with supply := { up.supply with samples := [0] } }
theorem witness_PowerBrakeFollowsTheSamples : (2 ≤ (atStage 2).supply.stage ∧ (atStage 2).injects .supply 1 = false) ∧
    (calm.corePower = true ∧ calm.supply.storm = false ∧ calm.supply.braking = false ∧ calm.meanW * 100 ≤ calm.inputLimit * 98) := by decide

def braked : State := ({ up with supply := { up.supply with ebrake := true } } : State).setWord (.power .m0) 0x10C 1000
def braked2 : State := braked.setWord (.power .m1) 0x10C 1000
theorem witness_EmergencyBrakeTripsAndReleases :
    (up.corePower = true ∧ up.injects .supply 2 = false ∧ up.trips (.power 4751) = true) ∧
    (braked2.supply.ebrake = true ∧ (89 : BitVec 11).toNat * 10 < braked2.fld (.power .m0) 0x10C 0 11 * 9 ∧
      (89 : BitVec 11).toNat * 10 < braked2.fld (.power .m1) 0x10C 0 11 * 9) := by decide

/-- Mill 0 with its voltage, cap and slowest canary. -/
def rail (vctl vcap canary : Nat) : State :=
  (on0 up fun x => { x with power := { x.power with vctl := vctl, vcap := vcap, canaryMin := canary } }).setWord (.power .m0) 0x100 1600
theorem witness_CoreVoltageFollowsTheCanaries :
    (up.pageLive (.power .m0) = true ∧ up.injects (.power .m0) 1 = false ∧ (List.replicate 32 (7 : BitVec 12)).length = 32) ∧
    (let s := rail 60 100 1599
     s.mill0.power.canaryMin < s.fld (.power .m0) 0x100 0 12 ∧ s.mill0.power.vctl < min (s.vmax .m0) s.mill0.power.vcap) ∧
    (let s := rail 60 60 1599
     s.mill0.power.canaryMin < s.fld (.power .m0) 0x100 0 12 ∧ min (s.vmax .m0) s.mill0.power.vcap = s.mill0.power.vctl) ∧
    (let s := rail 60 40 1599
     s.mill0.power.canaryMin < s.fld (.power .m0) 0x100 0 12 ∧ min (s.vmax .m0) s.mill0.power.vcap < s.mill0.power.vctl ∧
        s.vmin .m0 < s.mill0.power.vctl) ∧
    (let s := (rail 0 100 1600).setWord (.power .m0) 0x104 10
     s.fld (.power .m0) 0x100 0 12 ≤ s.mill0.power.canaryMin ∧ s.mill0.power.vctl < s.vmin .m0) ∧
    (let s := rail 60 100 1601
     s.fld (.power .m0) 0x100 0 12 < s.mill0.power.canaryMin ∧ s.vmin .m0 < s.mill0.power.vctl) ∧
    (let s := rail 60 100 1600
     s.fld (.power .m0) 0x100 0 12 = s.mill0.power.canaryMin ∧ s.vmin .m0 ≤ s.mill0.power.vctl ∧
        s.mill0.power.vctl ≤ min (s.vmax .m0) s.mill0.power.vcap) := by decide

def gated (l : List (Fin 24)) : State := on0 up fun x => { x with power := { x.power with gated := [23], ungating := l } }
theorem witness_StonesAreGatedAndUngated :
    (up.halted = false ∧ up.pageLive (.stone .m0 23) = true ∧ (23 : Fin 24) ∉ up.mill0.power.gated ∧ up.gateIdle .m0 23 = true) ∧
    ((gated [23]).halted = false ∧ (23 : Fin 24) ∈ (gated [23]).mill0.power.gated ∧ (23 : Fin 24) ∈ (gated [23]).mill0.power.ungating ∧
      ((gated [23]).stone .m0 23).outOfService = false) := by decide

def timed : State := on0 up fun x => { x with timers := [none, some 1, none, none] }
def lost : State := { up with refclk := { RefClock.reset with state := 1, cal := 16000 } }
def calibrated : State := { up with refclk := { RefClock.reset with cal := 16000 } }
theorem witness_TimersAndReferenceMonitor :
    ((timed.timerOf .m0 1).isSome = true ∧ timed.timeRuns = true ∧ timed.refHeld = false ∧ timed.pageLive (.timer .m0 1) = true ∧
      timed.injects (.timer .m0 1) 1 = false) ∧
    (2 ≤ (atStage 2).supply.stage ∧ (atStage 2).injects .clock 1 = false) ∧
    (3 ≤ calibrated.supply.stage ∧ calibrated.injects .clock 2 = false ∧
      (4 * (16 * ((1250 : BitVec 16).toNat : Int) - calibrated.refclk.cal) ≤ calibrated.refclk.cal ∧
        -(calibrated.refclk.cal : Int) ≤ 4 * (16 * ((750 : BitVec 16).toNat : Int) - calibrated.refclk.cal)) ∧
      (calibrated.refclk.cal : Int) < 4 * (16 * ((1251 : BitVec 16).toNat : Int) - calibrated.refclk.cal) ∧
      4 * (16 * ((749 : BitVec 16).toNat : Int) - calibrated.refclk.cal) < -(calibrated.refclk.cal : Int)) ∧
    (lost.refHeld = true ∧ lost.injects .clock 1 = false ∧ lost.refclk.expired = false) := by decide

/-! ### The link and the chutes -/

def inPerst : State := { up with host := { up.host with perst := true } }
theorem witness_LinkEventsTrainAndReset : 2 ≤ (atStage 2).supply.stage ∧ (up.host.perst = false ∧ up.supply.stage ≠ 0) ∧
    inPerst.host.perst = true ∧ linked.host.link = 2 ∧
    (up.host.link ≠ 2 ∧ up.host.perst = false ∧ up.refHeld = false ∧ 8 ≤ (atStage 8).supply.stage) := by decide

def sleeping : State := { linked with host := { linked.host with d3 := true, held := [.msix 3] } }
theorem witness_D3hotHoldsWhatTheDeviceSends :
    linked.host.link = 2 ∧ (sleeping.host.link = 2 ∧ sleeping.host.busMaster = true ∧ sleeping.host.d3 = true) := by decide

/-- A window of one word for the inbound chute, at the top of HBM4 or beyond it. -/
def chute (dest limit : W64) (buf : List (Nat × W32)) : State :=
  let s := (linked.setWord64 .host 0x180 dest).setWord64 .host 0x188 limit
  { s with host := { s.host with chuteBuf := buf } }
theorem witness_InboundChuteBuffersWords :
    (linked.host.link = 2 ∧ linked.host.d3 = false ∧ linked.host.chuteBuf.length < 262144 ∧ (14 : BitVec 4) ≠ 15 ∧
      linked.injects .host 2 = false) ∧
    (chute 0x1000 0x1000 []).fld64 .host 0x188 0 44 ≤ (chute 0x1000 0x1000 []).fld64 .host 0x180 0 44 ∧
    (let s := chute 0x14000000000 0x14000000004 []
     s.fld64 .host 0x180 0 44 < s.fld64 .host 0x188 0 44 ∧ s.inMem (s.fld64 .host 0x180 0 44) 4 = false) ∧
    (let s := chute 0x13FFFFFFFFC 0x14000000000 []
     s.fld64 .host 0x180 0 44 < s.fld64 .host 0x188 0 44 ∧ s.inMem (s.fld64 .host 0x180 0 44) 4 = true) ∧
    (Accepts linked .pcie .host ∧ linked.host.chuteBuf = [] ∧ (chute 0 0 [(0, 1)]).host.chuteBuf ≠ []) := by unfold Accepts; decide

def line64 (n : Nat) : List (Nat × W32) := (List.range n).map fun k => (4 * k, 1)
theorem witness_InboundGranulesAreTakenAndWritten :
    (let s := chute 0 0 (line64 16)
     s.halted = false ∧ s.refHeld = false ∧ chuteGranule s.host.chuteBuf = line64 16 ∧ 4 * (line64 16).length % 64 = 0 ∧
        (physPort 0).any (fun port => !s.portHeld port) = true) ∧
    (let s := chute 0 0 [(4, 1)]
     s.halted = false ∧ s.refHeld = false ∧ chuteGranule s.host.chuteBuf = [(4, 1)] ∧ (s.portWrite .m0 4 [(4, 4)]).1 = .ok ∧
        (({ s with codes := [.uncorrectable] } : State).portWrite .m0 4 [(4, 4)]).1 = .bad 0 false ∧
        (({ s with portsOff := (physPort 0).toList } : State).portWrite .m0 4 [(4, 4)]).1 = .wait) := by decide

def copying (n : Nat) (src len : W64) : State :=
  ((linked.putFld .host 0x1C0 2 3 n).setWord64 .host 0x1A0 src).setWord64 .host 0x1B0 len
theorem witness_ChuteControlsDoTheirActions :
    (Accepts linked .pcie .host ∧ (0x13FFFFFFFFC : W64).toNat < 2 ^ 44 ∧ (0x13FFFFFFFFC : W64).toNat % 4 = 0 ∧
      linked.inMem (0x13FFFFFFFFC : W64).toNat 4 = true) ∧
    (let s := copying 0 0 (2 ^ 40)
     Accepts s .pcie .host ∧ s.outState ≠ 1 ∧ s.fld64 .host 0x1B0 0 41 = 2 ^ 40 ∧ s.injects .host 3 = false) ∧
    (copying 1 0 4).outState = 1 ∧ (copying 0 0 0).fld64 .host 0x1B0 0 41 = 0 ∧ (copying 0 0 6).fld64 .host 0x1B0 0 41 % 4 ≠ 0 ∧
    2 ^ 40 < (copying 0 0 (2 ^ 40 + 4)).fld64 .host 0x1B0 0 41 ∧
    (let s := copying 1 0x13FFFFFFFFC 4
     s.outState = 1 ∧ s.host.link = 2 ∧ s.host.busMaster = true ∧ s.inMem (s.fld64 .host 0x1A0 0 44) (s.fld64 .host 0x1B0 0 41) = true) ∧
    (let s := copying 1 0x13FFFFFFFFC 8
     s.inMem (s.fld64 .host 0x1A0 0 44) (s.fld64 .host 0x1B0 0 41) = false) := by unfold Accepts; decide
/-! ### Commands -/

/-- Mill 0's command file with these commands pending, and whether the first runs. -/
def withCmds (s : State) (q : List Cmd) (running : Bool) : State :=
  on0 s fun x => { x with cmd := { x.cmd with queue := q, running := running } }
/-- Mill 0's miller changed. -/
def onMiller0 (s : State) (f : Miller → Miller) : State := on0 s fun x => { x with miller := f x.miller }
def plainRun : Cmd := { exampleCmd with pondPoint := false, notify := false, args := [] }
def plainLoad : Cmd := { plainRun with kind := .load, addr := 0, length := 512 }
def plainMark : Cmd := { plainRun with kind := .mark, addr := 0 }
def image0 : Image := { entry := 0, pages := [], sects := [], layout := 0, gdesc := 0, layer := 0, bdesc := 0 }

theorem witness_CommandWordsBuildAnAssembly :
    (Accepts linked .pcie (.command .m0) ∧ 0x800 ≤ (0xFFC : BitVec 12).toNat ∧ (0xFFC : BitVec 12).toNat % 4 = 0 ∧
      (linked.mill0.cmd.asm .pcie).refused = false ∧ (linked.mill0.cmd.asm .pcie).words = [] ∧ headerOk 0 = false) ∧
    (let a : Assembly := { words := [], refused := true }
     let s := on0 linked fun x => { x with cmd := { x.cmd with asmPcie := a } }
     Accepts s .pcie (.command .m0) ∧ (s.mill0.cmd.asm .pcie).refused = true) ∧
    (headerOk 0x0000610A = true ∧ ([0x0000610A] : List W32).length < bitsOf (0x0000610A : W32) 0 8) ∧
    (let s := on0 linked fun x => { x with cmd := { x.cmd with asmPcie := { words := [0x302], refused := false } } }
     Accepts s .pcie (.command .m0) ∧ (s.mill0.cmd.asm .pcie).words ≠ [] ∧ bitsOf (0x302 : W32) 0 8 ≤ ([0x302, 0] : List W32).length) := by
  unfold Accepts; decide

theorem witness_WordsOfACommandMakeItPending : Accepts exampleState .pcie (.command .m0) ∧
    (exampleCmd.args.length ≤ 8 ∧ (exampleCmd.kind ≠ .run → exampleCmd.spliced = false ∧ exampleCmd.pondPoint = false ∧
      exampleCmd.args = []) ∧ (exampleCmd.kind ≠ .load → exampleCmd.length = 0) ∧ (exampleCmd.kind = .mark → exampleCmd.addr = 0)) ∧
    (exampleState.mill0.cmd.asm .pcie) = .reset ∧ exampleCmd.seq = exampleState.word (.command .m0) 0x104 ∧
    exampleState.mill0.cmd.queue.length < 16 ∧ exampleState.injects (.command .m0) 1 = false ∧ exampleState.host.chuteBuf = [] ∧
    exampleState.mill0.cmd.held = [] := by unfold Accepts; decide

def splicedRun : Cmd := { plainRun with spliced := true }
def bothHeads (c d : Cmd) : State :=
  let s := withCmds up [c] false
  { s with mill1 := { s.mill1 with cmd := { s.mill1.cmd with queue := [d] } } }
theorem witness_CommandsStart :
    (let s := on0 (withCmds up [plainRun] false) fun x => { x with image := some image0 }
     s.headCmd .m0 = some plainRun ∧ plainRun.kind = .run ∧ s.canStart .m0 = true ∧ plainRun.spliced = false ∧
      s.mill0.image = some image0 ∧ bitsOf plainRun.addr 0 6 = 0) ∧
    (let s := withCmds up [plainRun] false
     s.headCmd .m0 = some plainRun ∧ s.canStart .m0 = true ∧ s.mill0.image = none) ∧
    ([0, 1, 2, 3, 4, 5, 6, 7] : List W64).length ≤ 8 ∧
    (let s := withCmds up [splicedRun] false
     s.headCmd .m0 = some splicedRun ∧ s.canStart .m0 = true ∧ splicedRun.spliced = true ∧ s.headCmd .m1 = none) ∧
    (let s := bothHeads splicedRun plainRun
     s.headCmd .m1 = some plainRun ∧ plainRun.spliced = false) ∧
    (let s := bothHeads splicedRun { splicedRun with seq := 1 }
     s.canStart .m0 = true ∧ s.mill1.cmd.running = false ∧ ({ splicedRun with seq := 1 } : Cmd).seq ≠ splicedRun.seq) ∧
    (let s := bothHeads splicedRun splicedRun
     s.canStart .m0 = true ∧ s.mill1.cmd.running = false ∧ s.canStart .m1 = true) ∧
    (let s := bothHeads splicedRun splicedRun
     let s := { s with mill1 := { s.mill1 with miller := { s.mill1.miller with ending := some .done } } }
     s.canStart .m0 = true ∧ s.canStart .m1 = false) ∧
    (let s := withCmds up [plainMark] false
     s.headCmd .m0 = some plainMark ∧ s.canStart .m0 = true ∧ plainMark.kind = .mark) ∧
    (let s := withCmds up [plainLoad] false
     s.headCmd .m0 = some plainLoad ∧ s.canStart .m0 = true ∧ plainLoad.kind = .load) := by decide

/-- The port of an address accepts nothing. -/
def portOff (a : Nat) (s : State) : State := { s with portsOff := (physPort a).toList }
theorem witness_LoadsReadAnImageOrWait :
    let u (s : State) : State := (s.beginCmd .m0 plainLoad).clearMeas 3
    (u (portOff 0 (withCmds up [plainLoad] false))).loadImage .m0 plainLoad.addr.toNat plainLoad.length.toNat = none ∧
    ∃ st t, (u (withCmds up [plainLoad] false)).loadImage .m0 plainLoad.addr.toNat plainLoad.length.toNat = some (st, t) :=
  ⟨by decide +kernel, _, _, rfl⟩

def ending : State := onMiller0 (withCmds up [plainRun] true) fun x => { x with ending := some .done }
theorem witness_CommandsCompleteWithTheirStatus : ending.halted = false ∧ ending.running .m0 = some plainRun ∧
    (∀ k ∈ (ending.commandMills .m0).filter fun k => (ending.running k).isSome, ending.partOver k = true) ∧
    ending.commandMills .m0 ≠ [] ∧ ending.mill0.miller.spliced = false := by decide

theorem witness_AbortAndFlushEndCommands :
    (let s := withCmds up [plainRun] true
     Accepts s .sys0 (.command .m0) ∧ s.running .m0 = some plainRun ∧ s.mill0.miller.ending = none ∧ MillId.m0 ∈ s.commandMills .m0) ∧
    (Accepts up .sys0 (.command .m0) ∧ up.running .m0 = none ∧ up.mill0.cmd.queue = []) ∧
    (let s := withCmds up [plainRun, plainMark] true
     Accepts s .sys0 (.command .m0) ∧ s.mill0.cmd.queue.drop 1 ≠ [] ∧ s.mill0.cmd.running = true) ∧
    (let s := withCmds up [plainRun] false
     Accepts s .sys0 (.command .m0) ∧ s.mill0.cmd.queue ≠ [] ∧ s.mill0.cmd.running = false) := by unfold Accepts; decide

def aFault (k : FaultKind) (system : Bool) : FaultInfo :=
  { kind := k, system := system, page := .ikiug .m0, cause := 1, res := 0, opnd := 0, pc := 0, slot := 0, issue := false, injected := false }
def replayFault : FaultInfo := aFault (.replayable 5 ⟨.miller, 0⟩) false
/-- Mill 0 runs a command, with faults found and one that waits for replay. -/
def faulting (fs : List FaultInfo) (r : Option FaultInfo) (barred : Bool) (run : Nat) : State :=
  onMiller0 (withCmds up [plainRun] true) fun x => { x with st := .running, faults := fs, replay := r, barred := barred, run := run }
/-- A stone of mill 0 waits to be retired. -/
def retiring (s : State) : State := { s with nv := { s.nv with retired := [(1, 3)] } }
theorem witness_FaultsStopAndReplayRestarts :
    ((faulting [aFault .contract true] none false 0).halted = false ∧ (aFault .contract true).system = true) ∧
    (let s := faulting [replayFault] none false 0
     (s.running .m0).isSome = true ∧ s.mill0.miller.ending = none ∧ s.mill0.miller.replay = none ∧ replayFault.system = false) ∧
    ((aFault .contract false).kind = .contract ∧ (aFault .command false).kind = .command) ∧
    (let s := faulting [] (some replayFault) true 0
     s.halted = false ∧ s.mill0.miller.replay = some replayFault ∧ s.mill0.miller.replaying = false ∧
      (s.commandMills .m0).any (fun k => (s.mill k).miller.barred) = true) ∧
    (let s := faulting [] (some replayFault) false 3
     (s.commandMills .m0).any (fun k => (s.mill k).miller.barred) = false ∧ s.bindsRetired .m0 replayFault = false ∧
      s.fld (.toll .m0) 0x114 0 2 ≤ s.mill0.miller.run) ∧
    (let s := (faulting [] (some replayFault) false 0).setWord (.toll .m0) 0x114 1
     s.bindsRetired .m0 replayFault = false ∧ s.mill0.miller.run < s.fld (.toll .m0) 0x114 0 2) ∧
    (let s := onMiller0 (faulting [] (some replayFault) false 0) fun x => { x with replaying := true }
     s.halted = false ∧ (∀ k ∈ s.commandMills .m0, s.droppedInFlight k = false) ∧ MillId.m0 ∈ s.commandMills .m0 ∧
      s.running .m0 = some plainRun) := by decide

/-! ### The millers -/

/-- Mill 0's user context runs a command and holds a fetched bundle. -/
def issuing (b : Bundle) (k : Context) : State :=
  onMiller0 (withCmds up [plainRun] true) fun x => { x with st := .running, user := { k with fetched := some b.bits } }
def noBundle : Bundle := { hdr := 0, s0 := 0, s1 := 0, v := 0, rc := 0, sl := 0, gb := 0, wb := 0, imm := 0 }
/-- A bundle of one scalar slot, and one of one wait or branch slot. -/
def scalar (w : W64) : Bundle := { noBundle with hdr := 0x101, s0 := w }
def branch (w : W64) : Bundle := { noBundle with hdr := 0x140, wb := w }

/-- Mill 0 maps page 0 to the frame at 0. -/
def mapped0 (s : State) : State := on0 s fun x =>
  { x with sluice := { x.sluice with tlb := [{ vpage := 0, frame := 0, write := true, wp := false, dirty := true }] } }
theorem witness_BundlesAreFetched :
    (let s := faulting [] none false 0
     s.halted = false ∧ s.refHeld = false ∧ s.active .m0 .user = true ∧ (s.ctx .m0 .user).fetched = none ∧
      s.injects (.ikiug .m0) 3 = false ∧ 
      ((s.tally (.ikiug .m0) 9 1).translate .m0 (s.ctx .m0 .user).pc.toNat false).1 = .err 1 ∧
      (((portOff 0 s).tally (.ikiug .m0) 9 1).translate .m0 (s.ctx .m0 .user).pc.toNat false).1 = .wait) ∧
    (let s := mapped0 (faulting [] none false 0)
     let u := (s.tally (.ikiug .m0) 9 1).translate .m0 (s.ctx .m0 .user).pc.toNat false
     u.1 = .ok 0 ∧ (u.2.portRead .m0 0 64).1 = .ok ∧ ((portOff 0 u.2).portRead .m0 0 64).1 = .wait ∧
      (({ u.2 with codes := [.uncorrectable] } : State).portRead .m0 0 64).1 = .bad 0 false) ∧
    (up.halted = false ∧ up.pageLive (.ikiug .m0) = true ∧ (up.ctx .m0 .system).fetched = none ∧ up.mill0.miller.sysEvents = []) ∧
    (let s := onMiller0 up fun x => { x with sysEvents := [{ pageId := 0, bit := 0, nmi := false }] }
     s.mill0.miller.sysEvents = [{ pageId := 0, bit := 0, nmi := false }]) :=
  by decide +kernel

theorem witness_FaultyBundlesTakeNoEffect :
    let s := issuing (scalar 0xFF) .reset
    s.halted = false ∧ s.active .m0 .user = true ∧ (s.ctx .m0 .user).fetched = some (scalar 0xFF).bits ∧ s.injArmed (.ikiug .m0) = false ∧
      s.pageLive (.ikiug .m0) = true ∧ s.bundleFault .m0 .user (s.ctx .m0 .user) (parseBundle (scalar 0xFF).bits) = some (0, .encoding) ∧
      s.mill0.bolter.ops = [] ∧ s.mill0.governor.opened = [] ∧ s.bit (.ikiug .m0) 0x144 31 = false := by decide

/-- What State.Issues says, for a bundle of the user context of mill 0. -/
theorem issues_of (b : Bundle) (k : Context) (h : (issuing b k).halted = false ∧ (issuing b k).active .m0 .user = true ∧
    parseBundle b.bits = b ∧ (issuing b k).bundleFault .m0 .user ((issuing b k).ctx .m0 .user) b = none ∧
    (issuing b k).holdOf .m0 .user b = none ∧ (issuing b k).bundleSampled .m0 .user = false ∧
    (issuing b k).injArmed (.ikiug .m0) = false) : (issuing b k).Issues .m0 .user b :=
  ⟨h.1, h.2.1, ⟨_, rfl, h.2.2.1⟩, h.2.2.2⟩
def addBundle : Bundle := scalar 0x0000000700802101
def ldBundle : Bundle := scalar 0x0000000001000128
def stBundle : Bundle := scalar 0x0000000001000129
def hopperReg : Context := { Context.reset with a := [(0, 0x1000000017000000)] }
theorem witness_ScalarAndHopperOperations :
    ((issuing addBundle .reset).Issues .m0 .user addBundle ∧ addBundle.only 0 ∧ cOp addBundle.s0 = 1) ∧
    ((issuing (scalar 0x20) .reset).Issues .m0 .user (scalar 0x20) ∧ (issuing (scalar 0x121) .reset).Issues .m0 .user (scalar 0x121) ∧
      (issuing (scalar 0x122) .reset).Issues .m0 .user (scalar 0x122) ∧ (issuing (scalar 0x2016) .reset).Issues .m0 .user (scalar 0x2016)) ∧
    ((issuing ldBundle hopperReg).Issues .m0 .user ldBundle ∧ (issuing stBundle hopperReg).Issues .m0 .user stBundle ∧ ldBundle.only 0 ∧
      spaceOf (scalarAddr hopperReg ldBundle.s0 ldBundle.imm).toNat = 1 ∧ (issuing ldBundle hopperReg).injects (.floor .m0 0) 2 = false ∧
      (issuing ldBundle hopperReg).regionBusy .m0 true false (hopperKey .m0 23 0) 8 = false ∧
      (issuing stBundle hopperReg).regionBusy .m0 false false (hopperKey .m0 23 0) 8 = false) := by
  refine ⟨⟨issues_of _ _ ?_, ?_, ?_⟩, ⟨issues_of _ _ ?_, issues_of _ _ ?_, issues_of _ _ ?_, issues_of _ _ ?_⟩,
    ⟨issues_of _ _ ?_, issues_of _ _ ?_, ?_, ?_⟩⟩ <;> (try unfold Bundle.only) <;> decide

theorem witness_WaitAndBranchSlotsMoveThePc :
    ∀ w ∈ ([0xD0, 0x00010000000020D1, 0x01D2, 0xD3, 0xC0, 0x1C4, 0xDF, 0x20C8] : List W64),
      (issuing (branch w) .reset).Issues .m0 .user (branch w) ∧ (branch w).only 6 := by
  intro w hw
  simp only [List.mem_cons, List.not_mem_nil, or_false] at hw
  rcases hw with rfl | rfl | rfl | rfl | rfl | rfl | rfl | rfl <;>
    refine ⟨issues_of _ _ ?_, ?_⟩ <;> (try unfold Bundle.only) <;> decide

theorem witness_RemoteTpostIssues :
    let s := onMiller0 (issuing (branch 0x30C8) .reset) fun x => { x with spliced := true }
    s.Issues .m0 .user (branch 0x30C8) ∧ bitOf (branch 0x30C8).wb 12 = true :=
  ⟨⟨by decide, by decide, ⟨_, rfl, by decide⟩, by decide, by decide, by decide, by decide⟩, by decide⟩

def waitBundle : Bundle := { branch 0x200C0 with imm := 1 }
theorem witness_WaitsHoldUntilTokensOrTimeout :
    (let s := issuing waitBundle .reset
     s.halted = false ∧ s.active .m0 .user = true ∧ s.injArmed (.ikiug .m0) = false ∧ (s.ctx .m0 .user).fetched = some waitBundle.bits ∧
      (s.ctx .m0 .user).waitOn = none ∧ s.bundleFault .m0 .user (s.ctx .m0 .user) (parseBundle waitBundle.bits) = none ∧
      (parseBundle waitBundle.bits).wbOp = some 0xC0 ∧ waitHolds 0 (waitTarget Context.reset waitBundle.wb waitBundle.imm) = false) ∧
    (let s := issuing waitBundle { Context.reset with waitOn := some (0, 1, 1000) }
     s.refHeld = false ∧ (s.ctx .m0 .user).timedWait = some (waitBundle, 0, 1) ∧ waitHolds 0 1 = false ∧ bitOf waitBundle.wb 42 = false) ∧
    (let b := { branch 0x400000200C0 with imm := 1 }
     let s := issuing b { Context.reset with waitOn := some (0, 1, 1000) }
     s.active .m0 .user = true ∧ (s.ctx .m0 .user).timedWait = some (b, 0, 1) ∧ bitOf b.wb 42 = true) ∧
    (let s := on0 up fun x => { x with shaft := [.post .user 15 65535] }
     s.halted = false ∧ s.mill0.shaft = [.post .user 15 65535] ∧ s.raceCrossing .m0 = false) := by decide

/-- VSTG on unit 0 from element `e` of line 0. -/
def vecStg (e : W64) : VecOp := { slot := 0x1000000062, imm := 0, sb := 0, sc := e, ax := 0, pc := 0 }
def vecAdd : VecOp := { slot := 0x40, imm := 0, sb := 0, sc := 0, ax := 0, pc := 0 }
theorem witness_VectorOperationsComplete :
    (let s := onMiller0 up fun x => { x with vecQ := [vecAdd] }
     s.halted = false ∧ s.mill0.miller.vecQ = [vecAdd] ∧ vOp vecAdd.slot = 0x40 ∧ vEtype vecAdd.slot ≤ 2 ∧
      ∃ t, s.vecUnits .m0 vecAdd 0 true (vUnits vecAdd.slot) = .ok t) ∧
    (let s := onMiller0 up fun x => { x with vecQ := [vecStg 1] }
     ∃ t, s.vecUnits .m0 (vecStg 1) 0 true (vUnits (vecStg 1).slot) = .fault t) ∧
    (let s := onMiller0 (portOff 0 (mapped0 (on0 up fun x => { x with image := some image0 }))) fun x => { x with vecQ := [vecStg 0] }
     ∃ page, s.vecUnits .m0 (vecStg 0) 0 true (vUnits (vecStg 0).slot) = .wait page) :=
  ⟨⟨by decide, by decide, by decide, by decide, _, rfl⟩, ⟨_, rfl⟩, ⟨_, rfl⟩⟩
/-! ### Log and tensor watch -/

theorem witness_LogsAndWatchesRecord :
    (let s := (issuing waitBundle .reset).setWord (.log .m0) 0x100 0x10001
     s.logsCtx .m0 .user = true ∧ s.isHeld .m0 .user = true ∧ s.fld (.log .m0) 0x100 16 16 ≠ 0 ∧ s.logState .m0 = .running) ∧
    (let s := on0 (up.setWord (.log .m0) 0x100 1) fun x => { x with log := { x.log with st := .armed, trigNow := true } }
     s.logState .m0 = .armed ∧ s.mill0.log.trigNow = true ∧ s.pageLive (.log .m0) = true) ∧
    (let s := up.setWord (.log .m0) 0x114 8191
     Accepts s .sys0 (.log .m0) ∧ s.mill0.log.st ≠ .post ∧ s.bit (.log .m0) 0x100 7 = false ∧ s.fld (.log .m0) 0x114 0 24 ≤ 8191) ∧
    8191 < (up.setWord (.log .m0) 0x114 8192).fld (.log .m0) 0x114 0 24 ∧
    (let s := on0 up fun x => { x with log := { x.log with st := .post } }
     Accepts s .sys0 (.log .m0) ∧ s.mill0.log.st = .post) ∧
    ((up.setWord (.log .m0) 0x104 5).trigKind .m0 = 5 ∧ up.trigKind .m0 ≠ 5 ∧ Accepts up .sys0 (.watch .m0)) ∧
    (let s := on0 up fun x => { x with watch := List.replicate 16 { WatchPoint.reset with openW := true } }
     (s.watchPoint .m0 15).openW = true ∧ 15 < 16) := by unfold Accepts; decide

/-! ### Stones -/

/-- A race operation of mill 0 with its slot and number. -/
def raceOp (id : Nat) (slot : W64) : RaceOp :=
  { id := id, system := false, slot := slot, imm := 0, ax := 0x1000000000000000, ay := 0, pc := 0, prog := 0, parts := [], data := [],
    brefs := [], done := false, failed := false }
/-- A state with these race operations and bindings on mill 0, and stone 0 changed. -/
def racing (ops : List RaceOp) (binds : List (Nat × Binding)) (f : Stone → Stone) : State :=
  (on0 up fun x => { x with race := { x.race with ops := ops, binds := binds } }).onStone .m0 0 f
/-- A primed E4M3 tensor of one line of 256 elements: descriptor 0, at virtual address 0. -/
def withTensor (s : State) : State :=
  let s := on0 s fun x =>
    { x with sluice := { x.sluice with tlb := [{ vpage := 0, frame := 0x200000, write := true, wp := false, dirty := true }] } }
  { s with mem := [(0x200004, 16), (0x200008, 1), (0x20000D, 1)] }
/-- What a governor's computation comes to: 0 a result, 1 a stop, 2 a wait. -/
def comes {α : Type} : GovRes α → Nat
  | .ok _ _ => 0
  | .stop _ _ => 1
  | .hold => 2
def loadOp0 : RaceOp := raceOp 0 0x1000000081
def consumer0 : Binding := { role := .consumer, stream := 0, replay := 1, tfeed := false }
def tile0 : Tile :=
  { op := 1, fmt := .e4m3, handle := 0, line := 0, bref := none, primed := true, swap := true, shift := true, srcs := [],
    waves := [(0, [(0, 0)])] }
def bed (t : Tile) (f : Stone → Stone) : State := racing [raceOp 1 0x83] [(0, consumer0)] fun x => f { x with feed := some t }
def row0 : StatRow :=
  { fmt := .e4m3, handle := 0, line := 0, folded := false, primed := true, edge := 0, elems := [], flips := [], hHit := false }
def loadRead (s : State) : Nat := comes (s.govRun (loaderAt .m0 0 0 false) 0 (loadRow (loaderAt .m0 0 0 false) loadOp0 (loadOp0.block .m0) 0))

theorem witness_ShadowSetsLoadSwapAndShift :
    (let s := racing [loadOp0] [] fun x => { x with shadow := { x.shadow with rows := [(0, row0)] } }
     s.stoneReady .m0 0 = true ∧ s.loadOp .m0 0 = some loadOp0 ∧ s.loadable .m0 0 loadOp0 = true ∧ loadOp0.shiftRow = false ∧
      (s.stone .m0 0).shadow.written 0 = true) ∧
    (let s := racing [loadOp0] [] id
     s.stoneReady .m0 0 = true ∧ s.loadOp .m0 0 = some loadOp0 ∧ s.loadable .m0 0 loadOp0 = true ∧
      (s.stone .m0 0).shadow.written 0 = false ∧ loadRead s = 1 ∧ loadRead (withTensor s) = 0 ∧
      loadRead (portOff 0x200000 (withTensor s)) = 2) ∧
    (let s := bed tile0 id
     s.stoneReady .m0 0 = true ∧ (s.stone .m0 0).clear = true ∧ s.feederHeld .m0 0 = false ∧ s.swapPending .m0 0 = some (.tile tile0 0) ∧
      (s.stone .m0 0).loading = false ∧ s.loadOp .m0 0 = none ∧ s.injArmed (.stone .m0 0) = false) ∧
    (let s := bed tile0 fun x => { x with swapped := some (1, 0) }
     s.swapPending .m0 0 = none ∧ s.shiftPending .m0 0 = some (.tile tile0 0) ∧ s.workOp .m0 (.tile tile0 0) = some (raceOp 1 0x83) ∧
      s.loadOp .m0 0 = none ∧ s.mill0.governor.compat = false ∧ (s.stone .m0 0).active.rows = []) ∧
    (let s := bed { tile0 with fmt := .bf16 } fun x => { x with swapped := some (1, 0) }
     s.shiftPending .m0 0 = some (.tile { tile0 with fmt := .bf16 } 0) ∧ s.workOp .m0 (.tile { tile0 with fmt := .bf16 } 0) = some (raceOp 1 0x83)) ∧
    (let s := bed tile0 fun x => { x with swapped := some (1, 0), shadow := { x.shadow with staged := some row0 } }
     s.shiftPending .m0 0 = some (.tile tile0 0) ∧ (s.stone .m0 0).shadow.staged ≠ none) := by decide +kernel

/-- A tile with nothing to swap or shift, and a plan of one injection. -/
def tile1 : Tile := { tile0 with swap := false, shift := false }
def passing (t : Tile) (plan : BitVec 24) (b : Bank) : State := bed t fun x => { x with plan := plan, bank0 := b }
/-- The pass may begin, the use of its bank decided. -/
def begins (s : State) (w : Work) (o : RaceOp) : Bool :=
  s.stoneReady .m0 0 && (s.stone .m0 0).clear && !s.feederHeld .m0 0 && (s.swapPending .m0 0).isNone && (s.shiftPending .m0 0).isNone
    && s.stoneWork .m0 0 == some w && s.workOp .m0 w == some o
/-- A scatter tile of descriptor 0. -/
def scatterOp : RaceOp := raceOp 1 0x86
def scattering : State := racing [scatterOp] [(0, { consumer0 with role := .scatter })] id
/-- A bank with one word of row 0. -/
def oneWord (st : BankState) : Bank := { st := st, words := [(0, 1, 0)], toll := false }
def usedIn (mode : Mode) (s : State) (u : BankUse) : Prop :=
  begins s (.tile tile1 0) (raceOp 1 0x83) = true ∧ s.planOf .m0 0 (.tile tile1 0) = (0, mode) ∧ s.modeUse .m0 0 0 mode = u
theorem witness_PassesBegin :
    usedIn .first (passing tile1 0 .reset) .use ∧ usedIn .add (passing tile1 2 (oneWord .accumulating)) .use ∧
    usedIn .carry (passing tile1 4 .reset) .use ∧ usedIn .carryBank (passing tile1 6 (oneWord .accumulating)) .use ∧
    usedIn .first (passing tile1 0 { oneWord .draining with toll := true }) .wait ∧ usedIn .add (passing tile1 2 .reset) (.fault 4) ∧
    usedIn .add (passing tile1 2 (oneWord .invalid)) (.fault 5) ∧
    (∀ t u, (passing tile1 0 .reset).streamed .m0 0 (.tile tile1 0) = .ok t u → passKind [] t false false = .ok .fp) := by
  refine ⟨?_, ?_, ?_, ?_, ?_, ?_, ?_, ?_⟩
  iterate 7 unfold usedIn; decide +kernel
  intro t u h
  cases h
  decide
theorem witness_PassesReadTheirOperands : begins scattering (.scatter scatterOp) scatterOp = true ∧
    scattering.planOf .m0 0 (.scatter scatterOp) = (0, .first) ∧ scattering.modeUse .m0 0 0 .first = .use ∧
    comes (scattering.streamed .m0 0 (.scatter scatterOp)) = 1 ∧
    comes ((portOff 0x200000 (withTensor scattering)).streamed .m0 0 (.scatter scatterOp)) = 2 := by decide +kernel
theorem witness_PassesReadTheirBank :
    (let s := passing tile1 2 (oneWord .accumulating)
     (({ s with codes := [.uncorrectable] } : State).bankRead .m0 0 0 (raceOp 1 0x83)).1 = true ∧ (s.bankRead .m0 0 0 (raceOp 1 0x83)).1 = false) := by
  decide +kernel
def stream0 (f : Fmt) : Streamed := { fmt := f, primed := true, folded := false, handle := 0, line := 0, waves := [], srcs := [] }
theorem witness_PassKinds : passKind [row0] (stream0 .int8) false false = .stone 1 16 ∧ passKind [row0] (stream0 .fp4) false true = .gov 8 0 0 := by
  decide
theorem witness_PassesUseTheirBankByTheirMode :
    (([(256 * 255 + 255, 1, 0)] : List BankWord).map (·.1)).Nodup ∧
    (256 * 255 + 255, (1 : W32), (0 : Int)) ∈ ([(256 * 255 + 255, 1, 0)] : List BankWord) ∧
    (oneWord .accumulating).word? 0 0 = some (1, 0) ∧ (oneWord .accumulating).word? 255 255 = none ∧
    (∀ x ∈ ([(256 * 255 + 255, 1, 0)] : List BankWord), x.1 ≠ 256 * 0 + 0) ∧
    (let p : StonePass := { op := 1, bank := some 0, frees := true, checks := [], carry := [], count := 0 }
     p.frees = true ∧ p.bank = some 0) := by decide +kernel

def check0 (d : Machine.Num) : WfCheck :=
  { wf := 0, int8 := false, compat := false, ones := false, onesBad := none, d := d, c := .zero false, s := .zero false, opdig := 0, injected := false }
def pass0 (cs : List WfCheck) : StonePass := { op := 1, bank := some 0, frees := false, checks := cs, carry := [], count := 0 }
theorem witness_WavefrontsAreCompared :
    let s := racing [] [] fun x => { x with pass := some (pass0 [check0 .nan, check0 (.zero false)]) }
    s.halted = false ∧ (s.stone .m0 0).pass = some (pass0 [check0 .nan, check0 (.zero false)]) ∧ checkSkipped (check0 .nan) = true ∧
      checkSkipped (check0 (.zero false)) = false := by decide

def drainOp0 : RaceOp := raceOp 2 0x85
theorem witness_FaultedPassesAndDrainsFreeTheirBank :
    (let s := racing [] [(0, consumer0)] fun x => { x with failed := some 5, pass := some (pass0 []) }
     s.halted = false ∧ (s.stone .m0 0).draining = false ∧ (s.stone .m0 0).failed = some 5 ∧ s.roleOf .m0 0 ≠ .scatter) ∧
    (racing [] [(0, { consumer0 with role := .scatter })] fun x => { x with failed := some 5 }).roleOf .m0 0 = .scatter ∧
    (let s := on0 (racing [] [(0, consumer0)] fun x => { x with pass := some (pass0 []) }) fun x => { x with race := { x.race with abandoned := true } }
     (s.stone .m0 0).failed = none ∧ (s.stone .m0 0).pass ≠ none ∧ s.feederHeld .m0 0 = true) ∧
    ((racing [] [] fun x => { x with failed := some 0 }).stone .m0 0).failed = some 0 ∧
    ((racing [] [] fun x => { x with draining := true }).stone .m0 0).draining = true ∧
    (let s := racing [drainOp0] [] id
     s.stoneReady .m0 0 = true ∧ (s.stone .m0 0).failed = none ∧ (s.stone .m0 0).draining = false ∧ s.drainOp .m0 0 = some drainOp0 ∧
      ((s.stone .m0 0).bank drainOp0.bank).st ≠ .accumulating) ∧
    (let s := racing [drainOp0] [] fun x => { x with bank0 := oneWord .accumulating }
     ((s.stone .m0 0).bank drainOp0.bank).st = .accumulating ∧ s.drainOp .m0 0 = some drainOp0 ∧ s.stageJobs .m0 0 = [] ∧
      (s.bankRead .m0 0 0 drainOp0).1 = false ∧ (({ s with codes := [.uncorrectable] } : State).bankRead .m0 0 0 drainOp0).1 = true ∧
      s.mill0.toll.on = false) := by decide +kernel

theorem witness_StonesAreRepairedAndTested :
    Accepts up .sys0 (.stone .m0 0) ∧
    (let s := racing [] [] fun x => { x with applyReq := some [3] }
     s.halted = false ∧ s.pageLive (.stone .m0 0) = true ∧ (s.stone .m0 0).repair = .none ∧ s.stoneIdle .m0 0 = true ∧
      (s.stone .m0 0).applyReq = some [3] ∧ (on0 s fun x => { x with cmd := { x.cmd with running := true } }).stoneIdle .m0 0 = false) ∧
    (let s := racing [] [] fun x => { x with testReq := true }
     (s.stone .m0 0).applyReq = none ∧ (s.stone .m0 0).testReq = true) ∧
    (let s := racing [] [] fun x => { x with repair := .testing, disabled := [257, 258, 259] }
     s.halted = false ∧ (s.stone .m0 0).repair ≠ .none ∧ s.injArmed (.stone .m0 0) = false ∧
      (s.stone .m0 0).disabled.eraseDups.length ≤ 4 ∧ (s.stone .m0 0).unrepairable = false ∧
      (256 : Fin 261).val ∈ rowMap (s.stone .m0 0).disabled) := by unfold Accepts; decide +kernel
/-! ### The race -/

def column0 (words : List (W32 × Int)) : Column :=
  { op := 1, idx := 0, stamp := 0, fmt := .e4m3, handle := 0, line := 0, bref := none, primed := true, swap := false, shift := false, edge := 0,
    elems := [], srcs := [], words := words }
def withCols (s : State) (q : Nat) (cs : List Column) : State := s.setCols .m0 q 0 cs
def runner0 : Binding := { role := .runner, stream := 0, replay := 1, tfeed := false }
def share0 : CarryShare := [(0, 0, 1, 0)]
def carrying (binds : List (Nat × Binding)) (n : Nat) : State :=
  (racing [raceOp 1 0x84] binds id).onStone .m0 n fun x => { x with pass := some { pass0 [] with carry := [share0] } }
/-- The column at the front of a position may leave it, as far as the places ahead and the other streams go. -/
def leaves (s : State) (q : Nat) (c : Column) : Bool :=
  !s.halted && s.raceOwner .m0 == .m0 && s.racePos .m0 q == q && !s.hopFull .m0 q 0 && !s.injArmed (.race .m0)
    && s.colsAt .m0 q 0 == [c] && !s.hopLater .m0 q 0 c
/-- A tile of which 256 wavefronts have been received. -/
def fullTile : Tile := { tile0 with waves := List.replicate 256 (0, []) }
theorem witness_ColumnsHopRoundTheRace :
    (withCols (racing [] [] id) 1 [column0 [], column0 [], column0 [], column0 []]).hopFull .m0 0 0 = true ∧
    (let s := withCols (racing [] [(0, consumer0)] id) 0 [column0 []]
     leaves s 0 (column0 []) = true ∧ s.mill0.race.dead (column0 []) = true) ∧
    (let s := withCols (racing [raceOp 1 0x83] [(0, consumer0)] id) 0 [column0 []]
     leaves s 0 (column0 []) = true ∧ s.mill0.race.dead (column0 []) = false ∧ s.roleAt .m0 0 0 = .consumer ∧
      (s.stone .m0 0).feederFull = false ∧ (s.stone .m0 0).takes (column0 []) = true) ∧
    (let s := withCols (racing [raceOp 1 0x83] [(0, consumer0)] fun x => { x with recv := some tile0 }) 0 [column0 []]
     leaves s 0 (column0 []) = true ∧ (s.stone .m0 0).feederFull = false ∧ (s.stone .m0 0).takes (column0 []) = false) ∧
    (let s := withCols (racing [raceOp 1 0x83] [] id) 0 [column0 []]
     leaves s 0 (column0 []) = true ∧ s.roleAt .m0 0 0 = .unbound) ∧
    (let s := withCols (carrying [(0, runner0)] 0) 0 [column0 []]
     leaves s 0 (column0 []) = true ∧ s.mill0.race.dead (column0 []) = false ∧ s.roleAt .m0 0 0 = .runner) := by decide +kernel
theorem witness_FullFeedersHoldColumns :
    ((racing [] [(0, consumer0)] fun x => { x with recv := some fullTile }).stone .m0 0).feederFull = true := by decide +kernel
theorem witness_RunnersBeginAndAdd :
    (let c := { column0 [(1, 0)] with idx := 255 }
     let s := withCols (carrying [(0, runner0), (2, runner0)] 2) 2 [c]
     leaves s 2 c = true ∧ s.roleAt .m0 2 0 = .runner ∧ (s.stone .m0 2).share.map (fun x => (x.1, x.2.1)) = some (1, 255)) ∧
    (let c := column0 [(1, 0)]
     let s := withCols (carrying [(0, runner0), (2, runner0)] 2) 2 [c]
     leaves s 2 c = true ∧ (s.stone .m0 2).share.map (fun x => (x.1, x.2.1)) = some (1, 255)) ∧
    (let s := carrying [(0, runner0)] 0
     s.colsAt .m0 0 0 = [] ∧ s.mill0.race.abandoned = false ∧ s.roleAt .m0 0 0 = .runner ∧ s.hopFull .m0 0 0 = false ∧
      (s.boundTo .m0 .runner 0).head? = some (.m0, 0) ∧ (s.stone .m0 0).share.map (fun x => (x.1, x.2.1)) = some (1, 255) ∧
      s.hopLater .m0 0 0 (s.newborn .m0 1 255) = false ∧ s.mill0.race.dead (s.newborn .m0 1 255) = false) := by decide +kernel
/-- A column that is ready to cross the shaft goes before a post (`WaitsHoldUntilTokensOrTimeout`). -/
theorem witness_ColumnsCrossBeforePosts :
    let s := (withCols up 23 [column0 []]).setSplice true false
    ({ s with mill0 := { s.mill0 with shaft := [.post .user 0 1] } } : State).raceCrossing .m0 = true := by decide +kernel
def tileOp0 : RaceOp := { raceOp 1 0x83 with data := List.replicate 256 0, ax := 0 }
def enters (s : State) : Bool :=
  !s.halted && s.raceOwner .m0 == .m0 && !s.mill0.race.abandoned && decide ((s.colsAt .m0 0 0).length < 4) && s.entryOp .m0 0 == some tileOp0
    && s.tileFetched .m0 tileOp0
def entryRead (s : State) : Nat :=
  comes (s.govRun (headraceAt .m0 0 false) 0 (tileColumn (headraceAt .m0 0 false) tileOp0 (s.tileFolds .m0 tileOp0.stream)))
theorem witness_HeadraceEntersAndTailraceWrites :
    let s := racing [tileOp0] [] id
    enters s = true ∧ entryRead s = 1 ∧ entryRead (withTensor s) = 0 ∧ entryRead (portOff 0x200000 (withTensor s)) = 2 := by decide +kernel
/-- Mill 0 with these columns of stream 3 at the tailrace and these tiles begun. -/
def tailing (ops : List RaceOp) (cs : List Column) (ts : List TailTile) : State :=
  (on0 (racing ops [] id) fun x => { x with race := { x.race with tiles := ts } }).setTail .m0 3 cs
def tileWith (k : Nat) : TailTile := { op := 1, stream := 3, kmask := [], nmask := [], cols := (List.range k).map fun i => (i, []) }
def tailOp0 : RaceOp := raceOp 1 0x6084
theorem witness_TailraceTakesColumns :
    (let s := tailing [] [column0 [], column0 [(1, 0)]] []
     s.halted = false ∧ s.raceOwner .m0 = .m0 ∧ s.tailOf .m0 3 = [column0 [], column0 [(1, 0)]] ∧ s.mill0.race.dead (column0 [(1, 0)]) = true) ∧
    (tailing [] [] []).tailOf .m0 3 = [] ∧ (tailing [] [] []).wholeTile .m0 3 = none ∧
    (let s := tailing [tailOp0] [column0 [(1, 0)]] []
     s.mill0.race.dead (column0 [(1, 0)]) = false ∧ s.wholeTile .m0 3 = none ∧
      (s.takeDW .m0 3 (column0 [(1, 0)])).wholeTile .m0 3 = none) ∧
    (let s := tailing [tailOp0] [] [tileWith 256]
     s.wholeTile .m0 3 = some (tileWith 256) ∧ s.raceOp .m0 1 = some tailOp0 ∧ s.runnersMade .m0 tailOp0 = true ∧ s.stageJobs .m0 0 = []) ∧
    (let s := tailing [tailOp0] [column0 [(1, 0)]] [tileWith 255]
     s.wholeTile .m0 3 = none ∧ ((s.takeDW .m0 3 (column0 [(1, 0)])).wholeTile .m0 3).isSome = true ∧ tileWith 255 ∈ s.mill0.race.tiles) := by
  decide +kernel
def asking (v0 v1 : W32) : State := (up.setWord (.race .m0) 0x100 v0).setWord (.race .m1) 0x100 v1
def inSplice (s : State) : State := s.setSplice true false
theorem witness_SpliceAndCompatChangeAtBoundaries :
    (let s := asking 3 3
     s.idleBoundary .m0 = true ∧ s.idleBoundary .m1 = true ∧ s.mill0.race.spliced = false ∧ s.wants .m0 = (true, true, false) ∧
      s.wants .m1 = (true, true, false)) ∧
    ((asking 1 3).wants .m0 ≠ (asking 1 3).wants .m1 ∧ ((asking 1 3).wants .m0).1 = true ∧ (asking 1 3).mill0.race.spliced = false) ∧
    (let s := inSplice (asking 0 1)
     s.idleBoundary .m0 = true ∧ s.idleBoundary .m1 = true ∧ s.mill0.race.spliced = true ∧ (s.wants .m0).1 = false) ∧
    (up.idleBoundary .m1 = true ∧ up.mill1.race.spliced = false) ∧
    (let s := inSplice ((asking 1 1).setWord (.governor .m0) 0x100 1)
     s.mill1.race.spliced = true ∧ s.bit (.governor .m0) 0x100 0 ≠ s.bit (.governor .m1) 0x100 0) ∧
    (let s := inSplice (asking 1 1)
     s.idleBoundary .m0 = true ∧ s.idleBoundary .m1 = true ∧ s.mill1.race.spliced = true ∧
      s.bit (.governor .m0) 0x100 0 = s.bit (.governor .m1) 0x100 0) := by decide

theorem witness_RaceOperationsLeaveAtTheirPoint :
    (let o := raceOp 1 0x10000080
     let s := racing [o] [] id
     s.halted = false ∧ s.mill0.race.ops[0]? = some o ∧ o.code = 0x80 ∧ o.done = false ∧ s.streamBusy .m0 o = false ∧ ∀ n ∈ o.maskStones,
      s.earlierOp .m0 o .m0 n (fun _ => true) = false ∧ s.bindFault .m0 o n = none ∧ ∀ g ∈ s.mill0.power.gated, g.val ≠ n) ∧
    (let s := racing [raceOp 1 0x82] [] id
     s.mill0.race.ops[0]? = some (raceOp 1 0x82) ∧ s.earlierOp .m0 (raceOp 1 0x82) .m0 (raceOp 1 0x82).stone (fun _ => true) = false) ∧
    (let o := { raceOp 1 0x83 with prog := 256 }
     let s := racing [o] [] id
     s.mill0.race.ops[0]? = some o ∧ 256 ≤ o.prog ∧ s.boundTo .m0 .consumer o.stream = []) ∧
    (let o := { raceOp 1 0x84 with done := true }
     let s := racing [o] [] id
     s.mill0.race.ops[0]? = some o ∧ o.failed = false ∧ s.mill0.race.abandoned = false ∧ s.jobsLeft .m0 0 o = false) ∧
    (on0 (racing [raceOp 1 0x84] [] id) fun x => { x with race := { x.race with abandoned := true } }).mill0.race.abandoned = true ∧
    (let o := { raceOp 1 0x85 with done := true }
     let s := racing [o] [] id
     s.mill0.race.ops[0]? = some o ∧ s.jobsLeft .m0 0 o = false) ∧
    (let o := { raceOp 1 0x86 with done := true }
     (racing [o] [] id).mill0.race.ops[0]? = some o ∧ o.done = true) := by decide
/-! ### Governor and bolter -/

def job0 : LineJob :=
  { handle := 0, line := 1, elem0 := 0, vals := [0], keep := [true], flushed := [], hopper := none, op := 1, pc := 0, slot := 3,
    system := false, first := false }
def withJob (s : State) (j : LineJob) : State := on0 s fun x => { x with governor := { x.governor with jobs := [(0, [j])] } }
/-- How a governor stage stopped: 0 done, 1 a wait, 2 a fault. -/
def govStop (r : Except GovStop Unit) : Nat := match r with
  | .ok _ => 0
  | .error (.hold _) => 1
  | .error (.fault _ _ _) => 2
  | .error _ => 3
def writes (s : State) (j : LineJob) : Nat := govStop ((writeJob (stageAt .m0 0 j.line 0 3 false) 0 j).run.run s).1
theorem witness_GovernorStagesWriteLines :
    let s := withJob up job0
    s.halted = false ∧ s.stageJobs .m0 0 = [job0] ∧ writes s job0 = 2 ∧ writes (withJob (withTensor up) job0) job0 = 0 ∧
      writes (portOff 0x200000 (withJob (withTensor up) job0)) job0 = 1 := by decide +kernel

def anOp : UpdateOp :=
  { id := 1, system := false, bdesc := 0, step := 1, fg := 0, flr := 0, post := none, pc := 0, phase := .gate, desc := List.replicate 128 0,
    rule := List.replicate 16 0, kmask := [], nmask := [], sweep2 := false, line := 0, elem := 0, rowStat := [], colStat := [], mean := 0,
    rows := [], held := [], nonfinite := false, fellBack := false, began := false, checked := false, pageCause := 0, pageAt := 0,
    stopLine := 0, stopElem := 0, quiet := false, ending := none }
def bolting (o : UpdateOp) : State := on0 up fun x => { x with bolter := { ops := [o] } }
/-- An update gated by group 0, and a dense one of a line. -/
def gatedOp : UpdateOp := { anOp with desc := [0, 0, 0, 0, 0, 0, 0, 1, 1] ++ List.replicate 119 0 }
def denseOp : UpdateOp := { anOp with desc := [0, 0, 0, 0, 0, 0, 0, 0, 1, 0, 0, 0, 1] ++ List.replicate 115 0 }
def group0 : Group :=
  { idx := 0, entry := [1, 0, 0, 0, 0, 0, 0, 0, 1], members := [0], open_ := 0, runs := [], clears := [], skew := false, shut := false,
    weighed := false, clearSent := false, clearG := none, updStep := some 0, ops := [], seen := [], weighStep := 0, weigh := 0 }
def withGroup (s : State) (g : Group) : State := { s with leat := { s.leat with groups := [g] } }
/-- How the bolter's work stopped: 0 done, 1 its gate, 2 a wait, 3 a page, 4 a fault. -/
def bltStop (r : Except BltStop Unit) : Nat := match r with
  | .ok _ => 0
  | .error .gate => 1
  | .error .wait => 2
  | .error (.page _ _ _ _) => 3
  | .error (.fault _ _ _ _) => 4
  | .error (.retracted _) => 5
def works (s : State) (o : UpdateOp) : Nat := bltStop ((boltWork .m0 o).run.run s).1
theorem witness_UpdatesRunAndWriteBack :
    (let s := bolting anOp
     s.halted = false ∧ s.pageLive (.bolter .m0) = true ∧ s.bolt .m0 = some anOp ∧ anOp.phase = .gate ∧ anOp.ending = none ∧ works s anOp = 0) ∧
    works (bolting gatedOp) gatedOp = 1 ∧
    works (portOff 0x200000 (withTensor (bolting { anOp with desc := [] }))) { anOp with desc := [] } = 2 ∧
    works (bolting denseOp) denseOp = 3 ∧
    (let s := withGroup (bolting gatedOp) group0
     works s gatedOp = 4 ∧ (((boltWork .m0 gatedOp).run.run s).2.bolt .m0).isSome = true ∧
      ((boltWork .m0 gatedOp).run.run s).2.stageJobs .m0 1 = []) ∧
    (bolting { anOp with ending := some (1, 0, 0, false) }).bolt .m0 = some { anOp with ending := some (1, 0, 0, false) } ∧
    (let s := bolting { anOp with phase := .stalled }
     s.halted = false ∧ s.bolt .m0 = some { anOp with phase := .stalled }) ∧
    (let s := bolting { anOp with phase := .parked }
     Accepts s .sys0 (.bolter .m0) ∧ s.bolt .m0 = some { anOp with phase := .parked } ∧ s.copierKeeps anOp = false) ∧
    (Accepts up .sys0 (.bolter .m0) ∧ up.bolt .m0 = none ∧ Accepts up .sys0 (.ledger .m0)) ∧
    (let o := { anOp with phase := .finished }
     let s := bolting o
     s.halted = false ∧ s.bolt .m0 = some o ∧ o.held = [] ∧ s.stageJobs .m0 1 = []) := by unfold Accepts; decide +kernel

/-! ### Sluices, granary and memory ports -/

/-- A transfer of one chunk of 64 bytes of physical memory, and one whose source no memory has. -/
def transfer0 (src : Byte) : Transfer :=
  { newTransfer 1 true 0 ([0, 1, 0, 0, 0, 0, 0, 0, 0, 0, 0, 0, 0, src, 0, 0x80, 0, 0x10, 0, 0, 0, 0, 0, 0x80, 64] ++ List.replicate 103 0) 0 with
    started := true }
def queued (q : SluQueue) : State :=
  on0 up fun x => { x with sluice := { x.sluice with queues := x.sluice.queues.set 15 q } }
def queue1 (ts : List Transfer) : SluQueue := { SluQueue.reset with xfers := ts }
def virtual0 : Transfer := { transfer0 0 with desc := [0, 1, 0, 0, 0, 0, 0, 0, 0, 0, 0, 0, 0, 0, 0, 0, 0, 0x10, 0, 0, 0, 0, 0, 0x80, 64] ++ List.replicate 103 0 }
/-- The transfer that starts next in queue 15, with those ahead of it. -/
def starting (s : State) : Option Transfer × List Transfer :=
  let u := (s.queueGoOn .m0 15).retryHeld
  let t := (u.queue .m0 15).xfers.find? fun x => !x.started
  (t, (u.queue .m0 15).xfers.takeWhile fun x => t.any fun y => x.id != y.id)
/-- What a plan comes to: 0 a chunk, 1 a wait, 2 a fault to be resolved, 3 a fault that ends the transfer. -/
def plans (s : State) (t : Transfer) : Nat := match (s.planXfer .m0 15 t 0).1 with
  | .ok _ => 0
  | .error .wait => 1
  | .error (.fault e) => if resolvable e.cause then 2 else 3
theorem witness_TransfersStartAndTranslate :
    (let t := { transfer0 0 with started := false, id := 2 }
     let s := queued (queue1 [transfer0 0, t])
     s.sluiceHeld = false ∧ (s.queue .m0 15).parked = none ∧ starting s = (some t, [transfer0 0]) ∧ (transfer0 0).translated = false) ∧
    (let t := { transfer0 0 with started := false, id := 2 }
     starting (queued (queue1 [{ transfer0 0 with next := 1 }, t])) = (some t, [{ transfer0 0 with next := 1 }]) ∧
      ({ transfer0 0 with next := 1 } : Transfer).translated = true) ∧
    (starting (queued (queue1 [transfer0 0]))).1 = none ∧
    (let s := queued (queue1 [transfer0 0])
     (s.queue .m0 15).translating = some (transfer0 0) ∧ plans s (transfer0 0) = 0 ∧ s.entriesFree .m0 15 2 = true) ∧
    (let s := queued (queue1 [transfer0 0x0F])
     (s.queue .m0 15).translating = some (transfer0 0x0F) ∧ plans s (transfer0 0x0F) = 3) ∧
    (let s := queued (queue1 [virtual0])
     (s.queue .m0 15).translating = some virtual0 ∧ plans s virtual0 = 2 ∧ plans (portOff 0 s) virtual0 = 1) := by decide +kernel
/-- A chunk that finds the shared entries taken, and another waiting for them before it. -/
theorem witness_ChunksWaitForEntries :
    let w : SluQueue := { queue1 [{ transfer0 0 with waited := true }] with dropped := List.replicate 1024 (readRequest (0, 1), 0) }
    let s := on0 (queued w) fun x =>
      { x with sluice := { x.sluice with queues := x.sluice.queues.set 0 w, waiters := [0] } }
    s.entriesFree .m0 15 2 = false ∧ plans s { transfer0 0 with waited := true } = 0 := by decide +kernel

def flight0 (gs : List Request) : Flight :=
  { chunk := 0, segs := [{ src := .mem 0, dst := .mem 0x1000, len := 64 }], vpages := [], rows := 0, skips := 0, granules := gs, issued := 0,
    done := false }
def flown (gs : List Request) : Transfer := { transfer0 0 with next := 1, flights := [flight0 gs] }
def flying (gs : List Request) : State := queued (queue1 [flown gs])
def write0 : Request := { granule := 0x1000, spans := [(0x1000, 63)], write := true, fill := false }
def read0 : Request := readRequest (0, 64)
/-- What a request comes to at its port. -/
def asks (s : State) (r : Request) : PortOut := (s.requestPort .m0 r).1
def uncorrectable (s : State) : State := { s with codes := [.uncorrectable] }
theorem witness_GranulesAndChunksComplete :
    ((queued .reset).halted = false ∧ ((queued .reset).queue .m0 15).inFlight = [] ∧ ((queued .reset).queue .m0 15).dropped = []) ∧
    (let s := flying [write0]
     (s.queue .m0 15).inFlight[0]? = some (flown [write0], flight0 [write0], write0) ∧ write0.fill = false ∧ asks s write0 = .ok ∧
      asks (portOff 0x1000 s) write0 = .wait ∧ asks (uncorrectable s) write0 = .bad 0x1000 false) ∧
    (let r := fillRequest 8
     let s := flying [write0, r]
     (s.queue .m0 15).inFlight[1]? = some (flown [write0, r], flight0 [write0, r], r) ∧ r.fill = true ∧
      s.writeInFlight (r.granule / 512) = false ∧ (flying [write0]).writeInFlight (r.granule / 512) = true ∧ asks s r = .ok) ∧
    (let s := queued { queue1 [] with dropped := [(read0, 0)] }
     (s.queue .m0 15).dropped[0]? = some (read0, 0) ∧ asks s read0 = .ok ∧ asks (portOff 0 s) read0 = .wait) ∧
    (let s := flying []
     pickOf (s.queue .m0 15).landing 0 = some (flown [], flight0 []) ∧ s.rowHeld (flight0 []).segs = false ∧
      (s.pinSegs .m0 (flight0 []).segs).1 = none ∧
      (on0 s fun x => { x with bolter := { ops := [{ anOp with held := [(0, 0)] }] } }).rowHeld (flight0 []).segs = true ∧
      ((uncorrectable s).pinSegs .m0 [{ src := .granary 0, dst := .mem 0x1000, len := 64 }]).1 = some (0, false)) := by decide +kernel

theorem witness_QueuesResumeAndTranslationsGo :
    (Accepts up .sys0 (.sluice .m0) ∧ (up.queue .m0 15).parked = none) ∧
    (let s := queued { queue1 [transfer0 0] with parked := some (1, 1) }
     Accepts s .sys0 (.sluice .m0) ∧ (s.queue .m0 15).parked = some (1, 1) ∧ s.copierHolds .m0 15 = false ∧
      (s.queue .m0 15).xfers.find? (fun t => t.id == 1) = some (transfer0 0)) ∧
    (let s := queued { queue1 [transfer0 0] with parked := some (3, 1) }
     ({ s with pond := { s.pond with st := 3 } } : State).copierHolds .m0 15 = true) ∧
    (let s := on0 (flying []) fun x => { x with sluice := { x.sluice with inval := some [(1, 0)] } }
     s.mill0.sluice.inval = some [(1, 0)] ∧ (1, 0) ∈ s.chunksThrough .m0 none) ∧
    (on0 up fun x => { x with sluice := { x.sluice with inval := some [(1, 0)] } }).chunksThrough .m0 none = [] := by
  unfold Accepts; decide +kernel
def pinned (n : Nat) (w : W32) : State :=
  on0 (up.setWord (.granary .m0) 0x100 w) fun x => { x with sluice := { x.sluice with granPin := n } }
theorem witness_GranaryScrubAndRetraining :
    (up.sluiceHeld = false ∧ (9 ∉ up.mill0.sluice.fills) ∧
      (let s := on0 up fun x => { x with sluice := { x.sluice with fills := [0] } }
       s.sluiceHeld = false ∧ 0 ∈ s.mill0.sluice.fills ∧ s.mill0.sluice.cacheSlices ≠ 0)) ∧
    ((pinned 2 1).mill0.cmd.running = false ∧ (pinned 2 1).pageLive (.granary .m0) = true ∧
      (pinned 2 1).fld (.granary .m0) 0x100 0 6 ≠ (pinned 2 1).mill0.sluice.granPin) ∧
    ((pinned 2 2).fld (.granary .m0) 0x100 0 6 = (pinned 2 2).mill0.sluice.granPin ∧
      ((pinned 2 2).holder (.granary .m0) == 1) = (pinned 2 2).mill0.sluice.shared) ∧
    (let s := up.setWord (PortRef.hbm .m0 0).page 0x100 1
     s.sluiceHeld = false ∧ s.pageLive (PortRef.hbm .m0 0).page = true ∧ physPort ((0 : BitVec 44).toNat / 64 * 64) = some (.hbm .m0 0) ∧
      s.fld (PortRef.hbm .m0 0).page 0x100 0 8 ≠ 0 ∧ s.portHeld (.hbm .m0 0) = false ∧ s.injects (PortRef.hbm .m0 0).page 3 = false) ∧
    (up.pageLive (PortRef.ddr .m1 7).page = true ∧ PortRef.ddr .m1 7 ∉ up.mill1.floor.cal ∧ PortRef.ddr .m0 7 ∈
      (on0 up fun x => { x with floor := { x.floor with cal := [.ddr .m0 7] } }).mill0.floor.cal) := by decide +kernel

/-! ### The floor -/

/-- A flit of source 1, index 0, that goes from node (0, 0) to node (0, 1), or on to the other mill; and mill 0's floor holding flits, a plan
and what link 2 has passed. -/
def flit0 (kind : Nat) (mill : MillId) : FloorFlit :=
  { home := .m0, kind := kind, index := 0, src := (0, 0), mill := mill, dst := (0, 1), node := (0, 0), input := 0, addr := 0, pc := 0, slot := 0,
    system := false }
def floored (fs : List FloorFlit) (plan : Cells W32) (pos : Nat) : State :=
  on0 up fun x => { x with floor := { x.floor with flits := fs, plan := plan, slotPos := [(2, pos)] } }
/-- Stream 31 binds the source, with slot 0 of link 2 or without. -/
def plan31 (slot : W32) : Cells W32 := [(planKey 0 (0x180 + 4 * 31), 1), (planKey 1 (0x100 + 64 * 2), slot)]
/-- What the next position that passes carries, the positions passed, and whether a stream has no slot. -/
def linkOut (s : State) : SlotUse × Nat × Bool :=
  let k := (cellGet 0 2 s.mill0.floor.slotPos + (s.passedSlots .m0 2).length) % 64
  (s.slotUse .m0 2 k, (s.passedSlots .m0 2).length, (s.slotMissing .m0 2).isSome)
theorem witness_FlitsCrossTheFloor :
    (up.halted = false ∧ up.pageLive (.floor .m0 0) = true ∧ LinkWay.yUp.direction = some 2 ∧ linkIndex (0, 0) 2 = 2 ∧
      (linkOut (floored [flit0 1 .m0] (plan31 0) 0)).2.2 = true) ∧
    linkOut (floored [flit0 1 .m0] (plan31 31) 62) = (.slotted (flit0 1 .m0), 2, false) ∧
    linkOut (floored [flit0 0 .m0] (plan31 31) 64) = (.bestEffort true (flit0 0 .m0), 0, false) ∧
    linkOut (floored [flit0 0 .m0] (plan31 31) 1) = (.bestEffort false (flit0 0 .m0), 0, false) ∧
    linkOut (floored [] [] 5) = (.empty, 64, false) ∧
    (let s := on0 (floored [] [] 63) fun x => { x with floor := { x.floor with cal := [.hbm .m0 0] } }
     s.slotUse .m0 2 63 = .calibration) ∧
    (let f := { flit0 0 .m1 with node := (7, 2) }
     let s (t : State) : State := on0 t fun x => { x with shaft := [.flit f] }
     (s up).halted = false ∧ (s up).pageLive (.floor .m0 0) = true ∧ (s up).mill0.shaft = [.flit f] ∧ f.node = ((7 : Fin 8).val, (2 : Fin 6).val) ∧
      f.node ≠ ((7 : Fin 8).val, (3 : Fin 6).val) ∧ (s up).raceCrossing .m0 = false ∧
      (s ((withCols up 23 [column0 []]).setSplice true false)).raceCrossing .m0 = true) ∧
    up.injects (.floor .m0 0) 3 = false ∧
    (let s := on0 up fun x => { x with floor := { x.floor with pending := true } }
     s.mill0.floor.pending = true ∧ s.mill0.cmd.running = false) := by decide +kernel

/-! ### Leat -/

def withPort (p : LeatPort) : State := { up with leat := { up.leat with ports := up.leat.ports.set 23 p } }
def upPort : LeatPort := { LeatPort.reset with st := 2, lanes := 255 }
def idleHdr (seq : BitVec 16) (t : BitVec 4) : FlitHdr := { parseFlit 0 with seq := seq, type_ := t }
set_option maxRecDepth 100000 in
theorem witness_LeatPortsRetryAndTrain :
    (let s := withPort upPort
     s.halted = false ∧ (s.port 23).st = 2 ∧ s.injArmed (portPage 23) = false ∧ (s.port 23).replay = [] ∧
      s.pageLive (portPage 23) = true ∧ bitOf (s.port 23).lanes 7 = true) ∧
    (parseFlit 0).crc ≠ flitCrc 0 (pad512 []) ∧
    (let h := ((idleHdr 0 0).seal (pad512 [])).bits
     (parseFlit h).crc = flitCrc h (pad512 []) ∧ linkOnly (parseFlit h).type_ = true) ∧
    (let h := ((idleHdr 1 1).seal (pad512 [])).bits
     (parseFlit h).crc = flitCrc h (pad512 []) ∧ linkOnly (parseFlit h).type_ = false ∧ (parseFlit h).seq ≠ ((withPort upPort).port 23).rxNext) ∧
    (let h := ((idleHdr 0 1).seal (pad512 [])).bits
     (parseFlit h).crc = flitCrc h (pad512 []) ∧ linkOnly (parseFlit h).type_ = false ∧ (parseFlit h).seq = ((withPort upPort).port 23).rxNext) ∧
    ((withPort { upPort with replay := [(0, [])] }).port 23).replay = [(0, [])] ∧
    (let s := (withPort .reset).setWord (portPage 23) 0x100 1
     s.refHeld = false ∧ (s.port 23).st = 0 ∧ s.bit (portPage 23) 0x100 0 = true ∧ s.unitOut (7, 23) = false) ∧
    (let s := withPort { LeatPort.reset with st := 1 }
     ((List.range 8).filter fun k => bitOf (0x81 : Byte) k).length = 8 / 2 ^ 2 ∧ (s.port 23).st = 1) ∧
    (let s := withPort { LeatPort.reset with st := 3, width := 2 }
     (s.port 23).st = 3 ∧ (s.port 23).width ≤ 2) ∧
    (let s := (withPort upPort).setWord (portPage 23) 0x100 0x13
     Accepts s .sys1 (portPage 23) ∧ Unlocked s .sys1 (portPage 23) ∧ (s.word (portPage 23) 0x100).toNat < 2 ^ 16 ∧
      s.bit (portPage 23) 0x100 0 = true ∧ s.fld (portPage 23) 0x100 1 2 ≤ 2 ∧ s.fld (portPage 23) 0x100 4 12 ≠ 0) := by
  unfold Accepts Unlocked; decide +kernel

/-- A module of number 0 whose time parent is module 8, next on dimension 0, with the port toward it up. -/
def child : State :=
  let s := ((up.setWord .leat 0x100 0).setWord .leat 0x138 8).setWord .leat 0x104 0x10842
  { s with leat := { s.leat with ports := s.leat.ports.set 0 upPort, timeValid := true } }
def sendOp : ChannelOp :=
  { mill := .m0, queue := 0, xfer := 0, system := false, channel := 0, step := 0, pc := 0, seq := 0, descAddr := 0, desc := [], own := 0,
    handled := 0, written := 0, units := [], up := 0xFFFF, acked := 0, acks := [], done := false }
theorem witness_GroupsRoutesAndTime :
    (Accepts up .sys0 .leat ∧ (0x3FFFF : W32).toNat < 2 ^ 18 ∧ up.leat.held = [] ∧ up.leat.timeValid = false ∧
      (up.setWord .leat 0x138 (BitVec.ofNat 32 up.moduleId)).moduleId =
        (up.setWord .leat 0x138 (BitVec.ofNat 32 up.moduleId)).fld .leat 0x138 0 16) ∧
    (child.leat.timeValid = true ∧ child.moduleId ≠ child.fld .leat 0x138 0 16) ∧
    (child.halted = false ∧ child.timeRuns = true ∧ child.moduleId ≠ 0xFFFF ∧ child.parentPort = some 0) := by
  unfold Accepts; decide +kernel
theorem witness_MembersStall :
    (let g := { group0 with entry := [1, 0, 0, 0, 0, 0, 0, 0, 2] ++ List.replicate 55 0 ++ [1, 0, 0, 0, 1], ops := [{ sendOp with desc := transfer0 0 |>.desc }] }
     let s := withGroup up g
     s.group 0 = some g ∧ s.injects .leat 3 = false ∧ (1 : BitVec 16).toNat < g.nmemb ∧
      ∃ o ∈ g.ops, (g.waitsOn o).contains (1 : BitVec 16).toNat = true) := by decide +kernel
theorem witness_NumbersWrap :
    (let s : State := { up with nv := { up.nv with held0 := true, gen0 := 1, pondGen := 0x40000001 } }
     ∃ old ∈ s.wrapNumbers .generation, ∃ new ∈ s.wrapNumbers .generation,
      serialLater new old = true ∧ 2 ^ 30 ≤ (new - old).toNat) ∧
    (∀ old ∈ up.wrapNumbers .epoch, ∀ new ∈ up.wrapNumbers .epoch, serialLater new old = true → (new - old).toNat < 2 ^ 30) :=
  ⟨⟨1, .head _, 0x40000001, .tail _ (.head _), by decide, by decide⟩, fun _ h => nomatch (show _ ∈ [] from h)⟩

def clear0 : ClearRec := { rank := 0, gate := 0, run := 0, step := 0, digest := none, weigh := none }
theorem witness_ClearsAreSentAndGatesOpen :
    (let s := withGroup up group0
     s.halted = false ∧ s.pageLive .leat = true ∧ s.group 0 = some group0 ∧ group0.updStep = some 0 ∧ group0.valid = true ∧
      group0.shut = false ∧ group0.clearSent = false ∧ s.allSent group0 = true ∧ (∀ m ∈ [MillId.m0, .m1], s.cleanSoFar m = true) ∧
      s.weighReady 0 group0.open_ = true ∧ s.trust.dirty = [] ∧ s.injArmed .trust = false ∧ s.injArmed .history = false) ∧
    (let g := { group0 with clearSent := true }
     let s := (withGroup up g).setWord .trust 0x104 1
     s.digestStep g.open_ = true ∧ s.bit .trust 0x104 0 = true ∧ g.clearG ≠ some (s.settingG g 0)) ∧
    ((∃ k, k < group0.nmemb ∧ ∀ r ∈ group0.present, r.rank ≠ k) ∧ ∀ r ∈ group0.present, r.step = group0.open_) ∧
    (let g := { group0 with clears := [clear0] }
     let s := withGroup up g
     (∀ k, k < g.nmemb → ∃ r ∈ g.present, r.rank = k) ∧ (∀ r ∈ g.present, r.step = g.open_) ∧ s.weighGate 0 g.open_ = false ∧
      g.skew = false ∧ g.shut = false ∧ s.digestHeld g = false ∧
      ∀ o ∈ g.ops, o.step = g.open_ → (g.part (g.channel o.channel) o).units ≤ o.written) ∧
    (let f : HeldFlit := { port := some 3, header := 0, payload := [] }
     let s : State := { up with leat := { up.leat with refused := [f] } }
     s.leat.refused.find? (fun f => f.port == some 3) = some f) := by decide +kernel

/-! ### Tolls, the fault history and retirement -/

def toll0 (drain : Bool) (by_ retried : Option Nat) : TollRec :=
  { stone := 0, count := 0, drain := drain, verdict := false, tileDig := 0, differs := false, srcs := [], srcDig := 0, bytes := 0,
    by_ := by_, retried := retried, bank := 0 }
def tolling (r : TollRec) : State := on0 up fun x => { x with toll := { x.toll with open_ := [r] } }
theorem witness_TollsRunAgainAndCompare :
    (let r := toll0 false none (some 5)
     let s := tolling r
     s.halted = false ∧ positions s.mill0.toll.open_ (fun r => !r.drain && r.by_.isNone && s.tollLive .m0 r) = [0] ∧
      s.mill0.toll.open_[0]? = some r ∧ (23 : Fin 24).val ≠ r.stone ∧ some (23 : Fin 24).val ≠ r.retried ∧ s.tollEligible .m0 23 = true) ∧
    (let s := on0 (tolling (toll0 false none (some 5))) fun x =>
      { x with stones := x.stones.map fun y => { y with outOfService := true } }
     ∀ n, n < 24 → n = 0 ∨ some n = some 5 ∨ s.tollStone .m0 n = false) ∧
    (let r := toll0 false (some 5) none
     let s := tolling r
     s.injArmed (.toll .m0) = false ∧ positions s.mill0.toll.open_ (fun r => r.by_.isSome) = [0] ∧ r.by_ = some 5 ∧
      ((s.tollLeaves .m0 5).stone .m0 5).failed = none ∧ r.differs = false ∧ (s.tollLeaves .m0 5).tollVerdict .m0 r = false) ∧
    (let r := { toll0 false (some 5) none with differs := true }
     let v := ((tolling r).tollLeaves .m0 5).tally (.toll .m0) 12 0
     (v.stone .m0 5).failed = none ∧ v.tollVerdict .m0 r = false ∧ v.srcDigest .m0 r.srcs = v.srcDigest .m0 []) ∧
    (let s := (tolling (toll0 false (some 0) none)).onStone .m0 0 fun x => { x with failed := some 1 }
     ((s.tollLeaves .m0 0).stone .m0 0).failed ≠ none) ∧
    (let s := tolling (toll0 true none none)
     s.stageJobs .m0 0 = [] ∧ positions s.mill0.toll.open_ (fun r => r.drain) = [0]) := by decide +kernel
/-- A capture whose pass differed and whose source data are as they were. -/
theorem witness_TollsMismatch :
    let s := up
    let d := s.srcDigest .m0 []
    let r := { toll0 false (some 5) none with differs := true, srcDig := d }
    (((tolling r).tollLeaves .m0 5).tally (.toll .m0) 12 0).srcDigest .m0 r.srcs = r.srcDig := rfl

theorem witness_UnitsRetireAtTheBoundaryAndReturn :
    ((retiring up).halted = false ∧ (retiring up).noCommand = true ∧ (retiring up).pageLive .history = true) ∧
    (Accepts up .sys0 .history ∧ unitExists 1 47 = true ∧ unitExists 2 (512 * 47 + 260) = true ∧ unitExists 1 48 = false) ∧
    (260 < 512 ∧ 260 ∉ up.rowmapRows .m0 0 ∧ (up.rowmapRows .m0 0).length < 4) := by unfold Accepts; decide +kernel

/-! ### Pond copies -/

/-- A pond with both areas in DDR5, in the state named. -/
def ponding (st : Nat) (size : W32) : State :=
  let s := ((up.setWord64 .pond 0x118 0x20000000000).setWord64 .pond 0x120 0x40000000000).setWord .pond 0x128 size
  { s with pond := { s.pond with st := st, point := true }, nv := { s.nv with dimms := List.replicate 16 7 } }
/-- The setting image of a half is short. -/
theorem short_settings (s : State) (m : MillId) : (s.settingImage m).length ≤ 1024 * 200 := by
  have h : ∀ p, (behWords p).length ≤ 1024 := fun p => (List.length_filterMap_le _ _).trans (by simp)
  have g : ∀ (f : Page → Nat × Nat → Nat × Nat) (l : List Page), (l.flatMap fun p => (behWords p).map (f p)).length ≤ 1024 * l.length := by
    intro f l
    induction l with
    | nil => simp
    | cons p l ih => simp only [List.flatMap_cons, List.length_append, List.length_map, List.length_cons]; have := h p; omega
  refine (g _ (halfPages m)).trans ?_
  cases m <;> decide
/-- Both pond areas of 1 GiB slots have room for a half without pages. -/
theorem room (m : MillId) : (ponding 1 0x200).areaOk m ((ponding 1 0x200).halfLayout m ((ponding 1 0x200).captured m).length) = true := by
  have h := short_settings (ponding 1 0x200) m
  have c : ((ponding 1 0x200).captured m) = [] := by cases m <;> rfl
  have e : (ponding 1 0x200).fld .pond 0x128 0 20 = 0x200 := by decide +kernel
  have g : (ponding 1 0x200).groupArea.length = 0 := by decide +kernel
  have k : ∀ l, l ≤ pageSize * 0x200 → ((decide (0x20000000000 + 0x20000000000 * m.num ≤ (ponding 1 0x200).pondSlot m false) &&
      decide ((ponding 1 0x200).pondSlot m false + 2 * (pageSize * 0x200) ≤ 0x20000000000 + (0x20000000000 + 0x20000000000 * m.num)) && 
      pageSize * 0x200 != 0 && (ponding 1 0x200).inMem ((ponding 1 0x200).pondSlot m false) (2 * (pageSize * 0x200))) && decide (l ≤ pageSize * 0x200)) = true := by
    intro l hl
    rw [decide_eq_true hl, Bool.and_true]
    cases m <;> decide +kernel
  unfold State.areaOk
  simp only [e]
  refine k _ ?_
  show roundUp ((if m = .m0 then (if m = .m0 then roundUp (0x1000 + 8 * ((ponding 1 0x200).settingImage m).length) 512 +
    (ponding 1 0x200).groupArea.length else roundUp (0x1000 + 8 * ((ponding 1 0x200).settingImage m).length) 512) + 4 * 49152
    else (if m = .m0 then roundUp (0x1000 + 8 * ((ponding 1 0x200).settingImage m).length) 512 +
    (ponding 1 0x200).groupArea.length else roundUp (0x1000 + 8 * ((ponding 1 0x200).settingImage m).length) 512)) +
      32 * ((ponding 1 0x200).captured m).length) pageSize + pageSize * ((ponding 1 0x200).captured m).length ≤ pageSize * 0x200
  rw [c, g]
  generalize ((ponding 1 0x200).settingImage m).length = n at h
  simp only [roundUp, pageSize, List.length_nil]
  cases m <;> simp only [reduceCtorEq, if_true, if_false] <;> omega

def page0 : PondPage := { va := 0, frame := 0, wp := true, index := 0, entryOff := 0x1000, slotOff := 0 }
theorem witness_PondRequestsHoldsAndCopies :
    (Accepts up .sys0 .pond ∧ up.pond.st = 0 ∧ (ponding 1 0x200).pond.st = 1 ∧ (ponding 5 0x200).pond.st = 5 ∧ (ponding 3 0x200).pond.st = 3 ∧
      (ponding 4 0x200).pond.st = 4 ∧ Accepts (ponding 4 0x200) .sys0 .pond) ∧
    (∃ m ∈ up.pondMills, up.halfField m false 0 4 ≠ 0x444E4F50 ∨ up.halfField m false 8 4 ≠ 2) ∧
    up.pondDue = false ∧
    (let s := ponding 1 0x200
     s.halted = false ∧ s.refHeld = false ∧ s.pondDue = true ∧ s.bit .pond 0x100 6 = false) ∧
    (let s := ponding 1 0
     s.pondDue = true ∧ ∃ m ∈ s.pondMills, s.areaOk m (s.halfLayout m (s.captured m).length) = false) ∧
    (let s : State := { ponding 3 0x200 with pond := { (ponding 3 0x200).pond with pages0 := [page0] } }
     s.copierRuns = true ∧ s.pondTouchedPage .m0 = none ∧ s.pondPages .m0 = [page0] ∧ s.injArmed .pond = false ∧ s.pond.peer = false ∧
      ((portOff 0 s).readRun .m0 page0.frame pageSize).1 = .wait ∧ (({ s with codes := [.good, .uncorrectable] } : State).readRun .m0 page0.frame pageSize).1 = .bad 64 false ∧
      (s.readRun .m0 0 1024).1 = .ok) ∧
    (let s := on0 (ponding 3 0x200) fun x => { x with governor := { x.governor with wpHold := some 1 } }
     s.pondTouchedPage .m0 = none ∧ s.pondTouched .m0 = [1]) ∧
    (let s := on0 ({ ponding 3 0x200 with pond := { (ponding 3 0x200).pond with pages0 := [page0] } } : State) fun x =>
      { x with governor := { x.governor with wpHold := some 0 } }
     s.pondTouchedPage .m0 = some page0) := by
  unfold Accepts; decide +kernel

/-! ### Events, the hoist stream and the chain -/

def streaming (en : W32) (a : W64) : State :=
  ((linked.putFld .host 0x02C 8 4 (streamCode .pcie)).setWord64 .host 0x208 a).setWord64 .host 0x210 (a + en.zeroExtend 64)
theorem witness_EventsAndHoistDataMove :
    (Accepts up .sys0 .supply ∧ Page.eventMask .supply ≠ 0 ∧ Unlocked up .sys0 .supply ∧
      (1 : W32).toNat &&& Page.eventMask .supply = (1 : W32).toNat) ∧
    (Accepts linked .pcie .host ∧ linked.host.fifo = [] ∧ linked.holdsStream .pcie = false) ∧
    (let s := streaming 0 0x13FFFFFFFFC
     Accepts s .pcie .host ∧ s.holdsStream .pcie = true ∧ s.bit .host 0x20C 31 = false ∧ s.bit .host 0x214 31 = false ∧ s.corePower = true ∧
      s.inMem (s.fld64 .host 0x208 0 44) 4 = true ∧ s.inMem (s.fld64 .host 0x210 0 44) 4 = true) := by
  unfold Accepts Unlocked; decide +kernel

def frame (op : BitVec 4) (addr : BitVec 12) (data : W32) (status : Byte) : ChainFrame :=
  let f : ChainFrame := { op := op, addr := addr, tag := 9, offset := 0, spare := 0, data := data, status := status, hops := 0, crc := 0 }
  { f with crc := chainCrc f.bits }
def onChain (addr : BitVec 12) (reads : List ChainRead) : State :=
  { up with hoist := { up.hoist with bypass := false, addr := addr, reads := reads } }
def read9 (done : Bool) : ChainRead := { tag := 9, offset := 0, done := done, data := 5 }
theorem witness_ChainFramesDoTheirOperations :
    (up.hoist.bypass = true ∧ (onChain 3 []).hoist.bypass = false ∧ (onChain 3 []).injArmed .host = false ∧
      (parseChain 0).crc ≠ chainCrc 0) ∧
    (let b := (frame 1 3 0 0xFE).bits
     (parseChain b).crc = chainCrc b ∧ (parseChain b).status = 0xFE) ∧
    (∀ op ∈ ([1, 2, 3] : List (BitVec 4)), (parseChain (frame op 3 0 0).bits).crc = chainCrc (frame op 3 0 0).bits ∧
      (parseChain (frame op 3 0 0).bits).op = op ∧ (parseChain (frame op 3 0 0).bits).status ≠ 0xFE ∧
      (onChain 3 []).addressed (parseChain (frame op 3 0 0).bits) = true ∧ (onChain 4 []).addressed (parseChain (frame op 3 0 0).bits) = false) ∧
    (parseChain (frame 1 0 0 0).bits).addr = 0 ∧ (onChain 3 [read9 true]).hoist.reads.find? (fun r => r.tag == 9) = some (read9 true) ∧
    (onChain 3 [read9 false]).hoist.reads.find? (fun r => r.tag == 9 && !r.done) = some (read9 false) ∧
    (let f := parseChain (frame 4 0xFFF 4094 0).bits
     f.op = 4 ∧ f.addr = 0xFFF ∧ (onChain 0xFFF []).hoist.addr = 0xFFF ∧ 1 ≤ f.data.toNat ∧ f.data.toNat ≤ 4094) ∧
    ((parseChain (frame 5 0 0 0).bits).op = 5 ∧ (parseChain (frame 6 0 0 0).bits).op = 6) ∧
    ((onChain 3 [read9 false]).regRead .chain 0 32).pathOpen .chain = true := by decide +kernel

/-! ### Claims, injection and trust -/

def claimed (p : Page) (code : Nat) : State := linked.putFld p 0x02C 8 4 code
theorem witness_ClaimsAndInjections :
    (Accepts up .sys0 (.timer .m0 0) ∧ up.injArmed .directory = false ∧ 0 < (4 : BitVec 4).toNat ∧
      (4 : BitVec 4).toNat ≤ Page.claimCodes (.timer .m0 0) ∧ mayAcquire (.timer .m0 0) 4 .sys0 = false ∧
      mayAcquire (.timer .m0 0) 2 .sys0 = true ∧ up.holder (.timer .m0 0) = 0) ∧
    ((claimed (.timer .m0 0) 4).holder (.timer .m0 0) = 4 ∧ Accepts (claimed (.timer .m0 0) 4) .sys0 (.timer .m0 0)) ∧
    (let s := up.setWord .supply 0x020 2
     Accepts s .sys0 .supply ∧ Unlocked s .sys0 .supply ∧ s.injArmed .supply = false ∧ s.injCode .supply ≠ 0 ∧
      s.injCode .supply ≤ Page.injections .supply ∧ (255 : Byte) ≠ 0) ∧
    (up.injCode .supply = 0 ∧ Page.injections .supply < (up.setWord .supply 0x020 3).injCode .supply) ∧
    (up.setWord .supply 0x024 0x10).fld .supply 0x024 4 8 ≠ 0 := by unfold Accepts Unlocked; decide +kernel

def trusting (f : Trust → Trust) : State := { up with trust := f up.trust }
theorem witness_TrustControlsAndDigests :
    (Accepts up .sys0 .trust ∧ up.injArmed .trust = false ∧ (claimed .host 1).holder .host ≠ 0 ∧ up.holder .host = 0) ∧
    ((trusting fun t => { t with inactiveOk := true }).trust.inactiveOk = true ∧ up.trust.inactiveOk = false) ∧
    (up.trust.imageSvn ≤ up.fuses.svn ∧ up.fuses.svn < (trusting fun t => { t with imageSvn := 1 }).trust.imageSvn) ∧
    ((trusting fun t => { t with quoteBusy := true }).trust.quoteBusy = true ∧
      (trusting fun t => { t with quoteBusy := true }).trust.rotateDue = false ∧
      keyLeaves ≤ (trusting fun t => { t with nextLeaf := keyLeaves }).trust.nextLeaf) ∧
    (up.trust.quoteBusy = false ∧ up.trust.nextLeaf < keyLeaves ∧ up.nv.resEnd ≤ up.trust.nextLeaf ∧
      up.trust.nextLeaf < ({ up with nv := { up.nv with resEnd := 1 } } : State).nv.resEnd) ∧
    (15 ≤ ({ up with fuses := { up.fuses with keyGen := 15 } } : State).fuses.keyGen ∧ up.fuses.keyGen < 15) ∧
    ((4 : BitVec 3).toNat < 5 ∧ 5 ≤ (5 : BitVec 3).toNat ∧ up.pageLive .trust = true ∧ up.trust.dirty = [] ∧
      (trusting fun t => { t with dirty := [0] }).trust.dirty ≠ []) := by unfold Accepts; decide +kernel

/-! ### Registers and the block -/

theorem witness_ReadsClearUnreadAndCaptureHighWords :
    (∀ p ∈ ([.stone .m1 23, .race .m1, .governor .m1, .bolter .m1, .sluice .m1, .ikiug .m1, .toll .m1, .command .m1, .hbm .m1 9, .ddr .m1 7,
      .leat, .history, .pond, .directory] : List Page), Accepts up .sys0 p) ∧
    (let o : BitVec 28 := BitVec.ofNat 28 ((Page.command .m0).base + 0x208)
     o.toNat = (Page.command .m0).base + 0x208 ∧ 0x208 < 0x1000 ∧ 0x208 % 4 = 0 ∧
      (wordAt (.command .m0) 0x208).any (fun x => x.reg.wide && !x.hi) = true) ∧
    (up.putFld (.stone .m0 0) 0x124 31 1 1).bit (.stone .m0 0) 0x124 31 = true ∧
    (up.putFld .pond 0x164 31 1 1).bit .pond 0x164 31 = true := by unfold Accepts; decide +kernel

theorem witness_RegisterAccessesAreCheckedAndStored :
    (up.pathOpen .sys0 = true ∧ up.injArmed .directory = false ∧ (0x1002 : BitVec 28).toNat % 4 ≠ 0 ∧ pageAt 0xFFFFFFC = none) ∧
    (pageAt 0x1FFC = some .host ∧ up.pageLive .host = true ∧ inMsix .sys0 .host 0xFFC = false ∧ wordAt .host 0xFFC = none) ∧
    ((atStage 5).pathOpen .chain = true ∧ (atStage 5).pageLive .leat = false) ∧
    ((0x431C : BitVec 28).toNat = 0x4300 + 4 * 7 ∧ Accepts up .sys0 .trust) ∧
    ((255 : W64).toNat < 256 ∧ Accepts up .sys0 (.toll .m0) ∧ Unlocked up .sys0 (.toll .m0)) ∧
    (let s := linked.setWord (.toll .m0) 0x008 1
     Accepts s .pcie (.toll .m0) ∧ ¬ Unlocked s .pcie (.toll .m0)) ∧ up.pathOpen .pcie = false := by unfold Accepts Unlocked; decide +kernel

theorem witness_StepTakesTheFrontCommand :
    (let s : State := { up with pending := [.linkDown] }
     s.pending = [.linkDown]) ∧ State.reset.pending = [] := by decide

/-- Some step answers a next state that differs. -/
theorem witness_EveryStepKeepsTheModuleSound : step { up with pending := [.d3hotEnter] } = .next up := rfl

theorem witness_FramesAndFlitHeadersRoundTrip :
    (0 : BitVec 256).extractLsb' 7 1 = 0#1 ∧ (0 : BitVec 256).extractLsb' 63 1 = 0#1 ∧ (0 : BitVec 256).extractLsb' 216 8 = 0#8 := by decide

/-- An unclaimed CLKOUT pin is low, a claimed clock output runs from its source, and in standby only sources 1 and 8 give edges (R620). -/
def clocked (src : Nat) : State := ((up.putFld .clock 0x02C 8 4 1).putFld .clock 0x10C 0 4 src)
theorem test_clkout : up.clkout = .low ∧ (clocked 1).clkout = .square 1 0 0 ∧ (clocked 8).clkout = .square 8 0 0 ∧
    (List.range 16).all (fun k => k == 1 || k == 8 || !(atStage 5).clkSource k 0) = true := by decide +kernel

end Sys2Proof.Tests
end

section
/-! PROOFS of 00_scope.md: what every step keeps (R16, R485, R568), and what a read clears and captures (R11, R17). -/

namespace Sys2Proof.Machine

/-! ## What every command keeps -/

/-- Every command answers a next state, and it keeps the queue, the fuses and soundness: each arm is the law of its meaning. -/
theorem exec_keeps : ∀ (c : Instr) (s : State), ∃ t, exec c s = .next t ∧ Keeps s t
  | .inputReset .., _ => ⟨_, rfl, inputReset_keeps ..⟩
  | .startupStageDone .., _ => ⟨_, rfl, startupStageDone_keeps ..⟩
  | .chainBypassOpen, _ => ⟨_, rfl, chainBypassOpen_keeps ..⟩
  | .inputRange .., _ => ⟨_, rfl, inputRange_keeps ..⟩
  | .inputOvervoltage .., _ => ⟨_, rfl, inputOvervoltage_keeps ..⟩
  | .inputUndervoltage .., _ => ⟨_, rfl, inputUndervoltage_keeps ..⟩
  | .islandPowerLoss .., _ => ⟨_, rfl, islandPowerLoss_keeps ..⟩
  | .junctionTrip .., _ => ⟨_, rfl, junctionTrip_keeps ..⟩
  | .thermalRestart, _ => ⟨_, rfl, thermalRestart_keeps ..⟩
  | .moduleReset .., _ => ⟨_, rfl, moduleReset_keeps ..⟩
  | .millerReset .., _ => ⟨_, rfl, millerReset_keeps ..⟩
  | .systemContextEccReset .., _ => ⟨_, rfl, systemContextEccReset_keeps ..⟩
  | .powerOn .., _ => ⟨_, rfl, powerOn_keeps ..⟩
  | .powerDown .., _ => ⟨_, rfl, powerDown_keeps ..⟩
  | .releaseCap .., _ => ⟨_, rfl, releaseCap_keeps ..⟩
  | .perstAssert, _ => ⟨_, rfl, perstAssert_keeps ..⟩
  | .linkDown, _ => ⟨_, rfl, linkDown_keeps ..⟩
  | .linkUp .., _ => ⟨_, rfl, linkUp_keeps ..⟩
  | .d3hotEnter, _ => ⟨_, rfl, d3hotEnter_keeps ..⟩
  | .d3hotExit, _ => ⟨_, rfl, d3hotExit_keeps ..⟩
  | .inputSample .., _ => ⟨_, rfl, inputSample_keeps ..⟩
  | .brakeCapRaise, _ => ⟨_, rfl, brakeCapRaise_keeps ..⟩
  | .ebrakeTrip .., _ => ⟨_, rfl, ebrakeTrip_keeps ..⟩
  | .ebrakeRelease .., _ => ⟨_, rfl, ebrakeRelease_keeps ..⟩
  | .canaryMeasure .., _ => ⟨_, rfl, canaryMeasure_keeps ..⟩
  | .voltageControlTick .., _ => ⟨_, rfl, voltageControlTick_keeps ..⟩
  | .stoneGate .., _ => ⟨_, rfl, stoneGate_keeps ..⟩
  | .stoneUngateDone .., _ => ⟨_, rfl, stoneUngateDone_keeps ..⟩
  | .timerExpired .., _ => ⟨_, rfl, timerExpired_keeps ..⟩
  | .refLost, _ => ⟨_, rfl, refLost_keeps ..⟩
  | .refWindow .., _ => ⟨_, rfl, refWindow_keeps ..⟩
  | .pllStop, _ => ⟨_, rfl, pllStop_keeps ..⟩
  | .refRecovery, _ => ⟨_, rfl, refRecovery_keeps ..⟩
  | .refWaitExpired, _ => ⟨_, rfl, refWaitExpired_keeps ..⟩
  | .bundleFetch .., _ => ⟨_, rfl, bundleFetch_keeps ..⟩
  | .bundleIssue .., _ => ⟨_, rfl, bundleIssue_keeps ..⟩
  | .vectorOpDone .., _ => ⟨_, rfl, vectorOpDone_keeps ..⟩
  | .raceOpDone .., _ => ⟨_, rfl, raceOpDone_keeps ..⟩
  | .waitTimeout .., _ => ⟨_, rfl, waitTimeout_keeps ..⟩
  | .remoteTpostArrive .., _ => ⟨_, rfl, remoteTpostArrive_keeps ..⟩
  | .engineFault .., _ => ⟨_, rfl, engineFault_keeps ..⟩
  | .cmdWord .., _ => ⟨_, rfl, cmdWord_keeps ..⟩
  | .resetAsm .., _ => ⟨_, rfl, resetAsm_keeps ..⟩
  | .run .., _ => ⟨_, rfl, run_keeps ..⟩
  | .load .., _ => ⟨_, rfl, load_keeps ..⟩
  | .mark .., _ => ⟨_, rfl, mark_keeps ..⟩
  | .commandComplete .., _ => ⟨_, rfl, commandComplete_keeps ..⟩
  | .cmdAbort .., _ => ⟨_, rfl, cmdAbort_keeps ..⟩
  | .flush .., _ => ⟨_, rfl, flush_keeps ..⟩
  | .replay .., _ => ⟨_, rfl, replay_keeps ..⟩
  | .replayRestart .., _ => ⟨_, rfl, replayRestart_keeps ..⟩
  | .retirementApply, _ => ⟨_, rfl, retirementApply_keeps ..⟩
  | .shadowBroadcast .., _ => ⟨_, rfl, shadowBroadcast_keeps ..⟩
  | .swap .., _ => ⟨_, rfl, swap_keeps ..⟩
  | .rowShift .., _ => ⟨_, rfl, rowShift_keeps ..⟩
  | .stonePass .., _ => ⟨_, rfl, stonePass_keeps ..⟩
  | .wavefrontDone .., _ => ⟨_, rfl, wavefrontDone_keeps ..⟩
  | .passAbort .., _ => ⟨_, rfl, passAbort_keeps ..⟩
  | .abortDone .., _ => ⟨_, rfl, abortDone_keeps ..⟩
  | .bankDrain .., _ => ⟨_, rfl, bankDrain_keeps ..⟩
  | .apply .., _ => ⟨_, rfl, apply_keeps ..⟩
  | .selftest .., _ => ⟨_, rfl, selftest_keeps ..⟩
  | .repairRun .., _ => ⟨_, rfl, repairRun_keeps ..⟩
  | .selftestDone .., _ => ⟨_, rfl, selftestDone_keeps ..⟩
  | .columnHop .., _ => ⟨_, rfl, columnHop_keeps ..⟩
  | .headraceEntry .., _ => ⟨_, rfl, headraceEntry_keeps ..⟩
  | .tailraceWrite .., _ => ⟨_, rfl, tailraceWrite_keeps ..⟩
  | .spliceBegin, _ => ⟨_, rfl, spliceBegin_keeps ..⟩
  | .spliceEnd, _ => ⟨_, rfl, spliceEnd_keeps ..⟩
  | .compatChange .., _ => ⟨_, rfl, compatChange_keeps ..⟩
  | .lineWrite .., _ => ⟨_, rfl, lineWrite_keeps ..⟩
  | .updateStart .., _ => ⟨_, rfl, updateStart_keeps ..⟩
  | .updateComplete .., _ => ⟨_, rfl, updateComplete_keeps ..⟩
  | .boltPark .., _ => ⟨_, rfl, boltPark_keeps ..⟩
  | .boltResume .., _ => ⟨_, rfl, boltResume_keeps ..⟩
  | .writeback .., _ => ⟨_, rfl, writeback_keeps ..⟩
  | .transferStart .., _ => ⟨_, rfl, transferStart_keeps ..⟩
  | .chunkTranslate .., _ => ⟨_, rfl, chunkTranslate_keeps ..⟩
  | .granuleComplete .., _ => ⟨_, rfl, granuleComplete_keeps ..⟩
  | .chunkComplete .., _ => ⟨_, rfl, chunkComplete_keeps ..⟩
  | .weightCacheFill .., _ => ⟨_, rfl, weightCacheFill_keeps ..⟩
  | .resume .., _ => ⟨_, rfl, resume_keeps ..⟩
  | .fail .., _ => ⟨_, rfl, fail_keeps ..⟩
  | .tlbInvalAll .., _ => ⟨_, rfl, tlbInvalAll_keeps ..⟩
  | .tlbInvalPage .., _ => ⟨_, rfl, tlbInvalPage_keeps ..⟩
  | .tlbInvalDone .., _ => ⟨_, rfl, tlbInvalDone_keeps ..⟩
  | .scrubRead .., _ => ⟨_, rfl, scrubRead_keeps ..⟩
  | .granPinApply .., _ => ⟨_, rfl, granPinApply_keeps ..⟩
  | .planApplied .., _ => ⟨_, rfl, planApplied_keeps ..⟩
  | .floorFlitHop .., _ => ⟨_, rfl, floorFlitHop_keeps ..⟩
  | .forkSend .., _ => ⟨_, rfl, forkSend_keeps ..⟩
  | .memoryRetrain .., _ => ⟨_, rfl, memoryRetrain_keeps ..⟩
  | .flitReceive .., _ => ⟨_, rfl, flitReceive_keeps ..⟩
  | .ackTimeout .., _ => ⟨_, rfl, ackTimeout_keeps ..⟩
  | .epochResend .., _ => ⟨_, rfl, epochResend_keeps ..⟩
  | .clearSend .., _ => ⟨_, rfl, clearSend_keeps ..⟩
  | .laneDrop .., _ => ⟨_, rfl, laneDrop_keeps ..⟩
  | .portTrainDone .., _ => ⟨_, rfl, portTrainDone_keeps ..⟩
  | .trainAttempt .., _ => ⟨_, rfl, trainAttempt_keeps ..⟩
  | .retrain .., _ => ⟨_, rfl, retrain_keeps ..⟩
  | .memberSuspect .., _ => ⟨_, rfl, memberSuspect_keeps ..⟩
  | .timeSyncTick, _ => ⟨_, rfl, timeSyncTick_keeps ..⟩
  | .timeLost, _ => ⟨_, rfl, timeLost_keeps ..⟩
  | .timeSet .., _ => ⟨_, rfl, timeSet_keeps ..⟩
  | .groupLoad .., _ => ⟨_, rfl, groupLoad_keeps ..⟩
  | .drop .., _ => ⟨_, rfl, drop_keeps ..⟩
  | .routeData .., _ => ⟨_, rfl, routeData_keeps ..⟩
  | .wrapNear .., _ => ⟨_, rfl, wrapNear_keeps ..⟩
  | .tollPass .., _ => ⟨_, rfl, tollPass_keeps ..⟩
  | .tollPassDone .., _ => ⟨_, rfl, tollPassDone_keeps ..⟩
  | .tollDrain .., _ => ⟨_, rfl, tollDrain_keeps ..⟩
  | .retire .., _ => ⟨_, rfl, retire_keeps ..⟩
  | .retireRestore .., _ => ⟨_, rfl, retireRestore_keeps ..⟩
  | .take .., _ => ⟨_, rfl, take_keeps ..⟩
  | .pondCopyBegin, _ => ⟨_, rfl, pondCopyBegin_keeps ..⟩
  | .pondPageCopy .., _ => ⟨_, rfl, pondPageCopy_keeps ..⟩
  | .pondTouchCopy .., _ => ⟨_, rfl, pondTouchCopy_keeps ..⟩
  | .pondAbort .., _ => ⟨_, rfl, pondAbort_keeps ..⟩
  | .exported .., _ => ⟨_, rfl, exported_keeps ..⟩
  | .pondRestore .., _ => ⟨_, rfl, pondRestore_keeps ..⟩
  | .receive .., _ => ⟨_, rfl, receive_keeps ..⟩
  | .chuteInWord .., _ => ⟨_, rfl, chuteInWord_keeps ..⟩
  | .chuteInDestWrite .., _ => ⟨_, rfl, chuteInDestWrite_keeps ..⟩
  | .chuteInDoneRead, _ => ⟨_, rfl, chuteInDoneRead_keeps ..⟩
  | .start .., _ => ⟨_, rfl, start_keeps ..⟩
  | .stop .., _ => ⟨_, rfl, stop_keeps ..⟩
  | .chuteOutDone, _ => ⟨_, rfl, chuteOutDone_keeps ..⟩
  | .evtFifoRead .., _ => ⟨_, rfl, evtFifoRead_keeps ..⟩
  | .evtEn .., _ => ⟨_, rfl, evtEn_keeps ..⟩
  | .evtClr .., _ => ⟨_, rfl, evtClr_keeps ..⟩
  | .read .., _ => ⟨_, rfl, State.chainFrame_keeps _ _ _ _ State.chainRead_keeps⟩
  | .write .., _ => ⟨_, rfl, State.chainFrame_keeps _ _ _ _ State.chainWrite_keeps⟩
  | .result .., _ => ⟨_, rfl, State.chainFrame_keeps _ _ _ _ State.chainResult_keeps⟩
  | .enumerate .., _ => ⟨_, rfl, (State.onHoist_keeps ..).trans (State.chainFrame_keeps _ _ _ _ State.chainEnumerate_keeps)⟩
  | .forget .., _ => ⟨_, rfl, State.chainFrame_keeps _ _ _ _ State.chainForget_keeps⟩
  | .poll .., _ => ⟨_, rfl, State.chainFrame_keeps _ _ _ _ State.chainPoll_keeps⟩
  | .chainReadDone .., _ => ⟨_, rfl, chainReadDone_keeps ..⟩
  | .hoistDataWrite .., _ => ⟨_, rfl, hoistDataWrite_keeps ..⟩
  | .hoistDataRead .., _ => ⟨_, rfl, hoistDataRead_keeps ..⟩
  | .acquire .., _ => ⟨_, rfl, acquire_keeps ..⟩
  | .release .., _ => ⟨_, rfl, release_keeps ..⟩
  | .logHoldSample .., _ => ⟨_, rfl, logHoldSample_keeps ..⟩
  | .logTriggered .., _ => ⟨_, rfl, logTriggered_keeps ..⟩
  | .arm .., _ => ⟨_, rfl, arm_keeps ..⟩
  | .trigNow .., _ => ⟨_, rfl, trigNow_keeps ..⟩
  | .logRun .., _ => ⟨_, rfl, logRun_keeps ..⟩
  | .logRdDataRead .., _ => ⟨_, rfl, logRdDataRead_keeps ..⟩
  | .watchClose .., _ => ⟨_, rfl, watchClose_keeps ..⟩
  | .injArm .., _ => ⟨_, rfl, injArm_keeps ..⟩
  | .disarm .., _ => ⟨_, rfl, disarm_keeps ..⟩
  | .verifyInactive .., _ => ⟨_, rfl, verifyInactive_keeps ..⟩
  | .activate .., _ => ⟨_, rfl, activate_keeps ..⟩
  | .commitSvn .., _ => ⟨_, rfl, commitSvn_keeps ..⟩
  | .quote .., _ => ⟨_, rfl, quote_keeps ..⟩
  | .quoteDone, _ => ⟨_, rfl, quoteDone_keeps ..⟩
  | .rotate .., _ => ⟨_, rfl, rotate_keeps ..⟩
  | .extend .., _ => ⟨_, rfl, extend_keeps ..⟩
  | .digestRecompute, _ => ⟨_, rfl, digestRecompute_keeps ..⟩
  | .settingDigestRead .., _ => ⟨_, rfl, settingDigestRead_keeps ..⟩
  | .reg64LowRead .., _ => ⟨_, rfl, reg64LowRead_keeps ..⟩
  | .chkUnreadRead .., _ => ⟨_, rfl, chkUnreadRead_keeps ..⟩
  | .abnUnreadRead .., _ => ⟨_, rfl, abnUnreadRead_keeps ..⟩
  | .dryUnreadRead .., _ => ⟨_, rfl, dryUnreadRead_keeps ..⟩
  | .govFltUnreadRead .., _ => ⟨_, rfl, govFltUnreadRead_keeps ..⟩
  | .bfltUnreadRead .., _ => ⟨_, rfl, bfltUnreadRead_keeps ..⟩
  | .sluFltUnreadRead .., _ => ⟨_, rfl, sluFltUnreadRead_keeps ..⟩
  | .errUnreadRead .., _ => ⟨_, rfl, errUnreadRead_keeps ..⟩
  | .frUnreadRead .., _ => ⟨_, rfl, frUnreadRead_keeps ..⟩
  | .lrUnreadRead .., _ => ⟨_, rfl, lrUnreadRead_keeps ..⟩
  | .trUnreadRead .., _ => ⟨_, rfl, trUnreadRead_keeps ..⟩
  | .wrUnreadRead .., _ => ⟨_, rfl, wrUnreadRead_keeps ..⟩
  | .prUnreadRead .., _ => ⟨_, rfl, prUnreadRead_keeps ..⟩
  | .rfUnreadRead .., _ => ⟨_, rfl, rfUnreadRead_keeps ..⟩
  | .raUnreadRead .., _ => ⟨_, rfl, raUnreadRead_keeps ..⟩
  | .cbUnreadRead .., _ => ⟨_, rfl, cbUnreadRead_keeps ..⟩
  | .registerWrite .., _ => ⟨_, rfl, registerWrite_keeps ..⟩
  | .inputStableInRange, _ => ⟨_, rfl, inputStableInRange_keeps ..⟩
  | .chuteInGranuleWritten .., _ => ⟨_, rfl, chuteInGranuleWritten_keeps ..⟩
  | .chuteOutSourceError, _ => ⟨_, rfl, chuteOutSourceError_keeps ..⟩
  | .perstRelease, _ => ⟨_, rfl, perstRelease_keeps ..⟩
  | .injectionTimeEnd .., _ => ⟨_, rfl, injectionTimeEnd_keeps ..⟩
  | .registerReadRejected .., _ => ⟨_, rfl, registerReadRejected_keeps ..⟩

/-! ## One step -/

theorem step_of_no_command {s : State} (h : s.pending = []) : step s = .next (tick s) := by
  simp only [step, h]

theorem step_of_command {s : State} {c : Instr} {rest : List Instr} (h : s.pending = c :: rest) :
    step s = exec c { s with pending := rest } := by
  simp only [step, h]

/-- A step is a command taken off the queue and done, or a nanosecond, and what follows keeps what is then left of the queue. -/
theorem step_keeps {s t : State} (h : step s = .next t) : Keeps { s with pending := s.pending.tail } t := by
  cases hq : s.pending with
  | nil =>
    rw [step_of_no_command hq] at h
    cases h
    exact Keeps.trans (t := s) (Keeps.of_eq hq rfl rfl rfl rfl rfl rfl) (tick_keeps s)
  | cons c rest =>
    obtain ⟨u, hu, k⟩ := exec_keeps c { s with pending := rest }
    rw [step_of_command hq, hu] at h
    cases h
    exact k

/-- Settles O60: a step is one command or one nanosecond, and each keeps the rest of the queue, the fuses (R568, R572) and
soundness. The queue and its front are the model's own (log entry 1), and so is the canonical form of a memory (log entry 3). -/
theorem everyStepKeepsTheModuleSound : Obligations.EveryStepKeepsTheModuleSound := by
  unfold Obligations.EveryStepKeepsTheModuleSound
  exact fun _ _ h => step_keeps h

/-! ## An access that is counted changes a tally alone -/

variable (s : State)

@[simp] theorem State.countAccess_regs (path : Path) (k : Nat) : (s.countAccess path k).regs = s.regs := by
  rw [State.countAccess_eq]
@[simp] theorem State.countAccess_mem (path : Path) (k : Nat) : (s.countAccess path k).mem = s.mem := by
  rw [State.countAccess_eq]
@[simp] theorem State.countAccess_host (path : Path) (k : Nat) : (s.countAccess path k).host = s.host := by
  rw [State.countAccess_eq]
@[simp] theorem State.countAccess_path (path : Path) (k : Nat) (q : Path) : (s.countAccess path k).path q = s.path q := by
  rw [State.countAccess_eq]; cases q <;> rfl

/-! ## A read of a word that holds an UNREAD bit (R17) -/

/-- Bit 31 of a word of a 32-bit register is the one field of the word that a read clears. -/
def UnreadWord (p : Page) (off : Nat) : Prop :=
  ∃ x, wordAt p off = some x ∧ x.reg.wide = false ∧ x.fields.filter (·.acc = .rc) = [rc 31]

theorem State.readReg_unread (path : Path) (p : Page) (off : Nat) (x : WordAt) (hw : x.reg.wide = false)
    (hrc : x.fields.filter (·.acc = .rc) = [rc 31]) :
    s.readReg path p off x = (s.peek p off, s.putFld p off 31 1 0) := by
  simp [State.readReg, hw, hrc, State.forAll, rc]

/-- A read that reaches a word with an UNREAD bit returns the word and clears that bit alone. -/
theorem State.regRead_unread (path : Path) (p : Page) (off : Nat) (ho : off < 0x1000) (h4 : off % 4 = 0) (ha : Accepts s path p)
    (hu : UnreadWord p off) (hp : p ≠ .host ∧ (∀ m, p ≠ .log m) ∧ p ≠ .trust) :
    s.regRead path (p.base + off) 32 = ((s.countAccess path 4).putFld p off 31 1 0).reply path
      (((s.countAccess path 4).peek p off).zeroExtend 64) := by
  obtain ⟨x, hx, hw, hrc⟩ := hu
  have hm : inMsix path p off = false := by simp [inMsix, hp.1]
  rw [State.regRead_word s path p off x ho h4 ha hm hx hp, State.readReg_unread _ path p off x hw hrc]

/-- A command that is the read of a word with an UNREAD bit, on a page without words that have a reader of their own. -/
theorem exec_unreadRead {c : Instr} {path : Path} {p : Page} {off : Nat}
    (hc : ∀ s, exec c s = .next (s.regRead path (p.base + off) 32)) (hu : UnreadWord p off) (ho : off < 0x1000 := by decide)
    (h4 : off % 4 = 0 := by decide) (hp : p ≠ .host ∧ (∀ m, p ≠ .log m) ∧ p ≠ .trust := by simp) (s : State)
    (ha : Accepts s path p) : exec c s = .next (((s.countAccess path 4).putFld p off 31 1 0).reply path
      (((s.countAccess path 4).peek p off).zeroExtend 64)) := by
  rw [hc, State.regRead_unread s path p off ho h4 ha hu hp]

/-! ## A read of the low word of a 64-bit register (R11) -/

theorem State.readReg_low (path : Path) (p : Page) (off : Nat) (x : WordAt) (hw : x.reg.wide = true) (hhi : x.hi = false) :
    s.readReg path p off x = (s.peek p off, s.onPath path fun y => y.capture (p.base + off) (s.peek p (off + 4))) := by
  simp [State.readReg, hw, hhi]

/-- REG64_LOW_READ of the low word of a 64-bit register is the read of that word. -/
theorem reg64LowRead_of_low (path : Path) (o : BitVec 28) (p : Page) (off : Nat) (x : WordAt) (ho : off < 0x1000)
    (hb : o.toNat = p.base + off) (hx : wordAt p off = some x) (hw : x.reg.wide = true) (hhi : x.hi = false) :
    reg64LowRead path o s = s.regRead path (p.base + off) 32 := by
  simp [reg64LowRead, hb, pageAt_base p off ho, Page.base_add_mod p off ho, hx, hw, hhi]

/-- A read that reaches the low word of a 64-bit register returns it, and captures the high word for its path. -/
theorem State.regRead_low (path : Path) (p : Page) (off : Nat) (x : WordAt) (ho : off < 0x1000) (h4 : off % 4 = 0)
    (ha : Accepts s path p) (hx : wordAt p off = some x) (hw : x.reg.wide = true) (hhi : x.hi = false)
    (hp : p ≠ .host ∧ (∀ m, p ≠ .log m) ∧ p ≠ .trust) :
    let u := s.countAccess path 4
    s.regRead path (p.base + off) 32 =
      (u.onPath path fun y => y.capture (p.base + off) (u.peek p (off + 4))).reply path ((u.peek p off).zeroExtend 64) := by
  have hm : inMsix path p off = false := by simp [inMsix, hp.1]
  rw [State.regRead_word s path p off x ho h4 ha hm hx hp, State.readReg_low _ path p off x hw hhi]

/-! ## A record that is not yet read stays (R97, R459) -/

theorem State.record_unread (p : Page) (off : Nat) (fill : State → State) (h : s.bit p off 31 = true) : s.record p off fill = s := by
  simp [State.record, h]

theorem State.checkRecord_unread (m : MillId) (n : Fin 24) (c : WfCheck) (ones : Bool) (h : s.bit (.stone m n) 0x124 31 = true) :
    s.checkRecord m n c ones = s := by
  unfold State.checkRecord
  exact State.record_unread s _ _ _ h

theorem State.pondRecord_unread (gen : W32) (cause va : Nat) (h : s.bit .pond 0x164 31 = true) : s.pondRecord gen cause va = s :=
  State.record_unread s _ _ _ h

/-- Settles O56: each UNREAD command is the read of a word whose bit 31 alone a read clears, REG64_LOW_READ is the read of a low
word, and a record whose UNREAD bit is set is not filled. -/
theorem readsClearUnreadAndCaptureHighWords : Obligations.ReadsClearUnreadAndCaptureHighWords := by
  unfold Obligations.ReadsClearUnreadAndCaptureHighWords
  intro clears
  refine ⟨fun p m n => ?stone, fun p m => ⟨?race, ?dry, ?governor, ?bolter, ?sluice, ?ikiug, ?toll, ?command⟩, fun p port => ?port,
    fun p => ⟨?leat, ?history, ?pond, ?access, ?claim⟩, ?low, fun m n c ones s => s.checkRecord_unread m n c ones,
    fun gen cause va s => s.pondRecord_unread gen cause va⟩
  case port =>
    have hu : UnreadWord port.page 0x118 := by cases port <;> exact ⟨_, rfl, rfl, rfl⟩
    have hp : port.page ≠ .host ∧ (∀ m, port.page ≠ .log m) ∧ port.page ≠ .trust := by cases port <;> simp [PortRef.page]
    exact exec_unreadRead (fun _ => rfl) hu (hp := hp)
  case low =>
    intro p page off o x s ha ho h4 hb hx hw hhi hhost htrust hlog
    refine ⟨_, congrArg Host.Outcome.next ((reg64LowRead_of_low s p o page off x ho hb hx hw hhi).trans
      (State.regRead_low s p page off x ho h4 ha hx hw hhi ⟨hhost, hlog, htrust⟩)), ?_⟩
    simp [State.reply, PathState.capture, hb]
  all_goals exact exec_unreadRead (fun _ => rfl) ⟨_, rfl, rfl, rfl⟩

end Sys2Proof.Machine
end

section
/-! PROOFS of 01_organisation.md: what waits for the shaft (R36), the flits on the floor (R328 to R338), and a WAIT (R305 to R307). -/

namespace Sys2Proof.Machine

variable (s : State) (m : MillId)

/-! ## Where no injection is armed -/

theorem State.injects_of_unarmed {p : Page} (h : s.injArmed p = false) (code : Nat) : s.injects p code = false := by
  simp [State.injects, h]

theorem State.takeInj_of_not_injects {p : Page} {code : Nat} (h : s.injects p code = false) : s.takeInj p code = (false, s) := by
  simp [State.takeInj, h]

/-! ## Routes (R328) -/

/-- Each direction that a route can take, with where its goal lies. -/
theorem routeStep_cases {node goal : Nat × Nat} {d : Nat} (h : routeStep node goal = some d) :
    (d = 0 ∧ node.1 < goal.1) ∨ (d = 1 ∧ goal.1 < node.1) ∨ (d = 2 ∧ node.1 = goal.1 ∧ node.2 < goal.2) ∨
      (d = 3 ∧ node.1 = goal.1 ∧ goal.2 < node.2) := by
  unfold routeStep at h
  split_ifs at h <;> injection h <;> omega

theorem routeStep_eq_none_iff (node goal : Nat × Nat) : routeStep node goal = none ↔ node = goal := by
  constructor
  · intro h
    unfold routeStep at h
    split_ifs at h
    exact Prod.ext (by omega) (by omega)
  · rintro rfl
    simp [routeStep]

/-- A hop along a route comes one nearer. -/
theorem nodeHops_neighbour_of_routeStep {node goal : Nat × Nat} {d : Nat} (h : routeStep node goal = some d) :
    nodeHops (neighbour node d) goal + 1 = nodeHops node goal := by
  obtain ⟨rfl, hx⟩ | ⟨rfl, hx⟩ | ⟨rfl, hx, hy⟩ | ⟨rfl, hx, hy⟩ := routeStep_cases h <;>
    simp only [neighbour, nodeHops] <;> omega

/-- A route goes along x for as long as the goal is in another column. -/
theorem lt_two_iff_of_routeStep {node goal : Nat × Nat} {d : Nat} (h : routeStep node goal = some d) : d < 2 ↔ node.1 ≠ goal.1 := by
  obtain ⟨rfl, hx⟩ | ⟨rfl, hx⟩ | ⟨rfl, hx, -⟩ | ⟨rfl, hx, -⟩ := routeStep_cases h <;> omega

/-! ## The hop of a link (R330 to R336) -/

/-- The slot position that the next flit of a link passes in. -/
def State.nextSlot (l : Nat) : Nat := (cellGet 0 l (s.mill m).floor.slotPos + (s.passedSlots m l).length) % 64

theorem State.linkHop_of_slotted {l : Nat} {f : FloorFlit} (h : s.slotUse m l (s.nextSlot m l) = .slotted f) :
    s.linkHop m l = ((s.passSlots m l (s.nextSlot m l)).tally (.floor m 0) 1 1).crossLink m l f := by
  unfold State.nextSlot at h ⊢
  simp only [State.linkHop, h]

theorem State.linkHop_of_bestEffort {l : Nat} {lent : Bool} {f : FloorFlit} (h : s.slotUse m l (s.nextSlot m l) = .bestEffort lent f) :
    s.linkHop m l = ((((s.passSlots m l (s.nextSlot m l)).tally (.floor m 0) 2 1).tally (.floor m 0) 3 (boolNat lent)).onFloor m
      fun x => { x with served := cellSet 0 (l / 4) f.input x.served }).crossLink m l f := by
  unfold State.nextSlot at h ⊢
  simp only [State.linkHop, h]

theorem State.linkHop_of_no_flit {l : Nat}
    (h : s.slotUse m l (s.nextSlot m l) = .empty ∨ s.slotUse m l (s.nextSlot m l) = .calibration) : s.linkHop m l = s := by
  unfold State.nextSlot at h
  rcases h with h | h <;> simp only [State.linkHop, h]

theorem State.flitHop_of_missing {l st : Nat} {f : FloorFlit} {inj : Bool} {t : State} (h : s.slotMissing m l = some (f, st, inj, t)) :
    s.flitHop m l =
      (t.takeFlit m f).floorFault m 1 (BitVec.ofNat 64 (l + 2 ^ 16 * st)) f.addr f.pc f.slot f.system inj := by
  simp only [State.flitHop, h]

theorem State.flitHop_of_held {l : Nat} (h : s.slotMissing m l = none) : s.flitHop m l = s.linkHop m l := by
  simp only [State.flitHop, h]

theorem floorFlitHop_of_direction {x : Fin 8} {y : Fin 6} {way : LinkWay} {d : Nat} (hs : s.halted = false)
    (hp : s.pageLive (.floor m 0) = true) (hd : way.direction = some d) :
    floorFlitHop m x y way s = s.flitHop m (linkIndex (x.val, y.val) d) := by
  simp [floorFlitHop, hs, hp, hd]

theorem floorFlitHop_shaft {x : Fin 8} {y : Fin 6} (hs : s.halted = false) (hp : s.pageLive (.floor m 0) = true) :
    floorFlitHop m x y .shaft s = s.shaftHop m (x.val, y.val) := by
  simp [floorFlitHop, hs, hp, LinkWay.direction]

/-! ## The shaft (R36) -/

/-- A flit stays where a race column is ready to cross, and where it waits at the other shaft port. -/
theorem State.shaftHop_of_stays {node : Nat × Nat} {f : FloorFlit} {rest : List ShaftItem} (hq : (s.mill m).shaft = .flit f :: rest)
    (h : s.raceCrossing m = true ∨ f.node ≠ node) : s.shaftHop m node = s := by
  unfold State.shaftHop
  simp only [hq]
  exact if_pos (by simpa using h)

theorem State.shaftHop_of_crosses {node : Nat × Nat} {f : FloorFlit} {rest : List ShaftItem} (hq : (s.mill m).shaft = .flit f :: rest)
    (hr : s.raceCrossing m = false) (hn : f.node = node) :
    s.shaftHop m node = ((s.onMill m fun x => { x with shaft := rest }).tally (.floor m 0) 11 1).flitAt m.other
      { f with node := shaftNode (1 - (f.node.2 - 2)), input := 5 } := by
  unfold State.shaftHop
  simp only [hq]
  exact if_neg (by simp [hr, hn])

/-- Settles O44: the route's four directions, what the next slot of a link carries, the flit first at the shaft, a fork's tallies and
the staged plan. That flits move link by link, and wait for the shaft in one queue with the remote posts, is the model's choice (log
entry 40). -/
theorem flitsCrossTheFloor : Obligations.FlitsCrossTheFloor := by
  unfold Obligations.FlitsCrossTheFloor
  refine ⟨fun node goal => ⟨routeStep_eq_none_iff node goal, fun d h => ⟨nodeHops_neighbour_of_routeStep h, lt_two_iff_of_routeStep h⟩⟩,
    ?link, ?shaft, ?fork, ?plan⟩
  case link =>
    intro m x y way d s hs hp hd l
    have hop : exec (.floorFlitHop m x y way) s = .next (s.flitHop m l) :=
      congrArg Host.Outcome.next (floorFlitHop_of_direction s m hs hp hd)
    refine ⟨fun f st inj t h => hop.trans (congrArg _ (s.flitHop_of_missing m h)), fun hnone => ?_⟩
    have held := hop.trans (congrArg _ (s.flitHop_of_held m hnone))
    exact ⟨fun f h => held.trans (congrArg _ (s.linkHop_of_slotted m h)),
      fun lent f h => held.trans (congrArg _ (s.linkHop_of_bestEffort m h)),
      fun h => held.trans (congrArg _ (s.linkHop_of_no_flit m h))⟩
  case shaft =>
    intro m x y f rest s hs hp hq
    have hop : exec (.floorFlitHop m x y .shaft) s = .next (s.shaftHop m (x.val, y.val)) :=
      congrArg Host.Outcome.next (floorFlitHop_shaft s m hs hp)
    exact ⟨fun h => hop.trans (congrArg _ (s.shaftHop_of_stays m hq h)),
      fun hr hn => hop.trans (congrArg _ (s.shaftHop_of_crosses m hq hr hn))⟩
  case fork =>
    intro m branches waited s hs hp hi
    simp [exec, execForkSend, forkSend, hs, hp, s.takeInj_of_not_injects hi]
  case plan =>
    intro m s hpend hrun
    simp [exec, execPlanApplied, planApplied, hpend, hrun]

/-! ## A post that waits for the shaft (R36, R309) -/

@[simp] theorem State.onCtx_ctx (c : Ctx) (f : Context → Context) : (s.onCtx m c f).ctx m c = f (s.ctx m c) := by
  cases m <;> cases c <;> rfl

/-- A post changes the counters of its context, and the note of when a WAIT was met. -/
theorem State.post_ctx (c : Ctx) (ctr n : Nat) : ∃ met, (s.post m c ctr n).ctx m c =
    { s.ctx m c with t := cellSet 0 ctr ((s.ctx m c).tr ctr + BitVec.ofNat 32 n) (s.ctx m c).t, waitMet := met } := by
  change ∃ met, (s.onCtx m c _).ctx m c = _
  rw [State.onCtx_ctx]
  dsimp only
  split
  · split
    · exact ⟨_, rfl⟩
    · exact ⟨_, rfl⟩
  · exact ⟨_, rfl⟩

theorem State.enginePost_ctx (c : Ctx) (ctr n : Nat) : ∃ met, (s.enginePost m c ctr n).ctx m c =
    { s.ctx m c with t := cellSet 0 ctr ((s.ctx m c).tr ctr + BitVec.ofNat 32 n) (s.ctx m c).t, waitMet := met } :=
  (s.ctrlMsg m n).post_ctx m c ctr n

/-- A post to the one mill leaves the other as it is. -/
theorem State.enginePost_mill_other (c : Ctx) (ctr n : Nat) : (s.enginePost m.other c ctr n).mill m = s.mill m :=
  (State.onMill_mill_of_ne _ m.other m _ (by cases m <;> decide)).trans (State.tally_mill ..)

theorem remoteTpostArrive_of_crossing {c : Ctx} {ctr n : Nat} {rest : List ShaftItem} (hq : (s.mill m).shaft = .post c ctr n :: rest)
    (hr : s.raceCrossing m = true) : remoteTpostArrive m s = s := by
  simp only [remoteTpostArrive, hq, hr, Bool.or_true, if_true]

theorem remoteTpostArrive_of_clear {c : Ctx} {ctr n : Nat} {rest : List ShaftItem} (hq : (s.mill m).shaft = .post c ctr n :: rest)
    (hs : s.halted = false) (hr : s.raceCrossing m = false) :
    remoteTpostArrive m s = (s.onMill m fun x => { x with shaft := rest }).enginePost m.other c ctr n := by
  simp [remoteTpostArrive, hq, hs, hr]

/-! ## A bundle that is held at its WAIT (R287, R305) -/

/-- A bundle in which the check finds no fault is tried, where no injection is armed on its page. -/
theorem bundleIssue_of_checked {c : Ctx} {x : BitVec 512} (codes : List Ecc) (hs : s.halted = false) (ha : s.active m c = true)
    (hi : s.injArmed (.ikiug m) = false) (hf : (s.ctx m c).fetched = some x)
    (hb : s.bundleFault m c (s.ctx m c) (parseBundle x) = none) :
    bundleIssue m c .good codes s = s.coded codes fun s => s.tryIssue m c (parseBundle x) := by
  have inj : (if c = .user ∧ (s.mill m).miller.st = .running then s.takeInj (.ikiug m) 1 else (false, s)) = (false, s) := by
    rw [s.takeInj_of_not_injects (s.injects_of_unarmed hi 1), ite_self]
  simp [bundleIssue, hs, ha, hf, inj, hb]

theorem State.holdOf_wait {c : Ctx} {b : Bundle} (hw : b.wbOp = some 0xC0)
    (hn : waitHolds ((s.ctx m c).tr (wTctr b.wb)) (waitTarget (s.ctx m c) b.wb b.imm) = false) :
    s.holdOf m c b = some (.wait (wTctr b.wb) ((s.ctx m c).tr (wTctr b.wb)) (waitTarget (s.ctx m c) b.wb b.imm)) := by
  simp [State.holdOf, hw, hn]

/-- The first hold at a WAIT is counted and starts its timer. -/
theorem State.holdAt_first_wait {b : Bundle} (ctr : Nat) (count target : W32) (hi : s.injArmed (.ikiug m) = false)
    (hw : (s.ctx m .user).waitOn = none) :
    s.holdAt m .user b (.wait ctr count target) = (s.tally (.ikiug m) 2 1).onMill m fun y => { y with miller := { y.miller with
      st := .waiting, user := { y.miller.user with waitOn := some (ctr, target, waitTimeoutNs b.wb), waitNs := 0, waitMet := none } } } := by
  have hinj (u : State) (hu : u.inj = s.inj) : u.takeInj (.ikiug m) 2 = (false, u) :=
    u.takeInj_of_not_injects (u.injects_of_unarmed (by rw [State.injArmed, hu]; exact hi) 2)
  unfold State.holdAt
  simp [hw, State.ikTally, State.setSt, State.onCtx, Miller.onCtx, hinj]

theorem State.tryIssue_first_wait {b : Bundle} (hi : s.injArmed (.ikiug m) = false) (hw : (s.ctx m .user).waitOn = none)
    (hop : b.wbOp = some 0xC0) (hn : waitHolds ((s.ctx m .user).tr (wTctr b.wb)) (waitTarget (s.ctx m .user) b.wb b.imm) = false) :
    s.tryIssue m .user b = (s.tally (.ikiug m) 2 1).onMill m fun y => { y with miller := { y.miller with
      st := .waiting, user := { y.miller.user with
        waitOn := some (wTctr b.wb, waitTarget (s.ctx m .user) b.wb b.imm, waitTimeoutNs b.wb), waitNs := 0, waitMet := none } } } := by
  simp only [State.tryIssue, s.holdOf_wait m hop hn, s.holdAt_first_wait m _ _ _ hi hw]

/-! ## The timer of a WAIT (R306, R307) -/

theorem State.onMill_congr {f g : Mill → Mill} (h : f (s.mill m) = g (s.mill m)) : s.onMill m f = s.onMill m g := by
  cases m <;> simp only [State.onMill, ← State.mill_m0, ← State.mill_m1, h]

theorem waitTimeout_of_short {b : Bundle} {ctr : Nat} {target : W32} (hs : s.halted = false) (hr : s.refHeld = false)
    (ha : s.active m .user = true) (ht : (s.ctx m .user).timedWait = some (b, ctr, target))
    (hn : waitHolds ((s.ctx m .user).tr ctr) target = false) : waitTimeout m s = s.takeTimeout m .user b := by
  simp [waitTimeout, hs, hr, ha, ht, State.waitExpired, hn]

/-- Without TFAULT the bundle is left and the branch taken. -/
theorem State.takeTimeout_branch {b : Bundle} (h : bitOf b.wb 42 = false) : s.takeTimeout m .user b =
    ((s.tally (.ikiug m) 4 1).raise (.ikiug m) 2).onMill m fun y => { y with miller := { y.miller with
      st := .running, user := { y.miller.user.clearFetch with pc := wTarget (s.ctx m .user).pc b.wb } } } := by
  simp only [State.takeTimeout, h, Bool.false_eq_true, if_false, State.ikTally, State.onCtx, State.setSt, State.onMiller_eq,
    State.onMill_onMill]
  apply State.onMill_congr
  have user : (((s.tally (.ikiug m) 4 1).raise (.ikiug m) 2).mill m).miller.user = s.ctx m .user := by simp [State.ctx, Miller.ctx]
  simp only [Miller.onCtx, user]

/-- With TFAULT the command ends in WAIT_TIMEOUT, with the counter and its count. -/
theorem State.takeTimeout_fault {b : Bundle} (h : bitOf b.wb 42 = true) : s.takeTimeout m .user b =
    (s.tally (.ikiug m) 4 1).endCommand m
      { kind := .command, system := false, page := .ikiug m, cause := 17, res := BitVec.ofNat 64 (wTctr b.wb),
        opnd := ((s.ctx m .user).tr (wTctr b.wb)).zeroExtend 64, pc := (s.ctx m .user).pc, slot := 6, issue := false,
        injected := false } := by
  simp only [State.takeTimeout, h, if_true]
  rfl

/-- Settles O26: the hold at a WAIT that falls short, the two ends of its timer, and the post first at the shaft. Which timer a
timeout ends, that a remote post arrives at its own command, and the one queue at the shaft are readings of the model (log entries 29,
31 and 40). -/
theorem waitsHoldUntilTokensOrTimeout : Obligations.WaitsHoldUntilTokensOrTimeout := by
  unfold Obligations.WaitsHoldUntilTokensOrTimeout
  refine ⟨?hold, ?timeout, ?post⟩
  case hold =>
    intro m x codes s hs ha hi hf hwait b k hb hop hshort
    refine congrArg Host.Outcome.next ((bundleIssue_of_checked s m codes hs ha hi hf hb).trans ?_)
    rw [State.coded, State.tryIssue_first_wait { s with codes := codes } m hi hwait hop hshort]
    cases m <;> rfl
  case timeout =>
    intro m b ctr target s hs hr ha ht k u hshort
    have expired : exec (.waitTimeout m) s = .next (s.takeTimeout m .user b) :=
      congrArg Host.Outcome.next (waitTimeout_of_short s m hs hr ha ht hshort)
    exact ⟨fun h => expired.trans (congrArg _ (s.takeTimeout_branch m h)), fun h => expired.trans (congrArg _ (s.takeTimeout_fault m h))⟩
  case post =>
    intro m c ctr n rest s hs hq
    refine ⟨fun hr => congrArg Host.Outcome.next (remoteTpostArrive_of_crossing s m hq hr), fun hr => ?_⟩
    have sent := remoteTpostArrive_of_clear s m hq hs hr
    have same : (s.onMill m fun x => { x with shaft := rest }).ctx m.other c = s.ctx m.other c := by simp [State.ctx]
    obtain ⟨met, hp⟩ := (s.onMill m fun x => { x with shaft := rest }).enginePost_ctx m.other c ctr n
    rw [same] at hp
    refine ⟨_, congrArg Host.Outcome.next sent, ?_, ?_, fun i hi => ?_, ?_⟩
    · rw [hp]; exact cellGet_cellSet_self ..
    · simp [State.enginePost_mill_other]
    · rw [hp]; exact cellGet_cellSet_of_ne _ _ _ _ _ hi
    · rw [hp]

end Sys2Proof.Machine
end

section
/-! PROOFS of 02_stone.md: the loader (R67), passes and their banks (R79 to R82), comparisons (R83 to R87), abandonment and drains
(R81, R93, R94), repair and self-test (R89 to R98). -/

namespace Sys2Proof.Machine

variable (s : State) (m : MillId) (n : Fin 24)

/-! ## A field of a word after a write of a field -/

theorem natBits_eq_mod_div (x lo w : Nat) : natBits x lo w = x % 2 ^ (lo + w) / 2 ^ lo := by
  rw [natBits, Nat.pow_add, Nat.mod_mul_right_div_self]

theorem natBits_mod_two_pow {lo w k : Nat} (x : Nat) (h : lo + w ≤ k) : natBits (x % 2 ^ k) lo w = natBits x lo w := by
  rw [natBits_eq_mod_div, natBits_eq_mod_div, Nat.mod_mod_of_dvd _ (Nat.pow_dvd_pow 2 h)]

/-- A number with a field replaced: the bits above the field, the new field, and the bits below. -/
theorem replace_natBits_eq (x lo w v : Nat) : x - natBits x lo w * 2 ^ lo + v * 2 ^ lo =
    2 ^ lo * (2 ^ w * (x / 2 ^ lo / 2 ^ w) + v) + x % 2 ^ lo := by
  have below := Nat.div_add_mod x (2 ^ lo)
  have field := congrArg (2 ^ lo * ·) (Nat.div_add_mod (x / 2 ^ lo) (2 ^ w))
  simp only [Nat.mul_add] at field ⊢
  rw [natBits, Nat.mul_comm _ (2 ^ lo), Nat.mul_comm v]
  omega

theorem bitsOf_putBits_self {k lo w : Nat} (x : BitVec k) {v : Nat} (h : lo + w ≤ k) (hv : v < 2 ^ w) :
    bitsOf (putBits x lo w v) lo w = v := by
  rw [bitsOf, putBits, BitVec.toNat_ofNat, natBits_mod_two_pow _ h, Nat.mod_eq_of_lt hv, replace_natBits_eq, natBits,
    Nat.mul_add_div (Nat.two_pow_pos lo), Nat.div_eq_of_lt (Nat.mod_lt _ (Nat.two_pow_pos lo)), Nat.add_zero, Nat.mul_add_mod,
    Nat.mod_eq_of_lt hv]

/-- A field that lies below the one written. -/
theorem bitsOf_putBits_below {k lo w lo' w' : Nat} (x : BitVec k) (v : Nat) (h : lo' + w' ≤ lo) (hk : lo ≤ k) :
    bitsOf (putBits x lo w v) lo' w' = bitsOf x lo' w' := by
  rw [bitsOf, putBits, BitVec.toNat_ofNat, natBits_mod_two_pow _ (h.trans hk), replace_natBits_eq, ← natBits_mod_two_pow _ h,
    Nat.mul_add_mod, Nat.mod_mod, natBits_mod_two_pow _ h, bitsOf]

theorem State.putFld_fld_self (p : Page) (off : Nat) {lo w v : Nat} (h : lo + w ≤ 32) (hv : v < 2 ^ w) :
    (s.putFld p off lo w v).fld p off lo w = v := by
  rw [State.fld, State.putFld, State.setWord_word_self, bitsOf_putBits_self _ h hv]

theorem State.putFld_fld_below (p : Page) (off v : Nat) {lo w lo' w' : Nat} (h : lo' + w' ≤ lo) (hk : lo ≤ 32) :
    (s.putFld p off lo w v).fld p off lo' w' = s.fld p off lo' w' := by
  rw [State.fld, State.putFld, State.setWord_word_self, bitsOf_putBits_below _ v h hk, State.fld]

/-! ## A stone after a change of a stone -/

/-- A stone that the mill has is the one changed. -/
theorem State.onStone_stone_of_lt {k : Nat} (f : Stone → Stone) (h : k < (s.mill m).stones.length) :
    (s.onStone m k f).stone m k = f (s.stone m k) := by
  simp [State.stone, listOn, h]

/-- A stone that differs from the reset stone is one that the mill has. -/
theorem State.stone_lt_of_ne_reset {k : Nat} (h : s.stone m k ≠ .reset) : k < (s.mill m).stones.length := by
  by_contra hk
  exact h (List.getD_eq_default _ _ (Nat.le_of_not_lt hk))

/-- A part of a stone that a change leaves as it is. -/
theorem State.onStone_stone_part {α : Type} (part : Stone → α) {k : Nat} (f : Stone → Stone) (h : ∀ x, part (f x) = part x) :
    part ((s.onStone m k f).stone m k) = part (s.stone m k) := by
  by_cases hk : k < (s.mill m).stones.length
  · rw [State.onStone_stone_of_lt s m f hk, h]
  · simp [State.stone, listOn, hk]

/-- Two changes that do the same to a stone as it stands. -/
theorem State.onStone_congr {k : Nat} {f g : Stone → Stone} (h : f (s.stone m k) = g (s.stone m k)) :
    s.onStone m k f = s.onStone m k g := by
  have same : listOn (s.mill m).stones k f = listOn (s.mill m).stones k g := by
    rw [listOn, listOn, List.modify_eq_set_getElem?, List.modify_eq_set_getElem?]
    cases hx : (s.mill m).stones[k]? with
    | none => rfl
    | some x =>
      have hs : s.stone m k = x := by simp [State.stone, hx]
      simp [← hs, h]
  exact s.onMill_congr m (by rw [same])

/-- What each of a list of changes leaves, the list of them leaves. -/
theorem State.forAll_part {α β : Type} (part : State → β) (l : List α) (f : State → α → State) (h : ∀ s a, part (f s a) = part s) :
    part (s.forAll l f) = part s := by
  unfold State.forAll
  induction l generalizing s with
  | nil => rfl
  | cons a l ih => exact (ih _).trans (h s a)

/-! ## What the tallies, the events and the history leave of the stones -/

/-- The stones, the tolls and the memory are as they were, and so is every word above the common header of its page. -/
structure SparesStones (s t : State) : Prop where
  stones : ∀ k, (t.mill k).stones = (s.mill k).stones
  toll : ∀ k, (t.mill k).toll = (s.mill k).toll
  mem : t.mem = s.mem
  word : ∀ p o, 0x100 ≤ o → o < 0x1000 → t.word p o = s.word p o

namespace SparesStones

variable {s t u : State}

theorem refl (s : State) : SparesStones s s := ⟨fun _ => rfl, fun _ => rfl, rfl, fun _ _ _ _ => rfl⟩

theorem trans (h : SparesStones s t) (g : SparesStones t u) : SparesStones s u :=
  ⟨fun k => (g.stones k).trans (h.stones k), fun k => (g.toll k).trans (h.toll k), g.mem.trans h.mem,
    fun p o ho hl => (g.word p o ho hl).trans (h.word p o ho hl)⟩

theorem stone (h : SparesStones s t) (m : MillId) (k : Nat) : t.stone m k = s.stone m k := by
  rw [State.stone, State.stone, h.stones]

theorem fld (h : SparesStones s t) (p : Page) {o : Nat} (ho : 0x100 ≤ o) (hl : o < 0x1000) (lo w : Nat) :
    t.fld p o lo w = s.fld p o lo w := by
  rw [State.fld, State.fld, h.word p o ho hl]

theorem ite {c : Prop} [Decidable c] (h : SparesStones s t) (g : SparesStones s u) : SparesStones s (if c then t else u) := by
  split
  · exact h
  · exact g

theorem forAll {α : Type} (l : List α) (f : State → α → State) (h : ∀ s a, SparesStones s (f s a)) (s : State) :
    SparesStones s (s.forAll l f) := by
  unfold State.forAll
  induction l generalizing s with
  | nil => exact refl s
  | cons a l ih => exact (h s a).trans (ih _)

/-- A change that leaves the mills' stones and tolls, the memory and the registers. -/
theorem of_regs (hs : ∀ k, (t.mill k).stones = (s.mill k).stones) (ht : ∀ k, (t.mill k).toll = (s.mill k).toll) (hm : t.mem = s.mem)
    (hr : t.regs = s.regs) : SparesStones s t :=
  ⟨hs, ht, hm, fun p o _ _ => by rw [State.word, State.word, hr]⟩

theorem onMill (s : State) (m : MillId) (f : Mill → Mill) (hs : ∀ x, (f x).stones = x.stones) (ht : ∀ x, (f x).toll = x.toll) :
    SparesStones s (s.onMill m f) := by
  refine of_regs (fun k => ?_) (fun k => ?_) (by simp) (by simp) <;> cases m <;> cases k
  exacts [hs _, rfl, rfl, hs _, ht _, rfl, rfl, ht _]

/-- A word of a common header is written. -/
theorem setWord (s : State) (p : Page) {off : Nat} (v : W32) (h : off < 0x100) : SparesStones s (s.setWord p off v) :=
  ⟨fun k => by simp, fun k => by simp, rfl, fun q o ho hl => s.setWord_word_page p q off o v (by omega) hl (.inr (by omega))⟩

theorem putFld (s : State) (p : Page) {off : Nat} (lo w v : Nat) (h : off < 0x100) : SparesStones s (s.putFld p off lo w v) :=
  setWord s p _ h

theorem tally (s : State) (p : Page) (k v : Nat) : SparesStones s (s.tally p k v) :=
  of_regs (fun k => by simp) (fun k => by simp) rfl rfl

/-- What an event changes beside registers is neither a stone, nor a toll, nor memory. -/
theorem of_onlyEvents (h : OnlyEvents s t) (hr : t.regs = s.regs) : SparesStones s t := by
  obtain ⟨_, _, _, _, _, _, _, rfl⟩ := onlyEvents_iff.1 h
  exact of_regs (fun k => by cases k <;> rfl) (fun k => by cases k <;> rfl) rfl hr

theorem logTrigger (s : State) (m : MillId) : SparesStones s (s.logTrigger m) :=
  of_onlyEvents (OnlyEvents.logTrigger s m) (by unfold State.logTrigger; split <;> simp)

theorem trigOnEvent (s : State) (m : MillId) (p : Page) (bit : Nat) : SparesStones s (s.trigOnEvent m p bit) :=
  ite (logTrigger s m) (refl s)

theorem toSystem (s : State) (p : Page) (bit : Nat) (nmi : Bool) : SparesStones s (s.toSystem p bit nmi) := by
  refine forAll _ _ (fun s k => ?_) s
  exact (tally s (.floor k 0) 6 1).trans (onMill _ k _ (fun x => rfl) (fun x => rfl))

theorem sendRoute (s : State) (r : Nat) : SparesStones s (s.sendRoute r) :=
  of_onlyEvents (OnlyEvents.sendRoute s r) (by
    unfold State.sendRoute State.sendMsix State.hostSend
    repeat' split
    all_goals rfl)

theorem host (s : State) (h : HostPort) : SparesStones s { s with host := h } :=
  of_regs (fun k => by cases k <;> rfl) (fun k => by cases k <;> rfl) rfl rfl

theorem fifoFull (s : State) : SparesStones s s.fifoFull := by
  unfold State.fifoFull
  refine (tally s .host 9 1).trans (ite (refl _) ?_)
  refine (host _ _).trans (ite (refl _) ?_)
  refine (putFld _ .host _ _ _ (by decide)).trans ((trigOnEvent _ .m0 _ _).trans ((trigOnEvent _ .m1 _ _).trans (ite ?_ (refl _))))
  exact (toSystem _ _ _ _).trans (ite ((tally _ _ _ _).trans (sendRoute _ _)) (refl _))

theorem toHost (s : State) (p : Page) (bit : Nat) : SparesStones s (s.toHost p bit) := by
  unfold State.toHost
  split
  · exact refl s
  · refine ite ?_ (refl s)
    exact (ite ((host s _).trans (tally _ _ _ _)) (fifoFull s)).trans (sendRoute _ _)

theorem raise (s : State) (p : Page) (bit : Nat) : SparesStones s (s.raise p bit) := by
  unfold State.raise
  refine ite (refl s) ?_
  refine (putFld s p _ _ _ (by decide)).trans ((trigOnEvent _ .m0 _ _).trans ((trigOnEvent _ .m1 _ _).trans (ite ?_ (ite ?_ (refl _)))))
  · exact (toSystem _ _ _ _).trans (toHost _ _ _)
  · exact toSystem _ _ _ _

/-- An occurrence that is injected is counted in the header of its page (R557). -/
theorem takeInj (s : State) (p : Page) (code : Nat) : SparesStones s (s.takeInj p code).2 := by
  unfold State.takeInj
  split
  · exact (setWord s p _ (by decide)).trans (of_regs (fun k => by cases k <;> rfl) (fun k => by cases k <;> rfl) rfl rfl)
  · exact refl s

theorem histWrite (s : State) (r : HistRec) (injected : Bool) : SparesStones s (s.histWrite r injected) := by
  have nv (s : State) (x : NonVol) : SparesStones s { s with nv := x } :=
    of_regs (fun k => by cases k <;> rfl) (fun k => by cases k <;> rfl) rfl rfl
  unfold State.histWrite
  refine ite (refl s) ((takeInj s .history 2).trans (ite (tally _ _ _ _) ?_))
  refine SparesStones.trans ?_ ((nv _ _).trans (tally _ _ _ _))
  unfold State.historyRoom
  exact ite (refl _) ((nv _ _).trans (tally _ _ _ _))

theorem codes (s : State) (cs : List Ecc) : SparesStones s { s with codes := cs } :=
  of_regs (fun k => by cases k <;> rfl) (fun k => by cases k <;> rfl) rfl rfl

theorem addJob (s : State) (m : MillId) (stage : Nat) (j : LineJob) : SparesStones s (s.addJob m stage j) := by
  unfold State.addJob State.setStageJobs State.onGov
  exact onMill s m _ (fun _ => rfl) fun _ => rfl

theorem onRaceOp (s : State) (k : MillId) (id : Nat) (f : RaceOp → RaceOp) : SparesStones s (s.onRaceOp k id f) := by
  unfold State.onRaceOp State.onRace
  exact onMill s k _ (fun _ => rfl) fun _ => rfl

end SparesStones

/-! ## A broadcast to a stone that its mill does not have (R67) -/

/-- A load of two rows for stone 0 (RLOAD, R299). -/
def twoRowLoad : RaceOp :=
  { id := 0, system := false, slot := 0x2000000081, imm := 0, ax := 0x1000000000000000, ay := 0, pc := 0, prog := 0, parts := [],
    data := [], brefs := [], done := false, failed := false }

/-- A started module whose mill 0 holds the load and a primed E4M3 tensor of one line, and has no stone. -/
def stonelessModule : State :=
  let mill := State.reset.mill0
  { State.reset with
    supply := { Supply.reset with stage := 9 }
    mem := [(0x200004, 16), (0x200008, 1), (0x20000D, 1)]
    mill0 := { mill with
      stones := []
      race := { mill.race with ops := [twoRowLoad] }
      sluice := { mill.sluice with tlb := [{ vpage := 0, frame := 0x200000, write := true, wp := false, dirty := true }] } } }

/-- The read of the load's first row. -/
def stonelessRead : GovRes (OpndTensor × Int × List Elem) :=
  stonelessModule.govRun (loaderAt .m0 0 0 false) 0 (loadRow (loaderAt .m0 0 0 false) twoRowLoad (twoRowLoad.block .m0) 0)

def GovRes.isOk {α : Type} : GovRes α → Bool
  | .ok _ _ => true
  | .stop _ _ => false
  | .hold => false

theorem GovRes.eq_ok_of_isOk {α : Type} {r : GovRes α} (h : r.isOk = true) : ∃ a u, r = .ok a u := by
  cases r with
  | ok a u => exact ⟨a, u, rfl⟩
  | stop abn u => exact absurd h Bool.false_ne_true
  | hold => exact absurd h Bool.false_ne_true

theorem stonelessRead_isOk : stonelessRead.isOk = true := by decide +kernel

theorem stonelessModule_loads : stonelessModule.stoneReady .m0 0 = true ∧ stonelessModule.loadOp .m0 0 = some twoRowLoad ∧
    stonelessModule.loadable .m0 0 twoRowLoad = true ∧ (stonelessModule.stone .m0 0).shadow.written 0 = false := by decide +kernel

/-- The row goes to no shadow set: a stone that is not there reads as the reset stone. -/
theorem shadowBroadcast_stonelessModule : (shadowBroadcast .m0 0 [] stonelessModule).stone .m0 (0 : Fin 24).val = .reset := by
  decide +kernel

/-- Refutes O29, in its clause on the loader: the statement speaks of every state, and a state's list of stones may be shorter than
24. Where the mill does not have the stone, nothing bars the load (an absent stone reads as one in reset), its row is read, and the
broadcast changes no stone: the shadow set that was to hold the row is the empty one. -/
theorem not_shadowSetsLoadSwapAndShift : ¬ Obligations.ShadowSetsLoadSwapAndShift := by
  unfold Obligations.ShadowSetsLoadSwapAndShift
  rintro ⟨loads, -⟩
  obtain ⟨ready, load, goes, fresh⟩ := stonelessModule_loads
  obtain ⟨⟨t, edge, es⟩, u, read⟩ := GovRes.eq_ok_of_isOk stonelessRead_isOk
  obtain ⟨-, -, reads⟩ := (loads .m0 0 [] twoRowLoad stonelessModule ready load goes).2 fresh
  obtain ⟨v, done, -, -, -, -, row, -⟩ := reads t edge es u read
  obtain ⟨⟨r, -, -, -, -, rows⟩, -⟩ := row rfl
  have same : shadowBroadcast .m0 0 [] stonelessModule = v := Host.Outcome.next.inj done
  rw [← same, shadowBroadcast_stonelessModule] at rows
  exact absurd rows.symm (by simp [Stone.reset, StatSet.reset])

/-! ## A bank after a pass (R80, R82) -/

/-- A word of a bank is the word with its key. -/
theorem find?_eq_of_nodup_keys {l : List BankWord} {x : BankWord} (hl : (l.map (·.1)).Nodup) (hx : x ∈ l) :
    l.find? (fun w => w.1 == x.1) = some x := by
  induction l with
  | nil => exact absurd hx List.not_mem_nil
  | cons y l ih =>
    obtain ⟨hy, hl⟩ := List.nodup_cons.1 hl
    obtain rfl | hx := List.mem_cons.1 hx
    · simp
    · have hne : y.1 ≠ x.1 := fun e => hy (List.mem_map.2 ⟨x, hx, e.symm⟩)
      rw [List.find?_cons_of_neg (by simpa using hne), ih hl hx]

/-- The word that ADD leaves for a word of a pass: the bank's word with that key, if any, and the new one added to it. -/
def Bank.sum (b : Bank) (compat : Bool) (x : BankWord) : BankWord :=
  (x.1, ((b.words.find? fun w => w.1 == x.1).map fun w => (accumulate compat w.2.1 x.2.1).1).getD x.2.1, x.2.2)

theorem Bank.write_add_words (b : Bank) (compat : Bool) (new : List BankWord) : (b.write .add compat new).1.words =
    new.map (b.sum compat) ++ b.words.filter fun w => !new.any fun x => x.1 == w.1 := by
  simp only [Bank.write, List.map_map]
  congr 2
  funext ⟨k, y, e⟩
  simp only [Function.comp_apply, Bank.sum]
  cases b.words.find? fun w => w.1 == k <;> rfl

/-- A word that a pass gives, after ADD. -/
theorem Bank.word?_add_of_mem (b : Bank) (compat : Bool) {new : List BankWord} {row wf : Nat} {y : W32} {e : Int}
    (hn : (new.map (·.1)).Nodup) (hx : (256 * row + wf, y, e) ∈ new) :
    (b.write .add compat new).1.word? row wf = some (b.sum compat (256 * row + wf, y, e)).2 := by
  have found := find?_eq_of_nodup_keys hn hx
  have keys : ((fun w : BankWord => w.1 == 256 * row + wf) ∘ b.sum compat) = fun w => w.1 == 256 * row + wf := rfl
  simp only [Bank.word?, Bank.write_add_words, List.find?_append, List.find?_map, keys, found, Option.map_some, Option.some_or]

/-- A word that a pass does not give, after ADD. -/
theorem Bank.word?_add_of_not_mem (b : Bank) (compat : Bool) {new : List BankWord} {row wf : Nat}
    (hn : ∀ x ∈ new, x.1 ≠ 256 * row + wf) : (b.write .add compat new).1.word? row wf = b.word? row wf := by
  have new_none : (new.map (b.sum compat)).find? (fun w => w.1 == 256 * row + wf) = none := by
    simpa [Bank.sum] using fun k y e h => hn (k, y, e) h
  have kept (w : BankWord) : ((!new.any fun x => x.1 == w.1) = true ∧ (w.1 == 256 * row + wf) = true) ↔
      (w.1 == 256 * row + wf) = true := by
    refine and_iff_right_of_imp fun hw => ?_
    simpa [beq_iff_eq.1 hw] using fun k y e h => hn (k, y, e) h
  simp only [Bank.word?, Bank.write_add_words, List.find?_append, new_none, Option.none_or, List.find?_filter, kept,
    Bool.decide_eq_true]

theorem Bank.word?_first (b : Bank) (compat : Bool) (new : List BankWord) (row wf : Nat) :
    (b.write .first compat new).1.word? row wf = (new.find? fun w => w.1 == 256 * row + wf).map (·.2) := rfl

/-- The bank word comes first in a sum, and a word that the bank does not hold is as the pass gives it. -/
theorem Bank.sum_of_word? (b : Bank) (compat : Bool) {row wf : Nat} (y : W32) (e : Int) {w : W32} {e' : Int}
    (h : b.word? row wf = some (w, e')) :
    (b.sum compat (256 * row + wf, y, e)).2 = ((accumulate compat w y).1, e) := by
  obtain ⟨x, hx, hw⟩ := Option.map_eq_some_iff.1 h
  simp [Bank.sum, hx, hw]

theorem Bank.sum_of_not_word? (b : Bank) (compat : Bool) {row wf : Nat} (y : W32) (e : Int) (h : b.word? row wf = none) :
    (b.sum compat (256 * row + wf, y, e)).2 = (y, e) := by
  simp [Bank.sum, Option.map_eq_none_iff.1 h]

theorem Stone.bank_passOver (x : Stone) (p : StonePass) {b : Nat} (hb : b < 2) (hf : p.frees = true) (hp : p.bank = some b) :
    ((x.passOver p).bank b).st = .free ∧ (x.passOver p).bank (1 - b) = x.bank (1 - b) ∧ (x.passOver p).pass = none := by
  obtain rfl | rfl : b = 0 ∨ b = 1 := by omega
  · simp [Stone.passOver, hf, hp, Stone.setBank, Stone.bank, Bank.reset]
  · simp [Stone.passOver, hf, hp, Stone.setBank, Stone.bank, Bank.reset]

/-! ## The work of a pass once its operands are read (R66, R82) -/

section begins
variable (w : Work) (o : RaceOp) (t : Streamed) (bank : Nat) (mode : Mode)

/-- What the operands of a pass come to. -/
def State.operandKind : KindCheck :=
  let rows := (s.stone m n.val).active.rows.map (·.2)
  passKind rows t (s.mill m).governor.compat (w.namesBF16 rows t)

theorem State.beginPass_of_stone {cause opnd : Nat} (h : s.operandKind m n w t = .stone cause opnd) :
    s.beginPass m n w o t bank mode = s.stoneFault m n cause false 0 opnd o := by
  simp only [State.operandKind] at h
  simp only [State.beginPass, h]

theorem State.beginPass_of_gov {cause line : Nat} {handle : W64} (h : s.operandKind m n w t = .gov cause handle line) :
    s.beginPass m n w o t bank mode = (s.govFault m cause (handleDesc handle) 14 line (handleStep handle) o.pc 3 o.system
      false).onStone m n.val fun x => { x with failed := some 3 } := by
  simp only [State.operandKind] at h
  simp only [State.beginPass, h, abnCause, Bool.false_eq_true, if_false]

variable {k : PassKind} (hk : s.operandKind m n w t = .ok k)
include hk

theorem State.beginPass_of_refused {cause : Nat} (h : s.modeUse m n.val bank mode = .fault cause) :
    s.beginPass m n w o t bank mode = s.bankFault m n bank mode.use cause o := by
  simp only [State.operandKind] at hk
  simp only [State.beginPass, hk, h]

theorem State.beginPass_of_unread (h : s.modeUse m n.val bank mode = .use) (hm : mode = .first ∨ mode = .carry) :
    s.beginPass m n w o t bank mode = s.runPass m n w t k bank mode := by
  simp only [State.operandKind] at hk
  obtain rfl | rfl := hm <;> simp [State.beginPass, hk, h]

theorem State.beginPass_of_read (h : s.modeUse m n.val bank mode = .use) (hm : mode = .add ∨ mode = .carryBank) {bad : Bool}
    {v : State} (hr : s.bankRead m n bank o = (bad, v)) :
    s.beginPass m n w o t bank mode = if bad = true then v else v.runPass m n w t k bank mode := by
  simp only [State.operandKind] at hk
  simp only [State.beginPass, hk, h, hm, hr, if_true]

end begins

/-! ## STONE_PASS -/

section passes
variable (codes : List Ecc) {w : Work} {o : RaceOp} {bank : Nat} {mode : Mode}
  (hr : s.stoneReady m n = true) (hc : (s.stone m n.val).clear = true) (hf : s.feederHeld m n.val = false)
  (hsw : s.swapPending m n.val = none) (hsh : s.shiftPending m n.val = none) (hw : s.stoneWork m n.val = some w)
  (ho : s.workOp m w = some o) (hp : s.planOf m n.val w = (bank, mode))
include hr hc hf hsw hsh hw ho hp

theorem stonePass_of_wait (h : s.modeUse m n.val bank mode = .wait) : stonePass m n codes s = s := by
  simp [stonePass, hr, hc, hf, hsw, hsh, hw, ho, hp, h]

variable (h : s.modeUse m n.val bank mode ≠ .wait)
include h

theorem stonePass_of_hold (hs : ({ s with codes := codes } : State).streamed m n.val w = .hold) :
    stonePass m n codes s = { s with codes := [] } := by
  simp [stonePass, hr, hc, hf, hsw, hsh, hw, ho, hp, h, State.coded, hs]

theorem stonePass_of_stop {abn : Nat} {t : State} (hs : ({ s with codes := codes } : State).streamed m n.val w = .stop abn t) :
    stonePass m n codes s = { t.onStone m n.val fun x => { x with failed := some abn } with codes := [] } := by
  simp [stonePass, hr, hc, hf, hsw, hsh, hw, ho, hp, h, State.coded, hs]

theorem stonePass_of_streamed {t : Streamed} {u : State} (hs : ({ s with codes := codes } : State).streamed m n.val w = .ok t u) :
    stonePass m n codes s = { u.beginPass m n w o t bank mode with codes := [] } := by
  simp [stonePass, hr, hc, hf, hsw, hsh, hw, ho, hp, h, State.coded, hs]

end passes

/-- Settles O30: what the plan's mode and the state of the bank make of a pass, and what a pass makes of a bank, word by word. That a
CARRY pass without a column drops its results (log entry 34), and which operations name a BF16 pass (log entry 35), are readings of the
model. -/
theorem passesUseTheirBankByTheirMode : Obligations.PassesUseTheirBankByTheirMode := by
  unfold Obligations.PassesUseTheirBankByTheirMode
  refine ⟨?passes, ?given, ?others, fun _ _ _ => ⟨rfl, rfl⟩, fun x p b => x.bank_passOver p, ?uses⟩
  case passes =>
    intro m n codes w o bank mode s hr hc hf hsw hsh hw ho hp out read
    refine ⟨fun h => congrArg Host.Outcome.next (stonePass_of_wait s m n codes hr hc hf hsw hsh hw ho hp h), fun h => ⟨?_, ?_, ?_⟩⟩
    · exact fun hs => congrArg Host.Outcome.next (stonePass_of_hold s m n codes hr hc hf hsw hsh hw ho hp h hs)
    · exact fun abn t hs => congrArg Host.Outcome.next (stonePass_of_stop s m n codes hr hc hf hsw hsh hw ho hp h hs)
    intro t u hs rows kind
    have run {v : State} (hv : u.beginPass m n w o t bank mode = v) : exec (.stonePass m n codes) s = .next (out v) :=
      congrArg Host.Outcome.next ((stonePass_of_streamed s m n codes hr hc hf hsw hsh hw ho hp h hs).trans (congrArg out hv))
    refine ⟨fun cause opnd hk => run (u.beginPass_of_stone m n w o t bank mode hk),
      fun cause handle line hk => run (u.beginPass_of_gov m n w o t bank mode hk), fun k hk => ⟨?_, fun hu => ⟨?_, ?_⟩⟩⟩
    · exact fun c hu => run (u.beginPass_of_refused m n w o t bank mode hk hu)
    · exact fun hm => run (u.beginPass_of_unread m n w o t bank mode hk hu hm)
    · intro hm v
      exact ⟨fun hb => run (u.beginPass_of_read m n w o t bank mode hk hu hm hb),
        fun hb => run (u.beginPass_of_read m n w o t bank mode hk hu hm hb)⟩
  case given =>
    intro b compat new row wf y e hn hx
    refine ⟨?_, rfl, fun w e' hw => ?_, fun hw => ?_, rfl⟩
    · rw [Bank.word?_first, find?_eq_of_nodup_keys hn hx, Option.map_some]
    · rw [b.word?_add_of_mem compat hn hx, b.sum_of_word? compat y e hw]
    · rw [b.word?_add_of_mem compat hn hx, b.sum_of_not_word? compat y e hw]
  case others =>
    intro b compat new row wf hn
    refine ⟨?_, b.word?_add_of_not_mem compat hn⟩
    rw [Bank.word?_first, Option.map_eq_none_iff, List.find?_eq_none]
    simpa using fun k y e h => hn (k, y, e) h
  case uses =>
    intro toll k hk
    obtain ⟨k, rfl⟩ : ∃ j, k = j + 1 := ⟨k - 1, by omega⟩
    exact ⟨rfl, rfl, rfl, rfl, rfl, rfl, rfl, rfl⟩

/-! ## A comparison (R84, R85) -/

theorem checkSkipped_eq_false_iff (c : WfCheck) :
    checkSkipped c = false ↔ c.d.isFinite = true ∧ c.c.isFinite = true ∧ c.s.isFinite = true := by
  simp [checkSkipped, and_assoc]

/-- A wavefront is counted, and so is a comparison that is left out (R85); `p` is its pass with the comparisons still to come. -/
def State.countWavefront (p : StonePass) (c : WfCheck) : State :=
  let u := (if c.ones = true then s.tally (.stone m n) 1 1
    else (s.tally (.stone m n) 0 1).tally (.stone m n) 7 (256 - (s.stone m n.val).active.rows.length)).onStone m n.val fun y =>
      { y with pass := some p }
  if checkSkipped c = true then u.tally (.stone m n) 12 1 else u

/-- τ is read from the registers, which the count of a wavefront leaves as they are. -/
theorem State.countWavefront_tolExp (p : StonePass) (c : WfCheck) (compat : Bool) :
    (s.countWavefront m n p c).tolExp m n compat = s.tolExp m n compat := by
  unfold State.countWavefront State.tolExp State.fld
  split <;> split <;> simp

/-- Is a comparison made and does it fail, or has a ones wavefront found a row whose result is not its h (R84 to R86)? -/
def State.wavefrontFails (c : WfCheck) : Bool := c.onesBad.isSome || (!checkSkipped c && checkFails c (s.tolExp m n c.compat))

theorem State.wavefrontFails_iff (c : WfCheck) : s.wavefrontFails m n c = true ↔
    c.onesBad ≠ none ∨ (checkSkipped c = false ∧ checkFails c (s.tolExp m n c.compat) = true) := by
  simp [State.wavefrontFails, Option.isSome_iff_ne_none]

theorem State.countWavefront_wavefrontFails (p : StonePass) (c : WfCheck) :
    (s.countWavefront m n p c).wavefrontFails m n c = s.wavefrontFails m n c := by
  simp only [State.wavefrontFails, State.countWavefront_tolExp]

/-- The last comparison of a pass, where none has failed, makes the stone's part. -/
theorem wavefrontDone_of_check {p : StonePass} {c : WfCheck} {rest : List WfCheck} (hs : s.halted = false)
    (hp : (s.stone m n.val).pass = some p) (hc : p.checks = c :: rest) :
    let p' := { p with checks := rest }
    let u := s.countWavefront m n p' c
    let v := if u.wavefrontFails m n c = true then u.checkFailure m n p' c else u
    wavefrontDone m n s = if rest = [] ∧ (v.stone m n.val).failed = none ∧ (s.stone m n.val).draining = false
      then v.passEnded m n p' else v := by
  simp only [wavefrontDone, hs, hp, hc, Bool.false_eq_true, if_false, List.isEmpty_iff, Option.isNone_iff_eq_none, Bool.not_eq_true']
  rfl

/-- Settles O31: the comparison of a wavefront on the state that has counted it. That a ones wavefront with a value that is not finite
still has its rows compared is a reading of the model (log entry 34). -/
theorem wavefrontsAreCompared : Obligations.WavefrontsAreCompared := by
  unfold Obligations.WavefrontsAreCompared
  refine ⟨checkSkipped_eq_false_iff, fun m n p c rest s hs hp hc => ?_⟩
  refine congrArg Host.Outcome.next ((wavefrontDone_of_check s m n hs hp hc).trans ?_)
  simp only [State.countWavefront_wavefrontFails, State.wavefrontFails_iff]
  rfl

/-! ## Where a stone stands in its race (R122, R123) -/

/-- The race position of a stone is that of its mill's race. -/
theorem State.racePos_of_race {s t : State} {m : MillId} (h : (t.mill m).race = (s.mill m).race) (k : Nat) :
    t.racePos m k = s.racePos m k := by
  rw [State.racePos, State.racePos, State.raceOwner, State.raceOwner, h]

/-- A change of a stone that leaves whether it is in service and in repair leaves its role. -/
theorem State.onStone_roleOf {k : Nat} (f : Stone → Stone) (ho : ∀ x, (f x).outOfService = x.outOfService)
    (hr : ∀ x, (f x).repair = x.repair) : (s.onStone m k f).roleOf m k = s.roleOf m k := by
  have out := s.onStone_stone_part m Stone.outOfService (k := k) f ho
  have repair := s.onStone_stone_part m Stone.repair (k := k) f hr
  have retired : (s.onStone m k f).unitOut = s.unitOut := funext fun u => by simp [State.unitOut]
  have bound : (s.onStone m k f).binding m k = s.binding m k := by simp [State.binding]
  have power : ((s.onStone m k f).mill m).power = (s.mill m).power := by simp
  rw [State.roleOf, State.roleOf, State.takesPart, State.takesPart, out, repair, retired, bound, power]

theorem State.tally_roleOf (p : Page) (i v k : Nat) : (s.tally p i v).roleOf m k = s.roleOf m k := by
  simp [State.roleOf, State.takesPart, State.stone, State.unitOut, State.binding]

/-! ## The abandonment of a pass (R93, R94, R134) -/

theorem boolNat_or (a b : Bool) : boolNat (a || b) = if a = true ∨ b = true then 1 else 0 := by
  cases a <;> cases b <;> rfl

@[simp] theorem Stone.setBank_failed (x : Stone) (b : Nat) (k : Bank) : (x.setBank b k).failed = x.failed := by
  unfold Stone.setBank; split <;> rfl
@[simp] theorem Stone.setBank_outOfService (x : Stone) (b : Nat) (k : Bank) : (x.setBank b k).outOfService = x.outOfService := by
  unfold Stone.setBank; split <;> rfl
@[simp] theorem Stone.setBank_repair (x : Stone) (b : Nat) (k : Bank) : (x.setBank b k).repair = x.repair := by
  unfold Stone.setBank; split <;> rfl

/-- A stone with the bank that its pass writes made invalid. -/
def Stone.spoilBank (x : Stone) : Stone :=
  match x.pass.bind (·.bank) with
  | some b => x.setBank b { x.bank b with st := .invalid, toll := false }
  | none => x

@[simp] theorem Stone.spoilBank_failed (x : Stone) : x.spoilBank.failed = x.failed := by
  unfold Stone.spoilBank; split <;> simp
@[simp] theorem Stone.spoilBank_outOfService (x : Stone) : x.spoilBank.outOfService = x.outOfService := by
  unfold Stone.spoilBank; split <;> simp
@[simp] theorem Stone.spoilBank_repair (x : Stone) : x.spoilBank.repair = x.repair := by
  unfold Stone.spoilBank; split <;> simp

/-- A stone as its feeder stops: it drains, the bank being written invalid. -/
def Stone.stopped (x : Stone) : Stone :=
  let y := x.spoilBank
  { y with draining := true, failed := some (y.failed.getD 5), recv := none, feed := none, injection := 0 }

theorem Stone.stopped_eq (x : Stone) : x.stopped =
    { x.spoilBank with draining := true, failed := some (x.failed.getD 5), recv := none, feed := none, injection := 0 } := by
  rw [Stone.stopped, x.spoilBank_failed]

/-- The part of an abandonment that the stone itself makes. -/
def State.stopStone : State := (s.tally (.stone m n) 14 (boolNat (s.stone m n.val).abandons)).onStone m n.val Stone.stopped

theorem State.stopStone_roleOf : (s.stopStone m n).roleOf m n.val = s.roleOf m n.val := by
  rw [State.stopStone, State.onStone_roleOf _ m Stone.stopped Stone.spoilBank_outOfService Stone.spoilBank_repair,
    State.tally_roleOf]

theorem State.stopStone_racePos : (s.stopStone m n).racePos m n.val = s.racePos m n.val :=
  State.racePos_of_race (by simp [State.stopStone]) _

/-- Is the stone pulled down by its race, with no fault of its own? -/
def State.pulledDown : Bool :=
  (s.stone m n.val).failed.isNone && (s.stone m n.val).pass.isSome && s.feederHeld m n.val

theorem passAbort_eq : passAbort m n s =
    if s.halted || (s.stone m n.val).draining || !((s.stone m n.val).failed.isSome || s.pulledDown m n) then s
    else if s.pulledDown m n || (s.stone m n.val).failed == some 0 || (s.stopStone m n).roleOf m n.val == .scatter then s.stopStone m n
    else (s.stopStone m n).raceAbandon (s.raceOwner m) ((s.stopStone m n).racePos m n.val) ((s.stone m n.val).failed.getD 5) := rfl

section passAbort
variable (hs : s.halted = false) (hd : (s.stone m n.val).draining = false)
include hs hd

theorem passAbort_of_pulledDown (h : s.pulledDown m n = true) : passAbort m n s = s.stopStone m n := by
  simp [passAbort_eq, hs, hd, h]

/-- A fault of the stone abandons its race, unless the race itself has pulled it down or it makes scatter tiles. -/
theorem passAbort_of_failed {c : Nat} (hf : (s.stone m n.val).failed = some c) : passAbort m n s =
    if c = 0 ∨ s.roleOf m n.val = .scatter then s.stopStone m n
    else (s.stopStone m n).raceAbandon (s.raceOwner m) (s.racePos m n.val) c := by
  simp [passAbort_eq, hs, hd, hf, State.pulledDown, State.stopStone_roleOf, State.stopStone_racePos]

end passAbort

theorem abortDone_of_draining (hs : s.halted = false) (hd : (s.stone m n.val).draining = true) : abortDone m n s =
    (s.onStone m n.val fun x => { x with draining := false, failed := none, pass := none }).raise (.stone m n) 8 := by
  simp only [abortDone, hs, hd, Bool.not_true, Bool.or_self, Bool.false_eq_true, if_false]

/-! ## The drain of a bank (R81, R82, R161, R412) -/

theorem bankUse_drain (st : BankState) (toll : Bool) : bankUse st toll 3 =
    if st = .accumulating then .use else .fault (if st = .invalid then 5 else 4) := by
  cases st <;> rfl

@[simp] theorem Stone.bank_setBank_self (x : Stone) (b : Nat) (k : Bank) : (x.setBank b k).bank b = k := by
  by_cases h : b = 0 <;> simp [Stone.setBank, Stone.bank, h]

/-- A reset stone has no bank to drain. -/
theorem State.stone_lt_of_accumulating {b : Nat} (h : ((s.stone m n.val).bank b).st = .accumulating) :
    n.val < (s.mill m).stones.length := by
  refine s.stone_lt_of_ne_reset m fun reset => ?_
  rw [reset, Stone.bank] at h
  split at h <;> exact absurd h (by decide)

/-- A read of a bank that finds no uncorrectable word leaves every bank as it is. -/
theorem State.bankRead_spares {bank : Nat} {o : RaceOp} {u : State} (h : s.bankRead m n bank o = (false, u)) : SparesStones s u := by
  have inj : SparesStones s (s.takeBankInj m n bank).2 := by
    unfold State.takeBankInj
    dsimp only
    split
    · exact .takeInj s _ _
    · exact .refl s
  unfold State.bankRead at h
  generalize s.takeBankInj m n bank = r at h inj
  obtain ⟨hit, v⟩ := r
  dsimp only at h inj
  split at h
  · exact absurd (Prod.mk.inj h).1 (by decide)
  · rw [← (Prod.mk.inj h).2]
    exact inj.trans ((SparesStones.codes _ _).trans ((SparesStones.tally _ _ _ _).trans (.ite (.raise _ _ _) (.refl _))))

/-- A drain that is not sampled frees the bank. -/
theorem State.sampleDrain_of_unsampled (bank : Nat) (h : (s.mill m).toll.on = false ∨ s.bit (.toll m) 0x100 15 = false) :
    s.sampleDrain m n bank = s.onStone m n.val fun x => { x.setBank bank .reset with drains := x.drains + 1 } := by
  have unsampled : (s.bit (.toll m) 0x100 15 && (s.mill m).toll.on) = false := by
    obtain h | h := h <;> simp [h]
  simp only [State.sampleDrain, unsampled, Bool.false_and, Bool.false_eq_true, if_false]

section bankDrain
variable (codes : List Ecc) {o : RaceOp} (hr : s.stoneReady m n = true) (hf : (s.stone m n.val).failed = none)
  (hd : (s.stone m n.val).draining = false) (ho : s.drainOp m n.val = some o)
include hr hf hd ho

theorem bankDrain_of_refused (h : ((s.stone m n.val).bank o.bank).st ≠ .accumulating) : bankDrain m n codes s =
    s.stoneFault m n (if ((s.stone m n.val).bank o.bank).st = .invalid then 5 else 4) (((s.stone m n.val).bank o.bank).st == .invalid)
      (2 ^ 16 * o.bank) (((s.stone m n.val).bank o.bank).st.code + 12) o := by
  have five (st : BankState) : ((if st = .invalid then 5 else 4) == 5) = (st == .invalid) := by
    cases st <;> rfl
  simp only [bankDrain, hr, hf, hd, ho, bankUse_drain, if_neg h, five, Bool.not_true, Option.isSome_none, Bool.or_self,
    Bool.false_eq_true, if_false]

variable (ha : ((s.stone m n.val).bank o.bank).st = .accumulating)
include ha

theorem bankDrain_of_busy (h : s.stageJobs m 0 ≠ []) : bankDrain m n codes s = s := by
  simp [bankDrain, hr, hf, hd, ho, bankUse_drain, ha, h]

/-- What a drain hands over, and how it leaves its bank and its operation. -/
theorem bankDrain_of_read (h : s.stageJobs m 0 = []) {bad : Bool} {u : State}
    (hb : ({ s with codes := codes } : State).bankRead m n o.bank o = (bad, u)) : bankDrain m n codes s =
    { (if bad = true then u
      else ((u.forAll (drainJobs o (o.block m) ((s.stone m n.val).bank o.bank).words) fun t j => t.addJob m 0 j).sampleDrain m n
        o.bank).onRaceOp m o.id fun o => { o with done := true }) with codes := [] } := by
  simp only [bankDrain, hr, hf, hd, ho, bankUse_drain, ha, h, hb, State.coded, Bool.not_true, Option.isSome_none, Bool.or_self,
    Bool.false_eq_true, if_false, if_true, List.isEmpty_nil]

end bankDrain

/-- A drain that is not sampled, its bank read without an uncorrectable word, frees the bank and counts. -/
theorem bankDrain_frees {codes : List Ecc} {o : RaceOp} (hr : s.stoneReady m n = true) (hf : (s.stone m n.val).failed = none)
    (hd : (s.stone m n.val).draining = false) (ho : s.drainOp m n.val = some o)
    (ha : ((s.stone m n.val).bank o.bank).st = .accumulating) (h : s.stageJobs m 0 = []) {u : State}
    (hb : ({ s with codes := codes } : State).bankRead m n o.bank o = (false, u))
    (ht : (s.mill m).toll.on = false ∨ s.bit (.toll m) 0x100 15 = false) :
    (((bankDrain m n codes s).stone m n.val).bank o.bank).st = .free ∧
      ((bankDrain m n codes s).stone m n.val).drains = (u.stone m n.val).drains + 1 := by
  have read : SparesStones s u := (SparesStones.codes s codes).trans (State.bankRead_spares _ m n hb)
  have handed := SparesStones.forAll (drainJobs o (o.block m) ((s.stone m n.val).bank o.bank).words) (fun t j => t.addJob m 0 j)
    (fun t j => .addJob t m 0 j) u
  have spared := read.trans handed
  have unsampled := State.sampleDrain_of_unsampled _ m n o.bank (by
    rw [spared.toll, State.bit, spared.word _ _ (by decide) (by decide)]
    exact ht)
  have there := s.stone_lt_of_accumulating m n ha
  rw [← spared.stones] at there
  have drained : (bankDrain m n codes s).stone m n.val =
      { (u.stone m n.val).setBank o.bank .reset with drains := (u.stone m n.val).drains + 1 } := by
    rw [bankDrain_of_read s m n codes hr hf hd ho ha h hb, unsampled, (SparesStones.codes _ []).stone]
    rw [if_neg Bool.false_ne_true, (SparesStones.onRaceOp ..).stone, State.onStone_stone_of_lt _ m _ there, handed.stone]
  rw [drained]
  exact ⟨congrArg Bank.st ((u.stone m n.val).bank_setBank_self o.bank .reset), rfl⟩

/-- Settles O32: the stop of a stone and what becomes of its race, the end of its draining, and the drain of a bank. The mill whose
stage 0 takes the lines of a drain (log entry 34), and that ABORTS counts a pass once (log entry 35), are readings of the model. -/
theorem faultedPassesAndDrainsFreeTheirBank : Obligations.FaultedPassesAndDrainsFreeTheirBank := by
  unfold Obligations.FaultedPassesAndDrainsFreeTheirBank
  refine ⟨⟨?stops, fun m n s hs hd => congrArg Host.Outcome.next (abortDone_of_draining s m n hs hd)⟩, ?drains⟩
  case stops =>
    intro m n s hs hd x u
    have same : s.stopStone m n = u := by
      have stop : Stone.stopped = fun x => _ := funext Stone.stopped_eq
      rw [State.stopStone, stop, Stone.abandons, boolNat_or]
      rfl
    rw [← same]
    refine ⟨fun hf hp hh => congrArg Host.Outcome.next (passAbort_of_pulledDown s m n hs hd ?_), fun hf => ?_, fun c hf hc => ?_⟩
    · rw [State.pulledDown, hf, Option.isSome_iff_ne_none.2 hp, hh]
      rfl
    · exact congrArg Host.Outcome.next ((passAbort_of_failed s m n hs hd hf).trans (if_pos (.inl rfl)))
    · exact congrArg Host.Outcome.next ((passAbort_of_failed s m n hs hd hf).trans (by simp [hc]))
  case drains =>
    intro m n codes o s hr hf hd ho b out
    refine ⟨fun h => congrArg Host.Outcome.next (bankDrain_of_refused s m n codes hr hf hd ho h),
      fun ha hj => congrArg Host.Outcome.next (bankDrain_of_busy s m n codes hr hf hd ho ha hj),
      fun ha hj u => ⟨fun hb => ?_, fun hb => ⟨?_, ?_⟩⟩⟩
    · exact congrArg Host.Outcome.next (bankDrain_of_read s m n codes hr hf hd ho ha hj hb)
    · exact congrArg Host.Outcome.next (bankDrain_of_read s m n codes hr hf hd ho ha hj hb)
    · exact fun ht => ⟨_, rfl, bankDrain_frees s m n hr hf hd ho ha hj hb ht⟩

/-! ## Requests of a repair or a test (R96) -/

@[simp] theorem State.countAccess_rowmapRows (p : Path) (k : Nat) : (s.countAccess p k).rowmapRows m n = s.rowmapRows m n := by
  have words : (s.countAccess p k).word = s.word := funext₂ fun q o => s.countAccess_word p k q o
  unfold State.rowmapRows State.bit State.fld
  rw [words]

theorem State.repairCtl_apply : s.repairCtl m n true false =
    if (s.rowmapRows m n).Nodup then s.onStone m n.val fun x => { x with applyReq := some (s.rowmapRows m n) }
    else s.putFld (.stone m n) 0x110 8 2 3 := rfl

theorem State.repairCtl_selftest : s.repairCtl m n false true = s.onStone m n.val fun x => { x with testReq := true } := rfl

/-! ## The start of a repair or a test (R90, R91) -/

theorem repairRun_of_busy (h : s.stoneIdle m n = false) : repairRun m n s = s := by
  simp [repairRun, h]

section repairRun
variable (hs : s.halted = false) (hp : s.pageLive (.stone m n) = true) (hr : (s.stone m n.val).repair = .none)
include hs hp hr

theorem repairRun_of_apply (h : s.stoneIdle m n = true) {rows : List Nat} (ha : (s.stone m n.val).applyReq = some rows) :
    repairRun m n s = ({ s with nv := { s.nv with
      rowmaps := (stoneIndex m n, rows) :: s.nv.rowmaps.filter fun r => r.1 != stoneIndex m n } } : State).onStone m n.val fun x =>
        { x with disabled := rows, applyReq := none, testReq := false, repair := .repairing } := by
  simp [repairRun, hs, hp, hr, h, ha]

theorem repairRun_of_test (h : s.stoneIdle m n = true) (ha : (s.stone m n.val).applyReq = none) (ht : (s.stone m n.val).testReq = true) :
    repairRun m n s = s.onStone m n.val fun x => { x with testReq := false, repair := .testing } := by
  simp [repairRun, hs, hp, hr, h, ha, ht]

end repairRun

/-! ## The end of a test (R91, R92, R98) -/

/-- The skew table is written at the end of a repair, with its event (R98). -/
def State.repairWritten : State :=
  if (s.stone m n.val).repair = .repairing then (s.writeSkew m n (s.stone m n.val).disabled).raise (.stone m n) 9 else s

/-- The rows that a test has found failing. -/
def failingRows (failing : List (Fin 261)) : List Nat := (failing.map (·.val)).eraseDups

/-- Does a test find the stone beyond repair: a path fault, or more than four rows out (R92)? -/
def Stone.foundBad (x : Stone) (failing : List (Fin 261)) (pathFault : Bool) : Bool :=
  pathFault || decide (4 < (x.disabled ++ failingRows failing).eraseDups.length)

/-- Does a test pass: no path fault, and no failing row that the row map uses? -/
def Stone.testPasses (x : Stone) (failing : List (Fin 261)) (pathFault : Bool) : Bool :=
  ((failingRows failing).filter fun r => (rowMap x.disabled).contains r).isEmpty && !pathFault

/-- The result fields of a test: RESULT, and the first failing row. -/
def State.testResult (failing : List (Fin 261)) (pathFault : Bool) : State :=
  let x := s.stone m n.val
  ((s.repairWritten m n).putFld (.stone m n) 0x110 8 2
    (if x.foundBad failing pathFault || x.unrepairable then 3 else if x.testPasses failing pathFault then 1 else 2)).putFld (.stone m n)
      0x110 16 9 (((List.range 261).find? fun r => (failingRows failing).contains r).getD 0)

/-- The events and history records of a test. -/
def State.testReported (x : Stone) (failing : List (Fin 261)) (pathFault : Bool) : State :=
  let s := if x.testPasses failing pathFault then s else s.raise (.stone m n) 2
  let s := if x.foundBad failing pathFault then s.raise (.stone m n) 3 else s
  let mapped := (failingRows failing).filter fun r => (rowMap x.disabled).contains r
  let s := s.forAll (mapped.filter (failingRows failing).contains) fun s r => s.selftestHistory m n (some r)
  if pathFault then s.selftestHistory m n none else s

theorem State.testReported_spares (x : Stone) (failing : List (Fin 261)) (pathFault : Bool) :
    SparesStones s (s.testReported m n x failing pathFault) := by
  unfold State.testReported
  extract_lets u v mapped w
  have hu : SparesStones s u := .ite (.refl s) (.raise s _ 2)
  have hv : SparesStones u v := .ite (.raise u _ 3) (.refl u)
  have hw : SparesStones v w := .forAll _ _ (fun s r => .histWrite s _ _) v
  exact hu.trans (hv.trans (hw.trans (.ite (.histWrite w _ _) (.refl w))))

/-- A test that ends where no injection is armed: its results, its reports, and the stone in service or not. -/
theorem selftestDone_of_unarmed (failing : List (Fin 261)) (pathFault : Bool) (hs : s.halted = false)
    (hr : (s.stone m n.val).repair ≠ .none) (hi : s.injArmed (.stone m n) = false) :
    let x := s.stone m n.val
    let bad := x.foundBad failing pathFault
    selftestDone m n failing pathFault s =
      ((s.testResult m n failing pathFault).testReported m n x failing pathFault).onStone m n.val fun y =>
        { y with repair := .none, unrepairable := y.unrepairable || bad,
                 outOfService := !x.testPasses failing pathFault || y.unrepairable || bad } := by
  have inj : s.takeInj (.stone m n) 6 = (false, s) := s.takeInj_of_not_injects (s.injects_of_unarmed hi 6)
  have busy : ((s.stone m n.val).repair == .none) = false := by simpa using hr
  simp only [selftestDone, State.testRows, hs, busy, inj, Bool.or_self, Bool.false_eq_true, if_false]
  rfl

/-- Where a test runs, the mill has the stone. -/
theorem State.stone_lt_of_repair (hr : (s.stone m n.val).repair ≠ .none) : n.val < (s.mill m).stones.length :=
  s.stone_lt_of_ne_reset m fun h => hr (by rw [h]; rfl)

theorem State.writeSkew_mill (d : List Nat) (k : MillId) : (s.writeSkew m n d).mill k = s.mill k :=
  s.forAll_part (·.mill k) _ _ fun _ _ => State.setWord_mill ..

theorem State.writeSkew_mem (d : List Nat) : (s.writeSkew m n d).mem = s.mem :=
  s.forAll_part (·.mem) _ _ fun _ _ => rfl

/-- The results of a test change registers, and what the end of a repair raises: no stone and no memory. -/
theorem State.testResult_stones_mem (failing : List (Fin 261)) (pathFault : Bool) :
    (∀ k, ((s.testResult m n failing pathFault).mill k).stones = (s.mill k).stones) ∧
      (s.testResult m n failing pathFault).mem = s.mem := by
  unfold State.testResult State.repairWritten State.putFld
  split
  · have raised := SparesStones.raise (s.writeSkew m n (s.stone m n.val).disabled) (.stone m n) 9
    exact ⟨fun k => by simp [raised.stones, State.writeSkew_mill], by simp [State.writeSkew_mem]⟩
  · exact ⟨fun k => by simp, rfl⟩

theorem State.testResult_stone (failing : List (Fin 261)) (pathFault : Bool) (j : Nat) :
    (s.testResult m n failing pathFault).stone m j = s.stone m j := by
  rw [State.stone, State.stone, (s.testResult_stones_mem m n failing pathFault).1]

theorem State.testResult_fld (failing : List (Fin 261)) (pathFault : Bool) :
    (s.testResult m n failing pathFault).fld (.stone m n) 0x110 8 2 =
      if (s.stone m n.val).foundBad failing pathFault || (s.stone m n.val).unrepairable then 3
      else if (s.stone m n.val).testPasses failing pathFault then 1 else 2 := by
  rw [State.testResult, State.putFld_fld_below _ _ _ _ (by decide) (by decide), State.putFld_fld_self _ _ _ (by decide)]
  split
  · decide
  · split <;> decide

theorem selftestDone_of_passing (hs : s.halted = false) (hr : (s.stone m n.val).repair ≠ .none)
    (hi : s.injArmed (.stone m n) = false) (hd : (s.stone m n.val).disabled.eraseDups.length ≤ 4)
    (hu : (s.stone m n.val).unrepairable = false) :
    selftestDone m n [] false s =
      (((s.repairWritten m n).putFld (.stone m n) 0x110 8 2 1).putFld (.stone m n) 0x110 16 9 0).onStone m n.val fun x =>
        { x with repair := .none, unrepairable := false, outOfService := false } := by
  have good : (s.stone m n.val).foundBad [] false = false := by simpa [Stone.foundBad, failingRows] using hd
  have passes : (s.stone m n.val).testPasses [] false = true := rfl
  have result : s.testResult m n [] false =
      ((s.repairWritten m n).putFld (.stone m n) 0x110 8 2 1).putFld (.stone m n) 0x110 16 9 0 := by
    simp only [State.testResult, good, hu, passes, Bool.or_self, Bool.false_eq_true, if_false, if_true]
    congr 1
  have reported : (s.testResult m n [] false).testReported m n (s.stone m n.val) [] false = s.testResult m n [] false := by
    simp only [State.testReported, passes, good, Bool.false_eq_true, if_false, if_true]
    rfl
  rw [selftestDone_of_unarmed s m n _ _ hs hr hi, reported, good, passes, ← result]
  apply State.onStone_congr
  rw [s.testResult_stone, hu]
  rfl

theorem Stone.testPasses_eq_false (x : Stone) {failing : List (Fin 261)} {pathFault : Bool}
    (h : pathFault = true ∨ ∃ r ∈ failing, r.val ∈ rowMap x.disabled) : x.testPasses failing pathFault = false := by
  obtain rfl | ⟨r, hr, hm⟩ := h
  · simp [Stone.testPasses]
  · have found : r.val ∈ failingRows failing := List.mem_eraseDups.2 (List.mem_map_of_mem hr)
    simpa [Stone.testPasses] using fun h => absurd hm (h r.val found)

/-- Settles O33: the requests, the start of a repair or a test, and its end where every mapped row passes and where
one does not. That the wavefronts of a test count in no tally is a reading of the model (log
entry 35). -/
theorem stonesAreRepairedAndTested : Obligations.StonesAreRepairedAndTested := by
  unfold Obligations.StonesAreRepairedAndTested
  refine ⟨?requests, ?starts, ?passes, ?fails⟩
  case requests =>
    intro p m n s ha u
    refine ⟨congrArg Host.Outcome.next ((apply_eq s p m n ha).trans ?_), congrArg Host.Outcome.next (selftest_eq s p m n ha)⟩
    rw [State.repairCtl_apply, State.countAccess_rowmapRows]
  case starts =>
    intro m n s hs hp hr
    exact ⟨fun h => congrArg Host.Outcome.next (repairRun_of_busy s m n h), fun h =>
      ⟨fun rows ha => congrArg Host.Outcome.next (repairRun_of_apply s m n hs hp hr h ha),
        fun ha ht => congrArg Host.Outcome.next (repairRun_of_test s m n hs hp hr h ha ht)⟩⟩
  case passes =>
    intro m n s hs hr hi hd hu
    exact congrArg Host.Outcome.next (selftestDone_of_passing s m n hs hr hi hd hu)
  case fails =>
    intro m n failing pathFault s hs hr hi x bad h
    have fails := x.testPasses_eq_false h
    obtain ⟨stones, mem⟩ := s.testResult_stones_mem m n failing pathFault
    have reported := (s.testResult m n failing pathFault).testReported_spares m n x failing pathFault
    refine ⟨_, congrArg Host.Outcome.next (selftestDone_of_unarmed s m n failing pathFault hs hr hi), ?_⟩
    have there : n.val < (((s.testResult m n failing pathFault).testReported m n x failing pathFault).mill m).stones.length := by
      rw [reported.stones, stones]
      exact s.stone_lt_of_repair m n hr
    rw [State.onStone_stone_of_lt _ m _ there, reported.stone, s.testResult_stone]
    refine ⟨rfl, by simp [x, fails], rfl, fun _ => ?_, ?_⟩
    · rw [State.onStone_eq, State.fld, State.onMill_word, ← State.fld, reported.fld _ (by decide) (by decide), s.testResult_fld, fails,
        Bool.or_comm]
      rfl
    · rw [State.onStone_eq, State.onMill_mem, reported.mem, mem]

end Sys2Proof.Machine
end

section
/-! PROOFS of 03_race.md: the hop of a column (R103 to R111, R118), the headrace and the tailrace (R106, R113, R119, R129, R130, R134),
splice and COMPAT (R122 to R125, R191), and the end of a race operation (R109, R300). -/

namespace Sys2Proof.Machine

variable (s : State) (m own : MillId)

/-! ## Where a stone stands (R122, R123) -/

/-- The stone at the race position of a mill's stone is that stone. -/
theorem State.posStone_racePos {k : Nat} (hk : k < 24) : State.posStone (s.raceOwner m) (s.racePos m k) = (m, k) := by
  have same_or_other : s.raceOwner m = m ∨ (s.raceOwner m).other = m := by
    cases s.raceOwner m <;> cases m <;> simp [MillId.other]
  unfold State.racePos
  split
  case isTrue h =>
    have other := same_or_other.resolve_left h.2
    simp [State.posStone, other]
  case isFalse h =>
    have own : s.raceOwner m = m := by
      by_contra ne
      refine h ⟨?_, ne⟩
      by_contra unspliced
      exact ne (by simp [State.raceOwner, unspliced])
    simp [State.posStone, hk, own]

/-! ## Where no injection is armed on the race (R139) -/

theorem State.takeInjAt_of_unarmed {p : Page} (h : s.injArmed p = false) (code target : Nat) : s.takeInjAt p code target = (false, s) := by
  simp [State.takeInjAt, State.injectsAt, s.injects_of_unarmed h]

theorem State.corruptWord_of_unarmed (h : s.injArmed (.race own) = false) (q : Nat) (c : Column) : s.corruptWord own q c = (c, s) := by
  simp [State.corruptWord, s.takeInjAt_of_unarmed h]

theorem State.hopInjected_of_unarmed (h : s.injArmed (.race own) = false) (q : Nat) : s.hopInjected own q = none := by
  simp [State.hopInjected, s.takeInjAt_of_unarmed h, s.takeInj_of_not_injects (s.injects_of_unarmed h 3)]

/-! ## What a position does with the column that comes to it (R109 to R111, R118) -/

section ready
variable {q stream : Nat} {c : Column}

theorem State.columnReady_of_dead (hd : (s.mill own).race.dead c = true) : s.columnReady own q stream c = some .pass := by
  simp [State.columnReady, hd]

variable (hd : (s.mill own).race.dead c = false)
include hd

/-- A column that is not for the stone's role crosses unchanged. -/
theorem State.columnReady_of_bystander (h : (s.roleAt own q stream = .consumer ∧ c.words ≠ []) ∨ s.roleAt own q stream = .unbound ∨
    s.roleAt own q stream = .scatter ∨ (s.roleAt own q stream = .runner ∧ c.words = [])) :
    s.columnReady own q stream c = some .pass := by
  obtain ⟨hr, hw⟩ | hr | hr | ⟨hr, hw⟩ := h
  · simp [State.columnReady, hd, hr, hw]
  · simp [State.columnReady, hd, hr]
  · simp [State.columnReady, hd, hr]
  · simp [State.columnReady, hd, hr, hw]

variable {n : Nat} (hp : State.posStone own q = (m, n))
include hp

theorem State.columnReady_of_consumer (hr : s.roleAt own q stream = .consumer) (hw : c.words = []) : s.columnReady own q stream c =
    if (s.stone m n).feederFull = true then none else if (s.stone m n).takes c = true then some .receive else some .pass := by
  simp [State.columnReady, hp, hd, hr, hw]

theorem State.columnReady_of_runner (hr : s.roleAt own q stream = .runner) (hw : c.words ≠ []) : s.columnReady own q stream c =
    (s.stone m n).share.bind fun (op, i, sh) => if op = c.op ∧ i = c.idx then some (.add sh) else none := by
  have words : c.words.isEmpty = false := by simpa using hw
  simp [State.columnReady, hp, hd, hr, words]

theorem State.columnReady_of_share (hr : s.roleAt own q stream = .runner) (hw : c.words ≠ []) {share : CarryShare}
    (hx : (s.stone m n).share = some (c.op, c.idx, share)) : s.columnReady own q stream c = some (.add share) := by
  simp [s.columnReady_of_runner m own hd hp hr hw, hx]

theorem State.columnReady_of_no_share (hr : s.roleAt own q stream = .runner) (hw : c.words ≠ [])
    (hx : ∀ share, (s.stone m n).share ≠ some (c.op, c.idx, share)) : s.columnReady own q stream c = none := by
  rw [s.columnReady_of_runner m own hd hp hr hw, Option.bind_eq_none_iff]
  rintro ⟨op, i, share⟩ h
  refine if_neg ?_
  rintro ⟨rfl, rfl⟩
  exact hx share h

end ready

/-! ## The column that can leave a position (R107, R118) -/

section hopReady
variable {q stream : Nat}

theorem State.hopReady_of_full (h : s.hopFull own q stream = true) : s.hopReady own q stream = none := by
  simp [State.hopReady, h]

variable (hf : s.hopFull own q stream = false)
include hf

theorem State.hopReady_of_cons {c : Column} {rest : List Column} (hc : s.colsAt own q stream = c :: rest) :
    s.hopReady own q stream = (s.columnReady own q stream c).map fun k => (c, k) := by
  simp [State.hopReady, hf, hc]

/-- The runner of the lowest position begins the dW column of its share. -/
theorem State.hopReady_of_lowest_runner {n op i : Nat} {share : CarryShare} (hp : State.posStone own q = (m, n))
    (hc : s.colsAt own q stream = []) (ha : (s.mill own).race.abandoned = false) (hr : s.roleAt own q stream = .runner)
    (hb : (s.boundTo own .runner stream).head? = some (m, n)) (hx : (s.stone m n).share = some (op, i, share)) :
    s.hopReady own q stream = some (s.newborn own op i, .begin_ share) := by
  simp [State.hopReady, hf, hc, hp, ha, hr, hb, hx]

end hopReady

/-! ## What a hop makes of its column -/

section hopCol
variable {q stream : Nat} {c : Column} {rest : List Column} (hi : s.injArmed (.race own) = false)

/-- A column with the words that a runner's share makes of it, and the flushes. -/
def State.withShare (c : Column) (share : CarryShare) : Column × Nat :=
  let r := runnerWords (s.mill m).governor.compat (c.fmt == .bf16) c.words share
  ({ c with words := r.1 }, r.2)

theorem State.setCols_injArmed (cs : List Column) (p : Page) : (s.setCols own q stream cs).injArmed p = s.injArmed p := by
  simp [State.setCols, State.injArmed]

theorem State.setCols_withShare (cs : List Column) (c : Column) (share : CarryShare) :
    (s.setCols own q stream cs).withShare m c share = s.withShare m c share := by
  cases own <;> cases m <;> rfl

section
include hi

theorem State.hopCol_pass (hc : s.colsAt own q stream = c :: rest) :
    s.hopCol own q stream c .pass = (s.setCols own q stream rest).arriveCol own (q + 1) stream c := by
  simp [State.hopCol, s.corruptWord_of_unarmed own hi, hc]

variable {n : Fin 24} (hp : State.posStone own q = (m, n.val))
include hp

theorem State.hopCol_begin (share : CarryShare) : s.hopCol own q stream c (.begin_ share) =
    ((s.tally (.stone m n) 9 (s.withShare m c share).2).onStone m n.val Stone.letGo).arriveCol own (q + 1) stream
      (s.withShare m c share).1 := by
  have unarmed (k : Nat) : (s.tally (.stone m n) 9 k).injArmed (.race own) = false := by
    simpa [State.injArmed] using hi
  simp [State.hopCol, hp, State.corruptWord_of_unarmed _ own (unarmed _), State.withShare]

/-- A share is added as it begins a column, once the column has left its place. -/
theorem State.hopCol_add (hc : s.colsAt own q stream = c :: rest) (share : CarryShare) :
    s.hopCol own q stream c (.add share) = (((s.setCols own q stream rest).tally (.stone m n) 9
      (s.withShare m c share).2).onStone m n.val Stone.letGo).arriveCol own (q + 1) stream (s.withShare m c share).1 := by
  have left := State.hopCol_begin (s.setCols own q stream rest) m own (stream := stream) (c := c)
    ((s.setCols_injArmed own rest _).trans hi) hp share
  rw [s.setCols_withShare] at left
  rw [← left]
  simp only [State.hopCol, hc, List.drop_one, List.tail_cons]

end

theorem State.hopCol_receive {n : Nat} (hp : State.posStone own q = (m, n)) (hc : s.colsAt own q stream = c :: rest) :
    s.hopCol own q stream c .receive =
      ((s.setCols own q stream rest).onStone m n fun x => x.receive c).arriveCol own (q + 1) stream c := by
  simp [State.hopCol, hp, hc]

end hopCol

/-! ## COLUMN_HOP -/

section columnHop
variable (stream : Fin 4) (pos : Fin 24)

theorem columnHop_of_not_ready (h : s.hopReady (s.raceOwner m) (s.racePos m pos.val) stream.val = none) :
    columnHop m stream pos s = s := by
  simp [columnHop, h]

theorem columnHop_of_ready (hs : s.halted = false) (hi : s.injArmed (.race (s.raceOwner m)) = false) {c : Column} {k : HopKind}
    (hr : s.hopReady (s.raceOwner m) (s.racePos m pos.val) stream.val = some (c, k))
    (hl : s.hopLater (s.raceOwner m) (s.racePos m pos.val) stream.val c = false) :
    columnHop m stream pos s = s.hopCol (s.raceOwner m) (s.racePos m pos.val) stream.val c k := by
  simp [columnHop, hs, hr, hl, s.hopInjected_of_unarmed _ hi]

end columnHop

/-- Settles O34: what the position of a stone does with the column that comes to it, and the dW column that the lowest runner begins.
That a hop is one step, and which rows and bank rows add nothing to a share, are readings of the model (log entries 34 and 35). -/
theorem columnsHopRoundTheRace : Obligations.ColumnsHopRoundTheRace := by
  unfold Obligations.ColumnsHopRoundTheRace
  intro m stream pos s hs own q role x
  have hp : State.posStone own q = (m, pos.val) := s.posStone_racePos m pos.isLt
  have stays (h : s.hopReady own q stream.val = none) : exec (.columnHop m stream pos) s = .next s :=
    congrArg Host.Outcome.next (columnHop_of_not_ready s m stream pos h)
  refine ⟨fun hf => stays (s.hopReady_of_full own hf), fun hf hi => ⟨?crosses, ?begins⟩⟩
  case crosses =>
    intro c rest hc hl left on
    have front := s.hopReady_of_cons own hf hc
    have waits (h : s.columnReady own q stream.val c = none) : exec (.columnHop m stream pos) s = .next s :=
      stays (by rw [front, h, Option.map_none])
    have goes {k : HopKind} (h : s.columnReady own q stream.val c = some k) {t : State} (ht : s.hopCol own q stream.val c k = t) :
        exec (.columnHop m stream pos) s = .next t :=
      congrArg Host.Outcome.next
        ((columnHop_of_ready s m stream pos hs hi (by rw [front, h, Option.map_some]) hl).trans ht)
    have passes (h : s.columnReady own q stream.val c = some .pass) : exec (.columnHop m stream pos) s = .next (on left c) :=
      goes h (s.hopCol_pass own hi hc)
    refine ⟨fun hd => passes (s.columnReady_of_dead own hd), fun hd => ⟨?full, ?received, ?unchanged, ?added, ?unshared⟩⟩
    case full =>
      intro hr hw hx
      exact waits ((s.columnReady_of_consumer m own hd hp hr hw).trans (if_pos hx))
    case received =>
      intro hr hw hx ht
      have ready := s.columnReady_of_consumer m own hd hp hr hw
      rw [if_neg (Bool.eq_false_iff.1 hx), if_pos ht] at ready
      exact goes ready (s.hopCol_receive m own hp hc)
    case unchanged =>
      rintro (⟨hr, hw | ⟨hx, ht⟩⟩ | h)
      · exact passes (s.columnReady_of_bystander own hd (.inl ⟨hr, hw⟩))
      · by_cases hw : c.words = []
        · have ready := s.columnReady_of_consumer m own hd hp hr hw
          rw [if_neg (Bool.eq_false_iff.1 hx), if_neg (Bool.eq_false_iff.1 ht)] at ready
          exact passes ready
        · exact passes (s.columnReady_of_bystander own hd (.inl ⟨hr, hw⟩))
      · exact passes (s.columnReady_of_bystander own hd (.inr h))
    case added =>
      intro share hr hw hx
      exact goes (s.columnReady_of_share m own hd hp hr hw hx) (s.hopCol_add m own hi hp hc share)
    case unshared =>
      intro hr hw hx
      exact waits (s.columnReady_of_no_share m own hd hp hr hw hx)
  case begins =>
    intro op i share hc ha hr hb hx c hl hd r
    exact congrArg Host.Outcome.next ((columnHop_of_ready s m stream pos hs hi
      (s.hopReady_of_lowest_runner m own hf hp hc ha hr hb hx) hl).trans (s.hopCol_begin m own hi hp share))

/-! ## HEADRACE_ENTRY (R106, R113) -/

/-- What the headrace reads for the next column of an operation's tile. -/
def State.columnRead (o : RaceOp) : GovRes (OpndTensor × Column) :=
  s.govRun (headraceAt m o.pc o.system) o.ay (tileColumn (headraceAt m o.pc o.system) o (s.tileFolds m o.stream))

/-- The state once the next column of a tile has entered. -/
def State.columnEntered (stream : Nat) (o : RaceOp) (t : OpndTensor) (c : Column) : State :=
  let v := ((s.keepBref m o.id m t).tally (.race m) 0 1).tally (.race m) 3 c.quarters
  let v := if o.prog = 255 then v.tally (.race m) 7 1 else v
  (v.arriveCol m 0 stream c).onRaceOp m o.id fun o => { o with prog := o.prog + 1 }

/-- What the headrace does with what it has read. -/
def State.enterRead (stream : Nat) (o : RaceOp) : GovRes (OpndTensor × Column) → State
  | .hold => s
  | .stop _ u => u.onRaceOp m o.id fun o => { o with failed := true }
  | .ok (t, c) u => u.columnEntered m stream o t c

theorem headraceEntry_of_fetched {stream : Fin 4} {codes : List Ecc} {o : RaceOp} (hs : s.halted = false) (hm : s.raceOwner m = m)
    (ha : (s.mill m).race.abandoned = false) (hl : (s.colsAt m 0 stream.val).length < 4) (ho : s.entryOp m stream.val = some o)
    (hf : s.tileFetched m o = true) :
    headraceEntry m stream codes s = s.coded codes fun s => s.enterRead m stream.val o (s.columnRead m o) := by
  simp only [headraceEntry, hs, hm, ha, Nat.not_le.2 hl, ho, hf, bne_self_eq_false, Bool.or_self, decide_false, Bool.false_eq_true,
    Bool.not_true, if_false]
  rfl

/-! ## The tailrace's tiles (R129, R130, R134) -/

/-- The state once a whole tile has been handed to the governor. -/
def State.tileWritten (x : TailTile) (o : RaceOp) : State :=
  ((((s.forAll (tileJobs o x) fun t j => t.addJob m 0 j).tally (.race m) 1 256).tally (.race m) 10 (maskedWords x)).onRace m
    fun r => { r with tiles := r.tiles.filter fun z => z.op != x.op }).onRaceOp m o.id fun o => { o with done := true }

theorem State.writeTile_of_none {stream : Nat} (h : s.wholeTile m stream = none) : s.writeTile m stream = s := by
  simp only [State.writeTile, h]

theorem State.writeTile_of_accepted {stream : Nat} {x : TailTile} {o : RaceOp} (hx : s.wholeTile m stream = some x)
    (ho : s.raceOp m x.op = some o) (hr : s.runnersMade m o = true) (hj : s.stageJobs m 0 = []) :
    s.writeTile m stream = s.tileWritten m x o := by
  simp only [State.writeTile, hx, ho, hr, hj, Bool.not_true, List.isEmpty_nil, Bool.or_self, Bool.false_eq_true, if_false]
  rfl

/-- Stage 0 accepts no tile while it has lines to write. -/
theorem State.writeTile_of_busy {stream : Nat} (hj : s.stageJobs m 0 ≠ []) : s.writeTile m stream = s := by
  have busy : (s.stageJobs m 0).isEmpty = false := by simpa using hj
  unfold State.writeTile
  split
  · rfl
  · split
    · rfl
    · simp [busy]

/-- A tile that the tailrace has not begun is begun with the column, under the mask that is in force. -/
theorem State.takeDW_begins (stream : Nat) (c : Column) (h : ((s.mill m).race.tiles.any fun x => x.op == c.op) = false) :
    let masks := s.maskWords m (((s.raceOp m c.op).map (·.mask)).getD 0)
    (⟨c.op, stream, masks.1, masks.2, [(c.idx, c.words)]⟩ : TailTile) ∈ ((s.takeDW m stream c).mill m).race.tiles := by
  intro masks
  simp only [State.takeDW, State.onRace_eq, State.onMill_mill, h, Bool.false_eq_true, if_false]
  exact List.mem_map.2 ⟨⟨c.op, stream, masks.1, masks.2, []⟩, by simp [masks], if_pos rfl⟩

theorem State.takeDW_adds (stream : Nat) (c : Column) {x : TailTile} (hx : x ∈ (s.mill m).race.tiles) (ho : x.op = c.op) :
    { x with cols := x.cols ++ [(c.idx, c.words)] } ∈ ((s.takeDW m stream c).mill m).race.tiles := by
  have begun : ((s.mill m).race.tiles.any fun x => x.op == c.op) = true := List.any_eq_true.2 ⟨x, hx, by simpa using ho⟩
  simp only [State.takeDW, State.onRace_eq, State.onMill_mill, begun, if_true]
  exact List.mem_map.2 ⟨x, hx, by rw [if_pos ho]⟩

@[simp] theorem State.setTail_tiles (stream : Nat) (cs : List Column) :
    ((s.setTail m stream cs).mill m).race.tiles = (s.mill m).race.tiles := by
  simp [State.setTail]

@[simp] theorem State.setTail_raceOp (stream : Nat) (cs : List Column) (id : Nat) :
    (s.setTail m stream cs).raceOp m id = s.raceOp m id := by
  simp [State.setTail, State.raceOp]

@[simp] theorem State.setTail_maskWords (stream : Nat) (cs : List Column) (k : Nat) :
    (s.setTail m stream cs).maskWords m k = s.maskWords m k := by
  simp [State.setTail, State.maskWords]

/-! ## TAILRACE_WRITE -/

section tailraceWrite
variable {stream : Fin 4} (hs : s.halted = false) (hm : s.raceOwner m = m)
include hs hm

theorem tailraceWrite_of_nil (h : s.tailOf m stream.val = []) : tailraceWrite m stream s = s.writeTile m stream.val := by
  simp [tailraceWrite, hs, hm, h]

variable {c : Column} {rest : List Column} (ht : s.tailOf m stream.val = c :: rest)
include ht

theorem tailraceWrite_of_weight (hw : c.words = []) :
    tailraceWrite m stream s = (s.setTail m stream.val rest).tally (.race m) 2 1 := by
  simp [tailraceWrite, hs, hm, ht, hw]

theorem tailraceWrite_of_dead (hw : c.words ≠ []) (hd : (s.mill m).race.dead c = true) :
    tailraceWrite m stream s = s.setTail m stream.val rest := by
  simp [tailraceWrite, hs, hm, ht, hw, hd]

variable (hw : c.words ≠ []) (hd : (s.mill m).race.dead c = false)
include hw hd

/-- A dW column waits behind a whole tile of its stream. -/
theorem tailraceWrite_of_whole {x : TailTile} (hx : s.wholeTile m stream.val = some x) :
    tailraceWrite m stream s = s.writeTile m stream.val := by
  simp [tailraceWrite, hs, hm, ht, hw, hd, hx]

theorem tailraceWrite_of_live (hx : s.wholeTile m stream.val = none) :
    tailraceWrite m stream s = ((s.setTail m stream.val rest).takeDW m stream.val c).writeTile m stream.val := by
  simp [tailraceWrite, hs, hm, ht, hw, hd, hx]

end tailraceWrite

/-- Settles O35: the entry of a column of a tile, and what the tailrace does with the next column of a stream and with a whole tile.
The refusals of an RTILE or RDW at its check (log entry 27), and the single steps of a race (log entry 34), are readings of the model. -/
theorem headraceEntersAndTailraceWrites : Obligations.HeadraceEntersAndTailraceWrites := by
  unfold Obligations.HeadraceEntersAndTailraceWrites
  refine ⟨?headrace, ?tailrace⟩
  case headrace =>
    intro m stream codes o s hs hm ha hl ho hf q out read
    have enters {r : GovRes (OpndTensor × Column)} (h : read = r) : exec (.headraceEntry m ⟨stream, codes⟩) s =
        .next (out (({ s with codes := codes } : State).enterRead m stream.val o r)) :=
      congrArg Host.Outcome.next ((headraceEntry_of_fetched s m hs hm ha hl ho hf).trans
        (congrArg (fun r => out (({ s with codes := codes } : State).enterRead m stream.val o r)) h))
    exact ⟨enters, fun _ _ => enters, fun _ _ _ => enters⟩
  case tailrace =>
    intro m stream s hs hm accepts written
    have writes {t u : State} (h : tailraceWrite m stream t = u.writeTile m stream.val) (x : TailTile) (o : RaceOp)
        (ha : accepts u x o) : exec (.tailraceWrite m stream) t = .next (written u x o) := by
      obtain ⟨hx, ho, hr, hj⟩ := ha
      exact congrArg Host.Outcome.next (h.trans (u.writeTile_of_accepted m hx ho hr hj))
    have nil := tailraceWrite_of_nil s m (stream := stream) hs hm
    refine ⟨fun ht hx => congrArg Host.Outcome.next ((nil ht).trans (s.writeTile_of_none m hx)), fun ht => writes (nil ht), ?_⟩
    intro c rest ht u
    refine ⟨fun hw => congrArg Host.Outcome.next (tailraceWrite_of_weight s m hs hm ht hw),
      fun hw hd => congrArg Host.Outcome.next (tailraceWrite_of_dead s m hs hm ht hw hd), fun hw hd => ⟨?whole, ?waits, ?taken⟩⟩
    case whole => exact fun x o ha => writes (tailraceWrite_of_whole s m hs hm ht hw hd ha.1) x o ha
    case waits =>
      exact fun x hx hj => congrArg Host.Outcome.next
        ((tailraceWrite_of_whole s m hs hm ht hw hd hx).trans (s.writeTile_of_busy m hj))
    case taken =>
      intro hx v
      have live := tailraceWrite_of_live s m hs hm ht hw hd hx
      refine ⟨fun hv => congrArg Host.Outcome.next (live.trans (v.writeTile_of_none m hv)), writes live, ?_⟩
      rintro masks rfl
      refine ⟨fun h => ?_, fun x hx ho => u.takeDW_adds m stream.val c (by rwa [State.setTail_tiles]) ho⟩
      have begun := u.takeDW_begins m stream.val c (by rwa [State.setTail_tiles])
      rwa [State.setTail_raceOp, State.setTail_maskWords] at begun

/-! ## Splice (R122 to R125) and COMPAT (R191) -/

theorem spliceBegin_of_alike {h c : Bool} (b0 : s.idleBoundary .m0 = true) (b1 : s.idleBoundary .m1 = true)
    (hu : s.mill0.race.spliced = false) (w0 : s.wants .m0 = (true, h, c)) (w1 : s.wants .m1 = (true, h, c)) :
    spliceBegin s = (((s.takeCompat .m0).takeCompat .m1).setSplice true h).raiseRaces 2 := by
  simp [spliceBegin, b0, b1, hu, w0, w1]

theorem spliceBegin_of_mismatch (b0 : s.idleBoundary .m0 = true) (b1 : s.idleBoundary .m1 = true) (hu : s.mill0.race.spliced = false)
    (hp : (s.wants .m0).1 = true ∨ (s.wants .m1).1 = true) (hw : s.wants .m0 ≠ s.wants .m1) :
    spliceBegin s = ((s.takeCompat .m0).takeCompat .m1).raiseRaces 1 := by
  generalize hw0 : s.wants .m0 = w0 at hp hw
  generalize hw1 : s.wants .m1 = w1 at hp hw
  obtain ⟨p0, h0, c0⟩ := w0
  obtain ⟨p1, h1, c1⟩ := w1
  have asked : (p0 || p1) = true := by simpa using hp
  have unlike : (p0 && p1 && h0 == h1 && c0 == c1) = false := by
    refine Bool.eq_false_iff.2 fun alike => hw ?_
    simp only [Bool.and_eq_true, beq_iff_eq] at alike
    obtain ⟨⟨⟨rfl, rfl⟩, rfl⟩, rfl⟩ := alike
    rfl
  simp only [spliceBegin, b0, b1, hu, hw0, hw1, asked, unlike, Bool.not_true, Bool.or_self, Bool.false_eq_true, if_false]

theorem spliceEnd_of_unlike (b0 : s.idleBoundary .m0 = true) (b1 : s.idleBoundary .m1 = true) (hu : s.mill0.race.spliced = true)
    (h : (s.wants .m0).1 = false ∨ s.wants .m0 ≠ s.wants .m1) :
    spliceEnd s = ((s.takeCompat .m0).takeCompat .m1).unsplice (s.wants .m0 != s.wants .m1) := by
  have unlike : ((s.wants .m0).1 && (s.wants .m1).1 && s.wants .m0 == s.wants .m1) = false := by
    obtain h | h := h <;> simp [h]
  simp only [spliceEnd, b0, b1, hu, unlike, Bool.not_true, Bool.or_self, Bool.false_eq_true, if_false]

theorem compatChange_of_unspliced (hb : s.idleBoundary m = true) (hu : (s.mill m).race.spliced = false) :
    compatChange m s = s.takeCompat m := by
  simp [compatChange, hb, hu]

theorem compatChange_of_spliced (b0 : s.idleBoundary .m0 = true) (b1 : s.idleBoundary .m1 = true)
    (hu : (s.mill m).race.spliced = true) : compatChange m s =
      if s.bit (.governor .m0) 0x100 0 = s.bit (.governor .m1) 0x100 0 then (s.takeCompat .m0).takeCompat .m1
      else ((s.takeCompat .m0).takeCompat .m1).unsplice true := by
  cases m with
  | m0 => simp only [compatChange, MillId.other, b0, b1, hu, Bool.not_true, Bool.false_eq_true, if_false, beq_iff_eq]
  | m1 =>
    simp only [compatChange, MillId.other, b0, b1, hu, Bool.not_true, Bool.false_eq_true, if_false, beq_iff_eq]
    exact if_congr eq_comm rfl rfl

theorem OnlyEvents.raiseRaces (bit : Nat) : OnlyEvents s (s.raiseRaces bit) :=
  (OnlyEvents.raise s (.race .m0) bit).trans (OnlyEvents.raise (s.raise (.race .m0) bit) (.race .m1) bit)

/-- The end of a splice is events once both races are out of it. -/
theorem State.unsplice_onlyEvents (mismatch : Bool) : OnlyEvents (s.setSplice false false) (s.unsplice mismatch) := by
  unfold State.unsplice
  extract_lets t
  have ended : OnlyEvents (s.setSplice false false) t := OnlyEvents.raiseRaces _ 3
  split
  · exact ended.trans (OnlyEvents.raiseRaces t 1)
  · exact ended

theorem State.unsplice_mem (mismatch : Bool) : (s.unsplice mismatch).mem = s.mem := by
  obtain ⟨_, _, _, _, _, _, _, h⟩ := onlyEvents_iff.1 (s.unsplice_onlyEvents mismatch)
  rw [h]; rfl

theorem State.unsplice_mills (mismatch : Bool) :
    (s.unsplice mismatch).mill0.race.spliced = false ∧ (s.unsplice mismatch).mill1.race.spliced = false ∧
      (s.unsplice mismatch).mill0.cmd = s.mill0.cmd ∧ (s.unsplice mismatch).mill0.governor = s.mill0.governor ∧
      (s.unsplice mismatch).mill1.governor = s.mill1.governor := by
  obtain ⟨_, _, _, _, _, _, _, h⟩ := onlyEvents_iff.1 (s.unsplice_onlyEvents mismatch)
  rw [h]
  exact ⟨rfl, rfl, rfl, rfl, rfl⟩

/-- Settles O36: the beginning and the end of a splice, and the taking of COMPAT. That a splice which one mill alone asks
for raises SPLICE_MISMATCH is a reading of the model (log entry 56). -/
theorem spliceAndCompatChangeAtBoundaries : Obligations.SpliceAndCompatChangeAtBoundaries := by
  unfold Obligations.SpliceAndCompatChangeAtBoundaries
  intro compat
  refine ⟨fun s b0 b1 hu => ⟨?alike, ?mismatch⟩, ?ends, ?unspliced, fun m s b0 b1 hu => ⟨?together, ?apart⟩⟩
  case alike => exact fun h c w0 w1 => congrArg Host.Outcome.next (spliceBegin_of_alike s b0 b1 hu w0 w1)
  case mismatch => exact fun hp hw => congrArg Host.Outcome.next (spliceBegin_of_mismatch s b0 b1 hu hp hw)
  case ends =>
    intro s b0 b1 hu h
    obtain ⟨spliced0, spliced1, cmd, gov0, gov1⟩ := (compat s).unsplice_mills (s.wants .m0 != s.wants .m1)
    exact ⟨_, congrArg Host.Outcome.next (spliceEnd_of_unlike s b0 b1 hu h), spliced0, spliced1, (compat s).unsplice_mem _, cmd,
      gov0, gov1⟩
  case unspliced => exact fun m s hb hu => congrArg Host.Outcome.next (compatChange_of_unspliced s m hb hu)
  case together =>
    exact fun h => congrArg Host.Outcome.next ((compatChange_of_spliced s m b0 b1 hu).trans (if_pos h))
  case apart =>
    intro h
    obtain ⟨spliced0, spliced1, -, gov0, gov1⟩ := (compat s).unsplice_mills true
    exact ⟨_, congrArg Host.Outcome.next ((compatChange_of_spliced s m b0 b1 hu).trans (if_neg h)), spliced0, spliced1, gov0, gov1⟩

/-! ## The point of a race operation (R109, R300) -/

theorem State.bindDone_of_free {o : RaceOp} (hd : o.done = false) (hb : s.streamBusy m o = false)
    (h : ∀ n ∈ o.maskStones, s.earlierOp m o m n (fun _ => true) = false ∧ s.bindFault m o n = none ∧
      (o.role = .unbound ∨ ∀ g ∈ (s.mill m).power.gated, g.val ≠ n)) :
    s.bindDone m o = (s.onRace m fun r => { r with
      binds := (if o.role = .unbound then [] else o.maskStones.map fun n =>
        (n, { role := o.role, stream := o.stream, replay := o.replay, tfeed := o.tfeed })) ++
          r.binds.filter fun e => !o.maskStones.contains e.1 }).finishRaceOp m o := by
  have earlier : (o.maskStones.any fun n => s.earlierOp m o m n fun _ => true) = false :=
    List.any_eq_false.2 fun n hn => Bool.eq_false_iff.1 (h n hn).1
  have faults : (o.maskStones.findSome? fun n => (s.bindFault m o n).map fun c => (n, c)) = none :=
    List.findSome?_eq_none_iff.2 fun n hn => by rw [(h n hn).2.1, Option.map_none]
  have gated : (o.role != .unbound && o.maskStones.any fun n =>
      (s.mill m).power.gated.any fun g => g.val == n && !(s.stone m n).outOfService) = false := by
    by_cases hr : o.role = .unbound
    · simp [hr]
    · have ungated : ∀ n ∈ o.maskStones, ∀ g ∈ (s.mill m).power.gated, g.val ≠ n := fun n hn => (h n hn).2.2.resolve_left hr
      simpa [hr] using fun n hn g hg he => absurd he (ungated n hn g hg)
  simp only [State.bindDone, hd, earlier, hb, gated, faults, Bool.or_self, Bool.false_eq_true, if_false]

section raceOpDone
variable {k : Nat} {o : RaceOp} (hs : s.halted = false) (ho : (s.mill m).race.ops[k]? = some o) (hf : o.failed = false)
include hs ho hf

theorem raceOpDone_bind (h : o.code = 0x80) : raceOpDone m k s = s.bindDone m o := by
  simp [raceOpDone, hs, ho, Option.filter, hf, h]

theorem raceOpDone_plan (h : o.code = 0x82) (he : s.earlierOp m o m o.stone (fun _ => true) = false) :
    raceOpDone m k s = (s.onStone m o.stone fun x => { x with plan := o.plan }).finishRaceOp m o := by
  simp [raceOpDone, hs, ho, Option.filter, hf, h, he]

theorem raceOpDone_tile (h : o.code = 0x83) (hp : 256 ≤ o.prog)
    (hc : ∀ x ∈ s.boundTo m .consumer o.stream, s.opMade o x.1 x.2 = true) : raceOpDone m k s = s.finishRaceOp m o := by
  have made : ((s.boundTo m .consumer o.stream).all fun (k, n) => s.opMade o k n) = true := List.all_eq_true.2 hc
  simp [raceOpDone, hs, ho, Option.filter, hf, h, hp, made]

theorem raceOpDone_dW_abandoned (h : o.code = 0x84) (ha : (s.mill m).race.abandoned = true) :
    raceOpDone m k s = s.finishRaceOp m o := by
  simp [raceOpDone, hs, ho, Option.filter, hf, h, ha]

theorem raceOpDone_dW_written (h : o.code = 0x84) (ha : (s.mill m).race.abandoned = false) (hd : o.done = true)
    (hj : s.jobsLeft m 0 o = false) : raceOpDone m k s = (s.tally (.race m) 8 1).finishRaceOp m o := by
  simp [raceOpDone, hs, ho, Option.filter, hf, h, ha, hd, hj]

/-- A load and a shift end as they are done. -/
theorem raceOpDone_load_or_shift (h : o.code = 0x81 ∨ o.code = 0x86) (hd : o.done = true) :
    raceOpDone m k s = s.finishRaceOp m o := by
  obtain h | h := h <;> simp [raceOpDone, hs, ho, Option.filter, hf, h, hd]

theorem raceOpDone_drain (h : o.code = 0x85) (hd : o.done = true) (hj : s.jobsLeft m 0 o = false) :
    raceOpDone m k s = s.finishRaceOp m o := by
  simp [raceOpDone, hs, ho, Option.filter, hf, h, hd, hj]

end raceOpDone

/-- Settles O37: the point of each race operation, its effect and its leaving. How long a binding lasts is a reading of the model (log
entry 34). -/
theorem raceOperationsLeaveAtTheirPoint : Obligations.RaceOperationsLeaveAtTheirPoint := by
  unfold Obligations.RaceOperationsLeaveAtTheirPoint
  intro m k o s hs ho hf leave
  refine ⟨fun h hd hb hn => ?bind, fun h he => ?plan, fun h hp hc => ?tile, fun h ha => ?abandoned, fun h ha hd hj => ?written,
    fun h hd => ?done, fun h hd hj => ?drain⟩
  all_goals refine congrArg Host.Outcome.next ?_
  case bind => exact (raceOpDone_bind s m hs ho hf h).trans (s.bindDone_of_free m hd hb hn)
  case plan => exact raceOpDone_plan s m hs ho hf h he
  case tile => exact raceOpDone_tile s m hs ho hf h hp hc
  case abandoned => exact raceOpDone_dW_abandoned s m hs ho hf h ha
  case written => exact raceOpDone_dW_written s m hs ho hf h ha hd hj
  case done => exact raceOpDone_load_or_shift s m hs ho hf h hd
  case drain => exact raceOpDone_drain s m hs ho hf h hd hj

end Sys2Proof.Machine
end

section
/-! PROOFS of 05_governor.md: what a governor stage does with its next job (R176, R177, R187, R197, R644). -/

namespace Sys2Proof.Machine

variable (s : State) (m : MillId)

/-! ## A job of a stage, by how its write ends -/

section runJob
variable {stage : Nat} {j : LineJob} {t : State}

/-- A job written leaves its stage, which waits for no page, and the bolter's stage releases the row written (R226). -/
theorem State.runJob_of_written (rest : List LineJob)
    (h : (writeJob (stageAt m stage j.line j.pc j.slot j.system) stage j).run.run s = (.ok (), t)) :
    s.runJob m stage j rest =
      let v := t.onMill m fun x =>
        { x with governor := { x.governor with jobs := cellSet [] stage rest x.governor.jobs, wpHold := none } }
      if stage = 1 then v.rowWritten m j.op j.line else v := by
  simp only [State.runJob, h, State.setStageJobs, State.onGov_eq, State.onMill_onMill]

/-- A job that holds leaves nothing of its write: the stage keeps it, with the page it waits for. -/
theorem State.runJob_of_hold (rest : List LineJob) {page : Option Nat}
    (h : (writeJob (stageAt m stage j.line j.pc j.slot j.system) stage j).run.run s = (.error (.hold page), t)) :
    s.runJob m stage j rest = s.onMill m fun x => { x with governor := { x.governor with wpHold := page } } := by
  simp only [State.runJob, h, State.onGov_eq]

/-- A job that faults ends its operation's writes at the stage (R197), with the record of the fault (R198). -/
theorem State.runJob_of_fault (rest : List LineJob) {cause line : Nat} {inj : Bool}
    (h : (writeJob (stageAt m stage j.line j.pc j.slot j.system) stage j).run.run s = (.error (.fault cause line inj), t)) :
    s.runJob m stage j rest = (t.endWrite m stage j.op).govFault m cause (handleDesc j.handle) stage line (handleStep j.handle)
      j.pc j.slot j.system inj := by
  simp only [State.runJob, h]
  rfl

end runJob

/-! ## LINE_WRITE -/

theorem lineWrite_of_cons {stage : Fin 14} (codes : List Ecc) {j : LineJob} {rest : List LineJob} (hs : s.halted = false)
    (hj : s.stageJobs m stage.val = j :: rest) :
    lineWrite m stage codes s = s.coded codes fun s => s.runJob m stage.val j rest := by
  simp only [lineWrite, hj, hs, Bool.false_eq_true, if_false]

/-- Settles O38, by how the write of the stage's first job ends: done, held or in a fault. That a stage takes its jobs in their order,
that a held write changes nothing but what it waits for and that a fault takes all of its operation's jobs from the stage are readings of
the model (log entries 33 and 36). -/
theorem governorStagesWriteLines : Obligations.GovernorStagesWriteLines := by
  unfold Obligations.GovernorStagesWriteLines
  intro m stage codes j rest s hs hj u out q
  have runs : exec (.lineWrite m stage codes) s = .next (out (u.runJob m stage.val j rest)) :=
    congrArg Host.Outcome.next (lineWrite_of_cons s m codes hs hj)
  refine ⟨fun t ht => ?written, fun page t ht => ?hold, fun cause line inj t ht => ?fault⟩
  case written =>
    have stage_one : stage.val = 1 ↔ stage = 1 := by omega
    rw [runs, u.runJob_of_written m rest ht]
    simp only [stage_one]
  case hold => rw [runs, u.runJob_of_hold m rest ht]
  case fault => rw [runs, u.runJob_of_fault m rest ht]

end Sys2Proof.Machine
end

section
/-! PROOFS of 06_bolter.md: how an update starts, stops, goes on and completes (R229 to R235, R253), and what WRITEBACK does with the
ledger cache (R227, R228, R235). -/

namespace Sys2Proof.Machine

variable (s : State) (m : MillId)

/-! ## The run of an update, by how it ends -/

section boltRun
variable {o : UpdateOp}

theorem State.boltRun_of_ending {c l e : Nat} {i : Bool} (h : o.ending = some (c, l, e, i)) : s.boltRun m o = s.bltEnd m o c l e i := by
  simp only [State.boltRun, h]

theorem State.boltRun_of_work {r : Except BltStop Unit} {t : State} (h : o.ending = none) (hw : (boltWork m o).run.run s = (r, t)) :
    s.boltRun m o = t.bltSettle m r := by
  simp only [State.boltRun, h, hw]

/-- A fault waits for no line of the working copy where the bolter's stage holds none (R215, R232). -/
theorem State.bltEnd_of_no_jobs (c l e : Nat) (i : Bool) (h : s.stageJobs m 1 = []) : s.bltEnd m o c l e i = s.bltFault m o c l e i := by
  simp only [State.bltEnd, h, State.runJobs, List.isEmpty_nil, if_true]

theorem State.bltSettle_of_fault {c l e : Nat} {i : Bool} (ho : s.bolt m = some o) (h : s.stageJobs m 1 = []) :
    s.bltSettle m (.error (.fault c l e i)) = s.bltFault m o c l e i := by
  simp only [State.bltSettle, ho, s.bltEnd_of_no_jobs m c l e i h]

/-! ## UPDATE_START, BOLT_PARK and UPDATE_COMPLETE -/

theorem updateStart_of_held (codes : List Ecc) (hs : s.halted = false) (hp : s.pageLive (.bolter m) = true) (ho : s.bolt m = some o)
    (h : o.phase = .waiting ∨ o.phase = .gate) : updateStart m codes s = s.coded codes fun s => s.boltRun m o := by
  simp only [updateStart, hs, hp, ho, h, Bool.not_true, Bool.or_self, Bool.false_eq_true, if_false, if_true]

theorem boltPark_of_stalled (hs : s.halted = false) (ho : s.bolt m = some o) (h : o.phase = .stalled) : boltPark m s =
    let t := (((s.bltRecord m o 1 o.stopLine o.stopElem).tally (.bolter m) 12 1).tally (.floor m 0) 6 1).onBolt m fun o =>
      { o with phase := .parked }
    if o.quiet = true then t.tally (.sluice m) 10 1 else t.raise (.bolter m) 5 := by
  simp only [boltPark, State.ctrlMsg, hs, ho, h, bne_self_eq_false, Bool.or_self, Bool.false_eq_true, if_false]

theorem updateComplete_of_written (hs : s.halted = false) (ho : s.bolt m = some o) (h : o.phase = .finished) (hh : o.held = [])
    (hj : ∀ j ∈ s.stageJobs m 1, j.op ≠ o.id) : updateComplete m s =
    let t := (({ s.onMill m (fun x => { x with bolter := { x.bolter with ops := x.bolter.ops.drop 1 } }) with
      pond := { s.pond with lastStep := o.step } } : State).tally (.bolter m) 14 1).raise (.bolter m) 6
    match o.post with
    | some ctr => (t.tally (.floor m 0) 6 1).post m (ctxOf o.system) ctr 1
    | none => t := by
  have written : ((s.stageJobs m 1).any fun j => j.op == o.id) = false := by simpa using hj
  cases post : o.post <;>
    simp only [updateComplete, State.enginePost, State.ctrlMsg, State.onBolter_eq, State.onMill_pond, hs, ho, h, hh, written, post,
      bne_self_eq_false, List.isEmpty_nil, Bool.not_true, Bool.or_self, Bool.false_eq_true, if_false]

/-! ## BOLT_RESUME -/

theorem State.boltResumeWrite_of_resolvable (ho : s.bolt m = some o) (h : o.phase = .parked) (hk : s.copierKeeps o = false) :
    s.boltResumeWrite m = (true, s.boltContinue m) := by
  simp only [State.boltResumeWrite, ho, h, hk, Bool.not_false, and_self, if_true]

theorem State.boltResumeWrite_of_refused (h : ∀ o, s.bolt m = some o → o.phase ≠ .parked ∨ s.copierKeeps o = true) :
    s.boltResumeWrite m = (false, s) := by
  unfold State.boltResumeWrite
  split
  · next o ho =>
    have : ¬(o.phase = .parked ∧ (!s.copierKeeps o) = true) := by
      rintro ⟨hp, hk⟩
      obtain h | h := h o ho
      · exact h hp
      · simp [h] at hk
    rw [if_neg this]
  · rfl

theorem act_boltResume (path : Path) : s.act path (.bolter m) 0x150 1 1 =
    if (s.boltResumeWrite m).1 = true then (s.boltResumeWrite m).2
    else (s.boltResumeWrite m).2.accessErr path ((Page.bolter m).base + 0x150) true 1 .value := rfl

/-- The write of BOLT_RESUME that reaches its register. -/
theorem State.regWrite_boltResume (p : Path) (ha : Accepts s p (.bolter m)) :
    s.regWrite p ((Page.bolter m).base + 0x150) 32 1 = (s.countAccess p 5).act p (.bolter m) 0x150 1 1 :=
  State.regWrite_action s p (.bolter m) 0x150 _ _ (by decide) (by decide) (by decide) ha
    (by simp [inMsix]) rfl rfl (by decide) (by decide) rfl 1 rfl (by decide) rfl rfl (fun _ _ => rfl) (fun _ _ => rfl)

theorem boltResume_eq (p : Path) (codes : List Ecc) (ha : Accepts s p (.bolter m)) :
    boltResume p m codes s = s.coded codes fun u => (u.countAccess p 5).act p (.bolter m) 0x150 1 1 := by
  have accepts : Accepts { s with codes := codes } p (.bolter m) := ha
  simp only [boltResume, State.coded, State.regWrite_boltResume _ m p accepts]

@[simp] theorem State.countAccess_mill (p : Path) (k : Nat) (n : MillId) : (s.countAccess p k).mill n = s.mill n := by
  rw [State.countAccess_eq]; cases n <;> rfl

theorem State.countAccess_copierKeeps (p : Path) (k : Nat) : (s.countAccess p k).copierKeeps o = s.copierKeeps o := by
  rw [State.countAccess_eq]; rfl

end boltRun

/-! ## A tally of a ledger page -/

theorem MillId.num_inj {m k : MillId} (h : m.num = k.num) : m = k := by
  cases m <;> cases k <;> simp [MillId.num] at h ⊢

/-- The tallies of a page that is no ledger page lie apart from those of one that is. -/
theorem Page.eq_ledger_of_entry {p : Page} (h : p.entry = (Page.ledger m).entry) : p = .ledger m := by
  cases p with
  | ledger k =>
    simp only [Page.entry, Page.mill?, Page.rank] at h
    rw [MillId.num_inj (m := k) (k := m) (by omega)]
  | _ =>
    simp only [Page.entry, Page.mill?, Page.rank] at h
    omega

theorem portPage_ne_ledger (port : PortRef) (k : MillId) : port.page ≠ .ledger k := by
  cases port <;> nofun

@[simp] theorem State.tally_tallyOf_self (p : Page) (k n : Nat) :
    (s.tally p k n).tallyOf p k = s.tallyOf p k + BitVec.ofNat 64 n := by
  simp [State.tally, State.tallyOf]

theorem State.tally_tallyOf_ledger {p : Page} (hp : p ≠ .ledger m) {k i : Nat} (hk : k < 16) (hi : i < 16) (n : Nat) :
    (s.tally p k n).tallyOf (.ledger m) i = s.tallyOf (.ledger m) i := by
  have apart : p.entry ≠ (Page.ledger m).entry := fun h => hp (Page.eq_ledger_of_entry m h)
  exact cellGet_cellSet_of_ne _ _ _ _ _ (by omega)

/-! ## What an access of a memory port leaves of the ledger engines -/

/-- The ledger engines, their tallies, the hoppers and the granaries are as they were. -/
structure SparesLedgers (s t : State) : Prop where
  ledger : ∀ k, (t.mill k).ledger = (s.mill k).ledger
  tallyOf : ∀ k i, i < 16 → t.tallyOf (.ledger k) i = s.tallyOf (.ledger k) i
  hopper : t.hopper = s.hopper
  granary : t.granary = s.granary

namespace SparesLedgers

variable {s t u : State}

theorem refl (s : State) : SparesLedgers s s := ⟨fun _ => rfl, fun _ _ _ => rfl, rfl, rfl⟩

theorem trans (h : SparesLedgers s t) (g : SparesLedgers t u) : SparesLedgers s u :=
  ⟨fun k => (g.ledger k).trans (h.ledger k), fun k i hi => (g.tallyOf k i hi).trans (h.tallyOf k i hi), g.hopper.trans h.hopper,
    g.granary.trans h.granary⟩

theorem ite {c : Prop} [Decidable c] (h : SparesLedgers s t) (g : SparesLedgers s u) : SparesLedgers s (if c then t else u) := by
  split
  · exact h
  · exact g

theorem forAll {α : Type} (l : List α) (f : State → α → State) (h : ∀ s a, SparesLedgers s (f s a)) (s : State) :
    SparesLedgers s (s.forAll l f) := by
  unfold State.forAll
  induction l generalizing s with
  | nil => exact refl s
  | cons a l ih => exact (h s a).trans (ih _)

/-- A change of anything but the mills, the tallies, the hoppers and the granaries. -/
theorem of_eq (h0 : t.mill0 = s.mill0) (h1 : t.mill1 = s.mill1) (ht : t.tallies = s.tallies) (hh : t.hopper = s.hopper)
    (hg : t.granary = s.granary) : SparesLedgers s t := by
  refine ⟨fun k => ?_, fun k i _ => by rw [State.tallyOf, State.tallyOf, ht], hh, hg⟩
  cases k
  · rw [State.mill_m0, State.mill_m0, h0]
  · rw [State.mill_m1, State.mill_m1, h1]

theorem onMill (s : State) (m : MillId) (f : Mill → Mill) (h : ∀ x, (f x).ledger = x.ledger) : SparesLedgers s (s.onMill m f) := by
  refine ⟨fun k => ?_, fun k i _ => by rw [State.tallyOf, State.tallyOf, State.onMill_tallies], by simp, by simp⟩
  by_cases hk : k = m
  · subst hk
    rw [State.onMill_mill, h]
  · rw [State.onMill_mill_of_ne _ _ _ _ hk]

theorem tally (s : State) (p : Page) (i n : Nat) (hp : ∀ k, p ≠ .ledger k) (hi : i < 16) : SparesLedgers s (s.tally p i n) :=
  ⟨fun k => by simp, fun k _ hj => s.tally_tallyOf_ledger k (hp k) hi hj n, rfl, rfl⟩

theorem setWord (s : State) (p : Page) (off : Nat) (v : W32) : SparesLedgers s (s.setWord p off v) := of_eq rfl rfl rfl rfl rfl

theorem putFld (s : State) (p : Page) (off lo w v : Nat) : SparesLedgers s (s.putFld p off lo w v) := setWord s p off _

theorem host (s : State) (h : HostPort) : SparesLedgers s { s with host := h } := of_eq rfl rfl rfl rfl rfl

theorem hostTally (s : State) (i n : Nat) (hi : i < 16) : SparesLedgers s (s.tally .host i n) := tally s .host i n (by simp) hi

/-! ### Events -/

theorem logTrigger (s : State) (m : MillId) : SparesLedgers s (s.logTrigger m) := by
  have counted : SparesLedgers s (s.tally (.log m) 5 1) := tally s (.log m) 5 1 (by simp) (by decide)
  unfold State.logTrigger
  split
  · exact onMill s m _ fun _ => rfl
  · exact counted
  · exact counted
  · exact refl s
  · exact refl s

theorem trigOnEvent (s : State) (m : MillId) (p : Page) (bit : Nat) : SparesLedgers s (s.trigOnEvent m p bit) :=
  ite (logTrigger s m) (refl s)

theorem toSystem (s : State) (p : Page) (bit : Nat) (nmi : Bool) : SparesLedgers s (s.toSystem p bit nmi) := by
  refine forAll _ _ (fun s k => ?_) s
  exact (tally s (.floor k 0) 6 1 (by simp) (by decide)).trans (onMill _ k _ fun _ => rfl)

theorem hostSend (s : State) (msg : PcieMsg) : SparesLedgers s (s.hostSend msg) := by
  unfold State.hostSend
  extract_lets port sent
  have h : SparesLedgers s sent := host s _
  refine ite (refl s) (ite (host s _) ?_)
  cases msg with
  | msix v => exact h.trans (hostTally sent 6 1 (by decide))
  | write a bs => exact h

theorem sendRoute (s : State) (r : Nat) : SparesLedgers s (s.sendRoute r) :=
  ite (ite (refl s) (ite (host s _) (hostSend s _))) (refl s)

theorem fifoFull (s : State) : SparesLedgers s s.fifoFull := by
  unfold State.fifoFull
  refine (hostTally s 9 1 (by decide)).trans (ite (refl _) ?_)
  refine (host _ _).trans (ite (refl _) ?_)
  refine (putFld _ .host _ _ _ _).trans ((trigOnEvent _ .m0 _ _).trans ((trigOnEvent _ .m1 _ _).trans (ite ?_ (refl _))))
  exact (toSystem _ _ _ _).trans (ite ((hostTally _ _ 1 (by decide)).trans (sendRoute _ _)) (refl _))

theorem toHost (s : State) (p : Page) (bit : Nat) : SparesLedgers s (s.toHost p bit) := by
  unfold State.toHost
  split
  · exact refl s
  · exact ite ((ite ((host s _).trans (hostTally _ _ 1 (by decide))) (fifoFull s)).trans (sendRoute _ _)) (refl s)

theorem raise (s : State) (p : Page) (bit : Nat) : SparesLedgers s (s.raise p bit) := by
  unfold State.raise
  extract_lets marked noted
  have h : SparesLedgers s noted := (putFld s p 0x010 bit 1 1).trans ((trigOnEvent _ .m0 p bit).trans (trigOnEvent _ .m1 p bit))
  exact ite (refl s) (ite (h.trans ((toSystem _ _ _ _).trans (toHost _ _ _))) (ite (h.trans (toSystem _ _ _ _)) h))

theorem record (s : State) (p : Page) (off : Nat) {fill : State → State} (h : SparesLedgers s (fill s)) :
    SparesLedgers s (s.record p off fill) :=
  ite (refl s) (h.trans (putFld _ _ _ _ _ _))

/-! ### The history and the ports -/

theorem takeInj (s : State) (p : Page) (code : Nat) : SparesLedgers s (s.takeInj p code).2 := by
  unfold State.takeInj
  split
  · exact of_eq rfl rfl rfl rfl rfl
  · exact refl s

theorem nv (s : State) (x : NonVol) : SparesLedgers s { s with nv := x } := of_eq rfl rfl rfl rfl rfl

theorem historyRoom (s : State) (step : Nat) : SparesLedgers s (s.historyRoom step) := by
  unfold State.historyRoom
  refine ite (refl s) ?_
  exact (nv s _).trans (tally _ .history 1 1 (by simp) (by decide))

theorem histWrite (s : State) (r : HistRec) (injected : Bool) : SparesLedgers s (s.histWrite r injected) := by
  unfold State.histWrite
  refine ite (refl s) ?_
  refine (takeInj s .history 2).trans (ite (tally _ .history 2 1 (by simp) (by decide)) ?_)
  exact (historyRoom _ _).trans ((nv _ _).trans (tally _ .history 0 1 (by simp) (by decide)))

theorem portTally (s : State) (port : PortRef) (i n : Nat) (hi : i < 16) : SparesLedgers s (s.tally port.page i n) :=
  tally s port.page i n (portPage_ne_ledger port) hi

theorem errRecord (s : State) (port : PortRef) (a kind device : Nat) (seq : W32) :
    SparesLedgers s (s.errRecord port a kind device seq) :=
  (setWord s _ _ _).trans ((setWord _ _ _ _).trans ((setWord _ _ _ _).trans (setWord _ _ _ _)))

theorem eccCorrected (s : State) (port : PortRef) (a : Nat) (seq : W32) : SparesLedgers s (s.eccCorrected port a seq) := by
  have drawn (s : State) : SparesLedgers s s.drawn := of_eq rfl rfl rfl rfl rfl
  have wear (s : State) (w : Cells Nat) : SparesLedgers s { s with wear := w } := of_eq rfl rfl rfl rfl rfl
  have worn (s : State) (w : List Nat) : SparesLedgers s { s with worn := w } := of_eq rfl rfl rfl rfl rfl
  unfold State.eccCorrected
  extract_lets p counted noted f n aged
  have h : SparesLedgers s counted := portTally s port 3 1 (by decide)
  have h : SparesLedgers s noted := h.trans (ite (refl _) ((errRecord _ _ _ _ _ _).trans ((drawn _).trans (raise _ p 0))))
  have h : SparesLedgers s aged := h.trans (wear noted _)
  exact ite (h.trans ((worn aged _).trans (raise _ p 2))) h

theorem badFrame (s : State) (a : Nat) (injected : Bool) : SparesLedgers s (s.badFrame a injected) := by
  unfold State.badFrame
  extract_lets f store listed va noted
  have h : SparesLedgers s listed := ite (refl s) ((nv s _).trans (tally _ .pond 15 1 (by simp) (by decide)))
  refine (h.trans (record listed .pond 0x164 ?_)).trans (raise noted .pond 3)
  exact (setWord _ _ _ _).trans ((setWord _ _ _ _).trans ((setWord _ _ _ _).trans (setWord _ _ _ _)))

theorem eccUncorrectable (s : State) (port : PortRef) (a kind : Nat) (seq : W32) (injected : Bool) :
    SparesLedgers s (s.eccUncorrectable port a kind seq injected) := by
  unfold State.eccUncorrectable
  extract_lets p counted noted
  have h : SparesLedgers s counted := portTally s port 4 1 (by decide)
  have h : SparesLedgers s noted := h.trans (ite (refl _) (errRecord _ _ _ _ _ _))
  exact h.trans ((raise noted p 1).trans (badFrame _ _ _))

theorem memHistory (s : State) (m : MillId) (a : Nat) (injected : Bool) : SparesLedgers s (s.memHistory m a injected) := by
  unfold State.memHistory
  split
  · exact refl s
  · exact histWrite s _ _

theorem takeCode (s : State) : SparesLedgers s s.takeCode.2 := by
  unfold State.takeCode
  split
  · exact refl s
  · exact of_eq rfl rfl rfl rfl rfl

theorem wordRead (s : State) (m : MillId) (port : PortRef) (w : Nat) : SparesLedgers s (s.wordRead m port w).2 := by
  have taken := takeCode s
  unfold State.wordRead
  split <;> rename_i h <;> rw [h] at taken
  · exact taken
  · exact taken.trans (eccCorrected _ _ _ _)
  · exact taken.trans ((eccUncorrectable _ _ _ _ _ _).trans (memHistory _ _ _ _))

theorem wordsRead (s : State) (m : MillId) (port : PortRef) (ws : List Nat) : SparesLedgers s (s.wordsRead m port ws).2 := by
  induction ws generalizing s with
  | nil => exact refl s
  | cons w ws ih =>
    have read := wordRead s m port w
    unfold State.wordsRead
    split
    · next h =>
      rw [h] at read
      exact read.trans (ih _)
    · exact read

theorem codeRead (s : State) (m : MillId) (port : PortRef) (ws : List Nat) : SparesLedgers s (s.codeRead m port ws).2 := by
  unfold State.codeRead
  simp only []
  refine (takeInj s port.page 2).trans ?_
  split
  · exact (eccUncorrectable _ _ _ _ _ _).trans (memHistory _ _ _ _)
  · refine (takeInj _ port.page 1).trans ?_
    split
    · exact eccCorrected _ _ _ _
    · exact wordsRead _ _ _ _

theorem portWrite (s : State) (m : MillId) (a : Nat) (spans : List (Nat × Nat)) : SparesLedgers s (s.portWrite m a spans).2 := by
  unfold State.portWrite
  split
  · exact refl s
  · next port _ =>
    simp only []
    split
    · exact refl s
    · refine (portTally s port 1 1 (by decide)).trans ((portTally _ port 2 (partialWords spans).length (by decide)).trans ?_)
      split
      · exact refl _
      · exact codeRead _ _ _ _

theorem dropLine (s : State) (line : Nat) : SparesLedgers s (s.dropLine line) := by
  unfold State.dropLine
  split
  · exact refl s
  · next port _ =>
    have discarded : SparesLedgers s (s.onSluice port.mill fun x => x.discard line) := onMill s port.mill _ fun _ => rfl
    exact discarded.trans (tally _ (.granary port.mill) 2 _ (by simp) (by decide))

theorem rawWrite (s : State) (a : Nat) (bs : List Byte) : SparesLedgers s (s.rawWrite a bs) :=
  have written : SparesLedgers s { s with mem := writeBytes s.mem a bs } := of_eq rfl rfl rfl rfl rfl
  ite (refl s) (written.trans (forAll _ _ dropLine _))

theorem countAccess (s : State) (p : Path) (k : Nat) (hk : k < 16) : SparesLedgers s (s.countAccess p k) :=
  ite (hostTally s k 1 hk) (refl s)

end SparesLedgers

/-! ## WRITEBACK (R227, R228) -/

theorem State.entryBack_spares (d : Nat × List Byte) : SparesLedgers (s.tally (.ledger m) 2 1) (s.entryBack m d) := by
  have access := SparesLedgers.portWrite (s.tally (.ledger m) 2 1) m (16 * d.1) [(16 * d.1, 16)]
  unfold State.entryBack
  simp only []
  split
  · next h => rwa [h] at access
  · next h =>
    rw [h] at access
    exact access.trans (SparesLedgers.rawWrite _ _ _)

/-- The entries written back are counted one by one, and no cache changes as they are written. -/
theorem State.forAll_entryBack (ds : List (Nat × List Byte)) :
    let t := s.forAll ds fun s d => s.entryBack m d
    (∀ k, (t.mill k).ledger = (s.mill k).ledger) ∧ t.hopper = s.hopper ∧ t.granary = s.granary ∧
      t.tallyOf (.ledger m) 2 = s.tallyOf (.ledger m) 2 + BitVec.ofNat 64 ds.length := by
  induction ds generalizing s with
  | nil => exact ⟨fun _ => rfl, rfl, rfl, (BitVec.add_zero _).symm⟩
  | cons d ds ih =>
    have spares := s.entryBack_spares m d
    obtain ⟨ledger, hopper, granary, counted⟩ := ih (s.entryBack m d)
    refine ⟨fun k => (ledger k).trans ((spares.ledger k).trans (by simp)), hopper.trans spares.hopper, granary.trans spares.granary, ?_⟩
    calc ((s.entryBack m d).forAll ds fun s d => s.entryBack m d).tallyOf (.ledger m) 2
      _ = (s.entryBack m d).tallyOf (.ledger m) 2 + BitVec.ofNat 64 ds.length := counted
      _ = s.tallyOf (.ledger m) 2 + BitVec.ofNat 64 1 + BitVec.ofNat 64 ds.length := by
        rw [spares.tallyOf m 2 (by decide), State.tally_tallyOf_self]
      _ = s.tallyOf (.ledger m) 2 + BitVec.ofNat 64 (ds.length + 1) := by
        rw [BitVec.add_assoc, ← BitVec.ofNat_add, Nat.add_comm]

/-- WRITEBACK leaves the cache clean with what it holds, each dirty entry counted. -/
theorem State.ledgerFlush_clean :
    let t := s.ledgerFlush m
    (t.mill m).ledger = { (s.mill m).ledger with dirty := [] } ∧ (t.mill m.other).ledger = (s.mill m.other).ledger ∧
      t.tallyOf (.ledger m) 2 = s.tallyOf (.ledger m) 2 + BitVec.ofNat 64 (s.mill m).ledger.dirty.length ∧
      t.hopper = s.hopper ∧ t.granary = s.granary := by
  obtain ⟨ledger, hopper, granary, counted⟩ := s.forAll_entryBack m (s.mill m).ledger.dirty
  simp only [State.ledgerFlush, State.onLedger, State.onMill_mill, State.onMill_mill_other, State.onMill_hopper, State.onMill_granary,
    ledger, hopper, granary, true_and, and_true]
  rw [← counted, State.tallyOf, State.tallyOf, State.onMill_tallies]

theorem State.ledgerFlush_mem_of_clean (h : (s.mill m).ledger.dirty = []) : (s.ledgerFlush m).mem = s.mem := by
  simp only [State.ledgerFlush, State.onLedger, State.onMill_mem, h, State.forAll, List.foldl_nil]

/-- Settles O39: a case per way in which the work of an update ends, the park, the resume and the completion, each the meaning of its
command where its guards hold; WRITEBACK by induction on the dirty entries, each of which is counted and leaves the caches as they are.
That WRITEBACK writes every entry in one step, counting also one that an unreadable error-code word keeps from memory (log entry 17), and
that an update goes on to its next stop in one step (log entry 37) are readings of the model. -/
theorem updatesRunAndWriteBack : Obligations.UpdatesRunAndWriteBack := by
  unfold Obligations.UpdatesRunAndWriteBack
  refine ⟨⟨fun m codes o s hs hp ho hph => ?start, fun m o s hs ho hph => ?park, fun p m codes s ha => ?resume,
    fun m o s hs ho hph hh hj => ?complete⟩, fun p m s ha => ?writeback⟩
  case start =>
    intro u out
    have runs : exec (.updateStart m codes) s = .next (out (u.boltRun m o)) :=
      congrArg Host.Outcome.next (updateStart_of_held s m codes hs hp ho hph)
    refine ⟨fun c l e i he => ?ending, fun he => ?work⟩
    case ending => rw [runs, u.boltRun_of_ending m he]
    case work =>
      have settles {r : Except BltStop Unit} {t : State} (h : (boltWork m o).run.run u = (r, t)) :
          exec (.updateStart m codes) s = .next (out (t.bltSettle m r)) := by rw [runs, u.boltRun_of_work m he h]
      refine ⟨fun t h => settles h, fun t h => settles h, fun t h => settles h, fun cause v line elem t h => settles h,
        fun cause line elem inj t o' h ho' hj => ?fault⟩
      case fault => rw [settles h, t.bltSettle_of_fault m ho' hj]
  case park => exact congrArg Host.Outcome.next (boltPark_of_stalled s m hs ho hph)
  case resume =>
    intro u out
    have runs : exec (.boltResume p ⟨m, codes⟩) s = .next (out (u.act p (.bolter m) 0x150 1 1)) :=
      congrArg Host.Outcome.next (boltResume_eq s m p codes ha)
    have held : u.bolt m = s.bolt m := by simp only [u, State.bolt, State.countAccess_mill]; cases m <;> rfl
    have keeps (o : UpdateOp) : u.copierKeeps o = s.copierKeeps o := State.countAccess_copierKeeps _ p 5
    refine ⟨fun o ho hph hk => ?goesOn, fun h => ?refused⟩
    case goesOn =>
      rw [runs, act_boltResume, u.boltResumeWrite_of_resolvable m (held.trans ho) hph ((keeps o).trans hk), if_pos rfl]
    case refused =>
      rw [runs, act_boltResume, u.boltResumeWrite_of_refused m fun o ho => by rw [keeps]; exact h o (held.symm.trans ho),
        if_neg Bool.false_ne_true]
  case complete => exact congrArg Host.Outcome.next (updateComplete_of_written s m hs ho hph hh hj)
  case writeback =>
    have access : SparesLedgers s (s.countAccess p 5) := SparesLedgers.countAccess s p 5 (by decide)
    obtain ⟨cleaned, other, counted, hopper, granary⟩ := (s.countAccess p 5).ledgerFlush_clean m
    refine ⟨(s.countAccess p 5).ledgerFlush m, congrArg Host.Outcome.next (writeback_eq s p m ha), ?_, ?_, ?_, hopper.trans access.hopper,
      granary.trans access.granary, other.trans (access.ledger _), fun h => ?_⟩
    · rw [cleaned]
    · rw [cleaned, access.ledger]
    · rw [counted, access.ledger, access.tallyOf m 2 (by decide)]
    · rw [State.ledgerFlush_mem_of_clean _ m (by rw [access.ledger, h]), State.countAccess_mem]

end Sys2Proof.Machine
end

section
/-! PROOFS of 07_memory_sluices.md: the start of transfers and the translation of their chunks (R256, R257, R263 to R269). -/

namespace Sys2Proof.Machine

variable (s : State) (m : MillId)

/-! ## TRANSFER_START (R256) -/

/-- The transfers of a queue that are ahead of one of its transfers. -/
def SluQueue.aheadOf (x : SluQueue) (t : Transfer) : List Transfer := x.xfers.takeWhile fun y => y.id != t.id

theorem State.startNext_of_none {q : Nat} (h : (s.queue m q).xfers.find? (fun x => !x.started) = none) : s.startNext m q = s := by
  simp only [State.startNext, h]

section startNext
variable {q : Nat} {t : Transfer} (ht : (s.queue m q).xfers.find? (fun x => !x.started) = some t)
include ht

theorem State.startNext_of_some : s.startNext m q =
    if ((s.queue m q).parked.isSome || decide (4 ≤ ((s.queue m q).aheadOf t).length) ||
      ((s.queue m q).aheadOf t).any fun x => !(x.translated && x.failing.isNone)) = true then s
    else if t.leatEnd = true then s.startLeat m q t
    else s.onQueue m q fun x => x.onXfer t.id fun t => { t with started := true } := by
  simp only [State.startNext, ht]
  rfl

/-- A transfer waits while its queue is parked, four run ahead of it, or one ahead of it is not yet translated. -/
theorem State.startNext_of_waits (h : (s.queue m q).parked ≠ none ∨ 4 ≤ ((s.queue m q).aheadOf t).length ∨
    ∃ x ∈ (s.queue m q).aheadOf t, x.translated = false ∨ x.failing ≠ none) : s.startNext m q = s := by
  rw [s.startNext_of_some m ht]
  refine if_pos ?_
  obtain h | h | ⟨x, hx, h⟩ := h
  · simp [Option.isSome_iff_ne_none.2 h]
  · simp [h]
  · refine Bool.or_eq_true_iff.2 (.inr (List.any_eq_true.2 ⟨x, hx, ?_⟩))
    obtain h | h := h
    · simp [h]
    · simp [Option.isSome_iff_ne_none.2 h]

theorem State.startNext_of_ready (hp : (s.queue m q).parked = none) (hl : ((s.queue m q).aheadOf t).length < 4)
    (ha : ∀ x ∈ (s.queue m q).aheadOf t, x.translated = true ∧ x.failing = none) :
    s.startNext m q = if t.leatEnd = true then s.startLeat m q t
      else s.onQueue m q fun x => x.onXfer t.id fun t => { t with started := true } := by
  rw [s.startNext_of_some m ht]
  refine if_neg ?_
  simpa [hp, hl] using ha

end startNext

theorem transferStart_of_unheld {q : Fin 16} (codes : List Ecc) (hs : s.sluiceHeld = false) (hp : (s.queue m q.val).parked = none) :
    transferStart m q codes s = s.coded codes fun s => ((s.queueGoOn m q.val).retryHeld).startNext m q.val := by
  simp only [transferStart, hs, hp, Option.isSome_none, Bool.or_self, Bool.false_eq_true, if_false]

/-! ## CHUNK_TRANSLATE (R257, R263, R266, R268, R269) -/

theorem chunkTranslate_of_translating {q : Fin 16} (codes : List Ecc) {t : Transfer} (hs : s.sluiceHeld = false)
    (hp : (s.queue m q.val).parked = none) (ht : (s.queue m q.val).translating = some t) :
    chunkTranslate m q codes s = s.coded codes fun s => s.translateChunk m q.val t := by
  simp only [chunkTranslate, hs, hp, ht, Option.isSome_none, Bool.or_self, Bool.false_eq_true, if_false]

section translateChunk
variable {q : Nat} {t : Transfer} {v w : State}

theorem State.translateChunk_of_wait (h : s.planXfer m q t t.next = (.error .wait, v)) : s.translateChunk m q t = s := by
  simp only [State.translateChunk, h]

theorem State.translateChunk_of_fault {e : ChunkFault} (h : s.planXfer m q t t.next = (.error (.fault e), v)) :
    s.translateChunk m q t = v.chunkFault m q t t.next e := by
  simp only [State.translateChunk, h]

/-- A chunk that is planned is issued where its requests find their entries, and waits for them where they do not. -/
theorem State.translateChunk_of_plan {p : ChunkPlan} {r : CachePlan} (h : s.planXfer m q t t.next = (.ok p, v))
    (hr : v.chunkRequests m t.parsed.gran p.segs = (r, w)) : s.translateChunk m q t =
      if s.entriesFree m q r.reqs.length = true then w.issueChunk m q t p r else s.entryWait m q t := by
  simp only [State.translateChunk, h, hr]

end translateChunk

/-- Settles O40, by what the next transfer of a queue finds ahead of it, and by how the plan of the next chunk ends. That queues which
wait for shared entries obtain them in the order in which they first asked is a reading of the model (log entry 38). -/
theorem transfersStartAndTranslate : Obligations.TransfersStartAndTranslate := by
  unfold Obligations.TransfersStartAndTranslate
  refine ⟨fun m q codes s hs hp => ?start, fun m q codes t s hs hp ht => ?translate⟩
  case start =>
    intro out u
    have starts : exec (.transferStart m ⟨q, codes⟩) s = .next (out (u.startNext m q.val)) :=
      congrArg Host.Outcome.next (transferStart_of_unheld s m codes hs hp)
    refine ⟨fun h => ?_, fun t ht => ⟨fun h => ?_, fun hp hl ha => ?_⟩⟩
    · rw [starts, u.startNext_of_none m h]
    · rw [starts, u.startNext_of_waits m ht h]
    · rw [starts, u.startNext_of_ready m ht hp hl ha]
  case translate =>
    intro u out
    have translates : exec (.chunkTranslate m q codes) s = .next (out (u.translateChunk m q.val t)) :=
      congrArg Host.Outcome.next (chunkTranslate_of_translating s m codes hs hp ht)
    have entries (n : Nat) : u.entriesFree m q.val n = s.entriesFree m q.val n := by cases m <;> rfl
    refine ⟨fun v h => ?_, fun e v h => ?_, fun p v r w h hr => ⟨fun hf => ?_, fun hf => ?_⟩⟩
    · rw [translates, u.translateChunk_of_wait m h]
    · rw [translates, u.translateChunk_of_fault m h]
      rfl
    · rw [translates, u.translateChunk_of_plan m h hr, entries, hf, if_neg Bool.false_ne_true]
      rfl
    · rw [translates, u.translateChunk_of_plan m h hr, entries, hf, if_pos rfl]
      rfl

end Sys2Proof.Machine
end

section
/-! PROOFS of 07_memory_sluices.md: the requests of a chunk and its move (R247, R248, R257, R264, R265, R272, R646, R647). -/

namespace Sys2Proof.Machine

variable (s : State) (m : MillId)

/-! ## GRANULE_COMPLETE (R272, R646, R647) -/

section completeRequest
variable {q : Nat} {t : Transfer} {f : Flight} {r : Request} {v : State}

/-- A line is not fetched before a write to it that is in flight (R247). -/
theorem State.completeRequest_of_writeInFlight (hf : r.fill = true) (h : s.writeInFlight (r.granule / 512) = true) :
    s.completeRequest m q t f r = s := by
  simp only [State.completeRequest, hf, h, Bool.and_self, if_true]

variable (hf : r.fill = false ∨ s.writeInFlight (r.granule / 512) = false)
include hf

theorem State.fill_unheld : (r.fill && s.writeInFlight (r.granule / 512)) = false := by
  obtain hf | hf := hf <;> simp [hf]

theorem State.completeRequest_of_wait (h : s.requestPort m r = (.wait, v)) : s.completeRequest m q t f r = s := by
  simp only [State.completeRequest, s.fill_unheld hf, h, Bool.false_eq_true, if_false]

theorem State.completeRequest_of_bad {w : Nat} {inj : Bool} (h : s.requestPort m r = (.bad w inj, v)) :
    s.completeRequest m q t f r = (v.requestCounts m r f.issued).failChunk m q t f.chunk
      ((flightRequests (t.flights.filter fun x => f.chunk ≤ x.chunk)).erase (r, f.issued))
      (10, boolNat r.write, w, f.chunk, false, inj) := by
  simp only [State.completeRequest, s.fill_unheld hf, h, Bool.false_eq_true, if_false]

theorem State.completeRequest_of_ok (h : s.requestPort m r = (.ok, v)) :
    s.completeRequest m q t f r = (v.requestCounts m r f.issued).requestDone m q t f r := by
  simp only [State.completeRequest, s.fill_unheld hf, h, Bool.false_eq_true, if_false]

end completeRequest

section completeDropped
variable {q : Nat} {d : Request × W64} {v : State}

theorem State.completeDropped_of_wait (h : s.requestPort m d.1 = (.wait, v)) : s.completeDropped m q d = s := by
  simp only [State.completeDropped, h]

/-- A request of a dropped chunk gives its entry back, whatever its words hold (R403). -/
theorem State.completeDropped_of_served {o : PortOut} (ho : o ≠ .wait) (h : s.requestPort m d.1 = (o, v)) :
    s.completeDropped m q d = (v.requestCounts m d.1 d.2).onQueue m q fun x => { x with dropped := x.dropped.erase d } := by
  cases o with
  | wait => exact absurd rfl ho
  | ok => simp only [State.completeDropped, h]
  | bad w inj => simp only [State.completeDropped, h]

end completeDropped

/-- Which of the requests of a queue, those of its chunks before those of dropped ones, GRANULE_COMPLETE completes. -/
def SluQueue.chosen (x : SluQueue) (pick : BitVec 16) : Nat := pick.toNat % max 1 (x.inFlight.length + x.dropped.length)

section granuleComplete
variable {q : Fin 16} {pick : BitVec 16} (codes : List Ecc) (hs : s.halted = false)
include hs

theorem granuleComplete_of_idle (hf : (s.queue m q.val).inFlight = []) (hd : (s.queue m q.val).dropped = []) :
    granuleComplete m q pick codes s = s := by
  simp [granuleComplete, hs, hf, hd]

theorem granuleComplete_of_inFlight {t : Transfer} {f : Flight} {r : Request}
    (h : (s.queue m q.val).inFlight[(s.queue m q.val).chosen pick]? = some (t, f, r)) :
    granuleComplete m q pick codes s = s.coded codes fun s => s.completeRequest m q.val t f r := by
  unfold SluQueue.chosen at h
  simp only [granuleComplete, hs, h, Bool.false_eq_true, if_false]

theorem granuleComplete_of_dropped {d : Request × W64} (h : (s.queue m q.val).inFlight[(s.queue m q.val).chosen pick]? = none)
    (hd : (s.queue m q.val).dropped[(s.queue m q.val).chosen pick - (s.queue m q.val).inFlight.length]? = some d) :
    granuleComplete m q pick codes s = s.coded codes fun s => s.completeDropped m q.val d := by
  unfold SluQueue.chosen at h hd
  simp only [granuleComplete, hs, h, hd, Bool.false_eq_true, if_false]

end granuleComplete

/-! ## CHUNK_COMPLETE (R226, R248, R264) -/

section chunkComplete
variable {q : Fin 16} {pick : BitVec 16} (codes : List Ecc) {t : Transfer} {f : Flight} (hs : s.halted = false)
  (h : pickOf (s.queue m q.val).landing pick.toNat = some (t, f))
include hs h

theorem chunkComplete_of_rowHeld (hr : s.rowHeld f.segs = true) : chunkComplete m q pick codes s = s := by
  simp only [chunkComplete, hs, h, hr, Bool.false_eq_true, if_false, if_true]

theorem chunkComplete_of_not_rowHeld (hr : s.rowHeld f.segs = false) :
    chunkComplete m q pick codes s = s.coded codes fun s => s.completeChunk m q.val t f := by
  simp only [chunkComplete, hs, h, hr, Bool.false_eq_true, if_false]

end chunkComplete

section completeChunk
variable {q : Nat} {t : Transfer} {f : Flight} {v : State}

theorem State.completeChunk_of_bad {off : Nat} {inj : Bool} (h : s.pinSegs m f.segs = (some (off, inj), v)) :
    s.completeChunk m q t f = v.failChunk m q t f.chunk (flightRequests (t.flights.filter fun x => f.chunk < x.chunk))
      (13, 0, off, f.chunk, false, inj) := by
  simp only [State.completeChunk, h]

theorem State.completeChunk_of_good (h : s.pinSegs m f.segs = (none, v)) : s.completeChunk m q t f = v.landChunk m q t f := by
  simp only [State.completeChunk, h]

end completeChunk

/-! ## Bytes of physical memory (R227, R265) -/

@[simp] theorem overlay_length (a : Nat) (bs : List Byte) (b : Nat) (new : List Byte) : (overlay a bs b new).length = bs.length := by
  simp [overlay]

/-- A byte of a run over which another is laid. -/
theorem overlay_getElem (a : Nat) (bs : List Byte) (b : Nat) (new : List Byte) (i : Nat) (h : i < (overlay a bs b new).length) :
    (overlay a bs b new)[i] = if b ≤ a + i ∧ a + i < b + new.length then new.getD (a + i - b) (bs[i]'(by simpa using h))
      else bs[i]'(by simpa using h) := by
  simp [overlay]

/-- A run over which `bs` has been laid agrees with `bs` where they meet. -/
theorem overlay_overlay_self (a b : Nat) (bs ds : List Byte) : overlay a bs b (overlay b ds a bs) = bs := by
  refine List.ext_getElem (by simp) fun i h hi => ?_
  rw [overlay_getElem]
  split
  · next meets =>
    rw [List.getD_eq_getElem _ _ (by omega), overlay_getElem, if_pos (by omega)]
    rw [List.getD_eq_getElem _ _ (by omega)]
    congr 1
    omega
  · rfl

/-- A byte outside `bs` is as it was in a run over which `bs` has been laid. -/
theorem overlay_overlay_of_outside {a b c : Nat} {bs ds : List Byte} (x : List Byte) (hx : x.length = 1) (h : c < a ∨ a + bs.length ≤ c) :
    overlay c x b (overlay b ds a bs) = overlay c x b ds := by
  refine List.ext_getElem (by simp) fun i hi _ => ?_
  have zero : i = 0 := by simp at hi; omega
  subst zero
  rw [overlay_getElem, overlay_getElem, overlay_length]
  split
  · next meets =>
    rw [List.getD_eq_getElem _ _ (by simp; omega), overlay_getElem, if_neg (by omega), List.getD_eq_getElem _ _ (by omega)]
  · rfl

theorem foldl_overlay_length (ds : List (Nat × List Byte)) (a : Nat) (bs : List Byte) :
    (ds.foldl (fun bs d => overlay a bs (16 * d.1) d.2) bs).length = bs.length := by
  induction ds generalizing bs with
  | nil => rfl
  | cons d ds ih => rw [List.foldl_cons, ih, overlay_length]

theorem foldl_overlay_self (ds : List (Nat × List Byte)) (a : Nat) (bs : List Byte) :
    (ds.map fun d => (d.1, overlay (16 * d.1) d.2 a bs)).foldl (fun bs d => overlay a bs (16 * d.1) d.2) bs = bs := by
  induction ds with
  | nil => rfl
  | cons d ds ih => rw [List.map_cons, List.foldl_cons, overlay_overlay_self, ih]

theorem foldl_overlay_of_outside (ds : List (Nat × List Byte)) {a c : Nat} {bs : List Byte} (x : List Byte) (hx : x.length = 1)
    (h : c < a ∨ a + bs.length ≤ c) :
    (ds.map fun d => (d.1, overlay (16 * d.1) d.2 a bs)).foldl (fun bs d => overlay c bs (16 * d.1) d.2) x =
      ds.foldl (fun bs d => overlay c bs (16 * d.1) d.2) x := by
  induction ds generalizing x with
  | nil => rfl
  | cons d ds ih =>
    rw [List.map_cons, List.foldl_cons, List.foldl_cons, overlay_overlay_of_outside x hx h, ih _ (by rw [overlay_length, hx])]

@[simp] theorem State.physRead_length (a n : Nat) : (s.physRead a n).length = n := by
  rw [State.physRead, foldl_overlay_length, readBytes_length]

theorem State.dropLine_mem (line : Nat) : (s.dropLine line).mem = s.mem := by
  unfold State.dropLine
  split
  · rfl
  · simp

theorem State.rawWrite_mem (a : Nat) (bs : List Byte) : (s.rawWrite a bs).mem = writeBytes s.mem a bs := by
  unfold State.rawWrite
  split
  · next h => rw [List.isEmpty_iff.1 h, writeBytes]
  · exact State.forAll_part _ State.mem _ _ State.dropLine_mem

theorem State.physWrite_mem (a : Nat) (bs : List Byte) : (s.physWrite a bs).mem = writeBytes s.mem a bs := by
  rw [State.physWrite, State.onMill_mem, State.rawWrite_mem]

theorem State.physWrite_dirty (a : Nat) (bs : List Byte) : ((s.physWrite a bs).mill (ledgerMill a)).ledger.dirty =
    (s.mill (ledgerMill a)).ledger.dirty.map fun d => (d.1, overlay (16 * d.1) d.2 a bs) := by
  rw [State.physWrite, State.onMill_mill]
  simp only [(SparesLedgers.rawWrite s a bs).ledger]

theorem State.physWrite_ledger_of_ne {k : MillId} (a : Nat) (bs : List Byte) (h : k ≠ ledgerMill a) :
    ((s.physWrite a bs).mill k).ledger = (s.mill k).ledger := by
  rw [State.physWrite, State.onMill_mill_of_ne _ _ _ _ h, (SparesLedgers.rawWrite s a bs).ledger]

/-- The entries that a run meets are found by their slots, which a write leaves. -/
theorem filter_overlay (ds : List (Nat × List Byte)) (p : Nat → Bool) (a : Nat) (bs : List Byte) :
    (ds.map fun d => (d.1, overlay (16 * d.1) d.2 a bs)).filter (fun d => p d.1) =
      (ds.filter fun d => p d.1).map fun d => (d.1, overlay (16 * d.1) d.2 a bs) := by
  rw [List.filter_map]
  rfl

/-- Bytes read where they were written are the bytes written. -/
theorem State.physRead_physWrite (a : Nat) (bs : List Byte) : (s.physWrite a bs).physRead a bs.length = bs := by
  rw [State.physRead, State.physWrite_dirty, State.physWrite_mem, readBytes_writeBytes]
  rw [filter_overlay _ (fun k => decide (16 * k < a + bs.length) && decide (a < 16 * k + 16)), foldl_overlay_self]

/-- A write leaves the bytes outside it. -/
theorem State.physRead_physWrite_of_outside {a c : Nat} {bs : List Byte} (h : c < a ∨ a + bs.length ≤ c) :
    (s.physWrite a bs).physRead c 1 = s.physRead c 1 := by
  have byte : readBytes (s.physWrite a bs).mem c 1 = readBytes s.mem c 1 := by
    simpa [readBytes, State.physWrite_mem] using cellGet_writeBytes_outside s.mem a c bs h
  rw [State.physRead, State.physRead, byte]
  by_cases hk : ledgerMill c = ledgerMill a
  · rw [hk, State.physWrite_dirty, filter_overlay _ (fun k => decide (16 * k < c + 1) && decide (c < 16 * k + 16)),
      foldl_overlay_of_outside _ _ (readBytes_length _ _ _) h]
  · rw [State.physWrite_ledger_of_ne _ _ _ hk]

theorem State.moveChunk_mem (a b n : Nat) :
    s.moveChunk [{ src := .mem a, dst := .mem b, len := n }] = s.physWrite b (s.physRead a n) := rfl

/-- Settles O41: a request in flight by what its port answers, a late one alike, a chunk by the rows that it meets and the pinned words
that it reads, and the move of a run by the laws of physical memory. Which request and which chunk of a queue comes next is an operand
(log entry 38), and the outcomes of the error code are (log entry 39). -/
theorem granulesAndChunksComplete : Obligations.GranulesAndChunksComplete := by
  unfold Obligations.GranulesAndChunksComplete
  refine ⟨fun m q pick codes s hs => ?granule, fun m q pick codes t f s hs h => ?chunk, fun a b n s => ?move⟩
  case granule =>
    intro u out fly late k counts
    refine ⟨fun hf hd => congrArg Host.Outcome.next (granuleComplete_of_idle s m codes hs hf hd), fun t f r h => ?inFlight,
      fun d hn hd => ?dropped⟩
    case inFlight =>
      have completes : exec (.granuleComplete m q pick codes) s = .next (out (u.completeRequest m q.val t f r)) :=
        congrArg Host.Outcome.next (granuleComplete_of_inFlight s m codes hs h)
      refine ⟨fun hf hw => ?_, fun hf => ⟨fun v hv => ?_, fun w inj v hv => ?_, fun v hv => ?_⟩⟩
      · rw [completes, u.completeRequest_of_writeInFlight m hf hw]
      · rw [completes, u.completeRequest_of_wait m hf hv]
      · rw [completes, u.completeRequest_of_bad m hf hv]
        rfl
      · rw [completes, u.completeRequest_of_ok m hf hv]
        rfl
    case dropped =>
      have completes : exec (.granuleComplete m q pick codes) s = .next (out (u.completeDropped m q.val d)) :=
        congrArg Host.Outcome.next (granuleComplete_of_dropped s m codes hs hn hd)
      refine ⟨fun v hv => ?_, fun o v ho hv => ?_⟩
      · rw [completes, u.completeDropped_of_wait m hv]
      · rw [completes, u.completeDropped_of_served m ho hv]
        rfl
  case chunk =>
    intro u out
    refine ⟨fun hr => congrArg Host.Outcome.next (chunkComplete_of_rowHeld s m codes hs h hr), fun hr => ?_⟩
    have completes : exec (.chunkComplete m q ⟨pick, codes⟩) s = .next (out (u.completeChunk m q.val t f)) :=
      congrArg Host.Outcome.next (chunkComplete_of_not_rowHeld s m codes hs h hr)
    refine ⟨fun off inj v hv => ?_, fun v hv => ?_⟩
    · rw [completes, u.completeChunk_of_bad m hv]
      rfl
    · rw [completes, u.completeChunk_of_good m hv]
      rfl
  case move =>
    have written := s.physRead_physWrite b (s.physRead a n)
    rw [State.physRead_length] at written
    refine ⟨written, fun c hc => ?_⟩
    rw [State.moveChunk_mem, State.physRead_physWrite_of_outside]
    rwa [State.physRead_length]

end Sys2Proof.Machine
end

section
/-! PROOFS of 07_memory_sluices.md: SLU_RESUME and TLB_INVAL (R251, R253, R267, R274, R441). -/

namespace Sys2Proof.Machine

variable (s : State) (m : MillId)

/-! ## Writes of action registers -/

theorem loWord_ofNat (n : Nat) : loWord (BitVec.ofNat 64 n) = BitVec.ofNat 32 n := by
  refine BitVec.eq_of_toNat_eq ?_
  simp only [loWord, BitVec.toNat_ofNat]
  omega

/-! ## SLU_RESUME (R253, R267, R274) -/

/-- A word of SLU_RESUME whose fields name a queue and its actions, and that has no other bit. -/
def SluAction (n q : Nat) (resume fail : Bool) : Prop :=
  let w := BitVec.ofNat 32 n
  bitsOf w 0 4 = q ∧ bitOf w 8 = resume ∧ bitOf w 9 = fail ∧ (w.zeroExtend 64).toNat &&& 0x30F = (w.zeroExtend 64).toNat

theorem sluAction_resume (q : Fin 16) : SluAction (q.val + 0x100) q.val true false := by
  unfold SluAction
  revert q
  decide

theorem sluAction_fail (q : Fin 16) : SluAction (q.val + 0x200) q.val false true := by
  unfold SluAction
  revert q
  decide

theorem act_sluResume (path : Path) (w : W32) (v : W64) : s.act path (.sluice m) 0x110 w v =
    if (s.sluResume m (bitsOf w 0 4) (bitOf w 8) (bitOf w 9)).1 = true then (s.sluResume m (bitsOf w 0 4) (bitOf w 8) (bitOf w 9)).2
    else (s.sluResume m (bitsOf w 0 4) (bitOf w 8) (bitOf w 9)).2.accessErr path ((Page.sluice m).base + 0x110) true w .value := rfl

section regWrite
variable {p : Path} {n q : Nat} {resume fail : Bool} {t : State} (ha : Accepts s p (.sluice m)) (hw : SluAction n q resume fail)
include ha hw

/-- A write of SLU_RESUME that reaches its register. -/
theorem State.regWrite_sluResume : s.regWrite p ((Page.sluice m).base + 0x110) 32 (BitVec.ofNat 64 n) =
    if ((s.countAccess p 5).sluResume m q resume fail).1 = true then ((s.countAccess p 5).sluResume m q resume fail).2
    else ((s.countAccess p 5).sluResume m q resume fail).2.accessErr p ((Page.sluice m).base + 0x110) true (BitVec.ofNat 32 n)
      .value := by
  obtain ⟨queue, resumes, fails, mask⟩ := hw
  rw [State.regWrite_action s p (.sluice m) 0x110 _ _ (by decide) (by decide) (by decide) ha (by simp [inMsix]) rfl rfl (by decide)
    (by decide) rfl _ (loWord_ofNat n) mask rfl rfl (fun _ _ => rfl) (fun _ _ => rfl), act_sluResume, queue, resumes, fails]

theorem State.regWrite_sluResume_of_accepted (h : (s.countAccess p 5).sluResume m q resume fail = (true, t)) :
    s.regWrite p ((Page.sluice m).base + 0x110) 32 (BitVec.ofNat 64 n) = t := by
  rw [s.regWrite_sluResume m ha hw, h, if_pos rfl]

theorem State.regWrite_sluResume_of_refused (h : (s.countAccess p 5).sluResume m q resume fail = (false, t)) :
    s.regWrite p ((Page.sluice m).base + 0x110) 32 (BitVec.ofNat 64 n) =
      t.accessErr p ((Page.sluice m).base + 0x110) true (BitVec.ofNat 32 n) .value := by
  rw [s.regWrite_sluResume m ha hw, h, if_neg Bool.false_ne_true]

end regWrite

@[simp] theorem State.onQueue_word (q : Nat) (f : SluQueue → SluQueue) (p : Page) (o : Nat) :
    (s.onQueue m q f).word p o = s.word p o := by
  rw [State.onQueue, State.onSluice_eq, State.onMill_word]

theorem State.onQueue_queue_xfers (q : Nat) (f : SluQueue → SluQueue) (h : ∀ x, (f x).xfers = x.xfers) :
    ((s.onQueue m q f).queue m q).xfers = (s.queue m q).xfers := by
  simp only [State.queue, State.onQueue, State.onSluice_eq, State.onMill_mill, listOn, List.getD_eq_getElem?_getD,
    List.getElem?_modify_eq]
  cases (s.mill m).sluice.queues[q]? with
  | none => rfl
  | some x => exact h x

/-- FAIL ends the parked transfer in PAGE, with what its record holds. -/
theorem State.failPark_eq (q : Nat) (t : Transfer) : s.failPark m q t = (((s.dropChannelOp m q t).onQueue m q fun x =>
    { x.onXfer t.id (fun y => { y with failing := some (8, s.fld (.sluice m) (0x200 + 0x40 * q + 4) 4 2,
        (s.word64 (.sluice m) (0x200 + 0x40 * q + 8)).toNat, (s.word (.sluice m) (0x200 + 0x40 * q + 0x10)).toNat, false, false) }) with
      resumed := false }).postQueue m q) := by
  simp only [State.failPark, State.chunkFault, resolvable]
  rfl

section sluResume
variable {q : Nat}

/-- A queue that is not parked, or one that the copier resolves, does neither action. -/
theorem State.sluResume_of_refused (fail : Bool) (h : (s.queue m q).parked = none ∨ s.copierHolds m q = true) :
    s.sluResume m q (!fail) fail = (false, s) := by
  unfold State.sluResume
  split
  · cases fail <;> rfl
  · next parked =>
    have held : s.copierHolds m q = true := h.resolve_left fun none => by rw [none] at parked; exact absurd parked nofun
    cases fail <;> simp [held]

variable {cause id : Nat} (hp : (s.queue m q).parked = some (cause, id)) (hc : s.copierHolds m q = false)
include hp hc

theorem State.sluResume_of_resume :
    s.sluResume m q true false = (true, s.onQueue m q fun x => { x with parked := none, resumed := true }) := by
  simp [State.sluResume, hp, hc]

theorem State.sluResume_of_fail {t : Transfer} (ht : (s.queue m q).xfers.find? (fun t => t.id == id) = some t) :
    s.sluResume m q false true = (true, (s.onQueue m q fun x => { x with parked := none, resumed := false }).failPark m q t) := by
  have found : ((s.onQueue m q fun x => { x with parked := none, resumed := false }).queue m q).xfers.find? (fun t => t.id == id) =
      some t := by
    rw [State.onQueue_queue_xfers]
    · exact ht
    · exact fun _ => rfl
  simp [State.sluResume, hp, hc, found]

end sluResume

theorem State.countAccess_queue (p : Path) (k q : Nat) : (s.countAccess p k).queue m q = s.queue m q := by
  rw [State.queue, State.queue, State.countAccess_mill]

theorem State.countAccess_copierHolds (p : Path) (k q : Nat) : (s.countAccess p k).copierHolds m q = s.copierHolds m q := by
  have pond : (s.countAccess p k).copierParks = s.copierParks := by rw [State.countAccess_eq]; rfl
  rw [State.copierHolds, State.copierHolds, State.countAccess_queue, pond]

/-! ## TLB_INVAL (R251, R441) -/

theorem State.tlbInval_all_sluice : ((s.tlbInval m none).mill m).sluice = { (s.mill m).sluice with
    tlb := [], inval := some ((s.mill m).sluice.inval.getD [] ++ s.chunksThrough m none) } := by
  simp only [State.tlbInval, State.ctrlMsg, State.onSluice_eq, State.onMill_mill, State.tally_mill]

theorem State.tlbInval_page_sluice (v : Nat) : ((s.tlbInval m (some v)).mill m).sluice = { (s.mill m).sluice with
    tlb := (s.mill m).sluice.tlb.filter fun t => t.vpage != v
    inval := some ((s.mill m).sluice.inval.getD [] ++ s.chunksThrough m (some v)) } := by
  simp only [State.tlbInval, State.ctrlMsg, State.onSluice_eq, State.onMill_mill, State.tally_mill]

section tlbInvalDone
variable {wait : List (Nat × Nat)} (h : (s.mill m).sluice.inval = some wait)
include h

theorem tlbInvalDone_of_open (hw : ∃ w ∈ wait, w ∈ s.chunksThrough m none) : tlbInvalDone m s = s := by
  have busy : (wait.any fun w => (s.chunksThrough m none).contains w) = true := by simpa using hw
  simp only [tlbInvalDone, h, busy, if_true]

theorem tlbInvalDone_of_completed (hw : ∀ w ∈ wait, w ∉ s.chunksThrough m none) : tlbInvalDone m s =
    (s.onMill m fun x => { x with sluice := { x.sluice with inval := none } }).holdEnds := by
  have clear : (wait.any fun w => (s.chunksThrough m none).contains w) = false := by simpa using hw
  simp only [tlbInvalDone, h, clear, Bool.false_eq_true, if_false]
  rfl

end tlbInvalDone

/-- The hold of a pond copy ends with the invalidation of one mill where the other has none under way. -/
theorem State.holdEnds_of_inval_none (h : (s.mill m).sluice.inval = none) : s.holdEnds =
    if s.pond.st = 2 ∧ (s.mill m.other).sluice.inval = none
    then { s with pond := { s.pond with st := if s.pond.peer = true then 4 else 3 } } else s := by
  have both : (s.pond.st = 2 ∧ s.mill0.sluice.inval = none ∧ s.mill1.sluice.inval = none) ↔
      (s.pond.st = 2 ∧ (s.mill m.other).sluice.inval = none) := by
    cases m with
    | m0 => exact and_congr_right fun _ => and_iff_right h
    | m1 => exact and_congr_right fun _ => and_iff_left h
  exact if_congr both rfl rfl

/-- Settles O42: SLU_RESUME by the park of the queue that it names, TLB_INVAL and what it leaves of the translations, and the end of an
invalidation. Which translations are held (log entry 38), and that the hold of a pond copy lasts until the invalidations of both mills
complete (log entry 48), are readings of the model. -/
theorem queuesResumeAndTranslationsGo : Obligations.QueuesResumeAndTranslationsGo := by
  unfold Obligations.QueuesResumeAndTranslationsGo
  refine ⟨fun p m q s ha => ?resume, fun p m s ha => ?inval, fun m v s => ?tlb, fun m wait s h => ?done⟩
  case resume =>
    intro u bad bad2
    have queue : u.queue m q.val = s.queue m q.val := s.countAccess_queue m p 5 q.val
    have copier : u.copierHolds m q.val = s.copierHolds m q.val := s.countAccess_copierHolds m p 5 q.val
    rw [← queue, ← copier]
    refine ⟨fun h => ⟨?_, ?_⟩, fun cause id hp hc => ⟨?_, fun t ht => ?_⟩⟩
    · exact congrArg Host.Outcome.next
        (s.regWrite_sluResume_of_refused m ha (sluAction_resume q) (u.sluResume_of_refused m false h))
    · exact congrArg Host.Outcome.next (s.regWrite_sluResume_of_refused m ha (sluAction_fail q) (u.sluResume_of_refused m true h))
    · exact congrArg Host.Outcome.next (s.regWrite_sluResume_of_accepted m ha (sluAction_resume q) (u.sluResume_of_resume m hp hc))
    · refine congrArg Host.Outcome.next
        ((s.regWrite_sluResume_of_accepted m ha (sluAction_fail q) (u.sluResume_of_fail m hp hc ht)).trans ?_)
      simp only [State.failPark_eq, State.fld, State.word64, State.onQueue_word, u, State.countAccess_word]
  case inval =>
    intro u
    refine ⟨congrArg Host.Outcome.next (tlbInvalAll_eq s p m ha), ?_⟩
    have page : u.fld64 (.sluice m) 0x120 0 48 = s.fld64 (.sluice m) 0x120 0 48 := by
      simp only [u, State.fld64, State.word64, State.countAccess_word]
    rw [← page]
    exact congrArg Host.Outcome.next (tlbInvalPage_eq s p m ha)
  case tlb =>
    simp only [State.tlbInval_all_sluice, State.tlbInval_page_sluice]
    refine ⟨trivial, fun e he => ?_, fun e he hv => ?_, rfl⟩
    · obtain ⟨held, other⟩ := List.mem_filter.1 he
      exact ⟨held, by simpa using other⟩
    · exact List.mem_filter.2 ⟨he, by simpa using hv⟩
  case done =>
    refine ⟨fun hw => congrArg Host.Outcome.next (tlbInvalDone_of_open s m h hw), fun hw => ?_⟩
    refine congrArg Host.Outcome.next ((tlbInvalDone_of_completed s m h hw).trans ?_)
    rw [State.holdEnds_of_inval_none _ m (by rw [State.onMill_mill]), State.onMill_mill_other, State.onMill_pond]

end Sys2Proof.Machine
end

section
/-! PROOFS of 07_memory_sluices.md: the weight cache and the pinned slices (R244 to R247), the scrub (R273) and retraining (R269, R334). -/

namespace Sys2Proof.Machine

variable (s : State) (m : MillId)

/-! ## WEIGHT_CACHE_FILL (R246) -/

section weightCacheFill
variable {line : BitVec 44} {way : Fin 16} (hs : s.sluiceHeld = false)
include hs

theorem weightCacheFill_of_not_fetched (h : line.toNat / 512 ∉ (s.mill m).sluice.fills) : weightCacheFill m line way s = s := by
  simp [weightCacheFill, hs, h]

theorem weightCacheFill_of_fetched (h : line.toNat / 512 ∈ (s.mill m).sluice.fills) (hc : (s.mill m).sluice.cacheSlices ≠ 0) :
    weightCacheFill m line way s = s.onMill m fun y => { y with sluice := { y.sluice with
      wcache := (line.toNat / 512, way.val) :: y.sluice.wcache.filter fun e =>
        !(y.sluice.setOf e.1 == y.sluice.setOf (line.toNat / 512) && e.2 == way.val) && e.1 != line.toNat / 512
      fills := y.sluice.fills.filter (· != line.toNat / 512) } } := by
  simp [weightCacheFill, hs, h, hc]

end weightCacheFill

/-! ## GRAN_PIN_APPLY (R244, R245, R603) -/

section granPinApply
variable (hr : (s.mill m).cmd.running = false) (hl : s.pageLive (.granary m) = true)
include hr hl

theorem granPinApply_of_same (hp : s.fld (.granary m) 0x100 0 6 = (s.mill m).sluice.granPin)
    (hsh : (s.holder (.granary m) == 1) = (s.mill m).sluice.shared) : granPinApply m s = s := by
  simp only [granPinApply, hr, hl, hp, hsh, beq_self_eq_true, Bool.and_self, Bool.or_true, if_true]

theorem granPinApply_of_changed (h : s.fld (.granary m) 0x100 0 6 ≠ (s.mill m).sluice.granPin ∨
      (s.holder (.granary m) == 1) ≠ (s.mill m).sluice.shared) : granPinApply m s =
    let pin := s.fld (.granary m) 0x100 0 6
    let old := (s.mill m).sluice.granPin
    { s.onMill m fun x => { x with sluice := { x.sluice with
        granPin := pin, shared := s.holder (.granary m) == 1, wcache := [], fills := [] } } with
      granary := s.granary.filter fun c => !(decide (granaryKey m (pageSize * min pin old) ≤ c.1) &&
        decide (c.1 < granaryKey m (pageSize * max pin old))) } := by
  have changed : (s.fld (.granary m) 0x100 0 6 == (s.mill m).sluice.granPin &&
      (s.holder (.granary m) == 1) == (s.mill m).sluice.shared) = false := by
    rw [Bool.and_eq_false_iff]
    exact h.imp beq_false_of_ne beq_false_of_ne
  simp only [granPinApply, hr, hl, changed, Bool.not_true, Bool.or_self, Bool.false_eq_true, if_false]
  rfl

end granPinApply

/-- A cell of a table from which keys are taken out. -/
theorem cellGet_filter_key {α : Type} (d : α) (p : Nat → Bool) (k : Nat) (l : Cells α) :
    cellGet d k (l.filter fun c => p c.1) = if p k = true then cellGet d k l else d := by
  induction l with
  | nil => simp [cellGet]
  | cons c l ih =>
    by_cases hc : p c.1 = true
    · simp only [List.filter_cons, hc, if_true, cellGet, ih]
      by_cases hk : k = c.1
      · simp [hk, hc]
      · simp [hk]
    · rw [List.filter_cons, if_neg hc, ih]
      simp only [cellGet]
      by_cases hk : k = c.1
      · simp [hk, hc]
      · simp [hk]

theorem granaryKey_le_iff {a b : Nat} : granaryKey m a ≤ granaryKey m b ↔ a ≤ b := Nat.add_le_add_iff_left

theorem granaryKey_lt_iff {a b : Nat} : granaryKey m a < granaryKey m b ↔ a < b := Nat.add_lt_add_iff_left

/-! ## SCRUB_READ (R273) -/

theorem scrubRead_of_open {port : PortRef} {addr : BitVec 44} (ecc : Ecc) (hs : s.sluiceHeld = false)
    (hl : s.pageLive port.page = true) (ha : physPort (addr.toNat / 64 * 64) = some port) (he : s.fld port.page 0x100 0 8 ≠ 0)
    (hp : s.portHeld port = false) (hi : s.injects port.page 3 = false) : scrubRead port addr ecc s =
      let a := addr.toNat / 64 * 64
      let u := s.tally port.page 5 1
      match ecc with
      | .good => u
      | .corrected => (u.eccCorrected port a 0).rawWrite a (readBytes s.mem a 64)
      | .uncorrectable => u.eccUncorrectable port a 3 0 false := by
  have spared : (s.tally port.page 5 1).takeInj port.page 3 = (false, s.tally port.page 5 1) :=
    State.takeInj_of_not_injects _ hi
  cases ecc with
  | good => simp [scrubRead, hs, hl, ha, he, hp, spared]
  | corrected => simp [scrubRead, hs, hl, ha, he, hp, spared]
  | uncorrectable => simp [scrubRead, hs, hl, ha, he, hp, spared]

/-! ## MEMORY_RETRAIN (R269, R334) -/

section memoryRetrain
variable {port : PortRef} (hl : s.pageLive port.page = true)
include hl

theorem memoryRetrain_of_begins (h : port ∉ (s.mill port.mill).floor.cal) : memoryRetrain port true s =
    s.onMill port.mill fun x => { x with floor := { x.floor with cal := x.floor.cal ++ [port] } } := by
  simp [memoryRetrain, hl, h]

theorem memoryRetrain_of_ends (h : port ∈ (s.mill port.mill).floor.cal) : memoryRetrain port false s =
    s.onMill port.mill fun x => { x with floor := { x.floor with cal := x.floor.cal.filter (· != port) } } := by
  simp [memoryRetrain, hl, h]

end memoryRetrain

/-- Settles O43: a fill by what a miss has fetched, the pinned slices by whether they change, the scrub by the outcome of the code, and
the two ends of a retraining. The set of a line and the way replaced (log entry 12), and that a change of GRAN_PIN takes effect as a
whole (log entry 38), are the model's choices. -/
theorem granaryScrubAndRetraining : Obligations.GranaryScrubAndRetraining := by
  unfold Obligations.GranaryScrubAndRetraining
  refine ⟨fun m line way s hs => ?fill, fun m s hr hl => ?pin, fun port addr ecc s hs hl => ?scrub, fun port s hl => ?retrain⟩
  case fill =>
    intro l x
    refine ⟨fun h => congrArg Host.Outcome.next (weightCacheFill_of_not_fetched s m hs h), fun h hc => ?_⟩
    exact congrArg Host.Outcome.next ((weightCacheFill_of_fetched s m hs h hc).trans (s.onMill_congr m rfl))
  case pin =>
    intro pin shared x
    refine ⟨fun hp hsh => congrArg Host.Outcome.next (granPinApply_of_same s m hr hl hp hsh), fun h => ?_⟩
    refine ⟨_, congrArg Host.Outcome.next (granPinApply_of_changed s m hr hl h), ?_, by simp, by simp, fun off ho => ?_,
      fun off hlo hhi => ?_⟩
    · cases m <;> rfl
    · refine (cellGet_filter_key 0 (fun k => !(decide (_ ≤ k) && decide (k < _))) _ s.granary).trans (if_pos ?_)
      simpa [granaryKey_le_iff, granaryKey_lt_iff] using Or.inl ho
    · refine (cellGet_filter_key 0 (fun k => !(decide (_ ≤ k) && decide (k < _))) _ s.granary).trans (if_neg ?_)
      simpa [granaryKey_le_iff, granaryKey_lt_iff] using ⟨hlo, hhi⟩
  case scrub =>
    intro a ha he hp hi u
    exact congrArg Host.Outcome.next (scrubRead_of_open s ecc hs hl ha he hp hi)
  case retrain =>
    intro k
    refine ⟨fun h => ⟨_, congrArg Host.Outcome.next (memoryRetrain_of_begins s hl h), rfl, ?_⟩,
      fun h => ⟨_, congrArg Host.Outcome.next (memoryRetrain_of_ends s hl h), rfl, ?_⟩⟩
    · simp [State.portHeld]
    · simp [State.portHeld]

end Sys2Proof.Machine
end

section
/-! PROOFS of 13_host_chain.md: the granule writes of the inbound chute (R269, R469, R470, R646). -/

namespace Sys2Proof.Machine

variable (s : State)

/-! ## The words that one granule write takes (R469, R646) -/

/-- Does word `y` of the buffer, the one of number `i` after word `x`, go with it in one granule write? -/
def chuteFollows (x y : Nat × W32) (i : Nat) : Bool := y.1 == x.1 + 4 * (i + 1) && y.1 / 512 == x.1 / 512

theorem chuteFollows_iff (x y : Nat × W32) (i : Nat) :
    chuteFollows x y i = true ↔ y.1 = x.1 + 4 * (i + 1) ∧ y.1 / 512 = x.1 / 512 := by
  simp [chuteFollows]

/-- How many words after the first a granule write takes. -/
def chuteRun (x : Nat × W32) (rest : List (Nat × W32)) : Nat :=
  (rest.zip (List.range rest.length)).findIdx fun y => !chuteFollows x y.1 y.2

theorem chuteRun_le (x : Nat × W32) (rest : List (Nat × W32)) : chuteRun x rest ≤ rest.length :=
  List.findIdx_le_length.trans (by simp)

theorem chuteGranule_cons (x : Nat × W32) (rest : List (Nat × W32)) :
    chuteGranule (x :: rest) = (x :: rest).take (chuteRun x rest + 1) := by
  have taken : (rest.zip (List.range rest.length)).takeWhile (fun y => chuteFollows x y.1 y.2) =
      (rest.zip (List.range rest.length)).take (chuteRun x rest) := List.takeWhile_eq_take_findIdx_not
  have words : (rest.zip (List.range rest.length)).map Prod.fst = rest := List.map_fst_zip (by simp)
  change x :: ((rest.zip (List.range rest.length)).takeWhile fun y => chuteFollows x y.1 y.2).map Prod.fst = _
  rw [taken, List.map_take, words, List.take_succ_cons]

theorem chuteRun_follows {x y : Nat × W32} {rest : List (Nat × W32)} {i : Nat} (hi : i < chuteRun x rest) (h : rest[i]? = some y) :
    chuteFollows x y i = true := by
  obtain ⟨hl, rfl⟩ := List.getElem?_eq_some_iff.1 h
  simpa using List.not_of_lt_findIdx hi

theorem chuteRun_ends {x y : Nat × W32} {rest : List (Nat × W32)} (h : rest[chuteRun x rest]? = some y) :
    chuteFollows x y (chuteRun x rest) = false := by
  obtain ⟨hl, rfl⟩ := List.getElem?_eq_some_iff.1 h
  have hz : chuteRun x rest < (rest.zip (List.range rest.length)).length := by simpa using hl
  simpa using ((List.findIdx_eq hz).1 rfl).1

/-! ## Writes of whole words (R646) -/

/-- Bytes that fill whole error-code words leave no word to be read first. -/
theorem partialWords_of_whole {a n : Nat} (ha : a % 64 = 0) (hn : n % 64 = 0) : partialWords [(a, n)] = [] := by
  refine List.filter_eq_nil_iff.2 fun w hw => ?_
  simp only [List.flatMap_cons, List.flatMap_nil, List.append_nil, List.mem_eraseDups, wordsOf] at hw
  split at hw
  · exact absurd hw List.not_mem_nil
  · obtain ⟨k, hk, rfl⟩ := List.mem_map.1 hw
    have hk := List.mem_range.1 hk
    simp only [List.any_cons, List.any_nil, Bool.or_false, Bool.not_eq_true', Bool.not_eq_false, List.all_eq_true, List.mem_range,
      Bool.and_eq_true, decide_eq_true_eq]
    intro i hi
    omega

theorem State.portWrite_of_whole {m : MillId} {port : PortRef} {a : Nat} {spans : List (Nat × Nat)} (hp : physPort a = some port)
    (hh : s.portHeld port = false) (hw : partialWords spans = []) :
    s.portWrite m a spans = (.ok, (s.tally port.page 1 1).tally port.page 2 0) := by
  simp [State.portWrite, hp, hh, hw]

/-! ## CHUTE_IN_GRANULE_WRITTEN (R469, R470, R646) -/

/-- What becomes of the words at the front of the buffer by the answer of their port: they wait, are lost, or are written. -/
def State.chuteAnswered (x : Nat × W32) (rest : List (Nat × W32)) : PortOut × State → State
  | (.wait, _) => s
  | (.bad _ _, t) => t.chuteWrite x.1 (x :: rest) false
  | (.ok, t) => t.chuteWrite x.1 (x :: rest) true

theorem chuteInGranuleWritten_of_cons (codes : List Ecc) {x : Nat × W32} {rest : List (Nat × W32)} (hs : s.halted = false)
    (hr : s.refHeld = false) (h : chuteGranule s.host.chuteBuf = x :: rest) : chuteInGranuleWritten codes s =
      s.coded codes fun s => s.chuteAnswered x rest
        (s.portWrite (((physPort x.1).map (·.mill)).getD .m0) x.1 [(x.1, 4 * (rest.length + 1))]) := by
  simp only [chuteInGranuleWritten, h, hs, hr, List.length_cons, Bool.or_self, Bool.false_eq_true, if_false]
  rfl

/-- Settles O14: the run that a granule write takes ends at the first word that does not follow, and the write is made, waits or is
given up as its port answers; one of whole words reads nothing first. That an uncorrectable word discards the whole run is a reading
of the model (log entry 23). -/
theorem inboundGranulesAreTakenAndWritten : Obligations.InboundGranulesAreTakenAndWritten := by
  unfold Obligations.InboundGranulesAreTakenAndWritten
  refine ⟨fun b => ?taken, fun codes s x rest hs hr h => ?written⟩
  case taken =>
    cases b with
    | nil => exact ⟨0, rfl, fun h => absurd rfl h, Nat.le_refl 0, fun i hi => absurd hi (Nat.not_lt_zero i), nofun⟩
    | cons x rest =>
      have bound := chuteRun_le x rest
      refine ⟨chuteRun x rest + 1, chuteGranule_cons x rest, fun _ => by omega, by simpa using bound, fun i hi => ?_,
        fun x' y hx hy _ => ?_⟩
      · cases i with
        | zero => exact ⟨x, x, rfl, rfl, rfl, rfl⟩
        | succ i =>
          have there : rest[i]? = some (rest[i]'(by omega)) := List.getElem?_eq_getElem _
          have follows := (chuteFollows_iff ..).1 (chuteRun_follows (Nat.lt_of_succ_lt_succ hi) there)
          exact ⟨x, _, rfl, there, follows⟩
      · obtain rfl : x = x' := Option.some.inj hx
        have ends := chuteRun_ends (x := x) (rest := rest) (y := y) hy
        rw [← Bool.not_eq_true, chuteFollows_iff] at ends
        exact not_and_or.1 ends
  case written =>
    intro n reader taken wrote settle
    let u : State := { s with codes := codes }
    have answers : exec (.chuteInGranuleWritten codes) s =
        .next { u.chuteAnswered x rest (u.portWrite reader x.1 [(x.1, 4 * n)]) with codes := [] } :=
      congrArg Host.Outcome.next (chuteInGranuleWritten_of_cons s codes hs hr h)
    refine ⟨fun port hp hh ha hn => ?_, fun out t hp => ⟨?_, ?_, ?_⟩⟩
    · rw [answers, u.portWrite_of_whole hp hh (partialWords_of_whole ha hn)]
      rfl
    · rintro rfl
      rw [answers, hp]
      rfl
    · rintro rfl
      rw [answers, hp]
      rfl
    · rintro w i rfl
      rw [answers, hp]
      rfl

end Sys2Proof.Machine
end

section
/-! PROOFS of 13_host_chain.md: CMD_ABORT and FLUSH (R484), and what the end of a command drops (R269, R312). -/

namespace Sys2Proof.Machine

/-! ## What a memory port leaves as it is -/

/-- A view of the state in which nothing shows that an access of a memory port or its record can change: events, the history, armed
injections, wear, the outcomes still to come, the bytes of memory and the cached lines of the weight caches. -/
structure PortBlind {β : Type} (view : State → β) : Prop where
  events : ∀ {s t : State}, OnlyEvents s t → view t = view s
  nv : ∀ (s : State) (x : NonVol), view { s with nv := x } = view s
  inj : ∀ (s : State) (x : List InjArm), view { s with inj := x } = view s
  wear : ∀ (s : State) (x : Cells Nat), view { s with wear := x } = view s
  worn : ∀ (s : State) (x : List Nat), view { s with worn := x } = view s
  codes : ∀ (s : State) (x : List Ecc), view { s with codes := x } = view s
  drawn : ∀ s : State, view s.drawn = view s
  mem : ∀ (s : State) (x : List Host.Cell), view { s with mem := x } = view s
  discard : ∀ (s : State) (m : MillId) (line : Nat), view (s.onSluice m fun x => x.discard line) = view s

namespace PortBlind

variable {β : Type} {view : State → β} (blind : PortBlind view)
include blind

theorem tally (s : State) (p : Page) (k n : Nat) : view (s.tally p k n) = view s := blind.events (.tally s p k n)

theorem raise (s : State) (p : Page) (bit : Nat) : view (s.raise p bit) = view s := blind.events (.raise s p bit)

theorem setWord (s : State) (p : Page) (off : Nat) (v : W32) : view (s.setWord p off v) = view s := blind.events (.setWord s p off v)

theorem takeInj (s : State) (p : Page) (code : Nat) : view (s.takeInj p code).2 = view s := by
  unfold State.takeInj
  split
  · exact (blind.inj _ _).trans (blind.setWord s p _ _)
  · rfl

theorem historyRoom (s : State) (step : Nat) : view (s.historyRoom step) = view s := by
  unfold State.historyRoom
  split
  · rfl
  · exact (blind.tally _ _ _ _).trans (blind.nv s _)

theorem histWrite (s : State) (r : HistRec) (injected : Bool) : view (s.histWrite r injected) = view s := by
  have taken := blind.takeInj s .history 2
  unfold State.histWrite
  generalize s.takeInj .history 2 = x at taken
  obtain ⟨fail, t⟩ := x
  dsimp only at taken ⊢
  split
  · rfl
  · split
    · exact (blind.tally _ _ _ _).trans taken
    · exact (blind.tally _ _ _ _).trans ((blind.nv _ _).trans ((blind.historyRoom _ _).trans taken))

omit blind in
theorem errRecord (s : State) (port : PortRef) (a kind device : Nat) (seq : W32) :
    OnlyEvents s (s.errRecord port a kind device seq) :=
  (OnlyEvents.setWord s _ _ _).trans ((OnlyEvents.setWord _ _ _ _).trans ((OnlyEvents.setWord _ _ _ _).trans
    (OnlyEvents.setWord _ _ _ _)))

theorem eccCorrected (s : State) (port : PortRef) (a : Nat) (seq : W32) : view (s.eccCorrected port a seq) = view s := by
  unfold State.eccCorrected
  extract_lets p counted noted f n aged
  have hc : view counted = view s := blind.tally s p 3 1
  have hn : view noted = view counted := by
    unfold noted
    split
    · rfl
    · exact (blind.raise _ _ _).trans ((blind.drawn _).trans (blind.events (errRecord counted port a 1 _ seq)))
  have ha : view aged = view s := (blind.wear noted _).trans (hn.trans hc)
  split
  · exact (blind.raise _ _ _).trans ((blind.worn aged _).trans ha)
  · exact ha

theorem badFrame (s : State) (a : Nat) (injected : Bool) : view (s.badFrame a injected) = view s := by
  unfold State.badFrame
  extract_lets f store listed va noted
  have hl : view listed = view s := by
    unfold listed
    split
    · rfl
    · exact (blind.tally _ _ _ _).trans (blind.nv s _)
  have filled : OnlyEvents listed noted := OnlyEvents.record listed .pond 0x164 _
    ((OnlyEvents.setWord _ _ _ _).trans ((OnlyEvents.setWord _ _ _ _).trans ((OnlyEvents.setWord _ _ _ _).trans
      (OnlyEvents.setWord _ _ _ _))))
  exact (blind.raise noted .pond 3).trans ((blind.events filled).trans hl)

theorem eccUncorrectable (s : State) (port : PortRef) (a kind : Nat) (seq : W32) (injected : Bool) :
    view (s.eccUncorrectable port a kind seq injected) = view s := by
  unfold State.eccUncorrectable
  extract_lets p counted noted
  have hn : view noted = view s := by
    refine Eq.trans ?_ (blind.tally s p 4 1)
    unfold noted
    split
    · rfl
    · exact blind.events (errRecord counted port a kind 15 seq)
  exact (blind.badFrame _ a injected).trans ((blind.raise noted p 1).trans hn)

theorem memHistory (s : State) (m : MillId) (a : Nat) (injected : Bool) : view (s.memHistory m a injected) = view s := by
  unfold State.memHistory
  split
  · rfl
  · exact blind.histWrite s _ _

theorem takeCode (s : State) : view s.takeCode.2 = view s := by
  unfold State.takeCode
  split
  · rfl
  · exact blind.codes s _

theorem wordRead (s : State) (m : MillId) (port : PortRef) (w : Nat) : view (s.wordRead m port w).2 = view s := by
  have taken := blind.takeCode s
  unfold State.wordRead
  split <;> rename_i h <;> rw [h] at taken
  · exact taken
  · exact (blind.eccCorrected _ _ _ _).trans taken
  · exact (blind.memHistory _ _ _ _).trans ((blind.eccUncorrectable _ _ _ _ _ _).trans taken)

theorem wordsRead (s : State) (m : MillId) (port : PortRef) (ws : List Nat) : view (s.wordsRead m port ws).2 = view s := by
  induction ws generalizing s with
  | nil => rfl
  | cons w ws ih =>
    have read := blind.wordRead s m port w
    unfold State.wordsRead
    split
    · next h =>
      rw [h] at read
      exact (ih _).trans read
    · exact read

theorem codeRead (s : State) (m : MillId) (port : PortRef) (ws : List Nat) : view (s.codeRead m port ws).2 = view s := by
  unfold State.codeRead
  simp only []
  split
  · exact (blind.memHistory _ _ _ _).trans ((blind.eccUncorrectable _ _ _ _ _ _).trans (blind.takeInj s _ 2))
  · refine Eq.trans ?_ ((blind.takeInj _ port.page 1).trans (blind.takeInj s port.page 2))
    split
    · exact blind.eccCorrected _ _ _ _
    · exact blind.wordsRead _ _ _ _

theorem portWrite (s : State) (m : MillId) (a : Nat) (spans : List (Nat × Nat)) : view (s.portWrite m a spans).2 = view s := by
  unfold State.portWrite
  split
  · rfl
  · next port _ =>
    simp only []
    split
    · rfl
    · refine Eq.trans ?_ ((blind.tally _ port.page 2 (partialWords spans).length).trans (blind.tally s port.page 1 1))
      split
      · rfl
      · exact blind.codeRead _ _ _ _

theorem dropLine (s : State) (line : Nat) : view (s.dropLine line) = view s := by
  unfold State.dropLine
  split
  · rfl
  · exact (blind.tally _ _ _ _).trans (blind.discard s _ _)

theorem rawWrite (s : State) (a : Nat) (bs : List Byte) : view (s.rawWrite a bs) = view s := by
  unfold State.rawWrite
  split
  · rfl
  · exact (State.forAll_part _ view _ _ blind.dropLine).trans (blind.mem s _)

end PortBlind

/-! ## The part of a mill that the end of its command is about -/

/-- The command file of a mill, how its command stands, and the operations that it has in the race, the vector units and the tolls. -/
structure CommandPart where
  cmd    : CommandFile
  ending : Option Ending
  replay : Option FaultInfo
  st     : CtxState
  vecQ   : List VecOp
  ops    : List RaceOp
  open_  : List TollRec

def Mill.commandPart (x : Mill) : CommandPart :=
  { cmd := x.cmd, ending := x.miller.ending, replay := x.miller.replay, st := x.miller.st, vecQ := x.miller.vecQ, ops := x.race.ops,
    open_ := x.toll.open_ }

def State.commandPart (s : State) (k : MillId) : CommandPart := (s.mill k).commandPart

/-- What is left of it once the operations of the user context are dropped (R403). -/
def CommandPart.dropped (x : CommandPart) : CommandPart := { x with ops := x.ops.filter (·.system), vecQ := [], open_ := [] }

/-- What is left of it once the command has taken its ending. -/
def CommandPart.ended (x : CommandPart) (e : Ending) : CommandPart := { x.dropped with ending := some e, replay := none, st := .stopped }

variable (s : State) (m : MillId)

/-- A change of a mill that is a change of this part. -/
theorem State.onMill_commandPart {f : Mill → Mill} (g : CommandPart → CommandPart) (h : ∀ x, (f x).commandPart = g x.commandPart) :
    (s.onMill m f).commandPart = Function.update s.commandPart m (g (s.commandPart m)) := by
  funext k
  by_cases hk : k = m
  · subst hk
    rw [Function.update_self, State.commandPart, State.onMill_mill, h]
    rfl
  · rw [Function.update_of_ne hk, State.commandPart, State.onMill_mill_of_ne _ _ _ _ hk]
    rfl

/-- A change of a mill that leaves this part. -/
theorem State.onMill_commandPart_of_spares {f : Mill → Mill} (h : ∀ x, (f x).commandPart = x.commandPart) :
    (s.onMill m f).commandPart = s.commandPart := by
  rw [s.onMill_commandPart m id h, id, Function.update_eq_self]

theorem State.onSluice_commandPart (f : Sluice → Sluice) : (s.onSluice m f).commandPart = s.commandPart :=
  s.onMill_commandPart_of_spares m fun _ => rfl
theorem State.onLedger_commandPart (f : Ledger → Ledger) : (s.onLedger m f).commandPart = s.commandPart :=
  s.onMill_commandPart_of_spares m fun _ => rfl
theorem State.onBolter_commandPart (f : Bolter → Bolter) : (s.onBolter m f).commandPart = s.commandPart :=
  s.onMill_commandPart_of_spares m fun _ => rfl
theorem State.onGov_commandPart (f : Governor → Governor) : (s.onGov m f).commandPart = s.commandPart :=
  s.onMill_commandPart_of_spares m fun _ => rfl
theorem State.onStone_commandPart (n : Nat) (f : Stone → Stone) : (s.onStone m n f).commandPart = s.commandPart :=
  s.onMill_commandPart_of_spares m fun _ => rfl

theorem commandPart_portBlind : PortBlind State.commandPart where
  events h := by
    obtain ⟨_, _, _, _, _, _, _, rfl⟩ := onlyEvents_iff.1 h
    funext k
    cases k <;> rfl
  nv _ _ := rfl
  inj _ _ := rfl
  wear _ _ := rfl
  worn _ _ := rfl
  codes _ _ := rfl
  drawn _ := rfl
  mem _ _ := rfl
  discard s m _ := s.onSluice_commandPart m _

/-! ## The drop of a command's operations (R269, R403) -/

theorem State.physWrite_commandPart (a : Nat) (bs : List Byte) : (s.physWrite a bs).commandPart = s.commandPart := by
  have overlaid : (s.physWrite a bs).commandPart = (s.rawWrite a bs).commandPart := State.onMill_commandPart_of_spares _ _ fun _ => rfl
  exact overlaid.trans (commandPart_portBlind.rawWrite s a bs)

theorem State.pokeParts_commandPart (ps : List (Nat × Nat)) (bs : List Byte) : (State.pokeParts m ps bs s).commandPart = s.commandPart := by
  induction ps generalizing s bs with
  | nil => rfl
  | cons x ps ih =>
    have poked : (s.pokePart m x.1 (bs.take x.2)).commandPart = s.commandPart := by
      unfold State.pokePart
      split
      · rfl
      · exact s.physWrite_commandPart _ _
    exact (ih _ _).trans poked

theorem State.entryBack_commandPart (d : Nat × List Byte) : (s.entryBack m d).commandPart = s.commandPart := by
  have counted := commandPart_portBlind.tally s (.ledger m) 2 1
  have read := commandPart_portBlind.portWrite (s.tally (.ledger m) 2 1) m (16 * d.1) [(16 * d.1, 16)]
  unfold State.entryBack
  simp only []
  split
  · next h =>
    rw [h] at read
    exact read.trans counted
  · next h =>
    rw [h] at read
    exact (commandPart_portBlind.rawWrite _ _ _).trans (read.trans counted)

theorem State.ledgerTouch_commandPart (slot : Nat) : (s.ledgerTouch m slot).commandPart = s.commandPart :=
  (State.onLedger_commandPart ..).trans ((State.forAll_part _ _ _ _ fun s d => s.entryBack_commandPart m d).trans
    ((State.onLedger_commandPart ..).trans (commandPart_portBlind.tally _ _ _ _)))

theorem State.ledgerWrite_commandPart (a : Nat) (bs : List Byte) : (s.ledgerWrite a bs).commandPart = s.commandPart :=
  (State.onLedger_commandPart ..).trans (s.ledgerTouch_commandPart _ _)

theorem State.dropUpdate_commandPart (o : UpdateOp) : (s.dropUpdate m o).commandPart = s.commandPart :=
  (State.onBolter_commandPart ..).trans ((State.onGov_commandPart ..).trans
    (State.forAll_part _ _ _ _ fun s _ => s.ledgerWrite_commandPart _ _))

theorem State.abandonLines_commandPart (p : OpenLine → Bool) : (s.abandonLines m p).commandPart = s.commandPart :=
  (State.onGov_commandPart ..).trans (State.forAll_part _ _ _ _ fun s _ => s.pokeParts_commandPart m _ _)

theorem State.stageDrops_commandPart (k : Nat) : (s.stageDrops m k).commandPart = s.commandPart := by
  have kept : (s.setStageJobs m k ((s.stageJobs m k).filter (·.system))).commandPart = s.commandPart := State.onGov_commandPart ..
  unfold State.stageDrops
  simp only []
  split
  · split
    · exact kept
    · exact (State.abandonLines_commandPart _ _ _).trans kept
  · exact kept

theorem State.govDrop_commandPart : (s.govDrop m).commandPart = s.commandPart :=
  (State.onGov_commandPart ..).trans (State.forAll_part _ _ _ _ fun s k => s.stageDrops_commandPart m k)

theorem State.raceAbandon_commandPart (own : MillId) (pos cause : Nat) : (s.raceAbandon own pos cause).commandPart = s.commandPart := by
  unfold State.raceAbandon
  extract_lets p counted noted raised
  have hc : counted.commandPart = s.commandPart := commandPart_portBlind.tally s p 12 1
  have hn : OnlyEvents counted noted := OnlyEvents.record counted p 0x1A4 _ ((OnlyEvents.setWord _ _ _ _).trans (OnlyEvents.setWord _ _ _ _))
  have abandoned : (raised.onRace own fun r => { r with abandoned := true, tiles := [] }).commandPart = raised.commandPart :=
    raised.onMill_commandPart_of_spares own fun _ => rfl
  split
  · exact hc
  · exact abandoned.trans ((commandPart_portBlind.raise _ _ _).trans ((commandPart_portBlind.events hn).trans hc))

theorem State.stoneDrops_commandPart (keep : Nat → Bool) (n : Nat) : (s.stoneDrops m keep n).commandPart = s.commandPart := by
  unfold State.stoneDrops
  extract_lets x halted left loads y aborts
  have hl : left.commandPart = s.commandPart := by
    unfold left
    split
    · split
      · rfl
      · exact s.raceAbandon_commandPart _ _ _
    · rfl
  exact (commandPart_portBlind.tally _ _ _ _).trans ((State.onStone_commandPart ..).trans hl)

theorem State.raceDrop_commandPart : (s.raceDrop m).commandPart =
    Function.update s.commandPart m { s.commandPart m with ops := (s.commandPart m).ops.filter (·.system) } := by
  unfold State.raceDrop State.onRace
  extract_lets stay keep left
  have hl : left.commandPart = s.commandPart := State.forAll_part _ _ _ _ fun s n => s.stoneDrops_commandPart m keep n
  rw [left.onMill_commandPart m (fun x => { x with ops := x.ops.filter (·.system) }) fun _ => rfl, hl]

theorem State.countFault_commandPart (f : FaultInfo) : (s.countFault m f).commandPart = s.commandPart := by
  unfold State.countFault
  split
  · exact (commandPart_portBlind.raise _ _ _).trans (commandPart_portBlind.tally _ _ _ _)
  · exact (commandPart_portBlind.raise _ _ _).trans (commandPart_portBlind.tally _ _ _ _)
  · rfl

theorem State.loseFault_commandPart (f : FaultInfo) : (s.loseFault m f).commandPart = s.commandPart :=
  (commandPart_portBlind.tally _ _ _ _).trans (s.countFault_commandPart m f)

/-- The operations of one mill's user context are gone, and no other mill's command shows it. -/
theorem State.dropOps_commandPart : (s.dropOps m).commandPart = Function.update s.commandPart m (s.commandPart m).dropped := by
  unfold State.dropOps State.onToll State.onMiller
  extract_lets sent updated raced tolls lost queued
  have hs : sent.commandPart = s.commandPart := State.onSluice_commandPart ..
  have hu : updated.commandPart = s.commandPart := (State.forAll_part _ _ _ _ fun s o => s.dropUpdate_commandPart m o).trans hs
  have hr : raced.commandPart = _ := (State.govDrop_commandPart (updated.raceDrop m) m).trans (updated.raceDrop_commandPart m)
  have ht : tolls.commandPart = _ := raced.onMill_commandPart m (fun x => { x with open_ := [] }) fun _ => rfl
  have hl : lost.commandPart = tolls.commandPart := State.forAll_part _ _ _ _ fun s f => s.loseFault_commandPart m f
  have hq : queued.commandPart = _ := lost.onMill_commandPart m (fun x => { x with vecQ := [] }) fun _ => rfl
  have hp : (queued.onMill m fun x => { x with shaft := x.shaft.filter fun i => !i.isPost .user }).commandPart = queued.commandPart :=
    queued.onMill_commandPart_of_spares m fun _ => rfl
  rw [hp, hq, hl, ht, hr, hu]
  simp only [Function.update_self, Function.update_idem, CommandPart.dropped]

/-! ## The end of a command on its mills (R312, R484) -/

@[simp] theorem State.setWord_commandPart (p : Page) (off : Nat) (v : W32) : (s.setWord p off v).commandPart = s.commandPart := rfl

@[simp] theorem State.setWord64_commandPart (p : Page) (off : Nat) (v : W64) : (s.setWord64 p off v).commandPart = s.commandPart := rfl

theorem State.record_commandPart (p : Page) (off : Nat) {fill : State → State} (h : (fill s).commandPart = s.commandPart) :
    (s.record p off fill).commandPart = s.commandPart := by
  unfold State.record
  split
  · rfl
  · exact h

theorem State.recordFault_commandPart (f : FaultInfo) : (s.recordFault m f).commandPart = s.commandPart := by
  have noted (s : State) : (s.onMiller m fun x => { x with faulted := true }).commandPart = s.commandPart :=
    s.onMill_commandPart_of_spares m fun _ => rfl
  unfold State.recordFault
  extract_lets p contract counted recorded
  have hc : counted.commandPart = s.commandPart := s.countFault_commandPart m f
  split
  · exact (noted _).trans ((commandPart_portBlind.tally _ _ _ _).trans hc)
  · exact (noted _).trans ((counted.record_commandPart p 0x144 (by simp)).trans hc)

/-- A mill without a running command, and one whose command has taken its ending, have nothing to abort. -/
def CommandPart.aborted (x : CommandPart) (e : Ending) : CommandPart :=
  if (if x.cmd.running then x.cmd.queue.head? else none).isNone || x.ending.isSome then x else x.ended e

/-- What a change of each mill of a list, one after another, makes of a mill. -/
theorem State.forAll_commandPart {l : List MillId} {f : State → MillId → State} {g : CommandPart → CommandPart} (hl : l.Nodup)
    (h : ∀ s k, (f s k).commandPart = Function.update s.commandPart k (g (s.commandPart k))) (k : MillId) :
    (s.forAll l f).commandPart k = if k ∈ l then g (s.commandPart k) else s.commandPart k := by
  induction l generalizing s with
  | nil => rfl
  | cons a l ih =>
    obtain ⟨ha, hl⟩ := List.nodup_cons.1 hl
    change ((f s a).forAll l f).commandPart k = _
    rw [ih (f s a) hl, h]
    by_cases hk : k = a
    · subst hk
      simp [ha]
    · simp [hk]

theorem State.commandMills_nodup : (s.commandMills m).Nodup := by
  unfold State.commandMills
  split
  · cases m <;> decide
  · simp

theorem State.abortCommand_commandPart (e : Ending) (cause : Nat) (fault : Bool) (k : MillId) :
    (s.abortCommand m e cause fault).commandPart k =
      if k ∈ s.commandMills m then (s.commandPart k).aborted e else s.commandPart k := by
  unfold State.abortCommand
  refine State.forAll_commandPart s (g := fun x => x.aborted e) (s.commandMills_nodup m) (fun s k => ?_) k
  extract_lets own f p recorded
  have aborted : (s.commandPart k).aborted e =
      if ((s.running k).isNone || (s.mill k).miller.ending.isSome) = true then s.commandPart k else (s.commandPart k).ended e := rfl
  rw [aborted]
  split
  · exact (Function.update_eq_self k s.commandPart).symm
  · have hr : recorded.commandPart = s.commandPart := by
      unfold recorded
      split
      · exact s.recordFault_commandPart k f
      · split
        · rfl
        · exact s.record_commandPart _ _ (by simp)
    have ended := (recorded.dropOps k).onMill_commandPart k (f := fun x => { x with miller := { x.miller with
      ending := some e, replay := none, replaying := false, st := .stopped } })
      (fun x => { x with ending := some e, replay := none, st := .stopped }) fun _ => rfl
    refine ended.trans ?_
    rw [recorded.dropOps_commandPart k, hr, Function.update_self, Function.update_idem]
    rfl

/-- A mill that takes part in the command and has not yet taken an ending takes this one. -/
theorem State.abortCommand_commandPart_of_running (e : Ending) (cause : Nat) (fault : Bool) {k : MillId} (hk : k ∈ s.commandMills m)
    (hr : (s.running k).isSome = true) (he : (s.mill k).miller.ending = none) :
    (s.abortCommand m e cause fault).commandPart k = (s.commandPart k).ended e := by
  rw [s.abortCommand_commandPart, if_pos hk]
  refine if_neg ?_
  change ¬((s.running k).isNone || (s.mill k).miller.ending.isSome) = true
  simp [Option.isSome_iff_ne_none.1 hr, he]

/-! ## CMD_ABORT and FLUSH (R484) -/

theorem loWord_zeroExtend (w : W32) : loWord (w.zeroExtend 64) = w := by
  refine BitVec.eq_of_toNat_eq ?_
  simp only [loWord, BitVec.toNat_ofNat, BitVec.zeroExtend_eq_setWidth, BitVec.toNat_setWidth]
  omega

/-- Every bit of a word of CMD_ABORT belongs to its field. -/
theorem zeroExtend_and_mask (w : W32) : (w.zeroExtend 64).toNat &&& (2 ^ 32 - 1) = (w.zeroExtend 64).toNat := by
  refine Nat.and_two_pow_sub_one_of_lt_two_pow ?_
  simp only [BitVec.zeroExtend_eq_setWidth, BitVec.toNat_setWidth]
  omega

theorem cmdAbort_eq (p : Path) (seq : W32) (ha : Accepts s p (.command m)) : cmdAbort p m seq s = (s.countAccess p 5).cmdAbort m seq := by
  unfold cmdAbort
  rw [State.regWrite_action s p (.command m) 0x10C _ _ (by decide) (by decide) (by decide) ha (by simp [inMsix]) rfl rfl (by decide)
    (by decide) rfl seq (loWord_zeroExtend seq) (zeroExtend_and_mask seq) rfl rfl (fun _ _ => rfl) (fun _ _ => rfl)]
  exact act_cmdAbort _ _ _ _ _

theorem State.cmdAbort_of_named {c : Cmd} {seq : W32} (hr : s.running m = some c) (hq : c.seq = seq)
    (he : (s.mill m).miller.ending = none) :
    s.cmdAbort m seq = ((s.abortCommand m .aborted 22 false).tally (.command m) 5 1).raise (.command m) 1 := by
  simp only [State.cmdAbort, hr, hq, he, Option.isNone_none, and_self, if_true]

theorem State.cmdAbort_of_other {seq : W32} (h : ∀ c, s.running m = some c → c.seq ≠ seq ∨ (s.mill m).miller.ending ≠ none) :
    s.cmdAbort m seq = s.tally (.command m) 6 1 := by
  unfold State.cmdAbort
  split
  · next c hc =>
    refine if_neg fun ⟨hq, he⟩ => ?_
    obtain h | h := h c hc
    · exact h hq
    · exact h (Option.isNone_iff_eq_none.1 he)
  · rfl

/-- The commands that have not started. -/
def CommandFile.unstarted (x : CommandFile) : List Cmd := if x.running = true then x.queue.drop 1 else x.queue

theorem State.cmdFlush_eq : s.cmdFlush m =
    let gone := (s.mill m).cmd.unstarted
    let told := (s.tally (.command m) 4 gone.length).raise (.command m) 2
    if gone.isEmpty = true then s
    else if (s.mill m).cmd.running = true then
      told.onMill m fun y => { y with cmd := { y.cmd with queue := y.cmd.queue.take 1, dropped := y.cmd.dropped ++ gone } }
    else
      (told.onMill m fun y => { y with cmd := { y.cmd with queue := [] }, miller := { y.miller with st := .idle } }).forAll gone
        fun t c => t.statusEntry m c .dropped := by
  cases m <;> rfl

theorem State.cmdFlush_of_none (h : (s.mill m).cmd.unstarted = []) : s.cmdFlush m = s := by
  simp only [State.cmdFlush_eq, h, List.isEmpty_nil, if_true]

section cmdFlush
variable (h : (s.mill m).cmd.unstarted ≠ [])
include h

theorem State.cmdFlush_of_running (hr : (s.mill m).cmd.running = true) : s.cmdFlush m =
    ((s.tally (.command m) 4 (s.mill m).cmd.unstarted.length).raise (.command m) 2).onMill m fun y => { y with cmd := { y.cmd with
      queue := y.cmd.queue.take 1, dropped := y.cmd.dropped ++ (s.mill m).cmd.unstarted } } := by
  simp only [State.cmdFlush_eq, List.isEmpty_eq_false_iff.2 h, hr, Bool.false_eq_true, if_false, if_true]

theorem State.cmdFlush_of_idle (hr : (s.mill m).cmd.running = false) : s.cmdFlush m =
    (((s.tally (.command m) 4 (s.mill m).cmd.unstarted.length).raise (.command m) 2).onMill m fun y => { y with
      cmd := { y.cmd with queue := [] }, miller := { y.miller with st := .idle } }).forAll (s.mill m).cmd.unstarted
        fun t c => t.statusEntry m c .dropped := by
  simp only [State.cmdFlush_eq, List.isEmpty_eq_false_iff.2 h, hr, Bool.false_eq_true, if_false]

end cmdFlush

/-- Settles O20: CMD_ABORT by the command that it names, FLUSH by whether a command runs, and the ending of a command on each of its mills
by what the drop of its operations leaves of that mill's part of the command. That the end of one part of a spliced command ends the
other with it, and that a flushed command leaves the pending set at once, are readings of the model (log entry 56). -/
theorem abortAndFlushEndCommands : Obligations.AbortAndFlushEndCommands := by
  unfold Obligations.AbortAndFlushEndCommands
  refine ⟨fun p m seq s ha => ?abort, fun p m s ha => ?flush, fun m e cause fault s c hr he => ?ends⟩
  case abort =>
    intro u
    have mill : u.mill m = s.mill m := s.countAccess_mill p 5 m
    have running : u.running m = s.running m := by rw [State.running, State.running, mill]
    have aborts : exec (.cmdAbort p m seq) s = .next (u.cmdAbort m seq) := congrArg Host.Outcome.next (cmdAbort_eq s m p seq ha)
    rw [← running, ← mill]
    exact ⟨fun c hr hq he => aborts.trans (congrArg _ (u.cmdAbort_of_named m hr hq he)),
      fun h => aborts.trans (congrArg _ (u.cmdAbort_of_other m h))⟩
  case flush =>
    intro u x gone v
    have mill : u.mill m = s.mill m := s.countAccess_mill p 5 m
    have flushes : exec (.flush p m) s = .next (u.cmdFlush m) := congrArg Host.Outcome.next (flush_eq s p m ha)
    have same : (u.mill m).cmd.unstarted = gone := by rw [mill]; rfl
    refine ⟨fun h => ?_, fun h hr => ?_, fun h hr => ?_⟩
    · rw [flushes, u.cmdFlush_of_none m (same.trans h)]
    · rw [flushes, u.cmdFlush_of_running m (by rwa [same]) (by rwa [mill]), same]
    · rw [flushes, u.cmdFlush_of_idle m (by rwa [same]) (by rwa [mill]), same]
      rfl
  case ends =>
    intro t k hk live
    have part : t.commandPart k = (s.commandPart k).ended e := by
      refine s.abortCommand_commandPart_of_running m e cause fault hk ?_ ?_
      · obtain rfl | ⟨hr, -⟩ := live
        · rw [‹s.running k = some c›, Option.isSome_some]
        · exact hr
      · obtain rfl | ⟨-, he⟩ := live
        · assumption
        · exact he
    refine ⟨congrArg CommandPart.ending part, congrArg CommandPart.replay part, congrArg CommandPart.st part, fun o ho => ?_,
      congrArg CommandPart.vecQ part, congrArg CommandPart.open_ part, congrArg (·.cmd.queue) part⟩
    have ops : (t.mill k).race.ops = (s.mill k).race.ops.filter (·.system) := congrArg CommandPart.ops part
    rw [ops] at ho
    exact (List.mem_filter.1 ho).2

end Sys2Proof.Machine
end

section
/-! PROOFS of 08_ikiug.md: what the events, the history, the memory ports and the log leave of the millers, and the start, the faults and the
replay of commands (R281, R311 to R314, R346, R403 to R406, R481). -/

namespace Sys2Proof.Machine

variable (s : State) (m : MillId)

/-! ## Tallies by page -/

theorem allPages_entry (p : Page) : allPages[p.entry]? = some p := by
  cases p with
  | timer m n => cases m <;> revert n <;> decide
  | floor m n => cases m <;> revert n <;> decide
  | stone m n => cases m <;> revert n <;> decide
  | hbm m n => cases m <;> revert n <;> decide
  | ddr m n => cases m <;> revert n <;> decide
  | leatPort m n => cases m <;> revert n <;> decide
  | directory | host | supply | clock | trust | leat | history | pond => decide
  | ikiug m | command m | power m | race m | governor m | bolter m | ledger m | sluice m | granary m | toll m | log m | watch m =>
    cases m <;> decide

/-- Every page has a directory entry of its own (R596). -/
theorem Page.entry_inj {p q : Page} (h : p.entry = q.entry) : p = q :=
  Option.some.inj ((allPages_entry p).symm.trans ((congrArg (allPages[·]?) h).trans (allPages_entry q)))

theorem State.tally_tallyOf_of_ne {p q : Page} {k i : Nat} (hk : k < 16) (hi : i < 16) (h : q ≠ p ∨ i ≠ k) (n : Nat) :
    (s.tally p k n).tallyOf q i = s.tallyOf q i := by
  refine cellGet_cellSet_of_ne _ _ _ _ _ fun e => ?_
  have same : q = p := Page.entry_inj (by omega)
  subst same
  have : i = k := by omega
  simp_all

/-! ## What is done beside the work of a miller -/

/-- A view of a mill in which an event, an access of memory and a sample of the log do not show. -/
structure SideBlind {β : Type} (part : Mill → β) : Prop where
  sysEvents : ∀ x e, part { x with miller := { x.miller with sysEvents := e } } = part x
  log : ∀ x l, part { x with log := l } = part x
  sluice : ∀ x y, part { x with sluice := y } = part x
  ledger : ∀ x y, part { x with ledger := y } = part x

/-- A view of every mill, the hoppers and the granaries, the registers of mill m's Ikiug page above the common header, its count of
bundles and its count of restarts are as they were. -/
structure Beside {β : Type} (part : Mill → β) (m : MillId) (s t : State) : Prop where
  part : ∀ k, part (t.mill k) = part (s.mill k)
  word : ∀ o, 0x100 ≤ o → o < 0x1000 → t.word (.ikiug m) o = s.word (.ikiug m) o
  bundles : t.tallyOf (.ikiug m) 0 = s.tallyOf (.ikiug m) 0
  restarts : t.tallyOf (.toll m) 10 = s.tallyOf (.toll m) 10
  hopper : t.hopper = s.hopper
  granary : t.granary = s.granary

namespace Beside

variable {β : Type} {part : Mill → β} {m : MillId} {s t u : State}

theorem refl (s : State) : Beside part m s s := ⟨fun _ => rfl, fun _ _ _ => rfl, rfl, rfl, rfl, rfl⟩

theorem trans (h : Beside part m s t) (g : Beside part m t u) : Beside part m s u :=
  ⟨fun k => (g.part k).trans (h.part k), fun o ho hl => (g.word o ho hl).trans (h.word o ho hl), g.bundles.trans h.bundles,
    g.restarts.trans h.restarts, g.hopper.trans h.hopper, g.granary.trans h.granary⟩

theorem ite {c : Prop} [Decidable c] (h : Beside part m s t) (g : Beside part m s u) : Beside part m s (if c then t else u) := by
  split
  · exact h
  · exact g

theorem forAll {α : Type} (l : List α) (f : State → α → State) (h : ∀ s a, Beside part m s (f s a)) (s : State) :
    Beside part m s (s.forAll l f) := by
  unfold State.forAll
  induction l generalizing s with
  | nil => exact refl s
  | cons a l ih => exact (h s a).trans (ih _)

/-- A change of anything but the mills, the registers, the tallies, the hoppers and the granaries. -/
theorem of_eq (h0 : t.mill0 = s.mill0) (h1 : t.mill1 = s.mill1) (hr : t.regs = s.regs) (ht : t.tallies = s.tallies)
    (hh : t.hopper = s.hopper) (hg : t.granary = s.granary) : Beside part m s t := by
  refine ⟨fun k => ?_, fun o _ _ => by rw [State.word, State.word, hr], by rw [State.tallyOf, State.tallyOf, ht],
    by rw [State.tallyOf, State.tallyOf, ht], hh, hg⟩
  cases k
  · rw [State.mill_m0, State.mill_m0, h0]
  · rw [State.mill_m1, State.mill_m1, h1]

theorem onMill (s : State) (k : MillId) (f : Mill → Mill) (h : ∀ x, part (f x) = part x) : Beside part m s (s.onMill k f) := by
  refine ⟨fun n => ?_, fun o _ _ => by simp, by simp [State.tallyOf], by simp [State.tallyOf], by simp, by simp⟩
  by_cases hn : n = k
  · subst hn
    rw [State.onMill_mill, h]
  · rw [State.onMill_mill_of_ne _ _ _ _ hn]

theorem tally (s : State) (p : Page) (k n : Nat) (hk : k < 16) (h : (p ≠ .ikiug m ∨ k ≠ 0) ∧ (p ≠ .toll m ∨ k ≠ 10)) :
    Beside part m s (s.tally p k n) :=
  ⟨fun _ => by simp, fun _ _ _ => rfl, s.tally_tallyOf_of_ne hk (by decide) (h.1.imp Ne.symm Ne.symm) n,
    s.tally_tallyOf_of_ne hk (by decide) (h.2.imp Ne.symm Ne.symm) n, rfl, rfl⟩

theorem setWord (s : State) (p : Page) (off : Nat) (v : W32) (hl : off < 0x1000) (h : off < 0x100 ∨ p ≠ .ikiug m) :
    Beside part m s (s.setWord p off v) :=
  ⟨fun _ => by simp, fun o ho hb => s.setWord_word_page p _ off o v hl hb (h.symm.imp Ne.symm fun _ => by omega), rfl, rfl, rfl, rfl⟩

theorem putFld (s : State) (p : Page) (off lo w v : Nat) (hl : off < 0x1000) (h : off < 0x100 ∨ p ≠ .ikiug m) :
    Beside part m s (s.putFld p off lo w v) := setWord s p off _ hl h

theorem host (s : State) (h : HostPort) : Beside part m s { s with host := h } := of_eq rfl rfl rfl rfl rfl rfl

theorem hostTally (s : State) (k n : Nat) (hk : k < 16) : Beside part m s (s.tally .host k n) := tally s .host k n hk (by simp)

theorem record (s : State) (p : Page) (off : Nat) {fill : State → State} (hl : off < 0x1000) (hp : off < 0x100 ∨ p ≠ .ikiug m)
    (h : Beside part m s (fill s)) : Beside part m s (s.record p off fill) :=
  ite (refl s) (h.trans (putFld _ _ _ _ _ _ hl hp))

/-- An occurrence that is injected is counted in the header of its page (R557). -/
theorem takeInj (s : State) (p : Page) (code : Nat) : Beside part m s (s.takeInj p code).2 := by
  unfold State.takeInj
  split
  · exact (setWord s p _ _ (by decide) (.inl (by decide))).trans (of_eq rfl rfl rfl rfl rfl rfl)
  · exact refl s

theorem nv (s : State) (x : NonVol) : Beside part m s { s with nv := x } := of_eq rfl rfl rfl rfl rfl rfl

theorem historyRoom (s : State) (step : Nat) : Beside part m s (s.historyRoom step) := by
  unfold State.historyRoom
  refine ite (refl s) ?_
  exact (nv s _).trans (tally _ .history 1 1 (by decide) (by simp))

theorem histWrite (s : State) (r : HistRec) (injected : Bool) : Beside part m s (s.histWrite r injected) := by
  unfold State.histWrite
  refine ite (refl s) ?_
  refine (takeInj s .history 2).trans (ite (tally _ .history 2 1 (by decide) (by simp)) ?_)
  exact (historyRoom _ _).trans ((nv _ _).trans (tally _ .history 0 1 (by decide) (by simp)))

theorem hostSend (s : State) (msg : PcieMsg) : Beside part m s (s.hostSend msg) := by
  unfold State.hostSend
  extract_lets port sent
  have h : Beside part m s sent := host s _
  refine ite (refl s) (ite (host s _) ?_)
  cases msg with
  | msix v => exact h.trans (hostTally sent 6 1 (by decide))
  | write a bs => exact h

theorem sendRoute (s : State) (r : Nat) : Beside part m s (s.sendRoute r) :=
  ite (ite (refl s) (ite (host s _) (hostSend s _))) (refl s)

theorem portTally (s : State) (port : PortRef) (k n : Nat) (hk : k < 16) : Beside part m s (s.tally port.page k n) :=
  tally s port.page k n hk (by cases port <;> simp [PortRef.page])

theorem errRecord (s : State) (port : PortRef) (a kind device : Nat) (seq : W32) :
    Beside part m s (s.errRecord port a kind device seq) := by
  have fill (s : State) {off : Nat} (v : W32) (hl : off < 0x1000) : Beside part m s (s.setWord port.page off v) :=
    setWord s port.page off v hl (by cases port <;> simp [PortRef.page])
  exact (fill s _ (by decide)).trans ((fill _ _ (by decide)).trans ((fill _ _ (by decide)).trans (fill _ _ (by decide))))

theorem memHistory (s : State) (k : MillId) (a : Nat) (injected : Bool) : Beside part m s (s.memHistory k a injected) := by
  unfold State.memHistory
  split
  · exact refl s
  · exact histWrite s _ _

theorem takeCode (s : State) : Beside part m s s.takeCode.2 := by
  unfold State.takeCode
  split
  · exact refl s
  · exact of_eq rfl rfl rfl rfl rfl rfl

section
variable (blind : SideBlind part)
include blind

theorem logTrigger (s : State) (k : MillId) : Beside part m s (s.logTrigger k) := by
  have counted : Beside part m s (s.tally (.log k) 5 1) := tally s (.log k) 5 1 (by decide) (by simp)
  unfold State.logTrigger
  split
  · exact onMill s k _ fun x => blind.log x _
  · exact counted
  · exact counted
  · exact refl s
  · exact refl s

theorem trigOnEvent (s : State) (k : MillId) (p : Page) (bit : Nat) : Beside part m s (s.trigOnEvent k p bit) :=
  ite (logTrigger blind s k) (refl s)

theorem toSystem (s : State) (p : Page) (bit : Nat) (nmi : Bool) : Beside part m s (s.toSystem p bit nmi) := by
  refine forAll _ _ (fun s k => ?_) s
  exact (tally s (.floor k 0) 6 1 (by decide) (by simp)).trans (onMill _ k _ fun x => blind.sysEvents x _)

theorem fifoFull (s : State) : Beside part m s s.fifoFull := by
  unfold State.fifoFull
  refine (hostTally s 9 1 (by decide)).trans (ite (refl _) ?_)
  refine (host _ _).trans (ite (refl _) ?_)
  refine (putFld _ .host _ _ _ _ (by decide) (.inl (by decide))).trans ((trigOnEvent blind _ .m0 _ _).trans
    ((trigOnEvent blind _ .m1 _ _).trans (ite ?_ (refl _))))
  exact (toSystem blind _ _ _ _).trans (ite ((hostTally _ _ 1 (by decide)).trans (sendRoute _ _)) (refl _))

theorem toHost (s : State) (p : Page) (bit : Nat) : Beside part m s (s.toHost p bit) := by
  unfold State.toHost
  split
  · exact refl s
  · exact ite ((ite ((host s _).trans (hostTally _ _ 1 (by decide))) (fifoFull blind s)).trans (sendRoute _ _)) (refl s)

theorem raise (s : State) (p : Page) (bit : Nat) : Beside part m s (s.raise p bit) := by
  unfold State.raise
  extract_lets marked noted
  have h : Beside part m s noted := (putFld s p 0x010 bit 1 1 (by decide) (.inl (by decide))).trans
    ((trigOnEvent blind _ .m0 p bit).trans (trigOnEvent blind _ .m1 p bit))
  exact ite (refl s) (ite (h.trans ((toSystem blind _ _ _ _).trans (toHost blind _ _ _))) (ite (h.trans (toSystem blind _ _ _ _)) h))

theorem eccCorrected (s : State) (port : PortRef) (a : Nat) (seq : W32) : Beside part m s (s.eccCorrected port a seq) := by
  have drawn (s : State) : Beside part m s s.drawn := of_eq rfl rfl rfl rfl rfl rfl
  have wear (s : State) (w : Cells Nat) : Beside part m s { s with wear := w } := of_eq rfl rfl rfl rfl rfl rfl
  have worn (s : State) (w : List Nat) : Beside part m s { s with worn := w } := of_eq rfl rfl rfl rfl rfl rfl
  unfold State.eccCorrected
  extract_lets p counted noted f n aged
  have h : Beside part m s counted := portTally s port 3 1 (by decide)
  have h : Beside part m s noted := h.trans (ite (refl _) ((errRecord _ _ _ _ _ _).trans ((drawn _).trans (raise blind _ p 0))))
  have h : Beside part m s aged := h.trans (wear noted _)
  exact ite (h.trans ((worn aged _).trans (raise blind _ p 2))) h

theorem badFrame (s : State) (a : Nat) (injected : Bool) : Beside part m s (s.badFrame a injected) := by
  have fill (s : State) {off : Nat} (v : W32) (hl : off < 0x1000) : Beside part m s (s.setWord .pond off v) :=
    setWord s .pond off v hl (.inr (by simp))
  unfold State.badFrame
  extract_lets f store listed va noted
  have h : Beside part m s listed := ite (refl s) ((nv s _).trans (tally _ .pond 15 1 (by decide) (by simp)))
  refine (h.trans (record listed .pond 0x164 (by decide) (.inr (by simp)) ?_)).trans (raise blind noted .pond 3)
  exact (fill _ _ (by decide)).trans ((fill _ _ (by decide)).trans ((fill _ _ (by decide)).trans (fill _ _ (by decide))))

theorem eccUncorrectable (s : State) (port : PortRef) (a kind : Nat) (seq : W32) (injected : Bool) :
    Beside part m s (s.eccUncorrectable port a kind seq injected) := by
  unfold State.eccUncorrectable
  extract_lets p counted noted
  have h : Beside part m s counted := portTally s port 4 1 (by decide)
  have h : Beside part m s noted := h.trans (ite (refl _) (errRecord _ _ _ _ _ _))
  exact h.trans ((raise blind noted p 1).trans (badFrame blind _ _ _))

theorem wordRead (s : State) (k : MillId) (port : PortRef) (w : Nat) : Beside part m s (s.wordRead k port w).2 := by
  have taken : Beside part m s _ := takeCode s
  unfold State.wordRead
  split <;> rename_i h <;> rw [h] at taken
  · exact taken
  · exact taken.trans (eccCorrected blind _ _ _ _)
  · exact taken.trans ((eccUncorrectable blind _ _ _ _ _ _).trans (memHistory _ _ _ _))

theorem wordsRead (s : State) (k : MillId) (port : PortRef) (ws : List Nat) : Beside part m s (s.wordsRead k port ws).2 := by
  induction ws generalizing s with
  | nil => exact refl s
  | cons w ws ih =>
    have read : Beside part m s _ := wordRead blind s k port w
    unfold State.wordsRead
    split
    · next h =>
      rw [h] at read
      exact read.trans (ih _)
    · exact read

theorem codeRead (s : State) (k : MillId) (port : PortRef) (ws : List Nat) : Beside part m s (s.codeRead k port ws).2 := by
  unfold State.codeRead
  simp only []
  refine (takeInj s port.page 2).trans ?_
  split
  · exact (eccUncorrectable blind _ _ _ _ _ _).trans (memHistory _ _ _ _)
  · refine (takeInj _ port.page 1).trans ?_
    split
    · exact eccCorrected blind _ _ _ _
    · exact wordsRead blind _ _ _ _

theorem portWrite (s : State) (k : MillId) (a : Nat) (spans : List (Nat × Nat)) : Beside part m s (s.portWrite k a spans).2 := by
  unfold State.portWrite
  split
  · exact refl s
  · next port _ =>
    simp only []
    split
    · exact refl s
    · refine (portTally s port 1 1 (by decide)).trans ((portTally _ port 2 (partialWords spans).length (by decide)).trans ?_)
      split
      · exact refl _
      · exact codeRead blind _ _ _ _

theorem dropLine (s : State) (line : Nat) : Beside part m s (s.dropLine line) := by
  unfold State.dropLine
  split
  · exact refl s
  · next port _ =>
    have discarded : Beside part m s (s.onSluice port.mill fun x => x.discard line) := onMill s port.mill _ fun x => blind.sluice x _
    exact discarded.trans (tally _ (.granary port.mill) 2 _ (by decide) (by simp))

theorem rawWrite (s : State) (a : Nat) (bs : List Byte) : Beside part m s (s.rawWrite a bs) :=
  have written : Beside part m s { s with mem := writeBytes s.mem a bs } := of_eq rfl rfl rfl rfl rfl rfl
  ite (refl s) (written.trans (forAll _ _ (dropLine blind) _))

theorem physWrite (s : State) (a : Nat) (bs : List Byte) : Beside part m s (s.physWrite a bs) :=
  (rawWrite blind s a bs).trans (onMill _ _ _ fun x => blind.ledger x _)

/-! ### The log -/

theorem onLog (s : State) (k : MillId) (f : Log → Log) : Beside part m s (s.onLog k f) := onMill s k _ fun x => blind.log x _

omit blind in
theorem logTally (s : State) (k : MillId) (i n : Nat) (hi : i < 16) : Beside part m s (s.tally (.log k) i n) :=
  tally s (.log k) i n hi (by simp)

theorem latch (s : State) (k : MillId) (seq : W32) (kind run : Nat) (spliced : Bool) (status : Nat) :
    Beside part m s (s.latch k seq kind run spliced status) := by
  unfold State.latch
  extract_lets p begun counted l pages len ring at_ head written full tallied
  have h : Beside part m s counted := (onLog blind s k _).trans (logTally _ k 6 1 (by decide))
  refine ite h ?_
  have h : Beside part m s written := h.trans (physWrite blind _ _ _)
  have h : Beside part m s tallied := h.trans ((logTally _ k 7 _ (by decide)).trans (logTally _ k 9 _ (by decide)))
  exact h.trans (onLog blind _ k _)

theorem spill (s : State) (k : MillId) (x : BitVec 256) : Beside part m s (s.spill k x) := by
  have taken : Beside part m s _ := takeInj s (.log k) 1
  unfold State.spill
  refine ite (refl s) ?_
  generalize s.takeInj (.log k) 1 = y at taken
  obtain ⟨full, t⟩ := y
  dsimp only at taken ⊢
  refine taken.trans (ite ?_ ?_)
  · exact (logTally _ k 2 1 (by decide)).trans (ite (refl _) ((onLog blind _ k _).trans (raise blind _ _ _)))
  · exact (physWrite blind _ _ _).trans ((onLog blind _ k _).trans (logTally _ k 3 1 (by decide)))

theorem logSample (s : State) (k : MillId) (c : Ctx) (x : Stall) (hold trig : Bool) : Beside part m s (s.logSample k c x hold trig) := by
  unfold State.logSample
  extract_lets st p post y sys bits marked kept tallied spilled n begun raised last aged
  have h : Beside part m s marked := ite (onLog blind s k _) (refl s)
  have h : Beside part m s kept := h.trans (onLog blind _ k _)
  have h : Beside part m s tallied := h.trans ((logTally _ k 0 1 (by decide)).trans (logTally _ k 1 _ (by decide)))
  have h : Beside part m s spilled := h.trans (spill blind _ k bits)
  have hb : Beside part m s begun := h.trans ((onLog blind _ k _).trans (logTally _ k 4 1 (by decide)))
  have hr : Beside part m s raised := hb.trans (raise blind _ _ _)
  have ha : Beside part m s aged := h.trans (onLog blind _ k _)
  exact ite (refl s) (ite (ite (hr.trans (raise blind _ _ _)) hr) (ite (ite (ha.trans (raise blind _ _ _)) ha) (h.trans (onLog blind _ k _))))

theorem logIssue (s : State) (k : MillId) (c : Ctx) (pc : W64) (count : Nat) (next : Stall) :
    Beside part m s (s.logIssue k c pc count next) :=
  ite (refl s) ((ite (logTrigger blind s k) (refl s)).trans (ite (refl _) (logSample blind _ _ _ _ _ _)))

end

end Beside


/-! ## What a mill works with -/

/-- A mill without its queued events, its log, its sluices and its ledger engine. -/
def Mill.work (x : Mill) : Mill :=
  { x with miller := { x.miller with sysEvents := [] }, log := .reset, sluice := .reset, ledger := Mill.reset.ledger }

theorem work_sideBlind : SideBlind Mill.work := ⟨fun _ _ => rfl, fun _ _ => rfl, fun _ _ => rfl, fun _ _ => rfl⟩

section work
variable {x y : Mill} (h : x.work = y.work)
include h

theorem Mill.cmd_of_work : x.cmd = y.cmd := by
  change x.work.cmd = y.work.cmd
  rw [h]
theorem Mill.image_of_work : x.image = y.image := by
  change x.work.image = y.work.image
  rw [h]
theorem Mill.toll_of_work : x.toll = y.toll := by
  change x.work.toll = y.work.toll
  rw [h]
theorem Mill.shaft_of_work : x.shaft = y.shaft := by
  change x.work.shaft = y.work.shaft
  rw [h]
theorem Mill.user_of_work : x.miller.user = y.miller.user := congrArg (·.miller.user) h
theorem Mill.system_of_work : x.miller.system = y.miller.system := congrArg (·.miller.system) h
theorem Mill.st_of_work : x.miller.st = y.miller.st := congrArg (·.miller.st) h
theorem Mill.ending_of_work : x.miller.ending = y.miller.ending := congrArg (·.miller.ending) h
theorem Mill.faulted_of_work : x.miller.faulted = y.miller.faulted := congrArg (·.miller.faulted) h
theorem Mill.run_of_work : x.miller.run = y.miller.run := congrArg (·.miller.run) h
theorem Mill.replay_of_work : x.miller.replay = y.miller.replay := congrArg (·.miller.replay) h
theorem Mill.replaying_of_work : x.miller.replaying = y.miller.replaying := congrArg (·.miller.replaying) h

end work

/-! ## The beginning of a command (R281, R311, R481) -/

/-- A mill as its command begins. -/
def Mill.begun (x : Mill) (c : Cmd) (tolls : Bool) : Mill :=
  { x with
    cmd := { x.cmd with running := true }
    miller := { x.miller with
      ending := none, faulted := false, run := 0, barred := false, replay := none, replaying := false, replayInj := false,
      spliced := c.spliced, faults := x.miller.faults.filter (·.system) }
    toll := { Toll.reset with on := tolls } }

theorem State.beginCmd_work (c : Cmd) :
    ((s.beginCmd m c).mill m).work = ((s.mill m).begun c (s.fld (.toll m) 0x110 0 8 != 0)).work := by
  refine ((Beside.latch (m := m) work_sideBlind _ m c.seq 1 0 c.spliced 0).part m).trans ?_
  cases m <;> rfl

/-- The other mill works as it did. -/
theorem State.beginCmd_work_other (c : Cmd) : ((s.beginCmd m c).mill m.other).work = (s.mill m.other).work := by
  refine ((Beside.latch (m := m) work_sideBlind _ m c.seq 1 0 c.spliced 0).part m.other).trans ?_
  cases m <;> rfl

theorem State.beginCmd_hopper (c : Cmd) : (s.beginCmd m c).hopper = s.hopper := by
  refine (Beside.latch (part := Mill.work) (m := m) work_sideBlind _ m c.seq 1 0 c.spliced 0).hopper.trans ?_
  cases m <;> rfl

theorem State.beginCmd_granary (c : Cmd) : (s.beginCmd m c).granary = s.granary := by
  refine (Beside.latch (part := Mill.work) (m := m) work_sideBlind _ m c.seq 1 0 c.spliced 0).granary.trans ?_
  cases m <;> rfl

theorem State.beginRun_mill (c : Cmd) : (s.beginRun m c).mill m = { s.mill m with
    stones := (s.mill m).stones.map fun y => { y with passes := 0, drains := 0 }
    miller := { (s.mill m).miller with user := startContext c.addr c.args, vreg := [], carry := [], vecQ := [], st := .running } } := by
  simp [State.beginRun]

@[simp] theorem State.beginRun_mill_other (c : Cmd) : (s.beginRun m c).mill m.other = s.mill m.other := by simp [State.beginRun]
@[simp] theorem State.beginRun_hopper (c : Cmd) : (s.beginRun m c).hopper = s.hopper := by simp [State.beginRun]
@[simp] theorem State.beginRun_granary (c : Cmd) : (s.beginRun m c).granary = s.granary := by simp [State.beginRun]

/-- The s-registers of a context that starts with arguments. -/
theorem cellGet_foldl_cellSet (args : List W64) (n k : Nat) :
    cellGet 0 k ((List.range n).foldl (fun (c : Cells W64) i => cellSet 0 (i + 1) (args.getD i 0) c) []) =
      if 1 ≤ k ∧ k ≤ n then args.getD (k - 1) 0 else 0 := by
  induction n with
  | zero =>
    rw [if_neg (by omega)]
    rfl
  | succ n ih =>
    rw [List.range_succ, List.foldl_append, List.foldl_cons, List.foldl_nil, cellGet_cellSet, ih]
    by_cases hk : k = n + 1
    · subst hk
      rw [if_pos rfl, if_pos (by omega), Nat.add_sub_cancel]
    · rw [if_neg hk]
      exact if_congr (by omega) rfl rfl

theorem startContext_s (pc : W64) (args : List W64) (k : Nat) :
    cellGet 0 k (startContext pc args).s = if 1 ≤ k ∧ k ≤ 8 then args.getD (k - 1) 0 else 0 := by
  rw [← cellGet_foldl_cellSet args 8 k, startContext]

/-! ## RUN -/

section run
variable {c d : Cmd}

theorem State.entryCheck_of_fetchable (hi : (s.mill m).image ≠ none) (ha : bitsOf c.addr 0 6 = 0) : s.entryCheck m c = s := by
  simp [State.entryCheck, hi, ha]

theorem State.entryCheck_of_not_fetchable (h : (s.mill m).image = none ∨ bitsOf c.addr 0 6 ≠ 0) :
    s.entryCheck m c = s.endCommand m { millerFault s m 16 with opnd := c.addr } := by
  refine if_pos ?_
  simpa using h

theorem State.entryCheck_eq : s.entryCheck m c =
    if (s.mill m).image = none ∨ bitsOf c.addr 0 6 ≠ 0 then s.endCommand m { millerFault s m 16 with opnd := c.addr } else s := by
  refine if_congr ?_ rfl rfl
  simp

variable (hc : s.headCmd m = some c) (hk : c.kind = .run) (hs : s.canStart m = true)
include hc hk hs

theorem run_of_alone (hp : c.spliced = false) : run m s = ((s.beginCmd m c).beginRun m c).entryCheck m c := by
  simp [run, hc, hk, hs, hp, State.startRun, State.begins]

theorem run_of_partnerless (hp : c.spliced = true) (hd : s.headCmd m.other = none) :
    run m s = s.onMiller m fun x => { x with st := .spliceStart } := by
  simp [run, hc, hk, hs, hp, hd]

/-- The partner is not at its turn. -/
theorem run_of_unready (hp : c.spliced = true) (hd : s.headCmd m.other = some d)
    (h : (s.mill m.other).cmd.running = true ∨ d.kind ≠ .run ∨ d.spliced = false) :
    run m s = s.onMiller m fun x => { x with st := .spliceStart } := by
  obtain h | h | h := h <;> simp [run, hc, hk, hs, hp, hd, h]

variable (hp : c.spliced = true) (hd : s.headCmd m.other = some d) (hr : (s.mill m.other).cmd.running = false) (hkd : d.kind = .run)
  (hpd : d.spliced = true)
include hp hd hr hkd hpd

theorem run_of_unequal (hq : d.seq ≠ c.seq) : run m s = (s.spliceRefuse m).spliceRefuse m.other := by
  simp [run, hc, hk, hs, hp, hd, hr, hkd, hpd, hq]

theorem run_of_pair (hq : d.seq = c.seq) (ho : s.canStart m.other = true) : run m s = s.startBoth m c d := by
  simp [run, hc, hk, hs, hp, hd, hr, hkd, hpd, hq, ho]

theorem run_of_partner_held (hq : d.seq = c.seq) (ho : s.canStart m.other = false) :
    run m s = s.onMiller m fun x => { x with st := .spliceStart } := by
  simp [run, hc, hk, hs, hp, hd, hr, hkd, hpd, hq, ho]

end run

/-! ## MARK and LOAD -/

theorem mark_of_head {c : Cmd} (hc : s.headCmd m = some c) (hk : c.kind = .mark) (hs : s.canStart m = true) :
    mark m s = (s.beginCmd m c).onMiller m fun x => { x with ending := some .done } := by
  simp [mark, hc, hk, hs]

theorem load_of_head {c : Cmd} (codes : List Ecc) (hc : s.headCmd m = some c) (hk : c.kind = .load) (hs : s.canStart m = true) :
    load m codes s = s.coded codes fun s => s.runLoad m c := by
  simp [load, hc, hk, hs]

/-- The loader waits for a port that holds the image (R269). -/
theorem State.runLoad_of_wait {c : Cmd}
    (h : ((s.beginCmd m c).clearMeas (3 + m.num)).loadImage m c.addr.toNat c.length.toNat = none) : s.runLoad m c = s := by
  simp only [State.runLoad, h]

/-- The image of a LOAD that succeeds is measured as it stood before the load (R569). -/
theorem State.runLoad_of_loaded {c : Cmd} {st : Nat} {t : State}
    (h : ((s.beginCmd m c).clearMeas (3 + m.num)).loadImage m c.addr.toNat c.length.toNat = some (st, t)) : s.runLoad m c =
      if st = 0 then
        (t.extendMeas (3 + m.num) (sha256 (((s.beginCmd m c).clearMeas (3 + m.num)).physRead c.addr.toNat c.length.toNat))).onMiller m
          fun x => { x with ending := some .done }
      else t.onMiller m fun x => { x with ending := some (.loadFailed st) } := by
  simp only [State.runLoad, h]
  split <;> rfl

/-- Settles O18: a RUN by what fetches its entry and by the head of the other mill, the context that it starts by the write of its
arguments, a MARK, and a LOAD by what the loader answers. That both mills start in one step, and the measurement of an image as it is
read, are readings of the model (log entries 41 and 56). -/
theorem commandsStart : Obligations.CommandsStart := by
  unfold Obligations.CommandsStart
  refine ⟨⟨fun m c s hc hk hs hp => ?alone, fun pc args _ => ?context⟩, fun m c s hc hk hs hp => ?spliced, fun m c s hc hs => ?others⟩
  case alone =>
    intro t
    have begun := s.beginCmd_work m c
    have mill : t.mill m = _ := (s.beginCmd m c).beginRun_mill m c
    have other : t.mill m.other = (s.beginCmd m c).mill m.other := (s.beginCmd m c).beginRun_mill_other m c
    have image : (t.mill m).image = (s.mill m).image := by
      rw [mill]
      exact (Mill.image_of_work begun :)
    have starts : exec (.run m) s = .next (t.entryCheck m c) := congrArg Host.Outcome.next (run_of_alone s m hc hk hs hp)
    have hopper : t.hopper = s.hopper := ((s.beginCmd m c).beginRun_hopper m c).trans (s.beginCmd_hopper m c)
    have granary : t.granary = s.granary := ((s.beginCmd m c).beginRun_granary m c).trans (s.beginCmd_granary m c)
    clear_value t
    refine ⟨fun im hi ha => ?_, fun h => ?_, ?_⟩
    · rw [starts, t.entryCheck_of_fetchable m (by simp [image, hi]) ha]
    · rw [starts, t.entryCheck_of_not_fetchable m (by rwa [image])]
    · rw [mill, other]
      exact ⟨(Mill.cmd_of_work begun :), rfl, (Mill.system_of_work begun :), rfl, (Mill.ending_of_work begun :),
        (Mill.faulted_of_work begun :), Mill.cmd_of_work (s.beginCmd_work_other m c), hopper, granary⟩
  case context =>
    refine ⟨rfl, fun k hk => ?_, fun k hk => ?_, rfl, rfl⟩
    · rw [startContext_s, if_pos (by omega), Nat.add_sub_cancel]
    · rw [startContext_s, if_neg (by omega)]
  case spliced =>
    intro wait
    refine ⟨fun hd => ?_, fun d hd h => ?_, fun d hd hr hkd hpd => ⟨fun hq => ?_, fun hq ho => ?_, fun hq ho => ?_⟩⟩
    · exact congrArg Host.Outcome.next (run_of_partnerless s m hc hk hs hp hd)
    · exact congrArg Host.Outcome.next (run_of_unready s m hc hk hs hp hd h)
    · exact congrArg Host.Outcome.next (run_of_unequal s m hc hk hs hp hd hr hkd hpd hq)
    · refine congrArg Host.Outcome.next ((run_of_pair s m hc hk hs hp hd hr hkd hpd hq ho).trans ?_)
      rw [State.startBoth, State.entryCheck_eq, State.entryCheck_eq]
      rfl
    · exact congrArg Host.Outcome.next (run_of_partner_held s m hc hk hs hp hd hr hkd hpd hq ho)
  case others =>
    intro ends
    refine ⟨fun hk => congrArg Host.Outcome.next (mark_of_head s m hc hk hs), fun hk codes => ?_⟩
    intro u read
    have loads : exec (.load m codes) s = .next { ({ s with codes := codes } : State).runLoad m c with codes := [] } :=
      congrArg Host.Outcome.next (load_of_head s m codes hc hk hs)
    refine ⟨fun hr => ?_, fun st t hr => ?_⟩
    · rw [loads, State.runLoad_of_wait _ m hr]
    · rw [loads, State.runLoad_of_loaded _ m hr]
      rfl

/-! ## ENGINE_FAULT (R314) -/

section engineFault
variable {f : FaultInfo} {rest : List FaultInfo} (hs : s.halted = false) (hf : (s.mill m).miller.faults = f :: rest)
include hs hf

theorem engineFault_of_system (h : f.system = true) : engineFault m s =
    ((s.onMill m fun x => { x with miller := { x.miller with faults := rest } }).dropXfers m true).dropLeatOps m true := by
  simp only [engineFault, hs, hf, h, Bool.false_eq_true, if_false, if_true]
  rfl

variable (h : f.system = false) (hr : (s.running m).isSome = true) (he : (s.mill m).miller.ending = none)
  (hp : (s.mill m).miller.replay = none)
include h hr he hp

theorem engineFault_of_replayable {d : Nat} {v : UnitRef} (hk : f.kind = .replayable d v) : engineFault m s =
    s.onMill m fun x => { x with miller := { x.miller with faults := rest, replay := some f, st := .stopped } } := by
  have running : ¬(s.running m).isNone = true := by simp [Option.isSome_iff_ne_none.1 hr]
  have same : (s.onMill m fun x => { x with miller := { x.miller with faults := rest } }).running m = s.running m := by
    simp [State.running]
  simp [engineFault, hs, hf, h, same, running, he, hp, hk]

theorem engineFault_of_lasting (hk : f.kind = .contract ∨ f.kind = .command) : engineFault m s =
    (s.onMill m fun x => { x with miller := { x.miller with faults := rest } }).endCommand m f := by
  have running : ¬(s.running m).isNone = true := by simp [Option.isSome_iff_ne_none.1 hr]
  have same : (s.onMill m fun x => { x with miller := { x.miller with faults := rest } }).running m = s.running m := by
    simp [State.running]
  obtain hk | hk := hk <;> simp [engineFault, hs, hf, h, same, running, he, hp, hk]

end engineFault

/-! ## REPLAY (R403 to R406, R426) -/

/-- The command ends by a fault with a cause of its own in place of the replay that `f` asks for. -/
def State.stopReplay (f : FaultInfo) (cause : Nat) : State :=
  s.endCommand m { millerFault s m cause with pc := f.pc, slot := f.slot }

section replay
variable {f : FaultInfo} (hs : s.halted = false) (hf : (s.mill m).miller.replay = some f) (hp : (s.mill m).miller.replaying = false)
include hs hf hp

theorem replay_eq : replay m s =
    let ms := s.commandMills m
    if ms.any (fun k => (s.mill k).miller.barred) = true then (s.raise (.toll m) 3).stopReplay m f 19
    else if s.bindsRetired m f = true then s.stopReplay m f 21
    else if s.fld (.toll m) 0x114 0 2 ≤ (s.mill m).miller.run then ((s.retractAll ms).raise (.toll m) 4).stopReplay m f 20
    else (s.retractAll ms).forAll ms fun s k => s.onMiller k fun y =>
      { y with replay := some (y.replay.getD f), replaying := true, st := .stopped, replayInj := f.injected } := by
  simp only [replay, hf, hs, hp, Bool.or_self, Bool.false_eq_true, if_false]
  rfl

end replay

/-! ## REPLAY_RESTART -/

/-- A mill on which a command starts again. -/
def Mill.restarted (x : Mill) (c : Cmd) : Mill :=
  { x with
    stones := x.stones.map fun y => { y with passes := 0, drains := 0 }
    miller := { x.miller with
      run := x.miller.run + 1, replay := none, replaying := false, barred := false, user := startContext c.addr c.args, vreg := [],
      carry := [], vecQ := [], st := .running }
    toll := { x.toll with lastFails := x.toll.fails, fails := [] } }

/-- A command starts again on one of its mills. -/
def State.restartMill (k : MillId) : State :=
  match s.running k with
  | none => s
  | some c =>
    (((s.tally (.toll k) 10 1).onMill k fun x => x.restarted c).raise (.toll k) 2).latch k c.seq 1 ((s.mill k).miller.run + 1) c.spliced 0

theorem replayRestart_of_settled (hs : s.halted = false) (hp : (s.mill m).miller.replaying = true)
    (hd : ∀ k ∈ s.commandMills m, s.droppedInFlight k = false) : replayRestart m s = s.forAll (s.commandMills m) State.restartMill := by
  have settled : ¬(s.commandMills m).any s.droppedInFlight = true := by simpa using hd
  simp only [replayRestart, hs, hp, settled, Bool.not_true, Bool.or_self, Bool.false_eq_true, if_false]
  refine congrArg (s.forAll (s.commandMills m)) (funext fun s => funext fun k => ?_)
  unfold State.restartMill
  cases s.running k with
  | none => rfl
  | some c =>
    have set := (s.tally (.toll k) 10 1).onMill_congr k (f := fun x => x.restarted c) (g := fun x => { x with
      stones := x.stones.map fun y => { y with passes := 0, drains := 0 }
      miller := { x.miller with
        run := (s.mill k).miller.run + 1, replay := none, replaying := false, barred := false, user := startContext c.addr c.args,
        vreg := [], carry := [], vecQ := [], st := .running }
      toll := { x.toll with lastFails := x.toll.fails, fails := [] } }) (by simp [Mill.restarted])
    simp only [State.beginRun, State.onToll_eq, State.onMiller_eq, State.onMill_onMill, set]

/-- The work of each mill, and its count of restarts. -/
def State.runs (k : MillId) : Mill × W64 := ((s.mill k).work, s.tallyOf (.toll k) 10)

/-- What a restart makes of them. -/
def restartedRuns (x : Mill × W64) : Mill × W64 :=
  match (if x.1.cmd.running then x.1.cmd.queue.head? else none) with
  | none => x
  | some c => (x.1.restarted c, x.2 + 1)

theorem Beside.runs {j : MillId} {t : State} (h : Beside Mill.work j s t) : t.runs j = s.runs j := Prod.ext (h.part j) h.restarts

theorem State.restartMill_runs (k : MillId) : (s.restartMill k).runs = Function.update s.runs k (restartedRuns (s.runs k)) := by
  have running : (if (s.runs k).1.cmd.running then (s.runs k).1.cmd.queue.head? else none) = s.running k := rfl
  unfold State.restartMill restartedRuns
  rw [running]
  split
  · exact (Function.update_eq_self k s.runs).symm
  · next c _ =>
    funext j
    have beside : Beside Mill.work j ((s.tally (.toll k) 10 1).onMill k fun x => x.restarted c) _ :=
      (Beside.raise work_sideBlind _ (.toll k) 2).trans
        (Beside.latch work_sideBlind _ k c.seq 1 ((s.mill k).miller.run + 1) c.spliced 0)
    refine beside.runs.trans ?_
    by_cases hj : j = k
    · subst hj
      rw [Function.update_self]
      refine Prod.ext ?_ ?_
      · simp [State.runs, Mill.work, Mill.restarted]
      · simp [State.runs, State.tallyOf, State.tally]
    · rw [Function.update_of_ne hj]
      refine Prod.ext ?_ ?_
      · simp [State.runs, State.onMill_mill_of_ne _ _ _ _ hj]
      · have apart : (s.tally (.toll k) 10 1).tallyOf (.toll j) 10 = s.tallyOf (.toll j) 10 :=
          s.tally_tallyOf_of_ne (by decide) (by decide) (.inl (by simpa using hj)) 1
        simpa [State.runs, State.tallyOf] using apart

theorem State.restartMill_hopper (k : MillId) : (s.restartMill k).hopper = s.hopper := by
  unfold State.restartMill
  split
  · rfl
  · refine ((Beside.raise work_sideBlind _ _ _).trans (Beside.latch (m := k) work_sideBlind _ _ _ _ _ _ _)).hopper.trans ?_
    simp

theorem State.restartMill_granary (k : MillId) : (s.restartMill k).granary = s.granary := by
  unfold State.restartMill
  split
  · rfl
  · refine ((Beside.raise work_sideBlind _ _ _).trans (Beside.latch (m := k) work_sideBlind _ _ _ _ _ _ _)).granary.trans ?_
    simp

/-- What a change of each mill of a list, one after another, makes of the view of a mill. -/
theorem State.forAll_view {β : Type} (view : State → MillId → β) {l : List MillId} {f : State → MillId → State} {g : β → β} (hl : l.Nodup)
    (h : ∀ s k, view (f s k) = Function.update (view s) k (g (view s k))) (k : MillId) :
    view (s.forAll l f) k = if k ∈ l then g (view s k) else view s k := by
  induction l generalizing s with
  | nil => rfl
  | cons a l ih =>
    obtain ⟨ha, hl⟩ := List.nodup_cons.1 hl
    change view ((f s a).forAll l f) k = _
    rw [ih (f s a) hl, h]
    by_cases hk : k = a
    · subst hk
      simp [ha]
    · simp [hk]

theorem State.forAll_restartMill_runs {c : Cmd} {k : MillId} (hk : k ∈ s.commandMills m) (hr : s.running k = some c) :
    (s.forAll (s.commandMills m) State.restartMill).runs k = (((s.mill k).restarted c).work, s.tallyOf (.toll k) 10 + 1) := by
  have running : (if (s.runs k).1.cmd.running then (s.runs k).1.cmd.queue.head? else none) = some c := hr
  rw [s.forAll_view State.runs (s.commandMills_nodup m) State.restartMill_runs, if_pos hk, restartedRuns, running]
  rfl

/-- Settles O21: ENGINE_FAULT by the kind of the first fault, REPLAY by what bars it, and the restart of a command by what it makes of each
of its mills. The wait for dropped granules and the boundary of a replay are readings of the model (log entries 24, 47 and 56). -/
theorem faultsStopAndReplayRestarts : Obligations.FaultsStopAndReplayRestarts := by
  unfold Obligations.FaultsStopAndReplayRestarts
  refine ⟨fun m f rest s hs hf => ?fault, fun m f s hs hf hp => ?replay, fun m s hs hp hd => ?restart⟩
  case fault =>
    intro u
    refine ⟨fun h => congrArg Host.Outcome.next (engineFault_of_system s m hs hf h), fun h hr he hp => ?_⟩
    refine ⟨fun d v hk => ?_, fun hk => congrArg Host.Outcome.next (engineFault_of_lasting s m hs hf h hr he hp hk)⟩
    refine congrArg Host.Outcome.next ((engineFault_of_replayable s m hs hf h hr he hp hk).trans ?_)
    simp [u]
  case replay =>
    intro ms barred stop
    have answers : exec (.replay m) s = .next _ := congrArg Host.Outcome.next (replay_eq s m hs hf hp)
    refine ⟨fun hb => ?_, fun hb ht => ?_, fun hb ht hl => ?_, fun hb ht hl => ?_⟩
    · rw [answers, if_pos hb]
      rfl
    · rw [answers, if_neg (ne_true_of_eq_false hb), if_pos ht]
      rfl
    · rw [answers, if_neg (ne_true_of_eq_false hb), if_neg (ne_true_of_eq_false ht), if_pos hl]
      rfl
    · rw [answers, if_neg (ne_true_of_eq_false hb), if_neg (ne_true_of_eq_false ht), if_neg (Nat.not_le.2 hl)]
      rfl
  case restart =>
    refine ⟨_, congrArg Host.Outcome.next (replayRestart_of_settled s m hs hp hd),
      State.forAll_part _ State.hopper _ _ State.restartMill_hopper, State.forAll_part _ State.granary _ _ State.restartMill_granary,
      fun k hk c hr => ?_⟩
    have runs := s.forAll_restartMill_runs m hk hr
    have work : ((s.forAll (s.commandMills m) State.restartMill).mill k).work = ((s.mill k).restarted c).work := congrArg Prod.fst runs
    have cmd : ((s.mill k).restarted c).cmd = (s.mill k).cmd := by rw [Mill.restarted]
    have user : ((s.mill k).restarted c).miller.user = startContext c.addr c.args := by rw [Mill.restarted]
    have tolls := Mill.toll_of_work work
    exact ⟨(Mill.run_of_work work :), (Mill.user_of_work work).trans user, (Mill.replay_of_work work :),
      (Mill.replaying_of_work work :), (Mill.st_of_work work :), (Mill.cmd_of_work work).trans cmd, (congrArg (·.lastFails) tolls :),
      (congrArg (·.fails) tolls :),
      congrArg Prod.snd runs⟩

end Sys2Proof.Machine
end

section
/-! PROOFS of 08_ikiug.md: the fetch of a bundle and its issue (R281, R283, R287 to R292, R304, R309, R310, R503). -/

namespace Sys2Proof.Machine

variable (s : State) (m : MillId)

/-! ## The fetch of the user context (R283) -/

section fetchImage
variable {s m} {t v : State} {a : Nat} (hi : s.injects (.ikiug m) 3 = false)
include hi

theorem State.fetchImage_takeInj : (s.tally (.ikiug m) 9 1).takeInj (.ikiug m) 3 = (false, s.tally (.ikiug m) 9 1) :=
  (s.tally (.ikiug m) 9 1).takeInj_of_not_injects hi

/-- A walk of the page table that a port holds up leaves the fetch waiting. -/
theorem State.fetchImage_of_walk_waits (hx : (s.tally (.ikiug m) 9 1).translate m (s.ctx m .user).pc.toNat false = (.wait, t)) :
    s.fetchImage m = s := by
  simp [State.fetchImage, fetchImage_takeInj hi, hx]

theorem State.fetchImage_of_untranslated {e : Nat}
    (hx : (s.tally (.ikiug m) 9 1).translate m (s.ctx m .user).pc.toNat false = (.err e, t)) :
    s.fetchImage m = t.endCommand m { millerFault t m 16 with opnd := (s.ctx m .user).pc, injected := false } := by
  simp [State.fetchImage, fetchImage_takeInj hi, hx]

variable (hx : (s.tally (.ikiug m) 9 1).translate m (s.ctx m .user).pc.toNat false = (.ok a, t))
include hx

theorem State.fetchImage_of_port_waits (hp : t.portRead m a 64 = (.wait, v)) : s.fetchImage m = s := by
  simp [State.fetchImage, fetchImage_takeInj hi, hx, hp]

theorem State.fetchImage_of_bad {w : Nat} {inj : Bool} (hp : t.portRead m a 64 = (.bad w inj, v)) :
    s.fetchImage m = (v.memHistory m w inj).endCommand m
      { millerFault (v.memHistory m w inj) m 16 with opnd := (s.ctx m .user).pc, injected := inj } := by
  simp [State.fetchImage, fetchImage_takeInj hi, hx, hp]

theorem State.fetchImage_of_read (hp : t.portRead m a 64 = (.ok, v)) :
    s.fetchImage m = v.onCtx m .user fun k => { k with fetched := some (BitVec.ofNat 512 (leNat (v.physRead a 64))) } := by
  simp [State.fetchImage, fetchImage_takeInj hi, hx, hp]

end fetchImage

theorem bundleFetch_of_user (codes : List Ecc) (hs : s.halted = false) (hr : s.refHeld = false) (ha : s.active m .user = true)
    (hf : (s.ctx m .user).fetched = none) : bundleFetch m .user .image codes s = s.coded codes fun s => s.fetchImage m := by
  simp [bundleFetch, hs, hr, ha, hf]

/-! ## The fetch of the system context (R503) -/

theorem bundleFetch_of_system (b : BitVec 512) (codes : List Ecc) (hs : s.halted = false) (ha : s.pageLive (.ikiug m) = true)
    (hf : (s.ctx m .system).fetched = none) :
    bundleFetch m .system (.firmware b) codes s = (s.takeEvent m).onCtx m .system fun k => { k with fetched := some b } := by
  have active : s.active m .system = true := ha
  simp [bundleFetch, hs, active, hf]

/-- A routine of the firmware begins at a bundle. -/
theorem State.firmwareEntry_aligned : bitsOf s.firmwareEntry 0 6 = 0 := by
  have low : s.firmwareEntry.toNat % 2 ^ 6 = (s.free &&& ~~~63#64 &&& 63#64).toNat := by
    rw [BitVec.toNat_and (y := 63#64)]
    exact (Nat.and_two_pow_sub_one_eq_mod _ 6).symm
  have none : s.free &&& ~~~63#64 &&& 63#64 = 0#64 := by
    rw [BitVec.and_assoc]
    simp
  rw [bitsOf, natBits, Nat.pow_zero, Nat.div_one, low, none]
  rfl

/-- Settles O22: the fetch of the user context by what its translation and the port answer, that of the system context by whether an event
waits for it. That a fetch waits for its port, that the firmware's bundles are operands, and the free address of a handler are the
model's choices (log entries 24 to 26). -/
theorem bundlesAreFetched : Obligations.BundlesAreFetched := by
  unfold Obligations.BundlesAreFetched
  refine ⟨fun m codes s hs hr ha hf hi => ?user, fun m b codes s hs ha hf => ?system⟩
  case user =>
    intro pc u out miss
    have fetches : exec (.bundleFetch m .user .image codes) s = .next (out (({ s with codes := codes } : State).fetchImage m)) :=
      congrArg Host.Outcome.next (bundleFetch_of_user s m codes hs hr ha hf)
    have hi : ({ s with codes := codes } : State).injects (.ikiug m) 3 = false := hi
    refine ⟨fun t hx => ?_, fun e t hx => ?_, fun a t hx => ⟨fun v hp => ?_, fun w inj v hp => ?_, fun v hp => ?_⟩⟩
    · rw [fetches, State.fetchImage_of_walk_waits hi hx]
    · rw [fetches, State.fetchImage_of_untranslated hi hx]
      rfl
    · rw [fetches, State.fetchImage_of_port_waits hi hx hp]
    · rw [fetches, State.fetchImage_of_bad hi hx hp]
      rfl
    · rw [fetches, State.fetchImage_of_read hi hx hp]
  case system =>
    have fetches : exec (.bundleFetch m .system (.firmware b) codes) s = .next _ :=
      congrArg Host.Outcome.next (bundleFetch_of_system s m b codes hs ha hf)
    refine ⟨fun he => ?_, fun e rest he => ⟨s.firmwareEntry, s.firmwareEntry_aligned, ?_⟩⟩
    · rw [fetches, State.takeEvent, he]
      rfl
    · rw [fetches, State.takeEvent, he]
      simp [State.onCtx, State.drawn, Miller.onCtx]

/-! ## The issue of a bundle (R287, R288) -/

section work
variable {x y : Mill} (h : x.work = y.work)
include h

theorem Mill.ctx_of_work (c : Ctx) : x.miller.ctx c = y.miller.ctx c := by
  cases c
  · exact Mill.user_of_work h
  · exact Mill.system_of_work h

end work

@[simp] theorem State.ikTally_mill (c : Ctx) (k n : Nat) (j : MillId) : (s.ikTally m c k n).mill j = s.mill j := by
  cases c <;> simp [State.ikTally]

@[simp] theorem State.ikTally_ctx (c d : Ctx) (k n : Nat) (j : MillId) : (s.ikTally m c k n).ctx j d = s.ctx j d := by
  simp [State.ctx]

@[simp] theorem State.tally_ctx (p : Page) (k n : Nat) (j : MillId) (d : Ctx) : (s.tally p k n).ctx j d = s.ctx j d := by
  simp [State.ctx]

@[simp] theorem State.setSt_ctx (c : Ctx) (st : CtxState) : (s.setSt m c st).ctx m c = s.ctx m c := by
  cases c <;> simp [State.setSt, State.ctx, Miller.ctx]

@[simp] theorem State.setSt_shaft (c : Ctx) (st : CtxState) : ((s.setSt m c st).mill m).shaft = (s.mill m).shaft := by
  cases c <;> simp [State.setSt]

@[simp] theorem State.onCtx_shaft (c : Ctx) (f : Context → Context) : ((s.onCtx m c f).mill m).shaft = (s.mill m).shaft := by
  simp [State.onCtx]

/-- What a bundle waits for does not hang on the outcomes of the codes that it is to read. -/
theorem State.holdOf_codes (c : Ctx) (b : Bundle) (codes : List Ecc) :
    ({ s with codes := codes } : State).holdOf m c b = s.holdOf m c b := rfl

/-- A bundle that issues is performed at once. -/
theorem State.tryIssue_of_free {c : Ctx} {b : Bundle} (hh : s.holdOf m c b = none) (hb : s.bundleSampled m c = false)
    (hi : s.injArmed (.ikiug m) = false) : s.tryIssue m c b = s.issue m c b := by
  have unarmed : s.takeInj (.ikiug m) 2 = (false, s) := s.takeInj_of_not_injects (s.injects_of_unarmed hi 2)
  simp [State.tryIssue, hh, unarmed, State.bundleToll, hb]

theorem bundleIssue_of_issues {c : Ctx} {b : Bundle} (codes : List Ecc) (h : s.Issues m c b) :
    bundleIssue m c .good codes s = s.coded codes fun s => s.issue m c b := by
  obtain ⟨hs, ha, ⟨x, hf, rfl⟩, hb, hh, ht, hi⟩ := h
  rw [bundleIssue_of_checked s m codes hs ha hi hf hb, State.coded, State.coded]
  exact congrArg (fun t : State => { t with codes := [] })
    (({ s with codes := codes } : State).tryIssue_of_free m ((s.holdOf_codes m c _ codes).trans hh) ht hi)

/-! ## A bundle of one wait or branch slot (R304) -/

theorem Bundle.has_of_only {b : Bundle} {k i : Nat} (h : b.only k) (hi : i < 7) : b.has i = decide (i = k) := by
  rw [Bool.eq_iff_iff, decide_eq_true_eq]
  exact h i hi

/-- The link that JAL writes. -/
def Context.link (k : Context) (b : Bundle) : List (Nat × W64) :=
  if b.wbOp = some 0xD2 then [(bitsOf b.wb 8 5, k.pc + 64)] else []

/-- A bundle that writes no register but the link and enters no engine, up to its end. -/
def State.branch (c : Ctx) (b : Bundle) : State := (s.onCtx m c fun k => k.write ((s.ctx m c).link b)).tpost m c b

theorem State.slotRun_of_absent {c : Ctx} {k : Context} {b : Bundle} {slot : Nat} (h : b.has slot = false) :
    s.slotRun m c k b slot = (.ok { reg := none, store := none }, s) := if_neg (by simp [h])

theorem State.gfmtRun_of_absent {c : Ctx} {k : Context} {b : Bundle} (h : b.gbOp = none) : s.gfmtRun m c k b = (.ok [], s) :=
  if_pos (by simp [h])

theorem State.toEngines_of_absent {c : Ctx} {k : Context} {b : Bundle} (hv : b.has 2 = false) (hr : b.has 3 = false)
    (hx : b.has 4 = false) (hg : b.gbOp = none) : s.toEngines m c k b = s := by
  simp [State.toEngines, hv, hr, hx, hg]

section wait
variable {s m} {c : Ctx} {b : Bundle} (hb : b.only 6)
include hb

theorem Bundle.gbOp_of_only_wait : b.gbOp = none := if_neg (by simp [Bundle.has_of_only hb])

theorem Bundle.wbOp_of_only_wait : b.wbOp = some (bitsOf b.wb 0 8) := if_pos (by simp [Bundle.has_of_only hb])

theorem State.issue_of_wait : s.issue m c b = s.commit m c (s.ctx m c) b [⟨none, none⟩, ⟨none, none⟩] [] := by
  have absent {i : Nat} (hi : i < 6) : b.has i = false := by simp [Bundle.has_of_only hb (Nat.lt_succ_of_lt hi), Nat.ne_of_lt hi]
  simp only [State.issue, State.slotRun_of_absent _ _ (absent (by decide : 0 < 6)), State.slotRun_of_absent _ _ (absent (by decide : 1 < 6)),
    State.gfmtRun_of_absent _ _ (Bundle.gbOp_of_only_wait hb)]

/-- The context, the state of the miller and the shaft after the bundle, up to the sample that the log may take. -/
theorem State.issue_work : ∃ u : State, ((s.issue m c b).mill m).work = (u.mill m).work ∧
    (u.ctx m c = { ((s.branch m c b).ctx m c).clearFetch with
      pc := nextPc (s.ctx m c) b, bundles := (s.ctx m c).bundles + 1, heldNs := 0, stallCode := 0, stallNs := 0 }) ∧
    (c = .user → (u.mill m).miller.st = if b.wbOp = some 0xDF then .atEnd else .running) ∧
    (u.mill m).shaft = ((s.branch m c b).mill m).shaft := by
  have absent {i : Nat} (hi : i < 6) : b.has i = false := by simp [Bundle.has_of_only hb (Nat.lt_succ_of_lt hi), Nat.ne_of_lt hi]
  have engines (t : State) : t.toEngines m c (s.ctx m c) b = t :=
    t.toEngines_of_absent m (absent (by decide)) (absent (by decide)) (absent (by decide)) (Bundle.gbOp_of_only_wait hb)
  rw [State.issue_of_wait hb]
  refine ⟨_, (Beside.logIssue (m := m) work_sideBlind _ m c _ _ _).part m, ?_, ?_, ?_⟩
  · rw [State.setSt_ctx, State.onCtx_ctx, engines, State.tally_ctx, State.ikTally_ctx, State.ikTally_ctx, State.ikTally_ctx]
    rfl
  · rintro rfl
    simp [State.setSt]
  · rw [State.setSt_shaft, State.onCtx_shaft, engines, State.tally_mill, State.ikTally_mill, State.ikTally_mill, State.ikTally_mill]
    rfl

omit hb in
theorem Context.write_bundles (k : Context) (ws : List (Nat × W64)) : (k.write ws).bundles = k.bundles := by
  unfold Context.write
  induction ws generalizing k with
  | nil => rfl
  | cons w ws ih =>
    refine (ih _).trans ?_
    simp only [Context.setS, Context.setA]
    split
    · split <;> rfl
    · rfl

omit hb in
theorem State.tpost_ctx_bundles : ((s.tpost m c b).ctx m c).bundles = (s.ctx m c).bundles := by
  unfold State.tpost
  split
  · rfl
  · simp only []
    split
    · simp [State.ctx]
    · obtain ⟨met, hp⟩ := (s.ikTally m c 10 1).post_ctx m c (wTctr b.wb) (bitsOf b.wb 13 16)
      simp [hp]

/-- Where a bundle of one wait or branch slot leaves its context, the miller and the shaft. -/
theorem State.issue_ends : (s.issue m c b).ctx m c = ((s.branch m c b).ctx m c).issuedAt (nextPc (s.ctx m c) b) ∧
    (c = .user → ((s.issue m c b).mill m).miller.st = if b.wbOp = some 0xDF then .atEnd else .running) ∧
    ((s.issue m c b).mill m).shaft = ((s.branch m c b).mill m).shaft := by
  obtain ⟨u, work, ctx, st, shaft⟩ := State.issue_work (s := s) (m := m) (c := c) hb
  have bundles : ((s.branch m c b).ctx m c).bundles = (s.ctx m c).bundles := by
    rw [State.branch, State.tpost_ctx_bundles, State.onCtx_ctx, Context.write_bundles]
  refine ⟨(Mill.ctx_of_work work c).trans (ctx.trans ?_), fun hc => (Mill.st_of_work work).trans (st hc), (Mill.shaft_of_work work).trans shaft⟩
  rw [Context.issuedAt, bundles]

end wait

theorem State.tpost_of_none {c : Ctx} {b : Bundle} (h : b.wbOp ≠ some 0xC8) : s.tpost m c b = s := if_pos h

theorem Context.link_of_none {k : Context} {b : Bundle} (h : b.wbOp ≠ some 0xD2) : k.link b = [] := if_neg h

/-- A bundle that neither links nor posts leaves the context as it was. -/
theorem State.branch_ctx_of_plain {c : Ctx} {b : Bundle} (hl : b.wbOp ≠ some 0xD2) (ht : b.wbOp ≠ some 0xC8) :
    (s.branch m c b).ctx m c = s.ctx m c := by
  rw [State.branch, State.tpost_of_none _ _ ht, State.onCtx_ctx, Context.link_of_none hl]
  rfl

theorem State.branch_ctx_of_link {c : Ctx} {b : Bundle} (h : b.wbOp = some 0xD2) :
    (s.branch m c b).ctx m c = (s.ctx m c).setS (bitsOf b.wb 8 5) ((s.ctx m c).pc + 64) := by
  have small : bitsOf b.wb 8 5 < 32 := Nat.mod_lt _ (by decide)
  rw [State.branch, State.tpost_of_none _ _ (by simp [h]), State.onCtx_ctx, Context.link, if_pos h]
  exact if_pos small

/-- A post to the own mill counts at once (R309). -/
theorem State.branch_ctx_of_post {c : Ctx} {b : Bundle} (h : b.wbOp = some 0xC8) (ho : bitOf b.wb 12 = false) :
    ∃ met, (s.branch m c b).ctx m c = { s.ctx m c with
      t := cellSet 0 (wTctr b.wb) ((s.ctx m c).tr (wTctr b.wb) + BitVec.ofNat 32 (bitsOf b.wb 13 16)) (s.ctx m c).t, waitMet := met } := by
  obtain ⟨met, hp⟩ := ((s.onCtx m c fun k => k.write []).ikTally m c 10 1).post_ctx m c (wTctr b.wb) (bitsOf b.wb 13 16)
  refine ⟨met, ?_⟩
  rw [State.ikTally_ctx, State.onCtx_ctx] at hp
  rw [State.branch, Context.link_of_none (by simp [h]), State.tpost, if_neg (by simp [h])]
  simp only [ho, Bool.false_eq_true, if_false]
  exact hp

/-- A post to the other mill leaves over the shaft (R309). -/
theorem State.branch_of_remote {c : Ctx} {b : Bundle} (h : b.wbOp = some 0xC8) (ho : bitOf b.wb 12 = true) :
    (s.branch m c b).ctx m c = s.ctx m c ∧
      ((s.branch m c b).mill m).shaft = (s.mill m).shaft ++ [.post c (wTctr b.wb) (bitsOf b.wb 13 16)] := by
  have kept : s.branch m c b = ((s.onCtx m c fun k => k.write []).ikTally m c 10 1).onMill m fun x =>
      { x with shaft := x.shaft ++ [.post c (wTctr b.wb) (bitsOf b.wb 13 16)] } := by
    rw [State.branch, Context.link_of_none (by simp [h]), State.tpost, if_neg (by simp [h])]
    simp only [ho, if_true]
  rw [kept]
  refine ⟨?_, by simp⟩
  simp only [State.ctx, State.onMill_mill, State.ikTally_mill]
  exact s.onCtx_ctx m c _

/-- Settles O25: the slots of a bundle but the last are absent, so that it changes the context by its link or its post alone; the pc is
that of the slot. That a post to the other mill waits in one queue for the shaft is the model's choice (log entry 31). -/
theorem waitAndBranchSlotsMoveThePc : Obligations.WaitAndBranchSlotsMoveThePc := by
  unfold Obligations.WaitAndBranchSlotsMoveThePc
  intro m c b codes s hi hb k op target go
  let t : State := { ({ s with codes := codes } : State).issue m c b with codes := [] }
  have issues : exec (.bundleIssue m c .good codes) s = .next t := congrArg Host.Outcome.next (bundleIssue_of_issues s m codes hi)
  have wb : b.wbOp = some op := Bundle.wbOp_of_only_wait hb
  obtain ⟨ctx, st, shaft⟩ := State.issue_ends (s := { s with codes := codes }) (m := m) (c := c) hb
  have goes {k' : Context} {pc : W64} (hk : ((({ s with codes := codes } : State).branch m c b).ctx m c).issuedAt pc = k'.issuedAt pc)
      (hp : nextPc k b = pc) : go k' pc := by
    refine ⟨t, issues, (ctx.trans ?_ : t.ctx m c = _), fun hc => (st hc).trans ?_⟩
    · exact (congrArg _ hp).trans hk
    · simp [wb]
  have plain (hl : op ≠ 0xD2) (ht : op ≠ 0xC8) {pc : W64} (hp : nextPc k b = pc) : go k pc :=
    goes (congrArg (·.issuedAt pc) (State.branch_ctx_of_plain _ m (by simp [wb, hl]) (by simp [wb, ht]))) hp
  refine ⟨fun h => ?_, fun h => ?_, fun h => ?_, fun h => ?_, fun h => ?_, fun h ho _ => ?_, fun h ho => ?_⟩
  · exact plain (by simp [h]) (by simp [h]) (by simp [nextPc, wb, h]; rfl)
  · exact plain (by simp [h]) (by simp [h]) (by simp [nextPc, wb, h]; rfl)
  · exact goes (congrArg (·.issuedAt target) (State.branch_ctx_of_link _ m (by simp [wb, h]))) (by simp [nextPc, wb, h]; rfl)
  · exact plain (by simp [h]) (by simp [h]) (by simp [nextPc, wb, h])
  · have next : nextPc k b = k.pc + 64 := by
      obtain h | h | h := h <;> simp [nextPc, wb, h]
    exact plain (by omega) (by omega) next
  · obtain ⟨met, posted⟩ := State.branch_ctx_of_post ({ s with codes := codes } : State) m (c := c) (wb.trans (congrArg some h)) ho
    refine goes ?_ (by simp [nextPc, wb, h])
    rw [posted]
    rfl
  · obtain ⟨kept, sent⟩ := State.branch_of_remote ({ s with codes := codes } : State) m (c := c) (wb.trans (congrArg some h)) ho
    refine ⟨t, issues, (ctx.trans ?_ : t.ctx m c = _), (shaft.trans sent : (t.mill m).shaft = _)⟩
    rw [kept]
    simp [nextPc, wb, h]
    rfl

/-! ## A bundle whose sample the log loses (R485, R541, R548) -/

/-- s1 takes s0 + s0 (R291). -/
def addOfZero : Bundle := { hdr := 0x101, s0 := 0x101, s1 := 0, v := 0, rc := 0, sl := 0, gb := 0, wb := 0, imm := 0 }

/-- A started module whose mill 1 runs a command and holds the addition. Its log samples the user context, spills without a spill ring and
reports what it loses; the event FIFO is full, and every class of mill 1's events is routed to it. -/
def lossyModule : State :=
  let mill := State.reset.mill1
  let run : Cmd := { seq := 1, kind := .run, spliced := false, pondPoint := false, notify := false, addr := 0, length := 0, args := [] }
  let s : State := { State.reset with
    supply := { Supply.reset with stage := 9 }
    host := { HostPort.reset with fifo := List.replicate 256 { pageId := 0, bit := 0, cls := 0, route := 0 } }
    mill1 := { mill with
      cmd := { mill.cmd with queue := [run], running := true }
      miller := { mill.miller with st := .running, user := { Context.reset with fetched := some addOfZero.bits } } } }
  let s := ((s.setWord (.log .m1) 0x100 0x81).setWord (.log .m1) 0x014 0x4).setWord .host 0x014 0x8
  s.forAll [8, 9, 10, 11] fun s r => s.setWord .host (0x140 + 4 * r) 0x80

theorem lossyModule_issues : lossyModule.Issues .m1 .user addOfZero :=
  ⟨by decide +kernel, by decide +kernel, ⟨_, rfl, by decide +kernel⟩, by decide +kernel, by decide +kernel, by decide +kernel,
    by decide +kernel⟩

/-- The sample is lost, its event finds the FIFO full, and EVT_FIFO_LOST is delivered to the system context of mill 0. -/
theorem lossyModule_tells_mill0 : ((bundleIssue .m1 .user .good [] lossyModule).mill .m0).miller.sysEvents ≠ [] := by
  decide +kernel

/-- Refutes O24, in its first clause: a scalar bundle of mill 1 may leave the other mill's miller changed. Where the log loses the sample
of the bundle (R548), its event is routed to a full event FIFO, and EVT_FIFO_LOST, an event of a module-common page, is queued for the
system context of mill 0 (log entry 18). The clause has no condition on the log for that conjunct. -/
theorem not_scalarAndHopperOperations : ¬ Obligations.ScalarAndHopperOperations := by
  unfold Obligations.ScalarAndHopperOperations
  rintro ⟨scalar, -⟩
  have only : addOfZero.only 0 := by
    unfold Bundle.only
    decide
  obtain ⟨adds, -⟩ := scalar .m1 .user addOfZero [] lossyModule lossyModule_issues only
  obtain ⟨t, issued, -, -, -, -, -, other⟩ := adds (by decide) (by decide)
  have same : bundleIssue .m1 .user .good [] lossyModule = t := Host.Outcome.next.inj issued
  refine lossyModule_tells_mill0 ?_
  rw [same]
  exact congrArg Miller.sysEvents other

end Sys2Proof.Machine
end

section
/-! PROOFS of 08_ikiug.md: vector operations, lane by lane and unit by unit (R293 to R297). -/

namespace Sys2Proof.Machine

variable (s : State) (m : MillId)

/-! ## Lanes -/

/-- Lanes packed one above another, the first lowest. -/
def packLanes (w : Nat) (ls : List Nat) : Nat := ls.foldr (fun x acc => x % 2 ^ w + 2 ^ w * acc) 0

theorem natBits_packLanes (w : Nat) (ls : List Nat) {i : Nat} (h : i < ls.length) :
    natBits (packLanes w ls) (w * i) w = ls.getD i 0 % 2 ^ w := by
  induction ls generalizing i with
  | nil => exact absurd h (Nat.not_lt_zero i)
  | cons x ls ih =>
    change natBits (x % 2 ^ w + 2 ^ w * packLanes w ls) (w * i) w = _
    cases i with
    | zero => simp [natBits]
    | succ i =>
      have above : (x % 2 ^ w + 2 ^ w * packLanes w ls) / 2 ^ (w * (i + 1)) = packLanes w ls / 2 ^ (w * i) := by
        rw [Nat.mul_succ, Nat.add_comm (w * i), Nat.pow_add, ← Nat.div_div_eq_div_mul, Nat.add_mul_div_left _ _ (Nat.two_pow_pos w),
          Nat.mod_div_self, Nat.zero_add]
      rw [natBits, above]
      exact ih (Nat.lt_of_succ_lt_succ h)

theorem natBits_toNat_ofNat {k lo w : Nat} (x : Nat) (h : lo + w ≤ k) : natBits (BitVec.ofNat k x).toNat lo w = natBits x lo w := by
  rw [BitVec.toNat_ofNat, natBits_mod_two_pow x h]

/-- A lane of a register made from its lanes. -/
theorem natBits_ofLanes {w : Nat} {ls : List Nat} {i : Nat} (h : i < ls.length) (hw : w * i + w ≤ 2048) :
    natBits (ofLanes w ls).toNat (w * i) w = ls.getD i 0 % 2 ^ w := by
  rw [ofLanes, natBits_toNat_ofNat _ hw]
  exact natBits_packLanes w ls h

@[simp] theorem lanesOf_length (w : Nat) (v : BitVec 2048) : (lanesOf w v).length = 2048 / w := by simp [lanesOf]

theorem lanesOf_getD {w i : Nat} (v : BitVec 2048) (h : i < 2048 / w) : (lanesOf w v).getD i 0 = natBits v.toNat (w * i) w := by
  simp [lanesOf, h]

/-! ## An operation lane by lane (R294) -/

/-- An operation that works on each lane by itself. -/
def laneWise (op : Nat) : Prop := (0x40 ≤ op ∧ op ≤ 0x49) ∨ (0x4B ≤ op ∧ op ≤ 0x4D)

/-- What it makes of a lane. -/
def laneOp (w : W64) : W64 → Nat → Nat → Nat → Nat := if vEtype w = 2 then intLaneOp (vOp w) else fpLane (vEtype w) (vOp w)

/-- The register that it gives. -/
def laneResult (w : W64) (u : Nat → W64) (va vb vc : BitVec 2048) : BitVec 2048 :=
  let n := laneBits (vEtype w)
  ofLanes n ((List.range (2048 / n)).map fun i =>
    laneOp w (u i) ((lanesOf n va).getD i 0) ((lanesOf n vb).getD i 0) ((lanesOf n vc).getD i 0))

theorem laneBits_mul_le (et : Nat) {i : Nat} (h : i < 2048 / laneBits et) : laneBits et * i + laneBits et ≤ 2048 := by
  unfold laneBits at h ⊢
  split at h <;> simp_all <;> omega

theorem natBits_laneResult (w : W64) (u : Nat → W64) (va vb vc : BitVec 2048) {i : Nat} (h : i < 2048 / laneBits (vEtype w)) :
    let n := laneBits (vEtype w)
    natBits (laneResult w u va vb vc).toNat (n * i) n =
      laneOp w (u i) (natBits va.toNat (n * i) n) (natBits vb.toNat (n * i) n) (natBits vc.toNat (n * i) n) % 2 ^ n := by
  intro n
  have lanes := natBits_ofLanes (ls := (List.range (2048 / n)).map fun i =>
    laneOp w (u i) ((lanesOf n va).getD i 0) ((lanesOf n vb).getD i 0) ((lanesOf n vc).getD i 0)) (by simpa using h)
    (laneBits_mul_le _ h)
  refine lanes.trans ?_
  rw [← lanesOf_getD va h, ← lanesOf_getD vb h, ← lanesOf_getD vc h]
  simp [h, n]

theorem vecAlu_of_laneWise {w : W64} (h : laneWise (vOp w)) (u : Nat → W64) (carry : Option (W32 × W32)) (va vb vc : BitVec 2048) :
    vecAlu w u carry va vb vc = .ok { writes := [(vVD w, laneResult w u va vb vc)], carry := none } := by
  have lanes : vecAlu w u carry va vb vc = .ok { writes := [(vVD w, ofLanes (laneBits (vEtype w))
      ((List.range (lanesOf (laneBits (vEtype w)) va).length).map fun i => laneOp w (u i) ((lanesOf (laneBits (vEtype w)) va).getD i 0)
        ((lanesOf (laneBits (vEtype w)) vb).getD i 0) ((lanesOf (laneBits (vEtype w)) vc).getD i 0)))], carry := none } := by
    unfold laneWise at h
    unfold vecAlu
    dsimp only
    split
    case h_11 => rfl
    all_goals omega
  rw [lanes, lanesOf_length]
  rfl

/-! ## One unit -/

theorem vVD_lt (w : W64) : vVD w < 64 := Nat.mod_lt _ (by decide)
theorem vVA_lt (w : W64) : vVA w < 64 := Nat.mod_lt _ (by decide)
theorem vVB_lt (w : W64) : vVB w < 64 := Nat.mod_lt _ (by decide)
theorem vVC_lt (w : W64) : vVC w < 64 := Nat.mod_lt _ (by decide)

/-- What a lane-wise operation gives on unit `p`. -/
def State.unitResult (o : VecOp) (p : Nat) : BitVec 2048 :=
  laneResult o.slot (s.laneFree p) (s.vreg m p (vVA o.slot)) (s.vecB m p o) (s.vreg m p (vVC o.slot))

theorem State.vecUnit_of_laneWise {o : VecOp} (h : laneWise (vOp o.slot)) (p : Nat) (first : Bool) (id : Nat) :
    s.vecUnit m o p first id = .ok (s.setVreg m p (vVD o.slot) (s.unitResult m o p)) := by
  have reg : s.vecUnit m o p first id = s.vecReg m o p := by
    unfold laneWise at h
    unfold State.vecUnit
    split
    case h_4 => rfl
    all_goals omega
  rw [reg, State.vecReg, vecAlu_of_laneWise h]
  rfl

theorem State.setVreg_vreg (p r q i : Nat) (v : BitVec 2048) (hr : r < 64) (hi : i < 64) :
    (s.setVreg m p r v).vreg m q i = if q = p ∧ i = r then v else s.vreg m q i := by
  simp only [State.setVreg, State.vreg, State.onMiller_eq, State.onMill_mill, cellGet_cellSet]
  exact if_congr (by omega) rfl rfl

/-- A unit reads its own registers alone. -/
theorem State.setVreg_unitResult (o : VecOp) {p r q : Nat} (v : BitVec 2048) (hr : r < 64) (h : q ≠ p) :
    (s.setVreg m p r v).unitResult m o q = s.unitResult m o q := by
  have reads {i : Nat} (hi : i < 64) : (s.setVreg m p r v).vreg m q i = s.vreg m q i := by
    rw [s.setVreg_vreg m p r q i v hr hi, if_neg (by simp [h])]
  have free : (s.setVreg m p r v).laneFree q = s.laneFree q := by
    funext i
    simp [State.laneFree, State.setVreg]
  have b : (s.setVreg m p r v).vecB m q o = s.vecB m q o := by
    unfold State.vecB
    rw [reads (vVB_lt _)]
  rw [State.unitResult, reads (vVA_lt _), reads (vVC_lt _), free, b, State.unitResult]

/-! ## The units of an operation -/

/-- Nothing but vector registers of a mill has changed. -/
def OnlyVregs (s t : State) : Prop := ∃ v, t = s.onMiller m fun x => { x with vreg := v }

theorem OnlyVregs.refl : OnlyVregs m s s := ⟨(s.mill m).miller.vreg, by cases m <;> rfl⟩

theorem OnlyVregs.of_setVreg {t : State} {p r : Nat} {v : BitVec 2048} (h : OnlyVregs m (s.setVreg m p r v) t) : OnlyVregs m s t := by
  obtain ⟨w, rfl⟩ := h
  exact ⟨w, by simp [State.setVreg]⟩

/-- Each unit named has its result, and no other register has changed. -/
theorem State.vecUnits_of_laneWise {o : VecOp} (h : laneWise (vOp o.slot)) (id : Nat) (first : Bool) {ps : List Nat} (hp : ps.Nodup) :
    ∃ t, s.vecUnits m o id first ps = .ok t ∧ OnlyVregs m s t ∧ (∀ p ∈ ps, t.vreg m p (vVD o.slot) = s.unitResult m o p) ∧
      ∀ p r, r < 64 → p ∉ ps ∨ r ≠ vVD o.slot → t.vreg m p r = s.vreg m p r := by
  have hd := vVD_lt o.slot
  induction ps generalizing s first with
  | nil => exact ⟨s, rfl, OnlyVregs.refl s m, nofun, fun _ _ _ _ => rfl⟩
  | cons p ps ih =>
    obtain ⟨fresh, hps⟩ := List.nodup_cons.1 hp
    obtain ⟨t, run, only, done, kept⟩ := ih (s.setVreg m p (vVD o.slot) (s.unitResult m o p)) false hps
    refine ⟨t, ?_, only.of_setVreg, fun q hq => ?_, fun q r hr hq => ?_⟩
    · rw [State.vecUnits, s.vecUnit_of_laneWise m h]
      exact run
    · obtain rfl | hq := List.mem_cons.1 hq
      · rw [kept q _ hd (.inl fresh), s.setVreg_vreg m q _ q _ _ hd hd, if_pos ⟨rfl, rfl⟩]
      · rw [done q hq]
        exact s.setVreg_unitResult m o _ hd fun e => fresh (e ▸ hq)
    · rw [kept q r hr (hq.imp_left fun hq => fun h => hq (List.mem_cons_of_mem _ h)), s.setVreg_vreg m p _ q r _ hd hr, if_neg ?_]
      rintro ⟨rfl, rfl⟩
      simp at hq

theorem vUnits_nodup (w : W64) : (vUnits w).Nodup := List.nodup_range.filter _

/-! ## VECTOR_OP_DONE -/

section vecRun
variable {s m} {o : VecOp} {rest : List VecOp} {t : State}

theorem State.vecRun_of_wait {page : Option Nat} (h : s.vecUnits m o (s.mill m).race.nextId true (vUnits o.slot) = .wait page) :
    s.vecRun m o rest = s.onGov m fun g => { g with wpHold := page } := by
  simp only [State.vecRun, h]

theorem State.vecRun_of_fault (h : s.vecUnits m o (s.mill m).race.nextId true (vUnits o.slot) = .fault t) :
    s.vecRun m o rest = t.onMiller m fun x => { x with vecQ := rest } := by
  simp only [State.vecRun, h]

theorem State.vecRun_of_ok (h : s.vecUnits m o (s.mill m).race.nextId true (vUnits o.slot) = .ok t) :
    s.vecRun m o rest = t.vecPosted m o rest (s.mill m).race.nextId := by
  simp only [State.vecRun, h]

theorem vectorOpDone_of_oldest (codes : List Ecc) (hs : s.halted = false) (hq : (s.mill m).miller.vecQ = o :: rest) :
    vectorOpDone m codes s = s.coded codes fun s => s.vecRun m o rest := by
  simp [vectorOpDone, hq, hs]

end vecRun

@[simp] theorem State.lanesDrawn_mill (j : MillId) : s.lanesDrawn.mill j = s.mill j := by cases j <;> rfl

/-- An operation has completed, up to its token. -/
def State.vecLeft (rest : List VecOp) (id : Nat) : State :=
  s.lanesDrawn.onMill m fun x => { x with
    miller := { x.miller with vecQ := rest }, race := { x.race with nextId := id + 1 }, governor := { x.governor with wpHold := none } }

theorem State.vecPosted_eq (o : VecOp) (rest : List VecOp) (id : Nat) : s.vecPosted m o rest id =
    if vPost o.slot = true then (s.vecLeft m rest id).enginePost m .user (vTctr o.slot) 1 else s.vecLeft m rest id := by
  simp [State.vecPosted, State.vecLeft]

/-- The registers and the hoppers are those that the units left, and the token is posted (R293). -/
theorem State.vecPosted_mill {t : State} (o : VecOp) (rest : List VecOp) (id : Nat) :
    ((t.vecPosted m o rest id).mill m).miller.vecQ = rest ∧ (t.vecPosted m o rest id).hopper = t.hopper ∧
      (∀ p r, (t.vecPosted m o rest id).vreg m p r = t.vreg m p r) ∧
      (vPost o.slot = true → ((t.vecPosted m o rest id).ctx m .user).tr (vTctr o.slot) = (t.ctx m .user).tr (vTctr o.slot) + 1) ∧
      (∀ r, vPost o.slot = false ∨ r ≠ vTctr o.slot → ((t.vecPosted m o rest id).ctx m .user).tr r = (t.ctx m .user).tr r) := by
  have ctx : (t.vecLeft m rest id).ctx m .user = t.ctx m .user := by simp [State.vecLeft, State.ctx, Miller.ctx]
  have vreg (p r : Nat) : (t.vecLeft m rest id).vreg m p r = t.vreg m p r := by simp [State.vecLeft, State.vreg]
  have queue : ((t.vecLeft m rest id).mill m).miller.vecQ = rest := by simp [State.vecLeft]
  have hopper : (t.vecLeft m rest id).hopper = t.hopper := by simp [State.vecLeft, State.lanesDrawn]
  rw [State.vecPosted_eq, ← ctx]
  generalize t.vecLeft m rest id = u at *
  obtain ⟨met, counted⟩ := u.enginePost_ctx m .user (vTctr o.slot) 1
  split
  · next post =>
    refine ⟨?_, ?_, fun p r => ?_, fun _ => ?_, fun r hr => ?_⟩
    · simpa [State.enginePost, State.post, State.ctrlMsg, Miller.onCtx] using queue
    · simpa [State.enginePost, State.post, State.ctrlMsg] using hopper
    · simpa [State.enginePost, State.post, State.ctrlMsg, Miller.onCtx, State.vreg] using vreg p r
    · simp [counted, Context.tr]
    · have other : r ≠ vTctr o.slot := by simpa [post] using hr
      simp [counted, Context.tr, cellGet_cellSet, other]
  · next post => exact ⟨queue, hopper, vreg, fun h => absurd h post, fun _ _ => rfl⟩

/-- Settles O27: the oldest operation by what its units come to; of a lane-wise one each unit's result is made of the lanes of its own
registers, so that the order of the units does not show. The free values of the lanes, the step of VEXP2 and the lines of a stage are the
model's choices (log entries 10, 32 and 33). -/
theorem vectorOperationsComplete : Obligations.VectorOperationsComplete := by
  unfold Obligations.VectorOperationsComplete
  refine ⟨fun m o rest codes s hs hq => ?units, fun m o rest codes s hs hq => ?lanes⟩
  case units =>
    intro id u out left
    have completes : exec (.vectorOpDone ⟨m, codes⟩) s = .next (out (u.vecRun m o rest)) :=
      congrArg Host.Outcome.next (vectorOpDone_of_oldest codes hs hq)
    have same : (u.mill m).race.nextId = id := by cases m <;> rfl
    refine ⟨fun page h => ?_, fun t h => ?_, fun t h => ?_⟩
    · rw [completes, State.vecRun_of_wait (by rwa [same])]
      rfl
    · rw [completes, State.vecRun_of_fault (by rwa [same])]
      rfl
    · rw [completes, State.vecRun_of_ok (by rwa [same]), same, State.vecPosted_eq]
      simp [left, State.vecLeft, State.lanesDrawn, State.enginePost, State.ctrlMsg]
  case lanes =>
    intro op et n f hop _
    let u : State := { s with codes := codes }
    have hop : laneWise (vOp o.slot) := hop
    obtain ⟨t, run, ⟨v, only⟩, done, kept⟩ := u.vecUnits_of_laneWise m hop (u.mill m).race.nextId true (vUnits_nodup o.slot)
    obtain ⟨queue, hopper, vreg, post, unposted⟩ := State.vecPosted_mill m (t := t) o rest (u.mill m).race.nextId
    have completes : exec (.vectorOpDone ⟨m, codes⟩) s = .next { t.vecPosted m o rest (u.mill m).race.nextId with codes := [] } := by
      refine congrArg Host.Outcome.next ((vectorOpDone_of_oldest codes hs hq).trans ?_)
      rw [State.coded, State.vecRun_of_ok run]
    have mill : u.mill m = s.mill m := by cases m <;> rfl
    have ctx : t.ctx m .user = s.ctx m .user := by
      rw [only, State.ctx, State.onMiller_eq, State.onMill_mill, mill]
      rfl
    have store : t.hopper = s.hopper := by rw [only, State.onMiller_eq, State.onMill_hopper]
    rw [ctx] at post unposted
    refine ⟨_, completes, queue, hopper.trans store, fun p hp i hi => ?_, fun p r _ hr h => (vreg p r).trans (kept p r hr h), post, unposted⟩
    have result : ({ t.vecPosted m o rest (u.mill m).race.nextId with codes := [] } : State).vreg m p (vVD o.slot) = u.unitResult m o p :=
      (vreg p _).trans (done p hp)
    rw [result]
    exact natBits_laneResult o.slot _ _ _ _ hi

end Sys2Proof.Machine
end

section
/-! PROOFS of 08_ikiug.md: a bundle that fails its check (R286, R313, R318), and what the drop of a command's operations leaves (R403). -/

namespace Sys2Proof.Machine

variable (s : State) (m : MillId)

/-! ## What the drop of operations leaves -/

/-- The registers, the pc and the bundle of the user context. -/
def Mill.user (x : Mill) : Context := x.miller.user

theorem user_sideBlind : SideBlind Mill.user := ⟨fun _ _ => rfl, fun _ _ => rfl, fun _ _ => rfl, fun _ _ => rfl⟩

/-- A mill has no update to drop and no line of a governor to abandon: nothing that its command's end writes to memory. -/
def Mill.unwritten (x : Mill) : Prop := x.bolter.ops = [] ∧ x.governor.opened = []

/-- The user contexts, the records of mill m's Ikiug page, the hoppers and the granaries are as they were, and where no mill had
anything to write, memory is as it was and no mill has. -/
structure Spares (m : MillId) (s t : State) : Prop where
  beside : Beside Mill.user m s t
  mem : (∀ k, (s.mill k).unwritten) → t.mem = s.mem ∧ ∀ k, (t.mill k).unwritten

namespace Spares

variable {m : MillId} {s t u : State}

theorem refl (s : State) : Spares m s s := ⟨.refl s, fun h => ⟨rfl, h⟩⟩

theorem trans (h : Spares m s t) (g : Spares m t u) : Spares m s u := by
  refine ⟨h.beside.trans g.beside, fun idle => ?_⟩
  obtain ⟨memT, idleT⟩ := h.mem idle
  obtain ⟨memU, idleU⟩ := g.mem idleT
  exact ⟨memU.trans memT, idleU⟩

theorem forAll {α : Type} (l : List α) (f : State → α → State) (h : ∀ s a, Spares m s (f s a)) (s : State) :
    Spares m s (s.forAll l f) := by
  unfold State.forAll
  induction l generalizing s with
  | nil => exact refl s
  | cons a l ih => exact (h s a).trans (ih _)

/-- An event, or a write of registers and tallies. -/
theorem events (h : OnlyEvents s t) (hb : Beside Mill.user m s t) : Spares m s t := by
  refine ⟨hb, fun idle => ?_⟩
  obtain ⟨_, _, _, _, _, _, _, rfl⟩ := onlyEvents_iff.1 h
  refine ⟨rfl, fun k => ?_⟩
  cases k
  · exact idle .m0
  · exact idle .m1

/-- A change of a mill beside its user context, by which it gets nothing to write. -/
theorem onMill {k : MillId} {f : Mill → Mill} (hu : ∀ x, (f x).user = x.user)
    (hw : (s.mill k).unwritten → (f (s.mill k)).unwritten) : Spares m s (s.onMill k f) := by
  refine ⟨.onMill s k f hu, fun idle => ⟨by simp, fun n => ?_⟩⟩
  by_cases hn : n = k
  · subst hn
    rw [State.onMill_mill]
    exact hw (idle n)
  · rw [State.onMill_mill_of_ne _ _ _ _ hn]
    exact idle n

theorem tally (s : State) (p : Page) (k n : Nat) (hk : k < 16) (h : (p ≠ .ikiug m ∨ k ≠ 0) ∧ (p ≠ .toll m ∨ k ≠ 10)) :
    Spares m s (s.tally p k n) := events (.tally s p k n) (.tally s p k n hk h)

theorem setWord (s : State) {p : Page} {off : Nat} (v : W32) (hl : off < 0x1000) (hp : p ≠ .ikiug m) : Spares m s (s.setWord p off v) :=
  events (.setWord s p off v) (.setWord s p off v hl (.inr hp))

theorem record (s : State) {p : Page} {off : Nat} {fill : State → State} (hl : off < 0x1000) (hp : p ≠ .ikiug m)
    (h : Spares m s (fill s)) : Spares m s (s.record p off fill) := by
  unfold State.record
  split
  · exact refl s
  · exact h.trans (setWord _ _ hl hp)

theorem raise (s : State) (p : Page) (bit : Nat) : Spares m s (s.raise p bit) :=
  events (.raise s p bit) (.raise user_sideBlind s p bit)

/-! ### The operations of a command -/

theorem dropXfers (s : State) (k : MillId) (system : Bool) : Spares m s (s.dropXfers k system) := by
  unfold State.dropXfers
  exact onMill (fun _ => rfl) id

theorem dropLeatOps (s : State) (k : MillId) (system : Bool) : Spares m s (s.dropLeatOps k system) :=
  ⟨.of_eq rfl rfl rfl rfl rfl rfl, fun idle => ⟨rfl, fun | .m0 => idle .m0 | .m1 => idle .m1⟩⟩

theorem raceAbandon (s : State) (own : MillId) (pos cause : Nat) : Spares m s (s.raceAbandon own pos cause) := by
  unfold State.raceAbandon
  extract_lets p counted noted raised
  have apart : p ≠ .ikiug m := by simp [p]
  have hc : Spares m s counted := tally s p 12 1 (by decide) (by simp [p])
  have hn : Spares m counted noted :=
    record counted (by decide) apart ((setWord counted _ (by decide) apart).trans (setWord _ _ (by decide) apart))
  split
  · exact hc
  · exact hc.trans (hn.trans ((raise noted p 0).trans (onMill (fun _ => rfl) id)))

theorem stoneDrops (s : State) (k : MillId) (keep : Nat → Bool) (n : Nat) : Spares m s (s.stoneDrops k keep n) := by
  unfold State.stoneDrops
  extract_lets x halted left loads y aborts
  have hl : Spares m s left := by
    unfold left
    split
    · split
      · exact refl s
      · exact raceAbandon s _ _ _
    · exact refl s
  have hs : Spares m left (left.onStone k n fun _ => y) := onMill (fun _ => rfl) id
  exact hl.trans (hs.trans (tally _ (.stone k (Fin.ofNat 24 n)) 14 _ (by decide) (by simp)))

theorem raceDrop (s : State) (k : MillId) : Spares m s (s.raceDrop k) := by
  unfold State.raceDrop
  extract_lets stay keep left
  have hl : Spares m s left := forAll _ _ (fun s n => stoneDrops s k keep n) s
  exact hl.trans (onMill (fun _ => rfl) id)

theorem countFault (s : State) (k : MillId) (f : FaultInfo) : Spares m s (s.countFault k f) := by
  unfold State.countFault
  split
  · exact (tally s _ 12 1 (by decide) (by simp)).trans (raise _ _ _)
  · exact (tally s _ 13 1 (by decide) (by simp)).trans (raise _ _ _)
  · exact refl s

theorem loseFault (s : State) (k : MillId) (f : FaultInfo) : Spares m s (s.loseFault k f) :=
  (countFault s k f).trans (tally _ _ 14 1 (by decide) (by simp))

end Spares

/-! ### Updates and lines, which are written to memory -/

namespace Beside

variable {β : Type} {part : Mill → β} {m : MillId}

theorem mill {s : State} {k : MillId} {f : Mill → Mill} (h : ∀ x, part (f x) = part x) : Beside part m s (s.onMill k f) := onMill s k f h

variable (blind : SideBlind part)
include blind

theorem entryBack (s : State) (k : MillId) (d : Nat × List Byte) : Beside part m s (s.entryBack k d) := by
  have counted : Beside part m s (s.tally (.ledger k) 2 1) := tally s _ 2 1 (by decide) (by simp)
  have written := portWrite (m := m) blind (s.tally (.ledger k) 2 1) k (16 * d.1) [(16 * d.1, 16)]
  unfold State.entryBack
  simp only []
  split <;> rename_i h <;> rw [h] at written
  · exact counted.trans written
  · exact counted.trans (written.trans (rawWrite blind _ _ _))

theorem onLedger {s : State} {k : MillId} {f : Ledger → Ledger} : Beside part m s (s.onLedger k f) := onMill s k _ fun x => blind.ledger x _

theorem entriesOut (s : State) (k : MillId) (out : List Nat) : Beside part m s (s.entriesOut k out) := by
  unfold State.entriesOut
  exact (forAll _ _ (fun s d => entryBack blind s k d) s).trans (onLedger blind)

theorem ledgerTouch (s : State) (k : MillId) (slot : Nat) : Beside part m s (s.ledgerTouch k slot) := by
  unfold State.ledgerTouch
  extract_lets x counted held
  have hc : Beside part m s counted := tally s _ _ 1 (by split <;> decide) (by simp)
  exact hc.trans ((onLedger blind).trans (entriesOut blind held k _))

theorem ledgerWrite (s : State) (a : Nat) (bs : List Byte) : Beside part m s (s.ledgerWrite a bs) := by
  unfold State.ledgerWrite
  exact (ledgerTouch blind s _ _).trans (onLedger blind)

theorem pokeParts (s : State) (k : MillId) (ps : List (Nat × Nat)) (bs : List Byte) : Beside part m s (State.pokeParts k ps bs s) := by
  induction ps generalizing s bs with
  | nil => exact refl s
  | cons x ps ih =>
    have poked : Beside part m s (s.pokePart k x.1 (bs.take x.2)) := by
      unfold State.pokePart
      split
      · exact refl s
      · exact physWrite blind s _ _
    exact poked.trans (ih _ _)

end Beside

namespace Spares

variable {m : MillId}

theorem dropUpdate_beside (s : State) (k : MillId) (o : UpdateOp) : Beside Mill.user m s (s.dropUpdate k o) := by
  unfold State.dropUpdate State.dropJobs State.setStageJobs
  extract_lets gone
  have freed : Beside Mill.user m s (s.freeRows o) := Beside.forAll _ _ (fun s _ => Beside.ledgerWrite user_sideBlind s _ _) s
  have hg : Beside Mill.user m (s.freeRows o) gone := Beside.mill fun _ => rfl
  exact freed.trans (hg.trans (Beside.mill fun _ => rfl))

/-- The updates of a context are dropped, which a mill without an update has none of. -/
theorem dropUpdates (s : State) (k : MillId) (p : UpdateOp → Bool) :
    Spares m s (s.forAll ((s.mill k).bolter.ops.filter p) fun s o => s.dropUpdate k o) := by
  refine ⟨.forAll _ _ (fun s o => dropUpdate_beside s k o) s, fun idle => ?_⟩
  rw [(idle k).1]
  exact ⟨rfl, idle⟩

theorem abandonLines (s : State) (k : MillId) (p : OpenLine → Bool) : Spares m s (s.abandonLines k p) := by
  refine ⟨?_, fun idle => ?_⟩
  · unfold State.abandonLines State.vpoke
    exact (Beside.forAll _ _ (fun s _ => Beside.pokeParts user_sideBlind s k _ _) s).trans (Beside.mill fun _ => rfl)
  have none : s.abandonLines k p = s.onGov k fun g => { g with opened := g.opened.filter fun o => !p o } := by
    unfold State.abandonLines
    rw [(idle k).2]
    rfl
  have emptied : Spares m s (s.onGov k fun g => { g with opened := g.opened.filter fun o => !p o }) :=
    onMill (fun _ => rfl) fun ⟨ops, opened⟩ => ⟨ops, by simp [opened]⟩
  rw [none]
  exact emptied.mem idle

theorem stageDrops (s : State) (k : MillId) (n : Nat) : Spares m s (s.stageDrops k n) := by
  have kept : Spares m s (s.setStageJobs k n ((s.stageJobs k n).filter (·.system))) := by
    unfold State.setStageJobs
    exact onMill (fun _ => rfl) id
  unfold State.stageDrops
  simp only []
  split
  · split
    · exact kept
    · exact kept.trans (abandonLines _ k _)
  · exact kept

theorem govDrop (s : State) (k : MillId) : Spares m s (s.govDrop k) := by
  unfold State.govDrop
  exact (forAll _ _ (fun s n => stageDrops s k n) s).trans (onMill (fun _ => rfl) id)

theorem dropOps (s : State) (k : MillId) : Spares m s (s.dropOps k) := by
  unfold State.dropOps State.onToll State.onMiller
  extract_lets sent updated raced tolls lost queued
  have hs : Spares m s sent := (dropXfers s k false).trans (dropLeatOps _ k false)
  have hu : Spares m sent updated := dropUpdates sent k _
  have hr : Spares m updated raced := (raceDrop updated k).trans (govDrop _ k)
  have ht : Spares m raced tolls := onMill (fun _ => rfl) id
  have hl : Spares m tolls lost := forAll _ _ (fun s f => loseFault s k f) tolls
  have hq : Spares m lost queued := onMill (fun _ => rfl) id
  exact hs.trans (hu.trans (hr.trans (ht.trans (hl.trans (hq.trans (onMill (fun _ => rfl) id))))))

end Spares

/-! ## The record of a fault (R318) -/

theorem mkWord64_hiWord_loWord (v : W64) : mkWord64 (hiWord v) (loWord v) = v := by
  refine BitVec.eq_of_toNat_eq ?_
  have bound := v.isLt
  rw [mkWord64, BitVec.toNat_append, loWord, hiWord, BitVec.toNat_ofNat, BitVec.toNat_ofNat, Nat.mod_eq_of_lt (a := v.toNat / 2 ^ 32) (by omega),
    Nat.shiftLeft_eq, Nat.mul_comm, ← Nat.two_pow_add_eq_or_of_lt (Nat.mod_lt _ (by decide)), Nat.div_add_mod]

theorem State.setWord_word (p : Page) (off o : Nat) (v : W32) : (s.setWord p off v).word p o = if o = off then v else s.word p o := by
  split
  · next h => rw [h, State.setWord_word_self]
  · next h => exact s.setWord_word_of_ne p p off o v (by omega)

/-- The record of the Ikiug page as the fault fills it, valid. -/
def State.faultNoted (f : FaultInfo) : State :=
  let p : Page := .ikiug m
  let s := s.setWord p 0x140 (s.seq m)
  let s := s.setWord p 0x144 (BitVec.ofNat 32 (f.slot + 8 * (if f.kind == .contract then 1 else 2) + 32 * boolNat f.issue))
  let s := (s.setWord p 0x148 f.page.id).setWord p 0x14C (BitVec.ofNat 32 (f.cause % 65536))
  let s := (s.setWord64 p 0x150 f.pc).setWord64 p 0x158 (s.mill m).miller.user.pc
  let s := (s.setWord64 p 0x160 f.res).setWord64 p 0x168 f.opnd
  s.putFld p 0x144 31 1 1

theorem State.faultNoted_words (f : FaultInfo) :
    (s.faultNoted m f).word (.ikiug m) 0x140 = s.seq m ∧
      (s.faultNoted m f).word (.ikiug m) 0x144 =
        putBits (BitVec.ofNat 32 (f.slot + 8 * (if f.kind == .contract then 1 else 2) + 32 * boolNat f.issue)) 31 1 1 ∧
      (s.faultNoted m f).word (.ikiug m) 0x14C = BitVec.ofNat 32 (f.cause % 65536) ∧
      (s.faultNoted m f).word64 (.ikiug m) 0x150 = f.pc ∧ (s.faultNoted m f).word64 (.ikiug m) 0x158 = (s.ctx m .user).pc ∧
      (s.faultNoted m f).word64 (.ikiug m) 0x160 = f.res ∧ (s.faultNoted m f).word64 (.ikiug m) 0x168 = f.opnd := by
  simp [State.faultNoted, State.putFld, State.setWord64, State.word64, State.setWord_word, mkWord64_hiWord_loWord, State.ctx, Miller.ctx]

theorem State.countFault_onlyEvents (f : FaultInfo) : OnlyEvents s (s.countFault m f) := by
  unfold State.countFault
  split
  · exact (OnlyEvents.tally _ _ _ _).trans (OnlyEvents.raise _ _ _)
  · exact (OnlyEvents.tally _ _ _ _).trans (OnlyEvents.raise _ _ _)
  · exact OnlyEvents.refl s

theorem OnlyEvents.pageLive {s t : State} (h : OnlyEvents s t) (p : Page) : t.pageLive p = s.pageLive p := by
  obtain ⟨_, _, _, _, _, _, _, rfl⟩ := onlyEvents_iff.1 h
  rfl

/-- The count of a fault leaves the work of the millers, and the record of the fault. -/
theorem State.countFault_beside (f : FaultInfo) : Beside Mill.work m s (s.countFault m f) := by
  unfold State.countFault
  split
  · exact (Beside.tally s _ 12 1 (by decide) (by simp)).trans (Beside.raise work_sideBlind _ _ _)
  · exact (Beside.tally s _ 13 1 (by decide) (by simp)).trans (Beside.raise work_sideBlind _ _ _)
  · exact .refl s

/-- The first fault of a command fills a record that is open. -/
theorem State.recordFault_of_open {f : FaultInfo} (hf : (s.mill m).miller.faulted = false) (hb : s.bit (.ikiug m) 0x144 31 = false)
    (hp : s.pageLive (.ikiug m) = true) :
    s.recordFault m f = ((s.countFault m f).faultNoted m f).onMiller m fun x => { x with faulted := true } := by
  have counted := s.countFault_beside m f
  have live : (s.countFault m f).pageLive (.ikiug m) = true := ((s.countFault_onlyEvents m f).pageLive _).trans hp
  have faulted : ((s.countFault m f).mill m).miller.faulted = false := (Mill.faulted_of_work (counted.part m) :).trans hf
  have free : (s.countFault m f).bit (.ikiug m) 0x144 31 = false := by
    rw [State.bit, counted.word 0x144 (by decide) (by decide)]
    exact hb
  simp only [State.recordFault, State.record, live, faulted, free, Bool.or_self, Bool.not_true, Bool.false_eq_true, if_false]
  rfl

/-- The registers of the record, as the first fault of a command leaves them. -/
theorem State.recordFault_words {f : FaultInfo} (hf : (s.mill m).miller.faulted = false) (hb : s.bit (.ikiug m) 0x144 31 = false)
    (hp : s.pageLive (.ikiug m) = true) :
    (s.recordFault m f).word (.ikiug m) 0x140 = s.seq m ∧
      (s.recordFault m f).word (.ikiug m) 0x144 =
        putBits (BitVec.ofNat 32 (f.slot + 8 * (if f.kind == .contract then 1 else 2) + 32 * boolNat f.issue)) 31 1 1 ∧
      (s.recordFault m f).word (.ikiug m) 0x14C = BitVec.ofNat 32 (f.cause % 65536) ∧
      (s.recordFault m f).word64 (.ikiug m) 0x150 = f.pc ∧ (s.recordFault m f).word64 (.ikiug m) 0x158 = (s.ctx m .user).pc ∧
      (s.recordFault m f).word64 (.ikiug m) 0x160 = f.res ∧ (s.recordFault m f).word64 (.ikiug m) 0x168 = f.opnd := by
  have work := (s.countFault_beside m f).part m
  have seq : (s.countFault m f).seq m = s.seq m := by
    rw [State.seq, State.seq, State.running, State.running, (Mill.cmd_of_work work :)]
  have ctx : (s.countFault m f).ctx m .user = s.ctx m .user := Mill.ctx_of_work work .user
  have words := (s.countFault m f).faultNoted_words m f
  rw [seq, ctx] at words
  rw [s.recordFault_of_open m hf hb hp]
  simpa [State.word64] using words

/-- What a fault of one mill leaves, its record apart: seen from the other mill's page it is an event. -/
theorem Spares.recordFault {j : MillId} (hj : j ≠ m) (f : FaultInfo) : Spares j s (s.recordFault m f) := by
  have noted (s : State) : Spares j s (s.onMiller m fun x => { x with faulted := true }) := Spares.onMill (fun _ => rfl) id
  unfold State.recordFault
  extract_lets p contract counted recorded
  have apart : p ≠ .ikiug j := by simpa [p] using hj.symm
  have hc : Spares j s counted := Spares.countFault s m f
  have hr : Spares j counted recorded := by
    have fill (s : State) {off : Nat} (v : W32) (hl : off < 0x1000) : Spares j s (s.setWord p off v) := .setWord s v hl apart
    have fill64 (s : State) {off : Nat} (v : W64) (hl : off + 4 < 0x1000) : Spares j s (s.setWord64 p off v) :=
      (fill s _ (by omega)).trans (fill _ _ hl)
    refine .record counted (by decide) apart ?_
    exact (fill _ _ (by decide)).trans ((fill _ _ (by decide)).trans ((fill _ _ (by decide)).trans ((fill _ _ (by decide)).trans
      ((fill64 _ _ (by decide)).trans ((fill64 _ _ (by decide)).trans ((fill64 _ _ (by decide)).trans (fill64 _ _ (by decide))))))))
  split
  · exact hc.trans ((Spares.tally _ p 14 1 (by decide) (by simp [p])).trans (noted _))
  · exact hc.trans (hr.trans (noted _))

/-- No fault counts a bundle. -/
theorem State.recordFault_bundles (f : FaultInfo) : (s.recordFault m f).tallyOf (.ikiug m) 0 = s.tallyOf (.ikiug m) 0 := by
  have counted := (s.countFault_beside m f).bundles
  have lost := (Spares.tally (m := m) (s.countFault m f) (.ikiug m) 14 1 (by decide) (by simp)).beside.bundles
  unfold State.recordFault State.record
  simp only []
  split
  · simpa [State.tallyOf] using lost.trans counted
  · split
    · simpa [State.tallyOf] using counted
    · simpa [State.tallyOf, State.putFld, State.setWord64, State.setWord] using counted

/-! ## The end of a command by a fault (R312, R316) -/

def FaultInfo.ending (f : FaultInfo) : Ending := if f.kind = .contract then .contractFault f.cause else .commandFault f.cause

/-- The command of a mill takes an ending. -/
def Miller.ended (x : Miller) (e : Ending) : Miller := { x with ending := some e, replay := none, replaying := false, st := .stopped }

/-- A fault at one of the mills of a command. -/
def State.endMill (f : FaultInfo) (k : MillId) : State :=
  if (s.running k).isNone then s
  else if (s.mill k).miller.ending.isSome then s.loseFault k f
  else ((s.recordFault k f).dropOps k).onMiller k fun x => x.ended f.ending

theorem State.endCommand_eq (f : FaultInfo) : s.endCommand m f = s.forAll (s.commandMills m) fun s k => s.endMill f k := rfl

theorem State.endMill_commandPart (f : FaultInfo) (k : MillId) :
    (s.endMill f k).commandPart = Function.update s.commandPart k ((s.commandPart k).aborted f.ending) := by
  have same : (s.commandPart k).aborted f.ending =
      if ((s.running k).isNone || (s.mill k).miller.ending.isSome) = true then s.commandPart k else (s.commandPart k).ended f.ending := rfl
  rw [same, State.endMill]
  split
  · next h => simp [h]
  · next h =>
    split
    · next he => simp [he, s.loseFault_commandPart]
    · next he =>
      have ended := ((s.recordFault k f).dropOps k).onMill_commandPart k (f := fun x => { x with miller := x.miller.ended f.ending })
        (fun x => { x with ending := some f.ending, replay := none, st := .stopped }) fun _ => rfl
      rw [if_neg (by simp [h, he])]
      refine ended.trans ?_
      rw [State.dropOps_commandPart, State.recordFault_commandPart, Function.update_self, Function.update_idem]
      rfl

/-- A command that runs and has not ended takes the fault's ending on the mill that finds it. -/
theorem State.endCommand_commandPart (f : FaultInfo) (hr : (s.running m).isSome = true) (he : (s.mill m).miller.ending = none) :
    (s.endCommand m f).commandPart m = (s.commandPart m).ended f.ending := by
  have own : m ∈ s.commandMills m := by
    unfold State.commandMills
    split <;> simp
  rw [State.endCommand_eq, s.forAll_commandPart (g := fun x => x.aborted f.ending) (s.commandMills_nodup m) (fun s k => s.endMill_commandPart f k), if_pos own]
  refine if_neg ?_
  change ¬((s.running m).isNone || (s.mill m).miller.ending.isSome) = true
  simp [Option.isSome_iff_ne_none.1 hr, he]

theorem Spares.endMill {j k : MillId} (h : j ≠ k) (f : FaultInfo) : Spares j s (s.endMill f k) := by
  unfold State.endMill
  split
  · exact .refl s
  · split
    · exact .loseFault s k f
    · exact (Spares.recordFault s k h f).trans ((Spares.dropOps _ k).trans (Spares.onMill (fun _ => rfl) id))

/-- Past its record, the end of a command leaves what `Spares` tells of. -/
theorem Spares.endCommand (f : FaultInfo) (hr : (s.running m).isSome = true) (he : (s.mill m).miller.ending = none) :
    Spares m (s.recordFault m f) (s.endCommand m f) := by
  have running : ¬(s.running m).isNone = true := by simp [Option.isSome_iff_ne_none.1 hr]
  have own : Spares m (s.recordFault m f) (s.endMill f m) := by
    rw [State.endMill, if_neg running, if_neg (by simp [he])]
    exact (Spares.dropOps _ m).trans (Spares.onMill (fun _ => rfl) id)
  rw [State.endCommand_eq, State.commandMills]
  split
  · exact own.trans (Spares.endMill _ (by cases m <;> decide) f)
  · exact own

/-! ## A bundle that fails its check (R286, R313) -/

theorem bundleIssue_of_faulty {x : BitVec 512} {slot : Nat} {cause : Cause} (codes : List Ecc) (hs : s.halted = false)
    (ha : s.active m .user = true) (hf : (s.ctx m .user).fetched = some x) (hi : s.injArmed (.ikiug m) = false)
    (hb : s.bundleFault m .user (s.ctx m .user) (parseBundle x) = some (slot, cause)) :
    bundleIssue m .user .good codes s = s.endCommand m (checkInfo m .user (s.ctx m .user).pc slot cause.code
      (checkData (s.ctx m .user) (parseBundle x) slot cause) false) := by
  have unarmed : s.takeInj (.ikiug m) 1 = (false, s) := s.takeInj_of_not_injects (s.injects_of_unarmed hi 1)
  simp [bundleIssue, hs, ha, hf, unarmed, hb, State.precise]

/-- What FR_SLOT, FR_KIND and FR_ISSUE hold of a contract fault in a bundle, and VALID. -/
theorem faultWord_fields {slot : Nat} (h : slot < 8) :
    bitsOf (putBits (BitVec.ofNat 32 (slot + 8 * 1 + 32 * 1)) 31 1 1) 0 3 = slot ∧
      bitsOf (putBits (BitVec.ofNat 32 (slot + 8 * 1 + 32 * 1)) 31 1 1) 3 2 = 1 ∧
      bitOf (putBits (BitVec.ofNat 32 (slot + 8 * 1 + 32 * 1)) 31 1 1) 5 = true ∧
      bitOf (putBits (BitVec.ofNat 32 (slot + 8 * 1 + 32 * 1)) 31 1 1) 31 = true := by
  interval_cases slot <;> decide

/-- Settles O23: a faulty bundle ends its command by a contract fault. What ends with the command shows in no register of the user context
and in no hopper or granary, and in memory only through an update or a governor's line that the command had in progress; the record is
that of its first fault. The order of the checks and what FR_RES and FR_OPND name are the model's choices (log entries 26 and 27). -/
theorem faultyBundlesTakeNoEffect : Obligations.FaultyBundlesTakeNoEffect := by
  unfold Obligations.FaultyBundlesTakeNoEffect
  intro m x slot cause codes s hs ha hf hi hp hb
  let f : FaultInfo := checkInfo m .user (s.ctx m .user).pc slot cause.code (checkData (s.ctx m .user) (parseBundle x) slot cause) false
  have ends : exec (.bundleIssue m .user .good codes) s = .next (s.endCommand m f) :=
    congrArg Host.Outcome.next (bundleIssue_of_faulty s m codes hs ha hf hi hb)
  obtain ⟨hr, he⟩ : (s.running m).isSome = true ∧ (s.mill m).miller.ending = none := by
    simp only [State.active, Bool.and_eq_true, Option.isNone_iff_eq_none] at ha
    exact ⟨ha.1.1.1, ha.1.1.2⟩
  have part : (s.endCommand m f).commandPart m = (s.commandPart m).ended f.ending := s.endCommand_commandPart m f hr he
  have recorded : Spares m.other s (s.recordFault m f) := Spares.recordFault s m (by cases m <;> decide) f
  have rest : Spares m (s.recordFault m f) (s.endCommand m f) := Spares.endCommand s m f hr he
  refine ⟨s.endCommand m f, ends, (rest.beside.part m).trans (recorded.beside.part m), congrArg CommandPart.ending part,
    congrArg CommandPart.st part, rest.beside.hopper.trans recorded.beside.hopper, rest.beside.granary.trans recorded.beside.granary,
    rest.beside.bundles.trans (s.recordFault_bundles m f), fun idle => ?_, fun first free hslot => ?_⟩
  · obtain ⟨mem, still⟩ := recorded.mem idle
    exact (rest.mem still).1.trans mem
  · obtain ⟨seq, flags, code, pc, now, res, opnd⟩ := s.recordFault_words m (f := f) first free hp
    have kept (o : Nat) (h : 0x100 ≤ o) (hl : o < 0x1000) := rest.beside.word o h hl
    have kept64 (o : Nat) (h : 0x100 ≤ o) (hl : o + 4 < 0x1000) :
        (s.endCommand m f).word64 (.ikiug m) o = (s.recordFault m f).word64 (.ikiug m) o := by
      rw [State.word64, State.word64, kept o h (by omega), kept (o + 4) (by omega) hl]
    have cut : cause.code % 65536 = cause.code := by cases cause <;> rfl
    obtain ⟨inSlot, kind, issue, valid⟩ := faultWord_fields hslot
    have word := (kept 0x144 (by decide) (by decide)).trans flags
    refine ⟨(kept64 _ (by decide) (by decide)).trans pc, (kept64 _ (by decide) (by decide)).trans now,
      (kept _ (by decide) (by decide)).trans seq, (kept _ (by decide) (by decide)).trans (code.trans (congrArg _ cut)),
      (kept64 _ (by decide) (by decide)).trans res, (kept64 _ (by decide) (by decide)).trans opnd, ?_, ?_, ?_, ?_⟩
    · rw [State.fld, word]
      exact inSlot
    · rw [State.fld, word]
      exact kind
    · rw [State.bit, word]
      exact issue
    · rw [State.bit, word]
      exact valid

end Sys2Proof.Machine
end

section
/-! PROOFS of 10_leat.md: the ports, their retry and their training (R357, R360, R361, R365 to R368). -/

namespace Sys2Proof.Machine

variable (s : State)

/-! ## Where no injection is armed -/

theorem State.takeInj_of_unarmed {p : Page} (h : s.injArmed p = false) (code : Nat) : s.takeInj p code = (false, s) :=
  s.takeInj_of_not_injects (s.injects_of_unarmed h code)

/-! ## A port after a change of a port -/

theorem State.onPort_port_of_ne {p q : Nat} (f : LeatPort → LeatPort) (h : q ≠ p) : (s.onPort p f).port q = s.port q := by
  simp [State.port, State.onPort, listOn, List.getD_eq_getElem?_getD, h.symm]

theorem State.port_ne_reset {p : Nat} (h : (s.port p).st = 2) : s.port p ≠ .reset := fun reset => by simp [reset, LeatPort.reset] at h

/-- A port that is not as it is at reset is in the list of ports. -/
theorem State.onPort_port {p : Nat} (f : LeatPort → LeatPort) (h : s.port p ≠ .reset) : (s.onPort p f).port p = f (s.port p) := by
  have there : p < s.leat.ports.length := by
    by_contra beyond
    exact h (by simp [State.port, List.getD_eq_getElem?_getD, List.getElem?_eq_none (Nat.not_lt.1 beyond)])
  simp [State.port, State.onPort, listOn, List.getD_eq_getElem?_getD, there]

theorem State.onPort_port_part {α : Type} (part : LeatPort → α) (p : Nat) {f : LeatPort → LeatPort}
    (h : part (f (s.port p)) = part (s.port p)) : part ((s.onPort p f).port p) = part (s.port p) := by
  by_cases there : p < s.leat.ports.length
  · simpa [State.port, State.onPort, listOn, List.getD_eq_getElem?_getD, there] using h
  · simp [State.port, State.onPort, listOn, List.getD_eq_getElem?_getD, there]

/-! ## What sending leaves of the receiver (R360, R361) -/

theorem LeatPort.stamp_rxNext (x : LeatPort) (h : FlitHdr) : (x.stamp h).2.rxNext = x.rxNext := by
  unfold LeatPort.stamp
  split <;> rfl

theorem State.sendFlit_rxNext (p : Nat) (f : BitVec 256 × List Byte) (reserved : Bool) :
    ((s.sendFlit p f reserved).port p).rxNext = (s.port p).rxNext :=
  s.onPort_port_part (·.rxNext) p ((s.port p).stamp_rxNext (parseFlit f.1))

theorem State.pumpPort_rxNext (p fuel : Nat) : ((s.pumpPort p fuel).port p).rxNext = (s.port p).rxNext := by
  induction fuel generalizing s with
  | zero => rfl
  | succ k ih =>
    unfold State.pumpPort
    extract_lets x
    split
    · rfl
    · split
      · rfl
      · next f reserved _ => exact (ih _).trans (s.sendFlit_rxNext p f reserved)

theorem State.pump_rxNext (p : Nat) : ((s.pump p).port p).rxNext = (s.port p).rxNext := s.pumpPort_rxNext p _

theorem State.ackTo_rxNext (p : Nat) (ack : BitVec 16) : ((s.ackTo p ack).port p).rxNext = (s.port p).rxNext := by
  unfold State.ackTo
  extract_lets x left
  split
  · exact (State.pump_rxNext _ p).trans (s.onPort_port_part (·.rxNext) p rfl)
  · rfl

theorem State.linkFields_rxNext (p : Nat) (h : FlitHdr) (hi : s.injects (portPage p) 4 = false) :
    ((s.linkFields p h).port p).rxNext = (s.port p).rxNext := by
  simp only [State.linkFields, hi, Bool.false_eq_true, if_false]
  exact (State.pump_rxNext _ p).trans ((State.ackTo_rxNext _ p h.ack).trans (s.onPort_port_part (·.rxNext) p rfl))

/-! ## FLIT_RECEIVE (R357, R360) -/

section
variable {port : Fin 24} (hs : s.halted = false) (hu : (s.port port.val).st = 2) (hi : s.injArmed (portPage port.val) = false)
include hs hu hi

theorem flitReceive_lost (codes : List Ecc) : flitReceive port .lost codes s = (s.tally (portPage port.val) 4 1).nack port.val := by
  simp [flitReceive, hs, hu, s.takeInj_of_unarmed hi]

/-- A codeword that arrives, by its CRC, its type and its number. -/
theorem flitReceive_flit (hdr : BitVec 256) (pl : List Byte) (corrected : Nat) (codes : List Ecc) :
    flitReceive port (.flit hdr pl corrected) codes s =
      (let p := port.val
       let h := parseFlit hdr
       let u := s.tally (portPage p) 3 corrected
       if h.crc ≠ flitCrc hdr (pad512 pl) then (u.tally (portPage p) 5 1).nack p
       else if linkOnly h.type_ = true then (u.linkFields p h).flitLink p h (pad512 pl)
       else if h.seq ≠ (s.port p).rxNext then (u.linkFields p h).nack p
       else (u.linkFields p h).coded codes fun t => t.flitTake p h (pad512 pl)) := by
  have kept := (s.tally (portPage port.val) 3 corrected).linkFields_rxNext port.val (parseFlit hdr) (s.injects_of_unarmed hi 4)
  have unarmed : (s.tally (portPage port.val) 3 corrected).injArmed (portPage port.val) = false := hi
  have same : (s.tally (portPage port.val) 3 corrected).port port.val = s.port port.val := rfl
  rw [same] at kept
  simp [flitReceive, hs, hu, s.takeInj_of_unarmed hi, State.takeInj_of_unarmed _ unarmed, kept]

end

/-! ## ACK_TIMEOUT and LANE_DROP (R361, R365) -/

section
variable {port : Fin 24}

theorem ackTimeout_of_none (h : (s.port port.val).replay = []) : ackTimeout port s = s := by
  simp [ackTimeout, h]

variable (hu : (s.port port.val).st = 2)
include hu

theorem ackTimeout_of_unacknowledged {f : BitVec 256 × List Byte} {rest : List (BitVec 256 × List Byte)} (hs : s.halted = false)
    (h : (s.port port.val).replay = f :: rest) :
    ackTimeout port s = (s.tally (portPage port.val) 8 1).replayFrom port.val (parseFlit f.1).seq := by
  simp [ackTimeout, hs, hu, h]

theorem laneDrop_of_used {lane : Fin 8} (hi : s.injArmed (portPage port.val) = false) (hp : s.pageLive (portPage port.val) = true)
    (h : bitOf (s.port port.val).lanes lane.val = true) :
    laneDrop port lane s = (((s.tally (portPage port.val) 12 1).raise (portPage port.val) 0).onPort port.val fun x =>
      { x with badLanes := x.badLanes ||| BitVec.ofNat 8 (2 ^ lane.val) }).portRetrain port.val ((s.port port.val).width + 1) := by
  simp [laneDrop, hu, hp, h, s.takeInjAt_of_unarmed hi]

end

/-! ## Training (R365, R366) -/

theorem trainAttempt_of_down {port : Fin 24} (hp : s.pageLive (portPage port.val) = true) (hr : s.refHeld = false)
    (hd : (s.port port.val).st = 0) (he : s.bit (portPage port.val) 0x100 0 = true) (ho : s.unitOut (7, port.val) = false) :
    trainAttempt port s = s.onPort port.val fun x => { x with st := 1, width := 0, badLanes := 0 } := by
  simp [trainAttempt, hp, hr, hd, he, ho]

/-- Lanes that lock as many as a width has are of that width alone. -/
theorem find_widthLanes {w : Nat} (hw : w ≤ 2) {q : Nat → Bool} (hq : q w = true) :
    [0, 1, 2].find? (fun v => widthLanes v == 8 / 2 ^ w && q v) = some w := by
  interval_cases w <;> simp [widthLanes, hq]

theorem portTrainDone_of_locked {port : Fin 24} {lanes : BitVec 8} {w : Nat} (partner : BitVec 16)
    (hp : s.pageLive (portPage port.val) = true) (hr : s.refHeld = false) (hw : w ≤ 2)
    (hl : ((List.range 8).filter fun k => bitOf lanes k).length = 8 / 2 ^ w)
    (ht : (s.port port.val).st = 1 ∨ ((s.port port.val).st = 3 ∧ (s.port port.val).width ≤ w)) :
    portTrainDone port lanes partner s = if s.fld (portPage port.val) 0x100 1 2 < w then
      (if (s.port port.val).st = 1 then s.onPort port.val (fun x => { x with st := 0, lanes := 0 }) else s.portDown port.val)
      else (((s.onPort port.val fun x => { x with st := 2, width := w, lanes := lanes, partner := partner, fails := 0 }).raise
        (portPage port.val) 2).pump port.val).retryBlocked := by
  have trains : ((s.port port.val).st == 1 || (s.port port.val).st == 3) = true := by
    obtain h | ⟨h, -⟩ := ht <;> simp [h]
  have widest : ((s.port port.val).st == 1 || decide ((s.port port.val).width ≤ w)) = true := by
    obtain h | ⟨-, h⟩ := ht <;> simp [h]
  have found := find_widthLanes hw (q := fun v => (s.port port.val).st == 1 || decide ((s.port port.val).width ≤ v)) widest
  simp only [portTrainDone, hp, hr, trains, hl, found, Bool.not_true, Bool.or_self, Bool.false_eq_true, if_false]

/-! ## The write of fields as they stand -/

/-- One field of a word as it is stored. -/
def FieldOut.store (refused : Fld → Bool) (new : Nat) (a : FieldOut) (f : Fld) : FieldOut :=
  if f.acc ≠ .rw then a
  else if natBits new f.lo f.w < f.min ∨ f.max < natBits new f.lo f.w ∨ refused f = true then { a with bad := true }
  else { a with word := a.word - natBits a.word f.lo f.w * 2 ^ f.lo + natBits new f.lo f.w * 2 ^ f.lo, beh := a.beh || f.beh }

theorem storeFields_eq_foldl (flds : List Fld) (refused : Fld → Bool) (old new : Nat) :
    storeFields flds refused old new = flds.foldl (FieldOut.store refused new) { word := old, beh := false, bad := false } := rfl

/-- A field is written as it stands, within its range and not refused. -/
def FieldStands (refused : Fld → Bool) (old new : Nat) (f : Fld) : Prop :=
  natBits new f.lo f.w = natBits old f.lo f.w ∧ f.min ≤ natBits old f.lo f.w ∧ natBits old f.lo f.w ≤ f.max ∧ refused f = false

theorem FieldOut.store_of_stands {refused : Fld → Bool} {new : Nat} (a : FieldOut) {f : Fld}
    (h : f.acc = .rw → FieldStands refused a.word new f) : a.store refused new f = { a with beh := a.beh || (f.acc == .rw && f.beh) } := by
  by_cases hf : f.acc = .rw
  · obtain ⟨same, low, high, taken⟩ := h hf
    have field : natBits a.word f.lo f.w * 2 ^ f.lo ≤ a.word :=
      (Nat.mul_le_mul_right _ (Nat.mod_le _ _)).trans (Nat.div_mul_le_self _ _)
    simp [FieldOut.store, hf, same, taken, Nat.not_lt.2 low, Nat.not_lt.2 high, Nat.sub_add_cancel field]
  · have untouched : (f.acc == .rw && f.beh) = false := by simp [hf]
    simp [FieldOut.store, hf, untouched]

/-- A write of a word's fields as they stand leaves the word. -/
theorem storeFields_of_stands (flds : List Fld) {refused : Fld → Bool} {old new : Nat}
    (h : ∀ f ∈ flds, f.acc = .rw → FieldStands refused old new f) :
    storeFields flds refused old new = { word := old, beh := flds.any fun f => f.acc == .rw && f.beh, bad := false } := by
  suffices ∀ a : FieldOut, a.word = old →
      flds.foldl (FieldOut.store refused new) a = { a with beh := a.beh || flds.any fun f => f.acc == .rw && f.beh } by
    rw [storeFields_eq_foldl, this _ rfl, Bool.false_or]
  induction flds with
  | nil => simp
  | cons f fs ih =>
    rintro a rfl
    rw [List.foldl_cons, a.store_of_stands (h f List.mem_cons_self), List.any_cons, ← Bool.or_assoc]
    exact ih (fun g hg => h g (List.mem_cons_of_mem _ hg)) _ rfl

/-- A write of a 32-bit register's fields as they stand, with its other bits: where no claim, no lock and no gate bars it, the register's
actions on a state in which the write has counted. -/
theorem State.writeReg_of_stands (path : Path) (p : Page) (off : Nat) (x : WordAt) (w : W32) (ho : 0x100 ≤ off) (hw : x.reg.wide = false)
    (hhi : x.hi = false) (h1 : (x.reg.flds.all fun f => f.acc == .ro || f.acc == .rc) = false) (hl : Unlocked s path p)
    (hclaim : s.needsClaim path p off = none) (hcustom : s.writeCustom path p off w = none)
    (hst : ∀ f ∈ x.reg.flds, f.acc = .rw → FieldStands (s.refuses p off (s.word p off).toNat (w.zeroExtend 64).toNat) (s.word p off).toNat
      (w.zeroExtend 64).toNat f)
    (hmask : (w.zeroExtend 64).toNat &&& fieldsMask x.reg.flds (fun _ => true) = (w.zeroExtend 64).toNat)
    (hgate : s.gated path.code p off (s.word p off) = (s.word p off, s)) (hstored : ∀ (t : State) (old : W32), t.stored p off old = t) :
    s.writeReg path p off x w =
      (if (x.reg.flds.any fun f => f.acc == .rw && f.beh) = true then s.setGen p else s).act path p off w (w.zeroExtend 64) := by
  have hfs : x.fields = x.reg.flds := by simp [WordAt.fields, hw]
  have h3 : x.reg.flds.isEmpty = false := by
    cases h : x.reg.flds with
    | nil => simp [h] at h1
    | cons => rfl
  have unbarred : ¬(s.bit p 0x008 0 = true ∧ (!(path == .sys0 || path == .sys1)) = true ∧
      (x.reg.flds.any fun f => f.acc == .rw && f.beh) = true) := by
    rintro ⟨locked, other, -⟩
    obtain h | rfl | rfl := hl <;> simp_all
  have stores : s.writeBlock path p off x w (w.zeroExtend 64) =
      (if (x.reg.flds.any fun f => f.acc == .rw && f.beh) = true then s.setGen p else s).act path p off w (w.zeroExtend 64) := by
    simp only [State.writeBlock, hcustom, hw, Bool.false_eq_true, if_false, storeFields_of_stands _ hst, hmask, bne_self_eq_false,
      BitVec.ofNat_toNat, BitVec.setWidth_eq, hgate, State.setWord_same, hstored]
  unfold State.writeReg
  simp only [hfs, hhi, Bool.false_eq_true, if_false, false_and, hw, h1, h3, hclaim]
  rw [if_neg (by omega), if_neg (by omega), if_neg (by omega), if_neg unbarred]
  split
  case h_6 => exact stores
  all_goals omega

theorem natBits_or_two_pow {lo w k : Nat} (n : Nat) (h : k < lo ∨ lo + w ≤ k) : natBits (n ||| 2 ^ k) lo w = natBits n lo w := by
  refine Nat.eq_of_testBit_eq fun i => ?_
  simp only [natBits, Nat.testBit_mod_two_pow, Nat.testBit_div_two_pow, Nat.testBit_or, Nat.testBit_two_pow]
  by_cases hi : i < w
  · have apart : k ≠ i + lo := by omega
    simp [apart]
  · simp [hi]

/-! ## RETRAIN (R365, R396) -/

theorem portPage_index (port : Fin 24) : 12 * (millOf (port.val / 12)).num + (Fin.ofNat 12 (port.val % 12)).val = port.val := by
  revert port
  decide

theorem State.setGen_word_of_ne {p q : Page} {off : Nat} (h : off ≠ 0x030) (hl : off < 0x1000) : (s.setGen p).word q off = s.word q off :=
  s.setWord_word_page p q _ off _ (by decide) hl (.inr h)

theorem State.setGen_tallyOf {p q : Page} {k : Nat} (hq : q ≠ .trust) (hk : k < 16) : (s.setGen p).tallyOf q k = s.tallyOf q k :=
  (s.setWord p 0x030 _).tally_tallyOf_of_ne (by decide) hk (.inl hq) 1

theorem State.countAccess_tallyOf (path : Path) {i : Nat} {q : Page} {k : Nat} (hi : i < 16) (hq : q ≠ .host) (hk : k < 16) :
    (s.countAccess path i).tallyOf q k = s.tallyOf q k := by
  unfold State.countAccess
  split
  · exact s.tally_tallyOf_of_ne hi hk (.inl hq) 1
  · rfl

/-- The word of PORT_CTL with RETRAIN beside its fields as they stand. -/
def State.retrainWord (p : Nat) : Nat := (s.word (portPage p) 0x100).toNat ||| 8

section
variable {p : Path} {port : Fin 24} (hm : s.fld (portPage port.val) 0x100 1 2 ≤ 2) (hc : s.fld (portPage port.val) 0x100 4 12 ≠ 0)
  (ho : s.unitOut (7, port.val) = false)
include hm hc ho

theorem State.portCtl_stands : ∀ f ∈ [rwn 0 1 1, rwi 1 2 2 0 2, wo 3 1, rwi 4 12 1024 1 4095], f.acc = .rw →
    FieldStands (s.refuses (portPage port.val) 0x100 (s.word (portPage port.val) 0x100).toNat (s.retrainWord port.val))
      (s.word (portPage port.val) 0x100).toNat (s.retrainWord port.val) f := by
  have kept (lo w : Nat) (h : 3 < lo ∨ lo + w ≤ 3) : natBits (s.retrainWord port.val) lo w = s.fld (portPage port.val) 0x100 lo w :=
    natBits_or_two_pow _ h
  have taken (f : Fld) : s.refuses (portPage port.val) 0x100 (s.word (portPage port.val) 0x100).toNat (s.retrainWord port.val) f = false := by
    have refuses : s.refuses (portPage port.val) 0x100 (s.word (portPage port.val) 0x100).toNat (s.retrainWord port.val) f =
        (f.lo == 0 && natBits (s.retrainWord port.val) 0 1 == 1 &&
          s.unitOut (7, 12 * (millOf (port.val / 12)).num + (Fin.ofNat 12 (port.val % 12)).val)) := rfl
    rw [refuses, portPage_index, ho, Bool.and_false]
  have below (lo w : Nat) : s.fld (portPage port.val) 0x100 lo w < 2 ^ w := Nat.mod_lt _ (Nat.two_pow_pos w)
  intro f hf hacc
  simp only [List.mem_cons, List.not_mem_nil, or_false] at hf
  obtain rfl | rfl | rfl | rfl := hf
  · exact ⟨kept 0 1 (by decide), Nat.zero_le _, Nat.le_of_lt_succ (below 0 1), taken _⟩
  · exact ⟨kept 1 2 (by decide), Nat.zero_le _, hm, taken _⟩
  · simp [wo] at hacc
  · exact ⟨kept 4 12 (by decide), Nat.pos_of_ne_zero hc, Nat.le_of_lt_succ (below 4 12), taken _⟩

variable (hl : Unlocked s p (portPage port.val)) (hw : (s.word (portPage port.val) 0x100).toNat < 2 ^ 16)
  (he : s.bit (portPage port.val) 0x100 0 = true) (hu : (s.port port.val).st = 2)
include hl hw he hu

/-- PORT_CTL written with RETRAIN stores every field as it stands, which counts as a write of its behavioural fields, and the port retrains. -/
theorem State.writeReg_portCtl {x : WordAt} (hx : wordAt (portPage port.val) 0x100 = some x) :
    s.writeReg p (portPage port.val) 0x100 x (BitVec.ofNat 32 (s.retrainWord port.val)) =
      (s.setGen (portPage port.val)).retrainPort port.val := by
  have bound : s.retrainWord port.val < 2 ^ 16 := Nat.or_lt_two_pow hw (by decide)
  have value : ((BitVec.ofNat 32 (s.retrainWord port.val)).zeroExtend 64).toNat = s.retrainWord port.val := by
    simp only [BitVec.truncate_eq_setWidth, BitVec.toNat_setWidth, BitVec.toNat_ofNat]
    omega
  have retrains : bitOf (BitVec.ofNat 32 (s.retrainWord port.val)) 3 = true := by
    have third : (s.retrainWord port.val).testBit 3 = true := by
      rw [State.retrainWord, Nat.testBit_or, Bool.or_eq_true]
      exact .inr rfl
    rw [Nat.testBit_eq_decide_div_mod_eq, decide_eq_true_eq] at third
    rw [bitOf, natBits, BitVec.toNat_ofNat, Nat.mod_eq_of_lt (bound.trans (by decide)), Nat.pow_one, third]
    rfl
  have enabled : (s.setGen (portPage port.val)).bit (portPage port.val) 0x100 0 = true := by
    rwa [State.bit, State.setGen_word_of_ne _ (by decide) (by decide)]
  have stays : (s.setGen (portPage port.val)).portEnable port.val = s.setGen (portPage port.val) := by
    have up : (s.setGen (portPage port.val)).port port.val = s.port port.val := rfl
    simp [State.portEnable, enabled, up, hu]
  obtain rfl := Option.some.inj hx
  rw [State.writeReg_of_stands s p _ _ _ _ (by decide) rfl rfl (by decide) hl rfl rfl (value.symm ▸ s.portCtl_stands hm hc ho) ?_ rfl
    fun _ _ => rfl]
  · have act (u : State) (w : W32) (v : W64) : u.act p (portPage port.val) 0x100 w v =
        if bitOf w 3 = true then (u.portEnable (12 * (millOf (port.val / 12)).num + (Fin.ofNat 12 (port.val % 12)).val)).retrainPort
          (12 * (millOf (port.val / 12)).num + (Fin.ofNat 12 (port.val % 12)).val)
        else u.portEnable (12 * (millOf (port.val / 12)).num + (Fin.ofNat 12 (port.val % 12)).val) := rfl
    rw [act, portPage_index, retrains, if_pos rfl]
    exact congrArg (State.retrainPort · port.val) stays
  · rw [value]
    exact (Nat.and_two_pow_sub_one_eq_mod _ 16).trans (Nat.mod_eq_of_lt bound)

/-- RETRAIN writes PORT_CTL through its path, and the port retrains (R365). -/
theorem retrain_of_up (ha : Accepts s p (portPage port.val)) :
    retrain p port s = ((s.countAccess p 5).setGen (portPage port.val)).retrainPort port.val := by
  have kept (o : Nat) : (s.countAccess p 5).word (portPage port.val) o = s.word (portPage port.val) o := s.countAccess_word p 5 _ o
  have same : (s.countAccess p 5).retrainWord port.val = s.retrainWord port.val := by rw [State.retrainWord, kept, State.retrainWord]
  have write : retrain p port s = s.regWrite p ((portPage port.val).base + 0x100) 32 (BitVec.ofNat 64 (s.retrainWord port.val)) := rfl
  rw [write, s.regWrite_word p (portPage port.val) 0x100 _ _ (by decide) (by decide) ha (by simp [inMsix, portPage]) rfl, loWord_ofNat, ← same]
  refine (s.countAccess p 5).writeReg_portCtl ?_ ?_ ?_ ?_ ?_ ?_ ?_ rfl
  · rwa [State.fld, kept]
  · rwa [State.fld, kept]
  · rw [State.countAccess_eq]
    exact ho
  · rwa [Unlocked, State.bit, kept]
  · rwa [kept]
  · rwa [State.bit, kept]
  · rw [State.countAccess_eq]
    exact hu

end

theorem State.onPort_onPort (p : Nat) (f g : LeatPort → LeatPort) : (s.onPort p f).onPort p g = s.onPort p (g ∘ f) := by
  simp [State.onPort, listOn, List.modify_modify_eq]

theorem State.retrainPort_of_up {p : Nat} (h : (s.port p).st = 2) :
    s.retrainPort p = (s.onPort p fun x => { x with st := 3, width := 0, badLanes := 0 }).tally (portPage p) 11 1 := by
  simp only [State.retrainPort, h, if_true, State.portRetrain, State.onPort_onPort]
  exact if_neg (by simp)

/-- The count of the access and of a stored setting leaves the ports, the memory, PORT_CTL and the retrains counted. -/
theorem State.countAccess_setGen_frame (p : Path) (port : Fin 24) :
    ((s.countAccess p 5).setGen (portPage port.val)).leat = s.leat ∧ ((s.countAccess p 5).setGen (portPage port.val)).mem = s.mem ∧
      ((s.countAccess p 5).setGen (portPage port.val)).word (portPage port.val) 0x100 = s.word (portPage port.val) 0x100 ∧
      ((s.countAccess p 5).setGen (portPage port.val)).tallyOf (portPage port.val) 11 = s.tallyOf (portPage port.val) 11 :=
  ⟨show (s.countAccess p 5).leat = s.leat by rw [State.countAccess_eq], s.countAccess_mem p 5,
    (State.setGen_word_of_ne _ (by decide) (by decide)).trans (s.countAccess_word p 5 _ _),
    (State.setGen_tallyOf _ (by simp [portPage]) (by decide)).trans (s.countAccess_tallyOf p (by decide) (by simp [portPage]) (by decide))⟩

/-- Settles O45: a codeword by its CRC, its type and its number, the replay by what is not acknowledged, training by the lanes that lock,
and RETRAIN as the write of PORT_CTL that stores its fields as they stand. That a port answers every flit it takes, and how it counts the
positions of its frame, are the model's choices (log entry 42). -/
theorem leatPortsRetryAndTrain : Obligations.LeatPortsRetryAndTrain := by
  unfold Obligations.LeatPortsRetryAndTrain
  refine ⟨fun port s hs hu hi => ⟨fun codes => ?lost, fun hdr pl corrected codes => ?flit, fun h => ?acknowledged, fun f rest h => ?timeout,
    fun hp lane h => ?drop⟩, fun p w s => rfl, fun port s hp hr hd he ho => ?attempt,
    fun port lanes partner w s hp hr hw hl ht => ?trained, fun p port s ha hl hw he hm hc ho hu => ?retrain⟩
  case lost => exact congrArg Host.Outcome.next (flitReceive_lost s hs hu hi codes)
  case flit =>
    have receives : exec (.flitReceive port ⟨.flit hdr pl corrected, codes⟩) s =
        .next (flitReceive port (.flit hdr pl corrected) codes s) := rfl
    rw [flitReceive_flit s hs hu hi] at receives
    refine ⟨fun hcrc => receives.trans (congrArg Host.Outcome.next (if_pos hcrc)), fun hcrc hlink => receives.trans ?_,
      fun hcrc hlink hseq => receives.trans ?_, fun hcrc hlink hseq => receives.trans ?_⟩
    · exact congrArg Host.Outcome.next ((if_neg (not_not.2 hcrc)).trans (if_pos hlink))
    · have sequenced : linkOnly (parseFlit hdr).type_ ≠ true := by simp [hlink]
      exact congrArg Host.Outcome.next ((if_neg (not_not.2 hcrc)).trans ((if_neg sequenced).trans (if_pos hseq)))
    · have sequenced : linkOnly (parseFlit hdr).type_ ≠ true := by simp [hlink]
      exact congrArg Host.Outcome.next ((if_neg (not_not.2 hcrc)).trans ((if_neg sequenced).trans (if_neg (not_not.2 hseq))))
  case acknowledged => exact congrArg Host.Outcome.next (ackTimeout_of_none s h)
  case timeout => exact congrArg Host.Outcome.next (ackTimeout_of_unacknowledged s hu hs h)
  case drop => exact congrArg Host.Outcome.next (laneDrop_of_used s hu hi hp h)
  case attempt => exact congrArg Host.Outcome.next (trainAttempt_of_down s hp hr hd he ho)
  case trained => exact congrArg Host.Outcome.next (portTrainDone_of_locked s partner hp hr hw hl ht)
  case retrain =>
    obtain ⟨leat, mem, word, tally⟩ := s.countAccess_setGen_frame p port
    have ports (q : Nat) : ((s.countAccess p 5).setGen (portPage port.val)).port q = s.port q := by rw [State.port, leat, State.port]
    have up : (((s.countAccess p 5).setGen (portPage port.val)).port port.val).st = 2 := by rw [ports, hu]
    have retrained := State.onPort_port _ (fun x => { x with st := 3, width := 0, badLanes := 0 }) (State.port_ne_reset _ up)
    refine ⟨_, congrArg Host.Outcome.next ((retrain_of_up s hm hc ho hl hw he hu ha).trans (State.retrainPort_of_up _ up)),
      congrArg LeatPort.st retrained, congrArg LeatPort.width retrained, congrArg LeatPort.badLanes retrained, word,
      (State.tally_tallyOf_self _ _ 11 1).trans (congrArg (· + 1) tally), mem, fun q hq => ?_⟩
    exact (State.onPort_port_of_ne _ _ hq).trans (ports q)

end Sys2Proof.Machine
end

section
/-! PROOFS of 10_leat.md: groups, routes and the module's time (R374, R384, R391 to R396). -/

namespace Sys2Proof.Machine

variable (s : State)

/-! ## GROUP_LOAD (R374) -/

theorem act_groupLoad (path : Path) (w : W32) (v : W64) : s.act path .leat 0x110 w v =
    (fun s : State => if bitOf w 13 then s.groupDrop (bitsOf w 0 12) else s)
      (if bitOf w 12 then s.groupLoad (bitsOf w 0 12) else s) := rfl

/-- A word of GROUP_LOAD that names a group, with LOAD in bit 12 and DROP in bit 13. -/
theorem groupLoad_word (g : BitVec 12) {a : Nat} (ha : a < 4) :
    bitsOf (BitVec.ofNat 32 (g.toNat + 0x1000 * a)) 0 12 = g.toNat ∧ bitOf (BitVec.ofNat 32 (g.toNat + 0x1000 * a)) 12 = (a % 2 == 1) ∧
      bitOf (BitVec.ofNat 32 (g.toNat + 0x1000 * a)) 13 = (a / 2 == 1) := by
  have bound := g.isLt
  have word : (BitVec.ofNat 32 (g.toNat + 0x1000 * a)).toNat = g.toNat + 0x1000 * a := Nat.mod_eq_of_lt (by omega)
  refine ⟨?_, ?_, ?_⟩
  · rw [bitsOf, natBits, word]
    omega
  · rw [bitOf, natBits, word, show (g.toNat + 0x1000 * a) / 2 ^ 12 % 2 ^ 1 = a % 2 by omega]
  · rw [bitOf, natBits, word, show (g.toNat + 0x1000 * a) / 2 ^ 13 % 2 ^ 1 = a / 2 by omega]

/-- A write of GROUP_LOAD that names a group (R396): LOAD, then DROP. -/
theorem State.regWrite_groupLoad {p : Path} (ha : Accepts s p .leat) (g : BitVec 12) {a : Nat} (h : a < 4) :
    s.regWrite p (Page.base .leat + 0x110) 32 (BitVec.ofNat 64 (g.toNat + 0x1000 * a)) =
      (fun s : State => if (a / 2 == 1) = true then s.groupDrop g.toNat else s)
        (if (a % 2 == 1) = true then (s.countAccess p 5).groupLoad g.toNat else s.countAccess p 5) := by
  have bound := g.isLt
  obtain ⟨named, load, drop⟩ := groupLoad_word g h
  have value : ((BitVec.ofNat 32 (g.toNat + 0x1000 * a)).zeroExtend 64).toNat = g.toNat + 0x1000 * a := by
    simp only [BitVec.truncate_eq_setWidth, BitVec.toNat_setWidth, BitVec.toNat_ofNat]
    omega
  have mask : ((BitVec.ofNat 32 (g.toNat + 0x1000 * a)).zeroExtend 64).toNat &&& 2 ^ 17 - 1 =
      ((BitVec.ofNat 32 (g.toNat + 0x1000 * a)).zeroExtend 64).toNat := by
    rw [value, Nat.and_two_pow_sub_one_eq_mod, Nat.mod_eq_of_lt (by omega)]
  rw [State.regWrite_action s p .leat 0x110 _ _ (by decide) (by decide) (by decide) ha (by simp [inMsix]) rfl rfl (by decide) (by decide)
    rfl _ (loWord_ofNat _) (by exact mask) rfl rfl (fun _ _ => rfl) (fun _ _ => rfl), act_groupLoad, named, load, drop]

theorem groupLoad_eq {p : Path} (ha : Accepts s p .leat) (g : BitVec 12) (codes : List Ecc) :
    groupLoad p g codes s = s.coded codes fun u => (u.countAccess p 5).groupLoad g.toNat := by
  have accepts : Accepts { s with codes := codes } p .leat := ha
  exact congrArg (fun t : State => { t with codes := [] }) (State.regWrite_groupLoad _ accepts g (a := 1) (by decide))

theorem drop_eq {p : Path} (ha : Accepts s p .leat) (g : BitVec 12) : drop p g s = (s.countAccess p 5).groupDrop g.toNat :=
  State.regWrite_groupLoad s ha g (a := 2) (by decide)

theorem State.codes_countAccess (codes : List Ecc) (p : Path) (k : Nat) :
    ({ s with codes := codes } : State).countAccess p k = { s.countAccess p k with codes := codes } := by
  unfold State.countAccess
  split <;> rfl

/-! ## What the end of a group's operations leaves of memory (R384) -/

theorem State.report_mem (m : MillId) (f : FaultInfo) (h : f.kind = .contract ∨ f.kind = .command) : (s.report m f).mem = s.mem := by
  unfold State.report
  obtain h | h := h <;> simp [h]

theorem OnlyEvents.mem {s t : State} (h : OnlyEvents s t) : t.mem = s.mem := by
  obtain ⟨_, _, _, _, _, _, _, rfl⟩ := onlyEvents_iff.1 h
  rfl

theorem OnlyEvents.setWord64 (p : Page) (off : Nat) (v : W64) : OnlyEvents s (s.setWord64 p off v) :=
  (OnlyEvents.setWord s _ _ _).trans (OnlyEvents.setWord _ _ _ _)

theorem OnlyEvents.leatRecord (group rank cause step : Nat) (seq : W32) : OnlyEvents s (s.leatRecord group rank cause step seq) :=
  OnlyEvents.record s .leat 0x150 _
    ((OnlyEvents.setWord s _ _ _).trans ((OnlyEvents.setWord _ _ _ _).trans (OnlyEvents.setWord64 _ _ _ _)))

theorem OnlyEvents.parkRecord (m : MillId) (off : Nat) (t : Transfer) (cause side addr c : Nat) :
    OnlyEvents s (s.parkRecord m off t cause side addr c) :=
  (OnlyEvents.setWord s _ _ _).trans ((OnlyEvents.setWord _ _ _ _).trans ((OnlyEvents.setWord64 _ _ _ _).trans
    ((OnlyEvents.setWord _ _ _ _).trans ((OnlyEvents.forAll _ _ fun _ _ => OnlyEvents.setWord _ _ _ _).trans (OnlyEvents.setWord64 _ _ _ _)))))

theorem State.leatFault_mem (m : MillId) (system : Bool) (group rank cause step : Nat) (pc : W64) (slot : Nat) :
    (s.leatFault m system group rank cause step pc slot).mem = s.mem := by
  unfold State.leatFault
  extract_lets raised noted
  have hr : raised.mem = s.mem := by
    unfold raised
    split <;> simp
  refine (noted.report_mem m _ ?_).trans ((OnlyEvents.leatRecord raised _ _ _ _ _).mem.trans hr)
  dsimp only
  split <;> simp

theorem State.sluFault_mem (m : MillId) (q : Nat) (t : Transfer) (cause side addr c : Nat) (contract injected : Bool) :
    (s.sluFault m q t cause side addr c contract injected).mem = s.mem := by
  unfold State.sluFault
  extract_lets noted raised
  have hn : noted.mem = s.mem := (OnlyEvents.record s (.sluice m) 0x184 _ (OnlyEvents.parkRecord s m 0x180 t cause side addr c)).mem
  refine (raised.report_mem m _ ?_).trans ((OnlyEvents.raise noted (.sluice m) 1).mem.trans hn)
  dsimp only
  split <;> simp

@[simp] theorem State.onQueue_mem (m : MillId) (q : Nat) (f : SluQueue → SluQueue) : (s.onQueue m q f).mem = s.mem := by
  rw [State.onQueue, State.onSluice_eq, State.onMill_mem]

@[simp] theorem State.enginePost_mem (m : MillId) (c : Ctx) (ctr n : Nat) : (s.enginePost m c ctr n).mem = s.mem := by
  simp [State.enginePost, State.post, State.ctrlMsg]

theorem State.leaveQueue_mem (m : MillId) (q : Nat) (t : Transfer) : (s.leaveQueue m q t).mem = s.mem := by
  unfold State.leaveQueue
  extract_lets left counted
  have hl : left.mem = s.mem := s.onQueue_mem m q _
  have hc : counted.mem = s.mem := hl
  split
  · exact (left.sluFault_mem _ _ _ _ _ _ _ _ _).trans hl
  · split
    · rw [State.onRace_eq, State.onMill_mem, hc]
    · exact hc

theorem State.postXfer_mem (m : MillId) (q : Nat) (t : Transfer) : (s.postXfer m q t).mem = s.mem := by
  unfold State.postXfer
  obtain ⟨k, ends⟩ := t.due
  simp only []
  split
  · rw [State.leaveQueue_mem]
    split <;> simp
  · split <;> simp

theorem State.postQueue_mem (m : MillId) (q : Nat) : (s.postQueue m q).mem = s.mem := by
  refine State.forAll_part s State.mem _ _ fun s id => ?_
  dsimp only
  split
  · rfl
  · next t _ =>
    split
    · rfl
    · split
      · rfl
      · exact s.postXfer_mem m q t

theorem State.endOp_mem (g : Nat) (o : ChannelOp) : (s.endOp g o).mem = s.mem := by
  rw [State.endOp, State.postQueue_mem, State.onQueue, State.onSluice_eq, State.onMill_mem]
  rfl

theorem State.endGroupOps_mem (g : Group) : (s.endGroupOps g).mem = s.mem := by
  refine State.forAll_part s State.mem _ _ fun s o => ?_
  dsimp only
  split
  · exact s.endOp_mem g.idx o
  · exact (State.leatFault_mem _ _ _ _ _ _ _ _ _).trans (s.endOp_mem g.idx o)

theorem State.groupDrop_mem (gi : Nat) : (s.groupDrop gi).mem = s.mem := by
  unfold State.groupDrop
  split
  · rfl
  · next g _ => exact s.endGroupOps_mem g

theorem State.groupDrop_group (gi : Nat) : (s.groupDrop gi).group gi = none := by
  unfold State.groupDrop
  split
  · next h => exact h
  · simp [State.group]

/-! ## ROUTE_DATA (R396) -/

/-- Where no flit waits, a retry of those that are blocked changes only which neighbours are. -/
theorem State.retryBlocked_of_none_held (h : s.leat.held = []) :
    s.retryBlocked = { s with leat := { s.leat with blocked := s.leat.blocked.filter fun nb => (s.livePorts nb).isEmpty } } := by
  simp only [State.retryBlocked, h]
  rfl

theorem State.putFld_fld (p : Page) (off : Nat) {lo w : Nat} (v : Nat) (h : lo + w ≤ 32) :
    (s.putFld p off lo w v).fld p off lo w = v % 2 ^ w := by
  have same : s.putFld p off lo w v = s.putFld p off lo w (v % 2 ^ w) := by simp [State.putFld, putBits]
  rw [same, s.putFld_fld_self p off h (Nat.mod_lt _ (Nat.two_pow_pos w))]

/-- What the write of an entry of the route table leaves, where no flit waits for a route. -/
theorem State.routeWrite_of_none_held (h : s.leat.held = []) (w : W32) :
    (s.routeWrite w).leat.routes = cellSet 0 (s.fld .leat 0x118 0 16) w s.leat.routes ∧
      (s.routeWrite w).fld .leat 0x118 0 16 = (s.fld .leat 0x118 0 16 + 1) % 65536 ∧ (s.routeWrite w).mem = s.mem ∧
      (s.routeWrite w).leat.groups = s.leat.groups ∧ (s.routeWrite w).leat.ports = s.leat.ports := by
  unfold State.routeWrite
  extract_lets i leat written
  rw [State.retryBlocked_of_none_held _ (show (written.putFld .leat 0x118 0 16 (i + 1)).leat.held = [] from h)]
  exact ⟨rfl, written.putFld_fld .leat 0x118 (i + 1) (by decide), rfl, rfl, rfl⟩

/-- A write of a 32-bit register that no plain store holds, and that has no behavioural field, is what the register makes of it. -/
theorem State.writeReg_custom (path : Path) (p : Page) (off : Nat) (x : WordAt) {w : W32} {t : State} (ho : 0x100 ≤ off)
    (hw : x.reg.wide = false) (hhi : x.hi = false) (h1 : (x.reg.flds.all fun f => f.acc == .ro || f.acc == .rc) = false)
    (hb : (x.reg.flds.any fun f => f.acc == .rw && f.beh) = false) (hclaim : s.needsClaim path p off = none)
    (hcustom : s.writeCustom path p off w = some t) : s.writeReg path p off x w = t := by
  have hfs : x.fields = x.reg.flds := by simp [WordAt.fields, hw]
  have h3 : x.reg.flds.isEmpty = false := by
    cases h : x.reg.flds with
    | nil => simp [h] at h1
    | cons => rfl
  have writes : s.writeBlock path p off x w (w.zeroExtend 64) = t := by simp only [State.writeBlock, hcustom]
  unfold State.writeReg
  simp only [hfs, hhi, Bool.false_eq_true, if_false, false_and, and_false, hw, h1, h3, hclaim, hb]
  rw [if_neg (by omega), if_neg (by omega), if_neg (by omega)]
  split
  case h_6 => exact writes
  all_goals omega

theorem routeData_eq {p : Path} (ha : Accepts s p .leat) {w : W32} (hw : w.toNat < 2 ^ 18) :
    routeData p w s = (s.countAccess p 5).routeWrite w := by
  have spare : bitsOf w 18 14 = 0 := by
    rw [bitsOf, natBits]
    omega
  have stored : BitVec.ofNat 32 (bitsOf w 0 18) = w := by
    refine BitVec.eq_of_toNat_eq ?_
    rw [BitVec.toNat_ofNat, bitsOf, natBits]
    omega
  have custom (u : State) : u.writeCustom p .leat 0x11C w = some (u.routeWrite w) := by
    simp [State.writeCustom, spare, stored]
  rw [routeData, State.regWrite_word s p .leat 0x11C _ _ (by decide) (by decide) ha (by simp [inMsix]) rfl, loWord_zeroExtend]
  exact State.writeReg_custom _ p .leat 0x11C _ (by decide) rfl rfl (by decide) (by decide) rfl (custom _)

/-! ## What an event leaves of the tallies of other pages -/

/-- The pages whose tallies an event can add to, whatever page raises it. -/
def countsEvents : Page → Bool
  | .host => true
  | .log _ => true
  | .floor _ _ => true
  | _ => false

section
variable {q : Page} {i : Nat} (hq : countsEvents q = false) (hi : i < 16)
include hq hi

theorem State.tally_tallyOf_of_countsEvents {p : Page} {k : Nat} (hp : countsEvents p = true) (hk : k < 16) (n : Nat) :
    (s.tally p k n).tallyOf q i = s.tallyOf q i :=
  s.tally_tallyOf_of_ne hk hi (.inl fun same => by simp [same, hp] at hq) n

theorem State.trigOnEvent_tallyOf (m : MillId) (p : Page) (bit : Nat) : (s.trigOnEvent m p bit).tallyOf q i = s.tallyOf q i := by
  have counted := s.tally_tallyOf_of_countsEvents hq hi (p := .log m) (k := 5) rfl (by decide) 1
  unfold State.trigOnEvent State.logTrigger
  split
  · split
    · simp [State.tallyOf]
    · exact counted
    · exact counted
    · rfl
    · rfl
  · rfl

theorem State.toSystem_tallyOf (p : Page) (bit : Nat) (nmi : Bool) : (s.toSystem p bit nmi).tallyOf q i = s.tallyOf q i := by
  refine State.forAll_part s (·.tallyOf q i) _ _ fun s m => ?_
  have counted := s.tally_tallyOf_of_countsEvents hq hi (p := .floor m 0) (k := 6) rfl (by decide) 1
  simpa [State.tallyOf, State.ctrlMsg] using counted

theorem State.sendRoute_tallyOf (r : Nat) : (s.sendRoute r).tallyOf q i = s.tallyOf q i := by
  have sends (v : Nat) : (s.hostSend (.msix v)).tallyOf q i = s.tallyOf q i := by
    unfold State.hostSend
    split
    · rfl
    · split
      · rfl
      · exact State.tally_tallyOf_of_countsEvents _ hq hi (p := .host) (k := 6) rfl (by decide) 1
  unfold State.sendRoute State.sendMsix
  split
  · split
    · rfl
    · split
      · rfl
      · exact sends _
  · rfl

theorem State.fifoFull_tallyOf : s.fifoFull.tallyOf q i = s.tallyOf q i := by
  have counted (t : State) : (t.tally .host 9 1).tallyOf q i = t.tallyOf q i :=
    t.tally_tallyOf_of_countsEvents hq hi (p := .host) rfl (by decide) 1
  unfold State.fifoFull
  extract_lets full port lost marked noted told
  have hn : noted.tallyOf q i = s.tallyOf q i := (State.trigOnEvent_tallyOf _ hq hi .m1 _ _).trans
    ((State.trigOnEvent_tallyOf marked hq hi .m0 _ _).trans (counted s))
  have ht : told.tallyOf q i = s.tallyOf q i := (noted.toSystem_tallyOf hq hi _ _ _).trans hn
  split
  · exact counted s
  · split
    · exact counted s
    · split
      · split
        · exact (State.sendRoute_tallyOf _ hq hi _).trans ((counted told).trans ht)
        · exact ht
      · exact hn

theorem State.toHost_tallyOf (p : Page) (bit : Nat) : (s.toHost p bit).tallyOf q i = s.tallyOf q i := by
  unfold State.toHost
  split
  · rfl
  · split
    · refine (State.sendRoute_tallyOf _ hq hi _).trans ?_
      split
      · exact State.tally_tallyOf_of_countsEvents _ hq hi (p := .host) rfl (by decide) 1
      · exact s.fifoFull_tallyOf hq hi
    · rfl

theorem State.raise_tallyOf (p : Page) (bit : Nat) : (s.raise p bit).tallyOf q i = s.tallyOf q i := by
  unfold State.raise
  extract_lets marked noted
  have hn : noted.tallyOf q i = s.tallyOf q i := (State.trigOnEvent_tallyOf _ hq hi .m1 p bit).trans
    (marked.trigOnEvent_tallyOf hq hi .m0 p bit)
  split
  · rfl
  · split
    · exact (State.toHost_tallyOf _ hq hi _ _).trans ((noted.toSystem_tallyOf hq hi _ _ _).trans hn)
    · split
      · exact (noted.toSystem_tallyOf hq hi _ _ _).trans hn
      · exact hn

end

/-- REG_ACCESS_ERR counts one access in the directory (R598). -/
theorem State.accessErr_tallyOf (hp : s.pageLive .directory = true) (p : Path) (off : Nat) (write : Bool) (data : W32) (c : AccCause) :
    (s.accessErr p off write data c).tallyOf .directory 0 = s.tallyOf .directory 0 + 1 := by
  unfold State.accessErr
  rw [if_neg (by simp [hp])]
  refine (State.raise_tallyOf _ rfl (by decide) _ _).trans (Eq.trans ?_ (s.tally_tallyOf_self .directory 0 1))
  unfold State.record
  split <;> rfl

theorem State.pageLive_directory : s.pageLive .directory = decide (3 ≤ s.supply.stage) := rfl

/-- The directory lies on the always-on island (R527). -/
theorem State.directory_live_of_leat (h : s.pageLive .leat = true) : s.pageLive .directory = true := by
  simp [State.pageLive, Page.island, State.corePower, Page.mill?] at h ⊢
  omega

/-! ## TIME_SET (R391, R392) -/

/-- The state in which a path has written the low word of TIME_SET. -/
def State.timeLow (p : Path) (v : W64) : State :=
  (s.countAccess p 5).onPath p fun y => { y with wrLow := cellSet 0 (Page.base .leat + 0x130) (loWord v) y.wrLow }

theorem Accepts.onPath {s : State} {p q : Path} {page : Page} (ha : Accepts s p page) (f : PathState → PathState) :
    Accepts (s.onPath q f) p page := by
  cases q <;> exact ha

theorem Accepts.countAccess {s : State} {p : Path} {page : Page} (ha : Accepts s p page) (q : Path) (k : Nat) :
    Accepts (s.countAccess q k) p page := by
  rw [State.countAccess_eq]
  exact ha

/-- A write of a word at an offset of a page that accepts it is the write of that word by its table entry. -/
theorem State.writeWord_of_accepts {p : Path} {page : Page} (ha : Accepts s p page) {off : Nat} {x : WordAt} (w : W32) (ho : off < 0x1000)
    (hm : inMsix p page off = false) (hx : wordAt page off = some x) : s.writeWord p (page.base + off) w = s.writeReg p page off x w := by
  obtain ⟨-, hlive, hinj⟩ := ha
  simp only [State.writeWord, State.accessInjected_of _ _ hinj, pageAt_base page off ho, Page.base_add_mod page off ho, hlive, hm, hx,
    Bool.not_true, Bool.false_eq_true, if_false]

/-- The low word of a 64-bit register is kept until its high word comes (R13). -/
theorem State.writeReg_timeLow {p : Path} {x : WordAt} (hx : wordAt .leat 0x130 = some x) (w : W32) :
    s.writeReg p .leat 0x130 x w = s.onPath p fun y => { y with wrLow := cellSet 0 (Page.base .leat + 0x130) w y.wrLow } := by
  obtain rfl := Option.some.inj hx
  rfl

theorem mkWord64_toNat (h l : W32) : (mkWord64 h l).toNat = 2 ^ 32 * h.toNat + l.toNat := by
  rw [mkWord64, BitVec.toNat_append, Nat.shiftLeft_eq, Nat.mul_comm, Nat.two_pow_add_eq_or_of_lt l.isLt]

theorem State.setWord64_same (p : Page) (off : Nat) : s.setWord64 p off (s.word64 p off) = s := by
  have lo : loWord (s.word64 p off) = s.word p off := by
    refine BitVec.eq_of_toNat_eq ?_
    rw [loWord, BitVec.toNat_ofNat, State.word64, mkWord64_toNat]
    omega
  have hi : hiWord (s.word64 p off) = s.word p (off + 4) := by
    refine BitVec.eq_of_toNat_eq ?_
    rw [hiWord, BitVec.toNat_ofNat, State.word64, mkWord64_toNat]
    omega
  rw [State.setWord64, lo, hi, State.setWord_same, State.setWord_same]

/-- The high word of a 64-bit register that has actions and no read-write field completes the register's value (R13): it is its actions. -/
theorem State.writeReg_wideAction (path : Path) (p : Page) (off : Nat) (x : WordAt) {w : W32} {v : W64} (ho : 0x100 ≤ off)
    (hv : mkWord64 w (cellGet 0 (p.base + off) (s.path path).wrLow) = v) (hw : x.reg.wide = true) (hhi : x.hi = true)
    (he : x.fields.isEmpty = false) (h1 : (x.fields.all fun f => f.acc == .ro || f.acc == .rc) = false) (hwo : ∀ f ∈ x.reg.flds, f.acc ≠ .rw)
    (hmask : v.toNat &&& fieldsMask x.reg.flds (fun _ => true) = v.toNat) (hclaim : s.needsClaim path p off = none)
    (hcustom : s.writeCustom path p off w = none) (hstored : s.stored p off (s.word p off) = s) :
    s.writeReg path p (off + 4) x w = s.act path p off w v := by
  have unlocked : (x.reg.flds.any fun f => f.acc == .rw && f.beh) = false := by
    rw [List.any_eq_false]
    intro f hf
    simp [hwo f hf]
  have acts : s.writeBlock path p off x w v = s.act path p off w v := by
    simp only [State.writeBlock, hcustom, hw, if_true, storeFields_none _ _ _ _ hwo, hmask, bne_self_eq_false, Bool.false_eq_true, if_false,
      BitVec.ofNat_toNat, BitVec.setWidth_eq, State.setWord64_same, hstored]
  unfold State.writeReg
  simp only [hhi, if_true, Nat.add_sub_cancel, ← Nat.add_assoc, he, h1, hclaim, hw, unlocked, hv, Bool.false_eq_true, Bool.true_eq_false,
    if_false, and_false]
  rw [if_neg (by omega), if_neg (by omega), if_neg (by omega)]
  split
  case h_6 => exact acts
  all_goals omega

theorem timeSet_eq {p : Path} (ha : Accepts s p .leat) (v : W64) :
    timeSet p v s = (s.timeLow p v).act p .leat 0x130 (hiWord v) v := by
  have counted := ha.countAccess p 5
  have low : (s.countAccess p 5).writeWord p (Page.base .leat + 0x130) (loWord v) = s.timeLow p v :=
    ((s.countAccess p 5).writeWord_of_accepts counted _ (by decide) (by simp [inMsix]) rfl).trans (State.writeReg_timeLow _ rfl _)
  have value : mkWord64 (hiWord v) (cellGet 0 (Page.base .leat + 0x130) ((s.timeLow p v).path p).wrLow) = v := by
    rw [State.timeLow, State.onPath_path, cellGet_cellSet_self, mkWord64_hiWord_loWord]
  have whole : v.toNat &&& 2 ^ 64 - 1 = v.toNat := (Nat.and_two_pow_sub_one_eq_mod _ 64).trans (Nat.mod_eq_of_lt v.isLt)
  have high : (s.timeLow p v).writeWord p (Page.base .leat + 0x134) (hiWord v) = (s.timeLow p v).act p .leat 0x130 (hiWord v) v :=
    ((s.timeLow p v).writeWord_of_accepts (counted.onPath _) (hiWord v) (by decide) (by simp [inMsix]) rfl).trans
      (State.writeReg_wideAction _ p .leat 0x130 _ (by decide) value rfl rfl (by decide) (by decide) (by decide) (by exact whole) rfl rfl rfl)
  have opens : s.pathOpen p = true := ha.1
  have counts : (if p = .pcie then s.tally .host 5 1 else s) = s.countAccess p 5 := rfl
  simp only [timeSet, State.regWrite, opens, counts, Bool.not_true, Bool.false_eq_true, if_false]
  rw [if_neg (by decide), if_pos trivial, low]
  exact high

theorem act_timeSet (path : Path) (w : W32) (v : W64) : s.act path .leat 0x130 w v =
    if (s.timeSetWrite v).1 = true then (s.timeSetWrite v).2
    else (s.timeSetWrite v).2.accessErr path (Page.base .leat + 0x130) true w .value := rfl

theorem State.timeLow_frame (p : Path) (v : W64) : (s.timeLow p v).leat = s.leat ∧ (s.timeLow p v).time = s.time ∧
    (s.timeLow p v).mem = s.mem ∧ (s.timeLow p v).inj = s.inj ∧ (s.timeLow p v).supply = s.supply ∧
    (∀ q o, (s.timeLow p v).word q o = s.word q o) ∧ (s.timeLow p v).tallyOf .directory 0 = s.tallyOf .directory 0 := by
  have tallies : (s.timeLow p v).tallyOf .directory 0 = (s.countAccess p 5).tallyOf .directory 0 := by
    rw [State.timeLow, State.tallyOf, State.onPath_tallies, State.tallyOf]
  refine ⟨?_, ?_, ?_, ?_, ?_, fun q o => ?_, tallies.trans (s.countAccess_tallyOf p (by decide) (by simp) (by decide))⟩
  · rw [State.timeLow, State.onPath_leat, State.countAccess_eq]
  · rw [State.timeLow, State.onPath_time, State.countAccess_eq]
  · rw [State.timeLow, State.onPath_mem, State.countAccess_eq]
  · rw [State.timeLow, State.onPath_inj, State.countAccess_eq]
  · rw [State.timeLow, State.onPath_supply, State.countAccess_eq]
  · rw [State.timeLow, State.onPath_word, State.countAccess_word]

theorem State.timeLow_ids (p : Path) (v : W64) : (s.timeLow p v).moduleId = s.moduleId ∧
    (s.timeLow p v).fld .leat 0x138 0 16 = s.fld .leat 0x138 0 16 := by
  obtain ⟨-, -, -, -, -, word, -⟩ := s.timeLow_frame p v
  exact ⟨by rw [State.moduleId, State.fld, word, State.moduleId, State.fld], by rw [State.fld, word, State.fld]⟩

section
variable {p : Path} (ha : Accepts s p .leat) (v : W64)
include ha

/-- The root's count is set while the module has no valid time. -/
theorem timeSet_of_invalid_root (hv : s.leat.timeValid = false) (hm : s.moduleId = s.fld .leat 0x138 0 16) :
    timeSet p v s = { s.timeLow p v with time := v, leat := { s.leat with timeValid := true, slew := 0 } } := by
  obtain ⟨leat, -⟩ := s.timeLow_frame p v
  obtain ⟨self, root⟩ := s.timeLow_ids p v
  have accepted : (s.timeLow p v).timeSetWrite v =
      (true, { s.timeLow p v with time := v, leat := { s.leat with timeValid := true, slew := 0 } }) := by
    simp [State.timeSetWrite, leat, self, root, hv, hm]
  rw [timeSet_eq s ha, act_timeSet, accepted, if_pos rfl]

theorem timeSet_of_valid_or_member (h : s.leat.timeValid = true ∨ s.moduleId ≠ s.fld .leat 0x138 0 16) :
    timeSet p v s = (s.timeLow p v).accessErr p (Page.base .leat + 0x130) true (hiWord v) .value := by
  obtain ⟨leat, -⟩ := s.timeLow_frame p v
  obtain ⟨self, root⟩ := s.timeLow_ids p v
  have refused : (s.timeLow p v).timeSetWrite v = (false, s.timeLow p v) := by
    obtain h | h := h <;> simp [State.timeSetWrite, leat, self, root, h]
  rw [timeSet_eq s ha, act_timeSet, refused, if_neg Bool.false_ne_true]

end

/-! ## TIME_LOST and TIME_SYNC_TICK (R391, R393) -/

theorem timeLost_of_member (hm : s.moduleId ≠ s.fld .leat 0x138 0 16) (hv : s.leat.timeValid = true) : timeLost s =
    ({ s with leat := { s.leat with timeValid := false, slew := 0 } } : State).raise .leat 7 := by
  rw [timeLost, if_neg hm, State.loseTime, if_pos hv]

theorem timeLost_of_root_or_invalid (h : s.moduleId = s.fld .leat 0x138 0 16 ∨ s.leat.timeValid = false) : timeLost s = s := by
  unfold timeLost State.loseTime
  split
  · rfl
  · next hm => rw [h.resolve_left hm, if_neg Bool.false_ne_true]

theorem timeSyncTick_of_parent {q : Nat} (hs : s.halted = false) (ht : s.timeRuns = true) (hm : s.moduleId ≠ 0xFFFF)
    (hq : s.parentPort = some q) : timeSyncTick s = s.sendLink q 6 (leBytes 8 0 ++ leBytes 8 s.time.toNat) := by
  simp [timeSyncTick, hs, ht, hm, hq]

/-! ## MEMBER_SUSPECT and WRAP_NEAR (R384, R394) -/

theorem memberSuspect_of_waited {group : BitVec 12} {rank : BitVec 16} {g : Group} (hg : s.group group.toNat = some g)
    (hi : s.injects .leat 3 = false) (hr : rank.toNat < g.nmemb) (hw : ∃ o ∈ g.ops, (g.waitsOn o).contains rank.toNat = true) :
    memberSuspect group rank s = ((s.tally .leat 14 1).leatRecord g.idx rank.toNat 5 g.open_ 0).raise .leat 0 := by
  have waited : (g.ops.any fun o => (g.waitsOn o).contains rank.toNat) = true := List.any_eq_true.2 hw
  simp only [memberSuspect, hg, hi, waited, Bool.false_eq_true, if_false, Bool.or_true, Bool.and_true, decide_eq_true hr, if_true]

theorem wrapSpread_iff (ns : List W32) : wrapSpread ns = true ↔
    ∃ old ∈ ns, ∃ new ∈ ns, serialLater new old = true ∧ 2 ^ 30 ≤ (new - old).toNat := by
  simp [wrapSpread]

/-- Settles O46: GROUP_LOAD as the write that names its action, and what a drop leaves; the route table and the root's time as the writes
of their registers; the loss of the time and what is told of a member and of a value near its wrap, by their conditions. Which traffic an
operation waits on, and which numbers are in use, are the model's choices (log entry 45). -/
theorem groupsRoutesAndTime : Obligations.GroupsRoutesAndTime := by
  unfold Obligations.GroupsRoutesAndTime
  refine ⟨fun p g codes s ha => ⟨?load, congrArg Host.Outcome.next (drop_eq s ha g)⟩,
    fun gi s => ⟨s.groupDrop_group gi, s.groupDrop_mem gi⟩, fun p w s ha hw hn => ?route, fun p v s ha => ⟨fun hv hm => ?timeSet, fun h => ?timeRefused⟩,
    fun s => ⟨fun hm hv => congrArg Host.Outcome.next (timeLost_of_member s hm hv),
      fun h => congrArg Host.Outcome.next (timeLost_of_root_or_invalid s h)⟩,
    fun q s hs ht hm hq => congrArg Host.Outcome.next (timeSyncTick_of_parent s hs ht hm hq),
    fun group rank g s hg hi hr hw => congrArg Host.Outcome.next (memberSuspect_of_waited s hg hi hr hw),
    fun k s => ⟨fun h => ?near, fun h => ?far⟩⟩
  case load =>
    have loads := groupLoad_eq s ha g codes
    rw [State.coded, s.codes_countAccess] at loads
    exact congrArg Host.Outcome.next loads
  case route =>
    have kept : (s.countAccess p 5).leat = s.leat := by rw [State.countAccess_eq]
    have index : (s.countAccess p 5).fld .leat 0x118 0 16 = s.fld .leat 0x118 0 16 := by rw [State.fld, State.countAccess_word, State.fld]
    obtain ⟨routes, next, mem, groups, ports⟩ := (s.countAccess p 5).routeWrite_of_none_held (by rw [kept, hn]) w
    rw [index, kept] at routes
    refine ⟨_, congrArg Host.Outcome.next (routeData_eq s ha hw), ?_, fun d hd => ?_, next.trans (by rw [index]),
      mem.trans (s.countAccess_mem p 5), groups.trans (by rw [kept]), ports.trans (by rw [kept])⟩
    · rw [State.routeOf, routes, cellGet_cellSet_self]
    · rw [State.routeOf, routes, cellGet_cellSet_of_ne _ _ _ _ _ hd, State.routeOf]
  case timeSet =>
    obtain ⟨-, -, mem, inj, -⟩ := s.timeLow_frame p v
    exact ⟨_, congrArg Host.Outcome.next (timeSet_of_invalid_root s ha v hv hm), rfl, rfl, mem, inj⟩
  case timeRefused =>
    obtain ⟨leat, time, mem, inj, supply, -, tally⟩ := s.timeLow_frame p v
    have events := OnlyEvents.accessErr (s.timeLow p v) p (Page.base .leat + 0x130) true (hiWord v) .value
    have live : (s.timeLow p v).pageLive .directory = true := by
      obtain ⟨-, leatLive, -⟩ := ha
      rw [State.pageLive_directory, supply, ← State.pageLive_directory]
      exact s.directory_live_of_leat leatLive
    obtain ⟨htime, -, -, -, -, -, -, -, hleat, -, -, -, -, hmem, -⟩ := events.frame
    exact ⟨_, congrArg Host.Outcome.next (timeSet_of_valid_or_member s ha v h), htime.trans time, hleat.trans leat, hmem.trans mem,
      (State.accessErr_tallyOf _ live _ _ _ _ _).trans (congrArg (· + 1) tally)⟩
  case near =>
    exact congrArg Host.Outcome.next (if_pos ((wrapSpread_iff _).2 h))
  case far =>
    refine congrArg Host.Outcome.next (if_neg fun spread => ?_)
    obtain ⟨old, ho, new, hn, later, apart⟩ := (wrapSpread_iff _).1 spread
    exact absurd (h old ho new hn later) (Nat.not_lt.2 apart)

end Sys2Proof.Machine
end

section
/-! PROOFS of 10_leat.md: CLEAR, the step gate and the flits refused with a later epoch (R378, R387, R388, R419, R579 to R581). -/

namespace Sys2Proof.Machine

variable (s : State)

/-! ## CLEAR_SEND (R387, R419, R579, R581) -/

/-- The setting digest that a CLEAR of the open step carries (R579). -/
def State.clearDigest (g : Group) (c : Nat) : Option (List Byte) := if s.digestStep g.open_ = true then some (s.settingG g c) else none

/-- The weigh digest that a CLEAR of the open step carries, with the step that it is of (R419). -/
def State.clearWeigh (g : Group) : Option (Nat × W64) :=
  if s.weighGate g.idx g.open_ = true then some (g.open_ - 1, if g.weighStep + 1 = g.open_ then g.weigh else 0) else none

/-- A CLEAR that no injection touches carries the digests of its record. -/
theorem State.formClear_of_unarmed {g : Group} (c : Nat) (ht : s.injArmed .trust = false) (hh : s.injArmed .history = false) :
    s.formClear g c = (s.clearDigest g c, { rank := g.rank, gate := g.open_, run := g.runOf g.open_, step := c, digest := s.clearDigest g c,
                                            weigh := s.clearWeigh g }, s) := by
  have trust : (if s.digestStep g.open_ then s.takeInj .trust 3 else (false, s)) = (false, s) := by
    rw [s.takeInj_of_unarmed ht, ite_self]
  have history : (if s.weighGate g.idx g.open_ then s.takeInj .history 1 else (false, s)) = (false, s) := by
    rw [s.takeInj_of_unarmed hh, ite_self]
  simp only [State.formClear, trust, history, Bool.false_eq_true, if_false]
  rfl

theorem clearSend_of_due {group : BitVec 12} {g : Group} {c : Nat} (hg : s.group group.toNat = some g) (hc : g.updStep = some c)
    (hd : s.clearDue g c (g.clearSent && s.digestStep g.open_ && s.bit .trust 0x104 0) = true) :
    clearSend group s = s.sendClear g c (g.clearSent && s.digestStep g.open_ && s.bit .trust 0x104 0) := by
  simp only [clearSend, hg, hc, hd, if_true]

/-! ## The step gate (R388, R580) -/

theorem State.gateJudge_of_steps_agree {gi : Nat} {g : Group} (hg : s.group gi = some g) (hs : ∀ r ∈ g.present, r.step = g.open_) :
    s.gateJudge gi = s := by
  have agree : (g.present.any fun r => r.step != g.open_) = false := by simpa using hs
  simp [State.gateJudge, hg, agree]

theorem Group.allClear_iff (g : Group) : g.allClear = true ↔ ∀ k, k < g.nmemb → ∃ r ∈ g.present, r.rank = k := by
  simp [Group.allClear]

theorem Group.resultsWritten_iff (g : Group) : g.resultsWritten = true ↔
    ∀ o ∈ g.ops, o.step = g.open_ → (g.part (g.channel o.channel) o).units ≤ o.written := by
  simp [Group.resultsWritten, Classical.or_iff_not_imp_left]

section
variable {gi : Nat} {g : Group} (hg : s.group gi = some g) (hs : ∀ r ∈ g.present, r.step = g.open_)
include hg hs

theorem State.tryGate_of_missing_clear (h : g.allClear = false) : s.tryGate gi = s := by
  simp [State.tryGate, s.gateJudge_of_steps_agree hg hs, hg, h]

theorem State.tryGate_of_all_clear (h : g.allClear = true) (hw : s.weighGate gi g.open_ = false) (hk : g.skew = false)
    (hsh : g.shut = false) (hd : s.digestHeld g = false) (hr : g.resultsWritten = true) :
    s.tryGate gi = (s.gateOpen g).gateJudge gi := by
  simp [State.tryGate, s.gateJudge_of_steps_agree hg hs, hg, h, hw, hk, hsh, hd, hr]

end

theorem State.group_idx {gi : Nat} {g : Group} (hg : s.group gi = some g) : g.idx = gi := by
  simpa using List.find?_some hg

/-- A change of a group that leaves its number is what the group's number names after it. -/
theorem State.onGroup_group {gi : Nat} {g : Group} {f : Group → Group} (hg : s.group gi = some g) (hf : ∀ x, (f x).idx = x.idx) :
    (s.onGroup gi f).group gi = some (f g) := by
  have same : (fun x : Group => (if x.idx = gi then f x else x).idx == gi) = fun x => x.idx == gi := by
    funext x
    split <;> simp [hf]
  have named := s.group_idx hg
  rw [State.group, State.onGroup, List.find?_map, Function.comp_def, same]
  rw [State.group] at hg
  simp [hg, named]

/-- A group as its gate opens: its next step is open. -/
theorem State.gateOpen_group {gi : Nat} {g : Group} (hg : s.group gi = some g) :
    ∃ h, (s.gateOpen g).group gi = some h ∧ h.open_ = g.open_ + 1 ∧ h.entry = g.entry ∧ h.clearSent = false := by
  have named := s.group_idx hg
  subst named
  exact ⟨_, (s.tally .leat 4 1).onGroup_group hg fun _ => rfl, rfl, rfl, rfl⟩

/-! ## EPOCH_RESEND (R378) -/

theorem epochResend_of_none {port : Fin 24} (h : s.leat.refused.find? (fun f => f.port == some port.val) = none) :
    epochResend port s = s := by
  simp only [epochResend, h]

theorem epochResend_of_refused {port : Fin 24} {f : HeldFlit} (hs : s.halted = false)
    (h : s.leat.refused.find? (fun f => f.port == some port.val) = some f) :
    epochResend port s =
      ({ s with leat := { s.leat with refused := s.leat.refused.erase f } } : State).launch (parseFlit f.header) f.payload := by
  simp [epochResend, h, hs]

/-- Settles O47: CLEAR by what it is due upon and what its flits and its record carry, the gate by the CLEARs that have arrived and the
state of the group once it is open, and a refused flit by whether the port has one. What makes a module
clean, and that a CLEAR counts once whatever the branches of the tree, are the model's choices (log entry 44). -/
theorem clearsAreSentAndGatesOpen : Obligations.ClearsAreSentAndGatesOpen := by
  unfold Obligations.ClearsAreSentAndGatesOpen
  refine ⟨?sent, fun gi g s hg => ⟨?missing, ?opens, ?opened⟩, fun port s hs => ⟨fun h => ?unrefused, fun f h => ?resent⟩⟩
  case sent =>
    intro group g c s hs hp hg hc hv hsh hsent ha hclean hw hdirty ht hh
    have again : (g.clearSent && s.digestStep g.open_ && s.bit .trust 0x104 0) = g.clearSent := by
      obtain h | ⟨hd, hb, -⟩ := hsent
      · simp [h]
      · simp [hd, hb]
    have first : (!g.clearSent || g.clearSent && g.clearG != some (s.settingG g c)) = true := by
      obtain h | ⟨-, -, hn⟩ := hsent
      · simp [h]
      · cases g.clearSent <;> simp [hn]
    have settled : (s.digestStep g.open_ && !s.trust.dirty.isEmpty) = false := by
      cases h : s.digestStep g.open_
      · rfl
      · simp [hdirty h]
    have due : s.clearDue g c g.clearSent = true := by
      simp only [State.clearDue, hs, hp, hv, ha, hclean, hw, settled, first, hsh]
      rfl
    have sends := clearSend_of_due s hg hc (again.symm ▸ due)
    rw [again, State.sendClear, s.formClear_of_unarmed c ht hh] at sends
    exact congrArg Host.Outcome.next sends
  case missing =>
    rintro ⟨k, hk, absent⟩ hst
    refine s.tryGate_of_missing_clear hg hst (Bool.eq_false_iff.2 fun h => ?_)
    obtain ⟨r, hr, rank⟩ := g.allClear_iff.1 h k hk
    exact absent r hr rank
  case opens =>
    intro hall hst hw hk hsh hd hr
    exact s.tryGate_of_all_clear hg hst (g.allClear_iff.2 hall) hw hk hsh hd (g.resultsWritten_iff.2 hr)
  case opened =>
    obtain ⟨h, hh, step, entry, sent⟩ := s.gateOpen_group hg
    exact ⟨h, hh, step, entry, sent, rfl⟩
  case unrefused => exact congrArg Host.Outcome.next (epochResend_of_none s h)
  case resent => exact congrArg Host.Outcome.next (epochResend_of_refused s hs h)

end Sys2Proof.Machine
end

section
/-! PROOFS of 11_silent_errors.md: tolls (R409, R410, R412), the retirement of units and their return (R423 to R427, R430). -/

namespace Sys2Proof.Machine

variable (s : State) (m : MillId)

/-! ## Where no injection is armed -/

@[simp] theorem State.onMill_injArmed (f : Mill → Mill) (p : Page) : (s.onMill m f).injArmed p = s.injArmed p := by
  simp [State.injArmed]

@[simp] theorem State.tally_injArmed (q : Page) (k n : Nat) (p : Page) : (s.tally q k n).injArmed p = s.injArmed p := rfl

@[simp] theorem State.setToll_injArmed (k : Nat) (r : Option TollRec) (p : Page) : (s.setToll m k r).injArmed p = s.injArmed p := by
  simp [State.setToll]

@[simp] theorem State.tollLeaves_injArmed (n : Nat) (p : Page) : (s.tollLeaves m n).injArmed p = s.injArmed p := by
  simp [State.tollLeaves]

/-! ## TOLL_PASS (R409) -/

theorem State.tollStone_of_tollEligible {n : Nat} (h : s.tollEligible m n = true) : s.tollStone m n = true := by
  simp only [State.tollEligible, Bool.and_eq_true] at h
  exact h.1.1.1

section tollPass
variable {k : Nat} {rest : List Nat} {r : TollRec} {stone : Fin 24} (hs : s.halted = false)
  (hp : positions (s.mill m).toll.open_ (fun r => !r.drain && r.by_.isNone && s.tollLive m r) = k :: rest)
  (hr : (s.mill m).toll.open_[k]? = some r)
include hs hp hr

/-- With no other stone in service the toll is void. -/
theorem tollPass_of_no_other_stone (h : ∀ n, n < 24 → n = r.stone ∨ some n = r.retried ∨ s.tollStone m n = false) :
    tollPass m stone s = (s.setToll m k none).tally (.toll m) 2 1 := by
  have none_left : (List.range 24).any (fun n => n != r.stone && some n != r.retried && s.tollStone m n) = false := by
    rw [List.any_eq_false]
    intro n hn
    obtain same | tried | out := h n (List.mem_range.1 hn)
    · simp [same]
    · simp [tried]
    · simp [out]
  simp [tollPass, hs, hp, hr, none_left]

theorem tollPass_of_eligible (hne : stone.val ≠ r.stone) (hretried : some stone.val ≠ r.retried)
    (he : s.tollEligible m stone.val = true) :
    tollPass m stone s = (s.tollWakes m stone).setToll m k (some { r with by_ := some stone.val }) := by
  have other : (List.range 24).any (fun n => n != r.stone && some n != r.retried && s.tollStone m n) = true :=
    List.any_eq_true.2 ⟨stone.val, List.mem_range.2 stone.isLt, by simp [hne, hretried, s.tollStone_of_tollEligible m he]⟩
  simp [tollPass, hs, hp, hr, other, hne, hretried, he]

end tollPass

/-! ## TOLL_PASS_DONE (R410) -/

section tollPassDone
variable {k b : Nat} {rest : List Nat} {r : TollRec} (hs : s.halted = false)
  (hp : positions (s.mill m).toll.open_ (fun r => r.by_.isSome) = k :: rest)
  (hr : (s.mill m).toll.open_[k]? = some r) (hb : r.by_ = some b)
include hs hp hr hb

/-- A toll abandoned by a fault of its stone is to run once more. -/
theorem tollPassDone_of_failed (hf : ((s.tollLeaves m b).stone m b).failed ≠ none) (hn : r.retried = none) :
    tollPassDone m s = (s.tollLeaves m b).setToll m k (some { r with by_ := none, retried := some b }) := by
  have failed := Option.isSome_iff_ne_none.2 hf
  simp [tollPassDone, hs, hp, hr, hb, failed, hn]

/-- A toll that has run to its end and is no verdict: it is void where its inputs differ, and else compared. -/
theorem tollPassDone_of_ended (hi : s.injArmed (.toll m) = false) (hf : ((s.tollLeaves m b).stone m b).failed = none)
    (hv : (s.tollLeaves m b).tollVerdict m r = false) :
    let v := (s.tollLeaves m b).tally (.toll m) 12 0
    tollPassDone m s =
      if v.srcDigest m r.srcs ≠ r.srcDig then (v.setToll m k none).tally (.toll m) 2 1
      else if r.differs = true then (v.setToll m k none).tollMismatch m r b 1 3 { kind := .stone, index := gidx m r.stone } true
      else (v.setToll m k none).tally (.toll m) 1 1 := by
  have unarmed : ((s.tollLeaves m b).tally (.toll m) 12 0).takeInj (.toll m) 2 = (false, (s.tollLeaves m b).tally (.toll m) 12 0) :=
    State.takeInj_of_unarmed _ (by simpa using hi) 2
  simp [tollPassDone, hs, hp, hr, hb, hf, hv, boolNat, unarmed]

end tollPassDone

/-! ## TOLL_DRAIN (R412) -/

theorem tollDrain_of_unarmed {k : Nat} {rest : List Nat} {r : TollRec} (hs : s.halted = false) (hi : s.injArmed (.toll m) = false)
    (hj : s.stageJobs m 0 = []) (hp : positions (s.mill m).toll.open_ (fun r => r.drain) = k :: rest)
    (hr : (s.mill m).toll.open_[k]? = some r) :
    let u := (s.setToll m k none).onStone m r.stone fun x => if (x.bank r.bank).toll = true then x.setBank r.bank Bank.reset else x
    tollDrain m s = (u.tally (.toll m) 7 1).tally (.toll m) 1 1 := by
  simp only [tollDrain, hs, hj, hp, hr, List.isEmpty_nil, Bool.not_true, Bool.or_false, Bool.false_eq_true, if_false]
  rw [State.takeInj_of_unarmed]
  · rfl
  · simpa using hi

/-- Settles O48: the start of a toll by what stones are left for it, its end by the stone it ran on and by its digests, and the second
drain. That a toll with no other stone in service is void, that one abandoned by a fault of its stone runs once more, and that a drain
differs where an injection makes it, are readings of the model (log entry 46). -/
theorem tollsRunAgainAndCompare : Obligations.TollsRunAgainAndCompare := by
  unfold Obligations.TollsRunAgainAndCompare
  refine ⟨?starts, ?ends, ?drains⟩
  case starts =>
    intro m stone k rest r s hs hp hr
    exact ⟨fun h => congrArg Host.Outcome.next (tollPass_of_no_other_stone s m hs hp hr h),
      fun hne hn he => congrArg Host.Outcome.next (tollPass_of_eligible s m hs hp hr hne hn he)⟩
  case ends =>
    intro m k b rest r s hs hi hp hr hb u
    refine ⟨fun hf hn => congrArg Host.Outcome.next (tollPassDone_of_failed s m hs hp hr hb hf hn), fun hf hd hv => ?equal,
      fun hf hd hv => ?differs⟩
    case equal =>
      intro v
      refine congrArg Host.Outcome.next ((tollPassDone_of_ended s m hs hp hr hb hi hf hv).trans ?_)
      by_cases same : v.srcDigest m r.srcs = r.srcDig
      · rw [if_neg (not_not.2 same), if_neg (by simp [hd]), if_pos same]
      · rw [if_pos same, if_neg same]
    case differs =>
      intro v same
      refine congrArg Host.Outcome.next ((tollPassDone_of_ended s m hs hp hr hb hi hf hv).trans ?_)
      rw [if_neg (not_not.2 same), if_pos hd]
  case drains =>
    intro m k rest r s hs hi hj hp hr
    exact congrArg Host.Outcome.next (tollDrain_of_unarmed s m hs hi hj hp hr)

/-! ## RETIREMENT_APPLY (R425, R426) -/

theorem retirementApply_at_boundary (hs : s.halted = false) (hc : s.noCommand = true) (hl : s.pageLive .history = true) :
    retirementApply s = (s.nv.retired.filter fun u => !s.inForce.contains u).foldl
      (fun t u => if u ∈ t.inForce ∨ t.corePower = false then t else t.applyRetirement u) s := by
  simp [retirementApply, hs, hc, hl]

/-! ## RETIRE_CTL (R430) -/

@[simp] theorem State.countAccess_nv (path : Path) (k : Nat) : (s.countAccess path k).nv = s.nv := by
  rw [State.countAccess_eq]

theorem act_retireCtl (path : Path) (w : W32) (v : W64) : s.act path .history 0x420 w v =
    if (s.retireCtl w).1 = true then (s.retireCtl w).2
    else (s.retireCtl w).2.accessErr path (Page.base .history + 0x420) true w .value := rfl

theorem State.retireCtl_of_retire {w : W32} (h : bitOf w 20 = true) (h' : bitOf w 21 = false) : s.retireCtl w =
    if unitExists (bitsOf w 0 4) (bitsOf w 4 16) = true then (true, s.retireByClass (bitsOf w 0 4, bitsOf w 4 16)) else (false, s) := by
  simp only [State.retireCtl, h, h']

theorem State.retireCtl_of_restore {w : W32} (h : bitOf w 20 = false) (h' : bitOf w 21 = true) : s.retireCtl w =
    if unitExists (bitsOf w 0 4) (bitsOf w 4 16) = true then
      (true, { s with nv := { s.nv with retired := s.nv.retired.filter (· != (bitsOf w 0 4, bitsOf w 4 16)) } })
    else (false, s) := by
  simp only [State.retireCtl, h, h']

section retireCtl
variable {p : Path} (ha : Accepts s p .history) (kind : BitVec 4) (index : BitVec 16)

/-- A word of RETIRE_CTL that names a unit, with RETIRE in bit 20 and RESTORE in bit 21. -/
theorem retireCtl_word {x a : Nat} (h : a < 4) (hx : x = kind.toNat + 16 * index.toNat + 0x100000 * a) :
    bitsOf (BitVec.ofNat 32 x) 0 4 = kind.toNat ∧ bitsOf (BitVec.ofNat 32 x) 4 16 = index.toNat ∧
      bitOf (BitVec.ofNat 32 x) 20 = (a % 2 == 1) ∧ bitOf (BitVec.ofNat 32 x) 21 = (a / 2 == 1) := by
  have hk := kind.isLt
  have hi := index.isLt
  have word : (BitVec.ofNat 32 x).toNat = x := Nat.mod_eq_of_lt (by omega)
  simp only [bitsOf, bitOf, natBits, word]
  refine ⟨?_, ?_, congrArg (· == 1) ?_, congrArg (· == 1) ?_⟩ <;> omega

include ha

/-- A write of RETIRE_CTL that reaches its register and has no other bit. -/
theorem State.regWrite_retireCtl {x : Nat} (hx : x < 2 ^ 22) {r : Bool × State}
    (hr : (s.countAccess p 5).retireCtl (BitVec.ofNat 32 x) = r) :
    s.regWrite p (Page.base .history + 0x420) 32 (BitVec.ofNat 64 x) =
      if r.1 = true then r.2 else r.2.accessErr p (Page.base .history + 0x420) true (BitVec.ofNat 32 x) .value := by
  have value : ((BitVec.ofNat 32 x).zeroExtend 64).toNat = x := by
    simp only [BitVec.truncate_eq_setWidth, BitVec.toNat_setWidth, BitVec.toNat_ofNat]
    omega
  have mask : ((BitVec.ofNat 32 x).zeroExtend 64).toNat &&& 2 ^ 22 - 1 = ((BitVec.ofNat 32 x).zeroExtend 64).toNat := by
    rw [value, Nat.and_two_pow_sub_one_eq_mod, Nat.mod_eq_of_lt hx]
  rw [State.regWrite_action s p .history 0x420 _ _ (by decide) (by decide) (by decide) ha (by simp [inMsix]) rfl rfl (by decide)
    (by decide) rfl _ (loWord_ofNat _) (by exact mask) rfl rfl (fun _ _ => rfl) (fun _ _ => rfl), act_retireCtl, hr]

/-- RETIRE of a unit: what its kind asks for, or a refusal. -/
theorem retire_eq : retire p kind index s =
    if unitExists kind.toNat index.toNat = true then (s.countAccess p 5).retireByClass (kind.toNat, index.toNat)
    else (s.countAccess p 5).accessErr p (Page.base .history + 0x420) true
      (BitVec.ofNat 32 (kind.toNat + 16 * index.toNat + 0x100000)) .value := by
  have hk := kind.isLt
  have hi := index.isLt
  obtain ⟨ofKind, ofIndex, retires, restores⟩ := retireCtl_word kind index (x := kind.toNat + 16 * index.toNat + 0x100000) (a := 1)
    (by decide) (by omega)
  have action := (s.countAccess p 5).retireCtl_of_retire retires restores
  rw [ofKind, ofIndex] at action
  rw [retire, s.regWrite_retireCtl ha (by omega) action]
  cases unitExists kind.toNat index.toNat <;> simp

/-- RESTORE of a unit: it is taken from those recorded, or refused. -/
theorem retireRestore_eq : retireRestore p kind index s =
    if unitExists kind.toNat index.toNat = true then
      { s.countAccess p 5 with nv := { s.nv with retired := s.nv.retired.filter (· != (kind.toNat, index.toNat)) } }
    else (s.countAccess p 5).accessErr p (Page.base .history + 0x420) true
      (BitVec.ofNat 32 (kind.toNat + 16 * index.toNat + 0x200000)) .value := by
  have hk := kind.isLt
  have hi := index.isLt
  obtain ⟨ofKind, ofIndex, retires, restores⟩ := retireCtl_word kind index (x := kind.toNat + 16 * index.toNat + 0x200000) (a := 2)
    (by decide) (by omega)
  have action := (s.countAccess p 5).retireCtl_of_restore retires restores
  rw [ofKind, ofIndex, s.countAccess_nv] at action
  rw [retireRestore, s.regWrite_retireCtl ha (by omega) action]
  cases unitExists kind.toNat index.toNat <;> simp

end retireCtl

/-- A retirement is recorded once. -/
theorem State.retireUnit_eq (u : Nat × Nat) : s.retireUnit u =
    { s with nv := { s.nv with retired := if u ∈ s.nv.retired then s.nv.retired else s.nv.retired ++ [u] } } := by
  by_cases h : u ∈ s.nv.retired <;> simp [State.retireUnit, h]

/-! ## The repair of a stone row (R89, R90, R425) -/

theorem millOf_num {k : Nat} (h : k < 2) : (millOf k).num = k := by
  interval_cases k <;> rfl

/-- A stone of the module by its index, as `stoneIndex` numbers it. -/
theorem stoneIndex_millOf {g : Nat} (h : g < 48) : stoneIndex (millOf (g / 24)) ⟨g % 24, Nat.mod_lt _ (by decide)⟩ = g := by
  rw [stoneIndex, millOf_num (by omega), Nat.div_add_mod]

theorem State.retireByClass_row {index : Nat} : s.retireByClass (2, index) =
    s.repairRow (millOf (index / 512 / 24)) ⟨index / 512 % 24, Nat.mod_lt _ (by decide)⟩ (index % 512) := by
  simp [State.retireByClass, Nat.mod_lt]

/-- A field that lies above the one written. -/
theorem bitsOf_putBits_above {k lo w lo' w' : Nat} (x : BitVec k) (v : Nat) (h : lo + w ≤ lo') (hk : lo' + w' ≤ k) :
    bitsOf (putBits x lo w v) lo' w' = bitsOf x lo' w' := by
  obtain ⟨d, rfl⟩ := Nat.exists_eq_add_of_le h
  rw [bitsOf, putBits, BitVec.toNat_ofNat, natBits_mod_two_pow _ hk, replace_natBits_eq, bitsOf, natBits, natBits, Nat.pow_add,
    Nat.pow_add, ← Nat.div_div_eq_div_mul, ← Nat.div_div_eq_div_mul, Nat.mul_add_div (Nat.two_pow_pos lo),
    Nat.div_eq_of_lt (Nat.mod_lt _ (Nat.two_pow_pos lo)), Nat.add_zero, Nat.mul_add_div (Nat.two_pow_pos w),
    Nat.div_eq_of_lt (Nat.mod_lt v (Nat.two_pow_pos w)), Nat.add_zero, ← Nat.div_div_eq_div_mul, ← Nat.div_div_eq_div_mul]

/-- A field apart from the one written is as it was. -/
theorem State.putFld_fld_apart (p : Page) {off off' : Nat} (v : Nat) {lo w lo' w' : Nat}
    (h : off' ≠ off ∨ lo' + w' ≤ lo ∨ lo + w ≤ lo') (hk : lo ≤ 32) (hk' : lo' + w' ≤ 32) :
    (s.putFld p off lo w v).fld p off' lo' w' = s.fld p off' lo' w' := by
  rw [State.fld, State.putFld, State.setWord_word]
  split
  next same =>
    subst same
    obtain other | below | above := h
    · exact absurd rfl other
    · exact bitsOf_putBits_below _ v below hk
    · exact bitsOf_putBits_above _ v above hk'
  next => rfl

/-- A list through a map that gives one more of its members a value. -/
theorem perm_filterMap_cons {α β : Type} {l : List α} {a : α} {b : β} {f g : α → Option β} (hl : l.Nodup) (ha : a ∈ l)
    (hf : f a = none) (hg : g a = some b) (h : ∀ x ∈ l, x ≠ a → g x = f x) : (l.filterMap g).Perm (b :: l.filterMap f) := by
  obtain ⟨l₁, l₂, rfl⟩ := List.append_of_mem ha
  have apart := (List.nodup_cons.1 (List.nodup_middle.1 hl)).1
  have same (k : List α) (sub : k ⊆ l₁ ++ l₂) : k.filterMap g = k.filterMap f := List.filterMap_congr fun x hx =>
    h x (List.perm_middle.mem_iff.2 (List.mem_cons_of_mem a (sub hx))) fun e => apart (e ▸ sub hx)
  rw [List.filterMap_append, List.filterMap_append, List.filterMap_cons_some hg, List.filterMap_cons_none hf, same l₁ (by simp),
    same l₂ (by simp)]
  exact List.perm_middle

/-! ### The slots of ROWMAP_A and ROWMAP_B -/

section rowmap
variable (n : Fin 24) {row : Nat} {slot : Nat × Nat}

/-- The row that a slot of ROWMAP_A and ROWMAP_B holds, where it is valid. -/
def State.rowmapSlot (slot : Nat × Nat) : Option Nat :=
  if s.bit (.stone m n) slot.1 (slot.2 + 9) then some (s.fld (.stone m n) slot.1 slot.2 9) else none

theorem State.rowmapRows_eq : s.rowmapRows m n = rowmapSlots.filterMap (s.rowmapSlot m n) := rfl

/-- A row is written to a slot and marked valid. -/
def State.rowmapWritten (slot : Nat × Nat) (row : Nat) : State :=
  (s.putFld (.stone m n) slot.1 slot.2 9 row).putFld (.stone m n) slot.1 (slot.2 + 9) 1 1

/-- A slot lies within its word, and any other slot in another word, below or above it. -/
theorem rowmapSlots_apart : ∀ a ∈ rowmapSlots, a.2 + 10 ≤ 32 ∧
    ∀ b ∈ rowmapSlots, b ≠ a → b.1 ≠ a.1 ∨ b.2 + 10 ≤ a.2 ∨ a.2 + 10 ≤ b.2 := by
  decide

theorem State.bit_eq_fld (p : Page) (off i : Nat) : s.bit p off i = (s.fld p off i 1 == 1) := rfl

theorem State.rowmapWritten_rowmapSlot_self (h : slot ∈ rowmapSlots) (hr : row < 512) :
    (s.rowmapWritten m n slot row).rowmapSlot m n slot = some row := by
  have fits := (rowmapSlots_apart slot h).1
  have valid : (s.rowmapWritten m n slot row).fld (.stone m n) slot.1 (slot.2 + 9) 1 = 1 :=
    State.putFld_fld_self _ _ _ (by omega) (by decide)
  have held : (s.rowmapWritten m n slot row).fld (.stone m n) slot.1 slot.2 9 = row :=
    (State.putFld_fld_below _ _ _ _ le_rfl (by omega)).trans (State.putFld_fld_self _ _ _ (by omega) hr)
  simp [State.rowmapSlot, State.bit_eq_fld, valid, held]

theorem State.rowmapWritten_rowmapSlot_of_ne {other : Nat × Nat} (h : slot ∈ rowmapSlots) (ho : other ∈ rowmapSlots)
    (hne : other ≠ slot) :
    (s.rowmapWritten m n slot row).rowmapSlot m n other = s.rowmapSlot m n other := by
  obtain ⟨fits, apart⟩ := rowmapSlots_apart slot h
  have fits' := (rowmapSlots_apart other ho).1
  have apart := apart other ho hne
  have same (lo w : Nat) (hlo : other.2 ≤ lo) (hw : lo + w ≤ other.2 + 10) :
      (s.rowmapWritten m n slot row).fld (.stone m n) other.1 lo w = s.fld (.stone m n) other.1 lo w :=
    (State.putFld_fld_apart _ _ _ (by omega) (by omega) (by omega)).trans
      (State.putFld_fld_apart _ _ _ (by omega) (by omega) (by omega))
  have row := same other.2 9 le_rfl (by omega)
  have valid := same (other.2 + 9) 1 (by omega) (by omega)
  rw [State.rowmapSlot, State.rowmapSlot, State.bit_eq_fld, State.bit_eq_fld, row, valid]

theorem State.rowmapWritten_rowmapRows (h : slot ∈ rowmapSlots) (hf : s.rowmapSlot m n slot = none) (hr : row < 512) :
    ((s.rowmapWritten m n slot row).rowmapRows m n).Perm (row :: s.rowmapRows m n) :=
  perm_filterMap_cons (by decide) h hf (s.rowmapWritten_rowmapSlot_self m n h hr)
    fun _ ho hne => s.rowmapWritten_rowmapSlot_of_ne m n h ho hne

theorem State.onStone_rowmapRows (k : Nat) (f : Stone → Stone) : (s.onStone m k f).rowmapRows m n = s.rowmapRows m n := by
  have words : (s.onStone m k f).word = s.word := funext₂ fun q o => s.onMill_word m _ q o
  unfold State.rowmapRows State.bit State.fld
  rw [words]

/-- While fewer than four rows are disabled a slot is free. -/
theorem State.exists_free_rowmapSlot (h : (s.rowmapRows m n).length < 4) :
    ∃ slot, rowmapSlots.find? (fun x => !s.bit (.stone m n) x.1 (x.2 + 9)) = some slot ∧ slot ∈ rowmapSlots ∧
      s.rowmapSlot m n slot = none := by
  cases hfind : rowmapSlots.find? (fun x => !s.bit (.stone m n) x.1 (x.2 + 9)) with
  | none =>
    have full : (s.rowmapRows m n).length = rowmapSlots.length := by
      rw [State.rowmapRows_eq, List.filterMap_length_eq_length]
      intro slot member
      have valid : s.bit (.stone m n) slot.1 (slot.2 + 9) = true := by simpa using List.find?_eq_none.1 hfind slot member
      simp [State.rowmapSlot, valid]
    exact absurd (full ▸ h) (by decide)
  | some slot =>
    have free := List.find?_some hfind
    exact ⟨slot, rfl, List.mem_of_find?_eq_some hfind, if_neg (by simpa using free)⟩

theorem State.repairRow_of_free (hn : row ∉ s.rowmapRows m n)
    (h : rowmapSlots.find? (fun x => !s.bit (.stone m n) x.1 (x.2 + 9)) = some slot) :
    s.repairRow m n row = (s.rowmapWritten m n slot row).onStone m n.val fun x =>
      { x with applyReq := some ((s.rowmapWritten m n slot row).rowmapRows m n) } := by
  unfold State.repairRow
  rw [if_neg (by simpa using hn)]
  simp only [h]
  rfl

/-- The repair of a row adds it to the rows that are disabled, and leaves the non-volatile store. -/
theorem State.repairRow_adds (hr : row < 512) (hn : row ∉ s.rowmapRows m n) (hl : (s.rowmapRows m n).length < 4) :
    ((s.repairRow m n row).rowmapRows m n).Perm (row :: s.rowmapRows m n) ∧ (s.repairRow m n row).nv = s.nv := by
  obtain ⟨slot, found, member, free⟩ := s.exists_free_rowmapSlot m n hl
  rw [s.repairRow_of_free m n hn found, State.onStone_rowmapRows]
  exact ⟨s.rowmapWritten_rowmapRows m n member free hr, State.onMill_nv ..⟩

end rowmap

/-- Settles O49: the retirements that take effect at a boundary, RETIRE_CTL by its two actions, and the repair of a row by the slot it
takes. That a unit the module does not have is refused with cause VALUE, and that RESTORE takes a unit from the retired list, are
readings of the model (log entry 47). -/
theorem unitsRetireAtTheBoundaryAndReturn : Obligations.UnitsRetireAtTheBoundaryAndReturn := by
  unfold Obligations.UnitsRetireAtTheBoundaryAndReturn
  refine ⟨fun s hs hc hl => congrArg Host.Outcome.next (retirementApply_at_boundary s hs hc hl), ?control, ?rows⟩
  case control =>
    intro p kind index s ha u unit
    have retires : exec (.retire p kind index) s = .next _ := congrArg Host.Outcome.next (retire_eq s ha kind index)
    have restores : exec (.retireRestore p kind index) s = .next _ := congrArg Host.Outcome.next (retireRestore_eq s ha kind index)
    refine ⟨fun he hk => ?recorded, fun he hk => ?repaired, fun he => ?restored, fun he => ?refused⟩
    case recorded =>
      rw [retires, if_pos he, State.retireByClass, if_neg hk, State.retireUnit_eq, State.countAccess_nv]
    case repaired =>
      have bound : index.toNat / 512 < 48 := by
        rw [hk] at he
        simpa [unitExists] using And.left (Bool.and_eq_true_iff.1 he)
      exact ⟨_, _, stoneIndex_millOf bound, by rw [retires, if_pos he, hk, State.retireByClass_row]⟩
    case restored => rw [restores, if_pos he]
    case refused => exact ⟨by rw [retires, if_neg (by simp [he])], by rw [restores, if_neg (by simp [he])]⟩
  case rows =>
    intro m n row s hr hn hl
    obtain ⟨rows, kept⟩ := s.repairRow_adds m n hr hn hl
    exact ⟨rows.mem_iff.2 (by simp), fun r h => rows.mem_iff.2 (by simp [h]), by simp [rows.length_eq], kept⟩

end Sys2Proof.Machine
end

section
/-! PROOFS of 12_pond_copy.md: the timers and the reference monitor (R448, R504, R516 to R520), and the slot that a pond copy begins
in (R436, R440). -/

namespace Sys2Proof.Machine

variable (s : State)

/-! ## TIMER_EXPIRED (R448, R504) -/

theorem timerExpired_of_running (m : MillId) (t : Fin 4) (hn : (s.timerOf m t.val).isSome = true) (hr : s.timeRuns = true)
    (hh : s.refHeld = false) (hp : s.pageLive (.timer m t) = true) (hi : s.injects (.timer m t) 1 = false) :
    let u := (s.tally (.timer m t) 0 1).raise (.timer m t) 0
    timerExpired m t s =
      if m = .m0 ∧ t = 1 ∧ u.pondTimed = true then (u.setTimer m t.val none).pondRequest
      else u.setTimer m t.val (if u.bit (.timer m t) 0x100 31 = true then u.period m t else none) := by
  have set : (s.timerOf m t.val).isNone = false := by rw [← Option.not_isSome, hn, Bool.not_true]
  simp [timerExpired, set, hr, hh, hp, State.takeInj_of_not_injects s hi, and_assoc]

/-! ## The reference monitor (R516 to R520) -/

theorem refLost_of_monitored (hm : 2 ≤ s.supply.stage) (hi : s.injects .clock 1 = false) :
    refLost s = if s.refclk.state = 0 then s.declareRef false else s.onRef fun x => { x with state := 1 } := by
  simp [refLost, State.monitorOn, hm, hi]

/-- A window that is measured, by whether its count lies more than a quarter of the calibrated one away. -/
theorem refWindow_of_measured (edges : BitVec 16) (hm : 3 ≤ s.supply.stage) (hi : s.injects .clock 2 = false) :
    let cal : Int := s.refclk.cal
    let diff : Int := 16 * edges.toNat - cal
    let u := s.onRef fun x => { x with count := edges.toNat }
    refWindow edges s =
      if cal < 4 * diff ∨ cal < -(4 * diff) then
        if s.refclk.state = 0 then u.declareRef true else u.onRef fun x => { x with state := if x.state = 3 then 2 else x.state }
      else u.onRef fun x => { x with cal := (cal + diff.tdiv 256).toNat, state := if x.state = 0 then 0 else 3 } := by
  simp only [refWindow, Nat.not_lt.2 hm, if_false, State.takeInj_of_not_injects s hi, Bool.or_eq_true, decide_eq_true_eq,
    Bool.false_eq_true]
  rfl

theorem pllStop_of_held (hh : s.refHeld = true) : pllStop s = s.onRef fun x => { x with pllsOff := true } := by
  simp [pllStop, hh]

theorem refRecovery_of_held (hh : s.refHeld = true) (hi : s.injects .clock 1 = false) : refRecovery s =
    ((({ s.onRef fun x => { x with state := 0, pllsOff := false, expired := false } with portsOff := [] } :
      State).portsRelease.tally .clock 3 1).raise .clock 2).linkTrain := by
  simp [refRecovery, hh, hi]

theorem refWaitExpired_of_waiting (hh : s.refHeld = true) (he : s.refclk.expired = false) : refWaitExpired s =
    ((((s.onRef fun x => { x with expired := true }).tally .clock 4 1).raise .clock 3).abortCommand .m0
      (.commandFault 23) 23 true).abortCommand .m1 (.commandFault 23) 23 true := by
  simp [refWaitExpired, hh, he]

/-- Settles O10: the end of a timer's period, and each row of the reference monitor by the state of the monitor. Which timer the pond
copy holds and how long an injected loss lasts are readings of the model (log entries 49 and 55). -/
theorem timersAndReferenceMonitor : Obligations.TimersAndReferenceMonitor := by
  unfold Obligations.TimersAndReferenceMonitor
  refine ⟨?timer, ?lost, ?window, ?stop, ?recovery, ?expired⟩
  case timer => exact fun m t s hn hr hh hp hi => congrArg Host.Outcome.next (timerExpired_of_running s m t hn hr hh hp hi)
  case lost => exact fun s hm hi => congrArg Host.Outcome.next (refLost_of_monitored s hm hi)
  case window =>
    intro edges s hm hi cal diff u
    refine ⟨fun below above => ?near, fun away => ?wild⟩
    case near => exact congrArg Host.Outcome.next ((refWindow_of_measured s edges hm hi).trans (if_neg (by omega)))
    case wild => exact congrArg Host.Outcome.next ((refWindow_of_measured s edges hm hi).trans (if_pos (by omega)))
  case stop => exact fun s hh => congrArg Host.Outcome.next (pllStop_of_held s hh)
  case recovery => exact fun s hh hi => congrArg Host.Outcome.next (refRecovery_of_held s hh hi)
  case expired => exact fun s hh he => congrArg Host.Outcome.next (refWaitExpired_of_waiting s hh he)

/-! ## The slot of a copy stays the one it began in (R436) -/

/-- Nothing that a memory port does names another slot to the copier. -/
theorem copySlot_portBlind : PortBlind fun s : State => s.pond.slot where
  events h := by
    obtain ⟨_, _, _, _, _, _, _, rfl⟩ := onlyEvents_iff.1 h
    rfl
  nv _ _ := rfl
  inj _ _ := rfl
  wear _ _ := rfl
  worn _ _ := rfl
  codes _ _ := rfl
  drawn _ := rfl
  mem _ _ := rfl
  discard s m line := by simp

theorem State.forAll_slot {α : Type} (l : List α) (f : State → α → State) (h : ∀ s a, (f s a).pond.slot = s.pond.slot) :
    (s.forAll l f).pond.slot = s.pond.slot := s.forAll_part (·.pond.slot) l f h

theorem State.physWrite_slot (a : Nat) (bs : List Byte) : (s.physWrite a bs).pond.slot = s.pond.slot := by
  rw [State.physWrite, State.onMill_pond, copySlot_portBlind.rawWrite]

theorem State.entryBack_slot (m : MillId) (d : Nat × List Byte) : (s.entryBack m d).pond.slot = s.pond.slot := by
  have begun := copySlot_portBlind.portWrite (s.tally (.ledger m) 2 1) m (16 * d.1) [(16 * d.1, 16)]
  unfold State.entryBack
  simp only []
  split <;> rename_i h <;> rw [h] at begun
  · exact begun
  · exact (copySlot_portBlind.rawWrite _ _ _).trans begun

theorem State.ledgerFlush_slot (m : MillId) : (s.ledgerFlush m).pond.slot = s.pond.slot := by
  rw [State.ledgerFlush, State.onLedger, State.onMill_pond, State.forAll_slot _ _ _ fun s d => s.entryBack_slot m d]

theorem State.pondTimer_slot (began : W64) : (s.pondTimer began).pond.slot = s.pond.slot := by
  unfold State.pondTimer State.setTimer
  split
  · rw [State.onMill_pond]
  · rfl

theorem State.setWp_slot (m : MillId) (va : Nat) (wp : Bool) : (s.setWp m va wp).pond.slot = s.pond.slot := by
  unfold State.setWp
  split
  · rfl
  · exact s.physWrite_slot _ _

theorem State.tlbInval_slot (m : MillId) (page : Option Nat) : (s.tlbInval m page).pond.slot = s.pond.slot := by
  simp [State.tlbInval, State.ctrlMsg]

theorem State.setPondPages_slot (m : MillId) (l : List PondPage) : (s.setPondPages m l).pond.slot = s.pond.slot := by
  cases m <;> rfl

/-- The hold of a mill writes its half, sets WP and invalidates its translations. -/
theorem State.pondHold_slot (m : MillId) (cs : List Captured) : (s.pondHold m cs).pond.slot = s.pond.slot := by
  unfold State.pondHold
  extract_lets l head written pages shielded
  clear_value head
  have hw : written.pond.slot = s.pond.slot := by
    unfold written
    split
    · cases m <;> rfl
    · exact s.physWrite_slot _ _
  have hp : shielded.pond.slot = written.pond.slot := by
    refine written.forAll_slot _ _ fun s c => ?_
    split
    · exact s.setWp_slot m _ true
    · rfl
  rw [State.tlbInval_slot, State.setPondPages_slot, hp, hw]

/-- A copy that begins takes the slot that does not hold the newest held generation. -/
theorem pondCopyBegin_slot (hs : s.halted = false) (hr : s.refHeld = false) (hd : s.pondDue = true) (hl : s.bit .pond 0x100 6 = false)
    (ha : ∀ m ∈ s.pondMills, s.areaOk m (s.halfLayout m (s.captured m).length) = true) :
    (pondCopyBegin s).pond.slot = s.nv.copySlot := by
  have room : ((s.pondMills.map fun m => (m, s.captured m)).any fun (m, cs) => !s.areaOk m (s.halfLayout m cs.length)) = false := by
    simpa using ha
  unfold pondCopyBegin
  simp only [hs, hr, hd, hl, room, Bool.not_true, Bool.not_false, Bool.or_false, Bool.and_false, Bool.false_eq_true, if_false]
  refine (State.forAll_slot _ _ _ ?holds).trans ?begun
  case holds => exact fun s x => s.pondHold_slot x.1 x.2
  case begun =>
    rw [State.ledgerFlush_slot, State.ledgerFlush_slot, State.pondTimer_slot]
    rfl

/-! ## A copy after the only held generation is lost -/

theorem behWords_length_le (p : Page) : (behWords p).length ≤ 1024 := (List.length_filterMap_le _ _).trans (by simp)

theorem State.settingImage_length_le (m : MillId) : (s.settingImage m).length ≤ (halfPages m).length * 1024 := by
  rw [State.settingImage, List.length_flatMap]
  refine (List.sum_le_card_nsmul _ 1024 fun n hn => ?_).trans (by simp)
  obtain ⟨p, -, rfl⟩ := List.mem_map.1 hn
  simpa using behWords_length_le p

theorem roundUp_lt (n : Nat) {k : Nat} (hk : 0 < k) : roundUp n k < n + k :=
  (Nat.div_mul_le_self _ _).trans_lt (by omega)

theorem halfPages_length_le (m : MillId) : (halfPages m).length ≤ 200 := by cases m <;> decide

/-- Before the manifest of a half, where the module has no group: the header, the setting image and a route table. -/
theorem State.halfLayout_manifest_le (m : MillId) (pages : Nat) (hg : s.leat.groups = []) :
    (s.halfLayout m pages).manifest ≤ roundUp (0x1000 + 8 * (s.settingImage m).length) 512 + 4 * 49152 := by
  have area : s.groupArea = [] := by simp [State.groupArea, hg, roundUp]
  cases m <;> simp [State.halfLayout, area]

/-- A half without pages fits in 4 MiB where the module has no group. -/
theorem State.halfLayout_fits (m : MillId) (hg : s.leat.groups = []) :
    (s.halfLayout m 0).contents + pageSize * (s.halfLayout m 0).nPages ≤ 0x400000 := by
  have image := s.settingImage_length_le m
  have pages := halfPages_length_le m
  have settings := roundUp_lt (0x1000 + 8 * (s.settingImage m).length) (k := 512) (by decide)
  have manifest := s.halfLayout_manifest_le m 0 hg
  have contents : (s.halfLayout m 0).contents < (s.halfLayout m 0).manifest + pageSize := roundUp_lt _ (by decide)
  have empty : (s.halfLayout m 0).nPages = 0 := rfl
  rw [empty]
  simp only [pageSize] at contents ⊢
  omega

/-- A started module with DIMMs, and areas with slots of 4 MiB. Slot 1 held the one generation of the module, and has since lost it.
A copy has been requested, and the command just completed was a pond point. -/
def bereftModule : State :=
  let s : State := { State.reset with supply := { Supply.reset with stage := 9 } }
  let s := ((s.setWord64 .pond 0x118 0x20000000000).setWord64 .pond 0x120 0x40000000000).setWord .pond 0x128 2
  { s with
    pond := { s.pond with st := 1, point := true }
    nv := { (s.nv.slotHolds true 1 0 []).slotGone true with dimms := List.replicate 16 7 } }

theorem bereftModule_due : bereftModule.halted = false ∧ bereftModule.refHeld = false ∧ bereftModule.pondDue = true ∧
    bereftModule.bit .pond 0x100 6 = false := by decide +kernel

theorem bereftModule_areaOk (m : MillId) :
    bereftModule.areaOk m (bereftModule.halfLayout m (bereftModule.captured m).length) = true := by
  have fits := bereftModule.halfLayout_fits m rfl
  have none_captured : bereftModule.captured m = [] := by cases m <;> rfl
  have units : bereftModule.fld .pond 0x128 0 20 = 2 := by decide +kernel
  rw [none_captured, State.areaOk, units]
  refine Bool.and_eq_true_iff.2 ⟨?_, decide_eq_true fits⟩
  cases m <;> decide +kernel

theorem bereftModule_slots : bereftModule.nv.newest = true ∧ bereftModule.nv.held1 = false := by decide

/-- Refutes O50, in its clause on the slot of a copy: where no slot holds a generation the statement has every copy begin in slot 0,
and the model begins it in the slot that was last the newest. A module whose only generation was in slot 1, and whose slot 1 no longer
holds it (R632, log entry 48), begins its next copy there; R436 bars neither slot, for neither holds a generation. -/
theorem not_pondRequestsHoldsAndCopies : ¬ Obligations.PondRequestsHoldsAndCopies := by
  unfold Obligations.PondRequestsHoldsAndCopies
  rintro ⟨-, begins, -⟩
  obtain ⟨running, unheld, due, kept⟩ := bereftModule_due
  obtain ⟨newest, lost⟩ := bereftModule_slots
  obtain ⟨t, begun, -, -, slot, -⟩ := ((begins bereftModule).2 running unheld due kept).2 fun m _ => bereftModule_areaOk m
  have same : pondCopyBegin bereftModule = t := Host.Outcome.next.inj begun
  rw [← same, pondCopyBegin_slot _ running unheld due kept fun m _ => bereftModule_areaOk m, NonVol.copySlot] at slot
  simp [newest, lost] at slot

end Sys2Proof.Machine
end

section
/-! PROOFS of 13_host_chain.md: the words of commands (R475 to R480). -/

namespace Sys2Proof.Machine

/-! ## The window of CMD_WORD (R477) -/

/-- A row of registers names no word beyond its end. -/
theorem Reg.wordAt_of_beyond {r : Reg} {off : Nat} (hs : 0 < r.stride) (h8 : r.off + 8 ≤ off) (h : r.off + r.cnt * r.stride ≤ off) :
    r.wordAt off = none := by
  unfold Reg.wordAt
  by_cases one : r.cnt ≤ 1
  · simp only [if_pos one, Nat.zero_mul, Nat.sub_zero]
    by_cases none_ : off < r.off ∨ 0 ≥ r.cnt
    · exact if_pos none_
    · rw [if_neg none_, if_neg (by omega), if_neg (by omega)]
  · have past : r.cnt ≤ (off - r.off) / r.stride := (Nat.le_div_iff_mul_le hs).2 (by omega)
    simp only [if_neg one]
    rw [if_pos (.inr past)]

/-- The last row of the command page is the window of CMD_WORD. -/
theorem wordAt_cmdWord (m : MillId) {off : Nat} (lo : 0x800 ≤ off) (hi : off < 0x1000) (h4 : off % 4 = 0) :
    wordAt (.command m) off = some ⟨regs 0x800 512 4 [wo 0 32], (off - 0x800) / 4, false⟩ := by
  have below : ∀ r ∈ commandRegs.dropLast, 0 < r.stride ∧ r.off + 8 ≤ 0x800 ∧ r.off + r.cnt * r.stride ≤ 0x800 := by decide
  have others : commandRegs.dropLast.findSome? (·.wordAt off) = none := by
    refine List.findSome?_eq_none_iff.2 fun r hr => ?_
    obtain ⟨stride, start, length⟩ := below r hr
    exact Reg.wordAt_of_beyond stride (by omega) (by omega)
  have window : (regs 0x800 512 4 [wo 0 32]).wordAt off = some ⟨regs 0x800 512 4 [wo 0 32], (off - 0x800) / 4, false⟩ := by
    unfold Reg.wordAt
    extract_lets d k o
    have place : k = d / 4 := if_neg (by decide : ¬512 ≤ 1)
    have start : (regs 0x800 512 4 [wo 0 32]).off = 0x800 := rfl
    have count : (regs 0x800 512 4 [wo 0 32]).cnt = 512 := rfl
    have row : d = off - 0x800 := rfl
    have rest : o = d - k * 4 := rfl
    rw [if_neg (by omega), if_pos (by omega), place, row]
  have split : blockRegs (.command m) = commandRegs.dropLast ++ [regs 0x800 512 4 [wo 0 32]] := rfl
  rw [wordAt, if_neg (by omega), split, List.findSome?_append, others, Option.none_or, List.findSome?_singleton, window]

variable (s : State) (p : Path) (m : MillId)

theorem cmdWord_eq {off : BitVec 12} (ha : Accepts s p (.command m)) (lo : 0x800 ≤ off.toNat) (h4 : off.toNat % 4 = 0) (w : W32) :
    cmdWord p m off w s = (s.countAccess p 5).cmdWordWrite p m w := by
  have act (u : State) (v : W64) : u.act p (.command m) off.toNat w v = u.cmdWordWrite p m w := by
    unfold State.act
    simp only
    split
    · omega
    · omega
    · exact if_pos lo
  rw [cmdWord, if_neg (by omega), State.regWrite_action s p (.command m) off.toNat _ _ (by omega) off.isLt h4 ha (by simp [inMsix])
    (wordAt_cmdWord m lo off.isLt h4) rfl (by rfl) (by simp [regs, wo]) rfl w (loWord_zeroExtend w) (zeroExtend_and_mask w) rfl rfl
    (fun _ _ => rfl) (fun u _ => if_neg (by omega))]
  exact act _ _

/-! ## A word joins the assembly of its path (R477 to R480) -/

/-- The assembly of a path is as given. -/
def State.putAsm (a : Assembly) : State := s.onMill m fun x => { x with cmd := x.cmd.setAsm p a }

/-- A whole assembly is submitted, but for one of PCI Express that waits for the chute words before it. -/
def State.asmWhole (ws : List W32) : State :=
  if p = .pcie ∧ (s.host.chuteBuf ≠ [] ∨ (s.mill m).cmd.held ≠ []) then
    (s.putAsm p m .reset).onMill m fun x => { x with cmd := { x.cmd with held := x.cmd.held ++ [(ws, s.host.chuteBuf.length)] } }
  else (s.putAsm p m .reset).cmdSubmit m p.code ws

theorem CommandFile.setAsm_held (x : CommandFile) (a : Assembly) : (x.setAsm p a).held = x.held := by cases p <;> rfl

/-- What a word of a command does, by the assembly that it joins. -/
theorem State.cmdWordWrite_eq (w : W32) : s.cmdWordWrite p m w =
    let a := (s.mill m).cmd.asm p
    let u := s.tally (.command m) 0 1
    let ws := a.words ++ [w]
    if a.refused = true then u
    else if a.words = [] ∧ headerOk w = false then (u.putAsm p m { words := [], refused := true }).cmdRefuse m p.code 0 1
    else if ws.length < bitsOf (ws.getD 0 0) 0 8 then u.putAsm p m { words := ws, refused := false }
    else u.asmWhole p m ws := by
  simp [State.cmdWordWrite, State.asmWhole, State.putAsm, CommandFile.setAsm_held, List.isEmpty_iff]

/-- Settles O16: a word of CMD_WORD by the assembly that it joins, and RESET_ASM as the write that names it. That one of PCI Express waits
for the chute words in front of it is a reading of the model (log entry 56). -/
theorem commandWordsBuildAnAssembly : Obligations.CommandWordsBuildAnAssembly := by
  unfold Obligations.CommandWordsBuildAnAssembly
  refine ⟨fun p m off w s ha lo h4 => ?word, fun p m s ha => congrArg Host.Outcome.next (resetAsm_eq s p m ha)⟩
  case word =>
    intro a u put ws
    have joins : exec (.cmdWord p m off w) s = .next _ :=
      congrArg Host.Outcome.next ((cmdWord_eq s p m ha lo h4 w).trans (State.cmdWordWrite_eq _ p m w))
    rw [joins, State.countAccess_mill]
    have opens (h : a.words ≠ [] ∨ headerOk w = true) : ¬(a.words = [] ∧ headerOk w = false) := by
      rintro ⟨empty, bad⟩
      simp [empty, bad] at h
    refine ⟨fun refused => ?_, fun hr empty bad => ?_, fun hr h short => ?_, fun hr h whole => ?_⟩
    · rw [if_pos refused]
    · rw [if_neg (by simp [a, hr]), if_pos ⟨empty, bad⟩]
      rfl
    · rw [if_neg (by simp [a, hr]), if_neg (opens h), if_pos short]
      rfl
    · rw [if_neg (by simp [a, hr]), if_neg (opens h), if_neg (Nat.not_lt.2 whole), State.asmWhole, State.tally_host,
        State.countAccess_host, State.tally_mill, State.countAccess_mill]
      rfl

/-! ## The layout of a command (R475, R476) -/

/-- The header of a command, of its length in words and the number of its kind. -/
def Cmd.header (c : Cmd) (len kind : Nat) : W32 :=
  BitVec.ofNat 32 (len + 256 * kind + (4096 * boolNat c.spliced + 8192 * boolNat c.pondPoint + 16384 * boolNat c.notify))

/-- Each field of a header reads what the command holds. -/
theorem Cmd.header_fields (c : Cmd) {len kind : Nat} (hl : len < 256) (hk : kind < 16) :
    bitsOf (c.header len kind) 0 8 = len ∧ bitsOf (c.header len kind) 8 4 = kind ∧ bitOf (c.header len kind) 12 = c.spliced ∧
      bitOf (c.header len kind) 13 = c.pondPoint ∧ bitOf (c.header len kind) 14 = c.notify ∧
      bitsOf (c.header len kind) 12 2 = boolNat c.spliced + 2 * boolNat c.pondPoint ∧ bitsOf (c.header len kind) 15 17 = 0 := by
  have field (lo w : Nat) (h : lo + w ≤ 32) : bitsOf (c.header len kind) lo w = natBits _ lo w := natBits_toNat_ofNat _ h
  have flag (b : Bool) : boolNat b < 2 := by cases b <;> decide
  have set (b : Bool) : (boolNat b == 1) = b := by cases b <;> rfl
  have h1 := flag c.spliced
  have h2 := flag c.pondPoint
  have h3 := flag c.notify
  have one (lo : Nat) (h : lo + 1 ≤ 32) : bitOf (c.header len kind) lo = (natBits _ lo 1 == 1) := congrArg (· == 1) (field lo 1 h)
  rw [one 12 (by decide), one 13 (by decide), one 14 (by decide), field 0 8 (by decide), field 8 4 (by decide), field 12 2 (by decide),
    field 15 17 (by decide)]
  refine ⟨?_, ?_, (congrArg (· == 1) ?_).trans (set c.spliced), (congrArg (· == 1) ?_).trans (set c.pondPoint),
    (congrArg (· == 1) ?_).trans (set c.notify), ?_, ?_⟩ <;> simp only [natBits] <;> omega

/-- The double word `i` of a list of words, low word first (R476). -/
def dwordAt (ws : List W32) (i : Nat) : W64 := mkWord64 (ws.getD (2 * i + 1) 0) (ws.getD (2 * i) 0)

theorem dwordAt_dwords (v : W64) (ws : List W32) : dwordAt (dwords v ++ ws) 0 = v := mkWord64_hiWord_loWord v

theorem dwordAt_dwords_succ (v : W64) (ws : List W32) (i : Nat) : dwordAt (dwords v ++ ws) (i + 1) = dwordAt ws i := rfl

/-- The double words of arguments written one behind the other are the arguments. -/
theorem dwordAt_flatMap_dwords (args : List W64) : (List.range args.length).map (dwordAt (args.flatMap dwords)) = args := by
  induction args with
  | nil => rfl
  | cons v args ih =>
    rw [List.length_cons, List.range_succ_eq_map, List.map_cons, List.map_map]
    exact congrArg₂ List.cons (dwordAt_dwords v _) ih

/-- What a header, a sequence number and double words spell. -/
theorem parseCmd_cons (h seq : W32) (ws : List W32) : parseCmd (h :: seq :: ws) =
    { seq := seq, kind := (headerKind h).getD .mark, spliced := bitOf h 12, pondPoint := bitOf h 13, notify := bitOf h 14
      addr := if (headerKind h).getD .mark = .mark then 0 else dwordAt ws 0
      length := if (headerKind h).getD .mark = .load then dwordAt ws 1 else 0
      args := if (headerKind h).getD .mark = .run then (List.range ((bitsOf h 0 8 - 4) / 2)).map fun i => dwordAt ws (i + 1) else [] } := by
  have word (i : Nat) : mkWord64 ((h :: seq :: ws).getD (4 + 2 * i + 1) 0) ((h :: seq :: ws).getD (4 + 2 * i) 0) = dwordAt ws (i + 1) := by
    rw [show 4 + 2 * i = 2 * (i + 1) + 2 by omega]
    rfl
  simp only [parseCmd, List.getD_cons_zero, word]
  rfl

/-- The words of a command that fits: a good header, whose length is theirs, and what they spell is the command. -/
theorem Cmd.words_spell {c : Cmd} (h : c.fits) : headerOk (c.words.getD 0 0) = true ∧
    bitsOf (c.words.getD 0 0) 0 8 = c.words.length ∧ parseCmd c.words = c := by
  obtain ⟨few, plain, short, unplaced⟩ := h
  cases hk : c.kind with
  | run =>
    have words : c.words = c.header (4 + 2 * c.args.length) 1 :: c.seq :: (dwords c.addr ++ c.args.flatMap dwords) := by
      simp [Cmd.words, Cmd.header, hk]
    obtain ⟨len, kind, b12, b13, b14, -, spare⟩ := c.header_fields (len := 4 + 2 * c.args.length) (kind := 1) (by omega) (by decide)
    have kindOf : headerKind (c.header (4 + 2 * c.args.length) 1) = some .run := by simp only [headerKind, kind]
    have count : (4 + 2 * c.args.length - 4) / 2 = c.args.length := by omega
    rw [words]
    refine ⟨?_, ?_, ?_⟩
    · simp [headerOk, len, kindOf, spare]
      omega
    · simp [len, dwords]
      omega
    · rw [parseCmd_cons, kindOf, b12, b13, b14, len, count]
      simp only [Option.getD_some, reduceCtorEq, if_false, if_true, dwordAt_dwords_succ, dwordAt_dwords, dwordAt_flatMap_dwords]
      exact hk ▸ short (by simp [hk]) ▸ rfl
  | load =>
    obtain ⟨unspliced, unpond, noArgs⟩ := plain (by simp [hk])
    have words : c.words = c.header 6 2 :: c.seq :: (dwords c.addr ++ dwords c.length) := by simp [Cmd.words, Cmd.header, hk]
    obtain ⟨len, kind, b12, b13, b14, both, spare⟩ := c.header_fields (len := 6) (kind := 2) (by decide) (by decide)
    have kindOf : headerKind (c.header 6 2) = some .load := by simp only [headerKind, kind]
    rw [words]
    refine ⟨?_, len, ?_⟩
    · simp [headerOk, len, kindOf, spare, both, unspliced, unpond, boolNat]
    · rw [parseCmd_cons, kindOf, b12, b13, b14]
      have length : dwordAt (dwords c.addr ++ dwords c.length) 1 = c.length := dwordAt_dwords c.length []
      simp only [Option.getD_some, reduceCtorEq, if_false, if_true, dwordAt_dwords, length]
      exact hk ▸ noArgs ▸ rfl
  | mark =>
    obtain ⟨unspliced, unpond, noArgs⟩ := plain (by simp [hk])
    have words : c.words = [c.header 2 3, c.seq] := by simp [Cmd.words, Cmd.header, hk]
    obtain ⟨len, kind, b12, b13, b14, both, spare⟩ := c.header_fields (len := 2) (kind := 3) (by decide) (by decide)
    have kindOf : headerKind (c.header 2 3) = some .mark := by simp only [headerKind, kind]
    rw [words]
    refine ⟨?_, len, ?_⟩
    · simp [headerOk, len, kindOf, spare, both, unspliced, unpond, boolNat]
    · rw [parseCmd_cons, kindOf, b12, b13, b14]
      simp only [Option.getD_some, reduceCtorEq, if_false, if_true]
      cases c
      simp_all

/-! ## The words of a command, one after the other -/

/-- A word of an assembly has been counted and taken: the tallies are as given, and so is the assembly of the path. -/
def State.taken (l : Cells W64) (a : Assembly) : State := ({ s with tallies := l } : State).putAsm p m a

theorem CommandFile.setAsm_asm (x : CommandFile) (a : Assembly) : (x.setAsm p a).asm p = a := by cases p <;> rfl
theorem CommandFile.setAsm_setAsm (x : CommandFile) (a b : Assembly) : (x.setAsm p a).setAsm p b = x.setAsm p b := by cases p <;> rfl
theorem CommandFile.setAsm_same (x : CommandFile) : x.setAsm p (x.asm p) = x := by cases p <;> rfl
theorem CommandFile.setAsm_queue (x : CommandFile) (a : Assembly) : (x.setAsm p a).queue = x.queue := by cases p <;> rfl

section taken
variable (l : Cells W64) (a : Assembly)

theorem State.taken_asm : ((s.taken p m l a).mill m).cmd.asm p = a := by
  simp [State.taken, State.putAsm, CommandFile.setAsm_asm]

theorem State.taken_putAsm (b : Assembly) : (s.taken p m l a).putAsm p m b = s.taken p m l b := by
  simp [State.taken, State.putAsm, CommandFile.setAsm_setAsm]

theorem State.taken_accepts (ha : Accepts s p (.command m)) : Accepts (s.taken p m l a) p (.command m) := by
  cases m <;> exact ha

theorem State.taken_tallies : (s.taken p m l a).tallies = l := by simp [State.taken, State.putAsm]

variable {a} in
theorem State.taken_same (h : (s.mill m).cmd.asm p = a) : s.taken p m l a = { s with tallies := l } := by
  subst h
  cases m <;> simp [State.taken, State.putAsm, State.onMill, CommandFile.setAsm_same]

/-- A word that a path writes is counted for the link and for the command page. -/
theorem State.taken_counted : ∃ k, ((s.taken p m l a).countAccess p 5).tally (.command m) 0 1 = s.taken p m k a ∧
    (∀ b, (s.taken p m k b).tallyOf (.command m) 0 = (s.taken p m l a).tallyOf (.command m) 0 + 1) ∧
    (∀ b, (s.taken p m k b).tallyOf (.command m) 1 = (s.taken p m l a).tallyOf (.command m) 1) := by
  set u := ((s.taken p m l a).countAccess p 5).tally (.command m) 0 1 with hu
  have tally (b : Assembly) (i : Nat) : (s.taken p m u.tallies b).tallyOf (.command m) i = u.tallyOf (.command m) i := by
    rw [State.tallyOf, State.taken_tallies, State.tallyOf]
  have access (i : Nat) (hi : i < 16) : ((s.taken p m l a).countAccess p 5).tallyOf (.command m) i =
      (s.taken p m l a).tallyOf (.command m) i := State.countAccess_tallyOf _ p (by decide) (by simp) hi
  refine ⟨u.tallies, ?_, fun b => ?_, fun b => ?_⟩
  · rw [hu, State.countAccess_eq]
    cases m <;> rfl
  · rw [tally, hu, State.tally_tallyOf_self, access 0 (by decide)]
    rfl
  · rw [tally, hu, State.tally_tallyOf_of_ne _ (by decide) (by decide) (by simp), access 1 (by decide)]

end taken

/-- A whole command with the number that is next, where one more may be pending, becomes pending (R479). -/
theorem State.cmdSubmit_of_next {path : Nat} {ws : List W32} (hi : s.injects (.command m) 1 = false)
    (hq : (parseCmd ws).seq = s.word (.command m) 0x104) (hl : (s.mill m).cmd.queue.length < 16) (ho : s.millOut m = false) :
    s.cmdSubmit m path ws = ((s.setWord (.command m) 0x104 (s.word (.command m) 0x104 + 1)).onMill m fun x =>
      { x with cmd := { x.cmd with queue := x.cmd.queue ++ [parseCmd ws] } }).tally (.command m) 1 1 := by
  simp [State.cmdSubmit, s.takeInj_of_not_injects hi, hq, Nat.not_le.2 hl, ho]

section words
variable {full : List W32} (good : headerOk (full.getD 0 0) = true) (len : bitsOf (full.getD 0 0) 0 8 = full.length)
  (ha : Accepts s p (.command m)) (clear : p = .pcie → s.host.chuteBuf = [] ∧ (s.mill m).cmd.held = [])
include good len ha clear

/-- Words that are the rest of a command end its assembly, and submit it. -/
theorem execAll_cmdWords (ws : List (BitVec 12 × W32)) (done : List W32) (l : Cells W64) (rest : done ++ ws.map (·.2) = full)
    (some_ : ws ≠ []) (at_ : ∀ x ∈ ws, 0x800 ≤ x.1.toNat ∧ x.1.toNat % 4 = 0) :
    ∃ k, execAll (ws.map fun x => .cmdWord p m x.1 x.2) (s.taken p m l ⟨done, false⟩) =
        some ((s.taken p m k .reset).cmdSubmit m p.code full) ∧
      (s.taken p m k .reset).tallyOf (.command m) 0 = (s.taken p m l ⟨done, false⟩).tallyOf (.command m) 0 + BitVec.ofNat 64 ws.length ∧
      (s.taken p m k .reset).tallyOf (.command m) 1 = (s.taken p m l ⟨done, false⟩).tallyOf (.command m) 1 := by
  induction ws generalizing done l with
  | nil => exact absurd rfl some_
  | cons x ws ih =>
    obtain ⟨lo, h4⟩ := at_ x (by simp)
    obtain ⟨k, counted, tally0, tally1⟩ := s.taken_counted p m l ⟨done, false⟩
    have joined : done ++ [x.2] ++ ws.map (·.2) = full := by simpa using rest
    have opens : ¬(done = [] ∧ headerOk x.2 = false) := by
      rintro ⟨rfl, bad⟩
      rw [← joined] at good
      exact absurd (bad.symm.trans good) (by decide)
    have head : (done ++ [x.2]).getD 0 0 = full.getD 0 0 := by
      rw [← joined]
      cases done <;> rfl
    have takes : exec (.cmdWord p m x.1 x.2) (s.taken p m l ⟨done, false⟩) = .next (if (done ++ [x.2]).length < full.length then
        s.taken p m k ⟨done ++ [x.2], false⟩ else (s.taken p m k ⟨done, false⟩).asmWhole p m (done ++ [x.2])) := by
      refine congrArg Host.Outcome.next ?_
      rw [cmdWord_eq _ p m (s.taken_accepts p m l _ ha) lo h4, State.cmdWordWrite_eq, counted, State.countAccess_mill, State.taken_asm]
      simp only [Bool.false_eq_true, if_false, if_neg opens, head, len, State.taken_putAsm]
    cases ws with
    | nil =>
      have whole : done ++ [x.2] = full := by simpa using joined
      rw [whole, if_neg (lt_irrefl _)] at takes
      have submits : (s.taken p m k ⟨done, false⟩).asmWhole p m full = (s.taken p m k .reset).cmdSubmit m p.code full := by
        unfold State.asmWhole
        rw [if_neg, State.taken_putAsm]
        rintro ⟨rfl, waits⟩
        obtain ⟨chute, held⟩ := clear rfl
        have kept : (s.taken .pcie m k ⟨done, false⟩).host = s.host := by simp [State.taken, State.putAsm]
        have same : ((s.taken .pcie m k ⟨done, false⟩).mill m).cmd.held = (s.mill m).cmd.held := by
          cases m <;> rfl
        rw [kept, same] at waits
        exact waits.elim (absurd chute) (absurd held)
      exact ⟨k, by simp [execAll, takes, submits], by simp [tally0], tally1 _⟩
    | cons y ws =>
      have more : (done ++ [x.2]).length < full.length := by simp [← joined]
      rw [if_pos more] at takes
      obtain ⟨j, runs, later0, later1⟩ := ih (done ++ [x.2]) k joined (by simp) fun z hz => at_ z (by simp [hz])
      refine ⟨j, ?_, ?_, later1.trans (tally1 _)⟩
      · simpa only [List.map_cons, execAll, takes] using runs
      · rw [later0, tally0, List.length_cons (a := x), BitVec.add_assoc, BitVec.ofNat_add, BitVec.add_comm 1]
        rfl

end words

/-- Settles O17: every word but the last joins the assembly, and the last one submits what they spell. That the offsets of CMD_WORD do not
matter is a reading of the model (log entry 56). -/
theorem wordsOfACommandMakeItPending : Obligations.WordsOfACommandMakeItPending := by
  unfold Obligations.WordsOfACommandMakeItPending
  intro p m c ws s ha fits spell at_ empty seq room calm clear
  obtain ⟨good, len, parsed⟩ := Cmd.words_spell fits
  have begun : s.taken p m s.tallies ⟨[], false⟩ = s := s.taken_same p m s.tallies empty
  have some_ : ws ≠ [] := by
    rintro rfl
    rw [← spell] at good
    exact absurd good (by decide)
  obtain ⟨k, runs, tally0, tally1⟩ := execAll_cmdWords s p m good len ha clear ws [] s.tallies spell some_ at_
  rw [begun] at runs tally0 tally1
  rw [s.taken_same p m k empty] at runs tally0 tally1
  have live : s.millOut m = false := by
    have out := ha.2.1
    simp only [State.pageLive, Page.island, Page.mill?, Bool.false_eq_true, if_false, Bool.and_eq_true, Bool.not_eq_true'] at out
    exact out.2
  set u : State := { s with tallies := k }
  rw [u.cmdSubmit_of_next m (path := p.code) calm ((congrArg Cmd.seq parsed).trans seq) room live, parsed] at runs
  refine ⟨_, runs, ?_, ?_, ?_, ?_, fun q o other lt => ?_, ?_, ?_⟩
  · cases m <;> rfl
  · rw [State.tally_word, State.onMill_word, State.setWord_word_self, seq]
    rfl
  · rw [State.tally_tallyOf_of_ne _ (by decide) (by decide) (by simp), ← tally0]
    simp [State.tallyOf]
  · rw [State.tally_tallyOf_self, ← tally1]
    simp [State.tallyOf]
  · rw [State.tally_word, State.onMill_word, State.setWord_word_page _ _ _ _ _ _ (by decide) lt other]
    rfl
  · simp [u]
  · simp [u]

end Sys2Proof.Machine
end

section
/-! PROOFS of 13_host_chain.md: the link, D3hot and the chutes (R462 to R473). -/

namespace Sys2Proof.Machine

/-! ## The link (R463) -/

/-- The link is up and the host page in reset, the start having not come to its stage 3. -/
def linkedEarly : State := { State.reset with host := { HostPort.reset with link := 2 } }

/-- Refutes O11: while the host page is in reset, before stage 3 of the start (R589), losing the link raises nothing, and `linkedEarly`
has the link up there. -/
theorem not_linkEventsTrainAndReset : ¬ Obligations.LinkEventsTrainAndReset := by
  unfold Obligations.LinkEventsTrainAndReset
  intro h
  obtain ⟨-, -, -, -, -, loss⟩ := h
  obtain ⟨-, -, -, -, -, -, -, -, raised, -⟩ := loss linkedEarly
  have silent : linkedEarly.linkLoss.bit .host 0x010 5 = false := by decide
  exact Bool.false_ne_true (silent.symm.trans (raised rfl).2)

/-! ## What the device sends in D3hot, and after (R465, R467) -/

variable (s : State)

/-- Is a message an MSI-X vector? -/
def PcieMsg.isMsix : PcieMsg → Bool
  | .msix _ => true
  | .write _ _ => false

/-- A message goes out where the link is up and nothing holds it: an MSI-X vector is counted (R486). -/
theorem State.hostSend_of_awake (msg : PcieMsg) (up : s.host.link = 2) (master : s.host.busMaster = true) (awake : s.host.d3 = false) :
    ∃ l, s.hostSend msg = { s with tallies := l, host := { s.host with sent := msg :: s.host.sent } } ∧
      (∀ p k, k < 16 → (p, k) ≠ (Page.host, 6) → ({ s with tallies := l } : State).tallyOf p k = s.tallyOf p k) ∧
      ({ s with tallies := l } : State).tallyOf .host 6 = s.tallyOf .host 6 + BitVec.ofNat 64 (boolNat msg.isMsix) := by
  have goes (t : State) (h : t = _) : s.hostSend msg = t := ((if_neg (by simp [up, master])).trans (if_neg (by simp [awake]))).trans h.symm
  cases msg with
  | msix v =>
    refine ⟨(s.tally .host 6 1).tallies, goes _ rfl, fun p k hk other => ?_, s.tally_tallyOf_self .host 6 1⟩
    exact s.tally_tallyOf_of_ne (by decide) hk (not_and_or.1 fun e => other (Prod.ext e.1 e.2)) 1
  | write a bs => exact ⟨s.tallies, goes _ rfl, fun _ _ _ _ => rfl, (BitVec.add_zero _).symm⟩

/-- Messages go out one after the other, the last of them the newest that was sent. -/
theorem State.forAll_hostSend_of_awake (l : List PcieMsg) (up : s.host.link = 2) (master : s.host.busMaster = true)
    (awake : s.host.d3 = false) :
    ∃ k, s.forAll l State.hostSend = { s with tallies := k, host := { s.host with sent := l.reverse ++ s.host.sent } } ∧
      (∀ p i, i < 16 → (p, i) ≠ (Page.host, 6) → ({ s with tallies := k } : State).tallyOf p i = s.tallyOf p i) ∧
      ({ s with tallies := k } : State).tallyOf .host 6 = s.tallyOf .host 6 + BitVec.ofNat 64 (l.filter PcieMsg.isMsix).length := by
  induction l generalizing s with
  | nil => exact ⟨s.tallies, rfl, fun _ _ _ _ => rfl, (BitVec.add_zero _).symm⟩
  | cons msg l ih =>
    obtain ⟨j, first, others, six⟩ := s.hostSend_of_awake msg up master awake
    obtain ⟨k, rest, others', six'⟩ := ih (s.hostSend msg) (by simp [first, up]) (by simp [first, master]) (by simp [first, awake])
    rw [first] at rest others' six'
    refine ⟨k, ?_, fun p i hi other => (others' p i hi other).trans (others p i hi other), (six'.trans (congrArg (· + _) six)).trans ?_⟩
    · rw [State.forAll, List.foldl_cons, first]
      refine rest.trans ?_
      simp
    · rw [BitVec.add_assoc, ← BitVec.ofNat_add]
      cases h : msg.isMsix <;> simp [h, boolNat, Nat.add_comm]

/-- Settles O12: in D3hot a message joins what is held, and D0 sends what is held, first to last. -/
theorem d3hotHoldsWhatTheDeviceSends : Obligations.D3hotHoldsWhatTheDeviceSends := by
  unfold Obligations.D3hotHoldsWhatTheDeviceSends
  refine ⟨fun s up => ?enter, fun s msg up master sleeps => ⟨?closed, ?held⟩, fun s up master sleeps => ?exit⟩
  case enter => exact congrArg Host.Outcome.next (if_neg (not_not.2 up))
  case closed => simp [State.barOpen, sleeps]
  case held => rw [State.hostSend, if_neg (by simp [up, master]), if_pos sleeps]
  case exit =>
    obtain ⟨k, sent, others, six⟩ := State.forAll_hostSend_of_awake { s with host := { s.host with d3 := false, held := [] } } s.host.held
      up master rfl
    have leaves : d3hotExit s = _ := (if_neg (by simp [sleeps])).trans sent
    have vectors : PcieMsg.isMsix = fun x => match x with | .msix _ => true | .write _ _ => false := by
      funext x
      cases x <;> rfl
    rw [vectors] at six
    exact ⟨_, congrArg Host.Outcome.next leaves, rfl, others, six⟩

/-! ## The chutes (R470) -/

/-- CHUTE_IN_DEST stands with a bit above its field. -/
def strayDest : State :=
  { State.reset with supply := { State.reset.supply with stage := 9 }, host := { HostPort.reset with link := 2 } }.setWord .host 0x184 0x1000

theorem strayDest_accepts : Accepts strayDest .sys0 .host := by unfold Accepts; decide

/-- Refutes O15: a write of CHUTE_IN_DEST replaces its 44 bits alone, so a word that stands with a bit above them, as in `strayDest`, does
not read back as the word written. -/
theorem not_chuteControlsDoTheirActions : ¬ Obligations.ChuteControlsDoTheirActions := by
  unfold Obligations.ChuteControlsDoTheirActions
  intro h
  obtain ⟨t, written, reads, -⟩ := h.1 .sys0 0 strayDest strayDest_accepts (by decide) (by decide) (by decide)
  have state : chuteInDestWrite .sys0 0 strayDest = t := Host.Outcome.next.inj written
  have stray : (chuteInDestWrite .sys0 0 strayDest).word64 .host 0x180 = 0x100000000000 := by decide
  rw [state, reads] at stray
  exact absurd stray (by decide)

/-! ## Reads of the pages whose words have readers of their own (R469, R495, R549, R578) -/

/-- What a read of a word that stands returns, by the reader of its page, and the state after it. -/
def State.readBy (path : Path) (p : Page) (off : Nat) (x : WordAt) : W32 × State :=
  match p with
  | .host =>
    if off = 0x108 then (s.fifoRead.1, s.fifoRead.2.2.onPath path fun y => y.capture (p.base + off) s.fifoRead.2.1)
    else if 0x208 ≤ off ∧ off ≤ 0x218 ∧ !x.reg.flds.isEmpty then
      if !s.holdsStream path then (0, s.hoistBusy path)
      else if off = 0x218 then match s.hoistRead with
        | some r => r
        | none => (0, s.accessErr path (p.base + off) false 0 .value)
      else s.readReg path p off x
    else s.readReg path p off x
  | .log m => if 0x160 ≤ off ∧ off < 0x180 then s.logRead path m ((off - 0x160) / 4) else s.readReg path p off x
  | .trust =>
    if 0x120 ≤ off ∧ off < 0x140 then s.digestRead path ((off - 0x120) / 4)
    else if (off = 0x118 ∨ off = 0x11C) ∧ !(s.path path).digestCap.isEmpty then s.digestRead path (8 + (off - 0x118) / 4)
    else s.readReg path p off x
  | _ => s.readReg path p off x

/-- A read that reaches its word, and is no read of CHUTE_IN_DONE that waits, is the read of that word by its page's reader. -/
theorem State.regRead_readBy (path : Path) (p : Page) (off : Nat) (x : WordAt) (ho : off < 0x1000) (h4 : off % 4 = 0)
    (ha : Accepts s path p) (hm : inMsix path p off = false) (hx : wordAt p off = some x)
    (hd : path = .pcie → p.base + off = 0x1190 → s.host.chuteBuf = []) :
    s.regRead path (p.base + off) 32 =
      ((s.countAccess path 4).readBy path p off x).2.reply path (((s.countAccess path 4).readBy path p off x).1.zeroExtend 64) := by
  obtain ⟨hopen, hlive, hinj⟩ := ha
  have hb := Page.base_mod p
  have hi : ((s.countAccess path 4).injects .directory 1 && (s.countAccess path 4).injTarget .directory % 8 == path.code) = false := by
    rw [State.countAccess_eq]; exact hinj
  have e : (if path = .pcie then s.tally .host 4 1 else s) = s.countAccess path 4 := rfl
  have hd' : ¬ (path = .pcie ∧ p.base + off = 0x1190 ∧ (!(s.countAccess path 4).host.chuteBuf.isEmpty) = true) := by
    rintro ⟨link, at_, waits⟩
    simp [hd link at_] at waits
  unfold State.regRead
  simp only [hopen, Bool.not_true, Bool.false_eq_true, if_false, e]
  rw [if_neg (by omega), if_neg (by decide), if_neg hd', if_pos trivial]
  unfold State.readWord
  simp only [State.accessInjected_of _ _ hi, pageAt_base p off ho, Page.base_add_mod p off ho, State.countAccess_pageLive, hlive,
    hm, hx, Bool.not_true, Bool.false_eq_true, if_false]
  cases p <;> rfl

/-! ## The inbound chute (R468 to R470) -/

/-- Settles O13: a word of the BAR2 window by its byte enables and its place, and a read of CHUTE_IN_DONE, which waits for the words in
front of it or answers at once. That a discarded word does not advance CHUTE_IN_DEST is a reading of the model (log entry 23). -/
theorem inboundChuteBuffersWords : Obligations.InboundChuteBuffersWords := by
  unfold Obligations.InboundChuteBuffersWords
  refine ⟨fun w s up awake room => ?word, fun s ha => ?done⟩
  case word =>
    intro dest limit
    have fits : ¬chuteRoom ≤ s.host.chuteBuf.length := Nat.not_le.2 room
    have takes (be : BitVec 4) : chuteInWord be w s = _ := if_neg (by simp [State.barOpen, up, awake, fits])
    refine ⟨fun be part => congrArg Host.Outcome.next ((takes be).trans (if_pos part)), fun calm => ?_⟩
    have whole : chuteInWord 15 w s = _ := (takes 15).trans (if_neg (not_not.2 rfl))
    simp only [s.takeInj_of_not_injects calm, Bool.false_eq_true, false_or] at whole
    refine ⟨fun beyond => congrArg Host.Outcome.next (whole.trans (if_pos beyond)), fun below no => ?_, fun below yes => ?_⟩
    · exact congrArg Host.Outcome.next ((whole.trans (if_neg (Nat.not_le.2 below))).trans (if_pos (by simpa using no)))
    · exact congrArg Host.Outcome.next ((whole.trans (if_neg (Nat.not_le.2 below))).trans (if_neg (by simpa using yes)))
  case done =>
    intro u
    refine ⟨fun waits => ?_, fun clear => ?_⟩
    · obtain ⟨hopen, -, -⟩ := ha
      have read : chuteInDoneRead s = { u with host := { u.host with doneWait := some (u.host.chuteBuf.length, false) } } := by
        unfold chuteInDoneRead State.regRead
        rw [if_neg (by simp [hopen])]
        exact (if_neg (by decide)).trans ((if_neg (by decide)).trans (if_pos ⟨rfl, rfl, by simpa using waits⟩))
      exact congrArg Host.Outcome.next read
    · have read := s.regRead_readBy .pcie .host 0x190 _ (by decide) (by decide) ha (by decide) rfl fun _ _ => clear
      rw [State.readBy, if_neg (by decide), if_neg (by decide), State.readReg_low _ _ _ _ _ rfl rfl] at read
      have low : u.peek .host 0x190 = loWord s.host.chuteDone ||| s.word .host 0x190 := by
        simp [State.peek, State.live, State.liveHost, BitVec.or_comm, u]
      have high : u.peek .host 0x194 = hiWord s.host.chuteDone ||| s.word .host 0x194 := by
        simp [State.peek, State.live, State.liveHost, BitVec.or_comm, u]
      exact ⟨_, congrArg Host.Outcome.next read, rfl, congrArg (·.zeroExtend 64) low, congrArg (fun w => (0x1190, w) :: _) high⟩

end Sys2Proof.Machine
end

section
/-! PROOFS of 13_host_chain.md and 17_register_pages.md: events, the hoist stream and the chain (R485 to R495, R591, R593). -/

namespace Sys2Proof.Machine

variable (s : State) (p : Path) (page : Page)

/-! ## Writes of the common header (R591) -/

/-- No word of a page's header needs a claim. -/
theorem State.needsClaim_header {off : Nat} (h : off < 0x100) : s.needsClaim p page off = none := by
  cases page <;> simp only [State.needsClaim] <;> rw [if_neg (by omega)]

/-- A row of registers that takes a write through a path: writable, 32 bits wide, and open to the path where LOCK is set. -/
def State.Takes (r : Reg) : Prop :=
  r.wide = false ∧ r.flds.isEmpty = false ∧ (r.flds.all fun f => f.acc == .ro || f.acc == .rc) = false ∧
    ((r.flds.any fun f => f.acc == .rw && f.beh) = true → Unlocked s p page)

/-- What a write of EVT_EN, EVT_CLR, INJ_CTL or CLAIM does, by the word's offset. -/
def State.writeHeader (w : W32) : Nat → State
  | 0x014 => s.writeEvtEn p page w
  | 0x01C => s.writeEvtClr p page w
  | 0x024 => s.writeInjCtl p page w
  | _ => s.writeClaim p page w

/-- A write that reaches EVT_EN, EVT_CLR, INJ_CTL or CLAIM of a page is what the word stands for. -/
theorem State.regWrite_header {off : Nat} (r : Reg) (w : W32) (hoff : off = 0x014 ∨ off = 0x01C ∨ off = 0x024 ∨ off = 0x02C)
    (hc : off = 0x02C → page.claimCodes ≠ 0) (ha : Accepts s p page) (hx : wordAt page off = some ⟨r, 0, false⟩)
    (hr : s.Takes p page r) :
    s.regWrite p (page.base + off) 32 (w.zeroExtend 64) = (s.countAccess p 5).writeHeader p page w off := by
  obtain ⟨narrow, some_, writable, open_⟩ := hr
  have fields : (⟨r, 0, false⟩ : WordAt).fields = r.flds := by simp [WordAt.fields, narrow]
  have unlocked : ¬((s.bit page 0x008 0 = true ∧ (!(p == .sys0 || p == .sys1)) = true ∧
      (r.flds.any fun f => f.acc == .rw && f.beh) = true)) := by
    rintro ⟨locked, outside, behaves⟩
    obtain clear | rfl | rfl := open_ behaves
    · exact Bool.false_ne_true (clear.symm.trans locked)
    · simp at outside
    · simp at outside
  have bit : (s.countAccess p 5).bit page 0x008 0 = s.bit page 0x008 0 := by simp [State.bit]
  rw [State.regWrite_word s p page off _ _ (by omega) (by omega) ha (by rw [inMsix, decide_eq_false (by omega)]; simp) hx,
    loWord_zeroExtend]
  unfold State.writeReg
  simp only [fields, narrow, bit, State.needsClaim_header _ p page (show off < 0x100 by omega), some_, writable, Bool.false_eq_true,
    false_and, if_false]
  rw [if_neg (by omega), if_neg (fun h => hc h.1 h.2), if_neg (by omega), if_neg unlocked]
  obtain rfl | rfl | rfl | rfl := hoff <;> rfl

theorem evtEn_eq (w : W32) (ha : Accepts s p page) (un : Unlocked s p page) :
    evtEn p page w s = (s.countAccess p 5).writeEvtEn p page w :=
  s.regWrite_header p page _ w (.inl rfl) nofun ha rfl ⟨rfl, rfl, rfl, fun _ => un⟩

theorem evtClr_eq (w : W32) (ha : Accepts s p page) : evtClr p page w s = (s.countAccess p 5).writeEvtClr p page w :=
  s.regWrite_header p page _ w (.inr (.inl rfl)) nofun ha rfl ⟨rfl, rfl, rfl, nofun⟩

/-! ## EVT_EN, EVT_CLR and EVT_FIFO (R485, R591, R593) -/

/-- A write of EVT_EN that names events of the page alone stores them, and the non-maskable ones (R21). -/
theorem State.writeEvtEn_of_named {w : W32} (some_ : page.eventMask ≠ 0) (named : w.toNat &&& page.eventMask = w.toNat) :
    s.writeEvtEn p page w = ((s.setWord page 0x014 (BitVec.ofNat 32 (w.toNat ||| page.nmiMask))).setGen page).enabled page
      (s.word page 0x014) := by
  simp [State.writeEvtEn, some_, named, State.stored]

/-- A write of EVT_CLR that names events of the page alone clears them. -/
theorem State.writeEvtClr_of_named {w : W32} (some_ : page.eventMask ≠ 0) (named : w.toNat &&& page.eventMask = w.toNat) :
    s.writeEvtClr p page w = s.setWord page 0x010 (s.word page 0x010 &&& ~~~w) := by
  simp [State.writeEvtClr, some_, named]

/-- A read of EVT_FIFO takes the oldest entry, and captures its high word. -/
theorem evtFifoRead_eq (ha : Accepts s p .host) : evtFifoRead p s =
    let u := s.countAccess p 4
    (u.fifoRead.2.2.onPath p fun y => y.capture 0x1108 u.fifoRead.2.1).reply p (u.fifoRead.1.zeroExtend 64) :=
  s.regRead_readBy p .host 0x108 _ (by decide) (by decide) ha (by simp [inMsix]) rfl nofun

theorem State.fifoRead_of_empty (h : s.host.fifo = []) :
    s.fifoRead = (0, 0, { s with host := { s.host with fifoLost := false } }) := by
  simp [State.fifoRead, h, State.onHost]

theorem State.fifoRead_of_entry {e : EvEntry} {rest : List EvEntry} (h : s.host.fifo = e :: rest) :
    s.fifoRead = (e.pageId, e.high, { s with host := { s.host with fifo := rest, fifoLost := s.host.fifoLost && !rest.isEmpty } }) := by
  simp [State.fifoRead, h, State.onHost]

/-- Taking from the event FIFO, a path captures the high word and returns the low one. -/
theorem evtFifoRead_of_taken {lo hi : W32} {h : HostPort} (ha : Accepts s p .host)
    (taken : (s.countAccess p 4).fifoRead = (lo, hi, { s.countAccess p 4 with host := h })) :
    ((evtFifoRead p s).path p).reply = lo.zeroExtend 64 ∧ (evtFifoRead p s).host = h ∧
      ((evtFifoRead p s).path p).caps = (0x1108, hi) :: (s.path p).caps.filter fun c => c.1 != 0x1108 := by
  have own : ({ s.countAccess p 4 with host := h } : State).path p = s.path p := by
    cases p <;> rfl
  rw [evtFifoRead_eq s p ha]
  simp only [taken, State.reply, State.onPath_path, State.onPath_host, own, PathState.capture, and_self]

/-- Taking the oldest entry of the event FIFO changes the host port alone. -/
theorem State.fifoRead_frame : ∃ h, s.fifoRead.2.2 = { s with host := h } := by
  unfold State.fifoRead
  cases s.host.fifo <;> exact ⟨_, rfl⟩

/-! ## HOIST_DATA (R494, R495) -/

/-- The address in the pair of words at an offset of the host page, HOIST_DEST's or HOIST_SRC's, is as given. -/
def State.hoistAt (off a : Nat) : State := (s.putFld .host off 0 32 (natBits a 0 32)).putFld .host (off + 4) 0 12 (natBits a 32 12)

/-- The low 44 bits of a register of the host page are those of its two words. -/
theorem State.fld64_words (off : Nat) : s.fld64 .host off 0 44 = 2 ^ 32 * s.fld .host (off + 4) 0 12 + s.fld .host off 0 32 := by
  simp only [State.fld64, State.fld, State.word64, bitsOf, natBits, mkWord64_toNat]
  omega

theorem State.hoistAt_fld64 (off a : Nat) : (s.hoistAt off a).fld64 .host off 0 44 = a % 2 ^ 44 := by
  have low : (s.hoistAt off a).fld .host off 0 32 = natBits a 0 32 :=
    (State.putFld_fld_apart _ _ _ (.inl (by omega)) (by decide) (by decide)).trans
      (s.putFld_fld_self .host off (by decide) (Nat.mod_lt _ (by decide)))
  have high : (s.hoistAt off a).fld .host (off + 4) 0 12 = natBits a 32 12 :=
    State.putFld_fld_self _ _ _ (by decide) (Nat.mod_lt _ (by decide))
  rw [State.fld64_words, low, high, natBits, natBits]
  omega

theorem State.hoistAt_bit (off a : Nat) : (s.hoistAt off a).bit .host (off + 4) 31 = s.bit .host (off + 4) 31 := by
  rw [State.bit_eq_fld, State.hoistAt, State.putFld_fld_apart _ _ _ (.inr (.inr (by decide))) (by decide) (by decide),
    State.putFld_fld_apart _ _ _ (.inl (by omega)) (by decide) (by decide), ← State.bit_eq_fld]

/-- The registers, the non-volatile store and the bytes counted of the hoist stream. -/
def State.hoistView : Cells W32 × List Host.Cell × W64 := (s.regs, s.nvBytes, s.tallyOf .host 13)

theorem State.onMill_hoistView (m : MillId) (f : Mill → Mill) : (s.onMill m f).hoistView = s.hoistView := by
  simp [State.hoistView, State.tallyOf]

theorem State.dropLine_hoistView (line : Nat) : (s.dropLine line).hoistView = s.hoistView := by
  unfold State.dropLine
  split
  · rfl
  · next port _ =>
    have tally (n : Nat) := (s.onSluice port.mill fun x => x.discard line).tally_tallyOf_of_ne (p := .granary port.mill) (q := .host)
      (k := 2) (i := 13) (by decide) (by decide) (.inl nofun) n
    rw [State.hoistView, tally, State.tally_regs, State.tally_nvBytes]
    exact s.onMill_hoistView port.mill _

/-- A write of memory leaves the registers, the non-volatile store and what is counted of the hoist stream. -/
theorem State.physWrite_hoistView (a : Nat) (bs : List Byte) : (s.physWrite a bs).hoistView = s.hoistView := by
  rw [State.physWrite, State.onMill_hoistView, State.rawWrite]
  split
  · rfl
  · exact State.forAll_part _ State.hoistView _ _ State.dropLine_hoistView

/-- An access counted leaves the other tallies of the host page. -/
theorem State.countAccess_tallyOf_host {k i : Nat} (hk : k < 16) (hi : i < 16) (h : i ≠ k) :
    (s.countAccess p k).tallyOf .host i = s.tallyOf .host i := by
  unfold State.countAccess
  split
  · exact s.tally_tallyOf_of_ne hk hi (.inr h) 1
  · rfl

theorem leNat_lt (bs : List Byte) : leNat bs < 256 ^ bs.length := by
  induction bs with
  | nil => decide
  | cons b bs ih =>
    have := b.isLt
    rw [leNat, List.length_cons, Nat.pow_succ]
    omega

/-- 4 bytes of memory in a register of 32 bits, returned in one of 64. -/
theorem zeroExtend_leNat (bs : List Byte) (h : bs.length = 4) : (BitVec.ofNat 32 (leNat bs)).zeroExtend 64 = BitVec.ofNat 64 (leNat bs) := by
  have small : leNat bs < 256 ^ 4 := h ▸ leNat_lt bs
  refine BitVec.eq_of_toNat_eq ?_
  simp only [BitVec.truncate_eq_setWidth, BitVec.toNat_setWidth, BitVec.toNat_ofNat]
  omega

/-- A word of HOIST_DATA for memory is written at HOIST_DEST, which rises by 4. -/
theorem State.hoistWrite_of_memory (w : W32) (mem : s.bit .host 0x20C 31 = false) (core : s.corePower = true)
    (in_ : s.inMem (s.fld64 .host 0x208 0 44) 4 = true) : s.hoistWrite w =
      some (((s.physWrite (s.fld64 .host 0x208 0 44) (leBytes 4 w.toNat)).hoistAt 0x208 (s.fld64 .host 0x208 0 44 + 4)).tally .host 13 4) := by
  simp only [State.hoistWrite, mem, core, in_, Bool.false_eq_true, if_false, Bool.and_true, Bool.not_true]
  rfl

/-- A word of HOIST_DATA from memory is read at HOIST_SRC, which rises by 4. -/
theorem State.hoistRead_of_memory (mem : s.bit .host 0x214 31 = false) (core : s.corePower = true)
    (in_ : s.inMem (s.fld64 .host 0x210 0 44) 4 = true) : s.hoistRead =
      some (BitVec.ofNat 32 (leNat (s.physRead (s.fld64 .host 0x210 0 44) 4)),
        (s.hoistAt 0x210 (s.fld64 .host 0x210 0 44 + 4)).tally .host 13 4) := by
  simp only [State.hoistRead, mem, core, in_, Bool.false_eq_true, if_false, Bool.and_true, Bool.not_true]
  rfl

/-- A write of a 32-bit register that needs a claim is refused to a path that does not hold it. -/
theorem State.writeReg_unclaimed (path : Path) (p : Page) (off : Nat) (x : WordAt) (w : W32) {code : Nat} (ho : 0x100 ≤ off)
    (hw : x.reg.wide = false) (hhi : x.hi = false) (h1 : (x.reg.flds.all fun f => f.acc == .ro || f.acc == .rc) = false)
    (hclaim : s.needsClaim path p off = some code) : s.writeReg path p off x w = s.claimBusy p code (s.holder p) path.code := by
  have hfs : x.fields = x.reg.flds := by simp [WordAt.fields, hw]
  have h3 : x.reg.flds.isEmpty = false := by
    cases h : x.reg.flds with
    | nil => simp [h] at h1
    | cons => rfl
  unfold State.writeReg
  simp only [hfs, hhi, Bool.false_eq_true, if_false, h1, h3, hclaim]
  rw [if_neg (by omega), if_neg (by omega), if_neg (by omega)]

/-- A path without the hoist stream is refused a write of HOIST_DATA. -/
theorem hoistDataWrite_of_other (w : W32) (ha : Accepts s p .host) (other : s.holdsStream p = false) :
    hoistDataWrite p w s = (s.countAccess p 5).hoistBusy p := by
  have other' : (s.countAccess p 5).holdsStream p = false := by rw [State.countAccess_eq]; exact other
  have claim : (s.countAccess p 5).needsClaim p .host 0x218 = some (streamCode p) := if_pos ⟨by decide, by decide, by simp [other']⟩
  rw [hoistDataWrite, State.regWrite_word s p .host 0x218 _ _ (by decide) (by decide) ha (by simp [inMsix]) rfl]
  exact State.writeReg_unclaimed _ p .host 0x218 _ _ (by decide) rfl rfl rfl claim

/-- A path with the hoist stream writes HOIST_DATA. -/
theorem hoistDataWrite_of_holds {w : W32} {t : State} (ha : Accepts s p .host) (holds : s.holdsStream p = true)
    (writes : (s.countAccess p 5).hoistWrite w = some t) : hoistDataWrite p w s = t := by
  have holds' : (s.countAccess p 5).holdsStream p = true := by rw [State.countAccess_eq]; exact holds
  rw [hoistDataWrite, State.regWrite_word s p .host 0x218 _ _ (by decide) (by decide) ha (by simp [inMsix]) rfl, loWord_zeroExtend]
  refine State.writeReg_custom _ p .host 0x218 _ (by decide) rfl rfl rfl rfl (if_neg (by simp [holds'])) ?_
  simp [State.writeCustom, writes]

/-- A path without the hoist stream is refused a read of HOIST_DATA, and reads 0. -/
theorem hoistDataRead_of_other (ha : Accepts s p .host) (other : s.holdsStream p = false) :
    hoistDataRead p s = ((s.countAccess p 4).hoistBusy p).reply p 0 := by
  have other' : (s.countAccess p 4).holdsStream p = false := by rw [State.countAccess_eq]; exact other
  have read := s.regRead_readBy p .host 0x218 _ (by decide) (by decide) ha (by simp [inMsix]) rfl nofun
  rw [State.readBy, if_neg (by decide), if_pos ⟨by decide, by decide, rfl⟩, if_pos (by simp [other'])] at read
  exact read

/-- A path with the hoist stream reads HOIST_DATA. -/
theorem hoistDataRead_of_holds {w : W32} {t : State} (ha : Accepts s p .host) (holds : s.holdsStream p = true)
    (reads : (s.countAccess p 4).hoistRead = some (w, t)) : hoistDataRead p s = t.reply p (w.zeroExtend 64) := by
  have holds' : (s.countAccess p 4).holdsStream p = true := by rw [State.countAccess_eq]; exact holds
  have read := s.regRead_readBy p .host 0x218 _ (by decide) (by decide) ha (by simp [inMsix]) rfl nofun
  rw [State.readBy, if_neg (by decide), if_pos ⟨by decide, by decide, rfl⟩, if_neg (by simp [holds']), if_pos rfl, reads] at read
  exact read

/-- Settles O51: each write of the header is the store it names, a read of EVT_FIFO the taking of its oldest entry, and HOIST_DATA moves
4 bytes at the address that rises. Who holds the stream is seen in the claim code of the path (log entry 21). -/
theorem eventsAndHoistDataMove : Obligations.EventsAndHoistDataMove := by
  unfold Obligations.EventsAndHoistDataMove
  refine ⟨⟨fun p page w s ha some_ named => ⟨fun un => ?en, ?clr⟩, fun p s ha => ?fifo⟩, fun p s ha => ⟨fun other w => ?busy, fun holds => ⟨fun w => ?write, ?read⟩⟩⟩
  case en =>
    refine congrArg Host.Outcome.next ((evtEn_eq s p page w ha un).trans ?_)
    rw [State.writeEvtEn_of_named _ _ _ some_ named, State.countAccess_word]
  case clr =>
    refine congrArg Host.Outcome.next ((evtClr_eq s p page w ha).trans ?_)
    rw [State.writeEvtClr_of_named _ _ _ some_ named, State.countAccess_word]
  case fifo =>
    obtain ⟨h, frame⟩ := (s.countAccess p 4).fifoRead_frame
    refine ⟨evtFifoRead p s, rfl, ?_, fun q o _ => ?_, fun none_ => ?_, fun e rest some_ => ?_⟩
    · simp [evtFifoRead_eq s p ha, State.reply, frame]
    · simp [evtFifoRead_eq s p ha, State.reply, frame, State.word]
    · simpa using evtFifoRead_of_taken s p ha (State.fifoRead_of_empty _ (by simpa using none_))
    · simpa using evtFifoRead_of_taken s p ha (State.fifoRead_of_entry _ (by simpa using some_))
  case busy => exact ⟨congrArg Host.Outcome.next (hoistDataWrite_of_other s p w ha other),
      congrArg Host.Outcome.next (hoistDataRead_of_other s p ha other)⟩
  case write =>
    intro a mem core in_
    set u := s.countAccess p 5 with hu
    have same : u = { s with tallies := u.tallies } := State.countAccess_eq s p 5
    have writes := u.hoistWrite_of_memory w (by rw [same]; exact mem) (by rw [same]; exact core) (by rw [same]; exact in_)
    have addr : u.fld64 .host 0x208 0 44 = a := by rw [same]; rfl
    rw [addr] at writes
    have view := u.physWrite_hoistView a (leBytes 4 w.toNat)
    simp only [State.hoistView, Prod.mk.injEq] at view
    obtain ⟨regs, store, tally⟩ := view
    refine ⟨_, congrArg Host.Outcome.next (hoistDataWrite_of_holds s p ha holds writes), ?_, fun b out => ?_, ?_, ?_, ?_, ?_⟩
    · have back := u.physRead_physWrite a (leBytes 4 w.toNat)
      rw [leBytes_length] at back
      exact back
    · exact (u.physRead_physWrite_of_outside (by simpa using out)).trans (by rw [same]; rfl)
    · exact State.hoistAt_fld64 _ _ _
    · refine (State.hoistAt_bit _ _ _).trans ?_
      rw [State.bit, State.word, regs, same]
      exact mem
    · exact store.trans (by rw [same])
    · rw [State.tally_tallyOf_self, ← s.countAccess_tallyOf_host p (k := 5) (i := 13) (by decide) (by decide) (by decide)]
      exact congrArg (· + 4#64) tally
  case read =>
    intro a mem core in_
    set u := s.countAccess p 4 with hu
    have same : u = { s with tallies := u.tallies } := State.countAccess_eq s p 4
    have reads := u.hoistRead_of_memory (by rw [same]; exact mem) (by rw [same]; exact core) (by rw [same]; exact in_)
    have addr : u.fld64 .host 0x210 0 44 = a := by rw [same]; rfl
    rw [addr] at reads
    refine ⟨_, congrArg Host.Outcome.next (hoistDataRead_of_holds s p ha holds reads), ?_, ?_, ?_, ?_, ?_⟩
    · rw [State.reply, State.onPath_path]
      exact (zeroExtend_leNat _ (by simp)).trans (by rw [same]; rfl)
    · rw [State.fld64, State.word64, State.reply, State.onPath_word, State.onPath_word]
      exact State.hoistAt_fld64 _ _ _
    · rw [State.reply, State.onPath_mem, same]
      rfl
    · rw [State.reply, State.onPath_nvBytes, same]
      rfl
    · rw [State.tallyOf, State.reply, State.onPath_tallies, ← State.tallyOf, State.tally_tallyOf_self,
        ← s.countAccess_tallyOf_host p (k := 4) (i := 13) (by decide) (by decide) (by decide)]
      rfl

/-! ## The frames of the hoist chain (R490 to R492) -/

section chain
variable (op : BitVec 4) (b : BitVec 124) (act : State → ChainFrame → State)

theorem State.chainFrame_of_passes (h : s.hoist.bypass = true) :
    s.chainFrame op b act = { s with hoist := { s.hoist with out := some b } } := if_pos h

variable (opened : s.hoist.bypass = false) (calm : s.injArmed .host = false)
include opened calm

/-- A frame that the bypass does not carry on, where no injection waits, by its CRC and its STATUS. -/
theorem State.chainFrame_of_opened : s.chainFrame op b act =
    if (parseChain b).crc ≠ chainCrc b then ((s.hostTally 11).raise .host 4).forward { parseChain b with status := 0xFE }
    else if (parseChain b).status = 0xFE ∨ (parseChain b).op ≠ op then s.forward (parseChain b)
    else act s (parseChain b) := by
  simp [State.chainFrame, opened, s.takeInj_of_not_injects (s.injects_of_unarmed calm 1)]

theorem State.chainFrame_of_damaged (bad : (parseChain b).crc ≠ chainCrc b) :
    s.chainFrame op b act = ((s.hostTally 11).raise .host 4).forward { parseChain b with status := 0xFE } := by
  rw [s.chainFrame_of_opened op b act opened calm, if_pos bad]

theorem State.chainFrame_of_marked (good : (parseChain b).crc = chainCrc b) (marked : (parseChain b).status = 0xFE) :
    s.chainFrame op b act = s.forward (parseChain b) := by
  rw [s.chainFrame_of_opened op b act opened calm, if_neg (not_not.2 good), if_pos (.inl marked)]

/-- A good frame of an operation is what the operation says. -/
theorem State.chainFrame_acts (good : (parseChain b).crc = chainCrc b) (clear : (parseChain b).status ≠ 0xFE)
    (names : (parseChain b).op = op) : s.chainFrame op b act = act s (parseChain b) := by
  rw [s.chainFrame_of_opened op b act opened calm, if_neg (not_not.2 good), if_neg (not_or.2 ⟨clear, not_not.2 names⟩)]

end chain

/-- Each command of the chain is a frame at the module; the level of the enumeration contact that ENUMERATE brings is as it was. -/
theorem exec_chainCommand {b : BitVec 124} {c : Instr}
    (h : c ∈ [Instr.read b, .write b, .result b, .enumerate b s.hoist.enumIn, .forget b, .poll b]) :
    ∃ op act, exec c s = .next (s.chainFrame op b act) := by
  simp only [List.mem_cons, List.not_mem_nil, or_false] at h
  obtain rfl | rfl | rfl | rfl | rfl | rfl := h <;> exact ⟨_, _, rfl⟩

/-! ### The operations -/

section operations
variable (f : ChainFrame)

/-- A tag is held where a read is found under it. -/
theorem State.reads_any_tag (tag : Nat) : (s.hoist.reads.any fun r => r.tag == tag) = true ↔
    s.hoist.reads.find? (fun r => r.tag == tag) ≠ none := by
  rw [List.any_eq_true, ← List.find?_isSome, Option.isSome_iff_ne_none]

theorem State.chainRead_of_held (here : s.addressed f = true) (addr : f.addr ≠ 0)
    (full : 16 ≤ s.hoist.reads.length ∨ s.hoist.reads.find? (fun r => r.tag == f.tag.toNat) ≠ none) : s.chainRead f = s.answer f 0x04 := by
  rw [State.chainRead, if_neg (by simp [here]), if_neg addr, if_pos (full.imp_right (s.reads_any_tag _).2)]

theorem State.chainRead_of_free (here : s.addressed f = true) (addr : f.addr ≠ 0) (room : s.hoist.reads.length < 16)
    (free : s.hoist.reads.find? (fun r => r.tag == f.tag.toNat) = none) : s.chainRead f = (({ s with hoist := { s.hoist with
      reads := s.hoist.reads ++ [{ tag := f.tag.toNat, offset := f.offset.toNat, done := false, data := 0 }] } } : State).answer f 0x01) := by
  rw [State.chainRead, if_neg (by simp [here]), if_neg addr,
    if_neg (not_or.2 ⟨Nat.not_le.2 room, fun held => (s.reads_any_tag _).1 held free⟩)]
  rfl

theorem State.chainResult_of_free (here : s.addressed f = true) (free : s.hoist.reads.find? (fun r => r.tag == f.tag.toNat) = none) :
    s.chainResult f = s.forward f := by
  simp [State.chainResult, here, free]

theorem State.chainResult_of_held {r : ChainRead} (here : s.addressed f = true)
    (held : s.hoist.reads.find? (fun r => r.tag == f.tag.toNat) = some r) : s.chainResult f =
      if r.done = true then ({ s with hoist := { s.hoist with reads := s.hoist.reads.filter fun r => r.tag != f.tag.toNat } } : State).answer
        { f with data := r.data } 0x02
      else (s.hostTally 12).answer f 0x03 := by
  simp [State.chainResult, here, held, State.onHoist]

/-- The module takes the address that ENUMERATE brings, where it has none and its contact is asserted. -/
theorem State.chainEnumerate_of_taken (all : f.addr = 0xFFF) (none_ : s.hoist.addr = 0xFFF) (level : s.hoist.enumIn = true)
    (lo : 1 ≤ f.data.toNat) (hi : f.data.toNat ≤ 4094) : s.chainEnumerate f =
      (({ s with hoist := { s.hoist with addr := BitVec.ofNat 12 f.data.toNat, enumOut := true } } : State).raise .host 7).answer f 0x01 := by
  have some_ : f.data ≠ 0 := by
    rintro h
    simp [h] at lo
  rw [State.chainEnumerate, if_neg (by simp [all, none_, level]), if_neg (not_or.2 ⟨some_, Nat.not_lt.2 hi⟩)]
  rfl

end operations

/-- Settles O53: a frame by the bypass, its CRC and its STATUS, then each operation by its address and what the module holds. That
RESULT with a tag that no read holds passes on is a reading of the model (log entry 20). -/
theorem chainFramesDoTheirOperations : Obligations.ChainFramesDoTheirOperations := by
  unfold Obligations.ChainFramesDoTheirOperations
  refine ⟨fun b c s h => ?any, fun b s opened calm good clear => ?good, fun tag r s first => ?done⟩
  case any =>
    obtain ⟨op, act, does⟩ := exec_chainCommand s h
    rw [does]
    exact ⟨fun passes => congrArg _ (s.chainFrame_of_passes op b act passes), fun opened calm =>
      ⟨fun bad => congrArg _ (s.chainFrame_of_damaged op b act opened calm bad),
        fun good marked => congrArg _ (s.chainFrame_of_marked op b act opened calm good marked)⟩⟩
  case good =>
    intro f holds
    have acts (op : BitVec 4) (act : State → ChainFrame → State) (u : State) (names : f.op = op) (h : act s f = u) :
        (.next (s.chainFrame op b act) : Host.Outcome State Fault Refusal) = .next u :=
      congrArg _ ((s.chainFrame_acts op b act opened calm good clear names).trans h)
    refine ⟨fun other => ⟨?_, ?_, ?_⟩, fun here => ⟨fun names => ⟨?_, ?_, ?_⟩, ?_, fun names => ⟨?_, ?_, ?_⟩⟩, fun names level => ?enumerate,
      fun names all => ?_, fun names all => ?_⟩
    · exact fun names => acts _ _ _ names (if_pos (by simp [other]))
    · exact fun names => acts _ _ _ names (if_pos (by simp [other]))
    · exact fun names => acts _ _ _ names (if_pos (by simp [other]))
    · exact fun all => acts _ _ _ names ((if_neg (by simp [here])).trans (if_pos all))
    · exact fun addr full => acts _ _ _ names (s.chainRead_of_held f here addr full)
    · exact fun addr room free => acts _ _ _ names (s.chainRead_of_free f here addr room free)
    · exact fun names => acts _ _ _ names (if_neg (by simp [here]))
    · exact fun free => acts _ _ _ names (s.chainResult_of_free f here free)
    · exact fun r held open_ => acts _ _ _ names ((s.chainResult_of_held f here held).trans (if_neg (by simp [open_])))
    · exact fun r held done => acts _ _ _ names ((s.chainResult_of_held f here held).trans (if_pos done))
    case enumerate =>
      intro u
      have takes := u.chainFrame_acts 4 b State.chainEnumerate opened calm good clear names
      exact ⟨fun not_ => congrArg _ (takes.trans (if_pos not_)),
        fun all none_ asserted lo hi => congrArg _ (takes.trans (u.chainEnumerate_of_taken f all none_ asserted lo hi))⟩
    · exact acts _ _ _ names (if_neg (not_not.2 all))
    · exact acts _ _ _ names (if_neg (not_not.2 all))
  case done =>
    intro t open_
    refine congrArg Host.Outcome.next ?_
    simp only [chainReadDone, first]
    rw [if_pos open_]
    rfl

end Sys2Proof.Machine
end

section
/-! PROOFS of 00_scope.md, 14_miller_power_clock.md and 18_module_electrical.md: the step, the island, the limits of the input and of the
junction (R523, R527, R613, R614, R633). -/

namespace Sys2Proof.Machine

variable (s : State)

/-! ## A nanosecond leaves what memory holds (log entry 1) -/

theorem State.tickTally_mem (p : Page) (k : Nat) (on : Bool) : (s.tickTally p k on).mem = s.mem := by
  unfold State.tickTally
  split <;> rfl

theorem State.tickMill_mem (m : MillId) : (s.tickMill m).mem = s.mem := by
  have energy (t : State) : (t.tickEnergy m).mem = t.mem := by
    unfold State.tickEnergy
    split
    · rfl
    · exact State.onMill_mem _ _ _
  simp only [State.tickMill, energy, State.tickTally_mem]

theorem State.tickModule_mem : s.tickModule.mem = s.mem := by
  rw [State.tickModule, State.forAll_part _ State.mem _ _ fun t p => t.tickTally_mem _ _ _]
  simp only [State.tickTally_mem]

theorem State.tickPond_mem : s.tickPond.mem = s.mem := by
  unfold State.tickPond
  split <;> rfl

theorem State.tickTimers_mem (m : MillId) : (s.tickTimers m).mem = s.mem := by
  unfold State.tickTimers
  split
  · rfl
  · exact State.onMill_mem _ _ _

theorem State.tickCtx_mem (m : MillId) (c : Ctx) : (s.tickCtx m c).mem = s.mem := by
  have trigger (t : State) : (t.logTrigger m).mem = t.mem := (OnlyEvents.logTrigger (s := t) m).mem
  have held (t : State) (f : Context → Context) : (t.onCtx m c f).mem = t.mem := by
    cases c <;> exact State.onMill_mem _ _ _
  unfold State.tickCtx
  split
  · rfl
  · simp only
    split
    · rw [trigger, held]
    · rw [held]

theorem State.tickTime_mem : s.tickTime.mem = s.mem := rfl

theorem tick_mem : (tick s).mem = s.mem := by
  unfold tick
  split
  · rfl
  · simp only [State.tickTime_mem, State.tickTimers_mem, State.tickPond_mem, State.tickModule_mem, State.tickMill_mem, State.tickCtx_mem]

/-- Settles O58: the queue and the tick, as the model has them (log entry 1). -/
theorem stepTakesTheFrontCommand : Obligations.StepTakesTheFrontCommand := by
  unfold Obligations.StepTakesTheFrontCommand
  refine ⟨fun c rest s h => step_of_command h, fun s h => ?_, fun c s => ?_, fun nbits w s => ⟨rfl, rfl⟩⟩
  · exact ⟨tick s, step_of_no_command h, (tick_keeps s).1.trans h, tick_mem s⟩
  · obtain ⟨t, next, -⟩ := exec_keeps c s
    exact ⟨t, next⟩

/-! ## The island (R523, R527, R589, R613) -/

/-- Settles O1: the island begins anew, and keeps the fuses, the store and the queue. What is in no register of a page is as log entries 2
and 5 have it. -/
theorem islandPowerCyclesResetEveryPage : Obligations.IslandPowerCyclesResetEveryPage := by
  unfold Obligations.IslandPowerCyclesResetEveryPage
  refine ⟨fun v s off lo hi => congrArg Host.Outcome.next (if_neg ?_), fun v s low => congrArg Host.Outcome.next (if_neg (Nat.not_le.2 low))⟩
  simp [off, inRange, lo, hi]

/-- Settles O59: the state at reset, by evaluation of its empty tables. -/
theorem resetBeginsTheStart : Obligations.ResetBeginsTheStart := by
  unfold Obligations.ResetBeginsTheStart
  refine ⟨⟨rfl, rfl, rfl, rfl, by decide⟩, rfl, rfl, fun p => ?_, fun p => ?_, fun p off => rfl, fun p k => rfl, rfl, rfl, rfl⟩
  · unfold State.pageLive
    split <;> rfl
  · cases p <;> rfl

/-! ## What a loss of core power leaves (R614) -/

/-- What outlasts core power: HBM4 and DDR5, the non-volatile bytes, the fuses and the commands that wait. -/
def State.lasting : List Host.Cell × List Host.Cell × Fuses × List Instr := (s.mem, s.nvBytes, s.fuses, s.pending)

theorem OnlyEvents.lasting {s t : State} (h : OnlyEvents s t) : t.lasting = s.lasting := by rw [h]; rfl

theorem OnlyEvents.readsCounted (a n : Nat) : OnlyEvents s (s.readsCounted a n) := by
  unfold State.readsCounted
  split
  · exact .refl s
  · exact .tally _ _ _ _

theorem OnlyEvents.sendCopy (payload fuel src dst n : Nat) : OnlyEvents s (State.sendCopy payload fuel src dst n s) := by
  induction fuel generalizing src dst n s with
  | zero => exact .refl s
  | succ fuel ih =>
    rw [State.sendCopy]
    split
    · exact .refl s
    · exact ((OnlyEvents.readsCounted s _ _).trans (.hostSend _ _)).trans (ih _ _ _ _)

/-- What the bytes of a copy that are sent change is what events change. -/
theorem OnlyEvents.endCopyAt (n why : Nat) : OnlyEvents s (s.endCopyAt n why) :=
  ((((OnlyEvents.sendCopy s _ _ _ _ _).trans (.tally _ _ _ _)).trans (.setWord64 _ _ _ _)).trans (.putFld _ _ _ _ _ _)).trans (.raise _ _ _)

theorem State.endCopy_lasting (why : Nat) : (s.endCopy why).lasting = s.lasting := by
  unfold State.endCopy
  split
  · rfl
  · exact (OnlyEvents.endCopyAt s.drawn _ why).lasting

theorem State.linkLoss_lasting : s.linkLoss.lasting = s.lasting := by
  have cleared (t : State) (m : MillId) (f : CommandFile → CommandFile) : (t.onCmd m f).lasting = t.lasting := by
    cases m <;> rfl
  unfold State.linkLoss
  simp only
  split
  · rw [((OnlyEvents.tally _ _ _ _).trans (.raise _ _ _)).lasting, State.forAll_part _ State.lasting _ _ fun t m => cleared t m _]
    exact s.endCopy_lasting 4
  · rw [State.forAll_part _ State.lasting _ _ fun t m => cleared t m _]
    exact s.endCopy_lasting 4

theorem State.restart_lasting : s.restart.lasting = s.lasting := by
  have off : (s.coreOff 3).lasting = s.lasting := by
    unfold State.coreOff
    simp only
    split
    · exact s.linkLoss_lasting
    · rfl
  exact off

theorem State.inputAt_eq (v : Nat) : s.inputAt v =
    if inRange s.supply.inputCv = true ∧ inRange v = false then
      ({ s with supply := { s.supply with inputCv := v } } : State).raise .supply 3
    else { s with supply := { s.supply with inputCv := v } } := by
  cases a : inRange s.supply.inputCv <;> cases b : inRange v <;> simp [State.inputAt, State.onSupply, a, b]

theorem State.inputAt_stage (v : Nat) : (s.inputAt v).supply.stage = s.supply.stage := by
  rw [State.inputAt_eq]
  split <;> simp

/-- A limit of the input removes core power from stage 5 on. -/
theorem State.inputAt_removePower (v : Nat) : (s.inputAt v).removePower false = if s.supply.stage < 5 then s.inputAt v else
    (s.inputAt v).restart.onSupply fun x => { x with holdOff := true, thermal := x.thermal || false } := by
  rw [State.removePower, State.inputAt_stage]

/-- An input that comes back does so within the range. -/
theorem inRange_comesBack (v n : Nat) : inRange (if inRange v = true then v else 4000 + n % 1401) = true := by
  have free := Nat.mod_lt n (show 0 < 1401 by decide)
  split
  · assumption
  · simp [inRange]
    omega

/-- Settles O2: what removes core power puts the start at stage 3, held; the four limits, each by its guard. The energy and the figures are
as log entry 52 has them, and the input comes back at a free voltage where none within the range was reported (log entry 53). -/
theorem inputAndJunctionLimitsRemoveCorePower : Obligations.InputAndJunctionLimitsRemoveCorePower := by
  unfold Obligations.InputAndJunctionLimitsRemoveCorePower
  intro at_ held
  refine ⟨fun s hot => ?held, fun v s on out lo => ?leaves, fun v s on high => ?above, fun v s on low lo => ?below,
    fun m sensor s core => ?junction, fun s hot in_ => ?thermal, fun s on waits => ?stable⟩
  case held =>
    have kept := s.restart_lasting
    simp only [State.lasting, Prod.mk.injEq] at kept
    obtain ⟨mem, store, fuses, pending⟩ := kept
    refine ⟨rfl, ?_, rfl, mem, store, fuses, pending⟩
    simp [State.startHeld, held]
  case leaves =>
    refine congrArg Host.Outcome.next ((if_neg (by simp [on, out, lo])).trans ?_)
    by_cases ramp : s.supply.stage = 5
    · simp [held, State.onSupply, ramp]
    · simp [State.onSupply, ramp]
  case above =>
    have at_eq : at_ s v.toNat = s.inputAt v.toNat := (s.inputAt_eq v.toNat).symm
    rw [at_eq]
    exact congrArg Host.Outcome.next ((if_neg (by simp [on, high])).trans (s.inputAt_removePower v.toNat))
  case below =>
    have at_eq : at_ s v.toNat = s.inputAt v.toNat := (s.inputAt_eq v.toNat).symm
    rw [at_eq]
    exact congrArg Host.Outcome.next ((if_neg (by simp [on, low, lo])).trans (s.inputAt_removePower v.toNat))
  case junction => exact congrArg Host.Outcome.next (if_neg (by omega))
  case thermal => exact congrArg Host.Outcome.next (if_neg (by simp [hot, in_]))
  case stable =>
    have resumes : inputStableInRange s = _ := if_neg (by
      rintro (off | ⟨clear, in_⟩)
      · exact on off
      · simp [clear, in_] at waits)
    exact ⟨_, inRange_comesBack _ _, fun in_ => if_pos in_, congrArg Host.Outcome.next resumes⟩

/-! ## SUPPLY_CTL and MILLER_RESET (R510, R523, R527, R529) -/

/-- POWER_DOWN is accepted with core power on and no command running. -/
theorem State.powerDown_of_idle (core : s.corePower = true) (idle : s.noCommand = true) : s.powerDown =
    (true, (({ s.tally .supply 6 1 with nv := { s.nv with orderly := true } } : State).coreOff 4).onSupply fun x => { x with standby := true }) := by
  rw [State.powerDown, if_neg (by simp [core, idle])]
  rfl

theorem State.powerDown_of_busy (busy : s.corePower = false ∨ s.noCommand = false) : s.powerDown = (false, s) := by
  refine if_pos ?_
  obtain off | runs := busy
  · simp [off]
  · simp [runs]

theorem State.supplyCtl_powerOn (p : Path) : s.supplyCtl p 2 = { s with supply := { s.supply with powerOn := true } } := rfl
theorem State.supplyCtl_releaseCap (p : Path) : s.supplyCtl p 1 = { s with supply := { s.supply with storm := false, trips := [] } } := rfl
theorem State.supplyCtl_moduleReset (p : Path) : s.supplyCtl p 8 = s.restart := rfl
theorem State.supplyCtl_powerDown (p : Path) : s.supplyCtl p 4 =
    match s.powerDown with
    | (true, t) => t
    | (false, t) => t.accessErr p (Page.base .supply + 0x10C) true 4 .value := rfl

theorem State.millerResetWrite_eq (p : Path) (m : MillId) : s.millerResetWrite p m 1 =
    if p = .chain ∨ p = sysPath m.other then s.millerReset m
    else s.accessErr p (Page.base (.power m) + 0x118) true 1 .path := by
  rw [State.millerResetWrite, if_neg (by decide)]

/-- Settles O4: each bit of SUPPLY_CTL by its action, and MILLER_RESET by the path that writes it. That a power-down that is refused has
cause VALUE is a reading of the model (log entry 53). -/
theorem supplyControlWritesDoTheirActions : Obligations.SupplyControlWritesDoTheirActions := by
  unfold Obligations.SupplyControlWritesDoTheirActions
  refine ⟨fun p s ha => ⟨?_, ?_, ?_, fun core idle => ?down, fun busy => ?refused⟩, fun p m s ha => ⟨fun may => ?_, fun chain system => ?_⟩⟩
  · exact congrArg Host.Outcome.next ((powerOn_eq s p ha).trans (State.supplyCtl_powerOn _ p))
  · exact congrArg Host.Outcome.next ((releaseCap_eq s p ha).trans (State.supplyCtl_releaseCap _ p))
  · exact congrArg Host.Outcome.next ((moduleReset_eq s p ha).trans (State.supplyCtl_moduleReset _ p))
  case down =>
    have same := State.countAccess_eq s p 5
    refine congrArg Host.Outcome.next ((powerDown_eq s p ha).trans ?_)
    rw [State.supplyCtl_powerDown, State.powerDown_of_idle _ (by rw [same]; exact core) (by rw [same]; exact idle)]
    rfl
  case refused =>
    have same := State.countAccess_eq s p 5
    refine congrArg Host.Outcome.next ((powerDown_eq s p ha).trans ?_)
    rw [State.supplyCtl_powerDown, State.powerDown_of_busy _ (by rw [same]; exact busy)]
  · refine congrArg Host.Outcome.next ((millerReset_eq s p m ha).trans ?_)
    rw [State.millerResetWrite_eq, if_pos may]
  · refine congrArg Host.Outcome.next ((millerReset_eq s p m ha).trans ?_)
    rw [State.millerResetWrite_eq, if_neg (not_or.2 ⟨chain, system⟩)]

end Sys2Proof.Machine
end

section
/-! PROOFS of 14_miller_power_clock.md: the stages of the start, the brakes, core voltage and gating (R505 to R513, R523 to R526). -/

namespace Sys2Proof.Machine

variable (s : State)

/-! ## What raises and records leave of PERST_N (R462) -/

theorem State.sendRoute_perst (r : Nat) : (s.sendRoute r).host.perst = s.host.perst := by
  have sends (t : State) (msg : PcieMsg) : (t.hostSend msg).host.perst = t.host.perst := by
    unfold State.hostSend
    cases msg <;> (repeat' split) <;> rfl
  unfold State.sendRoute State.sendMsix
  split
  · split
    · rfl
    · split
      · rfl
      · exact sends s _
  · rfl

theorem State.trigOnEvent_host (m : MillId) (p : Page) (bit : Nat) : (s.trigOnEvent m p bit).host = s.host := by
  unfold State.trigOnEvent State.logTrigger
  split
  · split <;> simp
  · rfl

theorem State.toSystem_host (p : Page) (bit : Nat) (nmi : Bool) : (s.toSystem p bit nmi).host = s.host :=
  State.forAll_part _ State.host _ _ fun t m => by simp [State.ctrlMsg]

theorem State.fifoFull_perst : s.fifoFull.host.perst = s.host.perst := by
  unfold State.fifoFull
  simp only
  split
  · rfl
  · split
    · rfl
    · split
      · split
        · rw [State.sendRoute_perst, State.tally_host, State.toSystem_host, State.trigOnEvent_host, State.trigOnEvent_host]
          rfl
        · rw [State.toSystem_host, State.trigOnEvent_host, State.trigOnEvent_host]
          rfl
      · rw [State.trigOnEvent_host, State.trigOnEvent_host]
        rfl

theorem State.toHost_perst (p : Page) (bit : Nat) : (s.toHost p bit).host.perst = s.host.perst := by
  unfold State.toHost
  split
  · rfl
  · split
    · rw [State.sendRoute_perst]
      split
      · rfl
      · exact s.fifoFull_perst
    · rfl

theorem State.raise_perst (p : Page) (bit : Nat) : (s.raise p bit).host.perst = s.host.perst := by
  unfold State.raise
  simp only
  split
  · rfl
  · split
    · rw [State.deliver, State.toHost_perst, State.toSystem_host, State.trigOnEvent_host, State.trigOnEvent_host]
      rfl
    · split
      · rw [State.toSystem_host, State.trigOnEvent_host, State.trigOnEvent_host]
        rfl
      · rw [State.trigOnEvent_host, State.trigOnEvent_host]
        rfl

theorem State.histWrite_host (r : HistRec) (injected : Bool) : (s.histWrite r injected).host = s.host := by
  have takes (t : State) : (t.takeInj .history 2).2.host = t.host := by
    unfold State.takeInj
    split <;> rfl
  have room (t : State) (k : Nat) : (t.historyRoom k).host = t.host := by
    unfold State.historyRoom
    split <;> rfl
  unfold State.histWrite
  split
  · rfl
  · simp only
    split
    · exact takes s
    · exact (room _ _).trans (takes s)

theorem State.retireUnit_host (u : Nat × Nat) : (s.retireUnit u).host = s.host := by
  unfold State.retireUnit
  split <;> rfl

theorem State.repairRow_perst (m : MillId) (n : Fin 24) (row : Nat) : (s.repairRow m n row).host.perst = s.host.perst := by
  unfold State.repairRow
  split
  · rfl
  · split
    · exact congrArg HostPort.perst (State.onMill_host _ _ _)
    · rw [State.retireUnit_host, State.raise_perst]

theorem State.unitFailed_perst (u : Nat × Nat) : (s.unitFailed u).host.perst = s.host.perst := by
  have retires (t : State) (c : Prop) [Decidable c] : (if c then t.retireUnit u else t).host = t.host := by
    split
    · exact t.retireUnit_host u
    · rfl
  unfold State.unitFailed
  simp only
  split
  · split
    · rw [State.repairRow_perst, State.histWrite_host]
    · rw [State.histWrite_host]
  · split
    · refine congrArg HostPort.perst ((State.onMill_host _ _ _).trans ((State.onMill_host _ _ _).trans ?_))
      exact (retires _ _).trans (s.histWrite_host _ _)
    · exact congrArg HostPort.perst ((retires _ _).trans (s.histWrite_host _ _))

theorem State.portsSettle_host : s.portsSettle.host = s.host :=
  State.forAll_part _ State.host _ _ fun t p => by split <;> rfl

/-- The units that failed and the ports that did not train leave PERST_N. -/
theorem State.settled_perst (us : List (Nat × Nat)) : (us.foldl State.unitFailed s).portsSettle.host.perst = s.host.perst :=
  (congrArg HostPort.perst (State.portsSettle_host _)).trans (State.forAll_part _ (fun t => t.host.perst) us _ fun t u => t.unitFailed_perst u)

/-! ## The stages of the start (R523 to R526) -/

/-- A link that is up as stage 7 completes is the host's. -/
theorem State.linked_at_eight (r : StageReport) (out : s.host.perst = false) :
    (if s.host.perst = true then s else s.linkSet r.pcieWidth r.pcieSpeed r.pcieFlit).onSupply (fun x => { x with stage := 8 }) =
      { s with
        host := { s.host with link := 2, width := r.pcieWidth, speed := r.pcieSpeed, flit := r.pcieFlit, d3 := false, busMaster := true,
                              msixEnable := true }
        supply := { s.supply with stage := 8 } } := by
  rw [if_neg (by simp [out])]
  rfl

/-- Settles O3: a start that nothing holds, stage by stage. The tallies and flags of a start are as log entry 53 has them, and what it leaves
of the island's work as log entry 54 has it. -/
theorem startupPassesItsStages : Obligations.StartupPassesItsStages := by
  unfold Obligations.StartupPassesItsStages
  intro r s free stg
  have stage {t : State} (h : startupStageDone r s = t) : exec (.startupStageDone r) s = .next t := congrArg Host.Outcome.next h
  refine ⟨fun k in_ => stage ?_, fun k => stage ?_, fun k => stage ?_, fun k known => stage ?_, fun k on => stage ?_, fun k => stage ?_,
    fun k out up => stage ?_, fun k held => stage ?_, fun k => stage ?_⟩ <;>
    simp only [startupStageDone, free, k, Bool.false_eq_true, if_false]
  · rw [if_pos in_]
    rfl
  · rfl
  · rw [if_neg (not_and_or.2 known)]
    rfl
  · have starts : (!(s.supply.powerOn || s.bit .supply 0x114 0 && !s.supply.standby)) = false := by
      obtain on | ⟨auto, clear⟩ := on
      · simp [on]
      · simp [auto, clear]
    rw [starts]
    cases r.railOk <;> rfl
  · simp only [State.forAll]
    rfl
  · have perst := s.settled_perst (s.stageUnits 7 r.failed)
    rw [out] at perst
    rw [if_neg (by simp [up]), State.forAll]
    exact State.linked_at_eight ((s.stageUnits 7 r.failed).foldl State.unitFailed s).portsSettle r perst
  · have perst := s.settled_perst (s.stageUnits 7 r.failed)
    rw [held] at perst
    rw [if_neg (by simp [held]), State.forAll, if_pos perst]
    rfl
  · rfl

/-! ## The power brake (R507, R508) -/

/-- A sample of `w` watts enters the measured power, the mean and the energy; whether it brakes is as given. -/
def State.sampled (w : Nat) (brakes : Bool) : State :=
  ({ s with supply := { s.supply with
      inputW := w, samples := (w :: s.supply.samples).take 10000, excursion := if s.inputLimit < w then s.supply.excursion + 1 else 0
      energy := (s.supply.energy + w) % 1000, braking := brakes } }.tally .supply 4 ((s.supply.energy + w) / 1000)).tally .supply 1
    (boolNat (decide (s.inputLimit < w) && s.supply.excursion == 0))

/-- Does a sample of `w` watts brake: by itself, by its excursion, or by the mean? -/
def State.sampleBrakes (w : Nat) : Bool :=
  decide (4700 < w) || decide (s.fld .supply 0x100 13 4 * 1000 ≤ if s.inputLimit < w then s.supply.excursion + 1 else 0) ||
    decide (s.inputLimit < ((w :: s.supply.samples).take 10000).sum / max 1 ((w :: s.supply.samples).take 10000).length)

/-- What a sample does: it is taken, and lowers the caps where it brakes, with an event where it begins to. -/
theorem inputSample_eq (watts : BitVec 13) (up : 2 ≤ s.supply.stage) (calm : s.injects .supply 1 = false) : inputSample watts s =
    let brakes := s.sampleBrakes watts.toNat
    let t := s.sampled watts.toNat brakes
    if !brakes || !s.corePower then t else if s.supply.braking then t.lowerCap 4 else (t.lowerCap 4).raise .supply 0 := by
  rw [inputSample, if_neg (by omega)]
  simp only [calm, Bool.false_eq_true, if_false]
  rfl

/-- Settles O6: a sample is taken as the model takes it, and the caps of both mills rise by a step. The energy and the mean are those of the
samples held (log entry 52). -/
theorem powerBrakeFollowsTheSamples : Obligations.PowerBrakeFollowsTheSamples := by
  unfold Obligations.PowerBrakeFollowsTheSamples
  refine ⟨fun watts s up calm => ?sample, fun s core storm mean => ?raise⟩
  case sample =>
    intro w above e samples excursion hit t
    have begins : boolNat (decide (s.inputLimit < w) && s.supply.excursion == 0) = if above ∧ s.supply.excursion = 0 then 1 else 0 := by
      by_cases a : above <;> by_cases b : s.supply.excursion = 0 <;> simp [above, a, b, boolNat]
    have brakes : s.sampleBrakes w = decide hit := by simp [hit, State.sampleBrakes, Bool.or_assoc, samples, excursion, above]
    have taken : s.sampled w (decide hit) = t := by rw [State.sampled, begins]
    refine congrArg Host.Outcome.next ((inputSample_eq s watts up calm).trans ?_)
    simp only [w] at brakes taken
    simp only [brakes, taken]
    exact if_congr (by simp) rfl rfl
  case raise => exact congrArg Host.Outcome.next (if_neg (by simp [core, storm, mean]))

/-! ## The emergency brake (R509, R510) -/

/-- What the brakes go by: the supply, TIME_NOW, and VMIN, the cap and the controller's voltage of each mill. -/
def State.rails : Supply × W64 × (MillId → Nat × Nat × Nat) :=
  (s.supply, s.time, fun m => (s.vmin m, (s.mill m).power.vcap, (s.mill m).power.vctl))

theorem State.rails_iff {t : State} : t.rails = s.rails ↔ t.supply = s.supply ∧ t.time = s.time ∧
    ∀ m, t.vmin m = s.vmin m ∧ (t.mill m).power.vcap = (s.mill m).power.vcap ∧ (t.mill m).power.vctl = (s.mill m).power.vctl := by
  simp [State.rails, funext_iff]

theorem State.tally_rails (p : Page) (k n : Nat) : (s.tally p k n).rails = s.rails :=
  (State.rails_iff s).2 ⟨rfl, rfl, fun m => ⟨rfl, by simp, by simp⟩⟩

theorem State.raise_rails (p : Page) (bit : Nat) : (s.raise p bit).rails = s.rails :=
  (State.rails_iff s).2 ⟨by simp, by simp, fun m => ⟨(SparesStones.raise s p bit).fld _ (by decide) (by decide) _ _, by simp, by simp⟩⟩

theorem State.holdStones_rails : s.holdStones.rails = s.rails := by
  refine State.forAll_part _ State.rails _ _ fun t m => State.forAll_part _ State.rails _ _ fun t n => ?_
  split
  · rw [State.raise_rails, State.tally_rails]
  · rfl

/-- A core current that a trip reports is the one measured. -/
theorem State.onPower_coreA_rails (m : MillId) (a : Nat) : (s.onPower m fun p => { p with coreA := a }).rails = s.rails := by
  refine (State.rails_iff s).2 ⟨by simp, by simp, fun k => ?_⟩
  cases m <;> cases k <;> exact ⟨rfl, rfl, rfl⟩

/-- The caps fall by as many steps, from the controller's voltage where it was lifted, and no lower than VMIN. -/
theorem State.lowerCap_rails (n : Nat) : (s.lowerCap n).rails = (s.supply, s.time, fun m =>
    (s.vmin m, max (s.vmin m) (min (s.mill m).power.vcap (s.mill m).power.vctl - n), (s.mill m).power.vctl)) := by
  refine Prod.ext (by simp [State.rails, State.lowerCap, State.forAll]) (Prod.ext (by simp [State.rails, State.lowerCap, State.forAll]) ?_)
  funext m
  cases m <;> rfl

/-- A core current that trips is recorded with its event. -/
def State.tripCause (c : TripCause) : State :=
  match c with
  | .current m a =>
    let trip := s.trips c
    let t := s.onPower m fun p => { p with coreA := a.toNat }
    if trip then (t.tally (.power m) 8 1).raise (.power m) 1 else t
  | .power _ => s

/-- A trip begins: the handshakes are held, unless they are. -/
def State.tripBegun (c : TripCause) : State := (if s.supply.ebrake then s else s.holdStones).tripCause c

/-- The trips of the last second, with one at a time. -/
def tripTimes (now : Nat) (trips : List Nat) : List Nat := (now :: trips).filter fun t => decide (now < t + 1000000000)

/-- A trip is noted, and lowers the caps. -/
def State.tripNoted : State :=
  (((s.onSupply fun x => { x with ebrake := true, trips := tripTimes s.time.toNat x.trips }).tally .supply 2 1).raise .supply 1).lowerCap 20

/-- The caps of both mills go to VMIN. -/
def State.capsAtVmin : State :=
  s.forAll [MillId.m0, .m1] fun s m =>
    let lo := s.vmin m
    s.onPower m fun p => { p with vcap := lo }

theorem State.capsAtVmin_rails : s.capsAtVmin.rails = (s.supply, s.time, fun m => (s.vmin m, s.vmin m, (s.mill m).power.vctl)) := by
  refine Prod.ext (by simp [State.rails, State.capsAtVmin, State.forAll]) (Prod.ext (by simp [State.rails, State.capsAtVmin, State.forAll]) ?_)
  funext m
  cases m <;> rfl

/-- A storm begins: the caps go to VMIN. -/
def State.stormBegun : State := ((s.onSupply fun x => { x with storm := true }).raise .supply 2).capsAtVmin

theorem ebrakeTrip_eq (c : TripCause) (core : s.corePower = true) (calm : s.injects .supply 2 = false) (trip : s.trips c = true) :
    ebrakeTrip c s =
      let t := (s.tripBegun c).tripNoted
      if t.supply.trips.length < 16 ∨ t.supply.storm = true then t else t.stormBegun := by
  unfold ebrakeTrip
  simp only [s.takeInj_of_not_injects calm, core, trip, Bool.not_true, Bool.or_true, Bool.or_self, Bool.false_eq_true, if_false]
  rfl

theorem State.tripBegun_rails (c : TripCause) : (s.tripBegun c).rails = s.rails := by
  have cause (t : State) : (t.tripCause c).rails = t.rails := by
    cases c with
    | current m a =>
      unfold State.tripCause
      simp only
      split
      · rw [State.raise_rails, State.tally_rails, State.onPower_coreA_rails]
      · rw [State.onPower_coreA_rails]
    | power w => rfl
  rw [State.tripBegun, cause]
  split
  · rfl
  · exact s.holdStones_rails

theorem State.tripNoted_rails : s.tripNoted.rails = ({ s.supply with ebrake := true, trips := tripTimes s.time.toNat s.supply.trips },
    s.time, fun m => (s.vmin m, max (s.vmin m) (min (s.mill m).power.vcap (s.mill m).power.vctl - 20), (s.mill m).power.vctl)) := by
  obtain ⟨supply, time, mills⟩ := (State.rails_iff _).1 ((State.raise_rails _ .supply 1).trans
    ((s.onSupply fun x => { x with ebrake := true, trips := tripTimes s.time.toNat x.trips }).tally_rails .supply 2 1))
  rw [State.tripNoted, State.lowerCap_rails, supply, time]
  simp only [fun m => (mills m).1, fun m => (mills m).2.1, fun m => (mills m).2.2]
  rfl

theorem State.stormBegun_rails : s.stormBegun.rails = ({ s.supply with storm := true }, s.time, fun m =>
    (s.vmin m, s.vmin m, (s.mill m).power.vctl)) := by
  obtain ⟨supply, time, mills⟩ := (State.rails_iff _).1 ((s.onSupply fun x => { x with storm := true }).raise_rails .supply 2)
  rw [State.stormBegun, State.capsAtVmin_rails, supply, time]
  simp only [fun m => (mills m).1, fun m => (mills m).2.2]
  rfl

/-- Settles O7: the rails after a trip, with a storm or without, and the release below 90 % of the limit on both mills. -/
theorem emergencyBrakeTripsAndReleases : Obligations.EmergencyBrakeTripsAndReleases := by
  unfold Obligations.EmergencyBrakeTripsAndReleases
  refine ⟨fun c s core calm trip => ?trip, fun a0 a1 s on lo0 lo1 => ?release⟩
  case trip =>
    set t := (s.tripBegun c).tripNoted with ht
    obtain ⟨supply, time, mills⟩ := (State.rails_iff s).1 (s.tripBegun_rails c)
    have noted := (s.tripBegun c).tripNoted_rails
    rw [← ht] at noted
    simp only [State.rails, Prod.mk.injEq, supply, time, fun m => (mills m).1, fun m => (mills m).2.1, fun m => (mills m).2.2,
      funext_iff] at noted
    obtain ⟨tsupply, -, tmills⟩ := noted
    have does := ebrakeTrip_eq s c core calm trip
    by_cases few : t.supply.trips.length < 16 ∨ t.supply.storm = true
    · refine ⟨t, congrArg Host.Outcome.next (does.trans (if_pos few)), ?_⟩
      simp only [tsupply] at few ⊢
      refine ⟨trivial, by simp [State.halted, tsupply], rfl, ⟨.inl, fun h => ?_⟩, fun calm many => ?_, fun _ m => (tmills m).2.1,
        fun m => (tmills m).2.2⟩
      · exact h.elim id fun many => few.resolve_left (Nat.not_lt.2 many)
      · exact absurd (few.resolve_left (Nat.not_lt.2 many)) (by simp [calm])
    · obtain ⟨many, calm⟩ := not_or.1 few
      have storm := t.stormBegun_rails
      simp only [State.rails, Prod.mk.injEq, tsupply, fun m => (tmills m).1, fun m => (tmills m).2.2, funext_iff] at storm
      obtain ⟨usupply, -, umills⟩ := storm
      simp only [tsupply] at many calm
      refine ⟨t.stormBegun, congrArg Host.Outcome.next (does.trans (if_neg few)), ?_⟩
      simp only [usupply]
      refine ⟨trivial, by simp [State.halted, usupply], rfl, ⟨fun _ => .inr (Nat.not_lt.1 many), fun _ => trivial⟩, fun _ _ m => (umills m).2.1,
        fun h => absurd h (not_or.2 ⟨many, calm⟩), fun m => (umills m).2.2⟩
  case release => exact congrArg Host.Outcome.next (if_neg (by simp [on, lo0, lo1]))

/-! ## Core voltage (R505, R506) -/

section controller
variable (m : MillId)

/-- The slowest of a list of canaries stands at its place, no canary is slower, and each before it is faster. -/
theorem slowest_spec (rates : List (BitVec 12)) (h : rates ≠ []) : ∃ v i, slowest rates = some (v, i) ∧
    (rates.map (·.toNat))[i]? = some v ∧ (∀ x ∈ rates, v ≤ x.toNat) ∧ (∀ j x, j < i → rates[j]? = some x → v < x.toNat) := by
  induction rates with
  | nil => exact absurd rfl h
  | cons x rates ih =>
    cases hr : slowest rates with
    | none =>
      have empty : rates = [] := by
        by_contra some_
        obtain ⟨v, i, e, -⟩ := ih some_
        simp [e] at hr
      subst empty
      exact ⟨x.toNat, 0, by simp [slowest], by simp, by simp, fun j y lt => absurd lt (by omega)⟩
    | some least =>
      obtain ⟨v, i⟩ := least
      have some_ : rates ≠ [] := by
        rintro rfl
        simp [slowest] at hr
      obtain ⟨w, k, e, at_, least, first⟩ := ih some_
      obtain ⟨rfl, rfl⟩ : w = v ∧ k = i := by simpa [e] using hr
      by_cases le : x.toNat ≤ w
      · refine ⟨x.toNat, 0, by simp [slowest, e, le], by simp, ?_, fun j y lt => absurd lt (by omega)⟩
        intro y hy
        obtain rfl | hy := List.mem_cons.1 hy
        · exact le_rfl
        · exact le.trans (least y hy)
      · refine ⟨w, k + 1, by simp [slowest, e, le], by simpa using at_, ?_, fun j y lt hy => ?_⟩
        · intro y hy
          obtain rfl | hy := List.mem_cons.1 hy
          · omega
          · exact least y hy
        · cases j with
          | zero =>
            obtain rfl : x = y := by simpa using hy
            omega
          | succ j => exact first j y (by omega) (by simpa using hy)

/-- The controller of a mill stands at a voltage; whether its target is out of reach is noted. -/
def State.setVctl (v : Nat) (un : Bool) : State := s.onMill m fun y => { y with power := { y.power with vctl := v, unreached := un } }

theorem State.setVctl_setVctl (v w : Nat) (un un' : Bool) : (s.setVctl m v un).setVctl m w un' = s.setVctl m w un' := by
  simp [State.setVctl]

theorem State.onPower_vctl (g : Nat → Nat) : (s.onPower m fun p => { p with vctl := g p.vctl }) =
    s.setVctl m (g (s.mill m).power.vctl) (s.mill m).power.unreached := s.onMill_congr m rfl

theorem State.onPower_unreached (b : Bool) : (s.onPower m fun p => { p with unreached := b }) = s.setVctl m (s.mill m).power.vctl b :=
  s.onMill_congr m rfl

/-- The controller's step, by whether CANARY_MIN reaches its target and where the voltage stands between its limits. -/
theorem voltageControlTick_eq (live : s.pageLive (.power m) = true) : voltageControlTick m s =
    let x := (s.mill m).power
    let lo := s.vmin m
    let hi := min (s.vmax m) x.vcap
    let target := s.fld (.power m) 0x100 0 12
    if x.canaryMin < target then
      if x.vctl < hi then (s.setVctl m (x.vctl + 1) x.unreached).tally (.power m) 0 1
      else
        let t := if hi < x.vctl ∧ lo < x.vctl then (s.setVctl m (x.vctl - 1) x.unreached).tally (.power m) 1 1 else s
        if x.unreached then t else (t.setVctl m (t.mill m).power.vctl true).raise (.power m) 0
    else if x.vctl < lo then (s.setVctl m (x.vctl + 1) false).tally (.power m) 0 1
    else if lo < x.vctl ∧ (hi < x.vctl ∨ target < x.canaryMin) then (s.setVctl m (x.vctl - 1) false).tally (.power m) 1 1
    else s.setVctl m x.vctl false := by
  have up : (s.onPower m fun p => { p with vctl := p.vctl + 1 }) = s.setVctl m ((s.mill m).power.vctl + 1) (s.mill m).power.unreached :=
    s.onPower_vctl m (· + 1)
  have down : (s.onPower m fun p => { p with vctl := p.vctl - 1 }) = s.setVctl m ((s.mill m).power.vctl - 1) (s.mill m).power.unreached :=
    s.onPower_vctl m (· - 1)
  have up' (v : Nat) : ((s.setVctl m v false).onPower m fun p => { p with vctl := p.vctl + 1 }) = s.setVctl m (v + 1) false := by
    simp [State.setVctl]
  have down' (v : Nat) : ((s.setVctl m v false).onPower m fun p => { p with vctl := p.vctl - 1 }) = s.setVctl m (v - 1) false := by
    simp [State.setVctl]
  unfold voltageControlTick
  simp only [live, Bool.not_true, Bool.false_eq_true, if_false, up, down, State.onPower_unreached, up', down']

end controller

/-- Settles O8: the slowest canary by induction over the rates, and each case of the controller's step. Of canaries of one rate that with the
lowest index is the slowest (log entry 52). -/
theorem coreVoltageFollowsTheCanaries : Obligations.CoreVoltageFollowsTheCanaries := by
  unfold Obligations.CoreVoltageFollowsTheCanaries
  refine ⟨fun m rates s live calm all => ?canaries, fun m s live => ?tick⟩
  case canaries =>
    obtain ⟨v, i, least, spec⟩ := slowest_spec rates (by rintro rfl; simp at all)
    refine ⟨v, i, congrArg Host.Outcome.next ?_, spec⟩
    have whole : rates.take 32 = rates := List.take_of_length_le (by omega)
    simp only [canaryMeasure, whole, least, live, calm, Bool.not_true, Bool.false_eq_true, if_false]
    rfl
  case tick =>
    intro x hi target put
    have tick := voltageControlTick_eq s m live
    have does {t : State} (h : voltageControlTick m s = t) : exec (.voltageControlTick m) s = .next t := congrArg Host.Outcome.next h
    refine ⟨fun low room => does ?_, fun low top => does ?_, fun low above floor => ⟨_, rfl, does ?_⟩, fun enough under => does ?_,
      fun enough floor above => does ?_, fun enough floor top => does ?_⟩
    · exact tick.trans ((if_pos low).trans (if_pos room))
    · have stays : ¬(hi < x.vctl ∧ s.vmin m < x.vctl) := fun h => h.1.ne top
      refine tick.trans ((if_pos low).trans ((if_neg top.not_gt).trans ?_))
      rw [if_neg stays]
      rfl
    · refine tick.trans ((if_pos low).trans ((if_neg above.not_gt).trans ?_))
      have falls : hi < x.vctl ∧ s.vmin m < x.vctl := ⟨above, floor⟩
      have fallen : (((s.setVctl m (x.vctl - 1) x.unreached).tally (.power m) 1 1).mill m).power.vctl = x.vctl - 1 := by
        rw [State.tally_mill, State.setVctl, State.onMill_mill]
      rw [if_pos falls]
      exact if_congr Iff.rfl rfl (congrArg (fun v => (put _ v true).raise (.power m) 0) fallen)
    · exact tick.trans ((if_neg enough.not_gt).trans (if_pos under))
    · exact tick.trans ((if_neg enough.not_gt).trans ((if_neg floor.not_gt).trans (if_pos ⟨floor, above⟩)))
    · have stays : ¬(s.vmin m < x.vctl ∧ (hi < x.vctl ∨ target < x.canaryMin)) := fun h => h.2.elim top.not_gt fun h => h.ne enough
      exact tick.trans ((if_neg enough.not_gt).trans ((if_neg floor.not_gt).trans (if_neg stays)))

/-! ## Gating (R511 to R513) -/

/-- Settles O9: an idle stone is gated, and a gated one that a bundle has named is powered; either way both of its sets are unwritten. -/
theorem stonesAreGatedAndUngated : Obligations.StonesAreGatedAndUngated := by
  unfold Obligations.StonesAreGatedAndUngated
  refine ⟨fun m n s run live powered idle => ?gate, fun m n s run gated named in_ => ?ungate⟩
  case gate =>
    refine congrArg Host.Outcome.next ((if_neg ?_).trans (congrArg (fun t => State.tally t (.power m) 3 1) (s.onMill_onMill m _ _)))
    simp [run, live, powered, idle]
  case ungate =>
    refine congrArg Host.Outcome.next ((if_neg ?_).trans (congrArg (fun t => State.tally t (.power m) 4 1) (s.onMill_onMill m _ _)))
    simp [run, gated, named, in_]

end Sys2Proof.Machine
end

section
/-! PROOFS of 15_tallies_log.md and 17_register_pages.md: claims and injections (R555 to R558, R600 to R602). -/

namespace Sys2Proof.Machine

variable (s : State) (p : Path) (page : Page)

/-- A number of 32 bits, written as a word of a register access. -/
theorem zeroExtend_ofNat {n : Nat} (h : n < 2 ^ 32) : (BitVec.ofNat 32 n).zeroExtend 64 = BitVec.ofNat 64 n := by
  refine BitVec.eq_of_toNat_eq ?_
  simp only [BitVec.truncate_eq_setWidth, BitVec.toNat_setWidth, BitVec.toNat_ofNat]
  omega

/-! ## CLAIM (R600 to R602) -/

section claim
variable {code : BitVec 4} (lo : 0 < code.toNat) (hi : code.toNat ≤ page.claimCodes)
include lo hi

/-- A write of CLAIM that reaches its page. -/
theorem claimWrite_eq (act : Nat) (small : act < 2 ^ 31) (ha : Accepts s p page) :
    s.regWrite p (page.base + 0x02C) 32 (BitVec.ofNat 64 (code.toNat + act)) =
      (s.countAccess p 5).writeClaim p page (BitVec.ofNat 32 (code.toNat + act)) := by
  have four := code.isLt
  rw [← zeroExtend_ofNat (by omega)]
  exact s.regWrite_header p page _ _ (.inr (.inr (.inr rfl))) (fun _ => by omega) ha rfl ⟨rfl, rfl, rfl, nofun⟩

omit lo hi in
/-- The fields of a word of CLAIM with ACQUIRE. -/
theorem acquireWord_fields : bitsOf (BitVec.ofNat 32 (code.toNat + 16)) 0 4 = code.toNat ∧
    bitOf (BitVec.ofNat 32 (code.toNat + 16)) 4 = true ∧ bitOf (BitVec.ofNat 32 (code.toNat + 16)) 5 = false ∧
    bitsOf (BitVec.ofNat 32 (code.toNat + 16)) 6 2 = 0 ∧ bitOf (BitVec.ofNat 32 (code.toNat + 16)) 15 = false ∧
    bitsOf (BitVec.ofNat 32 (code.toNat + 16)) 20 12 = 0 := by
  revert code
  decide

omit lo hi in
/-- The fields of a word of CLAIM with RELEASE. -/
theorem releaseWord_fields : bitsOf (BitVec.ofNat 32 (code.toNat + 32)) 0 4 = code.toNat ∧
    bitOf (BitVec.ofNat 32 (code.toNat + 32)) 4 = false ∧ bitOf (BitVec.ofNat 32 (code.toNat + 32)) 5 = true ∧
    bitsOf (BitVec.ofNat 32 (code.toNat + 32)) 6 2 = 0 ∧ bitOf (BitVec.ofNat 32 (code.toNat + 32)) 15 = false ∧
    bitsOf (BitVec.ofNat 32 (code.toNat + 32)) 20 12 = 0 := by
  revert code
  decide

/-- ACQUIRE of a code that the page has. -/
theorem State.writeClaim_acquire : s.writeClaim p page (BitVec.ofNat 32 (code.toNat + 16)) =
    if !mayAcquire page code.toNat p then
      s.accessErr p (page.base + 0x02C) true (BitVec.ofNat 32 (code.toNat + 16)) .path
    else (s.claim page code.toNat p.code).2 := by
  obtain ⟨number, acquires, releases, b6, b15, b20⟩ := acquireWord_fields (code := code)
  unfold State.writeClaim
  simp only [number, acquires, releases, b6, b15, b20, ne_eq, not_true_eq_false, Bool.false_eq_true, or_self, and_false, if_false,
    Bool.true_eq_false, or_false]
  rw [if_neg (by omega)]

/-- RELEASE of a code that the page has. -/
theorem State.writeClaim_release : s.writeClaim p page (BitVec.ofNat 32 (code.toNat + 32)) =
    if s.holder page = code.toNat then s.releaseClaim page code.toNat
    else s.accessErr p (page.base + 0x02C) true (BitVec.ofNat 32 (code.toNat + 32)) .claim := by
  obtain ⟨number, acquires, releases, b6, b15, b20⟩ := releaseWord_fields (code := code)
  unfold State.writeClaim
  simp only [number, acquires, releases, b6, b15, b20, ne_eq, not_true_eq_false, Bool.false_eq_true, or_self, and_false, if_false,
    or_false, if_true]
  rw [if_neg (by simp; omega)]

end claim

/-- A claim, where no injection waits: kept by its holder, taken where nobody holds it, and else refused. -/
theorem State.claim_of_calm (code path : Nat) (calm : s.injects .directory 2 = false) : (s.claim page code path).2 =
    if s.holder page = code then s
    else if s.holder page = 0 then ((s.putFld page 0x02C 8 4 code).putFld page 0x02C 12 3 path).tally .directory 2 1
    else (s.putFld page 0x02C 16 4 code).claimBusy page code (s.holder page) path := by
  unfold State.claim State.claimRefused
  simp only [calm, Bool.false_and, Bool.false_eq_true, if_false]
  split_ifs <;> rfl

/-- What a release does beside registers and its timer: nothing of memory, of the injections, or of the claims counted. -/
def State.claimView : List Host.Cell × List InjArm × W64 := (s.mem, s.inj, s.tallyOf .directory 3)

theorem State.dropBit_claimView (off i : Nat) : (s.dropBit page off i).claimView = s.claimView := by
  unfold State.dropBit
  split
  · exact Prod.ext rfl (Prod.ext rfl (State.setGen_tallyOf _ nofun (by decide)))
  · rfl

theorem State.onMill_claimView (m : MillId) (f : Mill → Mill) : (s.onMill m f).claimView = s.claimView := by
  cases m <;> rfl

theorem State.releaseEffect_claimView (code : Nat) : (s.releaseEffect page code).claimView = s.claimView := by
  cases page with
  | clock =>
    unfold State.releaseEffect
    simp only
    split
    · rfl
    · rw [State.dropBit_claimView, State.dropBit_claimView]
  | granary m =>
    unfold State.releaseEffect
    simp only
    split
    · exact State.dropBit_claimView _ _ _ _
    · rfl
  | timer m n =>
    have stopped : (((s.setTimer m n.val none).putFld (.timer m n) 0x100 0 31 0)).claimView = s.claimView := s.onMill_claimView m _
    unfold State.releaseEffect
    simp only
    split
    · exact (State.dropBit_claimView _ _ _ _).trans stopped
    · exact stopped
  | _ => rfl

/-- A claim released is held by nobody, and counted. -/
theorem State.releaseClaim_spec (code : Nat) : (s.releaseClaim page code).holder page = 0 ∧
    (s.releaseClaim page code).tallyOf .directory 3 = s.tallyOf .directory 3 + 1 ∧ (s.releaseClaim page code).mem = s.mem ∧
    (s.releaseClaim page code).inj = s.inj := by
  have view := s.releaseEffect_claimView page code
  simp only [State.claimView, Prod.mk.injEq] at view
  obtain ⟨mem, inj, tally⟩ := view
  refine ⟨State.putFld_fld_self _ _ _ (by decide) (by decide), ?_, mem, inj⟩
  rw [State.releaseClaim, State.tally_tallyOf_self]
  exact congrArg (· + 1) tally

/-! ## INJ_CTL (R555 to R557) -/

/-- The word of INJ_CTL: its action, REPEAT and PARAM. -/
def injWord (act repeats param : Nat) : W32 := BitVec.ofNat 32 (act + 16 * repeats + 65536 * param)

section injWord
variable {act repeats param : Nat} (ha : act = 1 ∨ act = 2) (hr : repeats < 256) (hp : param < 65536)
include ha hr hp

theorem injWord_fields : bitsOf (injWord act repeats param) 4 8 = repeats ∧ bitsOf (injWord act repeats param) 16 16 = param ∧
    bitsOf (injWord act repeats param) 0 2 = act ∧ bitsOf (injWord act repeats param) 12 4 = 0 ∧
    bitOf (injWord act repeats param) 3 = false ∧ bitOf (injWord act repeats param) 0 = (act == 1) ∧
    bitOf (injWord act repeats param) 1 = (act == 2) := by
  have field (lo w : Nat) (h : lo + w ≤ 32) : bitsOf (injWord act repeats param) lo w = natBits _ lo w := natBits_toNat_ofNat _ h
  have one (lo : Nat) (h : lo + 1 ≤ 32) : bitOf (injWord act repeats param) lo = (natBits _ lo 1 == 1) := congrArg (· == 1) (field lo 1 h)
  rw [field 4 8 (by decide), field 16 16 (by decide), field 0 2 (by decide), field 12 4 (by decide), one 3 (by decide), one 0 (by decide),
    one 1 (by decide)]
  obtain rfl | rfl := ha
  · refine ⟨?_, ?_, ?_, ?_, beq_eq_false_iff_ne.2 ?_, beq_iff_eq.2 ?_, beq_eq_false_iff_ne.2 ?_⟩ <;> simp only [natBits] <;> omega
  · refine ⟨?_, ?_, ?_, ?_, beq_eq_false_iff_ne.2 ?_, beq_eq_false_iff_ne.2 ?_, beq_iff_eq.2 ?_⟩ <;> simp only [natBits] <;> omega

/-- A write of INJ_CTL that reaches its page. -/
theorem injWrite_eq (acc : Accepts s p page) (un : Unlocked s p page) :
    s.regWrite p (page.base + 0x024) 32 (BitVec.ofNat 64 (act + 16 * repeats + 65536 * param)) =
      (s.countAccess p 5).writeInjCtl p page (injWord act repeats param) := by
  rw [← zeroExtend_ofNat (by omega)]
  exact s.regWrite_header p page _ _ (.inr (.inr (.inl rfl))) nofun acc rfl ⟨rfl, rfl, rfl, fun _ => un⟩

/-- ARM is refused while the page's injection is armed, and for a code that the page has not. -/
theorem State.writeInjCtl_refused (one : act = 1) (refused : s.injArmed page = true ∨ s.injCode page = 0 ∨ page.injections < s.injCode page) :
    s.writeInjCtl p page (injWord act repeats param) =
      s.accessErr p (page.base + 0x024) true (injWord act repeats param) .value := by
  obtain ⟨-, -, -, -, -, b0, -⟩ := injWord_fields ha hr hp
  exact if_pos ⟨by rw [b0, one]; rfl, refused⟩

/-- What INJ_CTL stores: REPEAT stays as it stands where 0 is written, which is an error. -/
theorem State.writeInjCtl_taken (taken : ¬(act = 1 ∧ (s.injArmed page = true ∨ s.injCode page = 0 ∨ page.injections < s.injCode page))) :
    s.writeInjCtl p page (injWord act repeats param) =
      let n := if repeats = 0 then s.fld page 0x024 4 8 else repeats
      let t := if repeats = 0 then s.accessErr p (page.base + 0x024) true (injWord act repeats param) .value else s
      let t := (t.setWord page 0x024 (injWord act n param)).setGen page
      if act = 1 then { t with inj := t.inj ++ [{ entry := page.entry, left := n, timed := false }] }
      else { t with inj := t.inj.filter fun i => i.entry != page.entry } := by
  obtain ⟨rep, par, acts, b12, b3, b0, b1⟩ := injWord_fields ha hr hp
  unfold State.writeInjCtl
  simp only [rep, par, acts, b12, b3, b0, b1, ne_eq, not_true_eq_false, Bool.false_eq_true, or_self, if_false, beq_iff_eq]
  rw [if_neg taken]
  obtain rfl | rfl := ha <;> rfl

end injWord

theorem State.setGen_inj : (s.setGen page).inj = s.inj := rfl

/-- Settles O54: CLAIM by its word, then by who holds the resource; INJ_CTL by its word; and the end of an injection's time. The codes that
a path may claim a timer with are as log entry 55 has them. -/
theorem claimsAndInjections : Obligations.ClaimsAndInjections := by
  unfold Obligations.ClaimsAndInjections
  refine ⟨fun p page code s ha calm lo hi => ?claim, fun p page repeats param s ha un => ?inj, fun page s => ?ends⟩
  case claim =>
    intro u bad
    have same : u = { s with tallies := u.tallies } := State.countAccess_eq s p 5
    have holder : u.holder page = s.holder page := by rw [same]; rfl
    have calm' : u.injects .directory 2 = false := u.injects_of_unarmed (by rw [same]; exact calm) 2
    have acquires := (claimWrite_eq s p page lo hi 16 (by decide) ha).trans (u.writeClaim_acquire p page lo hi)
    have releases := (claimWrite_eq s p page lo hi 32 (by decide) ha).trans (u.writeClaim_release p page lo hi)
    rw [u.claim_of_calm page code.toNat p.code calm', holder] at acquires
    rw [holder] at releases
    refine ⟨fun may => ?_, fun may => ⟨fun free => ?_, fun own => ?_, fun held other => ?_⟩, fun other => ?_, fun own => ?_⟩
    · exact congrArg Host.Outcome.next (acquires.trans (if_pos (by simp [may])))
    · exact congrArg Host.Outcome.next (acquires.trans ((if_neg (by simp [may])).trans ((if_neg (by omega)).trans (if_pos free))))
    · exact congrArg Host.Outcome.next (acquires.trans ((if_neg (by simp [may])).trans (if_pos own)))
    · exact congrArg Host.Outcome.next (acquires.trans ((if_neg (by simp [may])).trans ((if_neg other).trans (if_neg held))))
    · exact congrArg Host.Outcome.next (releases.trans (if_neg other))
    · obtain ⟨none_, tally, mem, inj⟩ := u.releaseClaim_spec page code.toNat
      refine ⟨_, congrArg Host.Outcome.next (releases.trans (if_pos own)), none_, ?_, mem.trans (by rw [same]), inj.trans (by rw [same])⟩
      exact tally.trans (congrArg (· + 1) (s.countAccess_tallyOf p (i := 5) (q := .directory) (k := 3) (by decide) (by decide) (by decide)))
  case inj =>
    intro u w
    have same : u = { s with tallies := u.tallies } := State.countAccess_eq s p 5
    have armed : u.injArmed page = s.injArmed page := by rw [same]; rfl
    have code : u.injCode page = s.injCode page := by rw [same]; rfl
    have rep : u.fld page 0x024 4 8 = s.fld page 0x024 4 8 := by rw [same]; rfl
    have inj : u.inj = s.inj := by rw [same]
    have arms := injWrite_eq s p page (.inl rfl) repeats.isLt param.isLt ha un
    have may (clear : s.injArmed page = false) (some_ : s.injCode page ≠ 0) (has : s.injCode page ≤ page.injections) :
        ¬(1 = 1 ∧ (u.injArmed page = true ∨ u.injCode page = 0 ∨ page.injections < u.injCode page)) := by
      rw [armed, code, clear]
      rintro ⟨-, armed | none_ | beyond⟩
      · cases armed
      · exact some_ none_
      · exact beyond.not_ge has
    refine ⟨fun refused => ?_, fun clear some_ has repeat_ => ?_, fun clear some_ has zero => ?_, fun repeat_ => ?_⟩
    · exact congrArg Host.Outcome.next (arms.trans (u.writeInjCtl_refused p page (.inl rfl) repeats.isLt param.isLt rfl
        (by rw [armed, code]; exact refused)))
    · have some_times : repeats.toNat ≠ 0 := fun h => repeat_ (BitVec.eq_of_toNat_eq h)
      have done := arms.trans (u.writeInjCtl_taken p page (.inl rfl) repeats.isLt param.isLt (may clear some_ has))
      simp only [if_neg some_times, if_true] at done
      rw [State.setGen_inj, State.setWord_inj, inj] at done
      exact congrArg Host.Outcome.next done
    · have none_ : repeats.toNat = 0 := congrArg BitVec.toNat zero
      have done := arms.trans (u.writeInjCtl_taken p page (.inl rfl) repeats.isLt param.isLt (may clear some_ has))
      simp only [if_pos none_, if_true, rep] at done
      rw [State.setGen_inj, State.setWord_inj] at done
      exact congrArg Host.Outcome.next done
    · have hr : s.fld page 0x024 4 8 < 256 := Nat.mod_lt _ (by decide)
      have hp : s.fld page 0x024 16 16 < 65536 := Nat.mod_lt _ (by decide)
      have done := (injWrite_eq s p page (.inr rfl) hr hp ha un).trans (u.writeInjCtl_taken p page (.inr rfl) hr hp (by omega))
      simp only [if_neg repeat_, show ¬(2 : Nat) = 1 by decide, if_false] at done
      obtain ⟨left, par, -⟩ := injWord_fields (.inr rfl) hr hp
      have stored : ((u.setWord page 0x024 (injWord 2 (s.fld page 0x024 4 8) (s.fld page 0x024 16 16))).setGen page).word page 0x024 =
          injWord 2 (s.fld page 0x024 4 8) (s.fld page 0x024 16 16) :=
        (State.setGen_word_of_ne _ (by decide) (by decide)).trans (State.setWord_word_self ..)
      refine ⟨_, congrArg Host.Outcome.next done, ?_, fun i other => ?_, ?_, ?_, ?_⟩
      · refine List.any_eq_false.2 fun i hi => ?_
        obtain ⟨-, other⟩ := List.mem_filter.1 hi
        simpa using other
      · refine List.mem_filter.trans ?_
        rw [State.setGen_inj, State.setWord_inj, inj]
        exact and_iff_left (bne_iff_ne.2 other)
      · exact (congrArg (bitsOf · 4 8) stored).trans left
      · exact (congrArg (bitsOf · 16 16) stored).trans par
      · exact (show u.mem = s.mem by rw [same])
  case ends =>
    refine ⟨_, rfl, rfl, fun i other => ?_, fun i hi own => ?_⟩
    · refine List.mem_filterMap.trans ⟨fun ⟨x, hx, hxi⟩ => ?_, fun hi => ⟨i, hi, if_neg fun h => other h.1⟩⟩
      split_ifs at hxi with timed last
      · cases hxi
        exact absurd timed.1 other
      · cases hxi
        exact hx
    · obtain ⟨x, hx, hxi⟩ := List.mem_filterMap.1 hi
      split_ifs at hxi with timed last
      · cases hxi
        rfl
      · cases hxi
        simpa using fun t => timed ⟨own, t⟩

end Sys2Proof.Machine
end

section
/-! PROOFS of 16_trust.md: TRUST_CTL, the quote, EXTEND and the setting digest (R567 to R578). -/

namespace Sys2Proof.Machine

variable (s : State) (p : Path)

/-! ## TRUST_CTL: each bit alone -/

theorem State.trustCtl_verify : s.trustCtl p 1 = s.verifyInactive := by simp [State.trustCtl, bitOf, natBits]

theorem State.trustCtl_activate : s.trustCtl p 2 = if s.trust.inactiveOk then { s with nv := { s.nv with prefSlot := !s.trust.bootSlot } }
    else s.accessErr p (Page.base .trust + 0x108) true 2 .value := by simp [State.trustCtl, bitOf, natBits]

theorem State.trustCtl_commit : s.trustCtl p 4 = s.commitSvn := by simp [State.trustCtl, bitOf, natBits]

theorem State.trustCtl_quote : s.trustCtl p 8 = if s.trust.quoteBusy then s.accessErr p (Page.base .trust + 0x108) true 8 .value
    else s.quoteBegin := by simp [State.trustCtl, bitOf, natBits]

theorem State.trustCtl_rotate : s.trustCtl p 16 = if 15 ≤ s.fuses.keyGen then s.accessErr p (Page.base .trust + 0x108) true 16 .value
    else if s.trust.quoteBusy then { s with trust := { s.trust with rotateDue := true } } else s.rotateNow := by
  simp [State.trustCtl, bitOf, natBits]

section calm
variable (calm : s.injArmed .trust = false)
include calm

/-- A verification that is not injected gives the result of the checks, and is counted. -/
theorem State.verifySlot_of_calm (b : Bool) : s.verifySlot b =
    (s.slotResult b, if s.slotResult b = 1 then s.tally .trust 8 1 else (s.tally .trust 8 1).tally .trust 9 1) := by
  unfold State.verifySlot
  rw [s.takeInj_of_not_injects (s.injects_of_unarmed calm 1)]
  rfl

/-- VERIFY_INACTIVE, where no injection waits. -/
theorem State.verifyInactive_of_calm : s.verifyInactive = if s.holder .host ≠ 0 then s.putFld .trust 0x10C 0 3 6 else
    let r := s.slotResult (!s.trust.bootSlot)
    let v := if r = 1 then s.tally .trust 8 1 else (s.tally .trust 8 1).tally .trust 9 1
    { (v.putFld .trust 0x10C 0 3 r).putFld .trust 0x10C 3 8 (s.slotSvn (!s.trust.bootSlot)) with
      trust := { s.trust with inactiveOk := r == 1 } } := by
  unfold State.verifyInactive
  simp only [s.verifySlot_of_calm calm]
  generalize s.slotResult (!s.trust.bootSlot) = r
  by_cases one : r = 1
  · simp only [if_pos one]
    rfl
  · simp only [if_neg one]
    rfl

/-- Leaves are reserved where the next one needs it, and no injection waits. -/
theorem State.reserveLeaf_of_calm : s.reserveLeaf = (true, if s.trust.nextLeaf < s.nv.resEnd then s else
    ({ s with nv := { s.nv with resEnd := s.trust.nextLeaf + 1024 } } : State).tally .trust 7 1) := by
  unfold State.reserveLeaf
  split_ifs
  · rfl
  · simp only [s.takeInj_of_not_injects (s.injects_of_unarmed calm 2)]

end calm

/-! ## Signatures and the rotation -/

/-- What a signature leaves: the measurements, a rotation that waits, the fuses, the store and memory. -/
def State.trustView : List (List Byte) × Bool × Fuses × NonVol × List Host.Cell :=
  (s.trust.meas, s.trust.rotateDue, s.fuses, s.nv, s.mem)

theorem OnlyEvents.trustView {s t : State} (h : OnlyEvents s t) : t.trustView = s.trustView := by rw [h]; rfl

theorem State.keyLeft_trustView : s.keyLeft.trustView = s.trustView := by
  unfold State.keyLeft
  have low : (if keyLeaves - s.trust.nextLeaf < 1024 * s.fld .trust 0x104 1 20 ∧ s.trust.keyLow = false then
      ({ s with trust := { s.trust with keyLow := true } } : State).raise .trust 3 else s).trustView = s.trustView := by
    split
    · exact (OnlyEvents.raise _ _ _).trustView
    · rfl
  extract_lets left t
  split
  · exact (OnlyEvents.raise _ _ _).trustView.trans low
  · exact low

theorem State.sign_trustView (msg : List Byte) : (s.sign msg).2.trustView = s.trustView := by
  unfold State.sign
  split
  · exact State.keyLeft_trustView _
  · rfl

/-- The record of a rotation: the new public key, its generation and the time. -/
def State.rotation : List Byte :=
  Config.identityPublicKey (s.fuses.keyGen + 1) ++ leBytes 4 (s.fuses.keyGen + 1) ++ leBytes 8 s.time.toNat

/-- A rotation to the next generation of the key, with its leaf reserved. -/
def State.rotated : State :=
  let t := (s.sign s.rotation).2
  ({ t with
    nv := { t.nv with rotations := t.nv.rotations ++ [s.rotation ++ (s.sign s.rotation).1], resEnd := 0 }
    fuses := { t.fuses with keyGen := t.fuses.keyGen + 1 }
    trust := { t.trust with nextLeaf := 0, keyLow := false, rotateDue := false } } : State).raise .trust 4

/-- The leaf that a rotation signs with is reserved, where the key has one left. -/
theorem State.reserved_of_calm (calm : s.injArmed .trust = false) : (if s.trust.nextLeaf < keyLeaves then s.reserveLeaf else (true, s)) =
    (true, if s.trust.nextLeaf < keyLeaves then s.reserveLeaf.2 else s) := by
  have ok : s.reserveLeaf.1 = true := congrArg Prod.fst (s.reserveLeaf_of_calm calm)
  split_ifs
  · exact Prod.ext ok rfl
  · rfl

theorem State.rotateNow_of_calm (calm : s.injArmed .trust = false) :
    s.rotateNow = (if s.trust.nextLeaf < keyLeaves then s.reserveLeaf.2 else s).rotated := by
  unfold State.rotateNow
  rw [s.reserved_of_calm calm]
  generalize (if s.trust.nextLeaf < keyLeaves then s.reserveLeaf.2 else s) = t
  simp only [Bool.not_true, Bool.false_eq_true, if_false, State.rotated, State.rotation]

/-- A rotation counts the generation, keeps its record, and begins the new key at leaf 0. -/
theorem State.rotated_spec : s.rotated.fuses = { s.fuses with keyGen := s.fuses.keyGen + 1 } ∧
    (∃ r, s.rotated.nv.rotations = s.nv.rotations ++ [r]) ∧ s.rotated.nv.resEnd = 0 ∧ s.rotated.trust.nextLeaf = 0 ∧
    s.rotated.trust.keyLow = false ∧ s.rotated.trust.meas = s.trust.meas ∧ s.rotated.mem = s.mem := by
  have view := s.sign_trustView s.rotation
  simp only [State.trustView, Prod.mk.injEq] at view
  obtain ⟨meas, -, fuses, nv, mem⟩ := view
  have raised {t : State} : (t.raise .trust 4).fuses = t.fuses ∧ (t.raise .trust 4).nv = t.nv ∧ (t.raise .trust 4).trust = t.trust ∧
      (t.raise .trust 4).mem = t.mem := by
    rw [OnlyEvents.raise t .trust 4]
    exact ⟨rfl, rfl, rfl, rfl⟩
  unfold State.rotated
  obtain ⟨hf, hn, ht, hm⟩ := @raised (_ : State)
  rw [hf, hn, ht, hm]
  exact ⟨by rw [fuses], ⟨_, by rw [nv]⟩, rfl, rfl, rfl, meas, mem⟩

/-- The leaf reserved for a rotation changes the store's reservation alone. -/
theorem State.reserved_keeps (calm : s.injArmed .trust = false) :
    (if s.trust.nextLeaf < keyLeaves then s.reserveLeaf.2 else s).fuses = s.fuses ∧
    (if s.trust.nextLeaf < keyLeaves then s.reserveLeaf.2 else s).nv.rotations = s.nv.rotations ∧
    (if s.trust.nextLeaf < keyLeaves then s.reserveLeaf.2 else s).trust = s.trust ∧
    (if s.trust.nextLeaf < keyLeaves then s.reserveLeaf.2 else s).mem = s.mem := by
  rw [s.reserveLeaf_of_calm calm]
  split_ifs <;> exact ⟨rfl, rfl, rfl, rfl⟩

/-! ## The quote (R573) -/

/-- A write of memory does nothing to the trust unit. -/
theorem trust_portBlind : PortBlind fun s : State => s.trust where
  events h := by
    obtain ⟨_, _, _, _, _, _, _, rfl⟩ := onlyEvents_iff.1 h
    rfl
  nv _ _ := rfl
  inj _ _ := rfl
  wear _ _ := rfl
  worn _ _ := rfl
  codes _ _ := rfl
  drawn _ := rfl
  mem _ _ := rfl
  discard s m line := by simp

theorem State.physWrite_trust (a : Nat) (bs : List Byte) : (s.physWrite a bs).trust = s.trust := by
  rw [State.physWrite, State.onMill_trust, trust_portBlind.rawWrite]

/-- The quote, signed and written at QUOTE_ADDR. -/
def State.quoted : State :=
  let sig := (s.sign s.quoteBody).1
  let u := (s.sign s.quoteBody).2
  let a := u.fld64 .trust 0x160 0 44
  let v := if u.inMem a 8024 = true then u.physWrite a (s.quoteBody ++ sig) else u
  ((({ v with trust := { v.trust with quoteBusy := false } } : State).putFld .trust 0x168 0 2 1).tally .trust 4 1).raise .trust 2

/-- A quote leaves a rotation that waits for it. -/
theorem State.quoted_rotateDue : s.quoted.trust.rotateDue = s.trust.rotateDue := by
  have signed : (s.sign s.quoteBody).2.trust.rotateDue = s.trust.rotateDue := congrArg (·.2.1) (s.sign_trustView s.quoteBody)
  unfold State.quoted
  extract_lets sig u a v
  have same : v.trust = u.trust := by
    unfold v
    split
    · exact State.physWrite_trust _ _ _
    · rfl
  rw [OnlyEvents.raise _ .trust 2]
  exact (congrArg Trust.rotateDue same).trans signed

theorem quoteDone_eq (busy : s.trust.quoteBusy = true) (live : s.pageLive .trust = true) :
    quoteDone s = if s.quoted.trust.rotateDue then s.quoted.rotateNow else s.quoted := by
  unfold quoteDone
  rw [if_neg (by simp [busy, live])]
  rfl

/-! ## EXTEND (R569) -/

/-- The word of MEAS_CTL: the index and EXTEND. -/
theorem extendWord_fields (i : BitVec 3) : loWord (BitVec.ofNat 64 (i.toNat + 8)) = BitVec.ofNat 32 (i.toNat + 8) ∧
    ((BitVec.ofNat 32 (i.toNat + 8)).zeroExtend 64).toNat &&& fieldsMask [wo 0 3, wo 3 1] (fun _ => true) =
      ((BitVec.ofNat 32 (i.toNat + 8)).zeroExtend 64).toNat ∧
    bitsOf (BitVec.ofNat 32 (i.toNat + 8)) 0 3 = i.toNat ∧ bitOf (BitVec.ofNat 32 (i.toNat + 8)) 3 = true := by
  revert i
  decide

theorem extend_eq (i : BitVec 3) (ha : Accepts s p .trust) :
    extend p i s = (s.countAccess p 5).measCtl p (BitVec.ofNat 32 (i.toNat + 8)) := by
  obtain ⟨low, mask, -⟩ := extendWord_fields i
  unfold extend
  rw [State.regWrite_action s p .trust 0x320 _ _ (by decide) (by decide) (by decide) ha
    (by simp [inMsix]) rfl rfl (by decide) (by decide) rfl _ low mask rfl rfl (fun _ _ => rfl) (fun _ _ => rfl)]
  exact act_measCtl _ _ _ _

/-! ## SETTING_DIGEST (R578) -/

/-- The words of the digest, captured for a path that reads the first of them. -/
def State.digestCaptured (ws : List W32) : State :=
  (s.onPath p fun x => { x with digestCap := ws }).reply p ((ws.getD 0 0).zeroExtend 64)

/-- A read of the digest's first word captures the digest. -/
theorem digestReply_eq : (s.readBy p .trust 0x120 ⟨regs 0x120 8 4 [ro 0 32], 0, false⟩).2.reply p
    ((s.readBy p .trust 0x120 ⟨regs 0x120 8 4 [ro 0 32], 0, false⟩).1.zeroExtend 64) = s.digestCaptured p s.digestWords := rfl

theorem State.digestCaptured_spec (ws : List W32) : ((s.digestCaptured p ws).path p).digestCap = ws ∧
    ((s.digestCaptured p ws).path p).reply = (ws.getD 0 0).zeroExtend 64 ∧ (s.digestCaptured p ws).regs = s.regs ∧
    (s.digestCaptured p ws).trust = s.trust ∧ (s.digestCaptured p ws).mem = s.mem := by
  cases p <;> exact ⟨rfl, rfl, rfl, rfl, rfl⟩

/-- Settles O55: TRUST_CTL by its bits, on a state that has counted the access; the quote as `quoteDone` forms it; MEAS_CTL by its word; and
the digest's words as the model reads them. -/
theorem trustControlsAndDigests : Obligations.TrustControlsAndDigests := by
  unfold Obligations.TrustControlsAndDigests
  refine ⟨⟨fun p s ha calm => ?controls, fun s busy live due => ?quoted⟩, fun p i s ha => ?extended, fun s live => ?recomputed,
    fun p s ha => ?read⟩
  case controls =>
    intro u bad
    have same : u = { s with tallies := u.tallies } := State.countAccess_eq s p 5
    have calm' : u.injArmed .trust = false := by rw [same]; exact calm
    have trust : u.trust = s.trust := by rw [same]
    have fuses : u.fuses = s.fuses := by rw [same]
    have nv : u.nv = s.nv := by rw [same]
    have mem : u.mem = s.mem := by rw [same]
    have holder : u.holder .host = s.holder .host := by rw [same]; rfl
    have result (b : Bool) : u.slotResult b = s.slotResult b := by rw [same]; rfl
    have svn (b : Bool) : u.slotSvn b = s.slotSvn b := by rw [same]; rfl
    have verifies := (verifyInactive_eq s p ha).trans ((u.trustCtl_verify p).trans (u.verifyInactive_of_calm calm'))
    have activates := (activate_eq s p ha).trans (u.trustCtl_activate p)
    have commits := (commitSvn_eq s p ha).trans (u.trustCtl_commit p)
    have quotes := (quote_eq s p ha).trans (u.trustCtl_quote p)
    have rotates := (rotate_eq s p ha).trans (u.trustCtl_rotate p)
    rw [State.commitSvn] at commits
    rw [State.quoteBegin, u.reserveLeaf_of_calm calm'] at quotes
    rw [u.rotateNow_of_calm calm'] at rotates
    rw [← trust, ← fuses, ← nv, ← mem, ← holder, ← result, ← svn]
    have next {c d : State} : c = d → (Host.Outcome.next c : Host.Outcome State Fault Refusal) = .next d := congrArg _
    refine ⟨fun held => next (verifies.trans (if_pos held)), fun free => next (verifies.trans (if_neg (not_not_intro free))),
      fun ok => next (activates.trans (if_pos ok)), fun bad => next (activates.trans (if_neg (by simp [bad]))),
      fun old => next (commits.trans (if_pos old)), fun new => next (commits.trans (if_neg new.not_ge)),
      fun busy => next (quotes.trans (if_pos busy)), fun idle none_ => next (quotes.trans ?_), fun idle left kept => next (quotes.trans ?_),
      fun idle left needs => next (quotes.trans ?_), fun last => next (rotates.trans (if_pos last)),
      fun more busy => next (rotates.trans ?_), fun more idle => ?_⟩
    · rw [if_neg (by simp [idle]), if_pos none_]
    · rw [if_neg (by simp [idle]), if_neg left.not_ge, if_pos kept]
    · rw [if_neg (by simp [idle]), if_neg left.not_ge, if_neg needs.not_gt]
      rfl
    · rw [if_neg more.not_ge, if_pos busy]
    · rw [if_neg more.not_ge, if_neg (by simp [idle])] at rotates
      obtain ⟨fuses', rotations, trust', mem'⟩ := u.reserved_keeps calm'
      obtain ⟨key, ⟨r, kept⟩, leaves, leaf, low, meas, memory⟩ :=
        State.rotated_spec (if u.trust.nextLeaf < keyLeaves then u.reserveLeaf.2 else u)
      rw [fuses'] at key
      rw [rotations] at kept
      rw [trust'] at meas
      exact ⟨_, r, next rotates, key, kept, leaves, leaf, low, meas, memory.trans mem'⟩
  case quoted =>
    exact congrArg Host.Outcome.next ((quoteDone_eq s busy live).trans (if_neg (by simp [s.quoted_rotateDue, due])))
  case extended =>
    intro u data
    have same : u = { s with tallies := u.tallies } := State.countAccess_eq s p 5
    have trust : u.trust = s.trust := by rw [same]
    have words (off : Nat) : u.word .trust off = s.word .trust off := by rw [same]; rfl
    obtain ⟨-, -, index, set_⟩ := extendWord_fields i
    have word : extend p i s = _ := extend_eq s p i ha
    unfold State.measCtl at word
    simp only [index, set_, if_true] at word
    have written : data = (List.range 8).flatMap fun k => leBytes 4 (u.word .trust (0x300 + 4 * k)).toNat := by simp only [words, data]
    refine ⟨fun low => congrArg Host.Outcome.next (word.trans (if_pos low)), fun high => ?_⟩
    rw [← trust, written]
    exact congrArg Host.Outcome.next (word.trans (if_neg high.not_gt))
  case recomputed =>
    refine ⟨fun clean => ?_, fun dirty => ?_⟩
    · exact congrArg Host.Outcome.next (if_pos (by simp [clean]))
    · exact congrArg Host.Outcome.next (if_neg (by simp [dirty, live]))
  case read =>
    have same : s.countAccess p 4 = { s with tallies := (s.countAccess p 4).tallies } := State.countAccess_eq s p 4
    have words : (s.countAccess p 4).digestWords = s.digestWords := by rw [same]; rfl
    have read := (s.regRead_readBy p .trust 0x120 _ (by decide) (by decide) ha (by simp [inMsix]) rfl nofun).trans
      (digestReply_eq (s.countAccess p 4) p)
    rw [words] at read
    obtain ⟨cap, reply, regs, trust, mem⟩ := (s.countAccess p 4).digestCaptured_spec p s.digestWords
    exact ⟨_, congrArg Host.Outcome.next read, cap, reply, regs.trans (by rw [same]), trust.trans (by rw [same]), mem.trans (by rw [same])⟩

end Sys2Proof.Machine
end

section
/-! PROOFS of 15_tallies_log.md: the logs and the tensor watch (R541 to R552). -/

namespace Sys2Proof.Machine

variable (s : State) (m : MillId)

/-! ## What events and writes of memory leave of a log -/

/-- What a log is judged by: its samples and its state, a trigger that waits while it is not armed, its LOG_POST and its triggers. -/
def State.logView : (List (BitVec 256) × LogState × Nat × Nat × Bool) × W32 × W64 :=
  let l := (s.mill m).log
  ((l.ring, l.st, l.age, l.postLeft, l.st != .armed && l.trigNow), s.word (.log m) 0x114, s.tallyOf (.log m) 4)

/-- A change of a log that keeps its samples and its state. -/
def LogKept (f : Log → Log) : Prop := ∀ l : Log, (f l).ring = l.ring ∧ (f l).st = l.st ∧ (f l).age = l.age ∧ (f l).postLeft = l.postLeft ∧
  ((f l).st != .armed && (f l).trigNow) = (l.st != .armed && l.trigNow)

section view
variable {s m}

theorem logView_congr {t : State} (hr : t.regs = s.regs) (ht : t.tallies = s.tallies)
    (hl : (t.mill m).log = (s.mill m).log) : t.logView m = s.logView m := by
  simp only [State.logView, State.word, State.tallyOf, hr, ht, hl]

variable (s m)

theorem State.onMill_logView (k : MillId) (f : Mill → Mill) (h : ∀ x, (f x).log = x.log) : (s.onMill k f).logView m = s.logView m := by
  refine logView_congr (by simp) (by simp) ?_
  by_cases same : m = k
  · subst same
    rw [State.onMill_mill, h]
  · rw [State.onMill_mill_of_ne _ _ _ _ same]

theorem State.onLog_logView (k : MillId) {f : Log → Log} (h : LogKept f) : (s.onLog k f).logView m = s.logView m := by
  by_cases same : m = k
  · subst same
    obtain ⟨ring, st, age, left, waits⟩ := h (s.mill m).log
    simp only [State.logView, State.onLog, State.onMill_mill, State.word, State.tallyOf, State.onMill_regs, State.onMill_tallies, ring, st,
      age, left]
    rw [st] at waits
    rw [waits]
  · refine logView_congr (by simp) (by simp) ?_
    rw [State.onLog, State.onMill_mill_of_ne _ _ _ _ same]

theorem State.tally_logView (p : Page) {k : Nat} (n : Nat) (hk : k < 16) (h : k ≠ 4 ∨ p ≠ .log m) : (s.tally p k n).logView m = s.logView m := by
  have kept : (s.tally p k n).tallyOf (.log m) 4 = s.tallyOf (.log m) 4 :=
    s.tally_tallyOf_of_ne hk (by decide) (h.symm.imp Ne.symm Ne.symm) n
  simp only [State.logView, State.tally_mill, kept]
  rfl

theorem State.setWord_logView (p : Page) (off : Nat) (v : W32) (hl : off < 0x1000) (h : off ≠ 0x114 ∨ p ≠ .log m) :
    (s.setWord p off v).logView m = s.logView m := by
  have kept : (s.setWord p off v).word (.log m) 0x114 = s.word (.log m) 0x114 :=
    s.setWord_word_page p _ off _ v hl (by decide) (h.symm.imp Ne.symm Ne.symm)
  simp only [State.logView, State.setWord_mill, kept]
  rfl

theorem State.putFld_logView (p : Page) (off lo w v : Nat) (hl : off < 0x1000) (h : off ≠ 0x114 ∨ p ≠ .log m) :
    (s.putFld p off lo w v).logView m = s.logView m := s.setWord_logView m p off _ hl h

theorem State.logTrigger_logView (k : MillId) : (s.logTrigger k).logView m = s.logView m := by
  unfold State.logTrigger
  split
  · next armed =>
    by_cases same : m = k
    · subst same
      simp [State.logView, State.onLog, State.word, State.tallyOf, armed]
    · refine logView_congr (by simp) (by simp) ?_
      rw [State.onLog, State.onMill_mill_of_ne _ _ _ _ same]
  · exact s.tally_logView m _ _ (by decide) (.inl (by decide))
  · exact s.tally_logView m _ _ (by decide) (.inl (by decide))
  · rfl
  · rfl

theorem State.trigOnEvent_logView (k : MillId) (p : Page) (bit : Nat) : (s.trigOnEvent k p bit).logView m = s.logView m := by
  unfold State.trigOnEvent
  split
  · exact s.logTrigger_logView m k
  · rfl

theorem State.toSystem_logView (p : Page) (bit : Nat) (nmi : Bool) : (s.toSystem p bit nmi).logView m = s.logView m := by
  refine s.forAll_part (·.logView m) _ _ fun t k => ?_
  dsimp only
  rw [State.onMiller, State.onMill_logView]
  · exact t.tally_logView m _ _ (by decide) (.inl (by decide))
  · intro x
    rfl

theorem State.sendRoute_logView (r : Nat) : (s.sendRoute r).logView m = s.logView m := by
  have sends (v : Nat) : (s.hostSend (.msix v)).logView m = s.logView m := by
    unfold State.hostSend
    split
    · rfl
    · split
      · rfl
      · exact State.tally_logView _ m _ _ (by decide) (.inl (by decide))
  unfold State.sendRoute State.sendMsix
  split
  · split
    · rfl
    · split
      · rfl
      · exact sends _
  · rfl

theorem State.fifoFull_logView : s.fifoFull.logView m = s.logView m := by
  have counted (t : State) : (t.tally .host 9 1).logView m = t.logView m := t.tally_logView m _ _ (by decide) (.inl (by decide))
  unfold State.fifoFull
  extract_lets full port lost marked noted told
  have hm : marked.logView m = s.logView m := (State.putFld_logView lost m .host _ _ _ _ (by decide) (.inl (by decide))).trans (counted s)
  have hn : noted.logView m = s.logView m := ((State.trigOnEvent_logView _ m .m1 _ _).trans (State.trigOnEvent_logView _ m .m0 _ _)).trans hm
  have ht : told.logView m = s.logView m := (noted.toSystem_logView m _ _ _).trans hn
  split
  · exact counted s
  · split
    · exact counted s
    · split
      · split
        · exact (State.sendRoute_logView _ m _).trans ((counted told).trans ht)
        · exact ht
      · exact hn

theorem State.toHost_logView (p : Page) (bit : Nat) : (s.toHost p bit).logView m = s.logView m := by
  unfold State.toHost
  split
  · rfl
  · split
    · refine (State.sendRoute_logView _ m _).trans ?_
      split
      · exact State.tally_logView _ m _ _ (by decide) (.inl (by decide))
      · exact s.fifoFull_logView m
    · rfl

theorem State.raise_logView (p : Page) (bit : Nat) : (s.raise p bit).logView m = s.logView m := by
  unfold State.raise
  extract_lets marked noted
  have hm : marked.logView m = s.logView m := s.putFld_logView m p _ _ _ _ (by decide) (.inl (by decide))
  have hn : noted.logView m = s.logView m := ((State.trigOnEvent_logView _ m .m1 p bit).trans (marked.trigOnEvent_logView m .m0 p bit)).trans hm
  split
  · rfl
  · split
    · exact ((State.toHost_logView _ m _ _).trans (noted.toSystem_logView m _ _ _)).trans hn
    · split
      · exact (noted.toSystem_logView m _ _ _).trans hn
      · exact hn

theorem State.dropLine_logView (line : Nat) : (s.dropLine line).logView m = s.logView m := by
  unfold State.dropLine
  split
  · rfl
  · exact (State.tally_logView _ m _ _ (by decide) (.inl (by decide))).trans (s.onMill_logView m _ _ fun _ => rfl)

theorem State.physWrite_logView (a : Nat) (bs : List Byte) : (s.physWrite a bs).logView m = s.logView m := by
  rw [State.physWrite, State.onMill_logView _ _ _ _ (by intro x; rfl), State.rawWrite]
  split
  · rfl
  · exact State.forAll_part _ (·.logView m) _ _ fun t line => t.dropLine_logView m line

theorem State.takeInj_logView (p : Page) (code : Nat) : (s.takeInj p code).2.logView m = s.logView m := by
  unfold State.takeInj
  split
  · exact (logView_congr rfl rfl (by cases m <;> rfl)).trans (s.setWord_logView m p _ (s.word p 0x028 + 1) (by decide) (.inl (by decide)))
  · rfl

/-- The spill ring keeps a sample, or loses it, beside the log's own ring (R547, R548). -/
theorem State.spill_logView (x : BitVec 256) : (s.spill m x).logView m = s.logView m := by
  have taken := s.takeInj_logView m (.log m) 1
  unfold State.spill
  split
  · rfl
  · generalize s.takeInj (.log m) 1 = y at taken
    obtain ⟨full, t⟩ := y
    dsimp only at taken ⊢
    split
    · have lost := t.tally_logView m (.log m) (k := 2) 1 (by decide) (.inl (by decide))
      split
      · exact lost.trans taken
      · rw [State.raise_logView, State.onLog_logView, lost]
        · exact taken
        · exact fun _ => ⟨rfl, rfl, rfl, rfl, rfl⟩
    · rw [State.tally_logView _ _ _ _ (by decide) (.inl (by decide)), State.onLog_logView, State.physWrite_logView]
      · exact taken
      · exact fun _ => ⟨rfl, rfl, rfl, rfl, rfl⟩

end view

/-! ## Samples (R541 to R544) -/

theorem State.logState_ne {s : State} {m : MillId} (h : s.logState m = .running ∨ s.logState m = .armed) :
    (s.mill m).log.st = s.logState m := by
  unfold State.logState at h ⊢
  split_ifs at h ⊢
  · simp at h
  · rfl

/-- The sample that a log which runs or is armed keeps. -/
def State.sampleOf (c : Ctx) (x : Stall) (hold trig : Bool) : BitVec 256 :=
  sampleBits s.time (s.ctx m c).pc.toNat (c == .system) false trig hold
    (if c = .system then 0 else (s.mill m).miller.run) (if c = .system then 0 else s.seq m) x

/-- The state in which a log that runs or is armed has kept a sample, also in its spill ring. -/
def State.sampleKept (c : Ctx) (x : Stall) (hold trig : Bool) : State :=
  let s1 := if trig then s.onLog m fun l => { l with spillTrig := l.spillHead } else s
  let s2 := s1.onLog m fun l => { l with ring := (s.sampleOf m c x hold trig :: l.ring).take 8192 }
  ((s2.tally (.log m) 0 1).tally (.log m) 1 (boolNat hold)).spill m (s.sampleOf m c x hold trig)

/-- The state that a trigger sample puts a log into. -/
def State.triggered : State :=
  let n := s.fld (.log m) 0x114 0 24
  let s := (s.onLog m fun l => { l with st := if n = 0 then .captured else .post, age := 0, postLeft := n, trigNow := false }).tally (.log m) 4 1
  let s := s.raise (.log m) 0
  if n = 0 then s.raise (.log m) 1 else s

theorem State.logSample_eq (c : Ctx) (x : Stall) (hold trig : Bool) (live : s.pageLive (.log m) = true)
    (h : s.logState m = .running ∨ s.logState m = .armed) : s.logSample m c x hold trig =
      if trig then (s.sampleKept m c x hold trig).triggered m
      else (s.sampleKept m c x hold trig).onLog m fun l => if 0 < l.age ∨ (l.ring.drop 1).any sampleTrig then { l with age := l.age + 1 } else l := by
  have taken : ¬((!s.pageLive (.log m) || s.logState m == .off || s.logState m == .captured) = true) := by
    obtain h | h := h <;> simp [live, h]
  have before : (s.logState m == .post) = false := by
    obtain h | h := h <;> rw [h] <;> rfl
  unfold State.logSample
  simp only [if_neg taken, before, Bool.false_eq_true, if_false, false_and]
  cases c <;> rfl

/-- A sample kept is the newest of its log's ring, which holds 8,192. -/
theorem State.sampleKept_logView (c : Ctx) (x : Stall) (hold trig : Bool) : (s.sampleKept m c x hold trig).logView m =
    (((s.sampleOf m c x hold trig :: (s.mill m).log.ring).take 8192, (s.logView m).1.2), (s.logView m).2) := by
  unfold State.sampleKept
  extract_lets s1 s2
  have marked : s1.logView m = s.logView m := by
    unfold s1
    split
    · exact s.onLog_logView m m fun _ => ⟨rfl, rfl, rfl, rfl, rfl⟩
    · rfl
  have ring : (s1.mill m).log.ring = (s.mill m).log.ring := congrArg (·.1.1) marked
  rw [State.spill_logView, State.tally_logView _ _ _ _ (by decide) (.inl (by decide)),
    State.tally_logView _ _ _ _ (by decide) (.inl (by decide)), ← marked, ← ring]
  simp [State.logView, s2, State.word, State.tallyOf]

/-- A trigger sample captures the log, or leaves LOG_POST samples to take, and is counted. -/
theorem State.triggered_logView : (s.triggered m).logView m =
    (((s.mill m).log.ring, (if s.fld (.log m) 0x114 0 24 = 0 then .captured else .post), 0, s.fld (.log m) 0x114 0 24, false),
      s.word (.log m) 0x114, s.tallyOf (.log m) 4 + 1) := by
  unfold State.triggered
  extract_lets n begun raised
  have begun_ : begun.logView m = (((s.mill m).log.ring, (if n = 0 then .captured else .post), 0, n, false), s.word (.log m) 0x114,
      s.tallyOf (.log m) 4 + 1) := by
    have counted : begun.tallyOf (.log m) 4 = s.tallyOf (.log m) 4 + 1 :=
      (State.tally_tallyOf_self _ (.log m) 4 1).trans (by simp [State.tallyOf, State.onLog])
    simp only [State.logView, counted]
    simp [begun, State.onLog, State.word]
  have raised_ : raised.logView m = _ := (begun.raise_logView m (.log m) 0).trans begun_
  refine Eq.trans (b := raised.logView m) ?_ raised_
  split
  · exact raised.raise_logView m (.log m) 1
  · rfl

/-- A trigger sample enters the ring, and leaves its log captured or in the post state. -/
theorem State.triggerSample_logView (c : Ctx) (x : Stall) (hold trig : Bool) : ((s.sampleKept m c x hold trig).triggered m).logView m =
    (((s.sampleOf m c x hold trig :: (s.mill m).log.ring).take 8192,
      (if s.fld (.log m) 0x114 0 24 = 0 then .captured else .post), 0, s.fld (.log m) 0x114 0 24, false),
      s.word (.log m) 0x114, s.tallyOf (.log m) 4 + 1) := by
  have kept := s.sampleKept_logView m c x hold trig
  simp only [State.logView, Prod.mk.injEq] at kept
  obtain ⟨⟨ring, -⟩, word, count⟩ := kept
  rw [State.triggered_logView, State.fld, ring, word, count, State.fld]

/-! ## LOG_CTL (R543 to R545) -/

/-- A write of LOG_CTL that names actions alone does them, and is refused where one of them is. -/
theorem logCtl_write (p : Path) (ha : Accepts s p (.log m)) (w : W32) (actions : (w.zeroExtend 64).toNat &&&
    fieldsMask [wo 0 1, wo 1 1, wo 2 1, ro 3 3] (fun _ => true) = (w.zeroExtend 64).toNat) :
    s.regWrite p ((Page.log m).base + 0x118) 32 (w.zeroExtend 64) =
      let r := (s.countAccess p 5).logCtl m w
      if r.1 then r.2 else r.2.accessErr p ((Page.log m).base + 0x118) true w .value := by
  rw [State.regWrite_action s p (.log m) 0x118 _ _ (by decide) (by decide) (by decide) ha
    (by simp [inMsix]) rfl rfl (by decide) (by decide) rfl w (loWord_zeroExtend w) actions rfl rfl (fun _ _ => rfl) (fun _ _ => rfl)]
  rfl

theorem logCtl_refused (p : Path) (ha : Accepts s p (.log m)) {w : W32} (actions : (w.zeroExtend 64).toNat &&&
    fieldsMask [wo 0 1, wo 1 1, wo 2 1, ro 3 3] (fun _ => true) = (w.zeroExtend 64).toNat) {t : State}
    (h : (s.countAccess p 5).logCtl m w = (false, t)) : s.regWrite p ((Page.log m).base + 0x118) 32 (w.zeroExtend 64) =
      t.accessErr p ((Page.log m).base + 0x118) true w .value := by
  simp only [logCtl_write s m p ha w actions, h, Bool.false_eq_true, if_false]

theorem logCtl_taken (p : Path) (ha : Accepts s p (.log m)) {w : W32} (actions : (w.zeroExtend 64).toNat &&&
    fieldsMask [wo 0 1, wo 1 1, wo 2 1, ro 3 3] (fun _ => true) = (w.zeroExtend 64).toNat) {t : State}
    (h : (s.countAccess p 5).logCtl m w = (true, t)) : s.regWrite p ((Page.log m).base + 0x118) 32 (w.zeroExtend 64) = t := by
  simp only [logCtl_write s m p ha w actions, h, if_true]

theorem State.logCtl_arm : s.logCtl m 1 = s.logArm m := by simp [State.logCtl, bitOf, natBits]

theorem State.logCtl_trigNow : s.logCtl m 2 = (true, s.logTrigNow m) := by simp [State.logCtl, bitOf, natBits]

theorem State.logCtl_run : s.logCtl m 4 = s.logRun m := by simp [State.logCtl, bitOf, natBits]

theorem arm_eq (p : Path) : arm p m s = s.regWrite p ((Page.log m).base + 0x118) 32 ((1 : W32).zeroExtend 64) := rfl

theorem trigNow_eq (p : Path) : trigNow p m s = s.regWrite p ((Page.log m).base + 0x118) 32 ((2 : W32).zeroExtend 64) := rfl

theorem logRun_eq (p : Path) : logRun p m s = s.regWrite p ((Page.log m).base + 0x118) 32 ((4 : W32).zeroExtend 64) := rfl

/-! ## WATCH_CLOSE (R550 to R552) -/

/-- The word of WATCH_CLOSE: a bit for each point. -/
theorem closeWord (mask : BitVec 16) : loWord (mask.zeroExtend 64) = mask.zeroExtend 32 ∧
    (((mask.zeroExtend 32).zeroExtend 64).toNat &&& fieldsMask [wo 0 16] fun _ => true) = ((mask.zeroExtend 32).zeroExtend 64).toNat ∧
    ∀ n, bitOf (mask.zeroExtend 32) n = bitOf mask n := by
  have small := mask.isLt
  have narrow : (mask.zeroExtend 32).toNat = mask.toNat := by
    rw [BitVec.zeroExtend_eq_setWidth, BitVec.toNat_setWidth]
    omega
  have wide : ((mask.zeroExtend 32).zeroExtend 64).toNat = mask.toNat := by
    rw [BitVec.zeroExtend_eq_setWidth, BitVec.toNat_setWidth, narrow]
    omega
  refine ⟨?_, ?_, fun n => by rw [bitOf, bitOf, narrow]⟩
  · refine BitVec.eq_of_toNat_eq ?_
    simp only [loWord, BitVec.toNat_ofNat, BitVec.zeroExtend_eq_setWidth, BitVec.toNat_setWidth]
    omega
  · rw [wide, show (fieldsMask [wo 0 16] fun _ => true) = 2 ^ 16 - 1 by decide, Nat.and_two_pow_sub_one_eq_mod, Nat.mod_eq_of_lt small]

/-- A write of WATCH_CLOSE closes the windows of the points it names. -/
theorem watchClose_eq (p : Path) (mask : BitVec 16) (ha : Accepts s p (.watch m)) : watchClose p m mask s =
    (List.range 16).foldl (fun t n => if bitOf mask n = true then t.watchClose m n else t) (s.countAccess p 5) := by
  obtain ⟨low, points, bits⟩ := closeWord mask
  unfold watchClose
  rw [State.regWrite_action s p (.watch m) 0x900 _ _ (by decide) (by decide) (by decide) ha
    (by simp [inMsix]) rfl rfl (by decide) (by decide) rfl _ low points rfl rfl (fun _ _ => rfl) (fun _ _ => rfl)]
  simp only [← bits]
  rfl

/-- The result registers of a watch point as a window closes. -/
def State.watchResults (n : Nat) : State :=
  let w := s.watchPoint m n
  let o := watchOff n
  let p : Page := .watch m
  let s := s.setWord p (o + 0x10) (s.mill m).log.curSeq
  let s := s.setWord64 p (o + 0x18) (BitVec.ofNat 64 w.elems)
  let s := (s.setWord p (o + 0x20) w.min).setWord p (o + 0x24) w.max
  let s := (s.setWord64 p (o + 0x28) w.combine.1).setWord64 p (o + 0x30) w.combine.2
  let s := (s.setWord64 p (o + 0x38) (BitVec.ofNat 64 w.zeros)).setWord64 p (o + 0x40) (BitVec.ofNat 64 w.sat)
  let s := (s.setWord64 p (o + 0x48) (BitVec.ofNat 64 w.nans)).setWord64 p (o + 0x50) w.digest
  let s := s.setWord64 p (o + 0x58) (BitVec.ofNat 64 w.step)
  s.tally p 1 1

theorem State.watchClose_of_open (n : Nat) (is_open : (s.watchPoint m n).openW = true) : s.watchClose m n =
    if (s.watchResults m n).bit (.watch m) (watchOff n) 12 then (s.watchResults m n).watchOpen m n
    else (s.watchResults m n).onWatch m n fun _ => .reset := by
  unfold State.watchClose
  simp only [is_open, Bool.not_true, Bool.false_eq_true, if_false]
  rfl

/-- A window that closes copies its statistics whole. -/
theorem State.watchResults_words (n : Nat) :
    let w := s.watchPoint m n
    let o := 0x100 + 0x80 * n
    let t := s.watchResults m n
    t.word (.watch m) (o + 0x10) = (s.mill m).log.curSeq ∧ t.word64 (.watch m) (o + 0x18) = BitVec.ofNat 64 w.elems ∧
    t.word (.watch m) (o + 0x20) = w.min ∧ t.word (.watch m) (o + 0x24) = w.max ∧ t.word64 (.watch m) (o + 0x28) = w.combine.1 ∧
    t.word64 (.watch m) (o + 0x30) = w.combine.2 ∧ t.word64 (.watch m) (o + 0x38) = BitVec.ofNat 64 w.zeros ∧
    t.word64 (.watch m) (o + 0x40) = BitVec.ofNat 64 w.sat ∧ t.word64 (.watch m) (o + 0x48) = BitVec.ofNat 64 w.nans ∧
    t.word64 (.watch m) (o + 0x50) = w.digest ∧ t.word64 (.watch m) (o + 0x58) = BitVec.ofNat 64 w.step ∧
    t.word (.watch m) o = s.word (.watch m) o := by
  intro w o t
  simp [t, o, w, State.watchResults, watchOff, State.word64, State.setWord64, Nat.add_assoc, State.setWord_word, mkWord64_hiWord_loWord]

theorem State.onWatch_watchPoint_self {n : Nat} (f : WatchPoint → WatchPoint) (h : n < (s.mill m).watch.length) :
    (s.onWatch m n f).watchPoint m n = f (s.watchPoint m n) := by
  simp [State.watchPoint, State.onWatch, listOn, List.getD_eq_getElem?_getD, List.getElem?_eq_getElem h]

theorem State.onWatch_watchPoint_of_ne {n k : Nat} (f : WatchPoint → WatchPoint) (h : n ≠ k) :
    (s.onWatch m n f).watchPoint m k = s.watchPoint m k := by
  simp [State.watchPoint, State.onWatch, listOn, List.getD_eq_getElem?_getD, h]

/-- A window that is open is that of a point the unit has. -/
theorem State.watchPoint_open {n : Nat} (is_open : (s.watchPoint m n).openW = true) : n < (s.mill m).watch.length := by
  by_contra beyond
  rw [State.watchPoint, List.getD_eq_default _ _ (by omega)] at is_open
  cases is_open

/-- The point after its window has closed: empty, and open anew as EN has it. -/
def State.windowAfter (n : Nat) : WatchPoint :=
  let o := watchOff n
  if (s.watchResults m n).bit (.watch m) o 12 then
    { WatchPoint.reset with
      openW := true, cfg := (s.watchResults m n).word (.watch m) o, trig := (s.watchResults m n).word (.watch m) (o + 4),
      absLim := (s.watchResults m n).word (.watch m) (o + 8), satLim := (s.watchResults m n).word (.watch m) (o + 0xC) }
  else .reset

theorem State.windowAfter_openW (n : Nat) : (s.windowAfter m n).openW = (s.watchResults m n).bit (.watch m) (watchOff n) 12 := by
  rw [State.windowAfter]
  split
  · next enabled => exact enabled.symm
  · next disabled => exact (Bool.eq_false_iff.2 disabled).symm

theorem State.watchClose_eq_onWatch (n : Nat) (is_open : (s.watchPoint m n).openW = true) :
    s.watchClose m n = (s.watchResults m n).onWatch m n fun _ => s.windowAfter m n := by
  rw [s.watchClose_of_open m n is_open, State.windowAfter]
  split_ifs <;> rfl

/-! ## LOG_RD_DATA (R549) -/

/-- A read of the first word of LOG_RD_DATA captures the sample's words for its path. -/
theorem logReply_eq (p : Path) : (s.readBy p (.log m) 0x160 ⟨regs 0x160 8 4 [ro 0 32], 0, false⟩).2.reply p
    ((s.readBy p (.log m) 0x160 ⟨regs 0x160 8 4 [ro 0 32], 0, false⟩).1.zeroExtend 64) = s.onPath p fun x =>
      { (match m with | .m0 => { x with logCap0 := s.logWords m } | .m1 => { x with logCap1 := s.logWords m } : PathState) with
        reply := ((s.logWords m).getD 0 0).zeroExtend 64 } := by
  cases p <;> cases m <;> rfl

/-- Settles O28: a sample by the state it is kept in and what events leave of its log; LOG_CTL and WATCH_CLOSE by their words; a window that
closes by its result registers. That another window opens only where none is open is log entry 59. -/
theorem logsAndWatchesRecord : Obligations.LogsAndWatchesRecord := by
  unfold Obligations.LogsAndWatchesRecord
  refine ⟨⟨fun m c s logs held every => ?holds, fun m s armed waits live => ?triggers, fun m c x hold trig s live runs => ?keeps,
    fun p m s ha => ?controls⟩, fun p m s ha => ?reads, fun p m mask s ha => congrArg Host.Outcome.next (watchClose_eq s m p mask ha),
    fun m n s small is_open => ?closes⟩
  case holds =>
    have sampled : logHoldSample m c s = _ := if_neg (by simp [logs, held, every])
    refine congrArg Host.Outcome.next (sampled.trans ?_)
    cases c <;> rfl
  case triggers =>
    have sample := s.logSample_eq m (if s.bit (.log m) 0x100 0 then .user else .system) Stall.none_ false true live (.inr armed)
    have done : logTriggered m s = _ := (if_neg (by simp [armed, waits])).trans (sample.trans (if_pos rfl))
    have after := s.triggerSample_logView m (if s.bit (.log m) 0x100 0 then .user else .system) Stall.none_ false true
    simp only [State.logView, Prod.mk.injEq] at after
    obtain ⟨⟨newest, st, age, left, done_⟩, -, counted⟩ := after
    refine ⟨_, congrArg Host.Outcome.next done, ?_, st, left, age, ?_, counted⟩
    · rw [st] at done_
      split at done_ <;> exact done_
    · rw [newest]
      simp [List.take_succ_cons]
  case keeps =>
    have kept : ((s.sampleKept m c x hold trig).mill m).log.ring = _ := congrArg (·.1.1) (s.sampleKept_logView m c x hold trig)
    rw [s.logSample_eq m c x hold trig live runs]
    split
    · exact (congrArg (·.1.1) (State.triggered_logView _ m)).trans kept
    · refine Eq.trans ?_ kept
      rw [State.onLog, State.onMill_mill]
      dsimp only
      split <;> rfl
  case controls =>
    intro u l put err
    have same : u = { s with tallies := u.tallies } := State.countAccess_eq s p 5
    have log : (u.mill m).log = l := by rw [same]; cases m <;> rfl
    have length : u.fld (.log m) 0x114 0 24 = s.fld (.log m) 0x114 0 24 := by rw [same]; rfl
    have spills : u.bit (.log m) 0x100 7 = s.bit (.log m) 0x100 7 := by rw [same]; rfl
    have kind : u.trigKind m = s.trigKind m := by rw [same]; rfl
    have bounds (short : l.st ≠ .post) (fits : s.fld (.log m) 0x114 0 24 ≤ if s.bit (.log m) 0x100 7 = true then l.spillCap - 1 else 8191) :
        ¬((if u.bit (.log m) 0x100 7 then (u.mill m).log.spillCap - 1 else 8191) < u.fld (.log m) 0x114 0 24 ∨ (u.mill m).log.st = .post) := by
      rw [log, length, spills]
      exact fun h => h.elim fits.not_gt short
    have arms := fun {r : Bool × State} (h : u.logArm m = r) => (u.logCtl_arm m).trans h
    refine ⟨fun refused => congrArg Host.Outcome.next ?_, fun ready fits => congrArg Host.Outcome.next ?_,
      fun post => congrArg Host.Outcome.next ?_, fun ready => congrArg Host.Outcome.next ?_,
      fun five => congrArg Host.Outcome.next ?_, fun other => congrArg Host.Outcome.next ?_⟩
    · have stays : u.logArm m = (false, u) := if_pos (by
        rw [log, length, spills]
        exact refused.symm)
      exact (arm_eq s m p).trans (logCtl_refused s m p ha (by decide) (arms stays))
    · have armed : u.logArm m = (true, put .armed false) := if_neg (bounds ready fits)
      exact (arm_eq s m p).trans (logCtl_taken s m p ha (by decide) (arms armed))
    · have stays : u.logRun m = (false, u) := if_pos (by rw [log, post])
      exact (logRun_eq s m p).trans (logCtl_refused s m p ha (by decide) ((u.logCtl_run m).trans stays))
    · have runs : u.logRun m = (true, put .running l.lostSeen) := (if_neg (by rw [log]; exact ready)).trans
        (congrArg (Prod.mk true) (u.onMill_congr m (by rw [log])))
      exact (logRun_eq s m p).trans (logCtl_taken s m p ha (by decide) ((u.logCtl_run m).trans runs))
    · have triggers : u.logTrigNow m = u.logTrigger m := if_pos (kind.trans five)
      exact (trigNow_eq s m p).trans (logCtl_taken s m p ha (by decide) ((u.logCtl_trigNow m).trans (congrArg (Prod.mk true) triggers)))
    · have stays : u.logTrigNow m = u := if_neg (kind ▸ other)
      exact (trigNow_eq s m p).trans (logCtl_taken s m p ha (by decide) ((u.logCtl_trigNow m).trans (congrArg (Prod.mk true) stays)))
  case reads =>
    have same : s.countAccess p 4 = { s with tallies := (s.countAccess p 4).tallies } := State.countAccess_eq s p 4
    have words : (s.countAccess p 4).logWords m = s.logWords m := by rw [same]; rfl
    have read := (s.regRead_readBy p (.log m) 0x160 _ (by decide) (by decide) ha (by simp [inMsix]) rfl nofun).trans
      (logReply_eq (s.countAccess p 4) m p)
    rw [words] at read
    exact congrArg Host.Outcome.next read
  case closes =>
    intro w o t
    have closed : t = (s.watchResults m n).onWatch m n fun _ => s.windowAfter m n := s.watchClose_eq_onWatch m n is_open
    have words (x : Nat) : t.word (.watch m) x = (s.watchResults m n).word (.watch m) x := by
      rw [closed, State.onWatch, State.onMill_word]
    have doubles (x : Nat) : t.word64 (.watch m) x = (s.watchResults m n).word64 (.watch m) x := by
      rw [State.word64, words, words, State.word64]
    have same : (s.watchResults m n).mill m = s.mill m := by simp [State.watchResults, State.setWord64]
    have point : t.watchPoint m n = s.windowAfter m n := by
      rw [closed, State.onWatch_watchPoint_self _ _ _ (by rw [same]; exact s.watchPoint_open m is_open)]
    obtain ⟨seq, elems, min, max, sum, squares, zeros, sat, nans, digest, step, config⟩ := s.watchResults_words m n
    simp only [words, doubles]
    refine ⟨seq, elems, min, max, sum, squares, zeros, sat, nans, digest, step, ?_, ?_, fun k _ other => ?_, ?_⟩
    · rw [point, State.windowAfter_openW]
      exact congrArg (bitOf · 12) config
    · rw [point, State.windowAfter]
      split <;> rfl
    · rw [closed, State.onWatch_watchPoint_of_ne _ _ _ (Ne.symm other), State.watchPoint, same]
      rfl
    · rw [closed]
      simp [State.onWatch, State.watchResults, State.setWord64]

end Sys2Proof.Machine
end
